-- ==== Sys2Proof/Word.lean ====
section
/-! DEFINITION. The word types, the small enumerations that instruction fields name, and the records that
requests, dead letters and far frames carry. Rules: spec/00 R4, spec/03 R71 and R87, spec/04 R117, spec/06 R172,
spec/14 R364. -/

namespace Sys2Proof

/-- An unqualified word is 64 bits (R4). -/
abbrev Word := BitVec 64

/-- A vector register is 64 bytes (R200). -/
abbrev Vec := BitVec 512

/-- A five-bit register field (R69). -/
abbrev Reg := BitVec 5

/-- The coherence policies, in code order (R71, R103). -/
inductive Pol where
  | own | wis | sis | wt
  deriving DecidableEq, Repr

/-- The ordering suffixes, in code order (R71). -/
inductive Order where
  | plain | acq | rel | ar
  deriving DecidableEq, Repr

/-- The scopes, in code order (R71, R130). -/
inductive Scope where
  | ctx | core | clu | pkg | sys
  deriving DecidableEq, Repr

/-- A tile register field: codes 0-7 are t0-t7 and 8-11 are a0-a3 (R87). -/
inductive TReg where
  | t (n : BitVec 3)
  | a (n : BitVec 2)
  deriving DecidableEq, Repr

/-- The operations of `amo` and `cas`, in code order (R77, R161). -/
inductive AmoOp where
  | add | and | or | xor | min | max | minn | maxn | swap | cas
  deriving DecidableEq, Repr

/-- The requests a home answers (R103, R119, R163). -/
inductive ReqKind where
  | rdT | rdU | rdW | own | wrT | wrS | wrW | putLine | atH | wb
  deriving DecidableEq, Repr

/-- What an ending reply belongs to, for a request sent through the butterflies: a line or an increment of a put, a piece
or an increment of a `put.t` (R238, R290). -/
inductive Tag where
  | none
  | put (cl id : Nat)
  | inc (cl id : Nat)
  | tput (e id : Nat)
  | tinc (e id : Nat)
  deriving DecidableEq, Repr

/-- A request as a home receives it: "names the line and a word mask ... a byte mask and data for writes, an
operation for atomics, and the requester" (R117), with what the Frame Ownership Table check, the postmark and the
dead-letter log need of it (R149, R150, R172, R311). -/
structure Req where
  kind : ReqKind
  /-- Physical address of the line. -/
  line : Nat
  /-- Bit w set when word w of the line is named. -/
  words : BitVec 8
  /-- Byte mask of a write. -/
  mask : BitVec 64
  data : Vec
  op : AmoOp
  /-- Physical address, size in bytes and operands of an atomic. -/
  addr : Nat
  size : Nat
  x : Word
  cmp : Word
  /-- The requesting cluster, numbered over all sockets; none for a unit of no cluster. -/
  src : Option Nat
  tno : BitVec 12
  exempt : Bool
  /-- A put piece or a receipt-counter increment (R311). -/
  isPut : Bool
  /-- A write-back that keeps a copy (R163). -/
  keep : Bool
  /-- The scope of the release this write carries, of the acquire this read makes. -/
  rel : Option Scope
  acq : Option Scope
  /-- The issuing context, numbered over all sockets, and its PC. -/
  origin : Nat
  pc : Word
  dlKind : BitVec 4
  ctr : Nat
  copyRec : Nat
  /-- The congestion mark CM that the message carries when its home takes it (R298). -/
  marked : Bool
  tag : Tag
  /-- Of an increment that counts a far piece, the socket of the package that received the piece (R365). -/
  rsock : Nat := 0
  deriving DecidableEq, Repr

/-- A dead-letter record before it is given its place and time (R172). -/
structure DeadLetter where
  kind : BitVec 4
  tno : BitVec 12
  fote : BitVec 16
  origin : Nat
  pc : Word
  pa : Nat
  mask : BitVec 64
  ctr : Nat
  copyRec : Nat
  deriving DecidableEq, Repr

/-- A far frame: whether its frame check sequence is good, whether it carries a VLAN tag, its Ethernet addresses and
Ethertype, and the transport header's fields with the piece (R364). -/
structure Frame where
  fcsGood : Bool
  vlan : Bool
  macDst : BitVec 48
  macSrc : BitVec 48
  etherType : BitVec 16
  ver : BitVec 4
  type : BitVec 4
  resync : Bool
  src : BitVec 12
  dst : BitVec 12
  len : BitVec 7
  fseq : BitVec 32
  lseq : BitVec 32
  rpa : BitVec 52
  rctr : BitVec 52
  tno : BitVec 16
  data : List (BitVec 8)
  deriving DecidableEq, Repr

/-- The code of a policy (R71). -/
def Pol.code : Pol → Nat
  | .own => 0 | .wis => 1 | .sis => 2 | .wt => 3

/-- The code of an ordering suffix (R71). -/
def Order.code : Order → Nat
  | .plain => 0 | .acq => 1 | .rel => 2 | .ar => 3

/-- The code of a scope (R71). -/
def Scope.code : Scope → Nat
  | .ctx => 0 | .core => 1 | .clu => 2 | .pkg => 3 | .sys => 4

/-- The code of a tile register (R87). -/
def TReg.code : TReg → Nat
  | .t n => n.toNat
  | .a n => 8 + n.toNat

/-- The code of a request in MISS and HOMEREQ event records (R349); put lines and write-backs have none there. -/
def ReqKind.code : ReqKind → Nat
  | .rdT => 0 | .rdU => 1 | .rdW => 2 | .own => 3 | .wrT => 4 | .wrS => 5 | .wrW => 6 | .atH => 7
  | .putLine => 0 | .wb => 0

end Sys2Proof
end

