-- ==== Sys2Proof/Machine/Mem.lean ====
section
/-! DEFINITION. Memory as a list of cells in one canonical form: addresses strictly rising and no cell equal to
what an unlisted address reads as (R108; log 1). Bytes are little-endian within wider values (R66, R194). -/

namespace Sys2Proof.Machine

/-- What a byte of memory that nothing has written reads as. The spec gives no reset contents: DESIGN CHOICE,
unsafe (log 1). -/
def unlisted : BitVec 8 := 0

/-- The byte at an address. -/
def memByte : List Host.Cell → Nat → BitVec 8
  | [], _ => unlisted
  | (k, v) :: rest, q => if k = q then v else if q < k then unlisted else memByte rest q

/-- The memory after one byte is written. -/
def memPut : List Host.Cell → Nat → BitVec 8 → List Host.Cell
  | [], q, b => if b = unlisted then [] else [(q, b)]
  | (k, v) :: rest, q, b =>
    if k = q then (if b = unlisted then rest else (q, b) :: rest)
    else if q < k then (if b = unlisted then (k, v) :: rest else (q, b) :: (k, v) :: rest)
    else (k, v) :: memPut rest q b

/-- The canonical form, below which no cell stands. -/
def wfFrom : Nat → List Host.Cell → Bool
  | _, [] => true
  | lo, (k, v) :: rest => decide (lo ≤ k) && (v != unlisted) && wfFrom (k + 1) rest

/-- The canonical form of a memory. -/
def Memory.wf (m : List Host.Cell) : Bool := wfFrom 0 m

/-- n bytes from an address, the lowest first. -/
def memBytes (m : List Host.Cell) (a : Nat) : Nat → List (BitVec 8)
  | 0 => []
  | n + 1 => memByte m a :: memBytes m (a + 1) n

/-- The memory after a list of bytes is written from an address. -/
def memPuts (m : List Host.Cell) (a : Nat) : List (BitVec 8) → List Host.Cell
  | [] => m
  | b :: rest => memPuts (memPut m a b) (a + 1) rest

/-- The little-endian value of a list of bytes. -/
def leValue : List (BitVec 8) → Nat
  | [] => 0
  | b :: rest => b.toNat + 256 * leValue rest

/-- The n low bytes of a value, the lowest first. -/
def leBytes (x : Nat) : Nat → List (BitVec 8)
  | 0 => []
  | n + 1 => BitVec.ofNat 8 x :: leBytes (x / 256) n

/-- The 64-bit word at an address. -/
def memWord (m : List Host.Cell) (a : Nat) : Word := BitVec.ofNat 64 (leValue (memBytes m a 8))

/-- The memory after a 64-bit word is written. -/
def memPutWord (m : List Host.Cell) (a : Nat) (x : Word) : List Host.Cell := memPuts m a (leBytes x.toNat 8)

/-- The value x of n bytes seen as eight bytes from byte k of its word. -/
def alignWord (x : Word) (k : Nat) : Word := x <<< (8 * k)

/-- The byte mask of n bytes from byte k of a word. -/
def maskOf (k n : Nat) : BitVec 8 := (BitVec.ofNat 8 (2 ^ n - 1)) <<< k

/-- One bit of a byte mask as eight bits of data. -/
def spread (mask : BitVec 8) : Nat → Nat
  | 0 => 0
  | n + 1 => spread mask n + (if mask.getLsbD n then 255 * 256 ^ n else 0)

/-- The word old with the bytes of a mask taken from new (R104). -/
def mergeWord (old new : Word) (mask : BitVec 8) : Word :=
  let w := BitVec.ofNat 64 (spread mask 8)
  (old &&& ~~~ w) ||| (new &&& w)

end Sys2Proof.Machine
end

