-- ==== Sys2Proof/Config.lean ====
section
/-! DEFINITION. The values the spec leaves open, and the functions it names without giving: constants without a
body, so that no proof can see what they are (log 13). The numbers n below are drawn from the counter State.fresh,
a new one for each use. -/

namespace Sys2Proof

/-- Core cycles from the send of a request to its final reply, beyond the figures of R99 and R100 (log 13). -/
opaque Config.latency : Nat → BitVec 32

/-- Whether a slice cache held the line of a request: "no request can observe whether it hit" (R100), but counters,
energy and event records do (log 13). -/
opaque Config.sliceHit : Nat → BitVec 1

/-- The request code that a HOMEREQ event record gives a put line or a write-back: R349 lists none for them (log 13). -/
opaque Config.eventBits : Nat → BitVec 3

/-- Which of the lines that may be replaced leaves a full set of the cluster cache; R99 and R165 leave the choice
among them open (log 13). -/
opaque Config.victim : Nat → BitVec 4

/-- The word that a home works with where it finds an uncorrectable error in a word of one of its own tables or logs
(log 13). -/
opaque Config.faultyWord : Nat → BitVec 64

/-- An address that an instruction on a path that proves wrong names, and what it does there (R183, log 21). -/
opaque Config.strayAddress : Nat → BitVec 64

/-- The byte at an offset of the boot ROM: R372 gives what the ROM does and not its bytes (log 3). -/
opaque Config.romByte : Nat → BitVec 8

/-- What a host-port device answers to the n-th load of a byte of its configuration space or memory (R370, log 13). -/
opaque Config.deviceByte : Nat → Nat → BitVec 8

/-- SHA3-256 of a string of bytes (R372, R373): the function is named, not given (log 14). -/
opaque Config.sha3 : List (BitVec 8) → BitVec 256

/-- Whether an ML-DSA-44 signature over a digest verifies under a public key (R372, log 14). -/
opaque Config.verifies : List (BitVec 8) → List (BitVec 8) → BitVec 256 → Bool

/-- The device key's ML-DSA-44 signature over a digest, 2,420 bytes, byte by byte (R373, log 14). -/
opaque Config.signature : BitVec 256 → Nat → BitVec 8

/-- Which of the happenings that may come next does come next: the agents of the machine act side by side, and the spec
orders their acts only where it says so (log 7). -/
opaque Config.choice : Nat → BitVec 16

end Sys2Proof
end

