-- ==== Sys2Proof/Machine/Tbl.lean ====
section
/-! DEFINITION. Sparse data by key: a list of key and value pairs, keys rising, and the one way it is read and
written. Every table of the state is one of these, with the value of an unlisted key named where it is read. -/

namespace Sys2Proof.Machine

/-- A sparse table keyed by natural numbers. -/
abbrev Tbl (α : Type) := List (Nat × α)

/-- The value listed for a key. -/
def tfind {α : Type} : Tbl α → Nat → Option α
  | [], _ => none
  | (k, v) :: rest, q => if k = q then some v else tfind rest q

/-- The value of a key, with the value of an unlisted one. -/
def tget {α : Type} (t : Tbl α) (q : Nat) (dflt : α) : α :=
  (tfind t q).getD dflt

/-- The table with one key's value replaced or listed. -/
def tset {α : Type} : Tbl α → Nat → α → Tbl α
  | [], q, v => [(q, v)]
  | (k, u) :: rest, q, v =>
    if k = q then (q, v) :: rest
    else if q < k then (q, v) :: (k, u) :: rest
    else (k, u) :: tset rest q v

/-- The table without a key. -/
def tdel {α : Type} (t : Tbl α) (q : Nat) : Tbl α :=
  t.filter (fun e => e.1 != q)

/-- Every value changed by a function of its key. -/
def tmap {α : Type} (f : Nat → α → α) (t : Tbl α) : Tbl α :=
  t.map (fun e => (e.1, f e.1 e.2))

end Sys2Proof.Machine
end

