-- ==== Sys2Proof/Syntax.lean ====
section
/-! DEFINITION. The instructions and the device's own steps: one constructor for each row of
spec/opcode_table.json, in the table's order but that the device's own steps that its state makes due stand before those
that come from outside or within another step. An operand field keeps the table's width; a general register field is a
`Reg`, a tile register field that admits only t registers is its number 0-7, one that admits only a registers its number
0-3. Contexts, cores, clusters, engines, EFCs and homes of event rows are numbered over all sockets (see
Machine/State.lean). -/

namespace Sys2Proof

/-- One constructor per row of spec/opcode_table.json. -/
inductive Instr where
  /-- ADD (R185): Adds two general registers modulo 2^N. -/
  | add (d : Reg) (a : Reg) (b : Reg) (w : Bool)
  /-- SUB (R185): Subtracts gB from gA modulo 2^N. -/
  | sub (d : Reg) (a : Reg) (b : Reg) (w : Bool)
  /-- AND (R185): Bitwise AND of two general registers. -/
  | and (d : Reg) (a : Reg) (b : Reg) (w : Bool)
  /-- OR (R185): Bitwise OR of two general registers. -/
  | or (d : Reg) (a : Reg) (b : Reg) (w : Bool)
  /-- XOR (R185): Bitwise XOR of two general registers. -/
  | xor (d : Reg) (a : Reg) (b : Reg) (w : Bool)
  /-- ANDN (R185): gA AND NOT gB. -/
  | andn (d : Reg) (a : Reg) (b : Reg) (w : Bool)
  /-- ORN (R185): gA OR NOT gB. -/
  | orn (d : Reg) (a : Reg) (b : Reg) (w : Bool)
  /-- SLL (R185): Logical shift left by gB mod N. -/
  | sll (d : Reg) (a : Reg) (b : Reg) (w : Bool)
  /-- SRL (R185): Logical shift right by gB mod N. -/
  | srl (d : Reg) (a : Reg) (b : Reg) (w : Bool)
  /-- SRA (R185): Arithmetic shift right by gB mod N. -/
  | sra (d : Reg) (a : Reg) (b : Reg) (w : Bool)
  /-- ROL (R185): Rotate left within N bits. -/
  | rol (d : Reg) (a : Reg) (b : Reg) (w : Bool)
  /-- ROR (R185): Rotate right within N bits. -/
  | ror (d : Reg) (a : Reg) (b : Reg) (w : Bool)
  /-- MUL (R185): Low N bits of the product. -/
  | mul (d : Reg) (a : Reg) (b : Reg) (w : Bool)
  /-- MULH (R185): High N bits of the signed product. -/
  | mulh (d : Reg) (a : Reg) (b : Reg) (w : Bool)
  /-- MULHN (R185): High N bits of the unsigned product. -/
  | mulhn (d : Reg) (a : Reg) (b : Reg) (w : Bool)
  /-- DIV (R186): Signed quotient truncated towards zero, all ones on division by zero. -/
  | div (d : Reg) (a : Reg) (b : Reg) (w : Bool)
  /-- DIVN (R186): Unsigned quotient, all ones on division by zero. -/
  | divn (d : Reg) (a : Reg) (b : Reg) (w : Bool)
  /-- REM (R186): Signed remainder with the sign of the dividend. -/
  | rem (d : Reg) (a : Reg) (b : Reg) (w : Bool)
  /-- REMN (R186): Unsigned remainder, the dividend on division by zero. -/
  | remn (d : Reg) (a : Reg) (b : Reg) (w : Bool)
  /-- MIN (R185): Signed minimum. -/
  | min (d : Reg) (a : Reg) (b : Reg) (w : Bool)
  /-- MAX (R185): Signed maximum. -/
  | max (d : Reg) (a : Reg) (b : Reg) (w : Bool)
  /-- MINN (R185): Unsigned minimum. -/
  | minn (d : Reg) (a : Reg) (b : Reg) (w : Bool)
  /-- MAXN (R185): Unsigned maximum. -/
  | maxn (d : Reg) (a : Reg) (b : Reg) (w : Bool)
  /-- CSET (R187): Writes 1 when the condition holds for gA and gB, else 0. -/
  | cset (d : Reg) (a : Reg) (b : Reg) (k : BitVec 3)
  /-- SEL (R185): Selects gA when gC is nonzero, else gB. -/
  | sel (d : Reg) (a : Reg) (b : Reg) (c : Reg)
  /-- POPC (R185): Counts set bits. -/
  | popc (d : Reg) (a : Reg) (w : Bool)
  /-- CLZ (R185): Counts leading zero bits. -/
  | clz (d : Reg) (a : Reg) (w : Bool)
  /-- CTZ (R185): Counts trailing zero bits. -/
  | ctz (d : Reg) (a : Reg) (w : Bool)
  /-- BREV (R185): Reverses the bit order. -/
  | brev (d : Reg) (a : Reg) (w : Bool)
  /-- FNTH (R185): Index of the set bit with gD set bits below it. -/
  | fnth (d : Reg) (a : Reg) (w : Bool)
  /-- ADDI (R188): Adds a sign-extended 14-bit immediate. -/
  | addi (d : Reg) (a : Reg) (im : BitVec 14)
  /-- ANDI (R188): ANDs a zero-extended immediate. -/
  | andi (d : Reg) (a : Reg) (im : BitVec 14)
  /-- ORI (R188): ORs a zero-extended immediate. -/
  | ori (d : Reg) (a : Reg) (im : BitVec 14)
  /-- XORI (R188): XORs a zero-extended immediate. -/
  | xori (d : Reg) (a : Reg) (im : BitVec 14)
  /-- CSETI_EQ (R188): Writes 1 when gA equals the signed immediate. -/
  | csetiEq (d : Reg) (a : Reg) (im : BitVec 14)
  /-- CSETI_NE (R188): Writes 1 when gA differs from the signed immediate. -/
  | csetiNe (d : Reg) (a : Reg) (im : BitVec 14)
  /-- CSETI_LT (R188): Writes 1 when gA is signed-less than the immediate. -/
  | csetiLt (d : Reg) (a : Reg) (im : BitVec 14)
  /-- CSETI_LTN (R188): Writes 1 when gA is unsigned-less than the zero-extended immediate. -/
  | csetiLtn (d : Reg) (a : Reg) (im : BitVec 14)
  /-- SLLI (R189): Shifts left by an immediate. -/
  | slli (d : Reg) (a : Reg) (p : BitVec 6) (w : Bool)
  /-- SRLI (R189): Logical shift right by an immediate. -/
  | srli (d : Reg) (a : Reg) (p : BitVec 6) (w : Bool)
  /-- SRAI (R189): Arithmetic shift right by an immediate. -/
  | srai (d : Reg) (a : Reg) (p : BitVec 6) (w : Bool)
  /-- RORI (R189): Rotates right by an immediate. -/
  | rori (d : Reg) (a : Reg) (p : BitVec 6) (w : Bool)
  /-- BEXT (R189): Extracts a bit field zero-extended. -/
  | bext (d : Reg) (a : Reg) (p : BitVec 6) (l : BitVec 6)
  /-- BEXTS (R189): Extracts a bit field sign-extended. -/
  | bexts (d : Reg) (a : Reg) (p : BitVec 6) (l : BitVec 6)
  /-- BINS (R189): Inserts the low bits of gA into a field of gD. -/
  | bins (d : Reg) (a : Reg) (p : BitVec 6) (l : BitVec 6)
  /-- LUI (R190): Writes a sign-extended immediate shifted left by 14. -/
  | lui (d : Reg) (im : BitVec 21)
  /-- LPA (R190): Writes PC plus a word offset. -/
  | lpa (d : Reg) (im : BitVec 21)
  /-- B_COND (R191): Branches PC-relative when the condition holds for gA and gB. -/
  | bCond (h : BitVec 2) (k : BitVec 3) (a : Reg) (b : Reg) (l : BitVec 12)
  /-- JL (R192): Writes PC+4 to gD and jumps PC-relative. -/
  | jl (d : Reg) (off : BitVec 22)
  /-- JLR (R193): Writes PC+4 to gD and jumps to gA plus offset; misaligned targets fault. -/
  | jlr (d : Reg) (a : Reg) (off : BitVec 14)
  /-- LD (R195): Scalar load with base plus scaled offset under its policy, ordering and scope. -/
  | ld (d : Reg) (b : Reg) (pol : Pol) (ord : Order) (sc : Scope) (z : BitVec 2) (x : Bool) (off : BitVec 7)
  /-- LDX (R195): Scalar load with base plus optionally scaled index. -/
  | ldx (d : Reg) (b : Reg) (pol : Pol) (ord : Order) (sc : Scope) (z : BitVec 2) (x : Bool) (idx : Reg) (c : Bool)
  /-- ST (R159): Scalar store translated and checked, then performed after retirement. -/
  | st (t : Reg) (b : Reg) (pol : Pol) (ord : Order) (sc : Scope) (z : BitVec 2) (off : BitVec 7)
  /-- STX (R159): Indexed scalar store. -/
  | stx (t : Reg) (b : Reg) (pol : Pol) (ord : Order) (sc : Scope) (z : BitVec 2) (idx : Reg) (c : Bool)
  /-- AMO_ADD (R161): Atomic add returning the old value. -/
  | amoAdd (d : Reg) (b : Reg) (pol : Pol) (ord : Order) (sc : Scope) (v : Reg) (w : Bool)
  /-- AMO_AND (R161): Atomic AND returning the old value. -/
  | amoAnd (d : Reg) (b : Reg) (pol : Pol) (ord : Order) (sc : Scope) (v : Reg) (w : Bool)
  /-- AMO_OR (R161): Atomic OR returning the old value. -/
  | amoOr (d : Reg) (b : Reg) (pol : Pol) (ord : Order) (sc : Scope) (v : Reg) (w : Bool)
  /-- AMO_XOR (R161): Atomic XOR returning the old value. -/
  | amoXor (d : Reg) (b : Reg) (pol : Pol) (ord : Order) (sc : Scope) (v : Reg) (w : Bool)
  /-- AMO_MIN (R161): Atomic signed minimum. -/
  | amoMin (d : Reg) (b : Reg) (pol : Pol) (ord : Order) (sc : Scope) (v : Reg) (w : Bool)
  /-- AMO_MAX (R161): Atomic signed maximum. -/
  | amoMax (d : Reg) (b : Reg) (pol : Pol) (ord : Order) (sc : Scope) (v : Reg) (w : Bool)
  /-- AMO_MINN (R161): Atomic unsigned minimum. -/
  | amoMinn (d : Reg) (b : Reg) (pol : Pol) (ord : Order) (sc : Scope) (v : Reg) (w : Bool)
  /-- AMO_MAXN (R161): Atomic unsigned maximum. -/
  | amoMaxn (d : Reg) (b : Reg) (pol : Pol) (ord : Order) (sc : Scope) (v : Reg) (w : Bool)
  /-- AMO_SWAP (R161): Atomic exchange. -/
  | amoSwap (d : Reg) (b : Reg) (pol : Pol) (ord : Order) (sc : Scope) (v : Reg) (w : Bool)
  /-- CAS (R161): Compare and swap against gD, returning the old value. -/
  | cas (d : Reg) (b : Reg) (pol : Pol) (ord : Order) (sc : Scope) (v : Reg) (w : Bool)
  /-- FENCE (R162): Orders the thread's accesses at a scope and waits as a release or acquire. -/
  | fence (ord : Order) (sc : Scope)
  /-- PREF (R164): Prefetch hint filling a line to a target level, optionally with ownership. -/
  | pref (b : Reg) (pol : Pol) (h : BitVec 3) (off : BitVec 7)
  /-- CWB (R163): Writes back owned and buffered words of a line, keeping a copy. -/
  | cwb (b : Reg) (off : BitVec 7)
  /-- CINV (R163): Writes back and invalidates the cluster's words of a line. -/
  | cinv (b : Reg) (off : BitVec 7)
  /-- VADD (R205): Lane-wise integer add. -/
  | vadd (d : Reg) (a : Reg) (b : Reg) (e : BitVec 2) (g : BitVec 3) (z : Bool)
  /-- VSUB (R205): Lane-wise integer subtract. -/
  | vsub (d : Reg) (a : Reg) (b : Reg) (e : BitVec 2) (g : BitVec 3) (z : Bool)
  /-- VMUL (R205): Lane-wise low product. -/
  | vmul (d : Reg) (a : Reg) (b : Reg) (e : BitVec 2) (g : BitVec 3) (z : Bool)
  /-- VMULH_I (R205): Lane-wise signed high product. -/
  | vmulhI (d : Reg) (a : Reg) (b : Reg) (e : BitVec 2) (g : BitVec 3) (z : Bool)
  /-- VMULH_N (R205): Lane-wise unsigned high product. -/
  | vmulhN (d : Reg) (a : Reg) (b : Reg) (e : BitVec 2) (g : BitVec 3) (z : Bool)
  /-- VMIN_I (R205): Lane-wise signed minimum. -/
  | vminI (d : Reg) (a : Reg) (b : Reg) (e : BitVec 2) (g : BitVec 3) (z : Bool)
  /-- VMIN_N (R205): Lane-wise unsigned minimum. -/
  | vminN (d : Reg) (a : Reg) (b : Reg) (e : BitVec 2) (g : BitVec 3) (z : Bool)
  /-- VMAX_I (R205): Lane-wise signed maximum. -/
  | vmaxI (d : Reg) (a : Reg) (b : Reg) (e : BitVec 2) (g : BitVec 3) (z : Bool)
  /-- VMAX_N (R205): Lane-wise unsigned maximum. -/
  | vmaxN (d : Reg) (a : Reg) (b : Reg) (e : BitVec 2) (g : BitVec 3) (z : Bool)
  /-- VAND (R205): Lane-wise AND. -/
  | vand (d : Reg) (a : Reg) (b : Reg) (e : BitVec 2) (g : BitVec 3) (z : Bool)
  /-- VOR (R205): Lane-wise OR. -/
  | vor (d : Reg) (a : Reg) (b : Reg) (e : BitVec 2) (g : BitVec 3) (z : Bool)
  /-- VXOR (R205): Lane-wise XOR. -/
  | vxor (d : Reg) (a : Reg) (b : Reg) (e : BitVec 2) (g : BitVec 3) (z : Bool)
  /-- VANDN (R205): Lane-wise AND NOT. -/
  | vandn (d : Reg) (a : Reg) (b : Reg) (e : BitVec 2) (g : BitVec 3) (z : Bool)
  /-- VSLL (R205): Lane-wise shift left. -/
  | vsll (d : Reg) (a : Reg) (b : Reg) (e : BitVec 2) (g : BitVec 3) (z : Bool)
  /-- VSRL (R205): Lane-wise logical shift right. -/
  | vsrl (d : Reg) (a : Reg) (b : Reg) (e : BitVec 2) (g : BitVec 3) (z : Bool)
  /-- VSRA (R205): Lane-wise arithmetic shift right. -/
  | vsra (d : Reg) (a : Reg) (b : Reg) (e : BitVec 2) (g : BitVec 3) (z : Bool)
  /-- VPOPC (R205): Lane-wise population count. -/
  | vpopc (d : Reg) (a : Reg) (e : BitVec 2) (g : BitVec 3) (z : Bool)
  /-- VCLZ (R205): Lane-wise leading zero count. -/
  | vclz (d : Reg) (a : Reg) (e : BitVec 2) (g : BitVec 3) (z : Bool)
  /-- VCTZ (R205): Lane-wise trailing zero count. -/
  | vctz (d : Reg) (a : Reg) (e : BitVec 2) (g : BitVec 3) (z : Bool)
  /-- VBREV (R205): Lane-wise bit reversal. -/
  | vbrev (d : Reg) (a : Reg) (e : BitVec 2) (g : BitVec 3) (z : Bool)
  /-- VFNTH (R205): Lane-wise index of the n-th set bit, n from the destination lane. -/
  | vfnth (d : Reg) (a : Reg) (e : BitVec 2) (g : BitVec 3) (z : Bool)
  /-- VABS (R205): Lane-wise absolute value modulo 2^N. -/
  | vabs (d : Reg) (a : Reg) (e : BitVec 2) (g : BitVec 3) (z : Bool)
  /-- VADDS_I (R205): Lane-wise signed saturating add. -/
  | vaddsI (d : Reg) (a : Reg) (b : Reg) (e : BitVec 2) (g : BitVec 3) (z : Bool)
  /-- VADDS_N (R205): Lane-wise unsigned saturating add. -/
  | vaddsN (d : Reg) (a : Reg) (b : Reg) (e : BitVec 2) (g : BitVec 3) (z : Bool)
  /-- VSUBS_I (R205): Lane-wise signed saturating subtract. -/
  | vsubsI (d : Reg) (a : Reg) (b : Reg) (e : BitVec 2) (g : BitVec 3) (z : Bool)
  /-- VSUBS_N (R205): Lane-wise unsigned saturating subtract. -/
  | vsubsN (d : Reg) (a : Reg) (b : Reg) (e : BitVec 2) (g : BitVec 3) (z : Bool)
  /-- VSEL (R206): Selects each lane from vA or vB by the predicate. -/
  | vsel (d : Reg) (a : Reg) (b : Reg) (e : BitVec 2) (g : BitVec 3)
  /-- VCMP_EQ (R206): Writes a predicate of lane-wise equality. -/
  | vcmpEq (d : BitVec 3) (a : Reg) (b : Reg) (e : BitVec 2) (g : BitVec 3) (z : Bool)
  /-- VCMP_NE (R206): Writes a predicate of lane-wise inequality. -/
  | vcmpNe (d : BitVec 3) (a : Reg) (b : Reg) (e : BitVec 2) (g : BitVec 3) (z : Bool)
  /-- VCMP_LT (R206): Writes a predicate of signed less-than. -/
  | vcmpLt (d : BitVec 3) (a : Reg) (b : Reg) (e : BitVec 2) (g : BitVec 3) (z : Bool)
  /-- VCMP_GE (R206): Writes a predicate of signed greater-or-equal. -/
  | vcmpGe (d : BitVec 3) (a : Reg) (b : Reg) (e : BitVec 2) (g : BitVec 3) (z : Bool)
  /-- VCMP_LTN (R206): Writes a predicate of unsigned less-than. -/
  | vcmpLtn (d : BitVec 3) (a : Reg) (b : Reg) (e : BitVec 2) (g : BitVec 3) (z : Bool)
  /-- VCMP_GEN (R206): Writes a predicate of unsigned greater-or-equal. -/
  | vcmpGen (d : BitVec 3) (a : Reg) (b : Reg) (e : BitVec 2) (g : BitVec 3) (z : Bool)
  /-- FADD (R207): Lane-wise floating add, one rounding. -/
  | fadd (d : Reg) (a : Reg) (b : Reg) (e : BitVec 2) (g : BitVec 3) (z : Bool)
  /-- FSUB (R207): Lane-wise floating subtract. -/
  | fsub (d : Reg) (a : Reg) (b : Reg) (e : BitVec 2) (g : BitVec 3) (z : Bool)
  /-- FMUL (R207): Lane-wise floating multiply. -/
  | fmul (d : Reg) (a : Reg) (b : Reg) (e : BitVec 2) (g : BitVec 3) (z : Bool)
  /-- FFMA (R207): Fused x*y+o with one rounding. -/
  | ffma (d : Reg) (a : Reg) (b : Reg) (e : BitVec 2) (g : BitVec 3) (z : Bool)
  /-- FFMS (R207): Fused x*y-o with one rounding. -/
  | ffms (d : Reg) (a : Reg) (b : Reg) (e : BitVec 2) (g : BitVec 3) (z : Bool)
  /-- FNMA (R207): Fused -(x*y)+o with one rounding. -/
  | fnma (d : Reg) (a : Reg) (b : Reg) (e : BitVec 2) (g : BitVec 3) (z : Bool)
  /-- FDIV (R207): Lane-wise correctly rounded division. -/
  | fdiv (d : Reg) (a : Reg) (b : Reg) (e : BitVec 2) (g : BitVec 3) (z : Bool)
  /-- FSQRT (R207): Lane-wise correctly rounded square root. -/
  | fsqrt (d : Reg) (a : Reg) (e : BitVec 2) (g : BitVec 3) (z : Bool)
  /-- FMIN (R207): Lane-wise floating minimum. -/
  | fmin (d : Reg) (a : Reg) (b : Reg) (e : BitVec 2) (g : BitVec 3) (z : Bool)
  /-- FMAX (R207): Lane-wise floating maximum. -/
  | fmax (d : Reg) (a : Reg) (b : Reg) (e : BitVec 2) (g : BitVec 3) (z : Bool)
  /-- FABS (R207): Clears the sign bit of each lane. -/
  | fabs (d : Reg) (a : Reg) (e : BitVec 2) (g : BitVec 3) (z : Bool)
  /-- FNEG (R207): Inverts the sign bit of each lane. -/
  | fneg (d : Reg) (a : Reg) (e : BitVec 2) (g : BitVec 3) (z : Bool)
  /-- FRCP (R208): Correctly rounded reciprocal. -/
  | frcp (d : Reg) (a : Reg) (e : BitVec 2) (g : BitVec 3) (z : Bool)
  /-- FRSQRT (R208): Correctly rounded reciprocal square root. -/
  | frsqrt (d : Reg) (a : Reg) (e : BitVec 2) (g : BitVec 3) (z : Bool)
  /-- FEXP2 (R208): Correctly rounded base-2 exponential. -/
  | fexp2 (d : Reg) (a : Reg) (e : BitVec 2) (g : BitVec 3) (z : Bool)
  /-- FLOG2 (R208): Correctly rounded base-2 logarithm. -/
  | flog2 (d : Reg) (a : Reg) (e : BitVec 2) (g : BitVec 3) (z : Bool)
  /-- FROUND (R209): Rounds each lane to an integral value in the mode given by b. -/
  | fround (d : Reg) (a : Reg) (m : Reg) (e : BitVec 2) (g : BitVec 3) (z : Bool)
  /-- FSCALE (R207): Multiplies each lane by 2 to an integer power. -/
  | fscale (d : Reg) (a : Reg) (b : Reg) (e : BitVec 2) (g : BitVec 3) (z : Bool)
  /-- FCMP_EQ (R210): Writes a predicate of floating equality. -/
  | fcmpEq (d : BitVec 3) (a : Reg) (b : Reg) (e : BitVec 2) (g : BitVec 3) (z : Bool)
  /-- FCMP_NE (R210): Writes a predicate of inequality or unordered. -/
  | fcmpNe (d : BitVec 3) (a : Reg) (b : Reg) (e : BitVec 2) (g : BitVec 3) (z : Bool)
  /-- FCMP_LT (R210): Writes a predicate of floating less-than. -/
  | fcmpLt (d : BitVec 3) (a : Reg) (b : Reg) (e : BitVec 2) (g : BitVec 3) (z : Bool)
  /-- FCMP_LE (R210): Writes a predicate of floating less-or-equal. -/
  | fcmpLe (d : BitVec 3) (a : Reg) (b : Reg) (e : BitVec 2) (g : BitVec 3) (z : Bool)
  /-- FCMP_UN (R210): Writes a predicate of unordered. -/
  | fcmpUn (d : BitVec 3) (a : Reg) (b : Reg) (e : BitVec 2) (g : BitVec 3) (z : Bool)
  /-- VCVT (R212): Converts lanes between integer and floating types. -/
  | vcvt (d : Reg) (a : Reg) (r : Bool) (dt : BitVec 4) (ty : BitVec 4) (g : BitVec 3) (z : Bool)
  /-- VRED (R213): Reduces active lanes in a fixed binary tree into lane 0. -/
  | vred (d : Reg) (a : Reg) (k : Reg) (ty : BitVec 4) (g : BitVec 3)
  /-- VPERM (R214): Permutes lanes by an index vector. -/
  | vperm (d : Reg) (a : Reg) (b : Reg) (ty : BitVec 4) (g : BitVec 3) (z : Bool)
  /-- VSLIDE (R214): Slides lanes by a signed count from a general register. -/
  | vslide (d : Reg) (a : Reg) (b : Reg) (ty : BitVec 4) (g : BitVec 3) (z : Bool)
  /-- VCOMPRESS (R214): Packs active lanes to the bottom. -/
  | vcompress (d : Reg) (a : Reg) (ty : BitVec 4) (g : BitVec 3)
  /-- VEXPAND (R214): Spreads low lanes into active positions. -/
  | vexpand (d : Reg) (a : Reg) (ty : BitVec 4) (g : BitVec 3) (z : Bool)
  /-- VBCAST (R214): Broadcasts a general register to active lanes. -/
  | vbcast (d : Reg) (a : Reg) (ty : BitVec 4) (g : BitVec 3) (z : Bool)
  /-- VINS (R214): Inserts a general register into one lane. -/
  | vins (d : Reg) (a : Reg) (b : Reg) (ty : BitVec 4)
  /-- VEXT (R214): Extracts one lane into a general register. -/
  | vext (d : Reg) (a : Reg) (b : Reg) (ty : BitVec 4)
  /-- VLD (R216): Predicated contiguous vector load. -/
  | vld (d : Reg) (b : Reg) (pol : Pol) (e : BitVec 2) (g : BitVec 3) (off : BitVec 8)
  /-- VST (R216): Predicated contiguous vector store, performed after retirement. -/
  | vst (d : Reg) (b : Reg) (pol : Pol) (e : BitVec 2) (g : BitVec 3) (off : BitVec 8)
  /-- VGATHER (R216): Predicated indexed vector load. -/
  | vgather (d : Reg) (b : Reg) (pol : Pol) (e : BitVec 2) (g : BitVec 3) (idx : Reg)
  /-- VSCATTER (R216): Predicated indexed vector store in ascending lane order. -/
  | vscatter (d : Reg) (b : Reg) (pol : Pol) (e : BitVec 2) (g : BitVec 3) (idx : Reg)
  /-- PAND (R218): Predicate AND. -/
  | pand (d : BitVec 3) (a : BitVec 3) (b : BitVec 3)
  /-- POR (R218): Predicate OR. -/
  | por (d : BitVec 3) (a : BitVec 3) (b : BitVec 3)
  /-- PXOR (R218): Predicate XOR. -/
  | pxor (d : BitVec 3) (a : BitVec 3) (b : BitVec 3)
  /-- PANDN (R218): Predicate AND NOT. -/
  | pandn (d : BitVec 3) (a : BitVec 3) (b : BitVec 3)
  /-- PSET (R218): Writes a predicate from a general register. -/
  | pset (d : BitVec 3) (a : Reg)
  /-- PGET (R218): Writes a general register from a predicate. -/
  | pget (d : Reg) (a : BitVec 3)
  /-- PCNT (R218): Counts active lanes of a predicate. -/
  | pcnt (d : Reg) (a : BitVec 3) (e : BitVec 2)
  /-- PFIRST (R218): Finds the lowest active lane. -/
  | pfirst (d : Reg) (a : BitVec 3) (e : BitVec 2)
  /-- PWHILE (R218): Sets lanes where gA+i is below gB. -/
  | pwhile (d : BitVec 3) (a : Reg) (b : Reg) (e : BitVec 2)
  /-- CWAIT (R337): Waits until a receipt counter reaches a target, parking CWAIT otherwise, and acquires. -/
  | cwait (t : Reg) (c : Reg) (sc : Scope)
  /-- CTRRD (R334): Reads a device counter or a receipt counter by selector. -/
  | ctrrd (d : Reg) (a : Reg) (im : BitVec 14)
  /-- CTRSET (R335): Writes a device counter or atomically writes a receipt counter. -/
  | ctrset (t : Reg) (a : Reg) (im : BitVec 14)
  /-- ERD (R336): Reads a tenant's energy account in a cluster. -/
  | erd (d : Reg) (a : Reg) (im : BitVec 14)
  /-- TSPAWN (R282): Checks a TCB and makes its thread READY in a run queue. -/
  | tspawn (d : Reg) (a : Reg)
  /-- TYIELD (R283): Ends the quantum, requeueing the thread if another is ready at its level. -/
  | tyield
  /-- TSLEEP (R284): Saves the thread SLEEPING, timed or untimed, and vacates the context. -/
  | tsleep (a : Reg)
  /-- TWAKE (R285): Makes a SLEEPING thread READY and returns its previous state. -/
  | twake (d : Reg) (a : Reg)
  /-- TEXIT (R286): Ends the thread, releasing its binding, group and table entries. -/
  | texit
  /-- TPRIO (R287): Sets a thread's priority and requeues it, returning the old priority. -/
  | tprio (d : Reg) (a : Reg) (b : Reg)
  /-- SVC (R263): Parks the context TRAP with cause SVC. -/
  | svc (im : BitVec 13)
  /-- BRK (R263): Parks the context TRAP with cause BREAKPOINT. -/
  | brk (im : BitVec 13)
  /-- SYSRD (R264): Reads a system register of the own context or a supervisor register. -/
  | sysrd (d : Reg) (n : BitVec 13)
  /-- SYSWR (R264): Writes a system register field by field. -/
  | syswr (t : Reg) (n : BitVec 13)
  /-- CTXRD (R265): Reads a register of an admissible parked context. -/
  | ctxrd (d : Reg) (a : Reg) (n : BitVec 13)
  /-- CTXWR (R265): Writes a register of an admissible parked context. -/
  | ctxwr (t : Reg) (a : Reg) (n : BitVec 13)
  /-- TRET (R266): Resumes, skips past or evicts a context parked FAULT or TRAP. -/
  | tret (a : Reg)
  /-- TREDIR (R267): Sends a parked context to a handler PC, saving its PC in UEPC. -/
  | tredir (h : Reg) (a : Reg)
  /-- TLBI_PAGE (R270): Removes translations of one page of an ASN within a scope. -/
  | tlbiPage (a : Reg) (sc : Scope)
  /-- TLBI_ASN (R270): Removes every translation of an ASN within a scope. -/
  | tlbiAsn (a : Reg) (sc : Scope)
  /-- TLBI_ALL (R270): Removes every translation within a scope. -/
  | tlbiAll (sc : Scope)
  /-- WFM (R268): Waits for and removes the oldest message of the core's queue into four registers. -/
  | wfm (d : Reg)
  /-- TLOAD (R234): Loads an operand tile with scale records set to 0x01FC. -/
  | tload (t : BitVec 3) (m : BitVec 3) (b : Reg) (pol : Pol) (ord : Order) (sc : Scope) (off : BitVec 27)
  /-- TLOADS (R234): Loads an operand tile with its scale rows from memory. -/
  | tloads (t : BitVec 3) (m : BitVec 3) (b : Reg) (pol : Pol) (ord : Order) (sc : Scope) (off : BitVec 27)
  /-- TLOAD_V (R147): Loads a tile consistently under a version word, retrying up to VRLIMIT. -/
  | tloadV (t : BitVec 3) (m : BitVec 3) (b : Reg) (pol : Pol) (ord : Order) (sc : Scope) (x : Reg) (off : BitVec 27)
  /-- TSTORE (R237): Stores an operand tile's rows through the tile store queue. -/
  | tstore (t : BitVec 3) (m : BitVec 3) (b : Reg) (pol : Pol) (ord : Order) (sc : Scope) (off : BitVec 27)
  /-- TSTORE_AON (R146): Stores a tile under a version word made odd then even. -/
  | tstoreAon (t : TReg) (m : BitVec 3) (b : Reg) (pol : Pol) (ord : Order) (sc : Scope) (x : Reg) (off : BitVec 27)
  /-- TSTOREA (R236): Stores an accumulator as rounded FP32 rows. -/
  | tstorea (t : BitVec 2) (m : BitVec 3) (b : Reg) (pol : Pol) (ord : Order) (sc : Scope) (off : BitVec 27)
  /-- TZERO (R241): Zeroes a tile register. -/
  | tzero (t : TReg)
  /-- TMMA (R243): Accumulates A times B transposed into an accumulator in fixed order. -/
  | tmma (t : BitVec 2) (a : BitVec 3) (b : BitVec 3) (e : BitVec 2) (h : Bool)
  /-- TMMA_SP (R244): Multiply-accumulate with 2:4 sparse compressed A and metadata tile. -/
  | tmmaSp (t : BitVec 2) (a : BitVec 3) (b : BitVec 3) (m : BitVec 3) (e : BitVec 2) (h : Bool)
  /-- TCVT (R247): Converts an accumulator or 16-bit tile into a block-scaled or 16-bit operand tile. -/
  | tcvt (t : BitVec 3) (a : TReg) (e : BitVec 2) (h : Bool) (tag : BitVec 2)
  /-- TMOVA (R241): Moves a vector register into eight accumulator elements. -/
  | tmova (t : BitVec 2) (v : Reg) (g : Reg)
  /-- TMOVT (R241): Moves a vector register into half a data row or a scale row. -/
  | tmovt (t : BitVec 3) (v : Reg) (g : Reg)
  /-- TTRANS (R249): Transposes 64x64 squares of an operand tile. -/
  | ttrans (t : BitVec 3) (a : BitVec 3) (e : BitVec 2) (h : Bool)
  /-- TADD (R250): Adds two accumulators with compensation. -/
  | tadd (t : BitVec 2) (a : BitVec 2) (b : BitVec 2)
  /-- TSCALE (R250): Scales an accumulator by an FP32 factor. -/
  | tscale (t : BitVec 2) (a : BitVec 2) (g : Reg)
  /-- TREL (R252): Ends the thread's tile binding without a spill. -/
  | trel
  /-- MSET (R251): Writes a shape register from three general registers. -/
  | mset (m : BitVec 3) (a : Reg) (b : Reg) (c : Reg)
  /-- PUT (R169): Reads source bytes and enters a put into the cluster's put queue. -/
  | put (d : Reg) (a : Reg) (l : Reg) (pol : Pol) (sc : Scope) (c : Reg)
  /-- PUT_V (R169): Puts a 64-byte vector register to memory. -/
  | putV (d : Reg) (v : Reg) (pol : Pol) (sc : Scope) (c : Reg)
  /-- PUT_T (R238): Puts a tile register's rows as pieces with receipt-counter increments. -/
  | putT (t : TReg) (m : BitVec 3) (b : Reg) (pol : Pol) (sc : Scope) (x : Reg) (off : BitVec 27)
  /-- COPY (R175): Writes a copy record and queues it to the copy engine. -/
  | copy (r : Reg) (d : Reg) (a : Reg) (pol : Pol) (sc : Scope) (l : Reg) (c : Reg)
  /-- COPY_RESUME (R177): Requeues a suspended or faulted copy record. -/
  | copyResume (r : Reg)
  /-- ELI (R352): Loads a sign-extended immediate. -/
  | eli (d : BitVec 3) (im : BitVec 17)
  /-- EADD (R352): Adds two EFC registers. -/
  | eadd (d : BitVec 3) (a : BitVec 3) (b : BitVec 3)
  /-- EADDI (R352): Adds a sign-extended immediate. -/
  | eaddi (d : BitVec 3) (a : BitVec 3) (im : BitVec 17)
  /-- ESUB (R352): Subtracts two EFC registers. -/
  | esub (d : BitVec 3) (a : BitVec 3) (b : BitVec 3)
  /-- EAND (R352): ANDs two EFC registers. -/
  | eand (d : BitVec 3) (a : BitVec 3) (b : BitVec 3)
  /-- EANDI (R352): ANDs a zero-extended immediate. -/
  | eandi (d : BitVec 3) (a : BitVec 3) (im : BitVec 17)
  /-- EOR (R352): ORs two EFC registers. -/
  | eor (d : BitVec 3) (a : BitVec 3) (b : BitVec 3)
  /-- EXOR (R352): XORs two EFC registers. -/
  | exor (d : BitVec 3) (a : BitVec 3) (b : BitVec 3)
  /-- ESHR (R352): Logical shift right by an immediate. -/
  | eshr (d : BitVec 3) (a : BitVec 3) (n : BitVec 6)
  /-- ESHL (R352): Shift left by an immediate. -/
  | eshl (d : BitVec 3) (a : BitVec 3) (n : BitVec 6)
  /-- EMIN (R352): Unsigned minimum. -/
  | emin (d : BitVec 3) (a : BitVec 3) (b : BitVec 3)
  /-- EMAX (R352): Unsigned maximum. -/
  | emax (d : BitVec 3) (a : BitVec 3) (b : BitVec 3)
  /-- ELOG2 (R352): Capped bit length of a register. -/
  | elog2 (d : BitVec 3) (a : BitVec 3) (c : BitVec 7)
  /-- ELD (R352): Loads a data-memory word. -/
  | eld (d : BitVec 3) (a : BitVec 3) (w : BitVec 13)
  /-- EST (R352): Stores a data-memory word. -/
  | est (d : BitVec 3) (a : BitVec 3) (w : BitVec 13)
  /-- EHINC (R352): Saturating increment of a histogram word. -/
  | ehinc (a : BitVec 3) (w : BitVec 13)
  /-- ECMS (R353): Count-min sketch update returning the estimate. -/
  | ecms (d : BitVec 3) (a : BitVec 3) (w : BitVec 13)
  /-- ESAMP (R352): Stores the record into a ring of 16 samples. -/
  | esamp (w : BitVec 13)
  /-- ETRIG (R355): Posts a filter-trigger message to the X7 named by TCORE. -/
  | etrig (a : BitVec 3)
  /-- ESKIP (R352): Skips n instructions when the condition holds. -/
  | eskip (a : BitVec 3) (b : BitVec 3) (k : BitVec 3) (n : BitVec 6)
  /-- TRAP_RECORD_ENTER (R293): A trap record waiting in its slot enters the message queue when room appears. -/
  | trapRecordEnter (core : Nat)
  /-- PLACEMENT (R30): The dispatcher places an eligible thread or group onto a vacant user context. -/
  | placement (cl : Nat)
  /-- PREEMPTION (R33): The dispatcher squashes, saves and enqueues a victim thread. -/
  | preemption (cl : Nat)
  /-- QUANTUM_EXPIRY (R32): QLEFT reaches 0 and the thread is pre-empted or given a fresh quantum. -/
  | quantumExpiry (ctx : Nat)
  /-- PULL (R34): An idle dispatcher pulls a thread from another dispatcher of its die. -/
  | pull (cl : Nat)
  /-- TILE_BINDING (R35): The dispatcher completes a binding after a TILEBIND park, spilling or pre-empting as needed, and restores. -/
  | tileBinding (ctx : Nat)
  /-- EXITED_WRITE (R39): After texit and the last tile store drain, TSTATE is written EXITED. -/
  | exitedWrite (tcb : Nat)
  /-- TENANT_WINDOW_BOUNDARY (R277): At each 1 ms boundary demotions end, tenant entries are reread and queue 0 is walked. -/
  | tenantWindowBoundary (sock : Nat)
  /-- CONTEXT_TIME_UPDATE (R317): Every microsecond each dispatcher adds its cluster's tenant context time. -/
  | contextTimeUpdate (sock : Nat)
  /-- SLEEP_DEADLINE (R279): A timed sleeper's deadline is reached and it is enqueued READY. -/
  | sleepDeadline (cl : Nat)
  /-- SLEEP_OVERFLOW_WALK (R279): Every 8 µs the dispatcher walks the sleep overflow list. -/
  | sleepOverflowWalk (cl : Nat)
  /-- WAIT_TABLE_RECHECK (R321): An invalidation, recall, downgrade or local write to a waited counter rereads it and satisfies waiters. -/
  | waitTableRecheck (cl : Nat) (line : Nat)
  /-- WAIT_OVERFLOW_WALK (R322): Every 8 µs the dispatcher rereads overflow and held X7 counters and moves waiters into free entries. -/
  | waitOverflowWalk (cl : Nat)
  /-- ENGINE_START (R288): The engine starts a startable tile instruction from its issue queue. -/
  | engineStart (eng : Nat)
  /-- TILE_COMPLETE (R227): The engine reports a tile instruction complete or faulted to its core. -/
  | tileComplete (eng : Nat)
  /-- TILE_STORE_DRAIN (R237): A retired tile store's rows are written from the tile store queue. -/
  | tileStoreDrain (eng : Nat)
  /-- PUT_T_PIECE (R238): A put.t piece is sent to its home, and its counter incremented after it lands. -/
  | putTPiece (eng : Nat)
  /-- STORE_PERFORM (R154): A retired store is performed from the core's store buffer. -/
  | storePerform (core : Nat)
  /-- PUT_LINE_SEND (R290): The put queue sends a put's next destination line. -/
  | putLineSend (cl : Nat)
  /-- COPY_TAKE_UP (R291): The copy engine takes a record from the copy queue into its active set. -/
  | copyTakeUp (cl : Nat)
  /-- COPY_BURST (R176): The engine translates, reads, lands and counts one burst, or stops the copy. -/
  | copyBurst (cl : Nat)
  /-- COPY_STOP_MSG_ENTER (R292): A buffered copy-stop message enters the core's message queue. -/
  | copyStopMsgEnter (cl : Nat)
  /-- HOME_PUT_LINE (R119): The home writes a put piece and acknowledges its landing. -/
  | homePutLine (r : Req)
  /-- HOME_ATH (R120): The home performs an atomic, including receipt-counter increments. -/
  | homeAth (r : Req)
  /-- HOME_WB (R119): The home accepts a write-back of an owned word. -/
  | homeWb (r : Req)
  /-- ENDING_REPLY (R299): A reply ends a request at a cluster port and updates the source window. -/
  | endingReply (port : Nat) (cmx : Bool)
  /-- REQUEST_ADMISSION (R300): A waiting class R request is admitted at its port within the window. -/
  | requestAdmission (port : Nat)
  /-- SWITCH_FORWARD (R298): A butterfly switch forwards a message, marking congestion. -/
  | switchForward (stage : Nat) (sw : Nat) (out : Nat)
  /-- ENERGY_REFILL (R342): At each microsecond every metered energy account is refilled. -/
  | energyRefill (sock : Nat)
  /-- EFC_BUDGET_REFILL (R351): At each microsecond every limited tenant's EFC allowance is refilled. -/
  | efcBudgetRefill (sock : Nat)
  /-- EFC_TAKE_RECORD (R350): The EFC takes a record, matches entries, applies the budget and runs slots. -/
  | efcTakeRecord (efc : Nat)
  /-- ATTEST_SIGN_DONE (R373): The signature is written to ATTSIG and SIGDONE set. -/
  | attestSignDone (sock : Nat)
  /-- FAR_TIMEOUT (R366): FARTMO passes without an ACK; pieces are resent or, after eight, lost. -/
  | farTimeout (sock : Nat) (dest : Nat)
  /-- FAR_ACK_TIMER (R365): Every 2 µs a receiver with unacknowledged pieces sends an ACK. -/
  | farAckTimer (sock : Nat)
  /-- RESET (R23): Resets the device: vacant contexts, empty queues, zero counters, boot X7 at the ROM. -/
  | reset
  /-- EHALT (R352): Ends the sorter run. -/
  | ehalt
  /-- PUT_LINE_LANDED (R143): A line's landing returns and its receipt-counter increment is sent. -/
  | putLineLanded (cl : Nat) (id : Nat) (bytes : Nat)
  /-- HOME_RDT (R119): The home serves a tracked read request. -/
  | homeRdt (r : Req)
  /-- HOME_RDU (R119): The home serves an untracked read request. -/
  | homeRdu (r : Req)
  /-- HOME_RDW (R119): The home serves a write-through read request. -/
  | homeRdw (r : Req)
  /-- HOME_OWN (R119): The home grants ownership of words. -/
  | homeOwn (r : Req)
  /-- HOME_WRT (R119): The home performs a writer-invalidated write. -/
  | homeWrt (r : Req)
  /-- HOME_WRS (R119): The home performs a drained self-invalidated write. -/
  | homeWrs (r : Req)
  /-- HOME_WRW (R119): The home performs a write-through write. -/
  | homeWrw (r : Req)
  /-- DEAD_LETTER_APPEND (R172): The refusing home appends a record to the tenant's dead-letter log or counts an overflow. -/
  | deadLetterAppend (dl : DeadLetter)
  /-- INVALIDATION (R105): The cluster invalidates T and U copies of a word and acknowledges. -/
  | invalidation (cl : Nat) (line : Nat) (w : Nat)
  /-- RECALL (R105): The cluster returns an owned word and drops it. -/
  | recallWord (cl : Nat) (line : Nat) (w : Nat)
  /-- DOWNGRADE (R105): The cluster returns an owned word and keeps it tracked. -/
  | downgrade (cl : Nat) (line : Nat) (w : Nat)
  /-- FORWARDED_READ (R105): The owning cluster returns its current value and keeps ownership. -/
  | forwardedRead (cl : Nat) (line : Nat) (w : Nat)
  /-- FOTSYNC (R314): Every home drops its cached FOT entry for a frame and recalls the frame if LOCK is set. -/
  | fotsync (sock : Nat) (x : Word)
  /-- TENTSYNC (R314): Every unit rereads one tenant's table entry. -/
  | tentsync (sock : Nat) (x : Word)
  /-- CORE_RELEASE (R373): A write to RELEASE takes a core's X7 from its boot STOP park to RELPC. -/
  | coreRelease (sock : Nat) (x : Word)
  /-- ATTEST_APPEND (R373): ATTCMD 1-255 appends the digest in ATTEXT to the attestation log. -/
  | attestAppend (sock : Nat) (ty : BitVec 8)
  /-- ATTEST_SIGN (R373): ATTCMD 0x100 starts signing the log and nonce into ATTSIG. -/
  | attestSign (sock : Nat)
  /-- DEBUG_STOP (R375): A STOP bit write parks a context STOP or marks it pending. -/
  | debugStop (ctx : Nat)
  /-- DEBUG_RESUME (R375): A RESUME bit write returns a STOP park to the rotation. -/
  | debugResume (ctx : Nat)
  /-- DBGDATA_ACCESS (R375): Reads or writes the register of a stopped context that DBGSEL names. -/
  | dbgdataAccess (core : Nat) (wr : Option (BitVec 64))
  /-- DEBUG_PORT_ACCESS (R375): The debug port accesses memory or device pages physically as tenant 0. -/
  | debugPortAccess (addr : Nat) (sz : BitVec 2) (wr : Option (BitVec 64))
  /-- LINK_RETRAIN (R360): A FABPORT write changing MODE or PEER retrains the link. -/
  | linkRetrain (sock : Nat) (port : Nat) (x : Word)
  /-- LINK_TRAINED (R360): Link training ends and UP is set. -/
  | linkTrained (sock : Nat) (port : Nat)
  /-- COHERENT_LINK_DOWN (R362): A coherent port's UP falls; frames are resent on another port or requests fail. -/
  | coherentLinkDown (sock : Nat) (port : Nat)
  /-- FAR_DATA_RECEIVE (R365): A DATA frame is accepted and landed, or discarded with a NAK. -/
  | farDataReceive (sock : Nat) (port : Nat) (f : Frame)
  /-- FAR_ACK_RECEIVE (R366): A cumulative ACK frees acknowledged pieces. -/
  | farAckReceive (sock : Nat) (port : Nat) (f : Frame)
  /-- FAR_NAK_RECEIVE (R366): A NAK resends unacknowledged pieces from the named number. -/
  | farNakReceive (sock : Nat) (port : Nat) (f : Frame)
  /-- FAR_REFUSE_RECEIVE (R368): A REFUSE frame dead-letters the refused piece at the sender. -/
  | farRefuseReceive (sock : Nat) (port : Nat) (f : Frame)
  /-- LINK_LACK_RECEIVE (R367): A LACK frees frames from the link replay buffer. -/
  | linkLackReceive (sock : Nat) (port : Nat) (f : Frame)
  /-- LINK_LNAK_RECEIVE (R367): An LNAK replays link frames from the named sequence. -/
  | linkLnakReceive (sock : Nat) (port : Nat) (f : Frame)
  /-- FARID_WRITE (R366): A FARID write sets RESYNC on the next DATA frame of each flow. -/
  | faridWrite (sock : Nat) (x : Word)
  /-- DMA_WRITE (R370): A host-port device writes memory as a checked .wt request. -/
  | dmaWrite (sock : Nat) (port : Nat) (addr : Nat) (bytes : List (BitVec 8))
  /-- DMA_READ (R370): A host-port device reads memory, or gets Completer Abort when refused. -/
  | dmaRead (sock : Nat) (port : Nat) (addr : Nat) (n : Nat)
  /-- HOST_MEM_ACCESS (R371): The host accesses the endpoint's device-memory range. -/
  | hostMemAccess (sock : Nat) (off : Nat) (n : Nat) (wr : Option (List (BitVec 8)))
  /-- POWER_BUDGET_SET (R374): The management controller sets the package power budget. -/
  | powerBudgetSet (sock : Nat) (watts : Nat)
  /-- OVER_TEMPERATURE (R374): Die temperature above 105 °C shuts the module down. -/
  | overTemperature (sock : Nat)
  /-- REGISTER_WRITE (R6): A write to a device register without behaviour of its own. -/
  | registerWrite (addr : Nat) (x : Word)
  /-- DISPATCH_CYCLE (R24): Each core cycle hands the dispatch slot to its owner or the next ready context and charges one accounting class, the ready histogram and RECEIVED. -/
  | dispatchCycle (core : Nat)
  /-- ENGINE_CYCLE (R344): Each engine cycle increments THROTTLE for engines that hold a startable tmma back and HELD for ports with a class R request waiting. -/
  | engineCycle (sock : Nat)
  /-- FAR_PORT_DOWN (R363): A far-mode fabric port's UP falls, so the FarPort list shrinks and flows move to other ports, or their pieces are lost when no far port remains. -/
  | farPortDown (sock : Nat) (port : Nat)
  /-- HOST_LINK_TRAINED (R369): A host port's PCIe link trains, possibly down to PCIe 5.0 or bifurcated, and HPROLE.WIDTH reports the lanes trained. -/
  | hostLinkTrained (sock : Nat) (port : Nat) (width : BitVec 6)
  deriving DecidableEq, Repr

end Sys2Proof
end

