-- ==== Sys2Proof/Machine/State.lean ====
section
/-! DEFINITION. The state: everything the spec gives the machine, as plain data, and the state right after reset.

Numbering over all sockets: a context is 4096 * socket + 64 * cluster + 8 * core + context, a core 512 * socket +
8 * cluster + core, a cluster 64 * socket + cluster, an engine 256 * socket + 4 * cluster + engine, a port 512 *
socket + 8 * cluster + port, a home 544 * socket + home, an EFC 68 * socket + number (R13, R331). -/

namespace Sys2Proof.Machine

/-- The machine stops. -/
inductive Fault where
  /-- Raised by a step when every module has shut down at a die temperature above 105 °C: "the module shuts down" (R374).
  Safe: the hardware does nothing more either. -/
  | shutDown
  deriving DecidableEq, Repr

/-- No meaning for the instruction. -/
inductive Refusal where
  /-- Raised by the arm of an instruction that has no meaning yet. Safe: nothing is said of it. -/
  | notModelled (mnemonic : String)
  deriving DecidableEq, Repr

/-- Why a context is parked (R21, R27), in the order of its codes 1-5. -/
inductive Reason where
  | fault | tilebind | cwait | trap | stop
  deriving DecidableEq, Repr

/-- What a context is doing (R21, R256). -/
inductive Life where
  | vacant
  | running
  | parked (r : Reason)
  deriving DecidableEq, Repr

/-- Trap causes, in the order of their codes 1-13 (R260). -/
inductive Cause where
  | illegal | misaligned | pageNotPresent | protection | policyDenied | frameOwner | memoryError | sparseMeta
  | formatTag | scaleReserved | versionRetry | breakpoint | svc
  deriving DecidableEq, Repr

/-- A fault or trap before it is taken: its cause and what the trap registers will hold (R256, R257). -/
structure Trap where
  cause : Cause
  va : Word
  /-- TRAPINFO2. -/
  detail : BitVec 20
  /-- TRAPINFO3: the tile fault word of a tile instruction, else 0. -/
  tile : Word
  deriving DecidableEq, Repr

/-- A `cwait` that X7 holds (R337). -/
structure Hold where
  ctr : Nat
  target : Word
  scope : Scope
  deriving DecidableEq, Repr

/-- Why a running context's instruction waits in place, for the waiting classes of R338: for queue room, for an
engine, between two attempts of `tload.v` (R147), or on memory, as `tlbi` for puts to land (R270). -/
inductive Stall where
  | none
  | message
  | engine
  | retry
  | memory
  deriving DecidableEq, Repr

/-- A hardware context (R180, R181, R256). -/
structure Context where
  life : Life
  pstop : Bool
  pfault : Option Trap
  inwfm : Bool
  held : Option Hold
  bootHeld : Bool
  stall : Stall
  /-- Failed attempts of the `tload.v` in progress (R147). -/
  attempt : Nat
  /-- The engine cycle at which its next attempt comes (R147). -/
  resume : Nat
  /-- The words of the instruction that a TILEBIND park or a wait in place waits with. -/
  iw0 : BitVec 32
  iw1 : BitVec 32
  pc : Word
  g : Tbl Word
  v : Tbl Vec
  p : Tbl Word
  m : Tbl (BitVec 128)
  fst : BitVec 5
  fctl : BitVec 2
  cause : BitVec 8
  trapva : Word
  info0 : BitVec 32
  info1 : BitVec 32
  info2 : BitVec 20
  info3 : Word
  uepc : Word
  vrlimit : BitVec 8
  asn : BitVec 16
  ptroot : BitVec 40
  tcb : Nat
  prio : BitVec 5
  tno : BitVec 12
  qleft : Nat
  placed : Nat
  /-- The widest scope of a `fence.rel` or `fence.ar` that the thread has executed: its later stores are releases at it
  (R135, R140). -/
  fenced : Option Scope
  /-- TIME up to which its holding of the thread is counted (R317). -/
  since : Nat
  deriving DecidableEq, Repr

/-- Four words: a message (R261, R294) or an event record (R348). -/
structure Quad where
  w0 : Word
  w1 : Word
  w2 : Word
  w3 : Word
  deriving DecidableEq, Repr

/-- A translation buffer entry: the leaf that a walk of an address space found, its level and whether it maps a
64 KiB page, and the page number at that size (R308). -/
structure TlbEntry where
  asn : BitVec 16
  level : Nat
  page : Nat
  leaf : Word
  deriving DecidableEq, Repr

/-- A retired store not yet performed (R154, R159). -/
structure PendingStore where
  ctx : Nat
  tcb : Nat
  tno : BitVec 12
  pc : Word
  pa : Nat
  n : Nat
  data : Word
  pol : Pol
  rel : Option Scope
  deriving DecidableEq, Repr

/-- Who waits for a receipt counter (R321). -/
inductive Waiter where
  | ctx (c : Nat)
  | thread (tcb : Nat)
  deriving DecidableEq, Repr

/-- An entry of the counter wait table (R321). -/
structure WaitEntry where
  ctr : Nat
  target : Word
  scope : Scope
  who : Waiter
  deriving DecidableEq, Repr

/-- A walk-cache entry: a pointer entry that a walk of an address space read at a level, 5 to 2, for the addresses of a
prefix (R303, R309). It is tagged with the ASN and the root of the walk, of which R308 gives no rule (log 15, DESIGN
CHOICE). -/
structure WalkEntry where
  asn : BitVec 16
  root : Nat
  level : Nat
  prefix_ : Nat
  entry : Word
  deriving DecidableEq, Repr

/-- A core's own state: X7's supervisor registers, the message queue and the trap records that wait for it in order, the
translation and walk caches, the store buffer and the debug page (R24, R258, R293, R303, R375). -/
structure Core where
  cycle : Nat
  svec : Word
  svepc : Word
  nest : Bool
  xlat : Bool
  mq : List Quad
  slots : List (Nat × Quad)
  tlb : List TlbEntry
  walks : List WalkEntry
  sbuf : List PendingStore
  claim : BitVec 8
  dbgSel : BitVec 16
  bp : Tbl Word
  wpa : Tbl Word
  wpb : Tbl Word
  x7wait : Option WaitEntry
  deriving DecidableEq, Repr

/-- The states of a word in the cluster cache (R101). -/
inductive WordState where
  | i | t | u | o | b
  deriving DecidableEq, Repr

/-- A word of a cluster cache line: its state, its value, for B the bytes written, the tenant that wrote them, the place
and PC of the last store that did and the scope of the release it was, and whether the copy holds a single-bit or an
uncorrectable error (R101, R126, R128, R149, R172). -/
structure CacheWord where
  st : WordState
  data : Word
  mask : BitVec 8
  tno : BitVec 12
  origin : Nat
  pc : Word
  rel : Option Scope
  single : Bool
  bad : Bool
  deriving DecidableEq, Repr

/-- A line of the cluster cache: its words, whether it stands in way 15, the thread-context cache (R33, R99), the stamp of
its residency mark (R165) and the stamp of its fill. -/
structure CacheLine where
  words : Tbl CacheWord
  way15 : Bool
  mark : Option Nat
  stamp : Nat
  deriving DecidableEq, Repr

/-- A piece of a put: 1 to 64 bytes within a line (R169). -/
structure Piece where
  pa : Nat
  bytes : List (BitVec 8)
  deriving DecidableEq, Repr

/-- A put in the put queue: the pieces not yet sent, and how many sent lines and increments have not ended (R290). -/
structure PutEntry where
  id : Nat
  origin : Nat
  tno : BitVec 12
  pc : Word
  pol : Pol
  scope : Scope
  kind : BitVec 4
  ctr : Option Nat
  pieces : List Piece
  pending : Nat
  size : Nat
  deriving DecidableEq, Repr

/-- A copy record in the copy queue: its address, and the CURSOR that stood in it as it was queued (R174, R291). -/
structure CopyWait where
  rpa : Nat
  cursor : Nat
  deriving DecidableEq, Repr

/-- A copy record taken up by the engine, with the fields it read then, and the number of its taking up (R174, R176,
R291). -/
structure CopyRun where
  id : Nat
  rpa : Nat
  src : Word
  dst : Word
  len : Nat
  ctr : Nat
  cursor : Nat
  start : Nat
  pol : Pol
  scope : Scope
  phys : Bool
  tno : BitVec 12
  asn : BitVec 16
  ptroot : Nat
  origin : Nat
  pc : Word
  deriving DecidableEq, Repr

/-- A copy-stop message waiting in the engine for the queue of a core, with the number of its stop (R292). -/
structure CopyStop where
  core : Nat
  stamp : Nat
  msg : Quad
  deriving DecidableEq, Repr

/-- A timed sleeper (R279). -/
structure Sleeper where
  tcb : Nat
  deadline : Nat
  deriving DecidableEq, Repr

/-- A cluster port: its window W, the counts n and h, the requests outstanding, the unit whose turn comes next, and within a
core the context, within an engine the binding, whose turn comes next (R299, R300). -/
structure Port where
  w : Nat
  n : Nat
  h : Nat
  out : Nat
  turn : Nat
  within : Tbl Nat
  deriving DecidableEq, Repr

/-- A cluster's own state. -/
structure Cluster where
  clc : Tbl CacheLine
  filledU : Bool
  putq : List PutEntry
  /-- Contexts whose put, and whose copy, waits for room, in order (R290, R291). -/
  putWait : List Nat
  copyWait : List Nat
  /-- The number from which the turn of the puts, and of the copy runs, goes on (R290, R291). -/
  putTurn : Nat
  copyTurn : Nat
  copyq : List CopyWait
  copies : List CopyRun
  stops : List CopyStop
  ctlb : List TlbEntry
  cwalks : List WalkEntry
  /-- Threads that stand in queue 0 by demotion, and those of them that the boundary walk has still to meet (R277). -/
  demoted : List Nat
  walk : List Nat
  runq : Tbl (List Nat)
  sleepers : List Sleeper
  sleepOver : List Sleeper
  waits : List WaitEntry
  waitOver : List Nat
  recheck : List Nat
  ports : Tbl Port
  lastMma : Tbl Nat
  deriving DecidableEq, Repr

/-- A physical operand tile: 64 rows of data, 64 scale rows; an absent row is zero (R221, R224). -/
structure OpTile where
  data : List (BitVec 1024)
  scale : List (BitVec 128)
  deriving DecidableEq, Repr

/-- A physical accumulator tile: 64 rows of 64 elements of 64 bits; an absent row is zero (R58, R224). -/
abbrev AccTile := List (BitVec 4096)

/-- A thread's binding to an engine: the physical tiles of a0-a3 and t0-t7, the stamp of the moment its thread
left its context, and whether its reserved accumulator tile and its reserved operand tile are in use (R35, R224, R226). -/
structure Binding where
  tcb : Nat
  acc : List Nat
  opd : List Nat
  detached : Nat
  accLent : Bool
  opdLent : Bool
  deriving DecidableEq, Repr

/-- A tile instruction in an engine's issue queue: a multiply with its words, or another instruction, which its core
holds; whether it writes an accumulator, and the physical tile it took at its acceptance (R225, R226, R230, R288). -/
structure Issue where
  ctx : Nat
  instr : Option Instr
  tno : BitVec 12
  w0 : BitVec 32
  w1 : BitVec 32
  acc : Bool
  tile : Option Nat
  /-- It has been held back by R344. -/
  slowed : Bool
  deriving DecidableEq, Repr

/-- What an entry of the tile store queue does when it drains (R146, R237, R289). -/
inductive DrainStep where
  | row (pieces : List Piece)
  | version (pa : Nat)
  | release
  deriving DecidableEq, Repr

/-- An entry of the tile store queue. -/
structure TileDrain where
  ctx : Nat
  tcb : Nat
  tno : BitVec 12
  pc : Word
  pol : Pol
  scope : Scope
  /-- The scope of the release that its rows carry to their homes (R135, R149). -/
  rel : Option Scope
  held : Option (Bool × Nat)
  step : DrainStep
  deriving DecidableEq, Repr

/-- A row of a `put.t`: its pieces not yet sent, how many of those sent have not been acknowledged or dead-lettered, and how
many pieces and increments have not ended (R238, R289). -/
structure TilePut where
  id : Nat
  /-- The binding that it is of (R300). -/
  binding : Nat
  origin : Nat
  tno : BitVec 12
  pc : Word
  pol : Pol
  scope : Scope
  ctr : Option Nat
  held : Option (Bool × Nat)
  pieces : List Piece
  unacked : Nat
  pending : Nat
  deriving DecidableEq, Repr

/-- A tile engine (R224, R288, R289). -/
structure Engine where
  acc : Tbl AccTile
  opd : Tbl OpTile
  bindings : Tbl Binding
  issue : List Issue
  /-- Contexts whose store waits for room in the tile store queue, in order (R289). -/
  waiting : List Nat
  running : Option Issue
  storeq : List TileDrain
  puts : List TilePut
  /-- The binding whose waiting `tmma` starts next (R288). -/
  turn : Nat
  deriving DecidableEq, Repr

/-- A record's runs in progress: the slots still to run, the first being the one that runs, the index in it, e0-e7
(R350, R354), the slots' lengths and words as they stood when the record was taken, and the words as they stood when the
run in progress began (R357). -/
structure EfcRun where
  record : Quad
  slots : List Nat
  index : Nat
  regs : Tbl Word
  lens : Tbl Nat
  prog : Tbl (BitVec 32)
  began : Tbl (BitVec 32)
  deriving DecidableEq, Repr

/-- An Event Filter Coprocessor (R345-R351). -/
structure Efc where
  attach : Tbl Word
  en : Bool
  tcore : BitVec 9
  slotlen : Tbl Nat
  prog : Tbl (BitVec 32)
  data : Tbl Word
  fifos : Tbl (List Quad)
  dropped : Tbl Bool
  allow : Tbl Int
  run : Option EfcRun
  turn : Nat
  deriving DecidableEq, Repr

/-- A tenant-table entry in force (R316). -/
structure Tenant where
  pmark : Bool
  susp : Bool
  share : Nat
  qsel : Nat
  dlbase : Nat
  dlsize : Nat
  erate : Nat
  ebudget : Nat
  deriving DecidableEq, Repr

/-- A co-residence group (R319). -/
structure Group where
  tno : BitVec 12
  cluster : Nat
  members : List Nat
  deriving DecidableEq, Repr

/-- An attestation log entry (R373). -/
structure AttEntry where
  type : BitVec 8
  svn : Word
  digest : BitVec 256
  deriving DecidableEq, Repr

/-- A fabric port's register (R360). -/
structure FabPort where
  mode : BitVec 2
  peer : BitVec 3
  up : Bool
  lretry : Bool
  deriving DecidableEq, Repr

/-- A far piece kept until it is acknowledged (R363). -/
structure FarPiece where
  seq : BitVec 32
  bytes : List (BitVec 8)
  rpa : Nat
  rctr : Nat
  tno : BitVec 12
  kind : BitVec 4
  origin : Nat
  pc : Word
  pa : Nat
  copyRec : Nat
  deriving DecidableEq, Repr

/-- A landed piece on its way to another package: the package's number, and what its frames will say, as the window stood at
the landing (R363, R378). -/
structure FarGo where
  dest : Nat
  piece : FarPiece
  deriving DecidableEq, Repr

/-- The sending end of a far flow (R363, R366). -/
structure OutFlow where
  next : BitVec 32
  kept : List FarPiece
  timeouts : Nat
  resync : Bool
  since : Nat
  deriving DecidableEq, Repr

/-- The receiving end of a far flow (R365). -/
structure InFlow where
  expect : BitVec 32
  nakSent : Bool
  unacked : Nat
  since : Nat
  deriving DecidableEq, Repr

/-- Link retry of a port: the next number to send, the frames kept, the next number expected, and the frames taken
since the last LACK (R367). -/
structure Link where
  next : BitVec 32
  kept : List Frame
  expect : BitVec 32
  taken : Nat
  deriving DecidableEq, Repr

/-- The part's fuses and straps (R18, R369, R372). -/
structure Fuses where
  step : BitVec 8
  clusters : BitVec 64
  cores : BitVec 512
  engines : BitVec 256
  homes : BitVec 544
  fab : BitVec 16
  keyHash : BitVec 256
  rollback : Word
  endpoint : Bool
  deriving DecidableEq, Repr

/-- What a package holds once (R258, R314, R316, R319, R360, R371, R373, R374). -/
structure Package where
  fotbase : Nat
  tentbase : Nat
  qtabbase : Nat
  tenants : Tbl Tenant
  used : Tbl Nat
  /-- Nanoseconds of context time that the dispatchers have not yet added in, by tenant (R317). -/
  unadded : Tbl Nat
  groups : Tbl Group
  bootFail : BitVec 4
  sigDone : Bool
  release : BitVec 9
  relPc : Word
  attCmd : BitVec 9
  attExt : Tbl Word
  dbgLog : Nat
  attSig : Tbl Word
  attLog : List AttEntry
  svn : Word
  signing : Option (BitVec 256)
  ports : Tbl FabPort
  farid : BitVec 12
  farVal : Bool
  fartmo : BitVec 16
  farwin : Tbl Word
  flowsOut : Tbl OutFlow
  flowsIn : Tbl InFlow
  links : Tbl Link
  hpWidth : Tbl (BitVec 6)
  hpTno : Tbl (BitVec 12)
  endBase : Tbl Word
  powerBudget : Nat
  shutdown : Bool
  deriving DecidableEq, Repr

/-- A directory entry: its tracked sharers (SHC, SHS) and the owners of its words (OWN, OID), each a party 0-63 for a
cluster of the home's socket and 64 + s for socket s, the postmark's SRC and SCOPE where VAL is set, and the stamp of
its allocation (R115, R116, R149). -/
structure DirEntry where
  sharers : List Nat
  owners : Tbl Nat
  pmk : Option (BitVec 7 × BitVec 3)
  stamp : Nat
  deriving DecidableEq, Repr

/-- An uncorrectable or correctable error of a memory word (R126, R127): a single-bit error; an error that the
given number of further reads still meets; an error that persists. -/
inductive WordError where
  | single
  | transient (rereads : Nat)
  | persistent
  deriving DecidableEq, Repr

/-- An error of a word of a slice-cache line (R126, R128): a single-bit error; an uncorrectable one in a clean line; one
in a dirty line, with the word that memory behind it still holds. -/
inductive SliceError where
  | single
  | clean
  | dirty (old : Word)
  deriving DecidableEq, Repr

/-- Where a message of the butterflies stands (R295-R301): waiting at its port for admission as a request of a
unit, in the output queue of a switch, in a home input queue, at a fabric port on its way to the home of another socket
(R361, R362), in the output queue of a switch of the reply butterfly, or back at its port. -/
inductive Place where
  | waiting (unit : Nat)
  | output (stage switch out : Nat)
  | home
  | link (port : Nat)
  | back (stage switch out : Nat)
  | reply
  deriving DecidableEq, Repr

/-- A message of the butterflies: its class (A or R), the context or binding of its unit, its congestion mark, its port and
slice port, the request, once performed by what it was served (R349), and the landed piece that goes far after its increment
(R300, R363). -/
structure Flight where
  place : Place
  sub : Nat
  classA : Bool
  cm : Bool
  port : Nat
  slice : Nat
  req : Req
  served : Option Nat
  far : Option FarGo
  deriving DecidableEq, Repr

/-- What leaves the module (R364, R370, R371, R374, R375). -/
inductive Outgoing where
  | frame (sock port : Nat) (bytes : List (BitVec 8))
  | deviceStore (pa n : Nat) (x : Word)
  | dmaData (sock port : Nat) (bytes : List (BitVec 8))
  | completerAbort (sock port : Nat)
  | hostData (sock : Nat) (bytes : List (BitVec 8))
  | debugData (x : Word)
  | overTemperature (sock : Nat)
  | bootStatus (sock : Nat) (x : Word)
  deriving DecidableEq, Repr

/-- A thread whose `texit` has retired and whose tile stores still drain (R39). -/
structure Exiting where
  tcb : Nat
  cluster : Nat
  deriving DecidableEq, Repr

/-- An access made by the instruction in progress, for watchpoints (R257, R376): its virtual address, size, policy code
(none for accesses that name no policy), whether it reads and writes, its lane, and whether it names a device register. -/
structure Acc where
  va : Word
  n : Nat
  pol : Option Pol
  rd : Bool
  wr : Bool
  lane : Nat
  device : Bool
  deriving DecidableEq, Repr

/-- The whole machine. The last nine fields are the model's own (log 4). -/
structure State where
  /-- The packages that exist, by socket. -/
  fuses : Tbl Fuses
  mem : List Host.Cell
  flash : List Host.Cell
  errs : Tbl WordError
  /-- Errors of words of slice-cache lines (R126, R128). -/
  slc : Tbl SliceError
  dir : Tbl DirEntry
  /-- The entries of proxy homes for lines of other sockets, keyed by 2^52 * socket + line (R114, R115). -/
  proxies : Tbl DirEntry
  fot : Tbl (BitVec 16)
  ctxs : Tbl Context
  cores : Tbl Core
  clusters : Tbl Cluster
  engines : Tbl Engine
  efcs : Tbl Efc
  pkgs : Tbl Package
  ctrs : Tbl Word
  energy : Tbl Int
  flights : List Flight
  exiting : List Exiting
  /-- `fenced` of the threads that stand on no context, by TCB. -/
  fences : Tbl Scope
  outbox : List Outgoing
  /-- The greatest of the cores' cycle counts: the clock of TIME and of the engine cycles. -/
  clock : Nat
  cur : Nat
  curEfc : Nat
  ir0 : BitVec 32
  ir1 : BitVec 32
  agenda : List Instr
  fresh : Nat
  accs : List Acc
  seq : Nat
  answer : Option Word
  deriving DecidableEq, Repr

/-- A user context that holds no thread (R23). -/
def Context.vacant : Context :=
  { life := .vacant, pstop := false, pfault := none, inwfm := false, held := none, bootHeld := false, stall := .none, attempt := 0,
    resume := 0, iw0 := 0, iw1 := 0, pc := 0, g := [], v := [], p := [], m := [], fst := 0, fctl := 0, cause := 0, trapva := 0, info0 := 0, info1 := 0,
    info2 := 0, info3 := 0, uepc := 0, vrlimit := 0, asn := 0, ptroot := 0, tcb := 0, prio := 0, tno := 0, qleft := 0,
    placed := 0, fenced := none, since := 0 }

/-- An X7 that the boot firmware has not released (R23, R181, R256). -/
def Context.bootHeldX7 : Context :=
  { Context.vacant with life := .parked .stop, bootHeld := true, vrlimit := 16 }

/-- The address at which the boot core's X7 begins (R372), on socket 0. -/
def romBase : Nat := 0x0F00003000000

/-- The boot core's X7 (R23, R372). -/
def Context.bootX7 : Context :=
  { Context.vacant with life := .running, vrlimit := 16, pc := BitVec.ofNat 64 romBase }

/-- A core at reset. -/
def Core.init : Core :=
  { cycle := 0, svec := 0, svepc := 0, nest := false, xlat := false, mq := [], slots := [], tlb := [], walks := [], sbuf := [],
    claim := 0, dbgSel := 0, bp := [], wpa := [], wpb := [], x7wait := none }

/-- A port at reset (R299). -/
def Port.init : Port := { w := 64, n := 0, h := 0, out := 0, turn := 0, within := [] }

/-- A cluster at reset. -/
def Cluster.init : Cluster :=
  { clc := [], filledU := false, putq := [], putWait := [], copyWait := [], putTurn := 0, copyTurn := 0, copyq := [], copies := [], stops := [],
    ctlb := [], cwalks := [], demoted := [], walk := [], runq := [],
    sleepers := [], sleepOver := [], waits := [], waitOver := [], recheck := [], ports := [], lastMma := [] }

/-- An engine at reset. -/
def Engine.init : Engine :=
  { acc := [], opd := [], bindings := [], issue := [], waiting := [], running := none, storeq := [], puts := [], turn := 0 }

/-- An EFC at reset. -/
def Efc.init : Efc :=
  { attach := [], en := false, tcore := 0, slotlen := [], prog := [], data := [], fifos := [], dropped := [],
    allow := [], run := none, turn := 0 }

/-- The all-zero tenant entry (R316). -/
def Tenant.zero : Tenant :=
  { pmark := false, susp := false, share := 0, qsel := 0, dlbase := 0, dlsize := 0, erate := 0, ebudget := 0 }

/-- A package at reset. -/
def Package.init : Package :=
  { fotbase := 0, tentbase := 0, qtabbase := 0, tenants := [], used := [], unadded := [], groups := [],
    bootFail := 0, sigDone := false, release := 0, relPc := 0, attCmd := 0, attExt := [], dbgLog := 0, attSig := [],
    attLog := [], svn := 0, signing := none, ports := [], farid := 0, farVal := false, fartmo := 0, farwin := [],
    flowsOut := [], flowsIn := [], links := [], hpWidth := [], hpTno := [], endBase := [], powerBudget := 2800,
    shutdown := false }

/-- The fuses of a full part (R12; log 2). -/
def Fuses.full : Fuses :=
  { step := 0, clusters := BitVec.allOnes 64, cores := BitVec.allOnes 512, engines := BitVec.allOnes 256,
    homes := BitVec.allOnes 544, fab := BitVec.allOnes 16, keyHash := 0, rollback := 0, endpoint := false }

/-- The global number of X7 of a core. -/
def x7Of (core : Nat) : Nat := 8 * core + 7

/-- The machine right after reset (R23): one full part on socket 0, every user context vacant, X7 of the
lowest-numbered core of the lowest-numbered cluster at the boot ROM, every other X7 parked STOP. -/
def State.reset : State :=
  { fuses := [(0, Fuses.full)], mem := [], flash := [], errs := [], slc := [], dir := [], proxies := [], fot := [],
    ctxs := [(x7Of 0, Context.bootX7)], cores := [], clusters := [], engines := [], efcs := [], pkgs := [],
    ctrs := [], energy := [], flights := [], exiting := [], fences := [], outbox := [], clock := 0, cur := x7Of 0, curEfc := 0,
    ir0 := 0, ir1 := 0, agenda := [], fresh := 0, accs := [], seq := 0, answer := none }

end Sys2Proof.Machine
end

