-- ==== Sys2Proof/Machine/Units.lean ====
section
/-! DEFINITION. Which units a part has, the physical map, and which home serves an address (spec/01 R12-R19,
spec/04 R108-R114, spec/11 R297, spec/12 R324). -/

namespace Sys2Proof.Machine

/-- The fuses of a socket; a socket that does not exist has no unit. -/
def State.fusesOf (s : State) (sock : Nat) : Fuses :=
  tget s.fuses sock { Fuses.full with clusters := 0, cores := 0, engines := 0, homes := 0, fab := 0 }

/-- CLn of a socket is present; clusters are numbered over all sockets (R18). -/
def State.hasCluster (s : State) (cl : Nat) : Bool := (s.fusesOf (cl / 64)).clusters.getLsbD (cl % 64)

/-- A core is present (R18). -/
def State.hasCore (s : State) (core : Nat) : Bool :=
  s.hasCluster (core / 8) && (s.fusesOf (core / 512)).cores.getLsbD (core % 512)

/-- An engine is present (R18). -/
def State.hasEngine (s : State) (eng : Nat) : Bool :=
  s.hasCluster (eng / 4) && (s.fusesOf (eng / 256)).engines.getLsbD (eng % 256)

/-- A home channel is present (R18). -/
def State.hasHome (s : State) (home : Nat) : Bool := (s.fusesOf (home / 544)).homes.getLsbD (home % 544)

/-- An EFC exists: those of present clusters and of the hub dies (R345). -/
def State.hasEfc (s : State) (e : Nat) : Bool :=
  (tfind s.fuses (e / 68)).isSome && (decide (64 ≤ e % 68) || s.hasCluster (64 * (e / 68) + e % 68))

/-- Present cores of a cluster, ascending. -/
def State.coresOf (s : State) (cl : Nat) : List Nat :=
  ((List.range 8).map (8 * cl + ·)).filter s.hasCore

/-- Present engines of a cluster, ascending. -/
def State.enginesOf (s : State) (cl : Nat) : List Nat :=
  ((List.range 4).map (4 * cl + ·)).filter s.hasEngine

/-- Present clusters of a socket, ascending. -/
def State.clustersOf (s : State) (sock : Nat) : List Nat :=
  ((List.range 64).map (64 * sock + ·)).filter s.hasCluster

/-- The number of set bits of a mask of n bits. -/
def popBits (x : Nat) : Nat → Nat
  | 0 => 0
  | n + 1 => x % 2 + popBits (x / 2) n

/-- IDCOUNT.HOMEH: present HBM home channels (R18). -/
def State.homeH (s : State) (sock : Nat) : Nat := popBits (s.fusesOf sock).homes.toNat 512

/-- IDCOUNT (R18). -/
def State.idCount (s : State) (sock : Nat) : Word :=
  let f := s.fusesOf sock
  BitVec.ofNat 64 (popBits f.clusters.toNat 64 + popBits f.cores.toNat 512 * 2 ^ 7 + popBits f.engines.toNat 256 * 2 ^ 17 +
    popBits f.homes.toNat 512 * 2 ^ 26 + popBits (f.homes.toNat / 2 ^ 512) 32 * 2 ^ 36 + popBits f.fab.toNat 16 * 2 ^ 42)

/-- The socket a physical address names: bits 51:49 (R108). -/
def sockOf (pa : Nat) : Nat := pa / 2 ^ 49 % 8

/-- The address within its socket: bits 48:0. -/
def offOf (pa : Nat) : Nat := pa % 2 ^ 49

/-- The base address of a socket. -/
def sockBase (sock : Nat) : Nat := sock * 2 ^ 49

/-- The local socket reaches another over a coherent link: its own number, or the PEER of a port in MODE 1 with UP
(R361). -/
def State.joined (s : State) (here sock : Nat) : Bool :=
  decide (here = sock) ||
    ((tget s.pkgs here Package.init).ports.any
      (fun e => e.2.mode == 1#2 && e.2.up && e.2.peer.toNat == sock && (s.fusesOf here).fab.getLsbD e.1)) &&
      (tfind s.fuses sock).isSome

/-- 2.5 GiB in bytes: what each HBM home channel holds (R12, R17). -/
def channelBytes : Nat := 5 * 2 ^ 29

/-- The address lies in HBM that the part has (R108). -/
def State.isHbm (s : State) (pa : Nat) : Bool :=
  decide (offOf pa < channelBytes * s.homeH (sockOf pa))

/-- The address lies in the second tier (R108). -/
def isTier (pa : Nat) : Bool := decide (0x0020000000000 ≤ offOf pa) && decide (offOf pa < 0x0030000000000)

/-- The address lies in device-register space (R108). -/
def isDevice (pa : Nat) : Bool := decide (0x0F00000000000 ≤ offOf pa) && decide (offOf pa < 0x1000000000000)

/-- The address is memory of a package that exists. -/
def State.isMemory (s : State) (pa : Nat) : Bool :=
  decide (pa < 2 ^ 52) && (tfind s.fuses (sockOf pa)).isSome && (s.isHbm pa || isTier pa)

/-- Number of the bits below a bound that a predicate leaves out. -/
def absentBelow (present : Nat → Bool) (n : Nat) : List Nat := (List.range n).filter (fun k => !present k)

/-- The lowest-numbered present home channel of a range of a socket (R111). -/
def State.lowestHome (s : State) (sock lo n : Nat) : Nat :=
  544 * sock + (((List.range n).map (lo + ·)).find? (fun h => s.hasHome (544 * sock + h))).getD lo

/-- HbmHome of R112: the home channel and the channel-local address. -/
def State.hbmHome (s : State) (pa : Nat) : Nat × Nat :=
  let sock := sockOf pa
  let g := pa / 256 % 2 ^ 33
  let beta := g / 4096
  let b := (g % 4096) ^^^ (beta % 4096) ^^^ (beta / 4096 % 512)
  let slot := b / 8
  let k := b % 8
  if s.hasHome (544 * sock + slot) then (544 * sock + slot, (beta * 8 + k) * 256 + pa % 256)
  else
    let fused := absentBelow (fun h => s.hasHome (544 * sock + h)) 512
    let present := (List.range 512).filter (fun h => s.hasHome (544 * sock + h))
    let n := beta * fused.length + fused.findIdx (· == slot)
    let count := present.length
    (544 * sock + present.getD (n - n / count * count) 0, ((count * 2560 + n / count) * 8 + k) * 256 + pa % 256)

/-- TierHome of R113. -/
def tierHome (pa : Nat) : Nat × Nat :=
  let g := (offOf pa - 0x0020000000000) / 256 % 2 ^ 32
  let c := (g % 32) ^^^ (g / 2 ^ 5 % 32) ^^^ (g / 2 ^ 10 % 32) ^^^ (g / 2 ^ 15 % 32) ^^^ (g / 2 ^ 20 % 32) ^^^
    (g / 2 ^ 25 % 32) ^^^ (g / 2 ^ 30 % 4)
  (544 * sockOf pa + 512 + c, g / 32 * 256 + pa % 256)

/-- The host-port of a configuration-space or BAR address of a socket, where it is one (R111, R370). -/
def hostPortOf (off : Nat) : Option Nat :=
  if 0x0F10000000000 ≤ off ∧ off < 0x0F10020000000 then some ((off - 0x0F10000000000) / 0x10000000)
  else if 0x0F80000000000 ≤ off ∧ off < 0x0FC0000000000 then some ((off - 0x0F80000000000) / 0x20000000000)
  else none

/-- The pages of device-register space that R111 populates. -/
inductive DevPage where
  | ident | tableCtl | groups | interleave
  | efc (e : Nat)
  | fabric | boot | hostPort
  | dispatcher (n : Nat)
  | efcData (e : Nat)
  | debug (core : Nat)
  | rom | flash
  | host (port : Nat)
  deriving DecidableEq, Repr

/-- The page of a device-register address, and the offset from the page's base, without regard to which units are
present (R111). -/
def devPage (pa : Nat) : Option (DevPage × Nat) :=
  let d := offOf pa - 0x0F00000000000
  if !isDevice pa then none
  else if d < 0x1000 then some (.ident, d)
  else if d < 0x2000 then some (.tableCtl, d - 0x1000)
  else if 0x20000 ≤ d ∧ d < 0x28000 then some (.groups, d - 0x20000)
  else if 0x30000 ≤ d ∧ d < 0x38000 then some (.interleave, d - 0x30000)
  else if 0x40000 ≤ d ∧ d < 0x84000 then some (.efc ((d - 0x40000) / 0x1000), d % 0x1000)
  else if 0x90000 ≤ d ∧ d < 0x92000 then some (.fabric, d - 0x90000)
  else if 0xA0000 ≤ d ∧ d < 0xB2000 then some (.boot, d - 0xA0000)
  else if 0xC0000 ≤ d ∧ d < 0xC1000 then some (.hostPort, d - 0xC0000)
  else if 0x100000 ≤ d ∧ d < 0x140000 then some (.dispatcher ((d - 0x100000) / 0x1000), d % 0x1000)
  else if 0x1000000 ≤ d ∧ d < 0x1440000 then some (.efcData ((d - 0x1000000) / 0x10000), d % 0x10000)
  else if 0x2000000 ≤ d ∧ d < 0x2200000 then some (.debug ((d - 0x2000000) / 0x1000), d % 0x1000)
  else if 0x3000000 ≤ d ∧ d < 0x3100000 then some (.rom, d - 0x3000000)
  else if 0x4000000 ≤ d ∧ d < 0x8000000 then some (.flash, d - 0x4000000)
  else (hostPortOf (offOf pa)).map (fun p => (.host p, offOf pa))

/-- The page is populated in this part (R111, R278, R345, R375). -/
def State.populated (s : State) (pa : Nat) : Bool :=
  let sock := sockOf pa
  (tfind s.fuses sock).isSome &&
    match devPage pa with
    | none => false
    | some (.efc e, _) => s.hasEfc (68 * sock + e)
    | some (.efcData e, _) => s.hasEfc (68 * sock + e)
    | some (.dispatcher n, _) => s.hasCluster (64 * sock + n)
    | some (.debug c, _) => s.hasCore (512 * sock + c)
    | some _ => true

/-- The home that serves a device page (R111). -/
def State.devHome (s : State) (pa : Nat) : Nat :=
  let sock := sockOf pa
  match devPage pa with
  | some (.efc e, _) => if e < 64 then s.lowestHome sock (8 * e) 8 else s.lowestHome sock (128 * (e - 64)) 128
  | some (.efcData e, _) => if e < 64 then s.lowestHome sock (8 * e) 8 else s.lowestHome sock (128 * (e - 64)) 128
  | some (.dispatcher n, _) => s.lowestHome sock (8 * n) 8
  | some (.debug c, _) => s.lowestHome sock (8 * (c / 8)) 8
  | some (.host p, _) => s.lowestHome sock (256 * p) 128
  | _ => s.lowestHome sock 0 512

/-- The home of a physical address (R112-R114), numbered over all sockets. -/
def State.homeOf (s : State) (pa : Nat) : Nat :=
  if isDevice pa then s.devHome pa else if isTier pa then (tierHome pa).1 else (s.hbmHome pa).1

/-- The channel-local address of a memory address (R112, R113). -/
def State.localOf (s : State) (pa : Nat) : Nat := if isTier pa then (tierHome pa).2 else (s.hbmHome pa).2

/-- The hub die of a home (R14). -/
def hubOf (home : Nat) : Nat :=
  let h := home % 544
  if h < 512 then h / 128 else (h - 512) / 8

/-- An address that an access from a socket may use: memory, or a populated device page, of its coherent domain
(R109, R361). -/
def State.backed (s : State) (here pa : Nat) : Bool :=
  decide (pa < 2 ^ 52) && s.joined here (sockOf pa) && (s.isMemory pa || (isDevice pa && s.populated pa))

/-- A software table or log is reached only in backed memory outside device space (R392). -/
def State.tableBacked (s : State) (here pa : Nat) : Bool := s.joined here (sockOf pa) && s.isMemory pa

/-- BackedRange(pa, n): n bytes in backed HBM or second-tier memory of one socket (R282). -/
def State.backedRange (s : State) (here pa n : Nat) : Bool :=
  s.tableBacked here pa && s.tableBacked here (pa + n - 1) && decide (sockOf pa = sockOf (pa + n - 1)) &&
    (isTier pa == isTier (pa + n - 1))

/-- PortOf: the cluster port of an address (R297). -/
def portOf (pa : Nat) : Nat :=
  ((List.range 14).foldl (fun x k => x ^^^ (pa / 2 ^ (3 * k + 9) % 8)) (pa / 64 % 8)) ^^^ (pa / 2 ^ 51 % 2)

/-- The slice port of a home: a second-tier home shares that of an HBM home (R15). -/
def sliceOf (home : Nat) : Nat := if home % 544 < 512 then home % 544 else 16 * (home % 544 - 512)

end Sys2Proof.Machine
end

