-- ==== Sys2Proof/Machine/Access.lean ====
section
/-! DEFINITION. The one way each part of the state is reached: contexts, cores, clusters, engines, EFCs, packages,
the registers of the context in turn, TIME and the free values. -/

namespace Sys2Proof.Machine

/-- The core of a context. -/
def coreOf (c : Nat) : Nat := c / 8

/-- The cluster of a context. -/
def clusterOf (c : Nat) : Nat := c / 64

/-- The socket of a context. -/
def socketOf (c : Nat) : Nat := c / 4096

/-- A context is X7 of its core (R22). -/
def isX7 (c : Nat) : Bool := c % 8 == 7

/-- What an unlisted context holds: X7 waits for its release, a user context is vacant (R23). -/
def ctxInit (c : Nat) : Context := if isX7 c then Context.bootHeldX7 else Context.vacant

/-- A context. -/
def State.ctx (s : State) (c : Nat) : Context := tget s.ctxs c (ctxInit c)

/-- A context replaced. -/
def State.setCtx (s : State) (c : Nat) (x : Context) : State := { s with ctxs := tset s.ctxs c x }

/-- A context changed. -/
def State.modCtx (s : State) (c : Nat) (f : Context → Context) : State := s.setCtx c (f (s.ctx c))

/-- A core. -/
def State.core (s : State) (k : Nat) : Core := tget s.cores k Core.init

/-- A core changed. -/
def State.modCore (s : State) (k : Nat) (f : Core → Core) : State := { s with cores := tset s.cores k (f (s.core k)) }

/-- A cluster. -/
def State.cluster (s : State) (n : Nat) : Cluster := tget s.clusters n Cluster.init

/-- A cluster changed. -/
def State.modCluster (s : State) (n : Nat) (f : Cluster → Cluster) : State :=
  { s with clusters := tset s.clusters n (f (s.cluster n)) }

/-- An engine. -/
def State.engine (s : State) (e : Nat) : Engine := tget s.engines e Engine.init

/-- An engine changed. -/
def State.modEngine (s : State) (e : Nat) (f : Engine → Engine) : State :=
  { s with engines := tset s.engines e (f (s.engine e)) }

/-- An EFC. -/
def State.efc (s : State) (e : Nat) : Efc := tget s.efcs e Efc.init

/-- An EFC changed. -/
def State.modEfc (s : State) (e : Nat) (f : Efc → Efc) : State := { s with efcs := tset s.efcs e (f (s.efc e)) }

/-- A package. -/
def State.pkg (s : State) (n : Nat) : Package := tget s.pkgs n Package.init

/-- A package changed. -/
def State.modPkg (s : State) (n : Nat) (f : Package → Package) : State :=
  { s with pkgs := tset s.pkgs n (f (s.pkg n)) }

/-- The context in turn. -/
def State.me (s : State) : Context := s.ctx s.cur

/-- The context in turn changed. -/
def State.modMe (s : State) (f : Context → Context) : State := s.modCtx s.cur f

/-- Socket, cluster and core of the context in turn. -/
def State.mySock (s : State) : Nat := socketOf s.cur
def State.myCluster (s : State) : Nat := clusterOf s.cur
def State.myCore (s : State) : Nat := coreOf s.cur

/-- InX7() (R9). -/
def State.inX7 (s : State) : Bool := isX7 s.cur

/-- A general register of a context; g0 reads 0 (R69, R180). -/
def Context.getG (x : Context) (r : Nat) : Word := if r = 0 then 0 else tget x.g r 0

/-- A general register of a context written; a write to g0 is discarded (R69). -/
def Context.setG (x : Context) (r : Nat) (v : Word) : Context := if r = 0 then x else { x with g := tset x.g r v }

/-- A vector register (R200). -/
def Context.getV (x : Context) (r : Nat) : Vec := tget x.v r 0

/-- A vector register written. -/
def Context.setV (x : Context) (r : Nat) (v : Vec) : Context := { x with v := tset x.v r v }

/-- A predicate register; p0 reads all ones (R69, R201). -/
def Context.getP (x : Context) (r : Nat) : Word := if r = 0 then BitVec.allOnes 64 else tget x.p r 0

/-- A predicate register written; a write to p0 is discarded (R69). -/
def Context.setP (x : Context) (r : Nat) (v : Word) : Context := if r = 0 then x else { x with p := tset x.p r v }

/-- A shape register (R222). -/
def Context.getM (x : Context) (r : Nat) : BitVec 128 := tget x.m r 0

/-- A shape register written. -/
def Context.setM (x : Context) (r : Nat) (v : BitVec 128) : Context := { x with m := tset x.m r v }

/-- g, v, p and m registers of the context in turn. -/
def State.readG (s : State) (r : Reg) : Word := s.me.getG r.toNat
def State.writeG (s : State) (r : Reg) (v : Word) : State := s.modMe (fun x => x.setG r.toNat v)
def State.readV (s : State) (r : Reg) : Vec := s.me.getV r.toNat
def State.writeV (s : State) (r : Reg) (v : Vec) : State := s.modMe (fun x => x.setV r.toNat v)
def State.readP (s : State) (r : BitVec 3) : Word := s.me.getP r.toNat
def State.writeP (s : State) (r : BitVec 3) (v : Word) : State := s.modMe (fun x => x.setP r.toNat v)
def State.readM (s : State) (r : BitVec 3) : BitVec 128 := s.me.getM r.toNat
def State.writeM (s : State) (r : BitVec 3) (v : BitVec 128) : State := s.modMe (fun x => x.setM r.toNat v)

/-- PC of the context in turn. -/
def State.pc (s : State) : Word := s.me.pc

/-- A value of PC: bits 1:0 are always 0 (R180). -/
def pcOf (x : Word) : Word := x &&& ~~~ 3#64

/-- A program counter whose bits 1:0 are 0 (R180). -/
def Aligned (x : Word) : Prop := pcOf x = x

/-- Flags raised by the instruction: SetFlags (R9, R46). -/
def State.raise (s : State) (f : BitVec 5) : State := s.modMe (fun x => { x with fst := x.fst ||| f })

/-- TIME: nanoseconds since reset; a core cycle is 5/16 ns (R4, R256). -/
def State.time (s : State) : Nat := s.clock * 5 / 16

/-- Engine cycles since reset: 19 in 32 core cycles (R4). -/
def State.engineCycles (s : State) : Nat := s.clock * 19 / 32

/-- The number of the next free value (log 13). -/
def State.draw (s : State) : Nat × State := (s.fresh, { s with fresh := s.fresh + 1 })

/-- CTXID: the place of a context (R256), also the ORIGIN and PLACE fields. -/
def placeOf (c : Nat) : Nat := c % 32768

/-- A present user or supervisor context. -/
def State.hasCtx (s : State) (c : Nat) : Bool := s.hasCore (coreOf c)

/-- The user contexts of a cluster on present cores, ascending by core then context (R30). -/
def State.userCtxs (s : State) (cl : Nat) : List Nat :=
  (s.coresOf cl).flatMap (fun k => (List.range 7).map (8 * k + ·))

/-- The tenant-table entry in force on a socket (R316). -/
def State.tenant (s : State) (sock : Nat) (tno : BitVec 12) : Tenant := tget (s.pkg sock).tenants tno.toNat Tenant.zero

/-- The tenant of a context: tenant 0 is the supervisor's (R311). -/
def State.tnoOf (s : State) (c : Nat) : BitVec 12 := (s.ctx c).tno

end Sys2Proof.Machine
end

