-- ==== Sys2Proof/Machine/Record.lean ====
section
/-! DEFINITION. What units record: device counters (R328-R331, R341), energy accounts (R342, R343), event records
written into the FIFOs of the EFCs (R348, R349), and supervisor messages (R293, R294). -/

namespace Sys2Proof.Machine

/-- The key of a device counter of a socket: group, unit and index (R330, R331). -/
def ctrKey (sock group unit index : Nat) : Nat := ((sock * 16 + group) * 32768 + unit) * 256 + index

/-- A device counter. -/
def State.ctr (s : State) (sock group unit index : Nat) : Word := tget s.ctrs (ctrKey sock group unit index) 0

/-- A device counter written. -/
def State.setCtr (s : State) (sock group unit index : Nat) (x : Word) : State :=
  { s with ctrs := tset s.ctrs (ctrKey sock group unit index) x }

/-- A device counter with a number added; it wraps modulo 2^64 (R329). -/
def State.addCtr (s : State) (sock group unit index n : Nat) : State :=
  s.setCtr sock group unit index (s.ctr sock group unit index + BitVec.ofNat 64 n)

/-- The counters by family, each incremented by one. -/
def State.countCtx (s : State) (c index : Nat) : State := s.addCtr (c / 4096) 0 (c % 4096) index 1
def State.countCore (s : State) (k index : Nat) : State := s.addCtr (k / 512) 1 (k % 512) index 1
def State.countEngine (s : State) (e index : Nat) : State := s.addCtr (e / 256) 2 (e % 256) index 1
def State.countCluster (s : State) (cl index : Nat) : State := s.addCtr (cl / 64) 3 (cl % 64) index 1
def State.countPort (s : State) (p index : Nat) : State := s.addCtr (p / 512) 4 (p % 512) index 1
def State.countTenant (s : State) (sock : Nat) (tno : BitVec 12) (index : Nat) : State := s.addCtr sock 5 tno.toNat index 1
def State.countMem (s : State) (home : Nat) (tno : BitVec 12) (index : Nat) : State :=
  s.addCtr (home / 544) 6 tno.toNat (64 * hubOf home + index) 1
def State.countEfc (s : State) (e index : Nat) : State := s.addCtr (e / 68) 7 (e % 68) index 1
def State.countHub (s : State) (home index : Nat) : State := s.addCtr (home / 544) 8 (hubOf home) index 1

/-- The key of an energy account. -/
def energyKey (cl : Nat) (tno : BitVec 12) : Nat := cl * 4096 + tno.toNat

/-- An account is metered when its tenant's ERATE is nonzero (R342). -/
def State.metered (s : State) (cl : Nat) (tno : BitVec 12) : Bool := (s.tenant (cl / 64) tno).erate != 0

/-- An energy account; an unmetered one reads 0 (R342). -/
def State.account (s : State) (cl : Nat) (tno : BitVec 12) : Int :=
  if s.metered cl tno then tget s.energy (energyKey cl tno) 0 else 0

/-- A debit in nanojoules; an account never falls below -2^62, and an unmetered one is never debited (R342, R343). -/
def State.debit (s : State) (cl : Nat) (tno : BitVec 12) (n : Nat) : State :=
  if s.metered cl tno then
    { s with energy := tset s.energy (energyKey cl tno) (max (-(2 ^ 62)) (s.account cl tno - n)) }
  else s

/-- An attachment entry that can match: VAL set, rsv bits zero; at the EFC of a hub die SOURCES bits 15:8 are rsv too
(R325). -/
def attachLive (x : Word) (hub : Bool) : Bool :=
  x.getLsbD 0 && x.toNat / 2 ^ 41 == 0 && (!hub || x.toNat / 2 ^ 17 % 2 ^ 8 == 0)

/-- An attachment entry names a type together with a source bit. -/
def attachNames (x : Word) (hub : Bool) (type sbit : Nat) : Bool :=
  attachLive x hub && x.toNat / 2 % 256 == type && x.getLsbD (9 + sbit)

/-- Word 0 of an event record (R348). -/
def eventWord0 (type sbit : Nat) (tno : BitVec 12) (place : Nat) (drop : Bool) (extra : Nat) : Word :=
  BitVec.ofNat 64 (type + sbit * 2 ^ 8 + tno.toNat * 2 ^ 13 + place * 2 ^ 25 + (if drop then 2 ^ 40 else 0) + extra * 2 ^ 41)

/-- A source writes an event record into its FIFO (R348). -/
def State.event (s : State) (e type sbit : Nat) (tno : BitVec 12) (place extra : Nat) (a b : Word) : State :=
  let x := s.efc e
  if s.hasEfc e && x.en && x.attach.any (fun t => attachNames t.2 (decide (64 ≤ e % 68)) type sbit) then
    let q := tget x.fifos sbit []
    if 16 ≤ q.length then
      (s.modEfc e (fun x => { x with dropped := tset x.dropped sbit true })).countEfc e 1
    else
      let r : Quad := { w0 := eventWord0 type sbit tno place (tget x.dropped sbit false) extra,
                        w1 := BitVec.ofNat 64 s.time, w2 := a, w3 := b }
      s.modEfc e (fun x => { x with fifos := tset x.fifos sbit (q ++ [r]), dropped := tset x.dropped sbit false })
  else s

/-- The EFC of a cluster, and of a hub die. -/
def efcOfCluster (cl : Nat) : Nat := 68 * (cl / 64) + cl % 64
def efcOfHome (home : Nat) : Nat := 68 * (home / 544) + 64 + hubOf home

/-- The source bit of a home at its hub-die EFC: bits 3:0 the die's HBM stacks, 4 its second-tier homes (R325). -/
def homeBit (home : Nat) : Nat := if home % 544 < 512 then home % 544 / 32 % 4 else 4

/-- The copy stops that wait for a core, each with the cluster of its buffer: ORIGIN may name a core of any cluster (R174,
R292). -/
def State.stopsFor (s : State) (core : Nat) : List (Nat × CopyStop) :=
  s.clusters.flatMap (fun e => (e.2.stops.filter (fun c => c.core == core)).map (fun c => (e.1, c)))

/-- The oldest copy stop for a core: messages for one core enter in the order of their stops (R292). -/
def State.stopFor (s : State) (core : Nat) : Option (Nat × CopyStop) :=
  (s.stopsFor core).foldl (fun b c => match b with
    | none => some c
    | some d => if c.2.stamp < d.2.stamp then some c else b) none

/-- Moves waiting trap records, ascending, and then the oldest copy stop for the core, into free places of the message
queue (R293). -/
def refill (core : Nat) : Nat → State → State
  | 0, s => s
  | n + 1, s =>
    let k := s.core core
    if 64 ≤ k.mq.length then s
    else match k.slots with
      | (_, m) :: rest => refill core n (s.modCore core (fun k => { k with mq := k.mq ++ [m], slots := rest }))
      | [] =>
        match s.stopFor core with
        | some (cl, c) =>
          refill core n ((s.modCore core (fun k => { k with mq := k.mq ++ [c.msg] })).modCluster cl
            (fun x => { x with stops := x.stops.erase c }))
        | none => s

/-- An X7 that waits in `wfm` is woken by a message (R261). -/
def State.wakeX7 (s : State) (core : Nat) : State := s.modCtx (x7Of core) (fun x => { x with inwfm := false })

/-- A record among the waiting ones, in ascending context number; an earlier one of its context stays before it. -/
def insertSlot (ctx : Nat) (m : Quad) : List (Nat × Quad) → List (Nat × Quad)
  | [] => [(ctx, m)]
  | e :: rest => if ctx < e.1 then (ctx, m) :: e :: rest else e :: insertSlot ctx m rest

/-- A trap record offered to the queue: it enters, or waits in its context's slot (R261, R293). A context that `tret`
resumed and that stops again while its record still waits loses neither: both wait (log 43). -/
def State.enterTrap (s : State) (core ctx : Nat) (m : Quad) : State :=
  (refill core 16 (s.modCore core (fun k => { k with slots := insertSlot ctx m k.slots }))).wakeX7 core

/-- A memory-error or trigger message: it enters, or is dropped and counted (R293). Answers whether it entered. -/
def State.postMessage (s : State) (core : Nat) (m : Quad) : State × Bool :=
  if 64 ≤ (s.core core).mq.length then (s.countCore core 9, false)
  else ((s.modCore core (fun k => { k with mq := k.mq ++ [m] })).wakeX7 core, true)

/-- A dispatcher event: counted, and presented to the cluster's EFC (R34, R349). Kinds 1 place, 2 pre-empt, 3 park,
4 wake, 5 pull, 6 migrate. -/
def State.dispatchEvent (s : State) (cl kind tcb : Nat) (tno : BitVec 12) (place reason cause : Nat) : State :=
  (s.countCluster cl (kind + 1)).event (efcOfCluster cl) 3 13 tno place 0 (BitVec.ofNat 64 tcb)
    (BitVec.ofNat 64 (kind + reason * 16 + cause * 256))

end Sys2Proof.Machine
end

