-- ==== Sys2Proof/Machine/Slots.lean ====
section
/-! DEFINITION. The slots of a core's cycles: which contexts are ready, whose slot a cycle is, the class charged for it,
and the accounts of the cycles in which nothing of a core was ready (spec/01 R24, R32, spec/13 R338, R339). -/

namespace Sys2Proof.Machine

/-- A context is ready (R24): X7, or a context with a thread, neither parked nor stopped, not in `wfm`, without an
unsatisfied `cwait`, and not waiting in place. -/
def State.ready (s : State) (c : Nat) : Bool :=
  let x := s.ctx c
  s.hasCtx c && x.life == .running && !x.inwfm && x.held.isNone && x.stall == .none

/-- The contexts of a core from one of them on, in rotation. -/
def rotation (core j : Nat) : List Nat := (List.range 8).map (fun k => 8 * core + (j + k) % 8)

/-- The slot's owner in the next cycle of a core: cycle n is the slot of X(n mod 8) (R24). -/
def State.owner (s : State) (core : Nat) : Nat := 8 * core + (s.core core).cycle % 8

/-- The context that dispatches in the next cycle: the owner where it is ready, else the first ready one after it
(R24). -/
def State.dispatcher (s : State) (core : Nat) : Option Nat := (rotation core ((s.core core).cycle % 8)).find? s.ready

/-- The class charged to a slot's owner, as its counter's index (R338): 0 ISSUED, 1 WMEM, 2 WENG, 3 WMSG, 4 VACANT. -/
def State.slotClass (s : State) (c : Nat) (issued : Bool) : Nat :=
  let x := s.ctx c
  if issued then 0
  else match x.life with
    | .vacant => 4
    | .parked .stop => 4
    | .parked .tilebind => 2
    | .parked _ => 3
    | .running =>
      if x.inwfm || x.held.isSome || x.stall == .message then 3
      else if x.stall == .engine || x.stall == .retry then 2 else 1

/-- Cycles of a quantum: QLEFT of a user context that holds a thread and is not parked counts them down (R32). -/
def Context.spend (n : Nat) (x : Context) : Context := if x.life = .running then { x with qleft := x.qleft - n } else x

/-- A core cycle of the quanta of a core's user contexts. -/
def State.countDown (s : State) (core : Nat) : State :=
  (List.range 7).foldl (fun s j =>
    let c := 8 * core + j
    if (s.ctx c).life = .running then s.modCtx c (·.spend 1) else s) s

/-- No context of a core is ready. -/
def State.idleCore (s : State) (core : Nat) : Bool := ((rotation core 0).filter s.ready).isEmpty

/-- The number of cycles n with a ≤ n < b that are slots of context j of a core. -/
def slotsOf (j a b : Nat) : Nat := (b + 7 - j) / 8 - (a + 7 - j) / 8

/-- The cycles that a core has not yet accounted for, up to a clock. Cores are accounted for at their own dispatches; one
that has nothing ready passes its cycles unseen until something of it changes or is read (log 7). -/
def State.lag (s : State) (core clock : Nat) : Nat := clock - (s.core core).cycle

/-- The accounts, in a later state u, of the cycles that a core has passed with nothing ready since it was last accounted
for, as it stood in s: the class of each slot's owner, READY0, and the quanta (R32, R338, R339). -/
def State.settleAs (u s : State) (core : Nat) : State :=
  let n := u.lag core s.clock
  if n = 0 ∨ s.idleCore core = false then u
  else
    let k := (u.core core).cycle
    let u := (List.range 8).foldl (fun u j =>
      let c := 8 * core + j
      u.addCtr (c / 4096) 0 (c % 4096) (s.slotClass c false) (slotsOf j k s.clock)) u
    let u := u.addCtr (core / 512) 1 (core % 512) 0 n
    let u := (List.range 7).foldl (fun u j =>
      let c := 8 * core + j
      if (s.ctx c).life = .running ∧ (u.ctx c).qleft = (s.ctx c).qleft then u.modCtx c (·.spend n) else u) u
    u.modCore core (fun x => { x with cycle := s.clock })

/-- A core brought up to the clock. -/
def State.settle (s : State) (core : Nat) : State := s.settleAs s core

/-- What a context's slots are charged with, and what its quantum has left. -/
def State.standing1 (s : State) (c : Nat) : Nat × Bool × Nat := (s.slotClass c false, s.ready c, (s.ctx c).qleft)

/-- The cores of which a step has changed something that their accounts depend on, and that lag behind the clock. -/
def State.stirred (u s : State) : List Nat :=
  (((u.ctxs ++ s.ctxs).map (fun e => coreOf e.1)).eraseDups).filter (fun k =>
    decide (0 < u.lag k s.clock) && (rotation k 0).any (fun c => u.standing1 c != s.standing1 c))

/-- A step's outcome with the accounts of the cores it has stirred brought up to the clock. -/
def State.accounted (u s : State) : State := (u.stirred s).foldl (fun u k => u.settleAs s k) u

/-- QLEFT as it stands at the clock. -/
def State.quantumLeft (s : State) (c : Nat) : Nat :=
  (s.ctx c).qleft - (if s.idleCore (coreOf c) then s.lag (coreOf c) s.clock else 0)

end Sys2Proof.Machine
end

