-- ==== Sys2Proof/Machine/Flags.lean ====
section
/-! DEFINITION. The five sticky floating-point flags (spec/02 R46), how a rounding raises them (R46, R47), and where
the flags of an instruction go (R46, R60, R64). -/

namespace Sys2Proof.Machine

/-- The bits of FST (R46). -/
def fNV : BitVec 5 := 1
def fDZ : BitVec 5 := 2
def fOF : BitVec 5 := 4
def fUF : BitVec 5 := 8
def fNX : BitVec 5 := 16

/-- A flag raised where a condition holds. -/
def flagIf (b : Bool) (f : BitVec 5) : BitVec 5 := if b then f else 0

/-- The flags of one rounding: OF is always accompanied by NX, and UF is raised only for a tiny inexact result, with
tininess after rounding (R46). -/
def roundFlags (high tiny inexact : Bool) : BitVec 5 :=
  if high then fOF ||| fNX else flagIf (tiny && inexact) fUF ||| flagIf inexact fNX

/-- NV where an operand is signalling (R43). -/
def signalFlag (a b : Bool) : BitVec 5 := flagIf (a || b) fNV

/-- Flags of several roundings together. -/
def joinFlags (l : List (BitVec 5)) : BitVec 5 := l.foldl (· ||| ·) 0

/-- The flags that `tmma` and `tadd` keep of a rounding: never DZ, UF or NX (R60, R250). -/
def tileFlags (f : BitVec 5) : BitVec 5 := f &&& (fNV ||| fOF)

end Sys2Proof.Machine
end

