-- ==== Sys2Proof/Machine/Numbers.lean ====
section
/-! DEFINITION. Numbers (spec/02): the floating-point formats of the cores, exact values, the one rounding, and the
operations on values. Every operation computes its exact result as a whole number times a power of two and rounds
once at the end. Where the exact result is no such number (a quotient, a root, a power, a logarithm), the operation
answers a value strictly between the same two neighbours, far finer than any rounding boundary, which rounds as the
exact result does in every mode and format (log 16). -/

namespace Sys2Proof.Machine

/-- Rounding modes, in code order (R45, R46). -/
inductive Mode where
  | rne | rtz | rup | rdn
  deriving DecidableEq, Repr

/-- The mode of a code. -/
def modeOf (x : Nat) : Mode := if x = 0 then .rne else if x = 1 then .rtz else if x = 2 then .rup else .rdn

/-- FCTL.RM of the context in turn. -/
def State.mode (s : State) : Mode := modeOf s.me.fctl.toNat

/-- A format of R42: fraction and exponent bits. -/
structure Fmt where
  mb : Nat
  eb : Nat
  deriving DecidableEq, Repr

def fp64 : Fmt := { mb := 52, eb := 11 }
def fp32 : Fmt := { mb := 23, eb := 8 }
def bf16 : Fmt := { mb := 7, eb := 8 }
def fp16 : Fmt := { mb := 10, eb := 5 }

/-- Width in bits. -/
def Fmt.bits (f : Fmt) : Nat := f.mb + f.eb + 1

/-- Exponent of the smallest normal number: 1 less the bias. -/
def Fmt.emin (f : Fmt) : Int := 2 - 2 ^ (f.eb - 1)

/-- The code of +∞. -/
def Fmt.infCode (f : Fmt) : Nat := (2 ^ f.eb - 1) * 2 ^ f.mb

/-- The default NaN (R43). -/
def Fmt.nanCode (f : Fmt) : Nat := f.infCode + 2 ^ (f.mb - 1)

/-- The sign bit of a code. -/
def Fmt.signCode (f : Fmt) (neg : Bool) : Nat := if neg then 2 ^ (f.mb + f.eb) else 0

/-- The value of a code: a NaN with its sign and whether it signals, an infinity, or ± m × 2^e, where m = 0 is a signed
zero. -/
inductive Fpv where
  | nan (neg sig : Bool)
  | inf (neg : Bool)
  | fin (neg : Bool) (m : Nat) (e : Int)
  deriving DecidableEq, Repr

/-- A result with its flags. -/
abbrev Res := Fpv × BitVec 5

/-- The quiet NaN that every operation answers (R43). -/
def Fpv.quiet : Fpv := .nan false false

/-- A value is a NaN, signals, or is negative. -/
def Fpv.isNan : Fpv → Bool
  | .nan _ _ => true
  | _ => false
def Fpv.isSig : Fpv → Bool
  | .nan _ sig => sig
  | _ => false
def Fpv.isNeg : Fpv → Bool
  | .nan n _ => n
  | .inf n => n
  | .fin n _ _ => n

/-- A value with its sign inverted. -/
def Fpv.negate : Fpv → Fpv
  | .nan n q => .nan (!n) q
  | .inf n => .inf (!n)
  | .fin n m e => .fin (!n) m e

/-- The value of a code of a format (R42). -/
def Fmt.decode (f : Fmt) (x : Nat) : Fpv :=
  let neg := x / 2 ^ (f.mb + f.eb) % 2 == 1
  let ex := x / 2 ^ f.mb % 2 ^ f.eb
  let m := x % 2 ^ f.mb
  if ex = 2 ^ f.eb - 1 then (if m = 0 then .inf neg else .nan neg (m / 2 ^ (f.mb - 1) == 0))
  else if ex = 0 then .fin neg m (f.emin - f.mb)
  else .fin neg (2 ^ f.mb + m) (f.emin - f.mb + ex - 1)

/-- Bits of a number up to its highest set bit. -/
def bitLen (n : Nat) : Nat := if n = 0 then 0 else Nat.log2 n + 1

/-- A magnitude m × 2^e rounded to a multiple of 2^q: the multiple, and whether it is inexact (R45). -/
def roundQ (mode : Mode) (neg : Bool) (m : Nat) (e q : Int) : Nat × Bool :=
  if q ≤ e then (m * 2 ^ (e - q).toNat, false)
  else
    let k := (q - e).toNat
    let n := m / 2 ^ k
    let r := m % 2 ^ k
    let up := match mode with
      | .rne => decide (2 ^ k < 2 * r) || (decide (2 * r = 2 ^ k) && decide (n % 2 = 1))
      | .rtz => false
      | .rup => decide (r ≠ 0) && !neg
      | .rdn => decide (r ≠ 0) && neg
    (if up then n + 1 else n, decide (r ≠ 0))

/-- A nonzero magnitude rounded to a precision with subnormals: the code the result would have with an unbounded
exponent range above, whether it is tiny after rounding, and whether it is inexact (R46, R62). -/
def roundCode (mb : Nat) (emin : Int) (mode : Mode) (neg : Bool) (m : Nat) (e : Int) : Nat × Bool × Bool :=
  let ex := e + bitLen m - 1
  let low := emin - mb
  let q := max (ex - mb) low
  let (n, inexact) := roundQ mode neg m e q
  let (n', _) := roundQ mode neg m e (ex - mb)
  let tiny := decide ((if n' = 2 ^ (mb + 1) then ex + 1 else ex) < emin)
  ((q - low).toNat * 2 ^ mb + n, tiny, inexact)

/-- Round(x, fmt, mode) of a finite value: its code and flags (R45-R47). -/
def Fmt.roundFin (f : Fmt) (mode : Mode) (neg : Bool) (m : Nat) (e : Int) : Nat × BitVec 5 :=
  if m = 0 then (f.signCode neg, 0)
  else
    let (code, tiny, inexact) := roundCode f.mb f.emin mode neg m e
    if f.infCode ≤ code then
      let toInf := match mode with
        | .rne => true
        | .rtz => false
        | .rup => !neg
        | .rdn => neg
      (f.signCode neg + (if toInf then f.infCode else f.infCode - 1), roundFlags true false true)
    else (f.signCode neg + code, roundFlags false tiny inexact)

/-- A result rounded to a format, with all its flags. -/
def Fmt.round (f : Fmt) (mode : Mode) (x : Res) : Nat × BitVec 5 :=
  match x.1 with
  | .nan _ _ => (f.nanCode, x.2)
  | .inf neg => (f.signCode neg + f.infCode, x.2)
  | .fin neg m e => let (c, g) := f.roundFin mode neg m e; (c, x.2 ||| g)

/-- A signed whole number of a sign and magnitude. -/
def ofSign (neg : Bool) (m : Nat) : Int := if neg then -(m : Int) else m

/-- The exact sum of finite values; an exact zero sum of unlike signs is −0 under RDN alone. -/
def addFin (mode : Mode) (a : Bool) (m : Nat) (e : Int) (b : Bool) (n : Nat) (f : Int) : Fpv :=
  let q := min e f
  let p := ofSign a (m * 2 ^ (e - q).toNat) + ofSign b (n * 2 ^ (f - q).toNat)
  if p = 0 then .fin (if a = b then a else decide (mode = .rdn)) 0 0
  else .fin (decide (p < 0)) p.natAbs q

/-- x + y before rounding. -/
def addV (mode : Mode) (x y : Fpv) : Res :=
  match x, y with
  | .nan _ a, y => (.quiet, signalFlag a y.isSig)
  | _, .nan _ b => (.quiet, signalFlag false b)
  | .inf a, .inf b => if a = b then (.inf a, 0) else (.quiet, fNV)
  | .inf a, .fin _ _ _ => (.inf a, 0)
  | .fin _ _ _, .inf b => (.inf b, 0)
  | .fin a m e, .fin b n f => (addFin mode a m e b n f, 0)

/-- x × y before rounding. -/
def mulV (x y : Fpv) : Res :=
  match x, y with
  | .nan _ a, y => (.quiet, signalFlag a y.isSig)
  | _, .nan _ b => (.quiet, signalFlag false b)
  | .inf a, .inf b => (.inf (a != b), 0)
  | .inf a, .fin b n _ => if n = 0 then (.quiet, fNV) else (.inf (a != b), 0)
  | .fin a m _, .inf b => if m = 0 then (.quiet, fNV) else (.inf (a != b), 0)
  | .fin a m e, .fin b n f => (.fin (a != b) (m * n) (e + f), 0)

/-- x × y + z before rounding; ∞ × 0 raises NV whatever z is (R207). -/
def fmaV (mode : Mode) (x y z : Fpv) : Res :=
  let (p, g) := mulV x y
  let g := g ||| signalFlag false z.isSig
  if p.isNan || z.isNan then (.quiet, g)
  else
    let (r, h) := addV mode p z
    (r, g ||| h)

/-- A magnitude between n and n + 1 units of 2^e where something remains, else n units. -/
def between (neg : Bool) (n : Nat) (rest : Bool) (e : Int) : Fpv := .fin neg (2 * n + (if rest then 1 else 0)) (e - 1)

/-- x / y before rounding (R207). -/
def divV (x y : Fpv) : Res :=
  match x, y with
  | .nan _ a, y => (.quiet, signalFlag a y.isSig)
  | _, .nan _ b => (.quiet, signalFlag false b)
  | .inf _, .inf _ => (.quiet, fNV)
  | .inf a, .fin b _ _ => (.inf (a != b), 0)
  | .fin a _ _, .inf b => (.fin (a != b) 0 0, 0)
  | .fin a m e, .fin b n f =>
    if n = 0 then (if m = 0 then (.quiet, fNV) else (.inf (a != b), fDZ))
    else if m = 0 then (.fin (a != b) 0 0, 0)
    else (between (a != b) (m * 2 ^ 130 / n) (decide (m * 2 ^ 130 % n ≠ 0)) (e - f - 130), 0)

/-- The root of a number, bit by bit from a power of two down. -/
def rootFrom (n : Nat) : Nat → Nat → Nat
  | 0, r => r
  | k + 1, r => rootFrom n k (if (r + 2 ^ k) * (r + 2 ^ k) ≤ n then r + 2 ^ k else r)

/-- The whole part of a square root. -/
def root (n : Nat) : Nat := rootFrom n (bitLen n / 2 + 1) 0

/-- m × 2^e with an even exponent. -/
def evenExp (m : Nat) (e : Int) : Nat × Int := if e % 2 = 0 then (m, e) else (2 * m, e - 1)

/-- √x before rounding (R207). -/
def sqrtV (x : Fpv) : Res :=
  match x with
  | .nan _ a => (.quiet, signalFlag a false)
  | .inf a => if a then (.quiet, fNV) else (.inf false, 0)
  | .fin a m e =>
    if m = 0 then (.fin a 0 0, 0)
    else if a then (.quiet, fNV)
    else
      let (m, e) := evenExp m e
      let n := m * 2 ^ 140
      let r := root n
      (between false r (decide (r * r ≠ n)) (e / 2 - 70), 0)

/-- 1 / x before rounding (R208). -/
def rcpV (x : Fpv) : Res := divV (.fin false 1 0) x

/-- 1 / √x before rounding (R208). -/
def rsqrtV (x : Fpv) : Res :=
  match x with
  | .nan _ a => (.quiet, signalFlag a false)
  | .inf a => if a then (.quiet, fNV) else (.fin false 0 0, 0)
  | .fin a m e =>
    if m = 0 then (.inf a, fDZ)
    else if a then (.quiet, fNV)
    else
      let (m, e) := evenExp m e
      let r := root (2 ^ 260 / m)
      (between false r (decide (m * r * r ≠ 2 ^ 260)) (-(e / 2) - 130), 0)

/-- ln 2 in units of 2^-256, truncated. -/
def ln2 : Nat := 80260960185991308862233904206310070533990667611589946606122867505419956976171

/-- Terms of the exponential series of t, in units of 2^-256, from a term on. -/
def expSeries (t : Nat) : Nat → Nat → Nat → Nat
  | 0, _, _ => 0
  | n + 1, k, term => term + expSeries t n (k + 1) (term * t / 2 ^ 256 / (k + 1))

/-- 2^f in units of 2^-256 for f = a / 2^k below 1. -/
def exp2Frac (a k : Nat) : Nat := expSeries (a * ln2 / 2 ^ k) 64 0 (2 ^ 256)

/-- 2^n, with n held to the range that every format's results tell apart. -/
def pow2 (n : Int) : Int := max (-3000) (min 3000 n)

/-- 2^x before rounding (R208). -/
def exp2V (x : Fpv) : Res :=
  match x with
  | .nan _ a => (.quiet, signalFlag a false)
  | .inf a => if a then (.fin false 0 0, 0) else (.inf false, 0)
  | .fin a m e =>
    if 0 ≤ e then (.fin false 1 (pow2 (ofSign a (m * 2 ^ e.toNat))), 0)
    else
      let k := (-e).toNat
      let v := ofSign a m
      let n := v / 2 ^ k
      let r := (v % 2 ^ k).toNat
      if r = 0 then (.fin false 1 (pow2 n), 0)
      else if m * 2 ^ 70 < 2 ^ k then (.fin false (if a then 2 ^ 100 - 1 else 2 ^ 100 + 1) (-100), 0)
      else (between false (exp2Frac r k) true (pow2 n - 256), 0)

/-- Bits of the logarithm of y, in units of 2^-600 from 1 to 2, highest first. -/
def logBits : Nat → Nat → Nat → Nat
  | 0, _, acc => acc
  | n + 1, y, acc =>
    let z := y * y / 2 ^ 600
    if 2 ^ 601 ≤ z then logBits n (z / 2) (2 * acc + 1) else logBits n z (2 * acc)

/-- log2 x before rounding (R208). -/
def log2V (x : Fpv) : Res :=
  match x with
  | .nan _ a => (.quiet, signalFlag a false)
  | .inf a => if a then (.quiet, fNV) else (.inf false, 0)
  | .fin a m e =>
    if m = 0 then (.inf true, fDZ)
    else if a then (.quiet, fNV)
    else
      let l := bitLen m - 1
      let ex : Int := e + l
      if m = 2 ^ l then (.fin (decide (ex < 0)) ex.natAbs 0, 0)
      else
        let v : Int := 2 * (ex * 2 ^ 250 + logBits 250 (m * 2 ^ (600 - l)) 0) + 1
        (.fin (decide (v < 0)) v.natAbs (-251), 0)

/-- x × 2^y before rounding (R207); beyond 5,000 the result rounds as it does there. -/
def scaleV (x : Fpv) (y : Int) : Res :=
  match x with
  | .nan _ a => (.quiet, signalFlag a false)
  | .inf a => (.inf a, 0)
  | .fin a m e => (.fin a m (e + max (-5000) (min 5000 y)), 0)

/-- How two values that are no NaN compare: −1, 0 or 1; zeros of both signs are equal. -/
def orderV (x y : Fpv) : Int :=
  match x, y with
  | .inf a, .inf b => if a = b then 0 else if a then -1 else 1
  | .inf a, _ => if a then -1 else 1
  | _, .inf b => if b then 1 else -1
  | .fin a m e, .fin b n f =>
    let q := min e f
    let p := ofSign a (m * 2 ^ (e - q).toNat) - ofSign b (n * 2 ^ (f - q).toNat)
    if p < 0 then -1 else if p = 0 then 0 else 1
  | _, _ => 0

/-- The lesser or greater value: −0 orders below +0 (R207). -/
def minV (x y : Fpv) : Res :=
  if x.isNan || y.isNan then (.quiet, signalFlag x.isSig y.isSig)
  else (if orderV x y < 0 ∨ (orderV x y = 0 ∧ x.isNeg = true) then x else y, 0)
def maxV (x y : Fpv) : Res :=
  if x.isNan || y.isNan then (.quiet, signalFlag x.isSig y.isSig)
  else (if 0 < orderV x y ∨ (orderV x y = 0 ∧ x.isNeg = false) then x else y, 0)

/-- Rounding to an integral value with the operand's sign; it raises no NX (R209). -/
def integralV (mode : Mode) (x : Fpv) : Res :=
  match x with
  | .nan _ a => (.quiet, signalFlag a false)
  | .inf a => (.inf a, 0)
  | .fin a m e => (.fin a (roundQ mode a m e 0).1 0, 0)

/-- The same value in another format, before rounding (R48). -/
def moveV (x : Fpv) : Res :=
  match x with
  | .nan _ a => (.quiet, signalFlag a false)
  | y => (y, 0)

/-- The least and greatest integers of a width (R44). -/
def intMin (n : Nat) (sgn : Bool) : Int := if sgn then -(2 ^ (n - 1)) else 0
def intMax (n : Nat) (sgn : Bool) : Int := if sgn then 2 ^ (n - 1) - 1 else 2 ^ n - 1

/-- Conversion to an integer of a width (R49). -/
def toIntV (mode : Mode) (n : Nat) (sgn : Bool) (x : Fpv) : Int × BitVec 5 :=
  match x with
  | .nan a _ => (if a then intMin n sgn else intMax n sgn, fNV)
  | .inf a => (if a then intMin n sgn else intMax n sgn, fNV)
  | .fin a m e =>
    let (k, inexact) := roundQ mode a m e 0
    let v := ofSign a k
    if v < intMin n sgn then (intMin n sgn, fNV)
    else if intMax n sgn < v then (intMax n sgn, fNV)
    else (v, flagIf inexact fNX)

/-- An integer as a value. -/
def intV (v : Int) : Res := (.fin (decide (v < 0)) v.natAbs 0, 0)

end Sys2Proof.Machine
end

