-- ==== Sys2Proof/Machine/Lanes.lean ====
section
/-! DEFINITION. Lanes of vector registers and of predicates (spec/08 R200, R201): one loop for every instruction that
acts lane by lane. -/

namespace Sys2Proof.Machine

/-- Lane width in bytes of a size field (R204). -/
def laneBytes (e : BitVec 2) : Nat := 2 ^ e.toNat

/-- Lane width and format of a class 14 size field (R204): BF16, FP16, FP32, FP64. -/
def floatBytes (e : BitVec 2) : Nat := if e.toNat < 2 then 2 else 2 ^ e.toNat
def floatFmt (e : BitVec 2) : Fmt :=
  if e = 0#2 then bf16 else if e = 1#2 then fp16 else if e = 2#2 then fp32 else fp64

/-- Lane i of a vector at width w, read unsigned (R200). -/
def lane (w : Nat) (v : Vec) (i : Nat) : Nat := v.toNat / 2 ^ (8 * w * i) % 2 ^ (8 * w)

/-- Lanes put together from lane 0 up, each modulo its width. -/
def packNat (w : Nat) : List Nat → Nat
  | [] => 0
  | x :: rest => x % 2 ^ (8 * w) + 2 ^ (8 * w) * packNat w rest
def packLanes (w : Nat) (l : List Nat) : Vec := BitVec.ofNat 512 (packNat w l)

/-- Lane i is active under a predicate (R201). -/
def active (w : Nat) (p : Word) (i : Nat) : Bool := p.getLsbD (w * i)

/-- The active lanes, ascending. -/
def activeLanes (w : Nat) (p : Word) : List Nat := (List.range (64 / w)).filter (active w p)

/-- The lanes 0 to 64/w - 1 as given, each where its lane is active; an inactive one is 0 under Z and keeps the old
lane otherwise (R201). -/
def fillLanes (w : Nat) (p : Word) (z : Bool) (o : Vec) (f : Nat → Nat × BitVec 5) : Vec × BitVec 5 :=
  let rs := (List.range (64 / w)).map (fun i =>
    if active w p i then f i else (if z then 0 else lane w o i, 0))
  (packLanes w (rs.map (·.1)), joinFlags (rs.map (·.2)))

/-- The lane loop of R205: a function of lanes x, y and o with its flags. -/
def vecMap (w : Nat) (p : Word) (z : Bool) (x y o : Vec) (f : Nat → Nat → Nat → Nat × BitVec 5) : Vec × BitVec 5 :=
  fillLanes w p z o (fun i => f (lane w x i) (lane w y i) (lane w o i))

/-- All w bits of lane i of a predicate. -/
def laneBits (w i : Nat) : Word := BitVec.ofNat 64 ((2 ^ w - 1) * 2 ^ (w * i))

/-- A predicate written lane by lane (R201): an active lane's bits by the condition, an inactive one's 0 under Z and
kept otherwise. -/
def predMap (w : Nat) (p : Word) (z : Bool) (x y : Vec) (o : Word) (f : Nat → Nat → Bool × BitVec 5) : Word × BitVec 5 :=
  let rs := (List.range (64 / w)).map (fun i =>
    if active w p i then
      let r := f (lane w x i) (lane w y i)
      (if r.1 then laneBits w i else 0, r.2)
    else (if z then 0 else o &&& laneBits w i, 0))
  ((rs.map (·.1)).foldl (· ||| ·) 0, joinFlags (rs.map (·.2)))

end Sys2Proof.Machine
end

