-- ==== Sys2Proof/Machine/Cache.lean ====
section
/-! DEFINITION. The words a cluster cache holds and its answers to a home's messages (spec/04 R101, R105, R126, R128),
lost words (R128), and the wait-table marks that these leave (spec/12 R321). -/

namespace Sys2Proof.Machine

/-- What a read, atomic or write can meet: a refusal of the Frame Ownership Table check, or an uncorrectable error, at a
physical address (R127, R156). -/
inductive Bad where
  | frame (pa : Nat)
  | error (pa : Nat)
  deriving DecidableEq, Repr

/-- Computations on memory. -/
abbrev Mem (α : Type) := EStateM Bad State α

/-- The line, word index and word address of an address. -/
def lineOf (pa : Nat) : Nat := pa - pa % 64
def wordIx (pa : Nat) : Nat := pa / 8 % 8
def wordOf (pa : Nat) : Nat := pa - pa % 8

/-- Word w of a line. -/
def lineWord (v : Vec) (w : Nat) : Word := (v >>> (64 * w)).setWidth 64

/-- A line of eight words. -/
def vecOfWords : List Word → Vec
  | [] => 0
  | x :: rest => x.setWidth 512 ||| (vecOfWords rest <<< 64)

/-- Byte mask of word w out of a line's byte mask. -/
def wordMask (mask : BitVec 64) (w : Nat) : BitVec 8 := (mask >>> (8 * w)).setWidth 8

/-- A word in state I. -/
def CacheWord.absent : CacheWord :=
  { st := .i, data := 0, mask := 0, tno := 0, origin := 0, pc := 0, rel := none, single := false, bad := false }

/-- A line of which no word is held. -/
def CacheLine.absent : CacheLine := { words := [], way15 := false, mark := none, stamp := 0 }

/-- A line of a cluster cache. -/
def State.clLine (s : State) (cl line : Nat) : CacheLine := tget (s.cluster cl).clc line CacheLine.absent

/-- A word of a cluster cache. -/
def State.clWord (s : State) (cl pa : Nat) : CacheWord := tget (s.clLine cl (lineOf pa)).words (wordIx pa) CacheWord.absent

/-- A word of a cluster cache replaced; a line whose every word is I is no longer held. -/
def State.setClWord (s : State) (cl pa : Nat) (x : CacheWord) : State :=
  let l := s.clLine cl (lineOf pa)
  let ws := if x.st = .i then tdel l.words (wordIx pa) else tset l.words (wordIx pa) x
  s.modCluster cl (fun c =>
    { c with clc := if ws.isEmpty then tdel c.clc (lineOf pa) else tset c.clc (lineOf pa) { l with words := ws } })

/-- A word becomes I. -/
def State.dropClWord (s : State) (cl pa : Nat) : State := s.setClWord cl pa CacheWord.absent

/-- A single-bit error of a cached word is corrected where the word is read, and counted at its cluster (R126, R341). -/
def State.mend (s : State) (cl pa : Nat) : State :=
  if (s.clWord cl pa).single then (s.setClWord cl pa { s.clWord cl pa with single := false }).countCluster cl 0 else s

/-- The cluster reads a counter again for every waiter on a line (R321): the line is marked. -/
def State.markRecheck (s : State) (cl line : Nat) : State :=
  if (s.cluster cl).waits.any (fun e => lineOf e.ctr == line) && !((s.cluster cl).recheck.contains line) then
    s.modCluster cl (fun c => { c with recheck := c.recheck ++ [line] })
  else s

/-- The lowest-numbered present core of a cluster. -/
def State.firstCore (s : State) (cl : Nat) : Nat := (s.coresOf cl).headD (8 * cl)

/-- The lowest-numbered present cluster of a socket. -/
def State.firstCluster (s : State) (sock : Nat) : Nat := (s.clustersOf sock).headD (64 * sock)

/-- The message and counts of a write that is not performed (R128): WHERE is 0 write-back, recall or downgrade,
1 drain, 2 eviction, 3 dirty slice-cache line, 4 counter or version addition (R294). The record names the tenant and the
place of the context whose write it was, where the machine knows them (R348). -/
def State.lostWrite (s : State) (core place pa : Nat) (tno : BitVec 12) (org : Nat) : State :=
  let h := s.homeOf pa
  let m : Quad := { w0 := BitVec.ofNat 64 (3 + place * 16 + (h % 544) * 128), w1 := BitVec.ofNat 64 pa,
                    w2 := BitVec.ofNat 64 s.time, w3 := 0 }
  ((s.postMessage core m).1.countHub h 3).event (efcOfHome h) 8 (homeBit h) tno (placeOf org) 0 (BitVec.ofNat 64 pa) 3

/-- An O or B word of a cluster that is not written (R128): of a B word the machine knows whose it was. -/
def State.lostWord (s : State) (cl place pa : Nat) (x : CacheWord := CacheWord.absent) : State :=
  s.lostWrite (s.firstCore cl) place pa x.tno x.origin

/-- INVALIDATION of a word: T and U become I, B and I are unaffected. Answers whether the cluster still holds a T
word of the line (R105). -/
def State.invalidate (s : State) (cl pa : Nat) : State × Bool :=
  let x := s.clWord cl pa
  let s := if x.st = .t ∨ x.st = .u then s.dropClWord cl pa else s
  let s := s.markRecheck cl (lineOf pa)
  (s, (s.clLine cl (lineOf pa)).words.any (fun e => e.2.st == .t))

/-- The invalidation that a directory eviction sends: a tracked copy becomes I, and a U copy is not affected (R116). -/
def State.untrack (s : State) (cl pa : Nat) : State × Bool :=
  if (s.clWord cl pa).st = .u then (s.markRecheck cl (lineOf pa), (s.clLine cl (lineOf pa)).words.any (fun e => e.2.st == .t))
  else s.invalidate cl pa

/-- RECALL: the owned word is returned and becomes I; a word not held in O is answered "not owner" (R105). A word
with an uncorrectable error is not returned (R128). -/
def State.recall (s : State) (cl pa : Nat) : State × Option Word :=
  let x := s.clWord cl pa
  if x.st = .o then
    let s := ((s.mend cl pa).dropClWord cl pa).markRecheck cl (lineOf pa)
    if x.bad then (s.lostWord cl 0 pa, none) else (s, some x.data)
  else (s, none)

/-- DOWNGRADE: the owned word is returned and becomes T (R105). -/
def State.downgrade (s : State) (cl pa : Nat) : State × Option Word :=
  let x := s.clWord cl pa
  if x.st = .o then
    let s := s.mend cl pa
    if x.bad then (((s.dropClWord cl pa).markRecheck cl (lineOf pa)).lostWord cl 0 pa, none)
    else ((s.setClWord cl pa { x with st := .t, mask := 0, single := false }).markRecheck cl (lineOf pa), some x.data)
  else (s, none)

/-- FORWARDED READ: the owned word's value is returned and stays O (R105). -/
def State.forward (s : State) (cl pa : Nat) : Option Word :=
  let x := s.clWord cl pa
  if x.st = .o ∧ x.bad = false then some x.data else none

end Sys2Proof.Machine
end

