-- ==== Sys2Proof/Machine/Home.lean ====
section
/-! DEFINITION. The home agents: directory and transitions (spec/04 R115-R122), memory errors (R126-R128), the Frame
Ownership Table check (spec/12 R310-R314), postmarks (spec/05 R149, R150), the dead-letter log (spec/06 R171, R172),
and the trace log (spec/14 R377). A request is served in one piece. -/

namespace Sys2Proof.Machine

/-- A line that no entry tracks. -/
def DirEntry.absent : DirEntry := { sharers := [], owners := [], pmk := none, stamp := 0 }

/-- The entry tracks nothing and is free. -/
def DirEntry.free (e : DirEntry) : Bool := e.sharers.isEmpty && e.owners.isEmpty && e.pmk.isNone

/-- A table of directory entries with one of them changed; an entry that tracks nothing is free. -/
def modEntry (t : Tbl DirEntry) (k : Nat) (f : DirEntry → DirEntry) : Tbl DirEntry :=
  let e := f (tget t k DirEntry.absent)
  if e.free then tdel t k else tset t k e

/-- The directory entry of a line at its home (R115). -/
def State.dirOf (s : State) (line : Nat) : DirEntry := tget s.dir line DirEntry.absent

/-- The directory entry of a line changed. -/
def State.modDir (s : State) (line : Nat) (f : DirEntry → DirEntry) : State := { s with dir := modEntry s.dir line f }

/-- The key of a line of another socket at the proxy home of a package. -/
def proxyKey (sock line : Nat) : Nat := 2 ^ 52 * sock + line

/-- What the proxy home of a package knows of a line of another socket: which local clusters share it and own its words
(R114). -/
def State.proxyOf (s : State) (sock line : Nat) : DirEntry := tget s.proxies (proxyKey sock line) DirEntry.absent

/-- The proxy's entry of a line changed. -/
def State.modProxy (s : State) (sock line : Nat) (f : DirEntry → DirEntry) : State :=
  { s with proxies := modEntry s.proxies (proxyKey sock line) f }

/-- How the home of a line names a cluster: 0-63 where it is of the home's socket, else 64 + its socket (R115). -/
def partyOf (line cl : Nat) : Nat := if cl / 64 = sockOf line then cl % 64 else 64 + cl / 64

/-- Adds a party to a list of sharers. -/
def addParty (l : List Nat) (p : Nat) : List Nat := if l.contains p then l else l ++ [p]

/-- The owner of a word: state O(c), or H (R115). A socket's word is owned by the cluster that its proxy names (R114). -/
def State.ownerOf (s : State) (pa : Nat) : Option Nat :=
  match tfind (s.dirOf (lineOf pa)).owners (wordIx pa) with
  | none => none
  | some p =>
    if p < 64 then some (64 * sockOf pa + p)
    else (tfind (s.proxyOf (p - 64) (lineOf pa)).owners (wordIx pa)).map (64 * (p - 64) + ·)

/-- A word is H again: no entry names an owner of it. -/
def State.dropOwner (s : State) (pa : Nat) : State :=
  let t := match tfind (s.dirOf (lineOf pa)).owners (wordIx pa) with
    | none => s
    | some p => if p < 64 then s else s.modProxy (p - 64) (lineOf pa) (fun e => { e with owners := tdel e.owners (wordIx pa) })
  t.modDir (lineOf pa) (fun e => { e with owners := tdel e.owners (wordIx pa) })

/-- The clusters that share a line: those the home tracks, and those that the proxy of a tracked socket does (R114,
R119). -/
def State.sharersOf (s : State) (line : Nat) : List Nat :=
  (s.dirOf line).sharers.flatMap (fun p =>
    if p < 64 then [64 * sockOf line + p] else (s.proxyOf (p - 64) line).sharers.map (64 * (p - 64) + ·))

/-- The bytes of a word written at the home. A whole word written leaves no error behind. -/
def State.putWord (s : State) (pa : Nat) (x : Word) (mask : BitVec 8) : State :=
  { s with mem := memPutWord s.mem pa (mergeWord (memWord s.mem pa) x mask),
           errs := if mask = 255#8 then tdel s.errs pa else s.errs,
           slc := if mask = 255#8 then tdel s.slc pa else s.slc }

/-- A write-back of a word that is on its way to its home, before every later request for the line (R123, R296). -/
def isWriteBack (pa : Nat) (f : Flight) : Bool :=
  f.req.kind == .wb && f.req.line == lineOf pa && f.req.words.getLsbD (wordIx pa) &&
    (match f.place with
     | .back _ _ _ => false
     | .reply => false
     | _ => true)

/-- The write-back of a word that is still under way. -/
def State.wbOf (s : State) (pa : Nat) : Option Flight := s.flights.find? (isWriteBack pa)

/-- A write-back performed: the word is H, and its line's stamp is gone (R119, R149). -/
def State.wbWord (s : State) (r : Req) (w : Nat) : State :=
  let pa := r.line + 8 * w
  ((s.dropOwner pa).putWord pa (lineWord r.data w) 255#8).modDir r.line (fun e => { e with pmk := none })

/-- A request that only reads (R311). -/
def isReadKind (k : ReqKind) : Bool := k == .rdT || k == .rdU || k == .rdW

/-- What a served request costs: HOMEREQ, CHANREAD or CHANWRITE where a free bit, drawn as its service began, says that
the slice cache missed (R100, R331), the HOMEREQ event (R349), in which the code of a put line or write-back is free
(log 13), and the energy of the line (R343). Exempt requests are tenant 0's (R340). -/
def State.chargeHome (s : State) (r : Req) (n : Nat) : State :=
  let h := s.homeOf r.line
  let tno := if r.exempt then 0#12 else r.tno
  let miss := Config.sliceHit n == 0#1
  let code := if r.kind == .putLine || r.kind == .wb then (Config.eventBits n).toNat else r.kind.code
  let s := s.countMem h tno 0
  let s := s.addCtr (h / 544) 6 tno.toNat
    (64 * hubOf h + if isReadKind r.kind || r.kind == .own || r.kind == .atH then 1 else 2)
    (if miss then 1 else 0)
  let s := match r.src with
    | none => s
    | some cl => s.debit cl tno
        (1 + (if miss then (if isTier r.line then 3 else 2) else 0) + (if sockOf r.line = cl / 64 then 0 else 6))
  s.event (efcOfHome h) 9 (homeBit h) tno (placeOf r.origin) 0 (BitVec.ofNat 64 r.line)
    (BitVec.ofNat 64 (code + (if miss then 8 else 0) + if r.marked then 16 else 0))

/-- A write-back under way reaches the home ahead of the message that the home would send its owner: "the home writes it,
and the word becomes H" (R123), a request that costs what every one does. Its acknowledgement stands at its port. -/
def State.landWb (s : State) (pa : Nat) : State :=
  match s.wbOf pa with
  | none => s
  | some f =>
    let (n, t) := State.draw { s with flights := s.flights.erase f ++ [{ f with place := .reply }] }
    let t := t.chargeHome f.req n
    (List.range 8).foldl (fun s w => if f.req.words.getLsbD w then s.wbWord f.req w else s) t

/-- The owner of a word cannot be reached: no coherent link to its socket remains (R362). -/
def State.stranded (s : State) (pa : Nat) : Bool :=
  match s.ownerOf pa with
  | some c => !s.joined (sockOf pa) (c / 64)
  | none => false

/-- RECALL by the home: the owner gives the word up, and the word is H. Answers the owner's value, none where no owner
answers with one (R105, R119). A word of a lost socket stays O (R362). -/
def State.recallOwner (s : State) (pa : Nat) : State × Option Word :=
  let s := s.landWb pa
  match s.ownerOf pa with
  | none => (s, none)
  | some c =>
    if s.stranded pa then (s, none) else
    let (s, v) := s.recall c pa
    (s.dropOwner pa, v)

/-- A whole word written at the home as a write that carries no release: the stamp of its line is gone (R149). -/
def State.homeWrites (s : State) (pa : Nat) (x : Word) : State :=
  (s.putWord pa x 255#8).modDir (lineOf pa) (fun e => { e with pmk := none })

/-- The owner is recalled and its word written: the word becomes H (R119). -/
def State.recallWord (s : State) (pa : Nat) : State :=
  match s.recallOwner pa with
  | (s, some x) => s.homeWrites pa x
  | (s, none) => s

/-- A cluster becomes a tracked sharer of a line, at the proxy of its socket too (R114, R119). -/
def State.share (s : State) (line c : Nat) : State :=
  let s := if c / 64 = sockOf line then s
    else s.modProxy (c / 64) line (fun e => { e with sharers := addParty e.sharers (c % 64) })
  s.modDir line (fun e => { e with sharers := addParty e.sharers (partyOf line c) })

/-- A cluster becomes the owner of a word. -/
def State.setOwner (s : State) (pa c : Nat) : State :=
  let s := s.dropOwner pa
  let s := if c / 64 = sockOf pa then s
    else s.modProxy (c / 64) (lineOf pa) (fun e => { e with owners := tset e.owners (wordIx pa) (c % 64) })
  s.modDir (lineOf pa) (fun e => { e with owners := tset e.owners (wordIx pa) (partyOf pa c) })

/-- The owner is downgraded, its word written, and it becomes a tracked sharer (R119). -/
def State.downgradeWord (s : State) (pa : Nat) : State :=
  let s := s.landWb pa
  match s.ownerOf pa with
  | none => s
  | some c =>
    if s.stranded pa then s else
    let (s, v) := s.downgrade c pa
    let s := (s.share (lineOf pa) c).dropOwner pa
    match v with
    | some x => s.homeWrites pa x
    | none => s

/-- A cluster is no sharer of a line any more; a socket is none when its proxy has none left (R119). -/
def State.unshare (s : State) (line c : Nat) : State :=
  if c / 64 = sockOf line then s.modDir line (fun e => { e with sharers := e.sharers.filter (· != c % 64) })
  else s.modProxy (c / 64) line (fun e => { e with sharers := e.sharers.filter (· != c % 64) })

/-- The bits of the sockets whose proxies track no sharer of the line are cleared; that of a lost socket cannot be, and
that of an excluded requester's socket is not (R119, R362). -/
def State.clearSockets (s : State) (line : Nat) (excl : Option Nat) : State :=
  s.modDir line (fun e => { e with sharers := e.sharers.filter (fun p =>
    decide (p < 64) || !(s.proxyOf (p - 64) line).sharers.isEmpty || !s.joined (sockOf line) (p - 64) ||
      excl.any (fun c => c / 64 == p - 64)) })

/-- Invalidates a word at the tracked sharers of a list, but one that is excluded and those of a lost socket; a sharer
that holds no T word of the line any more is none (R119, R362). A directory eviction leaves U words as they are (R116). -/
def invalidateAt (evict : Bool) (pa : Nat) (excl : Option Nat) : List Nat → State → State
  | [], s => s
  | c :: rest, s =>
    if excl = some c ∨ s.joined (sockOf pa) (c / 64) = false then invalidateAt evict pa excl rest s
    else
      let (s, holds) := if evict then s.untrack c pa else s.invalidate c pa
      invalidateAt evict pa excl rest (if holds then s else s.unshare (lineOf pa) c)

/-- Invalidates a word at every tracked sharer but one that is excluded (R119). -/
def State.invalidateWord (s : State) (pa : Nat) (excl : Option Nat) : State :=
  (invalidateAt false pa excl (s.sharersOf (lineOf pa)) s).clearSockets (lineOf pa) excl

/-- The line of another socket as the proxy home of a package is chosen for it: its address with bits 51:49 replaced
(R114). -/
def proxyLine (sock line : Nat) : Nat := sockBase sock + offOf line

/-- The home, and at it the set, of a line (R115). -/
def State.dirSet (s : State) (line : Nat) : Nat × Nat :=
  let h := s.homeOf line
  (h, s.localOf line / 256 % (if h % 544 < 512 then 4096 else 8192))

/-- The set of a proxy's entry, by its key. -/
def State.proxySet (s : State) (key : Nat) : Nat × Nat := s.dirSet (proxyLine (key / 2 ^ 52) (key % 2 ^ 52))

/-- DIRECTORY EVICTION of a line at its home: its O words are recalled and written, every word invalidated at every
tracked sharer, and the entry freed; U copies are not affected (R116); words that a lost socket owns stay in it (R362). -/
def State.evictDir (s : State) (line : Nat) : State :=
  let s := (List.range 8).foldl (fun s w =>
    let t := s.recallWord (line + 8 * w)
    invalidateAt true (line + 8 * w) none (t.sharersOf line) t) s
  s.modDir line (fun e => { e with sharers := [], pmk := none })

/-- DIRECTORY EVICTION of a proxy's entry: the O words of its clusters go home, and every word is invalidated at them
(R114, R116). -/
def State.evictProxy (s : State) (key : Nat) : State :=
  let sock := key / 2 ^ 52
  let line := key % 2 ^ 52
  let mine := fun (t : State) => ((t.proxyOf sock line).sharers).map (64 * sock + ·)
  let s := (List.range 8).foldl (fun s w =>
    let pa := line + 8 * w
    let t := if (s.ownerOf pa).any (fun c => c / 64 == sock) then s.recallWord pa else s
    invalidateAt true pa none (mine t) t) s
  { s with proxies := tdel s.proxies key }

/-- The entries that stand in a set of a home channel, its own lines' and those it holds as a proxy: whether it is a
proxy's, its key, and the stamp of its allocation. -/
def State.setMates (s : State) (place : Nat × Nat) : List (Bool × Nat × Nat) :=
  ((s.dir.filter (fun e => s.dirSet e.1 == place)).map (fun e => (false, e.1, e.2.stamp))) ++
    ((s.proxies.filter (fun e => s.proxySet e.1 == place)).map (fun e => (true, e.1, e.2.stamp)))

/-- The least recently allocated of some entries. -/
def oldestMate : List (Bool × Nat × Nat) → Option (Bool × Nat × Nat)
  | [] => none
  | m :: rest => some (rest.foldl (fun b e => if e.2.2 < b.2.2 then e else b) m)

/-- Room in a set of 16 ways: the least recently allocated entry of a full set is evicted (R116). -/
def State.dirRoom (s : State) (place : Nat × Nat) : State :=
  let mates := s.setMates place
  if 16 ≤ mates.length then
    match oldestMate mates with
    | none => s
    | some m => if m.1 then s.evictProxy m.2.1 else s.evictDir m.2.1
  else s

/-- An entry for a line at its home: found or allocated (R116). -/
def State.dirAlloc (s : State) (line : Nat) : State :=
  match tfind s.dir line with
  | some _ => s
  | none =>
    let s := s.dirRoom (s.dirSet line)
    { s with dir := tset s.dir line { DirEntry.absent with stamp := s.seq }, seq := s.seq + 1 }

/-- An entry for a line at the proxy home of a cluster's package, where the line is of another socket: found or allocated
(R114, R116). -/
def State.proxyAlloc (s : State) (line c : Nat) : State :=
  let sock := c / 64
  if sock = sockOf line then s
  else match tfind s.proxies (proxyKey sock line) with
    | some _ => s
    | none =>
      let s := s.dirRoom (s.proxySet (proxyKey sock line))
      { s with proxies := tset s.proxies (proxyKey sock line) { DirEntry.absent with stamp := s.seq }, seq := s.seq + 1 }

/-- A cluster becomes a tracked sharer of a line, with the entries that track it (R114, R116, R119). -/
def State.track (s : State) (line c : Nat) : State := ((s.dirAlloc line).proxyAlloc line c).share line c

/-- A word with an uncorrectable error that a read finds in its owner: the copy is lost and the word is H (R128). -/
def State.loseWord (s : State) (cl pa : Nat) : State := (s.dropClWord cl pa).dropOwner pa

/-- The current value of a word: its owner's, one that is on its way home, or memory's. -/
def State.peekWord (s : State) (pa : Nat) : Word :=
  match s.wbOf pa with
  | some f => lineWord f.req.data (wordIx pa)
  | none =>
    match s.ownerOf pa with
    | some c => (s.forward c pa).getD (memWord s.mem pa)
    | none => memWord s.mem pa

/-- A memory error noted by the home of a word: its hub counter and MEMERR event (R126, R127, R341, R349). -/
def State.noteError (s : State) (tno : BitVec 12) (org pa index kind : Nat) : State :=
  let h := s.homeOf pa
  (s.countHub h index).event (efcOfHome h) 8 (homeBit h) tno (placeOf org) 0 (BitVec.ofNat 64 pa) (BitVec.ofNat 64 kind)

/-- A word read from HBM or the second tier: a single-bit error is corrected, an uncorrectable one read again up to two
times, and cured by a re-read or left in memory as it is (R126, R127). -/
def memoryFetch (tno : BitVec 12) (org pa : Nat) : Mem Word := do
  let s ← get
  let fails := do
    set (s.noteError tno org pa 2 2)
    throw (.error pa)
  match tfind s.errs pa with
  | none => pure (memWord s.mem pa)
  | some .single => do
    set (s.noteError tno org pa 0 0)
    pure (memWord s.mem pa)
  | some .persistent => fails
  | some (.transient n) =>
    if n < 2 then do
      set (State.noteError { s with errs := tdel s.errs pa } tno org pa 1 1)
      pure (memWord s.mem pa)
    else fails

/-- A word read by its home: a single-bit error of its slice-cache line is corrected, a clean line with an uncorrectable
error is discarded and its word read from memory, and a dirty one has no other copy (R126, R128). -/
def homeFetch (tno : BitVec 12) (org pa : Nat) : Mem Word := do
  let s ← get
  match tfind s.slc pa with
  | none => memoryFetch tno org pa
  | some .single => do
    set (State.noteError { s with slc := tdel s.slc pa } tno org pa 0 0)
    pure (memWord s.mem pa)
  | some .clean => do
    set { s with slc := tdel s.slc pa }
    memoryFetch tno org pa
  | some (.dirty _) => throw (.error pa)

/-- A word that RdU or RdW reads: at its home in H, else forwarded to its owner, whose word stays O; an uncorrectable error
found there is the reader's, and a single-bit one is corrected (R105, R119, R126, R128). -/
def homeForward (tno : BitVec 12) (org pa : Nat) : Mem Word := do
  modify (fun s => s.landWb pa)
  let s ← get
  match s.ownerOf pa with
  | none => homeFetch tno org pa
  | some c =>
    if (s.clWord c pa).st = .o ∧ (s.clWord c pa).bad then do
      set (s.loseWord c pa)
      throw (.error pa)
    else do
      set (s.mend c pa)
      pure (s.peekWord pa)

/-- A word written at its home on behalf of a unit of no cluster: the owner is recalled, every tracked copy invalidated,
and the postmark cleared (R119, R149). -/
def State.pokeWord (s : State) (pa : Nat) (x : Word) (mask : BitVec 8) : State :=
  (((s.recallWord pa).putWord pa x mask).invalidateWord pa none).modDir (lineOf pa) (fun e => { e with pmk := none })

/-- A word of a software table or log as it stands, by physical address: 0 outside backed memory (R392). -/
def State.tableWord (s : State) (here pa : Nat) : Word := if s.tableBacked here pa then s.peekWord pa else 0

/-- A word of a software table or log as a home reads it: as RdW reads it, errors corrected, read again and counted as those of
any read are (R126, R127, R392). What the home works with where the error persists the spec leaves open: a free value (DESIGN
CHOICE, log 13). -/
def State.readTable (s : State) (here pa : Nat) : Word × State :=
  if s.tableBacked here pa then
    match homeForward 0 0 pa s with
    | .ok x s => (x, s)
    | .error _ s => let (n, s) := s.draw; (Config.faultyWord n, s)
  else (0, s)

/-- Consecutive words of a software table, as its home reads them. -/
def readTableWords (here : Nat) : Nat → Nat → State → List Word × State
  | 0, _, s => ([], s)
  | n + 1, pa, s =>
    let (x, s) := s.readTable here pa
    let (xs, s) := readTableWords here n (pa + 8) s
    (x :: xs, s)

/-- An exempt request of a unit of no cluster, as which tables and logs are read and written. -/
def Req.table (kind : ReqKind) (pa : Nat) : Req :=
  { kind := kind, line := lineOf pa, words := BitVec.ofNat 8 (2 ^ wordIx pa), mask := 0, data := 0, op := .add, addr := pa, size := 8,
    x := 0, cmp := 0, src := none, tno := 0, exempt := true, isPut := false, keep := false, rel := none, acq := none,
    origin := 0, pc := 0, dlKind := 6, ctr := 0, copyRec := 0, marked := false, tag := .none }

/-- The cost of one request for a line of a software table or log, attributed to tenant 0 (R312, R331, R340). -/
def State.chargeTable (s : State) (here : Nat) (kind : ReqKind) (pa : Nat) : State :=
  if s.tableBacked here pa then
    let (n, s) := s.draw
    s.chargeHome (Req.table kind pa) n
  else s

/-- A software table or log written: discarded outside backed memory (R392). -/
def State.setTableWord (s : State) (here pa : Nat) (x : Word) : State :=
  if s.tableBacked here pa then s.pokeWord pa x 255#8 else s

/-- The frame number of a memory address in its socket's Frame Ownership Table (R310). -/
def frameOf (pa : Nat) : Nat :=
  if isTier pa then 0x14000000 + (offOf pa - 0x0020000000000) / 4096 else offOf pa / 4096

/-- The key of the FOT entry of an address's frame as the home of the address caches it. -/
def State.fotKey (s : State) (pa : Nat) : Nat := s.homeOf pa * 2 ^ 30 + frameOf pa

/-- The FOT entry of a frame as memory holds it (R310). -/
def State.fotRead (s : State) (pa : Nat) : BitVec 16 :=
  let sock := sockOf pa
  let a := (s.pkg sock).fotbase + 2 * frameOf pa
  ((s.tableWord sock (wordOf a)) >>> (8 * (a % 8))).setWidth 16

/-- The FOT entry of a frame as the home of an address in it caches it, or as it reads it (R313). -/
def State.fotEntry (s : State) (pa : Nat) : BitVec 16 := (tfind s.fot (s.fotKey pa)).getD (s.fotRead pa)

/-- A home that holds no entry for a frame reads it at the entry's own home, by RdW, and holds it from now on (R313). -/
def State.fotFill (s : State) (pa : Nat) : State :=
  if (s.pkg (sockOf pa)).fotbase = 0 then s
  else match tfind s.fot (s.fotKey pa) with
    | some _ => s
    | none =>
      let a := (s.pkg (sockOf pa)).fotbase + 2 * frameOf pa
      let (x, s) := (s.chargeTable (sockOf pa) .rdW (wordOf a)).readTable (sockOf pa) (wordOf a)
      { s with fot := tset s.fot (s.fotKey pa) ((x >>> (8 * (a % 8))).setWidth 16) }

/-- FrameCheck of R311: true when the request passes. -/
def State.frameCheck (s : State) (kind : ReqKind) (isPut exempt : Bool) (tno : BitVec 12) (pa : Nat) : Bool :=
  if exempt || kind == .wb || (s.pkg (sockOf pa)).fotbase = 0 || !s.isMemory pa then true
  else
    let e := s.fotEntry pa
    if e.getLsbD 15 then false
    else if tno = 0 || tno = e.setWidth 12 || e.getLsbD 13 then true
    else (isReadKind kind && e.getLsbD 12) || (isPut && e.getLsbD 14)

/-- Appends a refused write's record to its tenant's dead-letter log at the socket of the refusing home, or counts
its loss (R172). -/
def State.deadLetter (s : State) (sock : Nat) (d : DeadLetter) : State :=
  let t := s.tenant sock d.tno
  let s := s.chargeTable sock .rdW t.dlbase
  let (written, s) := s.readTable sock t.dlbase
  let (taken, s) := s.readTable sock (t.dlbase + 8)
  let s :=
    if (written - taken).toNat < t.dlsize then
      let a := t.dlbase + 64 + 64 * (written.toNat % t.dlsize)
      let w0 := BitVec.ofNat 64 (d.kind.toNat + d.tno.toNat * 2 ^ 4 + d.fote.toNat * 2 ^ 16 + placeOf d.origin * 2 ^ 32)
      let rec8 := [w0, d.pc, BitVec.ofNat 64 d.pa, d.mask, BitVec.ofNat 64 d.ctr, BitVec.ofNat 64 d.copyRec,
        BitVec.ofNat 64 s.time, 0]
      let s := (rec8.foldl (fun (p : State × Nat) x => (p.1.setTableWord sock p.2 x, p.2 + 8)) (s.chargeTable sock .own a, a)).1
      (s.chargeTable sock .atH t.dlbase).setTableWord sock t.dlbase (written + 1)
    else if t.dlsize ≠ 0 ∧ s.tableBacked sock t.dlbase = false then s
    else s.countTenant sock d.tno 1
  let s := s.countTenant sock d.tno 0
  let h := s.homeOf d.pa
  s.event (efcOfHome h) 7 (homeBit h) d.tno (placeOf d.origin) 0 (BitVec.ofNat 64 d.pa) (d.kind.setWidth 64)

/-- Appends a record to the package debug log (R377): KIND, context, PC, address, and words 4 to 6. -/
def State.trace (s : State) (kind c : Nat) (pc addr w4 : Word) : State :=
  let sock := socketOf c
  let base := (s.pkg sock).dbgLog
  if base = 0 ∨ s.tableBacked sock base = false then s
  else
    let s := s.chargeTable sock .rdW base
    let (written, s) := s.readTable sock base
    let (taken, s) := s.readTable sock (base + 8)
    let (size, s) := s.readTable sock (base + 24)
    let size := size.toNat
    if (written - taken).toNat < size then
      let a := base + 64 + 64 * (written.toNat % size)
      let rec8 := [BitVec.ofNat 64 (kind + placeOf c * 16), pc, addr, BitVec.ofNat 64 s.time, w4, 0, 0, 0]
      let s := (rec8.foldl (fun (p : State × Nat) x => (p.1.setTableWord sock p.2 x, p.2 + 8)) (s.chargeTable sock .own a, a)).1
      (s.chargeTable sock .atH base).setTableWord sock base (written + 1)
    else
      let (lost, s) := (s.chargeTable sock .atH base).readTable sock (base + 16)
      s.setTableWord sock (base + 16) (lost + 1)

/-- The source of a postmark and of its reader as a home of a socket names them: a local cluster 0-63, or 64 + s for
socket s (R149). -/
def sourceOf (homeSock cl : Nat) : Nat := if cl / 64 = homeSock then cl % 64 else 64 + cl / 64

/-- A postmark contains a reader (R150). -/
def pmkContains (src scope reader : Nat) : Bool :=
  if 64 ≤ src then src == reader || scope == 4
  else scope == 4 || (scope == 3 && reader < 64) || (src == reader)

/-- The postmark check at an acquire's read, and its report (R150). -/
def State.checkPostmark (s : State) (line cl org : Nat) (pc : Word) (tno : BitVec 12) (acq : Scope) : State :=
  let sock := sockOf line
  match (s.dirOf line).pmk with
  | none => s
  | some (src, scope) =>
    if (s.tenant sock tno).pmark && !pmkContains src.toNat scope.toNat (sourceOf sock cl) then
      let extra := src.toNat + scope.toNat * 2 ^ 7 + acq.code * 2 ^ 10
      let s := s.countCluster cl 1
      let s := s.event (efcOfCluster cl) 4 14 tno (placeOf org) extra (BitVec.ofNat 64 line) pc
      s.trace 5 org pc (BitVec.ofNat 64 line) (BitVec.ofNat 64 (extra * 2 ^ 41))
    else s

/-- A performed write stamps its line when it carries a release of a tenant with postmarks, and otherwise clears the
stamp (R149). The party that counts a far piece has its place in the receiving package: a home of another socket names that
socket, and which of its own clusters a home of the package names is a free value (R365, log 13). -/
def State.stampPostmark (s : State) (r : Req) : State :=
  let sock := sockOf r.line
  match r.rel with
  | some sc =>
    if (s.tenant sock r.tno).pmark then
      let (n, s) := s.draw
      let src := match r.src with
        | some cl => sourceOf sock cl
        | none => if r.rsock = sock then (Config.latency n).toNat % 64 else 64 + r.rsock
      (s.dirAlloc r.line).modDir r.line (fun e => { e with pmk := some (BitVec.ofNat 7 src, BitVec.ofNat 3 sc.code) })
    else s.modDir r.line (fun e => { e with pmk := none })
  | none => s.modDir r.line (fun e => { e with pmk := none })

/-- The home writes back a dirty slice-cache line that holds an uncorrectable error: the word is not written, memory keeps
the value it held, and a message goes to X7 of the boot core's cluster (R128). Whether the line leaves the slice cache
now is a free value: replacement there affects only timing (R100, log 13). -/
def State.sliceEvict (s : State) (home : Nat) : State :=
  match s.slc.find? (fun e => s.homeOf e.1 == home && (match e.2 with | .dirty _ => true | _ => false)) with
  | some (pa, .dirty old) =>
    let (n, s) := s.draw
    if Config.sliceHit n == 0#1 then
      State.lostWrite { s with slc := tdel s.slc pa, mem := memPutWord s.mem pa old }
        (s.firstCore (s.firstCluster (home / 544))) 3 pa 0 0
    else s
  | _ => s

/-- The value an atomic writes, of n bytes; none when nothing is written (R161). -/
def operate (op : AmoOp) (n old x cmp : Nat) : Option Nat :=
  let m := 2 ^ (8 * n)
  let sg := fun v : Nat => if 2 * v < m then (v : Int) else (v : Int) - m
  match op with
  | .add => some ((old + x) % m)
  | .and => some (old &&& x)
  | .or => some (old ||| x)
  | .xor => some (old ^^^ x)
  | .min => some (if sg x < sg old then x else old)
  | .max => some (if sg old < sg x then x else old)
  | .minn => some (if x < old then x else old)
  | .maxn => some (if old < x then x else old)
  | .swap => some x
  | .cas => if old = cmp then some x else none

/-- The n bytes of a word from byte k. -/
def subWord (x : Word) (k n : Nat) : Nat := (x.toNat / 256 ^ k) % 256 ^ n

/-- An atomic on its bytes of a word: the old bytes, and the word after it. -/
def operateWord (op : AmoOp) (pa n : Nat) (old x cmp : Word) : Word × Word :=
  let k := pa % 8
  let o := subWord old k n
  let v := operate op n o (x.toNat % 256 ^ n) (cmp.toNat % 256 ^ n)
  (BitVec.ofNat 64 o,
    match v with
    | some y => mergeWord old (alignWord (BitVec.ofNat 64 y) k) (maskOf k n)
    | none => old)

/-- An atomic on the n bytes of an old value writes: all but a `cas` that finds another value (R161). -/
def atomicWrites (op : AmoOp) (n : Nat) (old x cmp : Word) : Bool :=
  (operate op n old.toNat (x.toNat % 256 ^ n) (cmp.toNat % 256 ^ n)).isSome

/-- The home's transition for one word that a request names (R119). Answers the old value of an atomic. -/
def homeWord (r : Req) (w : Nat) : Mem Word := do
  let pa := r.line + 8 * w
  let tno := if r.exempt then 0#12 else r.tno
  let data := lineWord r.data w
  let mask := wordMask r.mask w
  if r.kind != .wb then modify (fun s => s.landWb pa)
  let own := (← get).ownerOf pa
  let other := match own, r.src with
    | some c, some x => c != x
    | some _, none => true
    | none, _ => false
  if (← get).stranded pa then throw (.error pa)
  let write := fun excl => modify (fun s => ((s.recallWord pa).putWord pa data mask).invalidateWord pa excl)
  match r.kind with
  | .rdT => do
    if other then modify (fun s => s.downgradeWord pa)
    let now ← get
    let v ← (if now.ownerOf pa = none then homeFetch tno r.origin pa else pure (now.peekWord pa))
    match r.src with
    | some x => modify (fun s => s.track r.line x)
    | none => pure ()
    pure v
  | .rdU => homeForward tno r.origin pa
  | .rdW => homeForward tno r.origin pa
  | .own => do
    let held ← (if other then do
        let (s, v) := (← get).recallOwner pa
        set s
        pure v
      else pure none)
    let v ← (match held with
      | some v => pure v
      | none => do
        let now ← get
        if now.ownerOf pa = none then homeFetch tno r.origin pa else pure (now.peekWord pa))
    if own = none then modify (fun s => s.invalidateWord pa r.src)
    match r.src with
    | some x => modify (fun s => (s.track r.line x).setOwner pa x)
    | none => pure ()
    pure v
  | .wrT => do
    write r.src
    match r.src with
    | some x => modify (fun s => s.track r.line x)
    | none => pure ()
    pure 0
  | .wrS => do
    write r.src
    pure 0
  | .wrW => do
    write r.src
    pure 0
  | .putLine => do
    write none
    pure 0
  | .atH => do
    modify (fun s => s.recallWord pa)
    let old ← homeFetch tno r.origin pa
    let (o, new) := operateWord r.op r.addr r.size old r.x r.cmp
    modify (fun s => s.invalidateWord pa none)
    if atomicWrites r.op r.size o r.x r.cmp then modify (fun s => s.putWord pa new 255#8)
    pure o
  | .wb => do
    modify (fun s => s.wbWord r w)
    match r.src with
    | some x => if r.keep then modify (fun s => s.track r.line x)
    | none => pure ()
    pure 0

/-- The words that a request names, ascending. -/
def Req.names (r : Req) : List Nat := (List.range 8).filter (fun w => r.words.getLsbD w)

/-- The line that a fill returns: the words named, with the values that their transitions gave, and the others, valid where no
cluster owns them and the home reads them without an uncorrectable error (R118, R126, R127). -/
def fillOf (r : Req) (named : List (Nat × Word)) : Mem (Vec × BitVec 8) := do
  let tno := if r.exempt then 0#12 else r.tno
  let ws ← (List.range 8).mapM (fun w => do
    let pa := r.line + 8 * w
    let s ← get
    match tfind named w with
    | some v => pure (some v)
    | none => match s.ownerOf pa with
      | some _ => pure none
      | none => fun s => match homeFetch tno r.origin pa s with
        | .ok v s => .ok (some v) s
        | .error _ s => .ok none s)
  pure (vecOfWords (ws.map (·.getD 0)),
    BitVec.ofNat 8 (((List.range 8).map (fun w => if (ws.getD w none).isSome then 2 ^ w else 0)).foldl (· + ·) 0))

/-- The first word that a request names. -/
def Req.firstWord (r : Req) : Nat := r.line + 8 * (Req.names r).headD 0

/-- A coherent link joins the requester's socket and the home's (R362). -/
def State.reaches (s : State) (r : Req) : Bool :=
  match r.src with
  | some cl => s.joined (cl / 64) (sockOf r.line)
  | none => true

/-- A request served at its home: the check, the transition of each word it names, the postmark, and the reply: a
line and which of its words are valid, or an atomic's old value in word 0 (R117-R119). A home of a lost socket fails it
(R362). -/
def serve (r : Req) : Mem (Vec × BitVec 8) := do
  let (n, s) := (← get).draw
  set s
  if !(← get).reaches r then throw (.error (Req.firstWord r))
  modify (fun s => if r.exempt || r.kind == .wb then s else s.fotFill r.line)
  if !((← get).frameCheck r.kind r.isPut r.exempt r.tno r.line) then throw (.frame r.line)
  modify (fun s => (s.sliceEvict (s.homeOf r.line)).chargeHome r n)
  match r.acq, r.src with
  | some sc, some cl => modify (fun s => s.checkPostmark r.line cl r.origin r.pc r.tno sc)
  | _, _ => pure ()
  let vs ← (Req.names r).mapM (homeWord r)
  match r.kind with
  | .rdT => fillOf r ((Req.names r).zip vs)
  | .rdU => fillOf r ((Req.names r).zip vs)
  | .rdW => fillOf r ((Req.names r).zip vs)
  | .own => fillOf r ((Req.names r).zip vs)
  | .atH => do
    if atomicWrites r.op r.size (vs.headD 0) r.x r.cmp then modify (fun s => s.stampPostmark r)
    return ((vs.headD 0).setWidth 512, r.words)
  | _ => do
    modify (fun s => s.stampPostmark r)
    return (0, r.words)

/-- The dead letter of a refused write (R156, R172). -/
def letterOf (r : Req) (s : State) : DeadLetter :=
  { kind := r.dlKind, tno := r.tno, fote := s.fotEntry r.line, origin := r.origin, pc := r.pc,
    pa := if r.dlKind = 5#4 ∨ r.dlKind = 6#4 then wordOf r.addr else r.line, mask := r.mask, ctr := r.ctr, copyRec := r.copyRec }

/-- A request performed after its instruction retired: a refusal is dead-lettered, an error reported as a lost
write (R128, R156, R170), and a write to a lost socket as a write-back that found one (R362). Answers whether it was
performed. -/
def State.serveLate (s : State) (r : Req) : State × Bool :=
  if !s.reaches r then (s.lostWrite (s.firstCore ((r.src).getD 0)) 0 (Req.firstWord r) r.tno r.origin, false)
  else match serve r s with
  | .ok _ s => (s, true)
  | .error (.frame _) s => (s.deadLetter (sockOf r.line) (letterOf r s), false)
  | .error (.error pa) s => (s.lostWrite (coreOf r.origin) (if r.kind == .atH then 4 else 1) pa r.tno r.origin, false)

end Sys2Proof.Machine
end

