-- ==== Sys2Proof/Machine/Ports.lean ====
section
/-! DEFINITION. Who sends a request, what it carries, and the cluster port it takes with its source window (spec/11
R297-R300). -/

namespace Sys2Proof.Machine

/-- Who makes an access: the cluster, the source bit of the unit at the cluster's EFC, the context named as its
origin, its tenant and PC, whether the Frame Ownership Table check is waived (R312, R349), and whether the lines it takes
in are TCB lines, of way 15 (R33). -/
structure Agent where
  cl : Nat
  sbit : Nat
  origin : Nat
  tno : BitVec 12
  pc : Word
  exempt : Bool
  tcc : Bool := false
  deriving DecidableEq, Repr

/-- The context in turn as an agent. -/
def State.agent (s : State) : Agent :=
  { cl := s.myCluster, sbit := s.myCore % 8, origin := s.cur, tno := s.me.tno, pc := s.me.pc, exempt := false }

/-- A request that carries nothing. -/
def Req.blank (a : Agent) (kind : ReqKind) (line : Nat) : Req :=
  { kind := kind, line := line, words := 0, mask := 0, data := 0, op := .add, addr := line, size := 8, x := 0, cmp := 0,
    src := some a.cl, tno := a.tno, exempt := a.exempt, isPut := false, keep := false, rel := none, acq := none,
    origin := a.origin, pc := a.pc, dlKind := 6, ctr := 0, copyRec := 0, marked := false,
    tag := .none }

/-- The port update on an ending reply (R299). -/
def Port.onReply (p : Port) (cmx : Bool) : Port :=
  if cmx && p.h = 0 then { p with h := p.w, w := max 1 (p.w / 2), n := 0 }
  else
    let p := { p with h := p.h - 1 }
    if cmx then p
    else if p.w ≤ p.n + 1 then { p with w := min 64 (p.w + 1), n := 0 } else { p with n := p.n + 1 }

/-- The global number of the port an address takes at a cluster (R295, R297). -/
def portAt (cl pa : Nat) : Nat := 8 * cl + portOf (if isDevice pa then pa - pa % 4096 else pa)

/-- A port of a cluster. -/
def State.port (s : State) (p : Nat) : Port := tget (s.cluster (p / 8)).ports (p % 8) Port.init

/-- A port changed. -/
def State.modPort (s : State) (p : Nat) (f : Port → Port) : State :=
  s.modCluster (p / 8) (fun c => { c with ports := tset c.ports (p % 8) (f (tget c.ports (p % 8) Port.init)) })

/-- A class R request of a unit, and in it of a context or binding, is admitted: the turn passes to the unit after it, and
within the unit to the context or binding after it (R299, R300, R341). -/
def State.occupy (s : State) (p unit sub : Nat) : State :=
  (s.modPort p (fun x =>
    { x with out := x.out + 1, turn := (unit + 1) % 15, within := tset x.within unit ((sub + 1) % 8) })).countPort p 0

/-- Who within its unit an agent is to a port: the context of its core, or the binding of its engine (R300). -/
def State.subOf (s : State) (a : Agent) : Nat :=
  if a.sbit < 8 then a.origin % 8
  else if a.sbit < 12 then
    (((s.engine (4 * a.cl + a.sbit - 8)).bindings.find? (fun b => b.2.tcb == (s.ctx a.origin).tcb)).map (·.1)).getD 0
  else 0

/-- The reply that ends a request returns: the window, MARKED and HALVINGS, and the CONGEST event, whose TNO is 0, since tenants
share the port (R299, R341, R349; DESIGN CHOICE, log 29). -/
def State.replyEnds (s : State) (p : Nat) (cmx : Bool) : State :=
  let halves := cmx && (s.port p).h = 0
  let s := s.modPort p (fun x => { x.onReply cmx with out := x.out - 1 })
  let s := if cmx then s.countPort p 1 else s
  if halves then
    (s.countPort p 2).event (efcOfCluster (p / 8)) 5 15 0 0 0 0 (BitVec.ofNat 64 ((s.port p).w + (p % 8) * 2 ^ 7))
  else s

/-- One word of a line in a request's masks. -/
def oneWord (pa : Nat) : BitVec 8 := BitVec.ofNat 8 (2 ^ wordIx pa)

/-- A request for one word with bytes to write. -/
def Req.write (a : Agent) (kind : ReqKind) (pa : Nat) (x : Word) (mask : BitVec 8) : Req :=
  { Req.blank a kind (lineOf pa) with
    words := oneWord pa, addr := wordOf pa, data := x.setWidth 512 <<< (64 * wordIx pa),
    mask := mask.setWidth 64 <<< (8 * wordIx pa) }

end Sys2Proof.Machine
end

