-- ==== Sys2Proof/Machine/Far.lean ====
section
/-! DEFINITION. Requests of no cluster, and the sending end of the far domain: frames, link retry's replay buffer, flows
and far windows (spec/14 R360, R363, R364, R366-R368). -/

namespace Sys2Proof.Machine

/-- A line request of no cluster: from another package, a device or the debug port. -/
def Req.outside (kind : ReqKind) (pa : Nat) (bytes : List (BitVec 8)) (tno : BitVec 12) : Req :=
  { kind := kind, line := lineOf pa,
    words := BitVec.ofNat 8 (((List.range 8).map (fun w =>
      if decide (lineOf pa + 8 * w < pa + bytes.length) && decide (pa < lineOf pa + 8 * w + 8) then 2 ^ w else 0)).foldl (· + ·) 0),
    mask := BitVec.ofNat 64 ((2 ^ bytes.length - 1) * 2 ^ (pa % 64)),
    data := BitVec.ofNat 512 (leValue bytes * 256 ^ (pa % 64)), op := .add, addr := pa, size := 8, x := 0, cmp := 0, src := none,
    tno := tno, exempt := false, isPut := kind == .putLine, keep := false, rel := none, acq := none, origin := 0, pc := 0,
    dlKind := 6, ctr := 0, copyRec := 0, marked := false, tag := .none }

/-- A far flow before its first frame: the first DATA frame carries RESYNC (R366). -/
def OutFlow.first : OutFlow := { next := 0, kept := [], timeouts := 0, resync := true, since := 0 }
def InFlow.first : InFlow := { expect := 0, nakSent := false, unacked := 0, since := 0 }
def Link.first : Link := { next := 0, kept := [], expect := 0, taken := 0 }

/-- The ports in far mode with UP set, ascending (R363). -/
def State.farPorts (s : State) (sock : Nat) : List Nat :=
  ((s.pkg sock).ports.filter (fun e => e.2.mode == 2#2 && e.2.up && (s.fusesOf sock).fab.getLsbD e.1)).map (·.1)

/-- FarPort(d) (R363). -/
def State.farPort (s : State) (sock d : Nat) : Option Nat :=
  let l := s.farPorts sock
  if l.isEmpty then none else l[d % l.length]?

/-- The Ethernet address of a package: 02-A7-00-00, then its far number in the last two bytes, big-endian (R364). -/
def macOf (id : BitVec 12) : BitVec 48 := 0x02A70000#32 ++ id.setWidth 16

/-- The Ethertype of far frames (R364). -/
def farEtherType : BitVec 16 := 0x88B5

/-- A frame without a piece. -/
def Frame.bare (type : BitVec 4) (src dst : BitVec 12) (seq : BitVec 32) : Frame :=
  { fcsGood := true, vlan := false, macDst := macOf dst, macSrc := macOf src, etherType := farEtherType, ver := 1, type := type, resync := false, src := src, dst := dst, len := 0,
    fseq := seq, lseq := 0, rpa := 0, rctr := 0, tno := 0, data := [] }

/-- The n bytes of a value, the highest first. -/
def beBytes (x n : Nat) : List (BitVec 8) := (leBytes x n).reverse

/-- The transport header: 40 bytes, each field little-endian, rsv bits 0 (R364). -/
def Frame.header (f : Frame) : List (BitVec 8) :=
  leBytes (f.ver.toNat + f.type.toNat * 2 ^ 4 + (if f.resync then 2 ^ 8 else 0)) 2 ++ leBytes f.src.toNat 2 ++ leBytes f.dst.toNat 2 ++
    leBytes f.len.toNat 2 ++ leBytes f.fseq.toNat 4 ++ leBytes f.lseq.toNat 4 ++ leBytes f.rpa.toNat 8 ++ leBytes f.rctr.toNat 8 ++
    leBytes f.tno.toNat 2 ++ leBytes 0 6

/-- The bytes of a frame on its link, up to its frame check sequence: the Ethernet header, the transport header and the
piece (R364). -/
def Frame.wire (f : Frame) : List (BitVec 8) :=
  beBytes f.macDst.toNat 6 ++ beBytes f.macSrc.toNat 6 ++ beBytes f.etherType.toNat 2 ++ Frame.header f ++ f.data

/-- Frames leave on a port. -/
def State.putOut (s : State) (sock port : Nat) (fs : List Frame) : State :=
  { s with outbox := s.outbox ++ fs.map (fun f => .frame sock port (Frame.wire f)) }

/-- A frame leaves on a port; with link retry it takes the next LSEQ and is kept for replay (R367). -/
def State.sendFrame (s : State) (sock port : Nat) (f : Frame) : State :=
  let retry := match tfind (s.pkg sock).ports port with | some p => p.lretry | none => false
  if retry then
    let l := tget (s.pkg sock).links port Link.first
    let g := { f with lseq := l.next }
    let s := s.modPkg sock (fun p =>
      { p with links := tset p.links port { l with next := l.next + 1, kept := (l.kept ++ [g]).drop (l.kept.length + 1 - 256) } })
    s.putOut sock port [g]
  else s.putOut sock port [{ f with lseq := 0 }]

/-- The DATA frame of a kept piece (R364). -/
def dataFrame (src dst : BitVec 12) (p : FarPiece) (resync : Bool) : Frame :=
  { Frame.bare 1 src dst p.seq with
    resync := resync, len := BitVec.ofNat 7 p.bytes.length, rpa := BitVec.ofNat 52 p.rpa, rctr := BitVec.ofNat 52 p.rctr,
    tno := p.tno.setWidth 16, data := p.bytes }

/-- The dead letter of a far piece, refused or lost (R368). -/
def FarPiece.letter (p : FarPiece) (fote : BitVec 16) : DeadLetter :=
  { kind := p.kind, tno := p.tno, fote := fote, origin := p.origin, pc := p.pc, pa := lineOf p.pa,
    mask := BitVec.ofNat 64 ((2 ^ p.bytes.length - 1) * 2 ^ (p.pa % 64)), ctr := p.rctr, copyRec := p.copyRec }

/-- A flow's state replaced. -/
def State.setFlow (s : State) (sock d : Nat) (f : OutFlow) : State :=
  s.modPkg sock (fun p => { p with flowsOut := tset p.flowsOut d f })

/-- Sends pieces of a flow on its port; the first may carry RESYNC. -/
def State.sendPieces (s : State) (sock d : Nat) (ps : List FarPiece) : State :=
  match s.farPort sock d with
  | none => s
  | some port =>
    ps.foldl (fun s p =>
      let f := tget (s.pkg sock).flowsOut d OutFlow.first
      let s := s.setFlow sock d { f with resync := false }
      s.sendFrame sock port (dataFrame (s.pkg sock).farid (BitVec.ofNat 12 d) p f.resync)) s

/-- The far windows that a piece may leave by: index, and the base and length of the local range (R363). -/
def State.farWindow (s : State) (sock pa : Nat) (tno : BitVec 12) : Option Nat :=
  (List.range 32).find? (fun k =>
    let a := tget (s.pkg sock).farwin (4 * k) 0
    let b := tget (s.pkg sock).farwin (4 * k + 1) 0
    let base := a.toNat / 2 ^ 21 % 2 ^ 31 * 2 ^ 21
    let len := b.toNat % 2 ^ 20 * 2 ^ 21
    a.getLsbD 0 && (a >>> 1).setWidth 12 == tno && decide (base ≤ pa) && decide (pa < base + len))

/-- The bytes and address of a put line. -/
def pieceOf (r : Req) : Nat × List (BitVec 8) :=
  let m := r.mask.toNat
  let lo := ctzOf64 m 64
  (r.line + lo, leBytes (r.data.toNat / 256 ^ lo) (popBits m 64))
where
  /-- The lowest set bit. -/
  ctzOf64 (x : Nat) : Nat → Nat
    | 0 => 0
    | n + 1 => if x % 2 = 1 then 0 else 1 + ctzOf64 (x / 2) n

/-- Where a landed piece of a put or copy goes, and as what, by the windows as they stand: the lowest-numbered that holds its
address for its tenant (R363). -/
def State.farGo (s : State) (r : Req) : Option FarGo :=
  let (pa, bytes) := pieceOf r
  let p := s.pkg (sockOf pa)
  if r.kind == .putLine && decide (1 ≤ r.dlKind.toNat) && decide (r.dlKind.toNat ≤ 4) && p.farVal then
    (s.farWindow (sockOf pa) pa r.tno).map (fun k =>
      let w := fun j => (tget p.farwin (4 * k + j) 0).toNat
      { dest := w 1 / 2 ^ 20 % 2 ^ 12,
        piece := { seq := 0, bytes := bytes, rpa := w 2 + (pa - w 0 / 2 ^ 21 % 2 ^ 31 * 2 ^ 21), rctr := w 3, tno := r.tno, kind := r.dlKind,
                   origin := r.origin, pc := r.pc, pa := pa, copyRec := r.copyRec } })
  else none

/-- FarSend (R363): a landed piece is numbered, kept and sent; with no far port it is lost (R368). -/
def State.farSend (s : State) (g : FarGo) : State :=
  let sock := sockOf g.piece.pa
  let f := tget (s.pkg sock).flowsOut g.dest OutFlow.first
  let piece := { g.piece with seq := f.next }
  match s.farPort sock g.dest with
  | none => (s.setFlow sock g.dest { f with next := f.next + 1, resync := true }).deadLetter sock (piece.letter 0xFFFF#16)
  | some _ =>
    let since := if f.kept.isEmpty then s.time else f.since
    let s := s.setFlow sock g.dest { f with next := f.next + 1, kept := f.kept ++ [piece], since := since }
    if f.kept.length < 4096 then s.sendPieces sock g.dest [piece] else s

/-- Every unacknowledged piece of a flow is lost, and its next DATA frame carries RESYNC (R366, R368). -/
def State.loseFlow (s : State) (sock d : Nat) : State :=
  let o := tget (s.pkg sock).flowsOut d OutFlow.first
  let s := s.setFlow sock d { o with kept := [], timeouts := 0, resync := true }
  o.kept.foldl (fun s p => s.deadLetter sock (p.letter 0xFFFF#16)) s

/-- A far port has fallen: the flows go by the others, and where none remains their pieces are lost (R363, R368). -/
def State.farFallen (s : State) (sock : Nat) : State :=
  if (s.farPorts sock).isEmpty then (s.pkg sock).flowsOut.foldl (fun s e => s.loseFlow sock e.1) s else s

/-- A landed piece goes far where a window has taken it. -/
def State.sendGo (s : State) (g : Option FarGo) : State :=
  match g with
  | some g => s.farSend g
  | none => s

/-- A landed piece goes far at once, where a window takes it. -/
def State.sendFar (s : State) (r : Req) : State := s.sendGo (s.farGo r)

end Sys2Proof.Machine
end

