-- ==== Sys2Proof/Machine/Butterfly.lean ====
section
/-! DEFINITION. The butterflies: admission, switches, home input queues and replies (spec/11 R295-R301), the fabric ports
to other sockets (spec/14 R361), the homes' service of a message (spec/04 R117, R119), and the put queues' lines and
increments as they land (spec/06 R143, R169, R170, spec/09 R238, spec/11 R290). Put lines, the pieces of `put.t`, their
increments and the write-backs of evicted lines travel message by message. Every other request is carried whole within
its own happening (log 9): it waits for its turn at its port, for room in the window and for every message that stands
on its path, which the network carries on meanwhile. -/

namespace Sys2Proof.Machine

/-- A put piece as a request (R169). -/
def Req.piece (a : Agent) (kind : BitVec 4) (p : Piece) (ctr : Nat) (tag : Tag) : Req :=
  { Req.outside .putLine p.pa p.bytes a.tno with
    src := some a.cl, origin := a.origin, pc := a.pc, dlKind := kind, ctr := ctr, tag := tag }

/-- A receipt-counter increment as a request: an atomic add at the counter's home, a release at the scope (R143). -/
def Req.increment (a : Agent) (ctr n : Nat) (sc : Scope) (tag : Tag) : Req :=
  { Req.blank a .atH (lineOf ctr) with
    words := oneWord ctr, addr := ctr, size := 8, x := BitVec.ofNat 64 n, rel := some sc, isPut := true, dlKind := 5, ctr := ctr,
    mask := (255#64) <<< (8 * wordIx ctr), tag := tag }

/-- The home that a cluster's request for an address goes to: the address's own, or for one of another socket the proxy
home of the local package (R114). -/
def State.entryHome (s : State) (sock pa : Nat) : Nat :=
  if sockOf pa = sock then s.homeOf pa else s.homeOf (proxyLine sock pa)

/-- The ports of a socket on which its proxies reach another socket, ascending (R361). -/
def State.coherentPorts (s : State) (sock d : Nat) : List Nat :=
  ((s.pkg sock).ports.filter (fun e => e.2.mode == 1#2 && e.2.up && e.2.peer.toNat == d && (s.fusesOf sock).fab.getLsbD e.1)).map (·.1)

/-- The fabric port of a socket at which messages for a line stand. -/
def State.standingPort (s : State) (sock line : Nat) : Option Nat :=
  s.flights.findSome? (fun f => match f.place with
    | .link k => if k / 16 = sock ∧ f.req.line = line then some k else none
    | _ => none)

/-- The port on which the messages for a line of another socket go: entry PortOf(pa) mod k of the list (R361); where earlier
ones for the line still wait at a port, which they reached by a longer list, later ones go behind them (R362). -/
def State.coherentPort (s : State) (sock pa : Nat) : Option Nat :=
  let l := s.coherentPorts sock (sockOf pa)
  (s.standingPort sock (lineOf pa)).or ((l[portOf pa % l.length]?).map (16 * sock + ·))

/-- The messages that a fabric port has not delivered to a socket go, in order, to the first remaining port of the list
(R362). -/
def State.replay (s : State) (sock port peer : Nat) : State :=
  match s.coherentPorts sock peer with
  | [] => s
  | k :: _ => { s with flights := s.flights.map (fun g =>
      if g.place == .link (16 * sock + port) then { g with place := .link (16 * sock + k) } else g) }

/-- The stage-1 switch and output of a request (R295). -/
def stage1 (port slice : Nat) : Place := .output 1 (port / 8 % 64 + port / 512 * 64) (slice / 64 % 8)

/-- The stage-2 and stage-3 switch outputs of a request (R295). -/
def stage2 (port slice : Nat) : Place :=
  .output 2 (64 * (port / 512) + port % 512 / 64 * 8 + slice / 64 % 8) (slice / 8 % 8)
def stage3 (port slice : Nat) : Place := .output 3 (64 * (port / 512) + slice % 512 / 8) (slice % 8)

/-- The switch outputs of the reply butterfly on the way from a slice port to a port, which reverses the request's
(R295). -/
def back3 (port slice : Nat) : Place := .back 3 (64 * (port / 512) + slice % 512 / 8) (port % 512 / 64)
def back2 (port slice : Nat) : Place :=
  .back 2 (64 * (port / 512) + port % 512 / 64 * 8 + slice / 64 % 8) (port / 8 % 8)
def back1 (port : Nat) : Place := .back 1 (port / 8 % 64 + port / 512 * 64) (port % 8)

/-- The place after the one where a message stands, as the message is carried on (R295, R361); a message at its own home
goes to the reply butterfly. -/
def State.nextPlace (s : State) (f : Flight) : Place :=
  match f.place with
  | .waiting _ => stage1 f.port f.slice
  | .output 1 _ _ => stage2 f.port f.slice
  | .output 2 _ _ => stage3 f.port f.slice
  | .output _ _ _ => .home
  | .home =>
    if sockOf f.req.line = f.port / 512 then back3 f.port f.slice
    else match s.coherentPort (f.port / 512) f.req.line with
      | some k => .link k
      | none => back3 f.port f.slice
  | .link _ => back3 f.port f.slice
  | .back 3 _ _ => back2 f.port f.slice
  | .back 2 _ _ => back1 f.port
  | .back _ _ _ => .reply
  | .reply => .reply

/-- The messages of a place; a home input queue is that of a slice port (R298, R301). -/
def State.crowd (s : State) (p : Place) (f : Flight) : List Flight :=
  s.flights.filter (fun g => g.place == p && (p != .home || (g.slice == f.slice && g.port / 512 == f.port / 512)))

/-- Room for a message in a place: 16 messages of a class in a switch output; 64 in a home input queue, of which 8 for
class A (R298, R301). A fabric port, and a port for its own replies, have room (R299). -/
def State.roomAt (s : State) (p : Place) (f : Flight) : Bool :=
  let l := s.crowd p f
  match p with
  | .home => l.length < 64 && (f.classA || (l.filter (fun g => !g.classA)).length < 56)
  | .output _ _ _ => (l.filter (fun g => g.classA == f.classA)).length < 16
  | .back _ _ _ => l.length < 16
  | _ => true

/-- A message moved to another place; it stands last there. -/
def State.moveFlight (s : State) (f : Flight) (g : Flight) : State := { s with flights := s.flights.erase f ++ [g] }

/-- The class R message of a unit that a port admits next: contexts or bindings in rotation from the one in turn, each its
oldest (R300). -/
def State.nextOf (s : State) (port unit : Nat) : Option Flight :=
  let t := tget (s.port port).within unit 0
  (List.range 8).findSome? (fun k =>
    s.flights.find? (fun f => f.port == port && !f.classA && f.place == .waiting unit && f.sub % 8 == (t + k) % 8))

/-- The message that a port admits next: units in rotation from the port's turn (R300). -/
def State.nextAdmission (s : State) (port : Nat) : Option Flight :=
  let t := (s.port port).turn
  (List.range 15).findSome? (fun k => s.nextOf port ((t + k) % 15))

/-- The unit whose request waits at its port. -/
def Flight.unit (f : Flight) : Nat := match f.place with | .waiting u => u | _ => 0

/-- A request may be admitted at a port: one waits, fewer than W are outstanding, and its first queue has room (R298,
R299). -/
def State.admits (s : State) (port : Nat) : Option Flight :=
  match s.nextAdmission port with
  | none => none
  | some f => if (s.port port).out < (s.port port).w && s.roomAt (s.nextPlace f) f then some f else none

/-- REQUEST_ADMISSION (R299, R300): a waiting class R request enters while fewer than W are outstanding. -/
def State.admission (s : State) (port : Nat) : State :=
  match s.admits port with
  | none => s
  | some f => (s.moveFlight f { f with place := s.nextPlace f }).occupy port f.unit f.sub

/-- The queue that a SWITCH_FORWARD names: stages 1 to 3 of the request butterfly; stages 4 to 6 are stages 3 to 1 of the
reply butterfly, and stage 0 is the class A input of a port (R295, R296). -/
def standsIn (stage switch out : Nat) : Flight → Bool := fun f =>
  match stage with
  | 0 => f.classA && f.port == switch && (match f.place with | .waiting _ => true | _ => false)
  | 4 => f.place == .back 3 switch out
  | 5 => f.place == .back 2 switch out
  | 6 => f.place == .back 1 switch out
  | n => f.place == .output n switch out

/-- The message at the head of a queue: class A first (R296). -/
def State.headOf (s : State) (q : Flight → Bool) : Option Flight :=
  (s.flights.find? (fun f => q f && f.classA)).or (s.flights.find? q)

/-- SWITCH_FORWARD (R295-R298): a queue sends its head where the next queue has room; an output queue of more than 12
class R messages marks what it forwards. -/
def State.forwardFrom (s : State) (stage switch out : Nat) : State :=
  match s.headOf (standsIn stage switch out) with
  | none => s
  | some f =>
    let next := s.nextPlace f
    let marks := !f.classA && (match f.place with
      | .output _ _ _ => decide (12 < (s.flights.filter (fun g => g.place == f.place && !g.classA)).length)
      | _ => false)
    if s.roomAt next f then s.moveFlight f { f with place := next, cm := f.cm || marks } else s

/-- A message that a home takes is answered on the reply butterfly, with CM copied into CMX (R298). A put piece that
was refused brings back no landing. -/
def answerFlight (f : Flight) (next : Place) (ok : Bool) : Flight :=
  let tag := match f.req.tag with
    | .put cl id => if ok then Tag.put cl id else .inc cl id
    | .tput e id => if ok then Tag.tput e id else .tinc e id
    | t => t
  { f with place := next, req := { f.req with tag := tag } }

/-- The landing of a message is counted: its put, or the row of its `put.t`, names a counter (R143, R238). -/
def State.counts (s : State) (f : Flight) : Bool :=
  match f.req.tag with
  | .put cl id => (s.cluster cl).putq.any (fun e => e.id == id && e.ctr.isSome)
  | .tput e id => (s.engine e).puts.any (fun p => p.id == id && p.ctr.isSome)
  | _ => false

/-- Some word that a request names is owned by a cluster. -/
def State.anyOwned (s : State) (r : Req) : Bool :=
  (List.range 8).any (fun w => r.words.getLsbD w && (s.ownerOf (r.line + 8 * w)).isSome)

/-- By what a request of a cluster was served (R349): 0 the slice cache, 1 memory, 2 an owner, 3 another socket; n is the free
value of its service. -/
def servedBy (cl : Nat) (r : Req) (owned : Bool) (n : Nat) : Nat :=
  if sockOf r.line ≠ cl / 64 then 3 else if owned then 2 else if Config.sliceHit n == 0#1 then 1 else 0

/-- The MISS event of the final reply to a request of a core, an engine or the copy engine (R349). -/
def State.missEvent (s : State) (a : Agent) (r : Req) (owned : Bool) (n : Nat) : State :=
  if 12 < a.sbit then s else
  s.event (efcOfCluster a.cl) 1 a.sbit (if a.exempt then 0 else a.tno) (placeOf a.origin) 0 (BitVec.ofNat 64 r.line)
    (BitVec.ofNat 64 ((Config.latency n).toNat + r.kind.code * 2 ^ 32 + servedBy a.cl r owned n * 2 ^ 35))

/-- The same of a performed message of an engine as its reply returns. -/
def State.missOf (s : State) (f : Flight) (sbit : Nat) : State :=
  match f.served with
  | none => s
  | some k =>
    let (n, s) := s.draw
    s.event (efcOfCluster (f.port / 8)) 1 sbit f.req.tno (placeOf f.req.origin) 0 (BitVec.ofNat 64 f.req.line)
      (BitVec.ofNat 64 ((Config.latency n).toNat + f.req.kind.code * 2 ^ 32 + k * 2 ^ 35))

/-- A home takes a message: it is served and answered, or at a proxy home sent on by a fabric port (R114, R117, R361). A
landed piece goes far by the window that stands then, once its counter has been incremented, at once where it has none
(R363, R378). -/
def State.takeFlight (s : State) (f : Flight) : State :=
  match s.nextPlace f with
  | .link k => s.moveFlight f { f with place := .link k }
  | next =>
    let served := servedBy (f.port / 8) f.req (s.anyOwned f.req) s.fresh
    let (t, ok) := s.serveLate { f.req with marked := f.cm }
    let go := f.far.or (if ok then t.farGo f.req else none)
    let later := f.far.isNone && s.counts f
    (if later then t else t.sendGo go).moveFlight f
      { answerFlight f next ok with served := if ok then some served else none, far := if later then go else none }

/-- A message is the oldest of those that wait with it for one home input queue or one fabric port: "it takes them in order
of arrival" (R15, R301, R361). -/
def State.oldestHere (s : State) (f : Flight) : Bool := (s.crowd f.place f).head? == some f

/-- The entry of a put loses one pending message; it is freed when all have ended (R290). -/
def State.putEnds (s : State) (cl id : Nat) : State :=
  s.modCluster cl (fun c =>
    let q := c.putq.map (fun e => if e.id = id then { e with pending := e.pending - 1 } else e)
    { c with putq := q.filter (fun e => !(e.id == id && e.pieces.isEmpty && e.pending == 0)) })

/-- The same of a row of a `put.t` (R238). -/
def State.tputEnds (s : State) (e id : Nat) : State :=
  s.modEngine e (fun x =>
    let q := x.puts.map (fun p => if p.id = id then { p with pending := p.pending - 1 } else p)
    { x with puts := q.filter (fun p => !(p.id == id && p.pieces.isEmpty && p.pending == 0)) })

/-- A piece of a row of a `put.t` has been acknowledged or dead-lettered (R289). -/
def State.tputAcked (s : State) (e id : Nat) : State :=
  s.modEngine e (fun x => { x with puts := x.puts.map (fun p => if p.id = id then { p with unacked := p.unacked - 1 } else p) })

/-- The agent of a put, and of a `put.t`. -/
def PutEntry.agent (e : PutEntry) (cl : Nat) : Agent :=
  { cl := cl, sbit := coreOf e.origin % 8, origin := e.origin, tno := e.tno, pc := e.pc, exempt := false }
def TilePut.agent (p : TilePut) (e : Nat) : Agent :=
  { cl := e / 4, sbit := 8 + e % 4, origin := p.origin, tno := p.tno, pc := p.pc, exempt := false }

/-- A message sent by a context or binding of a unit of a cluster: it waits at its port (R300). -/
def State.send (s : State) (cl unit sub : Nat) (r : Req) (far : Option FarGo) : State :=
  let f : Flight := { place := .waiting unit, sub := sub, classA := r.kind == .wb, cm := false, port := portAt cl r.line,
                      slice := sliceOf (s.entryHome (cl / 64) r.line), req := r, served := none, far := far }
  { s with flights := s.flights ++ [f] }

/-- PUT_LINE_LANDED: after a line has landed its bytes are added to the counter, as a release at the put's scope; a
put that names no counter has ended that line (R143, R290). -/
def State.putLanded (s : State) (cl id bytes : Nat) (far : Option FarGo) : State :=
  match (s.cluster cl).putq.find? (fun e => e.id == id) with
  | none => s
  | some e =>
    match e.ctr with
    | none => s.putEnds cl id
    | some c => s.send cl 14 0 (Req.increment (e.agent cl) c bytes e.scope (.inc cl id)) far

/-- The same of a piece of a `put.t` (R238). -/
def State.tputLanded (s : State) (e id bytes : Nat) (far : Option FarGo) : State :=
  match (s.engine e).puts.find? (fun p => p.id == id) with
  | none => s
  | some p =>
    match p.ctr with
    | none => s.tputEnds e id
    | some c => s.send (e / 4) (8 + e % 4) p.binding (Req.increment (p.agent e) c bytes p.scope (.tinc e id)) far

/-- What the end of a message means to the unit that sent it: a landing is reported, and any other end, that of an increment or
of a piece that was refused, frees its place (R289, R290). The increment of an engine raises MISS (R349). -/
def State.messageEnds (s : State) (f : Flight) : State :=
  match f.req.tag with
  | .none => s
  | .put cl id => s.putLanded cl id (popBits f.req.mask.toNat 64) f.far
  | .inc cl id => s.putEnds cl id
  | .tput e id => (s.tputAcked e id).tputLanded e id (popBits f.req.mask.toNat 64) f.far
  | .tinc e id => (if f.req.kind == .putLine then s.tputAcked e id else s.missOf f (8 + e % 4)).tputEnds e id

/-- ENDING_REPLY: the oldest reply at a port ends its request, if it has the given mark (R290, R299). -/
def State.endingReply (s : State) (port : Nat) (cmx : Bool) : State :=
  match s.flights.find? (fun f => f.port == port && f.place == .reply) with
  | none => s
  | some f =>
    if f.cm != cmx then s
    else
      let s := { s with flights := s.flights.erase f }
      (if f.classA then s else s.replyEnds port cmx).messageEnds f

/-- The happening that carries a message on: its admission, a forwarding, its home's service, or the end of its
request. -/
def State.carryOn (s : State) (f : Flight) : State :=
  match f.place with
  | .waiting _ => if f.classA then s.forwardFrom 0 f.port 0 else s.admission f.port
  | .output stage sw out => s.forwardFrom stage sw out
  | .home => match (s.crowd f.place f).head? with
    | some g => s.takeFlight g
    | none => s
  | .link _ => match (s.crowd f.place f).head? with
    | some g => s.takeFlight g
    | none => s
  | .back stage sw out => s.forwardFrom (7 - stage) sw out
  | .reply => match s.flights.find? (fun g => g.port == f.port && g.place == .reply) with
    | some g => s.endingReply f.port g.cm
    | none => s

/-- The network carries a message on by one place; where the next place is full, the message that heads it (R298). -/
def State.nudge (s : State) : Nat → Flight → State
  | 0, _ => s
  | n + 1, f =>
    if f.place == .reply || s.roomAt (s.nextPlace f) f then s.carryOn f
    else match (s.crowd (s.nextPlace f) f).head? with
      | some g => s.nudge n g
      | none => s

/-- A message stands on the path of another from a port to a slice port and back, or ahead of it for another socket. -/
def onPath (port slice : Nat) (link : Option Nat) (f : Flight) : Bool :=
  match f.place with
  | .waiting _ => f.classA && f.port == port
  | .home => f.slice == slice && f.port / 512 == port / 512
  | .link k => link == some k
  | .reply => f.port == port
  | p => p == stage1 port slice || p == stage2 port slice || p == stage3 port slice || p == back3 port slice ||
      p == back2 port slice || p == back1 port

/-- A class R message that a port has admitted and whose request has not ended. -/
def outstanding (port : Nat) (f : Flight) : Bool :=
  f.port == port && !f.classA && (match f.place with | .waiting _ => false | _ => true)

/-- What a message still waits for: another on its path, or, where it is a request, room in the window of its port. -/
def State.obstacle (s : State) (port slice : Nat) (link : Option Nat) (request : Bool) : Option Flight :=
  (s.flights.find? (onPath port slice link)).or
    (if request && (s.port port).w ≤ (s.port port).out then s.flights.find? (outstanding port) else none)

/-- The network carries messages on until a message has a free path. -/
def clearPath (port slice : Nat) (link : Option Nat) (request : Bool) : Nat → State → State
  | 0, s => s
  | n + 1, s =>
    match s.obstacle port slice link request with
    | none => s
    | some f => clearPath port slice link request n (s.nudge 8 f)

/-- Happenings that suffice to bring every message home and back. -/
def State.haste (s : State) : Nat := 64 * (s.flights.length + 1)

/-- How many turns lie before that of a unit, and within it of a context or binding, at a port (R300). -/
def State.turnsBefore (s : State) (port unit sub : Nat) : Nat :=
  let p := s.port port
  8 * ((unit + 15 - p.turn) % 15) + (sub % 8 + 8 - tget p.within unit 0 % 8) % 8

/-- The requests that wait and whose turns come before another's are admitted before it, one request a turn; of one context
or binding the older goes first (R300). -/
def takeTurns (port slice : Nat) (link : Option Nat) (unit sub : Nat) : Nat → State → State
  | 0, s => s
  | n + 1, s =>
    match s.nextAdmission port with
    | none => s
    | some f =>
      if s.turnsBefore port f.unit f.sub ≤ s.turnsBefore port unit sub then
        let s := s.admission port
        takeTurns port slice link unit sub n (clearPath port slice link true s.haste s)
      else s

/-- The slice port that a message of a cluster for an address goes to, and the fabric port for another socket (R297, R361). -/
def State.wayOf (s : State) (cl pa : Nat) : Nat × Option Nat :=
  (sliceOf (s.entryHome (cl / 64) pa), if sockOf pa = cl / 64 then none else s.coherentPort (cl / 64) pa)

/-- A request of a unit takes its turn at a port and is admitted with a free path before it (R296-R301). -/
def State.approach (s : State) (a : Agent) (pa : Nat) : State :=
  let port := portAt a.cl pa
  let (slice, link) := s.wayOf a.cl pa
  let s := if s.flights.isEmpty then s
    else takeTurns port slice link a.sbit (s.subOf a) s.haste (clearPath port slice link true s.haste s)
  s.occupy port a.sbit (s.subOf a)

/-- A class A message of a cluster arrives at its home: it is not windowed, and what stands on its path goes before it
(R296, R299, R301). -/
def State.arrive (s : State) (cl pa : Nat) : State :=
  if s.flights.isEmpty then s
  else
    let (slice, link) := s.wayOf cl pa
    clearPath (portAt cl pa) slice link false s.haste s

end Sys2Proof.Machine
end

