-- ==== Sys2Proof/Machine/Coherence.lean ====
section
/-! DEFINITION. The cluster side of every access: what each policy does with the words the cluster holds and which
requests it sends (spec/04 R102-R105), evictions, drains, acquires and releases (R105, R106), and the port a request
takes (spec/11 R297-R299). -/

namespace Sys2Proof.Machine

/-- A word of a cluster that a request of the cluster carries with it and the home performs before the request's own
bytes: an owned word is written unchecked, buffered bytes are checked under the tenant recorded for them, and refused
ones dead-lettered (KIND 6). The cluster's copy is I. Answers whether what was carried was performed (R102, R119, R128); a
home of a lost socket performs nothing (R362). -/
def State.carry (s : State) (a : Agent) (pa : Nat) : State × Bool :=
  let pa := wordOf pa
  let s := s.mend a.cl pa
  let x := s.clWord a.cl pa
  let clear := fun (s : State) => s.modDir (lineOf pa) (fun e => { e with pmk := none })
  let lost := x.bad || !s.joined (a.cl / 64) (sockOf pa)
  match x.st with
  | .o =>
    if lost then ((s.loseWord a.cl pa).lostWord a.cl 0 pa, false)
    else (clear ((s.loseWord a.cl pa).putWord pa x.data 255#8), true)
  | .b =>
    let s := s.dropClWord a.cl pa
    if lost then (s.lostWord a.cl 1 pa x, false)
    else
      let s := s.fotFill pa
      if s.frameCheck .wrS false false x.tno pa then
        (clear (((s.recallWord pa).putWord pa x.data x.mask).invalidateWord pa (some a.cl)), true)
      else
        (s.deadLetter (sockOf pa)
          { kind := 6, tno := x.tno, fote := s.fotEntry pa, origin := x.origin, pc := x.pc, pa := wordOf pa,
            mask := x.mask.setWidth 64 <<< (8 * wordIx pa), ctr := 0, copyRec := 0 }, false)
  | _ => (s, true)

/-- A request of a cluster that its port has admitted, at the home and back, with what it carries of a word (R102, R299).
Answers with the reply whether what was carried was performed. -/
def requestWith (a : Agent) (r : Req) (pa : Option Nat) : Mem ((Vec × BitVec 8) × Bool) := do
  let p := portAt a.cl r.line
  let owned := (← get).anyOwned r
  let ok ← (match pa with
    | some pa => do
      let (s, ok) := (← get).carry a pa
      set s
      pure ok
    | none => pure true)
  let n := (← get).fresh
  match (serve r) (← get) with
  | .ok v s => do
    set ((s.replyEnds p false).missEvent a r owned n)
    pure (v, ok)
  | .error e s => do
    set (s.replyEnds p false)
    throw e

/-- A request of a cluster that carries nothing. -/
def request (a : Agent) (r : Req) : Mem (Vec × BitVec 8) := do
  let x ← requestWith a r none
  pure x.1

/-- A request for a device page: it goes to the page's home, by its port and, for another socket, through the proxy home,
and counts there (R110, R111, R297, R331, R349). It raises HOMEREQ as any request does, and no MISS, since no cache holds device
space (DESIGN CHOICE, log 42). -/
def State.visit (s : State) (a : Agent) (kind : ReqKind) (pa : Nat) : State :=
  let s := s.approach a pa
  let h := s.homeOf pa
  let tno := if a.exempt then 0#12 else a.tno
  let s := (s.countMem h tno 0).event (efcOfHome h) 9 (homeBit h) tno (placeOf a.origin) 0 (BitVec.ofNat 64 (lineOf pa))
    (BitVec.ofNat 64 kind.code)
  s.replyEnds (portAt a.cl pa) false

/-- The write-back of words of a line (R119, R163); it is exempt from the Frame Ownership Table check (R312). -/
def Req.back (a : Agent) (line : Nat) (words : BitVec 8) (data : Vec) (keep : Bool) : Req :=
  { Req.blank a .wb line with words := words, data := data, keep := keep, exempt := true }

/-- A write-back of an owned word that its instruction waits for: a class A message, which needs no admission and arrives
after what stands on its path (R105, R119, R163, R296, R299, R301). A word with an uncorrectable error is not written
(R128). -/
def State.writeBack (s : State) (a : Agent) (pa : Nat) (keep : Bool) (place : Nat) : State :=
  if (s.clWord a.cl pa).st ≠ .o then s
  else
    let s := (s.arrive a.cl pa).mend a.cl pa
    let x := s.clWord a.cl pa
    if x.st ≠ .o then s
    else if x.bad then (s.loseWord a.cl pa).lostWord a.cl place pa
    else
      let s := if keep then s.setClWord a.cl pa { x with st := .t } else s.dropClWord a.cl pa
      (s.serveLate (Req.back a (lineOf pa) (oneWord pa) (x.data.setWidth 512 <<< (64 * wordIx pa)) keep)).1

/-- A drain of a buffered word by WrS under the tenant recorded for it; it becomes U after a full mask where that is asked
for and the home has performed it, else I (R102, R105, R156). A counter in it is read again for its waiters, and tracked from
then on (R321). -/
def State.drainWord (s : State) (a : Agent) (pa : Nat) (toU : Bool) (rel : Option Scope) (place : Nat) : State :=
  if (s.clWord a.cl pa).st ≠ .b then s
  else
    let s := s.mend a.cl pa
    let x := s.clWord a.cl pa
    if x.bad then ((s.dropClWord a.cl pa).markRecheck a.cl (lineOf pa)).lostWord a.cl place pa x
    else
      let s := s.dropClWord a.cl pa
      let b : Agent := { a with tno := x.tno, origin := x.origin, pc := x.pc, exempt := false }
      let r := { Req.write b .wrS pa x.data x.mask with rel := rel.or x.rel }
      let s := s.approach a pa
      let owned := s.anyOwned r
      let n := s.fresh
      let (s, ok) := s.serveLate r
      let s := (s.replyEnds (portAt a.cl pa) false).markRecheck a.cl (lineOf pa)
      if ok then
        let s := s.missEvent b r owned n
        if toU && x.mask = 255#8 then s.setClWord a.cl pa { CacheWord.absent with st := .u, data := x.data } else s
      else s

/-- The write-back of every owned word of a line that leaves the cluster cache: it is sent, and the line is not held while
it is on its way (R105, R123, R296). A word with an uncorrectable error, or of a lost socket, is not written (R128, R362). -/
def State.sendBack (s : State) (a : Agent) (line : Nat) : State :=
  let ws := (List.range 8).filter (fun w => (s.clWord a.cl (line + 8 * w)).st == .o)
  let gone := fun w => (s.clWord a.cl (line + 8 * w)).bad || !s.joined (a.cl / 64) (sockOf line)
  let s' := ws.foldl (fun t w =>
    if gone w then (t.loseWord a.cl (line + 8 * w)).lostWord a.cl 2 (line + 8 * w)
    else (t.mend a.cl (line + 8 * w)).dropClWord a.cl (line + 8 * w)) s
  let good := ws.filter (fun w => !gone w)
  if good.isEmpty then s'
  else s'.send a.cl a.sbit (s.subOf a) (Req.back a line
    (BitVec.ofNat 8 ((good.map (fun w => 2 ^ w)).foldl (· + ·) 0))
    (vecOfWords ((List.range 8).map (fun w => (s.clWord a.cl (line + 8 * w)).data))) false) none

/-- Eviction of a line from the cluster cache: O words are written back, B words drained, T and U dropped (R105). -/
def State.evictLine (s : State) (a : Agent) (line : Nat) : State :=
  let s := (List.range 8).foldl (fun s w => s.drainWord a (line + 8 * w) false none 2) (s.sendBack a line)
  s.modCluster a.cl (fun c => { c with clc := tdel c.clc line })

/-- A way of its set is free for a line that is not held: TCB lines take way 15 and nothing else does; a free value names the
line that leaves a full set of ways 0-14, among the unmarked ones where there are any (R33, R99, R105, R165). -/
def State.vacate (s : State) (a : Agent) (line : Nat) : State :=
  let c := s.cluster a.cl
  match tfind c.clc line with
  | some _ => s
  | none =>
    let mates := c.clc.filter (fun e => e.2.way15 == a.tcc && e.1 / 64 % 16384 == line / 64 % 16384)
    if a.tcc then mates.foldl (fun s e => s.evictLine a e.1) s
    else if mates.length < 15 then s
    else
      let free := mates.filter (fun e => e.2.mark.isNone)
      let pick := if free.isEmpty then mates else free
      let (n, s) := s.draw
      match pick[(Config.victim n).toNat % pick.length]? with
      | some e => s.evictLine a e.1
      | none => s

/-- Room for a line in its set; a TCB line stands in way 15 (R33, R99). -/
def State.makeRoom (s : State) (a : Agent) (line : Nat) : State :=
  match tfind (s.cluster a.cl).clc line with
  | some _ => s
  | none =>
    let s := s.vacate a line
    if a.tcc then s.modCluster a.cl (fun c => { c with clc := tset c.clc line { CacheLine.absent with way15 := true } }) else s

/-- An access that needs its home gets that far first: a way is free where the line will be held, and the request's port has
admitted it. The network carries other messages on meanwhile, and what they do to the cluster's words is done: the access goes
on by the word as it stands now, which is the answer (R104, R105, R137, R299). -/
def ready (a : Agent) (pa : Nat) (room : Bool) : Mem CacheWord := fun s =>
  let s := (if room then s.vacate a (lineOf pa) else s).approach a (lineOf pa)
  .ok (s.clWord a.cl pa) s

/-- A fill installed: each valid word replaces a copy in I, T or U; an invalid word's copy becomes I; O and B stay
(R101, R118, R134). The words named take the state given, others too where the fill is tracked. -/
def State.install (s : State) (a : Agent) (line : Nat) (fill : Vec × BitVec 8) (st : WordState) : State :=
  let s := s.makeRoom a line
  let s := if st = .u then s.modCluster a.cl (fun c => { c with filledU := true }) else s
  (List.range 8).foldl (fun s w =>
    let pa := line + 8 * w
    let x := s.clWord a.cl pa
    if x.st = .o ∨ x.st = .b then s
    else if fill.2.getLsbD w then
      s.setClWord a.cl pa { CacheWord.absent with st := if x.st = .t then .t else st, data := lineWord fill.1 w }
    else s.dropClWord a.cl pa) s

/-- What the check code of a cached word does before its use: a clean copy with an uncorrectable error is discarded, a
single-bit error corrected and counted (R126, R128). -/
def State.scrub (s : State) (cl pa : Nat) : State :=
  let x := s.clWord cl pa
  if x.bad ∧ (x.st = .t ∨ x.st = .u) then s.dropClWord cl pa else s.mend cl pa

/-- A word of a fill. -/
def fillWord (f : Vec × BitVec 8) (pa : Nat) : Word := lineWord f.1 (wordIx pa)

/-- A read of the word that holds an address, as its cluster performs it (R101, R102, R104). -/
def clRead (a : Agent) (pol : Pol) (pa : Nat) (acq : Option Scope) : Mem Word := do
  modify (fun s => s.scrub a.cl pa)
  let x := (← get).clWord a.cl pa
  let ask := fun kind => { Req.blank a kind (lineOf pa) with words := oneWord pa, acq := acq }
  let fill := fun kind st => do
    let x ← ready a pa true
    let f ← request a (ask kind)
    modify (fun s => s.install a (lineOf pa) f st)
    pure (if x.st = .b then mergeWord (fillWord f pa) x.data x.mask else fillWord f pa)
  let through := do
    let x ← ready a pa false
    let f ← request a (ask .rdW)
    modify (fun s => if x.st = .t ∨ x.st = .u then s.setClWord a.cl pa { x with data := fillWord f pa } else s)
    pure (fillWord f pa)
  match x.st with
  | .o =>
    if x.bad then do
      modify (fun s => s.loseWord a.cl pa)
      throw (.error (wordOf pa))
    else pure x.data
  | .b =>
    if x.bad then do
      modify (fun s => s.dropClWord a.cl pa)
      throw (.error (wordOf pa))
    else if x.mask = 255#8 then pure x.data
    else fill .rdU .u
  | .t =>
    match pol with
    | .wt => through
    | _ => pure x.data
  | .u =>
    match pol with
    | .own => fill .rdT .t
    | .wis => fill .rdT .t
    | .sis => pure x.data
    | .wt => through
  | .i =>
    match pol with
    | .own => fill .rdT .t
    | .wis => fill .rdT .t
    | .sis => fill .rdU .u
    | .wt => through

/-- The word made owned: by Own where it is not, its buffered bytes carried with it (R102, R104). -/
def obtain (a : Agent) (pa : Nat) : Mem Word := do
  modify (fun s => s.scrub a.cl pa)
  let x := (← get).clWord a.cl pa
  if x.st = .o then
    if x.bad then do
      modify (fun s => s.loseWord a.cl pa)
      throw (.error (wordOf pa))
    else pure x.data
  else do
    let _ ← ready a pa true
    let f ← requestWith a { Req.blank a .own (lineOf pa) with words := oneWord pa } (some pa)
    modify (fun s => (s.makeRoom a (lineOf pa)).setClWord a.cl pa
      { CacheWord.absent with st := .o, data := fillWord f.1 pa })
    pure (fillWord f.1 pa)

/-- The word made owned for a write of all its bytes, which reads nothing: an error in the old value stops nothing
(R127, R239). -/
def obtainWhole (a : Agent) (pa : Nat) : Mem Unit := fun s =>
  match obtain a pa s with
  | .ok _ s => .ok () s
  | .error (.error e) s =>
    if s.joined (a.cl / 64) (sockOf pa) then
      .ok () (((s.invalidateWord pa (some a.cl)).track (lineOf pa) a.cl).setOwner pa a.cl)
    else .error (.error e) s
  | .error e s => .error e s

/-- A buffered word after a `.sis` store of its tenant: the bytes merge, and the release that one of its stores was stays
with it until the drain; an error stays unless every byte is written anew (R102, R104, R128, R149). -/
def CacheWord.buffer (x : CacheWord) (a : Agent) (data : Word) (mask : BitVec 8) (rel : Option Scope) : CacheWord :=
  { st := .b, data := mergeWord x.data data mask, mask := x.mask ||| mask, tno := a.tno, origin := a.origin, pc := a.pc,
    rel := rel.or x.rel, single := false, bad := x.bad && mask != 255#8 }

/-- A write of bytes of the word that holds an address, as its cluster performs it (R102, R104). A B word whose mask a .wis store
makes full is I, and not T, where the home has refused the carried bytes, which a T copy would go on showing (R138; DESIGN CHOICE,
log 42). -/
def clWrite (a : Agent) (pol : Pol) (pa : Nat) (data : Word) (mask : BitVec 8) (rel : Option Scope) : Mem Unit := do
  modify (fun s => s.scrub a.cl pa)
  let x := (← get).clWord a.cl pa
  let line := lineOf pa
  match pol with
  | .own =>
    if mask = 255#8 then do
      obtainWhole a pa
      modify (fun s => (s.makeRoom a line).setClWord a.cl pa { CacheWord.absent with st := .o, data := data })
    else do
      let v ← obtain a pa
      modify (fun s => s.setClWord a.cl pa { CacheWord.absent with st := .o, data := mergeWord v data mask })
  | .wis => do
    let x ← ready a pa false
    let full := x.st = .b ∧ (x.mask ||| mask) = 255#8
    let f ← requestWith a { Req.write a .wrT pa data mask with rel := rel } (some pa)
    if f.2 = true ∧ (x.st = .t ∨ x.st = .u ∨ x.st = .o ∨ full) then
      modify (fun s => (s.makeRoom a line).setClWord a.cl pa
        { CacheWord.absent with st := .t, data := mergeWord x.data data mask })
  | .sis =>
    match x.st with
    | .o => modify (fun s => s.setClWord a.cl pa { x with data := mergeWord x.data data mask, bad := x.bad && mask != 255#8 })
    | .b => do
      if x.tno ≠ a.tno then modify (fun s => s.drainWord a pa false none 1)
      let y := if x.tno = a.tno then x else CacheWord.absent
      modify (fun s => (s.makeRoom a line).setClWord a.cl pa (y.buffer a data mask rel))
    | _ => modify (fun s => (s.makeRoom a line).setClWord a.cl pa (CacheWord.absent.buffer a data mask rel))
  | .wt => do
    let x ← ready a pa false
    let _ ← requestWith a { Req.write a .wrW pa data mask with rel := rel } (some pa)
    if x.st = .t ∨ x.st = .u then
      modify (fun s => s.setClWord a.cl pa { x with data := mergeWord x.data data mask })
  modify (fun s => s.markRecheck a.cl line)

/-- An atomic on n bytes at an address, in the owning cluster under .own and at the home under any other policy
(R104, R120, R161); one that the home refuses changes no word's state (R156). Answers the old bytes. -/
def clAtomic (a : Agent) (pol : Pol) (op : AmoOp) (pa n : Nat) (x cmp : Word) (acq rel : Option Scope) : Mem Word := do
  match pol with
  | .own => do
    let v ← obtain a pa
    let (o, new) := operateWord op pa n v x cmp
    modify (fun s => (s.setClWord a.cl pa { CacheWord.absent with st := .o, data := new }).markRecheck a.cl (lineOf pa))
    pure o
  | _ => do
    modify (fun s => s.scrub a.cl pa)
    let _ ← ready a pa false
    let f ← requestWith a { Req.blank a .atH (lineOf pa) with
      words := oneWord pa, op := op, addr := pa, size := n, x := x, cmp := cmp, acq := acq, rel := rel } (some pa)
    modify (fun s => (s.dropClWord a.cl pa).markRecheck a.cl (lineOf pa))
    pure (lineWord f.1.1 0)

/-- The addresses of the words of a cluster that satisfy a test, ascending. -/
def State.wordsWhere (s : State) (cl : Nat) (p : CacheWord → Bool) : List Nat :=
  (s.cluster cl).clc.flatMap (fun e => (e.2.words.filter (fun w => p w.2)).map (fun w => e.1 + 8 * w.1))

/-- A release at .pkg or .sys: every word in B is drained (R105, R141). -/
def State.drainAll (s : State) (a : Agent) (sc : Scope) : State :=
  (s.wordsWhere a.cl (fun w => w.st == .b)).foldl (fun s pa => s.drainWord a pa true (some sc) 1) s

/-- An acquire at .pkg or .sys: every U word becomes I (R105). -/
def State.discardU (s : State) (cl : Nat) : State :=
  let s := (s.wordsWhere cl (fun w => w.st == .u)).foldl (fun s pa => s.dropClWord cl pa) s
  s.modCluster cl (fun c => { c with filledU := false })

/-- The cluster's part of an acquire (R105, R137). -/
def State.acquireAt (s : State) (cl : Nat) (sc : Scope) : State :=
  match sc with
  | .pkg => s.discardU cl
  | .sys => s.discardU cl
  | _ => s

/-- The n bytes at an address, eight or fewer in one word, as a little-endian value (R122). -/
def readBytes (a : Agent) (pol : Pol) (pa n : Nat) (acq : Option Scope) : Mem Word := do
  let w ← clRead a pol pa acq
  pure (BitVec.ofNat 64 (subWord w (pa % 8) n))

/-- n bytes written at an address within one word (R122). -/
def writeBytes (a : Agent) (pol : Pol) (pa n : Nat) (x : Word) (rel : Option Scope) : Mem Unit :=
  clWrite a pol pa (alignWord x (pa % 8)) (maskOf (pa % 8) n) rel

/-- A run of bytes cut where words end: address and length of each part within a word. -/
def wordParts : Nat → Nat → Nat → List (Nat × Nat)
  | 0, _, _ => []
  | fuel + 1, pa, n =>
    if n = 0 then []
    else
      let k := min n (8 - pa % 8)
      (pa, k) :: wordParts fuel (pa + k) (n - k)

/-- A run of bytes read as loads, ascending. -/
def readRun (a : Agent) (pol : Pol) (pa n : Nat) : Mem (List (BitVec 8)) := do
  let parts ← (wordParts (n + 1) pa n).mapM (fun p => do
    let x ← readBytes a pol p.1 p.2 none
    pure (leBytes x.toNat p.2))
  pure parts.flatten

/-- A word of memory as a unit of a cluster sees it: its cluster's own value where it holds one (R102). -/
def State.unitWord (s : State) (cl pa : Nat) : Word :=
  let x := s.clWord cl pa
  match x.st with
  | .o => x.data
  | .b => mergeWord (s.peekWord pa) x.data x.mask
  | _ => s.peekWord pa

/-- The agent of a cluster's unit whose traffic is exempt (R312), by its source bit; it concerns no context (R348), and the
dispatcher's lines are TCB lines (R33). -/
def Agent.unit (cl sbit : Nat) : Agent :=
  { cl := cl, sbit := sbit, origin := 0, tno := 0, pc := 0, exempt := true, tcc := sbit == 13 }

/-- The owner of a word holds it with an uncorrectable error, which a downgrade for its reader will meet (R128). -/
def State.ownerFaulty (s : State) (pa : Nat) : Bool :=
  match s.ownerOf pa with
  | some c => (s.clWord c pa).st == .o && (s.clWord c pa).bad
  | none => false

/-- Words that a unit of a cluster reads as `.own` loads: RdT, and a tracked copy stays (R20, R107). Answers the address of
the first in which an uncorrectable error is found: in its memory, or in the cache that owned it (R40, R127, R128). -/
def readUnit (cl sbit : Nat) : List Nat → State → State × Option Nat
  | [], s => (s, none)
  | pa :: rest, s =>
    match clRead (Agent.unit cl sbit) .own pa none s with
    | .ok _ t => if s.ownerFaulty pa then (t, some (wordOf pa)) else readUnit cl sbit rest t
    | .error _ t => (t, some (wordOf pa))

/-- A word that a unit of a cluster writes as an `.own` store: the cluster owns the word afterwards (R20, R33, R107,
R174). -/
def State.writeUnit (s : State) (cl sbit pa : Nat) (x : Word) : State :=
  match clWrite (Agent.unit cl sbit) .own pa x 255#8 none s with
  | .ok _ s => s
  | .error _ s => s

/-- A word that the dispatcher writes. -/
def State.setUnitWord (s : State) (cl pa : Nat) (x : Word) : State := s.writeUnit cl 13 pa x

end Sys2Proof.Machine
end

