-- ==== Sys2Proof/Machine/Ops.lean ====
section
/-! DEFINITION. The shared operations of every instruction: retirement with its breakpoint and watchpoint checks
(spec/14 R376), parking (spec/01 R26, R27), taking a fault or trap (spec/10 R256-R262) and the return from one
(R266, R267), debug stops and resumes (spec/14 R375), and the computations that can end in a stop. -/

namespace Sys2Proof.Machine

/-- What stops an instruction that would retire: a breakpoint, or a watchpoint that an access matches (R376). -/
inductive Match where
  | brk
  | watch (a : Acc)
  deriving DecidableEq, Repr

/-- How an instruction that does not retire ends: a fault or trap, a park, a wait in place, or a match. -/
inductive Stop where
  | trap (t : Trap)
  | park (r : Reason)
  | hold (w : Stall)
  | hit (m : Match)
  deriving DecidableEq, Repr

/-- Computations of an instruction. -/
abbrev Act (α : Type) := EStateM Stop State α

/-- What one step answers. -/
abbrev Answer := Host.Outcome State Fault Refusal

/-- Codes of the park reasons (R21). -/
def Reason.code : Reason → Nat
  | .fault => 1 | .tilebind => 2 | .cwait => 3 | .trap => 4 | .stop => 5

/-- Codes of the trap causes (R260). -/
def Cause.code : Cause → Nat
  | .illegal => 1 | .misaligned => 2 | .pageNotPresent => 3 | .protection => 4 | .policyDenied => 5
  | .frameOwner => 6 | .memoryError => 7 | .sparseMeta => 8 | .formatTag => 9 | .scaleReserved => 10
  | .versionRetry => 11 | .breakpoint => 12 | .svc => 13

/-- The park reason of a cause (R260). -/
def Cause.reason : Cause → Reason
  | .breakpoint => .trap
  | .svc => .trap
  | _ => .fault

/-- TRAPINFO2 of an access (R257). -/
def detailOf (kind pol : Nat) (unbacked device walk : Bool) (level lane : Nat) : BitVec 20 :=
  BitVec.ofNat 20 (kind + pol * 2 ^ 2 + (if unbacked then 2 ^ 4 else 0) + (if device then 2 ^ 5 else 0) +
    (if walk then 2 ^ 6 else 0) + level * 2 ^ 7 + lane * 2 ^ 10)

/-- A trap whose TRAPINFO3 is 0. -/
def Trap.of (c : Cause) (va : Word) (d : BitVec 20) : Trap := { cause := c, va := va, detail := d, tile := 0 }

/-- PROTECTION with LIMIT and the refused value (R257). -/
def Trap.limit (x : Word) : Trap := Trap.of .protection x (BitVec.ofNat 20 (2 ^ 18))

/-- PROTECTION with SUPV; TRAPVA holds the PC (R257, R260). -/
def Trap.supv (pc : Word) : Trap := Trap.of .protection pc (BitVec.ofNat 20 (2 ^ 19))

/-- The SUPV PROTECTION of an access to a register that X7 alone may access: TRAPVA holds the PC, as R260's table gives for
PROTECTION with SUPV where R195 names the address for a PROTECTION of a load in general, and the detail keeps the fields of the
access, DEVICE among them (R257; DEDUCED, log 42). -/
def Trap.supvAccess (pc : Word) (kind pol : Nat) : Trap :=
  Trap.of .protection pc (detailOf kind pol false true false 0 0 ||| BitVec.ofNat 20 (2 ^ 19))

/-- ILLEGAL_INSTRUCTION at a PC (R91, R260). -/
def Trap.illegal (pc : Word) : Trap := Trap.of .illegal pc 0

/-- A field of a TCB that the dispatcher writes (R20, R276). -/
def State.setTcb (s : State) (cl tcb off : Nat) (x : Word) : State := s.setUnitWord cl (tcb + off) x

/-- A field of a TCB. -/
def State.tcbWord (s : State) (cl tcb off : Nat) : Word := s.unitWord cl (tcb + off)

/-- TSTATE written with a state and reason (R21). -/
def State.setTstate (s : State) (cl tcb st reason : Nat) : State :=
  s.setTcb cl tcb 0xC00 (BitVec.ofNat 64 (st + reason * 256))

/-- The tile instruction of a context leaves its engine. -/
def Engine.forget (x : Engine) (c : Nat) : Engine :=
  { x with issue := x.issue.filter (fun i => i.ctx != c), running := if x.running.any (fun i => i.ctx == c) then none else x.running,
           waiting := x.waiting.filter (· != c) }

/-- An engine holds a tile instruction of a context. -/
def Engine.holds (x : Engine) (c : Nat) : Bool :=
  x.issue.any (fun i => i.ctx == c) || x.running.any (fun i => i.ctx == c) || x.waiting.contains c

/-- The waiting put and copy of a context leave their queues' lines. -/
def Cluster.forget (x : Cluster) (c : Nat) : Cluster :=
  { x with putWait := x.putWait.filter (· != c), copyWait := x.copyWait.filter (· != c) }

/-- The unretired instruction of a context that stands in an issue queue, runs in an engine or waits for a place in a queue
is squashed (R288). -/
def State.squash (s : State) (c : Nat) : State :=
  let s := if s.engines.any (fun e => e.2.holds c) then { s with engines := tmap (fun _ x => x.forget c) s.engines } else s
  let x := s.cluster (clusterOf c)
  if x.putWait.contains c || x.copyWait.contains c then s.modCluster (clusterOf c) (fun x => x.forget c) else s

/-- The instruction in turn of a context waits in place, with its words (R338). -/
def Context.waits (x : Context) (w : Stall) (w0 w1 : BitVec 32) : Context := { x with stall := w, iw0 := w0, iw1 := w1 }

/-- A context parks: PC stays at the parking instruction, the reason stands in CTXSTAT and TSTATE, and the dispatcher
reports it (R21, R26, R34). -/
def State.park (s : State) (c : Nat) (r : Reason) (cause : Nat) : State :=
  let x := s.ctx c
  let s := s.squash c
  let s := s.modCtx c (fun x => { x with life := .parked r, stall := .none, attempt := 0, inwfm := false, held := none })
  if isX7 c then s
  else
    let s := if x.tcb = 0 then s else s.setTstate (clusterOf c) x.tcb 3 r.code
    s.dispatchEvent (clusterOf c) 3 x.tcb x.tno (placeOf c) r.code cause

/-- A parked context returns to the rotation at its PC (R28). TSTATE stays as of its placement or park (R21). The
"wake" of R34 is that of a satisfied wait, a sleeper or `twake`: whether `tret`, `tredir`, a debug resume and a binding
raise one too the spec leaves open, and here they raise none (DESIGN CHOICE, log 43). -/
def State.unpark (s : State) (c : Nat) : State := s.modCtx c (fun x => { x with life := .running, pfault := none })

/-- The trap registers that a fault or trap writes: TRAPCAUSE, TRAPVA and TRAPINFO0-3, the last two words of the
instruction among them (R256, R257). -/
def Context.trapRegs (x : Context) (t : Trap) (w0 w1 : BitVec 32) : Context :=
  { x with cause := BitVec.ofNat 8 t.cause.code, trapva := t.va, info0 := w0, info1 := w1, info2 := t.detail,
           info3 := t.tile }

/-- The trap record of a context that parked FAULT or TRAP (R261). -/
def trapRecord (c : Nat) (x : Context) (t : Trap) : Quad :=
  { w0 := BitVec.ofNat 64 (1 + c % 8 * 16 + t.cause.code * 256 + t.cause.reason.code * 2 ^ 16), w1 := x.pc,
    w2 := t.va, w3 := t.detail.setWidth 64 }

/-- TAKING A FAULT OR TRAP, the one operation. A user context parks with its own trap registers written and a trap
record on its way to X7 (R26, R261). X7 with NEST clear saves its PC in SVEPC, sets NEST and continues at SVEC; with
NEST set it parks STOP (R262). -/
def State.takeTrap (s : State) (c : Nat) (t : Trap) (w0 w1 : BitVec 32) : State :=
  let x := s.ctx c
  let s := s.modCtx c (fun x => { x.trapRegs t w0 w1 with stall := .none, attempt := 0 })
  if isX7 c then
    let k := s.core (coreOf c)
    if k.nest then s.park c .stop 0
    else
      ((s.squash c).modCore (coreOf c) (fun k => { k with svepc := x.pc, nest := true })).modCtx c (fun y => { y with pc := pcOf k.svec })
  else
    (s.park c t.cause.reason t.cause.code).enterTrap (coreOf c) c (trapRecord c x t)

/-- A breakpoint or watchpoint match, or a `brk`: STOP where the debug port has claimed the context, else BREAKPOINT
(R263, R375, R376). -/
def State.takeBreak (s : State) (c : Nat) (t : Trap) (w0 w1 : BitVec 32) : State :=
  if (s.core (coreOf c)).claim.getLsbD (c % 8) then s.park c .stop 0 else s.takeTrap c t w0 w1

/-- RETURN FROM A TRAP, the one operation: a context parked FAULT or TRAP goes on at a given PC, or parks STOP when a
debug stop is pending (R40, R266, R267). -/
def State.returnTo (s : State) (c : Nat) (pc : Word) : State :=
  let s := s.modCtx c (fun x => { x with pc := pcOf pc })
  if (s.ctx c).pstop then (s.modCtx c (fun x => { x with pstop := false })).park c .stop 0
  else s.unpark c

/-- The thread before another in a list. -/
def before (tcb : Nat) : List Nat → Option Nat
  | a :: b :: rest => if b = tcb then some a else before tcb (b :: rest)
  | _ => none

/-- A TCB leaves a list that NEXT links: the TCB before it takes its NEXT (R276, R279, R322). -/
def State.relink (s : State) (cl : Nat) (l : List Nat) (tcb : Nat) : State :=
  match before tcb l with
  | some a => s.setTcb cl a 0xC30 (s.tcbWord cl tcb 0xC30)
  | none => s

/-- The wait-table entries and overflow place of a context's `cwait` are given up. -/
def State.dropWait (s : State) (c : Nat) : State :=
  let x := s.ctx c
  let s := if x.tcb = 0 then s else s.relink (clusterOf c) (s.cluster (clusterOf c)).waitOver x.tcb
  let s := s.modCluster (clusterOf c) (fun k =>
    { k with waits := k.waits.filter (fun e => e.who != .ctx c), waitOver := k.waitOver.filter (fun t => t != x.tcb || x.tcb == 0) })
  if isX7 c then s.modCore (coreOf c) (fun k => { k with x7wait := none }) else s

/-- DEBUG STOP of a context (R37, R40, R375): pending behind FAULT, TRAP and TILEBIND; of X7 it squashes `wfm` and a
held `cwait`; a vacant context has nothing to stop. -/
def State.debugStop (s : State) (c : Nat) : State :=
  let x := s.ctx c
  let hold := fun (s : State) => (s.trace 3 c x.pc 0 0)
  match x.life with
  | .vacant => s
  | .parked .stop => s
  | .parked .fault => hold (s.modCtx c (fun x => { x with pstop := true }))
  | .parked .trap => hold (s.modCtx c (fun x => { x with pstop := true }))
  | .parked .tilebind => hold (s.modCtx c (fun x => { x with pstop := true }))
  | .parked .cwait => hold ((s.dropWait c).park c .stop 0)
  | .running => hold ((s.dropWait c).park c .stop 0)

/-- DEBUG RESUME: a STOP park goes on at its PC; an X7 that the boot still holds ignores it (R375). -/
def State.debugResume (s : State) (c : Nat) : State :=
  let x := s.ctx c
  if x.life = .parked .stop ∧ x.bootHeld = false then (s.unpark c).trace 4 c x.pc 0 0 else s

/-- A breakpoint of the core matches the PC of a user context (R376). -/
def State.breakHit (s : State) (c : Nat) : Bool :=
  !isX7 c && (s.core (coreOf c)).bp.any (fun b => b.1 < 4 && b.2.getLsbD 0 && pcOf b.2 == (s.ctx c).pc)

/-- A watchpoint matches an access (R376): its range, the policy, the kind and the context. An empty range overlaps
nothing: LEN 0 disables (R375). -/
def watchMatches (wpa wpb : Word) (c : Nat) (a : Acc) : Bool :=
  let lo := wpa.toNat / 8 * 8
  let hi := lo + 8 * (wpb.toNat % 65536)
  decide (lo < hi) && decide (a.va.toNat < hi) && decide (lo < a.va.toNat + a.n) && wpb.getLsbD (22 + c % 8) &&
    (match a.pol with | some p => wpb.getLsbD (16 + p.code) | none => wpb.toNat / 2 ^ 16 % 16 != 0) &&
    ((a.rd && wpb.getLsbD 20) || (a.wr && wpb.getLsbD 21))

/-- The lowest-numbered watchpoint that one of the accesses matches, with the first such access (R376). -/
def State.watchHit (s : State) (c : Nat) (accs : List Acc) : Option Acc :=
  let k := s.core (coreOf c)
  (List.range 4).findSome? (fun w => accs.find? (watchMatches (tget k.wpa w 0) (tget k.wpb w 0) c))

/-- What matches at the moment of retirement: a breakpoint first, then the lowest-numbered watchpoint (R376). -/
def State.matchOf (s : State) (accs : List Acc) : Option Match :=
  if s.breakHit s.cur then some .brk else (s.watchHit s.cur accs).map .watch

/-- TRAPINFO2 of a watchpoint's BREAKPOINT: the access, its lane and device among the fields, and WATCH (R257). -/
def Acc.detail (a : Acc) : BitVec 20 :=
  detailOf (if a.rd && a.wr then 2 else if a.wr then 1 else 0) (match a.pol with | some p => p.code | none => 0) false a.device false
    0 a.lane ||| BitVec.ofNat 20 (2 ^ 17)

/-- A match is taken: it is logged, and BREAKPOINT or a STOP park follows (R376, R377). -/
def State.takeMatch (s : State) (m : Match) : State :=
  let c := s.cur
  let pc := (s.ctx c).pc
  match m with
  | .brk => (s.trace 1 c pc 0 0).takeBreak c (Trap.of .breakpoint pc 0) s.ir0 s.ir1
  | .watch a => (s.trace 2 c pc a.va 0).takeBreak c (Trap.of .breakpoint a.va a.detail) s.ir0 s.ir1

/-- A match at the moment of retirement: the instruction does not retire, and BREAKPOINT is taken (R376). -/
def State.matched (s : State) (accs : List Acc) : Option State := (s.matchOf accs).map s.takeMatch

/-- Retirement: PC becomes the given address and RETIRED counts (R8, R331). -/
def State.retireTo (s : State) (pc : Word) : State :=
  (s.modMe (fun x => { x with pc := pcOf pc, stall := .none, attempt := 0 })).countCtx s.cur 5

/-- Retirement with sequential flow over an instruction of a given length. -/
def State.retire (s : State) (len : Nat) : State := s.retireTo (s.pc + BitVec.ofNat 64 len)

/-- An instruction without accesses retires: from the state it began in to the state it made, with PC as given. -/
def commitTo (s0 s1 : State) (pc : Word) : Answer :=
  match s0.matched [] with
  | some s => .next s
  | none => .next (s1.retireTo pc)

/-- An instruction without accesses retires with sequential flow. -/
def commit (s0 s1 : State) (len : Nat) : Answer := commitTo s0 s1 (s0.pc + BitVec.ofNat 64 len)

/-- The context in turn takes a trap. -/
def trapNow (s : State) (t : Trap) : Answer := .next (s.takeTrap s.cur t s.ir0 s.ir1)

/-- The registers of the context in turn are those it had (R8: none of a stopped instruction's writes take effect). -/
def State.restoreMe (s1 s0 : State) : State := { s1.setCtx s0.cur (s0.ctx s0.cur) with cur := s0.cur, accs := [] }

/-- What an instruction does as it retires and cannot take back. A match comes after the faults and before the effect: the
machine stands as it did before (R10, R376). -/
def guarded {α : Type} (m : Act α) : Act α := fun s =>
  match m s with
  | .ok a s1 =>
    match s1.matchOf s1.accs with
    | some h => .error (.hit h) s
    | none => .ok a s1
  | .error e s1 => .error e s1

/-- An instruction of a given length runs: it retires, or ends in a trap, a park, a wait or a match, which leave of it the
traces of the work that was performed for it (R8, R10, R26, R376). -/
def runAct (s : State) (len : Nat) (m : Act Unit) : Answer :=
  match m { s with accs := [] } with
  | .ok _ s1 =>
    match s1.matchOf s1.accs with
    | some h => .next ((s1.restoreMe s).takeMatch h)
    | none => .next ({ s1 with accs := [] }.retire len)
  | .error (.trap t) s1 => .next ((s1.restoreMe s).takeTrap s.cur t s.ir0 s.ir1)
  | .error (.park r) s1 => .next (((s1.restoreMe s).park s.cur r 0).modCtx s.cur (fun x => { x with iw0 := s.ir0, iw1 := s.ir1 }))
  | .error (.hold w) s1 => .next ((s1.restoreMe s).modCtx s.cur (fun x => x.waits w s.ir0 s.ir1))
  | .error (.hit h) s1 => .next ((s1.restoreMe s).takeMatch h)

/-- Stops with a trap. -/
def raiseTrap {α : Type} (t : Trap) : Act α := throw (.trap t)

/-- Stops with a trap where a condition holds. -/
def trapIf (b : Bool) (t : Trap) : Act Unit := if b then raiseTrap t else pure ()

/-- A computation on memory within an instruction, with the address that a MEMORY_ERROR reports: a refusal is FRAME_OWNER,
an error MEMORY_ERROR (R127, R156, R260). -/
def liftAt {α : Type} (va wva : Word) (d : BitVec 20) (tile : Word) (m : Mem α) : Act α := fun s =>
  match m s with
  | .ok a s => .ok a s
  | .error (.frame _) s => .error (.trap { cause := .frameOwner, va := va, detail := d, tile := tile }) s
  | .error (.error _) s => .error (.trap { cause := .memoryError, va := wva, detail := d, tile := tile }) s

/-- A computation on memory within an instruction: MEMORY_ERROR reports the address of the word (R127). -/
def lift {α : Type} (va : Word) (d : BitVec 20) (tile : Word) (m : Mem α) : Act α := liftAt va (va &&& ~~~ 7#64) d tile m

/-- An access noted for the watchpoints, with its lane and whether it names a device register (R257, R376). -/
def note (va : Word) (n : Nat) (pol : Option Pol) (rd wr : Bool) (lane : Nat := 0) (device : Bool := false) : Act Unit :=
  modify (fun s => { s with accs := s.accs ++ [{ va := va, n := n, pol := pol, rd := rd, wr := wr, lane := lane, device := device }] })

end Sys2Proof.Machine
end

