-- ==== Sys2Proof/Machine/Binding.lean ====
section
/-! DEFINITION. Bindings of threads to engines and their physical tiles (spec/01 R35, R36, spec/09 R223-R226, R252):
the map, free tiles, the tile registers, spill, restore and release. Taking the tile by value into a store's rows, the
model keeps of a held physical tile only that it is not free. -/

namespace Sys2Proof.Machine

/-- Where a thread is bound: the engine and the number of its binding there. -/
def State.holder (s : State) (tcb : Nat) : Option (Nat × Nat) :=
  if tcb = 0 then none
  else s.engines.findSome? (fun e => (e.2.bindings.find? (fun b => b.2.tcb == tcb)).map (fun b => (e.1, b.1)))

/-- The engine of the binding of a context's thread in its cluster (R35, R331). -/
def State.boundEngine (s : State) (c : Nat) : Option Nat :=
  match s.holder (s.ctx c).tcb with
  | some (e, _) => if e / 4 = clusterOf c ∧ s.hasEngine e then some e else none
  | none => none

/-- A binding that maps nothing. -/
def Binding.none : Binding := { tcb := 0, acc := [], opd := [], detached := 0, accLent := false, opdLent := false }

/-- A binding of an engine. -/
def State.binding (s : State) (e b : Nat) : Binding := tget (s.engine e).bindings b Binding.none

/-- Physical tiles that no map, no unretired instruction and no undrained store holds are free (R224). -/
def Engine.usedTiles (x : Engine) (acc : Bool) : List Nat :=
  x.bindings.flatMap (fun b => if acc then b.2.acc else b.2.opd) ++
    (x.issue ++ x.running.toList).filterMap (fun i => if i.acc == acc then i.tile else none) ++
    (x.storeq.filterMap (·.held) ++ x.puts.filterMap (·.held)).filterMap (fun h => if h.1 == acc then some h.2 else none)

/-- The free physical tiles of a kind, ascending: of 48 accumulator and 96 operand tiles (R224). -/
def Engine.freeTiles (x : Engine) (acc : Bool) : List Nat :=
  (List.range (if acc then 48 else 96)).filter (fun k => !(x.usedTiles acc).contains k)

/-- A binding's reserved tile of a kind is in use. -/
def Binding.lent (b : Binding) (acc : Bool) : Bool := if acc then b.accLent else b.opdLent

/-- The bindings that have a free physical tile of a kind in reserve: those whose reserved tile is not in use, and, as tiles
become free again, the others (R226). -/
def Engine.reserves (x : Engine) (acc : Bool) : List Nat :=
  (((x.bindings.filter (fun b => !b.2.lent acc)) ++ (x.bindings.filter (fun b => b.2.lent acc))).map (·.1)).take (x.freeTiles acc).length

/-- The marks of the bindings' reserves of a kind, as the free tiles stand; one binding may use its own now. -/
def Engine.lend (x : Engine) (acc : Bool) (user : Option Nat) : Engine :=
  let l := x.reserves acc
  { x with bindings := tmap (fun k b =>
      let v := !l.contains k || user == some k
      if acc then { b with accLent := v } else { b with opdLent := v }) x.bindings }

/-- The free physical tile that an instruction of a binding may take, and the engine with it taken: one beyond those in
reserve, else the binding's own. Every unretired tile instruction is its context's oldest, since a context of the model has
one at a time (R226, log 30). -/
def Engine.takeTile (x : Engine) (acc : Bool) (b : Nat) : Option (Nat × Engine) :=
  let free := x.freeTiles acc
  let l := x.reserves acc
  match free[l.length]? with
  | some k => some (k, x.lend acc none)
  | none => if l.contains b then (free.head?).map (fun k => (k, x.lend acc (some b))) else none

/-- The number of the binding of a thread at an engine. -/
def Engine.bindingOf (x : Engine) (tcb : Nat) : Nat := ((x.bindings.find? (fun b => b.2.tcb == tcb)).map (·.1)).getD 0

/-- Instructions of the issue queue that wait for a physical tile take one in order of acceptance (R226). -/
def grantTiles (e : Nat) : List Issue → State → State
  | [], s => s
  | i :: rest, s =>
    let x := s.engine e
    match (if i.tile.isSome then none else x.takeTile i.acc (x.bindingOf (s.ctx i.ctx).tcb)) with
    | some (k, y) => grantTiles e rest (s.modEngine e (fun _ =>
        { y with issue := y.issue.map (fun q => if q = i then { q with tile := some k } else q) }))
    | none => grantTiles e rest s

/-- The tile instruction of a context in an issue queue, or running. -/
def Engine.issueOf (x : Engine) (c : Nat) : Option Issue := (x.issue ++ x.running.toList).find? (fun i => i.ctx == c)

/-- The physical tile of a tile register, and whether it is an accumulator. -/
def Binding.map (b : Binding) : TReg → Bool × Nat
  | .a n => (true, b.acc.getD n.toNat 0)
  | .t n => (false, b.opd.getD n.toNat 0)

/-- The content of an accumulator and of an operand tile register. -/
def State.accTile (s : State) (e b : Nat) (n : BitVec 2) : AccTile :=
  tget (s.engine e).acc ((s.binding e b).map (.a n)).2 []
def State.opTile (s : State) (e b : Nat) (n : BitVec 3) : OpTile :=
  tget (s.engine e).opd ((s.binding e b).map (.t n)).2 { data := [], scale := [] }

/-- A binding changed. -/
def State.modBinding (s : State) (e b : Nat) (f : Binding → Binding) : State :=
  s.modEngine e (fun x => { x with bindings := tset x.bindings b (f (tget x.bindings b Binding.none)) })

/-- A tile register's new content in a fresh physical tile; the one it was mapped to is freed (R225). -/
def State.setAccTile (s : State) (e b : Nat) (n : BitVec 2) (k : Nat) (t : AccTile) : State :=
  let old := ((s.binding e b).map (.a n)).2
  (s.modBinding e b (fun x => { x with acc := x.acc.set n.toNat k })).modEngine e (fun x =>
    { x with acc := tset (tdel x.acc old) k t })
def State.setOpTile (s : State) (e b : Nat) (n : BitVec 3) (k : Nat) (t : OpTile) : State :=
  let old := ((s.binding e b).map (.t n)).2
  (s.modBinding e b (fun x => { x with opd := x.opd.set n.toNat k })).modEngine e (fun x =>
    { x with opd := tset (tdel x.opd old) k t })

/-- A row as 64-bit words, the lowest first. -/
def rowWords {n : Nat} (k : Nat) (x : BitVec n) : List Word := (List.range k).map (fun j => (x >>> (64 * j)).setWidth 64)

/-- A row from its words. -/
def rowFrom (n : Nat) (l : List Word) : BitVec n := BitVec.ofNat n (packNat 8 (l.map (·.toNat)))

/-- The tile save area of a binding as words, from its first byte (R223). -/
def State.areaWords (s : State) (e b : Nat) : List Word :=
  let acc := fun n => tget (s.engine e).acc ((s.binding e b).acc.getD n 0) []
  let opd := fun n => tget (s.engine e).opd ((s.binding e b).opd.getD n 0) { data := [], scale := [] }
  ((List.range 4).flatMap (fun n => (List.range 64).flatMap (fun i => rowWords 64 ((acc n).getD i 0)))) ++
    ((List.range 8).flatMap (fun n => (List.range 64).flatMap (fun i => rowWords 16 ((opd n).data.getD i 0)))) ++
    ((List.range 8).flatMap (fun n => (List.range 64).flatMap (fun i => rowWords 2 ((opd n).scale.getD i 0))))

/-- The binding is dropped and its physical tiles are freed; what they hold stays in them (R380). -/
def State.dropBinding (s : State) (e b : Nat) : State := s.modEngine e (fun g => { g with bindings := tdel g.bindings b })

/-- A spill: every byte of the save area is written, TILELOC bit 62 is set, and the binding ends (R35, R36, R223). -/
def State.spill (s : State) (e b : Nat) : State :=
  let cl := e / 4
  let tcb := (s.binding e b).tcb
  let s := (readUnit cl 13 [tcb + 0xC28] s).1
  let area := (s.tcbWord cl tcb 0xC28).toNat
  let s := ((s.areaWords e b).foldl (fun (p : State × Nat) w => (p.1.writeUnit cl (8 + e % 4) p.2 w, p.2 + 8)) (s, area)).1
  (s.dropBinding e b).setTcb cl tcb 0xC58 (BitVec.ofNat 64 (2 ^ 62))

/-- The binding of a thread ends without a spill, wherever it is; TILELOC bits 63 and 62 are cleared (R39, R252). Its low byte, which
names the cluster's engine while the thread is bound, is zeroed with them, as a spill zeroes all but bit 62 (DESIGN CHOICE, log 32). -/
def State.releaseBinding (s : State) (cl tcb : Nat) : State :=
  match s.holder tcb with
  | some (e, b) => (s.dropBinding e b).setTcb cl tcb 0xC58 0
  | none => s

/-- The moment a bound thread leaves its context (R35). -/
def State.detach (s : State) (tcb : Nat) : State :=
  match s.holder tcb with
  | some (e, b) => { s.modBinding e b (fun x => { x with detached := s.seq }) with seq := s.seq + 1 }
  | none => s

/-- The tiles of a save area: accumulators and operand tiles (R223). -/
def State.areaTiles (s : State) (cl area : Nat) : List AccTile × List OpTile :=
  let row := fun (n k a : Nat) => rowFrom n ((List.range k).map (fun j => s.unitWord cl (area + a + 8 * j)))
  ((List.range 4).map (fun n => (List.range 64).map (fun i => row 4096 64 (0x8000 * n + 512 * i))),
   (List.range 8).map (fun n =>
     { data := (List.range 64).map (fun i => row 1024 16 (0x20000 + 0x2000 * n + 128 * i)),
       scale := (List.range 64).map (fun i => row 128 2 (0x30000 + 0x400 * n + 16 * i)) }))

/-- A new binding of an engine: four accumulator and eight operand tiles of the free ones, with the content given
(R35, R224), its reserves the next that become free (R226); TILELOC names the engine. -/
def State.bind (s : State) (e tcb : Nat) (tiles : List AccTile × List OpTile) : State :=
  let x := ((s.engine e).lend true none).lend false none
  let as := (x.freeTiles true).take 4
  let os := (x.freeTiles false).take 8
  let b := ((List.range 6).find? (fun k => (tfind x.bindings k).isNone)).getD 0
  let s := s.modEngine e (fun _ =>
    let g := x
    { g with acc := (as.zip tiles.1).foldl (fun t p => tset t p.1 p.2) g.acc,
             opd := (os.zip tiles.2).foldl (fun t p => tset t p.1 p.2) g.opd,
             bindings := tset g.bindings b { tcb := tcb, acc := as, opd := os, detached := 0, accLent := true, opdLent := true } })
  s.setTcb (e / 4) tcb 0xC58 (BitVec.ofNat 64 (2 ^ 63 + e % 256))

end Sys2Proof.Machine
end

