-- ==== Sys2Proof/Machine/Translate.lean ====
section
/-! DEFINITION. Address translation: canonical addresses, the five-level walk, permissions and policy masks, the
physical addressing of X7, and the translation buffers (spec/12 R304-R309, spec/10 R262, R271). -/

namespace Sys2Proof.Machine

/-- The kinds of access that a translation is made for (R306). -/
inductive AccessKind where
  | read | write | atomic | fetch | maint
  deriving DecidableEq, Repr

/-- TRAPINFO2.KIND of an access kind (R257). -/
def AccessKind.code : AccessKind → Nat
  | .read => 0 | .write => 1 | .atomic => 2 | .fetch => 3 | .maint => 0

/-- POL of an access: 0 for fetch and for policy "any" (R257, R337). -/
def polCode (p : Option Pol) : Nat := match p with | some p => p.code | none => 0

/-- Whose translation is made: the unit, its address space, and whether it is the supervisor or addresses physically. -/
structure Space where
  agent : Agent
  ptroot : Nat
  asn : BitVec 16
  sup : Bool
  phys : Bool
  core : Option Nat

/-- The address space of the context in turn (R256, R262). -/
def State.space (s : State) : Space :=
  { agent := s.agent, ptroot := s.me.ptroot.toNat * 4096, asn := s.me.asn, sup := s.inX7,
    phys := s.inX7 && !(s.core s.myCore).xlat, core := some s.myCore }

/-- A virtual address is canonical when bits 63:57 all equal bit 56 (R304). -/
def canonical (va : Word) : Bool := ((va.setWidth 57).signExtend 64) == va

/-- Page size of a leaf in bytes: its level, and S64 at level 1 (R304). -/
def leafSize (lvl : Nat) (e : Word) : Nat :=
  if lvl = 1 then (if e.getLsbD 10 then 65536 else 4096) else if lvl = 2 then 2 ^ 21 else 2 ^ 30

/-- The frame or table address of an entry: bits 51:12. -/
def entryPa (e : Word) : Nat := e.toNat / 4096 % 2 ^ 40 * 4096

/-- RsvNonzero(e, lvl) (R305, R306). -/
def entryBad (e : Word) (lvl : Nat) : Bool :=
  let leaf := e.getLsbD 1
  e.getLsbD 11 || (leaf && 4 ≤ lvl) || (!leaf && lvl == 1) ||
    (if leaf then (e.getLsbD 10 && lvl != 1) || entryPa e % leafSize lvl e != 0 else e.toNat / 4 % 2 ^ 9 != 0)

/-- What a leaf forbids: PROTECTION, or else POLICY_DENIED (R306). -/
def leafRefuses (sp : Space) (kind : AccessKind) (pol : Option Pol) (e : Word) : Option Cause :=
  let r := e.getLsbD 6
  let w := e.getLsbD 7
  let bad := match kind with
    | .read => !r
    | .maint => !r
    | .write => !w
    | .atomic => !r || !w
    | .fetch => !e.getLsbD 8
  if bad || (e.getLsbD 9 && !sp.sup) then some .protection
  else match kind with
    | .fetch => none
    | .maint => none
    | _ =>
      let denied := match pol with
        | none => e.toNat / 4 % 16 == 0
        | some p => !e.getLsbD (2 + p.code)
      if denied then some .policyDenied else none

/-- The bits of an address that choose the entry of a level and those above it. -/
def walkPrefix (va : Word) (lvl : Nat) : Nat := va.toNat % 2 ^ 57 / 2 ^ (9 * lvl + 3)

/-- The level-1 entries of the aligned group of 16 that holds an entry, as the unit's cluster sees them, which describe a
64 KiB page: V and S64 set (R307). -/
def State.groupEntries (s : State) (cl pa : Nat) : List Nat :=
  ((List.range 16).map (fun k => pa - pa % 128 + 8 * k)).filter (fun q =>
    let e := s.unitWord cl q
    e.getLsbD 0 && e.getLsbD 10)

/-- The entry that a walk uses at level 1, where it has read its own: any of the group's that have V and S64 set, which a free
value names where they are not all as its own is (R307, log 13); its own where the group has none. -/
def groupEntry (sp : Space) (d : BitVec 20) (pa : Nat) (e : Word) : Act Word := do
  let s ← get
  let l := s.groupEntries sp.agent.cl pa
  if l.all (fun q => s.unitWord sp.agent.cl q == e) then pure e
  else do
    let (n, s) := s.draw
    set s
    let q := l.getD ((Config.choice n).toNat % l.length) pa
    lift (BitVec.ofNat 64 q) d 0 (clRead { sp.agent with exempt := true } .own q none)

/-- The walk from a level down (R304, R306): the leaf, its level, and the pointer entries met on the way. -/
def walk (sp : Space) (va : Word) (kind : AccessKind) (pol lane : Nat) : Nat → Nat → Act (Word × Nat × List (Nat × Word))
  | 0, _ => raiseTrap (Trap.of .protection va 0)
  | n + 1, base => do
    let lvl := n + 1
    let pa := base + 8 * (va.toNat / 2 ^ (9 * lvl + 3) % 512)
    let s ← get
    let d := fun (unb dev : Bool) => detailOf kind.code 0 unb dev true lvl lane
    if isDevice pa then raiseTrap (Trap.of .protection va (d (!s.backed (sp.agent.cl / 64) pa) true))
    else if !s.tableBacked (sp.agent.cl / 64) pa then raiseTrap (Trap.of .protection va (d true false))
    else do
      let own ← lift (BitVec.ofNat 64 pa) (d false false) 0 (clRead { sp.agent with exempt := true } .own pa none)
      let e ← (if lvl = 1 then groupEntry sp (d false false) pa own else pure own)
      let dl := detailOf kind.code pol false false false lvl lane
      if !e.getLsbD 0 then raiseTrap (Trap.of .pageNotPresent va dl)
      else if entryBad e lvl then raiseTrap (Trap.of .protection va dl)
      else if e.getLsbD 1 then pure (e, lvl, [])
      else do
        let (leaf, at_, ptrs) ← walk sp va kind pol lane n (entryPa e)
        pure (leaf, at_, (lvl, e) :: ptrs)

/-- The translation buffer a space uses: its core's, or the copy engine's (R308, R309). -/
def State.buffer (s : State) (sp : Space) : List TlbEntry :=
  match sp.core with
  | some k => (s.core k).tlb
  | none => (s.cluster sp.agent.cl).ctlb

/-- The walk cache a space uses (R309). -/
def State.walkCache (s : State) (sp : Space) : List WalkEntry :=
  match sp.core with
  | some k => (s.core k).walks
  | none => (s.cluster sp.agent.cl).cwalks

/-- Where a walk begins: below the lowest pointer entry of the address that the walk cache holds, else at the root (R303,
R309). -/
def State.walkStart (s : State) (sp : Space) (va : Word) : Nat × Nat :=
  ([2, 3, 4, 5].findSome? (fun lvl =>
    ((s.walkCache sp).find? (fun w => w.asn == sp.asn && w.root == sp.ptroot && w.level == lvl &&
      w.prefix_ == walkPrefix va lvl)).map
      (fun w => (lvl - 1, entryPa w.entry)))).getD (5, sp.ptroot)

/-- An entry taken into the translation buffer, and the pointer entries of its walk into the walk cache (R271, R303). -/
def State.fillBuffer (s : State) (sp : Space) (e : TlbEntry) (ws : List WalkEntry) : State :=
  let tlb := fun (l : List TlbEntry) => e :: l.filter (fun t => !(t.asn == e.asn && t.level == e.level && t.page == e.page))
  let walks := fun (l : List WalkEntry) => ws ++ l.filter (fun t =>
    !ws.any (fun w => t.asn == w.asn && t.root == w.root && t.level == w.level && t.prefix_ == w.prefix_))
  match sp.core with
  | some k => s.modCore k (fun x => { x with tlb := tlb x.tlb, walks := walks x.walks })
  | none => s.modCluster sp.agent.cl (fun x => { x with ctlb := tlb x.ctlb, cwalks := walks x.cwalks })

/-- A buffered translation of an address that permits the access; entries outlive changes of root (R308). -/
def State.buffered (s : State) (sp : Space) (va : Word) (kind : AccessKind) (pol : Option Pol) : Option TlbEntry :=
  (s.buffer sp).find? (fun t => t.asn == sp.asn && va.toNat % 2 ^ 57 / leafSize t.level t.leaf == t.page &&
    (leafRefuses sp kind pol t.leaf).isNone)

/-- Translate(va, kind, pol) (R306), and the physical addressing of an X7 whose XLAT is 0 (R262). Policy none is
"any" (R337). -/
def translate (sp : Space) (va : Word) (kind : AccessKind) (pol : Option Pol) (lane : Nat) : Act Nat := do
  let p := polCode pol
  let d := fun (unb dev : Bool) (lvl : Nat) => detailOf kind.code p unb dev false lvl lane
  let pa ← (if sp.phys then
      if va.toNat / 2 ^ 52 ≠ 0 then raiseTrap (Trap.of .protection va (d false false 0)) else pure va.toNat
    else if !canonical va then raiseTrap (Trap.of .protection va (d false false 0))
    else do
      let s ← get
      match s.buffered sp va kind pol with
      | some t => pure (entryPa t.leaf + va.toNat % leafSize t.level t.leaf)
      | none => do
        let (n, base) := s.walkStart sp va
        let (e, lvl, ptrs) ← walk sp va kind p lane n base
        match leafRefuses sp kind pol e with
        | some c => raiseTrap (Trap.of c va (d false false lvl))
        | none => do
          let pa := entryPa e + va.toNat % leafSize lvl e
          modify (fun s => if !s.backed (sp.agent.cl / 64) pa then s else
            s.fillBuffer sp { asn := sp.asn, level := lvl, page := va.toNat % 2 ^ 57 / leafSize lvl e, leaf := e }
              (ptrs.map (fun w => { asn := sp.asn, root := sp.ptroot, level := w.1, prefix_ := walkPrefix va w.1, entry := w.2 })))
          pure pa)
  let s ← get
  if s.backed (sp.agent.cl / 64) pa then pure pa
  else raiseTrap (Trap.of .protection va (d true (isDevice pa) 0))

/-- A translation by the context in turn. -/
def xlate (va : Word) (kind : AccessKind) (pol : Option Pol) : Act Nat := do
  let s ← get
  translate s.space va kind pol 0

/-- PROTECTION for an address in device-register space that the instruction does not accept (R153, R157). -/
def notDevice (va : Word) (pa : Nat) (kind : AccessKind) (pol : Option Pol) : Act Unit :=
  trapIf (isDevice pa) (Trap.of .protection va (detailOf kind.code (polCode pol) false true false 0 0))

end Sys2Proof.Machine
end

