-- ==== Sys2Proof/Machine/Sysreg.lean ====
section
/-! DEFINITION. System registers by number: what a read returns and what a write changes, field by field (spec/10
R255-R259, spec/02 R46, spec/01 R21), and a tenant-table entry coming into force (spec/12 R314, R316). -/

namespace Sys2Proof.Machine

/-- CTXSTAT (R256). -/
def statOf (x : Context) : Word :=
  let (st, r) := match x.life with
    | .vacant => (0, 0)
    | .running => (2, 0)
    | .parked r => (3, r.code)
  BitVec.ofNat 64 (st + r * 2 ^ 8 + (if x.pstop then 2 ^ 12 else 0) + (if x.pfault.isSome then 2 ^ 13 else 0) +
    (if x.inwfm then 2 ^ 14 else 0))

/-- A context system register, number 0x400 + n, or FST or FCTL (R46, R256). -/
def State.sysRead (s : State) (c n : Nat) : Word :=
  let x := s.ctx c
  match n with
  | 0x221 => x.fst.setWidth 64
  | 0x222 => x.fctl.setWidth 64
  | 0x400 => statOf x
  | 0x401 => x.cause.setWidth 64
  | 0x402 => x.trapva
  | 0x403 => x.info0.setWidth 64
  | 0x404 => x.info1.setWidth 64
  | 0x405 => x.info2.setWidth 64
  | 0x406 => x.info3
  | 0x407 => x.uepc
  | 0x408 => x.vrlimit.setWidth 64
  | 0x409 => x.asn.setWidth 64
  | 0x40A => x.ptroot.setWidth 64 <<< 12
  | 0x40B => BitVec.ofNat 64 (placeOf c)
  | 0x40C => BitVec.ofNat 64 x.tcb
  | 0x40D => x.prio.setWidth 64
  | 0x40E => x.tno.setWidth 64
  | 0x40F => BitVec.ofNat 64 s.time
  | _ => 0

/-- A context system register, FST or FCTL written: RW and RWS fields take their bits, RO and rsv fields ignore them
(R256, R264). -/
def Context.sysWrite (x : Context) (n : Nat) (v : Word) : Context :=
  match n with
  | 0x221 => { x with fst := v.setWidth 5 }
  | 0x222 => { x with fctl := v.setWidth 2 }
  | 0x401 => { x with cause := v.setWidth 8 }
  | 0x402 => { x with trapva := v }
  | 0x403 => { x with info0 := v.setWidth 32 }
  | 0x404 => { x with info1 := v.setWidth 32 }
  | 0x405 => { x with info2 := v.setWidth 20 }
  | 0x406 => { x with info3 := v }
  | 0x407 => { x with uepc := pcOf v }
  | 0x408 => { x with vrlimit := v.setWidth 8 }
  | 0x409 => { x with asn := v.setWidth 16 }
  | 0x40A => { x with ptroot := (v >>> 12).setWidth 40 }
  | _ => x

/-- Word j of a vector register replaced. -/
def setVecWord (v : Vec) (j : Nat) (x : Word) : Vec :=
  (v &&& ~~~ ((BitVec.allOnes 64).setWidth 512 <<< (64 * j))) ||| (x.setWidth 512 <<< (64 * j))

/-- Half of a shape register replaced. -/
def setHalf (m : BitVec 128) (hi : Bool) (x : Word) : BitVec 128 :=
  if hi then (m.setWidth 64).setWidth 128 ||| (x.setWidth 128 <<< 64) else ((m >>> 64) <<< 64) ||| x.setWidth 128

/-- Any register of a context by its number (R255). -/
def State.regRead (s : State) (c n : Nat) : Word :=
  let x := s.ctx c
  if n < 0x20 then x.getG n
  else if 0x100 ≤ n ∧ n < 0x200 then lineWord (x.getV ((n - 0x100) / 8)) (n % 8)
  else if 0x200 ≤ n ∧ n < 0x208 then x.getP (n - 0x200)
  else if 0x210 ≤ n ∧ n < 0x220 then
    (if isX7 c then 0 else (x.getM ((n - 0x210) / 2) >>> (64 * (n % 2))).setWidth 64)
  else if n = 0x220 then x.pc
  else s.sysRead c n

/-- Any register of a context written by its number (R255, R265). -/
def State.regWrite (s : State) (c n : Nat) (v : Word) : State :=
  s.modCtx c (fun x =>
    if n < 0x20 then x.setG n v
    else if 0x100 ≤ n ∧ n < 0x200 then
      x.setV ((n - 0x100) / 8) (setVecWord (x.getV ((n - 0x100) / 8)) (n % 8) v)
    else if 0x200 ≤ n ∧ n < 0x208 then x.setP (n - 0x200) v
    else if 0x210 ≤ n ∧ n < 0x220 then
      (if isX7 c then x else x.setM ((n - 0x210) / 2) (setHalf (x.getM ((n - 0x210) / 2)) (n % 2 == 1) v))
    else if n = 0x220 then { x with pc := pcOf v }
    else x.sysWrite n v)

/-- The number names a register that `ctxrd` and `ctxwr` reach (R255). -/
def ctxNumber (n : Nat) : Bool :=
  n < 0x20 || (0x100 ≤ n && n < 0x208) || (0x210 ≤ n && n ≤ 0x222) || (0x400 ≤ n && n < 0x410)

/-- Bits 51:12 of a word. -/
def tablePa (x : Word) : Nat := x.toNat / 4096 % 2 ^ 40 * 4096

/-- A supervisor or package register, number 0x800 and above (R258). -/
def State.supRead (s : State) (core n : Nat) : Word :=
  let k := s.core core
  let p := s.pkg (core / 512)
  match n with
  | 0x800 => k.svec
  | 0x801 => k.svepc
  | 0x802 => if k.nest then 1 else 0
  | 0x803 => if k.xlat then 1 else 0
  | 0x804 => BitVec.ofNat 64 k.mq.length
  | 0x805 => BitVec.ofNat 64 (((List.range 7).map (fun j =>
      match (s.ctx (8 * core + j)).life with
      | .parked .fault => 2 ^ j
      | .parked .trap => 2 ^ j
      | _ => 0)).foldl (· + ·) 0)
  | 0x808 => BitVec.ofNat 64 p.fotbase
  | 0x809 => BitVec.ofNat 64 p.tentbase
  | 0x80A => BitVec.ofNat 64 p.qtabbase
  | _ => 0

/-- A supervisor or package register written (R258, R259, R264). The entries that the homes have cached stay until a FOTSYNC
names their frames (R313). -/
def State.supWrite (s : State) (core n : Nat) (v : Word) : State :=
  let sock := core / 512
  match n with
  | 0x800 => s.modCore core (fun k => { k with svec := pcOf v })
  | 0x801 => s.modCore core (fun k => { k with svepc := v })
  | 0x802 => if v.getLsbD 0 then s.modCore core (fun k => { k with nest := false }) else s
  | 0x803 => s.modCore core (fun k => { k with xlat := v.getLsbD 0 })
  | 0x808 => s.modPkg sock (fun p => { p with fotbase := tablePa v })
  | 0x809 => s.modPkg sock (fun p => { p with tentbase := tablePa v })
  | 0x80A => s.modPkg sock (fun p => { p with qtabbase := tablePa v })
  | _ => s

/-- The tenant that the words of a tenant-table entry describe (R316). -/
def Tenant.ofWords (l : List Word) : Tenant :=
  let w := fun k => (l.getD k 0).toNat
  let size := w 4 % 2 ^ 21
  { pmark := w 0 % 2 == 1, susp := w 0 / 2 % 2 == 1, share := w 1 % 2 ^ 32, qsel := w 2 % 2 ^ 12,
    dlbase := w 3 / 4096 % 2 ^ 40 * 4096,
    dlsize := if size &&& (size - 1) = 0 ∧ size ≤ 2 ^ 20 then size else 0, erate := w 5 % 2 ^ 32, ebudget := w 6 % 2 ^ 16 }

/-- A tenant-table entry as it stands (R316). -/
def State.readTenant (s : State) (sock tno : Nat) : Tenant :=
  let base := (s.pkg sock).tentbase
  if base = 0 then Tenant.zero
  else Tenant.ofWords ((List.range 8).map (fun k => s.tableWord sock (base + 64 * tno + 8 * k)))

/-- The same as its home reads it, errors corrected or read again and counted (R126, R127, R316). -/
def State.loadTenant (s : State) (sock tno : Nat) : Tenant × State :=
  let base := (s.pkg sock).tentbase
  if base = 0 then (Tenant.zero, s)
  else
    let (l, s) := readTableWords sock 8 (base + 64 * tno) s
    (Tenant.ofWords l, s)

/-- An entry comes into force; an account whose metering begins starts from 0 (R316, R342). -/
def State.forceTenant (s : State) (sock tno : Nat) (t : Tenant) : State :=
  let old := tget (s.pkg sock).tenants tno Tenant.zero
  let s := if old.erate = 0 ∨ t.erate = 0 then
      { s with energy := s.energy.filter (fun e => !(e.1 % 4096 == tno && e.1 / 4096 / 64 == sock)) }
    else s
  s.modPkg sock (fun p => { p with tenants := if t = Tenant.zero then tdel p.tenants tno else tset p.tenants tno t })

/-- An entry is read and comes into force (R314, R316). -/
def State.renewTenant (s : State) (sock tno : Nat) : State :=
  let (t, s) := s.loadTenant sock tno
  s.forceTenant sock tno t

end Sys2Proof.Machine
end

