-- ==== Sys2Proof/Machine/Device.lean ====
section
/-! DEFINITION. Device-register space: the sizes each page accepts, which registers are the supervisor's, what a read
returns and what a write does (spec/01 R18, spec/04 R110, R111, spec/11 R278, spec/12 R314, R319, R323-R325, spec/13
R346, R347, spec/14 R360, R370-R375). -/

namespace Sys2Proof.Machine

/-- The access sizes a page accepts: device memory behind a host port, the ROM and the flash any of 1, 2, 4 and 8
bytes, every other page 64 bits only (R18, R110, R370; log 15). -/
def devSizeOk (pa n : Nat) : Bool :=
  match devPage pa with
  | some (.host _, _) => true
  | some (.rom, _) => true
  | some (.flash, _) => true
  | _ => n == 8

/-- A register or page that only X7 may access (R6, R111, R314, R346, R360, R371, R373, R375). In the boot and host-port pages, which
hold registers of both kinds, an offset that names no register is RWS, but in the host-port page the multiples of 0x100, and in the
boot page offset 0 and those from 0x1000 (DESIGN CHOICE, log 44). -/
def devSupervisor (pa : Nat) : Bool :=
  match devPage pa with
  | some (.tableCtl, _) => true
  | some (.efc _, _) => true
  | some (.efcData _, _) => true
  | some (.fabric, _) => true
  | some (.debug _, _) => true
  | some (.boot, off) => off < 0x1000 && off != 0
  | some (.hostPort, off) => off % 0x100 != 0
  | _ => false

/-- CheckRegisterSize and the supervisor check of a device access (R153). A fetch fault names the word that faulted (R67). -/
def devCheck (va : Word) (pa n : Nat) (kind : AccessKind) (pol : Pol) : Act Unit := do
  let s ← get
  if isDevice pa then do
    trapIf (devSupervisor pa && !s.inX7) (Trap.supvAccess (if kind = .fetch then va else s.pc) kind.code pol.code)
    trapIf (!devSizeOk pa n) (Trap.of .misaligned va (detailOf kind.code pol.code false true false 0 0))
  else pure ()

/-- Identification registers (R18). -/
def State.identRead (s : State) (sock off : Nat) : Word :=
  let f := s.fusesOf sock
  if off = 0 then BitVec.ofNat 64 (0x0900 + f.step.toNat * 2 ^ 16 + sock * 2 ^ 24)
  else if off = 8 then f.clusters
  else if 0x40 ≤ off ∧ off < 0x80 then (f.cores >>> (8 * (off - 0x40))).setWidth 64
  else if 0x80 ≤ off ∧ off < 0xA0 then (f.engines >>> (8 * (off - 0x80))).setWidth 64
  else if 0x100 ≤ off ∧ off < 0x148 then (f.homes >>> (8 * (off - 0x100))).setWidth 64
  else if off = 0x180 then f.fab.setWidth 64
  else if off = 0x188 then s.idCount sock
  else 0

/-- A co-residence group entry (R319). -/
def Group.read (g : Group) (placed : Bool) (k : Nat) : Word :=
  if k = 0 then
    BitVec.ofNat 64 (g.members.length + (if placed then 2 ^ 4 else 0) + g.cluster % 64 * 2 ^ 5 + g.tno.toNat * 2 ^ 11)
  else if k ≤ 8 then BitVec.ofNat 64 (g.members.getD (k - 1) 0)
  else 0

/-- A TCB stands on a context of a socket. -/
def State.onContext (s : State) (tcb : Nat) : Option Nat :=
  (s.ctxs.find? (fun e => e.2.tcb == tcb && tcb != 0 && e.2.life != .vacant && !isX7 e.1)).map (·.1)

/-- Dispatcher page (R278, R323). -/
def State.dispatcherRead (s : State) (cl off : Nat) : Word :=
  let c := s.cluster cl
  if off < 0x300 then
    let q := tget c.runq (off / 0x20) []
    match off % 0x20 with
    | 0 => BitVec.ofNat 64 (q.headD 0)
    | 8 => BitVec.ofNat 64 (q.getLastD 0)
    | 0x10 => BitVec.ofNat 64 q.length
    | _ => 0
  else if off = 0x300 then BitVec.ofNat 64 (c.sleepers.length + c.sleepOver.length * 2 ^ 9)
  else if off = 0x308 then BitVec.ofNat 64 (c.putq.length + (c.putq.map (·.size)).foldl (· + ·) 0 * 2 ^ 7)
  else if off = 0x310 then BitVec.ofNat 64 (c.copyq.length + c.copies.length * 2 ^ 9 + c.stops.length * 2 ^ 13)
  else if off = 0x318 then BitVec.ofNat 64 (c.waits.length + c.waitOver.length * 2 ^ 11)
  else 0

/-- EFC register page (R325, R346). -/
def Efc.read (e : Efc) (off : Nat) : Word :=
  if off < 0x200 then tget e.attach (off / 8) 0
  else if off = 0x200 then BitVec.ofNat 64 ((if e.en then 1 else 0) + e.tcore.toNat * 2)
  else if off = 0x208 then
    BitVec.ofNat 64 (((List.range 16).map (fun i => if (tget e.fifos i []).isEmpty then 0 else 2 ^ i)).foldl (· + ·) 0 +
      (if e.run.isSome then 2 ^ 16 else 0))
  else if 0x240 ≤ off ∧ off < 0x280 then BitVec.ofNat 64 (tget e.slotlen ((off - 0x240) / 8) 0)
  else if 0x800 ≤ off then
    (tget e.prog ((off - 0x800) / 4) 0).setWidth 64 ||| ((tget e.prog ((off - 0x800) / 4 + 1) 0).setWidth 64 <<< 32)
  else 0

/-- EFC register page written: a nonzero rsv field makes a write ignored, but an attachment entry keeps what is
written (R325, R346). -/
def Efc.write (e : Efc) (off : Nat) (x : Word) : Efc :=
  if off < 0x200 then { e with attach := tset e.attach (off / 8) x }
  else if off = 0x200 then
    if x.toNat / 2 ^ 10 = 0 then { e with en := x.getLsbD 0, tcore := (x >>> 1).setWidth 9 } else e
  else if 0x240 ≤ off ∧ off < 0x280 then
    if x.toNat / 2 ^ 7 = 0 then { e with slotlen := tset e.slotlen ((off - 0x240) / 8) (if x.toNat ≤ 64 then x.toNat else 0) } else e
  else if 0x800 ≤ off then
    { e with prog := tset (tset e.prog ((off - 0x800) / 4) (x.setWidth 32)) ((off - 0x800) / 4 + 1) ((x >>> 32).setWidth 32) }
  else e

/-- Fabric page (R360). -/
def State.fabricRead (s : State) (sock off : Nat) : Word :=
  let p := s.pkg sock
  if off < 0x80 then
    match tfind p.ports (off / 8) with
    | some f => BitVec.ofNat 64 (f.mode.toNat + f.peer.toNat * 4 + (if f.up then 32 else 0) + (if f.lretry then 64 else 0))
    | none => 0
  else if off = 0x80 then BitVec.ofNat 64 (p.farid.toNat + if p.farVal then 2 ^ 12 else 0)
  else if off = 0x88 then p.fartmo.setWidth 64
  else if 0x1000 ≤ off ∧ off < 0x1400 then tget p.farwin ((off - 0x1000) / 8) 0
  else 0

/-- A fabric port that has never been written. -/
def FabPort.off : FabPort := { mode := 0, peer := 0, up := false, lretry := false }

/-- Reserved bits of the four words of a far window (R360). -/
def farRsv (k : Nat) : Nat :=
  match k with
  | 0 => 0xFFF00000001FE000
  | 1 => 0xFFFFFFFF00000000
  | 2 => 0xFFF00000001FFFFF
  | _ => 0xFFF0000000000007

/-- LINK_RETRAIN: a write to FABPORTn; a change of MODE or PEER lets UP fall until training ends (R360), and the messages that
a coherent port has not delivered go to the first remaining port for its socket (R362), the far flows to another far port
(R363, R368). -/
def State.writeFabPort (s : State) (sock n : Nat) (x : Word) : State :=
  let mode := x.setWidth 2
  if !(s.fusesOf sock).fab.getLsbD n || x.toNat / 2 ^ 7 ≠ 0 || mode = 3#2 then s
  else
    let f := tget (s.pkg sock).ports n FabPort.off
    let peer := (x >>> 2).setWidth 3
    let stays := f.up && mode == f.mode && peer == f.peer
    let t := s.modPkg sock (fun p =>
      { p with ports := tset p.ports n { mode := mode, peer := peer, up := stays, lretry := x.getLsbD 6 } })
    if f.up && !stays && f.mode == 1#2 then t.replay sock n f.peer.toNat
    else if f.up && !stays && f.mode == 2#2 then t.farFallen sock
    else t

/-- FARID_WRITE: the next DATA frame of every flow carries RESYNC (R366). -/
def State.writeFarId (s : State) (sock : Nat) (x : Word) : State :=
  if x.toNat / 2 ^ 13 ≠ 0 then s
  else s.modPkg sock (fun p =>
    let flows := tmap (fun _ f => { f with resync := true }) p.flowsOut
    { p with farid := x.setWidth 12, farVal := x.getLsbD 12, flowsOut := flows })

/-- Fabric page written (R360). -/
def State.fabricWrite (s : State) (sock off : Nat) (x : Word) : State :=
  if off < 0x80 then s.writeFabPort sock (off / 8) x
  else if off = 0x80 then s.writeFarId sock x
  else if off = 0x88 then
    if x.toNat / 2 ^ 16 ≠ 0 then s else s.modPkg sock (fun p => { p with fartmo := x.setWidth 16 })
  else if 0x1000 ≤ off ∧ off < 0x1400 then
    let k := (off - 0x1000) / 8
    if x.toNat &&& farRsv (k % 4) ≠ 0 then s else s.modPkg sock (fun p => { p with farwin := tset p.farwin k x })
  else s

/-- An attestation log entry by its words (R373). -/
def AttEntry.word (a : AttEntry) (k : Nat) : Word :=
  if k = 0 then a.type.setWidth 64 ||| (a.svn <<< 8)
  else if k ≤ 4 then (a.digest >>> (64 * (k - 1))).setWidth 64 else 0

/-- Boot page, ATTSIG and the attestation log (R373). -/
def State.bootRead (s : State) (sock off : Nat) : Word :=
  let p := s.pkg sock
  if off = 0 then
    BitVec.ofNat 64 (p.bootFail.toNat + p.attLog.length * 16 + if p.sigDone then 2 ^ 15 else 0)
  else if off = 8 then p.release.setWidth 64
  else if off = 0x10 then p.relPc
  else if 0x20 ≤ off ∧ off < 0x40 then tget p.attExt ((off - 0x20) / 8) 0
  else if off = 0x40 then p.attCmd.setWidth 64
  else if off = 0x80 then BitVec.ofNat 64 p.dbgLog
  else if 0x1000 ≤ off ∧ off < 0x1000 + 2424 then tget p.attSig ((off - 0x1000) / 8) 0
  else if 0x2000 ≤ off ∧ off < 0x12000 then
    match p.attLog[(off - 0x2000) / 64]? with
    | some a => a.word ((off - 0x2000) / 8 % 8)
    | none => 0
  else 0

/-- The digest or nonce in ATTEXT0-3, low word first. -/
def Package.ext (p : Package) : BitVec 256 :=
  (tget p.attExt 0 0).setWidth 256 ||| ((tget p.attExt 1 0).setWidth 256 <<< 64) |||
    ((tget p.attExt 2 0).setWidth 256 <<< 128) ||| ((tget p.attExt 3 0).setWidth 256 <<< 192)

/-- CORE_RELEASE: a held X7 leaves its STOP park for RELPC with XLAT 0; an absent core or one already released is
ignored (R373). -/
def State.releaseCore (s : State) (sock : Nat) (x : Word) : State :=
  let core := 512 * sock + x.toNat % 512
  let c := x7Of core
  if x.toNat / 512 ≠ 0 then s
  else
    if s.hasCore core ∧ (s.ctx c).bootHeld = true then
      ((s.modPkg sock (fun p => { p with release := x.setWidth 9 })).modCore core (fun k => { k with xlat := false })).modCtx c (fun y =>
        { y with life := .running, bootHeld := false, pc := pcOf (s.pkg sock).relPc })
    else s

/-- ATTEST_APPEND: an entry with the digest in ATTEXT0-3; the log is never rewritten and takes 1,024 (R373). -/
def State.attestAppend (s : State) (sock : Nat) (type : BitVec 8) : State :=
  s.modPkg sock (fun p =>
    if 1024 ≤ p.attLog.length then p
    else { p with attLog := p.attLog ++ [{ type := type, svn := p.svn &&& (BitVec.allOnes 56).setWidth 64, digest := p.ext }] })

/-- Bytes of a list of words, little-endian. -/
def wordBytes (ws : List Word) : List (BitVec 8) := ws.flatMap (fun w => leBytes w.toNat 8)

/-- ATTEST_SIGN: the device key is asked to sign SHA3-256 of the log and the nonce (R373). -/
def State.attestSign (s : State) (sock : Nat) : State :=
  s.modPkg sock (fun p =>
    let log := wordBytes (p.attLog.flatMap (fun a => (List.range 8).map a.word))
    { p with signing := some (Config.sha3 (log ++ leBytes p.ext.toNat 32)), sigDone := false })

/-- ATTEST_SIGN_DONE: the signature stands in ATTSIG (R373). -/
def State.attestSigned (s : State) (sock : Nat) : State :=
  s.modPkg sock (fun p =>
    match p.signing with
    | none => p
    | some d =>
      let word := fun k => BitVec.ofNat 64 (leValue ((List.range (if k = 302 then 4 else 8)).map (fun j => Config.signature d (8 * k + j))))
      { p with signing := none, sigDone := true, attSig := (List.range 303).map (fun k => (k, word k)) })

/-- Boot page written (R373). A write of nonzero bits to a field that "must be written 0", of which the spec says no more,
is ignored whole, here as on the debug page and the fabric page (DESIGN CHOICE, log 44). -/
def State.bootWrite (s : State) (sock off : Nat) (x : Word) : State :=
  if off = 8 then s.releaseCore sock x
  else if off = 0x10 then (if x.toNat % 4 ≠ 0 then s else s.modPkg sock (fun p => { p with relPc := x }))
  else if 0x20 ≤ off ∧ off < 0x40 then s.modPkg sock (fun p => { p with attExt := tset p.attExt ((off - 0x20) / 8) x })
  else if off = 0x40 then
    if x.toNat / 512 ≠ 0 then s
    else
    let s := s.modPkg sock (fun p => { p with attCmd := x.setWidth 9 })
    if x = 0x100#64 then s.attestSign sock
    else if 1 ≤ x.toNat ∧ x.toNat ≤ 255 then s.attestAppend sock (x.setWidth 8)
    else s
  else if off = 0x80 then
    if x.toNat % 4096 ≠ 0 ∨ x.toNat / 2 ^ 52 ≠ 0 then s else s.modPkg sock (fun p => { p with dbgLog := x.toNat })
  else s

/-- Host-port page (R371). -/
def State.hostPortRead (s : State) (sock off : Nat) : Word :=
  let p := s.pkg sock
  let n := off / 0x100
  if 2 ≤ n then 0
  else match off % 0x100 with
    | 0 => BitVec.ofNat 64 ((if n = 1 ∧ (s.fusesOf sock).endpoint then 1 else 0) + (tget p.hpWidth n 0).toNat * 2)
    | 8 => (tget p.hpTno n 0).setWidth 64
    | 0x10 => tget p.endBase n 0
    | _ => 0

/-- Host-port page written (R371). -/
def State.hostPortWrite (s : State) (sock off : Nat) (x : Word) : State :=
  let n := off / 0x100
  if 2 ≤ n then s
  else if off % 0x100 = 8 then
    if x.toNat / 2 ^ 12 ≠ 0 then s else s.modPkg sock (fun p => { p with hpTno := tset p.hpTno n (x.setWidth 12) })
  else if off % 0x100 = 0x10 then
    if x.toNat &&& 0xFFF000003FFFF800 ≠ 0 then s else s.modPkg sock (fun p => { p with endBase := tset p.endBase n x })
  else s

/-- DBGDATA: the selected register of a stopped context; otherwise a read returns 0 and a write is ignored (R375). -/
def State.dbgDataRead (s : State) (core : Nat) : Word :=
  let k := s.core core
  let c := 8 * core + k.dbgSel.toNat / 2 ^ 13
  let n := k.dbgSel.toNat % 2 ^ 13
  if (s.ctx c).life ≠ .parked .stop then 0
  else if ctxNumber n then s.regRead c n
  else if isX7 c ∧ 0x800 ≤ n ∧ n ≤ 0x805 then s.supRead core n
  else 0

/-- DBGDATA written (R375). -/
def State.dbgDataWrite (s : State) (core : Nat) (x : Word) : State :=
  let k := s.core core
  let c := 8 * core + k.dbgSel.toNat / 2 ^ 13
  let n := k.dbgSel.toNat % 2 ^ 13
  if (s.ctx c).life ≠ .parked .stop then s
  else if ctxNumber n then s.regWrite c n x
  else if isX7 c ∧ 0x800 ≤ n ∧ n ≤ 0x805 then s.supWrite core n x
  else s

/-- DBGCTL written: CLAIM, then stops, then resumes, ascending (R375). -/
def State.dbgCtlWrite (s : State) (core : Nat) (x : Word) : State :=
  if x.toNat / 2 ^ 24 ≠ 0 then s
  else
    let s := s.modCore core (fun k => { k with claim := x.setWidth 8 })
    let s := (List.range 8).foldl (fun s j => if x.getLsbD (8 + j) then s.debugStop (8 * core + j) else s) s
    (List.range 8).foldl (fun s j => if x.getLsbD (16 + j) then s.debugResume (8 * core + j) else s) s

/-- Debug page of a core (R375). -/
def State.debugRead (s : State) (core off : Nat) : Word :=
  let k := s.core core
  if off = 0 then k.claim.setWidth 64
  else if off = 8 then BitVec.ofNat 64 (k.dbgSel.toNat % 2 ^ 13 + k.dbgSel.toNat / 2 ^ 13 * 2 ^ 16)
  else if off = 0x10 then s.dbgDataRead core
  else if 0x40 ≤ off ∧ off < 0x60 then tget k.bp ((off - 0x40) / 8) 0
  else if 0x80 ≤ off ∧ off < 0xC0 then
    if off % 16 = 0 then tget k.wpa ((off - 0x80) / 16) 0 else tget k.wpb ((off - 0x80) / 16) 0
  else 0

/-- Debug page of a core written (R375); a write of nonzero bits to a field that must be written 0 is ignored whole (DESIGN
CHOICE, log 44). -/
def State.debugWrite (s : State) (core off : Nat) (x : Word) : State :=
  if off = 0 then s.dbgCtlWrite core x
  else if off = 8 then
    if x.toNat / 2 ^ 19 ≠ 0 ∨ x.toNat / 2 ^ 13 % 8 ≠ 0 then s
    else s.modCore core (fun k => { k with dbgSel := BitVec.ofNat 16 (x.toNat % 2 ^ 13 + x.toNat / 2 ^ 16 * 2 ^ 13) })
  else if off = 0x10 then s.dbgDataWrite core x
  else if 0x40 ≤ off ∧ off < 0x60 then
    s.modCore core (fun k => { k with bp := tset k.bp ((off - 0x40) / 8) (x &&& ~~~ 2#64) })
  else if 0x80 ≤ off ∧ off < 0xC0 then
    if off % 16 = 0 then s.modCore core (fun k => { k with wpa := tset k.wpa ((off - 0x80) / 16) (x &&& ~~~ 7#64) })
    else if x.toNat / 2 ^ 29 ≠ 0 then s
    else s.modCore core (fun k => { k with wpb := tset k.wpb ((off - 0x80) / 16) x })
  else s

/-- A line of a frame that is locked: its O words are recalled and written, and every tracked sharer invalidated; its entry
and its postmark stay unless a word was written (R149, R314). -/
def State.lockLine (s : State) (line : Nat) : State :=
  (List.range 8).foldl (fun s w => (s.recallWord (line + 8 * w)).invalidateWord (line + 8 * w) none) s

/-- The homes of a socket drop the entry that they have cached for a frame (R314). -/
def State.dropFrame (s : State) (sock frame : Nat) : State :=
  { s with fot := s.fot.filter (fun e => e.1 % 2 ^ 30 != frame || e.1 / (2 ^ 30 * 544) != sock) }

/-- FOTSYNC of a frame, at every home of the socket: the cached entries are dropped; with LOCK set in the entry now read,
every O word of the frame is recalled and written and every tracked sharer invalidated (R314). The homes of a socket hold
entries of its own frames alone (R310). -/
def State.fotSync (s : State) (sock : Nat) (x : Word) : State :=
  if x.toNat % 4096 ≠ 0 ∨ x.toNat / 2 ^ 52 ≠ 0 then s
  else
    let pa := x.toNat
    if !s.isMemory pa || sockOf pa != sock then s
    else
      let s := s.dropFrame sock (frameOf pa)
      let s := (List.range 64).foldl (fun s k => s.fotFill (pa + 64 * k)) s
      if (s.pkg sock).fotbase ≠ 0 ∧ (s.fotRead pa).getLsbD 15 then
        (s.dir.filter (fun e => e.1 / 4096 == pa / 4096)).foldl (fun s e => s.lockLine e.1) s
      else s

/-- TENTSYNC: every unit uses the entry as it now stands, and the tenant's allowances restart (R314, R316, R351). -/
def State.tentSync (s : State) (sock : Nat) (x : Word) : State :=
  if x.toNat / 2 ^ 12 ≠ 0 then s
  else
    let (t, s) := s.loadTenant sock x.toNat
    let s := s.forceTenant sock x.toNat t
    (List.range 68).foldl (fun s e =>
      if s.hasEfc (68 * sock + e) then s.modEfc (68 * sock + e) (fun f => { f with allow := tset f.allow x.toNat (t.ebudget : Int) })
      else s) s

/-- A read of n bytes at a populated device address, performed at its home (R110, R111). -/
def State.devRead (s : State) (pa n : Nat) : Word × State :=
  let sock := sockOf pa
  match devPage pa with
  | some (.ident, off) => (s.identRead sock off, s)
  | some (.tableCtl, _) => (0, s)
  | some (.groups, off) =>
    let g := tget (s.pkg sock).groups (off / 0x80) { tno := 0, cluster := 0, members := [] }
    (g.read (g.members.any (fun t => (s.onContext t).isSome)) (off % 0x80 / 8), s)
  | some (.interleave, off) =>
    (BitVec.ofNat 64 (off / 64 + off / 8 % 8 * 2 ^ 9 + if s.hasHome (544 * sock + off / 64) then 2 ^ 12 else 0), s)
  | some (.efc e, off) => ((s.efc (68 * sock + e)).read off, s)
  | some (.efcData e, off) => (tget (s.efc (68 * sock + e)).data (off / 8) 0, s)
  | some (.fabric, off) => (s.fabricRead sock off, s)
  | some (.boot, off) => (s.bootRead sock off, s)
  | some (.hostPort, off) => (s.hostPortRead sock off, s)
  | some (.dispatcher c, off) => (s.dispatcherRead (64 * sock + c) off, s)
  | some (.debug k, off) => (s.debugRead (512 * sock + k) off, s)
  | some (.rom, off) => (BitVec.ofNat 64 (leValue ((List.range n).map (fun j => Config.romByte (off + j)))), s)
  | some (.flash, off) => (BitVec.ofNat 64 (leValue (memBytes s.flash (2 ^ 26 * sock + off) n)), s)
  | some (.host _, off) =>
    let (k, s) := s.draw
    (BitVec.ofNat 64 (leValue ((List.range n).map (fun j => Config.deviceByte k (off + j)))), s)
  | none => (0, s)

/-- A write of n bytes at a populated device address, performed at its home; RO registers and offsets that name no
register ignore it (R6, R110, R111). -/
def State.devWrite (s : State) (pa n : Nat) (x : Word) : State :=
  let sock := sockOf pa
  match devPage pa with
  | some (.tableCtl, off) => if off = 0 then s.fotSync sock x else if off = 8 then s.tentSync sock x else s
  | some (.efc e, off) => s.modEfc (68 * sock + e) (fun f => f.write off x)
  | some (.efcData e, off) => s.modEfc (68 * sock + e) (fun f => { f with data := tset f.data (off / 8) x })
  | some (.fabric, off) => s.fabricWrite sock off x
  | some (.boot, off) => s.bootWrite sock off x
  | some (.hostPort, off) => s.hostPortWrite sock off x
  | some (.debug k, off) => s.debugWrite (512 * sock + k) off x
  | some (.host _, _) => { s with outbox := s.outbox ++ [.deviceStore pa n x] }
  | _ => s

end Sys2Proof.Machine
end

