-- ==== Sys2Proof/Machine/Stores.lean ====
section
/-! DEFINITION. What is performed after retirement: the store buffer (spec/06 R154, R156, R159), the tile store queue
(spec/05 R142, R146, spec/09 R237, spec/11 R289), and the wait of a release (spec/05 R141). -/

namespace Sys2Proof.Machine

/-- The agent of a retired store. -/
def PendingStore.agent (p : PendingStore) : Agent :=
  { cl := clusterOf p.ctx, sbit := coreOf p.ctx % 8, origin := p.ctx, tno := p.tno, pc := p.pc, exempt := false }

/-- The dead letter of refused bytes of a store, drain or tile row (KIND 6, R172). -/
def letter6 (a : Agent) (fote : BitVec 16) (pa : Nat) (mask : BitVec 8) : DeadLetter :=
  { kind := 6, tno := a.tno, fote := fote, origin := a.origin, pc := a.pc, pa := wordOf pa,
    mask := mask.setWidth 64 <<< (8 * wordIx pa), ctr := 0, copyRec := 0 }

/-- A write performed after retirement: refused bytes are dead-lettered; an error, and memory of a socket that is no
longer joined, is reported as a lost write (R128, R156, R362). -/
def State.writeLate (s : State) (a : Agent) (pol : Pol) (pa n : Nat) (x : Word) (rel : Option Scope) : State :=
  if !s.backed (a.cl / 64) pa then s.lostWrite (s.firstCore a.cl) 0 (wordOf pa) a.tno a.origin
  else match writeBytes a pol pa n x rel s with
  | .ok _ s => s
  | .error (.frame _) s => s.deadLetter (sockOf pa) (letter6 a (s.fotEntry pa) pa (maskOf (pa % 8) n))
  | .error (.error e) s => s.lostWrite (coreOf a.origin) 1 e a.tno a.origin

/-- A run of bytes written after retirement, word part by word part, ascending. -/
def State.writeRunLate (s : State) (a : Agent) (pol : Pol) (pa : Nat) (bytes : List (BitVec 8)) (rel : Option Scope) : State :=
  ((wordParts (bytes.length + 1) pa bytes.length).foldl (fun (q : State × List (BitVec 8)) p =>
    (q.1.writeLate a pol p.1 p.2 (BitVec.ofNat 64 (leValue (q.2.take p.2))) rel, q.2.drop p.2)) (s, bytes)).1

/-- The agent of an entry of a tile store queue. -/
def TileDrain.agent (e : Nat) (d : TileDrain) : Agent :=
  { cl := e / 4, sbit := 8 + e % 4, origin := d.ctx, tno := d.tno, pc := d.pc, exempt := false }

/-- The part of a release's wait that its cluster cache takes: at .pkg and .sys every word in B is drained (R141). -/
def State.releaseAt (s : State) (a : Agent) (sc : Scope) : State :=
  match sc with
  | .pkg => s.drainAll a .pkg
  | .sys => s.drainAll a .sys
  | _ => s

/-- What the cluster buffers of the words of a run of bytes reaches the home ahead of what the thread writes there past its
cluster cache, as it would in one request with it (R102, R134). It is drained as the instruction retires rather than carried
(DESIGN CHOICE, log 37). -/
def State.drainRun (s : State) (a : Agent) (pa n : Nat) : State :=
  (wordParts (n + 1) pa n).foldl (fun s p => s.drainWord a (wordOf p.1) false none 1) s

/-- The same of a put's or copy's destination and of its receipt counter, which its increments change at its home. -/
def State.drainPieces (s : State) (a : Agent) (ps : List Piece) (ctr : Option Nat) : State :=
  let runs : List (Nat × Nat) := ps.map (fun p => (p.pa, p.bytes.length)) ++ (ctr.map (fun c => (c, 8))).toList
  runs.foldl (fun s p => s.drainRun a p.1 p.2) s

/-- A version step of `tstore.aon`: one is added at the word's home, as a release at the scope, which waits for the rows
before it; refused or faulty it is not performed (R141, R146, R156, R170). -/
def State.versionStep (s : State) (a : Agent) (pa : Nat) (sc : Scope) : State :=
  let s := s.releaseAt a sc
  match clAtomic a .wt .add pa 8 1 0 none (some sc) s with
  | .ok _ s => s
  | .error (.frame _) s => s.deadLetter (sockOf pa) { letter6 a (s.fotEntry pa) pa 255#8 with kind := 6 }
  | .error (.error e) s => s.lostWrite (coreOf a.origin) 4 e a.tno a.origin

/-- An entry of a tile store queue drains. -/
def State.drainEntry (s : State) (e : Nat) (d : TileDrain) : State :=
  let a := d.agent e
  match d.step with
  | .row pieces => pieces.foldl (fun s p => s.writeRunLate a d.pol p.pa p.bytes d.rel) s
  | .version pa => s.versionStep a pa d.scope
  | .release => s.releaseAt a d.scope

/-- TILE_STORE_DRAIN: the oldest entry of an engine's tile store queue drains and is freed (R289). -/
def State.drainOldest (s : State) (e : Nat) : State :=
  match (s.engine e).storeq with
  | [] => s
  | d :: rest => (s.modEngine e (fun x => { x with storeq := rest })).drainEntry e d

/-- The first n entries of an engine's tile store queue drain. -/
def drainMany (e : Nat) : Nat → State → State
  | 0, s => s
  | n + 1, s => drainMany e n (s.drainOldest e)

/-- Every entry of a thread in the engines of a cluster drains, with what stands before it. -/
def State.drainThread (s : State) (cl tcb : Nat) : State :=
  (s.enginesOf cl).foldl (fun s e =>
    let q := (s.engine e).storeq
    if q.any (fun d => d.tcb == tcb) then drainMany e q.length s else s) s

/-- Two byte ranges overlap. -/
def overlaps (a n b m : Nat) : Bool := decide (a < b + m) && decide (b < a + n)

/-- A thread has a retired, undrained tile store that overlaps n bytes (R133, R155). -/
def State.tilePending (s : State) (cl tcb pa n : Nat) : Bool :=
  (s.enginesOf cl).any (fun e => (s.engine e).storeq.any (fun d => d.tcb == tcb &&
    (match d.step with
     | .row ps => ps.any (fun q => overlaps q.pa q.bytes.length pa n)
     | .version v => overlaps v 8 pa n
     | .release => false)))

/-- STORE_PERFORM of one retired store: a release first waits for its thread's tile stores and drains B words
(R141, R159), and every store waits for the thread's overlapping tile stores (R155). -/
def State.performStore (s : State) (p : PendingStore) : State :=
  let a := p.agent
  let s := match p.rel with
    | none => s
    | some sc => (s.drainThread a.cl p.tcb).releaseAt a sc
  let s := if s.tilePending a.cl p.tcb p.pa p.n then s.drainThread a.cl p.tcb else s
  if isDevice p.pa then
    if s.backed (a.cl / 64) p.pa then (s.visit a .wrW p.pa).devWrite p.pa p.n p.data
    else s.lostWrite (s.firstCore a.cl) 0 (wordOf p.pa) a.tno a.origin
  else s.writeLate a p.pol p.pa p.n p.data p.rel

/-- STORE_PERFORM: the oldest retired store of a core (R154). A core's stores are performed in the order of their
retirement, those of its other contexts among them: of the orders that R154 allows for different words the model shows this
one (DESIGN CHOICE, log 37). -/
def State.performOldest (s : State) (core : Nat) : State :=
  match (s.core core).sbuf with
  | [] => s
  | p :: rest => (s.modCore core (fun k => { k with sbuf := rest })).performStore p

/-- The first n retired stores of a core are performed. -/
def performMany (core : Nat) : Nat → State → State
  | 0, s => s
  | n + 1, s => performMany core n (s.performOldest core)

/-- Every retired store of a context is performed, with those before them in the core's store buffer. -/
def State.flushStores (s : State) (c : Nat) : State :=
  let q := (s.core (coreOf c)).sbuf
  if q.any (fun p => p.ctx == c) then performMany (coreOf c) q.length s else s

/-- A context has a retired store that overlaps n bytes, or goes to a device when they do. -/
def State.storePending (s : State) (c pa n : Nat) : Bool :=
  (s.core (coreOf c)).sbuf.any (fun p => p.ctx == c && (overlaps p.pa p.n pa n || (isDevice pa && isDevice p.pa)))

/-- An access of a context waits for its thread's earlier overlapping stores and tile stores (R133, R155). -/
def State.waitOwn (s : State) (c pa n : Nat) : State :=
  let s := if s.storePending c pa n then s.flushStores c else s
  if s.tilePending (clusterOf c) (s.ctx c).tcb pa n then s.drainThread (clusterOf c) (s.ctx c).tcb else s

/-- ReleaseWait(scope): every earlier store and tile store of the context is performed, and at .pkg or .sys every B
word of the cluster drained (R141). -/
def State.releaseWait (s : State) (c : Nat) (sc : Scope) : State :=
  let s := (s.flushStores c).drainThread (clusterOf c) (s.ctx c).tcb
  let a : Agent := { cl := clusterOf c, sbit := coreOf c % 8, origin := c, tno := s.tnoOf c, pc := (s.ctx c).pc, exempt := false }
  s.releaseAt a sc

/-- The scope of a code (R71); a code 5-7, which only a record that software has rewritten can hold, is taken as .sys (R177;
DESIGN CHOICE, log 46). -/
def scopeFrom (k : Nat) : Scope :=
  match k with
  | 0 => .ctx
  | 1 => .core
  | 2 => .clu
  | 3 => .pkg
  | _ => .sys

/-- The wider of two scopes of release. -/
def widest : Option Scope → Option Scope → Option Scope
  | none, y => y
  | x, none => x
  | some a, some b => some (if a.code < b.code then b else a)

/-- The scope of the release that a store of the context in turn is: its own, or that of an earlier fence (R135, R140). -/
def State.relOf (s : State) (ord : Order) (sc : Scope) : Option Scope :=
  widest (if ord = .rel then some sc else none) s.me.fenced

/-- The wait of a store that is a release, by its suffix or by an earlier fence, before it retires (R135, R140, R141). -/
def State.waitRelease (s : State) (ord : Order) (sc : Scope) : State :=
  match s.relOf ord sc with
  | some w => s.releaseWait s.cur w
  | none => s

/-- A store of the context in turn retires: it is left in its core's store buffer (R154). -/
def State.queuePending (s : State) (pa n : Nat) (x : Word) (pol : Pol) (rel : Option Scope) : State :=
  let p : PendingStore :=
    { ctx := s.cur, tcb := s.me.tcb, tno := s.me.tno, pc := s.pc, pa := pa, n := n, data := x, pol := pol, rel := rel }
  s.modCore s.myCore (fun k => { k with sbuf := k.sbuf ++ [p] })

end Sys2Proof.Machine
end

