-- ==== Sys2Proof/Machine/Operands.lean ====
section
/-! DEFINITION. Operand forms: immediates (spec/03 R72), the address forms of loads and stores (spec/06 R152, R159,
spec/07 R195), and the accesses by virtual address that instructions share (spec/06 R153, spec/07 R195). -/

namespace Sys2Proof.Machine

/-- A signed immediate widened to 64 bits (R72). -/
def simm {n : Nat} (x : BitVec n) : Word := x.signExtend 64

/-- An unsigned immediate widened to 64 bits (R72). -/
def uimm {n : Nat} (x : BitVec n) : Word := x.setWidth 64

/-- g[base] plus an offset scaled by the access size (R159, R195). -/
def State.addrOff (s : State) (b : Reg) (z : BitVec 2) (off : BitVec 7) : Word := s.readG b + (simm off <<< z.toNat)

/-- g[base] plus g[index], shifted by the size where SC is 1 (R159, R195). -/
def State.addrIdx (s : State) (b : Reg) (z : BitVec 2) (idx : Reg) (c : Bool) : Word :=
  s.readG b + (s.readG idx <<< (if c then z.toNat else 0))

/-- g[base] plus an offset in lines (R72, R163). -/
def State.addrLine (s : State) (b : Reg) (off : BitVec 7) : Word := s.readG b + (simm off <<< 6)

/-- MISALIGNED where an address is no multiple of n (R152). -/
def aligned (va : Word) (n : Nat) (kind : AccessKind) (pol : Option Pol) : Act Unit :=
  trapIf (va.toNat % n != 0) (Trap.of .misaligned va (detailOf kind.code (polCode pol) false false false 0 0))

/-- A load of a device register, performed at its page's home once (R110, R111); a match leaves it unperformed (R376). -/
def readDevice (pa n : Nat) : Act Word := fun s =>
  let (x, t) := (s.visit s.agent .rdW pa).devRead pa n
  .ok x t

/-- Load (R195), as a value of n bytes: alignment, translation, device checks, the wait for own stores, the read, and
the acquire. Loads are performed whole and in program order, though R197 lets plain ones to different words be performed in any
order (DESIGN CHOICE, log 37). -/
def loadValue (va : Word) (n : Nat) (pol : Pol) (ord : Order) (sc : Scope) : Act Word := do
  aligned va n .read (some pol)
  let pa ← xlate va .read (some pol)
  devCheck va pa n .read pol
  modify (fun s => s.waitOwn s.cur pa n)
  note va n (some pol) true false 0 (isDevice pa)
  let acq := if ord = .acq then some sc else none
  let s ← get
  let x ← (if isDevice pa then guarded (readDevice pa n)
    else lift va (detailOf 0 pol.code false false false 0 0) 0 (readBytes s.agent pol pa n acq))
  guarded (modify (fun s => if ord = .acq then s.acquireAt s.myCluster sc else s))
  pure x

/-- A value of n bytes sign- or zero-extended to 64 bits (R195). -/
def extend (x : Word) (n : Nat) (sign : Bool) : Word :=
  let m := 2 ^ (8 * n)
  let v := x.toNat % m
  if sign ∧ m ≤ 2 * v then BitVec.ofInt 64 ((v : Int) - m) else BitVec.ofNat 64 v

/-- Load into a general register (R195). -/
def loadReg (d : Reg) (va : Word) (z : BitVec 2) (sign : Bool) (pol : Pol) (ord : Order) (sc : Scope) : Act Unit := do
  let x ← loadValue va (2 ^ z.toNat) pol ord sc
  modify (fun s => s.writeG d (extend x (2 ^ z.toNat) sign))

/-- Store (R159) up to its retirement: alignment, translation, device checks, the wait of a release; the write is left in
the core's store buffer (R141, R154). -/
def storeReg (t : Reg) (va : Word) (z : BitVec 2) (pol : Pol) (ord : Order) (sc : Scope) : Act Unit := do
  let n := 2 ^ z.toNat
  aligned va n .write (some pol)
  let pa ← xlate va .write (some pol)
  devCheck va pa n .write pol
  modify (fun s => s.waitRelease ord sc)
  note va n (some pol) false true 0 (isDevice pa)
  guarded (modify (fun s =>
    s.queuePending pa n (BitVec.ofNat 64 ((s.readG t).toNat % 2 ^ (8 * n))) pol (s.relOf ord sc)))

/-- The pages, 4 KiB apart, that n bytes at an address touch: the first address of each within the range. -/
def pageStarts : Nat → Nat → Nat → List Nat
  | 0, _, _ => []
  | fuel + 1, va, n =>
    if n = 0 then [] else
      let k := min n (4096 - va % 4096)
      va :: pageStarts fuel (va + k) (n - k)

/-- The parts of a run of bytes that lie in one 4 KiB page each, with their translations, ascending. -/
def xlateRun (va : Word) (n : Nat) (kind : AccessKind) (pol : Pol) : Act (List (Word × Nat × Nat)) := do
  let starts := pageStarts (n / 4096 + 2) va.toNat n
  starts.mapM (fun a => do
    let v := BitVec.ofNat 64 a
    let pa ← xlate v kind (some pol)
    pure (v, pa, min (va.toNat + n - a) (4096 - a % 4096)))

/-- PROTECTION for the first part of a run in device-register space (R157). -/
def runNotDevice (parts : List (Word × Nat × Nat)) (kind : AccessKind) (pol : Pol) : Act Unit :=
  match parts.find? (fun p => isDevice p.2.1) with
  | some p => notDevice p.1 p.2.1 kind (some pol)
  | none => pure ()

end Sys2Proof.Machine
end

