-- ==== Sys2Proof/Machine/Thread.lean ====
section
/-! DEFINITION. Threads and the dispatcher: the TCB (spec/01 R20, R21), run queues (spec/11 R276, R277), saving and
restoring (R33, R132), placement (R30), pre-emption (R31), quantum expiry (R32), pulls (R34), co-residence groups
(R38, spec/12 R319, R320), sleep (spec/11 R279), the counter wait table (spec/12 R321, R322), and the end of a thread
(R39). -/

namespace Sys2Proof.Machine

/-- Header fields of a TCB (R20). -/
def State.tcbPrio (s : State) (cl tcb : Nat) : Nat := (s.tcbWord cl tcb 0xC08).toNat % 32
def State.tcbTno (s : State) (cl tcb : Nat) : BitVec 12 := (s.tcbWord cl tcb 0xC10).setWidth 12
def State.tcbState (s : State) (cl tcb : Nat) : Nat := (s.tcbWord cl tcb 0xC00).toNat % 16

/-- AFFINITY permits a cluster (R20). -/
def State.permits (s : State) (cl tcb target : Nat) : Bool := (s.tcbWord cl tcb 0xC18).getLsbD (target % 64)

/-- The co-residence group of a thread, if it is a member (R20). -/
def State.groupNo (s : State) (cl tcb : Nat) : Option Nat :=
  let g := s.tcbWord cl tcb 0xC20
  if g.getLsbD 15 then some (g.toNat % 256) else none

/-- A tenant has used more than its share of context time in the window (R29, R317). -/
def State.overShare (s : State) (sock : Nat) (tno : BitVec 12) : Bool :=
  let t := s.tenant sock tno
  t.share != 0 && decide (t.share * 1000 < tget (s.pkg sock).used tno.toNat 0)

/-- The effective priority of a thread (R29). -/
def State.effective (s : State) (cl tcb : Nat) : Nat :=
  if s.overShare (cl / 64) (s.tcbTno cl tcb) then 0 else s.tcbPrio cl tcb

/-- The effective level of a thread that stands in a queue: 0 in queue 0, where a demoted thread stays until the walk at
the window's end reaches it, and 0 while its tenant is over its share, else its queue's number (R29, R277). -/
def State.level (s : State) (cl q tcb : Nat) : Nat :=
  if q = 0 || s.overShare (cl / 64) (s.tcbTno cl tcb) then 0 else q

/-- A run queue. -/
def State.queue (s : State) (cl q : Nat) : List Nat := tget (s.cluster cl).runq q []

/-- A run queue replaced. -/
def State.setQueue (s : State) (cl q : Nat) (l : List Nat) : State :=
  s.modCluster cl (fun c => { c with runq := if l.isEmpty then tdel c.runq q else tset c.runq q l })

/-- A TCB appended to a run queue: NEXT := 0, and the old tail links to it (R276). -/
def State.append (s : State) (cl q tcb : Nat) : State :=
  let l := s.queue cl q
  let s := s.setTcb cl tcb 0xC30 0
  let s := match l.getLast? with
    | some t => s.setTcb cl t 0xC30 (BitVec.ofNat 64 tcb)
    | none => s
  s.setQueue cl q (l ++ [tcb])

/-- A TCB unlinked from a run queue; one that leaves queue 0 is no demoted thread there any more (R277). -/
def State.unlink (s : State) (cl q tcb : Nat) : State :=
  let l := s.queue cl q
  let s := (s.relink cl l tcb).setQueue cl q (l.filter (· != tcb))
  if (s.cluster cl).demoted.contains tcb || (s.cluster cl).walk.contains tcb then
    s.modCluster cl (fun c => { c with demoted := c.demoted.filter (· != tcb), walk := c.walk.filter (· != tcb) })
  else s

/-- The physical addresses of the words of a TCB header (R20). -/
def headerWords (tcb : Nat) : List Nat := (List.range 12).map (fun k => tcb + 0xC00 + 8 * k)

/-- The headers of threads, read by a dispatcher before it goes by their fields: what its thread-context cache holds needs no
request (R20, R33, R107). -/
def State.readHeaders (s : State) (cl : Nat) (tcbs : List Nat) : State :=
  tcbs.foldl (fun s t => (readUnit cl 13 (headerWords t) s).1) s

/-- The headers of the threads in a dispatcher's queues, read at its decision (R30, R31, R107). -/
def State.lookOver (s : State) (cl : Nat) : State := s.readHeaders cl ((s.cluster cl).runq.flatMap (·.2))

/-- Enqueues a thread READY at the tail of queue PRIO of a dispatcher, which reads its header (R20, R276). -/
def State.enqueue (s : State) (cl tcb : Nat) : State :=
  let s := s.readHeaders cl [tcb]
  (s.setTstate cl tcb 1 0).append cl (s.tcbPrio cl tcb) tcb

/-- The queue of a cluster in which a thread stands. -/
def State.queueOf (s : State) (cl tcb : Nat) : Option Nat :=
  (s.cluster cl).runq.findSome? (fun e => if e.2.contains tcb then some e.1 else none)

/-- The dispatcher in whose queues a thread stands, and the queue. -/
def State.standing (s : State) (tcb : Nat) : Option (Nat × Nat) :=
  s.clusters.findSome? (fun e => (s.queueOf e.1 tcb).map (fun q => (e.1, q)))

/-- Demotion of one queue: heads of tenants over their share move to queue 0, until one is within its share (R277). -/
def demote (cl q : Nat) : Nat → State → State
  | 0, s => s
  | n + 1, s =>
    match s.queue cl q with
    | [] => s
    | t :: _ =>
      if s.overShare (cl / 64) (s.tcbTno cl t) then
        demote cl q n (((s.unlink cl q t).append cl 0 t).modCluster cl (fun c => { c with demoted := c.demoted ++ [t] }))
      else s

/-- Demotion at a decision, queues 1 to 23 (R277). -/
def State.demoteAll (s : State) (cl : Nat) : State :=
  (List.range 23).foldl (fun s k => demote cl (k + 1) (s.queue cl (k + 1)).length s) s

/-- Vacant user contexts, lowest core and then lowest context first (R30). -/
def State.vacants (s : State) (cl : Nat) : List Nat := (s.userCtxs cl).filter (fun c => (s.ctx c).life == .vacant)

/-- The threads that belong to a co-residence group (R319). -/
def State.members (s : State) (sock g : Nat) : List Nat :=
  (tget (s.pkg sock).groups g { tno := 0, cluster := 0, members := [] }).members

/-- READY members of a group that stand in the queues of a cluster. -/
def State.readyMembers (s : State) (cl g : Nat) : List Nat :=
  (s.members (cl / 64) g).filter (fun t => (s.queueOf cl t).isSome)

/-- A member of a group stands on a context. -/
def State.groupPlaced (s : State) (cl g : Nat) : Bool := (s.members (cl / 64) g).any (fun t => (s.onContext t).isSome)

/-- The threads that one decision would place with a thread: itself, or the READY members of a group of which none is
on a context (R38). -/
def State.party (s : State) (cl tcb : Nat) : List Nat :=
  match s.groupNo cl tcb with
  | none => [tcb]
  | some g => if s.groupPlaced cl g then [tcb] else s.readyMembers cl g

/-- A co-residence group permits a cluster: every member does, and while members are on contexts, the cluster is theirs: a
member that becomes ready then is placed with them or waits (R38). -/
def State.groupPermits (s : State) (cl target tcb : Nat) : Bool :=
  match s.groupNo cl tcb with
  | none => true
  | some g =>
    (s.members (cl / 64) g).all (fun t => s.permits cl t target) &&
      (s.members (cl / 64) g).all (fun t => match s.onContext t with | some c => decide (clusterOf c = target) | none => true)

/-- The level at which the threads placed with one another are considered: that of the lowest-priority one (R38). -/
def State.partyLevel (s : State) (cl tcb : Nat) : Nat :=
  ((s.party cl tcb).map (fun t => s.level cl ((s.queueOf cl t).getD 0) t)).foldl min 23

/-- A thread is eligible for a cluster: AFFINITY permits it and its tenant is not suspended (R30); a group only as a
whole, at the level of its lowest-priority member (R38). -/
def State.eligible (s : State) (cl target q tcb : Nat) : Bool :=
  (s.party cl tcb).all (fun t => s.permits cl t target && !(s.tenant (cl / 64) (s.tcbTno cl t)).susp) &&
    (s.party cl tcb).contains tcb && s.groupPermits cl target tcb && s.partyLevel cl tcb == s.level cl q tcb

/-- The threads of a dispatcher's queues, each with its queue, as R30 takes them: by falling effective level, and within a
level from the head. Level 0 is queue 0 and then, the higher queues first, the threads behind a queue's head whose tenants
are over their shares (R29, R277; the order of the last is the model's choice, log 42). -/
def State.ranked (s : State) (cl : Nat) : List (Nat × Nat) :=
  let qs := (List.range 24).map (23 - ·)
  let all := qs.flatMap (fun q => (s.queue cl q).map (fun t => (q, t)))
  all.filter (fun e => s.level cl e.1 e.2 != 0) ++ (s.queue cl 0).map (fun t => (0, t)) ++
    all.filter (fun e => e.1 != 0 && s.level cl e.1 e.2 == 0)

/-- A parked or running thread that may lose its context to a thread of effective priority q (R31). -/
def State.candidate (s : State) (cl q c : Nat) : Bool :=
  let x := s.ctx c
  let e := s.effective cl x.tcb
  match x.life with
  | .running => decide (e < q)
  | .parked .tilebind => decide (e < q)
  | .parked .cwait => decide (e ≤ q)
  | _ => false

/-- One context is a better victim than another: lower effective priority, then a CWAIT park, then placed longer ago
(R31). -/
def State.worse (s : State) (cl a b : Nat) : Bool :=
  let x := s.ctx a
  let y := s.ctx b
  let ea := s.effective cl x.tcb
  let eb := s.effective cl y.tcb
  let wa := x.life == .parked .cwait
  let wb := y.life == .parked .cwait
  if ea ≠ eb then ea < eb else if wa ≠ wb then wa else decide (x.placed < y.placed)

/-- The victim among candidates. -/
def State.victim (s : State) (cl : Nat) : List Nat → Option Nat
  | [] => none
  | a :: rest => some (rest.foldl (fun b c => if s.worse cl c b then c else b) a)

/-- The victim that a ready thread, with those placed with it, has when too few contexts are vacant for it (R31, R38). -/
def State.victimFor (s : State) (cl tcb : Nat) : Option Nat :=
  let need := (s.party cl tcb).length
  let free := (s.vacants cl).length
  let cs := (s.userCtxs cl).filter (s.candidate cl (s.partyLevel cl tcb))
  if free < need ∧ need ≤ free + cs.length then s.victim cl cs else none

/-- The contexts suffice for the threads placed with one another: so many are vacant, or in the dispatcher's own cluster the
rest of what a group needs can be freed (R31, R38). -/
def State.fits (s : State) (cl target free tcb : Nat) : Bool :=
  let need := (s.party cl tcb).length
  decide (need ≤ free) || (decide (1 < need) && target == cl && (s.victimFor cl tcb).isSome)

/-- The thread that R30 chooses for a target cluster with a number of vacant contexts among a dispatcher's queues: the
highest effective level that holds an eligible thread, and in it the one nearest the head; a group for which the contexts do
not suffice is passed over (R38). -/
def State.choose (s : State) (cl target free : Nat) : Option (Nat × Nat) :=
  (s.ranked cl).find? (fun e => s.eligible cl target e.1 e.2 && s.fits cl target free e.2)

/-- The quantum in core cycles that a word of the quantum table gives; 0 means 3,200,000 (R318). -/
def quantumOf (a : Nat) (x : Word) : Nat :=
  let q := x.toNat / 2 ^ (8 * (a % 8)) % 2 ^ 32
  if q = 0 then 3200000 else q

/-- The address of a thread's word of the quantum table (R318). -/
def State.quantumAt (s : State) (sock : Nat) (tno : BitVec 12) (prio : Nat) : Nat :=
  (s.pkg sock).qtabbase + 128 * (s.tenant sock tno).qsel + 4 * prio

/-- The quantum of a thread as its home reads it, errors corrected or read again and counted (R126, R127, R318). -/
def State.takeQuantum (s : State) (sock : Nat) (tno : BitVec 12) (prio : Nat) : Nat × State :=
  if (s.pkg sock).qtabbase = 0 then (3200000, s)
  else
    let a := s.quantumAt sock tno prio
    let (x, s) := s.readTable sock (wordOf a)
    (quantumOf a x, s)

/-- The saved system registers of a context, slots 0-10 (R256). -/
def Context.slots (x : Context) : List Word :=
  [0, x.cause.setWidth 64, x.trapva, x.info0.setWidth 64, x.info1.setWidth 64, x.info2.setWidth 64, x.info3, x.uepc,
    x.vrlimit.setWidth 64, x.asn.setWidth 64, x.ptroot.setWidth 64 <<< 12]

/-- The words of a TCB at offsets 0x000-0xBFF (R20). -/
def Context.image (x : Context) : List Word :=
  ((List.range 32).map x.getG) ++ ((List.range 32).flatMap (fun k => (List.range 8).map (lineWord (x.getV k)))) ++
    ((List.range 8).map x.getP) ++ ((List.range 8).flatMap (fun k => [(x.getM k).setWidth 64, ((x.getM k) >>> 64).setWidth 64])) ++
    [x.pc, x.fst.setWidth 64, x.fctl.setWidth 64, 0, 0, 0, 0, 0] ++ x.slots ++ List.replicate 53 0

/-- A context holds its thread no longer: the time since the last update is its tenant's, and is added in at the next one
(R317). -/
def State.holdEnds (s : State) (c : Nat) : State :=
  let x := s.ctx c
  s.modPkg (socketOf c) (fun p =>
    { p with unadded := tset p.unadded x.tno.toNat (tget p.unadded x.tno.toNat 0 + (s.time - x.since)) })

/-- The dispatcher saves a context's thread: offsets 0x000-0xBFF, QLEFT, and TSTATE; the save ends with a release at
.sys (R33, R132). The context becomes vacant; a debug stop or a fault pending behind a TILEBIND park goes with it, where the spec is
silent (R37; DESIGN CHOICE, log 48). -/
def State.save (s : State) (c tstate : Nat) : State :=
  let cl := clusterOf c
  let s := ((s.settle (coreOf c)).squash c).releaseWait c .sys
  let x := s.ctx c
  let s := (x.image.foldl (fun (p : State × Nat) w => (p.1.setTcb cl x.tcb p.2 w, p.2 + 8)) (s, 0)).1
  let s := (s.setTcb cl x.tcb 0xC38 (BitVec.ofNat 64 x.qleft)).setTstate cl x.tcb tstate 0
  let s := match x.fenced with
    | some f => { s with fences := tset s.fences x.tcb f }
    | none => s
  ((s.detach x.tcb).holdEnds c).setCtx c Context.vacant

/-- The registers of a TCB, as a context (R20, R33). -/
def State.restored (s : State) (cl tcb : Nat) : Context :=
  let w := fun off => s.tcbWord cl tcb off
  let regs : Context := { Context.vacant with
    g := (List.range 31).map (fun k => (k + 1, w (8 * (k + 1)))),
    v := (List.range 32).map (fun k => (k, vecOfWords ((List.range 8).map (fun j => w (0x100 + 64 * k + 8 * j))))),
    p := (List.range 7).map (fun k => (k + 1, w (0x900 + 8 * (k + 1)))),
    m := (List.range 8).map (fun k => (k, (w (0x940 + 16 * k)).setWidth 128 ||| ((w (0x948 + 16 * k)).setWidth 128 <<< 64))) }
  { regs with
    life := .running, pc := pcOf (w 0x9C0), fst := (w 0x9C8).setWidth 5, fctl := (w 0x9D0).setWidth 2,
    cause := (w 0xA08).setWidth 8, trapva := w 0xA10, info0 := (w 0xA18).setWidth 32, info1 := (w 0xA20).setWidth 32,
    info2 := (w 0xA28).setWidth 20, info3 := w 0xA30, uepc := pcOf (w 0xA38), vrlimit := (w 0xA40).setWidth 8,
    asn := (w 0xA48).setWidth 16, ptroot := (w 0xA50 >>> 12).setWidth 40, tcb := tcb, prio := (w 0xC08).setWidth 5,
    tno := (w 0xC10).setWidth 12, qleft := (w 0xC38).toNat }

/-- The physical addresses of the words of a TCB that the dispatcher reads at a placement (R20). -/
def tcbWords (tcb : Nat) : List Nat := (List.range 396).map (fun k => tcb + 8 * k)

/-- The release of a placed thread's fence goes back with its context (R140). -/
def State.dropFence (s : State) (tcb : Nat) : State := { s with fences := tdel s.fences tcb }

/-- A thread is placed on a vacant context: an acquire at .sys, the registers, QLEFT from its row when it is 0, TSTATE
and LASTLOC; counted as placement and, in another cluster than LASTLOC names, as migration (R30, R132, R318, R341). The
dispatcher reads the TCB through way 15, and an uncorrectable error in it parks the context FAULT at once (R20, R33, R40). -/
def State.place (s : State) (cl q tcb c : Nat) : State :=
  let s := (s.unlink cl q tcb).discardU cl
  let (s, bad) := readUnit cl 13 (tcbWords tcb) s
  let last := (s.tcbWord cl tcb 0xC50).toNat
  let x := s.restored cl tcb
  let (ql, s) := if x.qleft = 0 then s.takeQuantum (cl / 64) x.tno x.prio.toNat else (x.qleft, s)
  let s := s.setCtx c { x with qleft := ql, placed := s.seq, fenced := tfind s.fences tcb, since := s.time }
  let s := State.dropFence { s with seq := s.seq + 1 } tcb
  let s := (s.setTstate cl tcb 2 0).setTcb cl tcb 0xC50 (BitVec.ofNat 64 (placeOf c))
  let s := s.dispatchEvent cl 1 tcb x.tno (placeOf c) 0 0
  let s := if last / 64 % 512 = cl % 512 then s else s.dispatchEvent cl 6 tcb x.tno (placeOf c) 0 0
  match bad with
  | none => s
  | some pa => s.takeTrap c (Trap.of .memoryError (BitVec.ofNat 64 pa) 0) 0 0

/-- The threads placed with one another are placed in one decision, each on a vacant context, or not at all (R38). -/
def State.placeParty (s : State) (cl : Nat) (tcbs : List Nat) : State :=
  if tcbs.length ≤ (s.vacants cl).length then
    (tcbs.zip (s.vacants cl)).foldl (fun s p => s.place cl ((s.queueOf cl p.1).getD 0) p.1 p.2) s
  else s

/-- A placement is due: a context is vacant, and a thread fits. -/
def State.canPlace (s : State) (cl : Nat) : Bool :=
  !(s.cluster cl).runq.isEmpty && !(s.vacants cl).isEmpty && (s.choose cl cl (s.vacants cl).length).isSome

/-- One thread leaves its context by pre-emption: a CWAIT park goes on waiting without a context, any other thread is
READY at the tail of its level (R31, R33, R321). -/
def State.preemptOne (s : State) (c : Nat) : State :=
  let cl := clusterOf c
  let x := s.ctx c
  let s := s.dispatchEvent cl 2 x.tcb x.tno (placeOf c) 0 0
  if x.life = .parked .cwait then
    let s := s.modCluster cl (fun k =>
      { k with waits := k.waits.map (fun e => if e.who = .ctx c then { e with who := .thread x.tcb } else e) })
    s.save c 4
  else (s.save c 1).append cl x.prio.toNat x.tcb

/-- Pre-emption of a thread pre-empts every member of its group that is on a context (R38), but those parked FAULT, TRAP or
STOP, which are never victims (R31): that R31 holds against R38 is a DESIGN CHOICE (log 42). -/
def State.preempt (s : State) (c : Nat) : State :=
  let x := s.ctx c
  match s.groupNo (clusterOf c) x.tcb with
  | none => s.preemptOne c
  | some g =>
    let ms := (s.userCtxs (clusterOf c)).filter (fun d =>
      s.groupNo (clusterOf c) (s.ctx d).tcb == some g && (s.ctx d).life != .vacant && (s.ctx d).tcb != 0 &&
        (match (s.ctx d).life with | .parked .fault => false | .parked .trap => false | .parked .stop => false | _ => true))
    ms.foldl (fun s d => s.preemptOne d) s

/-- Contexts are freed, one victim after another, until as many are vacant as threads of a level need (R31, R38). -/
def freeFor (cl level need : Nat) : Nat → State → State
  | 0, s => s
  | n + 1, s =>
    if need ≤ (s.vacants cl).length then s
    else match s.victim cl ((s.userCtxs cl).filter (s.candidate cl level)) with
      | some c => freeFor cl level need n (s.preempt c)
      | none => s

/-- A thread, with those placed with it, is placed in one decision, which frees for a group the contexts that it still needs
(R38). -/
def State.placeWith (s : State) (cl tcb : Nat) : State :=
  let tcbs := s.party cl tcb
  (freeFor cl (s.partyLevel cl tcb) tcbs.length 56 s).placeParty cl tcbs

/-- PLACEMENT: one decision of a dispatcher (R30, R38, R277). -/
def State.placement (s : State) (cl : Nat) : State :=
  let s := (s.lookOver cl).demoteAll cl
  match s.choose cl cl (s.vacants cl).length with
  | none => s
  | some (_, t) => s.placeWith cl t

/-- The first ready thread, by effective priority, for which a context can be freed (R31). -/
def State.preempting (s : State) (cl : Nat) : Option Nat :=
  ((s.ranked cl).find? (fun e => s.eligible cl cl e.1 e.2 && (s.victimFor cl e.2).isSome)).map (·.2)

/-- PREEMPTION: a dispatcher frees a context for a ready thread; for a group it frees what is needed and places the group in
the same decision (R31, R38). -/
def State.preemption (s : State) (cl : Nat) : State :=
  let s := (s.lookOver cl).demoteAll cl
  match s.preempting cl with
  | none => s
  | some t =>
    if 1 < (s.party cl t).length then s.placeWith cl t
    else match s.victimFor cl t with
      | some c => s.preempt c
      | none => s

/-- QUANTUM EXPIRY on a context that is not parked: the thread yields to another of its effective level, or goes on
with a fresh quantum (R32). -/
def State.quantumExpiry (s : State) (c : Nat) : State :=
  let x := s.ctx c
  let cl := clusterOf c
  if x.life ≠ .running ∨ s.quantumLeft c ≠ 0 ∨ isX7 c ∨ x.tcb = 0 then s
  else
    let q := s.effective cl x.tcb
    if (s.ranked cl).any (fun e => decide (s.level cl e.1 e.2 = q) && s.eligible cl cl e.1 e.2) then (s.modCtx c (fun x => { x with qleft := 0 })).preempt c
    else
      let (n, s) := s.takeQuantum (cl / 64) x.tno x.prio.toNat
      s.modCtx c (fun x => { x with qleft := n })

/-- The other dispatchers of a compute die in the order they are asked (R12, R34). -/
def State.dieMates (s : State) (cl : Nat) : List Nat :=
  ((List.range 7).map (fun k => cl / 8 * 8 + (cl + k + 1) % 8)).filter s.hasCluster

/-- A dispatcher is idle: a vacant context, and no thread it may place (R34). -/
def State.idle (s : State) (cl : Nat) : Bool :=
  s.hasCluster cl && !(s.vacants cl).isEmpty && (s.choose cl cl (s.vacants cl).length).isNone

/-- The first thread that another dispatcher of the die would hand over (R34). -/
def State.pullable (s : State) (cl : Nat) : Option (Nat × Nat × Nat) :=
  (s.dieMates cl).findSome? (fun d => (s.choose d cl (s.vacants cl).length).map (fun p => (d, p.1, p.2)))

/-- PULL: an idle dispatcher takes a thread, or a whole group, from the first dispatcher of its die that has one for
it (R34, R38). -/
def State.pull (s : State) (cl : Nat) : State :=
  if !s.idle cl then s
  else match s.pullable cl with
    | none => s
    | some (d, _, t) =>
      (s.party d t).foldl (fun s t =>
        let s := (s.readHeaders d [t]).unlink d ((s.queueOf d t).getD 0) t
        ((s.append cl (s.tcbPrio cl t) t).readHeaders cl [t]).dispatchEvent cl 5 t (s.tcbTno cl t) 0 0 0) s

/-- The cluster that LASTLOC names, of its socket (R20). -/
def State.lastCluster (s : State) (cl tcb : Nat) : Nat := (s.tcbWord cl tcb 0xC50).toNat / 64 % 512

/-- The cluster where members of a group stand: on contexts, else in queues (R38). -/
def State.groupAt (s : State) (sock g : Nat) : Option Nat :=
  let ms := s.members sock g
  (ms.findSome? (fun t => (s.onContext t).map clusterOf)).or (ms.findSome? (fun t => (s.standing t).map (·.1)))

/-- The cluster of a thread's co-residence group, else a given one: a member that becomes ready again is queued where its
group stands, and where none does in the group's cluster of the table (R38, R320; log 42). -/
def State.groupCluster (s : State) (cl tcb dflt : Nat) : Nat :=
  match s.groupNo cl tcb with
  | none => dflt
  | some g =>
    match tfind (s.pkg (cl / 64)).groups g with
    | some x => if x.members.contains tcb then (s.groupAt (cl / 64) g).getD (64 * (cl / 64) + x.cluster) else dflt
    | none => dflt

/-- The cluster whose queue a woken thread enters: that of LASTLOC where AFFINITY permits it, else the lowest present
one it permits (R279). -/
def State.homeCluster (s : State) (cl tcb : Nat) : Nat :=
  let last := s.lastCluster cl tcb
  let sock := if s.hasCluster last then last / 64 else cl / 64
  if s.permits cl tcb last ∧ s.hasCluster last then last
  else ((s.clustersOf sock).find? (fun d => s.permits cl tcb d)).getD (64 * sock)

/-- A thread is woken: READY at the tail of its queue (R279, R285, R321). -/
def State.wake (s : State) (cl tcb : Nat) : State :=
  let s := s.readHeaders cl [tcb]
  let d := s.groupCluster cl tcb (s.homeCluster cl tcb)
  (s.enqueue d tcb).dispatchEvent d 4 tcb (s.tcbTno cl tcb) 0 0 0

/-- A thread's entries leave the sleep tables of its socket. -/
def State.dropSleep (s : State) (sock tcb : Nat) : State :=
  (s.clustersOf sock).foldl (fun s d =>
    let c := s.cluster d
    if c.sleepers.any (fun e => e.tcb == tcb) || c.sleepOver.any (fun e => e.tcb == tcb) then
      (s.relink d (c.sleepOver.map (·.tcb)) tcb).modCluster d (fun c => { c with sleepers := c.sleepers.filter (fun e => e.tcb != tcb), sleepOver := c.sleepOver.filter (fun e => e.tcb != tcb) })
    else s) s

/-- A timed sleeper enters the sleep table, or the overflow list linked by NEXT (R279). -/
def State.addSleeper (s : State) (cl tcb deadline : Nat) : State :=
  let c := s.cluster cl
  let e : Sleeper := { tcb := tcb, deadline := deadline }
  if c.sleepers.length < 256 then s.modCluster cl (fun c => { c with sleepers := c.sleepers ++ [e] })
  else
    let s := s.setTcb cl tcb 0xC30 0
    let s := match c.sleepOver.getLast? with
      | some t => s.setTcb cl t.tcb 0xC30 (BitVec.ofNat 64 tcb)
      | none => s
    s.modCluster cl (fun c => { c with sleepOver := c.sleepOver ++ [e] })

/-- A sleeper whose deadline TIME has reached. -/
def State.dueSleeper (s : State) (cl : Nat) : Option Sleeper :=
  (s.cluster cl).sleepers.find? (fun e => decide (e.deadline ≤ s.time))

/-- SLEEP DEADLINE: a sleeper of the table whose deadline has come is READY (R279). -/
def State.sleepDeadline (s : State) (cl : Nat) : State :=
  match s.dueSleeper cl with
  | none => s
  | some e =>
    (s.modCluster cl (fun c => { c with sleepers := c.sleepers.erase e })).wake cl e.tcb

/-- SLEEP OVERFLOW WALK: sleepers whose deadline has come are READY; freed table entries take the oldest of the rest
(R279). -/
def State.sleepWalk (s : State) (cl : Nat) : State :=
  let due := (s.cluster cl).sleepOver.filter (fun e => decide (e.deadline ≤ s.time))
  let s := due.foldl (fun s e =>
    ((s.relink cl ((s.cluster cl).sleepOver.map (·.tcb)) e.tcb).modCluster cl (fun c => { c with sleepOver := c.sleepOver.erase e })).wake
      cl e.tcb) s
  s.modCluster cl (fun c =>
    let room := 256 - c.sleepers.length
    { c with sleepers := c.sleepers ++ c.sleepOver.take room, sleepOver := c.sleepOver.drop room })

/-- The agent of a waiter's read: the place and PC of its `cwait`, or of LASTLOC and the saved PC (R150). -/
def State.waiterAgent (s : State) (cl : Nat) (w : Waiter) : Agent :=
  match w with
  | .ctx c => { cl := cl, sbit := 13, origin := c, tno := s.tnoOf c, pc := (s.ctx c).pc, exempt := false }
  | .thread t =>
    { cl := cl, sbit := 13, origin := (s.tcbWord cl t 0xC50).toNat % 32768, tno := s.tcbTno cl t, pc := s.tcbWord cl t 0x9C0, exempt := false }

/-- A satisfied waiter: a parked context unparks, an X7 is ready again, a WAITING thread is READY (R321, R337). -/
def State.satisfy (s : State) (cl : Nat) (w : Waiter) : State :=
  match w with
  | .ctx c =>
    if isX7 c then s.modCtx c (fun x => { x with held := none })
    else if (s.ctx c).life = .parked .cwait then
      (s.unpark c).dispatchEvent cl 4 (s.ctx c).tcb (s.tnoOf c) (placeOf c) 0 0
    else s
  | .thread t =>
    let s := s.readHeaders cl [t]
    let d := s.groupCluster cl t cl
    (s.enqueue d t).dispatchEvent d 4 t (s.tcbTno cl t) 0 0 0

/-- A word read for a waiter: by RdT also where the cluster buffers bytes of it, so that its line is tracked (R321). -/
def trackedRead (a : Agent) (pa : Nat) (sc : Scope) : Mem Word := do
  let x := (← get).clWord a.cl pa
  if x.st = .b ∧ x.bad = false then do
    let x ← ready a pa true
    let f ← request a { Req.blank a .rdT (lineOf pa) with words := oneWord pa, acq := some sc }
    modify (fun s => s.install a (lineOf pa) f .t)
    pure (if x.st = .b then mergeWord (fillWord f pa) x.data x.mask else fillWord f pa)
  else clRead a .own pa (some sc)

/-- The counter read for a waiter: by its cluster, tracked (R321), or at its home (R322). -/
def State.readCounter (s : State) (cl : Nat) (e : WaitEntry) (home : Bool) : Word × State :=
  let a := s.waiterAgent cl e.who
  match (if home then clRead a .wt e.ctr (some e.scope) else trackedRead a e.ctr e.scope) s with
  | .ok x s => (x, s)
  | .error _ s => (0, s)

/-- The counter read again for one entry: a waiter whose target is reached is satisfied and its entry freed (R321). -/
def State.recheckEntry (s : State) (cl : Nat) (e : WaitEntry) : State :=
  let (x, s) := s.readCounter cl e false
  if e.target.toNat ≤ x.toNat then
    (s.modCluster cl (fun c => { c with waits := c.waits.erase e })).satisfy cl e.who
  else s

/-- WAIT TABLE RECHECK: the cluster reads the counter again for every entry on a line (R321). -/
def State.waitRecheck (s : State) (cl line : Nat) : State :=
  let es := (s.cluster cl).waits.filter (fun e => lineOf e.ctr == line)
  let s := s.modCluster cl (fun c => { c with recheck := c.recheck.filter (· != line) })
  es.foldl (fun s e => s.recheckEntry cl e) s

/-- The wait that a TCB records: WAITADDR with the scope in bits 2:0, and WAITVAL (R337). -/
def State.tcbWait (s : State) (cl tcb : Nat) : WaitEntry :=
  let a := (s.tcbWord cl tcb 0xC40).toNat
  let who := match s.onContext tcb with | some c => Waiter.ctx c | none => .thread tcb
  { ctr := a / 8 * 8, target := s.tcbWord cl tcb 0xC48, scope := scopeFrom (a % 8), who := who }

/-- One waiter of the overflow walk: its counter is read at its home; it leaves its place and is satisfied, or takes a free
entry, or stays (R322). -/
def State.walkWaiter (s : State) (cl : Nat) (e : WaitEntry) (leave : State → State) : State :=
  let (x, s) := s.readCounter cl e true
  if e.target.toNat ≤ x.toNat then (leave s).satisfy cl e.who
  else if (s.cluster cl).waits.length < 1024 then
    ((leave s).modCluster cl (fun c => { c with waits := c.waits ++ [e] })).markRecheck cl (lineOf e.ctr)
  else s

/-- A thread leaves the wait overflow list of a cluster (R322). -/
def State.leaveOverflow (s : State) (cl tcb : Nat) : State :=
  (s.relink cl (s.cluster cl).waitOver tcb).modCluster cl (fun c => { c with waitOver := c.waitOver.filter (· != tcb) })

/-- WAIT OVERFLOW WALK: the X7s' records first, then the overflow list from its head (R322). -/
def State.waitWalk (s : State) (cl : Nat) : State :=
  let s := (s.coresOf cl).foldl (fun s k =>
    match (s.core k).x7wait with
    | none => s
    | some e => s.walkWaiter cl e (fun s => s.modCore k (fun c => { c with x7wait := none }))) s
  (s.cluster cl).waitOver.foldl (fun s t =>
    let s := s.readHeaders cl [t]
    s.walkWaiter cl (s.tcbWait cl t) (fun s => s.leaveOverflow cl t)) s

/-- A `cwait` enters the wait table, or its overflow (R321, R322); the counter is read at once (R40). -/
def State.addWait (s : State) (c : Nat) (ctr : Nat) (target : Word) (sc : Scope) : State :=
  let cl := clusterOf c
  let e : WaitEntry := { ctr := ctr, target := target, scope := sc, who := .ctx c }
  if (s.cluster cl).waits.length < 1024 then
    (s.modCluster cl (fun k => { k with waits := k.waits ++ [e] })).markRecheck cl (lineOf ctr)
  else if isX7 c then s.modCore (coreOf c) (fun k => { k with x7wait := some e })
  else
    let t := (s.ctx c).tcb
    let s := s.setTcb cl t 0xC30 0
    let s := match (s.cluster cl).waitOver.getLast? with
      | some u => s.setTcb cl u 0xC30 (BitVec.ofNat 64 t)
      | none => s
    s.modCluster cl (fun k => { k with waitOver := k.waitOver ++ [t] })

/-- A thread leaves its co-residence group; the remaining members are packed down, and an empty group is free
(R320). -/
def State.leaveGroup (s : State) (sock g tcb : Nat) : State :=
  s.modPkg sock (fun p =>
    match tfind p.groups g with
    | none => p
    | some x =>
      let ms := x.members.filter (· != tcb)
      { p with groups := if ms.isEmpty then tdel p.groups g else tset p.groups g { x with members := ms } })

/-- GroupFull of R282: eight members, another tenant, or a cluster that AFFINITY does not permit (R320). -/
def State.groupFull (s : State) (cl tcb g : Nat) : Bool :=
  match tfind (s.pkg (cl / 64)).groups g with
  | none => false
  | some x => 8 ≤ x.members.length || x.tno != s.tcbTno cl tcb || !s.permits cl tcb x.cluster

/-- A spawned member enters its group, which the first member sets (R320). -/
def State.joinGroup (s : State) (cl g tcb target : Nat) : State :=
  s.modPkg (cl / 64) (fun p =>
    let x := tget p.groups g { tno := s.tcbTno cl tcb, cluster := target % 64, members := [] }
    { p with groups := tset p.groups g { x with members := x.members ++ [tcb] } })

/-- A context whose thread has ended: vacant, its registers as the thread left them (R39, R380). -/
def Context.ended (x : Context) : Context :=
  { x with life := .vacant, pstop := false, pfault := none, inwfm := false, held := none, stall := .none, attempt := 0, tcb := 0,
           prio := 0, tno := 0, qleft := 0, fenced := none }

/-- The thread of the context in turn ends at `texit`: it leaves its group and every table, its context becomes
vacant, and EXITED is written when its stores have drained (R39, R286). -/
def State.exitThread (s : State) (c : Nat) : State :=
  let cl := clusterOf c
  let x := s.ctx c
  let s := match s.groupNo cl x.tcb with
    | some g => s.leaveGroup (cl / 64) g x.tcb
    | none => s
  let s := (((s.dropSleep (cl / 64) x.tcb).dropWait c).releaseBinding cl x.tcb).holdEnds c
  { s.setCtx c x.ended with exiting := s.exiting ++ [{ tcb := x.tcb, cluster := cl }] }

/-- The boundary walk has met a thread of queue 0 whose PRIO is 0: it stays where it is, by demotion no longer (R277). -/
def State.stays (s : State) (cl tcb : Nat) : State :=
  s.modCluster cl (fun c => { c with demoted := c.demoted.filter (· != tcb), walk := c.walk.filter (· != tcb) })

/-- The boundary walk of queue 0 goes on, from head to tail: a thread whose PRIO is above 0 as it is met returns to the tail
of queue PRIO, as many as the number given (R277). -/
def walkOn (cl : Nat) : List Nat → Nat → State → State
  | [], _, s => s
  | t :: rest, n, s =>
    if s.tcbPrio cl t = 0 then walkOn cl rest n (s.stays cl t)
    else match n with
      | 0 => s
      | n + 1 => walkOn cl rest n ((s.unlink cl 0 t).append cl (s.tcbPrio cl t) t)

/-- A microsecond of the boundary walk: up to 64 threads more are moved (R277). -/
def State.walkStep (s : State) (cl : Nat) : State := walkOn cl (s.cluster cl).walk 64 s

/-- TENANT WINDOW BOUNDARY: shares start afresh, every entry is read again, and the walk of queue 0 begins, which gives
threads back to their levels at 64 each microsecond (R277, R316, R317). -/
def State.windowBoundary (s : State) (sock : Nat) : State :=
  let s := s.modPkg sock (fun p => { p with used := [] })
  let s := if (s.pkg sock).tentbase = 0 then
      (s.pkg sock).tenants.foldl (fun s e => s.forceTenant sock e.1 Tenant.zero) s
    else (List.range 4096).foldl (fun s t => s.renewTenant sock t) s
  (s.clustersOf sock).foldl (fun s cl =>
    let l := s.queue cl 0
    if l.isEmpty then s else (s.modCluster cl (fun c => { c with walk := l })).walkStep cl) s

/-- A tenant's context time that its package has not counted yet is counted (R317, R331). -/
def State.addTime (s : State) (sock tno n : Nat) : State :=
  (s.modPkg sock (fun p => { p with used := tset p.used tno (tget p.used tno 0 + n) })).addCtr sock 5 tno 3 n

/-- CONTEXT TIME UPDATE, each microsecond: the nanoseconds for which the user contexts have held threads since the last one
are added to the tenants' windows and to CTXNS (R317, R331), and the boundary walks go on (R277). -/
def State.contextTime (s : State) (sock : Nat) : State :=
  let s := (s.ctxs.filter (fun e => socketOf e.1 == sock && !isX7 e.1 && e.2.life != .vacant)).foldl (fun s e =>
    (s.holdEnds e.1).modCtx e.1 (fun x => { x with since := s.time })) s
  let s := (s.pkg sock).unadded.foldl (fun s e => s.addTime sock e.1 e.2) s
  let s := s.modPkg sock (fun p => { p with unadded := [] })
  ((s.clusters.filter (fun c => c.1 / 64 == sock && !c.2.walk.isEmpty)).map (·.1)).foldl (fun s cl => s.walkStep cl) s

end Sys2Proof.Machine
end

