-- ==== Sys2Proof/Machine/Counter.lean ====
section
/-! DEFINITION. Counter instructions (class 18): `cwait`, `ctrrd`, `ctrset`, `erd` (spec/13 R330-R337). -/

namespace Sys2Proof.Machine

/-- Fields of a device-counter selector (R330). -/
def selIndex (x : Word) : Nat := x.toNat % 2 ^ 8
def selGroup (x : Word) : Nat := x.toNat / 2 ^ 8 % 16
def selUnit (x : Word) : Nat := x.toNat / 2 ^ 12 % 2 ^ 15
def selExpl (x : Word) : Bool := x.getLsbD 27
def selRsv (x : Word) : Nat := x.toNat / 2 ^ 28 % 2 ^ 28

/-- The selector names a device counter: bits 63:56 read 0x80. -/
def isDeviceSel (x : Word) : Bool := x.toNat / 2 ^ 56 == 0x80

/-- SUPV conditions of R332 for a user context. -/
def selSupv (x : Word) (set : Bool) : Bool := selExpl x || selGroup x == 7 || selGroup x == 8 || set

/-- An assigned index of a group (R331). -/
def selIndexOk (x : Word) : Bool :=
  let i := selIndex x
  match selGroup x with
  | 0 => i ≤ 7
  | 1 => i ≤ 9
  | 2 => i ≤ 6
  | 3 => i ≤ 7
  | 4 => i % 32 ≤ 4 && (!selExpl x || i / 32 == 0)
  | 5 => i ≤ 3
  | 6 => i % 64 ≤ 2
  | 7 => i ≤ 6 && selExpl x
  | 8 => i ≤ 3 && selExpl x
  | _ => false

/-- A unit that the part has (R331, R332). -/
def State.selUnitOk (s : State) (x : Word) : Bool :=
  let u := selUnit x
  let sock := s.mySock
  if !selExpl x then u == 0
  else match selGroup x with
    | 0 => u < 4096 && s.hasCore (512 * sock + u / 8)
    | 1 => u < 512 && s.hasCore (512 * sock + u)
    | 2 => u < 256 && s.hasEngine (256 * sock + u)
    | 3 => u < 64 && s.hasCluster (64 * sock + u)
    | 4 => u < 512 && s.hasCluster (64 * sock + u / 8)
    | 5 => u < 4096
    | 6 => u < 4096
    | 7 => u < 68 && s.hasEfc (68 * sock + u)
    | 8 => u < 4
    | _ => false

/-- CheckSelector (R332). -/
def checkSelector (x : Word) (set : Bool) : Act Unit := do
  let s ← get
  trapIf (!s.inX7 && selSupv x set) (Trap.supv s.pc)
  trapIf (!selIndexOk x || selRsv x != 0 || !s.selUnitOk x) (Trap.limit x)

/-- The unit and index that a checked selector names; none is an engine counter of a thread without a binding. -/
def State.selPlace (s : State) (x : Word) : Option (Nat × Nat) :=
  let i := selIndex x
  if selExpl x then some (selUnit x, i)
  else match selGroup x with
    | 0 => some (s.cur % 4096, i)
    | 1 => some (s.myCore % 512, i)
    | 2 => (s.boundEngine s.cur).map (fun e => (e % 256, i))
    | 3 => some (s.myCluster % 64, i)
    | 4 => some (8 * (s.myCluster % 64) + i / 32, i % 32)
    | _ => some (s.me.tno.toNat, i)

/-- The core whose slot accounts a selector of groups 0 and 1 names. -/
def State.selCore (s : State) (x : Word) : Option Nat :=
  match s.selPlace x, selGroup x with
  | some (u, _), 0 => some (512 * s.mySock + u / 8)
  | some (u, _), 1 => some (512 * s.mySock + u)
  | _, _ => none

/-- The accounts that a selector names brought up to the clock: cycles are counted as they pass (R338, R339). -/
def State.selSettle (s : State) (x : Word) : State :=
  match s.selCore x with
  | some k => s.settle k
  | none => s

/-- DeviceCounter(sel) (R331): WINDOW is the port's W. -/
def State.selRead (s : State) (x : Word) : Word :=
  match s.selPlace x with
  | none => 0
  | some (u, i) =>
    if selGroup x = 4 ∧ i = 3 then BitVec.ofNat 64 (s.port (512 * s.mySock + u)).w else s.ctr s.mySock (selGroup x) u i

/-- A device counter set; an RO counter ignores it (R335), and so is a write of an engine counter with EXPL 0 ignored where the thread
has no binding, of which R331 says only that reads are 0 (DESIGN CHOICE, log 44). -/
def State.selWrite (s : State) (x v : Word) : State :=
  match s.selPlace x with
  | none => s
  | some (u, i) => if selGroup x = 4 ∧ i = 3 then s else s.setCtr s.mySock (selGroup x) u i v

/-- `ctrrd` (R334). -/
def execCtrrd (d a : Reg) (im : BitVec 14) (s : State) : Answer :=
  let sel := s.readG a + uimm im
  runAct s 4 (do
    if isDeviceSel sel then do
      checkSelector sel false
      modify (fun t => (t.selSettle sel).writeG d ((t.selSettle sel).selRead sel))
    else do
      aligned sel 8 .read none
      let pa ← xlate sel .read none
      notDevice sel pa .read none
      modify (fun t => t.waitOwn t.cur pa 8)
      let x ← lift sel 0 0 (readBytes s.agent .wt pa 8 none)
      modify (fun t => t.writeG d x))

/-- `ctrset` (R335): a device counter in X7; a receipt counter by an atomic swap at its home, under .wt and plain. -/
def execCtrset (t a : Reg) (im : BitVec 14) (s : State) : Answer :=
  let sel := s.readG a + uimm im
  runAct s 4 (do
    if isDeviceSel sel then do
      checkSelector sel true
      guarded (modify (fun u => (u.selSettle sel).selWrite sel (s.readG t)))
    else do
      aligned sel 8 .write none
      let pa ← xlate sel .write none
      notDevice sel pa .write none
      modify (fun u => u.waitOwn u.cur pa 8)
      let _ ← guarded (lift sel (detailOf 1 0 false false false 0 0) 0 (clAtomic s.agent .wt .swap pa 8 (s.readG t) 0 none none))
      pure ())

/-- `erd` (R336). -/
def execErd (d a : Reg) (im : BitVec 14) (s : State) : Answer :=
  let x := s.readG a + uimm im
  let cl := if x.getLsbD 0 then s.myCluster else 64 * s.mySock + x.toNat / 4 % 64
  let tno := if x.getLsbD 1 then s.me.tno else (x >>> 8).setWidth 12
  if x.toNat / 2 ^ 20 ≠ 0 ∨ s.hasCluster cl = false ∨ (s.inX7 = false ∧ tno ≠ s.me.tno) then trapNow s (Trap.limit x)
  else commit s (s.writeG d (BitVec.ofInt 64 (s.account cl tno))) 4

/-- The counter that `cwait` reads: its value and physical address (R337). -/
def cwaitRead (cva : Word) (sc : Scope) : Act (Word × Nat) := do
  aligned cva 8 .read none
  let pa ← xlate cva .read none
  notDevice cva pa .read none
  modify (fun t => t.waitOwn t.cur pa 8)
  let s ← get
  let x ← lift cva 0 0 (readBytes s.agent .own pa 8 (some sc))
  pure (x, pa)

/-- `cwait` (R337): met, it acquires and retires; otherwise a user context parks CWAIT with WAITADDR and WAITVAL in
its TCB, and X7 holds it. -/
def execCwait (t c : Reg) (sc : Scope) (s : State) : Answer :=
  let target := s.readG t
  match cwaitRead (s.readG c) sc s with
  | .ok (x, pa) s1 =>
    if target.toNat ≤ x.toNat then
      match s.matchOf [] with
      | some h => .next ((s1.restoreMe s).takeMatch h)
      | none => .next ((s1.acquireAt s.myCluster sc).retire 4)
    else if s.inX7 then
      .next ((s1.modMe (fun y => { y with held := some { ctr := pa, target := target, scope := sc } })).addWait s.cur pa target sc)
    else
      let u := (s1.setTcb s.myCluster s.me.tcb 0xC40 (BitVec.ofNat 64 (pa + sc.code))).setTcb s.myCluster s.me.tcb 0xC48 target
      .next ((u.park s.cur .cwait 0).addWait s.cur pa target sc)
  | .error (.trap u) s1 => .next ((s1.restoreMe s).takeTrap s.cur u s.ir0 s.ir1)
  | .error (.park r) s1 => .next ((s1.restoreMe s).park s.cur r 0)
  | .error (.hold w) s1 => .next ((s1.restoreMe s).modCtx s.cur (fun x => x.waits w s.ir0 s.ir1))
  | .error (.hit h) s1 => .next ((s1.restoreMe s).takeMatch h)

end Sys2Proof.Machine
end

