-- ==== Sys2Proof/Machine/Network.lean ====
section
/-! DEFINITION. What the happenings of the homes and of the put queues do: a message taken, or a request served by itself
(spec/04 R117, R119); a counter's increment carried whole (spec/06 R143, R144); the next line of a put (spec/11 R290). -/

namespace Sys2Proof.Machine

/-- A request of a kind at its home: the message that carries it, if one stands oldest in a home input queue or at a
fabric port, is taken; where none carries it the request is served by itself, and the first word it names or the old value
of an atomic is the answer (R117, R119, R301). -/
def State.homeTakes (s : State) (kind : ReqKind) (r : Req) : State :=
  let r := { r with kind := kind }
  let here := fun (f : Flight) => f.req == r && (match f.place with
    | .home => true
    | .link _ => true
    | _ => false)
  match s.flights.find? (fun f => here f && s.oldestHere f) with
  | some f => s.takeFlight f
  | none =>
    if s.flights.any here then s
    else
      let a := match serve r s with
        | .ok v _ => ((List.range 8).find? (fun w => r.words.getLsbD w)).map (fun w => lineWord v.1 (if kind == .atH then 0 else w))
        | .error _ _ => none
      let (t, ok) := s.serveLate r
      { (if ok then t.sendFar r else t) with answer := a }

/-- A receipt counter's increment by a unit of a cluster, carried whole: an atomic add at the counter's home, a release at
the scope (R143, R144, R238). -/
def State.countLanded (s : State) (a : Agent) (ctr n : Nat) (sc : Scope) : State :=
  let r := Req.increment a ctr n sc .none
  let s := s.approach a ctr
  let owned := s.anyOwned r
  let k := s.fresh
  let (s, ok) := s.serveLate r
  let s := s.replyEnds (portAt a.cl ctr) false
  if ok then s.missEvent a r owned k else s

/-- The put whose line is sent next: puts take turns in order of entry (R290). -/
def Cluster.nextPut (x : Cluster) : Option PutEntry :=
  (x.putq.find? (fun e => !e.pieces.isEmpty && decide (x.putTurn ≤ e.id))).or (x.putq.find? (fun e => !e.pieces.isEmpty))

/-- The bytes of some pieces, rounded up to a multiple of 64: what they take of the data buffer (R290). -/
def bufferBytes (ps : List Piece) : Nat := ((ps.map (fun p => p.bytes.length)).foldl (· + ·) 0 + 63) / 64 * 64

/-- PUT_LINE_SEND: the next line of the put whose turn it is leaves; lines ascend within a put, and puts take turns in
order of entry (R290). Its data is freed. -/
def State.putSend (s : State) (cl : Nat) : State :=
  match (s.cluster cl).nextPut with
  | none => s
  | some e =>
    match e.pieces with
    | [] => s
    | p :: rest =>
      let sent := { e with pieces := rest, pending := e.pending + 1, size := bufferBytes rest }
      let s := s.modCluster cl (fun c => { c with putq := c.putq.map (fun z => if z.id = e.id then sent else z), putTurn := e.id + 1 })
      s.send cl 14 0 (Req.piece (e.agent cl) e.kind p (e.ctr.getD 0) (.put cl e.id)) none

end Sys2Proof.Machine
end

