-- ==== Sys2Proof/Machine/Fabric.lean ====
section
/-! DEFINITION. The far domain and the fabric ports: far puts, flows, link retry, and the loss of ports (spec/14
R360-R368). -/

namespace Sys2Proof.Machine

/-- Sequence number a is at or before b, modulo 2^32 (R366). -/
def seqLe (a b : BitVec 32) : Bool := (b - a).toNat < 2 ^ 31

/-- A received frame passes the checks that discard it otherwise: its frame check sequence, no VLAN tag, the Ethertype, version,
a known type, and this package's number (R364). -/
def State.frameGood (s : State) (sock : Nat) (f : Frame) : Bool :=
  f.fcsGood && !f.vlan && f.etherType == farEtherType && f.ver == 1#4 && decide (1 ≤ f.type.toNat) && decide (f.type.toNat ≤ 6) && f.dst == (s.pkg sock).farid

/-- A port that carries far frames: MODE 2 and UP (R360). -/
def State.farOpen (s : State) (sock port : Nat) : Bool := (s.farPorts sock).contains port

/-- The link layer of a port with retry: a bad or missing frame is answered with LNAK, every 32 frames taken with
LACK; answers whether the frame goes on (R367). -/
def State.linkTake (s : State) (sock port : Nat) (f : Frame) : State × Bool :=
  let retry := match tfind (s.pkg sock).ports port with | some p => p.lretry | none => false
  if !s.farOpen sock port then (s, false)
  else if !retry then (s, f.fcsGood)
  else
    let l := tget (s.pkg sock).links port Link.first
    let me := (s.pkg sock).farid
    if f.fcsGood && f.lseq == l.expect then
      let n := l.taken + 1
      let s := s.modPkg sock (fun p =>
        { p with links := tset p.links port { l with expect := l.expect + 1, taken := if 32 ≤ n then 0 else n } })
      if 32 ≤ n then
        (s.putOut sock port [{ Frame.bare 4 me f.src 0 with lseq := l.expect }], true)
      else (s, true)
    else if f.fcsGood && seqLe f.lseq l.expect then (s, false)
    else (s.putOut sock port [{ Frame.bare 5 me f.src 0 with lseq := l.expect }], false)

/-- The increment of a far receipt counter, a release at .pkg; unbacked, misaligned or refused it is dropped
(R365). -/
def State.farCount (s : State) (sock rctr n : Nat) (tno : BitVec 12) : State :=
  if rctr = 0 ∨ rctr % 8 ≠ 0 ∨ s.tableBacked sock rctr = false then s
  else
    let r := { Req.outside .atH rctr [0#8] tno with x := BitVec.ofNat 64 n, rel := some .pkg, isPut := true, addr := rctr, rsock := sock }
    match serve r s with
    | .ok _ s => s
    | .error _ s => s

/-- An accepted piece at the home of its address: written and counted, or refused with the entry found (R365). An address
that is unbacked at the receiving socket is refused (R361, log 28). -/
def State.farLand (s : State) (sock : Nat) (f : Frame) : State × Option (BitVec 16) :=
  let pa := f.rpa.toNat
  let n := f.len.toNat
  if s.tableBacked sock pa = false ∨ n = 0 ∨ 64 < pa % 64 + n then (s, some 0)
  else
    match serve (Req.outside .putLine pa (f.data.take n) (f.tno.setWidth 12)) s with
    | .ok _ s => (s.farCount sock f.rctr.toNat n (f.tno.setWidth 12), none)
    | .error (.frame _) s => (s, some (s.fotEntry pa))
    | .error (.error _) s => (s, none)

/-- An acknowledgement of a flow's accepted pieces is sent on the port that the frame came by (R365). -/
def State.sendAck (s : State) (sock port : Nat) (src : BitVec 12) : State :=
  let i := tget (s.pkg sock).flowsIn src.toNat InFlow.first
  let s := s.modPkg sock (fun p => { p with flowsIn := tset p.flowsIn src.toNat { i with unacked := 0, since := s.time } })
  s.sendFrame sock port (Frame.bare 2 (s.pkg sock).farid src (i.expect - 1))

/-- FAR_DATA_RECEIVE (R365, R367). -/
def State.farData (s : State) (sock port : Nat) (f : Frame) : State :=
  let (s, on) := s.linkTake sock port f
  if !on || !s.frameGood sock f || f.type != 1#4 then s
  else
    let i := tget (s.pkg sock).flowsIn f.src.toNat InFlow.first
    let set := fun (s : State) (i : InFlow) => s.modPkg sock (fun p => { p with flowsIn := tset p.flowsIn f.src.toNat i })
    if f.resync || f.fseq == i.expect then
      let since := if i.unacked = 0 then s.time else i.since
      let s := set s { i with expect := f.fseq + 1, nakSent := false, unacked := i.unacked + 1, since := since }
      let (s, refused) := s.farLand sock f
      let s := match refused with
        | some e => s.sendFrame sock port { Frame.bare 6 (s.pkg sock).farid f.src f.fseq with tno := e }
        | none => s
      if 16 ≤ i.unacked + 1 then s.sendAck sock port f.src else s
    else if i.nakSent then s
    else (set s { i with nakSent := true }).sendFrame sock port (Frame.bare 3 (s.pkg sock).farid f.src i.expect)

/-- Pieces up to a number are acknowledged; pieces that waited for room are sent (R365, R366). -/
def State.farAcked (s : State) (sock d : Nat) (upTo : BitVec 32) : State :=
  let f := tget (s.pkg sock).flowsOut d OutFlow.first
  let kept := f.kept.filter (fun p => !seqLe p.seq upTo)
  let gone := f.kept.length - kept.length
  if gone = 0 then s
  else
    let s := s.setFlow sock d { f with kept := kept, timeouts := 0, since := s.time }
    s.sendPieces sock d ((f.kept.drop 4096).take gone)

/-- FAR_ACK_RECEIVE (R366). -/
def State.farAck (s : State) (sock port : Nat) (f : Frame) : State :=
  let (s, on) := s.linkTake sock port f
  if !on || !s.frameGood sock f || f.type != 2#4 then s else s.farAcked sock f.src.toNat f.fseq

/-- FAR_NAK_RECEIVE (R366): every unacknowledged piece again from the named number. -/
def State.farNak (s : State) (sock port : Nat) (f : Frame) : State :=
  let (s, on) := s.linkTake sock port f
  if !on || !s.frameGood sock f || f.type != 3#4 then s
  else
    let s := s.farAcked sock f.src.toNat (f.fseq - 1)
    let o := tget (s.pkg sock).flowsOut f.src.toNat OutFlow.first
    s.sendPieces sock f.src.toNat ((o.kept.take 4096).filter (fun p => seqLe f.fseq p.seq))

/-- FAR_REFUSE_RECEIVE (R365, R368): the refused piece is dead-lettered and counts as acknowledged. -/
def State.farRefuse (s : State) (sock port : Nat) (f : Frame) : State :=
  let (s, on) := s.linkTake sock port f
  if !on || !s.frameGood sock f || f.type != 6#4 then s
  else
    let d := f.src.toNat
    let o := tget (s.pkg sock).flowsOut d OutFlow.first
    match o.kept.find? (fun p => p.seq == f.fseq) with
    | none => s
    | some p =>
      let s := s.setFlow sock d { o with kept := o.kept.filter (fun q => q.seq != f.fseq), timeouts := 0, since := s.time }
      (s.sendPieces sock d ((o.kept.drop 4096).take 1)).deadLetter sock (p.letter f.tno)

/-- FARTMO in nanoseconds: 0 means 100 microseconds (R360). -/
def Package.farTimeout (p : Package) : Nat := (if p.fartmo = 0 then 100 else p.fartmo.toNat) * 1000

/-- A flow whose timeout has passed. -/
def State.farLate (s : State) (sock d : Nat) : Bool :=
  match tfind (s.pkg sock).flowsOut d with
  | none => false
  | some o => !o.kept.isEmpty && decide (o.since + (s.pkg sock).farTimeout ≤ s.time)

/-- FAR_TIMEOUT (R366): the pieces go again from the oldest, or after eight timeouts are lost. -/
def State.farExpire (s : State) (sock d : Nat) : State :=
  if !s.farLate sock d then s
  else
    let o := tget (s.pkg sock).flowsOut d OutFlow.first
    if 8 ≤ o.timeouts + 1 then s.loseFlow sock d
    else (s.setFlow sock d { o with timeouts := o.timeouts + 1, since := s.time }).sendPieces sock d (o.kept.take 4096)

/-- A receiver has had unacknowledged pieces for two microseconds. -/
def State.ackDue (s : State) (sock : Nat) : Option Nat :=
  ((s.pkg sock).flowsIn.find? (fun e => decide (0 < e.2.unacked) && decide (e.2.since + 2000 ≤ s.time))).map (·.1)

/-- FAR_ACK_TIMER (R365): every flow with unacknowledged pieces is acknowledged. -/
def State.ackTimer (s : State) (sock : Nat) : State :=
  ((s.pkg sock).flowsIn.filter (fun e => decide (0 < e.2.unacked))).foldl (fun s e =>
    match s.farPort sock e.1 with
    | some port => s.sendAck sock port (BitVec.ofNat 12 e.1)
    | none => s) s

/-- LINK_LACK_RECEIVE (R367): frames up to the number leave the replay buffer; discarded without link retry. -/
def State.linkLack (s : State) (sock port : Nat) (f : Frame) : State :=
  match tfind (s.pkg sock).ports port with
  | none => s
  | some p =>
    if !p.lretry || !s.farOpen sock port || !s.frameGood sock f || f.type != 4#4 then s
    else s.modPkg sock (fun q =>
      let l := tget q.links port Link.first
      { q with links := tset q.links port { l with kept := l.kept.filter (fun g => !seqLe g.lseq f.lseq) } })

/-- LINK_LNAK_RECEIVE (R367): frames are replayed from the number. -/
def State.linkLnak (s : State) (sock port : Nat) (f : Frame) : State :=
  match tfind (s.pkg sock).ports port with
  | none => s
  | some p =>
    if !p.lretry || !s.farOpen sock port || !s.frameGood sock f || f.type != 5#4 then s
    else
      let l := tget (s.pkg sock).links port Link.first
      s.putOut sock port (l.kept.filter (fun g => seqLe f.lseq g.lseq))

/-- LINK_TRAINED: UP rises on a port whose MODE is not off (R360). -/
def State.linkTrained (s : State) (sock port : Nat) : State :=
  if !(s.fusesOf sock).fab.getLsbD port then s
  else s.modPkg sock (fun p =>
    let f := tget p.ports port FabPort.off
    if f.mode = 0 then p else { p with ports := tset p.ports port { f with up := true } })

/-- UP of a port falls. -/
def State.portDown (s : State) (sock port : Nat) : State :=
  s.modPkg sock (fun p =>
    match tfind p.ports port with
    | none => p
    | some f => { p with ports := tset p.ports port { f with up := false } })

/-- FAR_PORT_DOWN (R363, R366): flows move to other far ports, or their pieces are lost when none remains. -/
def State.farPortDown (s : State) (sock port : Nat) : State :=
  match tfind (s.pkg sock).ports port with
  | none => s
  | some f =>
    if f.mode != 2#2 || !f.up then s
    else
      (s.portDown sock port).farFallen sock

/-- COHERENT_LINK_DOWN (R362): the port leaves the list of its socket, and the messages that it has not delivered go, in
order, to the first remaining port of the list, where later messages for their lines follow them (State.coherentPort). Where
none remains they fail as they are taken. -/
def State.coherentDown (s : State) (sock port : Nat) : State :=
  match tfind (s.pkg sock).ports port with
  | none => s
  | some f => if f.mode != 1#2 || !f.up then s else (s.portDown sock port).replay sock port f.peer.toNat

end Sys2Proof.Machine
end

