-- ==== Sys2Proof/Machine/PutCopy.lean ====
section
/-! DEFINITION. Puts and copies: `put`, `put.v`, `copy`, `copy.resume` (spec/06 R167-R177) and the copy engine
(spec/11 R291, R292). -/

namespace Sys2Proof.Machine

/-- A run of bytes with its translations cut at 64-byte lines (R169). -/
def cutLines : Nat → Nat → List (BitVec 8) → List Piece
  | 0, _, _ => []
  | fuel + 1, pa, bs =>
    if bs.isEmpty then []
    else
      let k := 64 - pa % 64
      { pa := pa, bytes := bs.take k } :: cutLines fuel (pa + k) (bs.drop k)

/-- The pieces of data that goes to the translated parts of a destination. -/
def piecesOf : List (Word × Nat × Nat) → List (BitVec 8) → List Piece
  | [], _ => []
  | (_, pa, n) :: rest, bs => cutLines (n / 64 + 2) pa (bs.take n) ++ piecesOf rest (bs.drop n)

/-- The data bytes the put queue of a cluster holds (R290). -/
def State.putBytes (s : State) (cl : Nat) : Nat := ((s.cluster cl).putq.map (·.size)).foldl (· + ·) 0

/-- A place in a line of waiting contexts: those before it go first. -/
def isNext (l : List Nat) (c : Nat) : Bool := l.isEmpty || l.head? == some c

/-- A context that waits keeps its place in a line, or takes the last. -/
def addParked (l : List Nat) (c : Nat) : List Nat := if l.contains c then l else l ++ [c]

/-- A put enters its cluster's put queue, or waits unretired for room, in order (R290). The writes of its thread that it
orders are performed first (R141, R143), and what its cluster buffers of the words it writes, and of its counter, reaches
their homes first (R102, R134). -/
def enterPut (kind : BitVec 4) (pol : Pol) (sc : Scope) (ctr : Option Nat) (n : Nat) (pieces : List Piece) : Act Unit := do
  let s ← get
  let c := s.cluster s.myCluster
  let size := (n + 63) / 64 * 64
  if 64 ≤ c.putq.length || 131072 < s.putBytes s.myCluster + size || !isNext c.putWait s.cur then do
    set (s.modCluster s.myCluster (fun c => { c with putWait := addParked c.putWait s.cur }))
    throw (.hold .message)
  else
    guarded (modify (fun s =>
      let e : PutEntry := { id := s.seq, origin := s.cur, tno := s.me.tno, pc := s.pc, pol := pol, scope := sc, kind := kind,
                            ctr := ctr, pieces := pieces, pending := 0, size := size }
      let s := (s.releaseWait s.cur sc).drainPieces s.agent pieces ctr
      { s.modCluster s.myCluster (fun c =>
          { c with putq := c.putq ++ [e], putWait := c.putWait.filter (· != s.cur) }) with seq := s.seq + 1 }))

/-- The counter of a put or copy: none for address 0 (R168, R169). -/
def xlateCounter (cva : Word) (pol : Pol) : Act Nat := if cva = 0 then pure 0 else xlate cva .atomic (some pol)

/-- The counter that an address names: none for 0. -/
def named (cva : Word) (cpa : Nat) : Option Nat := if cva = 0 then none else some cpa

/-- PROTECTION for a counter in device space. -/
def counterNotDevice (cva : Word) (cpa : Nat) (pol : Pol) : Act Unit :=
  if cva = 0 then pure () else notDevice cva cpa .atomic (some pol)

/-- The source bytes of a put, read as loads, ascending (R169). -/
def readSource (parts : List (Word × Nat × Nat)) (pol : Pol) : Act (List (BitVec 8)) := do
  let bs ← parts.mapM (fun p => do
    let ws := wordParts (p.2.2 + 1) p.2.1 p.2.2
    let xs ← ws.mapM (fun q => do
      let s ← get
      let va := p.1 + BitVec.ofNat 64 (q.1 - p.2.1)
      let x ← lift va (detailOf 0 pol.code false false false 0 0) 0 (readBytes s.agent pol q.1 q.2 none)
      pure (leBytes x.toNat q.2))
    pure xs.flatten)
  pure bs.flatten

/-- The thread's own earlier stores to a translated run are performed first (R133, R155). -/
def waitRun (parts : List (Word × Nat × Nat)) : Act Unit :=
  modify (fun s => parts.foldl (fun s p => s.waitOwn s.cur p.2.1 p.2.2) s)

/-- `put` (R167-R169). -/
def execPut (d a l : Reg) (pol : Pol) (sc : Scope) (c : Reg) (s : State) : Answer :=
  let dva := s.readG d
  let sva := s.readG a
  let len := (s.readG l).toNat
  let cva := s.readG c
  runAct s 8 (do
    if len = 0 then pure ()
    else do
      trapIf (decide (4096 < len)) (Trap.limit (s.readG l))
      aligned cva 8 .atomic (some pol)
      let src ← xlateRun sva len .read pol
      let dst ← xlateRun dva len .write pol
      let cpa ← xlateCounter cva pol
      runNotDevice src .read pol
      runNotDevice dst .write pol
      counterNotDevice cva cpa pol
      note sva len (some pol) true false
      note dva len (some pol) false true
      waitRun src
      waitRun dst
      let bs ← readSource src pol
      enterPut 1 pol sc (named cva cpa) len (piecesOf dst bs))

/-- `put.v`: the 64 bytes of a vector register (R167-R169). -/
def execPutV (d v : Reg) (pol : Pol) (sc : Scope) (c : Reg) (s : State) : Answer :=
  let dva := s.readG d
  let cva := s.readG c
  runAct s 8 (do
    aligned cva 8 .atomic (some pol)
    let dst ← xlateRun dva 64 .write pol
    let cpa ← xlateCounter cva pol
    runNotDevice dst .write pol
    counterNotDevice cva cpa pol
    note dva 64 (some pol) false true
    waitRun dst
    enterPut 2 pol sc (named cva cpa) 64 (piecesOf dst (leBytes (s.readV v).toNat 64)))

/-- CTL of a copy record (R174). -/
def ctlWord (pol : Pol) (sc : Scope) (phys : Bool) (status : Nat) (tno : BitVec 12) (asn : BitVec 16) : Word :=
  BitVec.ofNat 64 (pol.code + sc.code * 2 ^ 2 + (if phys then 2 ^ 5 else 0) + status * 2 ^ 8 + tno.toNat * 2 ^ 12 +
    asn.toNat * 2 ^ 24)

/-- A wait, unretired, for room in the cluster's copy queue, in order (R291). -/
def copyRoom : Act Unit := do
  let s ← get
  let c := s.cluster s.myCluster
  if 256 ≤ c.copyq.length || !isNext c.copyWait s.cur then do
    set (s.modCluster s.myCluster (fun c => { c with copyWait := addParked c.copyWait s.cur }))
    throw (.hold .message)
  else pure ()

/-- A record address enters the copy queue of its cluster, with the record's CURSOR (R174, R291); what the cluster buffers of
the record's counter reaches its home first (R102, R134). -/
def State.enterCopy (s : State) (rpa cursor : Nat) (ctr : Option Nat) : State :=
  (s.drainPieces s.agent [] ctr).modCluster s.myCluster (fun c =>
    { c with copyq := c.copyq ++ [{ rpa := rpa, cursor := cursor }], copyWait := c.copyWait.filter (· != s.cur) })

/-- Words at a physical address made owned for the thread's .own stores to them (R175): nothing is written yet, so that a
refusal leaves memory as it was (R8). -/
def ownWords (va : Word) (pa : Nat) : List Nat → Act Unit
  | [] => pure ()
  | k :: rest => do
    let s ← get
    let _ ← lift (va + BitVec.ofNat 64 (8 * k)) (detailOf 1 0 false false false 0 0) 0 (obtain s.agent (pa + 8 * k))
    ownWords va pa rest

/-- Words written as .own stores of the thread at a physical address (R175). -/
def writeWords (va : Word) (pa : Nat) : Nat → List Word → Act Unit
  | _, [] => pure ()
  | k, x :: rest => do
    let s ← get
    lift (va + BitVec.ofNat 64 (8 * k)) (detailOf 1 0 false false false 0 0) 0 (writeBytes s.agent .own (pa + 8 * k) 8 x none)
    writeWords va pa (k + 1) rest

/-- Words that retire as .own stores of the thread at a physical address (R154, R175). -/
def State.storeWords (s : State) (pa : Nat) (xs : List Word) : State :=
  (xs.foldl (fun (p : State × Nat) x => (p.1.queuePending p.2 8 x .own (p.1.relOf .plain .ctx), p.2 + 8)) (s, pa)).1

/-- `copy` (R173-R175). It is ordered after the thread's earlier accesses as by a release at its scope (R144). -/
def execCopy (r d a : Reg) (pol : Pol) (sc : Scope) (l c : Reg) (s : State) : Answer :=
  let ra := s.readG r
  let len := (s.readG l).toNat
  let cva := s.readG c
  let phys := s.inX7 && !(s.core s.myCore).xlat
  runAct s 8 (do
    trapIf (decide (2 ^ 52 ≤ len)) (Trap.limit (s.readG l))
    aligned ra 128 .write (some .own)
    aligned cva 8 .atomic (some pol)
    let rpa ← xlate ra .write (some .own)
    let cpa ← xlateCounter cva pol
    notDevice ra rpa .write (some .own)
    counterNotDevice cva cpa pol
    note ra 128 (some .own) false true
    modify (fun t => t.waitOwn t.cur rpa 128)
    if len ≠ 0 then copyRoom else pure ()
    guarded (modify (fun t =>
      let t := t.storeWords rpa [s.readG a, s.readG d, BitVec.ofNat 64 len, BitVec.ofNat 64 cpa, 0,
        ctlWord pol sc phys (if len = 0 then 3 else 1) s.me.tno s.me.asn, BitVec.ofNat 64 (s.me.ptroot.toNat * 4096),
        BitVec.ofNat 64 (placeOf s.cur), s.pc, 0, 0, 0, 0, 0, 0, 0]
      if len = 0 then t else (t.releaseWait t.cur sc).enterCopy rpa 0 (named cva cpa))))

/-- CasAtHome of a record's STATUS: CTL with STATUS QUEUED, by an atomic at its home (R177). Answers whether it was the one
that found STATUS as it was read. -/
def queueStatus (ra : Word) (rpa : Nat) (ctl : Word) : Act Bool := do
  let s ← get
  let new := BitVec.ofNat 64 (ctl.toNat - ctl.toNat / 2 ^ 8 % 16 * 2 ^ 8 + 2 ^ 8)
  let old ← lift (ra + 40) (detailOf 2 0 false false false 0 0) 0 (clAtomic s.agent .wt .cas (rpa + 40) 8 new ctl none none)
  pure (old == ctl)

/-- `copy.resume` (R177). -/
def execCopyResume (r : Reg) (s : State) : Answer :=
  let ra := s.readG r
  runAct s 8 (do
    aligned ra 128 .write (some .own)
    let rpa ← xlate ra .write (some .own)
    notDevice ra rpa .write (some .own)
    modify (fun t => t.waitOwn t.cur rpa 128)
    let ws ← (List.range 16).mapM (fun k => do
      let t ← get
      lift (ra + BitVec.ofNat 64 (8 * k)) 0 0 (readBytes t.agent .wt (rpa + 8 * k) 8 none))
    let w := fun k => ws.getD k 0
    let ctl := (w 5).toNat
    let status := ctl / 2 ^ 8 % 16
    if status ≠ 4 ∧ status ≠ 5 then pure ()
    else do
      let other := (w 5 >>> 12).setWidth 12 != s.me.tno || (w 5 >>> 24).setWidth 16 != s.me.asn || ctl / 2 ^ 5 % 2 == 1
      trapIf (!s.inX7 && other) (Trap.limit ra)
      let rsv := ctl / 2 ^ 6 % 4 != 0 || ctl / 2 ^ 40 != 0 || (w 7).toNat / 2 ^ 15 != 0 ||
        (ws.drop 11).any (· != 0)
      trapIf (decide ((w 2).toNat < (w 4).toNat) || decide (2 ^ 52 ≤ (w 2).toNat) || rsv) (Trap.limit ra)
      copyRoom
      note ra 128 (some .own) true true
      ownWords ra rpa [7, 8, 9, 10]
      guarded (do
        if (← queueStatus ra rpa (w 5)) then do
          writeWords ra rpa 7 [BitVec.ofNat 64 (placeOf s.cur), s.pc, 0, 0]
          modify (fun t => (t.releaseWait t.cur (scopeFrom (ctl / 4 % 8))).enterCopy rpa (w 4).toNat
            (if w 3 = 0 then none else some (w 3).toNat))
        else pure ()))

/-- The agent of the copy engine's work for a record: its tenant and origin, PC 0 (R172, R311). -/
def CopyRun.agent (r : CopyRun) (cl : Nat) : Agent :=
  { cl := cl, sbit := 12, origin := r.origin, tno := r.tno, pc := 0, exempt := false }

/-- A word of a copy record written by the engine, as an .own store (R174). -/
def State.setRecord (s : State) (cl rpa k : Nat) (x : Word) : State := s.writeUnit cl 12 (rpa + 8 * k) x

/-- STATUS of a record written, the rest of CTL kept (R176). -/
def State.setStatus (s : State) (cl rpa st : Nat) : State :=
  let ctl := (s.unitWord cl (rpa + 40)).toNat
  s.setRecord cl rpa 5 (BitVec.ofNat 64 (ctl - ctl / 2 ^ 8 % 16 * 2 ^ 8 + st * 2 ^ 8))

/-- COPY_TAKE_UP: the oldest queued record enters the active set, which has room for it and its stop (R291); its
fields are read and STATUS becomes ACTIVE (R174, R176). -/
def State.copyTakeUp (s : State) (cl : Nat) : State :=
  let c := s.cluster cl
  match c.copyq with
  | [] => s
  | q :: rest =>
    let rpa := q.rpa
    if 8 ≤ c.copies.length ∨ 8 - c.stops.length ≤ c.copies.length then s
    else
      let s := (readUnit cl 12 ((List.range 16).map (fun k => rpa + 8 * k)) s).1
      let w := fun k => s.unitWord cl (rpa + 8 * k)
      let ctl := (w 5).toNat
      let pol := match ctl % 4 with | 0 => Pol.own | 1 => .wis | 2 => .sis | _ => .wt
      let run : CopyRun := { id := s.seq, rpa := rpa, src := w 0, dst := w 1, len := (w 2).toNat, ctr := (w 3).toNat, cursor := (w 4).toNat, start := (w 4).toNat, pol := pol, scope := scopeFrom (ctl / 4 % 8), phys := ctl / 2 ^ 5 % 2 == 1, tno := BitVec.ofNat 12 (ctl / 2 ^ 12), asn := BitVec.ofNat 16 (ctl / 2 ^ 24), ptroot := tablePa (w 6), origin := (w 7).toNat % 2 ^ 15, pc := w 8 }
      let s := s.modCluster cl (fun c => { c with copyq := rest, copies := c.copies ++ [run] })
      State.setStatus { s with seq := s.seq + 1 } cl rpa 2

/-- The address space of a record (R176, R306). -/
def CopyRun.space (r : CopyRun) (cl : Nat) : Space :=
  { agent := r.agent cl, ptroot := r.ptroot, asn := r.asn, sup := r.origin % 8 == 7, phys := r.phys, core := none }

/-- The parts of a burst translated page by page, ascending; device space faults as PROTECTION (R176). -/
def copyParts (sp : Space) (va : Word) (n : Nat) (kind : AccessKind) (pol : Pol) : Act (List (Word × Nat × Nat)) :=
  (pageStarts (n / 4096 + 2) va.toNat n).mapM (fun a => do
    let v := BitVec.ofNat 64 a
    let pa ← translate sp v kind (some pol) 0
    notDevice v pa kind (some pol)
    pure (v, pa, min (va.toNat + n - a) (4096 - a % 4096)))

/-- A burst up to its data: source pages, then destination, then the read (R176). Where in that order a page in device space
is found out the spec leaves open: as the page has been translated (DESIGN CHOICE, log 46). -/
def copyFetch (r : CopyRun) (cl n : Nat) : Act (List Piece) := do
  let sp := r.space cl
  let src ← copyParts sp (r.src + BitVec.ofNat 64 r.cursor) n .read r.pol
  let dst ← copyParts sp (r.dst + BitVec.ofNat 64 r.cursor) n .write r.pol
  let bs ← src.mapM (fun p => do
    let xs ← (wordParts (p.2.2 + 1) p.2.1 p.2.2).mapM (fun q => do
      let x ← lift (p.1 + BitVec.ofNat 64 (q.1 - p.2.1)) 0 0 (readBytes (r.agent cl) r.pol q.1 q.2 none)
      pure (leBytes x.toNat q.2))
    pure xs.flatten)
  pure (piecesOf dst bs.flatten)

/-- A record leaves the active set and its message, for X7 of the core that ORIGIN names, takes its reserved place; the last writes are CURSOR, FAULTCAUSE,
FAULTVA and then STATUS, a release at the record's scope (R176, R292, R294). -/
def State.copyStop (s : State) (cl : Nat) (r : CopyRun) (st cause : Nat) (va : Word) : State :=
  let s := s.modCluster cl (fun c => { c with copies := c.copies.erase r })
  let s := ((s.setRecord cl r.rpa 4 (BitVec.ofNat 64 r.cursor)).setRecord cl r.rpa 10 (BitVec.ofNat 64 cause)).setRecord cl r.rpa 9 va
  let s := (s.releaseAt (r.agent cl) r.scope).setStatus cl r.rpa st
  let s := s.event (efcOfCluster cl) 6 12 r.tno (placeOf r.origin) 0 (BitVec.ofNat 64 r.rpa)
    (BitVec.ofNat 64 (st + r.cursor % 2 ^ 60 * 16))
  if st = 3 then s
  else
    let m : Quad := { w0 := BitVec.ofNat 64 (2 + st * 16 + cause * 256), w1 := BitVec.ofNat 64 r.rpa,
                      w2 := BitVec.ofNat 64 r.cursor, w3 := va }
    let stop : CopyStop := { core := r.origin / 8 % 4096, stamp := s.seq, msg := m }
    State.modCluster { s with seq := s.seq + 1 } cl (fun c => { c with stops := c.stops ++ [stop] })

/-- The bytes of one burst: up to the next 256-byte granule of the destination (R176). -/
def CopyRun.burst (r : CopyRun) : Nat :=
  min (r.len - r.cursor) (256 - (r.dst.toNat + r.cursor) % 256)

/-- A line of a burst is written at its home, after what its cluster buffers of it; it is no put piece to the Frame Ownership
Table (R102, R134, R176, R311). The list keeps the lines that have landed: how many bytes, and where they go far by the windows
that stand then (R363, R378). -/
def copyLine (cl : Nat) (r : CopyRun) (s : State) (landed : List (Nat × Option FarGo)) (p : Piece) : State × List (Nat × Option FarGo) :=
  let req := { Req.piece (r.agent cl) 4 p r.ctr .none with isPut := false, copyRec := r.rpa }
  let s := (s.drainRun (r.agent cl) p.pa p.bytes.length).approach (r.agent cl) p.pa
  let (s, ok) := s.serveLate req
  (s.replyEnds (portAt cl p.pa) false, if ok then landed ++ [(p.bytes.length, s.farGo req)] else landed)

/-- The landed lines of a burst are counted in one increment, and then go far where a window took them (R143, R176,
R363). -/
def State.copyLanded (s : State) (cl : Nat) (r : CopyRun) (landed : List (Nat × Option FarGo)) : State :=
  let n := (landed.map (·.1)).foldl (· + ·) 0
  let s := if r.ctr = 0 ∨ n = 0 then s else s.countLanded { r.agent cl with pc := r.pc } r.ctr n r.scope
  landed.foldl (fun s q => s.sendGo q.2) s

/-- The record whose burst is next: the active records take turns in the order in which they were taken up (R291). -/
def Cluster.nextCopy (x : Cluster) : Option CopyRun := (x.copies.find? (fun r => decide (x.copyTurn ≤ r.id))).or x.copies.head?

/-- COPY_BURST: one burst of the record whose turn it is (R176, R291). -/
def State.copyBurst (s : State) (cl : Nat) : State :=
  match (s.cluster cl).nextCopy with
  | none => s
  | some r =>
    if r.len ≤ r.cursor then s.copyStop cl r 3 0 0
    else if (s.tenant (cl / 64) r.tno).susp then s.copyStop cl r 4 0 0
    else
      let n := r.burst
      match copyFetch r cl n s with
      | .error (.trap t) s => s.copyStop cl r 5 t.cause.code t.va
      | .error _ s => s
      | .ok pieces s =>
        let (s, landed) := pieces.foldl (fun q p => copyLine cl r q.1 q.2 p) (s, [])
        let s := s.copyLanded cl r landed
        let next := { r with cursor := r.cursor + n }
        let s := s.modCluster cl (fun c => { c with copies := c.copies.map (fun x => if x.id = r.id then next else x), copyTurn := r.id + 1 })
        if next.len ≤ next.cursor then s.copyStop cl next 3 0 0 else s

/-- The records that a copy engine has, each with the STATUS and CURSOR that it holds by the engine: QUEUED or ACTIVE, and
CURSOR as it was before the engine's next write (R174, R176). -/
def Cluster.records (x : Cluster) : List (Nat × Nat × Nat) :=
  x.copyq.map (fun q => (q.rpa, 1, q.cursor)) ++ x.copies.map (fun r => (r.rpa, 2, r.start))

/-- STATUS of a record as it stands, and its CURSOR (R174). -/
def State.recordNow (s : State) (rpa : Nat) : Nat × Nat := ((s.peekWord (rpa + 40)).toNat / 2 ^ 8 % 16, (s.peekWord (rpa + 32)).toNat)

/-- A record that software has written since a state: STATUS and CURSOR hold the engine's values again (R174). -/
def State.reassertOne (s0 : State) (cl : Nat) (s : State) (r : Nat × Nat × Nat) : State :=
  let (st, cu) := s0.recordNow r.1
  let s := if st = r.2.1 ∧ (s.recordNow r.1).1 ≠ r.2.1 then s.setStatus cl r.1 r.2.1 else s
  if cu = r.2.2 ∧ (s.recordNow r.1).2 ≠ r.2.2 then s.setRecord cl r.1 4 (BitVec.ofNat 64 r.2.2) else s

/-- Every record that an engine has holds the STATUS and CURSOR that the engine last wrote, whatever was written to it since a
state (R174). -/
def State.reassert (s s0 : State) : State :=
  s.clusters.foldl (fun s e => e.2.records.foldl (State.reassertOne s0 e.1) s) s

/-- COPY_STOP_MSG_ENTER: waiting stop messages enter queues that have room, in the order of their stops (R292). -/
def State.stopEnters (s : State) (cl : Nat) : State :=
  (s.cluster cl).stops.foldl (fun s c =>
    if (s.core c.core).mq.length < 64 then (refill c.core 16 s).wakeX7 c.core else s) s

end Sys2Proof.Machine
end

