-- ==== Sys2Proof/Machine/Sorter.lean ====
section
/-! DEFINITION. The Event Filter Coprocessor: taking records, runs and budgets (spec/13 R350, R351), and its
instructions (R352-R355). Each instruction acts on the run in progress of the EFC in turn. -/

namespace Sys2Proof.Machine

/-- The length of a slot for a record, as it stood when the record was taken (R357). -/
def EfcRun.len (r : EfcRun) (slot : Nat) : Nat := tget r.lens slot 0

/-- The registers of a run at its start: e0-e3 hold the record, e4-e7 are 0 (R350). -/
def startRegs (r : Quad) : Tbl Word := [(0, r.w0), (1, r.w1), (2, r.w2), (3, r.w3)]

/-- The runs that remain of a record, the first of which starts; a slot of length 0 runs nothing and counts nothing
(R350). -/
def State.startRun (s : State) (e : Nat) (r : EfcRun) (slots : List Nat) : State :=
  match slots.filter (fun k => r.len k != 0) with
  | [] => s.modEfc e (fun x => { x with run := none })
  | ks => (s.modEfc e (fun x =>
      { x with run := some { r with slots := ks, index := 0, regs := startRegs r.record, began := x.prog } })).countEfc e 3

/-- The runs of a record that is taken now: slots and words as they stand (R357). -/
def Efc.runOf (x : Efc) (r : Quad) : EfcRun :=
  { record := r, slots := [], index := 0, regs := [], lens := x.slotlen, prog := x.prog, began := x.prog }

/-- The tenant of a record. -/
def recordTno (r : Quad) : BitVec 12 := (r.w0 >>> 13).setWidth 12

/-- The slots that the valid matching entries name, in ascending entry order (R326). -/
def Efc.matching (x : Efc) (hub : Bool) (r : Quad) : List Nat :=
  (x.attach.filter (fun (a : Nat × Word) => decide (a.1 < 64) && attachNames a.2 hub (r.w0.toNat % 256) (r.w0.toNat / 256 % 32) &&
    (a.2.getLsbD 37 || a.2.extractLsb' 25 12 == recordTno r))).map (fun a => a.2.toNat / 2 ^ 38 % 8)

/-- A tenant's allowance, where it is limited: EBUDGET until it has been charged (R351). -/
def State.allowance (s : State) (e : Nat) (tno : BitVec 12) : Option Int :=
  let b := (s.tenant (e / 68) tno).ebudget
  if b = 0 then none else some (tget (s.efc e).allow tno.toNat (b : Int))

/-- The source bit whose FIFO is taken from next, in rotation (R350). -/
def Efc.nextFifo (x : Efc) : Option Nat :=
  ((List.range 16).map (fun k => (x.turn + k) % 16)).find? (fun i => !(tget x.fifos i []).isEmpty)

/-- EFC_TAKE_RECORD (R350, R351). -/
def State.efcTake (s : State) (e : Nat) : State :=
  let x := s.efc e
  if x.run.isSome then s
  else match x.nextFifo with
    | none => s
    | some i =>
      match tget x.fifos i [] with
      | [] => s
      | r :: rest =>
        let s := s.modEfc e (fun x =>
          { x with fifos := if rest.isEmpty then tdel x.fifos i else tset x.fifos i rest, turn := (i + 1) % 16 })
        let slots := x.matching (decide (64 ≤ e % 68)) r
        if !x.en || slots.isEmpty then s
        else
          let s := s.countEfc e 0
          match s.allowance e (recordTno r) with
          | some b => if b ≤ 0 then (s.countEfc e 2).countTenant (e / 68) (recordTno r) 2
            else s.startRun e (x.runOf r) slots
          | none => s.startRun e (x.runOf r) slots

/-- What an EFC instruction does with its run: its data memory and registers, and how far the index moves; a halt
moves it past the end. -/
structure EfcStep where
  data : Tbl Word
  regs : Tbl Word
  move : Option Nat

/-- An EFC instruction executes: it is counted and charged, and the run goes on, ends, or gives way to the record's
next run (R350, R351, R354). Without a run in progress nothing happens. -/
def efcDo (s : State) (f : Efc → EfcRun → EfcStep) : State :=
  let e := s.curEfc
  let x := s.efc e
  match x.run with
  | none => s
  | some r =>
    let st := f x r
    let tno := recordTno r.record
    let s := s.countEfc e 4
    let s := match s.allowance e tno with
      | some b => s.modEfc e (fun x => { x with allow := tset x.allow tno.toNat (b - 1) })
      | none => s
    let s := s.modEfc e (fun x => { x with data := st.data })
    let stop := match st.move with
      | none => true
      | some k => decide (r.len (r.slots.headD 0) ≤ r.index + k)
    if stop then s.startRun e r r.slots.tail
    else s.modEfc e (fun x => { x with run := some { r with index := r.index + st.move.getD 1, regs := st.regs } })

/-- Registers of a run. -/
def EfcRun.reg (r : EfcRun) (n : BitVec 3) : Word := tget r.regs n.toNat 0

/-- A word of data memory, numbered modulo 8,192 (R352). -/
def memIx (a : Word) (w : BitVec 13) : Nat := (a.toNat + w.toNat) % 8192

/-- SatInc (R352). -/
def satInc (x : Word) : Word := if x = BitVec.allOnes 64 then x else x + 1

/-- An instruction that writes a register from the registers. -/
def efcAlu (d : BitVec 3) (f : EfcRun → Word) (s : State) : Answer :=
  .next (efcDo s (fun x r => { data := x.data, regs := tset r.regs d.toNat (f r), move := some 1 }))

/-- `ehalt` (R352). -/
def execEhalt (s : State) : Answer := .next (efcDo s (fun x r => { data := x.data, regs := r.regs, move := none }))

/-- `eli` (R352). -/
def execEli (d : BitVec 3) (im : BitVec 17) (s : State) : Answer := efcAlu d (fun _ => im.signExtend 64) s

/-- `eadd` (R352). -/
def execEadd (d a b : BitVec 3) (s : State) : Answer := efcAlu d (fun r => r.reg a + r.reg b) s

/-- `eaddi` (R352). -/
def execEaddi (d a : BitVec 3) (im : BitVec 17) (s : State) : Answer := efcAlu d (fun r => r.reg a + im.signExtend 64) s

/-- `esub` (R352). -/
def execEsub (d a b : BitVec 3) (s : State) : Answer := efcAlu d (fun r => r.reg a - r.reg b) s

/-- `eand` (R352). -/
def execEand (d a b : BitVec 3) (s : State) : Answer := efcAlu d (fun r => r.reg a &&& r.reg b) s

/-- `eandi` (R352). -/
def execEandi (d a : BitVec 3) (im : BitVec 17) (s : State) : Answer := efcAlu d (fun r => r.reg a &&& im.setWidth 64) s

/-- `eor` (R352). -/
def execEor (d a b : BitVec 3) (s : State) : Answer := efcAlu d (fun r => r.reg a ||| r.reg b) s

/-- `exor` (R352). -/
def execExor (d a b : BitVec 3) (s : State) : Answer := efcAlu d (fun r => r.reg a ^^^ r.reg b) s

/-- `eshr` (R352). -/
def execEshr (d a : BitVec 3) (n : BitVec 6) (s : State) : Answer := efcAlu d (fun r => r.reg a >>> n.toNat) s

/-- `eshl` (R352). -/
def execEshl (d a : BitVec 3) (n : BitVec 6) (s : State) : Answer := efcAlu d (fun r => r.reg a <<< n.toNat) s

/-- `emin` (R352). -/
def execEmin (d a b : BitVec 3) (s : State) : Answer :=
  efcAlu d (fun r => if (r.reg b).ult (r.reg a) then r.reg b else r.reg a) s

/-- `emax` (R352). -/
def execEmax (d a b : BitVec 3) (s : State) : Answer :=
  efcAlu d (fun r => if (r.reg a).ult (r.reg b) then r.reg b else r.reg a) s

/-- `elog2` (R352). -/
def execElog2 (d a : BitVec 3) (c : BitVec 7) (s : State) : Answer :=
  efcAlu d (fun r => BitVec.ofNat 64 (min c.toNat (if r.reg a = 0 then 0 else Nat.log2 (r.reg a).toNat + 1))) s

/-- `eld` (R352). -/
def execEld (d a : BitVec 3) (w : BitVec 13) (s : State) : Answer :=
  .next (efcDo s (fun x r => { data := x.data, regs := tset r.regs d.toNat (tget x.data (memIx (r.reg a) w) 0), move := some 1 }))

/-- `est` (R352). -/
def execEst (d a : BitVec 3) (w : BitVec 13) (s : State) : Answer :=
  .next (efcDo s (fun x r => { data := tset x.data (memIx (r.reg a) w) (r.reg d), regs := r.regs, move := some 1 }))

/-- `ehinc` (R352). -/
def execEhinc (a : BitVec 3) (w : BitVec 13) (s : State) : Answer :=
  .next (efcDo s (fun x r =>
    let k := memIx (r.reg a) w
    { data := tset x.data k (satInc (tget x.data k 0)), regs := r.regs, move := some 1 }))

/-- The hash of a row of `ecms` (R353). -/
def cmsHash (a : Word) (r : Nat) : Nat :=
  let z := a.toNat / 2 ^ (6 + r)
  (List.range 8).foldl (fun h k => h ^^^ (z / 256 ^ k % 256)) 0

/-- `ecms`: the count-min update of four rows (R353). -/
def execEcms (d a : BitVec 3) (w : BitVec 13) (s : State) : Answer :=
  .next (efcDo s (fun x r =>
    let q := (List.range 4).foldl (fun (q : Tbl Word × Word) row =>
      let k := (w.toNat + 256 * row + cmsHash (r.reg a) row) % 8192
      let v := satInc (tget q.1 k 0)
      (tset q.1 k v, if v.ult q.2 then v else q.2)) (x.data, BitVec.allOnes 64)
    { data := q.1, regs := tset r.regs d.toNat q.2, move := some 1 }))

/-- `esamp`: the record as it was taken (R352). -/
def execEsamp (w : BitVec 13) (s : State) : Answer :=
  .next (efcDo s (fun x r =>
    let n := tget x.data w.toNat 0
    let base := w.toNat + 1 + 4 * (n.toNat % 16)
    let put := fun t j v => tset t ((base + j) % 8192) v
    let t := put (put (put (put x.data 0 r.record.w0) 1 r.record.w1) 2 r.record.w2) 3 r.record.w3
    { data := tset t w.toNat (n + 1), regs := r.regs, move := some 1 }))

/-- A trigger posted for the run in progress (R294, R355). -/
def State.trigger (s : State) (e : Nat) (r : EfcRun) (v : Word) : State :=
  let core := 512 * (e / 68) + (s.efc e).tcore.toNat
  let m : Quad := { w0 := BitVec.ofNat 64 (4 + e % 68 * 16 + r.slots.headD 0 * 2 ^ 11 + (recordTno r.record).toNat * 2 ^ 14),
                    w1 := v, w2 := r.record.w0, w3 := BitVec.ofNat 64 s.time }
  if !s.hasCore core then s.countEfc e 5
  else
    let (s, ok) := s.postMessage core m
    if ok then s else s.countEfc e 5

/-- `etrig` (R355). -/
def execEtrig (a : BitVec 3) (s : State) : Answer :=
  let s := match (s.efc s.curEfc).run with
    | some r => s.trigger s.curEfc r (r.reg a)
    | none => s
  .next (efcDo s (fun x r => { data := x.data, regs := r.regs, move := some 1 }))

/-- `eskip` (R352): when the condition holds the next instruction is n + 1 places on. -/
def execEskip (a b : BitVec 3) (k : BitVec 3) (n : BitVec 6) (s : State) : Answer :=
  .next (efcDo s (fun x r =>
    let p := r.reg a
    let q := r.reg b
    let holds := if k = 0 then p == q else if k = 1 then p != q else if k = 2 then p.ult q else !p.ult q
    { data := x.data, regs := r.regs, move := some (if holds then n.toNat + 1 else 1) }))

/-- An illegal word ends the run; it is charged as one instruction and counted (R354). -/
def State.efcIllegal (s : State) : State :=
  match (s.efc s.curEfc).run with
  | none => s
  | some _ => (efcDo s (fun x r => { data := x.data, regs := r.regs, move := none })).countEfc s.curEfc 6

/-- The word that the run in progress of an EFC executes next: as it stood when the record was taken, or, where it has been
rewritten during the run, that or the new one, as a free value says (R357, log 13). -/
def State.efcWord (s : State) (e : Nat) : Option (BitVec 32 × State) :=
  match (s.efc e).run with
  | none => none
  | some r =>
    let k := 64 * r.slots.headD 0 + r.index
    let old := tget r.prog k 0
    let now := tget (s.efc e).prog k 0
    if tget r.began k 0 = now then some (old, s)
    else
      let (n, s) := s.draw
      some (if (Config.choice n).getLsbD 0 then old else now, s)

/-- EFC_BUDGET_REFILL: at a microsecond boundary every limited allowance becomes Min(EBUDGET, allowance + EBUDGET)
(R351). -/
def State.efcRefill (s : State) (sock : Nat) : State :=
  (s.efcs.filter (fun e => e.1 / 68 == sock)).foldl (fun s e =>
    s.modEfc e.1 (fun x =>
      let refill := fun t (b : Int) =>
        let n : Int := (tget (s.pkg sock).tenants t Tenant.zero).ebudget
        if n = 0 then b else min n (b + n)
      { x with allow := tmap refill x.allow })) s

/-- ENERGY_REFILL: at a microsecond boundary every metered account becomes Min(1000 × ERATE, account + ERATE), in each
present cluster (R342). -/
def State.energyRefill (s : State) (sock : Nat) : State :=
  ((s.pkg sock).tenants.filter (fun t => t.2.erate != 0)).foldl (fun s t =>
    (s.clustersOf sock).foldl (fun s cl =>
      let key := cl * 4096 + t.1
      let n : Int := t.2.erate
      { s with energy := tset s.energy key (min (1000 * n) (tget s.energy key 0 + n)) }) s) s

end Sys2Proof.Machine
end

