-- ==== Sys2Proof/Machine/TileNum.lean ====
section
/-! DEFINITION. The arithmetic of the tile engines: narrow element formats and scale records (spec/02 R50-R56),
products (R57), the compensated accumulator and its order (R58-R61), and conversion into narrow formats (R62, R63). -/

namespace Sys2Proof.Machine

/-- A narrow element format of R50: its bits, mantissa and exponent bits (no exponent bits for an INT format), bias, and
which special codes it has. -/
structure Narrow where
  bits : Nat
  mb : Nat
  eb : Nat
  bias : Int
  inf : Bool
  nan : Bool
  deriving DecidableEq, Repr

/-- The format of a width code (0 W8, 1 W6, 2 W4) and tag; none where the tag is reserved (R50). -/
def narrowOf (w tag : Nat) : Option Narrow :=
  if w = 0 then
    (if tag = 0 then some { bits := 8, mb := 3, eb := 4, bias := 7, inf := false, nan := true }
     else if tag = 1 then some { bits := 8, mb := 2, eb := 5, bias := 15, inf := true, nan := true }
     else if tag = 2 then some { bits := 8, mb := 0, eb := 0, bias := 0, inf := false, nan := false }
     else some { bits := 8, mb := 4, eb := 3, bias := 3, inf := false, nan := true })
  else if w = 1 then
    (if tag = 0 then some { bits := 6, mb := 2, eb := 3, bias := 3, inf := false, nan := false }
     else if tag = 1 then some { bits := 6, mb := 3, eb := 2, bias := 1, inf := false, nan := false }
     else if tag = 2 then some { bits := 6, mb := 0, eb := 0, bias := 0, inf := false, nan := false }
     else none)
  else
    (if tag = 0 then some { bits := 4, mb := 1, eb := 2, bias := 1, inf := false, nan := false }
     else if tag = 1 then some { bits := 4, mb := 0, eb := 0, bias := 0, inf := false, nan := false }
     else none)

/-- The value of a narrow code, before its scale (R50). -/
def Narrow.decode (f : Narrow) (x : Nat) : Fpv :=
  let half := 2 ^ (f.bits - 1)
  let neg := x / half % 2 == 1
  let mag := x % half
  if f.eb = 0 then (if neg then .fin true (half - mag) 0 else .fin false mag 0)
  else
    let ex := mag / 2 ^ f.mb
    let m := mag % 2 ^ f.mb
    if f.inf ∧ ex = 2 ^ f.eb - 1 then (if m = 0 then .inf neg else .nan neg false)
    else if f.nan ∧ mag = half - 1 then .nan neg false
    else if ex = 0 then .fin neg m (1 - f.bias - f.mb)
    else .fin neg (2 ^ f.mb + m) ((ex : Int) - f.bias - f.mb)

/-- Fields of a scale record (R53): SMAN, SEXP, TAG and the reserved bits. -/
def recMan (r : Nat) : Nat := r % 4
def recExp (r : Nat) : Nat := r / 4 % 256
def recTag (r : Nat) : Nat := r / 1024 % 4
def recRsv (r : Nat) : Nat := r / 4096

/-- A value times the scale (1 + SMAN / 4) × 2^(SEXP - 127), exactly; SEXP 255 makes it a NaN (R53, R56). -/
def scaled (r : Nat) (v : Fpv) : Fpv :=
  if recExp r = 255 then .quiet
  else match v with
    | .fin n m e => .fin n (m * (4 + recMan r)) (e + recExp r - 129)
    | x => x

/-- By width code (3 for 16-bit): bits of an element, elements of a row, records of a row used (R52, R54). -/
def elemBits (w : Nat) : Nat := if w = 0 then 8 else if w = 1 then 6 else if w = 2 then 4 else 16
def rowElems (w : Nat) : Nat := if w = 0 then 128 else if w = 1 then 160 else if w = 2 then 256 else 64
def recsUsed (w : Nat) : Nat := if w = 0 then 4 else if w = 1 then 5 else if w = 2 then 8 else 0

/-- Element k of a data row, and record b of a scale row (R52, R221). -/
def elemOf (w : Nat) (row : BitVec 1024) (k : Nat) : Nat := row.toNat / 2 ^ (elemBits w * k) % 2 ^ elemBits w
def recordOf (row : BitVec 128) (b : Nat) : Nat := row.toNat / 2 ^ (16 * b) % 65536

/-- The kind of 16-bit elements: H (R52, R89). -/
def kindOf (h : Bool) : Fmt := if h then fp16 else bf16

/-- The values of the elements of a row (R56). -/
def rowValues (w : Nat) (h : Bool) (data : BitVec 1024) (scale : BitVec 128) : List Fpv :=
  (List.range (rowElems w)).map (fun k =>
    let x := elemOf w data k
    if w = 3 then (kindOf h).decode x
    else
      let r := recordOf scale (k / 32)
      match narrowOf w (recTag r) with
      | some f => scaled r (f.decode x)
      | none => .quiet)

/-- A row of a tile that lists fewer. -/
def OpTile.row (t : OpTile) (i : Nat) : BitVec 1024 := t.data.getD i 0
def OpTile.scaleRow (t : OpTile) (i : Nat) : BitVec 128 := t.scale.getD i 0
def accRow (t : AccTile) (i : Nat) : BitVec 4096 := t.getD i 0

/-- All values of an operand tile. -/
def OpTile.values (t : OpTile) (w : Nat) (h : Bool) : List (List Fpv) :=
  (List.range 64).map (fun i => rowValues w h (t.row i) (t.scaleRow i))

/-- The first faulty record that an operand uses, row and block upward: its row, its block, and whether its reserved
bits (rather than its tag) are at fault (R54, R55). -/
def OpTile.badRecord (t : OpTile) (w : Nat) : Option (Nat × Nat × Bool) :=
  (List.range 64).findSome? (fun i => (List.range (recsUsed w)).findSome? (fun b =>
    let r := recordOf (t.scaleRow i) b
    if recRsv r ≠ 0 then some (i, b, true) else if (narrowOf w (recTag r)).isNone then some (i, b, false) else none))

/-- A magnitude m × 2^e is at least n × 2^f. -/
def atLeast (m : Nat) (e : Int) (n : Nat) (f : Int) : Bool :=
  decide (n * 2 ^ (f - min e f).toNat ≤ m * 2 ^ (e - min e f).toNat)

/-- Classification of a scaled product (R57); a pruned position contributes +0 without a product (R59). -/
def product (a : Option Fpv) (b : Fpv) : Res :=
  match a with
  | none => (.fin false 0 0, 0)
  | some a =>
    match mulV a b with
    | (.fin n m e, g) => if atLeast m e (2 ^ 25 - 1) 103 then (.inf n, fOF) else (.fin n m e, g)
    | r => r

/-- Round(x, FP32, RNE), with the flags the engines keep (R59, R60). -/
def round32 (x : Res) : Res :=
  let (c, g) := fp32.round .rne x
  (fp32.decode c, tileFlags g)

/-- A rounded sum and difference. -/
def add32 (x y : Fpv) : Res := round32 (addV .rne x y)
def sub32 (x y : Fpv) : Res := add32 x y.negate

/-- The value is finite. -/
def Fpv.isFin : Fpv → Bool
  | .fin _ _ _ => true
  | _ => false

/-- TwoSum (R59): the rounded sum, what its rounding dropped, and the flags. -/
def twoSum (x y : Fpv) : Fpv × Res :=
  let t := add32 x y
  if !t.1.isFin then (t.1, .fin false 0 0, t.2)
  else
    let bv := sub32 t.1 x
    let av := sub32 t.1 bv.1
    let p := sub32 x av.1
    let q := sub32 y bv.1
    let e := add32 p.1 q.1
    (t.1, e.1, t.2 ||| bv.2 ||| av.2 ||| p.2 ||| q.2 ||| e.2)

/-- An accumulator element as values s and c. -/
abbrev Pair := Fpv × Fpv

/-- A group's sum q enters the accumulator (R59). -/
def enter (x : Pair) (q : Res) : Pair × BitVec 5 :=
  let (t, e, g) := twoSum x.1 q.1
  let c := add32 x.2 e
  ((t, c.1), q.2 ||| g ||| c.2)

/-- Groups of four products, and of two, enter one at a time in ascending k (R59). -/
def accumulate4 (x : Pair) (g : BitVec 5) : List Res → Pair × BitVec 5
  | p0 :: p1 :: p2 :: p3 :: rest =>
    let h1 := add32 p0.1 p1.1
    let h2 := add32 p2.1 p3.1
    let q := add32 h1.1 h2.1
    let r := enter x (q.1, p0.2 ||| p1.2 ||| p2.2 ||| p3.2 ||| h1.2 ||| h2.2 ||| q.2)
    accumulate4 r.1 (g ||| r.2) rest
  | _ => (x, g)
def accumulate2 (x : Pair) (g : BitVec 5) : List Res → Pair × BitVec 5
  | p0 :: p1 :: rest =>
    let q := add32 p0.1 p1.1
    let r := enter x (q.1, p0.2 ||| p1.2 ||| q.2)
    accumulate2 r.1 (g ||| r.2) rest
  | _ => (x, g)

/-- Element j of an accumulator row: s low, c high (R58). -/
def accPair (row : BitVec 4096) (j : Nat) : Pair :=
  let x := row.toNat / 2 ^ (64 * j) % 2 ^ 64
  (fp32.decode (x % 2 ^ 32), fp32.decode (x / 2 ^ 32))

/-- The code of a value that FP32 holds. -/
def code32 (v : Fpv) : Nat := (fp32.round .rne (v, 0)).1

/-- An element's 64 bits. -/
def pairCode (x : Pair) : Nat := code32 x.1 + 2 ^ 32 * code32 x.2

/-- A row of an accumulator from its elements. -/
def accRowOf (l : List Nat) : BitVec 4096 := BitVec.ofNat 4096 (packNat 8 l)

/-- The products of a row of A, whose pruned positions are none, and a row of B. -/
def products : List (Option Fpv) → List Fpv → List Res
  | a :: as, b :: bs => product a b :: products as bs
  | _, _ => []

/-- a += A × Bᵀ, with the flags (R59, R243). -/
def multiply (wide : Bool) (acc : AccTile) (a : List (List (Option Fpv))) (b : List (List Fpv)) : AccTile × BitVec 5 :=
  let rows := (List.range 64).map (fun i =>
    let ra := a.getD i []
    let es := (List.range 64).map (fun j =>
      let ps := products ra (b.getD j [])
      let x := accPair (accRow acc i) j
      if wide then accumulate2 x 0 ps else accumulate4 x 0 ps)
    (accRowOf (es.map (fun e => pairCode e.1)), joinFlags (es.map (·.2))))
  (rows.map (·.1), joinFlags (rows.map (·.2)))

/-- The nibble of a row's group in the metadata tile: i0 and i1 (R244). -/
def nibble (row : BitVec 1024) (g : Nat) : Nat × Nat :=
  let x := row.toNat / 2 ^ (4 * g) % 16
  (x % 4, x / 4)

/-- The first nibble that is used and not i0 < i1, row and group upward (R245). -/
def OpTile.badNibble (t : OpTile) (groups : Nat) : Option (Nat × Nat) :=
  (List.range 64).findSome? (fun i => (List.range groups).findSome? (fun g =>
    let n := nibble (t.row i) g
    if n.1 < n.2 then none else some (i, g)))

/-- A compressed row spread over its logical positions (R244). -/
def spreadRow (meta_ : BitVec 1024) : Nat → List Fpv → List (Option Fpv)
  | g, x :: y :: rest =>
    let n := nibble meta_ g
    (List.range 4).map (fun p => if p = n.1 then some x else if p = n.2 then some y else none) ++ spreadRow meta_ (g + 1) rest
  | _, _ => []

/-- The exact s + c of an element, with the cases of R61. -/
def accValue (x : Pair) : Res :=
  if x.1.isNan || x.2.isNan then (.quiet, 0)
  else match x.1, x.2 with
    | .inf a, .inf b => if a = b then (.inf a, 0) else (.quiet, fNV)
    | .inf a, _ => (.inf a, 0)
    | _, .inf b => (.inf b, 0)
    | s, c => addV .rne s c

/-- An accumulator row as 64 FP32 values, with the flags (R236). -/
def accStoreRow (row : BitVec 4096) : BitVec 2048 × BitVec 5 :=
  let es := (List.range 64).map (fun j => fp32.round .rne (accValue (accPair row j)))
  (BitVec.ofNat 2048 (packNat 4 (es.map (·.1))), joinFlags (es.map (·.2)))

/-- The largest finite code of a narrow format (R50, R62). -/
def Narrow.topCode (f : Narrow) : Nat :=
  let half := 2 ^ (f.bits - 1)
  if f.inf then (2 ^ f.eb - 1) * 2 ^ f.mb - 1 else if f.nan then half - 2 else half - 1

/-- The greater of two magnitudes of finite values; others count as 0 (R62). -/
def maxMag (x : Nat × Int) : Fpv → Nat × Int
  | .fin _ m e => if atLeast x.1 x.2 m e then x else (m, e)
  | _ => x

/-- The scale of a block: the index 4 × SEXP + SMAN of the smallest scale S with amax / S at most the format's
largest finite value, or the largest of all (R62). -/
def blockScale (f : Narrow) (vs : List Fpv) : Nat :=
  let (m, e) := vs.foldl maxMag (0, 0)
  match f.decode f.topCode with
  | .fin _ fm fe => ((List.range 1020).find? (fun k => atLeast (fm * (4 + k % 4)) (fe + (k / 4 : Nat) - 129) m e)).getD 1019
  | _ => 1019

/-- A value encoded under a scale, with its flags (R62, R63). -/
def Narrow.encode (f : Narrow) (k : Nat) (v : Fpv) : Nat × BitVec 5 :=
  let half := 2 ^ (f.bits - 1)
  let sgn := fun (n : Bool) (c : Nat) => if n then half + c else c
  let least := fun (n : Bool) => if f.eb = 0 then (if n then half else half - 1) else sgn n f.topCode
  match v with
  | .nan n sig => if f.nan then (sgn n (half - 1), flagIf sig fNV) else (least n, fNV)
  | .inf n =>
    if f.inf then (sgn n (f.topCode + 1), 0) else if f.nan then (sgn n (half - 1), fNV) else (least n, fNV)
  | .fin n m e =>
    if m = 0 then (if f.eb = 0 then 0 else sgn n 0, 0)
    else
      let d := 4 + k % 4
      let x : Int := e - ((k / 4 : Nat) : Int) + 129
      let q := 2 * (m * 2 ^ 64 / d) + (if m * 2 ^ 64 % d = 0 then 0 else 1)
      let x := x - 65
      if f.eb = 0 then
        let (r, inexact) := roundQ .rne n q x 0
        if n then (if half < r then (half, fOF ||| fNX) else ((2 * half - r) % (2 * half), flagIf inexact fNX))
        else if half - 1 < r then (half - 1, fOF ||| fNX) else (r, flagIf inexact fNX)
      else
        let (c, tiny, inexact) := roundCode f.mb (1 - f.bias) .rne n q x
        if f.topCode < c then (sgn n f.topCode, fOF ||| fNX) else (sgn n c, roundFlags false tiny inexact)

/-- ScaleAndEncode (R62, R63): a block's record, codes and flags. -/
def encodeBlock (f : Narrow) (tag : Nat) (vs : List Fpv) : Nat × List Nat × BitVec 5 :=
  let k := blockScale f vs
  let es := vs.map (f.encode k)
  (tag * 1024 + k, es.map (·.1), joinFlags (es.map (·.2)))

/-- Codes packed at a number of bits each, the first lowest. -/
def packBits (b : Nat) : List Nat → Nat
  | [] => 0
  | x :: rest => x % 2 ^ b + 2 ^ b * packBits b rest

/-- Eight records 0x01FC: scale 1, tag 0 (R234). -/
def unitScales : BitVec 128 := BitVec.ofNat 128 (packBits 16 (List.replicate 8 0x01FC))

/-- A row of TCvt (R247) from its 64 values, which carry the flags of their formation. -/
def convertRow (w : Nat) (h : Bool) (tag : Nat) (vs : List Res) : BitVec 1024 × BitVec 128 × BitVec 5 :=
  if w = 3 then
    let es := vs.map ((kindOf h).round .rne)
    (BitVec.ofNat 1024 (packBits 16 (es.map (·.1))), unitScales, joinFlags (es.map (·.2)))
  else match narrowOf w tag with
    | none => (0, 0, 0)
    | some f =>
      let xs := vs.map (·.1)
      let b0 := encodeBlock f tag (xs.take 32)
      let b1 := encodeBlock f tag (xs.drop 32)
      (BitVec.ofNat 1024 (packBits f.bits (b0.2.1 ++ b1.2.1)),
       BitVec.ofNat 128 (packBits 16 (b0.1 :: b1.1 :: List.replicate 6 (tag * 1024 + 0x01FC))),
       joinFlags (vs.map (·.2)) ||| b0.2.2 ||| b1.2.2)

/-- Ttrans (R249). -/
def transpose (w : Nat) (t : OpTile) : OpTile :=
  let q := if w = 0 then 2 else if w = 2 then 4 else 1
  let data := (List.range 64).map (fun k => BitVec.ofNat 1024 (packBits (elemBits w)
    ((List.range q).flatMap (fun p => (List.range 64).map (fun i => elemOf w (t.row i) (64 * p + k))))))
  let scale := (List.range 64).map (fun i => if w = 3 then t.scaleRow i else BitVec.ofNat 128 (packBits 16
    ((List.range 8).map (fun b => if b < 2 * q then recordOf (t.scaleRow (32 * (b % 2))) (2 * (b / 2) + i / 32) else recordOf (t.scaleRow i) b))))
  { data := data, scale := scale }

/-- A function of the pairs of two accumulators, element by element, with the flags. -/
def accMap (f : Pair → Pair → Pair × BitVec 5) (x y : AccTile) : AccTile × BitVec 5 :=
  let rows := (List.range 64).map (fun i =>
    let es := (List.range 64).map (fun j => f (accPair (accRow x i) j) (accPair (accRow y i) j))
    (accRowOf (es.map (fun e => pairCode e.1)), joinFlags (es.map (·.2))))
  (rows.map (·.1), joinFlags (rows.map (·.2)))

/-- `tadd` of one element (R250). -/
def addPair (x y : Pair) : Pair × BitVec 5 :=
  let (s, e, g) := twoSum x.1 y.1
  let c := add32 x.2 y.2
  let d := add32 c.1 e
  ((s, d.1), g ||| c.2 ||| d.2)

/-- `tscale` of one element by a factor (R250). -/
def scalePair (f : Fpv) (x _y : Pair) : Pair × BitVec 5 :=
  let s := fp32.round .rne (mulV x.1 f)
  let c := fp32.round .rne (mulV x.2 f)
  ((fp32.decode s.1, fp32.decode c.1), s.2 ||| c.2)

end Sys2Proof.Machine
end

