-- ==== Sys2Proof/Machine/TileMem.lean ====
section
/-! DEFINITION. Tile loads and stores (spec/09 R227-R239, spec/05 R142, R146, R147): shapes and row addresses, the
order of checks, `tload`, `tloads`, `tload.v`, `tstore`, `tstorea`, `tstore.aon` and `put.t`. -/

namespace Sys2Proof.Machine

/-- The tile fault word (R229). -/
def tileWord (row opnd idx : Nat) : Word := BitVec.ofNat 64 (row % 256 + opnd * 2 ^ 8 + idx * 2 ^ 11)

/-- A computation whose traps carry a tile fault word. -/
def tagged {α : Type} (w : Word) (m : Act α) : Act α := fun s =>
  match m s with
  | .ok a s => .ok a s
  | .error (.trap t) s => .error (.trap { t with tile := w }) s
  | .error e s => .error e s

/-- PROTECTION from an operand limit of a tile instruction (R228, R229). -/
def tileLimit (x : Word) : Trap := { Trap.limit x with tile := tileWord 255 0 0 }

/-- The engine and binding of the context in turn (R227): none in X7, without a save area, or unbound. -/
def bound : Act (Nat × Nat) := do
  let s ← get
  if s.inX7 then raiseTrap { Trap.illegal s.pc with tile := tileWord 255 0 0 }
  else if s.me.tcb = 0 || s.tcbWord s.myCluster s.me.tcb 0xC28 == 0 then raiseTrap (tileLimit 0)
  else match s.boundEngine s.cur, s.holder s.me.tcb with
    | some e, some (_, b) => pure (e, b)
    | _, _ => throw (.park .tilebind)

/-- The entry of the context in turn in an issue queue, before a physical tile has been found for it. -/
def State.newIssue (s : State) (acc : Bool) : Issue :=
  { ctx := s.cur, instr := none, tno := s.me.tno, w0 := s.ir0, w1 := s.ir1, acc := acc, tile := none, slowed := false }

/-- A physical tile of a kind for an instruction of a binding: the one it took at its acceptance, or one that it may take
now, after those that were accepted before it; else it is accepted into the issue queue and waits there (R225, R226). Its six
reserved places leave the queue of 32 room for the one unretired tile instruction of each context (R288, log 30). -/
def freshTile (e bn : Nat) (acc : Bool) : Act Nat := do
  modify (fun s => grantTiles e (s.engine e).issue s)
  let s ← get
  let x := s.engine e
  match x.issueOf s.cur with
  | some i =>
    match i.tile with
    | some k => pure k
    | none => throw (.hold .engine)
  | none =>
    match x.takeTile acc bn with
    | some (k, y) => do
      set (s.modEngine e (fun _ => y))
      pure k
    | none => do
      set (s.modEngine e (fun x => { x with issue := x.issue ++ [s.newIssue acc] }))
      throw (.hold .engine)

/-- What a tile instruction leaves at retirement: its flags in FST and in the engine's exception counters, once each,
the energy debit, and the TILE event, whose cycles the spec leaves open (R60, R64, R343, R349; log 13). -/
def State.tileDone (s : State) (e lop : Nat) (g : BitVec 5) (nj : Nat) (held : Bool) : State :=
  let s := s.raise g
  let s := (List.range 5).foldl (fun s k => if g.getLsbD k then s.countEngine e k else s) s
  let s := s.debit (e / 4) s.me.tno nj
  let s := if (s.engine e).holds s.cur then s.modEngine e (fun x => x.forget s.cur) else s
  let (n, s) := s.draw
  s.event (efcOfCluster (e / 4)) 2 (8 + e % 4) s.me.tno (placeOf s.cur) 0 s.pc
    (BitVec.ofNat 64 (lop + (Config.latency n).toNat % 65536 * 2 ^ 6 + (if held then 2 ^ 22 else 0)))

/-- The engine of a binding as the agent of its context's accesses (R349). -/
def State.engineAgent (s : State) (e : Nat) : Agent := { s.agent with sbit := 8 + e % 4 }

/-- A shape (R222). -/
structure Shape where
  rows : Nat
  stride : Int
  sstride : Int
  sdisp : Int
  plane : Bool

/-- The shape of a register's bits. -/
def shapeOf (x : BitVec 128) : Shape :=
  let f := fun k => (x.extractLsb' k 32).toInt
  { rows := (x.extractLsb' 0 7).toNat, stride := f 32, sstride := f 64, sdisp := f 96, plane := f 64 != 0 || f 96 != 0 }

/-- CheckShape (R222). -/
def shape (m : BitVec 3) : Act Shape := do
  let s ← get
  let x := s.readM m
  let h := shapeOf x
  trapIf (decide (h.rows = 0) || decide (64 < h.rows) || x.extractLsb' 7 25 != 0) (tileLimit (x.setWidth 64))
  pure h

/-- One address range that a tile instruction checks: its start, length, OPND and ROW, and the kind of access. -/
structure Item where
  va : Word
  n : Nat
  opnd : Nat
  row : Nat
  kind : AccessKind

/-- RowAddr and ScaleAddr (R231). -/
def rowAddr (va : Word) (h : Shape) (r : Nat) : Word := va + BitVec.ofInt 64 (r * h.stride)
def scaleAddr (va : Word) (h : Shape) (r : Nat) : Word := va + BitVec.ofInt 64 (h.sdisp + r * h.sstride)

/-- The rows of a shape in the order of R231: r ascending, the data row before the scale row. -/
def rowItems (va : Word) (h : Shape) (width : Nat) (ws : Bool) (kind : AccessKind) : List Item :=
  (List.range h.rows).flatMap (fun r =>
    { va := rowAddr va h r, n := width, opnd := 0, row := r, kind := kind } ::
      (if ws then [{ va := scaleAddr va h r, n := 16, opnd := 1, row := r, kind := kind }] else []))

/-- The fault word of an address within an item. -/
def Item.word (i : Item) (va : Word) : Word := tileWord i.row i.opnd ((va - i.va).toNat / 8)

/-- The pages of an item translated, ascending (R231). -/
def Item.pages (i : Item) (pol : Pol) : Act (List (Word × Nat × Nat)) :=
  (pageStarts (i.n / 4096 + 2) i.va.toNat i.n).mapM (fun a => do
    let v := BitVec.ofNat 64 a
    let pa ← tagged (i.word v) (xlate v i.kind (some pol))
    pure (v, pa, min (i.va.toNat + i.n - a) (4096 - a % 4096)))

/-- CheckRows (R228, R231): alignment of every item, then translation, then device space, each in order. -/
def checkItems (items : List Item) (pol : Pol) : Act (List (Item × List (Word × Nat × Nat))) := do
  match items.find? (fun i => i.va.toNat % 8 != 0) with
  | some i => tagged (i.word i.va) (aligned i.va 8 i.kind (some pol))
  | none => pure ()
  let ps ← items.mapM (fun i => do
    let p ← i.pages pol
    pure (i, p))
  ps.forM (fun q => q.2.forM (fun p => tagged (q.1.word p.1) (notDevice p.1 p.2.1 q.1.kind (some pol))))
  (ps.filter (fun q => q.1.opnd ≤ 1)).forM (fun q => note q.1.va q.1.n (some pol) (q.1.kind != .write) (q.1.kind != .read))
  modify (fun s => ps.foldl (fun s q => q.2.foldl (fun s p => s.waitOwn s.cur p.2.1 p.2.2) s) s)
  pure ps

/-- MEMORY_ERROR of a tile instruction names the address of the row that holds the word (R127). -/
def rowError {α : Type} (row : Word) (m : Act α) : Act α := fun s =>
  match m s with
  | .error (.trap t) s => .error (.trap (if t.cause = .memoryError then { t with va := row } else t)) s
  | r => r

/-- The bytes of an item read word by word, ascending, as accesses of the engine (R142). -/
def readItem (e : Nat) (q : Item × List (Word × Nat × Nat)) (pol : Pol) (acq : Option Scope) : Act Nat := do
  let ws ← q.2.mapM (fun p => (List.range (p.2.2 / 8)).mapM (fun k => do
    let s ← get
    let va := p.1 + BitVec.ofNat 64 (8 * k)
    rowError q.1.va (lift va (detailOf 0 pol.code false false false 0 0) (q.1.word va)
      (readBytes (s.engineAgent e) pol (p.2.1 + 8 * k) 8 acq))))
  pure (packNat 8 (ws.flatten.map (·.toNat)))

/-- ReadRows (R234): the tile that a load's rows give; rows at and above ROWS are zero data and records 0x01FC. -/
def readTile (e : Nat) (qs : List (Item × List (Word × Nat × Nat))) (pol : Pol) (acq : Option Scope) : Act OpTile := do
  let got ← qs.mapM (fun q => do
    let x ← readItem e q pol acq
    pure (q.1.opnd, q.1.row, x))
  let at_ := fun o r => (got.find? (fun g => g.1 == o && g.2.1 == r)).map (·.2.2)
  pure { data := (List.range 64).map (fun r => BitVec.ofNat 1024 ((at_ 0 r).getD 0)),
         scale := (List.range 64).map (fun r => ((at_ 1 r).map (BitVec.ofNat 128)).getD unitScales) }

/-- g[base] + off (R231). -/
def State.tileBase (s : State) (b : Reg) (off : BitVec 27) : Word := s.readG b + simm off

/-- `tload` and `tloads` (R234). -/
def tileLoad (scaledRows : Bool) (t m : BitVec 3) (b : Reg) (pol : Pol) (ord : Order) (sc : Scope) (off : BitVec 27) : Act Unit := do
  let (e, bn) ← bound
  let h ← shape m
  let s ← get
  let va := s.tileBase b off
  trapIf (scaledRows && !h.plane) (tileLimit va)
  let qs ← checkItems (rowItems va h 128 scaledRows .read) pol
  let k ← freshTile e bn false
  let x ← readTile e qs pol (if ord = .acq then some sc else none)
  guarded (modify (fun s =>
    let s := s.setOpTile e bn t k x
    let s := if ord = .acq then s.acquireAt s.myCluster sc else s
    s.tileDone e (if scaledRows then 1 else 0) 0 1 false))

/-- `tload` (R234). -/
def execTload (t m : BitVec 3) (b : Reg) (pol : Pol) (ord : Order) (sc : Scope) (off : BitVec 27) (s : State) : Answer :=
  runAct s 8 (tileLoad false t m b pol ord sc off)

/-- `tloads` (R234). -/
def execTloads (t m : BitVec 3) (b : Reg) (pol : Pol) (ord : Order) (sc : Scope) (off : BitVec 27) (s : State) : Answer :=
  runAct s 8 (tileLoad true t m b pol ord sc off)

/-- AtHomeRead of a version word, an acquire at a scope (R146, R147). -/
def readVersion (e : Nat) (va : Word) (pa : Nat) (pol : Pol) (sc : Scope) : Act Word := do
  let s ← get
  let x ← lift va (detailOf 2 pol.code false false false 0 0) (tileWord 255 6 0) (readBytes (s.engineAgent e) .wt pa 8 (some sc))
  modify (fun s => s.acquireAt s.myCluster sc)
  pure x

/-- A tile instruction that waits holds the physical tile that it took at its acceptance (R225). -/
def State.holdTile (s : State) (e k : Nat) (acc : Bool) : State :=
  s.modEngine e (fun x =>
    { x with issue := x.issue.filter (fun i => i.ctx != s.cur) ++ [{ s.newIssue acc with tile := some k }] })

/-- One attempt of `tload.v` (R147): a failed one waits for the next, and the last raises VERSION_RETRY. -/
def tileLoadV (t m : BitVec 3) (b : Reg) (pol : Pol) (ord : Order) (sc : Scope) (x : Reg) (off : BitVec 27) : Act Unit := do
  let (e, bn) ← bound
  let h ← shape m
  let s ← get
  let va := s.tileBase b off
  let vva := s.readG x
  let rows := rowItems va h 128 h.plane .read
  let qs ← checkItems (rows ++ [{ va := vva, n := 8, opnd := 6, row := 255, kind := .atomic }]) pol
  let k ← freshTile e bn false
  let vpa := ((qs.getLast?.bind (fun q => q.2.head?)).map (fun p => p.2.1)).getD 0
  let scope := if ord = .acq then sc else .ctx
  let v1 ← readVersion e vva vpa pol scope
  let got ← (if v1.getLsbD 0 then pure none else do
    let y ← readTile e (qs.take rows.length) pol none
    let v2 ← readVersion e vva vpa pol scope
    pure (if v2 = v1 then some y else none))
  match got with
  | some y => guarded (modify (fun s =>
      let s := s.setOpTile e bn t k y
      let s := if ord = .acq then s.acquireAt s.myCluster sc else s
      s.tileDone e 2 0 1 false))
  | none =>
    if s.me.attempt < s.me.vrlimit.toNat then do
      modify (fun s => s.holdTile e k false)
      throw (.hold .retry)
    else raiseTrap { cause := .versionRetry, va := vva, detail := 0, tile := tileWord 255 6 0 }

/-- `tload.v` (R147, R234): a failed attempt is counted, and the context waits 16 engine cycles for each one made. -/
def execTloadV (t m : BitVec 3) (b : Reg) (pol : Pol) (ord : Order) (sc : Scope) (x : Reg) (off : BitVec 27) (s : State) : Answer :=
  match runAct s 8 (tileLoadV t m b pol ord sc x off) with
  | .next u => .next (if u.me.stall = .retry then u.modMe (fun c => { c with attempt := c.attempt + 1, resume := u.engineCycles + 16 * (c.attempt + 1) }) else u)
  | r => r

/-- A row that a store takes from its source: its checked addresses and its bytes. -/
abbrev RowOut := (Item × List (Word × Nat × Nat)) × List (BitVec 8)

/-- The kinds of tile store: `tstore` and `tstorea`, `tstore.aon`, `put.t`. -/
inductive StoreKind where
  | plain | aon | put
  deriving DecidableEq, Repr

/-- RowsOf (R236): the rows of a tile register with the flags of an accumulator's roundings. -/
def State.rowsOf (s : State) (e bn : Nat) (t : TReg) (qs : List (Item × List (Word × Nat × Nat))) : List RowOut × BitVec 5 :=
  match t with
  | .t n =>
    let x := s.opTile e bn n
    (qs.map (fun q => (q, if q.1.opnd = 0 then leBytes (x.row q.1.row).toNat 128 else leBytes (x.scaleRow q.1.row).toNat 16)), 0)
  | .a n =>
    let x := s.accTile e bn n
    let rs := qs.map (fun q => (q, accStoreRow (accRow x q.1.row)))
    (rs.map (fun r => (r.1, leBytes r.2.1.toNat 256)), joinFlags (rs.map (fun r => r.2.2)))

/-- Each translated part of a row with its bytes. -/
def partPieces : List (Word × Nat × Nat) → List (BitVec 8) → List Piece
  | [], _ => []
  | (_, pa, n) :: rest, bs => { pa := pa, bytes := bs.take n } :: partPieces rest (bs.drop n)

/-- The row entries that an engine's tile store queue holds; that of a `put.t`'s row is freed when every piece of it has been
acknowledged or dead-lettered (R289). -/
def Engine.storeEntries (x : Engine) : Nat :=
  (x.storeq.filter (fun d => d.step != .release)).length + (x.puts.filter (fun p => !p.pieces.isEmpty || decide (0 < p.unacked))).length

/-- The entries that a retiring tile store leaves in the queue: a plain one that is a release, by its suffix or by an earlier
fence, behind its wait (R135, R141, R142), a versioned one between its two steps, and each row of a `put.t` (R146, R237). -/
def State.queueStore (s : State) (e bn : Nat) (k : StoreKind) (t : TReg) (pol : Pol) (ord : Order) (sc : Scope)
    (rows : List RowOut) (xpa : Nat) (ctr : Option Nat) : State :=
  let held := some ((s.binding e bn).map t)
  let release := s.relOf ord sc
  let scope := release.getD Scope.ctx
  let rel := if k = .plain then release else none
  let entry := fun (step : DrainStep) => ({ ctx := s.cur, tcb := s.me.tcb, tno := s.me.tno, pc := s.pc, pol := pol, scope := scope, rel := rel, held := held, step := step } : TileDrain)
  let rowEntries := rows.map (fun r => entry (.row (partPieces r.1.2 r.2)))
  match k with
  | .plain => s.modEngine e (fun x =>
      { x with storeq := x.storeq ++ (if release.isSome then [entry .release] else []) ++ rowEntries })
  | .aon => s.modEngine e (fun x =>
      { x with storeq := x.storeq ++ [entry .release, entry (.version xpa)] ++ rowEntries ++ [entry (.version xpa)] })
  | .put =>
    let cut := rows.map (fun r => piecesOf r.1.2 r.2)
    let s := s.drainPieces s.agent cut.flatten ctr
    let row := fun (i : Nat) (pieces : List Piece) => ({ id := s.seq + i, binding := bn, origin := s.cur, tno := s.me.tno, pc := s.pc, pol := pol, scope := sc, ctr := ctr, held := held, pieces := pieces, unacked := 0, pending := 0 } : TilePut)
    let ps := cut.zipIdx.map (fun r => row r.2 r.1)
    { s.modEngine e (fun x => { x with puts := x.puts ++ ps }) with seq := s.seq + ps.length }

/-- TStore (R237) up to its retirement: checks, the rows taken from the source tile, and the queue entries; a store that finds
too few waits, and those received after it wait behind it (R289). -/
def tileStore (k : StoreKind) (lop : Nat) (t : TReg) (m : BitVec 3) (b : Reg) (pol : Pol) (ord : Order) (sc : Scope)
    (x : Reg) (off : BitVec 27) : Act Unit := do
  let (e, bn) ← bound
  let h ← shape m
  let s ← get
  let va := s.tileBase b off
  let isAcc := match t with | .a _ => true | .t _ => false
  let rows := rowItems va h (if isAcc then 256 else 128) (!isAcc && h.plane) .write
  let counted := k == .put && x != 0
  let extra : List Item :=
    if k = .aon then [{ va := s.readG x, n := 8, opnd := 6, row := 255, kind := .atomic }]
    else if counted then [{ va := s.readG x, n := 8, opnd := 7, row := 255, kind := .atomic }] else []
  let qs ← checkItems (rows ++ extra) pol
  let xpa := if extra.isEmpty then none else (qs.getLast?.bind (fun q => q.2.head?)).map (fun p => p.2.1)
  let need := rows.length + (if k = .aon then 2 else 0)
  if 256 < (s.engine e).storeEntries + need || !isNext (s.engine e).waiting s.cur then do
    modify (fun s => s.modEngine e (fun x => { x with waiting := addParked x.waiting s.cur }))
    throw (.hold .engine)
  else pure ()
  let (out, g) := s.rowsOf e bn t (qs.take rows.length)
  guarded (modify (fun s =>
    let s := match k with
      | .put => s.releaseWait s.cur sc
      | .plain => s.waitRelease ord sc
      | .aon => s.releaseWait s.cur .clu
    (s.queueStore e bn k t pol ord sc out (xpa.getD 0) (if counted then xpa else none)).tileDone e lop g 1 false))

/-- `tstore` (R237). -/
def execTstore (t m : BitVec 3) (b : Reg) (pol : Pol) (ord : Order) (sc : Scope) (off : BitVec 27) (s : State) : Answer :=
  runAct s 8 (tileStore .plain 3 (.t t) m b pol ord sc 0 off)

/-- `tstore.aon` (R146, R237). -/
def execTstoreAon (t : TReg) (m : BitVec 3) (b : Reg) (pol : Pol) (ord : Order) (sc : Scope) (x : Reg) (off : BitVec 27) (s : State) : Answer :=
  runAct s 8 (tileStore .aon 4 t m b pol ord sc x off)

/-- `tstorea` (R236, R237). -/
def execTstorea (t : BitVec 2) (m : BitVec 3) (b : Reg) (pol : Pol) (ord : Order) (sc : Scope) (off : BitVec 27) (s : State) : Answer :=
  runAct s 8 (tileStore .plain 5 (.a t) m b pol ord sc 0 off)

/-- `put.t` (R238). -/
def execPutT (t : TReg) (m : BitVec 3) (b : Reg) (pol : Pol) (sc : Scope) (x : Reg) (off : BitVec 27) (s : State) : Answer :=
  runAct s 8 (tileStore .put 19 t m b pol .plain sc x off)

/-- The rows of an engine's `put.t`s that are not all sent. -/
def Engine.openRows (x : Engine) : List TilePut := x.puts.filter (fun p => !p.pieces.isEmpty)

/-- PUT_T_PIECE: a piece of a `put.t` is sent; of the rows that an engine has to send a free value names one. It lands and
counts as the network brings it home, pieces of one and of different `put.t`s in any order. The source tile is held until
the last has been sent (R238). -/
def State.sendTilePiece (s : State) (e : Nat) : State :=
  let rows := (s.engine e).openRows
  let (n, s) := if rows.length ≤ 1 then (0, s) else
    let (k, s) := s.draw
    ((Config.choice k).toNat % rows.length, s)
  match rows[n]? with
  | none => s
  | some p =>
    match p.pieces with
    | [] => s
    | q :: left =>
      let sent := { p with pieces := left, unacked := p.unacked + 1, pending := p.pending + 1, held := if left.isEmpty then none else p.held }
      let s := s.modEngine e (fun x => { x with puts := x.puts.map (fun r => if r.id = p.id then sent else r) })
      s.send (e / 4) (8 + e % 4) p.binding (Req.piece (p.agent e) 3 q (p.ctr.getD 0) (.tput e p.id)) none

end Sys2Proof.Machine
end

