-- ==== Sys2Proof/Machine/TileBind.lean ====
section
/-! DEFINITION. Completing a binding (spec/01 R35-R37), and the end of an exited thread (R39). -/

namespace Sys2Proof.Machine

/-- The engine of a cluster with the fewest bindings below six, the lowest-numbered on a tie (R35). -/
def State.roomyEngine (s : State) (cl : Nat) : Option Nat :=
  let es := (s.enginesOf cl).filter (fun e => decide ((s.engine e).bindings.length < 6))
  es.foldl (fun b e => match b with
    | none => some e
    | some d => if (s.engine e).bindings.length < (s.engine d).bindings.length then some e else some d) none

/-- An engine has the free physical tiles that a binding takes, beyond those in reserve; undrained stores may hold them for a
while (R224, R226). -/
def Engine.hasTiles (x : Engine) : Bool :=
  decide (4 + (x.reserves true).length ≤ (x.freeTiles true).length) && decide (8 + (x.reserves false).length ≤ (x.freeTiles false).length)

/-- The binding of a cluster whose thread is on no context, detached longest ago (R35). -/
def State.idleBinding (s : State) (cl : Nat) : Option (Nat × Nat) :=
  let bs := (s.enginesOf cl).flatMap (fun e => ((s.engine e).bindings.filter (fun b => (s.onContext b.2.tcb).isNone)).map
    (fun b => (e, b.1, b.2.detached)))
  (bs.foldl (fun m b => match m with
    | none => some b
    | some c => if b.2.2 < c.2.2 then some b else some c) none).map (fun b => (b.1, b.2.1))

/-- The victim of step 4: a bound user thread on a context of the cluster, of lower effective priority than the waiting
thread's, not parked FAULT, TRAP or STOP (R35). -/
def State.bindVictim (s : State) (cl q : Nat) : Option Nat :=
  s.victim cl ((s.userCtxs cl).filter (fun c =>
    let x := s.ctx c
    x.tcb != 0 && (s.boundEngine c).isSome && decide (s.effective cl x.tcb < q) &&
      (match x.life with
       | .running => true
       | .parked .cwait => true
       | .parked .tilebind => true
       | _ => false)))

/-- The physical addresses of the words of a tile save area (R223). -/
def areaAddresses (area : Nat) : List Nat := (List.range 25600).map (fun k => area + 8 * k)

/-- A save area read by an engine for a restore, as .own loads: the tiles, and the first word that no re-read cures (R20,
R223, R229). -/
def State.readArea (s : State) (e area : Nat) : State × Option Nat := readUnit (e / 4) (8 + e % 4) (areaAddresses area) s

/-- A context whose binding has completed unparks, or takes what is pending: a fault first, else a debug stop (R37). -/
def State.bindUnpark (s : State) (c : Nat) : State :=
  let x := s.ctx c
  match x.pfault with
  | some t => (s.modCtx c (fun y => { y with pfault := none })).takeTrap c t x.iw0 x.iw1
  | none =>
    if x.pstop then (s.modCtx c (fun y => { y with pstop := false })).park c .stop 0 else s.unpark c

/-- Steps 2 and on of R35: bind where an engine has room; else one binding is spilled, after its thread was pre-empted
where it is on a context. -/
def State.makeRoomFor (s : State) (cl q : Nat) : State :=
  match s.roomyEngine cl with
  | some _ => s
  | none =>
    match s.idleBinding cl with
    | some (e, b) => s.spill e b
    | none =>
      match s.bindVictim cl q with
      | some v =>
        let tcb := (s.ctx v).tcb
        let s := s.preempt v
        (match s.holder tcb with
         | some (e, b) => s.spill e b
         | none => s)
      | none => s

/-- A binding that the thread of a context has in another cluster is spilled (R35). -/
def State.leaveElsewhere (s : State) (c : Nat) : State :=
  match s.holder (s.ctx c).tcb with
  | some (e, b) => if e / 4 = clusterOf c then s else s.spill e b
  | none => s

/-- A context binds in an engine of its cluster with room: the tiles are restored from the save area or are zero, and
the context unparks (R35). It stays parked where no engine has room, or its engine not yet the tiles. A context that was
pre-empted with a victim of its own group waits for nothing any more. -/
def State.bindHere (s : State) (c : Nat) : State :=
  let tcb := (s.ctx c).tcb
  let cl := clusterOf c
  match s.roomyEngine cl with
  | none => s
  | some e =>
    if tcb = 0 || !(s.engine e).hasTiles then s else
    let s := s.readHeaders cl [tcb]
    let area := (s.tcbWord cl tcb 0xC28).toNat
    let saved := (s.tcbWord cl tcb 0xC58).getLsbD 62
    let (s, bad) := if saved then s.readArea e area else (s, none)
    match bad with
    | some pa =>
      let t : Trap := { cause := .memoryError, va := BitVec.ofNat 64 pa, detail := 0, tile := tileWord 255 0 0 }
      (s.modCtx c (fun y => { y with pfault := some t })).bindUnpark c
    | none =>
      (s.bind e tcb (if saved then s.areaTiles cl area else (List.replicate 4 [], List.replicate 8 { data := [], scale := [] }))).bindUnpark c

/-- TILE_BINDING of a context parked TILEBIND (R35): a binding in another cluster is spilled; an engine is chosen, freed
where none has room, and the context bound there. -/
def State.tileBinding (s : State) (c : Nat) : State :=
  if (s.ctx c).life ≠ .parked .tilebind ∨ (s.ctx c).tcb = 0 then s
  else
    let s := s.leaveElsewhere c
    if (s.boundEngine c).isSome then s.bindUnpark c
    else (s.makeRoomFor (clusterOf c) (s.effective (clusterOf c) (s.ctx c).tcb)).bindHere c

/-- A context parked TILEBIND can be served. Steps 3 and 4 are tried again while it stays parked under step 5, as soon as a binding
becomes idle or a victim appears: R35 speaks of a release alone (DESIGN CHOICE, log 48). -/
def State.canBind (s : State) (c : Nat) : Bool :=
  let x := s.ctx c
  let cl := clusterOf c
  x.life == .parked .tilebind && x.tcb != 0 &&
    ((s.roomyEngine cl).any (fun e => (s.engine e).hasTiles) || (s.boundEngine c).isSome || ((s.roomyEngine cl).isNone && ((s.idleBinding cl).isSome ||
      (s.bindVictim cl (s.effective cl x.tcb)).isSome)) || (match s.holder x.tcb with | some (e, _) => decide (e / 4 ≠ cl) | none => false))

/-- A thread's retired stores are performed and its retired tile stores have drained (R39, R154). -/
def State.drained (s : State) (cl tcb : Nat) : Bool :=
  (s.coresOf cl).all (fun k => (s.core k).sbuf.all (fun p => p.tcb != tcb)) &&
  (s.enginesOf cl).all (fun e => (s.engine e).storeq.all (fun d => d.tcb != tcb))

/-- EXITED_WRITE: after the last store and tile store of an exited thread, TSTATE reads EXITED (R39, R154). -/
def State.exitedWrite (s : State) (tcb : Nat) : State :=
  match s.exiting.find? (fun e => e.tcb == tcb) with
  | none => s
  | some e =>
    if s.drained e.cluster tcb then ({ s with exiting := s.exiting.erase e }).setTstate e.cluster tcb 6 0 else s

end Sys2Proof.Machine
end

