-- ==== Sys2Proof/Machine/Outside.lean ====
section
/-! DEFINITION. Reset, the boot ROM, and what comes from outside the package: host ports, the module's management and
the debug port (spec/01 R23, spec/14 R369-R375). -/

namespace Sys2Proof.Machine

/-- The boot core of a socket: the lowest-numbered present core of the lowest-numbered present cluster (R23). -/
def State.bootCore (s : State) (sock : Nat) : Nat := s.firstCore (s.firstCluster sock)

/-- The address of the boot ROM of a socket (R372). -/
def romAt (sock : Nat) : Word := BitVec.ofNat 64 (sockBase sock + romBase)

/-- The machine at reset with the fuses it has (R23): the boot X7 of each package at its ROM, every other unit as it is
unlisted. -/
def State.restarted (s : State) : State :=
  { State.reset with
    fuses := s.fuses
    ctxs := s.fuses.foldl (fun t f => tset t (x7Of (s.bootCore f.1)) { Context.bootX7 with pc := romAt f.1 }) []
    cur := match s.fuses with | [] => 0 | f :: _ => x7Of (s.bootCore f.1) }

/-- RESET (R23). What no reset writes stays: memory and its errors, the flash, what has left the module and what is to
come from outside, and the count of free values (log 8). -/
def execReset (s : State) : Answer :=
  .next { s.restarted with
    mem := s.mem, flash := s.flash, errs := s.errs, outbox := s.outbox, agenda := s.agenda, fresh := s.fresh }

/-- n bytes of a socket's boot flash (R372). -/
def State.flashBytes (s : State) (sock off n : Nat) : List (BitVec 8) := memBytes s.flash (2 ^ 26 * sock + off) n

/-- A 64-bit field of the image header. -/
def State.header (s : State) (sock off : Nat) : Nat := leValue (s.flashBytes sock off 8)

/-- The image's first byte in the flash: it follows the header's signature (log 17). -/
def imageOff : Nat := 0x548 + 2420

/-- D of step 3: SHA3-256 over the header's fields and the image (R372). -/
def State.imageDigest (s : State) (sock : Nat) : BitVec 256 :=
  Config.sha3 (s.flashBytes sock 0 0x548 ++ s.flashBytes sock imageOff (s.header sock 0x18))

/-- The ROM step that fails, 0 where none does (R372; which condition of the header belongs to which step is log 17). -/
def State.bootFailure (s : State) (sock : Nat) : Nat :=
  let f := s.fusesOf sock
  let h := s.header sock
  let key := s.flashBytes sock 0x28 1312
  if h 0 ≠ 0x31394E4A41524153 then 1
  else if Config.sha3 key ≠ f.keyHash ∨ h 8 < f.rollback.toNat then 2
  else if 48 * 2 ^ 20 < h 0x18 ∨ Config.verifies key (s.flashBytes sock 0x548 2420) (s.imageDigest sock) = false then 3
  else if h 0x10 % 4096 ≠ 0 ∨ s.isHbm (h 0x10) = false ∨ s.backedRange sock (h 0x10) (max 1 (h 0x18)) = false then 4
  else if 1024 ≤ (s.pkg sock).attLog.length then 5
  else if h 0x20 < h 0x10 ∨ h 0x10 + h 0x18 ≤ h 0x20 ∨ h 0x20 % 4 ≠ 0 then 6
  else 0

/-- Bytes written at their homes, word by word. -/
def State.placeBytes (s : State) (pa : Nat) (bytes : List (BitVec 8)) : State :=
  ((wordParts (bytes.length + 1) pa bytes.length).foldl (fun (q : State × List (BitVec 8)) p =>
    let x := alignWord (BitVec.ofNat 64 (leValue (q.2.take p.2))) (p.1 % 8)
    (q.1.pokeWord (wordOf p.1) x (maskOf (p.1 % 8) p.2), q.2.drop p.2)) (s, bytes)).1

/-- ROM step 4: the image is copied to LOAD. -/
def State.loadImage (s : State) (sock : Nat) : State :=
  s.placeBytes (s.header sock 0x10) (s.flashBytes sock imageOff (s.header sock 0x18))

/-- ROM step 5: D is appended to the attestation log as entry 0, with TYPE 1. -/
def State.logImage (s : State) (sock : Nat) (d : BitVec 256) : State :=
  let svn := BitVec.ofNat 64 (s.header sock 8)
  s.modPkg sock (fun p =>
    { p with svn := svn, attLog := p.attLog ++ [{ type := 1, svn := svn &&& (BitVec.allOnes 56).setWidth 64, digest := d }] })

/-- What the ROM has done before it ends at a step: the copy from step 5 on, the log entry from step 6 on. -/
def State.romWork (s : State) (sock step : Nat) : State :=
  let d := s.imageDigest sock
  let s := if 5 ≤ step then s.loadImage sock else s
  if 6 ≤ step then s.logImage sock d else s

/-- The boot procedure of an X7 at the ROM (R372), in one step. -/
def State.bootRom (s : State) : State :=
  let sock := s.mySock
  let c := s.cur
  let n := s.bootFailure sock
  if n ≠ 0 then
    let s := (s.romWork sock n).modPkg sock (fun p => { p with bootFail := BitVec.ofNat 4 n })
    { s.park c .stop 0 with outbox := s.outbox ++ [.bootStatus sock (s.bootRead sock 0)] }
  else
    let entry := s.header sock 0x20
    (s.romWork sock 6).modCtx c (fun x => { x with pc := pcOf (BitVec.ofNat 64 entry) })

/-- The X7 in turn stands at its boot ROM with physical addresses. -/
def State.atRom (s : State) : Bool := s.inX7 && !(s.core s.myCore).xlat && s.pc == romAt s.mySock

/-- An inbound write of a device or host, line by line as `.wt` requests of a tenant; refused lines are dead-lettered
with KIND 6 and PC 0 (R370). Bytes that name no memory are dropped (log 18). -/
def State.inboundWrite (s : State) (sock pa : Nat) (bytes : List (BitVec 8)) (tno : BitVec 12) : State :=
  (cutLines (bytes.length / 64 + 2) pa bytes).foldl (fun s p =>
    if s.tableBacked sock p.pa then (s.serveLate (Req.outside .wrW p.pa p.bytes tno)).1 else s) s

/-- An inbound read as `.wt` requests of a tenant: the bytes, or nothing where one is refused, in error or names no
memory (R370; log 18). -/
def inboundRead (sock : Nat) (tno : BitVec 12) : List Piece → State → Option (List (BitVec 8)) × State
  | [], s => (some [], s)
  | p :: rest, s =>
    if s.tableBacked sock p.pa then
      match serve (Req.outside .rdW p.pa p.bytes tno) s with
      | .ok v s =>
        let got := leBytes (v.1.toNat / 256 ^ (p.pa % 64)) p.bytes.length
        let (more, s) := inboundRead sock tno rest s
        (more.map (got ++ ·), s)
      | .error _ s => (none, s)
    else (none, s)

/-- n bytes from an address cut at lines. -/
def runPieces (pa n : Nat) : List Piece := cutLines (n / 64 + 2) pa (List.replicate n 0)

/-- HPDMATNO of a host port (R371). -/
def State.inboundTenant (s : State) (sock port : Nat) : BitVec 12 := tget (s.pkg sock).hpTno port 0

/-- Something leaves the module. -/
def State.emit (s : State) (o : Outgoing) : State := { s with outbox := s.outbox ++ [o] }

/-- DMA_WRITE (R370). -/
def execDmaWrite (sock port addr : Nat) (bytes : List (BitVec 8)) (s : State) : Answer :=
  .next (s.inboundWrite sock addr bytes (s.inboundTenant sock port))

/-- DMA_READ (R370): the data, or Completer Abort. -/
def execDmaRead (sock port addr n : Nat) (s : State) : Answer :=
  match inboundRead sock (s.inboundTenant sock port) (runPieces addr n) s with
  | (some bytes, s) => .next (s.emit (.dmaData sock port bytes))
  | (none, s) => .next (s.emit (.completerAbort sock port))

/-- The first byte of an endpoint's device-memory range, and its length; none where no range is presented (R371). -/
def State.endRange (s : State) (sock : Nat) : Option (Nat × Nat) :=
  let e := (tget (s.pkg sock).endBase 1 0).toNat
  let gib := e % 2 ^ 11
  if (s.fusesOf sock).endpoint ∧ 1 ≤ gib ∧ gib ≤ 1024 then some (e / 2 ^ 30 % 2 ^ 22 * 2 ^ 30, gib * 2 ^ 30) else none

/-- HOST_MEM_ACCESS: the endpoint's host reads or writes its range of the second tier (R371). -/
def execHostMemAccess (sock off n : Nat) (wr : Option (List (BitVec 8))) (s : State) : Answer :=
  match s.endRange sock with
  | none => .next s
  | some (base, len) =>
    let tno := s.inboundTenant sock 1
    let size := match wr with | some b => b.length | none => n
    if len < off + size ∨ isTier (base + off) = false ∨ isTier (base + off + size - 1) = false then
      .next (s.emit (.completerAbort sock 1))
    else match wr with
      | some bytes => .next (s.inboundWrite sock (base + off) bytes tno)
      | none =>
        match inboundRead sock tno (runPieces (base + off) n) s with
        | (some bytes, s) => .next (s.emit (.hostData sock bytes))
        | (none, s) => .next (s.emit (.completerAbort sock 1))

/-- POWER_BUDGET_SET: from 1,000 W to 2,800 W (R374). -/
def execPowerBudgetSet (sock watts : Nat) (s : State) : Answer :=
  .next (if 1000 ≤ watts ∧ watts ≤ 2800 then s.modPkg sock (fun p => { p with powerBudget := watts }) else s)

/-- OVER_TEMPERATURE: the module shuts down and reports it (R374). -/
def execOverTemperature (sock : Nat) (s : State) : Answer :=
  .next ((s.modPkg sock (fun p => { p with shutdown := true })).emit (.overTemperature sock))

/-- HOST_LINK_TRAINED: sixteen lanes, or eight where bifurcated; 0 is a link that has gone (R369). -/
def execHostLinkTrained (sock port : Nat) (width : BitVec 6) (s : State) : Answer :=
  .next (if port < 2 ∧ (width = 16 ∨ width = 8 ∨ width = 0) then
      s.modPkg sock (fun p => { p with hpWidth := tset p.hpWidth port width })
    else s)

/-- A debug-port access to a populated device page. -/
def State.portDevice (s : State) (addr n : Nat) (wr : Option Word) : State :=
  match wr with
  | some x => s.devWrite addr n x
  | none =>
    let (x, s) := s.devRead addr n
    s.emit (.debugData x)

/-- A debug-port access to memory, a `.wt` access of tenant 0. -/
def State.portMemory (s : State) (addr n : Nat) (wr : Option Word) : State :=
  match wr with
  | some x => (s.serveLate (Req.outside .wrW addr (leBytes x.toNat n) 0)).1
  | none =>
    match serve (Req.outside .rdW addr (List.replicate n 0) 0) s with
    | .ok v s => s.emit (.debugData (BitVec.ofNat 64 (v.1.toNat / 256 ^ (addr % 64) % 256 ^ n)))
    | .error _ s => s

/-- DEBUG_PORT_ACCESS: aligned accesses by physical address, with the rights of an X7 (R375). -/
def execDebugPortAccess (addr : Nat) (sz : BitVec 2) (wr : Option (BitVec 64)) (s : State) : Answer :=
  let n := 2 ^ sz.toNat
  if addr % n ≠ 0 then .next s
  else if isDevice addr then .next (if s.populated addr && devSizeOk addr n then s.portDevice addr n wr else s)
  else .next (if s.isMemory addr then s.portMemory addr n wr else s)

/-- REGISTER_WRITE: a 64-bit write performed at the home of a device register (R6, R111). -/
def execRegisterWrite (addr : Nat) (x : BitVec 64) (s : State) : Answer :=
  .next (if addr % 8 = 0 ∧ s.populated addr then s.devWrite addr 8 x else s)

end Sys2Proof.Machine
end

