-- ==== Sys2Proof/Machine/TileOps.lean ====
section
/-! DEFINITION. Tile instructions that access no memory (spec/09 R240-R252): zeroing and moves, matrix multiply with its
waiting in the issue queue (R230, R288), conversion, transpose, accumulator arithmetic, shapes and release. -/

namespace Sys2Proof.Machine

/-- A field of a row replaced. -/
def setField {n : Nat} (x : BitVec n) (lo len : Nat) (v : Nat) : BitVec n :=
  (x &&& ~~~ (BitVec.ofNat n (2 ^ len - 1) <<< lo)) ||| (BitVec.ofNat n (v % 2 ^ len) <<< lo)

/-- Rows with one of the 64 changed. -/
def setRow {n : Nat} (l : List (BitVec n)) (i : Nat) (f : BitVec n → BitVec n) : List (BitVec n) :=
  (List.range 64).map (fun r => if r = i then f (l.getD r 0) else l.getD r 0)

/-- `tzero` (R241). -/
def execTzero (t : TReg) (s : State) : Answer :=
  runAct s 8 (do
    let (e, bn) ← bound
    match t with
    | .a n => do
      let k ← freshTile e bn true
      guarded (modify (fun s => (s.setAccTile e bn n k []).tileDone e 6 0 1 false))
    | .t n => do
      let k ← freshTile e bn false
      guarded (modify (fun s => (s.setOpTile e bn n k { data := [], scale := [] }).tileDone e 6 0 1 false)))

/-- `tmova` (R241). -/
def execTmova (t : BitVec 2) (v g : Reg) (s : State) : Answer :=
  let x := (s.readG g).toNat
  runAct s 8 (do
    let (e, bn) ← bound
    trapIf (decide (512 ≤ x)) (tileLimit (s.readG g))
    let k ← freshTile e bn true
    guarded (modify (fun s =>
      let new := setRow (s.accTile e bn t) (x % 64) (fun r => setField r (512 * (x / 64)) 512 (s.readV v).toNat)
      (s.setAccTile e bn t k new).tileDone e 10 0 1 false)))

/-- `tmovt` (R241). -/
def execTmovt (t : BitVec 3) (v g : Reg) (s : State) : Answer :=
  let x := (s.readG g).toNat
  runAct s 8 (do
    let (e, bn) ← bound
    trapIf (decide (256 ≤ x) || decide (x / 64 = 3)) (tileLimit (s.readG g))
    let k ← freshTile e bn false
    guarded (modify (fun s =>
      let o := s.opTile e bn t
      let y := (s.readV v).toNat
      let new : OpTile :=
        if x / 64 < 2 then { o with data := setRow o.data (x % 64) (fun r => setField r (512 * (x / 64)) 512 y) }
        else { o with scale := setRow o.scale (x % 64) (fun _ => BitVec.ofNat 128 y) }
      (s.setOpTile e bn t k new).tileDone e 11 0 1 false)))

/-- The fault of a record: SCALE_RESERVED or FORMAT_TAG, with its operand, row and block (R55, R229). -/
def checkRecords (x : OpTile) (w opnd : Nat) : Act Unit :=
  match x.badRecord w with
  | some (i, b, rsv) => raiseTrap { cause := if rsv then .scaleReserved else .formatTag, va := 0, detail := 0, tile := tileWord i opnd b }
  | none => pure ()

/-- The fault of a nibble: SPARSE_META with its row and group (R245). -/
def checkMeta (x : OpTile) (groups : Nat) : Act Unit :=
  match x.badNibble groups with
  | some (i, g) => raiseTrap { cause := .sparseMeta, va := 0, detail := 0, tile := tileWord i 5 g }
  | none => pure ()

/-- A tenant's multiply is held back: its account is below zero and the cluster started one of its multiplies fewer
than 64 engine cycles ago (R344). -/
def State.mmaHeld (s : State) (cl : Nat) (tno : BitVec 12) : Bool :=
  decide (s.account cl tno < 0) &&
    (match tfind (s.cluster cl).lastMma tno.toNat with
     | some t => decide (s.engineCycles < t + 64)
     | none => false)

/-- A multiply starts (R344). -/
def State.mmaStarts (s : State) (cl : Nat) (tno : BitVec 12) : State :=
  s.modCluster cl (fun c => { c with lastMma := tset c.lastMma tno.toNat s.engineCycles })

/-- A multiply with its physical tile that R344 holds back stands in the issue queue, and its TILE event will say so
(R349). -/
def State.slowIssue (s : State) (e k : Nat) : State :=
  let i := { ((s.engine e).issueOf s.cur).getD (s.newIssue true) with tile := some k, slowed := true }
  s.modEngine e (fun x =>
    { x with issue := if x.issue.any (fun q => q.ctx == s.cur) then x.issue.map (fun q => if q.ctx = s.cur then i else q) else x.issue ++ [i] })

/-- R344 has held back the instruction of a context. -/
def Engine.slowedOf (x : Engine) (c : Nat) : Bool := (x.issueOf c).any (·.slowed)

/-- `tmma` and `tmma.sp` up to their retirement (R243-R245): checks of the records and metadata, the wait of R344 for
one that the engine has not started, the product, and the counts. -/
def mma (started : Bool) (t : BitVec 2) (a b : BitVec 3) (sp : Option (BitVec 3)) (w : Nat) (h : Bool) : Act Unit := do
  let (e, bn) ← bound
  let s ← get
  let x := s.opTile e bn a
  let y := s.opTile e bn b
  let y1 := s.opTile e bn (b + 1)
  checkRecords x w 2
  checkRecords y w 3
  match sp with
  | some m => do
    checkRecords y1 w 4
    checkMeta (s.opTile e bn m) (if w = 0 then 64 else 32)
  | none => pure ()
  let k ← freshTile e bn true
  if !started && s.mmaHeld s.myCluster s.me.tno then do
    modify (fun s => s.slowIssue e k)
    throw (.hold .engine)
  else pure ()
  let slowed := ((← get).engine e).slowedOf s.cur
  let ra := (x.values w h).zip (List.range 64)
  let rows := match sp with
    | none => ra.map (fun r => r.1.map some)
    | some m => ra.map (fun r => spreadRow ((s.opTile e bn m).row r.2) 0 r.1)
  let cols := match sp with
    | none => y.values w h
    | some _ => ((y.values w h).zip (y1.values w h)).map (fun p => p.1 ++ p.2)
  let (new, g) := multiply (decide (w = 3)) (s.accTile e bn t) rows cols
  let nj := match sp with
    | none => if w = 0 then 70 else if w = 1 then 75 else if w = 2 then 80 else 90
    | some _ => if w = 0 then 80 else 100
  guarded (modify (fun s =>
    let s := if started then s else s.mmaStarts s.myCluster s.me.tno
    ((s.setAccTile e bn t k new).countEngine e 5).tileDone e (if sp.isSome then 8 else 7) g nj slowed))

/-- The context's instruction in its engine's issue queue is a multiply, which the engine starts (R226, R288). -/
def State.issueWait (s : State) (i : Instr) : State :=
  match s.boundEngine s.cur with
  | some e => s.modEngine e (fun x =>
      { x with issue := x.issue.map (fun q => if q.ctx = s.cur then { q with instr := some i } else q) })
  | none => s

/-- A multiply executes, or waits in the issue queue. -/
def runMma (i : Instr) (m : Act Unit) (s : State) : Answer :=
  match runAct s 8 m with
  | .next u => .next (if u.me.stall = .engine then u.issueWait i else u)
  | r => r

/-- `tmma` (R243). -/
def execTmma (t : BitVec 2) (a b : BitVec 3) (e : BitVec 2) (h : Bool) (s : State) : Answer :=
  runMma (.tmma t a b e h) (mma false t a b none e.toNat h) s

/-- `tmma.sp` (R244, R245). -/
def execTmmaSp (t : BitVec 2) (a b m : BitVec 3) (e : BitVec 2) (h : Bool) (s : State) : Answer :=
  runMma (.tmmaSp t a b m e h) (mma false t a b (some m) e.toNat h) s

/-- `tcvt` (R247): from an accumulator the exact s + c, from an operand tile its 16-bit elements. -/
def execTcvt (t : BitVec 3) (a : TReg) (e : BitVec 2) (h : Bool) (tag : BitVec 2) (s : State) : Answer :=
  runAct s 8 (do
    let (eng, bn) ← bound
    let k ← freshTile eng bn false
    guarded (modify (fun s =>
      let vals : Nat → List Res := match a with
        | .a n => fun i => (List.range 64).map (fun j => accValue (accPair (accRow (s.accTile eng bn n) i) j))
        | .t n => fun i => (List.range 64).map (fun j => ((kindOf h).decode (elemOf 3 ((s.opTile eng bn n).row i) j), 0))
      let rs := (List.range 64).map (fun i => convertRow e.toNat h tag.toNat (vals i))
      let new : OpTile := { data := rs.map (·.1), scale := rs.map (fun r => r.2.1) }
      (s.setOpTile eng bn t k new).tileDone eng 9 (joinFlags (rs.map (fun r => r.2.2))) 20 false)))

/-- `ttrans` (R249). -/
def execTtrans (t a : BitVec 3) (e : BitVec 2) (_h : Bool) (s : State) : Answer :=
  runAct s 8 (do
    let (eng, bn) ← bound
    let k ← freshTile eng bn false
    guarded (modify (fun s => (s.setOpTile eng bn t k (transpose e.toNat (s.opTile eng bn a))).tileDone eng 12 0 20 false)))

/-- `tadd` (R250). -/
def execTadd (t a b : BitVec 2) (s : State) : Answer :=
  runAct s 8 (do
    let (e, bn) ← bound
    let k ← freshTile e bn true
    guarded (modify (fun s =>
      let r := accMap addPair (s.accTile e bn a) (s.accTile e bn b)
      (s.setAccTile e bn t k r.1).tileDone e 13 r.2 10 false)))

/-- `tscale` (R250). -/
def execTscale (t a : BitVec 2) (g : Reg) (s : State) : Answer :=
  let f := fp32.decode ((s.readG g).toNat % 2 ^ 32)
  runAct s 8 (do
    let (e, bn) ← bound
    let k ← freshTile e bn true
    guarded (modify (fun s =>
      let x := s.accTile e bn a
      let r := accMap (scalePair f) x x
      (s.setAccTile e bn t k r.1).tileDone e 14 r.2 10 false)))

/-- `trel` (R252): the binding ends without a spill. -/
def execTrel (s : State) : Answer :=
  runAct s 8 (do
    let (e, _) ← bound
    guarded (modify (fun s => (s.tileDone e 15 0 1 false).releaseBinding s.myCluster s.me.tcb)))

/-- `mset` (R251). -/
def execMset (m : BitVec 3) (a b c : Reg) (s : State) : Answer :=
  let rows := (s.readG a).toNat
  let stride := (s.readG b).toInt
  runAct s 8 (do
    let (e, _) ← bound
    trapIf (decide (rows < 1) || decide (64 < rows)) (tileLimit (s.readG a))
    trapIf (decide (stride < -(2 ^ 31)) || decide (2 ^ 31 - 1 < stride)) (tileLimit (s.readG b))
    guarded (modify (fun s =>
      let x := BitVec.ofNat 128 (rows + (s.readG b).toNat % 2 ^ 32 * 2 ^ 32 + (s.readG c).toNat * 2 ^ 64)
      (s.writeM m x).tileDone e 16 0 1 false)))

/-- A tile instruction of the issue queue still is its context's oldest unretired instruction; one that is not was
squashed (R288). -/
def State.live (s : State) (i : Issue) : Bool :=
  (s.ctx i.ctx).life == .running && (s.ctx i.ctx).stall == .engine

/-- An instruction of the issue queue may start: it is a multiply, stands, holds a physical tile, and R344 allows it. The
instructions of the second path are executed by their contexts, which try again as they have their tiles (R288, log 30). -/
def State.startable (s : State) (e : Nat) (i : Issue) : Bool :=
  i.instr.isSome && s.live i && i.tile.isSome && !s.mmaHeld (e / 4) i.tno

/-- The next instruction that an engine starts: bindings in rotation by number (R288). -/
def State.nextIssue (s : State) (e : Nat) : Option (Nat × Issue) :=
  let s := grantTiles e (s.engine e).issue s
  let x := s.engine e
  (List.range 6).findSome? (fun k =>
    let b := (x.turn + k) % 6
    (x.issue.find? (fun i => (s.binding e b).tcb == (s.ctx i.ctx).tcb && s.startable e i)).map (fun i => (b, i)))

/-- ENGINE_START (R288). -/
def State.engineStart (s : State) (e : Nat) : State :=
  if (s.engine e).running.isSome then s
  else match s.nextIssue e with
    | none => s
    | some (b, i) =>
      ((grantTiles e (s.engine e).issue s).modEngine e (fun x =>
        { x with issue := x.issue.erase i, running := some i, turn := (b + 1) % 6 })).mmaStarts (e / 4) i.tno

/-- The tile instruction of a context waits in the issue queue for its engine or for a physical tile, and need not be tried
again yet (R226, R288). -/
def State.queued (s : State) (c : Nat) : Bool :=
  match s.boundEngine c with
  | none => false
  | some e =>
    (s.engine e).running.any (fun i => i.ctx == c) ||
      (match (grantTiles e (s.engine e).issue s).engine e |>.issueOf c with
       | some i => i.instr.isSome || i.tile.isNone
       | none => !((s.engine e).waiting.isEmpty || (s.engine e).waiting.head? == some c) && (s.engine e).waiting.contains c)

/-- The effect of an instruction that an engine runs. -/
def runningAct : Option Instr → Act Unit
  | some (.tmma t a b w h) => mma true t a b none w.toNat h
  | some (.tmmaSp t a b m w h) => mma true t a b (some m) w.toNat h
  | _ => pure ()

/-- An instruction that an engine has run retires, or faults, in its context. -/
def State.finishIssue (s : State) (i : Issue) : Answer :=
  runAct { s with cur := i.ctx, ir0 := i.w0, ir1 := i.w1 } 8 (runningAct i.instr)

/-- TILE_COMPLETE (R227): the instruction that an engine runs completes and retires, or faults, in its context, and leaves
the engine; one that was squashed leaves nothing. -/
def State.tileComplete (s : State) (e : Nat) : State :=
  match (s.engine e).running with
  | none => s
  | some i =>
    let done := fun (t : State) => t.modEngine e (fun x => x.forget i.ctx)
    if s.live i then
      match s.finishIssue i with
      | .next u => done { u with cur := s.cur, ir0 := s.ir0, ir1 := s.ir1 }
      | _ => done s
    else done s

end Sys2Proof.Machine
end

