-- ==== Sys2Proof/Machine/Rotation.lean ====
section
/-! DEFINITION. The dispatch rotation, the accounting of core cycles and the engine cycles (spec/01 R24, R32, spec/13
R338, R339, R344). -/

namespace Sys2Proof.Machine

/-- Ports of a socket at which a class R request waits for admission (R331). -/
def State.heldPorts (s : State) (sock : Nat) : List Nat :=
  ((List.range 512).map (512 * sock + ·)).filter (fun p =>
    s.flights.any (fun f => f.port == p && !f.classA && (match f.place with | .waiting _ => true | _ => false)))

/-- An engine holds a startable multiply back (R344). -/
def State.throttled (s : State) (e : Nat) : Bool :=
  (s.engine e).issue.any (fun i => i.instr.isSome && s.live i && i.tile.isSome && s.mmaHeld (e / 4) i.tno)

/-- One engine cycle of a socket: THROTTLE and HELD (R331, R344). -/
def State.engineCycle (s : State) (sock : Nat) : State :=
  let held := if s.flights.isEmpty then [] else s.heldPorts sock
  let slow := (s.engines.filter (fun e => e.1 / 256 == sock && s.throttled e.1)).map (·.1)
  slow.foldl (fun s e => s.countEngine e 6) (held.foldl (fun s p => s.countPort p 4) s)

/-- What happens at the boundaries of TIME that a clock passes, in this order (log 7): at a microsecond the context time
and the refills, at a millisecond the tenant window, every 8 microseconds the walks of the overflow lists (R279, R316,
R317, R322, R342, R351). -/
def State.boundary (s : State) (t0 t1 : Nat) : List Instr :=
  let socks := (s.fuses.map (·.1)).filter (fun k => !(s.pkg k).shutdown)
  let at1 := socks.map Instr.contextTimeUpdate
  let atMs := if t0 / 1000000 = t1 / 1000000 then [] else socks.map Instr.tenantWindowBoundary
  let refills := socks.map Instr.energyRefill ++ socks.map Instr.efcBudgetRefill
  let walks := if t0 / 8000 = t1 / 8000 then []
    else
      ((s.clusters.filter (fun c => !c.2.sleepOver.isEmpty)).map (fun c => Instr.sleepOverflowWalk c.1)) ++
        ((s.clusters.filter (fun c => !c.2.waitOver.isEmpty || (s.coresOf c.1).any (fun k => (s.core k).x7wait.isSome))).map
          (fun c => Instr.waitOverflowWalk c.1))
  if t0 / 1000 = t1 / 1000 then [] else at1 ++ atMs ++ refills ++ walks

/-- The clock moves on to a core's cycle count: engine cycles pass with it, and what its boundaries bring comes next. -/
def State.advance (s : State) (cycle : Nat) : State :=
  if cycle ≤ s.clock then s
  else
    let t := { s with clock := cycle }
    let t := if t.engineCycles = s.engineCycles then t else (t.fuses.map (·.1)).foldl (fun t k => t.engineCycle k) t
    { t with agenda := s.boundary s.time t.time ++ t.agenda }

/-- The accounts of a core's cycle: the ready histogram, the class of the slot's owner, and RECEIVED of a context that
dispatches in another's slot (R338, R339). The context that dispatches is next in turn. -/
def State.chargeSlot (s : State) (core : Nat) : State :=
  let own := s.owner core
  let t := (s.countCore core ((rotation core 0).filter s.ready).length).countCtx own (s.slotClass own (s.dispatcher core == some own))
  match s.dispatcher core with
  | some c => { (if c = own then t else t.countCtx c 7) with cur := c }
  | none => t

/-- A core cycle: its accounts, the quanta, and the clock (R24, R32, R338, R339). -/
def State.dispatchCycle (s : State) (core : Nat) : State :=
  let t := (s.chargeSlot core).countDown core
  let cycle := (t.core core).cycle + 1
  (t.modCore core (fun k => { k with cycle := cycle })).advance cycle

end Sys2Proof.Machine
end

