-- ==== Sys2Proof/Machine/Events.lean ====
section
/-! DEFINITION. The device's own steps: a meaning for each event row of spec/opcode_table.json. A step whose condition
does not hold changes nothing (log 7). -/

namespace Sys2Proof.Machine

/-- TRAP_RECORD_ENTER (R261, R293). -/
def execTrapRecordEnter (core : Nat) (s : State) : Answer :=
  let k := s.core core
  .next (if k.slots.isEmpty || decide (64 ≤ k.mq.length) then s else (refill core 16 s).wakeX7 core)

/-- PLACEMENT (R30, R38). -/
def execPlacement (cl : Nat) (s : State) : Answer := .next (s.placement cl)

/-- PREEMPTION (R31, R33). -/
def execPreemption (cl : Nat) (s : State) : Answer := .next (s.preemption cl)

/-- QUANTUM_EXPIRY (R32). -/
def execQuantumExpiry (ctx : Nat) (s : State) : Answer := .next (s.quantumExpiry ctx)

/-- PULL (R34). -/
def execPull (cl : Nat) (s : State) : Answer := .next (s.pull cl)

/-- TILE_BINDING (R35). -/
def execTileBinding (ctx : Nat) (s : State) : Answer := .next (s.tileBinding ctx)

/-- EXITED_WRITE (R39). -/
def execExitedWrite (tcb : Nat) (s : State) : Answer := .next (s.exitedWrite tcb)

/-- TENANT_WINDOW_BOUNDARY (R277, R316, R317). -/
def execTenantWindowBoundary (sock : Nat) (s : State) : Answer := .next (s.windowBoundary sock)

/-- CONTEXT_TIME_UPDATE (R317). -/
def execContextTimeUpdate (sock : Nat) (s : State) : Answer := .next (s.contextTime sock)

/-- SLEEP_DEADLINE (R279). -/
def execSleepDeadline (cl : Nat) (s : State) : Answer := .next (s.sleepDeadline cl)

/-- SLEEP_OVERFLOW_WALK (R279). -/
def execSleepOverflowWalk (cl : Nat) (s : State) : Answer := .next (s.sleepWalk cl)

/-- WAIT_TABLE_RECHECK (R321). -/
def execWaitTableRecheck (cl line : Nat) (s : State) : Answer := .next (s.waitRecheck cl line)

/-- WAIT_OVERFLOW_WALK (R322). -/
def execWaitOverflowWalk (cl : Nat) (s : State) : Answer := .next (s.waitWalk cl)

/-- ENGINE_START (R288, R344). -/
def execEngineStart (eng : Nat) (s : State) : Answer := .next (s.engineStart eng)

/-- TILE_COMPLETE (R227). -/
def execTileComplete (eng : Nat) (s : State) : Answer := .next (s.tileComplete eng)

/-- TILE_STORE_DRAIN (R237, R289). -/
def execTileStoreDrain (eng : Nat) (s : State) : Answer := .next (s.drainOldest eng)

/-- PUT_T_PIECE (R238). -/
def execPutTPiece (eng : Nat) (s : State) : Answer := .next (s.sendTilePiece eng)

/-- STORE_PERFORM (R154). -/
def execStorePerform (core : Nat) (s : State) : Answer := .next (s.performOldest core)

/-- PUT_LINE_SEND (R290). -/
def execPutLineSend (cl : Nat) (s : State) : Answer := .next (s.putSend cl)

/-- PUT_LINE_LANDED (R143, R290). -/
def execPutLineLanded (cl id bytes : Nat) (s : State) : Answer := .next (s.putLanded cl id bytes none)

/-- COPY_TAKE_UP (R176, R291). -/
def execCopyTakeUp (cl : Nat) (s : State) : Answer := .next (s.copyTakeUp cl)

/-- COPY_BURST (R176). -/
def execCopyBurst (cl : Nat) (s : State) : Answer := .next (s.copyBurst cl)

/-- COPY_STOP_MSG_ENTER (R292). -/
def execCopyStopMsgEnter (cl : Nat) (s : State) : Answer := .next (s.stopEnters cl)

/-- HOME_RDT (R119). -/
def execHomeRdt (r : Req) (s : State) : Answer := .next (s.homeTakes .rdT r)

/-- HOME_RDU (R119). -/
def execHomeRdu (r : Req) (s : State) : Answer := .next (s.homeTakes .rdU r)

/-- HOME_RDW (R119). -/
def execHomeRdw (r : Req) (s : State) : Answer := .next (s.homeTakes .rdW r)

/-- HOME_OWN (R119). -/
def execHomeOwn (r : Req) (s : State) : Answer := .next (s.homeTakes .own r)

/-- HOME_WRT (R119). -/
def execHomeWrt (r : Req) (s : State) : Answer := .next (s.homeTakes .wrT r)

/-- HOME_WRS (R119). -/
def execHomeWrs (r : Req) (s : State) : Answer := .next (s.homeTakes .wrS r)

/-- HOME_WRW (R119). -/
def execHomeWrw (r : Req) (s : State) : Answer := .next (s.homeTakes .wrW r)

/-- HOME_PUT_LINE (R119). -/
def execHomePutLine (r : Req) (s : State) : Answer := .next (s.homeTakes .putLine r)

/-- HOME_ATH (R119, R120). -/
def execHomeAth (r : Req) (s : State) : Answer := .next (s.homeTakes .atH r)

/-- HOME_WB (R119). -/
def execHomeWb (r : Req) (s : State) : Answer := .next (s.homeTakes .wb r)

/-- DEAD_LETTER_APPEND at the socket of the refused address (R172). -/
def execDeadLetterAppend (dl : DeadLetter) (s : State) : Answer := .next (s.deadLetter (sockOf dl.pa) dl)

/-- The address of word w of a line. -/
def wordAt (line w : Nat) : Nat := lineOf line + 8 * (w % 8)

/-- INVALIDATION (R105): the answer says whether the cluster still holds a T word of the line. -/
def execInvalidation (cl line w : Nat) (s : State) : Answer :=
  let (t, held) := s.invalidate cl (wordAt line w)
  .next { t with answer := some (if held then 1 else 0) }

/-- RECALL (R105): the answer is the owned word, or none for "not owner". -/
def execRecall (cl line w : Nat) (s : State) : Answer :=
  let (t, v) := s.recall cl (wordAt line w)
  .next { t with answer := v }

/-- DOWNGRADE (R105): the answer is the owned word, or none for "not owner". -/
def execDowngrade (cl line w : Nat) (s : State) : Answer :=
  let (t, v) := s.downgrade cl (wordAt line w)
  .next { t with answer := v }

/-- FORWARDED_READ (R105): the answer is the owned word, or none for "not owner". -/
def execForwardedRead (cl line w : Nat) (s : State) : Answer := .next { s with answer := s.forward cl (wordAt line w) }

/-- ENDING_REPLY (R299). -/
def execEndingReply (port : Nat) (cmx : Bool) (s : State) : Answer := .next (s.endingReply port cmx)

/-- REQUEST_ADMISSION (R299, R300). -/
def execRequestAdmission (port : Nat) (s : State) : Answer := .next (s.admission port)

/-- SWITCH_FORWARD (R295-R298). -/
def execSwitchForward (stage sw out : Nat) (s : State) : Answer := .next (s.forwardFrom stage sw out)

/-- ENERGY_REFILL (R342). -/
def execEnergyRefill (sock : Nat) (s : State) : Answer := .next (s.energyRefill sock)

/-- EFC_BUDGET_REFILL (R351). -/
def execEfcBudgetRefill (sock : Nat) (s : State) : Answer := .next (s.efcRefill sock)

/-- EFC_TAKE_RECORD (R350, R351). -/
def execEfcTakeRecord (efc : Nat) (s : State) : Answer := .next (s.efcTake efc)

/-- FOTSYNC (R314). -/
def execFotsync (sock : Nat) (x : Word) (s : State) : Answer := .next (s.fotSync sock x)

/-- TENTSYNC (R314). -/
def execTentsync (sock : Nat) (x : Word) (s : State) : Answer := .next (s.tentSync sock x)

/-- CORE_RELEASE (R373). -/
def execCoreRelease (sock : Nat) (x : Word) (s : State) : Answer := .next (s.releaseCore sock x)

/-- ATTEST_APPEND: TYPE is 1-255 (R373). -/
def execAttestAppend (sock : Nat) (ty : BitVec 8) (s : State) : Answer :=
  .next (if ty = 0 then s else s.attestAppend sock ty)

/-- ATTEST_SIGN (R373). -/
def execAttestSign (sock : Nat) (s : State) : Answer := .next (s.attestSign sock)

/-- ATTEST_SIGN_DONE (R373). -/
def execAttestSignDone (sock : Nat) (s : State) : Answer := .next (s.attestSigned sock)

/-- DEBUG_STOP (R375). -/
def execDebugStop (ctx : Nat) (s : State) : Answer := .next (if s.hasCtx ctx then s.debugStop ctx else s)

/-- DEBUG_RESUME (R375). -/
def execDebugResume (ctx : Nat) (s : State) : Answer := .next (if s.hasCtx ctx then s.debugResume ctx else s)

/-- DBGDATA_ACCESS of a core (R375): a read's value goes out on the debug port. -/
def execDbgdataAccess (core : Nat) (wr : Option (BitVec 64)) (s : State) : Answer :=
  .next (if !s.hasCore core then s
    else match wr with
      | some x => s.dbgDataWrite core x
      | none => s.emit (.debugData (s.dbgDataRead core)))

/-- LINK_RETRAIN (R360). -/
def execLinkRetrain (sock port : Nat) (x : Word) (s : State) : Answer :=
  .next (if port < 16 then s.writeFabPort sock port x else s)

/-- LINK_TRAINED (R360). -/
def execLinkTrained (sock port : Nat) (s : State) : Answer := .next (s.linkTrained sock port)

/-- COHERENT_LINK_DOWN (R362). -/
def execCoherentLinkDown (sock port : Nat) (s : State) : Answer := .next (s.coherentDown sock port)

/-- FAR_DATA_RECEIVE (R365, R367). -/
def execFarDataReceive (sock port : Nat) (f : Frame) (s : State) : Answer := .next (s.farData sock port f)

/-- FAR_ACK_RECEIVE (R366). -/
def execFarAckReceive (sock port : Nat) (f : Frame) (s : State) : Answer := .next (s.farAck sock port f)

/-- FAR_NAK_RECEIVE (R366). -/
def execFarNakReceive (sock port : Nat) (f : Frame) (s : State) : Answer := .next (s.farNak sock port f)

/-- FAR_REFUSE_RECEIVE (R365, R368). -/
def execFarRefuseReceive (sock port : Nat) (f : Frame) (s : State) : Answer := .next (s.farRefuse sock port f)

/-- FAR_TIMEOUT (R366). -/
def execFarTimeout (sock dest : Nat) (s : State) : Answer := .next (s.farExpire sock dest)

/-- FAR_ACK_TIMER (R365). -/
def execFarAckTimer (sock : Nat) (s : State) : Answer := .next (s.ackTimer sock)

/-- LINK_LACK_RECEIVE (R367). -/
def execLinkLackReceive (sock port : Nat) (f : Frame) (s : State) : Answer := .next (s.linkLack sock port f)

/-- LINK_LNAK_RECEIVE (R367). -/
def execLinkLnakReceive (sock port : Nat) (f : Frame) (s : State) : Answer := .next (s.linkLnak sock port f)

/-- FARID_WRITE (R366). -/
def execFaridWrite (sock : Nat) (x : Word) (s : State) : Answer := .next (s.writeFarId sock x)

/-- DISPATCH_CYCLE (R24, R338, R339). -/
def execDispatchCycle (core : Nat) (s : State) : Answer := .next (s.dispatchCycle core)

/-- ENGINE_CYCLE (R331, R344). -/
def execEngineCycle (sock : Nat) (s : State) : Answer := .next (s.engineCycle sock)

/-- FAR_PORT_DOWN (R363, R366). -/
def execFarPortDown (sock port : Nat) (s : State) : Answer := .next (s.farPortDown sock port)

end Sys2Proof.Machine
end

