-- ==== Sys2Proof/Machine/Memory.lean ====
section
/-! DEFINITION. Scalar instructions that write memory or act on the caches: stores, atomics, fences, hints and cache
maintenance (classes 9, 11, 12 and `stx`; spec/06 R158-R166). -/

namespace Sys2Proof.Machine

/-- `st` (R158, R159). -/
def execSt (t b : Reg) (pol : Pol) (ord : Order) (sc : Scope) (z : BitVec 2) (off : BitVec 7) (s : State) : Answer :=
  runAct s 4 (storeReg t (s.addrOff b z off) z pol ord sc)

/-- `stx` (R158, R159). -/
def execStx (t b : Reg) (pol : Pol) (ord : Order) (sc : Scope) (z : BitVec 2) (idx : Reg) (c : Bool) (s : State) : Answer :=
  runAct s 4 (storeReg t (s.addrIdx b z idx c) z pol ord sc)

/-- An ordering suffix releases, acquires (R71). -/
def releases (o : Order) : Bool := o == .rel || o == .ar
def acquires (o : Order) : Bool := o == .acq || o == .ar

/-- Atomic (R161): the old value of n bytes. -/
def atomicValue (op : AmoOp) (va : Word) (n : Nat) (x cmp : Word) (pol : Pol) (ord : Order) (sc : Scope) : Act Word := do
  let acq := if acquires ord then some sc else none
  let rel := if releases ord then some sc else none
  aligned va n .atomic (some pol)
  let pa ← xlate va .atomic (some pol)
  notDevice va pa .atomic (some pol)
  modify (fun s => s.waitOwn s.cur pa n)
  modify (fun s => if releases ord then s.releaseWait s.cur sc else s)
  note va n (some pol) true true
  let s ← get
  guarded (do
    let old ← lift va (detailOf 2 pol.code false false false 0 0) 0 (clAtomic s.agent pol op pa n x cmp acq rel)
    modify (fun s => if acquires ord then s.acquireAt s.myCluster sc else s)
    pure old)

/-- An atomic on general registers: the operand g[v], for `cas` the expected value g[d], and the old value to g[d],
sign-extended (R73, R161). -/
def atomicReg (op : AmoOp) (d b : Reg) (pol : Pol) (ord : Order) (sc : Scope) (v : Reg) (w : Bool) (s : State) : Answer :=
  let n := if w then 8 else 4
  runAct s 4 (do
    let old ← atomicValue op (s.readG b) n (s.readG v) (s.readG d) pol ord sc
    modify (fun t => t.writeG d (extend old n true)))

/-- `amo.add` (R161). -/
def execAmoAdd (d b : Reg) (pol : Pol) (ord : Order) (sc : Scope) (v : Reg) (w : Bool) (s : State) : Answer :=
  atomicReg .add d b pol ord sc v w s

/-- `amo.and` (R161). -/
def execAmoAnd (d b : Reg) (pol : Pol) (ord : Order) (sc : Scope) (v : Reg) (w : Bool) (s : State) : Answer :=
  atomicReg .and d b pol ord sc v w s

/-- `amo.or` (R161). -/
def execAmoOr (d b : Reg) (pol : Pol) (ord : Order) (sc : Scope) (v : Reg) (w : Bool) (s : State) : Answer :=
  atomicReg .or d b pol ord sc v w s

/-- `amo.xor` (R161). -/
def execAmoXor (d b : Reg) (pol : Pol) (ord : Order) (sc : Scope) (v : Reg) (w : Bool) (s : State) : Answer :=
  atomicReg .xor d b pol ord sc v w s

/-- `amo.min` (R161). -/
def execAmoMin (d b : Reg) (pol : Pol) (ord : Order) (sc : Scope) (v : Reg) (w : Bool) (s : State) : Answer :=
  atomicReg .min d b pol ord sc v w s

/-- `amo.max` (R161). -/
def execAmoMax (d b : Reg) (pol : Pol) (ord : Order) (sc : Scope) (v : Reg) (w : Bool) (s : State) : Answer :=
  atomicReg .max d b pol ord sc v w s

/-- `amo.minn` (R161). -/
def execAmoMinn (d b : Reg) (pol : Pol) (ord : Order) (sc : Scope) (v : Reg) (w : Bool) (s : State) : Answer :=
  atomicReg .minn d b pol ord sc v w s

/-- `amo.maxn` (R161). -/
def execAmoMaxn (d b : Reg) (pol : Pol) (ord : Order) (sc : Scope) (v : Reg) (w : Bool) (s : State) : Answer :=
  atomicReg .maxn d b pol ord sc v w s

/-- `amo.swap` (R161). -/
def execAmoSwap (d b : Reg) (pol : Pol) (ord : Order) (sc : Scope) (v : Reg) (w : Bool) (s : State) : Answer :=
  atomicReg .swap d b pol ord sc v w s

/-- `cas` (R161). -/
def execCas (d b : Reg) (pol : Pol) (ord : Order) (sc : Scope) (v : Reg) (w : Bool) (s : State) : Answer :=
  atomicReg .cas d b pol ord sc v w s

/-- `fence` (R140, R141, R162): a release waits for every earlier write and drains at .pkg and .sys, and the thread's later
stores are releases; an acquire discards at .pkg and .sys. R140 counts the source reads of an earlier copy among the
accesses that a fence orders, and R144 says that its reads are not ordered with later accesses: the fence waits for none of
them (DESIGN CHOICE, log 37). -/
def execFence (ord : Order) (sc : Scope) (s : State) : Answer :=
  runAct s 4 (guarded (do
    modify (fun t => if releases ord then
      (t.releaseWait t.cur sc).modMe (fun x => { x with fenced := widest x.fenced (some sc) }) else t)
    modify (fun t => if acquires ord then t.acquireAt t.myCluster sc else t)))

/-- The residency marks of a set hold at most eight lines; a ninth clears the longest-held one (R165). -/
def State.markResident (s : State) (cl line : Nat) : State :=
  match tfind (s.cluster cl).clc line with
  | none => s
  | some l =>
    if l.mark.isSome then s else
    let marked := (s.cluster cl).clc.filter (fun e => e.1 / 64 % 16384 == line / 64 % 16384 && e.2.mark.isSome && e.1 != line)
    let s := if 8 ≤ marked.length then
        match marked with
        | [] => s
        | m :: rest =>
          let old := rest.foldl (fun b e => if e.2.mark.getD 0 < b.2.mark.getD 0 then e else b) m
          s.modCluster cl (fun c => { c with clc := tset c.clc old.1 { old.2 with mark := none } })
      else s
    let n := s.seq
    { s.modCluster cl (fun c => { c with clc := tset c.clc line { l with mark := some n } }) with seq := n + 1 }

/-- The fill that a `pref` makes for its line: RdT or RdU, and with write intent under .own an Own of every word;
.wt makes no request (R164). Which word of the line the RdT or RdU names the spec leaves open: the lowest that the cluster
does not hold as the policy needs it; and how many Own requests obtain the words: one for each word not owned, ascending (DESIGN
CHOICE, log 45). -/
def prefFill (a : Agent) (pol : Pol) (own : Bool) (line : Nat) : Mem Unit := do
  match pol with
  | .wt => pure ()
  | _ =>
    if own then do
      let s ← get
      let ws := (List.range 8).filter (fun w => (s.clWord a.cl (line + 8 * w)).st != .o)
      ws.forM (fun w => do
        let _ ← obtain a (line + 8 * w)
        pure ())
    else do
      let s ← get
      let need := (List.range 8).filter (fun w =>
        let st := (s.clWord a.cl (line + 8 * w)).st
        st == .i || (st == .u && pol != .sis))
      match need with
      | [] => pure ()
      | w :: _ => do
        let _ ← clRead a pol (line + 8 * w) none
        pure ()

/-- The line that a `pref` fills (R164, R166). -/
def prefLine (va : Word) (pol : Pol) (own : Bool) : Act Nat := do
  let s ← get
  let pa ← xlate va (if own then .write else .read) (some pol)
  notDevice va pa .read (some pol)
  lift va 0 0 (prefFill s.agent pol own (lineOf pa))
  pure (lineOf pa)

/-- A `pref`: every fault, refusal and error drops it, and the drop is counted at its retirement; a residency hint marks
the line it filled (R164-R166). -/
def prefAct (va : Word) (pol : Pol) (own mark : Bool) : Act Unit := fun t =>
  match prefLine va pol own t with
  | .ok line t => guarded (modify (fun t => if mark then t.markResident t.myCluster line else t)) t
  | .error _ t => guarded (modify (fun t => t.countCtx t.cur 6)) t

/-- `pref` (R164-R166). -/
def execPref (b : Reg) (pol : Pol) (h : BitVec 3) (off : BitVec 7) (s : State) : Answer :=
  runAct s 4 (prefAct (s.addrLine b off) pol (h.getLsbD 0 && pol == .own) (decide (h.toNat / 2 = 3) && pol != .wt))

/-- The line that `cwb` or `cinv` acts on (R163), after the waits for the thread's own stores (R155). -/
def maintLine (va : Word) : Act Nat := do
  let pa ← xlate va .maint none
  notDevice va pa .maint none
  modify (fun s => s.waitOwn s.cur (lineOf pa) 64)
  pure (lineOf pa)

/-- `cwb` (R163): O is written back and becomes T, B is drained. -/
def execCwb (b : Reg) (off : BitVec 7) (s : State) : Answer :=
  runAct s 4 (do
    let line ← maintLine (s.addrLine b off)
    guarded (modify (fun t => (List.range 8).foldl (fun t w =>
      (t.writeBack s.agent (line + 8 * w) true 0).drainWord s.agent (line + 8 * w) true none 1) t)))

/-- `cinv` (R163): O is written back, B drained, and every word becomes I; a residency mark ends. -/
def execCinv (b : Reg) (off : BitVec 7) (s : State) : Answer :=
  runAct s 4 (do
    let line ← maintLine (s.addrLine b off)
    guarded (modify (fun t =>
      let t := (List.range 8).foldl (fun t w =>
        (t.writeBack s.agent (line + 8 * w) false 0).drainWord s.agent (line + 8 * w) false none 1) t
      t.modCluster s.agent.cl (fun c => { c with clc := tdel c.clc line }))))

end Sys2Proof.Machine
end

