-- ==== Sys2Proof/Machine/Scalar.lean ====
section
/-! DEFINITION. Scalar instructions: ALU, immediates, bit fields, upper immediates, branches, jumps and loads
(classes 1 to 8 and `ldx`; spec/07 R182-R197). -/

namespace Sys2Proof.Machine

/-- The operand width of a scalar form (R184). -/
def widthOf (w : Bool) : Nat := if w then 32 else 64

/-- The low N bits of a value. -/
def low (n : Nat) (x : Word) : Nat := x.toNat % 2 ^ n

/-- An N-bit value read as two's complement (R185). -/
def signed (n x : Nat) : Int := if 2 * x < 2 ^ n then (x : Int) else (x : Int) - 2 ^ n

/-- An integer modulo 2^N. -/
def wrap (n : Nat) (x : Int) : Nat := (x % (2 ^ n : Nat)).toNat

/-- An N-bit result sign-extended to 64 bits (R73, R185). -/
def signFrom (n r : Nat) : Word := BitVec.ofInt 64 (signed n (r % 2 ^ n))

/-- Rotation left by k places within N bits. -/
def rotl (n x k : Nat) : Nat := (x * 2 ^ k + x / 2 ^ (n - k)) % 2 ^ n

/-- Leading and trailing zero bits of an N-bit value; N when it is 0 (R185). -/
def clzOf (n x : Nat) : Nat := if x = 0 then n else n - 1 - Nat.log2 x
def ctzOf : Nat → Nat → Nat
  | 0, _ => 0
  | n + 1, x => if x % 2 = 1 then 0 else 1 + ctzOf n (x / 2)

/-- The bits of an N-bit value in reverse order. -/
def brevOf : Nat → Nat → Nat
  | 0, _ => 0
  | n + 1, x => x % 2 * 2 ^ n + brevOf n (x / 2)

/-- The index of the set bit with exactly k set bits below it, searched over n bits from index i; the end when there
is none (R185). -/
def fnthOf : Nat → Nat → Nat → Nat → Nat
  | 0, i, _, _ => i
  | n + 1, i, x, k =>
    if x % 2 = 0 then fnthOf n (i + 1) (x / 2) k
    else if k = 0 then i else fnthOf n (i + 1) (x / 2) (k - 1)

/-- DivRem of R186: quotient and remainder, N-bit. -/
def divRem (n x y : Nat) (sg : Bool) : Nat × Nat :=
  if y = 0 then (2 ^ n - 1, x)
  else if sg then
    let q := Int.tdiv (signed n x) (signed n y)
    (wrap n q, wrap n (signed n x - q * signed n y))
  else (x / y, x % y)

/-- Cond(k, x, y) (R74, R187): eq, ne, lt, ge, ltn, gen, bset, bclr. -/
def cond (k : BitVec 3) (x y : Word) : Bool :=
  if k = 0#3 then x == y
  else if k = 1#3 then x != y
  else if k = 2#3 then x.slt y
  else if k = 3#3 then !x.slt y
  else if k = 4#3 then x.ult y
  else if k = 5#3 then !x.ult y
  else if k = 6#3 then x.getLsbD (y.toNat % 64)
  else !x.getLsbD (y.toNat % 64)

/-- 1 or 0. -/
def bit (b : Bool) : Word := if b then 1 else 0

/-- A class 1 function of two operands: the result of N-bit x and y, sign-extended into g[d] (R185). -/
def alu2 (f : Nat → Nat → Nat → Nat) (d a b : Reg) (w : Bool) (s : State) : Answer :=
  let n := widthOf w
  commit s (s.writeG d (signFrom n (f n (low n (s.readG a)) (low n (s.readG b))))) 4

/-- A class 1 function of one operand (R185). -/
def alu1 (f : Nat → Nat → Nat) (d a : Reg) (w : Bool) (s : State) : Answer :=
  let n := widthOf w
  commit s (s.writeG d (signFrom n (f n (low n (s.readG a))))) 4

/-- The result written to g[d] of an instruction without accesses. -/
def setReg (d : Reg) (v : Word) (s : State) : Answer := commit s (s.writeG d v) 4

/-- `add` (R185). -/
def fAdd (_ x y : Nat) : Nat := x + y

/-- `add` (R185). -/
def execAdd (d a b : Reg) (w : Bool) (s : State) : Answer := alu2 fAdd d a b w s

/-- `sub` (R185). -/
def fSub (n x y : Nat) : Nat := x + 2 ^ n - y

/-- `sub` (R185). -/
def execSub (d a b : Reg) (w : Bool) (s : State) : Answer := alu2 fSub d a b w s

/-- `and` (R185). -/
def fAnd (_ x y : Nat) : Nat := x &&& y

/-- `and` (R185). -/
def execAnd (d a b : Reg) (w : Bool) (s : State) : Answer := alu2 fAnd d a b w s

/-- `or` (R185). -/
def fOr (_ x y : Nat) : Nat := x ||| y

/-- `or` (R185). -/
def execOr (d a b : Reg) (w : Bool) (s : State) : Answer := alu2 fOr d a b w s

/-- `xor` (R185). -/
def fXor (_ x y : Nat) : Nat := x ^^^ y

/-- `xor` (R185). -/
def execXor (d a b : Reg) (w : Bool) (s : State) : Answer := alu2 fXor d a b w s

/-- `andn` (R185). -/
def fAndn (n x y : Nat) : Nat := x &&& (2 ^ n - 1 - y)

/-- `andn` (R185). -/
def execAndn (d a b : Reg) (w : Bool) (s : State) : Answer := alu2 fAndn d a b w s

/-- `orn` (R185). -/
def fOrn (n x y : Nat) : Nat := x ||| (2 ^ n - 1 - y)

/-- `orn` (R185). -/
def execOrn (d a b : Reg) (w : Bool) (s : State) : Answer := alu2 fOrn d a b w s

/-- `sll` (R185). -/
def fSll (n x y : Nat) : Nat := x * 2 ^ (y % n)

/-- `sll` (R185). -/
def execSll (d a b : Reg) (w : Bool) (s : State) : Answer := alu2 fSll d a b w s

/-- `srl` (R185). -/
def fSrl (n x y : Nat) : Nat := x / 2 ^ (y % n)

/-- `srl` (R185). -/
def execSrl (d a b : Reg) (w : Bool) (s : State) : Answer := alu2 fSrl d a b w s

/-- `sra` (R185). -/
def fSra (n x y : Nat) : Nat := wrap n (Int.fdiv (signed n x) (2 ^ (y % n) : Nat))

/-- `sra` (R185). -/
def execSra (d a b : Reg) (w : Bool) (s : State) : Answer := alu2 fSra d a b w s

/-- `rol` (R185). -/
def fRol (n x y : Nat) : Nat := rotl n x (y % n)

/-- `rol` (R185). -/
def execRol (d a b : Reg) (w : Bool) (s : State) : Answer := alu2 fRol d a b w s

/-- `ror` (R185). -/
def fRor (n x y : Nat) : Nat := rotl n x (n - y % n)

/-- `ror` (R185). -/
def execRor (d a b : Reg) (w : Bool) (s : State) : Answer := alu2 fRor d a b w s

/-- `mul` (R185). -/
def fMul (_ x y : Nat) : Nat := x * y

/-- `mul` (R185). -/
def execMul (d a b : Reg) (w : Bool) (s : State) : Answer := alu2 fMul d a b w s

/-- `mulh` (R185). -/
def fMulh (n x y : Nat) : Nat := wrap n (Int.fdiv (signed n x * signed n y) (2 ^ n : Nat))

/-- `mulh` (R185). -/
def execMulh (d a b : Reg) (w : Bool) (s : State) : Answer := alu2 fMulh d a b w s

/-- `mulhn` (R185). -/
def fMulhn (n x y : Nat) : Nat := x * y / 2 ^ n

/-- `mulhn` (R185). -/
def execMulhn (d a b : Reg) (w : Bool) (s : State) : Answer := alu2 fMulhn d a b w s

/-- `div` (R186). -/
def fDiv (n x y : Nat) : Nat := (divRem n x y true).1

/-- `div` (R185). -/
def execDiv (d a b : Reg) (w : Bool) (s : State) : Answer := alu2 fDiv d a b w s

/-- `divn` (R186). -/
def fDivn (n x y : Nat) : Nat := (divRem n x y false).1

/-- `divn` (R185). -/
def execDivn (d a b : Reg) (w : Bool) (s : State) : Answer := alu2 fDivn d a b w s

/-- `rem` (R186). -/
def fRem (n x y : Nat) : Nat := (divRem n x y true).2

/-- `rem` (R185). -/
def execRem (d a b : Reg) (w : Bool) (s : State) : Answer := alu2 fRem d a b w s

/-- `remn` (R186). -/
def fRemn (n x y : Nat) : Nat := (divRem n x y false).2

/-- `remn` (R185). -/
def execRemn (d a b : Reg) (w : Bool) (s : State) : Answer := alu2 fRemn d a b w s

/-- `min` (R185). -/
def fMin (n x y : Nat) : Nat := if signed n y < signed n x then y else x

/-- `min` (R185). -/
def execMin (d a b : Reg) (w : Bool) (s : State) : Answer := alu2 fMin d a b w s

/-- `max` (R185). -/
def fMax (n x y : Nat) : Nat := if signed n x < signed n y then y else x

/-- `max` (R185). -/
def execMax (d a b : Reg) (w : Bool) (s : State) : Answer := alu2 fMax d a b w s

/-- `minn` (R185). -/
def fMinn (_ x y : Nat) : Nat := if y < x then y else x

/-- `minn` (R185). -/
def execMinn (d a b : Reg) (w : Bool) (s : State) : Answer := alu2 fMinn d a b w s

/-- `maxn` (R185). -/
def fMaxn (_ x y : Nat) : Nat := if x < y then y else x

/-- `maxn` (R185). -/
def execMaxn (d a b : Reg) (w : Bool) (s : State) : Answer := alu2 fMaxn d a b w s

/-- `cset` (R185, R187). -/
def execCset (d a b : Reg) (k : BitVec 3) (s : State) : Answer := setReg d (bit (cond k (s.readG a) (s.readG b))) s

/-- `sel` (R185). -/
def execSel (d a b c : Reg) (s : State) : Answer :=
  setReg d (if s.readG c ≠ 0 then s.readG a else s.readG b) s

/-- `popc` (R185). -/
def fPopc (n x : Nat) : Nat := popBits x n

/-- `popc` (R185). -/
def execPopc (d a : Reg) (w : Bool) (s : State) : Answer := alu1 fPopc d a w s

/-- `clz` (R185). -/
def fClz (n x : Nat) : Nat := clzOf n x

/-- `clz` (R185). -/
def execClz (d a : Reg) (w : Bool) (s : State) : Answer := alu1 fClz d a w s

/-- `ctz` (R185). -/
def fCtz (n x : Nat) : Nat := ctzOf n x

/-- `ctz` (R185). -/
def execCtz (d a : Reg) (w : Bool) (s : State) : Answer := alu1 fCtz d a w s

/-- `brev` (R185). -/
def fBrev (n x : Nat) : Nat := brevOf n x

/-- `brev` (R185). -/
def execBrev (d a : Reg) (w : Bool) (s : State) : Answer := alu1 fBrev d a w s

/-- `fnth`: the count is g[d], unsigned 64-bit (R185). -/
def execFnth (d a : Reg) (w : Bool) (s : State) : Answer :=
  let k := (s.readG d).toNat
  alu1 (fun n x => fnthOf n 0 x k) d a w s

/-- `addi` (R188). -/
def execAddi (d a : Reg) (im : BitVec 14) (s : State) : Answer := setReg d (s.readG a + simm im) s

/-- `andi` (R188). -/
def execAndi (d a : Reg) (im : BitVec 14) (s : State) : Answer := setReg d (s.readG a &&& uimm im) s

/-- `ori` (R188). -/
def execOri (d a : Reg) (im : BitVec 14) (s : State) : Answer := setReg d (s.readG a ||| uimm im) s

/-- `xori` (R188). -/
def execXori (d a : Reg) (im : BitVec 14) (s : State) : Answer := setReg d (s.readG a ^^^ uimm im) s

/-- `cseti.eq` (R188). -/
def execCsetiEq (d a : Reg) (im : BitVec 14) (s : State) : Answer := setReg d (bit (cond 0 (s.readG a) (simm im))) s

/-- `cseti.ne` (R188). -/
def execCsetiNe (d a : Reg) (im : BitVec 14) (s : State) : Answer := setReg d (bit (cond 1 (s.readG a) (simm im))) s

/-- `cseti.lt` (R188). -/
def execCsetiLt (d a : Reg) (im : BitVec 14) (s : State) : Answer := setReg d (bit (cond 2 (s.readG a) (simm im))) s

/-- `cseti.ltn` (R188). -/
def execCsetiLtn (d a : Reg) (im : BitVec 14) (s : State) : Answer := setReg d (bit (cond 4 (s.readG a) (uimm im))) s

/-- `slli` (R189). -/
def execSlli (d a : Reg) (p : BitVec 6) (w : Bool) (s : State) : Answer :=
  alu1 (fun n x => fSll n x p.toNat) d a w s

/-- `srli` (R189). -/
def execSrli (d a : Reg) (p : BitVec 6) (w : Bool) (s : State) : Answer :=
  alu1 (fun n x => fSrl n x p.toNat) d a w s

/-- `srai` (R189). -/
def execSrai (d a : Reg) (p : BitVec 6) (w : Bool) (s : State) : Answer :=
  alu1 (fun n x => fSra n x p.toNat) d a w s

/-- `rori` (R189). -/
def execRori (d a : Reg) (p : BitVec 6) (w : Bool) (s : State) : Answer :=
  alu1 (fun n x => fRor n x p.toNat) d a w s

/-- The field of len + 1 bits from bit pos of g[a] (R189). -/
def fieldOf (x : Word) (pos len : BitVec 6) : Nat := x.toNat / 2 ^ pos.toNat % 2 ^ (len.toNat + 1)

/-- `bext` (R189). -/
def execBext (d a : Reg) (p l : BitVec 6) (s : State) : Answer := setReg d (BitVec.ofNat 64 (fieldOf (s.readG a) p l)) s

/-- `bexts` (R189). -/
def execBexts (d a : Reg) (p l : BitVec 6) (s : State) : Answer :=
  setReg d (signFrom (l.toNat + 1) (fieldOf (s.readG a) p l)) s

/-- `bins`: g[d] with a field replaced by the low bits of g[a] (R189). -/
def execBins (d a : Reg) (p l : BitVec 6) (s : State) : Answer :=
  let hole := BitVec.ofNat 64 ((2 ^ (l.toNat + 1) - 1) * 2 ^ p.toNat)
  setReg d ((s.readG d &&& ~~~ hole) ||| ((s.readG a <<< p.toNat) &&& hole)) s

/-- `lui` (R190). -/
def execLui (d : Reg) (im : BitVec 21) (s : State) : Answer := setReg d (simm im <<< 14) s

/-- `lpa`: the address of the instruction plus a word offset (R190). -/
def execLpa (d : Reg) (im : BitVec 21) (s : State) : Answer := setReg d (s.pc + (simm im <<< 2)) s

/-- `b.cond` (R191): offset bits 13:12 stand above bits 11:0. -/
def execBCond (h : BitVec 2) (k : BitVec 3) (a b : Reg) (l : BitVec 12) (s : State) : Answer :=
  commitTo s s (if cond k (s.readG a) (s.readG b) then s.pc + (simm (h ++ l) <<< 2) else s.pc + 4)

/-- `jl` (R192). -/
def execJl (d : Reg) (off : BitVec 22) (s : State) : Answer :=
  commitTo s (s.writeG d (s.pc + 4)) (s.pc + (simm off <<< 2))

/-- `jlr`: a target that is no multiple of 4 raises MISALIGNED (R193). -/
def execJlr (d a : Reg) (off : BitVec 14) (s : State) : Answer :=
  let target := s.readG a + simm off
  if target.toNat % 4 ≠ 0 then trapNow s (Trap.of .misaligned target 0)
  else commitTo s (s.writeG d (s.pc + 4)) target

/-- `ld` (R194, R195). -/
def execLd (d b : Reg) (pol : Pol) (ord : Order) (sc : Scope) (z : BitVec 2) (x : Bool) (off : BitVec 7) (s : State) : Answer :=
  runAct s 4 (loadReg d (s.addrOff b z off) z x pol ord sc)

/-- `ldx` (R194, R195). -/
def execLdx (d b : Reg) (pol : Pol) (ord : Order) (sc : Scope) (z : BitVec 2) (x : Bool) (idx : Reg) (c : Bool) (s : State) : Answer :=
  runAct s 4 (loadReg d (s.addrIdx b z idx c) z x pol ord sc)

end Sys2Proof.Machine
end

