-- ==== Sys2Proof/Machine/System.lean ====
section
/-! DEFINITION. System instructions (class 20; spec/10 R263-R270). -/

namespace Sys2Proof.Machine

/-- `svc`: the context takes SVC; it does not retire (R263). -/
def execSvc (_im : BitVec 13) (s : State) : Answer := trapNow s (Trap.of .svc s.pc 0)

/-- `brk`: the context takes BREAKPOINT, or parks STOP where the debug port has claimed it (R263, R375). -/
def execBrk (_im : BitVec 13) (s : State) : Answer :=
  .next (s.takeBreak s.cur (Trap.of .breakpoint s.pc 0) s.ir0 s.ir1)

/-- A register that only X7 may name in `sysrd` and `syswr`: any from 0x800, and those with an RWS field (R264). -/
def sysGuarded (n : Nat) : Bool := decide (0x800 ≤ n) || n == 0x409 || n == 0x40A

/-- `sysrd` (R264). -/
def execSysrd (d : Reg) (n : BitVec 13) (s : State) : Answer :=
  let n := n.toNat
  if sysGuarded n && !s.inX7 then trapNow s (Trap.supv s.pc)
  else commit s (s.writeG d (if 0x800 ≤ n then s.supRead s.myCore n else s.sysRead s.cur n)) 4

/-- `syswr` (R259, R264). -/
def execSyswr (t : Reg) (n : BitVec 13) (s : State) : Answer :=
  let n := n.toNat
  if sysGuarded n && !s.inX7 then trapNow s (Trap.supv s.pc)
  else commit s (if 0x800 ≤ n then s.supWrite s.myCore n (s.readG t) else s.modMe (fun x => x.sysWrite n (s.readG t))) 4

/-- The context of this core that a register names, if it is a user context in range (R265, R266). -/
def State.targetOf (s : State) (x : Word) : Nat := 8 * s.myCore + x.toNat % 8

/-- Admissible: it holds a thread and is parked FAULT, TRAP or STOP (R265). -/
def State.admissible (s : State) (c : Nat) : Bool :=
  match (s.ctx c).life with
  | .parked .fault => true
  | .parked .trap => true
  | .parked .stop => true
  | _ => false

/-- `ctxrd` (R265). In a user context it raises PROTECTION with SUPV (R6, R22). -/
def execCtxrd (d a : Reg) (n : BitVec 13) (s : State) : Answer :=
  let x := s.readG a
  let c := s.targetOf x
  if !s.inX7 then trapNow s (Trap.supv s.pc)
  else if x.toNat / 8 ≠ 0 ∨ x.toNat % 8 = 7 then trapNow s (Trap.limit x)
  else if !s.admissible c && n.toNat != 0x400 then trapNow s (Trap.limit x)
  else commit s (s.writeG d (s.regRead c n.toNat)) 4

/-- `ctxwr` (R265). -/
def execCtxwr (t a : Reg) (n : BitVec 13) (s : State) : Answer :=
  let x := s.readG a
  let c := s.targetOf x
  if !s.inX7 then trapNow s (Trap.supv s.pc)
  else if x.toNat / 8 ≠ 0 ∨ x.toNat % 8 = 7 then trapNow s (Trap.limit x)
  else if !s.admissible c then trapNow s (Trap.limit x)
  else commit s (s.regWrite c n.toNat (s.readG t)) 4

/-- A context is parked FAULT or TRAP (R266). -/
def State.returnable (s : State) (c : Nat) : Bool :=
  match (s.ctx c).life with
  | .parked .fault => true
  | .parked .trap => true
  | _ => false

/-- EVICT: the thread is saved SLEEPING and its context becomes vacant (R266). -/
def State.evictThread (s : State) (c : Nat) : State := s.save c 5

/-- A context that a watchpoint has parked (R257). -/
def Context.watched (x : Context) : Bool := x.cause == 12#8 && x.info2.getLsbD 17

/-- The PC a context returns to: past its instruction when SKIP is set (R266), which does not skip a watched instruction
(R376). -/
def Context.skipPc (x : Context) (skip : Bool) : Word :=
  if skip && !x.watched then x.pc + (if x.info0.toNat / 2 ^ 27 = 24 then 8 else 4) else x.pc

/-- `tret` (R266). -/
def execTret (a : Reg) (s : State) : Answer :=
  let x := s.readG a
  let c := s.targetOf x
  if !s.inX7 then trapNow s (Trap.supv s.pc)
  else if x.toNat / 2 ^ 10 ≠ 0 ∨ x.toNat / 8 % 32 ≠ 0 ∨ x.toNat % 8 = 7 then trapNow s (Trap.limit x)
  else if !s.returnable c then trapNow s (Trap.limit x)
  else
    let t := s.releaseWait s.cur .clu
    let pc := (t.ctx c).skipPc (x.getLsbD 8)
    if x.getLsbD 9 && !(t.ctx c).pstop then
      commit s ((t.modCtx c (fun y => { y with pc := pcOf pc })).evictThread c) 4
    else commit s (t.returnTo c pc) 4

/-- `tredir` (R267). -/
def execTredir (h a : Reg) (s : State) : Answer :=
  let x := s.readG a
  let c := s.targetOf x
  if !s.inX7 then trapNow s (Trap.supv s.pc)
  else if x.toNat / 2 ^ 8 ≠ 0 ∨ x.toNat / 8 % 32 ≠ 0 ∨ x.toNat % 8 = 7 then trapNow s (Trap.limit x)
  else if !s.returnable c then trapNow s (Trap.limit x)
  else if (s.readG h).toNat % 4 ≠ 0 then trapNow s (Trap.of .misaligned (s.readG h) 0)
  else
    let t := s.releaseWait s.cur .clu
    commit s ((t.modCtx c (fun y => { y with uepc := pcOf y.pc })).returnTo c (s.readG h)) 4

/-- `wfm` (R268): waits while the queue is empty; otherwise the oldest message goes to g[d] to g[d+3], and the place
it frees is filled (R293). It acquires at .sys. -/
def execWfm (d : Reg) (s : State) : Answer :=
  if !s.inX7 then trapNow s (Trap.supv s.pc)
  else
    match (s.core s.myCore).mq with
    | [] => .next (s.modMe (fun x => { x with inwfm := true }))
    | m :: rest =>
      let t := s.modCore s.myCore (fun k => { k with mq := rest })
      let t := t.modMe (fun x => (((x.setG d.toNat m.w0).setG (d.toNat + 1) m.w1).setG (d.toNat + 2) m.w2).setG (d.toNat + 3) m.w3)
      commit s ((refill s.myCore 16 t).discardU s.myCluster) 4

/-- The cores whose translation structures a scope reaches, and the clusters whose copy engines it reaches (R270). -/
def State.tlbScope (s : State) (sc : Scope) : List Nat × List Nat :=
  let cls := match sc with
    | .clu => [s.myCluster]
    | .pkg => s.clustersOf s.mySock
    | .sys => (s.fuses.filter (fun f => s.joined s.mySock f.1)).flatMap (fun f => s.clustersOf f.1)
    | _ => []
  (match sc with | .core => [s.myCore] | _ => cls.flatMap s.coresOf, cls)

/-- What a `tlbi` removes: translation buffer entries, and the walk-cache entries that its address space could use (R269,
R270). -/
structure Removal where
  leaf : TlbEntry → Bool
  upper : WalkEntry → Bool

/-- The entries of a core's structures are removed. -/
def Core.purge (x : Core) (r : Removal) : Core :=
  { x with tlb := x.tlb.filter (fun t => !r.leaf t), walks := x.walks.filter (fun w => !r.upper w) }

/-- The entries of a copy engine's structures are removed. -/
def Cluster.purge (x : Cluster) (r : Removal) : Cluster :=
  { x with ctlb := x.ctlb.filter (fun t => !r.leaf t), cwalks := x.cwalks.filter (fun w => !r.upper w) }

/-- An X7's unretired `cwait`, which holds a translated address, is squashed: it executes again (R270). -/
def State.squashHeld (s : State) (core : Nat) : State :=
  let c := x7Of core
  if (s.ctx c).held.isSome then (s.dropWait c).modCtx c (fun x => { x with held := none }) else s

/-- Every write that has retired in a core is performed: its store buffer empties. -/
def State.drainCore (s : State) (core : Nat) : State := performMany core (s.core core).sbuf.length s

/-- Every write that stands in a cluster is performed: its engines' tile store queues empty, and its B words are drained
(R121, R270). -/
def State.drainCluster (s : State) (d : Nat) : State :=
  let s := (s.enginesOf d).foldl (fun s e => drainMany e (s.engine e).storeq.length s) s
  let a : Agent := { s.agent with cl := d }
  (s.wordsWhere d (fun w => w.st == .b)).foldl (fun s pa => s.drainWord a pa true none 1) s

/-- `tlbi` (R270): a release at the scope, the removal of matching entries, the squash of what holds one, and the performance
of every write that retired in the scope before it. -/
def State.tlbInvalidate (s : State) (sc : Scope) (r : Removal) : State :=
  let s := s.releaseWait s.cur sc
  let (cores, cls) := s.tlbScope sc
  let s := cores.foldl (fun s k => (s.modCore k (fun x => x.purge r)).squashHeld k) s
  let s := cls.foldl (fun s d => s.modCluster d (fun x => x.purge r)) s
  let s := cores.foldl (fun s k => s.drainCore k) s
  ((cores.map (· / 8)).eraseDups).foldl (fun s d => s.drainCluster d) s

/-- Puts and `put.t`s that cores of a scope have retired and that have not ended: `tlbi` waits for them (R270). -/
def State.putsUnderway (s : State) (sc : Scope) : Bool :=
  let cores := (s.tlbScope sc).1
  s.clusters.any (fun c => c.2.putq.any (fun e => cores.contains (coreOf e.origin))) ||
    s.engines.any (fun e => e.2.puts.any (fun p => cores.contains (coreOf p.origin)))

/-- The address space that the operand of `tlbi` names (R269). -/
def tlbAsn (x : Word) : BitVec 16 := (x >>> 45).setWidth 16

/-- `tlbi` in X7, which waits unretired for the puts of its scope; in a user context PROTECTION with SUPV (R269,
R270). -/
def tlbiOp (sc : Scope) (r : Removal) (s : State) : Answer :=
  if !s.inX7 then trapNow s (Trap.supv s.pc)
  else if s.putsUnderway sc then .next ((s.tlbInvalidate sc r).modMe (fun x => x.waits .memory s.ir0 s.ir1))
  else commit s (s.tlbInvalidate sc r) 4

/-- `tlbi.page` (R269). -/
def execTlbiPage (a : Reg) (sc : Scope) (s : State) : Answer :=
  let x := s.readG a
  let va := x.toNat % 2 ^ 45 * 4096
  tlbiOp sc ⟨fun t => t.asn == tlbAsn x && va / leafSize t.level t.leaf == t.page, fun w => w.asn == tlbAsn x⟩ s

/-- `tlbi.asn` (R269). -/
def execTlbiAsn (a : Reg) (sc : Scope) (s : State) : Answer :=
  let x := s.readG a
  tlbiOp sc ⟨fun t => t.asn == tlbAsn x, fun w => w.asn == tlbAsn x⟩ s

/-- `tlbi.all` (R269). -/
def execTlbiAll (sc : Scope) (s : State) : Answer := tlbiOp sc ⟨fun _ => true, fun _ => true⟩ s

end Sys2Proof.Machine
end

