-- ==== Sys2Proof/Machine/ThreadIns.lean ====
section
/-! DEFINITION. Thread instructions (class 19; spec/11 R280-R287). -/

namespace Sys2Proof.Machine

/-- ThreadTarget (R281): the physical address of a TCB, checked in order. -/
def threadTarget (va : Word) : Act Nat := do
  aligned va 4096 .write (some .own)
  let pa ← xlate va .write (some .own)
  notDevice va pa .write (some .own)
  modify (fun s => s.waitOwn s.cur (pa + 0xC00) 96)
  let s ← get
  (List.range 12).forM (fun k => do
    let _ ← lift (va + BitVec.ofNat 64 (0xC00 + 8 * k)) (detailOf 0 0 false false false 0 0) 0
      (clRead s.agent .wt (pa + 0xC00 + 8 * k) none)
    pure ())
  let s ← get
  trapIf (!s.inX7 && s.tcbTno s.myCluster pa != s.me.tno) (Trap.limit va)
  pure pa

/-- What `tspawn` refuses (R282). -/
def State.spawnRefused (s : State) (pa : Nat) : Bool :=
  let cl := s.myCluster
  let st := s.tcbState cl pa
  let save := (s.tcbWord cl pa 0xC28).toNat
  let grp := (s.tcbWord cl pa 0xC20).toNat
  let prio := s.tcbPrio cl pa
  (st != 0 && st != 6) || 23 < prio || (!s.inX7 && s.me.prio.toNat < prio) ||
    (s.tcbWord cl pa 0xC18 &&& (s.fusesOf s.mySock).clusters) == 0 || save % 4096 != 0 ||
    (save != 0 && !s.backedRange s.mySock save 204800) || grp / 2 ^ 16 != 0 || grp / 2 ^ 8 % 2 ^ 7 != 0 ||
    (match s.groupNo cl pa with | some g => s.groupFull cl pa g | none => false)

/-- The cluster whose queue a spawned thread enters: its group's, else this one where AFFINITY permits it, else the
lowest present one that it permits (R282, R320). -/
def State.spawnCluster (s : State) (pa : Nat) : Nat :=
  let cl := s.myCluster
  let free := if s.permits cl pa cl then cl
    else ((s.clustersOf s.mySock).find? (fun d => s.permits cl pa d)).getD cl
  match s.groupNo cl pa with
  | none => free
  | some g =>
    match tfind (s.pkg s.mySock).groups g with
    | some x => 64 * s.mySock + x.cluster
    | none => free

/-- The base of a dispatcher's register page (R278). -/
def dispatcherPage (cl : Nat) : Nat := sockBase (cl / 64) + 0x0F00000100000 + 0x1000 * (cl % 64)

/-- A request of the context in turn to a dispatcher: to another cluster's it goes by the home that serves the dispatcher's
register page (R110, R276). -/
def State.reachDispatcher (s : State) (cl : Nat) : State :=
  if cl = s.myCluster then s else s.visit s.agent .wrW (dispatcherPage cl)

/-- The header step of `tspawn` and the thread's entry into a queue (R282, R320). -/
def State.spawn (s : State) (pa : Nat) : State :=
  let cl := s.myCluster
  let target := s.spawnCluster pa
  let t := [0xC38, 0xC40, 0xC48, 0xC50, 0xC58].foldl (fun t off => t.setTcb cl pa off 0) s
  let t := match t.groupNo cl pa with
    | some g => t.joinGroup cl g pa target
    | none => t
  (t.reachDispatcher target).enqueue target pa

/-- `tspawn` (R282): the header is compared again after the release, which other stores to it may have passed. -/
def execTspawn (d a : Reg) (s : State) : Answer :=
  runAct s 4 (do
    let pa ← threadTarget (s.readG a)
    let t ← get
    trapIf (t.spawnRefused pa) (Trap.limit (s.readG a))
    guarded (do
      modify (fun t => t.releaseWait t.cur .sys)
      let u ← get
      trapIf (u.tcbState u.myCluster pa != t.tcbState t.myCluster pa) (Trap.limit (s.readG a))
      modify (fun t => (t.spawn pa).writeG d (BitVec.ofNat 64 pa))))

/-- The instruction retires, and what follows its retirement is done. -/
def retireThen (s : State) (f : State → State) : Answer :=
  match s.matched [] with
  | some t => .next t
  | none => .next (f (s.retire 4))

/-- A READY thread of the same or a higher effective level is queued for the cluster (R283). -/
def State.outranked (s : State) : Bool :=
  let cl := s.myCluster
  let e := s.effective cl s.me.tcb
  (List.range 24).any (fun q => (s.queue cl q).any (fun t => decide (e ≤ s.level cl q t)))

/-- `tyield` (R283); in X7 it has no effect (R280). -/
def execTyield (s : State) : Answer :=
  if s.inX7 then commit s s 4
  else if s.outranked then
    retireThen s (fun t =>
      let x := t.me
      ((t.modMe (fun y => { y with qleft := 0 })).save t.cur 1).append t.myCluster x.prio.toNat x.tcb)
  else commit s s 4

/-- `tsleep` (R279, R284); in X7 it has no effect. -/
def execTsleep (a : Reg) (s : State) : Answer :=
  if s.inX7 then commit s s 4
  else
    let ns := (s.readG a).toNat
    retireThen s (fun t =>
      let tcb := t.me.tcb
      let deadline := min (2 ^ 64 - 1) (t.time + ns)
      let u := t.save t.cur 5
      if ns = 0 then u else u.addSleeper t.myCluster tcb deadline)

/-- `twake` (R285). -/
def execTwake (d a : Reg) (s : State) : Answer :=
  runAct s 4 (do
    let pa ← threadTarget (s.readG a)
    guarded (modify (fun t =>
      let old := t.tcbState t.myCluster pa
      let cl := t.myCluster
      let t := if old = 5 then
          ((t.dropSleep (t.lastCluster cl pa / 64) pa).reachDispatcher (t.groupCluster cl pa (t.homeCluster cl pa))).wake cl pa
        else t
      t.writeG d (BitVec.ofNat 64 old))))

/-- `texit` (R39, R286); in X7 it has no effect. -/
def execTexit (s : State) : Answer :=
  if s.inX7 then commit s s 4 else retireThen s (fun t => t.exitThread t.cur)

/-- PRIO changed: a READY thread moves to the tail of its new queue unless it stands in queue 0 by demotion (R277); a thread
on a context has its PRIO register changed (R287). -/
def State.setPrio (s : State) (pa q : Nat) : State :=
  let cl := s.myCluster
  let s := s.setTcb cl pa 0xC08 (BitVec.ofNat 64 q)
  let s := match s.standing pa with
    | some (d, k) => if (s.cluster d).demoted.contains pa then s else ((s.reachDispatcher d).unlink d k pa).append d q pa
    | none => s
  match s.onContext pa with
  | some c => s.modCtx c (fun x => { x with prio := BitVec.ofNat 5 q })
  | none => s

/-- `tprio` (R287). -/
def execTprio (d a b : Reg) (s : State) : Answer :=
  let q := (s.readG b).toNat
  runAct s 4 (do
    let pa ← threadTarget (s.readG a)
    let t ← get
    trapIf (decide (23 < q) || (!s.inX7 && decide (s.me.prio.toNat < q))) (Trap.limit (s.readG b))
    let old := t.tcbPrio t.myCluster pa
    guarded (modify (fun t => (t.setPrio pa q).writeG d (BitVec.ofNat 64 old))))

end Sys2Proof.Machine
end

