-- ==== Sys2Proof/Machine/VecFloat.lean ====
section
/-! DEFINITION. Vector floating-point instructions (class 14; spec/08 R207-R210). -/

namespace Sys2Proof.Machine

/-- A function of the codes x, y, o of a format, per active lane; its flags go to FST (R202, R207). -/
def vecCode (f : Fmt → Mode → Nat → Nat → Nat → Nat × BitVec 5) (d a b : Reg) (e : BitVec 2) (g : BitVec 3) (z : Bool)
    (s : State) : Answer :=
  let r := vecMap (floatBytes e) (s.readP g) z (s.readV a) (s.readV b) (s.readV d) (f (floatFmt e) s.mode)
  commit s ((s.writeV d r.1).raise r.2) 4

/-- A function of the values x, y, o, rounded once in FCTL.RM (R207). -/
def vecFloat (f : Mode → Fpv → Fpv → Fpv → Res) : Reg → Reg → Reg → BitVec 2 → BitVec 3 → Bool → State → Answer :=
  vecCode (fun t m x y o => t.round m (f m (t.decode x) (t.decode y) (t.decode o)))

/-- `fadd` (R207). -/
def execFadd (d a b : Reg) (e : BitVec 2) (g : BitVec 3) (z : Bool) (s : State) : Answer :=
  vecFloat (fun m x y _ => addV m x y) d a b e g z s

/-- `fsub` (R207). -/
def execFsub (d a b : Reg) (e : BitVec 2) (g : BitVec 3) (z : Bool) (s : State) : Answer :=
  vecFloat (fun m x y _ => addV m x y.negate) d a b e g z s

/-- `fmul` (R207). -/
def execFmul (d a b : Reg) (e : BitVec 2) (g : BitVec 3) (z : Bool) (s : State) : Answer :=
  vecFloat (fun _ x y _ => mulV x y) d a b e g z s

/-- `ffma` (R207). -/
def execFfma (d a b : Reg) (e : BitVec 2) (g : BitVec 3) (z : Bool) (s : State) : Answer :=
  vecFloat (fun m x y o => fmaV m x y o) d a b e g z s

/-- `ffms` (R207). -/
def execFfms (d a b : Reg) (e : BitVec 2) (g : BitVec 3) (z : Bool) (s : State) : Answer :=
  vecFloat (fun m x y o => fmaV m x y o.negate) d a b e g z s

/-- `fnma` (R207). -/
def execFnma (d a b : Reg) (e : BitVec 2) (g : BitVec 3) (z : Bool) (s : State) : Answer :=
  vecFloat (fun m x y o => fmaV m x.negate y o) d a b e g z s

/-- `fdiv` (R207). -/
def execFdiv (d a b : Reg) (e : BitVec 2) (g : BitVec 3) (z : Bool) (s : State) : Answer :=
  vecFloat (fun _ x y _ => divV x y) d a b e g z s

/-- `fmin` (R207). -/
def execFmin (d a b : Reg) (e : BitVec 2) (g : BitVec 3) (z : Bool) (s : State) : Answer :=
  vecFloat (fun _ x y _ => minV x y) d a b e g z s

/-- `fmax` (R207). -/
def execFmax (d a b : Reg) (e : BitVec 2) (g : BitVec 3) (z : Bool) (s : State) : Answer :=
  vecFloat (fun _ x y _ => maxV x y) d a b e g z s

/-- `fsqrt` (R207). -/
def execFsqrt (d a : Reg) (e : BitVec 2) (g : BitVec 3) (z : Bool) (s : State) : Answer :=
  vecFloat (fun _ x _ _ => sqrtV x) d a a e g z s

/-- `frcp` (R208). -/
def execFrcp (d a : Reg) (e : BitVec 2) (g : BitVec 3) (z : Bool) (s : State) : Answer :=
  vecFloat (fun _ x _ _ => rcpV x) d a a e g z s

/-- `frsqrt` (R208). -/
def execFrsqrt (d a : Reg) (e : BitVec 2) (g : BitVec 3) (z : Bool) (s : State) : Answer :=
  vecFloat (fun _ x _ _ => rsqrtV x) d a a e g z s

/-- `fexp2` (R208). -/
def execFexp2 (d a : Reg) (e : BitVec 2) (g : BitVec 3) (z : Bool) (s : State) : Answer :=
  vecFloat (fun _ x _ _ => exp2V x) d a a e g z s

/-- `flog2` (R208). -/
def execFlog2 (d a : Reg) (e : BitVec 2) (g : BitVec 3) (z : Bool) (s : State) : Answer :=
  vecFloat (fun _ x _ _ => log2V x) d a a e g z s

/-- `fabs` (R207): the sign bit cleared; no flag. -/
def execFabs (d a : Reg) (e : BitVec 2) (g : BitVec 3) (z : Bool) (s : State) : Answer :=
  vecCode (fun t _ x _ _ => (x % 2 ^ (t.bits - 1), 0)) d a a e g z s

/-- `fneg` (R207): the sign bit inverted; no flag. -/
def execFneg (d a : Reg) (e : BitVec 2) (g : BitVec 3) (z : Bool) (s : State) : Answer :=
  vecCode (fun t _ x _ _ => (x ^^^ 2 ^ (t.bits - 1), 0)) d a a e g z s

/-- `fscale` (R207): y is read as a signed integer of the lane width. -/
def execFscale (d a b : Reg) (e : BitVec 2) (g : BitVec 3) (z : Bool) (s : State) : Answer :=
  vecCode (fun t m x y _ => t.round m (scaleV (t.decode x) (if 2 * y < 2 ^ t.bits then (y : Int) else (y : Int) - 2 ^ t.bits))) d a b e g z s

/-- `fround` (R209): mode 4 is FCTL.RM. -/
def execFround (d a md : Reg) (e : BitVec 2) (g : BitVec 3) (z : Bool) (s : State) : Answer :=
  vecCode (fun t m x _ _ =>
    let m := if md.toNat = 4 then m else modeOf md.toNat
    t.round m (integralV m (t.decode x))) d a a e g z s

/-- `fcmp` (R210): a condition on how x and y compare (none when unordered), with NV for any NaN operand or for a
signalling one alone; NV is raised also where the destination is p0 (R219). -/
def vecFcmp (any : Bool) (f : Option Int → Bool) (d : BitVec 3) (a b : Reg) (e : BitVec 2) (g : BitVec 3) (z : Bool)
    (s : State) : Answer :=
  let t := floatFmt e
  let r := predMap (floatBytes e) (s.readP g) z (s.readV a) (s.readV b) (s.readP d) (fun x y =>
    let p := t.decode x
    let q := t.decode y
    let un := p.isNan || q.isNan
    (f (if un then none else some (orderV p q)), flagIf (if any then un else p.isSig || q.isSig) fNV))
  commit s ((s.writeP d r.1).raise r.2) 4

/-- `fcmpEq` (R210). -/
def execFcmpEq (d : BitVec 3) (a b : Reg) (e : BitVec 2) (g : BitVec 3) (z : Bool) (s : State) : Answer :=
  vecFcmp false (fun c => c == some 0) d a b e g z s

/-- `fcmpNe` (R210). -/
def execFcmpNe (d : BitVec 3) (a b : Reg) (e : BitVec 2) (g : BitVec 3) (z : Bool) (s : State) : Answer :=
  vecFcmp false (fun c => c != some 0) d a b e g z s

/-- `fcmpLt` (R210). -/
def execFcmpLt (d : BitVec 3) (a b : Reg) (e : BitVec 2) (g : BitVec 3) (z : Bool) (s : State) : Answer :=
  vecFcmp true (fun c => c == some (-1)) d a b e g z s

/-- `fcmpLe` (R210). -/
def execFcmpLe (d : BitVec 3) (a b : Reg) (e : BitVec 2) (g : BitVec 3) (z : Bool) (s : State) : Answer :=
  vecFcmp true (fun c => c == some (-1) || c == some 0) d a b e g z s

/-- `fcmpUn` (R210). -/
def execFcmpUn (d : BitVec 3) (a b : Reg) (e : BitVec 2) (g : BitVec 3) (z : Bool) (s : State) : Answer :=
  vecFcmp false (fun c => c == none) d a b e g z s

end Sys2Proof.Machine
end

