-- ==== Sys2Proof/Machine/VecInt.lean ====
section
/-! DEFINITION. Vector integer instructions (class 13; spec/08 R205, R206): each active lane's result is a function of
the lanes x, y and o, read unsigned at N bits, and no flag is raised. -/

namespace Sys2Proof.Machine

/-- VecInt (R205): a function of the lane width and the lanes x, y, o, per active lane. -/
def vecInt (f : Nat → Nat → Nat → Nat → Nat) (d a b : Reg) (e : BitVec 2) (g : BitVec 3) (z : Bool) (s : State) : Answer :=
  let w := laneBytes e
  let r := vecMap w (s.readP g) z (s.readV a) (s.readV b) (s.readV d) (fun x y o => (f (8 * w) x y o, 0))
  commit s (s.writeV d r.1) 4

/-- A function of two lanes, and of one. -/
def ofTwo (f : Nat → Nat → Nat → Nat) : Nat → Nat → Nat → Nat → Nat := fun n x y _ => f n x y
def ofOne (f : Nat → Nat → Nat) : Nat → Nat → Nat → Nat → Nat := fun n x _ _ => f n x

/-- A value clamped to the signed, or the unsigned, range of a width (R205). -/
def clampS (n : Nat) (v : Int) : Nat := wrap n (max (-(2 ^ (n - 1))) (min (2 ^ (n - 1) - 1) v))
def clampU (n : Nat) (v : Int) : Nat := wrap n (max 0 (min (2 ^ n - 1) v))

/-- |Signed(x)| modulo 2^N (R205). -/
def fAbs (n x : Nat) : Nat := (signed n x).natAbs

/-- Saturating sums and differences (R205). -/
def fAdds (n x y : Nat) : Nat := clampS n (signed n x + signed n y)
def fAddsn (n x y : Nat) : Nat := clampU n ((x : Int) + y)
def fSubs (n x y : Nat) : Nat := clampS n (signed n x - signed n y)
def fSubsn (n x y : Nat) : Nat := clampU n ((x : Int) - y)

/-- `vadd` (R205). -/
def execVadd (d a b : Reg) (e : BitVec 2) (g : BitVec 3) (z : Bool) (s : State) : Answer := vecInt (ofTwo fAdd) d a b e g z s

/-- `vsub` (R205). -/
def execVsub (d a b : Reg) (e : BitVec 2) (g : BitVec 3) (z : Bool) (s : State) : Answer := vecInt (ofTwo fSub) d a b e g z s

/-- `vmul` (R205). -/
def execVmul (d a b : Reg) (e : BitVec 2) (g : BitVec 3) (z : Bool) (s : State) : Answer := vecInt (ofTwo fMul) d a b e g z s

/-- `vmulhI` (R205). -/
def execVmulhI (d a b : Reg) (e : BitVec 2) (g : BitVec 3) (z : Bool) (s : State) : Answer := vecInt (ofTwo fMulh) d a b e g z s

/-- `vmulhN` (R205). -/
def execVmulhN (d a b : Reg) (e : BitVec 2) (g : BitVec 3) (z : Bool) (s : State) : Answer := vecInt (ofTwo fMulhn) d a b e g z s

/-- `vminI` (R205). -/
def execVminI (d a b : Reg) (e : BitVec 2) (g : BitVec 3) (z : Bool) (s : State) : Answer := vecInt (ofTwo fMin) d a b e g z s

/-- `vminN` (R205). -/
def execVminN (d a b : Reg) (e : BitVec 2) (g : BitVec 3) (z : Bool) (s : State) : Answer := vecInt (ofTwo fMinn) d a b e g z s

/-- `vmaxI` (R205). -/
def execVmaxI (d a b : Reg) (e : BitVec 2) (g : BitVec 3) (z : Bool) (s : State) : Answer := vecInt (ofTwo fMax) d a b e g z s

/-- `vmaxN` (R205). -/
def execVmaxN (d a b : Reg) (e : BitVec 2) (g : BitVec 3) (z : Bool) (s : State) : Answer := vecInt (ofTwo fMaxn) d a b e g z s

/-- `vand` (R205). -/
def execVand (d a b : Reg) (e : BitVec 2) (g : BitVec 3) (z : Bool) (s : State) : Answer := vecInt (ofTwo fAnd) d a b e g z s

/-- `vor` (R205). -/
def execVor (d a b : Reg) (e : BitVec 2) (g : BitVec 3) (z : Bool) (s : State) : Answer := vecInt (ofTwo fOr) d a b e g z s

/-- `vxor` (R205). -/
def execVxor (d a b : Reg) (e : BitVec 2) (g : BitVec 3) (z : Bool) (s : State) : Answer := vecInt (ofTwo fXor) d a b e g z s

/-- `vandn` (R205). -/
def execVandn (d a b : Reg) (e : BitVec 2) (g : BitVec 3) (z : Bool) (s : State) : Answer := vecInt (ofTwo fAndn) d a b e g z s

/-- `vsll` (R205). -/
def execVsll (d a b : Reg) (e : BitVec 2) (g : BitVec 3) (z : Bool) (s : State) : Answer := vecInt (ofTwo fSll) d a b e g z s

/-- `vsrl` (R205). -/
def execVsrl (d a b : Reg) (e : BitVec 2) (g : BitVec 3) (z : Bool) (s : State) : Answer := vecInt (ofTwo fSrl) d a b e g z s

/-- `vsra` (R205). -/
def execVsra (d a b : Reg) (e : BitVec 2) (g : BitVec 3) (z : Bool) (s : State) : Answer := vecInt (ofTwo fSra) d a b e g z s

/-- `vaddsI` (R205). -/
def execVaddsI (d a b : Reg) (e : BitVec 2) (g : BitVec 3) (z : Bool) (s : State) : Answer := vecInt (ofTwo fAdds) d a b e g z s

/-- `vaddsN` (R205). -/
def execVaddsN (d a b : Reg) (e : BitVec 2) (g : BitVec 3) (z : Bool) (s : State) : Answer := vecInt (ofTwo fAddsn) d a b e g z s

/-- `vsubsI` (R205). -/
def execVsubsI (d a b : Reg) (e : BitVec 2) (g : BitVec 3) (z : Bool) (s : State) : Answer := vecInt (ofTwo fSubs) d a b e g z s

/-- `vsubsN` (R205). -/
def execVsubsN (d a b : Reg) (e : BitVec 2) (g : BitVec 3) (z : Bool) (s : State) : Answer := vecInt (ofTwo fSubsn) d a b e g z s

/-- `vpopc` (R205). -/
def execVpopc (d a : Reg) (e : BitVec 2) (g : BitVec 3) (z : Bool) (s : State) : Answer := vecInt (ofOne fPopc) d a a e g z s

/-- `vclz` (R205). -/
def execVclz (d a : Reg) (e : BitVec 2) (g : BitVec 3) (z : Bool) (s : State) : Answer := vecInt (ofOne fClz) d a a e g z s

/-- `vctz` (R205). -/
def execVctz (d a : Reg) (e : BitVec 2) (g : BitVec 3) (z : Bool) (s : State) : Answer := vecInt (ofOne fCtz) d a a e g z s

/-- `vbrev` (R205). -/
def execVbrev (d a : Reg) (e : BitVec 2) (g : BitVec 3) (z : Bool) (s : State) : Answer := vecInt (ofOne fBrev) d a a e g z s

/-- `vabs` (R205). -/
def execVabs (d a : Reg) (e : BitVec 2) (g : BitVec 3) (z : Bool) (s : State) : Answer := vecInt (ofOne fAbs) d a a e g z s

/-- `vfnth` (R205): the count is read from the destination lane. -/
def execVfnth (d a : Reg) (e : BitVec 2) (g : BitVec 3) (z : Bool) (s : State) : Answer :=
  vecInt (fun n x _ o => fnthOf n 0 x o) d a a e g z s

/-- `vsel` (R206): lane i is x where lane i of the predicate is active, else y. -/
def execVsel (d a b : Reg) (e : BitVec 2) (g : BitVec 3) (s : State) : Answer :=
  let r := vecMap (laneBytes e) (s.readP g) false (s.readV a) (s.readV b) (s.readV b) (fun x _ _ => (x, 0))
  commit s (s.writeV d r.1) 4

/-- `vcmp` (R206): a condition at width N of the lanes x and y, per active lane. -/
def vecCmp (f : Nat → Nat → Nat → Bool) (d : BitVec 3) (a b : Reg) (e : BitVec 2) (g : BitVec 3) (z : Bool) (s : State) : Answer :=
  let w := laneBytes e
  let r := predMap w (s.readP g) z (s.readV a) (s.readV b) (s.readP d) (fun x y => (f (8 * w) x y, 0))
  commit s (s.writeP d r.1) 4

/-- `vcmpEq` (R206). -/
def execVcmpEq (d : BitVec 3) (a b : Reg) (e : BitVec 2) (g : BitVec 3) (z : Bool) (s : State) : Answer :=
  vecCmp (fun _ x y => x == y) d a b e g z s

/-- `vcmpNe` (R206). -/
def execVcmpNe (d : BitVec 3) (a b : Reg) (e : BitVec 2) (g : BitVec 3) (z : Bool) (s : State) : Answer :=
  vecCmp (fun _ x y => x != y) d a b e g z s

/-- `vcmpLt` (R206). -/
def execVcmpLt (d : BitVec 3) (a b : Reg) (e : BitVec 2) (g : BitVec 3) (z : Bool) (s : State) : Answer :=
  vecCmp (fun n x y => decide (signed n x < signed n y)) d a b e g z s

/-- `vcmpGe` (R206). -/
def execVcmpGe (d : BitVec 3) (a b : Reg) (e : BitVec 2) (g : BitVec 3) (z : Bool) (s : State) : Answer :=
  vecCmp (fun n x y => decide (signed n y ≤ signed n x)) d a b e g z s

/-- `vcmpLtn` (R206). -/
def execVcmpLtn (d : BitVec 3) (a b : Reg) (e : BitVec 2) (g : BitVec 3) (z : Bool) (s : State) : Answer :=
  vecCmp (fun _ x y => decide (x < y)) d a b e g z s

/-- `vcmpGen` (R206). -/
def execVcmpGen (d : BitVec 3) (a b : Reg) (e : BitVec 2) (g : BitVec 3) (z : Bool) (s : State) : Answer :=
  vecCmp (fun _ x y => decide (y ≤ x)) d a b e g z s

end Sys2Proof.Machine
end

