-- ==== Sys2Proof/Machine/VecMem.lean ====
section
/-! DEFINITION. Vector loads, stores, gathers and scatters (class 16; spec/08 R215-R217). -/

namespace Sys2Proof.Machine

/-- The base address of `vld` and `vst` (R216). -/
def State.vecBase (s : State) (b : Reg) (off : BitVec 8) : Word := s.readG b + (off.signExtend 64 <<< 6)

/-- Addr(i) of a contiguous access, and of an indexed one (R216). -/
def addrRow (base : Word) (w i : Nat) : Word := base + BitVec.ofNat 64 (w * i)
def addrLane (base : Word) (v : Vec) (w i : Nat) : Word := base + BitVec.ofNat 64 (lane w v i * w)

/-- TRAPINFO2 of a lane. -/
def laneDetail (kind : AccessKind) (pol : Pol) (dev : Bool) (i : Nat) : BitVec 20 :=
  detailOf kind.code pol.code false dev false 0 i

/-- CheckFaults (R216): alignment of the named lanes, translation of the active lanes ascending, and device space.
Answers the active lanes with their addresses. -/
def vecCheck (lead active : List Nat) (w : Nat) (addr : Nat → Word) (kind : AccessKind) (pol : Pol) :
    Act (List (Nat × Word × Nat)) := do
  match lead.find? (fun i => (addr i).toNat % w != 0) with
  | some i => raiseTrap (Trap.of .misaligned (addr i) (laneDetail kind pol false i))
  | none => pure ()
  let s ← get
  let ls ← active.mapM (fun i => do
    let pa ← translate s.space (addr i) kind (some pol) i
    pure (i, addr i, pa))
  match ls.find? (fun l => isDevice l.2.2) with
  | some l => raiseTrap (Trap.of .protection l.2.1 (laneDetail kind pol true l.1))
  | none => pure ls

/-- VLoad (R216): active lanes ascending; an inactive lane is 0. -/
def vecLoad (d : Reg) (w : Nat) (pol : Pol) (p : Word) (lead : List Nat) (addr : Nat → Word) : Act Unit := do
  let ls ← vecCheck lead (activeLanes w p) w addr .read pol
  let got ← ls.mapM (fun l => do
    note l.2.1 w (some pol) true false l.1
    modify (fun s => s.waitOwn s.cur l.2.2 w)
    let s ← get
    let x ← liftAt l.2.1 l.2.1 (laneDetail .read pol false l.1) 0 (readBytes s.agent pol l.2.2 w none)
    pure (l.1, x.toNat))
  modify (fun s => s.writeV d (packLanes w ((List.range (64 / w)).map (fun i => tget got i 0))))

/-- VStore (R216) up to its retirement: every active lane is left in the core's store buffer, ascending, once the wait of
an earlier fence's release is over (R141, R154). -/
def vecStore (t : Reg) (w : Nat) (pol : Pol) (p : Word) (lead : List Nat) (addr : Nat → Word) : Act Unit := do
  let ls ← vecCheck lead (activeLanes w p) w addr .write pol
  modify (fun s => s.waitRelease .plain .ctx)
  ls.forM (fun l => note l.2.1 w (some pol) false true l.1)
  guarded (modify (fun s => ls.foldl (fun s l =>
    s.queuePending l.2.2 w (BitVec.ofNat 64 (lane w (s.readV t) l.1)) pol (s.relOf .plain .ctx)) s))

/-- `vld` (R216). -/
def execVld (d b : Reg) (pol : Pol) (e : BitVec 2) (g : BitVec 3) (off : BitVec 8) (s : State) : Answer :=
  runAct s 4 (vecLoad d (laneBytes e) pol (s.readP g) [0] (addrRow (s.vecBase b off) (laneBytes e)))

/-- `vst` (R216). -/
def execVst (t b : Reg) (pol : Pol) (e : BitVec 2) (g : BitVec 3) (off : BitVec 8) (s : State) : Answer :=
  runAct s 4 (vecStore t (laneBytes e) pol (s.readP g) [0] (addrRow (s.vecBase b off) (laneBytes e)))

/-- `vgather` (R216). -/
def execVgather (d b : Reg) (pol : Pol) (e : BitVec 2) (g : BitVec 3) (idx : Reg) (s : State) : Answer :=
  let w := laneBytes e
  runAct s 4 (vecLoad d w pol (s.readP g) (activeLanes w (s.readP g)) (addrLane (s.readG b) (s.readV idx) w))

/-- `vscatter` (R216). -/
def execVscatter (t b : Reg) (pol : Pol) (e : BitVec 2) (g : BitVec 3) (idx : Reg) (s : State) : Answer :=
  let w := laneBytes e
  runAct s 4 (vecStore t w pol (s.readP g) (activeLanes w (s.readP g)) (addrLane (s.readG b) (s.readV idx) w))

end Sys2Proof.Machine
end

