-- ==== Sys2Proof/Machine/VecMove.lean ====
section
/-! DEFINITION. Conversion, reduction and permutation of vectors, and predicate instructions (classes 15 and 17;
spec/08 R211-R214, R218; type codes of spec/03 R80). -/

namespace Sys2Proof.Machine

/-- Width in bytes of a type code; the codes 0-7 are integers, 0-3 signed (R80). -/
def tyBytes (t : BitVec 4) : Nat :=
  if t.toNat < 8 then 2 ^ (t.toNat % 4) else if t.toNat < 10 then 2 else if t.toNat = 10 then 4 else 8
def tyInt (t : BitVec 4) : Bool := decide (t.toNat < 8)
def tySigned (t : BitVec 4) : Bool := decide (t.toNat < 4)
def tyFmt (t : BitVec 4) : Fmt :=
  if t = 8#4 then bf16 else if t = 9#4 then fp16 else if t = 10#4 then fp32 else fp64

/-- An integer lane's value. -/
def tyValue (t : BitVec 4) (x : Nat) : Int := if tySigned t then signed (8 * tyBytes t) x else x

/-- A conversion of one lane (R212). -/
def cvtLane (st dt : BitVec 4) (m : Mode) (x : Nat) : Nat × BitVec 5 :=
  let n := 8 * tyBytes dt
  if st = dt then (x, 0)
  else if tyInt st then
    let v := tyValue st x
    if tyInt dt then (wrap n (max (intMin n (tySigned dt)) (min (intMax n (tySigned dt)) v)), 0)
    else (tyFmt dt).round m (intV v)
  else
    let v := (tyFmt st).decode x
    if tyInt dt then let r := toIntV m n (tySigned dt) v; (wrap n r.1, r.2)
    else (tyFmt dt).round m (moveV v)

/-- `vcvt` (R212): m source lanes convert; destination lanes above them are written 0. -/
def execVcvt (d a : Reg) (r : Bool) (dt ty : BitVec 4) (g : BitVec 3) (z : Bool) (s : State) : Answer :=
  let ws := tyBytes ty
  let wd := tyBytes dt
  let n := 64 / Nat.max ws wd
  let md := if r then Mode.rtz else s.mode
  let src := s.readV a
  let old := s.readV d
  let rs := (List.range (64 / wd)).map (fun i =>
    if n ≤ i then (0, (0 : BitVec 5))
    else if active wd (s.readP g) i then cvtLane ty dt md (lane ws src i)
    else (if z then 0 else lane wd old i, 0))
  commit s ((s.writeV d (packLanes wd (rs.map (·.1)))).raise (joinFlags (rs.map (·.2)))) 4

/-- Combine of R213 for two values that are present: 0 add, 1 min, 2 max, 3 and, 4 or, 5 xor. -/
def redTwo (k : Nat) (ty : BitVec 4) (m : Mode) (x y : Nat) : Nat × BitVec 5 :=
  let n := 8 * tyBytes ty
  if tyInt ty then
    (if k = 0 then (x + y) % 2 ^ n
     else if k = 1 then (if tyValue ty y < tyValue ty x then y else x)
     else if k = 2 then (if tyValue ty x < tyValue ty y then y else x)
     else if k = 3 then x &&& y else if k = 4 then x ||| y else x ^^^ y, 0)
  else
    let t := tyFmt ty
    let p := t.decode x
    let q := t.decode y
    t.round m (if k = 0 then addV m p q else if k = 1 then minV p q else maxV p q)

/-- Combine (R213): an absent side leaves the other. -/
def redCombine (k : Nat) (ty : BitVec 4) (m : Mode) : Option Nat → Option Nat → Option Nat × BitVec 5
  | none, y => (y, 0)
  | x, none => (x, 0)
  | some x, some y => let r := redTwo k ty m x y; (some r.1, r.2)

/-- One level of the tree: neighbours combined, with the flags. -/
def redLevel (k : Nat) (ty : BitVec 4) (m : Mode) : List (Option Nat) → List (Option Nat) × BitVec 5
  | x :: y :: rest =>
    let r := redCombine k ty m x y
    let t := redLevel k ty m rest
    (r.1 :: t.1, r.2 ||| t.2)
  | l => (l, 0)

/-- The tree, level by level, with the flags of every rounding. -/
def redTree (k : Nat) (ty : BitVec 4) (m : Mode) : Nat → List (Option Nat) → Option Nat × BitVec 5
  | 0, l => (l.headD none, 0)
  | n + 1, l =>
    let t := redLevel k ty m l
    let r := redTree k ty m n t.1
    (r.1, t.2 ||| r.2)

/-- Empty (R213). -/
def redEmpty (k : Nat) (ty : BitVec 4) : Nat :=
  let n := 8 * tyBytes ty
  if tyInt ty then
    (if k = 1 then wrap n (intMax n (tySigned ty)) else if k = 2 then wrap n (intMin n (tySigned ty))
     else if k = 3 then 2 ^ n - 1 else 0)
  else
    let t := tyFmt ty
    if k = 1 then t.infCode else if k = 2 then t.signCode true + t.infCode else 0

/-- `vred` (R213). -/
def execVred (d a k : Reg) (ty : BitVec 4) (g : BitVec 3) (s : State) : Answer :=
  let w := tyBytes ty
  let nodes := (List.range (64 / w)).map (fun i => if active w (s.readP g) i then some (lane w (s.readV a) i) else none)
  let r := redTree k.toNat ty s.mode 6 nodes
  commit s ((s.writeV d (packLanes w [r.1.getD (redEmpty k.toNat ty)])).raise r.2) 4

/-- A move of lanes: what each active lane receives (R214). -/
def vecMove (f : Nat → Nat → Nat) (d : Reg) (ty : BitVec 4) (g : BitVec 3) (z : Bool) (s : State) : Answer :=
  let w := tyBytes ty
  commit s (s.writeV d (fillLanes w (s.readP g) z (s.readV d) (fun i => (f w i, 0))).1) 4

/-- Lane k of a vector, 0 beyond the last. -/
def laneOr (w : Nat) (v : Vec) (k : Nat) : Nat := if k < 64 / w then lane w v k else 0

/-- `vperm` (R214). -/
def execVperm (d a b : Reg) (ty : BitVec 4) (g : BitVec 3) (z : Bool) (s : State) : Answer :=
  vecMove (fun w i => laneOr w (s.readV a) (lane w (s.readV b) i)) d ty g z s

/-- `vslide` (R214). -/
def execVslide (d a b : Reg) (ty : BitVec 4) (g : BitVec 3) (z : Bool) (s : State) : Answer :=
  vecMove (fun w i =>
    let k := (i : Int) - (s.readG b).toInt
    if k < 0 then 0 else laneOr w (s.readV a) k.toNat) d ty g z s

/-- `vcompress` (R214). -/
def execVcompress (d a : Reg) (ty : BitVec 4) (g : BitVec 3) (s : State) : Answer :=
  let w := tyBytes ty
  commit s (s.writeV d (packLanes w ((activeLanes w (s.readP g)).map (lane w (s.readV a))))) 4

/-- `vexpand` (R214): the j-th active lane receives lane j. -/
def execVexpand (d a : Reg) (ty : BitVec 4) (g : BitVec 3) (z : Bool) (s : State) : Answer :=
  vecMove (fun w i => lane w (s.readV a) (((List.range i).filter (active w (s.readP g))).length)) d ty g z s

/-- `vbcast` (R214). -/
def execVbcast (d a : Reg) (ty : BitVec 4) (g : BitVec 3) (z : Bool) (s : State) : Answer :=
  vecMove (fun _ _ => (s.readG a).toNat) d ty g z s

/-- `vins` (R214): nothing is written where the index is past the last lane. -/
def execVins (d a b : Reg) (ty : BitVec 4) (s : State) : Answer :=
  let w := tyBytes ty
  let k := (s.readG b).toNat
  let old := s.readV d
  let new := packLanes w ((List.range (64 / w)).map (fun i => if i = k then (s.readG a).toNat else lane w old i))
  commit s (if k < 64 / w then s.writeV d new else s) 4

/-- `vext` (R214). -/
def execVext (d a b : Reg) (ty : BitVec 4) (s : State) : Answer :=
  let w := tyBytes ty
  let x := laneOr w (s.readV a) (s.readG b).toNat
  setReg d (if tySigned ty then signFrom (8 * w) x else BitVec.ofNat 64 x) s

/-- `pand`, `por`, `pxor`, `pandn` (R218). -/
def execPand (d a b : BitVec 3) (s : State) : Answer := commit s (s.writeP d (s.readP a &&& s.readP b)) 4
def execPor (d a b : BitVec 3) (s : State) : Answer := commit s (s.writeP d (s.readP a ||| s.readP b)) 4
def execPxor (d a b : BitVec 3) (s : State) : Answer := commit s (s.writeP d (s.readP a ^^^ s.readP b)) 4
def execPandn (d a b : BitVec 3) (s : State) : Answer := commit s (s.writeP d (s.readP a &&& ~~~ s.readP b)) 4

/-- `pset`, `pget` (R218). -/
def execPset (d : BitVec 3) (a : Reg) (s : State) : Answer := commit s (s.writeP d (s.readG a)) 4
def execPget (d : Reg) (a : BitVec 3) (s : State) : Answer := setReg d (s.readP a) s

/-- `pcnt` (R218). -/
def execPcnt (d : Reg) (a : BitVec 3) (e : BitVec 2) (s : State) : Answer :=
  setReg d (BitVec.ofNat 64 (activeLanes (laneBytes e) (s.readP a)).length) s

/-- `pfirst` (R218). -/
def execPfirst (d : Reg) (a : BitVec 3) (e : BitVec 2) (s : State) : Answer :=
  setReg d (BitVec.ofNat 64 ((activeLanes (laneBytes e) (s.readP a)).headD (64 / laneBytes e))) s

/-- `pwhile` (R218): g[a] + i below g[b], unsigned and without wrapping. -/
def execPwhile (d : BitVec 3) (a b : Reg) (e : BitVec 2) (s : State) : Answer :=
  let w := laneBytes e
  let bits := (List.range (64 / w)).map (fun i =>
    if (s.readG a).toNat + i < (s.readG b).toNat then laneBits w i else 0)
  commit s (s.writeP d (bits.foldl (· ||| ·) 0)) 4

end Sys2Proof.Machine
end

