-- ==== Sys2Proof/Machine/Dispatch.lean ====
section
/-! DEFINITION. What each instruction and each of the device's own steps does: one arm per constructor. -/

namespace Sys2Proof.Machine

def exec (i : Instr) (s : State) : Host.Outcome State Fault Refusal :=
  match i with
  | .add d a b w => Sys2Proof.Machine.execAdd d a b w s
  | .sub d a b w => Sys2Proof.Machine.execSub d a b w s
  | .and d a b w => Sys2Proof.Machine.execAnd d a b w s
  | .or d a b w => Sys2Proof.Machine.execOr d a b w s
  | .xor d a b w => Sys2Proof.Machine.execXor d a b w s
  | .andn d a b w => Sys2Proof.Machine.execAndn d a b w s
  | .orn d a b w => Sys2Proof.Machine.execOrn d a b w s
  | .sll d a b w => Sys2Proof.Machine.execSll d a b w s
  | .srl d a b w => Sys2Proof.Machine.execSrl d a b w s
  | .sra d a b w => Sys2Proof.Machine.execSra d a b w s
  | .rol d a b w => Sys2Proof.Machine.execRol d a b w s
  | .ror d a b w => Sys2Proof.Machine.execRor d a b w s
  | .mul d a b w => Sys2Proof.Machine.execMul d a b w s
  | .mulh d a b w => Sys2Proof.Machine.execMulh d a b w s
  | .mulhn d a b w => Sys2Proof.Machine.execMulhn d a b w s
  | .div d a b w => Sys2Proof.Machine.execDiv d a b w s
  | .divn d a b w => Sys2Proof.Machine.execDivn d a b w s
  | .rem d a b w => Sys2Proof.Machine.execRem d a b w s
  | .remn d a b w => Sys2Proof.Machine.execRemn d a b w s
  | .min d a b w => Sys2Proof.Machine.execMin d a b w s
  | .max d a b w => Sys2Proof.Machine.execMax d a b w s
  | .minn d a b w => Sys2Proof.Machine.execMinn d a b w s
  | .maxn d a b w => Sys2Proof.Machine.execMaxn d a b w s
  | .cset d a b k => Sys2Proof.Machine.execCset d a b k s
  | .sel d a b c => Sys2Proof.Machine.execSel d a b c s
  | .popc d a w => Sys2Proof.Machine.execPopc d a w s
  | .clz d a w => Sys2Proof.Machine.execClz d a w s
  | .ctz d a w => Sys2Proof.Machine.execCtz d a w s
  | .brev d a w => Sys2Proof.Machine.execBrev d a w s
  | .fnth d a w => Sys2Proof.Machine.execFnth d a w s
  | .addi d a im => Sys2Proof.Machine.execAddi d a im s
  | .andi d a im => Sys2Proof.Machine.execAndi d a im s
  | .ori d a im => Sys2Proof.Machine.execOri d a im s
  | .xori d a im => Sys2Proof.Machine.execXori d a im s
  | .csetiEq d a im => Sys2Proof.Machine.execCsetiEq d a im s
  | .csetiNe d a im => Sys2Proof.Machine.execCsetiNe d a im s
  | .csetiLt d a im => Sys2Proof.Machine.execCsetiLt d a im s
  | .csetiLtn d a im => Sys2Proof.Machine.execCsetiLtn d a im s
  | .slli d a p w => Sys2Proof.Machine.execSlli d a p w s
  | .srli d a p w => Sys2Proof.Machine.execSrli d a p w s
  | .srai d a p w => Sys2Proof.Machine.execSrai d a p w s
  | .rori d a p w => Sys2Proof.Machine.execRori d a p w s
  | .bext d a p l => Sys2Proof.Machine.execBext d a p l s
  | .bexts d a p l => Sys2Proof.Machine.execBexts d a p l s
  | .bins d a p l => Sys2Proof.Machine.execBins d a p l s
  | .lui d im => Sys2Proof.Machine.execLui d im s
  | .lpa d im => Sys2Proof.Machine.execLpa d im s
  | .bCond h k a b l => Sys2Proof.Machine.execBCond h k a b l s
  | .jl d off => Sys2Proof.Machine.execJl d off s
  | .jlr d a off => Sys2Proof.Machine.execJlr d a off s
  | .ld d b pol ord sc z x off => Sys2Proof.Machine.execLd d b pol ord sc z x off s
  | .ldx d b pol ord sc z x idx c => Sys2Proof.Machine.execLdx d b pol ord sc z x idx c s
  | .st t b pol ord sc z off => Sys2Proof.Machine.execSt t b pol ord sc z off s
  | .stx t b pol ord sc z idx c => Sys2Proof.Machine.execStx t b pol ord sc z idx c s
  | .amoAdd d b pol ord sc v w => Sys2Proof.Machine.execAmoAdd d b pol ord sc v w s
  | .amoAnd d b pol ord sc v w => Sys2Proof.Machine.execAmoAnd d b pol ord sc v w s
  | .amoOr d b pol ord sc v w => Sys2Proof.Machine.execAmoOr d b pol ord sc v w s
  | .amoXor d b pol ord sc v w => Sys2Proof.Machine.execAmoXor d b pol ord sc v w s
  | .amoMin d b pol ord sc v w => Sys2Proof.Machine.execAmoMin d b pol ord sc v w s
  | .amoMax d b pol ord sc v w => Sys2Proof.Machine.execAmoMax d b pol ord sc v w s
  | .amoMinn d b pol ord sc v w => Sys2Proof.Machine.execAmoMinn d b pol ord sc v w s
  | .amoMaxn d b pol ord sc v w => Sys2Proof.Machine.execAmoMaxn d b pol ord sc v w s
  | .amoSwap d b pol ord sc v w => Sys2Proof.Machine.execAmoSwap d b pol ord sc v w s
  | .cas d b pol ord sc v w => Sys2Proof.Machine.execCas d b pol ord sc v w s
  | .fence ord sc => Sys2Proof.Machine.execFence ord sc s
  | .pref b pol h off => Sys2Proof.Machine.execPref b pol h off s
  | .cwb b off => Sys2Proof.Machine.execCwb b off s
  | .cinv b off => Sys2Proof.Machine.execCinv b off s
  | .vadd d a b e g z => Sys2Proof.Machine.execVadd d a b e g z s
  | .vsub d a b e g z => Sys2Proof.Machine.execVsub d a b e g z s
  | .vmul d a b e g z => Sys2Proof.Machine.execVmul d a b e g z s
  | .vmulhI d a b e g z => Sys2Proof.Machine.execVmulhI d a b e g z s
  | .vmulhN d a b e g z => Sys2Proof.Machine.execVmulhN d a b e g z s
  | .vminI d a b e g z => Sys2Proof.Machine.execVminI d a b e g z s
  | .vminN d a b e g z => Sys2Proof.Machine.execVminN d a b e g z s
  | .vmaxI d a b e g z => Sys2Proof.Machine.execVmaxI d a b e g z s
  | .vmaxN d a b e g z => Sys2Proof.Machine.execVmaxN d a b e g z s
  | .vand d a b e g z => Sys2Proof.Machine.execVand d a b e g z s
  | .vor d a b e g z => Sys2Proof.Machine.execVor d a b e g z s
  | .vxor d a b e g z => Sys2Proof.Machine.execVxor d a b e g z s
  | .vandn d a b e g z => Sys2Proof.Machine.execVandn d a b e g z s
  | .vsll d a b e g z => Sys2Proof.Machine.execVsll d a b e g z s
  | .vsrl d a b e g z => Sys2Proof.Machine.execVsrl d a b e g z s
  | .vsra d a b e g z => Sys2Proof.Machine.execVsra d a b e g z s
  | .vpopc d a e g z => Sys2Proof.Machine.execVpopc d a e g z s
  | .vclz d a e g z => Sys2Proof.Machine.execVclz d a e g z s
  | .vctz d a e g z => Sys2Proof.Machine.execVctz d a e g z s
  | .vbrev d a e g z => Sys2Proof.Machine.execVbrev d a e g z s
  | .vfnth d a e g z => Sys2Proof.Machine.execVfnth d a e g z s
  | .vabs d a e g z => Sys2Proof.Machine.execVabs d a e g z s
  | .vaddsI d a b e g z => Sys2Proof.Machine.execVaddsI d a b e g z s
  | .vaddsN d a b e g z => Sys2Proof.Machine.execVaddsN d a b e g z s
  | .vsubsI d a b e g z => Sys2Proof.Machine.execVsubsI d a b e g z s
  | .vsubsN d a b e g z => Sys2Proof.Machine.execVsubsN d a b e g z s
  | .vsel d a b e g => Sys2Proof.Machine.execVsel d a b e g s
  | .vcmpEq d a b e g z => Sys2Proof.Machine.execVcmpEq d a b e g z s
  | .vcmpNe d a b e g z => Sys2Proof.Machine.execVcmpNe d a b e g z s
  | .vcmpLt d a b e g z => Sys2Proof.Machine.execVcmpLt d a b e g z s
  | .vcmpGe d a b e g z => Sys2Proof.Machine.execVcmpGe d a b e g z s
  | .vcmpLtn d a b e g z => Sys2Proof.Machine.execVcmpLtn d a b e g z s
  | .vcmpGen d a b e g z => Sys2Proof.Machine.execVcmpGen d a b e g z s
  | .fadd d a b e g z => Sys2Proof.Machine.execFadd d a b e g z s
  | .fsub d a b e g z => Sys2Proof.Machine.execFsub d a b e g z s
  | .fmul d a b e g z => Sys2Proof.Machine.execFmul d a b e g z s
  | .ffma d a b e g z => Sys2Proof.Machine.execFfma d a b e g z s
  | .ffms d a b e g z => Sys2Proof.Machine.execFfms d a b e g z s
  | .fnma d a b e g z => Sys2Proof.Machine.execFnma d a b e g z s
  | .fdiv d a b e g z => Sys2Proof.Machine.execFdiv d a b e g z s
  | .fsqrt d a e g z => Sys2Proof.Machine.execFsqrt d a e g z s
  | .fmin d a b e g z => Sys2Proof.Machine.execFmin d a b e g z s
  | .fmax d a b e g z => Sys2Proof.Machine.execFmax d a b e g z s
  | .fabs d a e g z => Sys2Proof.Machine.execFabs d a e g z s
  | .fneg d a e g z => Sys2Proof.Machine.execFneg d a e g z s
  | .frcp d a e g z => Sys2Proof.Machine.execFrcp d a e g z s
  | .frsqrt d a e g z => Sys2Proof.Machine.execFrsqrt d a e g z s
  | .fexp2 d a e g z => Sys2Proof.Machine.execFexp2 d a e g z s
  | .flog2 d a e g z => Sys2Proof.Machine.execFlog2 d a e g z s
  | .fround d a m e g z => Sys2Proof.Machine.execFround d a m e g z s
  | .fscale d a b e g z => Sys2Proof.Machine.execFscale d a b e g z s
  | .fcmpEq d a b e g z => Sys2Proof.Machine.execFcmpEq d a b e g z s
  | .fcmpNe d a b e g z => Sys2Proof.Machine.execFcmpNe d a b e g z s
  | .fcmpLt d a b e g z => Sys2Proof.Machine.execFcmpLt d a b e g z s
  | .fcmpLe d a b e g z => Sys2Proof.Machine.execFcmpLe d a b e g z s
  | .fcmpUn d a b e g z => Sys2Proof.Machine.execFcmpUn d a b e g z s
  | .vcvt d a r dt ty g z => Sys2Proof.Machine.execVcvt d a r dt ty g z s
  | .vred d a k ty g => Sys2Proof.Machine.execVred d a k ty g s
  | .vperm d a b ty g z => Sys2Proof.Machine.execVperm d a b ty g z s
  | .vslide d a b ty g z => Sys2Proof.Machine.execVslide d a b ty g z s
  | .vcompress d a ty g => Sys2Proof.Machine.execVcompress d a ty g s
  | .vexpand d a ty g z => Sys2Proof.Machine.execVexpand d a ty g z s
  | .vbcast d a ty g z => Sys2Proof.Machine.execVbcast d a ty g z s
  | .vins d a b ty => Sys2Proof.Machine.execVins d a b ty s
  | .vext d a b ty => Sys2Proof.Machine.execVext d a b ty s
  | .vld d b pol e g off => Sys2Proof.Machine.execVld d b pol e g off s
  | .vst d b pol e g off => Sys2Proof.Machine.execVst d b pol e g off s
  | .vgather d b pol e g idx => Sys2Proof.Machine.execVgather d b pol e g idx s
  | .vscatter d b pol e g idx => Sys2Proof.Machine.execVscatter d b pol e g idx s
  | .pand d a b => Sys2Proof.Machine.execPand d a b s
  | .por d a b => Sys2Proof.Machine.execPor d a b s
  | .pxor d a b => Sys2Proof.Machine.execPxor d a b s
  | .pandn d a b => Sys2Proof.Machine.execPandn d a b s
  | .pset d a => Sys2Proof.Machine.execPset d a s
  | .pget d a => Sys2Proof.Machine.execPget d a s
  | .pcnt d a e => Sys2Proof.Machine.execPcnt d a e s
  | .pfirst d a e => Sys2Proof.Machine.execPfirst d a e s
  | .pwhile d a b e => Sys2Proof.Machine.execPwhile d a b e s
  | .cwait t c sc => Sys2Proof.Machine.execCwait t c sc s
  | .ctrrd d a im => Sys2Proof.Machine.execCtrrd d a im s
  | .ctrset t a im => Sys2Proof.Machine.execCtrset t a im s
  | .erd d a im => Sys2Proof.Machine.execErd d a im s
  | .tspawn d a => Sys2Proof.Machine.execTspawn d a s
  | .tyield => Sys2Proof.Machine.execTyield s
  | .tsleep a => Sys2Proof.Machine.execTsleep a s
  | .twake d a => Sys2Proof.Machine.execTwake d a s
  | .texit => Sys2Proof.Machine.execTexit s
  | .tprio d a b => Sys2Proof.Machine.execTprio d a b s
  | .svc im => Sys2Proof.Machine.execSvc im s
  | .brk im => Sys2Proof.Machine.execBrk im s
  | .sysrd d n => Sys2Proof.Machine.execSysrd d n s
  | .syswr t n => Sys2Proof.Machine.execSyswr t n s
  | .ctxrd d a n => Sys2Proof.Machine.execCtxrd d a n s
  | .ctxwr t a n => Sys2Proof.Machine.execCtxwr t a n s
  | .tret a => Sys2Proof.Machine.execTret a s
  | .tredir h a => Sys2Proof.Machine.execTredir h a s
  | .tlbiPage a sc => Sys2Proof.Machine.execTlbiPage a sc s
  | .tlbiAsn a sc => Sys2Proof.Machine.execTlbiAsn a sc s
  | .tlbiAll sc => Sys2Proof.Machine.execTlbiAll sc s
  | .wfm d => Sys2Proof.Machine.execWfm d s
  | .tload t m b pol ord sc off => Sys2Proof.Machine.execTload t m b pol ord sc off s
  | .tloads t m b pol ord sc off => Sys2Proof.Machine.execTloads t m b pol ord sc off s
  | .tloadV t m b pol ord sc x off => Sys2Proof.Machine.execTloadV t m b pol ord sc x off s
  | .tstore t m b pol ord sc off => Sys2Proof.Machine.execTstore t m b pol ord sc off s
  | .tstoreAon t m b pol ord sc x off => Sys2Proof.Machine.execTstoreAon t m b pol ord sc x off s
  | .tstorea t m b pol ord sc off => Sys2Proof.Machine.execTstorea t m b pol ord sc off s
  | .tzero t => Sys2Proof.Machine.execTzero t s
  | .tmma t a b e h => Sys2Proof.Machine.execTmma t a b e h s
  | .tmmaSp t a b m e h => Sys2Proof.Machine.execTmmaSp t a b m e h s
  | .tcvt t a e h tag => Sys2Proof.Machine.execTcvt t a e h tag s
  | .tmova t v g => Sys2Proof.Machine.execTmova t v g s
  | .tmovt t v g => Sys2Proof.Machine.execTmovt t v g s
  | .ttrans t a e h => Sys2Proof.Machine.execTtrans t a e h s
  | .tadd t a b => Sys2Proof.Machine.execTadd t a b s
  | .tscale t a g => Sys2Proof.Machine.execTscale t a g s
  | .trel => Sys2Proof.Machine.execTrel s
  | .mset m a b c => Sys2Proof.Machine.execMset m a b c s
  | .put d a l pol sc c => Sys2Proof.Machine.execPut d a l pol sc c s
  | .putV d v pol sc c => Sys2Proof.Machine.execPutV d v pol sc c s
  | .putT t m b pol sc x off => Sys2Proof.Machine.execPutT t m b pol sc x off s
  | .copy r d a pol sc l c => Sys2Proof.Machine.execCopy r d a pol sc l c s
  | .copyResume r => Sys2Proof.Machine.execCopyResume r s
  | .ehalt => Sys2Proof.Machine.execEhalt s
  | .eli d im => Sys2Proof.Machine.execEli d im s
  | .eadd d a b => Sys2Proof.Machine.execEadd d a b s
  | .eaddi d a im => Sys2Proof.Machine.execEaddi d a im s
  | .esub d a b => Sys2Proof.Machine.execEsub d a b s
  | .eand d a b => Sys2Proof.Machine.execEand d a b s
  | .eandi d a im => Sys2Proof.Machine.execEandi d a im s
  | .eor d a b => Sys2Proof.Machine.execEor d a b s
  | .exor d a b => Sys2Proof.Machine.execExor d a b s
  | .eshr d a n => Sys2Proof.Machine.execEshr d a n s
  | .eshl d a n => Sys2Proof.Machine.execEshl d a n s
  | .emin d a b => Sys2Proof.Machine.execEmin d a b s
  | .emax d a b => Sys2Proof.Machine.execEmax d a b s
  | .elog2 d a c => Sys2Proof.Machine.execElog2 d a c s
  | .eld d a w => Sys2Proof.Machine.execEld d a w s
  | .est d a w => Sys2Proof.Machine.execEst d a w s
  | .ehinc a w => Sys2Proof.Machine.execEhinc a w s
  | .ecms d a w => Sys2Proof.Machine.execEcms d a w s
  | .esamp w => Sys2Proof.Machine.execEsamp w s
  | .etrig a => Sys2Proof.Machine.execEtrig a s
  | .eskip a b k n => Sys2Proof.Machine.execEskip a b k n s
  | .trapRecordEnter core => Sys2Proof.Machine.execTrapRecordEnter core s
  | .placement cl => Sys2Proof.Machine.execPlacement cl s
  | .preemption cl => Sys2Proof.Machine.execPreemption cl s
  | .quantumExpiry ctx => Sys2Proof.Machine.execQuantumExpiry ctx s
  | .pull cl => Sys2Proof.Machine.execPull cl s
  | .tileBinding ctx => Sys2Proof.Machine.execTileBinding ctx s
  | .exitedWrite tcb => Sys2Proof.Machine.execExitedWrite tcb s
  | .tenantWindowBoundary sock => Sys2Proof.Machine.execTenantWindowBoundary sock s
  | .contextTimeUpdate sock => Sys2Proof.Machine.execContextTimeUpdate sock s
  | .sleepDeadline cl => Sys2Proof.Machine.execSleepDeadline cl s
  | .sleepOverflowWalk cl => Sys2Proof.Machine.execSleepOverflowWalk cl s
  | .waitTableRecheck cl line => Sys2Proof.Machine.execWaitTableRecheck cl line s
  | .waitOverflowWalk cl => Sys2Proof.Machine.execWaitOverflowWalk cl s
  | .engineStart eng => Sys2Proof.Machine.execEngineStart eng s
  | .tileComplete eng => Sys2Proof.Machine.execTileComplete eng s
  | .tileStoreDrain eng => Sys2Proof.Machine.execTileStoreDrain eng s
  | .putTPiece eng => Sys2Proof.Machine.execPutTPiece eng s
  | .storePerform core => Sys2Proof.Machine.execStorePerform core s
  | .putLineSend cl => Sys2Proof.Machine.execPutLineSend cl s
  | .copyTakeUp cl => Sys2Proof.Machine.execCopyTakeUp cl s
  | .copyBurst cl => Sys2Proof.Machine.execCopyBurst cl s
  | .copyStopMsgEnter cl => Sys2Proof.Machine.execCopyStopMsgEnter cl s
  | .homePutLine r => Sys2Proof.Machine.execHomePutLine r s
  | .homeAth r => Sys2Proof.Machine.execHomeAth r s
  | .endingReply port cmx => Sys2Proof.Machine.execEndingReply port cmx s
  | .requestAdmission port => Sys2Proof.Machine.execRequestAdmission port s
  | .switchForward stage sw out => Sys2Proof.Machine.execSwitchForward stage sw out s
  | .energyRefill sock => Sys2Proof.Machine.execEnergyRefill sock s
  | .efcBudgetRefill sock => Sys2Proof.Machine.execEfcBudgetRefill sock s
  | .efcTakeRecord efc => Sys2Proof.Machine.execEfcTakeRecord efc s
  | .attestSignDone sock => Sys2Proof.Machine.execAttestSignDone sock s
  | .farTimeout sock dest => Sys2Proof.Machine.execFarTimeout sock dest s
  | .farAckTimer sock => Sys2Proof.Machine.execFarAckTimer sock s
  | .reset => Sys2Proof.Machine.execReset s
  | .putLineLanded cl id bytes => Sys2Proof.Machine.execPutLineLanded cl id bytes s
  | .homeRdt r => Sys2Proof.Machine.execHomeRdt r s
  | .homeRdu r => Sys2Proof.Machine.execHomeRdu r s
  | .homeRdw r => Sys2Proof.Machine.execHomeRdw r s
  | .homeOwn r => Sys2Proof.Machine.execHomeOwn r s
  | .homeWrt r => Sys2Proof.Machine.execHomeWrt r s
  | .homeWrs r => Sys2Proof.Machine.execHomeWrs r s
  | .homeWrw r => Sys2Proof.Machine.execHomeWrw r s
  | .homeWb r => Sys2Proof.Machine.execHomeWb r s
  | .deadLetterAppend dl => Sys2Proof.Machine.execDeadLetterAppend dl s
  | .invalidation cl line w => Sys2Proof.Machine.execInvalidation cl line w s
  | .recallWord cl line w => Sys2Proof.Machine.execRecall cl line w s
  | .downgrade cl line w => Sys2Proof.Machine.execDowngrade cl line w s
  | .forwardedRead cl line w => Sys2Proof.Machine.execForwardedRead cl line w s
  | .fotsync sock x => Sys2Proof.Machine.execFotsync sock x s
  | .tentsync sock x => Sys2Proof.Machine.execTentsync sock x s
  | .coreRelease sock x => Sys2Proof.Machine.execCoreRelease sock x s
  | .attestAppend sock ty => Sys2Proof.Machine.execAttestAppend sock ty s
  | .attestSign sock => Sys2Proof.Machine.execAttestSign sock s
  | .debugStop ctx => Sys2Proof.Machine.execDebugStop ctx s
  | .debugResume ctx => Sys2Proof.Machine.execDebugResume ctx s
  | .dbgdataAccess core wr => Sys2Proof.Machine.execDbgdataAccess core wr s
  | .debugPortAccess addr sz wr => Sys2Proof.Machine.execDebugPortAccess addr sz wr s
  | .linkRetrain sock port x => Sys2Proof.Machine.execLinkRetrain sock port x s
  | .linkTrained sock port => Sys2Proof.Machine.execLinkTrained sock port s
  | .coherentLinkDown sock port => Sys2Proof.Machine.execCoherentLinkDown sock port s
  | .farDataReceive sock port f => Sys2Proof.Machine.execFarDataReceive sock port f s
  | .farAckReceive sock port f => Sys2Proof.Machine.execFarAckReceive sock port f s
  | .farNakReceive sock port f => Sys2Proof.Machine.execFarNakReceive sock port f s
  | .farRefuseReceive sock port f => Sys2Proof.Machine.execFarRefuseReceive sock port f s
  | .linkLackReceive sock port f => Sys2Proof.Machine.execLinkLackReceive sock port f s
  | .linkLnakReceive sock port f => Sys2Proof.Machine.execLinkLnakReceive sock port f s
  | .faridWrite sock x => Sys2Proof.Machine.execFaridWrite sock x s
  | .dmaWrite sock port addr bytes => Sys2Proof.Machine.execDmaWrite sock port addr bytes s
  | .dmaRead sock port addr n => Sys2Proof.Machine.execDmaRead sock port addr n s
  | .hostMemAccess sock off n wr => Sys2Proof.Machine.execHostMemAccess sock off n wr s
  | .powerBudgetSet sock watts => Sys2Proof.Machine.execPowerBudgetSet sock watts s
  | .overTemperature sock => Sys2Proof.Machine.execOverTemperature sock s
  | .registerWrite addr x => Sys2Proof.Machine.execRegisterWrite addr x s
  | .dispatchCycle core => Sys2Proof.Machine.execDispatchCycle core s
  | .engineCycle sock => Sys2Proof.Machine.execEngineCycle sock s
  | .farPortDown sock port => Sys2Proof.Machine.execFarPortDown sock port s
  | .hostLinkTrained sock port width => Sys2Proof.Machine.execHostLinkTrained sock port width s

end Sys2Proof.Machine
end

