-- ==== Sys2Proof/WellFormed.lean ====
section
/-! DEFINITION. The limits the spec states for the fields of each instruction beyond their widths; a word outside
them raises ILLEGAL_INSTRUCTION (spec/03 R71-R91, spec/10 R255, R268, R269, spec/13 R354). -/

namespace Sys2Proof

/-- "An instruction whose ord is plain must carry scope 0b000" (R71). -/
def plainScope (ord : Order) (sc : Scope) : Bool :=
  ord != .plain || sc == .ctx

/-- The numbers `sysrd` and `syswr` reach (R255). -/
def sysNumber (n : Nat) : Bool :=
  n == 0x221 || n == 0x222 || (decide (0x400 ≤ n) && decide (n ≤ 0x40F)) ||
    (decide (0x800 ≤ n) && decide (n ≤ 0x805)) || (decide (0x808 ≤ n) && decide (n ≤ 0x80A))

/-- The numbers `ctxrd` and `ctxwr` reach (R255). -/
def ctxNumber (n : Nat) : Bool :=
  decide (n < 0x20) || (decide (0x100 ≤ n) && decide (n ≤ 0x207)) ||
    (decide (0x210 ≤ n) && decide (n ≤ 0x222)) || (decide (0x400 ≤ n) && decide (n ≤ 0x40F))

/-- A tile register that is an accumulator. -/
def TReg.isAcc : TReg → Bool
  | .t _ => false
  | .a _ => true

/-- The tags R50 assigns, by width code: W6 tag 3 and W4 tags 2 and 3 are reserved. -/
def tagOk (width tag : Nat) : Bool :=
  match width with
  | 0 => decide (tag < 4)
  | 1 => decide (tag < 3)
  | 2 => decide (tag < 2)
  | _ => false

/-- An instruction's fields keep the limits the spec states for them. Steps of the device have none. -/
def Instr.wf : Instr → Bool
  | .add _ _ _ _ => true
  | .sub _ _ _ _ => true
  | .and _ _ _ _ => true
  | .or _ _ _ _ => true
  | .xor _ _ _ _ => true
  | .andn _ _ _ _ => true
  | .orn _ _ _ _ => true
  | .sll _ _ _ _ => true
  | .srl _ _ _ _ => true
  | .sra _ _ _ _ => true
  | .rol _ _ _ _ => true
  | .ror _ _ _ _ => true
  | .mul _ _ _ _ => true
  | .mulh _ _ _ _ => true
  | .mulhn _ _ _ _ => true
  | .div _ _ _ _ => true
  | .divn _ _ _ _ => true
  | .rem _ _ _ _ => true
  | .remn _ _ _ _ => true
  | .min _ _ _ _ => true
  | .max _ _ _ _ => true
  | .minn _ _ _ _ => true
  | .maxn _ _ _ _ => true
  | .cset _ _ _ _ => true
  | .sel _ _ _ _ => true
  | .popc _ _ _ => true
  | .clz _ _ _ => true
  | .ctz _ _ _ => true
  | .brev _ _ _ => true
  | .fnth _ _ _ => true
  | .addi _ _ _ => true
  | .andi _ _ _ => true
  | .ori _ _ _ => true
  | .xori _ _ _ => true
  | .csetiEq _ _ _ => true
  | .csetiNe _ _ _ => true
  | .csetiLt _ _ _ => true
  | .csetiLtn _ _ _ => true
  | .slli _ _ p w => !w || decide (p.toNat < 32)
  | .srli _ _ p w => !w || decide (p.toNat < 32)
  | .srai _ _ p w => !w || decide (p.toNat < 32)
  | .rori _ _ p w => !w || decide (p.toNat < 32)
  | .bext _ _ p l => decide (p.toNat + l.toNat + 1 ≤ 64)
  | .bexts _ _ p l => decide (p.toNat + l.toNat + 1 ≤ 64)
  | .bins _ _ p l => decide (p.toNat + l.toNat + 1 ≤ 64)
  | .lui _ _ => true
  | .lpa _ _ => true
  | .bCond _ _ _ _ _ => true
  | .jl _ _ => true
  | .jlr _ _ _ => true
  | .ld _ _ _ ord sc z x _ => (ord == .plain || ord == .acq) && plainScope ord sc && (z != 3#2 || !x)
  | .ldx _ _ _ ord sc z x _ _ => (ord == .plain || ord == .acq) && plainScope ord sc && (z != 3#2 || !x)
  | .st _ _ _ ord sc _ _ => (ord == .plain || ord == .rel) && plainScope ord sc
  | .stx _ _ _ ord sc _ _ _ => (ord == .plain || ord == .rel) && plainScope ord sc
  | .amoAdd _ _ _ ord sc _ _ => plainScope ord sc
  | .amoAnd _ _ _ ord sc _ _ => plainScope ord sc
  | .amoOr _ _ _ ord sc _ _ => plainScope ord sc
  | .amoXor _ _ _ ord sc _ _ => plainScope ord sc
  | .amoMin _ _ _ ord sc _ _ => plainScope ord sc
  | .amoMax _ _ _ ord sc _ _ => plainScope ord sc
  | .amoMinn _ _ _ ord sc _ _ => plainScope ord sc
  | .amoMaxn _ _ _ ord sc _ _ => plainScope ord sc
  | .amoSwap _ _ _ ord sc _ _ => plainScope ord sc
  | .cas _ _ _ ord sc _ _ => plainScope ord sc
  | .fence ord _ => ord != .plain
  | .pref _ _ _ _ => true
  | .cwb _ _ => true
  | .cinv _ _ => true
  | .vadd _ _ _ _ _ _ => true
  | .vsub _ _ _ _ _ _ => true
  | .vmul _ _ _ _ _ _ => true
  | .vmulhI _ _ _ _ _ _ => true
  | .vmulhN _ _ _ _ _ _ => true
  | .vminI _ _ _ _ _ _ => true
  | .vminN _ _ _ _ _ _ => true
  | .vmaxI _ _ _ _ _ _ => true
  | .vmaxN _ _ _ _ _ _ => true
  | .vand _ _ _ _ _ _ => true
  | .vor _ _ _ _ _ _ => true
  | .vxor _ _ _ _ _ _ => true
  | .vandn _ _ _ _ _ _ => true
  | .vsll _ _ _ _ _ _ => true
  | .vsrl _ _ _ _ _ _ => true
  | .vsra _ _ _ _ _ _ => true
  | .vpopc _ _ _ _ _ => true
  | .vclz _ _ _ _ _ => true
  | .vctz _ _ _ _ _ => true
  | .vbrev _ _ _ _ _ => true
  | .vfnth _ _ _ _ _ => true
  | .vabs _ _ _ _ _ => true
  | .vaddsI _ _ _ _ _ _ => true
  | .vaddsN _ _ _ _ _ _ => true
  | .vsubsI _ _ _ _ _ _ => true
  | .vsubsN _ _ _ _ _ _ => true
  | .vsel _ _ _ _ _ => true
  | .vcmpEq _ _ _ _ _ _ => true
  | .vcmpNe _ _ _ _ _ _ => true
  | .vcmpLt _ _ _ _ _ _ => true
  | .vcmpGe _ _ _ _ _ _ => true
  | .vcmpLtn _ _ _ _ _ _ => true
  | .vcmpGen _ _ _ _ _ _ => true
  | .fadd _ _ _ _ _ _ => true
  | .fsub _ _ _ _ _ _ => true
  | .fmul _ _ _ _ _ _ => true
  | .ffma _ _ _ _ _ _ => true
  | .ffms _ _ _ _ _ _ => true
  | .fnma _ _ _ _ _ _ => true
  | .fdiv _ _ _ _ _ _ => true
  | .fsqrt _ _ _ _ _ => true
  | .fmin _ _ _ _ _ _ => true
  | .fmax _ _ _ _ _ _ => true
  | .fabs _ _ _ _ _ => true
  | .fneg _ _ _ _ _ => true
  | .frcp _ _ _ _ _ => true
  | .frsqrt _ _ _ _ _ => true
  | .fexp2 _ _ _ _ _ => true
  | .flog2 _ _ _ _ _ => true
  | .fround _ _ m _ _ _ => decide (m.toNat ≤ 4)
  | .fscale _ _ _ _ _ _ => true
  | .fcmpEq _ _ _ _ _ _ => true
  | .fcmpNe _ _ _ _ _ _ => true
  | .fcmpLt _ _ _ _ _ _ => true
  | .fcmpLe _ _ _ _ _ _ => true
  | .fcmpUn _ _ _ _ _ _ => true
  | .vcvt _ _ _ dt ty _ _ => decide (ty.toNat ≤ 11) && decide (dt.toNat ≤ 11)
  | .vred _ _ k ty _ => decide (ty.toNat ≤ 11) && decide (k.toNat < if ty.toNat < 8 then 6 else 3)
  | .vperm _ _ _ ty _ _ => decide (ty.toNat ≤ 11)
  | .vslide _ _ _ ty _ _ => decide (ty.toNat ≤ 11)
  | .vcompress _ _ ty _ => decide (ty.toNat ≤ 11)
  | .vexpand _ _ ty _ _ => decide (ty.toNat ≤ 11)
  | .vbcast _ _ ty _ _ => decide (ty.toNat ≤ 11)
  | .vins _ _ _ ty => decide (ty.toNat ≤ 11)
  | .vext _ _ _ ty => decide (ty.toNat ≤ 11)
  | .vld _ _ _ _ _ _ => true
  | .vst _ _ _ _ _ _ => true
  | .vgather _ _ _ _ _ _ => true
  | .vscatter _ _ _ _ _ _ => true
  | .pand _ _ _ => true
  | .por _ _ _ => true
  | .pxor _ _ _ => true
  | .pandn _ _ _ => true
  | .pset _ _ => true
  | .pget _ _ => true
  | .pcnt _ _ _ => true
  | .pfirst _ _ _ => true
  | .pwhile _ _ _ _ => true
  | .cwait _ _ _ => true
  | .ctrrd _ _ _ => true
  | .ctrset _ _ _ => true
  | .erd _ _ _ => true
  | .tspawn _ _ => true
  | .tyield => true
  | .tsleep _ => true
  | .twake _ _ => true
  | .texit => true
  | .tprio _ _ _ => true
  | .svc _ => true
  | .brk _ => true
  | .sysrd _ n => sysNumber n.toNat
  | .syswr _ n => sysNumber n.toNat
  | .ctxrd _ _ n => ctxNumber n.toNat
  | .ctxwr _ _ n => ctxNumber n.toNat
  | .tret _ => true
  | .tredir _ _ => true
  | .tlbiPage _ sc => sc != .ctx
  | .tlbiAsn _ sc => sc != .ctx
  | .tlbiAll sc => sc != .ctx
  | .wfm d => decide (1 ≤ d.toNat) && decide (d.toNat ≤ 28)
  | .tload _ _ _ _ ord sc _ => (ord == .plain || ord == .acq) && plainScope ord sc
  | .tloads _ _ _ _ ord sc _ => (ord == .plain || ord == .acq) && plainScope ord sc
  | .tloadV _ _ _ _ ord sc _ _ => (ord == .plain || ord == .acq) && plainScope ord sc
  | .tstore _ _ _ _ ord sc _ => (ord == .plain || ord == .rel) && plainScope ord sc
  | .tstoreAon _ _ _ _ ord sc _ _ => (ord == .plain || ord == .rel) && plainScope ord sc
  | .tstorea _ _ _ _ ord sc _ => (ord == .plain || ord == .rel) && plainScope ord sc
  | .tzero _ => true
  | .tmma _ _ _ e h => !h || e == 3#2
  | .tmmaSp _ _ b _ e h => (e == 0#2 || e == 3#2) && (!h || e == 3#2) && decide (b.toNat % 2 = 0)
  | .tcvt _ a e h tag => if e == 3#2 then a.isAcc && tag == 0#2 else tagOk e.toNat tag.toNat && (!h || !a.isAcc)
  | .tmova _ _ _ => true
  | .tmovt _ _ _ => true
  | .ttrans _ _ e h => e != 1#2 && (!h || e == 3#2)
  | .tadd _ _ _ => true
  | .tscale _ _ _ => true
  | .trel => true
  | .mset _ _ _ _ => true
  | .put _ _ _ _ _ _ => true
  | .putV _ _ _ _ _ => true
  | .putT _ _ _ _ _ _ _ => true
  | .copy _ _ _ _ _ _ _ => true
  | .copyResume _ => true
  | .ehalt => true
  | .eli _ _ => true
  | .eadd _ _ _ => true
  | .eaddi _ _ _ => true
  | .esub _ _ _ => true
  | .eand _ _ _ => true
  | .eandi _ _ _ => true
  | .eor _ _ _ => true
  | .exor _ _ _ => true
  | .eshr _ _ _ => true
  | .eshl _ _ _ => true
  | .emin _ _ _ => true
  | .emax _ _ _ => true
  | .elog2 _ _ c => decide (c.toNat ≤ 64)
  | .eld _ _ _ => true
  | .est _ _ _ => true
  | .ehinc _ _ => true
  | .ecms _ _ _ => true
  | .esamp _ => true
  | .etrig _ => true
  | .eskip _ _ k n => decide (k.toNat ≤ 3) && n != 0#6
  | .reset => true
  | .trapRecordEnter _ => true
  | .placement _ => true
  | .preemption _ => true
  | .quantumExpiry _ => true
  | .pull _ => true
  | .tileBinding _ => true
  | .exitedWrite _ => true
  | .tenantWindowBoundary _ => true
  | .contextTimeUpdate _ => true
  | .sleepDeadline _ => true
  | .sleepOverflowWalk _ => true
  | .waitTableRecheck _ _ => true
  | .waitOverflowWalk _ => true
  | .engineStart _ => true
  | .tileComplete _ => true
  | .tileStoreDrain _ => true
  | .putTPiece _ => true
  | .storePerform _ => true
  | .putLineSend _ => true
  | .putLineLanded _ _ _ => true
  | .copyTakeUp _ => true
  | .copyBurst _ => true
  | .copyStopMsgEnter _ => true
  | .homeRdt _ => true
  | .homeRdu _ => true
  | .homeRdw _ => true
  | .homeOwn _ => true
  | .homeWrt _ => true
  | .homeWrs _ => true
  | .homeWrw _ => true
  | .homePutLine _ => true
  | .homeAth _ => true
  | .homeWb _ => true
  | .deadLetterAppend _ => true
  | .invalidation _ _ _ => true
  | .recallWord _ _ _ => true
  | .downgrade _ _ _ => true
  | .forwardedRead _ _ _ => true
  | .endingReply _ _ => true
  | .requestAdmission _ => true
  | .switchForward _ _ _ => true
  | .energyRefill _ => true
  | .efcBudgetRefill _ => true
  | .efcTakeRecord _ => true
  | .fotsync _ _ => true
  | .tentsync _ _ => true
  | .coreRelease _ _ => true
  | .attestAppend _ _ => true
  | .attestSign _ => true
  | .attestSignDone _ => true
  | .debugStop _ => true
  | .debugResume _ => true
  | .dbgdataAccess _ _ => true
  | .debugPortAccess _ _ _ => true
  | .linkRetrain _ _ _ => true
  | .linkTrained _ _ => true
  | .coherentLinkDown _ _ => true
  | .farDataReceive _ _ _ => true
  | .farAckReceive _ _ _ => true
  | .farNakReceive _ _ _ => true
  | .farRefuseReceive _ _ _ => true
  | .farTimeout _ _ => true
  | .farAckTimer _ => true
  | .linkLackReceive _ _ _ => true
  | .linkLnakReceive _ _ _ => true
  | .faridWrite _ _ => true
  | .dmaWrite _ _ _ _ => true
  | .dmaRead _ _ _ _ => true
  | .hostMemAccess _ _ _ _ => true
  | .powerBudgetSet _ _ => true
  | .overTemperature _ => true
  | .registerWrite _ _ => true
  | .dispatchCycle _ => true
  | .engineCycle _ => true
  | .farPortDown _ _ => true
  | .hostLinkTrained _ _ _ => true

end Sys2Proof
end

