-- ==== Sys2Proof/Decode.lean ====
section
/-! DEFINITION. The decoder, total on any words, and the encoder (spec/03 R66-R92, spec/13 R352). Words are natural
numbers; a field is taken out by division and remainder, once, here. After the encoder the file holds the words
the spec writes out, decoded. -/

namespace Sys2Proof

/-- Why a word is no instruction (R91). -/
inductive Reject where
  /-- Its class is 0, 31 or unassigned. -/
  | badClass
  /-- Its op, fn or long opcode is unassigned. -/
  | unassigned
  /-- A rsv field is nonzero, or a register or scope code does not exist. -/
  | reserved
  /-- A field holds a value outside the limits stated for it. -/
  | limit
  deriving DecidableEq, Repr

/-- Bits lo + n - 1 : lo of a word. -/
def bits (w lo n : Nat) : Nat := w / 2 ^ lo % 2 ^ n

/-- Bits lo + n - 1 : lo of a word, as a bit vector. -/
def fld (n w lo : Nat) : BitVec n := BitVec.ofNat n (w / 2 ^ lo)

/-- Bit lo of a word. -/
def flag (w lo : Nat) : Bool := w / 2 ^ lo % 2 == 1

/-- The policy of a two-bit code (R71). -/
def Pol.ofCode (c : Nat) : Pol :=
  match c with
  | 0 => .own | 1 => .wis | 2 => .sis | _ => .wt

/-- The ordering of a two-bit code (R71). -/
def Order.ofCode (c : Nat) : Order :=
  match c with
  | 0 => .plain | 1 => .acq | 2 => .rel | _ => .ar

/-- The scope of a three-bit code; codes 5-7 are refused before this is asked (R71). -/
def Scope.ofCode (c : Nat) : Scope :=
  match c with
  | 0 => .ctx | 1 => .core | 2 => .clu | 3 => .pkg | _ => .sys

/-- The tile register of a five-bit code; codes 12-31 are refused before this is asked (R87). -/
def TReg.ofCode (c : Nat) : TReg :=
  if c < 8 then .t (BitVec.ofNat 3 c) else .a (BitVec.ofNat 2 c)

/-- An instruction whose fields keep their limits. -/
def accept (i : Instr) : Except Reject Instr :=
  if i.wf then .ok i else .error .limit

/-- An instruction whose rsv fields are zero. -/
def guardRsv (ok : Bool) (i : Instr) : Except Reject Instr :=
  if ok then accept i else .error .reserved

/-- Reads the fields of add, sub, and, or, xor, andn, orn, sll, srl, sra, rol, ror, mul, mulh, mulhn, div, divn, rem, remn, min, max, minn, maxn. -/
def readAdd (mk : Reg → Reg → Reg → Bool → Instr) (w : Nat) : Except Reject Instr :=
  guardRsv (bits w 0 5 == 0) (mk (fld 5 w 22) (fld 5 w 17) (fld 5 w 12) (flag w 5))

/-- Reads the fields of popc, clz, ctz, brev, fnth. -/
def readPopc (mk : Reg → Reg → Bool → Instr) (w : Nat) : Except Reject Instr :=
  guardRsv (bits w 0 5 == 0 && bits w 12 5 == 0) (mk (fld 5 w 22) (fld 5 w 17) (flag w 5))

/-- Reads the fields of addi, andi, ori, xori, cseti_eq, cseti_ne, cseti_lt, cseti_ltn, ctrrd, erd. -/
def readAddi (mk : Reg → Reg → BitVec 14 → Instr) (w : Nat) : Except Reject Instr :=
  accept (mk (fld 5 w 22) (fld 5 w 17) (fld 14 w 0))

/-- Reads the fields of slli, srli, srai, rori. -/
def readSlli (mk : Reg → Reg → BitVec 6 → Bool → Instr) (w : Nat) : Except Reject Instr :=
  guardRsv (bits w 0 1 == 0 && bits w 2 6 == 0) (mk (fld 5 w 22) (fld 5 w 17) (fld 6 w 8) (flag w 1))

/-- Reads the fields of bext, bexts, bins. -/
def readBext (mk : Reg → Reg → BitVec 6 → BitVec 6 → Instr) (w : Nat) : Except Reject Instr :=
  guardRsv (bits w 0 2 == 0) (mk (fld 5 w 22) (fld 5 w 17) (fld 6 w 8) (fld 6 w 2))

/-- Reads the fields of lui, lpa. -/
def readLui (mk : Reg → BitVec 21 → Instr) (w : Nat) : Except Reject Instr :=
  accept (mk (fld 5 w 22) (fld 21 w 0))

/-- Reads the fields of amo_add, amo_and, amo_or, amo_xor, amo_min, amo_max, amo_minn, amo_maxn, amo_swap, cas. -/
def readAmoAdd (mk : Reg → Reg → Pol → Order → Scope → Reg → Bool → Instr) (w : Nat) : Except Reject Instr :=
  guardRsv (decide (bits w 10 3 < 5)) (mk (fld 5 w 22) (fld 5 w 17) (Pol.ofCode (bits w 15 2)) (Order.ofCode (bits w 13 2)) (Scope.ofCode (bits w 10 3)) (fld 5 w 5) (flag w 0))

/-- Reads the fields of cwb, cinv. -/
def readCwb (mk : Reg → BitVec 7 → Instr) (w : Nat) : Except Reject Instr :=
  guardRsv (bits w 22 2 == 0 && bits w 7 10 == 0) (mk (fld 5 w 17) (fld 7 w 0))

/-- Reads the fields of vadd, vsub, vmul, vmulh_i, vmulh_n, vmin_i, vmin_n, vmax_i, vmax_n, vand, vor, vxor, vandn, vsll, vsrl, vsra, vadds_i, vadds_n, vsubs_i, vsubs_n, fadd, fsub, fmul, ffma, ffms, fnma, fdiv, fmin, fmax, fscale. -/
def readVadd (mk : Reg → Reg → Reg → BitVec 2 → BitVec 3 → Bool → Instr) (w : Nat) : Except Reject Instr :=
  accept (mk (fld 5 w 22) (fld 5 w 17) (fld 5 w 12) (fld 2 w 4) (fld 3 w 1) (flag w 0))

/-- Reads the fields of vpopc, vclz, vctz, vbrev, vfnth, vabs, fsqrt, fabs, fneg, frcp, frsqrt, fexp2, flog2. -/
def readVpopc (mk : Reg → Reg → BitVec 2 → BitVec 3 → Bool → Instr) (w : Nat) : Except Reject Instr :=
  guardRsv (bits w 12 5 == 0) (mk (fld 5 w 22) (fld 5 w 17) (fld 2 w 4) (fld 3 w 1) (flag w 0))

/-- Reads the fields of vcmp_eq, vcmp_ne, vcmp_lt, vcmp_ge, vcmp_ltn, vcmp_gen, fcmp_eq, fcmp_ne, fcmp_lt, fcmp_le, fcmp_un. -/
def readVcmpEq (mk : BitVec 3 → Reg → Reg → BitVec 2 → BitVec 3 → Bool → Instr) (w : Nat) : Except Reject Instr :=
  guardRsv (bits w 25 2 == 0) (mk (fld 3 w 22) (fld 5 w 17) (fld 5 w 12) (fld 2 w 4) (fld 3 w 1) (flag w 0))

/-- Reads the fields of vperm, vslide. -/
def readVperm (mk : Reg → Reg → Reg → BitVec 4 → BitVec 3 → Bool → Instr) (w : Nat) : Except Reject Instr :=
  accept (mk (fld 5 w 22) (fld 5 w 17) (fld 5 w 12) (fld 4 w 4) (fld 3 w 1) (flag w 0))

/-- Reads the fields of vexpand, vbcast. -/
def readVexpand (mk : Reg → Reg → BitVec 4 → BitVec 3 → Bool → Instr) (w : Nat) : Except Reject Instr :=
  guardRsv (bits w 12 5 == 0) (mk (fld 5 w 22) (fld 5 w 17) (fld 4 w 4) (fld 3 w 1) (flag w 0))

/-- Reads the fields of vins, vext. -/
def readVins (mk : Reg → Reg → Reg → BitVec 4 → Instr) (w : Nat) : Except Reject Instr :=
  guardRsv (bits w 0 4 == 0) (mk (fld 5 w 22) (fld 5 w 17) (fld 5 w 12) (fld 4 w 4))

/-- Reads the fields of vld, vst. -/
def readVld (mk : Reg → Reg → Pol → BitVec 2 → BitVec 3 → BitVec 8 → Instr) (w : Nat) : Except Reject Instr :=
  accept (mk (fld 5 w 22) (fld 5 w 17) (Pol.ofCode (bits w 15 2)) (fld 2 w 13) (fld 3 w 8) (fld 8 w 0))

/-- Reads the fields of vgather, vscatter. -/
def readVgather (mk : Reg → Reg → Pol → BitVec 2 → BitVec 3 → Reg → Instr) (w : Nat) : Except Reject Instr :=
  guardRsv (bits w 0 3 == 0) (mk (fld 5 w 22) (fld 5 w 17) (Pol.ofCode (bits w 15 2)) (fld 2 w 13) (fld 3 w 8) (fld 5 w 3))

/-- Reads the fields of pand, por, pxor, pandn. -/
def readPand (mk : BitVec 3 → BitVec 3 → BitVec 3 → Instr) (w : Nat) : Except Reject Instr :=
  guardRsv (bits w 25 2 == 0 && bits w 20 2 == 0 && bits w 15 2 == 0 && bits w 0 8 == 0) (mk (fld 3 w 22) (fld 3 w 17) (fld 3 w 12))

/-- Reads the fields of pcnt, pfirst. -/
def readPcnt (mk : Reg → BitVec 3 → BitVec 2 → Instr) (w : Nat) : Except Reject Instr :=
  guardRsv (bits w 20 2 == 0 && bits w 12 5 == 0 && bits w 0 6 == 0) (mk (fld 5 w 22) (fld 3 w 17) (fld 2 w 6))

/-- Reads the fields of tspawn, twake. -/
def readTspawn (mk : Reg → Reg → Instr) (w : Nat) : Except Reject Instr :=
  guardRsv (bits w 12 5 == 0 && bits w 0 9 == 0) (mk (fld 5 w 22) (fld 5 w 17))

/-- Reads the fields of tyield, texit. -/
def readTyield (mk : Instr) (w : Nat) : Except Reject Instr :=
  guardRsv (bits w 12 15 == 0 && bits w 0 9 == 0) (mk)

/-- Reads the fields of svc, brk. -/
def readSvc (mk : BitVec 13 → Instr) (w : Nat) : Except Reject Instr :=
  guardRsv (bits w 17 10 == 0) (mk (fld 13 w 0))

/-- Reads the fields of tlbi_page, tlbi_asn. -/
def readTlbiPage (mk : Reg → Scope → Instr) (w : Nat) : Except Reject Instr :=
  guardRsv (bits w 22 5 == 0 && bits w 5 8 == 0 && decide (bits w 2 3 < 5)) (mk (fld 5 w 17) (Scope.ofCode (bits w 2 3)))

/-- Reads the fields of tload, tloads, tstore. -/
def readTload (mk : BitVec 3 → BitVec 3 → Reg → Pol → Order → Scope → BitVec 27 → Instr) (w w1 : Nat) : Except Reject Instr :=
  guardRsv (bits w 0 1 == 0 && bits w1 27 5 == 0 && bits w 19 2 == 0 && decide (bits w 1 3 < 5)) (mk (fld 3 w 16) (fld 3 w 13) (fld 5 w 8) (Pol.ofCode (bits w 6 2)) (Order.ofCode (bits w 4 2)) (Scope.ofCode (bits w 1 3)) (fld 27 w1 0))

/-- Reads the fields of eadd, esub, eand, eor, exor, emin, emax. -/
def readEadd (mk : BitVec 3 → BitVec 3 → BitVec 3 → Instr) (w : Nat) : Except Reject Instr :=
  guardRsv (bits w 0 17 == 0) (mk (fld 3 w 23) (fld 3 w 20) (fld 3 w 17))

/-- Reads the fields of eaddi, eandi. -/
def readEaddi (mk : BitVec 3 → BitVec 3 → BitVec 17 → Instr) (w : Nat) : Except Reject Instr :=
  guardRsv (bits w 17 3 == 0) (mk (fld 3 w 23) (fld 3 w 20) (fld 17 w 0))

/-- Reads the fields of eshr, eshl. -/
def readEshr (mk : BitVec 3 → BitVec 3 → BitVec 6 → Instr) (w : Nat) : Except Reject Instr :=
  guardRsv (bits w 6 14 == 0) (mk (fld 3 w 23) (fld 3 w 20) (fld 6 w 0))

/-- Reads the fields of eld, est, ecms. -/
def readEld (mk : BitVec 3 → BitVec 3 → BitVec 13 → Instr) (w : Nat) : Except Reject Instr :=
  guardRsv (bits w 13 7 == 0) (mk (fld 3 w 23) (fld 3 w 20) (fld 13 w 0))

/-- Class 1: ALU register-register (R73). -/
def decodeClass1 (w : Nat) : Except Reject Instr :=
  let op := bits w 6 6
  if op = 0 then readAdd .add w
  else if op = 1 then readAdd .sub w
  else if op = 2 then readAdd .and w
  else if op = 3 then readAdd .or w
  else if op = 4 then readAdd .xor w
  else if op = 5 then readAdd .andn w
  else if op = 6 then readAdd .orn w
  else if op = 8 then readAdd .sll w
  else if op = 9 then readAdd .srl w
  else if op = 0xa then readAdd .sra w
  else if op = 0xb then readAdd .rol w
  else if op = 0xc then readAdd .ror w
  else if op = 0x10 then readAdd .mul w
  else if op = 0x11 then readAdd .mulh w
  else if op = 0x12 then readAdd .mulhn w
  else if op = 0x14 then readAdd .div w
  else if op = 0x15 then readAdd .divn w
  else if op = 0x16 then readAdd .rem w
  else if op = 0x17 then readAdd .remn w
  else if op = 0x18 then readAdd .min w
  else if op = 0x19 then readAdd .max w
  else if op = 0x1a then readAdd .minn w
  else if op = 0x1b then readAdd .maxn w
  else if op = 0x1c then guardRsv (bits w 3 2 == 0 && bits w 5 1 == 0) (Instr.cset (fld 5 w 22) (fld 5 w 17) (fld 5 w 12) (fld 3 w 0))
  else if op = 0x1d then guardRsv (bits w 5 1 == 0) (Instr.sel (fld 5 w 22) (fld 5 w 17) (fld 5 w 12) (fld 5 w 0))
  else if op = 0x20 then readPopc .popc w
  else if op = 0x21 then readPopc .clz w
  else if op = 0x22 then readPopc .ctz w
  else if op = 0x23 then readPopc .brev w
  else if op = 0x24 then readPopc .fnth w
  else .error .unassigned

/-- Class 2: ALU immediate (R75). -/
def decodeClass2 (w : Nat) : Except Reject Instr :=
  let op := bits w 14 3
  if op = 0 then readAddi .addi w
  else if op = 1 then readAddi .andi w
  else if op = 2 then readAddi .ori w
  else if op = 3 then readAddi .xori w
  else if op = 4 then readAddi .csetiEq w
  else if op = 5 then readAddi .csetiNe w
  else if op = 6 then readAddi .csetiLt w
  else readAddi .csetiLtn w

/-- Class 3: bit field and shift immediate (R75). -/
def decodeClass3 (w : Nat) : Except Reject Instr :=
  let op := bits w 14 3
  if op = 0 then readSlli .slli w
  else if op = 1 then readSlli .srli w
  else if op = 2 then readSlli .srai w
  else if op = 3 then readSlli .rori w
  else if op = 4 then readBext .bext w
  else if op = 5 then readBext .bexts w
  else if op = 6 then readBext .bins w
  else .error .unassigned

/-- Class 4: upper immediate (R75). -/
def decodeClass4 (w : Nat) : Except Reject Instr :=
  let op := bits w 21 1
  if op = 0 then readLui .lui w
  else readLui .lpa w

/-- Class 5: branch. -/
def decodeClass5 (w : Nat) : Except Reject Instr :=
  accept (Instr.bCond (fld 2 w 25) (fld 3 w 22) (fld 5 w 17) (fld 5 w 12) (fld 12 w 0))

/-- Class 6: jump and link. -/
def decodeClass6 (w : Nat) : Except Reject Instr :=
  accept (Instr.jl (fld 5 w 22) (fld 22 w 0))

/-- Class 7: jump and link register. -/
def decodeClass7 (w : Nat) : Except Reject Instr :=
  guardRsv (bits w 14 3 == 0) (Instr.jlr (fld 5 w 22) (fld 5 w 17) (fld 14 w 0))

/-- Class 8: loads (R77). -/
def decodeClass8 (w : Nat) : Except Reject Instr :=
  guardRsv (decide (bits w 10 3 < 5)) (Instr.ld (fld 5 w 22) (fld 5 w 17) (Pol.ofCode (bits w 15 2)) (Order.ofCode (bits w 13 2)) (Scope.ofCode (bits w 10 3)) (fld 2 w 8) (flag w 7) (fld 7 w 0))

/-- Class 9: stores (R77). -/
def decodeClass9 (w : Nat) : Except Reject Instr :=
  guardRsv (bits w 7 1 == 0 && decide (bits w 10 3 < 5)) (Instr.st (fld 5 w 22) (fld 5 w 17) (Pol.ofCode (bits w 15 2)) (Order.ofCode (bits w 13 2)) (Scope.ofCode (bits w 10 3)) (fld 2 w 8) (fld 7 w 0))

/-- Class 10: indexed load and store (R77). -/
def decodeClass10 (w : Nat) : Except Reject Instr :=
  let op := bits w 1 1
  if op = 0 then guardRsv (decide (bits w 10 3 < 5)) (Instr.ldx (fld 5 w 22) (fld 5 w 17) (Pol.ofCode (bits w 15 2)) (Order.ofCode (bits w 13 2)) (Scope.ofCode (bits w 10 3)) (fld 2 w 8) (flag w 7) (fld 5 w 2) (flag w 0))
  else guardRsv (bits w 7 1 == 0 && decide (bits w 10 3 < 5)) (Instr.stx (fld 5 w 22) (fld 5 w 17) (Pol.ofCode (bits w 15 2)) (Order.ofCode (bits w 13 2)) (Scope.ofCode (bits w 10 3)) (fld 2 w 8) (fld 5 w 2) (flag w 0))

/-- Class 11: atomics (R77). -/
def decodeClass11 (w : Nat) : Except Reject Instr :=
  let op := bits w 1 4
  if op = 0 then readAmoAdd .amoAdd w
  else if op = 1 then readAmoAdd .amoAnd w
  else if op = 2 then readAmoAdd .amoOr w
  else if op = 3 then readAmoAdd .amoXor w
  else if op = 4 then readAmoAdd .amoMin w
  else if op = 5 then readAmoAdd .amoMax w
  else if op = 6 then readAmoAdd .amoMinn w
  else if op = 7 then readAmoAdd .amoMaxn w
  else if op = 8 then readAmoAdd .amoSwap w
  else if op = 9 then readAmoAdd .cas w
  else .error .unassigned

/-- Class 12: fence, hint, cache (R78). -/
def decodeClass12 (w : Nat) : Except Reject Instr :=
  let op := bits w 24 3
  if op = 0 then guardRsv (bits w 22 2 == 0 && bits w 15 7 == 0 && bits w 0 10 == 0 && decide (bits w 10 3 < 5)) (Instr.fence (Order.ofCode (bits w 13 2)) (Scope.ofCode (bits w 10 3)))
  else if op = 1 then guardRsv (bits w 22 2 == 0 && bits w 10 5 == 0) (Instr.pref (fld 5 w 17) (Pol.ofCode (bits w 15 2)) (fld 3 w 7) (fld 7 w 0))
  else if op = 2 then readCwb .cwb w
  else if op = 3 then readCwb .cinv w
  else .error .unassigned

/-- Class 13: vector integer (R79). -/
def decodeClass13 (w : Nat) : Except Reject Instr :=
  let op := bits w 6 6
  if op = 0 then readVadd .vadd w
  else if op = 1 then readVadd .vsub w
  else if op = 2 then readVadd .vmul w
  else if op = 3 then readVadd .vmulhI w
  else if op = 4 then readVadd .vmulhN w
  else if op = 5 then readVadd .vminI w
  else if op = 6 then readVadd .vminN w
  else if op = 7 then readVadd .vmaxI w
  else if op = 8 then readVadd .vmaxN w
  else if op = 9 then readVadd .vand w
  else if op = 0xa then readVadd .vor w
  else if op = 0xb then readVadd .vxor w
  else if op = 0xc then readVadd .vandn w
  else if op = 0xd then readVadd .vsll w
  else if op = 0xe then readVadd .vsrl w
  else if op = 0xf then readVadd .vsra w
  else if op = 0x10 then readVpopc .vpopc w
  else if op = 0x11 then readVpopc .vclz w
  else if op = 0x12 then readVpopc .vctz w
  else if op = 0x13 then readVpopc .vbrev w
  else if op = 0x14 then readVpopc .vfnth w
  else if op = 0x15 then readVpopc .vabs w
  else if op = 0x16 then readVadd .vaddsI w
  else if op = 0x17 then readVadd .vaddsN w
  else if op = 0x18 then readVadd .vsubsI w
  else if op = 0x19 then readVadd .vsubsN w
  else if op = 0x1a then guardRsv (bits w 0 1 == 0) (Instr.vsel (fld 5 w 22) (fld 5 w 17) (fld 5 w 12) (fld 2 w 4) (fld 3 w 1))
  else if op = 0x20 then readVcmpEq .vcmpEq w
  else if op = 0x21 then readVcmpEq .vcmpNe w
  else if op = 0x22 then readVcmpEq .vcmpLt w
  else if op = 0x23 then readVcmpEq .vcmpGe w
  else if op = 0x24 then readVcmpEq .vcmpLtn w
  else if op = 0x25 then readVcmpEq .vcmpGen w
  else .error .unassigned

/-- Class 14: vector floating (R79). -/
def decodeClass14 (w : Nat) : Except Reject Instr :=
  let op := bits w 6 6
  if op = 0 then readVadd .fadd w
  else if op = 1 then readVadd .fsub w
  else if op = 2 then readVadd .fmul w
  else if op = 3 then readVadd .ffma w
  else if op = 4 then readVadd .ffms w
  else if op = 5 then readVadd .fnma w
  else if op = 6 then readVadd .fdiv w
  else if op = 7 then readVpopc .fsqrt w
  else if op = 8 then readVadd .fmin w
  else if op = 9 then readVadd .fmax w
  else if op = 0xa then readVpopc .fabs w
  else if op = 0xb then readVpopc .fneg w
  else if op = 0xc then readVpopc .frcp w
  else if op = 0xd then readVpopc .frsqrt w
  else if op = 0xe then readVpopc .fexp2 w
  else if op = 0xf then readVpopc .flog2 w
  else if op = 0x10 then accept (Instr.fround (fld 5 w 22) (fld 5 w 17) (fld 5 w 12) (fld 2 w 4) (fld 3 w 1) (flag w 0))
  else if op = 0x11 then readVadd .fscale w
  else if op = 0x20 then readVcmpEq .fcmpEq w
  else if op = 0x21 then readVcmpEq .fcmpNe w
  else if op = 0x22 then readVcmpEq .fcmpLt w
  else if op = 0x23 then readVcmpEq .fcmpLe w
  else if op = 0x24 then readVcmpEq .fcmpUn w
  else .error .unassigned

/-- Class 15: vector convert, permute, reduce (R80). -/
def decodeClass15 (w : Nat) : Except Reject Instr :=
  let op := bits w 8 4
  if op = 0 then accept (Instr.vcvt (fld 5 w 22) (fld 5 w 17) (flag w 16) (fld 4 w 12) (fld 4 w 4) (fld 3 w 1) (flag w 0))
  else if op = 1 then guardRsv (bits w 0 1 == 0) (Instr.vred (fld 5 w 22) (fld 5 w 17) (fld 5 w 12) (fld 4 w 4) (fld 3 w 1))
  else if op = 2 then readVperm .vperm w
  else if op = 3 then readVperm .vslide w
  else if op = 4 then guardRsv (bits w 0 1 == 0 && bits w 12 5 == 0) (Instr.vcompress (fld 5 w 22) (fld 5 w 17) (fld 4 w 4) (fld 3 w 1))
  else if op = 5 then readVexpand .vexpand w
  else if op = 6 then readVexpand .vbcast w
  else if op = 7 then readVins .vins w
  else if op = 8 then readVins .vext w
  else .error .unassigned

/-- Class 16: vector memory (R81). -/
def decodeClass16 (w : Nat) : Except Reject Instr :=
  let op := bits w 11 2
  if op = 0 then readVld .vld w
  else if op = 1 then readVld .vst w
  else if op = 2 then readVgather .vgather w
  else readVgather .vscatter w

/-- Class 17: predicate (R82). -/
def decodeClass17 (w : Nat) : Except Reject Instr :=
  let op := bits w 8 4
  if op = 0 then readPand .pand w
  else if op = 1 then readPand .por w
  else if op = 2 then readPand .pxor w
  else if op = 3 then readPand .pandn w
  else if op = 4 then guardRsv (bits w 25 2 == 0 && bits w 12 5 == 0 && bits w 0 8 == 0) (Instr.pset (fld 3 w 22) (fld 5 w 17))
  else if op = 5 then guardRsv (bits w 20 2 == 0 && bits w 12 5 == 0 && bits w 0 8 == 0) (Instr.pget (fld 5 w 22) (fld 3 w 17))
  else if op = 6 then readPcnt .pcnt w
  else if op = 7 then readPcnt .pfirst w
  else if op = 8 then guardRsv (bits w 25 2 == 0 && bits w 0 6 == 0) (Instr.pwhile (fld 3 w 22) (fld 5 w 17) (fld 5 w 12) (fld 2 w 6))
  else .error .unassigned

/-- Class 18: counter and wait (R83). -/
def decodeClass18 (w : Nat) : Except Reject Instr :=
  let op := bits w 14 3
  if op = 0 then guardRsv (bits w 0 11 == 0 && decide (bits w 11 3 < 5)) (Instr.cwait (fld 5 w 22) (fld 5 w 17) (Scope.ofCode (bits w 11 3)))
  else if op = 1 then readAddi .ctrrd w
  else if op = 2 then accept (Instr.ctrset (fld 5 w 22) (fld 5 w 17) (fld 14 w 0))
  else if op = 3 then readAddi .erd w
  else .error .unassigned

/-- Class 19: thread (R84). -/
def decodeClass19 (w : Nat) : Except Reject Instr :=
  let op := bits w 9 3
  if op = 0 then readTspawn .tspawn w
  else if op = 1 then readTyield .tyield w
  else if op = 2 then guardRsv (bits w 22 5 == 0 && bits w 12 5 == 0 && bits w 0 9 == 0) (Instr.tsleep (fld 5 w 17))
  else if op = 3 then readTspawn .twake w
  else if op = 4 then readTyield .texit w
  else if op = 5 then guardRsv (bits w 0 9 == 0) (Instr.tprio (fld 5 w 22) (fld 5 w 17) (fld 5 w 12))
  else .error .unassigned

/-- Class 20: system (R85). -/
def decodeClass20 (w : Nat) : Except Reject Instr :=
  let op := bits w 13 4
  if op = 0 then readSvc .svc w
  else if op = 1 then readSvc .brk w
  else if op = 2 then guardRsv (bits w 17 5 == 0) (Instr.sysrd (fld 5 w 22) (fld 13 w 0))
  else if op = 3 then guardRsv (bits w 17 5 == 0) (Instr.syswr (fld 5 w 22) (fld 13 w 0))
  else if op = 4 then accept (Instr.ctxrd (fld 5 w 22) (fld 5 w 17) (fld 13 w 0))
  else if op = 5 then accept (Instr.ctxwr (fld 5 w 22) (fld 5 w 17) (fld 13 w 0))
  else if op = 6 then guardRsv (bits w 22 5 == 0 && bits w 0 13 == 0) (Instr.tret (fld 5 w 17))
  else if op = 7 then guardRsv (bits w 0 13 == 0) (Instr.tredir (fld 5 w 22) (fld 5 w 17))
  else if op = 8 then
    if bits w 0 2 = 0 then readTlbiPage .tlbiPage w
    else if bits w 0 2 = 1 then readTlbiPage .tlbiAsn w
    else if bits w 0 2 = 2 then guardRsv (bits w 22 5 == 0 && bits w 17 5 == 0 && bits w 5 8 == 0 && decide (bits w 2 3 < 5)) (Instr.tlbiAll (Scope.ofCode (bits w 2 3)))
    else .error .limit
  else if op = 9 then guardRsv (bits w 17 5 == 0 && bits w 0 13 == 0) (Instr.wfm (fld 5 w 22))
  else .error .unassigned

/-- Class 24: the long instructions, word 0 and word 1 (R86). -/
def decodeLong (w w1 : Nat) : Except Reject Instr :=
  let op := bits w 21 6
  if op = 0 then readTload .tload w w1
  else if op = 1 then readTload .tloads w w1
  else if op = 2 then guardRsv (bits w 0 1 == 0 && bits w 19 2 == 0 && decide (bits w 1 3 < 5)) (Instr.tloadV (fld 3 w 16) (fld 3 w 13) (fld 5 w 8) (Pol.ofCode (bits w 6 2)) (Order.ofCode (bits w 4 2)) (Scope.ofCode (bits w 1 3)) (fld 5 w1 27) (fld 27 w1 0))
  else if op = 3 then readTload .tstore w w1
  else if op = 4 then guardRsv (bits w 0 1 == 0 && decide (bits w 16 5 < 12) && decide (bits w 1 3 < 5)) (Instr.tstoreAon (TReg.ofCode (bits w 16 5)) (fld 3 w 13) (fld 5 w 8) (Pol.ofCode (bits w 6 2)) (Order.ofCode (bits w 4 2)) (Scope.ofCode (bits w 1 3)) (fld 5 w1 27) (fld 27 w1 0))
  else if op = 5 then guardRsv (bits w 0 1 == 0 && bits w1 27 5 == 0 && bits w 18 3 == 2 && decide (bits w 1 3 < 5)) (Instr.tstorea (fld 2 w 16) (fld 3 w 13) (fld 5 w 8) (Pol.ofCode (bits w 6 2)) (Order.ofCode (bits w 4 2)) (Scope.ofCode (bits w 1 3)) (fld 27 w1 0))
  else if op = 6 then guardRsv (bits w 0 16 == 0 && bits w1 0 32 == 0 && decide (bits w 16 5 < 12)) (Instr.tzero (TReg.ofCode (bits w 16 5)))
  else if op = 7 then guardRsv (bits w 0 6 == 0 && bits w1 0 29 == 0 && bits w 18 3 == 2 && bits w 14 2 == 0 && bits w 9 2 == 0) (Instr.tmma (fld 2 w 16) (fld 3 w 11) (fld 3 w 6) (fld 2 w1 30) (flag w1 29))
  else if op = 8 then guardRsv (bits w 0 6 == 0 && bits w1 0 22 == 0 && bits w1 27 2 == 0 && bits w 18 3 == 2 && bits w 14 2 == 0 && bits w 9 2 == 0 && bits w1 25 2 == 0) (Instr.tmmaSp (fld 2 w 16) (fld 3 w 11) (fld 3 w 6) (fld 3 w1 22) (fld 2 w1 30) (flag w1 29))
  else if op = 9 then guardRsv (bits w 0 11 == 0 && bits w1 0 27 == 0 && bits w 19 2 == 0 && decide (bits w 11 5 < 12)) (Instr.tcvt (fld 3 w 16) (TReg.ofCode (bits w 11 5)) (fld 2 w1 30) (flag w1 29) (fld 2 w1 27))
  else if op = 10 then guardRsv (bits w 0 16 == 0 && bits w1 0 12 == 0 && bits w1 22 10 == 0 && bits w 18 3 == 2) (Instr.tmova (fld 2 w 16) (fld 5 w1 17) (fld 5 w1 12))
  else if op = 11 then guardRsv (bits w 0 16 == 0 && bits w1 0 12 == 0 && bits w1 22 10 == 0 && bits w 19 2 == 0) (Instr.tmovt (fld 3 w 16) (fld 5 w1 17) (fld 5 w1 12))
  else if op = 12 then guardRsv (bits w 0 11 == 0 && bits w1 0 29 == 0 && bits w 19 2 == 0 && bits w 14 2 == 0) (Instr.ttrans (fld 3 w 16) (fld 3 w 11) (fld 2 w1 30) (flag w1 29))
  else if op = 13 then guardRsv (bits w 0 6 == 0 && bits w1 0 32 == 0 && bits w 18 3 == 2 && bits w 13 3 == 2 && bits w 8 3 == 2) (Instr.tadd (fld 2 w 16) (fld 2 w 11) (fld 2 w 6))
  else if op = 14 then guardRsv (bits w 0 11 == 0 && bits w1 0 12 == 0 && bits w1 17 15 == 0 && bits w 18 3 == 2 && bits w 13 3 == 2) (Instr.tscale (fld 2 w 16) (fld 2 w 11) (fld 5 w1 12))
  else if op = 15 then guardRsv (bits w 0 21 == 0 && bits w1 0 32 == 0) (Instr.trel)
  else if op = 16 then guardRsv (bits w 16 2 == 0 && bits w 0 1 == 0 && bits w1 0 32 == 0) (Instr.mset (fld 3 w 18) (fld 5 w 11) (fld 5 w 6) (fld 5 w 1))
  else if op = 17 then guardRsv (bits w 0 1 == 0 && bits w1 0 27 == 0 && decide (bits w 1 3 < 5)) (Instr.put (fld 5 w 16) (fld 5 w 11) (fld 5 w 6) (Pol.ofCode (bits w 4 2)) (Scope.ofCode (bits w 1 3)) (fld 5 w1 27))
  else if op = 18 then guardRsv (bits w 6 5 == 0 && bits w 0 1 == 0 && bits w1 0 27 == 0 && decide (bits w 1 3 < 5)) (Instr.putV (fld 5 w 16) (fld 5 w 11) (Pol.ofCode (bits w 4 2)) (Scope.ofCode (bits w 1 3)) (fld 5 w1 27))
  else if op = 19 then guardRsv (bits w 4 2 == 0 && bits w 0 1 == 0 && decide (bits w 16 5 < 12) && decide (bits w 1 3 < 5)) (Instr.putT (TReg.ofCode (bits w 16 5)) (fld 3 w 13) (fld 5 w 8) (Pol.ofCode (bits w 6 2)) (Scope.ofCode (bits w 1 3)) (fld 5 w1 27) (fld 27 w1 0))
  else if op = 20 then guardRsv (bits w 0 1 == 0 && bits w1 0 22 == 0 && decide (bits w 1 3 < 5)) (Instr.copy (fld 5 w 16) (fld 5 w 11) (fld 5 w 6) (Pol.ofCode (bits w 4 2)) (Scope.ofCode (bits w 1 3)) (fld 5 w1 27) (fld 5 w1 22))
  else if op = 21 then guardRsv (bits w 0 16 == 0 && bits w1 0 32 == 0) (Instr.copyResume (fld 5 w 16))
  else .error .unassigned

/-- Word 0 begins a long instruction (R66, R68). -/
def isLong (w : Nat) : Bool := bits w 27 5 == 24

/-- The instruction of a first word and, for class 24, the word after it (R68). -/
def decodeCpu (w w1 : Nat) : Except Reject Instr :=
  let c := bits w 27 5
  if c = 1 then decodeClass1 w
  else if c = 2 then decodeClass2 w
  else if c = 3 then decodeClass3 w
  else if c = 4 then decodeClass4 w
  else if c = 5 then decodeClass5 w
  else if c = 6 then decodeClass6 w
  else if c = 7 then decodeClass7 w
  else if c = 8 then decodeClass8 w
  else if c = 9 then decodeClass9 w
  else if c = 10 then decodeClass10 w
  else if c = 11 then decodeClass11 w
  else if c = 12 then decodeClass12 w
  else if c = 13 then decodeClass13 w
  else if c = 14 then decodeClass14 w
  else if c = 15 then decodeClass15 w
  else if c = 16 then decodeClass16 w
  else if c = 17 then decodeClass17 w
  else if c = 18 then decodeClass18 w
  else if c = 19 then decodeClass19 w
  else if c = 20 then decodeClass20 w
  else if c = 24 then decodeLong w w1
  else .error .badClass

/-- The instruction of an Event Filter Coprocessor's program word (R352, R354). -/
def decodeEfc (w : Nat) : Except Reject Instr :=
  let op := bits w 26 6
  if op = 0 then guardRsv (bits w 0 26 == 0) (Instr.ehalt)
  else if op = 1 then guardRsv (bits w 17 6 == 0) (Instr.eli (fld 3 w 23) (fld 17 w 0))
  else if op = 2 then readEadd .eadd w
  else if op = 3 then readEaddi .eaddi w
  else if op = 4 then readEadd .esub w
  else if op = 5 then readEadd .eand w
  else if op = 6 then readEaddi .eandi w
  else if op = 7 then readEadd .eor w
  else if op = 8 then readEadd .exor w
  else if op = 9 then readEshr .eshr w
  else if op = 10 then readEshr .eshl w
  else if op = 11 then readEadd .emin w
  else if op = 12 then readEadd .emax w
  else if op = 13 then guardRsv (bits w 7 13 == 0) (Instr.elog2 (fld 3 w 23) (fld 3 w 20) (fld 7 w 0))
  else if op = 14 then readEld .eld w
  else if op = 15 then readEld .est w
  else if op = 16 then guardRsv (bits w 23 3 == 0 && bits w 13 7 == 0) (Instr.ehinc (fld 3 w 20) (fld 13 w 0))
  else if op = 17 then readEld .ecms w
  else if op = 18 then guardRsv (bits w 13 13 == 0) (Instr.esamp (fld 13 w 0))
  else if op = 19 then guardRsv (bits w 23 3 == 0 && bits w 0 20 == 0) (Instr.etrig (fld 3 w 20))
  else if op = 20 then guardRsv (bits w 23 3 == 0 && bits w 9 8 == 0) (Instr.eskip (fld 3 w 20) (fld 3 w 17) (fld 3 w 6) (fld 6 w 0))
  else .error .unassigned

/-- The value of an `Except`, where there is one. -/
def toOption (r : Except Reject Instr) : Option Instr :=
  match r with
  | .ok i => some i
  | .error _ => none

/-- The instruction that a table row's bits decode to: as an instruction of a core, and where the core's decoder
refuses the word, as a program word of an Event Filter Coprocessor. The two instruction sets share words (log 11). -/
def decodeTableWord (nbits w : Nat) : Option Instr :=
  let v := w % 2 ^ (max nbits 64)
  match decodeCpu (v % 2 ^ 32) (v / 2 ^ 32 % 2 ^ 32) with
  | .ok i => some i
  | .error _ => toOption (decodeEfc (v % 2 ^ 32))

/-- The words of an instruction: one word or two of a core, one word of a sorter, or none for a step of the device
itself. -/
inductive Words where
  | one (w : Nat)
  | two (w w1 : Nat)
  | efc (w : Nat)
  | nothing
  deriving DecidableEq, Repr


/-- A word from its fields, lowest first: each field's width and value. -/
def pack : List (Nat × Nat) → Nat
  | [] => 0
  | (n, v) :: rest => v % 2 ^ n + 2 ^ n * pack rest

/-- Word 0 of add, sub, and, or, xor, andn, orn, sll, srl, sra, rol, ror, mul, mulh, mulhn, div, divn, rem, remn, min, max, minn, maxn. -/
def placeAdd (cls op : Nat) (d : Reg) (a : Reg) (b : Reg) (w : Bool) : Nat :=
  pack [(5, 0), (1, w.toNat), (6, op), (5, b.toNat), (5, a.toNat), (5, d.toNat), (5, cls)]

/-- Word 0 of cset. -/
def placeCset (cls op : Nat) (d : Reg) (a : Reg) (b : Reg) (k : BitVec 3) : Nat :=
  pack [(3, k.toNat), (2, 0), (1, 0), (6, op), (5, b.toNat), (5, a.toNat), (5, d.toNat), (5, cls)]

/-- Word 0 of sel. -/
def placeSel (cls op : Nat) (d : Reg) (a : Reg) (b : Reg) (c : Reg) : Nat :=
  pack [(5, c.toNat), (1, 0), (6, op), (5, b.toNat), (5, a.toNat), (5, d.toNat), (5, cls)]

/-- Word 0 of popc, clz, ctz, brev, fnth. -/
def placePopc (cls op : Nat) (d : Reg) (a : Reg) (w : Bool) : Nat :=
  pack [(5, 0), (1, w.toNat), (6, op), (5, 0), (5, a.toNat), (5, d.toNat), (5, cls)]

/-- Word 0 of addi, andi, ori, xori, cseti_eq, cseti_ne, cseti_lt, cseti_ltn, ctrrd, erd. -/
def placeAddi (cls op : Nat) (d : Reg) (a : Reg) (im : BitVec 14) : Nat :=
  pack [(14, im.toNat), (3, op), (5, a.toNat), (5, d.toNat), (5, cls)]

/-- Word 0 of slli, srli, srai, rori. -/
def placeSlli (cls op : Nat) (d : Reg) (a : Reg) (p : BitVec 6) (w : Bool) : Nat :=
  pack [(1, 0), (1, w.toNat), (6, 0), (6, p.toNat), (3, op), (5, a.toNat), (5, d.toNat), (5, cls)]

/-- Word 0 of bext, bexts, bins. -/
def placeBext (cls op : Nat) (d : Reg) (a : Reg) (p : BitVec 6) (l : BitVec 6) : Nat :=
  pack [(2, 0), (6, l.toNat), (6, p.toNat), (3, op), (5, a.toNat), (5, d.toNat), (5, cls)]

/-- Word 0 of lui, lpa. -/
def placeLui (cls op : Nat) (d : Reg) (im : BitVec 21) : Nat :=
  pack [(21, im.toNat), (1, op), (5, d.toNat), (5, cls)]

/-- Word 0 of b_cond. -/
def placeBCond (cls : Nat) (h : BitVec 2) (k : BitVec 3) (a : Reg) (b : Reg) (l : BitVec 12) : Nat :=
  pack [(12, l.toNat), (5, b.toNat), (5, a.toNat), (3, k.toNat), (2, h.toNat), (5, cls)]

/-- Word 0 of jl. -/
def placeJl (cls : Nat) (d : Reg) (off : BitVec 22) : Nat :=
  pack [(22, off.toNat), (5, d.toNat), (5, cls)]

/-- Word 0 of jlr. -/
def placeJlr (cls : Nat) (d : Reg) (a : Reg) (off : BitVec 14) : Nat :=
  pack [(14, off.toNat), (3, 0), (5, a.toNat), (5, d.toNat), (5, cls)]

/-- Word 0 of ld. -/
def placeLd (cls : Nat) (d : Reg) (b : Reg) (pol : Pol) (ord : Order) (sc : Scope) (z : BitVec 2) (x : Bool) (off : BitVec 7) : Nat :=
  pack [(7, off.toNat), (1, x.toNat), (2, z.toNat), (3, sc.code), (2, ord.code), (2, pol.code), (5, b.toNat), (5, d.toNat), (5, cls)]

/-- Word 0 of ldx. -/
def placeLdx (cls op : Nat) (d : Reg) (b : Reg) (pol : Pol) (ord : Order) (sc : Scope) (z : BitVec 2) (x : Bool) (idx : Reg) (c : Bool) : Nat :=
  pack [(1, c.toNat), (1, op), (5, idx.toNat), (1, x.toNat), (2, z.toNat), (3, sc.code), (2, ord.code), (2, pol.code), (5, b.toNat), (5, d.toNat), (5, cls)]

/-- Word 0 of st. -/
def placeSt (cls : Nat) (t : Reg) (b : Reg) (pol : Pol) (ord : Order) (sc : Scope) (z : BitVec 2) (off : BitVec 7) : Nat :=
  pack [(7, off.toNat), (1, 0), (2, z.toNat), (3, sc.code), (2, ord.code), (2, pol.code), (5, b.toNat), (5, t.toNat), (5, cls)]

/-- Word 0 of stx. -/
def placeStx (cls op : Nat) (t : Reg) (b : Reg) (pol : Pol) (ord : Order) (sc : Scope) (z : BitVec 2) (idx : Reg) (c : Bool) : Nat :=
  pack [(1, c.toNat), (1, op), (5, idx.toNat), (1, 0), (2, z.toNat), (3, sc.code), (2, ord.code), (2, pol.code), (5, b.toNat), (5, t.toNat), (5, cls)]

/-- Word 0 of amo_add, amo_and, amo_or, amo_xor, amo_min, amo_max, amo_minn, amo_maxn, amo_swap, cas. -/
def placeAmoAdd (cls op : Nat) (d : Reg) (b : Reg) (pol : Pol) (ord : Order) (sc : Scope) (v : Reg) (w : Bool) : Nat :=
  pack [(1, w.toNat), (4, op), (5, v.toNat), (3, sc.code), (2, ord.code), (2, pol.code), (5, b.toNat), (5, d.toNat), (5, cls)]

/-- Word 0 of fence. -/
def placeFence (cls op : Nat) (ord : Order) (sc : Scope) : Nat :=
  pack [(10, 0), (3, sc.code), (2, ord.code), (7, 0), (2, 0), (3, op), (5, cls)]

/-- Word 0 of pref. -/
def placePref (cls op : Nat) (b : Reg) (pol : Pol) (h : BitVec 3) (off : BitVec 7) : Nat :=
  pack [(7, off.toNat), (3, h.toNat), (5, 0), (2, pol.code), (5, b.toNat), (2, 0), (3, op), (5, cls)]

/-- Word 0 of cwb, cinv. -/
def placeCwb (cls op : Nat) (b : Reg) (off : BitVec 7) : Nat :=
  pack [(7, off.toNat), (10, 0), (5, b.toNat), (2, 0), (3, op), (5, cls)]

/-- Word 0 of vadd, vsub, vmul, vmulh_i, vmulh_n, vmin_i, vmin_n, vmax_i, vmax_n, vand, vor, vxor, vandn, vsll, vsrl, vsra, vadds_i, vadds_n, vsubs_i, vsubs_n, fadd, fsub, fmul, ffma, ffms, fnma, fdiv, fmin, fmax, fscale. -/
def placeVadd (cls op : Nat) (d : Reg) (a : Reg) (b : Reg) (e : BitVec 2) (g : BitVec 3) (z : Bool) : Nat :=
  pack [(1, z.toNat), (3, g.toNat), (2, e.toNat), (6, op), (5, b.toNat), (5, a.toNat), (5, d.toNat), (5, cls)]

/-- Word 0 of vpopc, vclz, vctz, vbrev, vfnth, vabs, fsqrt, fabs, fneg, frcp, frsqrt, fexp2, flog2. -/
def placeVpopc (cls op : Nat) (d : Reg) (a : Reg) (e : BitVec 2) (g : BitVec 3) (z : Bool) : Nat :=
  pack [(1, z.toNat), (3, g.toNat), (2, e.toNat), (6, op), (5, 0), (5, a.toNat), (5, d.toNat), (5, cls)]

/-- Word 0 of vsel. -/
def placeVsel (cls op : Nat) (d : Reg) (a : Reg) (b : Reg) (e : BitVec 2) (g : BitVec 3) : Nat :=
  pack [(1, 0), (3, g.toNat), (2, e.toNat), (6, op), (5, b.toNat), (5, a.toNat), (5, d.toNat), (5, cls)]

/-- Word 0 of vcmp_eq, vcmp_ne, vcmp_lt, vcmp_ge, vcmp_ltn, vcmp_gen, fcmp_eq, fcmp_ne, fcmp_lt, fcmp_le, fcmp_un. -/
def placeVcmpEq (cls op : Nat) (d : BitVec 3) (a : Reg) (b : Reg) (e : BitVec 2) (g : BitVec 3) (z : Bool) : Nat :=
  pack [(1, z.toNat), (3, g.toNat), (2, e.toNat), (6, op), (5, b.toNat), (5, a.toNat), (3, d.toNat), (2, 0), (5, cls)]

/-- Word 0 of fround. -/
def placeFround (cls op : Nat) (d : Reg) (a : Reg) (m : Reg) (e : BitVec 2) (g : BitVec 3) (z : Bool) : Nat :=
  pack [(1, z.toNat), (3, g.toNat), (2, e.toNat), (6, op), (5, m.toNat), (5, a.toNat), (5, d.toNat), (5, cls)]

/-- Word 0 of vcvt. -/
def placeVcvt (cls op : Nat) (d : Reg) (a : Reg) (r : Bool) (dt : BitVec 4) (ty : BitVec 4) (g : BitVec 3) (z : Bool) : Nat :=
  pack [(1, z.toNat), (3, g.toNat), (4, ty.toNat), (4, op), (4, dt.toNat), (1, r.toNat), (5, a.toNat), (5, d.toNat), (5, cls)]

/-- Word 0 of vred. -/
def placeVred (cls op : Nat) (d : Reg) (a : Reg) (k : Reg) (ty : BitVec 4) (g : BitVec 3) : Nat :=
  pack [(1, 0), (3, g.toNat), (4, ty.toNat), (4, op), (5, k.toNat), (5, a.toNat), (5, d.toNat), (5, cls)]

/-- Word 0 of vperm, vslide. -/
def placeVperm (cls op : Nat) (d : Reg) (a : Reg) (b : Reg) (ty : BitVec 4) (g : BitVec 3) (z : Bool) : Nat :=
  pack [(1, z.toNat), (3, g.toNat), (4, ty.toNat), (4, op), (5, b.toNat), (5, a.toNat), (5, d.toNat), (5, cls)]

/-- Word 0 of vcompress. -/
def placeVcompress (cls op : Nat) (d : Reg) (a : Reg) (ty : BitVec 4) (g : BitVec 3) : Nat :=
  pack [(1, 0), (3, g.toNat), (4, ty.toNat), (4, op), (5, 0), (5, a.toNat), (5, d.toNat), (5, cls)]

/-- Word 0 of vexpand, vbcast. -/
def placeVexpand (cls op : Nat) (d : Reg) (a : Reg) (ty : BitVec 4) (g : BitVec 3) (z : Bool) : Nat :=
  pack [(1, z.toNat), (3, g.toNat), (4, ty.toNat), (4, op), (5, 0), (5, a.toNat), (5, d.toNat), (5, cls)]

/-- Word 0 of vins, vext. -/
def placeVins (cls op : Nat) (d : Reg) (a : Reg) (b : Reg) (ty : BitVec 4) : Nat :=
  pack [(4, 0), (4, ty.toNat), (4, op), (5, b.toNat), (5, a.toNat), (5, d.toNat), (5, cls)]

/-- Word 0 of vld, vst. -/
def placeVld (cls op : Nat) (d : Reg) (b : Reg) (pol : Pol) (e : BitVec 2) (g : BitVec 3) (off : BitVec 8) : Nat :=
  pack [(8, off.toNat), (3, g.toNat), (2, op), (2, e.toNat), (2, pol.code), (5, b.toNat), (5, d.toNat), (5, cls)]

/-- Word 0 of vgather, vscatter. -/
def placeVgather (cls op : Nat) (d : Reg) (b : Reg) (pol : Pol) (e : BitVec 2) (g : BitVec 3) (idx : Reg) : Nat :=
  pack [(3, 0), (5, idx.toNat), (3, g.toNat), (2, op), (2, e.toNat), (2, pol.code), (5, b.toNat), (5, d.toNat), (5, cls)]

/-- Word 0 of pand, por, pxor, pandn. -/
def placePand (cls op : Nat) (d : BitVec 3) (a : BitVec 3) (b : BitVec 3) : Nat :=
  pack [(8, 0), (4, op), (3, b.toNat), (2, 0), (3, a.toNat), (2, 0), (3, d.toNat), (2, 0), (5, cls)]

/-- Word 0 of pset. -/
def placePset (cls op : Nat) (d : BitVec 3) (a : Reg) : Nat :=
  pack [(8, 0), (4, op), (5, 0), (5, a.toNat), (3, d.toNat), (2, 0), (5, cls)]

/-- Word 0 of pget. -/
def placePget (cls op : Nat) (d : Reg) (a : BitVec 3) : Nat :=
  pack [(8, 0), (4, op), (5, 0), (3, a.toNat), (2, 0), (5, d.toNat), (5, cls)]

/-- Word 0 of pcnt, pfirst. -/
def placePcnt (cls op : Nat) (d : Reg) (a : BitVec 3) (e : BitVec 2) : Nat :=
  pack [(6, 0), (2, e.toNat), (4, op), (5, 0), (3, a.toNat), (2, 0), (5, d.toNat), (5, cls)]

/-- Word 0 of pwhile. -/
def placePwhile (cls op : Nat) (d : BitVec 3) (a : Reg) (b : Reg) (e : BitVec 2) : Nat :=
  pack [(6, 0), (2, e.toNat), (4, op), (5, b.toNat), (5, a.toNat), (3, d.toNat), (2, 0), (5, cls)]

/-- Word 0 of cwait. -/
def placeCwait (cls op : Nat) (t : Reg) (c : Reg) (sc : Scope) : Nat :=
  pack [(11, 0), (3, sc.code), (3, op), (5, c.toNat), (5, t.toNat), (5, cls)]

/-- Word 0 of ctrset. -/
def placeCtrset (cls op : Nat) (t : Reg) (a : Reg) (im : BitVec 14) : Nat :=
  pack [(14, im.toNat), (3, op), (5, a.toNat), (5, t.toNat), (5, cls)]

/-- Word 0 of tspawn, twake. -/
def placeTspawn (cls op : Nat) (d : Reg) (a : Reg) : Nat :=
  pack [(9, 0), (3, op), (5, 0), (5, a.toNat), (5, d.toNat), (5, cls)]

/-- Word 0 of tyield, texit. -/
def placeTyield (cls op : Nat)  : Nat :=
  pack [(9, 0), (3, op), (15, 0), (5, cls)]

/-- Word 0 of tsleep. -/
def placeTsleep (cls op : Nat) (a : Reg) : Nat :=
  pack [(9, 0), (3, op), (5, 0), (5, a.toNat), (5, 0), (5, cls)]

/-- Word 0 of tprio. -/
def placeTprio (cls op : Nat) (d : Reg) (a : Reg) (b : Reg) : Nat :=
  pack [(9, 0), (3, op), (5, b.toNat), (5, a.toNat), (5, d.toNat), (5, cls)]

/-- Word 0 of svc, brk. -/
def placeSvc (cls op : Nat) (im : BitVec 13) : Nat :=
  pack [(13, im.toNat), (4, op), (10, 0), (5, cls)]

/-- Word 0 of sysrd. -/
def placeSysrd (cls op : Nat) (d : Reg) (n : BitVec 13) : Nat :=
  pack [(13, n.toNat), (4, op), (5, 0), (5, d.toNat), (5, cls)]

/-- Word 0 of syswr. -/
def placeSyswr (cls op : Nat) (t : Reg) (n : BitVec 13) : Nat :=
  pack [(13, n.toNat), (4, op), (5, 0), (5, t.toNat), (5, cls)]

/-- Word 0 of ctxrd. -/
def placeCtxrd (cls op : Nat) (d : Reg) (a : Reg) (n : BitVec 13) : Nat :=
  pack [(13, n.toNat), (4, op), (5, a.toNat), (5, d.toNat), (5, cls)]

/-- Word 0 of ctxwr. -/
def placeCtxwr (cls op : Nat) (t : Reg) (a : Reg) (n : BitVec 13) : Nat :=
  pack [(13, n.toNat), (4, op), (5, a.toNat), (5, t.toNat), (5, cls)]

/-- Word 0 of tret. -/
def placeTret (cls op : Nat) (a : Reg) : Nat :=
  pack [(13, 0), (4, op), (5, a.toNat), (5, 0), (5, cls)]

/-- Word 0 of tredir. -/
def placeTredir (cls op : Nat) (h : Reg) (a : Reg) : Nat :=
  pack [(13, 0), (4, op), (5, a.toNat), (5, h.toNat), (5, cls)]

/-- Word 0 of tlbi_page, tlbi_asn. -/
def placeTlbiPage (cls op kd : Nat) (a : Reg) (sc : Scope) : Nat :=
  pack [(2, kd), (3, sc.code), (8, 0), (4, op), (5, a.toNat), (5, 0), (5, cls)]

/-- Word 0 of tlbi_all. -/
def placeTlbiAll (cls op kd : Nat) (sc : Scope) : Nat :=
  pack [(2, kd), (3, sc.code), (8, 0), (4, op), (5, 0), (5, 0), (5, cls)]

/-- Word 0 of wfm. -/
def placeWfm (cls op : Nat) (d : Reg) : Nat :=
  pack [(13, 0), (4, op), (5, 0), (5, d.toNat), (5, cls)]

/-- Word 0 of tload, tloads, tstore. -/
def placeTload (cls op : Nat) (t : BitVec 3) (m : BitVec 3) (b : Reg) (pol : Pol) (ord : Order) (sc : Scope) : Nat :=
  pack [(1, 0), (3, sc.code), (2, ord.code), (2, pol.code), (5, b.toNat), (3, m.toNat), (3, t.toNat), (2, 0), (6, op), (5, cls)]

/-- Word 1 of tload, tloads, tstore. -/
def placeTload1 (off : BitVec 27) : Nat :=
  pack [(27, off.toNat), (5, 0)]

/-- Word 0 of tload_v. -/
def placeTloadV (cls op : Nat) (t : BitVec 3) (m : BitVec 3) (b : Reg) (pol : Pol) (ord : Order) (sc : Scope) : Nat :=
  pack [(1, 0), (3, sc.code), (2, ord.code), (2, pol.code), (5, b.toNat), (3, m.toNat), (3, t.toNat), (2, 0), (6, op), (5, cls)]

/-- Word 1 of tload_v. -/
def placeTloadV1 (x : Reg) (off : BitVec 27) : Nat :=
  pack [(27, off.toNat), (5, x.toNat)]

/-- Word 0 of tstore_aon. -/
def placeTstoreAon (cls op : Nat) (t : TReg) (m : BitVec 3) (b : Reg) (pol : Pol) (ord : Order) (sc : Scope) : Nat :=
  pack [(1, 0), (3, sc.code), (2, ord.code), (2, pol.code), (5, b.toNat), (3, m.toNat), (5, t.code), (6, op), (5, cls)]

/-- Word 1 of tstore_aon. -/
def placeTstoreAon1 (x : Reg) (off : BitVec 27) : Nat :=
  pack [(27, off.toNat), (5, x.toNat)]

/-- Word 0 of tstorea. -/
def placeTstorea (cls op : Nat) (t : BitVec 2) (m : BitVec 3) (b : Reg) (pol : Pol) (ord : Order) (sc : Scope) : Nat :=
  pack [(1, 0), (3, sc.code), (2, ord.code), (2, pol.code), (5, b.toNat), (3, m.toNat), (2, t.toNat), (3, 2), (6, op), (5, cls)]

/-- Word 1 of tstorea. -/
def placeTstorea1 (off : BitVec 27) : Nat :=
  pack [(27, off.toNat), (5, 0)]

/-- Word 0 of tzero. -/
def placeTzero (cls op : Nat) (t : TReg) : Nat :=
  pack [(16, 0), (5, t.code), (6, op), (5, cls)]

/-- Word 0 of tmma. -/
def placeTmma (cls op : Nat) (t : BitVec 2) (a : BitVec 3) (b : BitVec 3) : Nat :=
  pack [(6, 0), (3, b.toNat), (2, 0), (3, a.toNat), (2, 0), (2, t.toNat), (3, 2), (6, op), (5, cls)]

/-- Word 1 of tmma. -/
def placeTmma1 (e : BitVec 2) (h : Bool) : Nat :=
  pack [(29, 0), (1, h.toNat), (2, e.toNat)]

/-- Word 0 of tmma_sp. -/
def placeTmmaSp (cls op : Nat) (t : BitVec 2) (a : BitVec 3) (b : BitVec 3) : Nat :=
  pack [(6, 0), (3, b.toNat), (2, 0), (3, a.toNat), (2, 0), (2, t.toNat), (3, 2), (6, op), (5, cls)]

/-- Word 1 of tmma_sp. -/
def placeTmmaSp1 (m : BitVec 3) (e : BitVec 2) (h : Bool) : Nat :=
  pack [(22, 0), (3, m.toNat), (2, 0), (2, 0), (1, h.toNat), (2, e.toNat)]

/-- Word 0 of tcvt. -/
def placeTcvt (cls op : Nat) (t : BitVec 3) (a : TReg) : Nat :=
  pack [(11, 0), (5, a.code), (3, t.toNat), (2, 0), (6, op), (5, cls)]

/-- Word 1 of tcvt. -/
def placeTcvt1 (e : BitVec 2) (h : Bool) (tag : BitVec 2) : Nat :=
  pack [(27, 0), (2, tag.toNat), (1, h.toNat), (2, e.toNat)]

/-- Word 0 of tmova. -/
def placeTmova (cls op : Nat) (t : BitVec 2) : Nat :=
  pack [(16, 0), (2, t.toNat), (3, 2), (6, op), (5, cls)]

/-- Word 1 of tmova. -/
def placeTmova1 (v : Reg) (g : Reg) : Nat :=
  pack [(12, 0), (5, g.toNat), (5, v.toNat), (10, 0)]

/-- Word 0 of tmovt. -/
def placeTmovt (cls op : Nat) (t : BitVec 3) : Nat :=
  pack [(16, 0), (3, t.toNat), (2, 0), (6, op), (5, cls)]

/-- Word 1 of tmovt. -/
def placeTmovt1 (v : Reg) (g : Reg) : Nat :=
  pack [(12, 0), (5, g.toNat), (5, v.toNat), (10, 0)]

/-- Word 0 of ttrans. -/
def placeTtrans (cls op : Nat) (t : BitVec 3) (a : BitVec 3) : Nat :=
  pack [(11, 0), (3, a.toNat), (2, 0), (3, t.toNat), (2, 0), (6, op), (5, cls)]

/-- Word 1 of ttrans. -/
def placeTtrans1 (e : BitVec 2) (h : Bool) : Nat :=
  pack [(29, 0), (1, h.toNat), (2, e.toNat)]

/-- Word 0 of tadd. -/
def placeTadd (cls op : Nat) (t : BitVec 2) (a : BitVec 2) (b : BitVec 2) : Nat :=
  pack [(6, 0), (2, b.toNat), (3, 2), (2, a.toNat), (3, 2), (2, t.toNat), (3, 2), (6, op), (5, cls)]

/-- Word 0 of tscale. -/
def placeTscale (cls op : Nat) (t : BitVec 2) (a : BitVec 2) : Nat :=
  pack [(11, 0), (2, a.toNat), (3, 2), (2, t.toNat), (3, 2), (6, op), (5, cls)]

/-- Word 1 of tscale. -/
def placeTscale1 (g : Reg) : Nat :=
  pack [(12, 0), (5, g.toNat), (15, 0)]

/-- Word 0 of trel. -/
def placeTrel (cls op : Nat)  : Nat :=
  pack [(21, 0), (6, op), (5, cls)]

/-- Word 0 of mset. -/
def placeMset (cls op : Nat) (m : BitVec 3) (a : Reg) (b : Reg) (c : Reg) : Nat :=
  pack [(1, 0), (5, c.toNat), (5, b.toNat), (5, a.toNat), (2, 0), (3, m.toNat), (6, op), (5, cls)]

/-- Word 0 of put. -/
def placePut (cls op : Nat) (d : Reg) (a : Reg) (l : Reg) (pol : Pol) (sc : Scope) : Nat :=
  pack [(1, 0), (3, sc.code), (2, pol.code), (5, l.toNat), (5, a.toNat), (5, d.toNat), (6, op), (5, cls)]

/-- Word 1 of put. -/
def placePut1 (c : Reg) : Nat :=
  pack [(27, 0), (5, c.toNat)]

/-- Word 0 of put_v. -/
def placePutV (cls op : Nat) (d : Reg) (v : Reg) (pol : Pol) (sc : Scope) : Nat :=
  pack [(1, 0), (3, sc.code), (2, pol.code), (5, 0), (5, v.toNat), (5, d.toNat), (6, op), (5, cls)]

/-- Word 1 of put_v. -/
def placePutV1 (c : Reg) : Nat :=
  pack [(27, 0), (5, c.toNat)]

/-- Word 0 of put_t. -/
def placePutT (cls op : Nat) (t : TReg) (m : BitVec 3) (b : Reg) (pol : Pol) (sc : Scope) : Nat :=
  pack [(1, 0), (3, sc.code), (2, 0), (2, pol.code), (5, b.toNat), (3, m.toNat), (5, t.code), (6, op), (5, cls)]

/-- Word 1 of put_t. -/
def placePutT1 (x : Reg) (off : BitVec 27) : Nat :=
  pack [(27, off.toNat), (5, x.toNat)]

/-- Word 0 of copy. -/
def placeCopy (cls op : Nat) (r : Reg) (d : Reg) (a : Reg) (pol : Pol) (sc : Scope) : Nat :=
  pack [(1, 0), (3, sc.code), (2, pol.code), (5, a.toNat), (5, d.toNat), (5, r.toNat), (6, op), (5, cls)]

/-- Word 1 of copy. -/
def placeCopy1 (l : Reg) (c : Reg) : Nat :=
  pack [(22, 0), (5, c.toNat), (5, l.toNat)]

/-- Word 0 of copy_resume. -/
def placeCopyResume (cls op : Nat) (r : Reg) : Nat :=
  pack [(16, 0), (5, r.toNat), (6, op), (5, cls)]

/-- Word 0 of ehalt. -/
def placeEhalt (op : Nat)  : Nat :=
  pack [(26, 0), (6, op)]

/-- Word 0 of eli. -/
def placeEli (op : Nat) (d : BitVec 3) (im : BitVec 17) : Nat :=
  pack [(17, im.toNat), (6, 0), (3, d.toNat), (6, op)]

/-- Word 0 of eadd, esub, eand, eor, exor, emin, emax. -/
def placeEadd (op : Nat) (d : BitVec 3) (a : BitVec 3) (b : BitVec 3) : Nat :=
  pack [(17, 0), (3, b.toNat), (3, a.toNat), (3, d.toNat), (6, op)]

/-- Word 0 of eaddi, eandi. -/
def placeEaddi (op : Nat) (d : BitVec 3) (a : BitVec 3) (im : BitVec 17) : Nat :=
  pack [(17, im.toNat), (3, 0), (3, a.toNat), (3, d.toNat), (6, op)]

/-- Word 0 of eshr, eshl. -/
def placeEshr (op : Nat) (d : BitVec 3) (a : BitVec 3) (n : BitVec 6) : Nat :=
  pack [(6, n.toNat), (14, 0), (3, a.toNat), (3, d.toNat), (6, op)]

/-- Word 0 of elog2. -/
def placeElog2 (op : Nat) (d : BitVec 3) (a : BitVec 3) (c : BitVec 7) : Nat :=
  pack [(7, c.toNat), (13, 0), (3, a.toNat), (3, d.toNat), (6, op)]

/-- Word 0 of eld, est, ecms. -/
def placeEld (op : Nat) (d : BitVec 3) (a : BitVec 3) (w : BitVec 13) : Nat :=
  pack [(13, w.toNat), (7, 0), (3, a.toNat), (3, d.toNat), (6, op)]

/-- Word 0 of ehinc. -/
def placeEhinc (op : Nat) (a : BitVec 3) (w : BitVec 13) : Nat :=
  pack [(13, w.toNat), (7, 0), (3, a.toNat), (3, 0), (6, op)]

/-- Word 0 of esamp. -/
def placeEsamp (op : Nat) (w : BitVec 13) : Nat :=
  pack [(13, w.toNat), (13, 0), (6, op)]

/-- Word 0 of etrig. -/
def placeEtrig (op : Nat) (a : BitVec 3) : Nat :=
  pack [(20, 0), (3, a.toNat), (3, 0), (6, op)]

/-- Word 0 of eskip. -/
def placeEskip (op : Nat) (a : BitVec 3) (b : BitVec 3) (k : BitVec 3) (n : BitVec 6) : Nat :=
  pack [(6, n.toNat), (3, k.toNat), (8, 0), (3, b.toNat), (3, a.toNat), (3, 0), (6, op)]

/-- The words of an instruction, from the same layouts (R70, R88-R90, R352). -/
def encode : Instr → Words
  | .add d a b w => .one (placeAdd 1 0 d a b w)
  | .sub d a b w => .one (placeAdd 1 1 d a b w)
  | .and d a b w => .one (placeAdd 1 2 d a b w)
  | .or d a b w => .one (placeAdd 1 3 d a b w)
  | .xor d a b w => .one (placeAdd 1 4 d a b w)
  | .andn d a b w => .one (placeAdd 1 5 d a b w)
  | .orn d a b w => .one (placeAdd 1 6 d a b w)
  | .sll d a b w => .one (placeAdd 1 8 d a b w)
  | .srl d a b w => .one (placeAdd 1 9 d a b w)
  | .sra d a b w => .one (placeAdd 1 0xa d a b w)
  | .rol d a b w => .one (placeAdd 1 0xb d a b w)
  | .ror d a b w => .one (placeAdd 1 0xc d a b w)
  | .mul d a b w => .one (placeAdd 1 0x10 d a b w)
  | .mulh d a b w => .one (placeAdd 1 0x11 d a b w)
  | .mulhn d a b w => .one (placeAdd 1 0x12 d a b w)
  | .div d a b w => .one (placeAdd 1 0x14 d a b w)
  | .divn d a b w => .one (placeAdd 1 0x15 d a b w)
  | .rem d a b w => .one (placeAdd 1 0x16 d a b w)
  | .remn d a b w => .one (placeAdd 1 0x17 d a b w)
  | .min d a b w => .one (placeAdd 1 0x18 d a b w)
  | .max d a b w => .one (placeAdd 1 0x19 d a b w)
  | .minn d a b w => .one (placeAdd 1 0x1a d a b w)
  | .maxn d a b w => .one (placeAdd 1 0x1b d a b w)
  | .cset d a b k => .one (placeCset 1 0x1c d a b k)
  | .sel d a b c => .one (placeSel 1 0x1d d a b c)
  | .popc d a w => .one (placePopc 1 0x20 d a w)
  | .clz d a w => .one (placePopc 1 0x21 d a w)
  | .ctz d a w => .one (placePopc 1 0x22 d a w)
  | .brev d a w => .one (placePopc 1 0x23 d a w)
  | .fnth d a w => .one (placePopc 1 0x24 d a w)
  | .addi d a im => .one (placeAddi 2 0 d a im)
  | .andi d a im => .one (placeAddi 2 1 d a im)
  | .ori d a im => .one (placeAddi 2 2 d a im)
  | .xori d a im => .one (placeAddi 2 3 d a im)
  | .csetiEq d a im => .one (placeAddi 2 4 d a im)
  | .csetiNe d a im => .one (placeAddi 2 5 d a im)
  | .csetiLt d a im => .one (placeAddi 2 6 d a im)
  | .csetiLtn d a im => .one (placeAddi 2 7 d a im)
  | .slli d a p w => .one (placeSlli 3 0 d a p w)
  | .srli d a p w => .one (placeSlli 3 1 d a p w)
  | .srai d a p w => .one (placeSlli 3 2 d a p w)
  | .rori d a p w => .one (placeSlli 3 3 d a p w)
  | .bext d a p l => .one (placeBext 3 4 d a p l)
  | .bexts d a p l => .one (placeBext 3 5 d a p l)
  | .bins d a p l => .one (placeBext 3 6 d a p l)
  | .lui d im => .one (placeLui 4 0 d im)
  | .lpa d im => .one (placeLui 4 1 d im)
  | .bCond h k a b l => .one (placeBCond 5 h k a b l)
  | .jl d off => .one (placeJl 6 d off)
  | .jlr d a off => .one (placeJlr 7 d a off)
  | .ld d b pol ord sc z x off => .one (placeLd 8 d b pol ord sc z x off)
  | .ldx d b pol ord sc z x idx c => .one (placeLdx 0xa 0 d b pol ord sc z x idx c)
  | .st t b pol ord sc z off => .one (placeSt 9 t b pol ord sc z off)
  | .stx t b pol ord sc z idx c => .one (placeStx 0xa 1 t b pol ord sc z idx c)
  | .amoAdd d b pol ord sc v w => .one (placeAmoAdd 0xb 0 d b pol ord sc v w)
  | .amoAnd d b pol ord sc v w => .one (placeAmoAdd 0xb 1 d b pol ord sc v w)
  | .amoOr d b pol ord sc v w => .one (placeAmoAdd 0xb 2 d b pol ord sc v w)
  | .amoXor d b pol ord sc v w => .one (placeAmoAdd 0xb 3 d b pol ord sc v w)
  | .amoMin d b pol ord sc v w => .one (placeAmoAdd 0xb 4 d b pol ord sc v w)
  | .amoMax d b pol ord sc v w => .one (placeAmoAdd 0xb 5 d b pol ord sc v w)
  | .amoMinn d b pol ord sc v w => .one (placeAmoAdd 0xb 6 d b pol ord sc v w)
  | .amoMaxn d b pol ord sc v w => .one (placeAmoAdd 0xb 7 d b pol ord sc v w)
  | .amoSwap d b pol ord sc v w => .one (placeAmoAdd 0xb 8 d b pol ord sc v w)
  | .cas d b pol ord sc v w => .one (placeAmoAdd 0xb 9 d b pol ord sc v w)
  | .fence ord sc => .one (placeFence 0xc 0 ord sc)
  | .pref b pol h off => .one (placePref 0xc 1 b pol h off)
  | .cwb b off => .one (placeCwb 0xc 2 b off)
  | .cinv b off => .one (placeCwb 0xc 3 b off)
  | .vadd d a b e g z => .one (placeVadd 0xd 0 d a b e g z)
  | .vsub d a b e g z => .one (placeVadd 0xd 1 d a b e g z)
  | .vmul d a b e g z => .one (placeVadd 0xd 2 d a b e g z)
  | .vmulhI d a b e g z => .one (placeVadd 0xd 3 d a b e g z)
  | .vmulhN d a b e g z => .one (placeVadd 0xd 4 d a b e g z)
  | .vminI d a b e g z => .one (placeVadd 0xd 5 d a b e g z)
  | .vminN d a b e g z => .one (placeVadd 0xd 6 d a b e g z)
  | .vmaxI d a b e g z => .one (placeVadd 0xd 7 d a b e g z)
  | .vmaxN d a b e g z => .one (placeVadd 0xd 8 d a b e g z)
  | .vand d a b e g z => .one (placeVadd 0xd 9 d a b e g z)
  | .vor d a b e g z => .one (placeVadd 0xd 0xa d a b e g z)
  | .vxor d a b e g z => .one (placeVadd 0xd 0xb d a b e g z)
  | .vandn d a b e g z => .one (placeVadd 0xd 0xc d a b e g z)
  | .vsll d a b e g z => .one (placeVadd 0xd 0xd d a b e g z)
  | .vsrl d a b e g z => .one (placeVadd 0xd 0xe d a b e g z)
  | .vsra d a b e g z => .one (placeVadd 0xd 0xf d a b e g z)
  | .vpopc d a e g z => .one (placeVpopc 0xd 0x10 d a e g z)
  | .vclz d a e g z => .one (placeVpopc 0xd 0x11 d a e g z)
  | .vctz d a e g z => .one (placeVpopc 0xd 0x12 d a e g z)
  | .vbrev d a e g z => .one (placeVpopc 0xd 0x13 d a e g z)
  | .vfnth d a e g z => .one (placeVpopc 0xd 0x14 d a e g z)
  | .vabs d a e g z => .one (placeVpopc 0xd 0x15 d a e g z)
  | .vaddsI d a b e g z => .one (placeVadd 0xd 0x16 d a b e g z)
  | .vaddsN d a b e g z => .one (placeVadd 0xd 0x17 d a b e g z)
  | .vsubsI d a b e g z => .one (placeVadd 0xd 0x18 d a b e g z)
  | .vsubsN d a b e g z => .one (placeVadd 0xd 0x19 d a b e g z)
  | .vsel d a b e g => .one (placeVsel 0xd 0x1a d a b e g)
  | .vcmpEq d a b e g z => .one (placeVcmpEq 0xd 0x20 d a b e g z)
  | .vcmpNe d a b e g z => .one (placeVcmpEq 0xd 0x21 d a b e g z)
  | .vcmpLt d a b e g z => .one (placeVcmpEq 0xd 0x22 d a b e g z)
  | .vcmpGe d a b e g z => .one (placeVcmpEq 0xd 0x23 d a b e g z)
  | .vcmpLtn d a b e g z => .one (placeVcmpEq 0xd 0x24 d a b e g z)
  | .vcmpGen d a b e g z => .one (placeVcmpEq 0xd 0x25 d a b e g z)
  | .fadd d a b e g z => .one (placeVadd 0xe 0 d a b e g z)
  | .fsub d a b e g z => .one (placeVadd 0xe 1 d a b e g z)
  | .fmul d a b e g z => .one (placeVadd 0xe 2 d a b e g z)
  | .ffma d a b e g z => .one (placeVadd 0xe 3 d a b e g z)
  | .ffms d a b e g z => .one (placeVadd 0xe 4 d a b e g z)
  | .fnma d a b e g z => .one (placeVadd 0xe 5 d a b e g z)
  | .fdiv d a b e g z => .one (placeVadd 0xe 6 d a b e g z)
  | .fsqrt d a e g z => .one (placeVpopc 0xe 7 d a e g z)
  | .fmin d a b e g z => .one (placeVadd 0xe 8 d a b e g z)
  | .fmax d a b e g z => .one (placeVadd 0xe 9 d a b e g z)
  | .fabs d a e g z => .one (placeVpopc 0xe 0xa d a e g z)
  | .fneg d a e g z => .one (placeVpopc 0xe 0xb d a e g z)
  | .frcp d a e g z => .one (placeVpopc 0xe 0xc d a e g z)
  | .frsqrt d a e g z => .one (placeVpopc 0xe 0xd d a e g z)
  | .fexp2 d a e g z => .one (placeVpopc 0xe 0xe d a e g z)
  | .flog2 d a e g z => .one (placeVpopc 0xe 0xf d a e g z)
  | .fround d a m e g z => .one (placeFround 0xe 0x10 d a m e g z)
  | .fscale d a b e g z => .one (placeVadd 0xe 0x11 d a b e g z)
  | .fcmpEq d a b e g z => .one (placeVcmpEq 0xe 0x20 d a b e g z)
  | .fcmpNe d a b e g z => .one (placeVcmpEq 0xe 0x21 d a b e g z)
  | .fcmpLt d a b e g z => .one (placeVcmpEq 0xe 0x22 d a b e g z)
  | .fcmpLe d a b e g z => .one (placeVcmpEq 0xe 0x23 d a b e g z)
  | .fcmpUn d a b e g z => .one (placeVcmpEq 0xe 0x24 d a b e g z)
  | .vcvt d a r dt ty g z => .one (placeVcvt 0xf 0 d a r dt ty g z)
  | .vred d a k ty g => .one (placeVred 0xf 1 d a k ty g)
  | .vperm d a b ty g z => .one (placeVperm 0xf 2 d a b ty g z)
  | .vslide d a b ty g z => .one (placeVperm 0xf 3 d a b ty g z)
  | .vcompress d a ty g => .one (placeVcompress 0xf 4 d a ty g)
  | .vexpand d a ty g z => .one (placeVexpand 0xf 5 d a ty g z)
  | .vbcast d a ty g z => .one (placeVexpand 0xf 6 d a ty g z)
  | .vins d a b ty => .one (placeVins 0xf 7 d a b ty)
  | .vext d a b ty => .one (placeVins 0xf 8 d a b ty)
  | .vld d b pol e g off => .one (placeVld 0x10 0 d b pol e g off)
  | .vst d b pol e g off => .one (placeVld 0x10 1 d b pol e g off)
  | .vgather d b pol e g idx => .one (placeVgather 0x10 2 d b pol e g idx)
  | .vscatter d b pol e g idx => .one (placeVgather 0x10 3 d b pol e g idx)
  | .pand d a b => .one (placePand 0x11 0 d a b)
  | .por d a b => .one (placePand 0x11 1 d a b)
  | .pxor d a b => .one (placePand 0x11 2 d a b)
  | .pandn d a b => .one (placePand 0x11 3 d a b)
  | .pset d a => .one (placePset 0x11 4 d a)
  | .pget d a => .one (placePget 0x11 5 d a)
  | .pcnt d a e => .one (placePcnt 0x11 6 d a e)
  | .pfirst d a e => .one (placePcnt 0x11 7 d a e)
  | .pwhile d a b e => .one (placePwhile 0x11 8 d a b e)
  | .cwait t c sc => .one (placeCwait 0x12 0 t c sc)
  | .ctrrd d a im => .one (placeAddi 0x12 1 d a im)
  | .ctrset t a im => .one (placeCtrset 0x12 2 t a im)
  | .erd d a im => .one (placeAddi 0x12 3 d a im)
  | .tspawn d a => .one (placeTspawn 0x13 0 d a)
  | .tyield => .one (placeTyield 0x13 1)
  | .tsleep a => .one (placeTsleep 0x13 2 a)
  | .twake d a => .one (placeTspawn 0x13 3 d a)
  | .texit => .one (placeTyield 0x13 4)
  | .tprio d a b => .one (placeTprio 0x13 5 d a b)
  | .svc im => .one (placeSvc 0x14 0 im)
  | .brk im => .one (placeSvc 0x14 1 im)
  | .sysrd d n => .one (placeSysrd 0x14 2 d n)
  | .syswr t n => .one (placeSyswr 0x14 3 t n)
  | .ctxrd d a n => .one (placeCtxrd 0x14 4 d a n)
  | .ctxwr t a n => .one (placeCtxwr 0x14 5 t a n)
  | .tret a => .one (placeTret 0x14 6 a)
  | .tredir h a => .one (placeTredir 0x14 7 h a)
  | .tlbiPage a sc => .one (placeTlbiPage 0x14 8 0 a sc)
  | .tlbiAsn a sc => .one (placeTlbiPage 0x14 8 1 a sc)
  | .tlbiAll sc => .one (placeTlbiAll 0x14 8 2 sc)
  | .wfm d => .one (placeWfm 0x14 9 d)
  | .tload t m b pol ord sc off => .two (placeTload 0x18 0 t m b pol ord sc) (placeTload1 off)
  | .tloads t m b pol ord sc off => .two (placeTload 0x18 1 t m b pol ord sc) (placeTload1 off)
  | .tloadV t m b pol ord sc x off => .two (placeTloadV 0x18 2 t m b pol ord sc) (placeTloadV1 x off)
  | .tstore t m b pol ord sc off => .two (placeTload 0x18 3 t m b pol ord sc) (placeTload1 off)
  | .tstoreAon t m b pol ord sc x off => .two (placeTstoreAon 0x18 4 t m b pol ord sc) (placeTstoreAon1 x off)
  | .tstorea t m b pol ord sc off => .two (placeTstorea 0x18 5 t m b pol ord sc) (placeTstorea1 off)
  | .tzero t => .two (placeTzero 0x18 6 t) 0
  | .tmma t a b e h => .two (placeTmma 0x18 7 t a b) (placeTmma1 e h)
  | .tmmaSp t a b m e h => .two (placeTmmaSp 0x18 8 t a b) (placeTmmaSp1 m e h)
  | .tcvt t a e h tag => .two (placeTcvt 0x18 9 t a) (placeTcvt1 e h tag)
  | .tmova t v g => .two (placeTmova 0x18 0xa t) (placeTmova1 v g)
  | .tmovt t v g => .two (placeTmovt 0x18 0xb t) (placeTmovt1 v g)
  | .ttrans t a e h => .two (placeTtrans 0x18 0xc t a) (placeTtrans1 e h)
  | .tadd t a b => .two (placeTadd 0x18 0xd t a b) 0
  | .tscale t a g => .two (placeTscale 0x18 0xe t a) (placeTscale1 g)
  | .trel => .two (placeTrel 0x18 0xf) 0
  | .mset m a b c => .two (placeMset 0x18 0x10 m a b c) 0
  | .put d a l pol sc c => .two (placePut 0x18 0x11 d a l pol sc) (placePut1 c)
  | .putV d v pol sc c => .two (placePutV 0x18 0x12 d v pol sc) (placePutV1 c)
  | .putT t m b pol sc x off => .two (placePutT 0x18 0x13 t m b pol sc) (placePutT1 x off)
  | .copy r d a pol sc l c => .two (placeCopy 0x18 0x14 r d a pol sc) (placeCopy1 l c)
  | .copyResume r => .two (placeCopyResume 0x18 0x15 r) 0
  | .ehalt => .efc (placeEhalt 0)
  | .eli d im => .efc (placeEli 1 d im)
  | .eadd d a b => .efc (placeEadd 2 d a b)
  | .eaddi d a im => .efc (placeEaddi 3 d a im)
  | .esub d a b => .efc (placeEadd 4 d a b)
  | .eand d a b => .efc (placeEadd 5 d a b)
  | .eandi d a im => .efc (placeEaddi 6 d a im)
  | .eor d a b => .efc (placeEadd 7 d a b)
  | .exor d a b => .efc (placeEadd 8 d a b)
  | .eshr d a n => .efc (placeEshr 9 d a n)
  | .eshl d a n => .efc (placeEshr 0xa d a n)
  | .emin d a b => .efc (placeEadd 0xb d a b)
  | .emax d a b => .efc (placeEadd 0xc d a b)
  | .elog2 d a c => .efc (placeElog2 0xd d a c)
  | .eld d a w => .efc (placeEld 0xe d a w)
  | .est d a w => .efc (placeEld 0xf d a w)
  | .ehinc a w => .efc (placeEhinc 0x10 a w)
  | .ecms d a w => .efc (placeEld 0x11 d a w)
  | .esamp w => .efc (placeEsamp 0x12 w)
  | .etrig a => .efc (placeEtrig 0x13 a)
  | .eskip a b k n => .efc (placeEskip 0x14 a b k n)
  | .reset => .nothing
  | .trapRecordEnter _ => .nothing
  | .placement _ => .nothing
  | .preemption _ => .nothing
  | .quantumExpiry _ => .nothing
  | .pull _ => .nothing
  | .tileBinding _ => .nothing
  | .exitedWrite _ => .nothing
  | .tenantWindowBoundary _ => .nothing
  | .contextTimeUpdate _ => .nothing
  | .sleepDeadline _ => .nothing
  | .sleepOverflowWalk _ => .nothing
  | .waitTableRecheck _ _ => .nothing
  | .waitOverflowWalk _ => .nothing
  | .engineStart _ => .nothing
  | .tileComplete _ => .nothing
  | .tileStoreDrain _ => .nothing
  | .putTPiece _ => .nothing
  | .storePerform _ => .nothing
  | .putLineSend _ => .nothing
  | .putLineLanded _ _ _ => .nothing
  | .copyTakeUp _ => .nothing
  | .copyBurst _ => .nothing
  | .copyStopMsgEnter _ => .nothing
  | .homeRdt _ => .nothing
  | .homeRdu _ => .nothing
  | .homeRdw _ => .nothing
  | .homeOwn _ => .nothing
  | .homeWrt _ => .nothing
  | .homeWrs _ => .nothing
  | .homeWrw _ => .nothing
  | .homePutLine _ => .nothing
  | .homeAth _ => .nothing
  | .homeWb _ => .nothing
  | .deadLetterAppend _ => .nothing
  | .invalidation _ _ _ => .nothing
  | .recallWord _ _ _ => .nothing
  | .downgrade _ _ _ => .nothing
  | .forwardedRead _ _ _ => .nothing
  | .endingReply _ _ => .nothing
  | .requestAdmission _ => .nothing
  | .switchForward _ _ _ => .nothing
  | .energyRefill _ => .nothing
  | .efcBudgetRefill _ => .nothing
  | .efcTakeRecord _ => .nothing
  | .fotsync _ _ => .nothing
  | .tentsync _ _ => .nothing
  | .coreRelease _ _ => .nothing
  | .attestAppend _ _ => .nothing
  | .attestSign _ => .nothing
  | .attestSignDone _ => .nothing
  | .debugStop _ => .nothing
  | .debugResume _ => .nothing
  | .dbgdataAccess _ _ => .nothing
  | .debugPortAccess _ _ _ => .nothing
  | .linkRetrain _ _ _ => .nothing
  | .linkTrained _ _ => .nothing
  | .coherentLinkDown _ _ => .nothing
  | .farDataReceive _ _ _ => .nothing
  | .farAckReceive _ _ _ => .nothing
  | .farNakReceive _ _ _ => .nothing
  | .farRefuseReceive _ _ _ => .nothing
  | .farTimeout _ _ => .nothing
  | .farAckTimer _ => .nothing
  | .linkLackReceive _ _ _ => .nothing
  | .linkLnakReceive _ _ _ => .nothing
  | .faridWrite _ _ => .nothing
  | .dmaWrite _ _ _ _ => .nothing
  | .dmaRead _ _ _ _ => .nothing
  | .hostMemAccess _ _ _ _ => .nothing
  | .powerBudgetSet _ _ => .nothing
  | .overTemperature _ => .nothing
  | .registerWrite _ _ => .nothing
  | .dispatchCycle _ => .nothing
  | .engineCycle _ => .nothing
  | .farPortDown _ _ => .nothing
  | .hostLinkTrained _ _ _ => .nothing

/-- What the words of an instruction decode to. -/
def decodeWords : Words → Option Instr
  | .one w => toOption (decodeCpu w 0)
  | .two w w1 => toOption (decodeCpu w w1)
  | .efc w => toOption (decodeEfc w)
  | .nothing => none
/-! ## Words the spec writes out, and words laid out from its encoding tables, decoded -/

theorem decode_add : decodeCpu 0x094A6000 0 = .ok (Instr.add 5 5 6 false) := rfl
theorem decode_sub : decodeCpu 0x094C7060 0 = .ok (Instr.sub 5 6 7 true) := rfl
theorem decode_and : decodeCpu 0x094C70A0 0 = .ok (Instr.and 5 6 7 true) := rfl
theorem decode_or : decodeCpu 0x08CA00C0 0 = .ok (Instr.or 3 5 0 false) := rfl
theorem decode_xor : decodeCpu 0x094C7120 0 = .ok (Instr.xor 5 6 7 true) := rfl
theorem decode_andn : decodeCpu 0x094C7160 0 = .ok (Instr.andn 5 6 7 true) := rfl
theorem decode_orn : decodeCpu 0x094C71A0 0 = .ok (Instr.orn 5 6 7 true) := rfl
theorem decode_sll : decodeCpu 0x094C7220 0 = .ok (Instr.sll 5 6 7 true) := rfl
theorem decode_srl : decodeCpu 0x08D28260 0 = .ok (Instr.srl 3 9 8 true) := rfl
theorem decode_sra : decodeCpu 0x08D282A0 0 = .ok (Instr.sra 3 9 8 true) := rfl
theorem decode_rol : decodeCpu 0x094C72E0 0 = .ok (Instr.rol 5 6 7 true) := rfl
theorem decode_ror : decodeCpu 0x094C7320 0 = .ok (Instr.ror 5 6 7 true) := rfl
theorem decode_mul : decodeCpu 0x094A3400 0 = .ok (Instr.mul 5 5 3 false) := rfl
theorem decode_mulh : decodeCpu 0x08CA5440 0 = .ok (Instr.mulh 3 5 5 false) := rfl
theorem decode_mulhn : decodeCpu 0x08CA5480 0 = .ok (Instr.mulhn 3 5 5 false) := rfl
theorem decode_div : decodeCpu 0x08C85500 0 = .ok (Instr.div 3 4 5 false) := rfl
theorem decode_divn : decodeCpu 0x094C7560 0 = .ok (Instr.divn 5 6 7 true) := rfl
theorem decode_rem : decodeCpu 0x08C85580 0 = .ok (Instr.rem 3 4 5 false) := rfl
theorem decode_remn : decodeCpu 0x08C865C0 0 = .ok (Instr.remn 3 4 6 false) := rfl
theorem decode_min : decodeCpu 0x094C7620 0 = .ok (Instr.min 5 6 7 true) := rfl
theorem decode_max : decodeCpu 0x094C7660 0 = .ok (Instr.max 5 6 7 true) := rfl
theorem decode_minn : decodeCpu 0x08C86680 0 = .ok (Instr.minn 3 4 6 false) := rfl
theorem decode_maxn : decodeCpu 0x094C76E0 0 = .ok (Instr.maxn 5 6 7 true) := rfl
theorem decode_cset : decodeCpu 0x08CEA706 0 = .ok (Instr.cset 3 7 10 6) := rfl
theorem decode_sel : decodeCpu 0x08C85746 0 = .ok (Instr.sel 3 4 5 6) := rfl
theorem decode_popc : decodeCpu 0x094C0820 0 = .ok (Instr.popc 5 6 true) := rfl
theorem decode_clz : decodeCpu 0x08CC0840 0 = .ok (Instr.clz 3 6 false) := rfl
theorem decode_ctz : decodeCpu 0x08D208A0 0 = .ok (Instr.ctz 3 9 true) := rfl
theorem decode_brev : decodeCpu 0x08CE08E0 0 = .ok (Instr.brev 3 7 true) := rfl
theorem decode_fnth : decodeCpu 0x08CE0900 0 = .ok (Instr.fnth 3 7 false) := rfl
theorem decode_addi : decodeCpu 0x11083FFF 0 = .ok (Instr.addi 4 4 0x3FFF) := rfl
theorem decode_andi : decodeCpu 0x114C400B 0 = .ok (Instr.andi 5 6 11) := rfl
theorem decode_ori : decodeCpu 0x114A86A0 0 = .ok (Instr.ori 5 5 1696) := rfl
theorem decode_xori : decodeCpu 0x114CC00B 0 = .ok (Instr.xori 5 6 11) := rfl
theorem decode_csetiEq : decodeCpu 0x114D000B 0 = .ok (Instr.csetiEq 5 6 11) := rfl
theorem decode_csetiNe : decodeCpu 0x114D400B 0 = .ok (Instr.csetiNe 5 6 11) := rfl
theorem decode_csetiLt : decodeCpu 0x114D800B 0 = .ok (Instr.csetiLt 5 6 11) := rfl
theorem decode_csetiLtn : decodeCpu 0x114DC00B 0 = .ok (Instr.csetiLtn 5 6 11) := rfl
theorem decode_slli : decodeCpu 0x194C1F02 0 = .ok (Instr.slli 5 6 31 true) := rfl
theorem decode_srli : decodeCpu 0x194C4302 0 = .ok (Instr.srli 5 6 3 true) := rfl
theorem decode_srai : decodeCpu 0x194C8302 0 = .ok (Instr.srai 5 6 3 true) := rfl
theorem decode_rori : decodeCpu 0x194CC302 0 = .ok (Instr.rori 5 6 3 true) := rfl
theorem decode_bext : decodeCpu 0x194D0C1C 0 = .ok (Instr.bext 5 6 12 7) := rfl
theorem decode_bexts : decodeCpu 0x194D4C1C 0 = .ok (Instr.bexts 5 6 12 7) := rfl
theorem decode_bins : decodeCpu 0x194D8310 0 = .ok (Instr.bins 5 6 3 4) := rfl
theorem decode_lui : decodeCpu 0x215FFFF9 0 = .ok (Instr.lui 5 0x1FFFF9) := rfl
theorem decode_lpa : decodeCpu 0x2160000B 0 = .ok (Instr.lpa 5 11) := rfl
theorem decode_bCond : decodeCpu 0x2E480FFC 0 = .ok (Instr.bCond 3 1 4 0 0xFFC) := rfl
theorem decode_jl : decodeCpu 0x303FFFFD 0 = .ok (Instr.jl 0 0x3FFFFD) := rfl
theorem decode_jlr : decodeCpu 0x38020000 0 = .ok (Instr.jlr 0 1 0) := rfl
theorem decode_ld : decodeCpu 0x41452F02 0 = .ok (Instr.ld 5 2 .sis .acq .pkg 3 false 2) := rfl
theorem decode_ldx : decodeCpu 0x51D00325 0 = .ok (Instr.ldx 7 8 .own .plain .ctx 3 false 9 true) := rfl
theorem decode_st : decodeCpu 0x4944CF02 0 = .ok (Instr.st 5 2 .wis .rel .pkg 3 2) := rfl
theorem decode_stx : decodeCpu 0x520E812E 0 = .ok (Instr.stx 8 7 .wis .plain .ctx 1 11 false) := rfl
theorem decode_amoAdd : decodeCpu 0x594E6CC1 0 = .ok (Instr.amoAdd 5 7 .own .ar .pkg 6 true) := rfl
theorem decode_amoAnd : decodeCpu 0x594E8143 0 = .ok (Instr.amoAnd 5 7 .wis .plain .ctx 10 true) := rfl
theorem decode_amoOr : decodeCpu 0x594E8145 0 = .ok (Instr.amoOr 5 7 .wis .plain .ctx 10 true) := rfl
theorem decode_amoXor : decodeCpu 0x594E8147 0 = .ok (Instr.amoXor 5 7 .wis .plain .ctx 10 true) := rfl
theorem decode_amoMin : decodeCpu 0x594E8149 0 = .ok (Instr.amoMin 5 7 .wis .plain .ctx 10 true) := rfl
theorem decode_amoMax : decodeCpu 0x594E814B 0 = .ok (Instr.amoMax 5 7 .wis .plain .ctx 10 true) := rfl
theorem decode_amoMinn : decodeCpu 0x594E814D 0 = .ok (Instr.amoMinn 5 7 .wis .plain .ctx 10 true) := rfl
theorem decode_amoMaxn : decodeCpu 0x594E814F 0 = .ok (Instr.amoMaxn 5 7 .wis .plain .ctx 10 true) := rfl
theorem decode_amoSwap : decodeCpu 0x594E8151 0 = .ok (Instr.amoSwap 5 7 .wis .plain .ctx 10 true) := rfl
theorem decode_cas : decodeCpu 0x594EF0D3 0 = .ok (Instr.cas 5 7 .wis .ar .sys 6 true) := rfl
theorem decode_fence : decodeCpu 0x60006C00 0 = .ok (Instr.fence .ar .pkg) := rfl
theorem decode_pref : decodeCpu 0x610A0182 0 = .ok (Instr.pref 5 .own 3 2) := rfl
theorem decode_cwb : decodeCpu 0x620E0002 0 = .ok (Instr.cwb 7 2) := rfl
theorem decode_cinv : decodeCpu 0x630E0002 0 = .ok (Instr.cinv 7 2) := rfl
theorem decode_vadd : decodeCpu 0x694C7007 0 = .ok (Instr.vadd 5 6 7 0 3 true) := rfl
theorem decode_vsub : decodeCpu 0x694C7047 0 = .ok (Instr.vsub 5 6 7 0 3 true) := rfl
theorem decode_vmul : decodeCpu 0x694C7087 0 = .ok (Instr.vmul 5 6 7 0 3 true) := rfl
theorem decode_vmulhI : decodeCpu 0x694C70C7 0 = .ok (Instr.vmulhI 5 6 7 0 3 true) := rfl
theorem decode_vmulhN : decodeCpu 0x694C7107 0 = .ok (Instr.vmulhN 5 6 7 0 3 true) := rfl
theorem decode_vminI : decodeCpu 0x694C7147 0 = .ok (Instr.vminI 5 6 7 0 3 true) := rfl
theorem decode_vminN : decodeCpu 0x694C7187 0 = .ok (Instr.vminN 5 6 7 0 3 true) := rfl
theorem decode_vmaxI : decodeCpu 0x694C71C7 0 = .ok (Instr.vmaxI 5 6 7 0 3 true) := rfl
theorem decode_vmaxN : decodeCpu 0x694C7207 0 = .ok (Instr.vmaxN 5 6 7 0 3 true) := rfl
theorem decode_vand : decodeCpu 0x694C7247 0 = .ok (Instr.vand 5 6 7 0 3 true) := rfl
theorem decode_vor : decodeCpu 0x694C7287 0 = .ok (Instr.vor 5 6 7 0 3 true) := rfl
theorem decode_vxor : decodeCpu 0x694C72C7 0 = .ok (Instr.vxor 5 6 7 0 3 true) := rfl
theorem decode_vandn : decodeCpu 0x694C7307 0 = .ok (Instr.vandn 5 6 7 0 3 true) := rfl
theorem decode_vsll : decodeCpu 0x694C7347 0 = .ok (Instr.vsll 5 6 7 0 3 true) := rfl
theorem decode_vsrl : decodeCpu 0x694C7387 0 = .ok (Instr.vsrl 5 6 7 0 3 true) := rfl
theorem decode_vsra : decodeCpu 0x694C73C7 0 = .ok (Instr.vsra 5 6 7 0 3 true) := rfl
theorem decode_vpopc : decodeCpu 0x694C0407 0 = .ok (Instr.vpopc 5 6 0 3 true) := rfl
theorem decode_vclz : decodeCpu 0x694C0447 0 = .ok (Instr.vclz 5 6 0 3 true) := rfl
theorem decode_vctz : decodeCpu 0x694C0487 0 = .ok (Instr.vctz 5 6 0 3 true) := rfl
theorem decode_vbrev : decodeCpu 0x694C04C7 0 = .ok (Instr.vbrev 5 6 0 3 true) := rfl
theorem decode_vfnth : decodeCpu 0x694C0507 0 = .ok (Instr.vfnth 5 6 0 3 true) := rfl
theorem decode_vabs : decodeCpu 0x694C0547 0 = .ok (Instr.vabs 5 6 0 3 true) := rfl
theorem decode_vaddsI : decodeCpu 0x690A6595 0 = .ok (Instr.vaddsI 4 5 6 1 2 true) := rfl
theorem decode_vaddsN : decodeCpu 0x690A65D5 0 = .ok (Instr.vaddsN 4 5 6 1 2 true) := rfl
theorem decode_vsubsI : decodeCpu 0x694C7607 0 = .ok (Instr.vsubsI 5 6 7 0 3 true) := rfl
theorem decode_vsubsN : decodeCpu 0x694C7647 0 = .ok (Instr.vsubsN 5 6 7 0 3 true) := rfl
theorem decode_vsel : decodeCpu 0x694C7686 0 = .ok (Instr.vsel 5 6 7 0 3) := rfl
theorem decode_vcmpEq : decodeCpu 0x694C7807 0 = .ok (Instr.vcmpEq 5 6 7 0 3 true) := rfl
theorem decode_vcmpNe : decodeCpu 0x694C7847 0 = .ok (Instr.vcmpNe 5 6 7 0 3 true) := rfl
theorem decode_vcmpLt : decodeCpu 0x694C7887 0 = .ok (Instr.vcmpLt 5 6 7 0 3 true) := rfl
theorem decode_vcmpGe : decodeCpu 0x694C78C7 0 = .ok (Instr.vcmpGe 5 6 7 0 3 true) := rfl
theorem decode_vcmpLtn : decodeCpu 0x694C7907 0 = .ok (Instr.vcmpLtn 5 6 7 0 3 true) := rfl
theorem decode_vcmpGen : decodeCpu 0x694C7947 0 = .ok (Instr.vcmpGen 5 6 7 0 3 true) := rfl
theorem decode_fadd : decodeCpu 0x714C7007 0 = .ok (Instr.fadd 5 6 7 0 3 true) := rfl
theorem decode_fsub : decodeCpu 0x714C7047 0 = .ok (Instr.fsub 5 6 7 0 3 true) := rfl
theorem decode_fmul : decodeCpu 0x714C7087 0 = .ok (Instr.fmul 5 6 7 0 3 true) := rfl
theorem decode_ffma : decodeCpu 0x704430E0 0 = .ok (Instr.ffma 1 2 3 2 0 false) := rfl
theorem decode_ffms : decodeCpu 0x714C7107 0 = .ok (Instr.ffms 5 6 7 0 3 true) := rfl
theorem decode_fnma : decodeCpu 0x714C7147 0 = .ok (Instr.fnma 5 6 7 0 3 true) := rfl
theorem decode_fdiv : decodeCpu 0x714C7187 0 = .ok (Instr.fdiv 5 6 7 0 3 true) := rfl
theorem decode_fsqrt : decodeCpu 0x714C01C7 0 = .ok (Instr.fsqrt 5 6 0 3 true) := rfl
theorem decode_fmin : decodeCpu 0x714C7207 0 = .ok (Instr.fmin 5 6 7 0 3 true) := rfl
theorem decode_fmax : decodeCpu 0x714C7247 0 = .ok (Instr.fmax 5 6 7 0 3 true) := rfl
theorem decode_fabs : decodeCpu 0x714C0287 0 = .ok (Instr.fabs 5 6 0 3 true) := rfl
theorem decode_fneg : decodeCpu 0x714C02C7 0 = .ok (Instr.fneg 5 6 0 3 true) := rfl
theorem decode_frcp : decodeCpu 0x714C0307 0 = .ok (Instr.frcp 5 6 0 3 true) := rfl
theorem decode_frsqrt : decodeCpu 0x714C0347 0 = .ok (Instr.frsqrt 5 6 0 3 true) := rfl
theorem decode_fexp2 : decodeCpu 0x714C0387 0 = .ok (Instr.fexp2 5 6 0 3 true) := rfl
theorem decode_flog2 : decodeCpu 0x714C03C7 0 = .ok (Instr.flog2 5 6 0 3 true) := rfl
theorem decode_fround : decodeCpu 0x714C2407 0 = .ok (Instr.fround 5 6 2 0 3 true) := rfl
theorem decode_fscale : decodeCpu 0x714C7447 0 = .ok (Instr.fscale 5 6 7 0 3 true) := rfl
theorem decode_fcmpEq : decodeCpu 0x714C7807 0 = .ok (Instr.fcmpEq 5 6 7 0 3 true) := rfl
theorem decode_fcmpNe : decodeCpu 0x714C7847 0 = .ok (Instr.fcmpNe 5 6 7 0 3 true) := rfl
theorem decode_fcmpLt : decodeCpu 0x704438A0 0 = .ok (Instr.fcmpLt 1 2 3 2 0 false) := rfl
theorem decode_fcmpLe : decodeCpu 0x714C78C7 0 = .ok (Instr.fcmpLe 5 6 7 0 3 true) := rfl
theorem decode_fcmpUn : decodeCpu 0x714C7907 0 = .ok (Instr.fcmpUn 5 6 7 0 3 true) := rfl
theorem decode_vcvt : decodeCpu 0x784520A0 0 = .ok (Instr.vcvt 1 2 true 2 10 0 false) := rfl
theorem decode_vred : decodeCpu 0x784401A0 0 = .ok (Instr.vred 1 2 0 10 0) := rfl
theorem decode_vperm : decodeCpu 0x794C7287 0 = .ok (Instr.vperm 5 6 7 8 3 true) := rfl
theorem decode_vslide : decodeCpu 0x794C7387 0 = .ok (Instr.vslide 5 6 7 8 3 true) := rfl
theorem decode_vcompress : decodeCpu 0x794C0486 0 = .ok (Instr.vcompress 5 6 8 3) := rfl
theorem decode_vexpand : decodeCpu 0x794C0587 0 = .ok (Instr.vexpand 5 6 8 3 true) := rfl
theorem decode_vbcast : decodeCpu 0x794C0687 0 = .ok (Instr.vbcast 5 6 8 3 true) := rfl
theorem decode_vins : decodeCpu 0x794C7780 0 = .ok (Instr.vins 5 6 7 8) := rfl
theorem decode_vext : decodeCpu 0x794C7880 0 = .ok (Instr.vext 5 6 7 8) := rfl
theorem decode_vld : decodeCpu 0x804A4002 0 = .ok (Instr.vld 1 5 .own 2 0 2) := rfl
theorem decode_vst : decodeCpu 0x814EAB02 0 = .ok (Instr.vst 5 7 .wis 1 3 2) := rfl
theorem decode_vgather : decodeCpu 0x804A5238 0 = .ok (Instr.vgather 1 5 .own 2 2 7) := rfl
theorem decode_vscatter : decodeCpu 0x814EBB58 0 = .ok (Instr.vscatter 5 7 .wis 1 3 11) := rfl
theorem decode_pand : decodeCpu 0x894C7000 0 = .ok (Instr.pand 5 6 7) := rfl
theorem decode_por : decodeCpu 0x894C7100 0 = .ok (Instr.por 5 6 7) := rfl
theorem decode_pxor : decodeCpu 0x894C7200 0 = .ok (Instr.pxor 5 6 7) := rfl
theorem decode_pandn : decodeCpu 0x894C7300 0 = .ok (Instr.pandn 5 6 7) := rfl
theorem decode_pset : decodeCpu 0x894C0400 0 = .ok (Instr.pset 5 6) := rfl
theorem decode_pget : decodeCpu 0x894C0500 0 = .ok (Instr.pget 5 6) := rfl
theorem decode_pcnt : decodeCpu 0x894C0640 0 = .ok (Instr.pcnt 5 6 1) := rfl
theorem decode_pfirst : decodeCpu 0x894C0740 0 = .ok (Instr.pfirst 5 6 1) := rfl
theorem decode_pwhile : decodeCpu 0x884A6880 0 = .ok (Instr.pwhile 1 5 6 2) := rfl
theorem decode_cwait : decodeCpu 0x91161800 0 = .ok (Instr.cwait 4 11 .pkg) := rfl
theorem decode_ctrrd : decodeCpu 0x91684103 0 = .ok (Instr.ctrrd 5 20 0x103) := rfl
theorem decode_ctrset : decodeCpu 0x918E8000 0 = .ok (Instr.ctrset 6 7 0) := rfl
theorem decode_erd : decodeCpu 0x9140C003 0 = .ok (Instr.erd 5 0 3) := rfl
theorem decode_tspawn : decodeCpu 0x994C0000 0 = .ok (Instr.tspawn 5 6) := rfl
theorem decode_tyield : decodeCpu 0x98000200 0 = .ok (Instr.tyield) := rfl
theorem decode_tsleep : decodeCpu 0x980C0400 0 = .ok (Instr.tsleep 6) := rfl
theorem decode_twake : decodeCpu 0x994C0600 0 = .ok (Instr.twake 5 6) := rfl
theorem decode_texit : decodeCpu 0x98000800 0 = .ok (Instr.texit) := rfl
theorem decode_tprio : decodeCpu 0x994C7A00 0 = .ok (Instr.tprio 5 6 7) := rfl
theorem decode_svc : decodeCpu 0xA0000007 0 = .ok (Instr.svc 7) := rfl
theorem decode_brk : decodeCpu 0xA0002000 0 = .ok (Instr.brk 0) := rfl
theorem decode_sysrd : decodeCpu 0xA1404401 0 = .ok (Instr.sysrd 5 0x401) := rfl
theorem decode_syswr : decodeCpu 0xA1406222 0 = .ok (Instr.syswr 5 0x222) := rfl
theorem decode_ctxrd : decodeCpu 0xA1488403 0 = .ok (Instr.ctxrd 5 4 0x403) := rfl
theorem decode_ctxwr : decodeCpu 0xA188A003 0 = .ok (Instr.ctxwr 6 4 3) := rfl
theorem decode_tret : decodeCpu 0xA008C000 0 = .ok (Instr.tret 4) := rfl
theorem decode_tredir : decodeCpu 0xA148E000 0 = .ok (Instr.tredir 5 4) := rfl
theorem decode_tlbiPage : decodeCpu 0xA009000C 0 = .ok (Instr.tlbiPage 4 .pkg) := rfl
theorem decode_tlbiAsn : decodeCpu 0xA00D000D 0 = .ok (Instr.tlbiAsn 6 .pkg) := rfl
theorem decode_tlbiAll : decodeCpu 0xA001000E 0 = .ok (Instr.tlbiAll .pkg) := rfl
theorem decode_wfm : decodeCpu 0xA2812000 0 = .ok (Instr.wfm 10) := rfl
theorem decode_tload : decodeCpu 0xC0032900 0x00001000 = .ok (Instr.tload 3 1 9 .own .plain .ctx 4096) := rfl
theorem decode_tloads : decodeCpu 0xC0220596 0 = .ok (Instr.tloads 2 0 5 .sis .acq .pkg 0) := rfl
theorem decode_tloadV : decodeCpu 0xC0432916 0x60000000 = .ok (Instr.tloadV 3 1 9 .own .acq .pkg 12 0) := rfl
theorem decode_tstore : decodeCpu 0xC0644500 0x00000100 = .ok (Instr.tstore 4 2 5 .own .plain .ctx 256) := rfl
theorem decode_tstoreAon : decodeCpu 0xC0832926 0x60000000 = .ok (Instr.tstoreAon (.t 3) 1 9 .own .rel .pkg 12 0) := rfl
theorem decode_tstorea : decodeCpu 0xC0A94500 0 = .ok (Instr.tstorea 1 2 5 .own .plain .ctx 0) := rfl
theorem decode_tzero : decodeCpu 0xC0CA0000 0 = .ok (Instr.tzero (.a 2)) := rfl
theorem decode_tmma : decodeCpu 0xC0E80040 0 = .ok (Instr.tmma 0 0 1 0 false) := rfl
theorem decode_tmmaSp : decodeCpu 0xC1091100 0xC1800000 = .ok (Instr.tmmaSp 1 2 4 6 3 false) := rfl
theorem decode_tcvt : decodeCpu 0xC1253800 0x80000000 = .ok (Instr.tcvt 5 (.t 7) 2 false 0) := rfl
theorem decode_tmova : decodeCpu 0xC1490000 0x00067000 = .ok (Instr.tmova 1 3 7) := rfl
theorem decode_tmovt : decodeCpu 0xC1610000 0x00067000 = .ok (Instr.tmovt 1 3 7) := rfl
theorem decode_ttrans : decodeCpu 0xC1811000 0x80000000 = .ok (Instr.ttrans 1 2 2 false) := rfl
theorem decode_tadd : decodeCpu 0xC1A84A80 0 = .ok (Instr.tadd 0 1 2) := rfl
theorem decode_tscale : decodeCpu 0xC1C84800 0x00007000 = .ok (Instr.tscale 0 1 7) := rfl
theorem decode_trel : decodeCpu 0xC1E00000 0 = .ok (Instr.trel) := rfl
theorem decode_mset : decodeCpu 0xC204214C 0 = .ok (Instr.mset 1 4 5 6) := rfl
theorem decode_put : decodeCpu 0xC22531D6 0x40000000 = .ok (Instr.put 5 6 7 .wis .pkg 8) := rfl
theorem decode_putV : decodeCpu 0xC2453016 0x40000000 = .ok (Instr.putV 5 6 .wis .pkg 8) := rfl
theorem decode_putT : decodeCpu 0xC2644506 0x40000100 = .ok (Instr.putT (.t 4) 2 5 .own .pkg 8 256) := rfl
theorem decode_copy : decodeCpu 0xC2892988 0x3A000000 = .ok (Instr.copy 9 5 6 .own .sys 7 8) := rfl
theorem decode_copyResume : decodeCpu 0xC2A90000 0 = .ok (Instr.copyResume 9) := rfl
theorem decode_ehalt : decodeEfc 0x00000000 = .ok (Instr.ehalt) := rfl
theorem decode_eli : decodeEfc 0x07000003 = .ok (Instr.eli 6 3) := rfl
theorem decode_eadd : decodeEfc 0x0AEE0000 = .ok (Instr.eadd 5 6 7) := rfl
theorem decode_eaddi : decodeEfc 0x0EE0000B = .ok (Instr.eaddi 5 6 11) := rfl
theorem decode_esub : decodeEfc 0x12EE0000 = .ok (Instr.esub 5 6 7) := rfl
theorem decode_eand : decodeEfc 0x16EE0000 = .ok (Instr.eand 5 6 7) := rfl
theorem decode_eandi : decodeEfc 0x1AE0000B = .ok (Instr.eandi 5 6 11) := rfl
theorem decode_eor : decodeEfc 0x1EEE0000 = .ok (Instr.eor 5 6 7) := rfl
theorem decode_exor : decodeEfc 0x22EE0000 = .ok (Instr.exor 5 6 7) := rfl
theorem decode_eshr : decodeEfc 0x26400020 = .ok (Instr.eshr 4 4 32) := rfl
theorem decode_eshl : decodeEfc 0x2A300020 = .ok (Instr.eshl 4 3 32) := rfl
theorem decode_emin : decodeEfc 0x2EEE0000 = .ok (Instr.emin 5 6 7) := rfl
theorem decode_emax : decodeEfc 0x32EE0000 = .ok (Instr.emax 5 6 7) := rfl
theorem decode_elog2 : decodeEfc 0x3640000F = .ok (Instr.elog2 4 4 15) := rfl
theorem decode_eld : decodeEfc 0x3AE00000 = .ok (Instr.eld 5 6 0) := rfl
theorem decode_est : decodeEfc 0x3EE00000 = .ok (Instr.est 5 6 0) := rfl
theorem decode_ehinc : decodeEfc 0x40400000 = .ok (Instr.ehinc 4 0) := rfl
theorem decode_ecms : decodeEfc 0x46A00400 = .ok (Instr.ecms 5 2 1024) := rfl
theorem decode_esamp : decodeEfc 0x48000000 = .ok (Instr.esamp 0) := rfl
theorem decode_etrig : decodeEfc 0x4C200000 = .ok (Instr.etrig 2) := rfl
theorem decode_eskip : decodeEfc 0x505C0041 = .ok (Instr.eskip 5 6 1 1) := rfl

/-- "an all-zero word is class 0" (R68). -/
theorem decode_zero_refused : decodeCpu 0 0 = .error .badClass := rfl

/-- The all-ones word is illegal (R68, R91). -/
theorem decode_ones_refused : decodeCpu 0xFFFFFFFF 0 = .error .badClass := rfl

/-- "The word 0x08C8_5760, a `sel` with W = 1, raises ILLEGAL_INSTRUCTION" (R187). -/
theorem decode_sel_w_refused : decodeCpu 0x08C85760 0 = .error .reserved := rfl

/-- "an `fnth` with c nonzero" (R187). -/
theorem decode_fnth_c_refused : decodeCpu 0x08CE0901 0 = .error .reserved := rfl

/-- "`fence` with plain ordering and scope .pkg raises ILLEGAL_INSTRUCTION" (R162). -/
theorem decode_fence_plain_refused : decodeCpu 0x60000C00 0 = .error .limit := rfl

/-- "`ld` with size 3 and sign 1, raises ILLEGAL_INSTRUCTION" (R197). -/
theorem decode_ld_sign_refused : decodeCpu 0x414C0380 0 = .error .limit := rfl

end Sys2Proof
end

