-- ==== Sys2Proof/Machine/Schedule.lean ====
section
/-! DEFINITION. What may happen next, and the fetch of a context's next instruction (spec/01 R24, spec/03 R66, R67, R92,
spec/04 R107). Agents of the machine act side by side; where several acts may come next, a free value says which does
(log 7). -/

namespace Sys2Proof.Machine

/-- What may happen next: one of the device's own steps, an instruction of an EFC's run, or another attempt of an
instruction that waits in place. -/
inductive Happening where
  | event (i : Instr)
  | efc (e : Nat)
  | again (c : Nat)
  deriving DecidableEq, Repr

/-- The module of a package works: it has not shut down (R374). -/
def State.works (s : State) (sock : Nat) : Bool := !(s.pkg sock).shutdown

/-- A device's step where a condition holds. -/
def dueIf (b : Bool) (i : Instr) : List Happening := if b then [.event i] else []

/-- Retired stores to perform, and records that have room in their core's queue (R154, R293). -/
def coreDue (k : Nat) (x : Core) : List Happening :=
  dueIf (!x.sbuf.isEmpty) (.storePerform k) ++ dueIf (!x.slots.isEmpty && decide (x.mq.length < 64)) (.trapRecordEnter k)

/-- What an engine can do (R227, R237, R238, R288). -/
def State.engineDue (s : State) (e : Nat) (x : Engine) : List Happening :=
  dueIf (!x.storeq.isEmpty) (.tileStoreDrain e) ++ dueIf (!x.openRows.isEmpty) (.putTPiece e) ++
    dueIf x.running.isSome (.tileComplete e) ++ dueIf (x.running.isNone && (s.nextIssue e).isSome) (.engineStart e)

/-- The service of a message by the home at whose queue, or by the port at which, it is the oldest (R15, R301, R361). -/
def State.serviceDue (s : State) (f : Flight) : List Happening :=
  if !s.oldestHere f || !s.roomAt (s.nextPlace f) f then []
  else match f.req.kind with
    | .putLine => [.event (.homePutLine f.req)]
    | .atH => [.event (.homeAth f.req)]
    | .wb => [.event (.homeWb f.req)]
    | _ => []

/-- The head of a queue of the butterflies goes on where the next queue has room (R295-R298). -/
def State.forwardDue (s : State) (f : Flight) (stage sw out : Nat) : List Happening :=
  if s.headOf (standsIn stage sw out) == some f && s.roomAt (s.nextPlace f) f then [.event (.switchForward stage sw out)] else []

/-- What can become of a message of the butterflies (R295-R301). -/
def State.flightDue (s : State) (f : Flight) : List Happening :=
  match f.place with
  | .waiting _ =>
    if f.classA then s.forwardDue f 0 f.port 0
    else if s.admits f.port == some f then [.event (.requestAdmission f.port)] else []
  | .output stage sw out => s.forwardDue f stage sw out
  | .home => s.serviceDue f
  | .link _ => s.serviceDue f
  | .back stage sw out => s.forwardDue f (7 - stage) sw out
  | .reply =>
    if s.flights.find? (fun g => g.port == f.port && g.place == .reply) == some f then [.event (.endingReply f.port f.cm)] else []

/-- What a cluster's put queue, copy engine and dispatcher can do (R30, R31, R279, R290-R292, R321). -/
def State.clusterDue (s : State) (cl : Nat) (c : Cluster) : List Happening :=
  let pulls := if c.runq.isEmpty then [] else (s.dieMates cl).filter (fun d => s.idle d && (s.pullable d).isSome)
  dueIf (c.putq.any (fun e => !e.pieces.isEmpty)) (.putLineSend cl) ++
    dueIf (!c.copyq.isEmpty && decide (c.copies.length + c.stops.length < 8)) (.copyTakeUp cl) ++
    dueIf (!c.copies.isEmpty) (.copyBurst cl) ++
    dueIf (c.stops.any (fun x => decide ((s.core x.core).mq.length < 64))) (.copyStopMsgEnter cl) ++
    c.recheck.map (fun line => .event (.waitTableRecheck cl line)) ++
    dueIf (s.dueSleeper cl).isSome (.sleepDeadline cl) ++ dueIf (!c.runq.isEmpty && s.canPlace cl) (.placement cl) ++
    dueIf (!c.runq.isEmpty && (s.preempting cl).isSome) (.preemption cl) ++ pulls.map (fun d => .event (.pull d))

/-- A context waits for its turn: in an issue queue, or behind another in the line for a put queue, a copy queue or a tile
store queue (R288-R291). -/
def State.inLine (s : State) (c : Nat) (x : Context) : Bool :=
  let k := s.cluster (clusterOf c)
  (x.stall == .engine && s.queued c) ||
    (x.stall == .message && ((k.putWait.contains c && !isNext k.putWait c) || (k.copyWait.contains c && !isNext k.copyWait c)))

/-- What can become of a context that does not dispatch by itself: its binding completes, its quantum expires, or an
instruction that waits in place is tried again (R32, R35). -/
def State.ctxDue (s : State) (c : Nat) (x : Context) : List Happening :=
  dueIf (s.canBind c) (.tileBinding c) ++
    dueIf (x.life == .running && s.quantumLeft c == 0 && !isX7 c && x.tcb != 0) (.quantumExpiry c) ++
    (if x.life == .running && x.stall != .none && !s.inLine c x && !(x.stall == .retry && decide (s.engineCycles < x.resume)) then
      [.again c]
     else [])

/-- What an EFC can do (R350). A run in progress, and the record's remaining runs, go on with their counts when EN is cleared (DESIGN
CHOICE, log 42). -/
def State.efcDue (s : State) (e : Nat) (x : Efc) : List Happening :=
  if x.run.isSome then [.efc e] else dueIf (s.hasEfc e && x.nextFifo.isSome) (.efcTakeRecord e)

/-- Far timers, and a signature to write (R365, R366, R373). -/
def State.pkgDue (s : State) (sock : Nat) (p : Package) : List Happening :=
  ((p.flowsOut.filter (fun f => s.farLate sock f.1)).map (fun f => .event (.farTimeout sock f.1))) ++
    dueIf (s.ackDue sock).isSome (.farAckTimer sock) ++ dueIf p.signing.isSome (.attestSignDone sock)

/-- The units of a table whose packages work, where n units of one package stand together. -/
def State.working {α : Type} (s : State) (n : Nat) (t : Tbl α) : Tbl α := t.filter (fun e => s.works (e.1 / n))

/-- Everything that may happen beside a dispatch, in packages whose modules work. -/
def State.due (s : State) : List Happening :=
  (s.working 512 s.cores).flatMap (fun e => coreDue e.1 e.2) ++ (s.working 256 s.engines).flatMap (fun e => s.engineDue e.1 e.2) ++
    (s.flights.filter (fun f => s.works (f.port / 512))).flatMap s.flightDue ++
    (s.working 64 s.clusters).flatMap (fun e => s.clusterDue e.1 e.2) ++
    (s.exiting.filter (fun e => s.works (e.cluster / 64) && s.drained e.cluster e.tcb)).map (fun e => .event (.exitedWrite e.tcb)) ++
    (s.working 4096 s.ctxs).flatMap (fun e => s.ctxDue e.1 e.2) ++ (s.working 68 s.efcs).flatMap (fun e => s.efcDue e.1 e.2) ++
    (s.working 1 s.pkgs).flatMap (fun e => s.pkgDue e.1 e.2)

/-- One of the choices 0 to n - 1: the only one, or the one a free value names. -/
def State.pick (s : State) (n : Nat) : Nat × State :=
  if n ≤ 1 then (0, s)
  else
    let (k, s) := s.draw
    ((Config.choice k).toNat % n, s)

/-- The cores that have a ready context, each once. -/
def State.readyCores (s : State) : List Nat :=
  (((s.working 4096 s.ctxs).filter (fun e => s.ready e.1)).map (fun e => coreOf e.1)).eraseDups

/-- The choices at a step: what is due, and a dispatch where a core has a ready context, or where nothing is due. -/
def State.choices (s : State) : Nat :=
  s.due.length + (if s.readyCores.isEmpty && !s.due.isEmpty then 0 else 1)

/-- A dispatch cycle: of a core with a ready context, or, where none has, of the core in turn. -/
def State.beginTurn (s : State) : State :=
  let (k, s) := s.pick s.readyCores.length
  let core := s.readyCores.getD k (coreOf s.cur)
  (s.settle core).dispatchCycle core

/-- Every module has shut down: nothing is left that could act (R374). -/
def State.down (s : State) : Bool := !s.fuses.isEmpty && s.fuses.all (fun f => !s.works f.1)

/-- One word of an instruction (R66, R107): translation for fetch, then a tracked read. A MEMORY_ERROR reports the address
of the instruction word (R67). What a fetch from a populated device page does the spec leaves open, but for the boot ROM: it
is a 4-byte read of the page, which a page that takes 8-byte accesses alone answers with MISALIGNED (DESIGN CHOICE, log
15). -/
def fetchWord (va : Word) : Act (BitVec 32) := do
  let pa ← xlate va .fetch none
  devCheck va pa 4 .fetch .own
  let s ← get
  let x ← (if isDevice pa then do
      let (x, s) := (s.visit s.agent .rdW pa).devRead pa 4
      set s
      pure x
    else liftAt va va (detailOf 3 0 false false false 0 0) 0 (readBytes s.agent .own pa 4 none))
  pure (x.setWidth 32)

/-- WORD1 of TRAPINFO2 (R257). -/
def markWord1 {α : Type} (m : Act α) : Act α := fun s =>
  match m s with
  | .error (.trap t) s => .error (.trap { t with detail := t.detail ||| BitVec.ofNat 20 (2 ^ 16) }) s
  | r => r

/-- The words of the next instruction of the context in turn: one, or two of a long instruction (R67). -/
def fetchWords : Act Unit := do
  modify (fun s => { s with ir0 := 0, ir1 := 0 })
  let s ← get
  let w ← fetchWord s.pc
  modify (fun s => { s with ir0 := w })
  if isLong w.toNat then do
    let v ← markWord1 (fetchWord (s.pc + 4))
    modify (fun s => { s with ir1 := v })
  else pure ()

/-- Word 0 holds the long opcode of a tile instruction: 0-16, or 19 (R86). An unassigned long opcode names no instruction
(DEDUCED, log 30). -/
def isTileWord (w : Nat) : Bool := isLong w && (decide (w / 2 ^ 21 % 64 ≤ 16) || w / 2 ^ 21 % 64 == 19)

/-- ILLEGAL_INSTRUCTION of the words at a PC; of a tile instruction it concerns no row (R91, R229). -/
def illegalOf (pc : Word) (w0 : BitVec 32) : Trap :=
  if isTileWord w0.toNat then { Trap.illegal pc with tile := tileWord 255 0 0 } else Trap.illegal pc

/-- The instruction that the words in hand encode, or the ILLEGAL_INSTRUCTION that they raise (R91, R92). -/
def State.decoded (s : State) : Except State (Instr × State) :=
  match decodeCpu s.ir0.toNat s.ir1.toNat with
  | .ok i => .ok (i, s)
  | .error _ => .error (s.takeTrap s.cur (illegalOf s.pc s.ir0) s.ir0 s.ir1)

/-- What a turn of the context in turn executes: an instruction in a state, or what came of the turn before one was
decoded: the boot ROM, a fetch fault, or ILLEGAL_INSTRUCTION (R67, R91, R92, R372). -/
def State.nextInstr (s : State) : Except State (Instr × State) :=
  if s.atRom then .error s.bootRom
  else match fetchWords s with
    | .ok _ t => t.decoded
    | .error (.trap e) t => .error ((t.restoreMe s).takeTrap s.cur e t.ir0 0)
    | .error _ t => .error t

/-- An instruction that waits in place is tried again: its words are in hand (R338). -/
def State.retried (s : State) (c : Nat) : Except State (Instr × State) :=
  State.decoded { s with cur := c, ir0 := (s.ctx c).iw0, ir1 := (s.ctx c).iw1 }

/-- What an EFC executes next: an instruction, or the end of a run at an illegal word (R350, R354). -/
def State.nextEfc (s : State) (e : Nat) : Except State (Instr × State) :=
  match s.efcWord e with
  | none => .error { s with curEfc := e }
  | some (w, t) =>
    match decodeEfc w.toNat with
    | .ok i => .ok (i, { t with curEfc := e })
    | .error _ => .error (State.efcIllegal { t with curEfc := e })

/-- Where a placed instruction stands when the machine's next context is at its ROM: 1 MiB into HBM. -/
def placeAt : Nat := 0x100000

/-- The context that the next dispatch of the core in turn chooses, at an address outside the ROM. -/
def State.placeCtx (s : State) : State :=
  let t := { s with cur := (s.dispatcher (coreOf s.cur)).getD s.cur }
  if t.atRom then t.modMe (fun x => { x with pc := BitVec.ofNat 64 placeAt }) else t

/-- Bytes of a CPU instruction stored where the machine fetches its next instruction (log 12). -/
def State.placeCpu (s : State) (bytes : List (BitVec 8)) : State :=
  let t := s.placeCtx
  match xlate t.pc .fetch none t with
  | .ok pa u => u.placeBytes pa bytes
  | .error _ _ => t

/-- An EFC instruction as the next word of a run of EFC 0, while X7 waits in `wfm` (log 12). -/
def State.placeEfc (s : State) (w : BitVec 32) : State :=
  let t := s.modEfc 0 (fun x =>
    let y := { x with en := true, slotlen := tset x.slotlen 0 64, prog := tset x.prog 0 w }
    { y with run := some { y.runOf ⟨0, 0, 0, 0⟩ with slots := [0] } })
  t.modMe (fun x => { x with inwfm := true })

/-- The instruction of nbits bits w placed so that the next step runs it: as the CPU's where its decoder accepts it, else
as an EFC's. -/
def State.placeInstr (s : State) (_nbits w : Nat) : State :=
  match decodeCpu (w % 2 ^ 32) (w / 2 ^ 32 % 2 ^ 32) with
  | .ok _ => s.placeCpu (leBytes w 8)
  | .error _ => s.placeEfc (BitVec.ofNat 32 w)

end Sys2Proof.Machine
end

