-- ==== Sys2Proof/Machine/Speculate.lean ====
section
/-! DEFINITION. Execution past unresolved branches and jumps (spec/07 R183): what instructions of a path that proves wrong
leave in caches, word states, translation buffers and the counts of performed work. How many there are, what they access and
where are free values (log 21). -/

namespace Sys2Proof.Machine

/-- The core predicts the instruction and executes past it before it resolves: a branch or a jump (R183). -/
def predicted : Instr → Bool
  | .bCond _ _ _ _ _ => true
  | .jl _ _ => true
  | .jlr _ _ _ => true
  | _ => false

/-- The policy that a free value names. -/
def polOf (n : Nat) : Pol := match n % 4 with | 0 => .own | 1 => .wis | 2 => .sis | _ => .wt

/-- One access of a path that proves wrong: a fetch, a load, a fill for a write under .own, or no more than the translation
that a store makes (R164, R183). Device space is no memory to fill from. -/
def stray (n : Nat) : Act Unit := do
  let va := Config.strayAddress n
  let k := (Config.choice n).toNat
  let pol := polOf k
  match k / 4 % 4 with
  | 0 => do
    let pa ← xlate va .fetch none
    notDevice va pa .fetch none
    let s ← get
    let _ ← lift va 0 0 (clRead s.agent .own (wordOf pa) none)
    pure ()
  | 1 => do
    let pa ← xlate va .read (some pol)
    notDevice va pa .read (some pol)
    let s ← get
    let _ ← lift va 0 0 (clRead s.agent pol (wordOf pa) none)
    pure ()
  | 2 => do
    let _ ← prefLine va .own true
    pure ()
  | _ => do
    let _ ← xlate va .write (some pol)
    pure ()

/-- The state that an access of a wrong path leaves: it writes no register and raises nothing (R183). -/
def State.strayOnce (s : State) : State :=
  let (n, s) := s.draw
  match stray n s with
  | .ok _ t => t.restoreMe s
  | .error _ t => t.restoreMe s

/-- As many accesses of a wrong path as a number says. -/
def strays : Nat → State → State
  | 0, s => s
  | n + 1, s => strays n s.strayOnce

/-- What is executed past a branch or jump of the context in turn on a path that proves wrong: of the instructions that a context
may hold unretired, as many as a free value names (R25, R183). -/
def State.astray (s : State) : State :=
  let (n, s) := s.draw
  strays ((Config.choice n).toNat % 160) s

/-- The outcome of an instruction, with what was executed past it on a wrong path where it is predicted (R183). The path's
accesses come before the instruction retires. -/
def speculate (i : Instr) (s : State) : State := if predicted i then s.astray else s

end Sys2Proof.Machine
end

