-- ==== Sys2Proof/Machine/Step.lean ====
section
/-! DEFINITION. One step: the oldest happening from outside; else one of the happenings that are due; else a dispatch
turn, in which one context fetches, decodes and executes one instruction (log 7). -/

namespace Sys2Proof.Machine

/-- An instruction that was reached, after what was executed past it on a path that proves wrong, or what came instead
(R183). -/
def runNext (n : Except State (Instr × State)) : Host.Outcome State Fault Refusal :=
  match n with
  | .ok p => exec p.1 (speculate p.1 p.2)
  | .error t => .next t

/-- A dispatch turn (R24, R66, R67, R92). -/
def turn (s : State) : Host.Outcome State Fault Refusal :=
  let t := s.beginTurn
  if s.readyCores.isEmpty then .next t else runNext t.nextInstr

/-- A happening that is due. -/
def happen (h : Happening) (s : State) : Host.Outcome State Fault Refusal :=
  match h with
  | .event i => exec i s
  | .efc e => runNext (s.nextEfc e)
  | .again c => runNext (s.retried c)

/-- One act of the machine: the oldest happening from outside, or one of those that may come next. -/
def act (s : State) : Host.Outcome State Fault Refusal :=
  match s.agenda with
  | i :: rest => exec i { s with agenda := rest }
  | [] =>
    let (k, t) := s.pick s.choices
    match s.due[k]? with
    | some h => happen h t
    | none => turn t

/-- An outcome with the accounts of the cores that have passed cycles unseen, and with the copy records as their engines hold
them (R174, R338, R339). -/
def accountFor (s : State) (r : Host.Outcome State Fault Refusal) : Host.Outcome State Fault Refusal :=
  match r with
  | .next t => .next ((t.accounted s).reassert s)
  | r => r

/-- One step of the machine. -/
def step (s : State) : Host.Outcome State Fault Refusal := if s.down then .fault .shutDown else accountFor s (act s)

/-- The state with an instruction placed where the next step fetches it. -/
def State.withFetchWord (s : State) (nbits w : Nat) : State := s.placeInstr nbits w

end Sys2Proof.Machine
end

