-- ==== Sys2Proof/Safety.lean ====
section
/-! DEFINITION. What the statements about the machine speak of: the invariant that every step keeps, runs without a
breakpoint, and what one instruction may touch. -/

namespace Sys2Proof.Machine

/-- The invariant of the machine: memory has its canonical form, every PC is a multiple of 4 (R180), and no message queue
holds more than 64 messages (R293). -/
structure Inv (s : State) : Prop where
  mem : Memory.wf s.mem = true
  pcs : ∀ c, Aligned (s.ctx c).pc
  queues : ∀ k, (s.core k).mq.length ≤ 64

/-- No breakpoint matches the PC of the context in turn (R376). -/
def Clear (s : State) : Prop := s.breakHit s.cur = false

/-- No watchpoint of the core of the context in turn is set (R376). -/
def Unwatched (s : State) : Prop := ∀ accs, s.watchHit s.cur accs = none

/-- The context in turn is X7 and addresses physically (R262). -/
def Physical (s : State) : Prop := s.inX7 = true ∧ (s.core s.myCore).xlat = false

/-- The conditions of `cset`, `cseti` and `b.`cond by code, as R74 lists them. -/
def condHolds (k : BitVec 3) (x y : Word) : Bool :=
  match k.toNat with
  | 0 => decide (x = y)
  | 1 => decide (x ≠ y)
  | 2 => decide (x.toInt < y.toInt)
  | 3 => decide (y.toInt ≤ x.toInt)
  | 4 => decide (x.toNat < y.toNat)
  | 5 => decide (y.toNat ≤ x.toNat)
  | 6 => x.getLsbD (y.toNat % 64)
  | _ => !x.getLsbD (y.toNat % 64)

/-- What a one-word instruction leaves that writes one general register and goes on (R8, R69). -/
def State.wrote (s : State) (d : Reg) (v : Word) : State := (s.writeG d v).retireTo (s.pc + 4)

/-- The same of a vector register and of a predicate register. -/
def State.wroteV (s : State) (d : Reg) (v : Vec) : State := (s.writeV d v).retireTo (s.pc + 4)
def State.wroteP (s : State) (d : BitVec 3) (v : Word) : State := (s.writeP d v).retireTo (s.pc + 4)

/-- An instruction that writes a value to a general register and goes on, wherever no breakpoint stands at its PC. -/
def Yields (i : Instr) (d : Reg) (v : State → Word) : Prop := ∀ s, Clear s → exec i s = .next (s.wrote d (v s))

/-- The same of a vector register, with the floating-point flags it raises, and of a predicate register. -/
def YieldsV (i : Instr) (d : Reg) (v : State → Vec) : Prop := ∀ s, Clear s → exec i s = .next (s.wroteV d (v s))
def YieldsF (i : Instr) (d : Reg) (v : State → Vec × BitVec 5) : Prop :=
  ∀ s, Clear s → exec i s = .next (((s.writeV d (v s).1).raise (v s).2).retireTo (s.pc + 4))
def YieldsP (i : Instr) (d : BitVec 3) (v : State → Word) : Prop := ∀ s, Clear s → exec i s = .next (s.wroteP d (v s))

/-- A scalar function of two registers at 64 bits, and at 32 bits with its result sign-extended (R73, R184). -/
def Alu (mk : Reg → Reg → Reg → Bool → Instr) (f : (n : Nat) → BitVec n → BitVec n → BitVec n) : Prop :=
  ∀ d a b, Yields (mk d a b false) d (fun s => f 64 (s.readG a) (s.readG b)) ∧
    Yields (mk d a b true) d (fun s => (f 32 ((s.readG a).setWidth 32) ((s.readG b).setWidth 32)).signExtend 64)

/-- A scalar function of one register at both widths. -/
def Alu1 (mk : Reg → Reg → Bool → Instr) (f : (n : Nat) → BitVec n → BitVec n) : Prop :=
  ∀ d a, Yields (mk d a false) d (fun s => f 64 (s.readG a)) ∧
    Yields (mk d a true) d (fun s => (f 32 ((s.readG a).setWidth 32)).signExtend 64)

/-- Lane i of a vector at n bits (R200). -/
def laneAt (n : Nat) (v : Vec) (i : Nat) : BitVec n := v.extractLsb' (n * i) n

/-- Lane by lane (R201): an active lane of the new vector is as given; an inactive one is 0 under Z, else the old lane. -/
def LanesAre (n : Nat) (p : Word) (z : Bool) (old new : Vec) (f : Nat → BitVec n) : Prop :=
  ∀ i < 512 / n, laneAt n new i = if p.getLsbD (n / 8 * i) then f i else if z then 0 else laneAt n old i

/-- A vector integer function of the lanes of two registers and of the destination, at every lane width (R205). -/
def VecAlu (mk : Reg → Reg → Reg → BitVec 2 → BitVec 3 → Bool → Instr) (f : (n : Nat) → BitVec n → BitVec n → BitVec n → BitVec n) : Prop :=
  ∀ d a b (e : BitVec 2) g z s, Clear s → ∃ new, exec (mk d a b e g z) s = .next (s.wroteV d new) ∧
    LanesAre (8 * 2 ^ e.toNat) (s.readP g) z (s.readV d) new
      (fun i => f _ (laneAt _ (s.readV a) i) (laneAt _ (s.readV b) i) (laneAt _ (s.readV d) i))

/-- The same of one register. -/
def VecAlu1 (mk : Reg → Reg → BitVec 2 → BitVec 3 → Bool → Instr) (f : (n : Nat) → BitVec n → BitVec n → BitVec n) : Prop :=
  ∀ d a (e : BitVec 2) g z s, Clear s → ∃ new, exec (mk d a e g z) s = .next (s.wroteV d new) ∧
    LanesAre (8 * 2 ^ e.toNat) (s.readP g) z (s.readV d) new (fun i => f _ (laneAt _ (s.readV a) i) (laneAt _ (s.readV d) i))

/-- A vector comparison (R201, R206): every bit of an active lane of the predicate holds the condition; those of an
inactive lane are 0 under Z and kept otherwise. -/
def VecCmp (mk : BitVec 3 → Reg → Reg → BitVec 2 → BitVec 3 → Bool → Instr) (f : (n : Nat) → BitVec n → BitVec n → Bool) : Prop :=
  ∀ d a b (e : BitVec 2) g z s, Clear s → ∃ new : Word, exec (mk d a b e g z) s = .next (s.wroteP d new) ∧
    ∀ j < 64, let n := 8 * 2 ^ e.toNat
      let i := j / 2 ^ e.toNat
      new.getLsbD j = if (s.readP g).getLsbD (2 ^ e.toNat * i) then f n (laneAt n (s.readV a) i) (laneAt n (s.readV b) i)
        else !z && (s.readP d).getLsbD j

/-- The flags that active lanes raise, together (R202). -/
def FlagsAre (n : Nat) (p : Word) (fl : BitVec 5) (f : Nat → BitVec 5) : Prop :=
  ∀ j < 5, (fl.getLsbD j = true ↔ ∃ i < 512 / n, p.getLsbD (n / 8 * i) = true ∧ (f i).getLsbD j = true)

/-- A vector floating-point function of codes, at every format (R207). -/
def VecFloat (mk : Reg → Reg → Reg → BitVec 2 → BitVec 3 → Bool → Instr) (f : Fmt → Mode → Nat → Nat → Nat → Nat × BitVec 5) : Prop :=
  ∀ d a b (e : BitVec 2) g z s, Clear s → let n := 8 * floatBytes e
    let at' := fun i => f (floatFmt e) s.mode (laneAt n (s.readV a) i).toNat (laneAt n (s.readV b) i).toNat (laneAt n (s.readV d) i).toNat
    ∃ new fl, exec (mk d a b e g z) s = .next (((s.writeV d new).raise fl).retireTo (s.pc + 4)) ∧
      LanesAre n (s.readP g) z (s.readV d) new (fun i => BitVec.ofNat n (at' i).1) ∧ FlagsAre n (s.readP g) fl (fun i => (at' i).2)

/-- A floating-point comparison at every format (R210): the lanes of the predicate hold the condition, and NV is raised
for a NaN operand, or for a signalling one alone. -/
def VecFcmp (mk : BitVec 3 → Reg → Reg → BitVec 2 → BitVec 3 → Bool → Instr) (any : Bool) (f : Fpv → Fpv → Bool) : Prop :=
  ∀ d a b (e : BitVec 2) g z s, Clear s → ∃ (new : Word) (fl : BitVec 5),
    exec (mk d a b e g z) s = .next (((s.writeP d new).raise fl).retireTo (s.pc + 4)) ∧
    let x := fun i => (floatFmt e).decode (laneAt (8 * floatBytes e) (s.readV a) i).toNat
    let y := fun i => (floatFmt e).decode (laneAt (8 * floatBytes e) (s.readV b) i).toNat
    (∀ j < 64, let i := j / floatBytes e
      new.getLsbD j = if (s.readP g).getLsbD (floatBytes e * i) then f (x i) (y i) else !z && (s.readP d).getLsbD j) ∧
    FlagsAre (8 * floatBytes e) (s.readP g) fl (fun i =>
      if (if any then (x i).isNan || (y i).isNan else (x i).isSig || (y i).isSig) then fNV else 0)

/-- The fixed binary tree of R213 over 2^n nodes: an absent node leaves its neighbour. -/
def reduceTree {α : Type} (f : α → α → α) : Nat → (Nat → Option α) → Option α
  | 0, x => x 0
  | n + 1, x => reduceTree f n (fun j => match x (2 * j), x (2 * j + 1) with
    | some a, some b => some (f a b)
    | none, b => b
    | a, none => a)

/-- Two values are unordered where one is a NaN (R210). -/
def Fpv.unordered (p q : Fpv) : Bool := p.isNan || q.isNan

/-- The one register that an instruction without accesses writes, and whether it raises floating-point flags. -/
inductive Dest where
  | g (r : Reg)
  | v (r : Reg) (flags : Bool)
  | p (r : BitVec 3) (flags : Bool)
  | nothing
  deriving DecidableEq, Repr

/-- A general, vector or predicate register is the one written; flags are raised. -/
def Dest.isG (x : Dest) (r : Reg) : Bool := x == .g r
def Dest.isV (x : Dest) (r : Reg) : Bool := x == .v r true || x == .v r false
def Dest.isP (x : Dest) (r : BitVec 3) : Bool := x == .p r true || x == .p r false
def Dest.raises : Dest → Bool
  | .v _ f => f
  | .p _ f => f
  | _ => false

/-- The instructions that access no memory, unit or special register, trap on no operand and go on: the arithmetic of
classes 1 to 6, `jl`, and the vector and predicate instructions of classes 13 to 15 and 17. -/
def regDest : Instr → Option Dest
  | .add d _ _ _ => some (.g d)
  | .sub d _ _ _ => some (.g d)
  | .and d _ _ _ => some (.g d)
  | .or d _ _ _ => some (.g d)
  | .xor d _ _ _ => some (.g d)
  | .andn d _ _ _ => some (.g d)
  | .orn d _ _ _ => some (.g d)
  | .sll d _ _ _ => some (.g d)
  | .srl d _ _ _ => some (.g d)
  | .sra d _ _ _ => some (.g d)
  | .rol d _ _ _ => some (.g d)
  | .ror d _ _ _ => some (.g d)
  | .mul d _ _ _ => some (.g d)
  | .mulh d _ _ _ => some (.g d)
  | .mulhn d _ _ _ => some (.g d)
  | .div d _ _ _ => some (.g d)
  | .divn d _ _ _ => some (.g d)
  | .rem d _ _ _ => some (.g d)
  | .remn d _ _ _ => some (.g d)
  | .min d _ _ _ => some (.g d)
  | .max d _ _ _ => some (.g d)
  | .minn d _ _ _ => some (.g d)
  | .maxn d _ _ _ => some (.g d)
  | .cset d _ _ _ => some (.g d)
  | .sel d _ _ _ => some (.g d)
  | .popc d _ _ => some (.g d)
  | .clz d _ _ => some (.g d)
  | .ctz d _ _ => some (.g d)
  | .brev d _ _ => some (.g d)
  | .fnth d _ _ => some (.g d)
  | .addi d _ _ => some (.g d)
  | .andi d _ _ => some (.g d)
  | .ori d _ _ => some (.g d)
  | .xori d _ _ => some (.g d)
  | .csetiEq d _ _ => some (.g d)
  | .csetiNe d _ _ => some (.g d)
  | .csetiLt d _ _ => some (.g d)
  | .csetiLtn d _ _ => some (.g d)
  | .slli d _ _ _ => some (.g d)
  | .srli d _ _ _ => some (.g d)
  | .srai d _ _ _ => some (.g d)
  | .rori d _ _ _ => some (.g d)
  | .bext d _ _ _ => some (.g d)
  | .bexts d _ _ _ => some (.g d)
  | .bins d _ _ _ => some (.g d)
  | .lui d _ => some (.g d)
  | .lpa d _ => some (.g d)
  | .bCond _ _ _ _ _ => some .nothing
  | .jl d _ => some (.g d)
  | .vadd d _ _ _ _ _ => some (.v d false)
  | .vsub d _ _ _ _ _ => some (.v d false)
  | .vmul d _ _ _ _ _ => some (.v d false)
  | .vmulhI d _ _ _ _ _ => some (.v d false)
  | .vmulhN d _ _ _ _ _ => some (.v d false)
  | .vminI d _ _ _ _ _ => some (.v d false)
  | .vminN d _ _ _ _ _ => some (.v d false)
  | .vmaxI d _ _ _ _ _ => some (.v d false)
  | .vmaxN d _ _ _ _ _ => some (.v d false)
  | .vand d _ _ _ _ _ => some (.v d false)
  | .vor d _ _ _ _ _ => some (.v d false)
  | .vxor d _ _ _ _ _ => some (.v d false)
  | .vandn d _ _ _ _ _ => some (.v d false)
  | .vsll d _ _ _ _ _ => some (.v d false)
  | .vsrl d _ _ _ _ _ => some (.v d false)
  | .vsra d _ _ _ _ _ => some (.v d false)
  | .vpopc d _ _ _ _ => some (.v d false)
  | .vclz d _ _ _ _ => some (.v d false)
  | .vctz d _ _ _ _ => some (.v d false)
  | .vbrev d _ _ _ _ => some (.v d false)
  | .vfnth d _ _ _ _ => some (.v d false)
  | .vabs d _ _ _ _ => some (.v d false)
  | .vaddsI d _ _ _ _ _ => some (.v d false)
  | .vaddsN d _ _ _ _ _ => some (.v d false)
  | .vsubsI d _ _ _ _ _ => some (.v d false)
  | .vsubsN d _ _ _ _ _ => some (.v d false)
  | .vsel d _ _ _ _ => some (.v d false)
  | .vcmpEq d _ _ _ _ _ => some (.p d false)
  | .vcmpNe d _ _ _ _ _ => some (.p d false)
  | .vcmpLt d _ _ _ _ _ => some (.p d false)
  | .vcmpGe d _ _ _ _ _ => some (.p d false)
  | .vcmpLtn d _ _ _ _ _ => some (.p d false)
  | .vcmpGen d _ _ _ _ _ => some (.p d false)
  | .fadd d _ _ _ _ _ => some (.v d true)
  | .fsub d _ _ _ _ _ => some (.v d true)
  | .fmul d _ _ _ _ _ => some (.v d true)
  | .ffma d _ _ _ _ _ => some (.v d true)
  | .ffms d _ _ _ _ _ => some (.v d true)
  | .fnma d _ _ _ _ _ => some (.v d true)
  | .fdiv d _ _ _ _ _ => some (.v d true)
  | .fsqrt d _ _ _ _ => some (.v d true)
  | .fmin d _ _ _ _ _ => some (.v d true)
  | .fmax d _ _ _ _ _ => some (.v d true)
  | .fabs d _ _ _ _ => some (.v d true)
  | .fneg d _ _ _ _ => some (.v d true)
  | .frcp d _ _ _ _ => some (.v d true)
  | .frsqrt d _ _ _ _ => some (.v d true)
  | .fexp2 d _ _ _ _ => some (.v d true)
  | .flog2 d _ _ _ _ => some (.v d true)
  | .fround d _ _ _ _ _ => some (.v d true)
  | .fscale d _ _ _ _ _ => some (.v d true)
  | .fcmpEq d _ _ _ _ _ => some (.p d true)
  | .fcmpNe d _ _ _ _ _ => some (.p d true)
  | .fcmpLt d _ _ _ _ _ => some (.p d true)
  | .fcmpLe d _ _ _ _ _ => some (.p d true)
  | .fcmpUn d _ _ _ _ _ => some (.p d true)
  | .vcvt d _ _ _ _ _ _ => some (.v d true)
  | .vred d _ _ _ _ => some (.v d true)
  | .vperm d _ _ _ _ _ => some (.v d false)
  | .vslide d _ _ _ _ _ => some (.v d false)
  | .vcompress d _ _ _ => some (.v d false)
  | .vexpand d _ _ _ _ => some (.v d false)
  | .vbcast d _ _ _ _ => some (.v d false)
  | .vins d _ _ _ => some (.v d false)
  | .vext d _ _ _ => some (.g d)
  | .pand d _ _ => some (.p d false)
  | .por d _ _ => some (.p d false)
  | .pxor d _ _ => some (.p d false)
  | .pandn d _ _ => some (.p d false)
  | .pset d _ => some (.p d false)
  | .pget d _ => some (.g d)
  | .pcnt d _ _ => some (.g d)
  | .pfirst d _ _ => some (.g d)
  | .pwhile d _ _ _ => some (.p d false)
  | _ => none

/-- The state after the retirement of an instruction that changed only registers of the context in turn. -/
def Retired (s t : State) (x : Context) : Prop :=
  t = { s with ctxs := tset s.ctxs s.cur x, ctrs := (s.countCtx s.cur 5).ctrs }

/-- The bytes of a word of memory that an address and a size name, sign- or zero-extended (R73, R122, R195). -/
def loaded (v : Word) (pa n : Nat) (sign : Bool) : Word :=
  let y := v.extractLsb' (8 * (pa % 8)) (8 * n)
  if sign then y.signExtend 64 else y.setWidth 64

/-- An address translates, for an access, without a walk of the page table: physically below 2^52, or by a buffered leaf
that permits the access; and what it names is there (R262, R306, R308). -/
def Maps (s : State) (va : Word) (kind : AccessKind) (pol : Option Pol) (pa : Nat) : Prop :=
  s.backed (s.myCluster / 64) pa = true ∧
    if s.space.phys then va.toNat = pa ∧ pa < 2 ^ 52
    else canonical va = true ∧ ∃ t, s.buffered s.space va kind pol = some t ∧
      pa = entryPa t.leaf + va.toNat % leafSize t.level t.leaf

/-- The word that holds an address stands owned, and without an error of one bit or more, in the cluster of the context in
turn (R101, R126). -/
def Owned (s : State) (pa : Nat) (v : Word) : Prop :=
  let x := s.clWord s.myCluster pa
  x.st = .o ∧ x.bad = false ∧ x.single = false ∧ x.data = v

/-- No retired store of the context in turn and no tile store of its cluster waits to be performed. -/
def Settled (s : State) : Prop :=
  (s.core s.myCore).sbuf.any (fun p => p.ctx == s.cur) = false ∧ ∀ e ∈ s.enginesOf s.myCluster, (s.engine e).storeq = []

/-- An instruction may run to its end: no breakpoint or watchpoint applies, and no access has been noted. -/
def Free (s : State) : Prop := Clear s ∧ Unwatched s ∧ s.accs = []

/-- Nothing of the context in turn waits to be performed, and its cluster holds no buffered byte: a release at any scope
has nothing to wait for (R141). -/
def Drained (s : State) : Prop := Settled s ∧ ∀ pa, (s.clWord s.myCluster pa).st ≠ .b

/-- An access names n bytes within one 4 KiB page of ordinary memory, to which its address translates. -/
def Reaches1 (s : State) (va : Word) (n : Nat) (kind : AccessKind) (pol : Pol) (pa : Nat) : Prop :=
  va.toNat % 4096 + n ≤ 4096 ∧ Maps s va kind (some pol) pa ∧ isDevice pa = false

/-- The home of an address performs a cluster's request for its word by itself: no message is on its way, no error stands in
the word or in a slice cache, no Frame Ownership Table is in force, either socket reaches the other, the line has no stamp, and
neither a directory entry nor a line of the cluster has to leave for it. -/
structure Calm (s : State) (cl pa : Nat) : Prop where
  flights : s.flights = []
  slices : s.slc = []
  errors : tfind s.errs (wordOf pa) = none
  frames : (s.pkg (sockOf pa)).fotbase = 0
  memory : Memory.wf s.mem = true
  reaches : s.joined (cl / 64) (sockOf pa) = true
  reached : s.joined (sockOf pa) (cl / 64) = true
  entries : s.dir.length + s.proxies.length < 15
  lines : (s.cluster cl).clc.length < 15
  stamp : (s.dirOf (lineOf pa)).pmk = none

/-- A word after a write of n of its bytes from byte k (R102, R122). -/
def Stored (old new x : Word) (k n : Nat) : Prop :=
  ∀ i < 64, new.getLsbD i = if 8 * k ≤ i ∧ i < 8 * (k + n) then x.getLsbD (i - 8 * k) else old.getLsbD i

/-- A word of a cluster that it may read or overwrite as it stands: clean, and not owned or buffered (R101). -/
def Clean (y : CacheWord) : Prop := (y.st = .i ∨ y.st = .t ∨ y.st = .u) ∧ y.bad = false ∧ y.single = false

/-- A software table is read as it stands: no message is on its way, no word of memory or of a slice cache has an error, and no
cluster owns a word of it (R126, R127, R392). -/
def Legible (s : State) (pa n : Nat) : Prop :=
  s.flights = [] ∧ s.slc = [] ∧ s.errs = [] ∧ ∀ a, pa ≤ a → a < pa + n → s.ownerOf (wordOf a) = none

/-- A counter that a put or copy names: none for address 0, else an aligned word of ordinary memory (R168). -/
def CounterAt (s : State) (cva : Word) (pol : Pol) (cpa : Nat) : Prop :=
  cva.toNat % 8 = 0 ∧ (cva = 0 → cpa = 0) ∧ (cva ≠ 0 → Maps s cva .atomic (some pol) cpa ∧ isDevice cpa = false)

/-- The operand of `tspawn`, `twake` and `tprio` names a TCB whose header words the cluster owns, of a thread that the
issuer may name (R281). -/
def NamesThread (s : State) (va : Word) (pa : Nat) (hdr : Nat → Word) : Prop :=
  va.toNat % 4096 = 0 ∧ Maps s va .write (some .own) pa ∧ isDevice pa = false ∧
    (∀ k < 12, Owned s (pa + 0xC00 + 8 * k) (hdr k)) ∧ (s.inX7 = true ∨ (hdr 2).setWidth 12 = s.me.tno)

/-- The pieces of a put (R169): its bytes, ascending, cut where lines of 64 bytes end. -/
def PiecesAre (ps : List Piece) (pa : Nat) (bytes : List (BitVec 8)) : Prop :=
  (ps.map (·.bytes)).flatten = bytes ∧ (∀ p ∈ ps, p.bytes ≠ [] ∧ p.pa % 64 + p.bytes.length ≤ 64) ∧
    ∀ k p, ps[k]? = some p → p.pa = pa + ((ps.take k).map (·.bytes.length)).sum

/-- The thread of the context in turn is bound: to binding b of engine e of its cluster, with four accumulators and
eight operand tiles, all different (R35, R224). -/
def BoundAt (s : State) (e b : Nat) : Prop :=
  s.inX7 = false ∧ s.me.tcb ≠ 0 ∧ s.tcbWord s.myCluster s.me.tcb 0xC28 ≠ 0 ∧ s.boundEngine s.cur = some e ∧
    s.holder s.me.tcb = some (e, b) ∧ (s.binding e b).acc.length = 4 ∧ (s.binding e b).opd.length = 8 ∧
    (s.binding e b).acc.Nodup ∧ (s.binding e b).opd.Nodup

/-- A tile instruction retires and leaves its context and memory as they were but for the PC and the flags it raises. -/
def TileRetires (s t : State) (fl : BitVec 5) : Prop :=
  t.pc = pcOf (s.pc + 8) ∧ t.me.g = s.me.g ∧ t.me.v = s.me.v ∧ t.me.p = s.me.p ∧ t.me.m = s.me.m ∧ t.me.fst = s.me.fst ||| fl ∧ t.mem = s.mem

/-- A tile instruction of a binding finds a free physical tile of a kind: no instruction accepted before it waits for one,
and its own context's has none yet (R226). -/
def TileReady (s : State) (e b : Nat) (acc : Bool) : Prop :=
  (∀ i ∈ (s.engine e).issue, i.tile.isSome = true) ∧ (s.engine e).issueOf s.cur = none ∧ ((s.engine e).takeTile acc b).isSome = true

/-- A tile instruction gives one accumulator, and no other tile register, new content (R225); it needs a free physical
tile (R226). -/
def WritesAcc (s : State) (e b : Nat) (i : Instr) (n : BitVec 2) (p : AccTile → BitVec 5 → Prop) : Prop :=
  TileReady s e b true → ∃ t fl, exec i s = .next t ∧ TileRetires s t fl ∧ p (t.accTile e b n) fl ∧
    (∀ k, k ≠ n → t.accTile e b k = s.accTile e b k) ∧ ∀ k, t.opTile e b k = s.opTile e b k

/-- The same of one operand tile. -/
def WritesOpd (s : State) (e b : Nat) (i : Instr) (n : BitVec 3) (p : OpTile → BitVec 5 → Prop) : Prop :=
  TileReady s e b false → ∃ t fl, exec i s = .next t ∧ TileRetires s t fl ∧ p (t.opTile e b n) fl ∧
    (∀ k, k ≠ n → t.opTile e b k = s.opTile e b k) ∧ ∀ k, t.accTile e b k = s.accTile e b k

/-- Element j of row i of an accumulator: s in its low half, c in its high half (R58). -/
def accElem (x : AccTile) (i j : Nat) : Word := (accRow x i).extractLsb' (64 * j) 64

/-- The elements of an accumulator, with the flags that they raise together. -/
def ElemsAre (x : AccTile) (fl : BitVec 5) (f : Nat → Nat → Pair × BitVec 5) : Prop :=
  (∀ i < 64, ∀ j < 64, accElem x i j = BitVec.ofNat 64 (pairCode (f i j).1)) ∧
    ∀ k < 5, (fl.getLsbD k = true ↔ ∃ i < 64, ∃ j < 64, (f i j).2.getLsbD k = true)

/-- The rows that an instruction names by its shape, from an address: ROWS of them, apart by the stride, each of n bytes in
one page of ordinary memory, to which they translate (R222, R231). -/
def RowsAt (s : State) (m : BitVec 3) (va : Word) (n : Nat) (kind : AccessKind) (pol : Pol) (pa : Nat → Nat) : Prop :=
  let h := shapeOf (s.readM m)
  0 < h.rows ∧ h.rows ≤ 64 ∧ (s.readM m).extractLsb' 7 25 = 0 ∧
    ∀ r < h.rows, (rowAddr va h r).toNat % 8 = 0 ∧ Reaches1 s (rowAddr va h r) n kind pol (pa r)

/-- The same of the scale rows, of 16 bytes each, where the shape names a scale plane. -/
def ScalesAt (s : State) (m : BitVec 3) (va : Word) (kind : AccessKind) (pol : Pol) (pa : Nat → Nat) : Prop :=
  let h := shapeOf (s.readM m)
  ∀ r < h.rows, (scaleAddr va h r).toNat % 8 = 0 ∧ Reaches1 s (scaleAddr va h r) 16 kind pol (pa r)

/-- An operand tile holds, word by word, the rows read and, at and above ROWS, zeros (R234). -/
def RowsHold (x : OpTile) (rows : Nat) (v : Nat → Nat → Word) : Prop :=
  ∀ r < 64, ∀ k < 16, (x.row r).extractLsb' (64 * k) 64 = if r < rows then v r k else 0

/-- Its scale rows hold the scale rows read, and records 0x01FC elsewhere. -/
def ScalesHold (x : OpTile) (rows : Nat) (v : Nat → Nat → Word) : Prop :=
  ∀ r < 64, ∀ k < 2, (x.scaleRow r).extractLsb' (64 * k) 64 = if r < rows then v r k else 0x01FC01FC01FC01FC

/-- What follows a run that has ended: the record's next slot that has instructions, from its first, e0-e3 holding the
record and the other registers 0; or nothing (R350). -/
def EfcRun.nextRun (r : EfcRun) (x : Efc) : Option EfcRun :=
  match r.slots.tail.filter (fun k => r.len k != 0) with
  | [] => none
  | ks => some { r with slots := ks, index := 0, began := x.prog,
                        regs := [(0, r.record.w0), (1, r.record.w1), (2, r.record.w2), (3, r.record.w3)] }

/-- A run after an instruction that goes m places on with its registers as given: it ends past its slot's length (R350). -/
def EfcRun.goesOn (r : EfcRun) (x : Efc) (m : Nat) (regs : Tbl Word) : Option EfcRun :=
  if r.len (r.slots.headD 0) ≤ r.index + m then r.nextRun x else some { r with index := r.index + m, regs := regs }

end Sys2Proof.Machine
end

