-- ==== Sys2Proof/Certificates/Slice0/Obligations.lean ====
section
/-! DEFINITION. What the model is claimed to do: one proposition per statement of OBLIGATIONS.json. The predicates they
use stand in Sys2Proof/Safety.lean. -/

open Sys2Proof Sys2Proof.Machine

/-- R185: `add`, `sub`, `mul`, `mulh` and `mulhn` at both widths.

R185: the logical instructions, shifts and rotations, whose count is y modulo N. -/
def Obligations.ScalarArithmetic : Prop :=
  (Alu .add (fun _ x y => x + y) ∧ Alu .sub (fun _ x y => x - y) ∧ Alu .mul (fun _ x y => x * y) ∧
    Alu .mulh (fun n x y => BitVec.ofInt n (x.toInt * y.toInt / 2 ^ n)) ∧
    Alu .mulhn (fun n x y => BitVec.ofNat n (x.toNat * y.toNat / 2 ^ n))) ∧
  (Alu .and (fun _ x y => x &&& y) ∧ Alu .or (fun _ x y => x ||| y) ∧ Alu .xor (fun _ x y => x ^^^ y) ∧
    Alu .andn (fun _ x y => x &&& ~~~ y) ∧ Alu .orn (fun _ x y => x ||| ~~~ y) ∧
    Alu .sll (fun n x y => x <<< (y.toNat % n)) ∧ Alu .srl (fun n x y => x >>> (y.toNat % n)) ∧
    Alu .sra (fun n x y => x.sshiftRight (y.toNat % n)) ∧ Alu .rol (fun _ x y => x.rotateLeft y.toNat) ∧
    Alu .ror (fun _ x y => x.rotateRight y.toNat))

/-- R186: division by zero answers all ones and the dividend; otherwise the quotient is truncated towards zero and the
remainder has the sign of the dividend, modulo 2^N. -/
def Obligations.DivisionNeverTraps : Prop :=
  Alu .div (fun n x y => if y = 0 then BitVec.allOnes n else BitVec.ofInt n (Int.tdiv x.toInt y.toInt)) ∧
    Alu .rem (fun n x y => if y = 0 then x else BitVec.ofInt n (Int.tmod x.toInt y.toInt)) ∧
    Alu .divn (fun n x y => if y = 0 then BitVec.allOnes n else BitVec.ofNat n (x.toNat / y.toNat)) ∧
    Alu .remn (fun n x y => if y = 0 then x else BitVec.ofNat n (x.toNat % y.toNat))

/-- R185, R187, R188: minimum and maximum, the conditions, and selection.

R185: the bit counts, the reversal, and the position of the set bit with k set bits below it, N where there is none;
for `fnth` k is the destination's old value. -/
def Obligations.ComparisonsAndBitCounts : Prop :=
  (Alu .min (fun _ x y => if x.toInt ≤ y.toInt then x else y) ∧ Alu .max (fun _ x y => if y.toInt ≤ x.toInt then x else y) ∧
    Alu .minn (fun _ x y => if x.toNat ≤ y.toNat then x else y) ∧ Alu .maxn (fun _ x y => if y.toNat ≤ x.toNat then x else y) ∧
    (∀ d a b k, Yields (.cset d a b k) d (fun s => if condHolds k (s.readG a) (s.readG b) then 1 else 0)) ∧
    (∀ d a b c, Yields (.sel d a b c) d (fun s => if s.readG c = 0 then s.readG b else s.readG a)) ∧
    (∀ d a im, Yields (.csetiEq d a im) d (fun s => if s.readG a = im.signExtend 64 then 1 else 0)) ∧
    (∀ d a im, Yields (.csetiNe d a im) d (fun s => if s.readG a = im.signExtend 64 then 0 else 1)) ∧
    (∀ d a im, Yields (.csetiLt d a im) d (fun s => if (s.readG a).toInt < (im.signExtend 64).toInt then 1 else 0)) ∧
    (∀ d a im, Yields (.csetiLtn d a im) d (fun s => if (s.readG a).toNat < im.toNat then 1 else 0))) ∧
  (Alu1 .popc (fun n x => BitVec.ofNat n ((List.range n).countP (fun i => x.getLsbD i))) ∧
    Alu1 .clz (fun n x => BitVec.ofNat n (((List.range n).find? (fun i => x.getLsbD (n - 1 - i))).getD n)) ∧
    Alu1 .ctz (fun n x => BitVec.ofNat n (((List.range n).find? (fun i => x.getLsbD i)).getD n)) ∧
    Alu1 .brev (fun _ x => x.reverse) ∧
    (∀ d a, Yields (.fnth d a false) d (fun s =>
      BitVec.ofNat 64 (((List.range 64).filter (fun i => (s.readG a).getLsbD i)).getD (s.readG d).toNat 64))) ∧
    (∀ d a, Yields (.fnth d a true) d (fun s =>
      BitVec.ofNat 64 (((List.range 32).filter (fun i => (s.readG a).getLsbD i)).getD (s.readG d).toNat 32))))

/-- R188-R190: immediates, shifts by an immediate, bit fields and upper immediates. -/
def Obligations.ImmediatesAndBitFields : Prop :=
  (∀ d a im, Yields (.addi d a im) d (fun s => s.readG a + im.signExtend 64)) ∧
    (∀ d a im, Yields (.andi d a im) d (fun s => s.readG a &&& im.setWidth 64)) ∧
    (∀ d a im, Yields (.ori d a im) d (fun s => s.readG a ||| im.setWidth 64)) ∧
    (∀ d a im, Yields (.xori d a im) d (fun s => s.readG a ^^^ im.setWidth 64)) ∧
    (∀ p : BitVec 6, Alu1 (fun d a w => .slli d a p w) (fun n x => x <<< (p.toNat % n))) ∧
    (∀ p : BitVec 6, Alu1 (fun d a w => .srli d a p w) (fun n x => x >>> (p.toNat % n))) ∧
    (∀ p : BitVec 6, Alu1 (fun d a w => .srai d a p w) (fun n x => x.sshiftRight (p.toNat % n))) ∧
    (∀ p : BitVec 6, Alu1 (fun d a w => .rori d a p w) (fun _ x => x.rotateRight p.toNat)) ∧
    (∀ d a p l, Yields (.bext d a p l) d (fun s => ((s.readG a).extractLsb' p.toNat (l.toNat + 1)).setWidth 64)) ∧
    (∀ d a p l, Yields (.bexts d a p l) d (fun s => ((s.readG a).extractLsb' p.toNat (l.toNat + 1)).signExtend 64)) ∧
    (∀ d a p l s, Clear s → p.toNat + l.toNat + 1 ≤ 64 → ∃ v, exec (.bins d a p l) s = .next (s.wrote d v) ∧
      ∀ i < 64, v.getLsbD i = if p.toNat ≤ i ∧ i ≤ p.toNat + l.toNat then (s.readG a).getLsbD (i - p.toNat) else (s.readG d).getLsbD i) ∧
    (∀ d im, Yields (.lui d im) d (fun _ => im.signExtend 64 <<< 14)) ∧
    (∀ d im, Yields (.lpa d im) d (fun s => s.pc + 4 * im.signExtend 64))

/-- R191-R193: a branch that is taken goes to PC + 4 × offset; `jl` and `jlr` leave PC + 4 in g[d]; `jlr` raises
MISALIGNED for a target that is no multiple of 4, with that target in TRAPVA. That its TRAPINFO2 is 0 is the model's reading
(log 25). -/
def Obligations.BranchesAndJumps : Prop :=
  (∀ h k a b l s, Clear s → exec (.bCond h k a b l) s = .next
      (s.retireTo (s.pc + if condHolds k (s.readG a) (s.readG b) then 4 * (h ++ l).signExtend 64 else 4))) ∧
    (∀ d off s, Clear s → exec (.jl d off) s = .next ((s.writeG d (s.pc + 4)).retireTo (s.pc + 4 * off.signExtend 64))) ∧
    (∀ d a off s, Clear s → (s.readG a + off.signExtend 64).toNat % 4 = 0 → exec (.jlr d a off) s =
      .next ((s.writeG d (s.pc + 4)).retireTo (s.readG a + off.signExtend 64))) ∧
    (∀ d a off s, (s.readG a + off.signExtend 64).toNat % 4 ≠ 0 → exec (.jlr d a off) s =
      .next (s.takeTrap s.cur (Trap.of .misaligned (s.readG a + off.signExtend 64) 0) s.ir0 s.ir1))

/-- R69, R180: g0 reads 0 whatever was written to it, and p0 reads all ones; any other register reads what was written to
it, and no other register changes. -/
def Obligations.HardWiredRegisters : Prop :=
  ∀ (s : State) (r q : Reg) (v : Word) (m n : BitVec 3) (w : Word),
    s.readG 0 = 0 ∧ s.readP 0 = BitVec.allOnes 64 ∧ s.writeG 0 v = s.writeG 0 0 ∧ s.writeP 0 w = s.writeP 0 0 ∧
      (s.writeG r v).readG q = (if q = 0 then 0 else if q = r then v else s.readG q) ∧
      (s.writeP m w).readP n = (if n = 0 then BitVec.allOnes 64 else if n = m then w else s.readP n)

/-- R8, R69, R185, R331: every instruction of `regDest` goes on wherever no breakpoint stands at its PC, and leaves all but
its destination register, the flags of a floating-point instruction, PC and RETIRED as they were.

R376: an instruction at whose PC a breakpoint of its core is set does not retire; the match is traced and BREAKPOINT
taken in its place. -/
def Obligations.RegisterOnlyFrame : Prop :=
  (∀ (i : Instr) (dest : Dest) (s : State), regDest i = some dest → Clear s → ∃ t x, exec i s = .next t ∧ Retired s t x ∧
    x = { s.me with g := x.g, v := x.v, p := x.p, fst := x.fst, pc := x.pc, stall := .none, attempt := 0 } ∧
    (∀ r, dest.isG r = false → t.readG r = s.readG r) ∧ (∀ r, dest.isV r = false → t.readV r = s.readV r) ∧
    (∀ r, dest.isP r = false → t.readP r = s.readP r) ∧ (dest.raises = false → x.fst = s.me.fst) ∧
    x.fst &&& s.me.fst = s.me.fst ∧ (∀ a, memByte t.mem a = memByte s.mem a)) ∧
  (∀ (i : Instr) (dest : Dest) (s : State), regDest i = some dest → s.breakHit s.cur = true →
    exec i s = .next ((s.trace 1 s.cur s.pc 0 0).takeBreak s.cur (Trap.of .breakpoint s.pc 0) s.ir0 s.ir1))

/-- R26, R256, R257, R261: a fault or trap parks a user context at its instruction with the trap registers written and
nothing else of it changed, leaves every other user context alone, and sends X7 a trap record, which wakes it from
`wfm`.

R262: X7 with NEST clear saves its PC in SVEPC, sets NEST and goes on at SVEC with its trap registers written; with
NEST set it parks STOP at its instruction. Nothing of memory changes. -/
def Obligations.TakingATrap : Prop :=
  (∀ (s : State) (c : Nat) (tr : Trap) (w0 w1 : BitVec 32), isX7 c = false →
    let t := s.takeTrap c tr w0 w1
    t.ctx c = { s.ctx c with
      life := .parked tr.cause.reason, stall := .none, attempt := 0, inwfm := false, held := none,
      cause := BitVec.ofNat 8 tr.cause.code, trapva := tr.va, info0 := w0, info1 := w1, info2 := tr.detail, info3 := tr.tile } ∧
    (∀ d, d ≠ c → isX7 d = false → t.ctx d = s.ctx d) ∧
    (trapRecord c (s.ctx c) tr ∈ (t.core (coreOf c)).mq ∨ (c, trapRecord c (s.ctx c) tr) ∈ (t.core (coreOf c)).slots) ∧
    (t.ctx (x7Of (coreOf c))).inwfm = false) ∧
  (∀ (s : State) (c : Nat) (tr : Trap) (w0 w1 : BitVec 32), isX7 c = true →
    let t := s.takeTrap c tr w0 w1
    let k := s.core (coreOf c)
    let x := { s.ctx c with
      cause := BitVec.ofNat 8 tr.cause.code, trapva := tr.va, info0 := w0, info1 := w1, info2 := tr.detail, info3 := tr.tile,
      stall := .none, attempt := 0 }
    (k.nest = false → t.ctx c = { x with pc := pcOf k.svec } ∧
      t.core (coreOf c) = { k with svepc := (s.ctx c).pc, nest := true }) ∧
    (k.nest = true → t.ctx c = { x with life := .parked .stop, inwfm := false, held := none } ∧ t.core (coreOf c) = k) ∧
    (∀ d, d ≠ c → t.ctx d = s.ctx d) ∧ t.mem = s.mem)

/-- R263, R375: `svc` and `brk` do not retire: the context takes SVC, or BREAKPOINT with the PC in TRAPVA; a `brk` of a
context that the debug port has claimed parks it STOP instead. -/
def Obligations.SystemCallAndBreak : Prop :=
  (∀ (im : BitVec 13) (s : State), exec (.svc im) s = .next (s.takeTrap s.cur (Trap.of .svc s.pc 0) s.ir0 s.ir1)) ∧
    (∀ (im : BitVec 13) (s : State), (s.core s.myCore).claim.getLsbD (s.cur % 8) = false →
      exec (.brk im) s = .next (s.takeTrap s.cur (Trap.of .breakpoint s.pc 0) s.ir0 s.ir1)) ∧
    (∀ (im : BitVec 13) (s : State), (s.core s.myCore).claim.getLsbD (s.cur % 8) = true → exec (.brk im) s = .next (s.park s.cur .stop 0)) ∧
    (∀ (s : State) (c : Nat) (pc : Word), (Trap.of .svc pc 0).cause.reason = .trap ∧ (Trap.of .breakpoint pc 0).cause.reason = .trap ∧
      (isX7 c = false → ((s.park c .stop 0).ctx c).life = .parked .stop ∧ ((s.park c .stop 0).ctx c).pc = (s.ctx c).pc))

/-- R6, R22, R264-R270: in a user context the supervisor's instructions, and `sysrd` and `syswr` of a register from 0x800
or of ASN and PTROOT, raise PROTECTION with SUPV and the PC in TRAPVA, and do nothing else. -/
def Obligations.SupervisorInstructionsTrapInUserContexts : Prop :=
  ∀ (s : State) (d a c : Reg) (n : BitVec 13) (sc : Scope), s.inX7 = false →
    let trap := Host.Outcome.next (s.takeTrap s.cur (Trap.supv s.pc) s.ir0 s.ir1)
    exec (.ctxrd d a n) s = trap ∧ exec (.ctxwr d a n) s = trap ∧ exec (.tret a) s = trap ∧ exec (.tredir d a) s = trap ∧
      exec (.tlbiPage a sc) s = trap ∧ exec (.tlbiAsn a sc) s = trap ∧ exec (.tlbiAll sc) s = trap ∧ exec (.wfm c) s = trap ∧
      ((0x800 ≤ n.toNat ∨ n = 0x409#13 ∨ n = 0x40A#13) → exec (.sysrd d n) s = trap ∧ exec (.syswr d n) s = trap)

/-- R24: the context that dispatches is the owner of the cycle's slot where it is ready, else the first ready context
after it in rotation; where none is ready none dispatches.

R24, R32, R331, R338, R344: a dispatch cycle advances its core's cycle and the clock, hands the turn to the context that
dispatches, and takes a cycle from the quantum of each user context that runs; an engine cycle counts THROTTLE of an engine
that holds a multiply back and HELD of a port with a class R request that waits, and changes nothing else. That the clock is the
greatest of the cores' cycle counts is the model's choice (log 7). -/
def Obligations.DispatchAndCycles : Prop :=
  (∀ (s : State) (core : Nat), let n := (s.core core).cycle
    (∀ c, s.dispatcher core = some c → ∃ j < 8, c = 8 * core + (n + j) % 8 ∧ s.ready c = true ∧
      ∀ k < j, s.ready (8 * core + (n + k) % 8) = false) ∧
    (s.dispatcher core = none → ∀ j < 8, s.ready (8 * core + j) = false)) ∧
  (∀ (s : State) (core sock : Nat),
    (∃ t, exec (.dispatchCycle core) s = .next t ∧ (t.core core).cycle = (s.core core).cycle + 1 ∧ t.clock = max s.clock ((s.core core).cycle + 1) ∧
      t.cur = (s.dispatcher core).getD s.cur ∧ t.mem = s.mem ∧ t.clusters = s.clusters ∧
      (∀ c, t.ctx c = if c / 8 = core ∧ isX7 c = false ∧ (s.ctx c).life = .running then { s.ctx c with qleft := (s.ctx c).qleft - 1 } else s.ctx c) ∧
      ∀ c, s.dispatcher core = some c → c ≠ s.owner core → t.ctr (c / 4096) 0 (c % 4096) 7 = s.ctr (c / 4096) 0 (c % 4096) 7 + 1) ∧
    ((s.engines.map (·.1)).Nodup → ∃ t, exec (.engineCycle sock) s = .next t ∧ t = { s with ctrs := t.ctrs } ∧
      (∀ e ∈ s.engines.map (·.1), t.ctr (e / 256) 2 (e % 256) 6 = s.ctr (e / 256) 2 (e % 256) 6 + if e / 256 = sock ∧ s.throttled e = true then 1 else 0) ∧
      ∀ p < 512, t.ctr sock 4 p 4 = s.ctr sock 4 p 4 +
        if s.flights.any (fun f => f.port == 512 * sock + p && !f.classA && (match f.place with | .waiting _ => true | _ => false)) then 1 else 0))

/-- R66-R92, R352: the decoder reads every well-formed instruction back from its words, every field at every value. -/
def Obligations.EncodeThenDecode : Prop :=
  ∀ i : Instr, i.wf = true → encode i ≠ .nothing → decodeWords (encode i) = some i

/-- R91: a word whose fields break a limit the spec states for them is no instruction.

R68, R91: classes 0, 21 to 23 and 25 to 31 hold no instruction. -/
def Obligations.DecoderRefusals : Prop :=
  ((∀ w w1 i, decodeCpu w w1 = .ok i → i.wf = true) ∧ (∀ w i, decodeEfc w = .ok i → i.wf = true)) ∧
  (∀ w w1, (bits w 27 5 = 0 ∨ 21 ≤ bits w 27 5 ∧ bits w 27 5 ≠ 24) → decodeCpu w w1 = .error .badClass)

/-- R74-R90, R187, R197: words of several families, laid out from the spec's encoding tables, decode to the instructions
they stand for. -/
def Obligations.DecodeSampleWords : Prop :=
  decodeCpu 0x08C85500 0 = .ok (.div 3 4 5 false) ∧ decodeCpu 0x194D0C1C 0 = .ok (.bext 5 6 12 7) ∧
    decodeCpu 0x41452F02 0 = .ok (.ld 5 2 .sis .acq .pkg 3 false 2) ∧
    decodeCpu 0x594E6CC1 0 = .ok (.amoAdd 5 7 .own .ar .pkg 6 true) ∧ decodeCpu 0x704430E0 0 = .ok (.ffma 1 2 3 2 0 false) ∧
    decodeCpu 0x91161800 0 = .ok (.cwait 4 11 .pkg) ∧ decodeCpu 0xA148E000 0 = .ok (.tredir 5 4) ∧
    decodeCpu 0xC0032900 0x1000 = .ok (.tload 3 1 9 .own .plain .ctx 4096) ∧ decodeEfc 0x505C0041 = .ok (.eskip 5 6 1 1) ∧
    decodeCpu 0x08C85760 0 = .error .reserved

/-- R24, R66, R67, R91, R183: where nothing else is due and one core has a ready context, a step brings that core's cycle counts
up to the clock (log 7), is a dispatch cycle of it and then the fetched instruction's meaning, for a branch or jump after what was
executed past it on a path that proves wrong (`speculate`, log 21); a word that is no instruction raises ILLEGAL_INSTRUCTION with
the PC in TRAPVA. `accountFor` adds the cycles that idle cores it stirred have passed, and lets a copy record that software has
written to hold its engine's STATUS and CURSOR again (R174).

R67, R104, R107: a one-word instruction whose word its cluster owns is fetched as that word's bytes, and nothing else
changes. -/
def Obligations.StepRunsTheDecodedInstruction : Prop :=
  (∀ (s : State) (core : Nat), s.down = false → s.agenda = [] → s.due = [] → s.readyCores = [core] →
    let u := (s.settle core).dispatchCycle core
    u.atRom = false → ∀ t, fetchWords u = .ok () t →
      (∀ i, decodeCpu t.ir0.toNat t.ir1.toNat = .ok i → step s = accountFor s (exec i (speculate i t))) ∧
      (∀ i, predicted i = false → speculate i t = t) ∧
      (∀ r, decodeCpu t.ir0.toNat t.ir1.toNat = .error r →
        step s = accountFor s (.next (t.takeTrap t.cur (illegalOf t.pc t.ir0) t.ir0 t.ir1)))) ∧
  (∀ (s : State) (pa : Nat) (v : Word), Maps s s.pc .fetch none pa → isDevice pa = false → Owned s pa v →
    isLong (v.extractLsb' (8 * (pa % 8)) 32).toNat = false →
      fetchWords s = .ok () { s with ir0 := v.extractLsb' (8 * (pa % 8)) 32, ir1 := 0 })

/-- R2, R374: once the modules of all packages have shut down no step is made, and only then does a step fault; while the module
of one of them works the machine goes on (that the others then stand still and the machine does not is the model's reading,
log 18). No step is refused. -/
def Obligations.OnlyAShutDownModuleStops : Prop :=
  ∀ s : State, (s.down = true → step s = .fault .shutDown) ∧ (s.down = false → ∃ t, step s = .next t)

/-- R23, R372: after reset every user context is vacant and no X7 but the boot core's runs; that one stands at the boot
ROM, with physical addresses and NEST clear, and no queue, counter or binding holds anything. That memory lists
nothing (log 1), that every unit of the part is present (log 2), and the values of registers for which the spec gives none, with
context 7 as the boot core's X7 (log 5), are the model's choices.

R22, R23: reset leaves every user context vacant, the boot core's X7 of each package at its ROM and every other X7 held; every
queue, buffer and table is empty and every counter 0. It keeps memory, the flash, the fuses and what lies outside the device (the
model's choice, log 8). -/
def Obligations.Reset : Prop :=
  (let s := State.reset
  (∀ c, isX7 c = false → s.ctx c = Context.vacant) ∧
    (∀ c, isX7 c = true → c ≠ 7 → (s.ctx c).life = .parked .stop ∧ (s.ctx c).bootHeld = true) ∧
    (s.ctx 7).life = .running ∧ (s.ctx 7).pc = 0x0F00003000000#64 ∧ (s.ctx 7).vrlimit = 16 ∧
    (∀ k, (s.core k).xlat = false ∧ (s.core k).nest = false ∧ (s.core k).mq = [] ∧ (s.core k).tlb = [] ∧ (s.core k).walks = []) ∧
    (∀ n, (s.cluster n).runq = [] ∧ (s.cluster n).clc = []) ∧ (∀ e, (s.engine e).bindings = []) ∧
    (∀ sock g u i, s.ctr sock g u i = 0) ∧ s.dir = [] ∧ s.proxies = [] ∧ s.mem = [] ∧ s.atRom = true) ∧
  (∀ (s : State), ∃ t, exec .reset s = .next t ∧ t.mem = s.mem ∧ t.flash = s.flash ∧ t.fuses = s.fuses ∧ t.outbox = s.outbox ∧ t.clock = 0 ∧
    (∀ c, isX7 c = false → t.ctx c = Context.vacant) ∧
    (∀ f ∈ s.fuses, t.ctx (x7Of (s.bootCore f.1)) = { Context.bootX7 with pc := BitVec.ofNat 64 (f.1 * 2 ^ 49 + 0x0F00003000000) }) ∧
    (∀ c, isX7 c = true → (∀ f ∈ s.fuses, c ≠ x7Of (s.bootCore f.1)) → t.ctx c = Context.bootHeldX7) ∧
    (∀ k, t.core k = Core.init ∧ t.cluster k = Cluster.init ∧ t.engine k = Engine.init ∧ t.efc k = Efc.init ∧ t.pkg k = Package.init) ∧
    (∀ sock g u i, t.ctr sock g u i = 0) ∧ t.dir = [] ∧ t.proxies = [] ∧ t.slc = [] ∧ t.fot = [] ∧ t.flights = [] ∧ t.exiting = [] ∧ t.fences = [])

/-- The invariant holds after reset: the memory, which lists nothing, has its canonical form (both the model's choice, log 1), every
PC is a multiple of 4 and every message queue is empty (R23, R180, R293); the part is the one of the model's fuses (log 2). -/
def Obligations.InvariantAtReset : Prop :=
 Inv State.reset

/-- R108, R180, R293 (canonical memory is the model's own form, log 1): every step keeps the invariant, the fuses and the
flash, in every state that meets it. -/
def Obligations.StepKeepsTheInvariant : Prop :=
  ∀ s t : State, Inv s → step s = .next t → Inv t ∧ t.fuses = s.fuses ∧ t.flash = s.flash

/-- R262, R304, R306, R308: a mapped address translates to what it maps to; an address at or above 2^52 of a physical X7,
and a non-canonical address of any other context, raises PROTECTION with the address in TRAPVA.

R92, R152, R153: a load, store or atomic whose address is no multiple of its size takes MISALIGNED with the address
in TRAPVA, and does nothing else. That TRAPINFO2 then names the kind and the policy of the access is the model's reading
(log 25). -/
def Obligations.TranslationAndAlignment : Prop :=
  (∀ (s : State) (va : Word) (kind : AccessKind) (pol : Option Pol),
    (∀ pa, Maps s va kind pol pa → xlate va kind pol s = .ok pa s) ∧
    ((if s.space.phys then 2 ^ 52 ≤ va.toNat else canonical va = false) → xlate va kind pol s =
      .error (.trap (Trap.of .protection va (detailOf kind.code (polCode pol) false false false 0 0))) s)) ∧
  (∀ (s : State) (pol : Pol) (ord : Order) (sc : Scope) (d b i : Reg) (x c : Bool), s.accs = [] →
    let trap := fun (va : Word) (kind : Nat) => Host.Outcome.next
      (s.takeTrap s.cur (Trap.of .misaligned va (detailOf kind pol.code false false false 0 0)) s.ir0 s.ir1)
    (∀ (z : BitVec 2) (off : BitVec 7), let va := s.readG b + (off.signExtend 64 <<< z.toNat)
      va.toNat % 2 ^ z.toNat ≠ 0 → exec (.ld d b pol ord sc z x off) s = trap va 0 ∧ exec (.st d b pol ord sc z off) s = trap va 1) ∧
    (∀ z : BitVec 2, let va := s.readG b + (s.readG i <<< (if c then z.toNat else 0))
      va.toNat % 2 ^ z.toNat ≠ 0 → exec (.ldx d b pol ord sc z x i c) s = trap va 0 ∧ exec (.stx d b pol ord sc z i c) s = trap va 1) ∧
    ((s.readG b).toNat % (if x then 8 else 4) ≠ 0 → ∀ a ∈ [Instr.amoAdd d b pol ord sc i x, .amoAnd d b pol ord sc i x,
      .amoOr d b pol ord sc i x, .amoXor d b pol ord sc i x, .amoMin d b pol ord sc i x, .amoMax d b pol ord sc i x,
      .amoMinn d b pol ord sc i x, .amoMaxn d b pol ord sc i x, .amoSwap d b pol ord sc i x, .cas d b pol ord sc i x],
      exec a s = trap (s.readG b) 2))

/-- R152, R194, R195: an aligned load of an owned word retires with the bytes at the address, sign- or zero-extended, in
g[d], under any policy; an acquiring one acquires first.

R101, R104, R105, R119, R137: the other loads. A tracked copy is read where it stands but under .wt, an untracked one under
.sis alone, and a word whose bytes are all buffered under any policy. Otherwise the home gives the value: a word that no
cluster owns reads as memory's, under the bytes buffered of it; it is left tracked under .own and .wis and untracked under .sis,
and .wt leaves no new copy but renews one. -/
def Obligations.LoadsOfOwnedWords : Prop :=
  (∀ (d b : Reg) (pol : Pol) (ord : Order) (sc : Scope) (z : BitVec 2) (x : Bool) (s : State) (va : Word) (pa : Nat) (v : Word),
    Free s → Settled s → va.toNat % 2 ^ z.toNat = 0 → Maps s va .read (some pol) pa → isDevice pa = false → Owned s pa v →
    let done := ((if ord = .acq then s.acquireAt s.myCluster sc else s).writeG d (loaded v pa (2 ^ z.toNat) x)).retireTo (s.pc + 4)
    (∀ off : BitVec 7, va = s.readG b + (off.signExtend 64 <<< z.toNat) → exec (.ld d b pol ord sc z x off) s = .next done) ∧
      (∀ (i : Reg) (c : Bool), va = s.readG b + (s.readG i <<< (if c then z.toNat else 0)) →
        exec (.ldx d b pol ord sc z x i c) s = .next done)) ∧
  (∀ (d b : Reg) (pol : Pol) (ord : Order) (sc : Scope) (z : BitVec 2) (x : Bool) (s : State) (va : Word) (pa : Nat),
    Free s → Settled s → va.toNat % 2 ^ z.toNat = 0 → Maps s va .read (some pol) pa → isDevice pa = false →
    let cl := s.myCluster
    let y := s.clWord cl pa
    let m := memWord s.mem (wordOf pa)
    let runs := fun (v : Word) (copy : CacheWord) =>
      let gives := fun (i : Instr) => ∃ t, exec i s = .next t ∧ t.me.g = (s.writeG d (loaded v pa (2 ^ z.toNat) x)).me.g ∧
        t.pc = pcOf (s.pc + 4) ∧ t.mem = s.mem ∧ (ord ≠ .acq → t.clWord cl pa = copy)
      (∀ off : BitVec 7, va = s.readG b + (off.signExtend 64 <<< z.toNat) → gives (.ld d b pol ord sc z x off)) ∧
        ∀ (i : Reg) (c : Bool), va = s.readG b + (s.readG i <<< (if c then z.toNat else 0)) → gives (.ldx d b pol ord sc z x i c)
    y.bad = false → y.single = false →
    ((y.st = .t ∧ pol ≠ .wt) ∨ (y.st = .u ∧ pol = .sis) ∨ (y.st = .b ∧ y.mask = 255#8) → runs y.data y) ∧
    (Calm s cl pa → s.ownerOf pa = none →
      (y.st = .b → y.mask ≠ 255#8 → runs (mergeWord m y.data y.mask) y) ∧
      (y.st = .i ∨ (y.st = .t ∧ pol = .wt) ∨ (y.st = .u ∧ pol ≠ .sis) → runs m
        (if pol = .wt then (if y.st = .i then y else { y with data := m })
         else { CacheWord.absent with st := if pol = .sis then .u else .t, data := m }))))

/-- R135, R140, R141, R154, R159: an aligned store retires with its bytes at the end of its core's store buffer, as a release
where it or an earlier fence of its thread is one, and then after the wait of that release. No register but PC, and no byte of
memory, changes but by that wait. -/
def Obligations.StoresEnterTheStoreBuffer : Prop :=
  ∀ (t b : Reg) (pol : Pol) (ord : Order) (sc : Scope) (z : BitVec 2) (s : State) (va : Word) (pa : Nat),
    Free s → (s.relOf ord sc ≠ none → Settled s) → va.toNat % 2 ^ z.toNat = 0 → Maps s va .write (some pol) pa → isDevice pa = false →
    let u := match s.relOf ord sc with
      | some w => s.releaseWait s.cur w
      | none => s
    let p : PendingStore :=
      { ctx := s.cur, tcb := s.me.tcb, tno := s.me.tno, pc := s.pc, pa := pa, n := 2 ^ z.toNat,
        data := BitVec.ofNat 64 ((s.readG t).toNat % 2 ^ (8 * 2 ^ z.toNat)), pol := pol, rel := s.relOf ord sc }
    let done := (u.modCore s.myCore (fun k => { k with sbuf := k.sbuf ++ [p] })).retireTo (s.pc + 4)
    (s.relOf ord sc = (if ord = .rel then widest (some sc) s.me.fenced else s.me.fenced)) ∧
    (∀ off : BitVec 7, va = s.readG b + (off.signExtend 64 <<< z.toNat) → exec (.st t b pol ord sc z off) s = .next done) ∧
      (∀ (i : Reg) (c : Bool), va = s.readG b + (s.readG i <<< (if c then z.toNat else 0)) →
        exec (.stx t b pol ord sc z i c) s = .next done)

/-- R102, R104, R154, R156: a plain store to an owned word of its cluster is performed there: its bytes replace those of
the word, which stays owned, and no other word of a cache and no byte of memory changes. An empty store buffer performs
nothing.

R101, R102, R104, R119: the other plain stores performed on a word that is not error-stricken. Under .own the word of
memory is made the cluster's and then written; .wis and .wt write it at its home, and leave a copy there was, tracked under .wis
and as it was under .wt, with the same bytes; .sis writes an owned word where it stands and buffers the bytes of any other, behind those buffered for
the same tenant. -/
def Obligations.StorePerformsInTheOwningCluster : Prop :=
  (∀ (s : State) (core : Nat), ((s.core core).sbuf = [] → exec (.storePerform core) s = .next s) ∧
    ∀ p rest, (s.core core).sbuf = p :: rest → p.rel = none → p.pol = .own → isDevice p.pa = false →
      s.backed (clusterOf p.ctx / 64) p.pa = true → p.pa % 8 + p.n ≤ 8 →
      let cl := clusterOf p.ctx
      let x := s.clWord cl p.pa
      s.tilePending cl p.tcb p.pa p.n = false → x.st = .o → x.bad = false → x.single = false →
      ∃ t u, exec (.storePerform core) s = .next t ∧ (t.core core).sbuf = rest ∧ t.mem = s.mem ∧ t.ctxs = s.ctxs ∧
        t.clWord cl p.pa = { CacheWord.absent with st := .o, data := u } ∧
        (∀ i < 64, u.getLsbD i = if 8 * (p.pa % 8) ≤ i ∧ i < 8 * (p.pa % 8 + p.n) then p.data.getLsbD (i - 8 * (p.pa % 8)) else x.data.getLsbD i) ∧
        (∀ c pa, (c ≠ cl ∨ wordOf pa ≠ wordOf p.pa) → t.clWord c pa = s.clWord c pa)) ∧
  (∀ (s : State) (core : Nat) (p : PendingStore) (rest : List PendingStore), (s.core core).sbuf = p :: rest → p.rel = none →
    isDevice p.pa = false → s.backed (clusterOf p.ctx / 64) p.pa = true → p.pa % 8 + p.n ≤ 8 →
    let cl := clusterOf p.ctx
    let q := wordOf p.pa
    let y := s.clWord cl q
    let into := fun old new => Stored old new p.data (p.pa % 8) p.n
    let ends := fun (f : State → Prop) => ∃ t, exec (.storePerform core) s = .next t ∧ (t.core core).sbuf = rest ∧ t.ctxs = s.ctxs ∧ f t
    let home := fun (t : State) => into (memWord s.mem q) (memWord t.mem q) ∧ ∀ a, a < q ∨ q + 8 ≤ a → memByte t.mem a = memByte s.mem a
    let copy := fun (t : State) (st : WordState) => if y.st = .i then t.clWord cl q = y
      else (t.clWord cl q).st = st ∧ into y.data (t.clWord cl q).data ∧ (t.clWord cl q).bad = false
    let buffers := fun (old : Word) (mask : BitVec 8) (t : State) => t.mem = s.mem ∧ (t.clWord cl q).st = .b ∧ (t.clWord cl q).tno = p.tno ∧
      into old (t.clWord cl q).data ∧ (t.clWord cl q).bad = false ∧
      ∀ k < 8, (t.clWord cl q).mask.getLsbD k = (mask.getLsbD k || decide (p.pa % 8 ≤ k ∧ k < p.pa % 8 + p.n))
    s.tilePending cl p.tcb p.pa p.n = false →
    (Clean y → Calm s cl q → s.ownerOf q = none →
      (p.pol = .own → ∃ u, into (memWord s.mem q) u ∧ ends (fun t => t.mem = s.mem ∧ t.ownerOf q = some cl ∧
        t.clWord cl q = { CacheWord.absent with st := .o, data := u })) ∧
      (p.pol = .wis → ends (fun t => home t ∧ copy t .t)) ∧ (p.pol = .wt → ends (fun t => home t ∧ copy t y.st))) ∧
    (p.pol = .sis → (Clean y → (s.cluster cl).clc.length < 15 → ends (buffers 0 0)) ∧
      (y.st = .b → y.bad = false → y.tno = p.tno → ends (buffers y.data y.mask)) ∧
      (y.st = .o → y.bad = false → y.single = false → ∃ u, into y.data u ∧ ends (fun t => t.mem = s.mem ∧ t.clWord cl q = { y with data := u }))))

/-- R73, R120, R161: an atomic under .own on an owned word writes the word its operation makes of it, and the old bytes,
sign-extended, to g[d]. A release waits first; an acquire acquires last.

R73, R104, R120, R161: an atomic on a word that the cluster does not own makes it owned under .own, and is performed there;
under any other policy it is performed at the word's home, to which an owned word first returns, and the cluster keeps no copy. The
old bytes, sign-extended, stand in g[d]; the other bytes of memory stay. -/
def Obligations.AtomicsOnOwnedWords : Prop :=
  (∀ (d b : Reg) (ord : Order) (sc : Scope) (v : Reg) (w : Bool) (s : State) (pa : Nat) (old : Word),
    let n := if w then 8 else 4
    let u := if ord = .rel ∨ ord = .ar then s.releaseWait s.cur sc else s
    Free s → Settled s → (s.readG b).toNat % n = 0 → Maps s (s.readG b) .atomic (some .own) pa → isDevice pa = false → Owned u pa old →
    let done := fun (f : BitVec (8 * n) → BitVec (8 * n) → BitVec (8 * n) → BitVec (8 * n)) (i : Instr) => ∃ new : Word,
      exec i s = .next
        (((if ord = .acq ∨ ord = .ar then (((u.setClWord s.myCluster pa { CacheWord.absent with st := .o, data := new }).markRecheck
            s.myCluster (lineOf pa)).acquireAt s.myCluster sc)
          else ((u.setClWord s.myCluster pa { CacheWord.absent with st := .o, data := new }).markRecheck s.myCluster (lineOf pa))).writeG d
            (loaded old pa n true)).retireTo (s.pc + 4)) ∧
      (∀ i < 64, new.getLsbD i = if 8 * (pa % 8) ≤ i ∧ i < 8 * (pa % 8 + n)
        then (f (old.extractLsb' (8 * (pa % 8)) (8 * n)) ((s.readG v).setWidth (8 * n)) ((s.readG d).setWidth (8 * n))).getLsbD (i - 8 * (pa % 8))
        else old.getLsbD i)
    done (fun o x _ => o + x) (.amoAdd d b .own ord sc v w) ∧ done (fun o x _ => o &&& x) (.amoAnd d b .own ord sc v w) ∧
      done (fun o x _ => o ||| x) (.amoOr d b .own ord sc v w) ∧ done (fun o x _ => o ^^^ x) (.amoXor d b .own ord sc v w) ∧
      done (fun o x _ => if x.toInt < o.toInt then x else o) (.amoMin d b .own ord sc v w) ∧
      done (fun o x _ => if o.toInt < x.toInt then x else o) (.amoMax d b .own ord sc v w) ∧
      done (fun o x _ => if x.toNat < o.toNat then x else o) (.amoMinn d b .own ord sc v w) ∧
      done (fun o x _ => if o.toNat < x.toNat then x else o) (.amoMaxn d b .own ord sc v w) ∧
      done (fun _ x _ => x) (.amoSwap d b .own ord sc v w) ∧
      done (fun o x c => if o = c then x else o) (.cas d b .own ord sc v w)) ∧
  (∀ (d b : Reg) (pol : Pol) (ord : Order) (sc : Scope) (v : Reg) (w : Bool) (s : State) (pa : Nat) (old : Word),
    let n := if w then 8 else 4
    let cl := s.myCluster
    let q := wordOf pa
    let y := s.clWord cl q
    Free s → Drained s → (s.readG b).toNat % n = 0 → Maps s (s.readG b) .atomic (some pol) pa → isDevice pa = false → Calm s cl q →
    (Clean y ∧ s.ownerOf q = none ∧ old = memWord s.mem q) ∨
      (pol ≠ .own ∧ y.st = .o ∧ y.bad = false ∧ s.ownerOf q = some cl ∧ old = y.data) →
    let done := fun (f : BitVec (8 * n) → BitVec (8 * n) → BitVec (8 * n) → BitVec (8 * n)) (i : Instr) => ∃ t new, exec i s = .next t ∧
      t.me.g = (s.writeG d (loaded old pa n true)).me.g ∧ t.pc = pcOf (s.pc + 4) ∧
      (∀ i < 64, new.getLsbD i = if 8 * (pa % 8) ≤ i ∧ i < 8 * (pa % 8 + n)
        then (f (old.extractLsb' (8 * (pa % 8)) (8 * n)) ((s.readG v).setWidth (8 * n)) ((s.readG d).setWidth (8 * n))).getLsbD (i - 8 * (pa % 8))
        else old.getLsbD i) ∧
      (if pol = .own then t.mem = s.mem ∧ t.ownerOf q = some cl ∧ t.clWord cl q = { CacheWord.absent with st := .o, data := new }
       else memWord t.mem q = new ∧ t.ownerOf q = none ∧ (t.clWord cl q).st = .i ∧ ∀ a, a < q ∨ q + 8 ≤ a → memByte t.mem a = memByte s.mem a)
    done (fun o x _ => o + x) (.amoAdd d b pol ord sc v w) ∧ done (fun o x _ => o &&& x) (.amoAnd d b pol ord sc v w) ∧
      done (fun o x _ => o ||| x) (.amoOr d b pol ord sc v w) ∧ done (fun o x _ => o ^^^ x) (.amoXor d b pol ord sc v w) ∧
      done (fun o x _ => if x.toInt < o.toInt then x else o) (.amoMin d b pol ord sc v w) ∧
      done (fun o x _ => if o.toInt < x.toInt then x else o) (.amoMax d b pol ord sc v w) ∧
      done (fun o x _ => if x.toNat < o.toNat then x else o) (.amoMinn d b pol ord sc v w) ∧
      done (fun o x _ => if o.toNat < x.toNat then x else o) (.amoMaxn d b pol ord sc v w) ∧
      done (fun _ x _ => x) (.amoSwap d b pol ord sc v w) ∧
      done (fun o x c => if o = c then x else o) (.cas d b pol ord sc v w))

/-- R137, R140, R141, R162: a fence waits where it releases, and makes its thread's later stores releases, and acquires where it acquires;
it changes nothing else; an
acquire at .pkg or .sys leaves no U word in the cluster, and one at a smaller scope changes nothing. -/
def Obligations.FencesAndAcquires : Prop :=
  ∀ (s : State) (sc : Scope) (cl : Nat),
    (Free s → Settled s → ∀ ord, exec (.fence ord sc) s = .next
      ((let u := if ord = .rel ∨ ord = .ar then
            (s.releaseWait s.cur sc).modMe (fun x => { x with fenced := widest x.fenced (some sc) }) else s
        if ord = .acq ∨ ord = .ar then u.acquireAt s.myCluster sc else u).retireTo (s.pc + 4))) ∧
    (Settled s → sc ≠ .pkg → sc ≠ .sys → s.releaseWait s.cur sc = s ∧ s.acquireAt cl sc = s) ∧
    ((sc = .pkg ∨ sc = .sys) → (∀ pa, ((s.acquireAt cl sc).clWord cl pa).st ≠ .u) ∧ (s.acquireAt cl sc).mem = s.mem ∧
      (s.acquireAt cl sc).ctxs = s.ctxs)

/-- R163, R164, R166: `cinv` and `cwb` write back each O word of their line, which is memory's and unowned after, drain each B
word, and leave no word of the line, or a tracked copy of an O word and an untracked one of a B word that was whole. A `cwb` of a line
without such words changes nothing. A `pref` never traps: one whose address does not translate counts as dropped and changes nothing
else; one of a line that the cluster does not hold fills it, tracked under .own and .wis, untracked under .sis, and with write intent
under .own makes every word of it owned; under .wt it changes nothing. -/
def Obligations.CacheInstructions : Prop :=
  ∀ (s : State) (b : Reg) (pol : Pol) (h : BitVec 3) (off : BitVec 7), Free s →
    let cl := s.myCluster
    let va := s.readG b + (off.signExtend 64 <<< 6)
    let on := fun (i : Instr) (f : State → Prop) => ∃ t, exec i s = .next t ∧ t.pc = pcOf (s.pc + 4) ∧ t.me.g = s.me.g ∧ f t
    (∀ pa, Settled s → Maps s va .maint none pa → isDevice pa = false →
      let at' := fun w => lineOf pa + 8 * w
      let word := fun w => s.clWord cl (at' w)
      on (.cinv b off) (fun t => ∀ w < 8, (t.clWord cl (at' w)).st = .i) ∧ on (.cwb b off) (fun _ => True) ∧
      ((∀ w < 8, (word w).st ≠ .o ∧ (word w).st ≠ .b) → exec (.cwb b off) s = .next (s.retireTo (s.pc + 4))) ∧
      (Calm s cl pa → (∀ w < 8, (word w).st ≠ .b) →
        let home := fun (t : State) => ∀ w < 8, (word w).st = .o → (word w).bad = false → s.ownerOf (at' w) = some cl →
          memWord t.mem (at' w) = (word w).data ∧ t.ownerOf (at' w) = none
        on (.cinv b off) home ∧ on (.cwb b off) (fun t => home t ∧ ∀ w < 8, (word w).st = .o → (word w).bad = false →
          s.ownerOf (at' w) = some cl → (t.clWord cl (at' w)).st = .t ∧ (t.clWord cl (at' w)).data = (word w).data)) ∧
      (∀ w < 8, Calm s cl (at' w) → (word w).st = .b → (word w).bad = false → (word w).rel = none → s.ownerOf (at' w) = none →
        (∀ k < 8, k ≠ w → (word k).st ≠ .o ∧ (word k).st ≠ .b) →
        let home := fun (t : State) => memWord t.mem (at' w) = mergeWord (memWord s.mem (at' w)) (word w).data (word w).mask
        on (.cinv b off) home ∧ on (.cwb b off) (fun t => home t ∧ if (word w).mask = 255#8
          then (t.clWord cl (at' w)).st = .u ∧ (t.clWord cl (at' w)).data = (word w).data else (t.clWord cl (at' w)).st = .i))) ∧
    ((if s.space.phys then 2 ^ 52 ≤ va.toNat else canonical va = false) →
      exec (.pref b pol h off) s = .next ((s.countCtx s.cur 6).retireTo (s.pc + 4))) ∧
    (∀ pa, Maps s va .read (some .wt) pa → isDevice pa = false →
      exec (.pref b .wt h off) s = .next (s.retireTo (s.pc + 4))) ∧
    (∀ pa, Maps s va (if h.getLsbD 0 = true ∧ pol = .own then .write else .read) (some pol) pa → isDevice pa = false → pol ≠ .wt →
      (∀ w < 8, (s.clWord cl (lineOf pa + 8 * w)).st = .i ∧ tfind s.errs (lineOf pa + 8 * w) = none) → s.dirOf (lineOf pa) = DirEntry.absent → Calm s cl pa →
      on (.pref b pol h off) (fun t => t.mem = s.mem ∧ ∀ w < 8, let q := lineOf pa + 8 * w
        t.clWord cl q = { CacheWord.absent with
          st := if pol = .sis then .u else if h.getLsbD 0 = true ∧ pol = .own then .o else .t, data := memWord s.mem q } ∧
          (h.getLsbD 0 = true → pol = .own → t.ownerOf q = some cl))) ∧
    (∃ t, exec (.pref b pol h off) s = .next t ∧ t.pc = pcOf (s.pc + 4) ∧ t.me.g = s.me.g ∧ t.me.life = s.me.life ∧ t.me.cause = s.me.cause)

/-- R201, R205, R206: the vector integer functions, lane by lane at every lane width.

R201, R206, R210: a comparison writes every bit of an active lane of its predicate with the condition; `fcmp` raises
NV for any NaN operand under lt and le, and for a signalling one under the others. -/
def Obligations.VectorIntegerLanes : Prop :=
  (VecAlu .vadd (fun _ x y _ => x + y) ∧ VecAlu .vsub (fun _ x y _ => x - y) ∧ VecAlu .vmul (fun _ x y _ => x * y) ∧
    VecAlu .vmulhI (fun n x y _ => BitVec.ofInt n (x.toInt * y.toInt / 2 ^ n)) ∧
    VecAlu .vmulhN (fun n x y _ => BitVec.ofNat n (x.toNat * y.toNat / 2 ^ n)) ∧
    VecAlu .vminI (fun _ x y _ => if x.toInt ≤ y.toInt then x else y) ∧ VecAlu .vminN (fun _ x y _ => if x.toNat ≤ y.toNat then x else y) ∧
    VecAlu .vmaxI (fun _ x y _ => if y.toInt ≤ x.toInt then x else y) ∧ VecAlu .vmaxN (fun _ x y _ => if y.toNat ≤ x.toNat then x else y) ∧
    VecAlu .vand (fun _ x y _ => x &&& y) ∧ VecAlu .vor (fun _ x y _ => x ||| y) ∧ VecAlu .vxor (fun _ x y _ => x ^^^ y) ∧
    VecAlu .vandn (fun _ x y _ => x &&& ~~~ y) ∧ VecAlu .vsll (fun n x y _ => x <<< (y.toNat % n)) ∧
    VecAlu .vsrl (fun n x y _ => x >>> (y.toNat % n)) ∧ VecAlu .vsra (fun n x y _ => x.sshiftRight (y.toNat % n)) ∧
    VecAlu .vaddsI (fun n x y _ => BitVec.ofInt n (max (-(2 ^ (n - 1))) (min (2 ^ (n - 1) - 1) (x.toInt + y.toInt)))) ∧
    VecAlu .vaddsN (fun n x y _ => BitVec.ofNat n (min (2 ^ n - 1) (x.toNat + y.toNat))) ∧
    VecAlu .vsubsI (fun n x y _ => BitVec.ofInt n (max (-(2 ^ (n - 1))) (min (2 ^ (n - 1) - 1) (x.toInt - y.toInt)))) ∧
    VecAlu .vsubsN (fun n x y _ => BitVec.ofNat n (x.toNat - y.toNat)) ∧
    VecAlu1 .vpopc (fun n x _ => BitVec.ofNat n ((List.range n).countP (fun i => x.getLsbD i))) ∧
    VecAlu1 .vclz (fun n x _ => BitVec.ofNat n (((List.range n).find? (fun i => x.getLsbD (n - 1 - i))).getD n)) ∧
    VecAlu1 .vctz (fun n x _ => BitVec.ofNat n (((List.range n).find? (fun i => x.getLsbD i)).getD n)) ∧
    VecAlu1 .vbrev (fun _ x _ => x.reverse) ∧ VecAlu1 .vabs (fun n x _ => BitVec.ofNat n x.toInt.natAbs) ∧
    VecAlu1 .vfnth (fun n x o => BitVec.ofNat n (((List.range n).filter (fun i => x.getLsbD i)).getD o.toNat n)) ∧
    (∀ d a b (e : BitVec 2) g s, Clear s → ∃ new, exec (.vsel d a b e g) s = .next (s.wroteV d new) ∧
      ∀ i < 64 / 2 ^ e.toNat, laneAt (8 * 2 ^ e.toNat) new i =
        laneAt _ (if (s.readP g).getLsbD (2 ^ e.toNat * i) then s.readV a else s.readV b) i)) ∧
  (VecCmp .vcmpEq (fun _ x y => x == y) ∧ VecCmp .vcmpNe (fun _ x y => x != y) ∧
    VecCmp .vcmpLt (fun _ x y => decide (x.toInt < y.toInt)) ∧ VecCmp .vcmpGe (fun _ x y => decide (y.toInt ≤ x.toInt)) ∧
    VecCmp .vcmpLtn (fun _ x y => decide (x.toNat < y.toNat)) ∧ VecCmp .vcmpGen (fun _ x y => decide (y.toNat ≤ x.toNat)) ∧
    VecFcmp .fcmpEq false (fun p q => !p.unordered q && orderV p q == 0) ∧
    VecFcmp .fcmpNe false (fun p q => p.unordered q || orderV p q != 0) ∧
    VecFcmp .fcmpLt true (fun p q => !p.unordered q && orderV p q == -1) ∧
    VecFcmp .fcmpLe true (fun p q => !p.unordered q && (orderV p q == -1 || orderV p q == 0)) ∧
    VecFcmp .fcmpUn false (fun p q => p.unordered q))

/-- R207-R209: each active lane of a floating-point instruction is its function of the lanes' values, rounded once by
FCTL.RM (by its own mode in `fround`), and FST gains the flags of the active lanes together. -/
def Obligations.FloatingPointLanes : Prop :=
  let value := fun (f : Mode → Fpv → Fpv → Fpv → Res) (t : Fmt) (m : Mode) (x y o : Nat) => t.round m (f m (t.decode x) (t.decode y) (t.decode o))
  VecFloat .fadd (value (fun m x y _ => addV m x y)) ∧ VecFloat .fsub (value (fun m x y _ => addV m x y.negate)) ∧
    VecFloat .fmul (value (fun _ x y _ => mulV x y)) ∧ VecFloat .fdiv (value (fun _ x y _ => divV x y)) ∧
    VecFloat .ffma (value fmaV) ∧ VecFloat .ffms (value (fun m x y o => fmaV m x y o.negate)) ∧
    VecFloat .fnma (value (fun m x y o => fmaV m x.negate y o)) ∧
    VecFloat .fmin (value (fun _ x y _ => minV x y)) ∧ VecFloat .fmax (value (fun _ x y _ => maxV x y)) ∧
    VecFloat (fun d a _ e g z => .fsqrt d a e g z) (value (fun _ x _ _ => sqrtV x)) ∧
    VecFloat (fun d a _ e g z => .frcp d a e g z) (value (fun _ x _ _ => rcpV x)) ∧
    VecFloat (fun d a _ e g z => .frsqrt d a e g z) (value (fun _ x _ _ => rsqrtV x)) ∧
    VecFloat (fun d a _ e g z => .fexp2 d a e g z) (value (fun _ x _ _ => exp2V x)) ∧
    VecFloat (fun d a _ e g z => .flog2 d a e g z) (value (fun _ x _ _ => log2V x)) ∧
    VecFloat (fun d a _ e g z => .fabs d a e g z) (fun t _ x _ _ => (x % 2 ^ (t.bits - 1), 0)) ∧
    VecFloat (fun d a _ e g z => .fneg d a e g z) (fun t _ x _ _ => (x ^^^ 2 ^ (t.bits - 1), 0)) ∧
    VecFloat .fscale (fun t m x y _ => t.round m (scaleV (t.decode x) (BitVec.ofNat t.bits y).toInt)) ∧
    (∀ md : Reg, VecFloat (fun d a _ e g z => .fround d a md e g z)
      (fun t m x _ _ => t.round (if md = 4 then m else modeOf md.toNat) (integralV (if md = 4 then m else modeOf md.toNat) (t.decode x))))

/-- R43, R45, R207, R208: a magnitude m rounded to a multiple of 2^k is the multiple below it, above it or nearest to it,
as the mode says, ties to the even one, and is inexact where it differs; division, roots and comparisons answer the
special values that the spec's tables list. -/
def Obligations.RoundingAndSpecialValues : Prop :=
  (∀ (neg : Bool) (m k : Nat),
    (let r := roundQ .rtz neg m 0 k; r.1 * 2 ^ k ≤ m ∧ m < (r.1 + 1) * 2 ^ k) ∧
    (let r := roundQ .rup neg m 0 k; if neg then r.1 * 2 ^ k ≤ m ∧ m < (r.1 + 1) * 2 ^ k else m ≤ r.1 * 2 ^ k ∧ r.1 * 2 ^ k < m + 2 ^ k) ∧
    (let r := roundQ .rdn neg m 0 k; if neg then m ≤ r.1 * 2 ^ k ∧ r.1 * 2 ^ k < m + 2 ^ k else r.1 * 2 ^ k ≤ m ∧ m < (r.1 + 1) * 2 ^ k) ∧
    (let r := roundQ .rne neg m 0 k; 2 * m ≤ (2 * r.1 + 1) * 2 ^ k ∧ 2 * r.1 * 2 ^ k ≤ 2 * m + 2 ^ k ∧
      ((2 * m = (2 * r.1 + 1) * 2 ^ k ∨ 2 * r.1 * 2 ^ k = 2 * m + 2 ^ k) → r.1 % 2 = 0)) ∧
    (∀ mode, ((roundQ mode neg m 0 k).2 = true ↔ (roundQ mode neg m 0 k).1 * 2 ^ k ≠ m))) ∧
  (∀ (a b : Bool) (m n : Nat) (e f : Int), 0 < m →
    divV (.fin a m e) (.fin b 0 f) = (.inf (a != b), fDZ) ∧ divV (.fin a 0 e) (.fin b 0 f) = (.quiet, fNV) ∧
      divV (.inf a) (.inf b) = (.quiet, fNV) ∧ divV (.fin a n e) (.inf b) = (.fin (a != b) 0 0, 0) ∧
      rcpV (.fin b 0 f) = (.inf b, fDZ) ∧ rsqrtV (.fin b 0 f) = (.inf b, fDZ) ∧ sqrtV (.fin a 0 e) = (.fin a 0 0, 0) ∧
      sqrtV (.fin true m e) = (.quiet, fNV) ∧ sqrtV (.inf false) = (.inf false, 0) ∧ sqrtV (.inf true) = (.quiet, fNV) ∧
      rsqrtV (.fin true m e) = (.quiet, fNV) ∧ exp2V (.fin a 0 e) = (.fin false 1 0, 0) ∧ exp2V (.inf true) = (.fin false 0 0, 0) ∧
      log2V (.fin a 0 e) = (.inf true, fDZ) ∧ log2V (.fin true m e) = (.quiet, fNV) ∧ log2V (.fin false 1 0) = (.fin false 0 0, 0) ∧
      mulV (.inf a) (.fin b 0 f) = (.quiet, fNV) ∧ orderV (.fin a 0 e) (.fin b 0 f) = 0 ∧
      minV (.fin true 0 e) (.fin false 0 f) = (.fin true 0 e, 0) ∧ maxV (.fin true 0 e) (.fin false 0 f) = (.fin false 0 f, 0))

/-- R212, R213: `vcvt` converts the lanes that both types have and writes 0 above them; between integers it saturates. A
`vred` leaves in lane 0 its function of the active lanes and 0 in the others: of integers the sum modulo 2^N, the minimum or
maximum of their type, or the conjunction, disjunction or exclusive disjunction; of floating-point values the sum, minimum or
maximum by the fixed tree, with the flags of its roundings, and +0, +∞ or −∞ where no lane is active. -/
def Obligations.ConversionsAndReductions : Prop :=
  (∀ (d a : Reg) (r : Bool) (dt ty : BitVec 4) (g : BitVec 3) (z : Bool) (s : State), Clear s →
    let n := 8 * tyBytes dt
    let m := 64 / max (tyBytes ty) (tyBytes dt)
    let at' := fun i => cvtLane ty dt (if r then .rtz else s.mode) (laneAt (8 * tyBytes ty) (s.readV a) i).toNat
    ∃ new fl, exec (.vcvt d a r dt ty g z) s = .next (((s.writeV d new).raise fl).retireTo (s.pc + 4)) ∧
      (∀ i < 64 / tyBytes dt, laneAt n new i = if m ≤ i then 0 else if (s.readP g).getLsbD (tyBytes dt * i) then BitVec.ofNat n (at' i).1
        else if z then 0 else laneAt n (s.readV d) i) ∧
      (∀ j < 5, (fl.getLsbD j = true ↔ ∃ i < m, (s.readP g).getLsbD (tyBytes dt * i) = true ∧ (at' i).2.getLsbD j = true))) ∧
  (∀ (ty dt : BitVec 4) (m : Mode) (x : Nat), ty.toNat < 8 → dt.toNat < 8 → ty ≠ dt →
    cvtLane ty dt m x = ((max (intMin (8 * tyBytes dt) (tySigned dt)) (min (intMax (8 * tyBytes dt) (tySigned dt)) (tyValue ty x)) %
      2 ^ (8 * tyBytes dt)).toNat, 0)) ∧
  (∀ (d a k : Reg) (ty : BitVec 4) (g : BitVec 3) (s : State), Clear s →
    let n := 8 * tyBytes ty
    let xs := ((List.range (64 / tyBytes ty)).filter (fun i => (s.readP g).getLsbD (tyBytes ty * i))).map (fun i => laneAt n (s.readV a) i)
    ∃ new fl, exec (.vred d a k ty g) s = .next (((s.writeV d new).raise fl).retireTo (s.pc + 4)) ∧
      (∀ i, 0 < i → i < 64 / tyBytes ty → laneAt n new i = 0) ∧
      (ty.toNat < 8 → fl = 0 ∧ (k = 0 → laneAt n new 0 = xs.foldr (· + ·) 0) ∧
        (k = 3 → laneAt n new 0 = xs.foldr (· &&& ·) (BitVec.allOnes n)) ∧ (k = 4 → laneAt n new 0 = xs.foldr (· ||| ·) 0) ∧
        (k = 5 → laneAt n new 0 = xs.foldr (· ^^^ ·) 0) ∧
        (k = 1 → tyValue ty (laneAt n new 0).toNat = xs.foldr (fun x v => min (tyValue ty x.toNat) v) (intMax n (tySigned ty))) ∧
        (k = 2 → tyValue ty (laneAt n new 0).toNat = xs.foldr (fun x v => max (tyValue ty x.toNat) v) (intMin n (tySigned ty)))) ∧
      (8 ≤ ty.toNat → k.toNat ≤ 2 →
        let t := tyFmt ty
        let op := fun (p q : Nat × BitVec 5) =>
          let r := t.round s.mode ((if k = 0 then addV s.mode else if k = 1 then minV else maxV) (t.decode p.1) (t.decode q.1))
          (r.1, p.2 ||| q.2 ||| r.2)
        let tree := reduceTree op (Nat.log2 (64 / tyBytes ty)) (fun i =>
          if (s.readP g).getLsbD (tyBytes ty * i) then some ((laneAt n (s.readV a) i).toNat, 0) else none)
        laneAt n new 0 = BitVec.ofNat n ((tree.map (·.1)).getD (if k = 0 then 0 else t.signCode (k == 2) + t.infCode)) ∧
          fl = (tree.map (·.2)).getD 0))

/-- R214, R218: the moves of lanes and the predicate instructions. -/
def Obligations.MovesAndPredicates : Prop :=
  (∀ (d a b : Reg) (ty : BitVec 4) (g : BitVec 3) (z : Bool) (s : State), Clear s →
    let n := 8 * tyBytes ty
    let lanes := 64 / tyBytes ty
    let yields := fun (i : Instr) (f : Nat → BitVec n) => ∃ new, exec i s = .next (s.wroteV d new) ∧ LanesAre n (s.readP g) z (s.readV d) new f
    let src := fun k => if k < lanes then laneAt n (s.readV a) k else 0
    yields (.vperm d a b ty g z) (fun i => src (laneAt n (s.readV b) i).toNat) ∧
      yields (.vslide d a b ty g z) (fun i => if (i : Int) < (s.readG b).toInt then 0 else src ((i : Int) - (s.readG b).toInt).toNat) ∧
      yields (.vexpand d a ty g z) (fun i => src ((List.range i).countP (fun k => (s.readP g).getLsbD (tyBytes ty * k)))) ∧
      yields (.vbcast d a ty g z) (fun _ => (s.readG a).setWidth n) ∧
      (∃ new, exec (.vcompress d a ty g) s = .next (s.wroteV d new) ∧ ∀ i < lanes, laneAt n new i =
        (((List.range lanes).filter (fun k => (s.readP g).getLsbD (tyBytes ty * k)))[i]?.map (laneAt n (s.readV a))).getD 0) ∧
      ((s.readG b).toNat < lanes → ∃ new, exec (.vins d a b ty) s = .next (s.wroteV d new) ∧ ∀ i < lanes, laneAt n new i =
        if i = (s.readG b).toNat then (s.readG a).setWidth n else laneAt n (s.readV d) i) ∧
      (lanes ≤ (s.readG b).toNat → exec (.vins d a b ty) s = .next (s.retireTo (s.pc + 4)))) ∧
  (∀ (d a b : Reg) (ty : BitVec 4), Yields (.vext d a b ty) d (fun s =>
    let x := if (s.readG b).toNat < 64 / tyBytes ty then laneAt (8 * tyBytes ty) (s.readV a) (s.readG b).toNat else 0
    if ty.toNat < 4 then x.signExtend 64 else x.setWidth 64)) ∧
  (∀ d a b : BitVec 3, YieldsP (.pand d a b) d (fun s => s.readP a &&& s.readP b) ∧ YieldsP (.por d a b) d (fun s => s.readP a ||| s.readP b) ∧
    YieldsP (.pxor d a b) d (fun s => s.readP a ^^^ s.readP b) ∧ YieldsP (.pandn d a b) d (fun s => s.readP a &&& ~~~ s.readP b)) ∧
  (∀ (p : BitVec 3) (r q : Reg) (e : BitVec 2), let w := 2 ^ e.toNat
    YieldsP (.pset p r) p (fun s => s.readG r) ∧ Yields (.pget r p) r (fun s => s.readP p) ∧
      Yields (.pcnt r p e) r (fun s => BitVec.ofNat 64 ((List.range (64 / w)).countP (fun i => (s.readP p).getLsbD (w * i)))) ∧
      Yields (.pfirst r p e) r (fun s => BitVec.ofNat 64 (((List.range (64 / w)).find? (fun i => (s.readP p).getLsbD (w * i))).getD (64 / w))) ∧
      ∀ s, Clear s → ∃ new : Word, exec (.pwhile p r q e) s = .next (s.wroteP p new) ∧
        ∀ j < 64, new.getLsbD j = decide ((s.readG r).toNat + j / w < (s.readG q).toNat))

/-- R135, R140, R141, R154, R215, R216: a vector load of owned words leaves their bytes in the active lanes of v[d] and 0 in the others; a
vector store leaves its active lanes, ascending, at the end of its core's store buffer, after a fence of its thread as releases,
whose wait comes first. -/
def Obligations.VectorLoadsAndStores : Prop :=
  ∀ (d b i : Reg) (pol : Pol) (e : BitVec 2) (g : BitVec 3) (off : BitVec 8) (s : State) (pa : Nat → Nat), Free s →
    let w := 2 ^ e.toNat
    let on := fun k => (s.readP g).getLsbD (w * k)
    let row := fun k => s.readG b + (off.signExtend 64 <<< 6) + BitVec.ofNat 64 (w * k)
    let idx := fun k => s.readG b + BitVec.ofNat 64 ((laneAt (8 * w) (s.readV i) k).toNat * w)
    let reads := fun (va : Nat → Word) (x : Instr) => ∀ v : Nat → Word, Settled s →
      (∀ k < 64 / w, on k = true → (va k).toNat % w = 0 ∧ Maps s (va k) .read (some pol) (pa k) ∧ isDevice (pa k) = false ∧ Owned s (pa k) (v k)) →
      ∃ new, exec x s = .next (s.wroteV d new) ∧
        ∀ k < 64 / w, laneAt (8 * w) new k = if on k then (v k).extractLsb' (8 * (pa k % 8)) (8 * w) else 0
    let writes := fun (va : Nat → Word) (x : Instr) =>
      (∀ k < 64 / w, on k = true → (va k).toNat % w = 0 ∧ Maps s (va k) .write (some pol) (pa k) ∧ isDevice (pa k) = false) →
      (s.me.fenced ≠ none → Settled s) → exec x s = .next ((((List.range (64 / w)).filter on).foldl (fun (t : State) k => t.modCore s.myCore (fun c => { c with sbuf := c.sbuf ++
        [{ ctx := s.cur, tcb := s.me.tcb, tno := s.me.tno, pc := s.pc, pa := pa k, n := w,
           data := BitVec.ofNat 64 (laneAt (8 * w) (s.readV d) k).toNat, pol := pol, rel := s.me.fenced }] }))
        (match s.me.fenced with | some f => s.releaseWait s.cur f | none => s)).retireTo (s.pc + 4))
    ((row 0).toNat % w = 0 → reads row (.vld d b pol e g off) ∧ writes row (.vst d b pol e g off)) ∧
      reads idx (.vgather d b pol e g i) ∧ writes idx (.vscatter d b pol e g i)

/-- R46, R256, R258, R264: what `sysrd` reads under each number; the numbers from 0x800, ASN and PTROOT, only in X7.

R46, R256, R258, R259, R264: what `syswr` writes under each number, and that the read-only ones ignore it. -/
def Obligations.SystemRegisters : Prop :=
  (∀ (d : Reg) (s : State), Clear s →
    let reads := fun (n : BitVec 13) (x : Word) => exec (.sysrd d n) s = .next (s.wrote d x)
    let c := s.me
    let k := s.core s.myCore
    let p := s.pkg s.mySock
    (c.life = .running → reads 0x400 (BitVec.ofNat 64 (2 + (if c.pstop then 0x1000 else 0) + (if c.pfault.isSome then 0x2000 else 0) +
      (if c.inwfm then 0x4000 else 0)))) ∧
    reads 0x221 (c.fst.setWidth 64) ∧ reads 0x222 (c.fctl.setWidth 64) ∧ reads 0x401 (c.cause.setWidth 64) ∧ reads 0x402 c.trapva ∧
    reads 0x403 (c.info0.setWidth 64) ∧ reads 0x404 (c.info1.setWidth 64) ∧ reads 0x405 (c.info2.setWidth 64) ∧ reads 0x406 c.info3 ∧
    reads 0x407 c.uepc ∧ reads 0x408 (c.vrlimit.setWidth 64) ∧ reads 0x40B (BitVec.ofNat 64 (s.cur % 32768)) ∧
    reads 0x40C (BitVec.ofNat 64 c.tcb) ∧ reads 0x40D (c.prio.setWidth 64) ∧ reads 0x40E (c.tno.setWidth 64) ∧
    reads 0x40F (BitVec.ofNat 64 (s.clock * 5 / 16)) ∧
    (s.inX7 = true → reads 0x409 (c.asn.setWidth 64) ∧ reads 0x40A (c.ptroot.setWidth 64 <<< 12) ∧ reads 0x800 k.svec ∧
      reads 0x801 k.svepc ∧ reads 0x802 (if k.nest then 1 else 0) ∧ reads 0x803 (if k.xlat then 1 else 0) ∧
      reads 0x804 (BitVec.ofNat 64 k.mq.length) ∧ reads 0x808 (BitVec.ofNat 64 p.fotbase) ∧ reads 0x809 (BitVec.ofNat 64 p.tentbase) ∧
      reads 0x80A (BitVec.ofNat 64 p.qtabbase) ∧
      ∃ x : Word, reads 0x805 x ∧ ∀ j < 64, (x.getLsbD j = true ↔ j < 7 ∧
        ((s.ctx (8 * s.myCore + j)).life = .parked .fault ∨ (s.ctx (8 * s.myCore + j)).life = .parked .trap)))) ∧
  (∀ (t : Reg) (s : State), Clear s →
    let x := s.readG t
    let writes := fun (n : BitVec 13) (u : State) => exec (.syswr t n) s = .next (u.retireTo (s.pc + 4))
    let mine := fun (n : BitVec 13) (f : Context → Context) => writes n (s.modMe f)
    let core := fun (n : BitVec 13) (f : Core → Core) => writes n (s.modCore s.myCore f)
    mine 0x221 (fun c => { c with fst := x.setWidth 5 }) ∧ mine 0x222 (fun c => { c with fctl := x.setWidth 2 }) ∧
    mine 0x401 (fun c => { c with cause := x.setWidth 8 }) ∧ mine 0x402 (fun c => { c with trapva := x }) ∧
    mine 0x403 (fun c => { c with info0 := x.setWidth 32 }) ∧ mine 0x404 (fun c => { c with info1 := x.setWidth 32 }) ∧
    mine 0x405 (fun c => { c with info2 := x.setWidth 20 }) ∧ mine 0x406 (fun c => { c with info3 := x }) ∧
    mine 0x407 (fun c => { c with uepc := x &&& ~~~ 3#64 }) ∧ mine 0x408 (fun c => { c with vrlimit := x.setWidth 8 }) ∧
    (∀ n ∈ [0x400, 0x40B, 0x40C, 0x40D, 0x40E, 0x40F], mine n id) ∧
    (s.inX7 = true → mine 0x409 (fun c => { c with asn := x.setWidth 16 }) ∧ mine 0x40A (fun c => { c with ptroot := x.extractLsb' 12 40 }) ∧
      core 0x800 (fun k => { k with svec := x &&& ~~~ 3#64 }) ∧ core 0x801 (fun k => { k with svepc := x }) ∧
      core 0x803 (fun k => { k with xlat := x.getLsbD 0 }) ∧
      writes 0x802 (if x.getLsbD 0 then s.modCore s.myCore (fun k => { k with nest := false }) else s) ∧ writes 0x804 s ∧ writes 0x805 s ∧
      writes 0x808 (s.modPkg s.mySock (fun p => { p with fotbase := (x.extractLsb' 12 40).toNat * 4096 })) ∧
      writes 0x809 (s.modPkg s.mySock (fun p => { p with tentbase := (x.extractLsb' 12 40).toNat * 4096 })) ∧
      writes 0x80A (s.modPkg s.mySock (fun p => { p with qtabbase := (x.extractLsb' 12 40).toNat * 4096 }))))

/-- R255, R265: `ctxrd` and `ctxwr` retire for every register of a user context parked FAULT, TRAP or STOP on this core: the value
read is the register's, and the value written stands in it, bit for bit of its field; a write of a read-only one writes
nothing. `ctxrd` reads CTXSTAT of any. Another operand raises PROTECTION with LIMIT. -/
def Obligations.ContextRegisterAccess : Prop :=
  ∀ (r a : Reg) (s : State), s.inX7 = true →
    let c := 8 * s.myCore + (s.readG a).toNat
    let x := s.ctx c
    let v := s.readG r
    let free := x.life = .parked .fault ∨ x.life = .parked .trap ∨ x.life = .parked .stop
    let limit := Host.Outcome.next (s.takeTrap s.cur (Trap.limit (s.readG a)) s.ir0 s.ir1)
    let reads := fun (n : Nat) (y : Word) => exec (.ctxrd r a (BitVec.ofNat 13 n)) s = .next (s.wrote r y)
    let writes := fun (n : Nat) (f : Context → Context) => exec (.ctxwr r a (BitVec.ofNat 13 n)) s = .next ((s.modCtx c f).retireTo (s.pc + 4))
    (7 ≤ (s.readG a).toNat → ∀ n, exec (.ctxrd r a n) s = limit ∧ exec (.ctxwr r a n) s = limit) ∧
    ((s.readG a).toNat < 7 → ¬ free → ∀ n, (n ≠ 0x400 → exec (.ctxrd r a n) s = limit) ∧ exec (.ctxwr r a n) s = limit) ∧
    (Clear s → (s.readG a).toNat < 7 → reads 0x400 (statOf x)) ∧
    (Clear s → (s.readG a).toNat < 7 → free →
      (∀ j < 32, reads j (x.getG j) ∧ writes j (fun y => y.setG j v)) ∧
      (∀ j < 32, ∀ w < 8, reads (0x100 + 8 * j + w) (laneAt 64 (x.getV j) w) ∧ ∃ new, writes (0x100 + 8 * j + w) (fun y => y.setV j new) ∧
        ∀ k < 8, laneAt 64 new k = if k = w then v else laneAt 64 (x.getV j) k) ∧
      (∀ j < 8, reads (0x200 + j) (x.getP j) ∧ writes (0x200 + j) (fun y => y.setP j v)) ∧
      (∀ j < 8, ∀ w < 2, reads (0x210 + 2 * j + w) ((x.getM j).extractLsb' (64 * w) 64) ∧ ∃ new, writes (0x210 + 2 * j + w) (fun y => y.setM j new) ∧
        ∀ k < 2, new.extractLsb' (64 * k) 64 = if k = w then v else (x.getM j).extractLsb' (64 * k) 64) ∧
      reads 0x220 x.pc ∧ writes 0x220 (fun y => { y with pc := v &&& ~~~ 3#64 }) ∧
      reads 0x221 (x.fst.setWidth 64) ∧ writes 0x221 (fun y => { y with fst := v.setWidth 5 }) ∧
      reads 0x401 (x.cause.setWidth 64) ∧ writes 0x401 (fun y => { y with cause := v.setWidth 8 }) ∧
      reads 0x402 x.trapva ∧ writes 0x402 (fun y => { y with trapva := v }) ∧
      reads 0x407 x.uepc ∧ writes 0x407 (fun y => { y with uepc := v &&& ~~~ 3#64 }) ∧
      reads 0x408 (x.vrlimit.setWidth 64) ∧ writes 0x408 (fun y => { y with vrlimit := v.setWidth 8 }) ∧
      reads 0x409 (x.asn.setWidth 64) ∧ writes 0x409 (fun y => { y with asn := v.setWidth 16 }) ∧
      reads 0x40A (x.ptroot.setWidth 64 <<< 12) ∧ writes 0x40A (fun y => { y with ptroot := v.extractLsb' 12 40 }) ∧
      reads 0x222 (x.fctl.setWidth 64) ∧ writes 0x222 (fun y => { y with fctl := v.setWidth 2 }) ∧
      reads 0x403 (x.info0.setWidth 64) ∧ writes 0x403 (fun y => { y with info0 := v.setWidth 32 }) ∧
      reads 0x404 (x.info1.setWidth 64) ∧ writes 0x404 (fun y => { y with info1 := v.setWidth 32 }) ∧
      reads 0x405 (x.info2.setWidth 64) ∧ writes 0x405 (fun y => { y with info2 := v.setWidth 20 }) ∧
      reads 0x406 x.info3 ∧ writes 0x406 (fun y => { y with info3 := v }) ∧
      reads 0x40B (BitVec.ofNat 64 (c % 32768)) ∧ reads 0x40C (BitVec.ofNat 64 x.tcb) ∧ reads 0x40D (x.prio.setWidth 64) ∧
      reads 0x40E (x.tno.setWidth 64) ∧ reads 0x40F (BitVec.ofNat 64 (s.clock * 5 / 16)) ∧
      ∀ n ∈ [0x400, 0x40B, 0x40C, 0x40D, 0x40E, 0x40F], writes n id)

/-- R40, R266, R267, R376: `tret` sends a context parked FAULT or TRAP on at its PC, past its instruction under SKIP but where a
watchpoint parked it, whose instruction has retired (R376), or parks it
STOP where a debug stop is pending, or under EVICT leaves it vacant; `tredir` keeps its PC in UEPC and sends it on at the
handler. -/
def Obligations.TrapReturns : Prop :=
  ∀ (a h : Reg) (s : State), Clear s → s.inX7 = true → Settled s →
    let op := s.readG a
    let c := 8 * s.myCore + op.toNat % 8
    let x := s.ctx c
    (x.life = .parked .fault ∨ x.life = .parked .trap) → op.toNat % 256 < 7 →
    let ends := fun (y : Context) (i : Instr) => ∃ t, exec i s = .next t ∧ t.ctx c = y ∧ t.pc = pcOf (s.pc + 4) ∧ t.me.g = s.me.g
    let stopped := { x with pstop := false, life := .parked .stop, stall := .none, attempt := 0, inwfm := false, held := none }
    let on := { x with life := .running, pfault := none }
    let next := if op.getLsbD 8 = true ∧ ¬ (x.cause = 12 ∧ x.info2.getLsbD 17 = true) then x.pc + (if x.info0.extractLsb' 27 5 = 24 then 8 else 4) else x.pc
    (op.toNat < 1024 →
      (x.pstop = true → ends { stopped with pc := pcOf next } (.tret a)) ∧
      (x.pstop = false → op.getLsbD 9 = false → ends { on with pc := pcOf next } (.tret a)) ∧
      (x.pstop = false → op.getLsbD 9 = true → ends Context.vacant (.tret a))) ∧
    (op.toNat < 256 → (s.readG h).toNat % 4 = 0 →
      (x.pstop = true → ends { stopped with uepc := pcOf x.pc, pc := s.readG h } (.tredir h a)) ∧
      (x.pstop = false → ends { on with uepc := pcOf x.pc, pc := s.readG h } (.tredir h a)))

/-- R268-R270, R293: `wfm` waits in place while the queue is empty, and otherwise takes the oldest message into four
registers; `tlbi` leaves no matching translation in the core buffers of its scope. -/
def Obligations.WaitForMessageAndTlb : Prop :=
  ∀ (s : State), Clear s → s.inX7 = true →
    (∀ d : Reg, (s.core s.myCore).mq = [] → exec (.wfm d) s = .next (s.modMe (fun x => { x with inwfm := true }))) ∧
    (∀ (d : Reg) (m : Quad) (rest : List Quad), 0 < d.toNat → d.toNat ≤ 28 → (s.core s.myCore).mq = m :: rest →
      ∃ t more, exec (.wfm d) s = .next t ∧ t.pc = pcOf (s.pc + 4) ∧ (t.core s.myCore).mq = rest ++ more ∧
        t.me.g = tset (tset (tset (tset s.me.g d.toNat m.w0) (d.toNat + 1) m.w1) (d.toNat + 2) m.w2) (d.toNat + 3) m.w3 ∧
        ∀ pa, (t.clWord s.myCluster pa).st ≠ .u) ∧
    (∀ (a : Reg) (sc : Scope) (i : Instr) (hit : TlbEntry → Prop), Settled s → (∀ c ∈ s.clusters, c.2.putq = []) → (∀ e ∈ s.engines, e.2.puts = []) →
      ((i = .tlbiAll sc ∧ hit = fun _ => True) ∨
       (i = .tlbiAsn a sc ∧ hit = fun t => t.asn = (s.readG a).extractLsb' 45 16) ∨
       (i = .tlbiPage a sc ∧ hit = fun t => t.asn = (s.readG a).extractLsb' 45 16 ∧
         ((s.readG a).extractLsb' 0 45).toNat * 4096 / leafSize t.level t.leaf = t.page)) →
      ∃ t, exec i s = .next t ∧ t.pc = pcOf (s.pc + 4) ∧ t.me.g = s.me.g ∧
        ∀ k, (match sc with
          | .ctx => False
          | .core => k = s.myCore
          | .clu => k ∈ s.coresOf s.myCluster
          | .pkg => ∃ cl ∈ s.clustersOf s.mySock, k ∈ s.coresOf cl
          | .sys => ∃ f ∈ s.fuses, s.joined s.mySock f.1 = true ∧ ∃ cl ∈ s.clustersOf f.1, k ∈ s.coresOf cl) → ∀ e ∈ (t.core k).tlb, ¬ hit e)

/-- R279, R280, R283, R284, R286: `tyield`, `tsleep` and `texit` have no effect in X7. In a user context `tyield` goes on
where no READY thread outranks it, and otherwise leaves its context vacant with its thread last in its queue; `tsleep` leaves the
context vacant, with a sleeper of its deadline unless the time is 0; `texit` leaves it vacant, its registers as they were, its
thread ending. -/
def Obligations.YieldSleepAndExit : Prop :=
  ∀ (s : State) (a : Reg), Clear s →
    let cl := s.myCluster
    let e : Sleeper := { tcb := s.me.tcb, deadline := min (2 ^ 64 - 1) (s.clock * 5 / 16 + (s.readG a).toNat) }
    (s.inX7 = true → ∀ i ∈ [Instr.tyield, .tsleep a, .texit], exec i s = .next (s.retireTo (s.pc + 4))) ∧
    (s.inX7 = false →
      (s.outranked = false → exec .tyield s = .next (s.retireTo (s.pc + 4))) ∧
      (s.outranked = true → ∃ t, exec .tyield s = .next t ∧ t.ctx s.cur = Context.vacant ∧
        (t.queue cl s.me.prio.toNat).getLast? = some s.me.tcb) ∧
      (∃ t, exec (.tsleep a) s = .next t ∧ t.ctx s.cur = Context.vacant ∧
        (t.cluster cl).sleepers = (s.cluster cl).sleepers ++
          (if s.readG a ≠ 0 ∧ (s.cluster cl).sleepers.length < 256 then [e] else []) ∧
        (t.cluster cl).sleepOver = (s.cluster cl).sleepOver ++
          (if s.readG a ≠ 0 ∧ 256 ≤ (s.cluster cl).sleepers.length then [e] else [])) ∧
      (∃ t, exec .texit s = .next t ∧ t.ctx s.cur = { s.me.ended with pc := pcOf (s.pc + 4) } ∧
        (t.ctx s.cur).life = .vacant ∧ t.exiting = s.exiting ++ [{ tcb := s.me.tcb, cluster := cl }]))

/-- R73, R276, R279, R281, R282, R285, R287, R319, R320: `tspawn` enters a NEW or ENDED thread that its checks accept last in the
queue of its PRIO, READY, with its wait, sleep and tile fields 0, and in its group, and returns its address; `twake` returns a
thread's state and wakes a SLEEPING one alone, which leaves every sleep table and enters its queue; `tprio` returns a thread's PRIO
and changes it, in its TCB, in its context, and by the queue in which it stands unless it is there by demotion; what the checks
refuse raises PROTECTION with LIMIT. -/
def Obligations.SpawnWakeAndPriority : Prop :=
  (∀ (s : State) (cl tcb : Nat), let u := (readUnit cl 13 (headerWords tcb) s).1
    ((s.enqueue cl tcb).queue cl (u.tcbPrio cl tcb)).getLast? = some tcb) ∧
  ∀ (s : State) (d a b : Reg) (pa : Nat) (hdr : Nat → Word), Free s → Settled s → NamesThread s (s.readG a) pa hdr →
    let cl := s.myCluster
    let prio := (hdr 1).toNat % 32
    let field := fun (t : State) (k : Nat) => t.tcbWord cl pa (0xC00 + 8 * k)
    let ends := fun (i : Instr) (v : Word) (f : State → Prop) => ∃ t, exec i s = .next t ∧ t.me.g = (s.writeG d v).me.g ∧ t.pc = pcOf (s.pc + 4) ∧ f t
    let limit := fun x => Host.Outcome.next (s.takeTrap s.cur (Trap.limit x) s.ir0 s.ir1)
    let here := (hdr 3).getLsbD (cl % 64) = true ∧ (hdr 4).toNat = 0
    (s.spawnRefused pa = true → exec (.tspawn d a) s = limit (s.readG a)) ∧
    ((hdr 4).toNat = 0 → (s.spawnRefused pa = false ↔ ((hdr 0).toNat % 16 = 0 ∨ (hdr 0).toNat % 16 = 6) ∧ prio ≤ 23 ∧
      (s.inX7 = true ∨ prio ≤ s.me.prio.toNat) ∧ (hdr 3 &&& (s.fusesOf s.mySock).clusters) ≠ 0 ∧ (hdr 5).toNat % 4096 = 0 ∧
      ((hdr 5).toNat = 0 ∨ s.backedRange s.mySock (hdr 5).toNat 204800 = true))) ∧
    (Drained s → s.spawnRefused pa = false → ends (.tspawn d a) (BitVec.ofNat 64 pa) (fun t =>
      (here → t.queue cl prio = s.queue cl prio ++ [pa] ∧ (∀ q, q ≠ prio → t.queue cl q = s.queue cl q) ∧
        (s.queue cl prio = [] → field t 0 = 1 ∧ ∀ k ∈ [6, 7, 8, 9, 10, 11], field t k = 0)) ∧
      ((hdr 4).getLsbD 15 = true → let g := (hdr 4).toNat % 256
        let old := tget (s.pkg s.mySock).groups g { tno := (hdr 2).setWidth 12, cluster := s.spawnCluster pa % 64, members := [] }
        tfind (t.pkg s.mySock).groups g = some { old with members := old.members ++ [pa] }))) ∧
    ((hdr 0).toNat % 16 ≠ 5 → exec (.twake d a) s = .next ((s.writeG d (BitVec.ofNat 64 ((hdr 0).toNat % 16))).retireTo (s.pc + 4))) ∧
    ((hdr 0).toNat % 16 = 5 → ends (.twake d a) 5 (fun t => here → (hdr 10).toNat / 64 % 512 = cl → s.hasCluster cl = true →
      (∀ c ∈ s.clusters, c.2.sleepOver = []) → t.queue cl prio = s.queue cl prio ++ [pa] ∧ (s.queue cl prio = [] → field t 0 = 1 ∧ field t 6 = 0) ∧
        ∀ c ∈ s.clustersOf s.mySock, ∀ e ∈ (t.cluster c).sleepers, e.tcb ≠ pa)) ∧
    (23 < (s.readG b).toNat ∨ (s.inX7 = false ∧ s.me.prio.toNat < (s.readG b).toNat) → exec (.tprio d a b) s = limit (s.readG b)) ∧
    ((s.readG b).toNat ≤ 23 → (s.inX7 = true ∨ (s.readG b).toNat ≤ s.me.prio.toNat) →
      let q := (s.readG b).toNat
      ends (.tprio d a b) (BitVec.ofNat 64 prio) (fun t => (s.standing pa = none → field t 1 = s.readG b) ∧
        (∀ c, s.onContext pa = some c → (t.ctx c).prio = BitVec.ofNat 5 q) ∧
        ∀ e k, s.standing pa = some (e, k) →
          (pa ∈ (s.cluster e).demoted → ∀ j, t.queue e j = s.queue e j) ∧
          (pa ∉ (s.cluster e).demoted → (t.queue e q).getLast? = some pa ∧ (k ≠ q → pa ∉ t.queue e k))))

/-- R330-R337: `ctrrd` reads, and in X7 `ctrset` writes, the device counter its selector names, once the slots of an idle core
it counts are accounted for (`selSettle`, log 7); a receipt counter is read
and written in memory; `erd` reads an account; a `cwait` that is met acquires and goes on, and one that is not parks
CWAIT, or in X7 waits, with an entry in the wait table. -/
def Obligations.CountersAndWaits : Prop :=
  ∀ (s : State) (r a : Reg) (im : BitVec 14) (sc : Scope), Free s →
    let sel := s.readG a + im.setWidth 64
    let x := s.readG r
    let settled := s.selSettle sel
    let checked := selIndexOk sel = true ∧ selRsv sel = 0 ∧ s.selUnitOk sel = true
    (isDeviceSel sel = true → checked → (s.inX7 = true ∨ selSupv sel false = false) →
      exec (.ctrrd r a im) s = .next ((settled.writeG r (settled.selRead sel)).retireTo (s.pc + 4))) ∧
    (isDeviceSel sel = true → checked → s.inX7 = true → exec (.ctrset r a im) s = .next ((settled.selWrite sel x).retireTo (s.pc + 4))) ∧
    (∀ i < 8, sel = BitVec.ofNat 64 (2 ^ 63 + i) → s.selRead sel = s.ctr s.mySock 0 (s.cur % 4096) i ∧
      s.selWrite sel x = s.setCtr s.mySock 0 (s.cur % 4096) i x) ∧
    (∀ pa v, isDeviceSel sel = false → Settled s → sel.toNat % 8 = 0 → Maps s sel .read none pa → isDevice pa = false → Owned s pa v →
      exec (.ctrrd r a im) s = .next (s.wrote r v)) ∧
    (∀ pa, isDeviceSel sel = false → Settled s → sel.toNat % 8 = 0 → Maps s sel .write none pa → isDevice pa = false →
      (s.clWord s.myCluster pa).st = .i → s.ownerOf pa = none → tfind s.errs pa = none → s.flights = [] → s.slc = [] → (s.pkg (sockOf pa)).fotbase = 0 → Memory.wf s.mem = true →
      ∃ t, exec (.ctrset r a im) s = .next t ∧ t.pc = pcOf (s.pc + 4) ∧ t.me.g = s.me.g ∧ memWord t.mem pa = x) ∧
    (∀ cl tno, sel.toNat < 2 ^ 20 → cl = (if sel.getLsbD 0 then s.myCluster else 64 * s.mySock + (sel.extractLsb' 2 6).toNat) →
      tno = (if sel.getLsbD 1 then s.me.tno else sel.extractLsb' 8 12) → s.hasCluster cl = true → (s.inX7 = true ∨ tno = s.me.tno) →
      exec (.erd r a im) s = .next (s.wrote r (BitVec.ofInt 64 (s.account cl tno)))) ∧
    (∀ pa v, Settled s → (s.readG a).toNat % 8 = 0 → Maps s (s.readG a) .read none pa → isDevice pa = false → Owned s pa v →
      let e : WaitEntry := { ctr := pa, target := x, scope := sc, who := .ctx s.cur }
      (x.toNat ≤ v.toNat → exec (.cwait r a sc) s = .next ((s.acquireAt s.myCluster sc).retireTo (s.pc + 4))) ∧
      (v.toNat < x.toNat → ∃ t, exec (.cwait r a sc) s = .next t ∧
        t.me = (if s.inX7 then { s.me with held := some { ctr := pa, target := x, scope := sc } }
          else { s.me with life := .parked .cwait, stall := .none, attempt := 0, inwfm := false, held := none }) ∧
        ((s.cluster s.myCluster).waits.length < 1024 → (t.cluster s.myCluster).waits = (s.cluster s.myCluster).waits ++ [e])))

/-- R168-R170, R290: a put of no bytes has no effect; a put within one page retires with its bytes, read from its source,
last in its cluster's put queue, cut where lines end, with the policy, scope and counter it names. -/
def Obligations.PutsEnterThePutQueue : Prop :=
  ∀ (s : State) (d a l c : Reg) (pol : Pol) (sc : Scope) (dpa cpa : Nat), Free s →
    let enters := fun (i : Instr) (kind : BitVec 4) (n : Nat) (bytes : List (BitVec 8)) =>
      let size := (n + 63) / 64 * 64
      (s.cluster s.myCluster).putWait = [] → (s.cluster s.myCluster).putq.length < 64 → s.putBytes s.myCluster + size ≤ 131072 → ∃ ps, PiecesAre ps dpa bytes ∧ exec i s =
        .next (({ s.modCluster s.myCluster (fun x => { x with putq := x.putq ++ [{
            id := s.seq, origin := s.cur, tno := s.me.tno, pc := s.pc, pol := pol, scope := sc, kind := kind,
            ctr := if s.readG c = 0 then none else some cpa, pieces := ps, pending := 0, size := size }] }) with seq := s.seq + 1 } : State).retireTo (s.pc + 8))
    (s.readG l = 0 → exec (.put d a l pol sc c) s = .next (s.retireTo (s.pc + 8))) ∧
    (4096 < (s.readG l).toNat → exec (.put d a l pol sc c) s = .next (s.takeTrap s.cur (Trap.limit (s.readG l)) s.ir0 s.ir1)) ∧
    (Drained s → CounterAt s (s.readG c) pol cpa →
      (∀ (spa n : Nat) (v : Nat → Word), (s.readG l).toNat = n → 0 < n → n ≤ 4096 → Reaches1 s (s.readG a) n .read pol spa →
        Reaches1 s (s.readG d) n .write pol dpa → (∀ j < n, Owned s (spa + j) (v ((spa + j) / 8))) →
        enters (.put d a l pol sc c) 1 n ((List.range n).map (fun j => (v ((spa + j) / 8)).extractLsb' (8 * ((spa + j) % 8)) 8))) ∧
      (Reaches1 s (s.readG d) 64 .write pol dpa →
        enters (.putV d a pol sc c) 2 64 ((List.range 64).map (fun j => laneAt 8 (s.readV a) j))))

/-- R173-R177, R291: a copy writes its record, QUEUED, as owned words of its cluster and enters the copy queue; one of no
bytes writes it DONE and enters nothing; `copy.resume` queues again a record that is SUSPENDED or FAULTED and whose fields are
valid: its STATUS changes at the home by compare-and-swap, and the other words are written as owned ones; on another record it has
no effect. -/
def Obligations.CopiesEnterTheCopyQueue : Prop :=
  ∀ (s : State) (r d a l c : Reg) (pol : Pol) (sc : Scope) (rpa cpa : Nat) (w : Nat → Word), Free s → Drained s →
    (s.readG r).toNat % 128 = 0 → Reaches1 s (s.readG r) 128 .write .own rpa →
    (∀ k < 16, Owned s (rpa + 8 * k) (w k) ∧ s.backed (s.myCluster / 64) (rpa + 8 * k) = true) →
    (s.cluster s.myCluster).copyq.length < 256 → (s.cluster s.myCluster).copyWait = [] →
    let len := (s.readG l).toNat
    let phys := s.inX7 && !(s.core s.myCore).xlat
    let ctl := pol.code + 4 * sc.code + (if phys then 32 else 0) + 256 * (if len = 0 then 3 else 1) + 2 ^ 12 * s.me.tno.toNat + 2 ^ 24 * s.me.asn.toNat
    let record := [s.readG a, s.readG d, s.readG l, BitVec.ofNat 64 cpa, 0, BitVec.ofNat 64 ctl, BitVec.ofNat 64 (s.me.ptroot.toNat * 4096),
      BitVec.ofNat 64 (s.cur % 32768), s.pc, 0, 0, 0, 0, 0, 0, 0]
    let holds := fun (t : State) (f : Nat → Word) => t.pc = pcOf (s.pc + 8) ∧ t.me.g = s.me.g ∧ t.mem = s.mem ∧
      ∀ k < 16, t.clWord s.myCluster (rpa + 8 * k) = { CacheWord.absent with st := .o, data := f k }
    let store := fun k : Nat => ({ ctx := s.cur, tcb := s.me.tcb, tno := s.me.tno, pc := s.pc, pol := .own, rel := s.relOf .plain .ctx,
                                   pa := rpa + 8 * k, n := 8, data := record.getD k 0 } : PendingStore)
    let stores := (List.range 16).map store
    (len = 0 → CounterAt s (s.readG c) pol cpa → exec (.copy r d a pol sc l c) s =
      .next ((s.modCore s.myCore (fun k => { k with sbuf := k.sbuf ++ stores })).retireTo (s.pc + 8))) ∧
    (0 < len → len < 2 ^ 52 → CounterAt s (s.readG c) pol cpa → (s.core s.myCore).sbuf = [] →
      ∃ t, exec (.copy r d a pol sc l c) s = .next t ∧ holds t (fun k => record.getD k 0) ∧
      (t.cluster s.myCluster).copyq = (s.cluster s.myCluster).copyq ++ [{ rpa := rpa, cursor := 0 }]) ∧
    (2 ^ 52 ≤ len → exec (.copy r d a pol sc l c) s = .next (s.takeTrap s.cur (Trap.limit (s.readG l)) s.ir0 s.ir1)) ∧
    (let st := (w 5).extractLsb' 8 4
     (st ≠ 4 → st ≠ 5 → exec (.copyResume r) s = .next (s.retireTo (s.pc + 8))) ∧
     ((st = 4 ∨ st = 5) → (s.inX7 = true ∨ ((w 5).extractLsb' 12 12 = s.me.tno ∧ (w 5).extractLsb' 24 16 = s.me.asn ∧ (w 5).getLsbD 5 = false)) →
       (w 4).toNat ≤ (w 2).toNat → (w 2).toNat < 2 ^ 52 → (w 5).extractLsb' 6 2 = 0 → (w 5).toNat < 2 ^ 40 → (w 7).toNat < 2 ^ 15 →
       (∀ k < 16, 11 ≤ k → w k = 0) → Calm s s.myCluster rpa →
       ∃ t, exec (.copyResume r) s = .next t ∧
         (t.cluster s.myCluster).copyq = (s.cluster s.myCluster).copyq ++ [{ rpa := rpa, cursor := (w 4).toNat }] ∧
         t.pc = pcOf (s.pc + 8) ∧ t.me.g = s.me.g ∧ t.ownerOf (rpa + 40) = none ∧ (t.clWord s.myCluster (rpa + 40)).st = .i ∧
         memWord t.mem (rpa + 40) = ((w 5) &&& ~~~ 0xF00#64) ||| 0x100 ∧ (∀ y, y < rpa + 40 ∨ rpa + 48 ≤ y → memByte t.mem y = memByte s.mem y) ∧
         t.clWord s.myCluster (rpa + 56) = { CacheWord.absent with st := .o, data := BitVec.ofNat 64 (s.cur % 32768) } ∧
         t.clWord s.myCluster (rpa + 64) = { CacheWord.absent with st := .o, data := s.pc } ∧
         (∀ k ∈ [9, 10], t.clWord s.myCluster (rpa + 8 * k) = { CacheWord.absent with st := .o, data := 0 })))

/-- R225, R241, R249, R251, R252: zeroing, moves from a vector register, the transpose of elements with the scale records that
its blocks take, `mset`, and `trel`, which ends the binding and clears TILELOC. -/
def Obligations.TileMoves : Prop :=
  ∀ (s : State) (e b : Nat) (n : BitVec 2) (d a m : BitVec 3) (v g h k : Reg) (w : BitVec 2) (kind : Bool), Clear s → BoundAt s e b →
    let x := (s.readG g).toNat
    WritesAcc s e b (.tzero (.a n)) n (fun new fl => fl = 0 ∧ ∀ i < 64, accRow new i = 0) ∧
    WritesOpd s e b (.tzero (.t d)) d (fun new fl => fl = 0 ∧ ∀ i < 64, new.row i = 0 ∧ new.scaleRow i = 0) ∧
    (x < 512 → WritesAcc s e b (.tmova n v g) n (fun new fl => fl = 0 ∧ ∀ i < 64, ∀ j < 64,
      accElem new i j = if i = x % 64 ∧ j / 8 = x / 64 then laneAt 64 (s.readV v) (j % 8) else accElem (s.accTile e b n) i j)) ∧
    (x < 192 → WritesOpd s e b (.tmovt d v g) d (fun new fl => fl = 0 ∧ ∀ i < 64,
      (∀ j < 16, (new.row i).extractLsb' (64 * j) 64 = if i = x % 64 ∧ j / 8 = x / 64 then laneAt 64 (s.readV v) (j % 8)
        else ((s.opTile e b d).row i).extractLsb' (64 * j) 64) ∧
      new.scaleRow i = if i = x % 64 ∧ x / 64 = 2 then (s.readV v).setWidth 128 else (s.opTile e b d).scaleRow i)) ∧
    (w ≠ 1 → WritesOpd s e b (.ttrans d a w kind) d (fun new fl => fl = 0 ∧ (∀ p < (if w = 0 then 2 else if w = 2 then 4 else 1), ∀ i < 64, ∀ j < 64,
      elemOf w.toNat (new.row j) (64 * p + i) = elemOf w.toNat ((s.opTile e b a).row i) (64 * p + j)) ∧
      (let record := fun (y : OpTile) (i k : Nat) => (y.scaleRow i).extractLsb' (16 * k) 16
       ∀ i < 64, ∀ k < 8, record new i k = if w = 3 ∨ (if w = 0 then 4 else 8) ≤ k then record (s.opTile e b a) i k
         else record (s.opTile e b a) (32 * (k % 2)) (2 * (k / 2) + i / 32)))) ∧
    (1 ≤ (s.readG g).toNat → (s.readG g).toNat ≤ 64 → -(2 ^ 31) ≤ (s.readG h).toInt → (s.readG h).toInt < 2 ^ 31 →
      ∃ t, exec (.mset m g h k) s = .next t ∧ t.pc = pcOf (s.pc + 8) ∧ t.me.g = s.me.g ∧ t.mem = s.mem ∧
        t.me.m = tset s.me.m m.toNat (s.readG k ++ ((s.readG h).setWidth 32 ++ (s.readG g).setWidth 32))) ∧
    (∃ t, exec .trel s = .next t ∧ t.pc = pcOf (s.pc + 8) ∧ t.me.g = s.me.g ∧ tfind (t.engine e).bindings b = none ∧
      ∀ y, Owned s (s.me.tcb + 0xC58) y → t.tcbWord s.myCluster s.me.tcb 0xC58 = 0)

/-- R56-R61, R243-R245, R247, R250: the arithmetic of accumulators, element by element, with its flags. A multiply adds the
products of row i of one operand and row j of the other to element (i, j) in ascending k. -/
def Obligations.TileArithmetic : Prop :=
  ∀ (s : State) (e b : Nat) (d a c : BitVec 2) (p q m : BitVec 3) (g : Reg) (w : BitVec 2) (h : Bool), Clear s → BoundAt s e b →
    let pair := fun n i j => accPair (accRow (s.accTile e b n) i) j
    let row := fun n i => rowValues w.toNat h ((s.opTile e b n).row i) ((s.opTile e b n).scaleRow i)
    let sums := fun x ps => if w = 3 then accumulate2 x 0 ps else accumulate4 x 0 ps
    WritesAcc s e b (.tadd d a c) d (fun new fl => ElemsAre new fl (fun i j => addPair (pair a i j) (pair c i j))) ∧
    WritesAcc s e b (.tscale d a g) d (fun new fl => ElemsAre new fl (fun i j => scalePair (fp32.decode ((s.readG g).setWidth 32).toNat) (pair a i j) (pair a i j))) ∧
    (s.mmaHeld s.myCluster s.me.tno = false → (s.opTile e b p).badRecord w.toNat = none → (s.opTile e b q).badRecord w.toNat = none →
      WritesAcc s e b (.tmma d p q w h) d (fun new fl => ElemsAre new fl (fun i j => sums (pair d i j) (products ((row p i).map some) (row q j)))) ∧
      ((s.opTile e b (q + 1)).badRecord w.toNat = none → (s.opTile e b m).badNibble (if w = 0 then 64 else 32) = none → (w = 0 ∨ w = 3) →
        WritesAcc s e b (.tmmaSp d p q m w h) d (fun new fl => ElemsAre new fl (fun i j =>
          sums (pair d i j) (products (spreadRow ((s.opTile e b m).row i) 0 (row p i)) (row q j ++ row (q + 1) j)))))) ∧
    (∀ tag : BitVec 2, let rows := fun i => convertRow w.toNat h tag.toNat ((List.range 64).map (fun j => accValue (pair a i j)))
      WritesOpd s e b (.tcvt p (.a a) w h tag) p (fun new fl => (∀ i < 64, new.row i = (rows i).1 ∧ new.scaleRow i = (rows i).2.1) ∧
        ∀ k < 5, (fl.getLsbD k = true ↔ ∃ i < 64, (rows i).2.2.getLsbD k = true))) ∧
    (∀ tag : BitVec 2, let rows := fun i => convertRow w.toNat h tag.toNat ((List.range 64).map (fun j =>
        ((if h then fp16 else bf16).decode (((s.opTile e b q).row i).extractLsb' (16 * j) 16).toNat, 0)))
      WritesOpd s e b (.tcvt p (.t q) w h tag) p (fun new fl => (∀ i < 64, new.row i = (rows i).1 ∧ new.scaleRow i = (rows i).2.1) ∧
        ∀ k < 5, (fl.getLsbD k = true ↔ ∃ i < 64, (rows i).2.2.getLsbD k = true)))

/-- R147, R222, R231, R234: tile loads of owned words: row r of the tile holds row r of memory, `tloads`'s scale rows the scale
plane; rows at and above ROWS hold zeros and unit scales. `tload.v` does so where its version word is even; where it is odd it waits for another
attempt, and after VRLIMIT of them raises VERSION_RETRY. -/
def Obligations.TileLoads : Prop :=
  ∀ (s : State) (e b : Nat) (d m : BitVec 3) (base x : Reg) (pol : Pol) (ord : Order) (sc : Scope) (off : BitVec 27) (pa qa : Nat → Nat) (v w : Nat → Nat → Word),
    Free s → Settled s → BoundAt s e b →
    let va := s.readG base + off.signExtend 64
    let h := shapeOf (s.readM m)
    RowsAt s m va 128 .read pol pa → (∀ r < h.rows, ∀ k < 16, Owned s (pa r + 8 * k) (v r k)) →
    let unit := fun _ _ => 0x01FC01FC01FC01FC#64
    WritesOpd s e b (.tload d m base pol ord sc off) d (fun new fl => fl = 0 ∧ RowsHold new h.rows v ∧ ScalesHold new h.rows unit) ∧
    (h.plane = true → ScalesAt s m va .read pol qa → (∀ r < h.rows, ∀ k < 2, Owned s (qa r + 8 * k) (w r k)) →
      WritesOpd s e b (.tloads d m base pol ord sc off) d (fun new fl => fl = 0 ∧ RowsHold new h.rows v ∧ ScalesHold new h.rows w)) ∧
    (∀ (xa : Nat) (n : Word), h.plane = false → (s.readG x).toNat % 8 = 0 → Reaches1 s (s.readG x) 8 .atomic pol xa → Owned s xa n →
      (n.getLsbD 0 = false → WritesOpd s e b (.tloadV d m base pol ord sc x off) d (fun new fl => fl = 0 ∧ RowsHold new h.rows v ∧ ScalesHold new h.rows unit)) ∧
      (n.getLsbD 0 = true → TileReady s e b false →
        (s.me.attempt < s.me.vrlimit.toNat → ∃ t, exec (.tloadV d m base pol ord sc x off) s = .next t ∧
          t.me = { s.me with stall := .retry, attempt := s.me.attempt + 1, resume := s.engineCycles + 16 * (s.me.attempt + 1), iw0 := s.ir0, iw1 := s.ir1 }) ∧
        (s.me.vrlimit.toNat ≤ s.me.attempt → ∃ t, exec (.tloadV d m base pol ord sc x off) s = .next t ∧
          t.me.life = .parked .fault ∧ t.me.cause = 11 ∧ t.me.trapva = s.readG x)))

/-- R135, R146, R236-R238, R289: a tile store leaves, in row order, its translated rows with their bytes in its engine's tile store
queue, the scale row behind the data row where the shape of an operand tile has a scale plane, behind a release where the store or
an earlier fence is one, and between two steps of the version under `.aon`; `put.t` leaves its rows, cut where lines end, for its
engine to send. Accumulator rows are 64 FP32 values. -/
def Obligations.TileStores : Prop :=
  ∀ (s : State) (e b : Nat) (d m : BitVec 3) (a : BitVec 2) (base x : Reg) (pol : Pol) (ord : Order) (sc : Scope) (off : BitVec 27)
    (pa qa : Nat → Nat) (xa : Nat), Free s → Drained s → BoundAt s e b →
    let va := s.readG base + off.signExtend 64
    let h := shapeOf (s.readM m)
    (s.engine e).waiting = [] → (s.readG x).toNat % 8 = 0 → Reaches1 s (s.readG x) 8 .atomic pol xa →
    let opd := (List.range h.rows).flatMap (fun r => (pa r, leBytes ((s.opTile e b d).row r).toNat 128) ::
      (if h.plane then [(qa r, leBytes ((s.opTile e b d).scaleRow r).toNat 16)] else []))
    let acc := (List.range h.rows).map (fun r => (pa r, leBytes (accStoreRow (accRow (s.accTile e b a) r)).1.toNat 256))
    let made := fun (rel : Option Scope) (reg : TReg) (step : DrainStep) => ({
      ctx := s.cur, tcb := s.me.tcb, tno := s.me.tno, pc := s.pc, pol := pol, scope := (s.relOf ord sc).getD .ctx,
      rel := rel, held := some ((s.binding e b).map reg), step := step } : TileDrain)
    let rowsOf := fun (rel : Option Scope) (reg : TReg) (rows : List (Nat × List (BitVec 8))) =>
      rows.map (fun r => made rel reg (.row [{ pa := r.1, bytes := r.2 }]))
    let plain := fun (reg : TReg) (rows : List (Nat × List (BitVec 8))) =>
      (if s.relOf ord sc = none then [] else [made (s.relOf ord sc) reg .release]) ++ rowsOf (s.relOf ord sc) reg rows
    let versioned := fun (reg : TReg) (rows : List (Nat × List (BitVec 8))) =>
      [made none reg .release, made none reg (.version xa)] ++ rowsOf none reg rows ++ [made none reg (.version xa)]
    let stores := fun (i : Instr) (new : List TileDrain) => ∃ t, exec i s = .next t ∧ t.pc = pcOf (s.pc + 8) ∧ t.me.g = s.me.g ∧ t.mem = s.mem ∧
      (t.engine e).storeq = (s.engine e).storeq ++ new ∧ ∀ k, t.opTile e b k = s.opTile e b k
    let puts := fun (reg : TReg) (rows : List (Nat × List (BitVec 8))) => ∃ (t : State) (ps : List (List Piece)), exec (.putT reg m base pol sc x off) s = .next t ∧
      t.pc = pcOf (s.pc + 8) ∧ t.me.g = s.me.g ∧ t.mem = s.mem ∧ ps.length = rows.length ∧
      (∀ k r, rows[k]? = some r → PiecesAre (ps.getD k []) r.1 r.2) ∧
      (t.engine e).puts = (s.engine e).puts ++ ps.zipIdx.map (fun q => {
        id := s.seq + q.2, binding := b, origin := s.cur, tno := s.me.tno, pc := s.pc, pol := pol, scope := sc,
        ctr := if x = 0 then none else some xa, held := some ((s.binding e b).map reg), pieces := q.1, unacked := 0, pending := 0 })
    (RowsAt s m va 128 .write pol pa → (h.plane = true → ScalesAt s m va .write pol qa) → (s.engine e).storeEntries + opd.length + 2 ≤ 256 →
      stores (.tstore d m base pol ord sc off) (plain (.t d) opd) ∧
      stores (.tstoreAon (.t d) m base pol ord sc x off) (versioned (.t d) opd) ∧ puts (.t d) opd) ∧
    (RowsAt s m va 256 .write pol pa → (s.engine e).storeEntries + acc.length + 2 ≤ 256 →
      stores (.tstorea a m base pol ord sc off) (plain (.a a) acc) ∧
      stores (.tstoreAon (.a a) m base pol ord sc x off) (versioned (.a a) acc) ∧ puts (.a a) acc)

/-- R350-R354: an EFC's register instructions write one register of the run in progress, which goes on at the next
instruction, or past the last gives way to the record's next run; `eskip` goes n further where its condition holds; nothing
but the EFC and its counters changes.

R350, R352-R355: what an EFC's instructions do to its data memory: loads, stores, histogram and count-min updates that saturate, and samples; a
trigger posts its message in its core's queue; `ehalt` ends the run. -/
def Obligations.FilterInstructions : Prop :=
  (∀ (s : State) (r : EfcRun) (d a b : BitVec 3) (im : BitVec 17) (n : BitVec 6) (c : BitVec 7), (s.efc s.curEfc).run = some r →
    let x := fun q : BitVec 3 => tget r.regs q.toNat 0
    let goes := fun (i : Instr) (m : Nat) (regs : Tbl Word) => ∃ t, exec i s = .next t ∧
      (t.efc s.curEfc).run = r.goesOn (s.efc s.curEfc) m regs ∧ (t.efc s.curEfc).data = (s.efc s.curEfc).data ∧
      t.ctxs = s.ctxs ∧ t.cores = s.cores ∧ t.mem = s.mem ∧
      t.ctr (s.curEfc / 68) 7 (s.curEfc % 68) 4 = s.ctr (s.curEfc / 68) 7 (s.curEfc % 68) 4 + 1
    let yields := fun (i : Instr) (v : Word) => goes i 1 (tset r.regs d.toNat v)
    let skips := fun (q : BitVec 3) (p : Bool) => goes (.eskip a b q n) (if p then n.toNat + 1 else 1) r.regs
    yields (.eli d im) (im.signExtend 64) ∧ yields (.eadd d a b) (x a + x b) ∧ yields (.eaddi d a im) (x a + im.signExtend 64) ∧
      yields (.esub d a b) (x a - x b) ∧ yields (.eand d a b) (x a &&& x b) ∧ yields (.eandi d a im) (x a &&& im.setWidth 64) ∧
      yields (.eor d a b) (x a ||| x b) ∧ yields (.exor d a b) (x a ^^^ x b) ∧ yields (.eshr d a n) (x a >>> n.toNat) ∧
      yields (.eshl d a n) (x a <<< n.toNat) ∧ yields (.emin d a b) (BitVec.ofNat 64 (min (x a).toNat (x b).toNat)) ∧
      yields (.emax d a b) (BitVec.ofNat 64 (max (x a).toNat (x b).toNat)) ∧
      (∀ j : Nat, 2 ^ j ≤ (x a).toNat → (x a).toNat < 2 ^ (j + 1) → yields (.elog2 d a c) (BitVec.ofNat 64 (min c.toNat (j + 1)))) ∧
      (x a = 0 → yields (.elog2 d a c) 0) ∧
      skips 0 (x a = x b) ∧ skips 1 (x a ≠ x b) ∧ skips 2 ((x a).toNat < (x b).toNat) ∧ skips 3 ((x b).toNat ≤ (x a).toNat)) ∧
  (∀ (s : State) (r : EfcRun) (d a : BitVec 3) (w : BitVec 13), (s.efc s.curEfc).run = some r →
    let e := s.curEfc
    let x := fun q : BitVec 3 => tget r.regs q.toNat 0
    let old := fun k => tget (s.efc e).data k 0
    let inc := fun v : Word => if v.toNat = 2 ^ 64 - 1 then v else v + 1
    let at' := ((x a).toNat + w.toNat) % 8192
    let byte := fun (row k : Nat) => ((x a) >>> (6 + row)).extractLsb' (8 * k) 8
    let cell := fun row : Nat => (w.toNat + 256 * row +
      (byte row 0 ^^^ byte row 1 ^^^ byte row 2 ^^^ byte row 3 ^^^ byte row 4 ^^^ byte row 5 ^^^ byte row 6 ^^^ byte row 7).toNat) % 8192
    let goes := fun (i : Instr) (data : Nat → Word) (regs : Tbl Word) => ∃ t, exec i s = .next t ∧
      (t.efc e).run = r.goesOn (s.efc e) 1 regs ∧ (∀ k, tget (t.efc e).data k 0 = data k) ∧ t.mem = s.mem
    goes (.eld d a w) old (tset r.regs d.toNat (old at')) ∧
    goes (.est d a w) (fun k => if k = at' then x d else old k) r.regs ∧
    goes (.ehinc a w) (fun k => if k = at' then inc (old k) else old k) r.regs ∧
    goes (.ecms d a w) (fun k => if k = cell 0 ∨ k = cell 1 ∨ k = cell 2 ∨ k = cell 3 then inc (old k) else old k)
      (tset r.regs d.toNat (BitVec.ofNat 64 (min (min (inc (old (cell 0))).toNat (inc (old (cell 1))).toNat)
        (min (inc (old (cell 2))).toNat (inc (old (cell 3))).toNat)))) ∧
    (let n := old w.toNat
     let at4 := fun j => (w.toNat + 1 + 4 * (n.toNat % 16) + j) % 8192
     goes (.esamp w) (fun k => if k = w.toNat then n + 1 else if k = at4 0 then r.record.w0 else if k = at4 1 then r.record.w1
       else if k = at4 2 then r.record.w2 else if k = at4 3 then r.record.w3 else old k) r.regs) ∧
    (let core := 512 * (e / 68) + (s.efc e).tcore.toNat
     s.hasCore core = true → (s.core core).mq.length < 64 →
       ∃ t, exec (.etrig a) s = .next t ∧ (t.efc e).run = r.goesOn (s.efc e) 1 r.regs ∧ (t.efc e).data = (s.efc e).data ∧
         (t.core core).mq = (s.core core).mq ++ [{
           w0 := BitVec.ofNat 64 (4 + 16 * (e % 68) + 2 ^ 11 * r.slots.headD 0 + 2 ^ 14 * (r.record.w0.extractLsb' 13 12).toNat), w1 := x a,
           w2 := r.record.w0, w3 := BitVec.ofNat 64 (s.clock * 5 / 16) }]) ∧
    (∃ t, exec .ehalt s = .next t ∧ t.mem = s.mem ∧ (t.efc e).data = (s.efc e).data ∧
      (t.efc e).run = r.nextRun (s.efc e)))

/-- R30, R31, R33, R34, R38, R277: where no tenant is over its share, a dispatcher that has read the headers of its queued threads
puts the eligible thread nearest the head of the highest level that holds one that fits on the first vacant context, with the registers of
its TCB; a pre-emption leaves the victim's context vacant and its thread last in its queue; a pull moves a thread to an idle
dispatcher of its die. A group fits too where its own dispatcher can free what it needs. Where there is nothing to do, nothing
changes.

R35, R39, R154, R226: a TILEBIND park whose cluster has an engine with room and the tiles ends with the thread bound there, to
zeroed tiles where none were saved; a thread that ended is EXITED once its stores and tile stores have been performed, and no
earlier. -/
def Obligations.DispatchersPlaceAndPreempt : Prop :=
  (∀ (s : State) (cl : Nat), (∀ sock tno, s.overShare sock tno = false) →
    let v := s.lookOver cl
    let n := (v.vacants cl).length
    let fits := fun u => (v.party cl u).length ≤ n ∨ (1 < (v.party cl u).length ∧ (v.victimFor cl u).isSome = true)
    ((∀ q, v.queue cl q = s.queue cl q) ∧ ∀ c, isX7 c = false → v.ctx c = s.ctx c) ∧
    ((∀ q < 24, ∀ u ∈ v.queue cl q, v.eligible cl cl q u = false) → exec (.placement cl) s = .next v ∧ exec (.preemption cl) s = .next v) ∧
    ((∀ q < 24, ∀ u ∈ v.queue cl q, ¬ fits u) → exec (.placement cl) s = .next v) ∧
    (∀ q tcb, v.choose cl cl n = some (q, tcb) → q < 24 ∧ tcb ∈ v.queue cl q ∧ v.eligible cl cl q tcb = true ∧ fits tcb ∧
      (∀ p, q < p → p < 24 → ∀ u ∈ v.queue cl p, v.eligible cl cl p u = false ∨ ¬ fits u) ∧
      (v.groupNo cl tcb = none → ∀ x xs, v.vacants cl = x :: xs → ∃ t p,
        exec (.placement cl) s = .next t ∧ tcb ∉ t.queue cl p ∧ v.queueOf cl tcb = some p ∧
        let w := readUnit cl 13 (tcbWords tcb) ((v.unlink cl p tcb).discardU cl)
        let r := w.1.restored cl tcb
        (w.2 = none → t.ctx x = { r with
          placed := w.1.seq, qleft := if r.qleft = 0 then (w.1.takeQuantum (cl / 64) r.tno r.prio.toNat).1 else r.qleft,
          fenced := tfind w.1.fences tcb, since := w.1.time }))) ∧
    (v.preempting cl = none → exec (.preemption cl) s = .next v) ∧
    (∀ u x, v.preempting cl = some u → v.groupNo cl u = none → v.victimFor cl u = some x → x ∈ s.userCtxs cl ∧
      (v.groupNo cl (v.ctx x).tcb = none → ∃ t, exec (.preemption cl) s = .next t ∧ t.ctx x = Context.vacant ∧
        ((v.ctx x).life ≠ .parked .cwait → (t.queue cl (v.ctx x).prio.toNat).getLast? = some (v.ctx x).tcb))) ∧
    (s.idle cl = false → exec (.pull cl) s = .next s) ∧
    (∀ d q tcb p, s.idle cl = true → s.pullable cl = some (d, q, tcb) → s.groupNo d tcb = none → s.queueOf d tcb = some p →
      let w := (s.readHeaders d [tcb]).unlink d p tcb
      ∃ t, exec (.pull cl) s = .next t ∧ tcb ∉ t.queue d p ∧ (t.queue cl (w.tcbPrio cl tcb)).getLast? = some tcb)) ∧
  (∀ (s : State) (c e tcb : Nat), let x := s.ctx c
    let cl := clusterOf c
    let u := s.readHeaders cl [x.tcb]
    (x.life ≠ .parked .tilebind → exec (.tileBinding c) s = .next s) ∧
    (isX7 c = false → x.life = .parked .tilebind → x.tcb ≠ 0 → x.pfault = none → x.pstop = false → s.holder x.tcb = none → s.roomyEngine cl = some e →
      (s.engine e).hasTiles = true → (u.tcbWord cl x.tcb 0xC58).getLsbD 62 = false →
      ∃ t b, exec (.tileBinding c) s = .next t ∧ t.ctx c = { x with life := .running } ∧ (t.binding e b).tcb = x.tcb ∧
        (t.binding e b).acc = ((u.engine e).freeTiles true).take 4 ∧ (t.binding e b).opd = ((u.engine e).freeTiles false).take 8 ∧
        (∀ n i, accRow (t.accTile e b n) i = 0) ∧ ∀ n i, (t.opTile e b n).row i = 0 ∧ (t.opTile e b n).scaleRow i = 0) ∧
    ((∀ z ∈ s.exiting, z.tcb ≠ tcb) → exec (.exitedWrite tcb) s = .next s) ∧
    (∀ zs, s.exiting = { tcb := tcb, cluster := cl } :: zs →
      ((∃ d ∈ s.enginesOf cl, ∃ w ∈ (s.engine d).storeq, w.tcb = tcb) → exec (.exitedWrite tcb) s = .next s) ∧
      ((∃ k ∈ s.coresOf cl, ∃ w ∈ (s.core k).sbuf, w.tcb = tcb) → exec (.exitedWrite tcb) s = .next s) ∧
      ((∀ d ∈ s.enginesOf cl, ∀ w ∈ (s.engine d).storeq, w.tcb ≠ tcb) → (∀ k ∈ s.coresOf cl, ∀ w ∈ (s.core k).sbuf, w.tcb ≠ tcb) →
        (s.clWord cl (tcb + 0xC00)).st = .o → (s.clWord cl (tcb + 0xC00)).bad = false →
        ∃ t, exec (.exitedWrite tcb) s = .next t ∧ t.exiting = zs ∧ t.tcbWord cl tcb 0xC00 = 6)))

/-- R32, R318: a quantum that is over ends with the thread behind its queue where another thread of its effective level is eligible, and
else starts afresh, from its row of the quantum table, 0 there meaning 3,200,000 cycles as no table does; it counts only the cycles in
which its context runs, neither parked nor vacant. -/
def Obligations.QuantumExpiry : Prop :=
  ∀ (s : State) (c : Nat), s.hasCtx c = true → isX7 c = false → (s.ctx c).tcb ≠ 0 →
    let x := s.ctx c
    let home := clusterOf c
    let level := s.effective home x.tcb
    let peer := ∃ k < 24, ∃ u ∈ s.queue home k, s.level home k u = level ∧ s.eligible home home k u = true
    let base := (s.pkg (home / 64)).qtabbase
    let row := base + 128 * (s.tenant (home / 64) x.tno).qsel + 4 * x.prio.toNat
    let fresh := (memWord s.mem (wordOf row)).toNat / 2 ^ (8 * (row % 8)) % 2 ^ 32
    let goesOn := fun n => exec (.quantumExpiry c) s = .next (s.modCtx c (fun y => { y with qleft := n }))
    (x.life ≠ .running ∨ s.quantumLeft c ≠ 0 → exec (.quantumExpiry c) s = .next s) ∧
    (x.life = .running → s.quantumLeft c = 0 →
      (¬ peer → (base = 0 → goesOn 3200000) ∧
        (base ≠ 0 → s.tableBacked (home / 64) (wordOf row) = true → Legible s (wordOf row) 8 → goesOn (if fresh = 0 then 3200000 else fresh)) ∧
        ∃ t, exec (.quantumExpiry c) s = .next t ∧ t.ctx c = { x with qleft := (t.ctx c).qleft }) ∧
      (peer → ∃ t, exec (.quantumExpiry c) s = .next t ∧ t.ctx c = Context.vacant ∧ x.tcb ∈ t.queue home x.prio.toNat ∧
        (s.groupNo home x.tcb = none → (t.queue home x.prio.toNat).getLast? = some x.tcb))) ∧
    ∀ core, ∃ t, exec (.dispatchCycle core) s = .next t ∧ (t.ctx c).qleft = if c / 8 = core ∧ x.life = .running then x.qleft - 1 else x.qleft

/-- R277, R279, R316, R317, R321, R322, R331: a window boundary starts every tenant's use afresh, brings the entries of the
tenant table into force and begins the walks of queue 0, which put a thread last in the queue of its PRIO and leave one of PRIO 0
where it is, demoted no more; a microsecond adds
to a tenant's use, and to CTXNS, the nanoseconds for which user contexts have held its threads; a sleeper whose deadline has
come stands last in the queue of its cluster; a walk of the sleepers' overflow wakes those due and fills the table; a recheck
satisfies a waiter whose counter the cluster owns and reads at or above the target, and no other; a walk of the waiters'
overflow does so too, for an X7 as for a thread, and else takes them into the table. -/
def Obligations.WindowsSleepersAndWaiters : Prop :=
  ∀ (s : State) (sock cl line : Nat),
    let now := s.clock * 5 / 16
    let joins := fun (t w : State) (dflt tcb : Nat) => let v := w.readHeaders cl [tcb]
      let d := v.groupCluster cl tcb dflt
      (t.queue d (((readUnit d 13 (headerWords tcb) v).1).tcbPrio d tcb)).getLast? = some tcb
    let home := fun (w : State) (tcb : Nat) => (w.readHeaders cl [tcb]).homeCluster cl tcb
    let owns := fun (r : State) (e : WaitEntry) (v : Word) =>
      (r.clWord cl e.ctr).st = .o ∧ (r.clWord cl e.ctr).bad = false ∧ (r.clWord cl e.ctr).single = false ∧ (r.clWord cl e.ctr).data = v
    let goesOn := fun (t : State) (c : Nat) => t.ctx c =
      (if isX7 c then { s.ctx c with held := none } else if (s.ctx c).life = .parked .cwait then { s.ctx c with life := .running, pfault := none } else s.ctx c)
    ((s.pkg sock).tentbase = 0 ∨ Legible s (s.pkg sock).tentbase (64 * 4096) →
      ∃ u t, exec (.tenantWindowBoundary sock) s = .next t ∧ (u.pkg sock).used = [] ∧ u.clusters = s.clusters ∧ u.ctxs = s.ctxs ∧ u.mem = s.mem ∧
      (∀ tno, u.tenant sock tno = if (s.pkg sock).tentbase = 0 then Tenant.zero else s.readTenant sock tno.toNat) ∧
      ((∀ d ∈ s.clustersOf sock, s.queue d 0 = []) → t = u) ∧
      t = (s.clustersOf sock).foldl (fun v d =>
        if (v.queue d 0).isEmpty then v else (v.modCluster d (fun c => { c with walk := v.queue d 0 })).walkStep d) u) ∧
    (∃ t, exec (.tenantWindowBoundary sock) s = .next t) ∧
    (∀ x, (s.cluster cl).walk = [x] → ((s.walkStep cl).cluster cl).walk = [] ∧
      (s.tcbPrio cl x ≠ 0 → ((s.walkStep cl).queue cl (s.tcbPrio cl x)).getLast? = some x ∧ x ∉ (s.walkStep cl).queue cl 0) ∧
      (s.tcbPrio cl x = 0 → (s.walkStep cl).queue cl 0 = s.queue cl 0 ∧ x ∉ ((s.walkStep cl).cluster cl).demoted)) ∧
    ((s.ctxs.map (·.1)).Nodup → ((s.pkg sock).unadded.map (·.1)).Nodup → (∀ e ∈ (s.pkg sock).unadded, e.1 < 4096) → (∀ d ∈ s.clusters, d.1 / 64 = sock → d.2.walk = []) →
      let holds := fun e : Nat × Context => e.1 / 4096 == sock && !isX7 e.1 && e.2.life != .vacant
      ∃ t, exec (.contextTimeUpdate sock) s = .next t ∧ t.mem = s.mem ∧ t.clusters = s.clusters ∧ (t.pkg sock).unadded = [] ∧
        (∀ c, t.ctx c = if holds (c, s.ctx c) = true ∧ c ∈ s.ctxs.map (·.1) then { s.ctx c with since := now } else s.ctx c) ∧
        ∀ n, let ns := tget (s.pkg sock).unadded n 0 +
            (((s.ctxs.filter (fun e => holds e && e.2.tno.toNat == n)).map (fun e => now - e.2.since)).sum)
          tget (t.pkg sock).used n 0 = tget (s.pkg sock).used n 0 + ns ∧
            (n < 4096 → t.ctr sock 5 n 3 = s.ctr sock 5 n 3 + BitVec.ofNat 64 ns)) ∧
    ((∀ e ∈ (s.cluster cl).sleepers, now < e.deadline) → exec (.sleepDeadline cl) s = .next s) ∧
    (∀ e, (s.cluster cl).sleepers.find? (fun e => decide (e.deadline ≤ now)) = some e → ∃ t, exec (.sleepDeadline cl) s = .next t ∧
      (t.cluster cl).sleepers = (s.cluster cl).sleepers.erase e ∧
      let w := s.modCluster cl (fun k => { k with sleepers := (s.cluster cl).sleepers.erase e })
      joins t w (home w e.tcb) e.tcb) ∧
    ((∀ e ∈ (s.cluster cl).sleepOver, now < e.deadline) → ∃ t, exec (.sleepOverflowWalk cl) s = .next t ∧
      t.mem = s.mem ∧ t.ctxs = s.ctxs ∧ let room := 256 - (s.cluster cl).sleepers.length
      t.cluster cl = { s.cluster cl with sleepers := (s.cluster cl).sleepers ++ (s.cluster cl).sleepOver.take room, sleepOver := (s.cluster cl).sleepOver.drop room }) ∧
    (∃ t, exec (.sleepOverflowWalk cl) s = .next t ∧ (∀ e ∈ (t.cluster cl).sleepOver, now < e.deadline) ∧
      ∀ e ∈ (s.cluster cl).sleepOver, e.deadline ≤ now → ∃ d q, e.tcb ∈ t.queue d q) ∧
    (∀ e, (s.cluster cl).sleepOver = [e] → e.deadline ≤ now → ∃ t, exec (.sleepOverflowWalk cl) s = .next t ∧ (t.cluster cl).sleepOver = [] ∧
      let w := s.modCluster cl (fun k => { k with sleepOver := [] })
      joins t w (home w e.tcb) e.tcb) ∧
    (let es := (s.cluster cl).waits.filter (fun e => lineOf e.ctr == line)
     let checked := s.modCluster cl (fun k => { k with recheck := k.recheck.filter (· != line) })
     (es = [] → exec (.waitTableRecheck cl line) s = .next checked) ∧
     (∀ e v, es = [e] → owns s e v →
       (v.toNat < e.target.toNat → exec (.waitTableRecheck cl line) s = .next checked) ∧
       (e.target.toNat ≤ v.toNat → ∃ t, exec (.waitTableRecheck cl line) s = .next t ∧
         (t.cluster cl).waits = (s.cluster cl).waits.erase e ∧ (∀ c, e.who = .ctx c → goesOn t c) ∧
         ∀ u, e.who = .thread u → joins t (checked.modCluster cl (fun k => { k with waits := k.waits.erase e })) cl u))) ∧
    ((∀ k ∈ s.coresOf cl, (s.core k).x7wait = none) →
      ((s.cluster cl).waitOver = [] → exec (.waitOverflowWalk cl) s = .next s) ∧
      (∀ tcb v, (s.cluster cl).waitOver = [tcb] → let r := s.readHeaders cl [tcb]
        let e := r.tcbWait cl tcb
        owns r e v →
        (e.target.toNat ≤ v.toNat → ∃ t, exec (.waitOverflowWalk cl) s = .next t ∧ (t.cluster cl).waitOver = [] ∧
          (s.onContext tcb = none → joins t (r.leaveOverflow cl tcb) cl tcb) ∧ ∀ c, s.onContext tcb = some c → goesOn t c) ∧
        (v.toNat < e.target.toNat → 1024 ≤ (s.cluster cl).waits.length → exec (.waitOverflowWalk cl) s = .next r) ∧
        (v.toNat < e.target.toNat → (s.cluster cl).waits.length < 1024 → ∃ t, exec (.waitOverflowWalk cl) s = .next t ∧
          (t.cluster cl).waitOver = [] ∧ (t.cluster cl).waits = (s.cluster cl).waits ++ [e]))) ∧
    (∀ k e v, k ∈ s.coresOf cl → (s.core k).x7wait = some e → e.who = .ctx (x7Of k) → (∀ j ∈ s.coresOf cl, j ≠ k → (s.core j).x7wait = none) →
      (s.cluster cl).waitOver = [] → owns s e v → e.target.toNat ≤ v.toNat → ∃ t, exec (.waitOverflowWalk cl) s = .next t ∧
        (t.core k).x7wait = none ∧ (t.ctx (x7Of k)).held = none)

/-- R142, R146, R225-R227, R237, R288, R289: an engine that runs nothing starts the next instruction of its queue that may
start, once those that wait for a physical tile have taken one in order; the multiply that it runs, one at a time (the model's
reading, log 30), completes in its own context as `tmma` does, in the tile it holds, and a squashed one leaves nothing; the oldest
entry of the tile store queue drains, in the order of the queue (the model's choice, log 37): a release ends, a row's eight bytes
reach an owned word of the cluster, a version step adds one to its word in memory. -/
def Obligations.EngineSteps : Prop :=
  ∀ (s : State) (e : Nat), let x := s.engine e
    let g := grantTiles e x.issue s
    let y := g.engine e
    (x.running.isSome = true → exec (.engineStart e) s = .next s) ∧
    (s.nextIssue e = none → exec (.engineStart e) s = .next s) ∧
    (∀ b i, x.running = none → s.nextIssue e = some (b, i) → g.startable e i = true ∧ i ∈ y.issue ∧ ∃ t, exec (.engineStart e) s = .next t ∧
      t.mem = s.mem ∧ t.ctxs = s.ctxs ∧ t.engine e = { y with issue := y.issue.erase i, running := some i, turn := (b + 1) % 6 }) ∧
    (x.running = none → exec (.tileComplete e) s = .next s) ∧
    (∀ i, x.running = some i →
      (s.live i = false → exec (.tileComplete e) s = .next (s.modEngine e (fun z => z.forget i.ctx))) ∧
      (s.live i = true → let u := { s with cur := i.ctx, ir0 := i.w0, ir1 := i.w1 }
        ∀ b d p q w h k, i.instr = some (.tmma d p q w h) → i.tile = some k → k ∉ (u.binding e b).acc → Free u → BoundAt u e b →
          (∀ z ∈ x.issue, z.tile.isSome = true ∧ z.ctx ≠ i.ctx) →
          (u.opTile e b p).badRecord w.toNat = none → (u.opTile e b q).badRecord w.toNat = none →
          let row := fun n i => rowValues w.toNat h ((u.opTile e b n).row i) ((u.opTile e b n).scaleRow i)
          let sums := fun x ps => if w = 3 then accumulate2 x 0 ps else accumulate4 x 0 ps
          ∃ t fl, exec (.tileComplete e) s = .next t ∧ t.cur = s.cur ∧ t.mem = s.mem ∧
            (t.ctx i.ctx).pc = pcOf ((s.ctx i.ctx).pc + 8) ∧ (t.ctx i.ctx).fst = (s.ctx i.ctx).fst ||| fl ∧
            (∀ c, c ≠ i.ctx → t.ctx c = s.ctx c) ∧ (t.engine e).running = none ∧
            ElemsAre (t.accTile e b d) fl (fun i j =>
              sums (accPair (accRow (u.accTile e b d) i) j) (products ((row p i).map some) (row q j))) ∧
            ∀ n, n ≠ d → t.accTile e b n = s.accTile e b n)) ∧
    (x.storeq = [] → exec (.tileStoreDrain e) s = .next s) ∧
    (∀ d ds, x.storeq = d :: ds →
      let freed := s.modEngine e (fun y => { y with storeq := ds })
      (d.step = .release → d.scope ≠ .pkg → d.scope ≠ .sys → exec (.tileStoreDrain e) s = .next freed) ∧
      (∀ pa bytes, d.step = .row [{ pa := pa, bytes := bytes }] → d.pol = .own → pa % 8 = 0 → bytes.length = 8 → s.backed (e / 4 / 64) pa = true →
        (s.clWord (e / 4) pa).st = .o → (s.clWord (e / 4) pa).bad = false → ∃ t, exec (.tileStoreDrain e) s = .next t ∧ (t.engine e).storeq = ds ∧
          t.mem = s.mem ∧ t.ctxs = s.ctxs ∧ t.clWord (e / 4) pa = { CacheWord.absent with st := .o, data := BitVec.ofNat 64 (leValue bytes) }) ∧
      (∀ pa, d.step = .version pa → pa % 8 = 0 → (∀ a, (s.clWord (e / 4) a).st ≠ .b) → s.flights = [] → s.slc = [] → s.joined (e / 4 / 64) (sockOf pa) = true → (s.clWord (e / 4) pa).st = .i → s.ownerOf pa = none → tfind s.errs pa = none →
        (s.pkg (sockOf pa)).fotbase = 0 → (∀ q ∈ s.dir, q.1 % 64 = 0) → (∀ q ∈ s.proxies, q.1 % 64 = 0) → Memory.wf s.mem = true → ∃ t, exec (.tileStoreDrain e) s = .next t ∧ (t.engine e).storeq = ds ∧
          (∀ c, isX7 c = false → t.ctx c = s.ctx c) ∧ memWord t.mem pa = memWord s.mem pa + 1))

/-- R143, R169, R170, R238, R290: the puts of a cluster take turns, in the order in which they entered: the one whose turn it is sends
its next line, which then waits at its port for admission, and gives back the buffer space of its bytes; after a line of a put
with a counter has landed, an increment by its bytes waits; without one, one message fewer is pending; an engine sends the next
piece of a row of one of its `put.t`s, which waits at its port, and holds the source tile until the row's last has gone.

R174, R176, R261, R291-R293: the oldest record of a copy queue enters the active set with the fields it holds, and reads
ACTIVE (a SCOPE of 5 to 7 counts as .sys: the model's choice, log 46); active records take turns in the order in which they were
taken up; a copy that is done leaves the set, and one of a suspended tenant stops with a message for X7 of the core that ORIGIN
names; a burst of a physical copy from owned words reaches memory that no cluster tracks, and the cursor moves past it; waiting
stop messages and trap records enter a queue that has room (where both wait, log 43). -/
def Obligations.PutAndCopySteps : Prop :=
  (∀ (s : State) (cl id bytes e : Nat), let x := s.cluster cl
    let flight := fun (c unit sub : Nat) (r : Req) => ({ place := .waiting unit, sub := sub, classA := false, cm := false, port := portAt c r.line, slice := sliceOf (s.entryHome (c / 64) r.line), req := r, served := none, far := none } : Flight)
    ((∀ z ∈ x.putq, z.pieces = []) → exec (.putLineSend cl) s = .next s) ∧
    ((∃ z ∈ x.putq, z.pieces ≠ []) → x.nextPut.isSome = true) ∧
    (∀ z, x.nextPut = some z → z ∈ x.putq ∧ z.pieces ≠ [] ∧ ((x.putq.map (·.id)).Pairwise (· < ·) → ∀ y ∈ x.putq, y.pieces ≠ [] →
      (x.putTurn ≤ y.id → x.putTurn ≤ z.id ∧ z.id ≤ y.id) ∧ ((∀ w ∈ x.putq, w.pieces ≠ [] → w.id < x.putTurn) → z.id ≤ y.id))) ∧
    (∀ z p ps, x.nextPut = some z → z.pieces = p :: ps →
      let sent : PutEntry := { z with pieces := ps, pending := z.pending + 1, size := ((ps.map (fun q => q.bytes.length)).sum + 63) / 64 * 64 }
      exec (.putLineSend cl) s = .next { s.modCluster cl (fun k => { k with putq := x.putq.map (fun y => if y.id = z.id then sent else y), putTurn := z.id + 1 }) with
        flights := s.flights ++ [flight cl 14 0 (Req.piece (z.agent cl) z.kind p (z.ctr.getD 0) (.put cl z.id))] }) ∧
    ((∀ z ∈ x.putq, z.id ≠ id) → exec (.putLineLanded cl id bytes) s = .next s) ∧
    (∀ z qs, x.putq = z :: qs → z.id = id →
      (∀ c, z.ctr = some c → exec (.putLineLanded cl id bytes) s = .next { s with
        flights := s.flights ++ [flight cl 14 0 (Req.increment (z.agent cl) c bytes z.scope (.inc cl id))] }) ∧
      (z.ctr = none → (∀ y ∈ qs, y.id ≠ id) → exec (.putLineLanded cl id bytes) s = .next (s.modCluster cl (fun k => { k with
        putq := (if z.pieces = [] ∧ z.pending ≤ 1 then [] else [{ z with pending := z.pending - 1 }]) ++ qs })))) ∧
    ((s.engine e).openRows = [] → exec (.putTPiece e) s = .next s) ∧
    ((s.engine e).openRows ≠ [] → ∃ t z q qs, exec (.putTPiece e) s = .next t ∧ z ∈ (s.engine e).puts ∧ z.pieces = q :: qs ∧ t.mem = s.mem ∧ t.ctxs = s.ctxs ∧
      t.flights = s.flights ++ [flight (e / 4) (8 + e % 4) z.binding (Req.piece (z.agent e) 3 q (z.ctr.getD 0) (.tput e z.id))] ∧
      (t.engine e).puts = (s.engine e).puts.map (fun y => if y.id = z.id then
        { z with pieces := qs, unacked := z.unacked + 1, pending := z.pending + 1, held := if qs = [] then none else z.held } else y))) ∧
  (∀ (s : State) (cl core : Nat), let k := s.cluster cl
    (k.copyq = [] ∨ 8 ≤ k.copies.length + k.stops.length → exec (.copyTakeUp cl) s = .next s) ∧
    (∀ q rest (w : Nat → Word), k.copyq = q :: rest → k.copies.length + k.stops.length < 8 → q.rpa % 128 = 0 →
      (∀ j < 16, let y := s.clWord cl (q.rpa + 8 * j); y.st = .o ∧ y.bad = false ∧ y.single = false ∧ y.data = w j) → ∃ t r, exec (.copyTakeUp cl) s = .next t ∧ (t.cluster cl).copyq = rest ∧ (t.cluster cl).copies = k.copies ++ [r] ∧
        r.id = s.seq ∧ r.rpa = q.rpa ∧ r.src = w 0 ∧ r.dst = w 1 ∧ r.len = (w 2).toNat ∧ r.ctr = (w 3).toNat ∧ r.cursor = (w 4).toNat ∧
        r.pol.code = (w 5).toNat % 4 ∧ r.scope = scopeFrom ((w 5).extractLsb' 2 3).toNat ∧ r.ptroot = ((w 6).extractLsb' 12 40).toNat * 4096 ∧
        r.phys = (w 5).getLsbD 5 ∧ r.tno = (w 5).extractLsb' 12 12 ∧ r.asn = (w 5).extractLsb' 24 16 ∧ r.origin = (w 7).toNat % 2 ^ 15 ∧ r.pc = w 8 ∧
        (t.unitWord cl (q.rpa + 40)).extractLsb' 8 4 = 2) ∧
    (k.copies = [] → exec (.copyBurst cl) s = .next s) ∧
    (k.copies ≠ [] → k.nextCopy.isSome = true) ∧
    (∀ r, k.nextCopy = some r →
      (r ∈ k.copies ∧ ((k.copies.map (·.id)).Pairwise (· < ·) → ∀ y ∈ k.copies,
        (k.copyTurn ≤ y.id → k.copyTurn ≤ r.id ∧ r.id ≤ y.id) ∧ ((∀ z ∈ k.copies, z.id < k.copyTurn) → r.id ≤ y.id))) ∧
      (r.len ≤ r.cursor → ∃ t, exec (.copyBurst cl) s = .next t ∧ (t.cluster cl).copies = k.copies.erase r ∧ (t.cluster cl).stops = k.stops) ∧
      (r.cursor < r.len → (s.tenant (cl / 64) r.tno).susp = true → ∃ t n, exec (.copyBurst cl) s = .next t ∧ (t.cluster cl).copies = k.copies.erase r ∧
        (t.cluster cl).stops = k.stops ++ [{ core := r.origin / 8 % 4096, stamp := n, msg := ⟨66, BitVec.ofNat 64 r.rpa, BitVec.ofNat 64 r.cursor, 0⟩ }]) ∧
      (let a := r.src.toNat + r.cursor
       let b := r.dst.toNat + r.cursor
       let n := min (r.len - r.cursor) (256 - b % 256)
       ∀ v : Nat → Word, r.cursor + n < r.len → (s.tenant (cl / 64) r.tno).susp = false → r.phys = true → r.pol = .own → r.ctr = 0 → s.flights = [] → s.slc = [] → a + n ≤ 2 ^ 52 → b + n ≤ 2 ^ 52 →
         (∀ j < n, s.backed (cl / 64) (a + j) = true ∧ s.backed (cl / 64) (b + j) = true ∧ isDevice (a + j) = false ∧ isDevice (b + j) = false ∧
           (s.clWord cl (a + j)).st = .o ∧ (s.clWord cl (a + j)).bad = false ∧ (s.clWord cl (a + j)).single = false ∧ (s.clWord cl (a + j)).data = v ((a + j) / 8) ∧
           (∀ w < 8, (s.clWord cl (lineOf (b + j) + 8 * w)).st = .i) ∧ s.dirOf (lineOf (b + j)) = DirEntry.absent ∧ (s.pkg (sockOf (b + j))).fotbase = 0 ∧ (s.pkg (sockOf (b + j))).farVal = false) →
         Memory.wf s.mem = true → ∃ t, exec (.copyBurst cl) s = .next t ∧ t.ctxs = s.ctxs ∧ (t.cluster cl).copyTurn = r.id + 1 ∧
           (t.cluster cl).copies = k.copies.map (fun y => if y.id = r.id then { r with cursor := r.cursor + n } else y) ∧
           ∀ pa, memByte t.mem pa = if b ≤ pa ∧ pa < b + n then (v ((a + (pa - b)) / 8)).extractLsb' (8 * ((a + (pa - b)) % 8)) 8 else memByte s.mem pa)) ∧
    (k.stops = [] → exec (.copyStopMsgEnter cl) s = .next s) ∧
    (∀ c, k.stops = [c] → s.stopFor c.core = some (cl, c) → (s.core c.core).slots = [] → (s.core c.core).mq.length < 64 →
      ∃ t more, exec (.copyStopMsgEnter cl) s = .next t ∧ (t.cluster cl).stops = [] ∧ (t.core c.core).mq = (s.core c.core).mq ++ c.msg :: more ∧ (t.ctx (x7Of c.core)).inwfm = false ∧ t.mem = s.mem) ∧
    ((s.core core).slots = [] ∨ 64 ≤ (s.core core).mq.length → exec (.trapRecordEnter core) s = .next s) ∧
    (∀ j m rest, (s.core core).slots = (j, m) :: rest → (s.core core).mq.length < 64 → ∃ t more, exec (.trapRecordEnter core) s = .next t ∧
      (t.core core).mq = (s.core core).mq ++ m :: more ∧ (t.ctx (x7Of core)).inwfm = false ∧ t.mem = s.mem))

/-- R295, R296, R298-R300: a port admits the next waiting request while fewer than W are outstanding and the first switch has
room; its fifteen units take turns, and within a unit the contexts of a core or the bindings of an engine; a switch output sends its
head on where the next queue has room, and a request output where more than 12 class R messages
stood marks it; the reply that ends a class R request gives the port a place back and moves its window: a marked reply halves
it once, and W unmarked ones raise it. -/
def Obligations.ButterflySteps : Prop :=
  ∀ (s : State) (port stage sw out : Nat) (cmx : Bool), let p := s.port port
    (s.nextAdmission port = none → exec (.requestAdmission port) s = .next s) ∧
    (∀ f u, s.nextAdmission port = some f → f.place = .waiting u →
      f ∈ s.flights ∧ f.port = port ∧
      (∀ g ∈ s.flights, ∀ v < 15, g.port = port → g.classA = false → g.place = .waiting v →
        (u + 15 - p.turn % 15) % 15 ≤ (v + 15 - p.turn % 15) % 15 ∧
        (v = u → (f.sub % 8 + 8 - tget p.within u 0 % 8) % 8 ≤ (g.sub % 8 + 8 - tget p.within u 0 % 8) % 8)) ∧
      (p.w ≤ p.out ∨ s.roomAt (stage1 f.port f.slice) f = false → exec (.requestAdmission port) s = .next s) ∧
      (p.out < p.w → s.roomAt (stage1 f.port f.slice) f = true → ∃ t, exec (.requestAdmission port) s = .next t ∧
        t.flights = s.flights.erase f ++ [{ f with place := stage1 f.port f.slice }] ∧
        t.port port = { p with out := p.out + 1, turn := (u + 1) % 15, within := tset p.within u ((f.sub + 1) % 8) } ∧ t.mem = s.mem ∧ t.ctxs = s.ctxs)) ∧
    (let here := standsIn stage sw out
     (s.headOf here = none → exec (.switchForward stage sw out) s = .next s) ∧
     ∀ f, s.headOf here = some f →
       let full := decide (12 < (s.flights.filter (fun g => g.place == f.place && !g.classA)).length)
       let marks := !f.classA && (match f.place with | .output _ _ _ => full | _ => false)
       let g := { f with place := s.nextPlace f, cm := f.cm || marks }
       exec (.switchForward stage sw out) s = .next (if s.roomAt g.place f then { s with flights := s.flights.erase f ++ [g] } else s)) ∧
    (let first := s.flights.find? (fun f => f.port == port && f.place == .reply)
     (first = none → exec (.endingReply port cmx) s = .next s) ∧
     ∀ f, first = some f → (f.cm ≠ cmx → exec (.endingReply port cmx) s = .next s) ∧
      (f.cm = cmx → f.req.tag = .none →
        ∃ t, exec (.endingReply port cmx) s = .next t ∧ t.flights = s.flights.erase f ∧ t.mem = s.mem ∧ t.ctxs = s.ctxs ∧
        t.port port = if f.classA then p
          else if cmx = true ∧ p.h = 0 then { p with h := p.w, w := max 1 (p.w / 2), n := 0, out := p.out - 1 }
          else if cmx then { p with h := p.h - 1, out := p.out - 1 }
          else if p.w ≤ p.n + 1 then { p with h := p.h - 1, w := min 64 (p.w + 1), n := 0, out := p.out - 1 }
          else { p with h := p.h - 1, n := p.n + 1, out := p.out - 1 }))

/-- R115, R117-R120: a home serves a request for words of a line that no cluster tracks: reads answer the first word they name, and
a tracked one makes the requester a sharer; `Own` makes it the owner of each word named; writes put their bytes, and no
others, into memory; an atomic add of one word answers the old value and adds. A write-back from the owner of the words that it
names leaves them stored and unowned, their owner a tracked sharer where it keeps its copies, and every other word and owner as
they were. Memory changes nowhere else.

R105, R114, R115, R119: a word that another cluster owns, of the home's socket or of another, without error: a tracked read
answers the owner's value, leaves it a tracked sharer and writes its value to memory; `Own` takes the word from it and makes the
requester its owner. -/
def Obligations.HomesServeRequests : Prop :=
  (∀ (s : State) (r : Req) (x : Nat), r.line % 64 = 0 → r.words ≠ 0 → r.src = some x → r.acq = none → r.rel = none →
    s.flights = [] → s.slc = [] → (∀ w < 8, tfind s.errs (r.line + 8 * w) = none) →
    (s.pkg (sockOf r.line)).fotbase = 0 → (s.pkg (sockOf r.line)).farVal = false → Memory.wf s.mem = true →
    (∀ e ∈ s.dir, e.1 % 64 = 0) → (∀ e ∈ s.proxies, e.1 % 64 = 0) → s.joined (x / 64) (sockOf r.line) = true →
    let at' := fun w => memWord s.mem (r.line + 8 * w)
    let named := fun w => r.words.getLsbD w
    (s.dirOf r.line = DirEntry.absent → (∀ w < 8, (s.clWord x (r.line + 8 * w)).st = .i) →
      let first := fun v => ∃ w < 8, named w = true ∧ (∀ k < w, named k = false) ∧ v = some (at' w)
      let reads := fun (i : Instr) => ∃ t, exec i s = .next t ∧ t.mem = s.mem ∧ t.clusters = s.clusters ∧ first t.answer
      let writes := fun (i : Instr) (f : Nat → Word) => ∃ t, exec i s = .next t ∧ Memory.wf t.mem = true ∧
        (∀ w < 8, memWord t.mem (r.line + 8 * w) = if named w then f w else at' w) ∧
        ∀ pa, pa < r.line ∨ r.line + 64 ≤ pa → tfind s.dir (lineOf pa) = none → memByte t.mem pa = memByte s.mem pa
      let bytes := fun w => mergeWord (at' w) (lineWord r.data w) (wordMask r.mask w)
      reads (.homeRdu r) ∧ reads (.homeRdw r) ∧
      (∃ t, exec (.homeRdt r) s = .next t ∧ x ∈ t.sharersOf r.line ∧ first t.answer ∧
        (s.dir.length + s.proxies.length < 15 → t.clusters = s.clusters ∧ t.mem = s.mem)) ∧
      (∃ t, exec (.homeOwn r) s = .next t ∧ first t.answer ∧ ∀ w < 8, t.ownerOf (r.line + 8 * w) = if named w then some x else none) ∧
      writes (.homeWrt r) bytes ∧ writes (.homeWrs r) bytes ∧ writes (.homeWrw r) bytes ∧ writes (.homePutLine r) bytes ∧
      (∀ w < 8, r.words = BitVec.ofNat 8 (2 ^ w) → r.addr = r.line + 8 * w → r.size = 8 → r.op = .add →
        writes (.homeAth r) (fun w => at' w + r.x) ∧ ∃ t, exec (.homeAth r) s = .next t ∧ t.answer = some (at' w))) ∧
    ((∀ w < 8, named w = true → s.ownerOf (r.line + 8 * w) = some x) → s.joined (sockOf r.line) (x / 64) = true →
      (r.keep = true → s.dir.length + s.proxies.length < 15) →
      ∃ t, exec (.homeWb r) s = .next t ∧ Memory.wf t.mem = true ∧
        (∀ w < 8, let pa := r.line + 8 * w
          if named w then memWord t.mem pa = lineWord r.data w ∧ t.ownerOf pa = none
          else memWord t.mem pa = at' w ∧ t.ownerOf pa = s.ownerOf pa) ∧
        (r.keep = true → x ∈ t.sharersOf r.line) ∧ ∀ pa, pa < r.line ∨ r.line + 64 ≤ pa → memByte t.mem pa = memByte s.mem pa)) ∧
  (∀ (s : State) (r : Req) (w x c : Nat) (v : Word), w < 8 → r.line % 64 = 0 → r.words = BitVec.ofNat 8 (2 ^ w) → r.src = some x → c ≠ x → r.acq = none →
    s.flights = [] → s.slc = [] → (s.dirOf r.line).owners = [(w, partyOf r.line c)] → s.ownerOf (r.line + 8 * w) = some c →
    (s.dirOf r.line).sharers = [] → tfind s.errs (r.line + 8 * w) = none → s.dir.length + s.proxies.length < 15 →
    (s.pkg (sockOf r.line)).fotbase = 0 → Memory.wf s.mem = true → (s.clWord x (r.line + 8 * w)).st = .i →
    s.joined (x / 64) (sockOf r.line) = true → s.joined (sockOf r.line) (c / 64) = true →
    let pa := r.line + 8 * w
    (s.clWord c pa).st = .o → (s.clWord c pa).bad = false → (s.clWord c pa).data = v →
    (∃ t, exec (.homeRdt r) s = .next t ∧ t.answer = some v ∧ memWord t.mem pa = v ∧ (t.clWord c pa).st = .t ∧ t.ownerOf pa = none ∧
      c ∈ t.sharersOf r.line ∧ x ∈ t.sharersOf r.line) ∧
    (∃ t, exec (.homeOwn r) s = .next t ∧ t.answer = some v ∧ (t.clWord c pa).st = .i ∧ t.ownerOf pa = some x))

/-- R105, R128: an invalidation takes a T or U word and leaves an O or B word; a recall takes the owned word and answers it, a
downgrade leaves it tracked, a forwarded read leaves it owned; a word not owned is answered "not owner" and stays. The answer
to an invalidation says whether a T word of the line remains. Every other word stays.

R171, R172: a refused write of a tenant whose log has no place is counted, as refused and as lost, and touches no
memory, whether the tenant has no log or its log is full; one whose log has room stands in the next of its 64-byte places, and the
count of records written rises by one. -/
def Obligations.CachesAnswerAndWritesRefused : Prop :=
  (∀ (s : State) (cl line w : Nat), let pa := line - line % 64 + 8 * (w % 8)
    let x := s.clWord cl pa
    let others := fun (t : State) => t.mem = s.mem ∧ t.ctxs = s.ctxs ∧ ∀ c q, (c ≠ cl ∨ wordOf q ≠ wordOf pa) → t.clWord c q = s.clWord c q
    (∃ t, exec (.invalidation cl line w) s = .next t ∧ others t ∧ t.clWord cl pa = (if x.st = .t ∨ x.st = .u then CacheWord.absent else x) ∧
      t.answer = some (if (t.clLine cl (lineOf pa)).words.any (fun e => e.2.st == .t) then 1 else 0)) ∧
    (x.st = .o → x.bad = false →
      (∃ t, exec (.recallWord cl line w) s = .next t ∧ others t ∧ t.clWord cl pa = CacheWord.absent ∧ t.answer = some x.data) ∧
      (∃ t, exec (.downgrade cl line w) s = .next t ∧ others t ∧ t.clWord cl pa = { x with st := .t, mask := 0, single := false } ∧ t.answer = some x.data) ∧
      exec (.forwardedRead cl line w) s = .next { s with answer := some x.data }) ∧
    (x.st ≠ .o → ∀ i ∈ [Instr.recallWord cl line w, .downgrade cl line w, .forwardedRead cl line w], exec i s = .next { s with answer := none })) ∧
  (∀ (s : State) (d : DeadLetter), let sock := sockOf d.pa
    let log := s.tenant sock d.tno
    let n := s.tableWord sock log.dlbase
    let taken := s.tableWord sock (log.dlbase + 8)
    let refused := fun (t : State) => t.ctr sock 5 d.tno.toNat 0 = s.ctr sock 5 d.tno.toNat 0 + 1
    let lost := ∃ t, exec (.deadLetterAppend d) s = .next t ∧ refused t ∧ t.ctr sock 5 d.tno.toNat 1 = s.ctr sock 5 d.tno.toNat 1 + 1 ∧
      t.mem = s.mem ∧ t.ctxs = s.ctxs ∧ t.clusters = s.clusters
    s.flights = [] → s.ownerOf log.dlbase = none → s.ownerOf (log.dlbase + 8) = none →
    (log.dlsize = 0 → lost) ∧
    (s.slc = [] → tfind s.errs log.dlbase = none → tfind s.errs (log.dlbase + 8) = none → s.tableBacked sock log.dlbase = true →
      (0 < log.dlsize → log.dlsize ≤ (n - taken).toNat → lost) ∧
      (let base := log.dlbase + 64 + 64 * (n.toNat % log.dlsize)
       base + 64 ≤ 2 ^ 52 → log.dlbase % 64 = 0 → (n - taken).toNat < log.dlsize → Memory.wf s.mem = true →
       (∀ k < 8, s.tableBacked sock (base + 8 * k) = true) → s.dirOf base = DirEntry.absent → s.dirOf log.dlbase = DirEntry.absent →
       ∃ t, exec (.deadLetterAppend d) s = .next t ∧ refused t ∧ memWord t.mem log.dlbase = n + 1 ∧
        memWord t.mem base = BitVec.ofNat 64 (d.kind.toNat + d.tno.toNat * 2 ^ 4 + d.fote.toNat * 2 ^ 16 + d.origin % 32768 * 2 ^ 32) ∧
        memWord t.mem (base + 8) = d.pc ∧ memWord t.mem (base + 16) = BitVec.ofNat 64 d.pa ∧ memWord t.mem (base + 24) = d.mask ∧
        memWord t.mem (base + 32) = BitVec.ofNat 64 d.ctr ∧ memWord t.mem (base + 40) = BitVec.ofNat 64 d.copyRec ∧
        memWord t.mem (base + 48) = BitVec.ofNat 64 (s.clock * 5 / 16) ∧ memWord t.mem (base + 56) = 0)))

/-- R342: an unmetered account reads 0, is never debited and never throttles; a debit stops at -2^62; a metered one rises by ERATE
at each microsecond boundary, to 1000 times ERATE; it starts from 0 when metering begins. -/
def Obligations.EnergyAccounts : Prop :=
  ∀ (s : State) (sock cl n t0 t1 : Nat) (no : BitVec 12) (new : Tenant),
    let rate := (s.tenant (cl / 64) no).erate
    (rate = 0 → s.account cl no = 0 ∧ s.debit cl no n = s ∧ s.mmaHeld cl no = false) ∧
    (rate ≠ 0 → (s.debit cl no n).account cl no = max (-(2 ^ 62)) (s.account cl no - n)) ∧
    (((s.pkg sock).tenants.map (·.1)).Nodup → (∀ z ∈ (s.pkg sock).tenants, z.1 < 4096) → ∃ t, exec (.energyRefill sock) s = .next t ∧
      t = { s with energy := t.energy } ∧ ∀ cl (tno : BitVec 12), t.account cl tno = if s.hasCluster cl = true ∧ cl / 64 = sock ∧ s.metered cl tno = true
        then min (1000 * ((s.tenant sock tno).erate : Int)) (s.account cl tno + (s.tenant sock tno).erate) else s.account cl tno) ∧
    (t0 / 1000 ≠ t1 / 1000 → ∀ f ∈ s.fuses, Instr.energyRefill f.1 ∈ s.boundary t0 t1) ∧
    ((s.tenant (cl / 64) no).erate = 0 → (s.forceTenant (cl / 64) no.toNat new).account cl no = 0) ∧
    ((s.pkg sock).tentbase ≠ 0 → (s.readTenant sock n).erate = (s.tableWord sock ((s.pkg sock).tentbase + 64 * n + 0x28)).toNat % 2 ^ 32)

/-- R326, R341, R348, R350, R351: at a microsecond each limited allowance rises by its budget, to its bound; an EFC that runs nothing takes the oldest record of the next FIFO, and runs the slots of the entries that match it,
in their order, unless the tenant's allowance is spent.

R310, R313, R314, R316, R351: a FOTSYNC of a frame of its socket makes the entry that memory now holds, where it is read without
error, the one in force at every home of the frame; where it is locked, no cluster owns a word of the frame any more and no tracked
sharer holds one of its words. A TENTSYNC brings the tenant's entry, as memory holds it, into force and starts its allowances
afresh. A value with a reserved bit set, or of a frame of another socket, is ignored (the last is the model's reading, log 47). -/
def Obligations.FiltersAndTables : Prop :=
  (∀ (s : State) (sock e : Nat),
    ((s.efcs.map (·.1)).Nodup → ∃ t, exec (.efcBudgetRefill sock) s = .next t ∧ t = { s with efcs := t.efcs } ∧
      ∀ k (tno : BitVec 12), t.efc k = { s.efc k with allow := (t.efc k).allow } ∧
        t.allowance k tno = (s.allowance k tno).map (fun b =>
          if k / 68 = sock ∧ (tfind (s.efc k).allow tno.toNat).isSome then min (((s.tenant sock tno).ebudget : Int)) (b + (s.tenant sock tno).ebudget) else b)) ∧
    (let x := s.efc e
     (x.run.isSome = true ∨ (∀ k < 16, tget x.fifos k [] = []) → exec (.efcTakeRecord e) s = .next s) ∧
     ∀ r rest, x.run = none → tget x.fifos (x.turn % 16) [] = r :: rest →
      let left := fun (t : State) (run : Option EfcRun) => tget (t.efc e).fifos (x.turn % 16) [] = rest ∧ (t.efc e).turn = (x.turn % 16 + 1) % 16 ∧ (t.efc e).run = run ∧
        (t.efc e).data = x.data ∧ t.mem = s.mem ∧ t.ctxs = s.ctxs
      let tno := r.w0.extractLsb' 13 12
      let named := x.matching (decide (64 ≤ e % 68)) r
      let ks := named.filter (fun k => tget x.slotlen k 0 != 0)
      (∀ k ∈ named, ∃ a : Nat × Word, a ∈ x.attach ∧ a.1 < 64 ∧ a.2.getLsbD 0 = true ∧ a.2.toNat < 2 ^ 41 ∧ (64 ≤ e % 68 → a.2.extractLsb' 17 8 = 0) ∧
        a.2.extractLsb' 1 8 = r.w0.extractLsb' 0 8 ∧
        a.2.getLsbD (9 + (r.w0.extractLsb' 8 5).toNat) = true ∧ (a.2.getLsbD 37 = true ∨ a.2.extractLsb' 25 12 = tno) ∧ k = (a.2.extractLsb' 38 3).toNat) ∧
      (x.en = false ∨ named = [] → ∃ t, exec (.efcTakeRecord e) s = .next t ∧ left t none) ∧
      (x.en = true → named ≠ [] → (∀ b, s.allowance e tno = some b → 0 < b) → ∃ t, exec (.efcTakeRecord e) s = .next t ∧ left t
        (if ks = [] then none else some { record := r, slots := ks, index := 0, regs := [(0, r.w0), (1, r.w1), (2, r.w2), (3, r.w3)], lens := x.slotlen, prog := x.prog, began := x.prog })) ∧
      (x.en = true → named ≠ [] → (∃ b, s.allowance e tno = some b ∧ b ≤ 0) → ∃ t, exec (.efcTakeRecord e) s = .next t ∧ left t none ∧
        t.ctr (e / 68) 5 tno.toNat 2 = s.ctr (e / 68) 5 tno.toNat 2 + 1))) ∧
  (∀ (s : State) (sock : Nat) (x : Word), sock < 8 →
    let pa := x.toNat
    let p := s.pkg sock
    (pa % 4096 ≠ 0 ∨ 2 ^ 52 ≤ pa ∨ s.isMemory pa = false ∨ sockOf pa ≠ sock → exec (.fotsync sock x) s = .next s) ∧
    (pa % 4096 = 0 → pa < 2 ^ 52 → s.isMemory pa = true → sockOf pa = sock →
      (p.fotbase = 0 → exec (.fotsync sock x) s =
        .next { s with fot := s.fot.filter (fun e => e.1 % 2 ^ 30 != frameOf pa || e.1 / (2 ^ 30 * 544) != sock) }) ∧
      (p.fotbase ≠ 0 → Legible s (wordOf (p.fotbase + 2 * frameOf pa)) 8 → ∃ t, exec (.fotsync sock x) s = .next t ∧
        (∀ k < 64, t.fotEntry (pa + 64 * k) = s.fotRead pa) ∧
        ((s.fotRead pa).getLsbD 15 = false → t.mem = s.mem ∧ t.dir = s.dir ∧ t.clusters = s.clusters) ∧
        ((s.fotRead pa).getLsbD 15 = true → ∀ line, line % 64 = 0 → line / 4096 = pa / 4096 → ∀ w < 8,
          ((∀ c, s.ownerOf (line + 8 * w) = some c → s.joined sock (c / 64) = true) → t.ownerOf (line + 8 * w) = none) ∧
          ∀ c ∈ s.sharersOf line, s.joined sock (c / 64) = true → (t.clWord c (line + 8 * w)).st ≠ .t))) ∧
    (4096 ≤ x.toNat → exec (.tentsync sock x) s = .next s) ∧
    (x.toNat < 4096 → p.tentbase = 0 ∨ Legible s (p.tentbase + 64 * x.toNat) 64 →
      ∃ t, exec (.tentsync sock x) s = .next t ∧ t.tenant sock (x.setWidth 12) = s.readTenant sock x.toNat ∧
      (∀ tno : BitVec 12, tno.toNat ≠ x.toNat → t.tenant sock tno = s.tenant sock tno) ∧ t.mem = s.mem ∧ t.ctxs = s.ctxs ∧
      (∀ e, s.hasEfc e = true → e / 68 = sock → tget (t.efc e).allow x.toNat 0 = ((s.readTenant sock x.toNat).ebudget : Int))))

/-- R360-R363: a write of FABPORTn takes MODE, PEER and LRETRY, and UP falls where MODE or PEER changes; a write with a
reserved bit or MODE 3, or to a port that is absent, is ignored; UP rises when a link has trained whose MODE is not off, and falls
when a coherent or a far link goes down; the messages that a coherent port whose UP has fallen has not delivered go, in order, to
the first port that remains to the same socket, and keep their place where none does, to fail as they are taken (where they
stand meanwhile, and that it is these messages which move, is the model's reading, log 41); with the last far port every flow's pieces are lost; a FARID write takes the
number and lets the next DATA frame of each flow carry RESYNC.

R367: link retry on a port: a frame that is damaged or out of link sequence is answered with LNAK and goes no further;
a LACK frees the frames it covers from the replay buffer; an LNAK sends the frames from its number again. On a port without
link retry both are discarded. -/
def Obligations.FabricAndLinkRetry : Prop :=
  (∀ (s : State) (sock port : Nat) (x : Word), let p := s.pkg sock
    let here := (s.fusesOf sock).fab.getLsbD port
    let withPort := fun (f : FabPort) => s.modPkg sock (fun q => { q with ports := tset q.ports port f })
    let sets := fun (i : Instr) (f : FabPort) => exec i s = .next (withPort f)
    let replays := fun (i : Instr) (t : State) (peer : Nat) =>
      (t.coherentPorts sock peer = [] → exec i s = .next t) ∧
      (∀ k ks, t.coherentPorts sock peer = k :: ks → exec i s = .next { t with
        flights := s.flights.map (fun g => if g.place = .link (16 * sock + port) then { g with place := .link (16 * sock + k) } else g) })
    let loses := fun (i : Instr) (u : State) =>
      (u.farPorts sock ≠ [] → exec i s = .next u) ∧
      (u.farPorts sock = [] → ∃ t, exec i s = .next t ∧ ∀ d, (tget (t.pkg sock).flowsOut d OutFlow.first).kept = [])
    (16 ≤ port ∨ here = false ∨ 128 ≤ x.toNat ∨ x.toNat % 4 = 3 → exec (.linkRetrain sock port x) s = .next s) ∧
    (port < 16 → here = true → x.toNat < 128 → x.toNat % 4 ≠ 3 → let old := tget p.ports port FabPort.off
      let mode := x.extractLsb' 0 2
      let peer := x.extractLsb' 2 3
      let stays := old.up && mode == old.mode && peer == old.peer
      let new : FabPort := { mode := mode, peer := peer, up := stays, lretry := x.getLsbD 6 }
      (old.up = false ∨ stays = true ∨ old.mode = 0 ∨ old.mode = 3 → sets (.linkRetrain sock port x) new) ∧
      (old.up = true → stays = false → old.mode = 1 → replays (.linkRetrain sock port x) (withPort new) old.peer.toNat) ∧
      (old.up = true → stays = false → old.mode = 2 → loses (.linkRetrain sock port x) (withPort new))) ∧
    (here = false → exec (.linkTrained sock port) s = .next s) ∧
    (here = true → ∀ f, tfind p.ports port = some f → f.mode ≠ 0 → sets (.linkTrained sock port) { f with up := true }) ∧
    ((∀ f, tfind p.ports port = some f → f.mode ≠ 1 ∨ f.up = false) → exec (.coherentLinkDown sock port) s = .next s) ∧
    (∀ f, tfind p.ports port = some f → f.mode = 1 → f.up = true →
      replays (.coherentLinkDown sock port) (withPort { f with up := false }) f.peer.toNat) ∧
    ((∀ f, tfind p.ports port = some f → f.mode ≠ 2 ∨ f.up = false) → exec (.farPortDown sock port) s = .next s) ∧
    (∀ f, tfind p.ports port = some f → f.mode = 2 → f.up = true → loses (.farPortDown sock port) (withPort { f with up := false })) ∧
    (8192 ≤ x.toNat → exec (.faridWrite sock x) s = .next s) ∧
    (x.toNat < 8192 → ∃ t, exec (.faridWrite sock x) s = .next t ∧ t = { s with pkgs := t.pkgs } ∧ (t.pkg sock).farid = x.extractLsb' 0 12 ∧ (t.pkg sock).farVal = x.getLsbD 12 ∧
      ∀ d, tfind (t.pkg sock).flowsOut d = (tfind p.flowsOut d).map (fun f => { f with resync := true }))) ∧
  (∀ (s : State) (sock port : Nat) (f : Frame), let p := s.pkg sock
    let l := tget p.links port Link.first
    ((∀ x, tfind p.ports port = some x → x.lretry = false) → exec (.linkLackReceive sock port f) s = .next s ∧ exec (.linkLnakReceive sock port f) s = .next s) ∧
    (∀ x, tfind p.ports port = some x → x.lretry = true → s.farOpen sock port = true →
      (f.fcsGood = false ∨ (l.expect - f.lseq).toNat ≥ 2 ^ 31 → ∀ j ∈ [Instr.farDataReceive sock port f, .farAckReceive sock port f, .farNakReceive sock port f, .farRefuseReceive sock port f],
        exec j s = .next { s with outbox := s.outbox ++ [.frame sock port (Frame.wire { Frame.bare 5 p.farid f.src 0 with lseq := l.expect })] }) ∧
      (f.fcsGood = true → f.lseq ≠ l.expect → (l.expect - f.lseq).toNat < 2 ^ 31 → ∀ j ∈ [Instr.farDataReceive sock port f, .farAckReceive sock port f,
        .farNakReceive sock port f, .farRefuseReceive sock port f], exec j s = .next s) ∧
      (s.frameGood sock f = true → f.type = 4 → exec (.linkLackReceive sock port f) s =
        .next (s.modPkg sock (fun y => { y with links := tset y.links port { l with kept := l.kept.filter (fun g => !seqLe g.lseq f.lseq) } }))) ∧
      (s.frameGood sock f = true → f.type = 5 → exec (.linkLnakReceive sock port f) s =
        .next { s with outbox := s.outbox ++ (l.kept.filter (fun g => seqLe f.lseq g.lseq)).map (fun g => .frame sock port (Frame.wire g)) })))

/-- R363-R368, on ports without link retry: a DATA frame in sequence is accepted and its bytes reach memory that no cluster tracks, with an ACK at the
sixteenth; one for no memory of the receiver's domain is answered with REFUSE; one out of sequence with one NAK; an ACK frees the pieces it covers; a NAK
and a timeout send pieces again, and the eighth timeout loses them; a REFUSE frees its piece and dead-letters it; a receiver
acknowledges what it owes when its timer runs out. A frame that fails a check is discarded. The
model's readings are two (log 28 for each): that the REFUSE of a frame for no memory names the table entry 0, and that a frame which
comes by a port that is not a far port with UP set is discarded. -/
def Obligations.FarFlows : Prop :=
  ∀ (s : State) (sock port q : Nat) (f : Frame), let p := s.pkg sock
    let d := f.src.toNat
    let i := tget p.flowsIn d InFlow.first
    let o := tget p.flowsOut d OutFlow.first
    let plain := fun k => ∀ x, tfind p.ports k = some x → x.lretry = false
    let sends := fun (j : Instr) (fs : List Frame) => ∃ t, exec j s = .next t ∧ t.mem = s.mem ∧ t.ctxs = s.ctxs ∧ t.outbox = s.outbox ++ fs.map (fun g => .frame sock q (Frame.wire g))
    let data := (o.kept.map (fun z => dataFrame p.farid f.src z false))
    plain port → plain q →
    (s.farOpen sock port = false → ∀ j ∈ [Instr.farDataReceive sock port f, .farAckReceive sock port f, .farNakReceive sock port f, .farRefuseReceive sock port f], exec j s = .next s) ∧
    (s.frameGood sock f = false → ∀ j ∈ [Instr.farDataReceive sock port f, .farAckReceive sock port f, .farNakReceive sock port f, .farRefuseReceive sock port f], exec j s = .next s) ∧
    (s.farOpen sock port = true → s.frameGood sock f = true → f.type = 1 → (f.resync = true ∨ f.fseq = i.expect) →
      let pa := f.rpa.toNat
      let n := f.len.toNat
      let next : InFlow := { expect := f.fseq + 1, nakSent := false, unacked := i.unacked + 1, since := if i.unacked = 0 then s.clock * 5 / 16 else i.since }
      (i.unacked < 15 → f.rctr = 0 → s.tableBacked sock pa = true → 0 < n → pa % 64 + n ≤ 64 → f.data.length = n → s.dirOf (lineOf pa) = DirEntry.absent → s.flights = [] → s.slc = [] →
        (s.pkg (sockOf pa)).fotbase = 0 → Memory.wf s.mem = true → ∃ t, exec (.farDataReceive sock port f) s = .next t ∧
          tget (t.pkg sock).flowsIn d InFlow.first = next ∧ t.outbox = s.outbox ∧ t.ctxs = s.ctxs ∧
          ∀ a, memByte t.mem a = if pa ≤ a ∧ a < pa + n then f.data.getD (a - pa) 0 else memByte s.mem a) ∧
      (i.unacked < 15 → s.tableBacked sock pa = false → q = port → sends (.farDataReceive sock port f) [Frame.bare 6 p.farid f.src f.fseq]) ∧
      (i.unacked = 15 → s.tableBacked sock pa = false → q = port → sends (.farDataReceive sock port f) [Frame.bare 6 p.farid f.src f.fseq, Frame.bare 2 p.farid f.src f.fseq])) ∧
    (s.farOpen sock port = true → s.frameGood sock f = true → f.type = 1 → f.resync = false → f.fseq ≠ i.expect →
      (i.nakSent = true → exec (.farDataReceive sock port f) s = .next s) ∧
      (i.nakSent = false → q = port → sends (.farDataReceive sock port f) [Frame.bare 3 p.farid f.src i.expect])) ∧
    (s.farOpen sock port = true → s.frameGood sock f = true → f.type = 2 →
      ((∀ z ∈ o.kept, seqLe z.seq f.fseq = false) → exec (.farAckReceive sock port f) s = .next s) ∧
      (o.kept.length ≤ 4096 → (∃ z ∈ o.kept, seqLe z.seq f.fseq = true) → ∃ t, exec (.farAckReceive sock port f) s = .next t ∧ t.outbox = s.outbox ∧ t.mem = s.mem ∧
        tget (t.pkg sock).flowsOut d OutFlow.first = { o with kept := o.kept.filter (fun z => !seqLe z.seq f.fseq), timeouts := 0, since := s.clock * 5 / 16 })) ∧
    (s.farOpen sock port = true → s.frameGood sock f = true → f.type = 3 → s.farPort sock d = some q → o.resync = false → o.kept.length ≤ 4096 →
      (∀ z ∈ o.kept, seqLe z.seq (f.fseq - 1) = false ∧ seqLe f.fseq z.seq = true) → sends (.farNakReceive sock port f) data) ∧
    (s.frameGood sock f = true → f.type = 6 → (∀ z ∈ o.kept, z.seq ≠ f.fseq) → exec (.farRefuseReceive sock port f) s = .next s) ∧
    (s.farOpen sock port = true → s.frameGood sock f = true → f.type = 6 → ∀ z zs, o.kept = z :: zs → z.seq = f.fseq → (∀ y ∈ zs, y.seq ≠ f.fseq) → o.kept.length ≤ 4096 →
      ∃ t, exec (.farRefuseReceive sock port f) s = .next t ∧ (tget (t.pkg sock).flowsOut d OutFlow.first).kept = zs ∧ t.ctr sock 5 z.tno.toNat 0 = s.ctr sock 5 z.tno.toNat 0 + 1) ∧
    (let late := o.kept ≠ [] ∧ o.since + (if p.fartmo = 0 then 100 else p.fartmo.toNat) * 1000 ≤ s.clock * 5 / 16
     (¬ late → exec (.farTimeout sock d) s = .next s) ∧
     (late → o.timeouts < 7 → s.farPort sock d = some q → o.resync = false → o.kept.length ≤ 4096 → sends (.farTimeout sock d) data) ∧
     (late → 7 ≤ o.timeouts → ∃ t, exec (.farTimeout sock d) s = .next t ∧ tget (t.pkg sock).flowsOut d OutFlow.first = { o with kept := [], timeouts := 0, resync := true })) ∧
    ((∀ z ∈ p.flowsIn, z.2.unacked = 0) → exec (.farAckTimer sock) s = .next s) ∧
    (p.flowsIn = [(d, i)] → 0 < i.unacked → s.farPort sock d = some q → sends (.farAckTimer sock) [Frame.bare 2 p.farid f.src (i.expect - 1)])

/-- R373: a RELEASE takes a core's X7 from its boot hold to RELPC with XLAT 0, and has no effect on a core that is absent or
released; one of 512 or more is ignored (the model's choice, log 44); an attestation is appended while the log has room; a signature is asked for and, when it is done, stands in ATTSIG.

R37, R375: a debug stop parks a running context STOP where it stands and is pending behind a fault, trap or TILEBIND park; a
context that is absent, vacant or stopped stays; a resume lets a stopped context go on, but not an X7 that the boot holds;
DBGDATA reaches the selected register of a stopped context alone. -/
def Obligations.BootAndDebug : Prop :=
  (∀ (s : State) (sock : Nat) (x : Word) (ty : BitVec 8), let p := s.pkg sock
    let core := 512 * sock + x.toNat
    let c := x7Of core
    (512 ≤ x.toNat → exec (.coreRelease sock x) s = .next s) ∧
    (s.hasCore core = false ∨ (s.ctx c).bootHeld = false → exec (.coreRelease sock x) s = .next s) ∧
    (x.toNat < 512 → s.hasCore core = true → (s.ctx c).bootHeld = true → ∃ t, exec (.coreRelease sock x) s = .next t ∧ t.mem = s.mem ∧
      (t.pkg sock).release = x.extractLsb' 0 9 ∧ t.ctx c = { s.ctx c with life := .running, bootHeld := false, pc := pcOf p.relPc } ∧
      t.core core = { s.core core with xlat := false } ∧ ∀ k, k ≠ c → t.ctx k = s.ctx k) ∧
    (exec (.attestAppend sock 0) s = .next s) ∧
    (ty ≠ 0 → ∃ t, exec (.attestAppend sock ty) s = .next t ∧ t = { s with pkgs := t.pkgs } ∧ t.pkg sock = { p with attLog := (t.pkg sock).attLog } ∧
      (1024 ≤ p.attLog.length → (t.pkg sock).attLog = p.attLog) ∧
      (p.attLog.length < 1024 → (t.pkg sock).attLog = p.attLog ++ [{
        type := ty, svn := (p.svn.setWidth 56).setWidth 64, digest := tget p.attExt 3 0 ++ (tget p.attExt 2 0 ++ (tget p.attExt 1 0 ++ tget p.attExt 0 0)) }])) ∧
    (∃ t, exec (.attestSign sock) s = .next t ∧ t = { s with pkgs := t.pkgs } ∧ (t.pkg sock).sigDone = false ∧ (t.pkg sock).signing =
      some (Config.sha3 (wordBytes (p.attLog.flatMap (fun a => (List.range 8).map a.word)) ++ leBytes p.ext.toNat 32))) ∧
    (p.signing = none → ∃ t, exec (.attestSignDone sock) s = .next t ∧ t = { s with pkgs := t.pkgs } ∧ t.pkg sock = p) ∧
    (∀ g, p.signing = some g → ∃ t, exec (.attestSignDone sock) s = .next t ∧ t = { s with pkgs := t.pkgs } ∧ (t.pkg sock).signing = none ∧ (t.pkg sock).sigDone = true ∧
      ∀ k < 302, ∀ j < 8, (tget (t.pkg sock).attSig k 0).extractLsb' (8 * j) 8 = Config.signature g (8 * k + j))) ∧
  (∀ (s : State) (c core : Nat) (v : Word), let x := s.ctx c
    (s.hasCtx c = false ∨ x.life = .vacant ∨ x.life = .parked .stop → exec (.debugStop c) s = .next s) ∧
    (s.hasCtx c = true → x.life = .running ∨ x.life = .parked .cwait → ∃ t, exec (.debugStop c) s = .next t ∧ (t.ctx c).life = .parked .stop ∧
      (t.ctx c).pc = x.pc ∧ (t.ctx c).g = x.g ∧ (t.ctx c).held = none ∧ ∀ e ∈ (t.cluster (clusterOf c)).waits, e.who ≠ .ctx c) ∧
    (s.hasCtx c = true → x.life ∈ [Life.parked .fault, .parked .trap, .parked .tilebind] → ∃ t, exec (.debugStop c) s = .next t ∧
      (t.ctx c).life = x.life ∧ (t.ctx c).pstop = true ∧ (t.ctx c).pc = x.pc) ∧
    (s.hasCtx c = false ∨ x.life ≠ .parked .stop ∨ x.bootHeld = true → exec (.debugResume c) s = .next s) ∧
    (s.hasCtx c = true → x.life = .parked .stop → x.bootHeld = false → ∃ t, exec (.debugResume c) s = .next t ∧ (t.ctx c).life = .running ∧
      (t.ctx c).pc = x.pc ∧ (t.ctx c).g = x.g) ∧
    (let k := s.core core
     let sel := 8 * core + k.dbgSel.toNat / 2 ^ 13
     let n := k.dbgSel.toNat % 2 ^ 13
     (s.hasCore core = false → ∀ wr, exec (.dbgdataAccess core wr) s = .next s) ∧
     (s.hasCore core = true → (s.ctx sel).life ≠ .parked .stop → exec (.dbgdataAccess core (some v)) s = .next s ∧
       exec (.dbgdataAccess core none) s = .next { s with outbox := s.outbox ++ [.debugData 0] }) ∧
     (s.hasCore core = true → (s.ctx sel).life = .parked .stop → Sys2Proof.Machine.ctxNumber n = true → exec (.dbgdataAccess core (some v)) s = .next (s.regWrite sel n v) ∧
       exec (.dbgdataAccess core none) s = .next { s with outbox := s.outbox ++ [.debugData (s.regRead sel n)] })))

/-- R6, R110, R111, R375: a register write is aligned and reaches a register of a populated page: an identification register ignores it,
FARTMO, RELPC, DBGLOG and an attachment entry take it; the debug port reads and writes memory that no cluster tracks, and
ignores what is misaligned or not there.

R369-R371, R374: devices and hosts write and read memory that no cluster tracks, in any number of bytes, and are answered with
Completer Abort where nothing is; a host reaches its endpoint's range alone; a power budget within its bounds is taken; a
hot die shuts its module down; a link's width is reported. The widths that are taken, with all others ignored, and the answer
Completer Abort where there is no memory are the model's readings (log 18 for each). -/
def Obligations.RegistersAndHosts : Prop :=
  (∀ (s : State) (sock addr off : Nat) (x : Word) (sz : BitVec 2), let base := 2 ^ 49 * sock + 0x0F00000000000
    let n := 2 ^ sz.toNat
    (addr % 8 ≠ 0 ∨ s.populated addr = false → exec (.registerWrite addr x) s = .next s) ∧
    (sock < 8 → s.populated base = true →
      (off < 0x1000 → exec (.registerWrite (base + off) x) s = .next s) ∧
      (x.toNat < 2 ^ 16 → exec (.registerWrite (base + 0x90088) x) s = .next (s.modPkg sock (fun p => { p with fartmo := x.setWidth 16 }))) ∧
      (x.toNat % 4 = 0 → exec (.registerWrite (base + 0xA0010) x) s = .next (s.modPkg sock (fun p => { p with relPc := x }))) ∧
      (x.toNat % 4096 = 0 → x.toNat < 2 ^ 52 → exec (.registerWrite (base + 0xA0080) x) s = .next (s.modPkg sock (fun p => { p with dbgLog := x.toNat }))) ∧
      (∀ e k, e < 68 → k < 64 → s.hasEfc (68 * sock + e) = true → exec (.registerWrite (base + 0x40000 + 0x1000 * e + 8 * k) x) s =
        .next (s.modEfc (68 * sock + e) (fun f => { f with attach := tset f.attach k x })))) ∧
    (addr % n ≠ 0 ∨ (isDevice addr = false ∧ s.isMemory addr = false) ∨ (isDevice addr = true ∧ s.populated addr = false) →
      ∀ wr, exec (.debugPortAccess addr sz wr) s = .next s) ∧
    (addr % 8 = 0 → isDevice addr = true → s.populated addr = true → exec (.debugPortAccess addr 3 (some x)) s = exec (.registerWrite addr x) s) ∧
    (addr % n = 0 → isDevice addr = false → s.isMemory addr = true → s.flights = [] → s.slc = [] → s.dirOf (lineOf addr) = DirEntry.absent → (s.pkg (sockOf addr)).fotbase = 0 → Memory.wf s.mem = true →
      (tfind s.errs (wordOf addr) = none → ∃ t, exec (.debugPortAccess addr sz none) s = .next t ∧ t.mem = s.mem ∧ t.ctxs = s.ctxs ∧ t.clusters = s.clusters ∧
        t.outbox = s.outbox ++ [.debugData (loaded (memWord s.mem (wordOf addr)) addr n false)]) ∧
      (∃ t, exec (.debugPortAccess addr sz (some x)) s = .next t ∧ t.ctxs = s.ctxs ∧ t.clusters = s.clusters ∧ t.outbox = s.outbox ∧
        ∀ a, memByte t.mem a = if addr ≤ a ∧ a < addr + n then x.extractLsb' (8 * (a - addr)) 8 else memByte s.mem a))) ∧
  (∀ (s : State) (sock port addr n : Nat) (bytes : List (BitVec 8)) (watts : Nat) (width : BitVec 6),
    let quiet := fun a => s.flights = [] ∧ s.slc = [] ∧ s.tableBacked sock a = true ∧ s.dirOf (lineOf a) = DirEntry.absent ∧ tfind s.errs (wordOf a) = none ∧ (s.pkg (sockOf a)).fotbase = 0
    let writes := fun (i : Instr) (a : Nat) => ∃ t, exec i s = .next t ∧ t.ctxs = s.ctxs ∧ t.clusters = s.clusters ∧ t.outbox = s.outbox ∧
      ∀ q, memByte t.mem q = if a ≤ q ∧ q < a + bytes.length then bytes.getD (q - a) 0 else memByte s.mem q
    let reads := fun (i : Instr) (o : Outgoing) => ∃ t, exec i s = .next t ∧ t.mem = s.mem ∧ t.ctxs = s.ctxs ∧ t.clusters = s.clusters ∧ t.outbox = s.outbox ++ [o]
    let got := fun a => (List.range n).map (fun j => memByte s.mem (a + j))
    (Memory.wf s.mem = true → (∀ j < bytes.length, quiet (addr + j)) → writes (.dmaWrite sock port addr bytes) addr) ∧
    ((∀ j < n, quiet (addr + j)) → reads (.dmaRead sock port addr n) (.dmaData sock port (got addr))) ∧
    (0 < n → s.tableBacked sock addr = false → reads (.dmaRead sock port addr n) (.completerAbort sock port)) ∧
    (s.endRange sock = none → ∀ wr, exec (.hostMemAccess sock addr n wr) s = .next s) ∧
    (∀ base len, s.endRange sock = some (base, len) →
      (len < addr + n → reads (.hostMemAccess sock addr n none) (.completerAbort sock 1)) ∧
      (len < addr + bytes.length → reads (.hostMemAccess sock addr n (some bytes)) (.completerAbort sock 1)) ∧
      (0 < n → addr + n ≤ len → (∀ j < n, isTier (base + addr + j) = true ∧ quiet (base + addr + j)) → reads (.hostMemAccess sock addr n none) (.hostData sock (got (base + addr)))) ∧
      (bytes ≠ [] → addr + bytes.length ≤ len → Memory.wf s.mem = true → (∀ j < bytes.length, isTier (base + addr + j) = true ∧ quiet (base + addr + j)) →
        writes (.hostMemAccess sock addr n (some bytes)) (base + addr))) ∧
    (watts < 1000 ∨ 2800 < watts → exec (.powerBudgetSet sock watts) s = .next s) ∧
    (1000 ≤ watts → watts ≤ 2800 → exec (.powerBudgetSet sock watts) s = .next (s.modPkg sock (fun p => { p with powerBudget := watts }))) ∧
    (∃ t, exec (.overTemperature sock) s = .next t ∧ (t.pkg sock).shutdown = true ∧ t.outbox = s.outbox ++ [.overTemperature sock] ∧ t.mem = s.mem ∧ t.ctxs = s.ctxs) ∧
    (2 ≤ port ∨ width ∉ [0, 8, 16] → exec (.hostLinkTrained sock port width) s = .next s) ∧
    (port < 2 → width ∈ [0, 8, 16] → exec (.hostLinkTrained sock port width) s = .next (s.modPkg sock (fun p => { p with hpWidth := tset p.hpWidth port width }))))
end

