-- ==== Sys2Proof/Laws/Holds.lean ====
section
/-! SUPPORT. What holds of the state that a computation on the machine's state leaves, whether it ends or stops: one rule
for each way a computation is put together. -/

namespace Sys2Proof.Machine

/-- A predicate holds of the state that a computation leaves. -/
def Holds {ε α : Type} (p : State → Prop) (m : EStateM ε State α) (s : State) : Prop :=
  match m s with
  | .ok _ t => p t
  | .error _ t => p t

variable {ε α β : Type} {p : State → Prop}

theorem Holds.ok {m : EStateM ε State α} {a : α} {s t : State} (h : Holds p m s) (e : m s = .ok a t) : p t := by
  unfold Holds at h; rw [e] at h; exact h

theorem Holds.error {m : EStateM ε State α} {a : ε} {s t : State} (h : Holds p m s) (e : m s = .error a t) : p t := by
  unfold Holds at h; rw [e] at h; exact h

theorem holds_pure (a : α) {s : State} (h : p s) : Holds p (pure a : EStateM ε State α) s := h

theorem holds_throw (e : ε) {s : State} (h : p s) : Holds p (throw e : EStateM ε State α) s := h

theorem holds_get {s : State} (h : p s) : Holds p (get : EStateM ε State State) s := h

theorem holds_set {t s : State} (h : p t) : Holds p (set t : EStateM ε State PUnit) s := h

theorem holds_modify {f : State → State} {s : State} (h : p (f s)) : Holds p (modify f : EStateM ε State PUnit) s := h

theorem holds_get_bind {k : State → EStateM ε State β} {s : State} (h : Holds p (k s) s) : Holds p (get >>= k) s := h

theorem holds_set_bind {t : State} {k : PUnit → EStateM ε State β} {s : State} (h : Holds p (k ⟨⟩) t) :
    Holds p (set t >>= k) s := h

theorem holds_modify_bind {f : State → State} {k : PUnit → EStateM ε State β} {s : State} (h : Holds p (k ⟨⟩) (f s)) :
    Holds p (modify f >>= k) s := h

theorem holds_pure_bind {a : α} {k : α → EStateM ε State β} {s : State} (h : Holds p (k a) s) :
    Holds p ((pure a : EStateM ε State α) >>= k) s := h

theorem holds_bind {m : EStateM ε State α} {k : α → EStateM ε State β} {s : State} (h : Holds p m s)
    (hk : ∀ a t, p t → Holds p (k a) t) : Holds p (m >>= k) s := by
  show match EStateM.bind m k s with | .ok _ t => p t | .error _ t => p t
  unfold EStateM.bind
  cases e : m s with
  | ok a t => exact hk a t (h.ok e)
  | error a t => exact h.error e

theorem holds_mapM {γ : Type} {f : γ → EStateM ε State α} (hf : ∀ a t, p t → Holds p (f a) t) :
    ∀ (l : List γ) {s : State}, p s → Holds p (l.mapM f) s := by
  intro l
  induction l with
  | nil => intro s h; exact h
  | cons a l ih =>
    intro s h
    rw [List.mapM_cons]
    exact holds_bind (hf a s h) fun b t ht => holds_bind (ih ht) fun bs u hu => hu

theorem holds_forM {γ : Type} {f : γ → EStateM ε State PUnit} (hf : ∀ a t, p t → Holds p (f a) t) :
    ∀ (l : List γ) {s : State}, p s → Holds p (l.forM f) s := by
  intro l
  induction l with
  | nil => intro s h; exact h
  | cons a l ih =>
    intro s h
    exact holds_bind (hf a s h) fun _ t ht => ih ht

theorem holds_liftAt {m : Mem α} {va wva : Word} {d : BitVec 20} {w : Word} {s : State} (h : Holds p m s) :
    Holds p (liftAt va wva d w m) s := by
  unfold Holds liftAt
  cases e : m s with
  | ok a t => exact h.ok e
  | error a t => cases a <;> exact h.error e

theorem holds_lift {m : Mem α} {va : Word} {d : BitVec 20} {w : Word} {s : State} (h : Holds p m s) :
    Holds p (lift va d w m) s := holds_liftAt h

theorem holds_guarded {m : Act α} {s : State} (H : p s) (h : Holds p m s) : Holds p (guarded m) s := by
  unfold Holds guarded
  cases e : m s with
  | ok a t =>
    have ht := h.ok e
    dsimp only
    cases t.matchOf t.accs with
    | none => exact ht
    | some _ => exact H
  | error a t => exact h.error e

theorem holds_trapIf (b : Bool) (t : Trap) {s : State} (h : p s) : Holds p (trapIf b t) s := by
  cases b <;> exact h

theorem holds_raiseTrap (t : Trap) {s : State} (h : p s) : Holds p (raiseTrap t : Act α) s := h

/-- A fold keeps what each of its steps keeps. -/
theorem foldl_keeps {γ : Type} {f : State → γ → State} (hf : ∀ s a, p s → p (f s a)) :
    ∀ (l : List γ) {s : State}, p s → p (l.foldl f s) := by
  intro l
  induction l with
  | nil => intro s h; exact h
  | cons a l ih => intro s h; exact ih (hf s a h)

/-- The same for a fold over a state and a value beside it. -/
theorem foldl_fst_keeps {γ δ : Type} {f : State × δ → γ → State × δ} (hf : ∀ q a, p q.1 → p (f q a).1) :
    ∀ (l : List γ) {q : State × δ}, p q.1 → p (l.foldl f q).1 := by
  intro l
  induction l with
  | nil => intro q h; exact h
  | cons a l ih => intro q h; exact ih (hf q a h)

end Sys2Proof.Machine
end

