-- ==== Sys2Proof/Laws/Memory.lean ====
section
/-! SUPPORT. Memory: every write keeps the canonical form, a byte written reads back, and every other byte stays. -/

namespace Sys2Proof.Machine

theorem wfFrom_mono {m : List Host.Cell} : ∀ {lo lo' : Nat}, lo' ≤ lo → wfFrom lo m = true → wfFrom lo' m = true := by
  cases m with
  | nil => intros; rfl
  | cons e m =>
    obtain ⟨k, v⟩ := e
    intro lo lo' h w
    simp only [wfFrom, Bool.and_eq_true, decide_eq_true_eq] at w ⊢
    exact ⟨⟨by omega, w.1.2⟩, w.2⟩

/-- A write at or above a bound keeps the form above that bound. -/
theorem wfFrom_memPut {m : List Host.Cell} (q : Nat) (b : BitVec 8) :
    ∀ {lo : Nat}, lo ≤ q → wfFrom lo m = true → wfFrom lo (memPut m q b) = true := by
  induction m with
  | nil =>
    intro lo h _
    unfold memPut
    split
    · rfl
    · simp [wfFrom, h, *]
  | cons e m ih =>
    obtain ⟨k, v⟩ := e
    intro lo h w
    simp only [wfFrom, Bool.and_eq_true, decide_eq_true_eq] at w
    obtain ⟨⟨wk, wv⟩, wm⟩ := w
    unfold memPut
    split
    · split
      · exact wfFrom_mono (by omega) wm
      · subst_vars; simp_all [wfFrom]
    · split
      · split
        · simp_all [wfFrom]
        · simp only [wfFrom, Bool.and_eq_true, decide_eq_true_eq]
          refine ⟨⟨h, by simpa using ‹¬b = unlisted›⟩, ⟨⟨by omega, wv⟩, wm⟩⟩
      · simp only [wfFrom, Bool.and_eq_true, decide_eq_true_eq]
        exact ⟨⟨wk, wv⟩, ih (by omega) wm⟩

theorem wf_memPut {m : List Host.Cell} (q : Nat) (b : BitVec 8) (h : Memory.wf m = true) : Memory.wf (memPut m q b) = true :=
  wfFrom_memPut q b (Nat.zero_le _) h

theorem wf_memPuts (bs : List (BitVec 8)) : ∀ {m : List Host.Cell} (a : Nat), Memory.wf m = true → Memory.wf (memPuts m a bs) = true := by
  induction bs with
  | nil => intro m a h; exact h
  | cons b bs ih => intro m a h; exact ih (a + 1) (wf_memPut a b h)

theorem wf_memPutWord {m : List Host.Cell} (a : Nat) (x : Word) (h : Memory.wf m = true) : Memory.wf (memPutWord m a x) = true :=
  wf_memPuts _ a h

/-- Nothing is listed below the bound of a canonical memory. -/
theorem memByte_below {m : List Host.Cell} : ∀ {lo q : Nat}, wfFrom lo m = true → q < lo → memByte m q = unlisted := by
  cases m with
  | nil => intros; rfl
  | cons e m =>
    obtain ⟨k, v⟩ := e
    intro lo q w h
    simp only [wfFrom, Bool.and_eq_true, decide_eq_true_eq] at w
    have : ¬ k = q := by omega
    have : q < k := by omega
    simp [memByte, *]

/-- READ AFTER WRITE in a canonical memory: the byte written reads as written, every other one as before. -/
theorem memByte_memPut_from {m : List Host.Cell} (q : Nat) (b : BitVec 8) (a : Nat) :
    ∀ {lo : Nat}, wfFrom lo m = true → memByte (memPut m q b) a = if a = q then b else memByte m a := by
  induction m with
  | nil =>
    intro lo _
    unfold memPut
    split
    · simp [memByte, *]
    · simp only [memByte]
      by_cases h : q = a
      · simp [h]
      · simp [h, Ne.symm h]
  | cons e m ih =>
    obtain ⟨k, v⟩ := e
    intro lo w
    simp only [wfFrom, Bool.and_eq_true, decide_eq_true_eq] at w
    obtain ⟨⟨wk, wv⟩, wm⟩ := w
    unfold memPut
    split
    · next hk =>
      subst hk
      split
      · next hb =>
        subst hb
        by_cases h : a = k
        · subst h; simp [memByte_below wm (Nat.lt_succ_self _)]
        · simp only [h, if_false, memByte, Ne.symm h]
          split
          · exact memByte_below wm (by omega)
          · rfl
      · by_cases h : k = a
        · simp [memByte, h]
        · simp [memByte, h, Ne.symm h]
    · next hk =>
      split
      · next hq =>
        split
        · next hb =>
          subst hb
          by_cases h : a = q
          · subst h
            have : ¬ k = a := hk
            simp [memByte, this, hq]
          · simp [h]
        · by_cases h : q = a
          · simp [memByte, h]
          · simp only [memByte, h, if_false, Ne.symm h]
            split
            · have h1 : ¬ k = a := by omega
              have h2 : a < k := by omega
              simp [h1, h2]
            · rfl
      · next hq =>
        simp only [memByte]
        by_cases h : k = a
        · have : ¬ a = q := by omega
          simp [h, this]
        · simp only [h, if_false]
          split
          · have : ¬ a = q := by omega
            simp [this]
          · exact ih wm

theorem memByte_memPut {m : List Host.Cell} (h : Memory.wf m = true) (q : Nat) (b : BitVec 8) (a : Nat) :
    memByte (memPut m q b) a = if a = q then b else memByte m a := memByte_memPut_from q b a h

/-- Every byte outside a run that is written stays. -/
theorem memByte_memPuts_outside (bs : List (BitVec 8)) : ∀ {m : List Host.Cell} (a : Nat) (q : Nat), Memory.wf m = true →
    (q < a ∨ a + bs.length ≤ q) → memByte (memPuts m a bs) q = memByte m q := by
  induction bs with
  | nil => intros; rfl
  | cons b bs ih =>
    intro m a q w h
    simp only [List.length_cons] at h
    rw [memPuts, ih (a + 1) q (wf_memPut a b w) (by omega), memByte_memPut w]
    have : ¬ q = a := by omega
    simp [this]

/-- A byte of a run that is written reads as written. -/
theorem memByte_memPuts_inside (bs : List (BitVec 8)) : ∀ {m : List Host.Cell} (a : Nat) (j : Nat), Memory.wf m = true →
    (h : j < bs.length) → memByte (memPuts m a bs) (a + j) = bs[j] := by
  induction bs with
  | nil => intro m a j w h; simp at h
  | cons b bs ih =>
    intro m a j w h
    rw [memPuts]
    cases j with
    | zero =>
      rw [memByte_memPuts_outside bs (a + 1) (a + 0) (wf_memPut a b w) (by omega), memByte_memPut w]
      simp
    | succ j =>
      have := ih (a + 1) j (wf_memPut a b w) (by simpa using h)
      rw [show a + (j + 1) = a + 1 + j by omega, this]
      simp

end Sys2Proof.Machine
end

