-- ==== Sys2Proof/Laws/Table.lean ====
section
/-! SUPPORT. Reading a sparse table after it is written. -/

namespace Sys2Proof.Machine

@[simp] theorem tfind_tset_same {α : Type} (t : Tbl α) (q : Nat) (v : α) : tfind (tset t q v) q = some v := by
  induction t with
  | nil => simp [tset, tfind]
  | cons e t ih =>
    obtain ⟨k, u⟩ := e
    unfold tset
    split
    · simp [tfind]
    · split
      · simp [tfind]
      · simp [tfind, ih, *]

theorem tfind_tset_other {α : Type} (t : Tbl α) {q r : Nat} (v : α) (h : r ≠ q) : tfind (tset t q v) r = tfind t r := by
  induction t with
  | nil => simp [tset, tfind, Ne.symm h]
  | cons e t ih =>
    obtain ⟨k, u⟩ := e
    unfold tset
    split
    · subst_vars; simp [tfind, Ne.symm h]
    · split
      · simp [tfind, Ne.symm h]
      · simp [tfind, ih]

@[simp] theorem tget_tset_same {α : Type} (t : Tbl α) (q : Nat) (v d : α) : tget (tset t q v) q d = v := by simp [tget]

theorem tget_tset_other {α : Type} (t : Tbl α) {q r : Nat} (v d : α) (h : r ≠ q) : tget (tset t q v) r d = tget t r d := by
  simp [tget, tfind_tset_other t v h]

theorem tget_tset {α : Type} (t : Tbl α) (q r : Nat) (v d : α) : tget (tset t q v) r d = if r = q then v else tget t r d := by
  split
  · subst_vars; simp
  · exact tget_tset_other t v d ‹_›

/-- Writing a key a second time is writing it once. -/
@[simp] theorem tset_tset_same {α : Type} (t : Tbl α) (q : Nat) (v w : α) : tset (tset t q v) q w = tset t q w := by
  induction t with
  | nil => simp [tset]
  | cons e t ih =>
    obtain ⟨k, u⟩ := e
    unfold tset
    by_cases h : k = q
    · simp [h, tset]
    · by_cases h2 : q < k
      · simp [h, h2, tset]
      · simp [h, h2, tset, ih]

/-- A predicate that holds of every listed value. -/
def TAll {α : Type} (p : α → Prop) (t : Tbl α) : Prop := ∀ e ∈ t, p e.2

theorem TAll.nil {α : Type} (p : α → Prop) : TAll p [] := by simp [TAll]

theorem TAll.tset {α : Type} {p : α → Prop} {t : Tbl α} (h : TAll p t) (q : Nat) {v : α} (hv : p v) : TAll p (tset t q v) := by
  induction t with
  | nil => simpa [Sys2Proof.Machine.tset, TAll] using hv
  | cons e t ih =>
    obtain ⟨k, u⟩ := e
    have ht : TAll p t := fun e he => h e (List.mem_cons_of_mem _ he)
    have hu : p u := h (k, u) (List.mem_cons_self ..)
    unfold Sys2Proof.Machine.tset
    split
    · intro e he; rcases List.mem_cons.1 he with rfl | he
      · exact hv
      · exact ht e he
    · split
      · intro e he; rcases List.mem_cons.1 he with rfl | he
        · exact hv
        · exact h e he
      · intro e he; rcases List.mem_cons.1 he with rfl | he
        · exact hu
        · exact ih ht e he

theorem TAll.tget {α : Type} {p : α → Prop} {t : Tbl α} (h : TAll p t) (q : Nat) {d : α} (hd : p d) : p (tget t q d) := by
  unfold Sys2Proof.Machine.tget
  induction t with
  | nil => simpa [tfind] using hd
  | cons e t ih =>
    obtain ⟨k, u⟩ := e
    unfold tfind
    split
    · exact h (k, u) (List.mem_cons_self ..)
    · exact ih fun e he => h e (List.mem_cons_of_mem _ he)

end Sys2Proof.Machine
end

