-- ==== Sys2Proof/Laws/Kept.lean ====
section
/-! SUPPORT. The closures that the operations of the machine respect. A predicate is Quiet when it survives what units
record; Plain when it survives whatever the memory system changes; Far when it survives a change of a package as well;
Steady when it survives whatever an instruction or a happening changes. Each operation has one lemma: it keeps every
predicate of its closure. -/

namespace Sys2Proof.Machine

theorem aligned_pcOf (x : Word) : Aligned (pcOf x) := by
  simp [Aligned, pcOf, BitVec.and_assoc]

/-- What the memory system leaves of a cluster: all but its cache and marks, its ports, its put queue's progress, its copy
engine's translations and its waiting copy stops. -/
structure ClusterKept (x y : Cluster) : Prop where
  putWait : y.putWait = x.putWait
  copyWait : y.copyWait = x.copyWait
  copyq : y.copyq = x.copyq
  copies : y.copies = x.copies
  demoted : y.demoted = x.demoted
  walk : y.walk = x.walk
  runq : y.runq = x.runq
  sleepers : y.sleepers = x.sleepers
  sleepOver : y.sleepOver = x.sleepOver
  waits : y.waits = x.waits
  waitOver : y.waitOver = x.waitOver
  lastMma : y.lastMma = x.lastMma

/-- What the memory system leaves of an engine: all but the progress of its `put.t`s. -/
def EngineKept (x y : Engine) : Prop := y = { x with puts := y.puts }

/-- What the memory system leaves of a package: all but its far flows and links. -/
def PkgKept (x y : Package) : Prop := y = { x with flowsOut := y.flowsOut, links := y.links }

/-- A predicate kept by device counters, energy accounts, event records and draws of free values. -/
structure Quiet (p : State → Prop) : Prop where
  records : ∀ s efcs ctrs energy fresh, p s → p { s with efcs := efcs, ctrs := ctrs, energy := energy, fresh := fresh }

/-- A predicate kept by the memory system: directories, errors, caches, translation buffers, records, flights and what they
end, far flows, the messages of memory errors, and words of memory written whole. -/
structure Plain (p : State → Prop) : Prop extends Quiet p where
  upd : ∀ s dir errs fot flights outbox seq answer slc proxies, p s →
    p { s with dir := dir, errs := errs, fot := fot, flights := flights, outbox := outbox, seq := seq, answer := answer,
               slc := slc, proxies := proxies }
  mem : ∀ s a x, p s → p { s with mem := memPutWord s.mem a x }
  queue : ∀ s k f q l b w, p s → f (s.core k) = { s.core k with mq := q, slots := l, tlb := b, walks := w } →
    ((s.core k).mq.length ≤ 64 → q.length ≤ 64) → p (s.modCore k f)
  wake : ∀ s k, p s → p (s.wakeX7 k)
  cluster : ∀ s n f, p s → (∀ x, ClusterKept x (f x)) → p (s.modCluster n f)
  engine : ∀ s n f, p s → (∀ x, EngineKept x (f x)) → p (s.modEngine n f)
  pkgKept : ∀ s n f, p s → (∀ x, PkgKept x (f x)) → p (s.modPkg n f)

/-- A predicate kept also by changes of what a package holds once. -/
structure Far (p : State → Prop) : Prop extends Plain p where
  pkg : ∀ s n f, p s → p (s.modPkg n f)

/-- A predicate kept also by changes of contexts that leave every PC aligned, of cores that leave at most 64 messages, of
clusters and engines, and of the model's own fields. -/
structure Steady (p : State → Prop) : Prop extends Far p where
  own : ∀ s engines exiting fences clock cur curEfc ir0 ir1 agenda accs, p s →
    p { s with engines := engines, exiting := exiting, fences := fences, clock := clock, cur := cur, curEfc := curEfc, ir0 := ir0, ir1 := ir1, agenda := agenda, accs := accs }
  clu : ∀ s n f, p s → p (s.modCluster n f)
  ctx : ∀ s c x, p s → Aligned x.pc → p (s.setCtx c x)
  pc : ∀ s c, p s → Aligned (s.ctx c).pc
  core : ∀ s k f, p s → ((s.core k).mq.length ≤ 64 → (f (s.core k)).mq.length ≤ 64) → p (s.modCore k f)

variable {p : State → Prop}

theorem Quiet.modEfc (k : Quiet p) {s : State} (h : p s) (n : Nat) (f : Efc → Efc) : p (s.modEfc n f) := by
  unfold State.modEfc; exact k.records _ _ _ _ _ h

theorem Steady.modEngine (k : Steady p) {s : State} (h : p s) (n : Nat) (f : Engine → Engine) : p (s.modEngine n f) := by
  unfold State.modEngine; exact k.own _ _ _ _ _ _ _ _ _ _ _ h

theorem Steady.modCtx (k : Steady p) {s : State} (h : p s) (c : Nat) {f : Context → Context}
    (hf : ∀ x, Aligned x.pc → Aligned (f x).pc) : p (s.modCtx c f) := k.ctx _ _ _ h (hf _ (k.pc _ _ h))

theorem Steady.modMe (k : Steady p) {s : State} (h : p s) {f : Context → Context}
    (hf : ∀ x, Aligned x.pc → Aligned (f x).pc) : p (s.modMe f) := k.modCtx h _ hf

end Sys2Proof.Machine
end

