-- ==== Sys2Proof/Laws/KeepMemory.lean ====
section
/-! SUPPORT. Every operation of caches, homes, records, far flows and butterflies keeps a Plain predicate. -/

namespace Sys2Proof.Machine

variable {P : State → Prop}

theorem keep_writeG (K : Steady P) {s : State} {r : Reg} {v : Word} (H : P s) : P (s.writeG r v) :=
  K.modMe H (fun x hx => by unfold Context.setG; split <;> exact hx)

theorem keep_writeV (K : Steady P) {s : State} {r : Reg} {v : Vec} (H : P s) : P (s.writeV r v) :=
  K.modMe H (fun x hx => by unfold Context.setV; exact hx)

theorem keep_writeP (K : Steady P) {s : State} {r : BitVec 3} {v : Word} (H : P s) : P (s.writeP r v) :=
  K.modMe H (fun x hx => by unfold Context.setP; split <;> exact hx)

theorem keep_writeM (K : Steady P) {s : State} {r : BitVec 3} {v : BitVec 128} (H : P s) : P (s.writeM r v) :=
  K.modMe H (fun x hx => by unfold Context.setM; exact hx)

theorem keep_raise (K : Steady P) {s : State} {f : BitVec 5} (H : P s) : P (s.raise f) := K.modMe H (fun _ hx => hx)

theorem keep_draw (K : Quiet P) {s : State} (H : P s) : P (State.draw s).2 := by
  unfold State.draw
  repeat' first
    | with_reducible assumption
    | dsimp only
    | with_reducible refine K.records _ _ _ _ _ ?_

theorem keep_draw_eq (K : Quiet P) {s t : State} {y : Nat} (H : P s) (E : State.draw s = (y, t)) : P t := by
  have z := keep_draw K H (s := s)
  rw [E] at z; exact z

theorem keep_setCtr (K : Quiet P) {s : State} {sock group unit index : Nat} {x : Word} (H : P s) : P (State.setCtr s sock group unit index x) := by
  unfold State.setCtr
  repeat' first
    | with_reducible assumption
    | dsimp only
    | with_reducible refine K.records _ _ _ _ _ ?_

theorem keep_addCtr (K : Quiet P) {s : State} {sock group unit index n : Nat} (H : P s) : P (State.addCtr s sock group unit index n) := by
  unfold State.addCtr
  repeat' first
    | with_reducible assumption
    | with_reducible refine keep_setCtr K ?_

theorem keep_countCtx (K : Quiet P) {s : State} {c index : Nat} (H : P s) : P (State.countCtx s c index) := by
  unfold State.countCtx
  repeat' first
    | with_reducible assumption
    | with_reducible refine keep_addCtr K ?_

theorem keep_countCore (K : Quiet P) {s : State} {k index : Nat} (H : P s) : P (State.countCore s k index) := by
  unfold State.countCore
  repeat' first
    | with_reducible assumption
    | with_reducible refine keep_addCtr K ?_

theorem keep_countEngine (K : Quiet P) {s : State} {e index : Nat} (H : P s) : P (State.countEngine s e index) := by
  unfold State.countEngine
  repeat' first
    | with_reducible assumption
    | with_reducible refine keep_addCtr K ?_

theorem keep_countCluster (K : Quiet P) {s : State} {cl index : Nat} (H : P s) : P (State.countCluster s cl index) := by
  unfold State.countCluster
  repeat' first
    | with_reducible assumption
    | with_reducible refine keep_addCtr K ?_

theorem keep_countPort (K : Quiet P) {s : State} {p index : Nat} (H : P s) : P (State.countPort s p index) := by
  unfold State.countPort
  repeat' first
    | with_reducible assumption
    | with_reducible refine keep_addCtr K ?_

theorem keep_countTenant (K : Quiet P) {s : State} {sock : Nat} {tno : BitVec 12} {index : Nat} (H : P s) : P (State.countTenant s sock tno index) := by
  unfold State.countTenant
  repeat' first
    | with_reducible assumption
    | with_reducible refine keep_addCtr K ?_

theorem keep_countMem (K : Quiet P) {s : State} {home : Nat} {tno : BitVec 12} {index : Nat} (H : P s) : P (State.countMem s home tno index) := by
  unfold State.countMem
  repeat' first
    | with_reducible assumption
    | with_reducible refine keep_addCtr K ?_

theorem keep_countEfc (K : Quiet P) {s : State} {e index : Nat} (H : P s) : P (State.countEfc s e index) := by
  unfold State.countEfc
  repeat' first
    | with_reducible assumption
    | with_reducible refine keep_addCtr K ?_

theorem keep_countHub (K : Quiet P) {s : State} {home index : Nat} (H : P s) : P (State.countHub s home index) := by
  unfold State.countHub
  repeat' first
    | with_reducible assumption
    | with_reducible refine keep_addCtr K ?_

theorem keep_debit (K : Quiet P) {s : State} {cl : Nat} {tno : BitVec 12} {n : Nat} (H : P s) : P (State.debit s cl tno n) := by
  unfold State.debit
  repeat' first
    | with_reducible assumption
    | dsimp only
    | split
    | with_reducible refine K.records _ _ _ _ _ ?_

theorem keep_event (K : Quiet P) {s : State} {e type sbit : Nat} {tno : BitVec 12} {place extra : Nat} {a b : Word} (H : P s) : P (State.event s e type sbit tno place extra a b) := by
  unfold State.event
  repeat' first
    | with_reducible assumption
    | with_reducible refine keep_countEfc K ?_
    | with_reducible refine K.modEfc ?_ _ _
    | dsimp only
    | split

theorem keep_refill (K : Plain P) {core n : Nat} {s : State} (H : P s) : P (refill core n s) := by
  induction n generalizing s with
  | zero => exact H
  | succ n ih =>
    unfold refill
    dsimp only
    split
    · exact H
    · next hq =>
      split
      · exact ih (K.queue _ _ _ _ _ _ _ H rfl (fun _ => by simp; omega))
      · split
        · exact ih (K.cluster _ _ _ (K.queue _ _ _ _ (s.core core).slots _ _ H rfl (fun _ => by simp; omega))
            (by intro x; constructor <;> rfl))
        · exact H

theorem keep_wakeX7 (K : Plain P) {s : State} {core : Nat} (H : P s) : P (s.wakeX7 core) := K.wake _ _ H

theorem keep_enterTrap (K : Plain P) {s : State} {core ctx : Nat} {m : Quad} (H : P s) : P (s.enterTrap core ctx m) :=
  K.wake _ _ (keep_refill K (K.queue _ _ _ (s.core core).mq _ _ _ H rfl id))

theorem keep_postMessage (K : Plain P) {s : State} {core : Nat} {m : Quad} (H : P s) : P (s.postMessage core m).1 := by
  unfold State.postMessage
  split
  · exact keep_countCore K.toQuiet H
  · exact K.wake _ _ (K.queue _ _ _ _ (s.core core).slots _ _ H rfl (fun _ => by simp; omega))

theorem keep_postMessage_eq (K : Plain P) {s t : State} {core : Nat} {m : Quad} {y : Bool} (H : P s)
    (E : s.postMessage core m = (t, y)) : P t := by
  have z := keep_postMessage K H (s := s) (core := core) (m := m)
  rw [E] at z; exact z

theorem keep_dispatchEvent (K : Quiet P) {s : State} {cl kind tcb : Nat} {tno : BitVec 12} {place reason cause : Nat} (H : P s) : P (State.dispatchEvent s cl kind tcb tno place reason cause) := by
  unfold State.dispatchEvent
  repeat' first
    | with_reducible assumption
    | with_reducible refine keep_countCluster K ?_
    | with_reducible refine keep_event K ?_

theorem keep_setClWord (K : Plain P) {s : State} {cl pa : Nat} {x : CacheWord} (H : P s) : P (State.setClWord s cl pa x) := by
  unfold State.setClWord
  repeat' first
    | with_reducible assumption
    | with_reducible refine K.cluster _ _ _ ?_ (by intro x; constructor <;> rfl)

theorem keep_dropClWord (K : Plain P) {s : State} {cl pa : Nat} (H : P s) : P (State.dropClWord s cl pa) := by
  unfold State.dropClWord
  repeat' first
    | with_reducible assumption
    | with_reducible refine keep_setClWord K ?_

theorem keep_mend (K : Plain P) {s : State} {cl pa : Nat} (H : P s) : P (State.mend s cl pa) := by
  unfold State.mend
  repeat' first
    | with_reducible assumption
    | with_reducible refine keep_countCluster K.toQuiet ?_
    | with_reducible refine keep_setClWord K ?_
    | dsimp only
    | split

theorem keep_markRecheck (K : Plain P) {s : State} {cl line : Nat} (H : P s) : P (State.markRecheck s cl line) := by
  unfold State.markRecheck
  repeat' first
    | with_reducible assumption
    | with_reducible refine K.cluster _ _ _ ?_ (by intro x; constructor <;> rfl)
    | dsimp only
    | split

theorem keep_lostWrite (K : Plain P) {s : State} {core place pa : Nat} {tno : BitVec 12} {org : Nat} (H : P s) : P (State.lostWrite s core place pa tno org) := by
  unfold State.lostWrite
  repeat' first
    | with_reducible assumption
    | with_reducible refine keep_countHub K.toQuiet ?_
    | with_reducible refine keep_event K.toQuiet ?_
    | with_reducible refine keep_postMessage K ?_

theorem keep_lostWord (K : Plain P) {s : State} {cl place pa : Nat} {x : CacheWord} (H : P s) : P (State.lostWord s cl place pa x) := by
  unfold State.lostWord
  repeat' first
    | with_reducible assumption
    | with_reducible refine keep_lostWrite K ?_

theorem keep_invalidate (K : Plain P) {s : State} {cl pa : Nat} (H : P s) : P (State.invalidate s cl pa).1 := by
  unfold State.invalidate
  repeat' first
    | with_reducible assumption
    | with_reducible refine keep_dropClWord K ?_
    | with_reducible refine keep_markRecheck K ?_
    | dsimp only
    | split

theorem keep_invalidate_eq (K : Plain P) {s t : State} {cl pa : Nat} {y : Bool} (H : P s) (E : State.invalidate s cl pa = (t, y)) : P t := by
  have z := keep_invalidate K H (s := s) (cl := cl) (pa := pa)
  rw [E] at z; exact z

theorem keep_untrack (K : Plain P) {s : State} {cl pa : Nat} (H : P s) : P (State.untrack s cl pa).1 := by
  unfold State.untrack
  repeat' first
    | with_reducible assumption
    | with_reducible refine keep_markRecheck K ?_
    | with_reducible refine keep_invalidate K ?_
    | with_reducible refine keep_invalidate_eq K ?_ (by assumption)
    | dsimp only
    | split

theorem keep_untrack_eq (K : Plain P) {s t : State} {cl pa : Nat} {y : Bool} (H : P s) (E : State.untrack s cl pa = (t, y)) : P t := by
  have z := keep_untrack K H (s := s) (cl := cl) (pa := pa)
  rw [E] at z; exact z

theorem keep_recall (K : Plain P) {s : State} {cl pa : Nat} (H : P s) : P (State.recall s cl pa).1 := by
  unfold State.recall
  repeat' first
    | with_reducible assumption
    | with_reducible refine keep_dropClWord K ?_
    | with_reducible refine keep_mend K ?_
    | with_reducible refine keep_markRecheck K ?_
    | with_reducible refine keep_lostWord K ?_
    | dsimp only
    | split

theorem keep_recall_eq (K : Plain P) {s t : State} {cl pa : Nat} {y : Option Word} (H : P s) (E : State.recall s cl pa = (t, y)) : P t := by
  have z := keep_recall K H (s := s) (cl := cl) (pa := pa)
  rw [E] at z; exact z

theorem keep_downgrade (K : Plain P) {s : State} {cl pa : Nat} (H : P s) : P (State.downgrade s cl pa).1 := by
  unfold State.downgrade
  repeat' first
    | with_reducible assumption
    | with_reducible refine keep_setClWord K ?_
    | with_reducible refine keep_dropClWord K ?_
    | with_reducible refine keep_mend K ?_
    | with_reducible refine keep_markRecheck K ?_
    | with_reducible refine keep_lostWord K ?_
    | dsimp only
    | split

theorem keep_downgrade_eq (K : Plain P) {s t : State} {cl pa : Nat} {y : Option Word} (H : P s) (E : State.downgrade s cl pa = (t, y)) : P t := by
  have z := keep_downgrade K H (s := s) (cl := cl) (pa := pa)
  rw [E] at z; exact z

theorem keep_modDir (K : Plain P) {s : State} {line : Nat} {f : DirEntry → DirEntry} (H : P s) : P (State.modDir s line f) := by
  unfold State.modDir
  repeat' first
    | with_reducible assumption
    | dsimp only
    | with_reducible refine K.toQuiet.records _ _ _ _ _ ?_
    | with_reducible refine K.upd _ _ _ _ _ _ _ _ _ _ ?_

theorem keep_modProxy (K : Plain P) {s : State} {sock line : Nat} {f : DirEntry → DirEntry} (H : P s) : P (State.modProxy s sock line f) := by
  unfold State.modProxy
  repeat' first
    | with_reducible assumption
    | dsimp only
    | with_reducible refine K.toQuiet.records _ _ _ _ _ ?_
    | with_reducible refine K.upd _ _ _ _ _ _ _ _ _ _ ?_

theorem keep_dropOwner (K : Plain P) {s : State} {pa : Nat} (H : P s) : P (State.dropOwner s pa) := by
  unfold State.dropOwner
  repeat' first
    | with_reducible assumption
    | with_reducible refine keep_modDir K ?_
    | with_reducible refine keep_modProxy K ?_
    | dsimp only
    | split

theorem keep_putWord (K : Plain P) {s : State} {pa : Nat} {x : Word} {mask : BitVec 8} (H : P s) : P (s.putWord pa x mask) :=
  K.upd _ s.dir _ s.fot s.flights s.outbox s.seq s.answer _ s.proxies (K.mem _ _ _ H)

theorem keep_wbWord (K : Plain P) {s : State} {r : Req} {w : Nat} (H : P s) : P (State.wbWord s r w) := by
  unfold State.wbWord
  repeat' first
    | with_reducible assumption
    | with_reducible refine keep_modDir K ?_
    | with_reducible refine keep_dropOwner K ?_
    | with_reducible refine keep_putWord K ?_

theorem keep_chargeHome (K : Quiet P) {s : State} {r : Req} {n : Nat} (H : P s) : P (State.chargeHome s r n) := by
  unfold State.chargeHome
  repeat' first
    | with_reducible assumption
    | with_reducible refine keep_addCtr K ?_
    | with_reducible refine keep_countMem K ?_
    | with_reducible refine keep_debit K ?_
    | with_reducible refine keep_event K ?_
    | dsimp only
    | split

theorem keep_landWb (K : Plain P) {s : State} {pa : Nat} (H : P s) : P (State.landWb s pa) := by
  unfold State.landWb
  repeat' first
    | with_reducible assumption
    | with_reducible refine keep_draw K.toQuiet ?_
    | with_reducible refine keep_draw_eq K.toQuiet ?_ (by assumption)
    | with_reducible refine keep_wbWord K ?_
    | with_reducible refine keep_chargeHome K.toQuiet ?_
    | with_reducible refine foldl_keeps (p := P) (fun s a H => ?_) _ ?_
    | dsimp only
    | split
    | with_reducible refine K.toQuiet.records _ _ _ _ _ ?_
    | with_reducible refine K.upd _ _ _ _ _ _ _ _ _ _ ?_

theorem keep_recallOwner (K : Plain P) {s : State} {pa : Nat} (H : P s) : P (State.recallOwner s pa).1 := by
  unfold State.recallOwner
  repeat' first
    | with_reducible assumption
    | with_reducible refine keep_recall K ?_
    | with_reducible refine keep_recall_eq K ?_ (by assumption)
    | with_reducible refine keep_dropOwner K ?_
    | with_reducible refine keep_landWb K ?_
    | dsimp only
    | split

theorem keep_recallOwner_eq (K : Plain P) {s t : State} {pa : Nat} {y : Option Word} (H : P s) (E : State.recallOwner s pa = (t, y)) : P t := by
  have z := keep_recallOwner K H (s := s) (pa := pa)
  rw [E] at z; exact z

theorem keep_homeWrites (K : Plain P) {s : State} {pa : Nat} {x : Word} (H : P s) : P (State.homeWrites s pa x) := by
  unfold State.homeWrites
  repeat' first
    | with_reducible assumption
    | with_reducible refine keep_modDir K ?_
    | with_reducible refine keep_putWord K ?_

theorem keep_recallWord (K : Plain P) {s : State} {pa : Nat} (H : P s) : P (State.recallWord s pa) := by
  unfold State.recallWord
  repeat' first
    | with_reducible assumption
    | with_reducible refine keep_recallOwner K ?_
    | with_reducible refine keep_recallOwner_eq K ?_ (by assumption)
    | with_reducible refine keep_homeWrites K ?_
    | dsimp only
    | split

theorem keep_share (K : Plain P) {s : State} {line c : Nat} (H : P s) : P (State.share s line c) := by
  unfold State.share
  repeat' first
    | with_reducible assumption
    | with_reducible refine keep_modDir K ?_
    | with_reducible refine keep_modProxy K ?_
    | dsimp only
    | split

theorem keep_setOwner (K : Plain P) {s : State} {pa c : Nat} (H : P s) : P (State.setOwner s pa c) := by
  unfold State.setOwner
  repeat' first
    | with_reducible assumption
    | with_reducible refine keep_modDir K ?_
    | with_reducible refine keep_modProxy K ?_
    | with_reducible refine keep_dropOwner K ?_
    | dsimp only
    | split

theorem keep_downgradeWord (K : Plain P) {s : State} {pa : Nat} (H : P s) : P (State.downgradeWord s pa) := by
  unfold State.downgradeWord
  repeat' first
    | with_reducible assumption
    | with_reducible refine keep_downgrade K ?_
    | with_reducible refine keep_downgrade_eq K ?_ (by assumption)
    | with_reducible refine keep_dropOwner K ?_
    | with_reducible refine keep_landWb K ?_
    | with_reducible refine keep_homeWrites K ?_
    | with_reducible refine keep_share K ?_
    | dsimp only
    | split

theorem keep_unshare (K : Plain P) {s : State} {line c : Nat} (H : P s) : P (State.unshare s line c) := by
  unfold State.unshare
  repeat' first
    | with_reducible assumption
    | with_reducible refine keep_modDir K ?_
    | with_reducible refine keep_modProxy K ?_
    | dsimp only
    | split

theorem keep_clearSockets (K : Plain P) {s : State} {line : Nat} {excl : Option Nat} (H : P s) : P (State.clearSockets s line excl) := by
  unfold State.clearSockets
  repeat' first
    | with_reducible assumption
    | with_reducible refine keep_modDir K ?_

theorem keep_invalidateAt (K : Plain P) {evict : Bool} {pa : Nat} {excl : Option Nat} {l : List Nat} {s : State}
    (H : P s) : P (invalidateAt evict pa excl l s) := by
  induction l generalizing s with
  | nil => exact H
  | cons c l ih =>
    unfold invalidateAt
    split
    · exact ih H
    · have z : P (if evict then s.untrack c pa else s.invalidate c pa).1 := by
        split
        · exact keep_untrack K H
        · exact keep_invalidate K H
      refine ih ?_
      split
      · exact z
      · exact keep_unshare K z

theorem keep_invalidateWord (K : Plain P) {s : State} {pa : Nat} {excl : Option Nat} (H : P s) : P (State.invalidateWord s pa excl) := by
  unfold State.invalidateWord
  repeat' first
    | with_reducible assumption
    | with_reducible refine keep_clearSockets K ?_
    | with_reducible refine keep_invalidateAt K ?_

theorem keep_evictDir (K : Plain P) {s : State} {line : Nat} (H : P s) : P (State.evictDir s line) := by
  unfold State.evictDir
  repeat' first
    | with_reducible assumption
    | with_reducible refine keep_modDir K ?_
    | with_reducible refine keep_recallWord K ?_
    | with_reducible refine keep_invalidateAt K ?_
    | with_reducible refine foldl_keeps (p := P) (fun s a H => ?_) _ ?_

theorem keep_evictProxy (K : Plain P) {s : State} {key : Nat} (H : P s) : P (State.evictProxy s key) := by
  unfold State.evictProxy
  repeat' first
    | with_reducible assumption
    | with_reducible refine keep_recallWord K ?_
    | with_reducible refine keep_invalidateAt K ?_
    | with_reducible refine foldl_keeps (p := P) (fun s a H => ?_) _ ?_
    | dsimp only
    | split
    | with_reducible refine K.toQuiet.records _ _ _ _ _ ?_
    | with_reducible refine K.upd _ _ _ _ _ _ _ _ _ _ ?_

theorem keep_dirRoom (K : Plain P) {s : State} {place : Nat × Nat} (H : P s) : P (State.dirRoom s place) := by
  unfold State.dirRoom
  repeat' first
    | with_reducible assumption
    | with_reducible refine keep_evictDir K ?_
    | with_reducible refine keep_evictProxy K ?_
    | dsimp only
    | split

theorem keep_dirAlloc (K : Plain P) {s : State} {line : Nat} (H : P s) : P (State.dirAlloc s line) := by
  unfold State.dirAlloc
  repeat' first
    | with_reducible assumption
    | with_reducible refine keep_dirRoom K ?_
    | dsimp only
    | split
    | with_reducible refine K.toQuiet.records _ _ _ _ _ ?_
    | with_reducible refine K.upd _ _ _ _ _ _ _ _ _ _ ?_

theorem keep_proxyAlloc (K : Plain P) {s : State} {line c : Nat} (H : P s) : P (State.proxyAlloc s line c) := by
  unfold State.proxyAlloc
  repeat' first
    | with_reducible assumption
    | with_reducible refine keep_dirRoom K ?_
    | dsimp only
    | split
    | with_reducible refine K.toQuiet.records _ _ _ _ _ ?_
    | with_reducible refine K.upd _ _ _ _ _ _ _ _ _ _ ?_

theorem keep_track (K : Plain P) {s : State} {line c : Nat} (H : P s) : P (State.track s line c) := by
  unfold State.track
  repeat' first
    | with_reducible assumption
    | with_reducible refine keep_share K ?_
    | with_reducible refine keep_dirAlloc K ?_
    | with_reducible refine keep_proxyAlloc K ?_

theorem keep_loseWord (K : Plain P) {s : State} {cl pa : Nat} (H : P s) : P (State.loseWord s cl pa) := by
  unfold State.loseWord
  repeat' first
    | with_reducible assumption
    | with_reducible refine keep_dropClWord K ?_
    | with_reducible refine keep_dropOwner K ?_

theorem keep_noteError (K : Quiet P) {s : State} {tno : BitVec 12} {org pa index kind : Nat} (H : P s) : P (State.noteError s tno org pa index kind) := by
  unfold State.noteError
  repeat' first
    | with_reducible assumption
    | with_reducible refine keep_countHub K ?_
    | with_reducible refine keep_event K ?_

theorem keep_memoryFetch (K : Plain P) {s : State} {tno : BitVec 12} {org pa : Nat} (H : P s) : Holds P (memoryFetch tno org pa) s := by
  unfold memoryFetch
  repeat' first
    | with_reducible assumption
    | with_reducible refine keep_noteError K.toQuiet ?_
    | with_reducible refine holds_get_bind ?_
    | with_reducible refine holds_set_bind ?_
    | with_reducible refine holds_pure_bind ?_
    | with_reducible refine holds_bind ?_ (fun a t H => ?_)
    | with_reducible refine holds_pure _ ?_
    | with_reducible refine holds_throw _ ?_
    | with_reducible refine holds_get ?_
    | with_reducible refine holds_set ?_
    | dsimp only
    | split
    | with_reducible refine K.toQuiet.records _ _ _ _ _ ?_
    | with_reducible refine K.upd _ _ _ _ _ _ _ _ _ _ ?_

theorem keep_homeFetch (K : Plain P) {s : State} {tno : BitVec 12} {org pa : Nat} (H : P s) : Holds P (homeFetch tno org pa) s := by
  unfold homeFetch
  repeat' first
    | with_reducible assumption
    | with_reducible refine keep_noteError K.toQuiet ?_
    | with_reducible refine keep_memoryFetch K ?_
    | with_reducible refine (keep_memoryFetch K ?_).ok (by assumption)
    | with_reducible refine (keep_memoryFetch K ?_).error (by assumption)
    | with_reducible refine holds_get_bind ?_
    | with_reducible refine holds_set_bind ?_
    | with_reducible refine holds_pure_bind ?_
    | with_reducible refine holds_bind ?_ (fun a t H => ?_)
    | with_reducible refine holds_pure _ ?_
    | with_reducible refine holds_throw _ ?_
    | with_reducible refine holds_get ?_
    | with_reducible refine holds_set ?_
    | dsimp only
    | split
    | with_reducible refine K.toQuiet.records _ _ _ _ _ ?_
    | with_reducible refine K.upd _ _ _ _ _ _ _ _ _ _ ?_

theorem keep_homeForward (K : Plain P) {s : State} {tno : BitVec 12} {org pa : Nat} (H : P s) : Holds P (homeForward tno org pa) s := by
  unfold homeForward
  repeat' first
    | with_reducible assumption
    | with_reducible refine keep_mend K ?_
    | with_reducible refine keep_landWb K ?_
    | with_reducible refine keep_loseWord K ?_
    | with_reducible refine keep_homeFetch K ?_
    | with_reducible refine (keep_homeFetch K ?_).ok (by assumption)
    | with_reducible refine (keep_homeFetch K ?_).error (by assumption)
    | with_reducible refine holds_get_bind ?_
    | with_reducible refine holds_set_bind ?_
    | with_reducible refine holds_modify_bind ?_
    | with_reducible refine holds_pure_bind ?_
    | with_reducible refine holds_bind ?_ (fun a t H => ?_)
    | with_reducible refine holds_pure _ ?_
    | with_reducible refine holds_throw _ ?_
    | with_reducible refine holds_get ?_
    | with_reducible refine holds_set ?_
    | with_reducible refine holds_modify ?_
    | dsimp only
    | split

theorem keep_pokeWord (K : Plain P) {s : State} {pa : Nat} {x : Word} {mask : BitVec 8} (H : P s) : P (State.pokeWord s pa x mask) := by
  unfold State.pokeWord
  repeat' first
    | with_reducible assumption
    | with_reducible refine keep_modDir K ?_
    | with_reducible refine keep_putWord K ?_
    | with_reducible refine keep_recallWord K ?_
    | with_reducible refine keep_invalidateWord K ?_

theorem keep_readTable (K : Plain P) {s : State} {here pa : Nat} (H : P s) : P (State.readTable s here pa).2 := by
  unfold State.readTable
  repeat' first
    | with_reducible assumption
    | with_reducible refine keep_draw K.toQuiet ?_
    | with_reducible refine keep_draw_eq K.toQuiet ?_ (by assumption)
    | with_reducible refine keep_homeForward K ?_
    | with_reducible refine (keep_homeForward K ?_).ok (by assumption)
    | with_reducible refine (keep_homeForward K ?_).error (by assumption)
    | dsimp only
    | split

theorem keep_readTable_eq (K : Plain P) {s t : State} {here pa : Nat} {y : Word} (H : P s) (E : State.readTable s here pa = (y, t)) : P t := by
  have z := keep_readTable K H (s := s) (here := here) (pa := pa)
  rw [E] at z; exact z

theorem keep_readTableWords (K : Plain P) {here n pa : Nat} {s : State} (H : P s) : P (readTableWords here n pa s).2 := by
  induction n generalizing pa s with
  | zero => exact H
  | succ n ih => exact ih (keep_readTable K H)

theorem keep_readTableWords_eq (K : Plain P) {here n pa : Nat} {s t : State} {y : List Word} (H : P s)
    (E : readTableWords here n pa s = (y, t)) : P t := by
  have z := keep_readTableWords K H (s := s) (here := here) (n := n) (pa := pa)
  rw [E] at z; exact z

theorem keep_chargeTable (K : Quiet P) {s : State} {here : Nat} {kind : ReqKind} {pa : Nat} (H : P s) : P (State.chargeTable s here kind pa) := by
  unfold State.chargeTable
  repeat' first
    | with_reducible assumption
    | with_reducible refine keep_draw K ?_
    | with_reducible refine keep_draw_eq K ?_ (by assumption)
    | with_reducible refine keep_chargeHome K ?_
    | dsimp only
    | split

theorem keep_setTableWord (K : Plain P) {s : State} {here pa : Nat} {x : Word} (H : P s) : P (State.setTableWord s here pa x) := by
  unfold State.setTableWord
  repeat' first
    | with_reducible assumption
    | with_reducible refine keep_pokeWord K ?_
    | dsimp only
    | split

theorem keep_fotFill (K : Plain P) {s : State} {pa : Nat} (H : P s) : P (State.fotFill s pa) := by
  unfold State.fotFill
  repeat' first
    | with_reducible assumption
    | with_reducible refine keep_readTable K ?_
    | with_reducible refine keep_readTable_eq K ?_ (by assumption)
    | with_reducible refine keep_chargeTable K.toQuiet ?_
    | dsimp only
    | split
    | with_reducible refine K.toQuiet.records _ _ _ _ _ ?_
    | with_reducible refine K.upd _ _ _ _ _ _ _ _ _ _ ?_

theorem keep_deadLetter (K : Plain P) {s : State} {sock : Nat} {d : DeadLetter} (H : P s) : P (State.deadLetter s sock d) := by
  unfold State.deadLetter
  repeat' first
    | with_reducible assumption
    | with_reducible refine keep_countTenant K.toQuiet ?_
    | with_reducible refine keep_event K.toQuiet ?_
    | with_reducible refine keep_readTable K ?_
    | with_reducible refine keep_readTable_eq K ?_ (by assumption)
    | with_reducible refine keep_chargeTable K.toQuiet ?_
    | with_reducible refine keep_setTableWord K ?_
    | with_reducible refine foldl_keeps (p := P) (fun s a H => ?_) _ ?_
    | with_reducible refine foldl_fst_keeps (p := P) (fun q a H => ?_) _ ?_
    | dsimp only
    | split

theorem keep_trace (K : Plain P) {s : State} {kind c : Nat} {pc addr w4 : Word} (H : P s) : P (State.trace s kind c pc addr w4) := by
  unfold State.trace
  repeat' first
    | with_reducible assumption
    | with_reducible refine keep_readTable K ?_
    | with_reducible refine keep_readTable_eq K ?_ (by assumption)
    | with_reducible refine keep_chargeTable K.toQuiet ?_
    | with_reducible refine keep_setTableWord K ?_
    | with_reducible refine foldl_keeps (p := P) (fun s a H => ?_) _ ?_
    | with_reducible refine foldl_fst_keeps (p := P) (fun q a H => ?_) _ ?_
    | dsimp only
    | split

theorem keep_checkPostmark (K : Plain P) {s : State} {line cl org : Nat} {pc : Word} {tno : BitVec 12} {acq : Scope} (H : P s) : P (State.checkPostmark s line cl org pc tno acq) := by
  unfold State.checkPostmark
  repeat' first
    | with_reducible assumption
    | with_reducible refine keep_countCluster K.toQuiet ?_
    | with_reducible refine keep_event K.toQuiet ?_
    | with_reducible refine keep_trace K ?_
    | dsimp only
    | split

theorem keep_stampPostmark (K : Plain P) {s : State} {r : Req} (H : P s) : P (State.stampPostmark s r) := by
  unfold State.stampPostmark
  repeat' first
    | with_reducible assumption
    | with_reducible refine keep_draw K.toQuiet ?_
    | with_reducible refine keep_draw_eq K.toQuiet ?_ (by assumption)
    | with_reducible refine keep_modDir K ?_
    | with_reducible refine keep_dirAlloc K ?_
    | dsimp only
    | split

theorem keep_sliceEvict (K : Plain P) {s : State} {home : Nat} (H : P s) : P (s.sliceEvict home) := by
  unfold State.sliceEvict
  split
  · have H := keep_draw K.toQuiet H
    dsimp only
    split
    · exact keep_lostWrite K (K.upd _ s.draw.2.dir s.draw.2.errs s.draw.2.fot s.draw.2.flights s.draw.2.outbox s.draw.2.seq
        s.draw.2.answer _ s.draw.2.proxies (K.mem _ _ _ H))
    · exact H
  · exact H

theorem keep_homeWord (K : Plain P) {s : State} {r : Req} {w : Nat} (H : P s) : Holds P (homeWord r w) s := by
  unfold homeWord
  repeat' first
    | with_reducible assumption
    | with_reducible refine keep_putWord K ?_
    | with_reducible refine keep_wbWord K ?_
    | with_reducible refine keep_landWb K ?_
    | with_reducible refine keep_recallOwner K ?_
    | with_reducible refine keep_recallOwner_eq K ?_ (by assumption)
    | with_reducible refine keep_recallWord K ?_
    | with_reducible refine keep_setOwner K ?_
    | with_reducible refine keep_downgradeWord K ?_
    | with_reducible refine keep_invalidateWord K ?_
    | with_reducible refine keep_track K ?_
    | with_reducible refine keep_homeFetch K ?_
    | with_reducible refine (keep_homeFetch K ?_).ok (by assumption)
    | with_reducible refine (keep_homeFetch K ?_).error (by assumption)
    | with_reducible refine keep_homeForward K ?_
    | with_reducible refine (keep_homeForward K ?_).ok (by assumption)
    | with_reducible refine (keep_homeForward K ?_).error (by assumption)
    | with_reducible refine holds_get_bind ?_
    | with_reducible refine holds_set_bind ?_
    | with_reducible refine holds_modify_bind ?_
    | with_reducible refine holds_pure_bind ?_
    | with_reducible refine holds_bind ?_ (fun a t H => ?_)
    | with_reducible refine holds_pure _ ?_
    | with_reducible refine holds_throw _ ?_
    | with_reducible refine holds_get ?_
    | with_reducible refine holds_set ?_
    | with_reducible refine holds_modify ?_
    | dsimp only
    | split

theorem keep_fillOf (K : Plain P) {s : State} {r : Req} {named : List (Nat × Word)} (H : P s) : Holds P (fillOf r named) s := by
  unfold fillOf
  repeat' first
    | with_reducible assumption
    | with_reducible refine keep_homeFetch K ?_
    | with_reducible refine (keep_homeFetch K ?_).ok (by assumption)
    | with_reducible refine (keep_homeFetch K ?_).error (by assumption)
    | with_reducible refine foldl_keeps (p := P) (fun s a H => ?_) _ ?_
    | (unfold Holds; dsimp only; split <;> rename_i E <;> split at E <;> cases E <;> first | exact (keep_homeFetch K (by assumption)).ok (by assumption) | exact (keep_homeFetch K (by assumption)).error (by assumption))
    | with_reducible refine holds_get_bind ?_
    | with_reducible refine holds_pure_bind ?_
    | with_reducible refine holds_bind ?_ (fun a t H => ?_)
    | with_reducible refine holds_pure _ ?_
    | with_reducible refine holds_get ?_
    | with_reducible refine holds_mapM (fun a t H => ?_) _ ?_
    | dsimp only
    | split

theorem keep_serve (K : Plain P) {s : State} {r : Req} (H : P s) : Holds P (serve r) s := by
  unfold serve
  repeat' first
    | with_reducible assumption
    | with_reducible refine keep_draw K.toQuiet ?_
    | with_reducible refine keep_draw_eq K.toQuiet ?_ (by assumption)
    | with_reducible refine keep_chargeHome K.toQuiet ?_
    | with_reducible refine keep_fotFill K ?_
    | with_reducible refine keep_checkPostmark K ?_
    | with_reducible refine keep_stampPostmark K ?_
    | with_reducible refine keep_sliceEvict K ?_
    | with_reducible refine keep_homeWord K ?_
    | with_reducible refine (keep_homeWord K ?_).ok (by assumption)
    | with_reducible refine (keep_homeWord K ?_).error (by assumption)
    | with_reducible refine keep_fillOf K ?_
    | with_reducible refine (keep_fillOf K ?_).ok (by assumption)
    | with_reducible refine (keep_fillOf K ?_).error (by assumption)
    | with_reducible refine holds_get_bind ?_
    | with_reducible refine holds_set_bind ?_
    | with_reducible refine holds_modify_bind ?_
    | with_reducible refine holds_pure_bind ?_
    | with_reducible refine holds_bind ?_ (fun a t H => ?_)
    | with_reducible refine holds_pure _ ?_
    | with_reducible refine holds_throw _ ?_
    | with_reducible refine holds_get ?_
    | with_reducible refine holds_set ?_
    | with_reducible refine holds_modify ?_
    | with_reducible refine holds_mapM (fun a t H => ?_) _ ?_
    | dsimp only
    | split

theorem keep_serveLate (K : Plain P) {s : State} {r : Req} (H : P s) : P (State.serveLate s r).1 := by
  unfold State.serveLate
  repeat' first
    | with_reducible assumption
    | with_reducible refine keep_lostWrite K ?_
    | with_reducible refine keep_deadLetter K ?_
    | with_reducible refine keep_serve K ?_
    | with_reducible refine (keep_serve K ?_).ok (by assumption)
    | with_reducible refine (keep_serve K ?_).error (by assumption)
    | dsimp only
    | split

theorem keep_serveLate_eq (K : Plain P) {s t : State} {r : Req} {y : Bool} (H : P s) (E : State.serveLate s r = (t, y)) : P t := by
  have z := keep_serveLate K H (s := s) (r := r)
  rw [E] at z; exact z

theorem keep_modPort (K : Plain P) {s : State} {p : Nat} {f : Port → Port} (H : P s) : P (State.modPort s p f) := by
  unfold State.modPort
  repeat' first
    | with_reducible assumption
    | with_reducible refine K.cluster _ _ _ ?_ (by intro x; constructor <;> rfl)

theorem keep_occupy (K : Plain P) {s : State} {p unit sub : Nat} (H : P s) : P (State.occupy s p unit sub) := by
  unfold State.occupy
  repeat' first
    | with_reducible assumption
    | with_reducible refine keep_countPort K.toQuiet ?_
    | with_reducible refine keep_modPort K ?_

theorem keep_replyEnds (K : Plain P) {s : State} {p : Nat} {cmx : Bool} (H : P s) : P (State.replyEnds s p cmx) := by
  unfold State.replyEnds
  repeat' first
    | with_reducible assumption
    | with_reducible refine keep_countPort K.toQuiet ?_
    | with_reducible refine keep_event K.toQuiet ?_
    | with_reducible refine keep_modPort K ?_
    | dsimp only
    | split

theorem keep_putOut (K : Plain P) {s : State} {sock port : Nat} {fs : List Frame} (H : P s) : P (s.putOut sock port fs) :=
  K.upd s s.dir s.errs s.fot s.flights _ s.seq s.answer s.slc s.proxies H

theorem keep_sendFrame (K : Plain P) {s : State} {sock port : Nat} {f : Frame} (H : P s) : P (State.sendFrame s sock port f) := by
  unfold State.sendFrame
  repeat' first
    | with_reducible assumption
    | with_reducible refine keep_putOut K ?_
    | with_reducible refine K.pkgKept _ _ _ ?_ (by intro x; unfold PkgKept; rfl)
    | dsimp only
    | split

theorem keep_setFlow (K : Plain P) {s : State} {sock d : Nat} {f : OutFlow} (H : P s) : P (State.setFlow s sock d f) := by
  unfold State.setFlow
  repeat' first
    | with_reducible assumption
    | with_reducible refine K.pkgKept _ _ _ ?_ (by intro x; unfold PkgKept; rfl)

theorem keep_sendPieces (K : Plain P) {s : State} {sock d : Nat} {ps : List FarPiece} (H : P s) : P (State.sendPieces s sock d ps) := by
  unfold State.sendPieces
  repeat' first
    | with_reducible assumption
    | with_reducible refine keep_sendFrame K ?_
    | with_reducible refine keep_setFlow K ?_
    | with_reducible refine foldl_keeps (p := P) (fun s a H => ?_) _ ?_
    | dsimp only
    | split

theorem keep_farSend (K : Plain P) {s : State} {g : FarGo} (H : P s) : P (State.farSend s g) := by
  unfold State.farSend
  repeat' first
    | with_reducible assumption
    | with_reducible refine keep_deadLetter K ?_
    | with_reducible refine keep_setFlow K ?_
    | with_reducible refine keep_sendPieces K ?_
    | dsimp only
    | split

theorem keep_loseFlow (K : Plain P) {s : State} {sock d : Nat} (H : P s) : P (State.loseFlow s sock d) := by
  unfold State.loseFlow
  repeat' first
    | with_reducible assumption
    | with_reducible refine keep_deadLetter K ?_
    | with_reducible refine keep_setFlow K ?_
    | with_reducible refine foldl_keeps (p := P) (fun s a H => ?_) _ ?_

theorem keep_farFallen (K : Plain P) {s : State} {sock : Nat} (H : P s) : P (State.farFallen s sock) := by
  unfold State.farFallen
  repeat' first
    | with_reducible assumption
    | with_reducible refine keep_loseFlow K ?_
    | with_reducible refine foldl_keeps (p := P) (fun s a H => ?_) _ ?_
    | dsimp only
    | split

theorem keep_sendGo (K : Plain P) {s : State} {g : Option FarGo} (H : P s) : P (State.sendGo s g) := by
  unfold State.sendGo
  repeat' first
    | with_reducible assumption
    | with_reducible refine keep_farSend K ?_
    | dsimp only
    | split

theorem keep_sendFar (K : Plain P) {s : State} {r : Req} (H : P s) : P (State.sendFar s r) := by
  unfold State.sendFar
  repeat' first
    | with_reducible assumption
    | with_reducible refine keep_sendGo K ?_

theorem keep_replay (K : Plain P) {s : State} {sock port peer : Nat} (H : P s) : P (State.replay s sock port peer) := by
  unfold State.replay
  repeat' first
    | with_reducible assumption
    | dsimp only
    | split
    | with_reducible refine K.toQuiet.records _ _ _ _ _ ?_
    | with_reducible refine K.upd _ _ _ _ _ _ _ _ _ _ ?_

theorem keep_moveFlight (K : Plain P) {s : State} {f : Flight} {g : Flight} (H : P s) : P (State.moveFlight s f g) := by
  unfold State.moveFlight
  repeat' first
    | with_reducible assumption
    | dsimp only
    | with_reducible refine K.toQuiet.records _ _ _ _ _ ?_
    | with_reducible refine K.upd _ _ _ _ _ _ _ _ _ _ ?_

theorem keep_admission (K : Plain P) {s : State} {port : Nat} (H : P s) : P (State.admission s port) := by
  unfold State.admission
  repeat' first
    | with_reducible assumption
    | with_reducible refine keep_occupy K ?_
    | with_reducible refine keep_moveFlight K ?_
    | dsimp only
    | split

theorem keep_forwardFrom (K : Plain P) {s : State} {stage switch out : Nat} (H : P s) : P (State.forwardFrom s stage switch out) := by
  unfold State.forwardFrom
  repeat' first
    | with_reducible assumption
    | with_reducible refine keep_moveFlight K ?_
    | dsimp only
    | split

theorem keep_missEvent (K : Quiet P) {s : State} {a : Agent} {r : Req} {owned : Bool} {n : Nat} (H : P s) : P (State.missEvent s a r owned n) := by
  unfold State.missEvent
  repeat' first
    | with_reducible assumption
    | with_reducible refine keep_event K ?_
    | dsimp only
    | split

theorem keep_missOf (K : Quiet P) {s : State} {f : Flight} {sbit : Nat} (H : P s) : P (State.missOf s f sbit) := by
  unfold State.missOf
  repeat' first
    | with_reducible assumption
    | with_reducible refine keep_draw K ?_
    | with_reducible refine keep_draw_eq K ?_ (by assumption)
    | with_reducible refine keep_event K ?_
    | dsimp only
    | split

theorem keep_takeFlight (K : Plain P) {s : State} {f : Flight} (H : P s) : P (State.takeFlight s f) := by
  unfold State.takeFlight
  repeat' first
    | with_reducible assumption
    | with_reducible refine keep_serveLate K ?_
    | with_reducible refine keep_serveLate_eq K ?_ (by assumption)
    | with_reducible refine keep_sendGo K ?_
    | with_reducible refine keep_moveFlight K ?_
    | dsimp only
    | split

theorem keep_putEnds (K : Plain P) {s : State} {cl id : Nat} (H : P s) : P (State.putEnds s cl id) := by
  unfold State.putEnds
  repeat' first
    | with_reducible assumption
    | with_reducible refine K.cluster _ _ _ ?_ (by intro x; constructor <;> rfl)

theorem keep_tputEnds (K : Plain P) {s : State} {e id : Nat} (H : P s) : P (State.tputEnds s e id) := by
  unfold State.tputEnds
  repeat' first
    | with_reducible assumption
    | with_reducible refine K.engine _ _ _ ?_ (by intro x; unfold EngineKept; rfl)

theorem keep_tputAcked (K : Plain P) {s : State} {e id : Nat} (H : P s) : P (State.tputAcked s e id) := by
  unfold State.tputAcked
  repeat' first
    | with_reducible assumption
    | with_reducible refine K.engine _ _ _ ?_ (by intro x; unfold EngineKept; rfl)

theorem keep_send (K : Plain P) {s : State} {cl unit sub : Nat} {r : Req} {far : Option FarGo} (H : P s) : P (State.send s cl unit sub r far) := by
  unfold State.send
  repeat' first
    | with_reducible assumption
    | dsimp only
    | with_reducible refine K.toQuiet.records _ _ _ _ _ ?_
    | with_reducible refine K.upd _ _ _ _ _ _ _ _ _ _ ?_

theorem keep_putLanded (K : Plain P) {s : State} {cl id bytes : Nat} {far : Option FarGo} (H : P s) : P (State.putLanded s cl id bytes far) := by
  unfold State.putLanded
  repeat' first
    | with_reducible assumption
    | with_reducible refine keep_putEnds K ?_
    | with_reducible refine keep_send K ?_
    | dsimp only
    | split

theorem keep_tputLanded (K : Plain P) {s : State} {e id bytes : Nat} {far : Option FarGo} (H : P s) : P (State.tputLanded s e id bytes far) := by
  unfold State.tputLanded
  repeat' first
    | with_reducible assumption
    | with_reducible refine keep_tputEnds K ?_
    | with_reducible refine keep_send K ?_
    | dsimp only
    | split

theorem keep_messageEnds (K : Plain P) {s : State} {f : Flight} (H : P s) : P (State.messageEnds s f) := by
  unfold State.messageEnds
  repeat' first
    | with_reducible assumption
    | with_reducible refine keep_missOf K.toQuiet ?_
    | with_reducible refine keep_putEnds K ?_
    | with_reducible refine keep_tputEnds K ?_
    | with_reducible refine keep_tputAcked K ?_
    | with_reducible refine keep_putLanded K ?_
    | with_reducible refine keep_tputLanded K ?_
    | dsimp only
    | split

theorem keep_endingReply (K : Plain P) {s : State} {port : Nat} {cmx : Bool} (H : P s) : P (State.endingReply s port cmx) := by
  unfold State.endingReply
  repeat' first
    | with_reducible assumption
    | with_reducible refine keep_replyEnds K ?_
    | with_reducible refine keep_messageEnds K ?_
    | dsimp only
    | split
    | with_reducible refine K.toQuiet.records _ _ _ _ _ ?_
    | with_reducible refine K.upd _ _ _ _ _ _ _ _ _ _ ?_

theorem keep_carryOn (K : Plain P) {s : State} {f : Flight} (H : P s) : P (State.carryOn s f) := by
  unfold State.carryOn
  repeat' first
    | with_reducible assumption
    | with_reducible refine keep_admission K ?_
    | with_reducible refine keep_forwardFrom K ?_
    | with_reducible refine keep_takeFlight K ?_
    | with_reducible refine keep_endingReply K ?_
    | dsimp only
    | split

theorem keep_nudge (K : Plain P) {n : Nat} {s : State} {f : Flight} (H : P s) : P (s.nudge n f) := by
  induction n generalizing f with
  | zero => exact H
  | succ n ih =>
    unfold State.nudge
    split
    · exact keep_carryOn K H
    · split
      · exact ih
      · exact H

theorem keep_clearPath (K : Plain P) {port slice : Nat} {link : Option Nat} {request : Bool} {n : Nat} {s : State} (H : P s) :
    P (clearPath port slice link request n s) := by
  induction n generalizing s with
  | zero => exact H
  | succ n ih =>
    unfold clearPath
    split
    · exact H
    · exact ih (keep_nudge K H)

theorem keep_takeTurns (K : Plain P) {port slice : Nat} {link : Option Nat} {unit sub n : Nat} {s : State} (H : P s) :
    P (takeTurns port slice link unit sub n s) := by
  induction n generalizing s with
  | zero => exact H
  | succ n ih =>
    unfold takeTurns
    split
    · exact H
    · dsimp only
      split
      · exact ih (keep_clearPath K (keep_admission K H))
      · exact H

theorem keep_approach (K : Plain P) {s : State} {a : Agent} {pa : Nat} (H : P s) : P (State.approach s a pa) := by
  unfold State.approach
  repeat' first
    | with_reducible assumption
    | with_reducible refine keep_occupy K ?_
    | with_reducible refine keep_clearPath K ?_
    | with_reducible refine keep_takeTurns K ?_
    | dsimp only
    | split

theorem keep_arrive (K : Plain P) {s : State} {cl pa : Nat} (H : P s) : P (State.arrive s cl pa) := by
  unfold State.arrive
  repeat' first
    | with_reducible assumption
    | with_reducible refine keep_clearPath K ?_
    | dsimp only
    | split

theorem keep_carry (K : Plain P) {s : State} {a : Agent} {pa : Nat} (H : P s) : P (State.carry s a pa).1 := by
  unfold State.carry
  repeat' first
    | with_reducible assumption
    | with_reducible refine keep_dropClWord K ?_
    | with_reducible refine keep_mend K ?_
    | with_reducible refine keep_lostWord K ?_
    | with_reducible refine keep_modDir K ?_
    | with_reducible refine keep_putWord K ?_
    | with_reducible refine keep_recallWord K ?_
    | with_reducible refine keep_invalidateWord K ?_
    | with_reducible refine keep_loseWord K ?_
    | with_reducible refine keep_fotFill K ?_
    | with_reducible refine keep_deadLetter K ?_
    | dsimp only
    | split

theorem keep_carry_eq (K : Plain P) {s t : State} {a : Agent} {pa : Nat} {y : Bool} (H : P s) (E : State.carry s a pa = (t, y)) : P t := by
  have z := keep_carry K H (s := s) (a := a) (pa := pa)
  rw [E] at z; exact z

theorem keep_requestWith (K : Plain P) {s : State} {a : Agent} {r : Req} {pa : Option Nat} (H : P s) : Holds P (requestWith a r pa) s := by
  unfold requestWith
  repeat' first
    | with_reducible assumption
    | with_reducible refine keep_serve K ?_
    | with_reducible refine (keep_serve K ?_).ok (by assumption)
    | with_reducible refine (keep_serve K ?_).error (by assumption)
    | with_reducible refine keep_replyEnds K ?_
    | with_reducible refine keep_missEvent K.toQuiet ?_
    | with_reducible refine keep_carry K ?_
    | with_reducible refine keep_carry_eq K ?_ (by assumption)
    | with_reducible refine holds_get_bind ?_
    | with_reducible refine holds_set_bind ?_
    | with_reducible refine holds_pure_bind ?_
    | with_reducible refine holds_bind ?_ (fun a t H => ?_)
    | with_reducible refine holds_pure _ ?_
    | with_reducible refine holds_throw _ ?_
    | with_reducible refine holds_get ?_
    | with_reducible refine holds_set ?_
    | dsimp only
    | split

theorem keep_request (K : Plain P) {s : State} {a : Agent} {r : Req} (H : P s) : Holds P (request a r) s := by
  unfold request
  repeat' first
    | with_reducible assumption
    | with_reducible refine keep_requestWith K ?_
    | with_reducible refine holds_get_bind ?_
    | with_reducible refine holds_pure_bind ?_
    | with_reducible refine holds_bind ?_ (fun a t H => ?_)
    | with_reducible refine holds_pure _ ?_

theorem keep_visit (K : Plain P) {s : State} {a : Agent} {kind : ReqKind} {pa : Nat} (H : P s) : P (State.visit s a kind pa) := by
  unfold State.visit
  repeat' first
    | with_reducible assumption
    | with_reducible refine keep_countMem K.toQuiet ?_
    | with_reducible refine keep_event K.toQuiet ?_
    | with_reducible refine keep_replyEnds K ?_
    | with_reducible refine keep_approach K ?_

theorem keep_writeBack (K : Plain P) {s : State} {a : Agent} {pa : Nat} {keep : Bool} {place : Nat} (H : P s) : P (State.writeBack s a pa keep place) := by
  unfold State.writeBack
  repeat' first
    | with_reducible assumption
    | with_reducible refine keep_setClWord K ?_
    | with_reducible refine keep_dropClWord K ?_
    | with_reducible refine keep_mend K ?_
    | with_reducible refine keep_lostWord K ?_
    | with_reducible refine keep_loseWord K ?_
    | with_reducible refine keep_serveLate K ?_
    | with_reducible refine keep_serveLate_eq K ?_ (by assumption)
    | with_reducible refine keep_arrive K ?_
    | dsimp only
    | split

theorem keep_drainWord (K : Plain P) {s : State} {a : Agent} {pa : Nat} {toU : Bool} {rel : Option Scope} {place : Nat} (H : P s) : P (State.drainWord s a pa toU rel place) := by
  unfold State.drainWord
  repeat' first
    | with_reducible assumption
    | with_reducible refine keep_setClWord K ?_
    | with_reducible refine keep_dropClWord K ?_
    | with_reducible refine keep_mend K ?_
    | with_reducible refine keep_markRecheck K ?_
    | with_reducible refine keep_lostWord K ?_
    | with_reducible refine keep_serveLate K ?_
    | with_reducible refine keep_serveLate_eq K ?_ (by assumption)
    | with_reducible refine keep_replyEnds K ?_
    | with_reducible refine keep_missEvent K.toQuiet ?_
    | with_reducible refine keep_approach K ?_
    | dsimp only
    | split

theorem keep_sendBack (K : Plain P) {s : State} {a : Agent} {line : Nat} (H : P s) : P (State.sendBack s a line) := by
  unfold State.sendBack
  repeat' first
    | with_reducible assumption
    | with_reducible refine keep_dropClWord K ?_
    | with_reducible refine keep_mend K ?_
    | with_reducible refine keep_lostWord K ?_
    | with_reducible refine keep_loseWord K ?_
    | with_reducible refine keep_send K ?_
    | with_reducible refine foldl_keeps (p := P) (fun s a H => ?_) _ ?_
    | dsimp only
    | split

theorem keep_evictLine (K : Plain P) {s : State} {a : Agent} {line : Nat} (H : P s) : P (State.evictLine s a line) := by
  unfold State.evictLine
  repeat' first
    | with_reducible assumption
    | with_reducible refine keep_drainWord K ?_
    | with_reducible refine keep_sendBack K ?_
    | with_reducible refine K.cluster _ _ _ ?_ (by intro x; constructor <;> rfl)
    | with_reducible refine foldl_keeps (p := P) (fun s a H => ?_) _ ?_

theorem keep_vacate (K : Plain P) {s : State} {a : Agent} {line : Nat} (H : P s) : P (State.vacate s a line) := by
  unfold State.vacate
  repeat' first
    | with_reducible assumption
    | with_reducible refine keep_draw K.toQuiet ?_
    | with_reducible refine keep_draw_eq K.toQuiet ?_ (by assumption)
    | with_reducible refine keep_evictLine K ?_
    | with_reducible refine foldl_keeps (p := P) (fun s a H => ?_) _ ?_
    | dsimp only
    | split

theorem keep_makeRoom (K : Plain P) {s : State} {a : Agent} {line : Nat} (H : P s) : P (State.makeRoom s a line) := by
  unfold State.makeRoom
  repeat' first
    | with_reducible assumption
    | with_reducible refine keep_vacate K ?_
    | with_reducible refine K.cluster _ _ _ ?_ (by intro x; constructor <;> rfl)
    | dsimp only
    | split

theorem keep_ready (K : Plain P) {s : State} {a : Agent} {pa : Nat} {room : Bool} (H : P s) : Holds P (ready a pa room) s := by
  show P (State.approach (if room then s.vacate a (lineOf pa) else s) a (lineOf pa))
  refine keep_approach K ?_
  split
  · exact keep_vacate K H
  · exact H

theorem keep_install (K : Plain P) {s : State} {a : Agent} {line : Nat} {fill : Vec × BitVec 8} {st : WordState} (H : P s) : P (State.install s a line fill st) := by
  unfold State.install
  repeat' first
    | with_reducible assumption
    | with_reducible refine keep_setClWord K ?_
    | with_reducible refine keep_dropClWord K ?_
    | with_reducible refine keep_makeRoom K ?_
    | with_reducible refine K.cluster _ _ _ ?_ (by intro x; constructor <;> rfl)
    | with_reducible refine foldl_keeps (p := P) (fun s a H => ?_) _ ?_
    | dsimp only
    | split

theorem keep_scrub (K : Plain P) {s : State} {cl pa : Nat} (H : P s) : P (State.scrub s cl pa) := by
  unfold State.scrub
  repeat' first
    | with_reducible assumption
    | with_reducible refine keep_dropClWord K ?_
    | with_reducible refine keep_mend K ?_
    | dsimp only
    | split

theorem keep_clRead (K : Plain P) {s : State} {a : Agent} {pol : Pol} {pa : Nat} {acq : Option Scope} (H : P s) : Holds P (clRead a pol pa acq) s := by
  unfold clRead
  repeat' first
    | with_reducible assumption
    | with_reducible refine keep_setClWord K ?_
    | with_reducible refine keep_dropClWord K ?_
    | with_reducible refine keep_loseWord K ?_
    | with_reducible refine keep_request K ?_
    | with_reducible refine (keep_request K ?_).ok (by assumption)
    | with_reducible refine (keep_request K ?_).error (by assumption)
    | with_reducible refine keep_ready K ?_
    | with_reducible refine (keep_ready K ?_).ok (by assumption)
    | with_reducible refine (keep_ready K ?_).error (by assumption)
    | with_reducible refine keep_install K ?_
    | with_reducible refine keep_scrub K ?_
    | with_reducible refine holds_get_bind ?_
    | with_reducible refine holds_set_bind ?_
    | with_reducible refine holds_modify_bind ?_
    | with_reducible refine holds_pure_bind ?_
    | with_reducible refine holds_bind ?_ (fun a t H => ?_)
    | with_reducible refine holds_pure _ ?_
    | with_reducible refine holds_throw _ ?_
    | with_reducible refine holds_get ?_
    | with_reducible refine holds_set ?_
    | with_reducible refine holds_modify ?_
    | dsimp only
    | split

theorem keep_obtain (K : Plain P) {s : State} {a : Agent} {pa : Nat} (H : P s) : Holds P (obtain a pa) s := by
  unfold obtain
  repeat' first
    | with_reducible assumption
    | with_reducible refine keep_setClWord K ?_
    | with_reducible refine keep_loseWord K ?_
    | with_reducible refine keep_requestWith K ?_
    | with_reducible refine (keep_requestWith K ?_).ok (by assumption)
    | with_reducible refine (keep_requestWith K ?_).error (by assumption)
    | with_reducible refine keep_makeRoom K ?_
    | with_reducible refine keep_ready K ?_
    | with_reducible refine (keep_ready K ?_).ok (by assumption)
    | with_reducible refine (keep_ready K ?_).error (by assumption)
    | with_reducible refine keep_scrub K ?_
    | with_reducible refine holds_get_bind ?_
    | with_reducible refine holds_set_bind ?_
    | with_reducible refine holds_modify_bind ?_
    | with_reducible refine holds_pure_bind ?_
    | with_reducible refine holds_bind ?_ (fun a t H => ?_)
    | with_reducible refine holds_pure _ ?_
    | with_reducible refine holds_throw _ ?_
    | with_reducible refine holds_get ?_
    | with_reducible refine holds_set ?_
    | with_reducible refine holds_modify ?_
    | dsimp only
    | split

theorem keep_obtainWhole (K : Plain P) {s : State} {a : Agent} {pa : Nat} (H : P s) : Holds P (obtainWhole a pa) s := by
  have z := keep_obtain K H (a := a) (pa := pa)
  unfold Holds obtainWhole
  cases e : obtain a pa s with
  | ok v t => exact z.ok e
  | error b t =>
    have ht := z.error e
    cases b with
    | frame q => exact ht
    | error q =>
      dsimp only
      split
      · split at *
        · rename_i hj h; cases h; exact keep_setOwner K (keep_track K (keep_invalidateWord K ht))
        · rename_i hj h; cases h
      · split at * <;> rename_i hj h <;> cases h <;> exact ht

theorem keep_clWrite (K : Plain P) {s : State} {a : Agent} {pol : Pol} {pa : Nat} {data : Word} {mask : BitVec 8} {rel : Option Scope} (H : P s) : Holds P (clWrite a pol pa data mask rel) s := by
  unfold clWrite
  repeat' first
    | with_reducible assumption
    | with_reducible refine keep_setClWord K ?_
    | with_reducible refine keep_markRecheck K ?_
    | with_reducible refine keep_requestWith K ?_
    | with_reducible refine keep_drainWord K ?_
    | with_reducible refine keep_makeRoom K ?_
    | with_reducible refine keep_ready K ?_
    | with_reducible refine keep_scrub K ?_
    | with_reducible refine keep_obtain K ?_
    | with_reducible refine keep_obtainWhole K ?_
    | with_reducible refine holds_get_bind ?_
    | with_reducible refine holds_set_bind ?_
    | with_reducible refine holds_modify_bind ?_
    | with_reducible refine holds_pure_bind ?_
    | with_reducible refine holds_bind ?_ (fun a t H => ?_)
    | with_reducible refine holds_pure _ ?_
    | with_reducible refine holds_get ?_
    | with_reducible refine holds_set ?_
    | with_reducible refine holds_modify ?_
    | dsimp only
    | split

theorem keep_clAtomic (K : Plain P) {s : State} {a : Agent} {pol : Pol} {op : AmoOp} {pa n : Nat} {x cmp : Word} {acq rel : Option Scope} (H : P s) : Holds P (clAtomic a pol op pa n x cmp acq rel) s := by
  unfold clAtomic
  repeat' first
    | with_reducible assumption
    | with_reducible refine keep_setClWord K ?_
    | with_reducible refine keep_dropClWord K ?_
    | with_reducible refine keep_markRecheck K ?_
    | with_reducible refine keep_requestWith K ?_
    | with_reducible refine keep_ready K ?_
    | with_reducible refine keep_scrub K ?_
    | with_reducible refine keep_obtain K ?_
    | with_reducible refine holds_get_bind ?_
    | with_reducible refine holds_set_bind ?_
    | with_reducible refine holds_modify_bind ?_
    | with_reducible refine holds_pure_bind ?_
    | with_reducible refine holds_bind ?_ (fun a t H => ?_)
    | with_reducible refine holds_pure _ ?_
    | with_reducible refine holds_get ?_
    | with_reducible refine holds_set ?_
    | with_reducible refine holds_modify ?_
    | dsimp only
    | split

theorem keep_drainAll (K : Plain P) {s : State} {a : Agent} {sc : Scope} (H : P s) : P (State.drainAll s a sc) := by
  unfold State.drainAll
  repeat' first
    | with_reducible assumption
    | with_reducible refine keep_drainWord K ?_
    | with_reducible refine foldl_keeps (p := P) (fun s a H => ?_) _ ?_

theorem keep_discardU (K : Plain P) {s : State} {cl : Nat} (H : P s) : P (State.discardU s cl) := by
  unfold State.discardU
  repeat' first
    | with_reducible assumption
    | with_reducible refine keep_dropClWord K ?_
    | with_reducible refine K.cluster _ _ _ ?_ (by intro x; constructor <;> rfl)
    | with_reducible refine foldl_keeps (p := P) (fun s a H => ?_) _ ?_

theorem keep_acquireAt (K : Plain P) {s : State} {cl : Nat} {sc : Scope} (H : P s) : P (State.acquireAt s cl sc) := by
  unfold State.acquireAt
  repeat' first
    | with_reducible assumption
    | with_reducible refine keep_discardU K ?_
    | dsimp only
    | split

theorem keep_readBytes (K : Plain P) {s : State} {a : Agent} {pol : Pol} {pa n : Nat} {acq : Option Scope} (H : P s) : Holds P (readBytes a pol pa n acq) s := by
  unfold readBytes
  repeat' first
    | with_reducible assumption
    | with_reducible refine keep_clRead K ?_
    | with_reducible refine holds_get_bind ?_
    | with_reducible refine holds_pure_bind ?_
    | with_reducible refine holds_bind ?_ (fun a t H => ?_)
    | with_reducible refine holds_pure _ ?_

theorem keep_writeBytes (K : Plain P) {s : State} {a : Agent} {pol : Pol} {pa n : Nat} {x : Word} {rel : Option Scope} (H : P s) : Holds P (writeBytes a pol pa n x rel) s := by
  unfold writeBytes
  repeat' first
    | with_reducible assumption
    | with_reducible refine keep_clWrite K ?_

theorem keep_readRun (K : Plain P) {s : State} {a : Agent} {pol : Pol} {pa n : Nat} (H : P s) : Holds P (readRun a pol pa n) s := by
  unfold readRun
  repeat' first
    | with_reducible assumption
    | with_reducible refine keep_readBytes K ?_
    | with_reducible refine holds_get_bind ?_
    | with_reducible refine holds_pure_bind ?_
    | with_reducible refine holds_bind ?_ (fun a t H => ?_)
    | with_reducible refine holds_pure _ ?_
    | with_reducible refine holds_get ?_
    | with_reducible refine holds_mapM (fun a t H => ?_) _ ?_

theorem keep_readUnit (K : Plain P) {cl sbit : Nat} {l : List Nat} {s : State} (H : P s) :
    P (readUnit cl sbit l s).1 := by
  induction l generalizing s with
  | nil => exact H
  | cons pa l ih =>
    unfold readUnit
    split
    · next e =>
      split
      · exact (keep_clRead K H).ok e
      · exact ih ((keep_clRead K H).ok e)
    · exact (keep_clRead K H).error (by assumption)

theorem keep_readUnit_eq (K : Plain P) {cl sbit : Nat} {l : List Nat} {s t : State} {y : Option Nat} (H : P s)
    (E : readUnit cl sbit l s = (t, y)) : P t := by
  have z := keep_readUnit K H (s := s) (cl := cl) (sbit := sbit) (l := l)
  rw [E] at z; exact z

theorem keep_writeUnit (K : Plain P) {s : State} {cl sbit pa : Nat} {x : Word} (H : P s) : P (State.writeUnit s cl sbit pa x) := by
  unfold State.writeUnit
  repeat' first
    | with_reducible assumption
    | with_reducible refine keep_clWrite K ?_
    | with_reducible refine (keep_clWrite K ?_).ok (by assumption)
    | with_reducible refine (keep_clWrite K ?_).error (by assumption)
    | dsimp only
    | split

theorem keep_setUnitWord (K : Plain P) {s : State} {cl pa : Nat} {x : Word} (H : P s) : P (State.setUnitWord s cl pa x) := by
  unfold State.setUnitWord
  repeat' first
    | with_reducible assumption
    | with_reducible refine keep_writeUnit K ?_

theorem keep_homeTakes (K : Plain P) {s : State} {kind : ReqKind} {r : Req} (H : P s) : P (State.homeTakes s kind r) := by
  unfold State.homeTakes
  repeat' first
    | with_reducible assumption
    | with_reducible refine keep_serve K ?_
    | with_reducible refine (keep_serve K ?_).ok (by assumption)
    | with_reducible refine (keep_serve K ?_).error (by assumption)
    | with_reducible refine keep_serveLate K ?_
    | with_reducible refine keep_serveLate_eq K ?_ (by assumption)
    | with_reducible refine keep_sendFar K ?_
    | with_reducible refine keep_takeFlight K ?_
    | dsimp only
    | split
    | with_reducible refine K.toQuiet.records _ _ _ _ _ ?_
    | with_reducible refine K.upd _ _ _ _ _ _ _ _ _ _ ?_

theorem keep_countLanded (K : Plain P) {s : State} {a : Agent} {ctr n : Nat} {sc : Scope} (H : P s) : P (State.countLanded s a ctr n sc) := by
  unfold State.countLanded
  repeat' first
    | with_reducible assumption
    | with_reducible refine keep_serveLate K ?_
    | with_reducible refine keep_serveLate_eq K ?_ (by assumption)
    | with_reducible refine keep_replyEnds K ?_
    | with_reducible refine keep_missEvent K.toQuiet ?_
    | with_reducible refine keep_approach K ?_
    | dsimp only
    | split

theorem keep_putSend (K : Plain P) {s : State} {cl : Nat} (H : P s) : P (State.putSend s cl) := by
  unfold State.putSend
  repeat' first
    | with_reducible assumption
    | with_reducible refine keep_send K ?_
    | with_reducible refine K.cluster _ _ _ ?_ (by intro x; constructor <;> rfl)
    | dsimp only
    | split

end Sys2Proof.Machine
end

