-- ==== Sys2Proof/Laws/Aside.lean ====
section
/-! SUPPORT. What the parts of the machine leave alone: records leave everything but themselves; the memory system leaves
user contexts, threads' queues, and engines and packages but for what their messages end. And the invariant is Steady. -/

namespace Sys2Proof.Machine

/-- Only what units record differs. -/
def Noted (s t : State) : Prop :=
  ∃ efcs ctrs energy fresh, t = { s with efcs := efcs, ctrs := ctrs, energy := energy, fresh := fresh }

theorem Noted.refl (s : State) : Noted s s := ⟨s.efcs, s.ctrs, s.energy, s.fresh, rfl⟩

theorem quiet_noted (s : State) : Quiet (Noted s) where
  records := by
    rintro u efcs ctrs energy fresh ⟨a, b, c, d, rfl⟩
    exact ⟨efcs, ctrs, energy, fresh, rfl⟩

/-- What the memory system leaves alone. -/
structure Apart (s t : State) : Prop where
  fuses : t.fuses = s.fuses
  flash : t.flash = s.flash
  exiting : t.exiting = s.exiting
  fences : t.fences = s.fences
  clock : t.clock = s.clock
  cur : t.cur = s.cur
  curEfc : t.curEfc = s.curEfc
  ir0 : t.ir0 = s.ir0
  ir1 : t.ir1 = s.ir1
  agenda : t.agenda = s.agenda
  accs : t.accs = s.accs
  mem : Memory.wf s.mem = true → Memory.wf t.mem = true
  user : ∀ c, isX7 c = false → t.ctx c = s.ctx c
  super : ∀ c, ∃ w, t.ctx c = { s.ctx c with inwfm := w }
  core : ∀ k, ∃ q l b w, t.core k = { s.core k with mq := q, slots := l, tlb := b, walks := w }
  cluster : ∀ n, ClusterKept (s.cluster n) (t.cluster n)
  engine : ∀ n, EngineKept (s.engine n) (t.engine n)
  pkg : ∀ n, PkgKept (s.pkg n) (t.pkg n)

theorem ClusterKept.refl (x : Cluster) : ClusterKept x x := by constructor <;> rfl

theorem ClusterKept.trans {x y z : Cluster} (h : ClusterKept x y) (g : ClusterKept y z) : ClusterKept x z :=
  ⟨g.1.trans h.1, g.2.trans h.2, g.3.trans h.3, g.4.trans h.4, g.5.trans h.5, g.6.trans h.6, g.7.trans h.7, g.8.trans h.8,
    g.9.trans h.9, g.10.trans h.10, g.11.trans h.11, g.12.trans h.12⟩

theorem EngineKept.refl (x : Engine) : EngineKept x x := rfl

theorem EngineKept.trans {x y z : Engine} (h : EngineKept x y) (g : EngineKept y z) : EngineKept x z := by
  unfold EngineKept at *; rw [h] at g; exact g

theorem PkgKept.refl (x : Package) : PkgKept x x := rfl

theorem PkgKept.trans {x y z : Package} (h : PkgKept x y) (g : PkgKept y z) : PkgKept x z := by
  unfold PkgKept at *; rw [h] at g; exact g

theorem Apart.refl (s : State) : Apart s s :=
  ⟨rfl, rfl, rfl, rfl, rfl, rfl, rfl, rfl, rfl, rfl, rfl, id, fun _ _ => rfl, fun c => ⟨(s.ctx c).inwfm, rfl⟩,
    fun k => ⟨(s.core k).mq, (s.core k).slots, (s.core k).tlb, (s.core k).walks, rfl⟩, fun _ => ClusterKept.refl _,
    fun _ => EngineKept.refl _, fun _ => PkgKept.refl _⟩

theorem ctx_setCtx (s : State) (c d : Nat) (x : Context) : (s.setCtx c x).ctx d = if d = c then x else s.ctx d := by
  simp only [State.ctx, State.setCtx, tget_tset]

theorem ctx_modCtx (s : State) (c d : Nat) (f : Context → Context) :
    (s.modCtx c f).ctx d = if d = c then f (s.ctx c) else s.ctx d := ctx_setCtx _ _ _ _

theorem core_modCore (s : State) (k j : Nat) (f : Core → Core) :
    (s.modCore k f).core j = if j = k then f (s.core k) else s.core j := by
  simp only [State.core, State.modCore, tget_tset]

theorem cluster_modCluster (s : State) (n j : Nat) (f : Cluster → Cluster) :
    (s.modCluster n f).cluster j = if j = n then f (s.cluster n) else s.cluster j := by
  simp only [State.cluster, State.modCluster, tget_tset]

theorem engine_modEngine (s : State) (n j : Nat) (f : Engine → Engine) :
    (s.modEngine n f).engine j = if j = n then f (s.engine n) else s.engine j := by
  simp only [State.engine, State.modEngine, tget_tset]

theorem efc_modEfc (s : State) (n j : Nat) (f : Efc → Efc) :
    (s.modEfc n f).efc j = if j = n then f (s.efc n) else s.efc j := by
  simp only [State.efc, State.modEfc, tget_tset]

theorem pkg_modPkg (s : State) (n j : Nat) (f : Package → Package) :
    (s.modPkg n f).pkg j = if j = n then f (s.pkg n) else s.pkg j := by
  simp only [State.pkg, State.modPkg, tget_tset]

theorem isX7_x7Of (k : Nat) : isX7 (x7Of k) = true := by
  simp [isX7, x7Of, Nat.add_mod]

/-- The memory system changes nothing that Apart names. -/
theorem plain_apart (s : State) : Plain (Apart s) where
  records := fun _ _ _ _ _ h => { h with mem := h.mem }
  upd := fun _ _ _ _ _ _ _ _ _ _ h => { h with mem := h.mem }
  mem := fun _ a x h => { h with mem := fun w => wf_memPutWord a x (h.mem w) }
  queue := by
    intro t k f q l b w h e _
    refine { h with core := fun j => ?_ }
    obtain ⟨q', l', b', w', hj⟩ := h.core j
    rw [core_modCore]
    split
    · next hjk =>
      subst hjk
      exact ⟨q, l, b, w, by rw [e, hj]⟩
    · exact ⟨q', l', b', w', hj⟩
  wake := by
    intro t k h
    have hc : ∀ c, (t.wakeX7 k).ctx c = if c = x7Of k then { t.ctx c with inwfm := false } else t.ctx c := by
      intro c
      unfold State.wakeX7
      rw [ctx_modCtx]
      split
      · next e => rw [e]
      · rfl
    refine { h with user := fun c hu => ?_, super := fun c => ?_ }
    · rw [hc]
      split
      · next e => rw [e, isX7_x7Of] at hu; cases hu
      · exact h.user c hu
    · rw [hc]
      obtain ⟨w, hw⟩ := h.super c
      split
      · exact ⟨false, by rw [hw]⟩
      · exact ⟨w, hw⟩
  cluster := by
    intro t n f h hf
    refine { h with cluster := fun j => ?_ }
    rw [cluster_modCluster]
    split
    · next e => subst e; exact (h.cluster j).trans (hf _)
    · exact h.cluster j
  engine := by
    intro t n f h hf
    refine { h with engine := fun j => ?_ }
    rw [engine_modEngine]
    split
    · next e => subst e; exact (h.engine j).trans (hf _)
    · exact h.engine j
  pkgKept := by
    intro t n f h hf
    refine { h with pkg := fun j => ?_ }
    rw [pkg_modPkg]
    split
    · next e => subst e; exact (h.pkg j).trans (hf _)
    · exact h.pkg j

/-- The invariant, with the fuses and the flash that no operation changes, is Steady. -/
theorem steady_inv (fuses : Tbl Fuses) (flash : List Host.Cell) :
    Steady (fun s => s.fuses = fuses ∧ s.flash = flash ∧ Inv s) where
  records := fun _ _ _ _ _ h => ⟨h.1, h.2.1, h.2.2.1, h.2.2.2, h.2.2.3⟩
  upd := fun _ _ _ _ _ _ _ _ _ _ h => ⟨h.1, h.2.1, h.2.2.1, h.2.2.2, h.2.2.3⟩
  mem := fun _ a x h => ⟨h.1, h.2.1, wf_memPutWord a x h.2.2.1, h.2.2.2, h.2.2.3⟩
  queue := by
    rintro t k f q l _ _ ⟨hf, hl, hm, hp, hq⟩ e b
    refine ⟨hf, hl, hm, hp, fun j => ?_⟩
    rw [core_modCore]
    split
    · rw [e]; exact b (hq k)
    · exact hq j
  wake := by
    rintro t k ⟨hf, hl, hm, hp, hq⟩
    refine ⟨hf, hl, hm, fun c => ?_, hq⟩
    unfold State.wakeX7
    rw [ctx_modCtx]
    split
    · exact hp (x7Of k)
    · exact hp c
  cluster := fun _ _ _ h _ => ⟨h.1, h.2.1, h.2.2.1, h.2.2.2, h.2.2.3⟩
  engine := fun _ _ _ h _ => ⟨h.1, h.2.1, h.2.2.1, h.2.2.2, h.2.2.3⟩
  pkgKept := fun _ _ _ h _ => ⟨h.1, h.2.1, h.2.2.1, h.2.2.2, h.2.2.3⟩
  pkg := fun _ _ _ h => ⟨h.1, h.2.1, h.2.2.1, h.2.2.2, h.2.2.3⟩
  own := fun _ _ _ _ _ _ _ _ _ _ _ h => ⟨h.1, h.2.1, h.2.2.1, h.2.2.2, h.2.2.3⟩
  clu := fun _ _ _ h => ⟨h.1, h.2.1, h.2.2.1, h.2.2.2, h.2.2.3⟩
  ctx := by
    rintro t c x ⟨hf, hl, hm, hp, hq⟩ hx
    refine ⟨hf, hl, hm, fun d => ?_, hq⟩
    rw [ctx_setCtx]
    split
    · exact hx
    · exact hp d
  pc := fun _ c h => h.2.2.pcs c
  core := by
    rintro t k f ⟨hf, hl, hm, hp, hq⟩ b
    refine ⟨hf, hl, hm, hp, fun j => ?_⟩
    rw [core_modCore]
    split
    · exact b (hq k)
    · exact hq j

end Sys2Proof.Machine
end

