-- ==== Sys2Proof/Laws/State.lean ====
section
/-! SUPPORT. Each update of the state, field by field, and what reading a part gives after an update of a part. -/

namespace Sys2Proof.Machine

variable (s : State)

section
variable (c : Nat) (x : Context)

@[simp] theorem fuses_setCtx : (s.setCtx c x).fuses = s.fuses := rfl
@[simp] theorem mem_setCtx : (s.setCtx c x).mem = s.mem := rfl
@[simp] theorem flash_setCtx : (s.setCtx c x).flash = s.flash := rfl
@[simp] theorem errs_setCtx : (s.setCtx c x).errs = s.errs := rfl
@[simp] theorem slc_setCtx : (s.setCtx c x).slc = s.slc := rfl
@[simp] theorem dir_setCtx : (s.setCtx c x).dir = s.dir := rfl
@[simp] theorem proxies_setCtx : (s.setCtx c x).proxies = s.proxies := rfl
@[simp] theorem fot_setCtx : (s.setCtx c x).fot = s.fot := rfl
@[simp] theorem cores_setCtx : (s.setCtx c x).cores = s.cores := rfl
@[simp] theorem clusters_setCtx : (s.setCtx c x).clusters = s.clusters := rfl
@[simp] theorem engines_setCtx : (s.setCtx c x).engines = s.engines := rfl
@[simp] theorem efcs_setCtx : (s.setCtx c x).efcs = s.efcs := rfl
@[simp] theorem pkgs_setCtx : (s.setCtx c x).pkgs = s.pkgs := rfl
@[simp] theorem ctrs_setCtx : (s.setCtx c x).ctrs = s.ctrs := rfl
@[simp] theorem energy_setCtx : (s.setCtx c x).energy = s.energy := rfl
@[simp] theorem flights_setCtx : (s.setCtx c x).flights = s.flights := rfl
@[simp] theorem exiting_setCtx : (s.setCtx c x).exiting = s.exiting := rfl
@[simp] theorem fences_setCtx : (s.setCtx c x).fences = s.fences := rfl
@[simp] theorem outbox_setCtx : (s.setCtx c x).outbox = s.outbox := rfl
@[simp] theorem clock_setCtx : (s.setCtx c x).clock = s.clock := rfl
@[simp] theorem cur_setCtx : (s.setCtx c x).cur = s.cur := rfl
@[simp] theorem curEfc_setCtx : (s.setCtx c x).curEfc = s.curEfc := rfl
@[simp] theorem ir0_setCtx : (s.setCtx c x).ir0 = s.ir0 := rfl
@[simp] theorem ir1_setCtx : (s.setCtx c x).ir1 = s.ir1 := rfl
@[simp] theorem agenda_setCtx : (s.setCtx c x).agenda = s.agenda := rfl
@[simp] theorem fresh_setCtx : (s.setCtx c x).fresh = s.fresh := rfl
@[simp] theorem accs_setCtx : (s.setCtx c x).accs = s.accs := rfl
@[simp] theorem seq_setCtx : (s.setCtx c x).seq = s.seq := rfl
@[simp] theorem answer_setCtx : (s.setCtx c x).answer = s.answer := rfl

end

section
variable (c : Nat) (f : Context → Context)

@[simp] theorem fuses_modCtx : (s.modCtx c f).fuses = s.fuses := rfl
@[simp] theorem mem_modCtx : (s.modCtx c f).mem = s.mem := rfl
@[simp] theorem flash_modCtx : (s.modCtx c f).flash = s.flash := rfl
@[simp] theorem errs_modCtx : (s.modCtx c f).errs = s.errs := rfl
@[simp] theorem slc_modCtx : (s.modCtx c f).slc = s.slc := rfl
@[simp] theorem dir_modCtx : (s.modCtx c f).dir = s.dir := rfl
@[simp] theorem proxies_modCtx : (s.modCtx c f).proxies = s.proxies := rfl
@[simp] theorem fot_modCtx : (s.modCtx c f).fot = s.fot := rfl
@[simp] theorem cores_modCtx : (s.modCtx c f).cores = s.cores := rfl
@[simp] theorem clusters_modCtx : (s.modCtx c f).clusters = s.clusters := rfl
@[simp] theorem engines_modCtx : (s.modCtx c f).engines = s.engines := rfl
@[simp] theorem efcs_modCtx : (s.modCtx c f).efcs = s.efcs := rfl
@[simp] theorem pkgs_modCtx : (s.modCtx c f).pkgs = s.pkgs := rfl
@[simp] theorem ctrs_modCtx : (s.modCtx c f).ctrs = s.ctrs := rfl
@[simp] theorem energy_modCtx : (s.modCtx c f).energy = s.energy := rfl
@[simp] theorem flights_modCtx : (s.modCtx c f).flights = s.flights := rfl
@[simp] theorem exiting_modCtx : (s.modCtx c f).exiting = s.exiting := rfl
@[simp] theorem fences_modCtx : (s.modCtx c f).fences = s.fences := rfl
@[simp] theorem outbox_modCtx : (s.modCtx c f).outbox = s.outbox := rfl
@[simp] theorem clock_modCtx : (s.modCtx c f).clock = s.clock := rfl
@[simp] theorem cur_modCtx : (s.modCtx c f).cur = s.cur := rfl
@[simp] theorem curEfc_modCtx : (s.modCtx c f).curEfc = s.curEfc := rfl
@[simp] theorem ir0_modCtx : (s.modCtx c f).ir0 = s.ir0 := rfl
@[simp] theorem ir1_modCtx : (s.modCtx c f).ir1 = s.ir1 := rfl
@[simp] theorem agenda_modCtx : (s.modCtx c f).agenda = s.agenda := rfl
@[simp] theorem fresh_modCtx : (s.modCtx c f).fresh = s.fresh := rfl
@[simp] theorem accs_modCtx : (s.modCtx c f).accs = s.accs := rfl
@[simp] theorem seq_modCtx : (s.modCtx c f).seq = s.seq := rfl
@[simp] theorem answer_modCtx : (s.modCtx c f).answer = s.answer := rfl

end

section
variable (f : Context → Context)

@[simp] theorem fuses_modMe : (s.modMe f).fuses = s.fuses := rfl
@[simp] theorem mem_modMe : (s.modMe f).mem = s.mem := rfl
@[simp] theorem flash_modMe : (s.modMe f).flash = s.flash := rfl
@[simp] theorem errs_modMe : (s.modMe f).errs = s.errs := rfl
@[simp] theorem slc_modMe : (s.modMe f).slc = s.slc := rfl
@[simp] theorem dir_modMe : (s.modMe f).dir = s.dir := rfl
@[simp] theorem proxies_modMe : (s.modMe f).proxies = s.proxies := rfl
@[simp] theorem fot_modMe : (s.modMe f).fot = s.fot := rfl
@[simp] theorem cores_modMe : (s.modMe f).cores = s.cores := rfl
@[simp] theorem clusters_modMe : (s.modMe f).clusters = s.clusters := rfl
@[simp] theorem engines_modMe : (s.modMe f).engines = s.engines := rfl
@[simp] theorem efcs_modMe : (s.modMe f).efcs = s.efcs := rfl
@[simp] theorem pkgs_modMe : (s.modMe f).pkgs = s.pkgs := rfl
@[simp] theorem ctrs_modMe : (s.modMe f).ctrs = s.ctrs := rfl
@[simp] theorem energy_modMe : (s.modMe f).energy = s.energy := rfl
@[simp] theorem flights_modMe : (s.modMe f).flights = s.flights := rfl
@[simp] theorem exiting_modMe : (s.modMe f).exiting = s.exiting := rfl
@[simp] theorem fences_modMe : (s.modMe f).fences = s.fences := rfl
@[simp] theorem outbox_modMe : (s.modMe f).outbox = s.outbox := rfl
@[simp] theorem clock_modMe : (s.modMe f).clock = s.clock := rfl
@[simp] theorem cur_modMe : (s.modMe f).cur = s.cur := rfl
@[simp] theorem curEfc_modMe : (s.modMe f).curEfc = s.curEfc := rfl
@[simp] theorem ir0_modMe : (s.modMe f).ir0 = s.ir0 := rfl
@[simp] theorem ir1_modMe : (s.modMe f).ir1 = s.ir1 := rfl
@[simp] theorem agenda_modMe : (s.modMe f).agenda = s.agenda := rfl
@[simp] theorem fresh_modMe : (s.modMe f).fresh = s.fresh := rfl
@[simp] theorem accs_modMe : (s.modMe f).accs = s.accs := rfl
@[simp] theorem seq_modMe : (s.modMe f).seq = s.seq := rfl
@[simp] theorem answer_modMe : (s.modMe f).answer = s.answer := rfl

end

section
variable (n : Nat) (f : Core → Core)

@[simp] theorem fuses_modCore : (s.modCore n f).fuses = s.fuses := rfl
@[simp] theorem mem_modCore : (s.modCore n f).mem = s.mem := rfl
@[simp] theorem flash_modCore : (s.modCore n f).flash = s.flash := rfl
@[simp] theorem errs_modCore : (s.modCore n f).errs = s.errs := rfl
@[simp] theorem slc_modCore : (s.modCore n f).slc = s.slc := rfl
@[simp] theorem dir_modCore : (s.modCore n f).dir = s.dir := rfl
@[simp] theorem proxies_modCore : (s.modCore n f).proxies = s.proxies := rfl
@[simp] theorem fot_modCore : (s.modCore n f).fot = s.fot := rfl
@[simp] theorem ctxs_modCore : (s.modCore n f).ctxs = s.ctxs := rfl
@[simp] theorem clusters_modCore : (s.modCore n f).clusters = s.clusters := rfl
@[simp] theorem engines_modCore : (s.modCore n f).engines = s.engines := rfl
@[simp] theorem efcs_modCore : (s.modCore n f).efcs = s.efcs := rfl
@[simp] theorem pkgs_modCore : (s.modCore n f).pkgs = s.pkgs := rfl
@[simp] theorem ctrs_modCore : (s.modCore n f).ctrs = s.ctrs := rfl
@[simp] theorem energy_modCore : (s.modCore n f).energy = s.energy := rfl
@[simp] theorem flights_modCore : (s.modCore n f).flights = s.flights := rfl
@[simp] theorem exiting_modCore : (s.modCore n f).exiting = s.exiting := rfl
@[simp] theorem fences_modCore : (s.modCore n f).fences = s.fences := rfl
@[simp] theorem outbox_modCore : (s.modCore n f).outbox = s.outbox := rfl
@[simp] theorem clock_modCore : (s.modCore n f).clock = s.clock := rfl
@[simp] theorem cur_modCore : (s.modCore n f).cur = s.cur := rfl
@[simp] theorem curEfc_modCore : (s.modCore n f).curEfc = s.curEfc := rfl
@[simp] theorem ir0_modCore : (s.modCore n f).ir0 = s.ir0 := rfl
@[simp] theorem ir1_modCore : (s.modCore n f).ir1 = s.ir1 := rfl
@[simp] theorem agenda_modCore : (s.modCore n f).agenda = s.agenda := rfl
@[simp] theorem fresh_modCore : (s.modCore n f).fresh = s.fresh := rfl
@[simp] theorem accs_modCore : (s.modCore n f).accs = s.accs := rfl
@[simp] theorem seq_modCore : (s.modCore n f).seq = s.seq := rfl
@[simp] theorem answer_modCore : (s.modCore n f).answer = s.answer := rfl

end

section
variable (n : Nat) (f : Cluster → Cluster)

@[simp] theorem fuses_modCluster : (s.modCluster n f).fuses = s.fuses := rfl
@[simp] theorem mem_modCluster : (s.modCluster n f).mem = s.mem := rfl
@[simp] theorem flash_modCluster : (s.modCluster n f).flash = s.flash := rfl
@[simp] theorem errs_modCluster : (s.modCluster n f).errs = s.errs := rfl
@[simp] theorem slc_modCluster : (s.modCluster n f).slc = s.slc := rfl
@[simp] theorem dir_modCluster : (s.modCluster n f).dir = s.dir := rfl
@[simp] theorem proxies_modCluster : (s.modCluster n f).proxies = s.proxies := rfl
@[simp] theorem fot_modCluster : (s.modCluster n f).fot = s.fot := rfl
@[simp] theorem ctxs_modCluster : (s.modCluster n f).ctxs = s.ctxs := rfl
@[simp] theorem cores_modCluster : (s.modCluster n f).cores = s.cores := rfl
@[simp] theorem engines_modCluster : (s.modCluster n f).engines = s.engines := rfl
@[simp] theorem efcs_modCluster : (s.modCluster n f).efcs = s.efcs := rfl
@[simp] theorem pkgs_modCluster : (s.modCluster n f).pkgs = s.pkgs := rfl
@[simp] theorem ctrs_modCluster : (s.modCluster n f).ctrs = s.ctrs := rfl
@[simp] theorem energy_modCluster : (s.modCluster n f).energy = s.energy := rfl
@[simp] theorem flights_modCluster : (s.modCluster n f).flights = s.flights := rfl
@[simp] theorem exiting_modCluster : (s.modCluster n f).exiting = s.exiting := rfl
@[simp] theorem fences_modCluster : (s.modCluster n f).fences = s.fences := rfl
@[simp] theorem outbox_modCluster : (s.modCluster n f).outbox = s.outbox := rfl
@[simp] theorem clock_modCluster : (s.modCluster n f).clock = s.clock := rfl
@[simp] theorem cur_modCluster : (s.modCluster n f).cur = s.cur := rfl
@[simp] theorem curEfc_modCluster : (s.modCluster n f).curEfc = s.curEfc := rfl
@[simp] theorem ir0_modCluster : (s.modCluster n f).ir0 = s.ir0 := rfl
@[simp] theorem ir1_modCluster : (s.modCluster n f).ir1 = s.ir1 := rfl
@[simp] theorem agenda_modCluster : (s.modCluster n f).agenda = s.agenda := rfl
@[simp] theorem fresh_modCluster : (s.modCluster n f).fresh = s.fresh := rfl
@[simp] theorem accs_modCluster : (s.modCluster n f).accs = s.accs := rfl
@[simp] theorem seq_modCluster : (s.modCluster n f).seq = s.seq := rfl
@[simp] theorem answer_modCluster : (s.modCluster n f).answer = s.answer := rfl

end

section
variable (n : Nat) (f : Engine → Engine)

@[simp] theorem fuses_modEngine : (s.modEngine n f).fuses = s.fuses := rfl
@[simp] theorem mem_modEngine : (s.modEngine n f).mem = s.mem := rfl
@[simp] theorem flash_modEngine : (s.modEngine n f).flash = s.flash := rfl
@[simp] theorem errs_modEngine : (s.modEngine n f).errs = s.errs := rfl
@[simp] theorem slc_modEngine : (s.modEngine n f).slc = s.slc := rfl
@[simp] theorem dir_modEngine : (s.modEngine n f).dir = s.dir := rfl
@[simp] theorem proxies_modEngine : (s.modEngine n f).proxies = s.proxies := rfl
@[simp] theorem fot_modEngine : (s.modEngine n f).fot = s.fot := rfl
@[simp] theorem ctxs_modEngine : (s.modEngine n f).ctxs = s.ctxs := rfl
@[simp] theorem cores_modEngine : (s.modEngine n f).cores = s.cores := rfl
@[simp] theorem clusters_modEngine : (s.modEngine n f).clusters = s.clusters := rfl
@[simp] theorem efcs_modEngine : (s.modEngine n f).efcs = s.efcs := rfl
@[simp] theorem pkgs_modEngine : (s.modEngine n f).pkgs = s.pkgs := rfl
@[simp] theorem ctrs_modEngine : (s.modEngine n f).ctrs = s.ctrs := rfl
@[simp] theorem energy_modEngine : (s.modEngine n f).energy = s.energy := rfl
@[simp] theorem flights_modEngine : (s.modEngine n f).flights = s.flights := rfl
@[simp] theorem exiting_modEngine : (s.modEngine n f).exiting = s.exiting := rfl
@[simp] theorem fences_modEngine : (s.modEngine n f).fences = s.fences := rfl
@[simp] theorem outbox_modEngine : (s.modEngine n f).outbox = s.outbox := rfl
@[simp] theorem clock_modEngine : (s.modEngine n f).clock = s.clock := rfl
@[simp] theorem cur_modEngine : (s.modEngine n f).cur = s.cur := rfl
@[simp] theorem curEfc_modEngine : (s.modEngine n f).curEfc = s.curEfc := rfl
@[simp] theorem ir0_modEngine : (s.modEngine n f).ir0 = s.ir0 := rfl
@[simp] theorem ir1_modEngine : (s.modEngine n f).ir1 = s.ir1 := rfl
@[simp] theorem agenda_modEngine : (s.modEngine n f).agenda = s.agenda := rfl
@[simp] theorem fresh_modEngine : (s.modEngine n f).fresh = s.fresh := rfl
@[simp] theorem accs_modEngine : (s.modEngine n f).accs = s.accs := rfl
@[simp] theorem seq_modEngine : (s.modEngine n f).seq = s.seq := rfl
@[simp] theorem answer_modEngine : (s.modEngine n f).answer = s.answer := rfl

end

section
variable (n : Nat) (f : Efc → Efc)

@[simp] theorem fuses_modEfc : (s.modEfc n f).fuses = s.fuses := rfl
@[simp] theorem mem_modEfc : (s.modEfc n f).mem = s.mem := rfl
@[simp] theorem flash_modEfc : (s.modEfc n f).flash = s.flash := rfl
@[simp] theorem errs_modEfc : (s.modEfc n f).errs = s.errs := rfl
@[simp] theorem slc_modEfc : (s.modEfc n f).slc = s.slc := rfl
@[simp] theorem dir_modEfc : (s.modEfc n f).dir = s.dir := rfl
@[simp] theorem proxies_modEfc : (s.modEfc n f).proxies = s.proxies := rfl
@[simp] theorem fot_modEfc : (s.modEfc n f).fot = s.fot := rfl
@[simp] theorem ctxs_modEfc : (s.modEfc n f).ctxs = s.ctxs := rfl
@[simp] theorem cores_modEfc : (s.modEfc n f).cores = s.cores := rfl
@[simp] theorem clusters_modEfc : (s.modEfc n f).clusters = s.clusters := rfl
@[simp] theorem engines_modEfc : (s.modEfc n f).engines = s.engines := rfl
@[simp] theorem pkgs_modEfc : (s.modEfc n f).pkgs = s.pkgs := rfl
@[simp] theorem ctrs_modEfc : (s.modEfc n f).ctrs = s.ctrs := rfl
@[simp] theorem energy_modEfc : (s.modEfc n f).energy = s.energy := rfl
@[simp] theorem flights_modEfc : (s.modEfc n f).flights = s.flights := rfl
@[simp] theorem exiting_modEfc : (s.modEfc n f).exiting = s.exiting := rfl
@[simp] theorem fences_modEfc : (s.modEfc n f).fences = s.fences := rfl
@[simp] theorem outbox_modEfc : (s.modEfc n f).outbox = s.outbox := rfl
@[simp] theorem clock_modEfc : (s.modEfc n f).clock = s.clock := rfl
@[simp] theorem cur_modEfc : (s.modEfc n f).cur = s.cur := rfl
@[simp] theorem curEfc_modEfc : (s.modEfc n f).curEfc = s.curEfc := rfl
@[simp] theorem ir0_modEfc : (s.modEfc n f).ir0 = s.ir0 := rfl
@[simp] theorem ir1_modEfc : (s.modEfc n f).ir1 = s.ir1 := rfl
@[simp] theorem agenda_modEfc : (s.modEfc n f).agenda = s.agenda := rfl
@[simp] theorem fresh_modEfc : (s.modEfc n f).fresh = s.fresh := rfl
@[simp] theorem accs_modEfc : (s.modEfc n f).accs = s.accs := rfl
@[simp] theorem seq_modEfc : (s.modEfc n f).seq = s.seq := rfl
@[simp] theorem answer_modEfc : (s.modEfc n f).answer = s.answer := rfl

end

section
variable (n : Nat) (f : Package → Package)

@[simp] theorem fuses_modPkg : (s.modPkg n f).fuses = s.fuses := rfl
@[simp] theorem mem_modPkg : (s.modPkg n f).mem = s.mem := rfl
@[simp] theorem flash_modPkg : (s.modPkg n f).flash = s.flash := rfl
@[simp] theorem errs_modPkg : (s.modPkg n f).errs = s.errs := rfl
@[simp] theorem slc_modPkg : (s.modPkg n f).slc = s.slc := rfl
@[simp] theorem dir_modPkg : (s.modPkg n f).dir = s.dir := rfl
@[simp] theorem proxies_modPkg : (s.modPkg n f).proxies = s.proxies := rfl
@[simp] theorem fot_modPkg : (s.modPkg n f).fot = s.fot := rfl
@[simp] theorem ctxs_modPkg : (s.modPkg n f).ctxs = s.ctxs := rfl
@[simp] theorem cores_modPkg : (s.modPkg n f).cores = s.cores := rfl
@[simp] theorem clusters_modPkg : (s.modPkg n f).clusters = s.clusters := rfl
@[simp] theorem engines_modPkg : (s.modPkg n f).engines = s.engines := rfl
@[simp] theorem efcs_modPkg : (s.modPkg n f).efcs = s.efcs := rfl
@[simp] theorem ctrs_modPkg : (s.modPkg n f).ctrs = s.ctrs := rfl
@[simp] theorem energy_modPkg : (s.modPkg n f).energy = s.energy := rfl
@[simp] theorem flights_modPkg : (s.modPkg n f).flights = s.flights := rfl
@[simp] theorem exiting_modPkg : (s.modPkg n f).exiting = s.exiting := rfl
@[simp] theorem fences_modPkg : (s.modPkg n f).fences = s.fences := rfl
@[simp] theorem outbox_modPkg : (s.modPkg n f).outbox = s.outbox := rfl
@[simp] theorem clock_modPkg : (s.modPkg n f).clock = s.clock := rfl
@[simp] theorem cur_modPkg : (s.modPkg n f).cur = s.cur := rfl
@[simp] theorem curEfc_modPkg : (s.modPkg n f).curEfc = s.curEfc := rfl
@[simp] theorem ir0_modPkg : (s.modPkg n f).ir0 = s.ir0 := rfl
@[simp] theorem ir1_modPkg : (s.modPkg n f).ir1 = s.ir1 := rfl
@[simp] theorem agenda_modPkg : (s.modPkg n f).agenda = s.agenda := rfl
@[simp] theorem fresh_modPkg : (s.modPkg n f).fresh = s.fresh := rfl
@[simp] theorem accs_modPkg : (s.modPkg n f).accs = s.accs := rfl
@[simp] theorem seq_modPkg : (s.modPkg n f).seq = s.seq := rfl
@[simp] theorem answer_modPkg : (s.modPkg n f).answer = s.answer := rfl

end

section
variable (k g u i : Nat) (x : Word)

@[simp] theorem fuses_setCtr : (s.setCtr k g u i x).fuses = s.fuses := rfl
@[simp] theorem mem_setCtr : (s.setCtr k g u i x).mem = s.mem := rfl
@[simp] theorem flash_setCtr : (s.setCtr k g u i x).flash = s.flash := rfl
@[simp] theorem errs_setCtr : (s.setCtr k g u i x).errs = s.errs := rfl
@[simp] theorem slc_setCtr : (s.setCtr k g u i x).slc = s.slc := rfl
@[simp] theorem dir_setCtr : (s.setCtr k g u i x).dir = s.dir := rfl
@[simp] theorem proxies_setCtr : (s.setCtr k g u i x).proxies = s.proxies := rfl
@[simp] theorem fot_setCtr : (s.setCtr k g u i x).fot = s.fot := rfl
@[simp] theorem ctxs_setCtr : (s.setCtr k g u i x).ctxs = s.ctxs := rfl
@[simp] theorem cores_setCtr : (s.setCtr k g u i x).cores = s.cores := rfl
@[simp] theorem clusters_setCtr : (s.setCtr k g u i x).clusters = s.clusters := rfl
@[simp] theorem engines_setCtr : (s.setCtr k g u i x).engines = s.engines := rfl
@[simp] theorem efcs_setCtr : (s.setCtr k g u i x).efcs = s.efcs := rfl
@[simp] theorem pkgs_setCtr : (s.setCtr k g u i x).pkgs = s.pkgs := rfl
@[simp] theorem energy_setCtr : (s.setCtr k g u i x).energy = s.energy := rfl
@[simp] theorem flights_setCtr : (s.setCtr k g u i x).flights = s.flights := rfl
@[simp] theorem exiting_setCtr : (s.setCtr k g u i x).exiting = s.exiting := rfl
@[simp] theorem fences_setCtr : (s.setCtr k g u i x).fences = s.fences := rfl
@[simp] theorem outbox_setCtr : (s.setCtr k g u i x).outbox = s.outbox := rfl
@[simp] theorem clock_setCtr : (s.setCtr k g u i x).clock = s.clock := rfl
@[simp] theorem cur_setCtr : (s.setCtr k g u i x).cur = s.cur := rfl
@[simp] theorem curEfc_setCtr : (s.setCtr k g u i x).curEfc = s.curEfc := rfl
@[simp] theorem ir0_setCtr : (s.setCtr k g u i x).ir0 = s.ir0 := rfl
@[simp] theorem ir1_setCtr : (s.setCtr k g u i x).ir1 = s.ir1 := rfl
@[simp] theorem agenda_setCtr : (s.setCtr k g u i x).agenda = s.agenda := rfl
@[simp] theorem fresh_setCtr : (s.setCtr k g u i x).fresh = s.fresh := rfl
@[simp] theorem accs_setCtr : (s.setCtr k g u i x).accs = s.accs := rfl
@[simp] theorem seq_setCtr : (s.setCtr k g u i x).seq = s.seq := rfl
@[simp] theorem answer_setCtr : (s.setCtr k g u i x).answer = s.answer := rfl

end

section
variable (x : Word)

@[simp] theorem fuses_retireTo : (s.retireTo x).fuses = s.fuses := rfl
@[simp] theorem mem_retireTo : (s.retireTo x).mem = s.mem := rfl
@[simp] theorem flash_retireTo : (s.retireTo x).flash = s.flash := rfl
@[simp] theorem errs_retireTo : (s.retireTo x).errs = s.errs := rfl
@[simp] theorem slc_retireTo : (s.retireTo x).slc = s.slc := rfl
@[simp] theorem dir_retireTo : (s.retireTo x).dir = s.dir := rfl
@[simp] theorem proxies_retireTo : (s.retireTo x).proxies = s.proxies := rfl
@[simp] theorem fot_retireTo : (s.retireTo x).fot = s.fot := rfl
@[simp] theorem cores_retireTo : (s.retireTo x).cores = s.cores := rfl
@[simp] theorem clusters_retireTo : (s.retireTo x).clusters = s.clusters := rfl
@[simp] theorem engines_retireTo : (s.retireTo x).engines = s.engines := rfl
@[simp] theorem efcs_retireTo : (s.retireTo x).efcs = s.efcs := rfl
@[simp] theorem pkgs_retireTo : (s.retireTo x).pkgs = s.pkgs := rfl
@[simp] theorem energy_retireTo : (s.retireTo x).energy = s.energy := rfl
@[simp] theorem flights_retireTo : (s.retireTo x).flights = s.flights := rfl
@[simp] theorem exiting_retireTo : (s.retireTo x).exiting = s.exiting := rfl
@[simp] theorem fences_retireTo : (s.retireTo x).fences = s.fences := rfl
@[simp] theorem outbox_retireTo : (s.retireTo x).outbox = s.outbox := rfl
@[simp] theorem clock_retireTo : (s.retireTo x).clock = s.clock := rfl
@[simp] theorem cur_retireTo : (s.retireTo x).cur = s.cur := rfl
@[simp] theorem curEfc_retireTo : (s.retireTo x).curEfc = s.curEfc := rfl
@[simp] theorem ir0_retireTo : (s.retireTo x).ir0 = s.ir0 := rfl
@[simp] theorem ir1_retireTo : (s.retireTo x).ir1 = s.ir1 := rfl
@[simp] theorem agenda_retireTo : (s.retireTo x).agenda = s.agenda := rfl
@[simp] theorem fresh_retireTo : (s.retireTo x).fresh = s.fresh := rfl
@[simp] theorem accs_retireTo : (s.retireTo x).accs = s.accs := rfl
@[simp] theorem seq_retireTo : (s.retireTo x).seq = s.seq := rfl
@[simp] theorem answer_retireTo : (s.retireTo x).answer = s.answer := rfl

end

@[simp] theorem ctx_modCore (n : Nat) (f : Core → Core) (j : Nat) : (s.modCore n f).ctx j = s.ctx j := rfl
@[simp] theorem ctx_modCluster (n : Nat) (f : Cluster → Cluster) (j : Nat) : (s.modCluster n f).ctx j = s.ctx j := rfl
@[simp] theorem ctx_modEngine (n : Nat) (f : Engine → Engine) (j : Nat) : (s.modEngine n f).ctx j = s.ctx j := rfl
@[simp] theorem ctx_modEfc (n : Nat) (f : Efc → Efc) (j : Nat) : (s.modEfc n f).ctx j = s.ctx j := rfl
@[simp] theorem ctx_modPkg (n : Nat) (f : Package → Package) (j : Nat) : (s.modPkg n f).ctx j = s.ctx j := rfl
@[simp] theorem ctx_setCtr (k g u i : Nat) (x : Word) (j : Nat) : (s.setCtr k g u i x).ctx j = s.ctx j := rfl
@[simp] theorem core_setCtx (c : Nat) (x : Context) (j : Nat) : (s.setCtx c x).core j = s.core j := rfl
@[simp] theorem core_modCtx (c : Nat) (f : Context → Context) (j : Nat) : (s.modCtx c f).core j = s.core j := rfl
@[simp] theorem core_modMe (f : Context → Context) (j : Nat) : (s.modMe f).core j = s.core j := rfl
@[simp] theorem core_modCluster (n : Nat) (f : Cluster → Cluster) (j : Nat) : (s.modCluster n f).core j = s.core j := rfl
@[simp] theorem core_modEngine (n : Nat) (f : Engine → Engine) (j : Nat) : (s.modEngine n f).core j = s.core j := rfl
@[simp] theorem core_modEfc (n : Nat) (f : Efc → Efc) (j : Nat) : (s.modEfc n f).core j = s.core j := rfl
@[simp] theorem core_modPkg (n : Nat) (f : Package → Package) (j : Nat) : (s.modPkg n f).core j = s.core j := rfl
@[simp] theorem core_setCtr (k g u i : Nat) (x : Word) (j : Nat) : (s.setCtr k g u i x).core j = s.core j := rfl
@[simp] theorem core_retireTo (x : Word) (j : Nat) : (s.retireTo x).core j = s.core j := rfl
@[simp] theorem cluster_setCtx (c : Nat) (x : Context) (j : Nat) : (s.setCtx c x).cluster j = s.cluster j := rfl
@[simp] theorem cluster_modCtx (c : Nat) (f : Context → Context) (j : Nat) : (s.modCtx c f).cluster j = s.cluster j := rfl
@[simp] theorem cluster_modMe (f : Context → Context) (j : Nat) : (s.modMe f).cluster j = s.cluster j := rfl
@[simp] theorem cluster_modCore (n : Nat) (f : Core → Core) (j : Nat) : (s.modCore n f).cluster j = s.cluster j := rfl
@[simp] theorem cluster_modEngine (n : Nat) (f : Engine → Engine) (j : Nat) : (s.modEngine n f).cluster j = s.cluster j := rfl
@[simp] theorem cluster_modEfc (n : Nat) (f : Efc → Efc) (j : Nat) : (s.modEfc n f).cluster j = s.cluster j := rfl
@[simp] theorem cluster_modPkg (n : Nat) (f : Package → Package) (j : Nat) : (s.modPkg n f).cluster j = s.cluster j := rfl
@[simp] theorem cluster_setCtr (k g u i : Nat) (x : Word) (j : Nat) : (s.setCtr k g u i x).cluster j = s.cluster j := rfl
@[simp] theorem cluster_retireTo (x : Word) (j : Nat) : (s.retireTo x).cluster j = s.cluster j := rfl
@[simp] theorem engine_setCtx (c : Nat) (x : Context) (j : Nat) : (s.setCtx c x).engine j = s.engine j := rfl
@[simp] theorem engine_modCtx (c : Nat) (f : Context → Context) (j : Nat) : (s.modCtx c f).engine j = s.engine j := rfl
@[simp] theorem engine_modMe (f : Context → Context) (j : Nat) : (s.modMe f).engine j = s.engine j := rfl
@[simp] theorem engine_modCore (n : Nat) (f : Core → Core) (j : Nat) : (s.modCore n f).engine j = s.engine j := rfl
@[simp] theorem engine_modCluster (n : Nat) (f : Cluster → Cluster) (j : Nat) : (s.modCluster n f).engine j = s.engine j := rfl
@[simp] theorem engine_modEfc (n : Nat) (f : Efc → Efc) (j : Nat) : (s.modEfc n f).engine j = s.engine j := rfl
@[simp] theorem engine_modPkg (n : Nat) (f : Package → Package) (j : Nat) : (s.modPkg n f).engine j = s.engine j := rfl
@[simp] theorem engine_setCtr (k g u i : Nat) (x : Word) (j : Nat) : (s.setCtr k g u i x).engine j = s.engine j := rfl
@[simp] theorem engine_retireTo (x : Word) (j : Nat) : (s.retireTo x).engine j = s.engine j := rfl
@[simp] theorem efc_setCtx (c : Nat) (x : Context) (j : Nat) : (s.setCtx c x).efc j = s.efc j := rfl
@[simp] theorem efc_modCtx (c : Nat) (f : Context → Context) (j : Nat) : (s.modCtx c f).efc j = s.efc j := rfl
@[simp] theorem efc_modMe (f : Context → Context) (j : Nat) : (s.modMe f).efc j = s.efc j := rfl
@[simp] theorem efc_modCore (n : Nat) (f : Core → Core) (j : Nat) : (s.modCore n f).efc j = s.efc j := rfl
@[simp] theorem efc_modCluster (n : Nat) (f : Cluster → Cluster) (j : Nat) : (s.modCluster n f).efc j = s.efc j := rfl
@[simp] theorem efc_modEngine (n : Nat) (f : Engine → Engine) (j : Nat) : (s.modEngine n f).efc j = s.efc j := rfl
@[simp] theorem efc_modPkg (n : Nat) (f : Package → Package) (j : Nat) : (s.modPkg n f).efc j = s.efc j := rfl
@[simp] theorem efc_setCtr (k g u i : Nat) (x : Word) (j : Nat) : (s.setCtr k g u i x).efc j = s.efc j := rfl
@[simp] theorem efc_retireTo (x : Word) (j : Nat) : (s.retireTo x).efc j = s.efc j := rfl
@[simp] theorem pkg_setCtx (c : Nat) (x : Context) (j : Nat) : (s.setCtx c x).pkg j = s.pkg j := rfl
@[simp] theorem pkg_modCtx (c : Nat) (f : Context → Context) (j : Nat) : (s.modCtx c f).pkg j = s.pkg j := rfl
@[simp] theorem pkg_modMe (f : Context → Context) (j : Nat) : (s.modMe f).pkg j = s.pkg j := rfl
@[simp] theorem pkg_modCore (n : Nat) (f : Core → Core) (j : Nat) : (s.modCore n f).pkg j = s.pkg j := rfl
@[simp] theorem pkg_modCluster (n : Nat) (f : Cluster → Cluster) (j : Nat) : (s.modCluster n f).pkg j = s.pkg j := rfl
@[simp] theorem pkg_modEngine (n : Nat) (f : Engine → Engine) (j : Nat) : (s.modEngine n f).pkg j = s.pkg j := rfl
@[simp] theorem pkg_modEfc (n : Nat) (f : Efc → Efc) (j : Nat) : (s.modEfc n f).pkg j = s.pkg j := rfl
@[simp] theorem pkg_setCtr (k g u i : Nat) (x : Word) (j : Nat) : (s.setCtr k g u i x).pkg j = s.pkg j := rfl
@[simp] theorem pkg_retireTo (x : Word) (j : Nat) : (s.retireTo x).pkg j = s.pkg j := rfl
@[simp] theorem core_modCore_same (n : Nat) (f : Core → Core) : (s.modCore n f).core n = f (s.core n) := by simp [core_modCore]
@[simp] theorem cluster_modCluster_same (n : Nat) (f : Cluster → Cluster) : (s.modCluster n f).cluster n = f (s.cluster n) := by simp [cluster_modCluster]
@[simp] theorem engine_modEngine_same (n : Nat) (f : Engine → Engine) : (s.modEngine n f).engine n = f (s.engine n) := by simp [engine_modEngine]
@[simp] theorem efc_modEfc_same (n : Nat) (f : Efc → Efc) : (s.modEfc n f).efc n = f (s.efc n) := by simp [efc_modEfc]
@[simp] theorem pkg_modPkg_same (n : Nat) (f : Package → Package) : (s.modPkg n f).pkg n = f (s.pkg n) := by simp [pkg_modPkg]
@[simp] theorem ctx_modCtx_same (c : Nat) (f : Context → Context) : (s.modCtx c f).ctx c = f (s.ctx c) := by simp [ctx_modCtx]
@[simp] theorem ctx_setCtx_same (c : Nat) (x : Context) : (s.setCtx c x).ctx c = x := by simp [ctx_setCtx]
@[simp] theorem me_modMe (f : Context → Context) : (s.modMe f).me = f s.me := by simp [State.me, State.modMe]
@[simp] theorem setCtx_setCtx (c : Nat) (x y : Context) : (s.setCtx c x).setCtx c y = s.setCtx c y := by simp [State.setCtx]
@[simp] theorem pc_modMe (f : Context → Context) : (s.modMe f).pc = (f s.me).pc := by simp [State.pc]

end Sys2Proof.Machine
end

