-- ==== Sys2Proof/Laws/Ops.lean ====
section
/-! SUPPORT. What the shared operations answer: retirement without a breakpoint, and the ways an instruction with accesses
ends. -/

namespace Sys2Proof.Machine

variable {s : State}

theorem watchHit_nil (s : State) (c : Nat) : s.watchHit c [] = none := by
  simp [State.watchHit]

theorem matchOf_nil (h : Clear s) : s.matchOf [] = none := by
  have h' : s.breakHit s.cur = false := h
  simp [State.matchOf, h', watchHit_nil]

theorem matched_nil (h : Clear s) : s.matched [] = none := by
  simp [State.matched, matchOf_nil h]

theorem commitTo_clear (h : Clear s) (t : State) (pc : Word) : commitTo s t pc = .next (t.retireTo pc) := by
  simp [commitTo, matched_nil h]

theorem commit_clear (h : Clear s) (t : State) (n : Nat) : commit s t n = .next (t.retireTo (s.pc + BitVec.ofNat 64 n)) :=
  commitTo_clear h t _

theorem setReg_clear (h : Clear s) (d : Reg) (v : Word) : setReg d v s = .next (s.wrote d v) := commit_clear h _ 4

/-- An instruction with accesses that ends well retires. -/
theorem runAct_ok {m : Act Unit} {t : State} {n : Nat} (h : m { s with accs := [] } = .ok () t) (hm : t.matchOf t.accs = none) :
    runAct s n m = .next ({ t with accs := [] }.retire n) := by
  simp only [runAct, h, hm]

/-- What an instruction does as it retires is done where nothing matches. -/
theorem guarded_ok {α : Type} {m : Act α} {a : α} {t : State} (h : m s = .ok a t) (hm : t.matchOf t.accs = none) :
    guarded m s = .ok a t := by
  simp only [guarded, h, hm]

theorem guarded_error {α : Type} {m : Act α} {e : Stop} {t : State} (h : m s = .error e t) : guarded m s = .error e t := by
  simp only [guarded, h]

theorem runAct_trap {m : Act Unit} {t : State} {e : Trap} {n : Nat} (h : m { s with accs := [] } = .error (.trap e) t) :
    runAct s n m = .next ((t.restoreMe s).takeTrap s.cur e s.ir0 s.ir1) := by
  simp only [runAct, h]

theorem runAct_hold {m : Act Unit} {t : State} {w : Stall} {n : Nat} (h : m { s with accs := [] } = .error (.hold w) t) :
    runAct s n m = .next ((t.restoreMe s).modCtx s.cur (fun x => x.waits w s.ir0 s.ir1)) := by
  simp only [runAct, h]

theorem runAct_park {m : Act Unit} {t : State} {r : Reason} {n : Nat} (h : m { s with accs := [] } = .error (.park r) t) :
    runAct s n m = .next (((t.restoreMe s).park s.cur r 0).modCtx s.cur (fun x => { x with iw0 := s.ir0, iw1 := s.ir1 })) := by
  simp only [runAct, h]

/-- What matches depends on the PC of the context in turn and on its core's breakpoints and watchpoints alone. -/
theorem matchOf_congr {t : State} (h : t.cur = s.cur) (hp : (t.ctx s.cur).pc = (s.ctx s.cur).pc)
    (hb : (t.core (coreOf s.cur)).bp = (s.core (coreOf s.cur)).bp) (ha : (t.core (coreOf s.cur)).wpa = (s.core (coreOf s.cur)).wpa)
    (hw : (t.core (coreOf s.cur)).wpb = (s.core (coreOf s.cur)).wpb) (accs : List Acc) : t.matchOf accs = s.matchOf accs := by
  have e1 : t.breakHit t.cur = s.breakHit s.cur := by unfold State.breakHit; rw [h, hb, hp]
  have e2 : t.watchHit t.cur accs = s.watchHit s.cur accs := by unfold State.watchHit; dsimp only; rw [h, ha, hw]
  unfold State.matchOf
  rw [e1, e2]

/-- Without a breakpoint and with no watchpoint set, nothing matches. -/
theorem matchOf_none (h : Clear s) (w : Unwatched s) (accs : List Acc) : s.matchOf accs = none := by
  have h' : s.breakHit s.cur = false := h
  simp [State.matchOf, h', w accs]

theorem matched_none (h : Clear s) (w : Unwatched s) (accs : List Acc) : s.matched accs = none := by
  simp [State.matched, matchOf_none h w]

theorem retireThen_clear (h : Clear s) (f : State → State) : retireThen s f = .next (f (s.retire 4)) := by
  simp [retireThen, matched_nil h]

end Sys2Proof.Machine
end

