-- ==== Sys2Proof/Laws/Access.lean ====
section
/-! SUPPORT. What an access answers where its address maps without a walk and its word stands owned: translation, the waits
for own stores, reads and writes by the owning cluster. -/

namespace Sys2Proof.Machine

variable {s : State}

/-- A mapped address translates to what it maps to, and nothing changes. -/
theorem xlate_maps {va : Word} {kind : AccessKind} {pol : Option Pol} {pa : Nat} (h : Maps s va kind pol pa) :
    xlate va kind pol s = .ok pa s := by
  obtain ⟨hb, h⟩ := h
  have hb' : s.backed (s.space.agent.cl / 64) pa = true := hb
  show translate s.space va kind pol 0 s = .ok pa s
  unfold translate
  cases hp : s.space.phys
  · rw [hp] at h
    obtain ⟨hc, t, ht, rfl⟩ := h
    simp only [hc, Bool.not_true, Bool.false_eq_true, if_false]
    show (EStateM.bind _ _ : Act Nat) s = _
    simp only [EStateM.bind, bind, get, getThe, MonadStateOf.get, EStateM.get, ht, pure, EStateM.pure, hb', if_true]
  · rw [hp] at h
    obtain ⟨rfl, hlt⟩ := h
    simp only [if_true]
    have : va.toNat / 2 ^ 52 = 0 := Nat.div_eq_of_lt hlt
    simp only [this, ne_eq, not_true_eq_false, if_false]
    show (EStateM.bind _ _ : Act Nat) s = _
    simp only [EStateM.bind, bind, get, getThe, MonadStateOf.get, EStateM.get, pure, EStateM.pure, hb', if_true]

theorem scrub_owned {pa : Nat} {v : Word} (h : Owned s pa v) : s.scrub s.myCluster pa = s := by
  obtain ⟨h1, h2, h3, h4⟩ := h
  simp [State.scrub, State.mend, h2, h3]

/-- A read of an owned word answers it, whatever the policy, and nothing changes (R102, R104). -/
theorem clRead_owned {pa : Nat} {v : Word} (h : Owned s pa v) (a : Agent) (ha : a.cl = s.myCluster) (pol : Pol) (acq : Option Scope) :
    clRead a pol pa acq s = .ok v s := by
  obtain ⟨h1, h2, -, h3⟩ := id h
  unfold clRead
  show (EStateM.bind _ _ : Mem Word) s = _
  simp only [EStateM.bind, bind, modify, modifyGet, MonadStateOf.modifyGet, EStateM.modifyGet, get, getThe, MonadStateOf.get,
    EStateM.get, ha, scrub_owned h, h1, h2, h3, Bool.false_eq_true, if_false, pure, EStateM.pure]

theorem readBytes_owned {pa : Nat} {v : Word} (h : Owned s pa v) (a : Agent) (ha : a.cl = s.myCluster) (pol : Pol) (n : Nat) (acq : Option Scope) :
    readBytes a pol pa n acq s = .ok (BitVec.ofNat 64 (subWord v (pa % 8) n)) s := by
  unfold readBytes
  show (EStateM.bind _ _ : Mem Word) s = _
  simp only [EStateM.bind, clRead_owned h a ha pol acq, pure, EStateM.pure]

theorem obtain_owned {pa : Nat} {v : Word} (h : Owned s pa v) (a : Agent) (ha : a.cl = s.myCluster) : Machine.obtain a pa s = .ok v s := by
  obtain ⟨h1, h2, -, h3⟩ := id h
  unfold Machine.obtain
  show (EStateM.bind _ _ : Mem Word) s = _
  simp only [EStateM.bind, bind, modify, modifyGet, MonadStateOf.modifyGet, EStateM.modifyGet, get, getThe, MonadStateOf.get,
    EStateM.get, ha, scrub_owned h, h1, h2, h3, Bool.false_eq_true, if_false, if_true, pure, EStateM.pure]

theorem foldl_id {α β : Type} (f : α → β → α) (x : α) : ∀ (l : List β), (∀ b ∈ l, f x b = x) → l.foldl f x = x := by
  intro l
  induction l with
  | nil => intro _; rfl
  | cons b l ih =>
    intro h
    rw [List.foldl_cons, h b (by simp)]
    exact ih (fun c hc => h c (by simp [hc]))

theorem storePending_settled (h : Settled s) (pa n : Nat) : s.storePending s.cur pa n = false := by
  have h1 : (s.core (coreOf s.cur)).sbuf.any (fun p => p.ctx == s.cur) = false := h.1
  simp only [List.any_eq_false, beq_iff_eq] at h1
  simp only [State.storePending, List.any_eq_false]
  intro p hp
  simp [h1 p hp]

theorem flushStores_settled (h : Settled s) : s.flushStores s.cur = s := by
  have h1 : (s.core (coreOf s.cur)).sbuf.any (fun p => p.ctx == s.cur) = false := h.1
  simp [State.flushStores, h1]

theorem drainThread_settled (h : Settled s) (tcb : Nat) : s.drainThread (clusterOf s.cur) tcb = s := by
  unfold State.drainThread
  refine foldl_id _ _ _ fun e he => ?_
  have : (s.engine e).storeq = [] := h.2 e he
  simp [this]

/-- Nothing is waited for where no store of the thread is pending (R133, R155). -/
theorem waitOwn_settled (h : Settled s) (pa n : Nat) : s.waitOwn s.cur pa n = s := by
  unfold State.waitOwn
  simp only [storePending_settled h, Bool.false_eq_true, if_false, drainThread_settled h, ite_self]

/-- A release at .ctx, .core or .clu waits for nothing then (R141). -/
theorem releaseWait_settled (h : Settled s) (sc : Scope) (hs : sc ≠ .pkg ∧ sc ≠ .sys) : s.releaseWait s.cur sc = s := by
  unfold State.releaseWait
  rw [flushStores_settled h, drainThread_settled h]
  cases sc <;> first | rfl | simp at hs

theorem aligned_ok {va : Word} {n : Nat} (h : va.toNat % n = 0) (kind : AccessKind) (pol : Option Pol) :
    aligned va n kind pol s = .ok () s := by
  simp [aligned, trapIf, h, pure, EStateM.pure]

theorem notDevice_ok {va : Word} {pa : Nat} (h : isDevice pa = false) (kind : AccessKind) (pol : Option Pol) :
    notDevice va pa kind pol s = .ok () s := by
  simp [notDevice, trapIf, h, pure, EStateM.pure]

theorem devCheck_ok {va : Word} {pa n : Nat} (h : isDevice pa = false) (kind : AccessKind) (pol : Pol) :
    devCheck va pa n kind pol s = .ok () s := by
  unfold devCheck
  show (EStateM.bind _ _ : Act Unit) s = _
  simp [EStateM.bind, get, getThe, MonadStateOf.get, EStateM.get, h, pure, EStateM.pure]

theorem lift_ok {α : Type} {m : Mem α} {a : α} {t : State} (h : m s = .ok a t) (va : Word) (d : BitVec 20) (w : Word) :
    lift va d w m s = .ok a t := by
  simp [lift, liftAt, h]

/-- A computation in sequence: the first part ends well. -/
theorem bind_ok {ε α β : Type} {m : EStateM ε State α} {a : α} {s t : State} {k : α → EStateM ε State β} (h : m s = .ok a t) :
    (m >>= k) s = k a t := by
  show EStateM.bind m k s = _
  simp [EStateM.bind, h]

theorem bind_error {ε α β : Type} {m : EStateM ε State α} {e : ε} {s t : State} {k : α → EStateM ε State β} (h : m s = .error e t) :
    (m >>= k) s = .error e t := by
  show EStateM.bind m k s = _
  simp [EStateM.bind, h]

/-- A load's value is the bytes its address names (R195). -/
theorem extend_loaded (v : Word) (pa : Nat) {n : Nat} (hn : n ≤ 8) (x : Bool) :
    extend (BitVec.ofNat 64 (subWord v (pa % 8) n)) n x = loaded v pa n x := by
  have h256 : ∀ k, 256 ^ k = 2 ^ (8 * k) := fun k => by rw [Nat.pow_mul]
  have hlt : subWord v (pa % 8) n < 2 ^ (8 * n) := by unfold subWord; rw [h256 n]; exact Nat.mod_lt _ (by positivity)
  have h64 : (2 : Nat) ^ (8 * n) ≤ 2 ^ 64 := Nat.pow_le_pow_right (by decide) (by omega)
  have e1 : (BitVec.ofNat 64 (subWord v (pa % 8) n)).toNat % 2 ^ (8 * n) = subWord v (pa % 8) n := by
    rw [BitVec.toNat_ofNat, Nat.mod_eq_of_lt (lt_of_lt_of_le hlt h64), Nat.mod_eq_of_lt hlt]
  have e2 : (v.extractLsb' (8 * (pa % 8)) (8 * n)).toNat = subWord v (pa % 8) n := by
    rw [BitVec.extractLsb'_toNat, Nat.shiftRight_eq_div_pow]; unfold subWord; rw [h256, h256]
  unfold extend loaded
  simp only [e1]
  cases x
  · simp only [Bool.false_eq_true, false_and, if_false]
    apply BitVec.eq_of_toNat_eq
    rw [BitVec.toNat_setWidth, e2, BitVec.toNat_ofNat]
  · simp only [true_and, if_true]
    have : (v.extractLsb' (8 * (pa % 8)) (8 * n)).signExtend 64 = BitVec.ofInt 64 (v.extractLsb' (8 * (pa % 8)) (8 * n)).toInt := rfl
    rw [this, BitVec.toInt_eq_toNat_cond, e2]
    by_cases hc : 2 ^ (8 * n) ≤ 2 * subWord v (pa % 8) n
    · rw [if_pos hc, if_neg (by omega)]
    · rw [if_neg hc, if_pos (by omega), BitVec.ofInt_natCast]

theorem spread_lt (m : BitVec 8) : ∀ n, spread m n < 2 ^ (8 * n) := by
  intro n
  induction n with
  | zero => simp [spread]
  | succ n ih =>
    have h : (256 : Nat) ^ n = 2 ^ (8 * n) := by rw [Nat.pow_mul]
    have h2 : (2 : Nat) ^ (8 * (n + 1)) = 2 ^ (8 * n) * 256 := by rw [Nat.mul_add, Nat.pow_add]
    unfold spread
    rw [h, h2]
    split <;> omega
theorem spread_testBit (m : BitVec 8) (i : Nat) : ∀ n, (spread m n).testBit i = (decide (i < 8 * n) && m.getLsbD (i / 8)) := by
  intro n
  induction n with
  | zero => simp [spread]
  | succ n ih =>
    have h : (256 : Nat) ^ n = 2 ^ (8 * n) := by rw [Nat.pow_mul]
    have e : spread m (n + 1) = 2 ^ (8 * n) * (if m.getLsbD n then 255 else 0) + spread m n := by
      have e0 : spread m (n + 1) = spread m n + (if m.getLsbD n then 255 * 256 ^ n else 0) := rfl
      rw [e0, h]; split <;> ring
    rw [e, Nat.testBit_two_pow_mul_add _ (spread_lt m n), ih]
    by_cases h1 : i < 8 * n
    · rw [if_pos h1]; simp [h1, show i < 8 * (n + 1) by omega]
    · rw [if_neg h1]
      by_cases h2 : i < 8 * (n + 1)
      · have e3 : i / 8 = n := by omega
        have e4 : i - 8 * n < 8 := by omega
        rw [e3]; simp only [h2, decide_true, Bool.true_and]
        generalize i - 8 * n = j at e4
        cases m.getLsbD n
        · simp
        · simp only [if_true]
          have : j = 0 ∨ j = 1 ∨ j = 2 ∨ j = 3 ∨ j = 4 ∨ j = 5 ∨ j = 6 ∨ j = 7 := by omega
          rcases this with rfl | rfl | rfl | rfl | rfl | rfl | rfl | rfl <;> decide
      · simp only [h2, decide_false, Bool.false_and]
        have : 8 ≤ i - 8 * n := by omega
        apply Nat.testBit_lt_two_pow
        have : (2 : Nat) ^ 8 ≤ 2 ^ (i - 8 * n) := Nat.pow_le_pow_right (by decide) this
        split <;> omega
theorem maskOf_getLsbD {k n : Nat} (h : k + n ≤ 8) (i : Nat) : (maskOf k n).getLsbD i = (decide (k ≤ i) && decide (i < k + n)) := by
  unfold maskOf
  rw [BitVec.getLsbD_shiftLeft, BitVec.getLsbD_ofNat, Nat.testBit_two_pow_sub_one]
  by_cases h1 : k ≤ i <;> by_cases h2 : i < k + n <;> simp [h1, h2] <;> omega
/-- The bytes that an aligned write of n bytes replaces in its word, bit by bit. -/
theorem mergeWord_bits (old x : Word) {k n : Nat} (h : k + n ≤ 8) {i : Nat} (hi : i < 64) :
    (mergeWord old (alignWord x k) (maskOf k n)).getLsbD i =
      if 8 * k ≤ i ∧ i < 8 * (k + n) then x.getLsbD (i - 8 * k) else old.getLsbD i := by
  unfold mergeWord alignWord
  simp only [BitVec.getLsbD_or, BitVec.getLsbD_and, BitVec.getLsbD_not, BitVec.getLsbD_ofNat, spread_testBit, maskOf_getLsbD h, BitVec.getLsbD_shiftLeft, hi]
  by_cases h1 : 8 * k ≤ i
  · have h1' : k ≤ i / 8 := by omega
    have h1'' : ¬ i < 8 * k := by omega
    by_cases h2 : i < 8 * (k + n)
    · have h2' : i / 8 < k + n := by omega
      simp [h1, h1', h2, h2', h1'', hi]
    · have h2' : ¬ i / 8 < k + n := by omega
      simp [h1, h1', h2, h2', h1'', hi]
  · have h1' : ¬ k ≤ i / 8 := by omega
    have h1'' : i < 8 * k := by omega
    simp [h1, h1', h1'', hi]

theorem accs_nil {s : State} (h : s.accs = []) : { s with accs := [] } = s := by rw [← h]

/-- The state with an access noted for the watchpoints. -/
def State.noted (s : State) (a : Acc) : State := { s with accs := s.accs ++ [a] }

theorem note_ok (s : State) (va : Word) (n : Nat) (pol : Option Pol) (rd wr : Bool) (lane : Nat) (device : Bool) :
    note va n pol rd wr lane device s =
      .ok () (s.noted { va := va, n := n, pol := pol, rd := rd, wr := wr, lane := lane, device := device }) := rfl

theorem setClWord_noted (s : State) (a : Acc) (cl pa : Nat) (x : CacheWord) :
    (s.noted a).setClWord cl pa x = (s.setClWord cl pa x).noted a := rfl

theorem markRecheck_noted (s : State) (a : Acc) (cl line : Nat) : (s.noted a).markRecheck cl line = (s.markRecheck cl line).noted a := by
  have h : (s.noted a).cluster cl = s.cluster cl := rfl
  unfold State.markRecheck
  rw [h]
  split <;> rfl

theorem foldl_commute {α β : Type} {f : α → β → α} {g : α → α} (h : ∀ x b, f (g x) b = g (f x b)) : ∀ (l : List β) x, l.foldl f (g x) = g (l.foldl f x) := by
  intro l
  induction l with
  | nil => intro x; rfl
  | cons b l ih => intro x; rw [List.foldl_cons, List.foldl_cons, h, ih]

theorem discardU_accs (s : State) (cl : Nat) (a : List Acc) : ({ s with accs := a }).discardU cl = { s.discardU cl with accs := a } := by
  unfold State.discardU
  have : (((({ s with accs := a } : State).wordsWhere cl fun w => w.st == .u)).foldl (fun s pa => s.dropClWord cl pa) { s with accs := a }) =
      { (s.wordsWhere cl fun w => w.st == .u).foldl (fun s pa => s.dropClWord cl pa) s with accs := a } :=
    foldl_commute (g := fun s => { s with accs := a }) (fun x b => rfl) _ s
  dsimp only
  rw [this]; rfl

theorem acquireAt_accs (s : State) (cl : Nat) (sc : Scope) (a : List Acc) : ({ s with accs := a }).acquireAt cl sc = { s.acquireAt cl sc with accs := a } := by
  cases sc <;> first | rfl | exact discardU_accs s cl a

/-- An instruction that noted accesses and then takes a trap takes it in the state it began in. -/
theorem restoreMe_takeTrap (s : State) (a : List Acc) (t : Trap) (w0 w1 : BitVec 32) (h : s.accs = []) :
    (({ s with accs := a }).restoreMe s).takeTrap s.cur t w0 w1 = s.takeTrap s.cur t w0 w1 := by
  have e : ({ s with accs := a }).restoreMe s = s.setCtx s.cur (s.ctx s.cur) := by
    cases s; dsimp only at h; subst h; rfl
  rw [e]
  unfold State.takeTrap State.modCtx
  simp only [ctx_setCtx_same, setCtx_setCtx]

theorem discardU_cur (s : State) (cl : Nat) : (s.discardU cl).cur = s.cur := by
  have := keep_discardU (plain_apart s) (cl := cl) (Apart.refl s)
  exact this.cur

/-- An acquire leaves all but the memory system alone (R105). -/
theorem acquireAt_apart (s : State) (cl : Nat) (sc : Scope) : Apart s (s.acquireAt cl sc) := keep_acquireAt (plain_apart s) (Apart.refl s)

theorem discardU_ctxs (s : State) (cl : Nat) : (s.discardU cl).ctxs = s.ctxs := by
  unfold State.discardU
  generalize (s.wordsWhere cl fun w => w.st == .u) = l
  show (l.foldl (fun s pa => s.dropClWord cl pa) s).ctxs = s.ctxs
  induction l generalizing s with
  | nil => rfl
  | cons a l ih => rw [List.foldl_cons, ih]; rfl

theorem acquireAt_me (s : State) (cl : Nat) (sc : Scope) : (s.acquireAt cl sc).me = s.me := by
  have h : ∀ t : State, t.cur = s.cur → t.ctxs = s.ctxs → t.me = s.me := by
    intro t h1 h2; unfold State.me State.ctx; rw [h1, h2]
  cases sc <;> first | rfl | exact h _ (discardU_cur s cl) (discardU_ctxs s cl)

end Sys2Proof.Machine
end

