-- ==== Sys2Proof/Laws/Decode.lean ====
section
/-! SUPPORT. Fields taken out of a packed word: a field is what was packed there, whatever stands beside it. -/

namespace Sys2Proof

theorem pack_skip (n v lo : Nat) (r : List (Nat × Nat)) (h : n ≤ lo) :
    pack ((n, v) :: r) / 2 ^ lo = pack r / 2 ^ (lo - n) := by
  obtain ⟨k, rfl⟩ := Nat.exists_eq_add_of_le h
  rw [pack, Nat.pow_add, ← Nat.div_div_eq_div_mul, Nat.add_mul_div_left _ _ (by positivity),
    Nat.div_eq_of_lt (Nat.mod_lt _ (by positivity)), Nat.zero_add, Nat.add_sub_cancel_left]

theorem pack_mod (n v : Nat) (r : List (Nat × Nat)) : pack ((n, v) :: r) % 2 ^ n = v % 2 ^ n := by
  rw [pack, Nat.add_mul_mod_self_left, Nat.mod_mod]

theorem bits_skip (n v lo k : Nat) (r : List (Nat × Nat)) (h : n ≤ lo) :
    bits (pack ((n, v) :: r)) lo k = bits (pack r) (lo - n) k := by
  unfold bits; rw [pack_skip _ _ _ _ h]

theorem bits_head (n v : Nat) (r : List (Nat × Nat)) : bits (pack ((n, v) :: r)) 0 n = v % 2 ^ n := by
  unfold bits; rw [Nat.pow_zero, Nat.div_one, pack_mod]

theorem fld_head (n : Nat) (x : BitVec n) (r : List (Nat × Nat)) : fld n (pack ((n, x.toNat) :: r)) 0 = x := by
  apply BitVec.eq_of_toNat_eq
  rw [fld, Nat.pow_zero, Nat.div_one, BitVec.toNat_ofNat, pack_mod, Nat.mod_eq_of_lt x.isLt]

theorem fld_skip (n v lo k : Nat) (r : List (Nat × Nat)) (h : n ≤ lo) :
    fld k (pack ((n, v) :: r)) lo = fld k (pack r) (lo - n) := by
  unfold fld; rw [pack_skip _ _ _ _ h]

theorem flag_skip (n v lo : Nat) (r : List (Nat × Nat)) (h : n ≤ lo) :
    flag (pack ((n, v) :: r)) lo = flag (pack r) (lo - n) := by
  unfold flag; rw [pack_skip _ _ _ _ h]

theorem flag_head (x : Bool) (r : List (Nat × Nat)) : flag (pack ((1, x.toNat) :: r)) 0 = x := by
  have h := pack_mod 1 x.toNat r
  unfold flag
  rw [Nat.pow_zero, Nat.div_one]
  simp only [Nat.pow_one] at h
  rw [h]
  cases x <;> rfl

theorem accept_wf (i : Instr) (h : i.wf = true) : accept i = .ok i := by rw [accept, h]; rfl

/-- Only an instruction that keeps its limits is accepted. -/
theorem wf_of_accept {i j : Instr} (h : accept i = .ok j) : j.wf = true := by
  unfold accept at h
  split at h
  · cases h; assumption
  · cases h

theorem wf_of_guardRsv {ok : Bool} {i j : Instr} (h : guardRsv ok i = .ok j) : j.wf = true := by
  unfold guardRsv at h
  split at h
  · exact wf_of_accept h
  · cases h

theorem pol_ofCode_code (p : Pol) : Pol.ofCode p.code = p := by cases p <;> rfl

theorem order_ofCode_code (o : Order) : Order.ofCode o.code = o := by cases o <;> rfl

theorem scope_ofCode_code (c : Scope) : Scope.ofCode c.code = c := by cases c <;> rfl

theorem treg_ofCode_code (t : TReg) : TReg.ofCode t.code = t := by
  rcases t with n | n <;> revert n <;> decide

theorem pol_code_mod (p : Pol) : p.code % 4 = p.code := by cases p <;> rfl

theorem order_code_mod (o : Order) : o.code % 4 = o.code := by cases o <;> rfl

theorem scope_code_mod (c : Scope) : c.code % 8 = c.code := by cases c <;> rfl

theorem scope_code_lt (c : Scope) : c.code < 5 := by cases c <;> decide

theorem treg_code_mod (t : TReg) : t.code % 32 = t.code := by
  rcases t with n | n <;> revert n <;> decide

theorem treg_code_lt (t : TReg) : t.code < 12 := by
  rcases t with n | n <;> revert n <;> decide

end Sys2Proof
end

