-- ==== Sys2Proof/Laws/Frames.lean ====
section
/-! SUPPORT. The frame of an instruction that writes one register: one lemma for each kind of destination, from the one
equation that says what the instruction commits. -/

namespace Sys2Proof.Machine

/-- What an instruction leaves alone that writes one register of the context in turn. -/
def OwnFrame (i : Instr) (dest : Dest) (s : State) : Prop := ∃ t x, exec i s = .next t ∧ Retired s t x ∧
    x = { s.me with g := x.g, v := x.v, p := x.p, fst := x.fst, pc := x.pc, stall := .none, attempt := 0 } ∧
    (∀ r, dest.isG r = false → t.readG r = s.readG r) ∧ (∀ r, dest.isV r = false → t.readV r = s.readV r) ∧
    (∀ r, dest.isP r = false → t.readP r = s.readP r) ∧ (dest.raises = false → x.fst = s.me.fst) ∧
    x.fst &&& s.me.fst = s.me.fst ∧ (∀ a, memByte t.mem a = memByte s.mem a)

/-- An instruction that retires after a change of its own registers leaves the rest alone. -/

theorem frame_commit {i : Instr} {s : State} {dest : Dest} {f : Context → Context} {pc : Word} (c : Clear s)
    (e : exec i s = commitTo s (s.modMe f) pc)
    (hf : ∀ y : Context, f y = { y with g := (f y).g, v := (f y).v, p := (f y).p, fst := (f y).fst })
    (hg : ∀ r, dest.isG r = false → (f s.me).getG r.toNat = s.me.getG r.toNat)
    (hv : ∀ r, dest.isV r = false → (f s.me).getV r.toNat = s.me.getV r.toNat)
    (hp : ∀ r, dest.isP r = false → (f s.me).getP r.toNat = s.me.getP r.toNat)
    (hr : dest.raises = false → (f s.me).fst = s.me.fst) (ha : (f s.me).fst &&& s.me.fst = s.me.fst) :
    OwnFrame i dest s := by
  have hm : ((s.modMe f).retireTo pc).me = { f s.me with pc := pcOf pc, stall := .none, attempt := 0 } := by
    simp only [State.me, State.retireTo, State.modMe, State.countCtx, State.addCtr, ctx_setCtr, cur_setCtr, cur_modCtx, ctx_modCtx_same]
  refine ⟨(s.modMe f).retireTo pc, { f s.me with pc := pcOf pc, stall := .none, attempt := 0 }, ?_, ?_, ?_, ?_, ?_, ?_, hr, ha, fun _ => rfl⟩
  · rw [e, commitTo_clear c]
  · simp only [Retired, State.retireTo, State.modMe, State.modCtx, State.setCtx, State.countCtx, State.addCtr, State.setCtr, State.ctr, State.ctx, State.me, tset_tset_same, tget_tset_same]
  · have := hf s.me
    dsimp only
    rw [this]
  · intro r h; simp only [State.readG, hm]; exact hg r h
  · intro r h; simp only [State.readV, hm]; exact hv r h
  · intro r h; simp only [State.readP, hm]; exact hp r h

theorem getG_setG (x : Context) (d r : Reg) (v : Word) (h : r ≠ d) : (x.setG d.toNat v).getG r.toNat = x.getG r.toNat := by
  have : r.toNat ≠ d.toNat := fun k => h (BitVec.eq_of_toNat_eq k)
  unfold Context.setG Context.getG
  split
  · rfl
  · split
    · rfl
    · exact tget_tset_other _ _ _ this

theorem getV_setV (x : Context) (d r : Reg) (v : Vec) (h : r ≠ d) : (x.setV d.toNat v).getV r.toNat = x.getV r.toNat := by
  have : r.toNat ≠ d.toNat := fun k => h (BitVec.eq_of_toNat_eq k)
  exact tget_tset_other _ _ _ this

theorem getP_setP (x : Context) (d r : BitVec 3) (v : Word) (h : r ≠ d) : (x.setP d.toNat v).getP r.toNat = x.getP r.toNat := by
  have : r.toNat ≠ d.toNat := fun k => h (BitVec.eq_of_toNat_eq k)
  unfold Context.setP Context.getP
  split
  · rfl
  · split
    · rfl
    · exact tget_tset_other _ _ _ this

theorem setG_eq (x : Context) (d : Nat) (v : Word) : x.setG d v = { x with g := (x.setG d v).g } := by
  unfold Context.setG; split <;> rfl

theorem setP_eq (x : Context) (d : Nat) (v : Word) : x.setP d v = { x with p := (x.setP d v).p } := by
  unfold Context.setP; split <;> rfl

theorem or_and_self (x y : BitVec 5) : (x ||| y) &&& x = x := by
  ext i; simp; intro h; simp [h]

theorem frame_g {i : Instr} {s : State} {d : Reg} {v pc : Word} (c : Clear s) (e : exec i s = commitTo s (s.writeG d v) pc) : OwnFrame i (.g d) s := by
  refine frame_commit (f := fun x => x.setG d.toNat v) c e (fun y => by unfold Context.setG; split <;> rfl) ?_ ?_ ?_ ?_ ?_
  · intro r h
    refine getG_setG _ _ _ _ ?_
    rintro rfl; simp [Dest.isG] at h
  · intro r h; unfold Context.setG; split <;> rfl
  · intro r h; unfold Context.setG; split <;> rfl
  · intro h; unfold Context.setG; split <;> rfl
  · rw [setG_eq]; simp

theorem frame_v {i : Instr} {s : State} {d : Reg} {v : Vec} {pc : Word} (c : Clear s) (e : exec i s = commitTo s (s.writeV d v) pc) : OwnFrame i (.v d false) s := by
  refine frame_commit (f := fun x => x.setV d.toNat v) c e (fun y => rfl) (fun _ _ => rfl) ?_ (fun _ _ => rfl) (fun _ => rfl) (by simp [Context.setV])
  intro r h
  refine getV_setV _ _ _ _ ?_
  rintro rfl; simp [Dest.isV] at h

theorem frame_vf {i : Instr} {s : State} {d : Reg} {v : Vec} {pc : Word} {fl : BitVec 5} (c : Clear s) (e : exec i s = commitTo s ((s.writeV d v).raise fl) pc) : OwnFrame i (.v d true) s := by
  have e' : (s.writeV d v).raise fl = s.modMe (fun x => { x.setV d.toNat v with fst := (x.setV d.toNat v).fst ||| fl }) := by
    simp [State.raise, State.writeV, State.modMe, State.modCtx, State.setCtx, State.ctx]
  rw [e'] at e
  refine frame_commit c e (fun y => rfl) (fun _ _ => rfl) ?_ (fun _ _ => rfl) (fun h => by simp [Dest.raises] at h) (or_and_self _ _)
  intro r h
  refine getV_setV _ _ _ _ ?_
  rintro rfl; simp [Dest.isV] at h

theorem frame_p {i : Instr} {s : State} {d : BitVec 3} {v : Word} {pc : Word} (c : Clear s) (e : exec i s = commitTo s (s.writeP d v) pc) : OwnFrame i (.p d false) s := by
  refine frame_commit (f := fun x => x.setP d.toNat v) c e (fun y => by unfold Context.setP; split <;> rfl) ?_ ?_ ?_ ?_ ?_
  · intro r h; unfold Context.setP; split <;> rfl
  · intro r h; unfold Context.setP; split <;> rfl
  · intro r h
    refine getP_setP _ _ _ _ ?_
    rintro rfl; simp [Dest.isP] at h
  · intro h; unfold Context.setP; split <;> rfl
  · rw [setP_eq]; simp

theorem frame_pf {i : Instr} {s : State} {d : BitVec 3} {v : Word} {pc : Word} {fl : BitVec 5} (c : Clear s) (e : exec i s = commitTo s ((s.writeP d v).raise fl) pc) : OwnFrame i (.p d true) s := by
  have e' : (s.writeP d v).raise fl = s.modMe (fun x => { x.setP d.toNat v with fst := (x.setP d.toNat v).fst ||| fl }) := by
    simp [State.raise, State.writeP, State.modMe, State.modCtx, State.setCtx, State.ctx]
  rw [e'] at e
  refine frame_commit c e (fun y => ?_) ?_ ?_ ?_ (fun h => by simp [Dest.raises] at h) ?_
  · unfold Context.setP; split <;> rfl
  · intro r h; unfold Context.setP; split <;> rfl
  · intro r h; unfold Context.setP; split <;> rfl
  · intro r h
    refine getP_setP _ _ _ _ ?_
    rintro rfl; simp [Dest.isP] at h
  · rw [setP_eq]; exact or_and_self _ _

theorem frame_n {i : Instr} {s : State} {pc : Word} (c : Clear s) (e : exec i s = commitTo s s pc) : OwnFrame i .nothing s := by
  have hm : (s.retireTo pc).me = { s.me with pc := pcOf pc, stall := .none, attempt := 0 } := by
    simp only [State.me, State.retireTo, State.modMe, State.countCtx, State.addCtr, ctx_setCtr, cur_setCtr, cur_modCtx, ctx_modCtx_same]
  refine ⟨s.retireTo pc, { s.me with pc := pcOf pc, stall := .none, attempt := 0 }, ?_, rfl, rfl, ?_, ?_, ?_, fun _ => rfl, by simp, fun _ => rfl⟩
  · rw [e, commitTo_clear c]
  · intro r h; simp only [State.readG, hm]; rfl
  · intro r h; simp only [State.readV, hm]; rfl
  · intro r h; simp only [State.readP, hm]; rfl

end Sys2Proof.Machine
end

