-- ==== Sys2Proof/Laws/KeepMachine.lean ====
section
/-! SUPPORT. Every operation of contexts, units and queues, and every happening, keeps a Steady predicate. -/

namespace Sys2Proof.Machine

variable {P : State → Prop}

@[simp] theorem spend_pc (x : Context) (n : Nat) : (x.spend n).pc = x.pc := by unfold Context.spend; split <;> rfl

theorem keep_countDown (K : Steady P) {s : State} {core : Nat} (H : P s) : P (State.countDown s core) := by
  unfold State.countDown
  repeat' first
    | with_reducible assumption
    | with_reducible refine K.modCtx ?_ _ (by intro x hx; first | exact hx | exact aligned_pcOf _ | (with_reducible simpa using hx) | (dsimp only; (repeat' split) <;> first | exact hx | exact aligned_pcOf _))
    | with_reducible refine foldl_keeps (p := P) (fun s a H => ?_) _ ?_
    | dsimp only
    | split

theorem keep_settleAs (K : Steady P) {u s : State} {core : Nat} (H : P u) : P (u.settleAs s core) := by
  unfold State.settleAs
  dsimp only
  split
  · exact H
  · refine K.core _ _ _ ?_ id
    refine foldl_keeps (p := P) (fun t a H => ?_) _ (keep_addCtr K.toQuiet (foldl_keeps (p := P) (fun t a H => keep_addCtr K.toQuiet H) _ H))
    split
    · exact K.modCtx H _ (fun x h => (spend_pc x _).symm ▸ h)
    · exact H

theorem keep_settle (K : Steady P) {s : State} {core : Nat} (H : P s) : P (s.settle core) := keep_settleAs K H

theorem keep_accounted (K : Steady P) {u s : State} (H : P u) : P (u.accounted s) :=
  foldl_keeps (p := P) (fun _ _ H => keep_settleAs K H) _ H

@[simp] theorem setG_pc (x : Context) (r : Nat) (v : Word) : (x.setG r v).pc = x.pc := by unfold Context.setG; split <;> rfl
@[simp] theorem setV_pc (x : Context) (r : Nat) (v : Vec) : (x.setV r v).pc = x.pc := rfl
@[simp] theorem setP_pc (x : Context) (r : Nat) (v : Word) : (x.setP r v).pc = x.pc := by unfold Context.setP; split <;> rfl
@[simp] theorem setM_pc (x : Context) (r : Nat) (v : BitVec 128) : (x.setM r v).pc = x.pc := rfl
@[simp] theorem trapRegs_pc (x : Context) (t : Trap) (w0 w1 : BitVec 32) : (x.trapRegs t w0 w1).pc = x.pc := rfl
@[simp] theorem waits_pc (x : Context) (w : Stall) (w0 w1 : BitVec 32) : (x.waits w w0 w1).pc = x.pc := rfl
@[simp] theorem sysWrite_pc (x : Context) (n : Nat) (v : Word) : (x.sysWrite n v).pc = x.pc := by unfold Context.sysWrite; split <;> rfl

theorem keep_setTcb (K : Plain P) {s : State} {cl tcb off : Nat} {x : Word} (H : P s) : P (State.setTcb s cl tcb off x) := by
  unfold State.setTcb
  repeat' first
    | with_reducible assumption
    | with_reducible refine keep_setUnitWord K ?_

theorem keep_setTstate (K : Plain P) {s : State} {cl tcb st reason : Nat} (H : P s) : P (State.setTstate s cl tcb st reason) := by
  unfold State.setTstate
  repeat' first
    | with_reducible assumption
    | with_reducible refine keep_setTcb K ?_

theorem keep_squash (K : Steady P) {s : State} {c : Nat} (H : P s) : P (State.squash s c) := by
  unfold State.squash
  repeat' first
    | with_reducible assumption
    | with_reducible refine K.clu _ _ _ ?_
    | dsimp only
    | split
    | with_reducible refine K.toQuiet.records _ _ _ _ _ ?_
    | with_reducible refine K.toPlain.upd _ _ _ _ _ _ _ _ _ _ ?_
    | with_reducible refine K.own _ _ _ _ _ _ _ _ _ _ _ ?_

theorem keep_park (K : Steady P) {s : State} {c : Nat} {r : Reason} {cause : Nat} (H : P s) : P (State.park s c r cause) := by
  unfold State.park
  repeat' first
    | with_reducible assumption
    | with_reducible refine keep_dispatchEvent K.toQuiet ?_
    | with_reducible refine keep_setTstate K.toPlain ?_
    | with_reducible refine keep_squash K ?_
    | with_reducible refine K.modCtx ?_ _ (by intro x hx; first | exact hx | exact aligned_pcOf _ | (with_reducible simpa using hx) | (dsimp only; (repeat' split) <;> first | exact hx | exact aligned_pcOf _))
    | dsimp only
    | split

theorem keep_unpark (K : Steady P) {s : State} {c : Nat} (H : P s) : P (State.unpark s c) := by
  unfold State.unpark
  repeat' first
    | with_reducible assumption
    | with_reducible refine K.modCtx ?_ _ (by intro x hx; first | exact hx | exact aligned_pcOf _ | (with_reducible simpa using hx) | (dsimp only; (repeat' split) <;> first | exact hx | exact aligned_pcOf _))

theorem keep_takeTrap (K : Steady P) {s : State} {c : Nat} {t : Trap} {w0 w1 : BitVec 32} (H : P s) : P (s.takeTrap c t w0 w1) := by
  have h : P (s.modCtx c (fun x => { x.trapRegs t w0 w1 with stall := .none, attempt := 0 })) := K.modCtx H _ (fun _ h => h)
  unfold State.takeTrap
  dsimp only
  split
  · split
    · exact keep_park K h
    · exact K.modCtx (K.core _ _ _ (keep_squash K h) id) _ (fun _ _ => aligned_pcOf _)
  · exact keep_enterTrap K.toPlain (keep_park K h)

theorem keep_takeBreak (K : Steady P) {s : State} {c : Nat} {t : Trap} {w0 w1 : BitVec 32} (H : P s) : P (State.takeBreak s c t w0 w1) := by
  unfold State.takeBreak
  repeat' first
    | with_reducible assumption
    | with_reducible refine keep_park K ?_
    | with_reducible refine keep_takeTrap K ?_
    | dsimp only
    | split

theorem keep_returnTo (K : Steady P) {s : State} {c : Nat} {pc : Word} (H : P s) : P (State.returnTo s c pc) := by
  unfold State.returnTo
  repeat' first
    | with_reducible assumption
    | with_reducible refine keep_park K ?_
    | with_reducible refine keep_unpark K ?_
    | with_reducible refine K.modCtx ?_ _ (by intro x hx; first | exact hx | exact aligned_pcOf _ | (with_reducible simpa using hx) | (dsimp only; (repeat' split) <;> first | exact hx | exact aligned_pcOf _))
    | dsimp only
    | split

theorem keep_relink (K : Plain P) {s : State} {cl : Nat} {l : List Nat} {tcb : Nat} (H : P s) : P (State.relink s cl l tcb) := by
  unfold State.relink
  repeat' first
    | with_reducible assumption
    | with_reducible refine keep_setTcb K ?_
    | dsimp only
    | split

theorem keep_dropWait (K : Steady P) {s : State} {c : Nat} (H : P s) : P (State.dropWait s c) := by
  unfold State.dropWait
  repeat' first
    | with_reducible assumption
    | with_reducible refine keep_relink K.toPlain ?_
    | with_reducible refine K.clu _ _ _ ?_
    | with_reducible refine K.core _ _ _ ?_ (by intro hx; first | exact hx | (dsimp only; split <;> exact hx))
    | dsimp only
    | split

theorem keep_debugStop (K : Steady P) {s : State} {c : Nat} (H : P s) : P (State.debugStop s c) := by
  unfold State.debugStop
  repeat' first
    | with_reducible assumption
    | with_reducible refine keep_trace K.toPlain ?_
    | with_reducible refine keep_park K ?_
    | with_reducible refine keep_dropWait K ?_
    | with_reducible refine K.modCtx ?_ _ (by intro x hx; first | exact hx | exact aligned_pcOf _ | (with_reducible simpa using hx) | (dsimp only; (repeat' split) <;> first | exact hx | exact aligned_pcOf _))
    | dsimp only
    | split

theorem keep_debugResume (K : Steady P) {s : State} {c : Nat} (H : P s) : P (State.debugResume s c) := by
  unfold State.debugResume
  repeat' first
    | with_reducible assumption
    | with_reducible refine keep_trace K.toPlain ?_
    | with_reducible refine keep_unpark K ?_
    | dsimp only
    | split

theorem keep_takeMatch (K : Steady P) {s : State} {m : Match} (H : P s) : P (s.takeMatch m) := by
  cases m <;> exact keep_takeBreak K (keep_trace K.toPlain H)

theorem keep_matched (K : Steady P) {s t : State} {accs : List Acc} (H : P s) (e : s.matched accs = some t) : P t := by
  unfold State.matched at e
  cases h : s.matchOf accs with
  | none => rw [h] at e; cases e
  | some m => rw [h] at e; cases e; exact keep_takeMatch K H

theorem keep_retireTo (K : Steady P) {s : State} {pc : Word} (H : P s) : P (State.retireTo s pc) := by
  unfold State.retireTo
  repeat' first
    | with_reducible assumption
    | with_reducible refine keep_countCtx K.toQuiet ?_
    | with_reducible refine K.modMe ?_ (by intro x hx; first | exact hx | exact aligned_pcOf _ | (with_reducible simpa using hx) | (dsimp only; (repeat' split) <;> first | exact hx | exact aligned_pcOf _))

theorem keep_retire (K : Steady P) {s : State} {len : Nat} (H : P s) : P (State.retire s len) := by
  unfold State.retire
  repeat' first
    | with_reducible assumption
    | with_reducible refine keep_retireTo K ?_

theorem keep_restoreMe (K : Steady P) {s s0 : State} (H : P s) (H0 : P s0) : P (s.restoreMe s0) :=
  K.own _ _ _ _ _ _ _ _ _ _ _ (K.ctx _ _ _ H (K.pc _ _ H0))

theorem keep_note (K : Steady P) {s : State} {va : Word} {n : Nat} {pol : Option Pol} {rd wr : Bool} {lane : Nat} {device : Bool} (H : P s) : Holds P (note va n pol rd wr lane device) s := by
  unfold note
  repeat' first
    | with_reducible assumption
    | with_reducible refine holds_get_bind ?_
    | with_reducible refine holds_modify_bind ?_
    | with_reducible refine holds_pure_bind ?_
    | with_reducible refine holds_bind ?_ (fun a t H => ?_)
    | with_reducible refine holds_pure _ ?_
    | with_reducible refine holds_get ?_
    | with_reducible refine holds_modify ?_
    | dsimp only
    | with_reducible refine K.toQuiet.records _ _ _ _ _ ?_
    | with_reducible refine K.toPlain.upd _ _ _ _ _ _ _ _ _ _ ?_
    | with_reducible refine K.own _ _ _ _ _ _ _ _ _ _ _ ?_

/-- An answer is a next state, and a predicate holds of it. -/
def Ends (P : State → Prop) (a : Answer) : Prop := ∃ t, a = .next t ∧ P t

theorem ends_next {t : State} (H : P t) : Ends P (.next t) := ⟨t, rfl, H⟩

theorem ends_of {a : Answer} {t : State} (h : Ends P a) (e : a = .next t) : P t := by
  obtain ⟨u, hu, H⟩ := h
  rw [hu] at e
  cases e
  exact H

theorem ends_commitTo (K : Steady P) {s0 s1 : State} {pc : Word} (H0 : P s0) (H1 : P s1) : Ends P (commitTo s0 s1 pc) := by
  unfold commitTo
  split
  · exact ends_next (keep_matched K H0 ‹_›)
  · exact ends_next (keep_retireTo K H1)

theorem ends_commit (K : Steady P) {s0 s1 : State} {n : Nat} (H0 : P s0) (H1 : P s1) : Ends P (commit s0 s1 n) :=
  ends_commitTo K H0 H1

theorem ends_trapNow (K : Steady P) {s : State} {t : Trap} (H : P s) : Ends P (trapNow s t) := ends_next (keep_takeTrap K H)

theorem ends_runAct (K : Steady P) {s : State} {n : Nat} {m : Act Unit} (H : P s) (hm : ∀ u, P u → Holds P m u) :
    Ends P (runAct s n m) := by
  have h0 : P { s with accs := [] } := K.own _ _ _ _ _ _ _ _ _ _ _ H
  have h1 := hm _ h0
  unfold runAct
  split
  · next e =>
    split
    · exact ends_next (keep_takeMatch K (keep_restoreMe K (h1.ok e) H))
    · exact ends_next (keep_retire K (K.own _ _ _ _ _ _ _ _ _ _ _ (h1.ok e)))
  · next e => exact ends_next (keep_takeTrap K (keep_restoreMe K (h1.error e) H))
  · next e => exact ends_next (K.modCtx (keep_park K (keep_restoreMe K (h1.error e) H)) _ (fun _ h => h))
  · next e => exact ends_next (K.modCtx (keep_restoreMe K (h1.error e) H) _ (fun _ h => h))
  · next e => exact ends_next (keep_takeMatch K (keep_restoreMe K (h1.error e) H))

theorem keep_groupEntry (K : Plain P) {s : State} {sp : Space} {d : BitVec 20} {pa : Nat} {e : Word} (H : P s) : Holds P (groupEntry sp d pa e) s := by
  unfold groupEntry
  repeat' first
    | with_reducible assumption
    | with_reducible refine keep_draw K.toQuiet ?_
    | with_reducible refine keep_draw_eq K.toQuiet ?_ (by assumption)
    | with_reducible refine keep_clRead K ?_
    | with_reducible refine holds_get_bind ?_
    | with_reducible refine holds_set_bind ?_
    | with_reducible refine holds_pure_bind ?_
    | with_reducible refine holds_bind ?_ (fun a t H => ?_)
    | with_reducible refine holds_pure _ ?_
    | with_reducible refine holds_get ?_
    | with_reducible refine holds_set ?_
    | with_reducible refine holds_lift ?_
    | dsimp only
    | split

theorem keep_walk (K : Plain P) {sp : Space} {va : Word} {kind : AccessKind} {pol lane : Nat} {n base : Nat} {s : State}
    (H : P s) : Holds P (walk sp va kind pol lane n base) s := by
  induction n generalizing base s with
  | zero => exact holds_raiseTrap _ H
  | succ n ih =>
    unfold walk
    repeat' first
      | with_reducible assumption
      | with_reducible refine ih ?_
      | with_reducible refine keep_clRead K ?_
      | with_reducible refine keep_groupEntry K ?_
      | with_reducible refine holds_get_bind ?_
      | with_reducible refine holds_bind ?_ (fun a t H => ?_)
      | with_reducible refine holds_pure _ ?_
      | with_reducible refine holds_lift ?_
      | with_reducible refine holds_raiseTrap _ ?_
      | dsimp only
      | split

theorem keep_fillBuffer (K : Plain P) {s : State} {sp : Space} {e : TlbEntry} {ws : List WalkEntry} (H : P s) : P (State.fillBuffer s sp e ws) := by
  unfold State.fillBuffer
  repeat' first
    | with_reducible assumption
    | with_reducible refine K.queue _ _ _ _ _ _ _ ?_ rfl id
    | with_reducible refine K.cluster _ _ _ ?_ (by intro x; constructor <;> rfl)
    | dsimp only
    | split

theorem keep_translate (K : Plain P) {s : State} {sp : Space} {va : Word} {kind : AccessKind} {pol : Option Pol} {lane : Nat} (H : P s) : Holds P (translate sp va kind pol lane) s := by
  unfold translate
  repeat' first
    | with_reducible assumption
    | with_reducible refine keep_walk K ?_
    | with_reducible refine keep_fillBuffer K ?_
    | with_reducible refine holds_get_bind ?_
    | with_reducible refine holds_modify_bind ?_
    | with_reducible refine holds_pure_bind ?_
    | with_reducible refine holds_bind ?_ (fun a t H => ?_)
    | with_reducible refine holds_pure _ ?_
    | with_reducible refine holds_get ?_
    | with_reducible refine holds_modify ?_
    | with_reducible refine holds_raiseTrap _ ?_
    | dsimp only
    | split

theorem keep_xlate (K : Plain P) {s : State} {va : Word} {kind : AccessKind} {pol : Option Pol} (H : P s) : Holds P (xlate va kind pol) s := by
  unfold xlate
  repeat' first
    | with_reducible assumption
    | with_reducible refine keep_translate K ?_
    | with_reducible refine holds_get_bind ?_

theorem keep_notDevice (K : Quiet P) {s : State} {va : Word} {pa : Nat} {kind : AccessKind} {pol : Option Pol} (H : P s) : Holds P (notDevice va pa kind pol) s := by
  unfold notDevice
  repeat' first
    | with_reducible assumption
    | with_reducible refine holds_get_bind ?_
    | with_reducible refine holds_pure_bind ?_
    | with_reducible refine holds_bind ?_ (fun a t H => ?_)
    | with_reducible refine holds_pure _ ?_
    | with_reducible refine holds_get ?_
    | with_reducible refine holds_trapIf _ _ ?_

theorem keep_regWrite (K : Steady P) {s : State} {c n : Nat} {v : Word} (H : P s) : P (s.regWrite c n v) := by
  refine K.modCtx H _ (fun x h => ?_)
  have hg : ∀ r v, Aligned (x.setG r v).pc := fun r v => (setG_pc x r v).symm ▸ h
  have hp : ∀ r v, Aligned (x.setP r v).pc := fun r v => (setP_pc x r v).symm ▸ h
  have hv : ∀ r v, Aligned (x.setV r v).pc := fun _ _ => h
  have hm : ∀ r v, Aligned (x.setM r v).pc := fun _ _ => h
  have hs : ∀ n v, Aligned (x.sysWrite n v).pc := fun n v => (sysWrite_pc x n v).symm ▸ h

  repeat' first
    | with_reducible exact hg _ _
    | with_reducible exact hp _ _
    | with_reducible exact hv _ _
    | with_reducible exact hm _ _
    | with_reducible exact hs _ _
    | with_reducible exact aligned_pcOf _
    | with_reducible exact h
    | split

theorem keep_supWrite (K : Steady P) {s : State} {core n : Nat} {v : Word} (H : P s) : P (State.supWrite s core n v) := by
  unfold State.supWrite
  repeat' first
    | with_reducible assumption
    | with_reducible refine K.toFar.pkg _ _ _ ?_
    | with_reducible refine K.core _ _ _ ?_ (by intro hx; first | exact hx | (dsimp only; split <;> exact hx))
    | dsimp only
    | split

theorem keep_loadTenant (K : Plain P) {s : State} {sock tno : Nat} (H : P s) : P (State.loadTenant s sock tno).2 := by
  unfold State.loadTenant
  repeat' first
    | with_reducible assumption
    | with_reducible refine keep_readTableWords K ?_
    | with_reducible refine keep_readTableWords_eq K ?_ (by assumption)
    | dsimp only
    | split

theorem keep_loadTenant_eq (K : Plain P) {s t : State} {sock tno : Nat} {y : Tenant} (H : P s) (E : State.loadTenant s sock tno = (y, t)) : P t := by
  have z := keep_loadTenant K H (s := s) (sock := sock) (tno := tno)
  rw [E] at z; exact z

theorem keep_forceTenant (K : Far P) {s : State} {sock tno : Nat} {t : Tenant} (H : P s) : P (State.forceTenant s sock tno t) := by
  unfold State.forceTenant
  repeat' first
    | with_reducible assumption
    | with_reducible refine K.pkg _ _ _ ?_
    | dsimp only
    | split
    | with_reducible refine K.toQuiet.records _ _ _ _ _ ?_

theorem keep_renewTenant (K : Far P) {s : State} {sock tno : Nat} (H : P s) : P (State.renewTenant s sock tno) := by
  unfold State.renewTenant
  repeat' first
    | with_reducible assumption
    | with_reducible refine keep_loadTenant K.toPlain ?_
    | with_reducible refine keep_loadTenant_eq K.toPlain ?_ (by assumption)
    | with_reducible refine keep_forceTenant K ?_

theorem keep_devCheck (K : Quiet P) {s : State} {va : Word} {pa n : Nat} {kind : AccessKind} {pol : Pol} (H : P s) : Holds P (devCheck va pa n kind pol) s := by
  unfold devCheck
  repeat' first
    | with_reducible assumption
    | with_reducible refine holds_get_bind ?_
    | with_reducible refine holds_pure_bind ?_
    | with_reducible refine holds_bind ?_ (fun a t H => ?_)
    | with_reducible refine holds_pure _ ?_
    | with_reducible refine holds_get ?_
    | with_reducible refine holds_trapIf _ _ ?_
    | dsimp only
    | split

theorem keep_writeFabPort (K : Far P) {s : State} {sock n : Nat} {x : Word} (H : P s) : P (State.writeFabPort s sock n x) := by
  unfold State.writeFabPort
  repeat' first
    | with_reducible assumption
    | with_reducible refine keep_farFallen K.toPlain ?_
    | with_reducible refine keep_replay K.toPlain ?_
    | with_reducible refine K.pkg _ _ _ ?_
    | dsimp only
    | split

theorem keep_writeFarId (K : Far P) {s : State} {sock : Nat} {x : Word} (H : P s) : P (State.writeFarId s sock x) := by
  unfold State.writeFarId
  repeat' first
    | with_reducible assumption
    | with_reducible refine K.pkg _ _ _ ?_
    | dsimp only
    | split

theorem keep_fabricWrite (K : Far P) {s : State} {sock off : Nat} {x : Word} (H : P s) : P (State.fabricWrite s sock off x) := by
  unfold State.fabricWrite
  repeat' first
    | with_reducible assumption
    | with_reducible refine keep_writeFabPort K ?_
    | with_reducible refine keep_writeFarId K ?_
    | with_reducible refine K.pkg _ _ _ ?_
    | dsimp only
    | split

theorem keep_releaseCore (K : Steady P) {s : State} {sock : Nat} {x : Word} (H : P s) : P (State.releaseCore s sock x) := by
  unfold State.releaseCore
  repeat' first
    | with_reducible assumption
    | with_reducible refine K.toFar.pkg _ _ _ ?_
    | with_reducible refine K.modCtx ?_ _ (by intro x hx; first | exact hx | exact aligned_pcOf _ | (with_reducible simpa using hx) | (dsimp only; (repeat' split) <;> first | exact hx | exact aligned_pcOf _))
    | with_reducible refine K.core _ _ _ ?_ (by intro hx; first | exact hx | (dsimp only; split <;> exact hx))
    | dsimp only
    | split

theorem keep_attestAppend (K : Far P) {s : State} {sock : Nat} {type : BitVec 8} (H : P s) : P (State.attestAppend s sock type) := by
  unfold State.attestAppend
  repeat' first
    | with_reducible assumption
    | with_reducible refine K.pkg _ _ _ ?_

theorem keep_attestSign (K : Far P) {s : State} {sock : Nat} (H : P s) : P (State.attestSign s sock) := by
  unfold State.attestSign
  repeat' first
    | with_reducible assumption
    | with_reducible refine K.pkg _ _ _ ?_

theorem keep_attestSigned (K : Far P) {s : State} {sock : Nat} (H : P s) : P (State.attestSigned s sock) := by
  unfold State.attestSigned
  repeat' first
    | with_reducible assumption
    | with_reducible refine K.pkg _ _ _ ?_

theorem keep_bootWrite (K : Steady P) {s : State} {sock off : Nat} {x : Word} (H : P s) : P (State.bootWrite s sock off x) := by
  unfold State.bootWrite
  repeat' first
    | with_reducible assumption
    | with_reducible refine keep_releaseCore K ?_
    | with_reducible refine keep_attestAppend K.toFar ?_
    | with_reducible refine keep_attestSign K.toFar ?_
    | with_reducible refine K.toFar.pkg _ _ _ ?_
    | dsimp only
    | split

theorem keep_hostPortWrite (K : Far P) {s : State} {sock off : Nat} {x : Word} (H : P s) : P (State.hostPortWrite s sock off x) := by
  unfold State.hostPortWrite
  repeat' first
    | with_reducible assumption
    | with_reducible refine K.pkg _ _ _ ?_
    | dsimp only
    | split

theorem keep_dbgDataWrite (K : Steady P) {s : State} {core : Nat} {x : Word} (H : P s) : P (State.dbgDataWrite s core x) := by
  unfold State.dbgDataWrite
  repeat' first
    | with_reducible assumption
    | with_reducible refine keep_regWrite K ?_
    | with_reducible refine keep_supWrite K ?_
    | dsimp only
    | split

theorem keep_dbgCtlWrite (K : Steady P) {s : State} {core : Nat} {x : Word} (H : P s) : P (State.dbgCtlWrite s core x) := by
  unfold State.dbgCtlWrite
  repeat' first
    | with_reducible assumption
    | with_reducible refine keep_debugStop K ?_
    | with_reducible refine keep_debugResume K ?_
    | with_reducible refine K.core _ _ _ ?_ (by intro hx; first | exact hx | (dsimp only; split <;> exact hx))
    | with_reducible refine foldl_keeps (p := P) (fun s a H => ?_) _ ?_
    | dsimp only
    | split

theorem keep_debugWrite (K : Steady P) {s : State} {core off : Nat} {x : Word} (H : P s) : P (State.debugWrite s core off x) := by
  unfold State.debugWrite
  repeat' first
    | with_reducible assumption
    | with_reducible refine keep_dbgDataWrite K ?_
    | with_reducible refine keep_dbgCtlWrite K ?_
    | with_reducible refine K.core _ _ _ ?_ (by intro hx; first | exact hx | (dsimp only; split <;> exact hx))
    | dsimp only
    | split

theorem keep_lockLine (K : Plain P) {s : State} {line : Nat} (H : P s) : P (State.lockLine s line) := by
  unfold State.lockLine
  repeat' first
    | with_reducible assumption
    | with_reducible refine keep_recallWord K ?_
    | with_reducible refine keep_invalidateWord K ?_
    | with_reducible refine foldl_keeps (p := P) (fun s a H => ?_) _ ?_

theorem keep_dropFrame (K : Plain P) {s : State} {sock frame : Nat} (H : P s) : P (State.dropFrame s sock frame) := by
  unfold State.dropFrame
  repeat' first
    | with_reducible assumption
    | dsimp only
    | with_reducible refine K.toQuiet.records _ _ _ _ _ ?_
    | with_reducible refine K.upd _ _ _ _ _ _ _ _ _ _ ?_

theorem keep_fotSync (K : Plain P) {s : State} {sock : Nat} {x : Word} (H : P s) : P (State.fotSync s sock x) := by
  unfold State.fotSync
  repeat' first
    | with_reducible assumption
    | with_reducible refine keep_fotFill K ?_
    | with_reducible refine keep_lockLine K ?_
    | with_reducible refine keep_dropFrame K ?_
    | with_reducible refine foldl_keeps (p := P) (fun s a H => ?_) _ ?_
    | dsimp only
    | split

theorem keep_tentSync (K : Far P) {s : State} {sock : Nat} {x : Word} (H : P s) : P (State.tentSync s sock x) := by
  unfold State.tentSync
  repeat' first
    | with_reducible assumption
    | with_reducible refine keep_loadTenant K.toPlain ?_
    | with_reducible refine keep_loadTenant_eq K.toPlain ?_ (by assumption)
    | with_reducible refine keep_forceTenant K ?_
    | with_reducible refine K.toQuiet.modEfc ?_ _ _
    | with_reducible refine foldl_keeps (p := P) (fun s a H => ?_) _ ?_
    | dsimp only
    | split

theorem keep_devRead (K : Quiet P) {s : State} {pa n : Nat} (H : P s) : P (State.devRead s pa n).2 := by
  unfold State.devRead
  repeat' first
    | with_reducible assumption
    | with_reducible refine keep_draw K ?_
    | with_reducible refine keep_draw_eq K ?_ (by assumption)
    | dsimp only
    | split

theorem keep_devRead_eq (K : Quiet P) {s t : State} {pa n : Nat} {y : Word} (H : P s) (E : State.devRead s pa n = (y, t)) : P t := by
  have z := keep_devRead K H (s := s) (pa := pa) (n := n)
  rw [E] at z; exact z

theorem keep_devWrite (K : Steady P) {s : State} {pa n : Nat} {x : Word} (H : P s) : P (State.devWrite s pa n x) := by
  unfold State.devWrite
  repeat' first
    | with_reducible assumption
    | with_reducible refine keep_fabricWrite K.toFar ?_
    | with_reducible refine keep_bootWrite K ?_
    | with_reducible refine keep_hostPortWrite K.toFar ?_
    | with_reducible refine keep_debugWrite K ?_
    | with_reducible refine keep_fotSync K.toPlain ?_
    | with_reducible refine keep_tentSync K.toFar ?_
    | with_reducible refine K.toQuiet.modEfc ?_ _ _
    | dsimp only
    | split
    | with_reducible refine K.toQuiet.records _ _ _ _ _ ?_
    | with_reducible refine K.toPlain.upd _ _ _ _ _ _ _ _ _ _ ?_

theorem keep_writeLate (K : Plain P) {s : State} {a : Agent} {pol : Pol} {pa n : Nat} {x : Word} {rel : Option Scope} (H : P s) : P (State.writeLate s a pol pa n x rel) := by
  unfold State.writeLate
  repeat' first
    | with_reducible assumption
    | with_reducible refine keep_lostWrite K ?_
    | with_reducible refine keep_deadLetter K ?_
    | with_reducible refine keep_writeBytes K ?_
    | with_reducible refine (keep_writeBytes K ?_).ok (by assumption)
    | with_reducible refine (keep_writeBytes K ?_).error (by assumption)
    | dsimp only
    | split

theorem keep_writeRunLate (K : Plain P) {s : State} {a : Agent} {pol : Pol} {pa : Nat} {bytes : List (BitVec 8)} {rel : Option Scope} (H : P s) : P (State.writeRunLate s a pol pa bytes rel) := by
  unfold State.writeRunLate
  repeat' first
    | with_reducible assumption
    | with_reducible refine keep_writeLate K ?_
    | with_reducible refine foldl_keeps (p := P) (fun s a H => ?_) _ ?_
    | with_reducible refine foldl_fst_keeps (p := P) (fun q a H => ?_) _ ?_

theorem keep_releaseAt (K : Plain P) {s : State} {a : Agent} {sc : Scope} (H : P s) : P (State.releaseAt s a sc) := by
  unfold State.releaseAt
  repeat' first
    | with_reducible assumption
    | with_reducible refine keep_drainAll K ?_
    | dsimp only
    | split

theorem keep_drainRun (K : Plain P) {s : State} {a : Agent} {pa n : Nat} (H : P s) : P (State.drainRun s a pa n) := by
  unfold State.drainRun
  repeat' first
    | with_reducible assumption
    | with_reducible refine keep_drainWord K ?_
    | with_reducible refine foldl_keeps (p := P) (fun s a H => ?_) _ ?_

theorem keep_drainPieces (K : Plain P) {s : State} {a : Agent} {ps : List Piece} {ctr : Option Nat} (H : P s) : P (State.drainPieces s a ps ctr) := by
  unfold State.drainPieces
  repeat' first
    | with_reducible assumption
    | with_reducible refine keep_drainRun K ?_
    | with_reducible refine foldl_keeps (p := P) (fun s a H => ?_) _ ?_

theorem keep_versionStep (K : Plain P) {s : State} {a : Agent} {pa : Nat} {sc : Scope} (H : P s) : P (State.versionStep s a pa sc) := by
  unfold State.versionStep
  repeat' first
    | with_reducible assumption
    | with_reducible refine keep_lostWrite K ?_
    | with_reducible refine keep_deadLetter K ?_
    | with_reducible refine keep_clAtomic K ?_
    | with_reducible refine (keep_clAtomic K ?_).ok (by assumption)
    | with_reducible refine (keep_clAtomic K ?_).error (by assumption)
    | with_reducible refine keep_releaseAt K ?_
    | dsimp only
    | split

theorem keep_drainEntry (K : Plain P) {s : State} {e : Nat} {d : TileDrain} (H : P s) : P (State.drainEntry s e d) := by
  unfold State.drainEntry
  repeat' first
    | with_reducible assumption
    | with_reducible refine keep_writeRunLate K ?_
    | with_reducible refine keep_releaseAt K ?_
    | with_reducible refine keep_versionStep K ?_
    | with_reducible refine foldl_keeps (p := P) (fun s a H => ?_) _ ?_
    | dsimp only
    | split

theorem keep_drainOldest (K : Steady P) {s : State} {e : Nat} (H : P s) : P (State.drainOldest s e) := by
  unfold State.drainOldest
  repeat' first
    | with_reducible assumption
    | with_reducible refine keep_drainEntry K.toPlain ?_
    | with_reducible refine K.modEngine ?_ _ _
    | dsimp only
    | split

theorem keep_drainMany (K : Steady P) {e n : Nat} {s : State} (H : P s) : P (drainMany e n s) := by
  induction n generalizing s with
  | zero => exact H
  | succ n ih => exact ih (keep_drainOldest K H)

theorem keep_drainThread (K : Steady P) {s : State} {cl tcb : Nat} (H : P s) : P (State.drainThread s cl tcb) := by
  unfold State.drainThread
  repeat' first
    | with_reducible assumption
    | with_reducible refine keep_drainMany K ?_
    | with_reducible refine foldl_keeps (p := P) (fun s a H => ?_) _ ?_
    | dsimp only
    | split

theorem keep_performStore (K : Steady P) {s : State} {p : PendingStore} (H : P s) : P (State.performStore s p) := by
  unfold State.performStore
  repeat' first
    | with_reducible assumption
    | with_reducible refine keep_lostWrite K.toPlain ?_
    | with_reducible refine keep_visit K.toPlain ?_
    | with_reducible refine keep_devWrite K ?_
    | with_reducible refine keep_writeLate K.toPlain ?_
    | with_reducible refine keep_releaseAt K.toPlain ?_
    | with_reducible refine keep_drainThread K ?_
    | dsimp only
    | split

theorem keep_performOldest (K : Steady P) {s : State} {core : Nat} (H : P s) : P (State.performOldest s core) := by
  unfold State.performOldest
  repeat' first
    | with_reducible assumption
    | with_reducible refine keep_performStore K ?_
    | with_reducible refine K.core _ _ _ ?_ (by intro hx; first | exact hx | (dsimp only; split <;> exact hx))
    | dsimp only
    | split

theorem keep_performMany (K : Steady P) {core n : Nat} {s : State} (H : P s) : P (performMany core n s) := by
  induction n generalizing s with
  | zero => exact H
  | succ n ih => exact ih (keep_performOldest K H)

theorem keep_flushStores (K : Steady P) {s : State} {c : Nat} (H : P s) : P (State.flushStores s c) := by
  unfold State.flushStores
  repeat' first
    | with_reducible assumption
    | with_reducible refine keep_performMany K ?_
    | dsimp only
    | split

theorem keep_waitOwn (K : Steady P) {s : State} {c pa n : Nat} (H : P s) : P (State.waitOwn s c pa n) := by
  unfold State.waitOwn
  repeat' first
    | with_reducible assumption
    | with_reducible refine keep_drainThread K ?_
    | with_reducible refine keep_flushStores K ?_
    | dsimp only
    | split

theorem keep_releaseWait (K : Steady P) {s : State} {c : Nat} {sc : Scope} (H : P s) : P (State.releaseWait s c sc) := by
  unfold State.releaseWait
  repeat' first
    | with_reducible assumption
    | with_reducible refine keep_releaseAt K.toPlain ?_
    | with_reducible refine keep_drainThread K ?_
    | with_reducible refine keep_flushStores K ?_

theorem keep_waitRelease (K : Steady P) {s : State} {ord : Order} {sc : Scope} (H : P s) : P (State.waitRelease s ord sc) := by
  unfold State.waitRelease
  repeat' first
    | with_reducible assumption
    | with_reducible refine keep_releaseWait K ?_
    | dsimp only
    | split

theorem keep_queuePending (K : Steady P) {s : State} {pa n : Nat} {x : Word} {pol : Pol} {rel : Option Scope} (H : P s) : P (State.queuePending s pa n x pol rel) := by
  unfold State.queuePending
  repeat' first
    | with_reducible assumption
    | with_reducible refine K.core _ _ _ ?_ (by intro hx; first | exact hx | (dsimp only; split <;> exact hx))

theorem keep_aligned (K : Quiet P) {s : State} {va : Word} {n : Nat} {kind : AccessKind} {pol : Option Pol} (H : P s) : Holds P (aligned va n kind pol) s := by
  unfold aligned
  repeat' first
    | with_reducible assumption
    | with_reducible refine holds_get_bind ?_
    | with_reducible refine holds_pure_bind ?_
    | with_reducible refine holds_bind ?_ (fun a t H => ?_)
    | with_reducible refine holds_pure _ ?_
    | with_reducible refine holds_get ?_
    | with_reducible refine holds_trapIf _ _ ?_

theorem keep_readDevice (K : Plain P) {s : State} {pa n : Nat} (H : P s) : Holds P (readDevice pa n) s :=
  keep_devRead K.toQuiet (keep_visit K H)

theorem keep_loadValue (K : Steady P) {s : State} {va : Word} {n : Nat} {pol : Pol} {ord : Order} {sc : Scope} (H : P s) : Holds P (loadValue va n pol ord sc) s := by
  unfold loadValue
  repeat' first
    | with_reducible assumption
    | with_reducible refine holds_guarded ?_ ?_
    | with_reducible refine keep_acquireAt K.toPlain ?_
    | with_reducible refine keep_readBytes K.toPlain ?_
    | with_reducible refine keep_note K ?_
    | with_reducible refine keep_xlate K.toPlain ?_
    | with_reducible refine keep_devCheck K.toQuiet ?_
    | with_reducible refine keep_waitOwn K ?_
    | with_reducible refine keep_aligned K.toQuiet ?_
    | with_reducible refine keep_readDevice K.toPlain ?_
    | with_reducible refine holds_get_bind ?_
    | with_reducible refine holds_modify_bind ?_
    | with_reducible refine holds_pure_bind ?_
    | with_reducible refine holds_bind ?_ (fun a t H => ?_)
    | with_reducible refine holds_pure _ ?_
    | with_reducible refine holds_get ?_
    | with_reducible refine holds_modify ?_
    | with_reducible refine holds_lift ?_
    | dsimp only
    | split

theorem keep_loadReg (K : Steady P) {s : State} {d : Reg} {va : Word} {z : BitVec 2} {sign : Bool} {pol : Pol} {ord : Order} {sc : Scope} (H : P s) : Holds P (loadReg d va z sign pol ord sc) s := by
  unfold loadReg
  repeat' first
    | with_reducible assumption
    | with_reducible refine keep_writeG K ?_
    | with_reducible refine keep_loadValue K ?_
    | with_reducible refine holds_get_bind ?_
    | with_reducible refine holds_modify_bind ?_
    | with_reducible refine holds_pure_bind ?_
    | with_reducible refine holds_bind ?_ (fun a t H => ?_)
    | with_reducible refine holds_pure _ ?_
    | with_reducible refine holds_get ?_
    | with_reducible refine holds_modify ?_

theorem keep_storeReg (K : Steady P) {s : State} {t : Reg} {va : Word} {z : BitVec 2} {pol : Pol} {ord : Order} {sc : Scope} (H : P s) : Holds P (storeReg t va z pol ord sc) s := by
  unfold storeReg
  repeat' first
    | with_reducible assumption
    | with_reducible refine holds_guarded ?_ ?_
    | with_reducible refine keep_note K ?_
    | with_reducible refine keep_xlate K.toPlain ?_
    | with_reducible refine keep_devCheck K.toQuiet ?_
    | with_reducible refine keep_waitRelease K ?_
    | with_reducible refine keep_queuePending K ?_
    | with_reducible refine keep_aligned K.toQuiet ?_
    | with_reducible refine holds_get_bind ?_
    | with_reducible refine holds_modify_bind ?_
    | with_reducible refine holds_pure_bind ?_
    | with_reducible refine holds_bind ?_ (fun a t H => ?_)
    | with_reducible refine holds_pure _ ?_
    | with_reducible refine holds_get ?_
    | with_reducible refine holds_modify ?_

theorem keep_xlateRun (K : Plain P) {s : State} {va : Word} {n : Nat} {kind : AccessKind} {pol : Pol} (H : P s) : Holds P (xlateRun va n kind pol) s := by
  unfold xlateRun
  repeat' first
    | with_reducible assumption
    | with_reducible refine keep_xlate K ?_
    | with_reducible refine holds_get_bind ?_
    | with_reducible refine holds_pure_bind ?_
    | with_reducible refine holds_bind ?_ (fun a t H => ?_)
    | with_reducible refine holds_pure _ ?_
    | with_reducible refine holds_get ?_
    | with_reducible refine holds_mapM (fun a t H => ?_) _ ?_

theorem keep_runNotDevice (K : Quiet P) {s : State} {parts : List (Word × Nat × Nat)} {kind : AccessKind} {pol : Pol} (H : P s) : Holds P (runNotDevice parts kind pol) s := by
  unfold runNotDevice
  repeat' first
    | with_reducible assumption
    | with_reducible refine keep_notDevice K ?_
    | with_reducible refine holds_get_bind ?_
    | with_reducible refine holds_pure_bind ?_
    | with_reducible refine holds_bind ?_ (fun a t H => ?_)
    | with_reducible refine holds_pure _ ?_
    | with_reducible refine holds_get ?_
    | dsimp only
    | split

theorem keep_grantTiles (K : Steady P) {e : Nat} {l : List Issue} {s : State} (H : P s) : P (grantTiles e l s) := by
  induction l generalizing s with
  | nil => exact H
  | cons i l ih =>
    unfold grantTiles
    dsimp only
    split
    · exact ih (K.modEngine H _ _)
    · exact ih H

theorem keep_modBinding (K : Steady P) {s : State} {e b : Nat} {f : Binding → Binding} (H : P s) : P (State.modBinding s e b f) := by
  unfold State.modBinding
  repeat' first
    | with_reducible assumption
    | with_reducible refine K.modEngine ?_ _ _

theorem keep_setAccTile (K : Steady P) {s : State} {e b : Nat} {n : BitVec 2} {k : Nat} {t : AccTile} (H : P s) : P (State.setAccTile s e b n k t) := by
  unfold State.setAccTile
  repeat' first
    | with_reducible assumption
    | with_reducible refine keep_modBinding K ?_
    | with_reducible refine K.modEngine ?_ _ _

theorem keep_setOpTile (K : Steady P) {s : State} {e b : Nat} {n : BitVec 3} {k : Nat} {t : OpTile} (H : P s) : P (State.setOpTile s e b n k t) := by
  unfold State.setOpTile
  repeat' first
    | with_reducible assumption
    | with_reducible refine keep_modBinding K ?_
    | with_reducible refine K.modEngine ?_ _ _

theorem keep_dropBinding (K : Steady P) {s : State} {e b : Nat} (H : P s) : P (State.dropBinding s e b) := by
  unfold State.dropBinding
  repeat' first
    | with_reducible assumption
    | with_reducible refine K.modEngine ?_ _ _

theorem keep_spill (K : Steady P) {s : State} {e b : Nat} (H : P s) : P (State.spill s e b) := by
  unfold State.spill
  repeat' first
    | with_reducible assumption
    | with_reducible refine keep_readUnit K.toPlain ?_
    | with_reducible refine keep_readUnit_eq K.toPlain ?_ (by assumption)
    | with_reducible refine keep_writeUnit K.toPlain ?_
    | with_reducible refine keep_setTcb K.toPlain ?_
    | with_reducible refine keep_dropBinding K ?_
    | with_reducible refine foldl_keeps (p := P) (fun s a H => ?_) _ ?_
    | with_reducible refine foldl_fst_keeps (p := P) (fun q a H => ?_) _ ?_

theorem keep_releaseBinding (K : Steady P) {s : State} {cl tcb : Nat} (H : P s) : P (State.releaseBinding s cl tcb) := by
  unfold State.releaseBinding
  repeat' first
    | with_reducible assumption
    | with_reducible refine keep_setTcb K.toPlain ?_
    | with_reducible refine keep_dropBinding K ?_
    | dsimp only
    | split

theorem keep_detach (K : Steady P) {s : State} {tcb : Nat} (H : P s) : P (State.detach s tcb) := by
  unfold State.detach
  repeat' first
    | with_reducible assumption
    | with_reducible refine keep_modBinding K ?_
    | dsimp only
    | split
    | with_reducible refine K.toQuiet.records _ _ _ _ _ ?_
    | with_reducible refine K.toPlain.upd _ _ _ _ _ _ _ _ _ _ ?_

theorem keep_bind (K : Steady P) {s : State} {e tcb : Nat} {tiles : List AccTile × List OpTile} (H : P s) : P (State.bind s e tcb tiles) := by
  unfold State.bind
  repeat' first
    | with_reducible assumption
    | with_reducible refine keep_setTcb K.toPlain ?_
    | with_reducible refine K.modEngine ?_ _ _

theorem aligned_vacant : Aligned Context.vacant.pc := by unfold Aligned; decide

theorem aligned_restored (s : State) (cl tcb : Nat) : Aligned (s.restored cl tcb).pc := aligned_pcOf _

theorem keep_setQueue (K : Steady P) {s : State} {cl q : Nat} {l : List Nat} (H : P s) : P (State.setQueue s cl q l) := by
  unfold State.setQueue
  repeat' first
    | with_reducible assumption
    | with_reducible refine K.clu _ _ _ ?_

theorem keep_append (K : Steady P) {s : State} {cl q tcb : Nat} (H : P s) : P (State.append s cl q tcb) := by
  unfold State.append
  repeat' first
    | with_reducible assumption
    | with_reducible refine keep_setTcb K.toPlain ?_
    | with_reducible refine keep_setQueue K ?_
    | dsimp only
    | split

theorem keep_unlink (K : Steady P) {s : State} {cl q tcb : Nat} (H : P s) : P (State.unlink s cl q tcb) := by
  unfold State.unlink
  repeat' first
    | with_reducible assumption
    | with_reducible refine keep_relink K.toPlain ?_
    | with_reducible refine keep_walk K.toPlain ?_
    | with_reducible refine keep_setQueue K ?_
    | with_reducible refine K.clu _ _ _ ?_
    | dsimp only
    | split

theorem keep_readHeaders (K : Plain P) {s : State} {cl : Nat} {tcbs : List Nat} (H : P s) : P (State.readHeaders s cl tcbs) := by
  unfold State.readHeaders
  repeat' first
    | with_reducible assumption
    | with_reducible refine keep_readUnit K ?_
    | with_reducible refine keep_readUnit_eq K ?_ (by assumption)
    | with_reducible refine foldl_keeps (p := P) (fun s a H => ?_) _ ?_

theorem keep_lookOver (K : Plain P) {s : State} {cl : Nat} (H : P s) : P (State.lookOver s cl) := by
  unfold State.lookOver
  repeat' first
    | with_reducible assumption
    | with_reducible refine keep_readHeaders K ?_

theorem keep_enqueue (K : Steady P) {s : State} {cl tcb : Nat} (H : P s) : P (State.enqueue s cl tcb) := by
  unfold State.enqueue
  repeat' first
    | with_reducible assumption
    | with_reducible refine keep_setTstate K.toPlain ?_
    | with_reducible refine keep_append K ?_
    | with_reducible refine keep_readHeaders K.toPlain ?_

theorem keep_demote (K : Steady P) {cl q n : Nat} {s : State} (H : P s) : P (demote cl q n s) := by
  induction n generalizing s with
  | zero => exact H
  | succ n ih =>
    unfold demote
    split
    · exact H
    · split
      · exact ih (K.clu _ _ _ (keep_append K (keep_unlink K H)))
      · exact H

theorem keep_demoteAll (K : Steady P) {s : State} {cl : Nat} (H : P s) : P (State.demoteAll s cl) := by
  unfold State.demoteAll
  repeat' first
    | with_reducible assumption
    | with_reducible refine keep_demote K ?_
    | with_reducible refine foldl_keeps (p := P) (fun s a H => ?_) _ ?_

theorem keep_takeQuantum (K : Plain P) {s : State} {sock : Nat} {tno : BitVec 12} {prio : Nat} (H : P s) : P (State.takeQuantum s sock tno prio).2 := by
  unfold State.takeQuantum
  repeat' first
    | with_reducible assumption
    | with_reducible refine keep_readTable K ?_
    | with_reducible refine keep_readTable_eq K ?_ (by assumption)
    | dsimp only
    | split

theorem keep_takeQuantum_eq (K : Plain P) {s t : State} {sock : Nat} {tno : BitVec 12} {prio : Nat} {y : Nat} (H : P s) (E : State.takeQuantum s sock tno prio = (y, t)) : P t := by
  have z := keep_takeQuantum K H (s := s) (sock := sock) (tno := tno) (prio := prio)
  rw [E] at z; exact z

theorem keep_holdEnds (K : Far P) {s : State} {c : Nat} (H : P s) : P (State.holdEnds s c) := by
  unfold State.holdEnds
  repeat' first
    | with_reducible assumption
    | with_reducible refine K.pkg _ _ _ ?_

theorem keep_save (K : Steady P) {s : State} {c tstate : Nat} (H : P s) : P (State.save s c tstate) := by
  unfold State.save
  repeat' first
    | with_reducible assumption
    | with_reducible refine keep_settle K ?_
    | with_reducible refine keep_setTcb K.toPlain ?_
    | with_reducible refine keep_setTstate K.toPlain ?_
    | with_reducible refine keep_squash K ?_
    | with_reducible refine keep_releaseWait K ?_
    | with_reducible refine keep_detach K ?_
    | with_reducible refine keep_holdEnds K.toFar ?_
    | with_reducible refine K.ctx _ _ _ ?_ ?_
    | with_reducible exact aligned_vacant
    | with_reducible exact aligned_restored _ _ _
    | with_reducible refine foldl_keeps (p := P) (fun s a H => ?_) _ ?_
    | with_reducible refine foldl_fst_keeps (p := P) (fun q a H => ?_) _ ?_
    | dsimp only
    | split
    | with_reducible refine K.toQuiet.records _ _ _ _ _ ?_
    | with_reducible refine K.toPlain.upd _ _ _ _ _ _ _ _ _ _ ?_
    | with_reducible refine K.own _ _ _ _ _ _ _ _ _ _ _ ?_

theorem keep_dropFence (K : Steady P) {s : State} {tcb : Nat} (H : P s) : P (State.dropFence s tcb) := by
  unfold State.dropFence
  repeat' first
    | with_reducible assumption
    | dsimp only
    | with_reducible refine K.toQuiet.records _ _ _ _ _ ?_
    | with_reducible refine K.toPlain.upd _ _ _ _ _ _ _ _ _ _ ?_
    | with_reducible refine K.own _ _ _ _ _ _ _ _ _ _ _ ?_

theorem keep_place (K : Steady P) {s : State} {cl q tcb c : Nat} (H : P s) : P (State.place s cl q tcb c) := by
  unfold State.place
  repeat' first
    | with_reducible assumption
    | with_reducible refine keep_dispatchEvent K.toQuiet ?_
    | with_reducible refine keep_discardU K.toPlain ?_
    | with_reducible refine keep_readUnit K.toPlain ?_
    | with_reducible refine keep_readUnit_eq K.toPlain ?_ (by assumption)
    | with_reducible refine keep_setTcb K.toPlain ?_
    | with_reducible refine keep_setTstate K.toPlain ?_
    | with_reducible refine keep_takeTrap K ?_
    | with_reducible refine keep_unlink K ?_
    | with_reducible refine keep_takeQuantum K.toPlain ?_
    | with_reducible refine keep_takeQuantum_eq K.toPlain ?_ (by assumption)
    | with_reducible refine keep_dropFence K ?_
    | with_reducible refine K.ctx _ _ _ ?_ ?_
    | with_reducible exact aligned_vacant
    | with_reducible exact aligned_restored _ _ _
    | with_reducible exact aligned_restored _ _ _
    | dsimp only
    | split
    | with_reducible refine K.toQuiet.records _ _ _ _ _ ?_
    | with_reducible refine K.toPlain.upd _ _ _ _ _ _ _ _ _ _ ?_

theorem keep_placeParty (K : Steady P) {s : State} {cl : Nat} {tcbs : List Nat} (H : P s) : P (State.placeParty s cl tcbs) := by
  unfold State.placeParty
  repeat' first
    | with_reducible assumption
    | with_reducible refine keep_place K ?_
    | with_reducible refine foldl_keeps (p := P) (fun s a H => ?_) _ ?_
    | dsimp only
    | split

theorem keep_preemptOne (K : Steady P) {s : State} {c : Nat} (H : P s) : P (State.preemptOne s c) := by
  unfold State.preemptOne
  repeat' first
    | with_reducible assumption
    | with_reducible refine keep_dispatchEvent K.toQuiet ?_
    | with_reducible refine keep_append K ?_
    | with_reducible refine keep_save K ?_
    | with_reducible refine K.clu _ _ _ ?_
    | dsimp only
    | split

theorem keep_preempt (K : Steady P) {s : State} {c : Nat} (H : P s) : P (State.preempt s c) := by
  unfold State.preempt
  repeat' first
    | with_reducible assumption
    | with_reducible refine keep_preemptOne K ?_
    | with_reducible refine foldl_keeps (p := P) (fun s a H => ?_) _ ?_
    | dsimp only
    | split

theorem keep_freeFor (K : Steady P) {cl level need n : Nat} {s : State} (H : P s) : P (freeFor cl level need n s) := by
  induction n generalizing s with
  | zero => exact H
  | succ n ih =>
    unfold freeFor
    split
    · exact H
    · split
      · exact ih (keep_preempt K H)
      · exact H

theorem keep_placeWith (K : Steady P) {s : State} {cl tcb : Nat} (H : P s) : P (State.placeWith s cl tcb) := by
  unfold State.placeWith
  repeat' first
    | with_reducible assumption
    | with_reducible refine keep_placeParty K ?_
    | with_reducible refine keep_freeFor K ?_

theorem keep_placement (K : Steady P) {s : State} {cl : Nat} (H : P s) : P (State.placement s cl) := by
  unfold State.placement
  repeat' first
    | with_reducible assumption
    | with_reducible refine keep_lookOver K.toPlain ?_
    | with_reducible refine keep_demoteAll K ?_
    | with_reducible refine keep_placeWith K ?_
    | dsimp only
    | split

theorem keep_preemption (K : Steady P) {s : State} {cl : Nat} (H : P s) : P (State.preemption s cl) := by
  unfold State.preemption
  repeat' first
    | with_reducible assumption
    | with_reducible refine keep_lookOver K.toPlain ?_
    | with_reducible refine keep_demoteAll K ?_
    | with_reducible refine keep_preempt K ?_
    | with_reducible refine keep_placeWith K ?_
    | dsimp only
    | split

theorem keep_quantumExpiry (K : Steady P) {s : State} {c : Nat} (H : P s) : P (State.quantumExpiry s c) := by
  unfold State.quantumExpiry
  repeat' first
    | with_reducible assumption
    | with_reducible refine keep_takeQuantum K.toPlain ?_
    | with_reducible refine keep_takeQuantum_eq K.toPlain ?_ (by assumption)
    | with_reducible refine keep_preempt K ?_
    | with_reducible refine K.modCtx ?_ _ (by intro x hx; first | exact hx | exact aligned_pcOf _ | (with_reducible simpa using hx) | (dsimp only; (repeat' split) <;> first | exact hx | exact aligned_pcOf _))
    | dsimp only
    | split

theorem keep_pull (K : Steady P) {s : State} {cl : Nat} (H : P s) : P (State.pull s cl) := by
  unfold State.pull
  repeat' first
    | with_reducible assumption
    | with_reducible refine keep_dispatchEvent K.toQuiet ?_
    | with_reducible refine keep_append K ?_
    | with_reducible refine keep_unlink K ?_
    | with_reducible refine keep_readHeaders K.toPlain ?_
    | with_reducible refine foldl_keeps (p := P) (fun s a H => ?_) _ ?_
    | dsimp only
    | split

theorem keep_wake (K : Steady P) {s : State} {cl tcb : Nat} (H : P s) : P (State.wake s cl tcb) := by
  unfold State.wake
  repeat' first
    | with_reducible assumption
    | with_reducible refine keep_dispatchEvent K.toQuiet ?_
    | with_reducible refine keep_readHeaders K.toPlain ?_
    | with_reducible refine keep_enqueue K ?_

theorem keep_dropSleep (K : Steady P) {s : State} {sock tcb : Nat} (H : P s) : P (State.dropSleep s sock tcb) := by
  unfold State.dropSleep
  repeat' first
    | with_reducible assumption
    | with_reducible refine keep_relink K.toPlain ?_
    | with_reducible refine K.clu _ _ _ ?_
    | with_reducible refine foldl_keeps (p := P) (fun s a H => ?_) _ ?_
    | dsimp only
    | split

theorem keep_addSleeper (K : Steady P) {s : State} {cl tcb deadline : Nat} (H : P s) : P (State.addSleeper s cl tcb deadline) := by
  unfold State.addSleeper
  repeat' first
    | with_reducible assumption
    | with_reducible refine keep_setTcb K.toPlain ?_
    | with_reducible refine K.clu _ _ _ ?_
    | dsimp only
    | split

theorem keep_sleepDeadline (K : Steady P) {s : State} {cl : Nat} (H : P s) : P (State.sleepDeadline s cl) := by
  unfold State.sleepDeadline
  repeat' first
    | with_reducible assumption
    | with_reducible refine keep_wake K ?_
    | with_reducible refine K.clu _ _ _ ?_
    | dsimp only
    | split

theorem keep_sleepWalk (K : Steady P) {s : State} {cl : Nat} (H : P s) : P (State.sleepWalk s cl) := by
  unfold State.sleepWalk
  repeat' first
    | with_reducible assumption
    | with_reducible refine keep_relink K.toPlain ?_
    | with_reducible refine keep_wake K ?_
    | with_reducible refine K.clu _ _ _ ?_
    | with_reducible refine foldl_keeps (p := P) (fun s a H => ?_) _ ?_

theorem keep_satisfy (K : Steady P) {s : State} {cl : Nat} {w : Waiter} (H : P s) : P (State.satisfy s cl w) := by
  unfold State.satisfy
  repeat' first
    | with_reducible assumption
    | with_reducible refine keep_dispatchEvent K.toQuiet ?_
    | with_reducible refine keep_unpark K ?_
    | with_reducible refine keep_readHeaders K.toPlain ?_
    | with_reducible refine keep_enqueue K ?_
    | with_reducible refine K.modCtx ?_ _ (by intro x hx; first | exact hx | exact aligned_pcOf _ | (with_reducible simpa using hx) | (dsimp only; (repeat' split) <;> first | exact hx | exact aligned_pcOf _))
    | dsimp only
    | split

theorem keep_trackedRead (K : Plain P) {s : State} {a : Agent} {pa : Nat} {sc : Scope} (H : P s) : Holds P (trackedRead a pa sc) s := by
  unfold trackedRead
  repeat' first
    | with_reducible assumption
    | with_reducible refine keep_request K ?_
    | with_reducible refine keep_ready K ?_
    | with_reducible refine keep_install K ?_
    | with_reducible refine keep_clRead K ?_
    | with_reducible refine holds_get_bind ?_
    | with_reducible refine holds_modify_bind ?_
    | with_reducible refine holds_pure_bind ?_
    | with_reducible refine holds_bind ?_ (fun a t H => ?_)
    | with_reducible refine holds_pure _ ?_
    | with_reducible refine holds_get ?_
    | with_reducible refine holds_modify ?_
    | dsimp only
    | split

theorem keep_readCounter (K : Plain P) {s : State} {cl : Nat} {e : WaitEntry} {home : Bool} (H : P s) :
    P (s.readCounter cl e home).2 := by
  have h : Holds P (if home then clRead (s.waiterAgent cl e.who) .wt e.ctr (some e.scope)
      else trackedRead (s.waiterAgent cl e.who) e.ctr e.scope) s := by
    split
    · exact keep_clRead K H
    · exact keep_trackedRead K H
  unfold State.readCounter
  dsimp only
  split
  · next E => exact h.ok E
  · next E => exact h.error E

theorem keep_readCounter_eq (K : Plain P) {s t : State} {cl : Nat} {e : WaitEntry} {home : Bool} {y : Word} (H : P s)
    (E : s.readCounter cl e home = (y, t)) : P t := by
  have z := keep_readCounter K H (s := s) (cl := cl) (e := e) (home := home)
  rw [E] at z; exact z

theorem keep_recheckEntry (K : Steady P) {s : State} {cl : Nat} {e : WaitEntry} (H : P s) : P (State.recheckEntry s cl e) := by
  unfold State.recheckEntry
  repeat' first
    | with_reducible assumption
    | with_reducible refine keep_satisfy K ?_
    | with_reducible refine keep_readCounter K.toPlain ?_
    | with_reducible refine keep_readCounter_eq K.toPlain ?_ (by assumption)
    | with_reducible refine K.clu _ _ _ ?_
    | dsimp only
    | split

theorem keep_waitRecheck (K : Steady P) {s : State} {cl line : Nat} (H : P s) : P (State.waitRecheck s cl line) := by
  unfold State.waitRecheck
  repeat' first
    | with_reducible assumption
    | with_reducible refine keep_recheckEntry K ?_
    | with_reducible refine K.clu _ _ _ ?_
    | with_reducible refine foldl_keeps (p := P) (fun s a H => ?_) _ ?_

theorem keep_walkWaiter (K : Steady P) {s : State} {cl : Nat} {e : WaitEntry} {leave : State → State} (H : P s)
    (hl : ∀ t, P t → P (leave t)) : P (s.walkWaiter cl e leave) := by
  have h := keep_readCounter K.toPlain (cl := cl) (e := e) (home := true) H
  unfold State.walkWaiter
  dsimp only
  split
  · exact keep_satisfy K (hl _ h)
  · split
    · exact keep_markRecheck K.toPlain (K.clu _ _ _ (hl _ h))
    · exact h

theorem keep_leaveOverflow (K : Steady P) {s : State} {cl tcb : Nat} (H : P s) : P (State.leaveOverflow s cl tcb) := by
  unfold State.leaveOverflow
  repeat' first
    | with_reducible assumption
    | with_reducible refine keep_relink K.toPlain ?_
    | with_reducible refine K.clu _ _ _ ?_

theorem keep_waitWalk (K : Steady P) {s : State} {cl : Nat} (H : P s) : P (s.waitWalk cl) := by
  unfold State.waitWalk
  refine foldl_keeps (p := P) (fun s t H => ?_) _ (foldl_keeps (p := P) (fun s k H => ?_) _ H)
  · exact keep_walkWaiter K (keep_readHeaders K.toPlain H) (fun _ h => keep_leaveOverflow K h)
  · split
    · exact H
    · exact keep_walkWaiter K H (fun _ h => K.core _ _ _ h id)

theorem keep_addWait (K : Steady P) {s : State} {c : Nat} {ctr : Nat} {target : Word} {sc : Scope} (H : P s) : P (State.addWait s c ctr target sc) := by
  unfold State.addWait
  repeat' first
    | with_reducible assumption
    | with_reducible refine keep_markRecheck K.toPlain ?_
    | with_reducible refine keep_setTcb K.toPlain ?_
    | with_reducible refine K.clu _ _ _ ?_
    | with_reducible refine K.core _ _ _ ?_ (by intro hx; first | exact hx | (dsimp only; split <;> exact hx))
    | dsimp only
    | split

theorem keep_leaveGroup (K : Far P) {s : State} {sock g tcb : Nat} (H : P s) : P (State.leaveGroup s sock g tcb) := by
  unfold State.leaveGroup
  repeat' first
    | with_reducible assumption
    | with_reducible refine K.pkg _ _ _ ?_

theorem keep_joinGroup (K : Far P) {s : State} {cl g tcb target : Nat} (H : P s) : P (State.joinGroup s cl g tcb target) := by
  unfold State.joinGroup
  repeat' first
    | with_reducible assumption
    | with_reducible refine K.pkg _ _ _ ?_

theorem keep_exitThread (K : Steady P) {s : State} {c : Nat} (H : P s) : P (State.exitThread s c) := by
  unfold State.exitThread
  repeat' first
    | with_reducible assumption
    | with_reducible refine keep_dropWait K ?_
    | with_reducible refine keep_releaseBinding K ?_
    | with_reducible refine keep_holdEnds K.toFar ?_
    | with_reducible refine keep_dropSleep K ?_
    | with_reducible refine keep_leaveGroup K.toFar ?_
    | with_reducible refine K.ctx _ _ _ ?_ ?_
    | with_reducible exact aligned_vacant
    | with_reducible exact aligned_restored _ _ _
    | exact K.pc _ _ H
    | dsimp only
    | split
    | with_reducible refine K.toQuiet.records _ _ _ _ _ ?_
    | with_reducible refine K.toPlain.upd _ _ _ _ _ _ _ _ _ _ ?_
    | with_reducible refine K.own _ _ _ _ _ _ _ _ _ _ _ ?_

theorem keep_stays (K : Steady P) {s : State} {cl tcb : Nat} (H : P s) : P (State.stays s cl tcb) := by
  unfold State.stays
  repeat' first
    | with_reducible assumption
    | with_reducible refine keep_walk K.toPlain ?_
    | with_reducible refine K.clu _ _ _ ?_

theorem keep_walkOn (K : Steady P) {cl : Nat} {l : List Nat} {n : Nat} {s : State} (H : P s) : P (walkOn cl l n s) := by
  induction l generalizing n s with
  | nil => unfold walkOn; exact H
  | cons t l ih =>
    unfold walkOn
    split
    · exact ih (keep_stays K H)
    · split
      · exact H
      · exact ih (keep_append K (keep_unlink K H))

theorem keep_walkStep (K : Steady P) {s : State} {cl : Nat} (H : P s) : P (State.walkStep s cl) := by
  unfold State.walkStep
  repeat' first
    | with_reducible assumption
    | with_reducible refine keep_walkOn K ?_

theorem keep_windowBoundary (K : Steady P) {s : State} {sock : Nat} (H : P s) : P (State.windowBoundary s sock) := by
  unfold State.windowBoundary
  repeat' first
    | with_reducible assumption
    | with_reducible refine keep_walk K.toPlain ?_
    | with_reducible refine keep_forceTenant K.toFar ?_
    | with_reducible refine keep_renewTenant K.toFar ?_
    | with_reducible refine keep_walkStep K ?_
    | with_reducible refine K.clu _ _ _ ?_
    | with_reducible refine K.toFar.pkg _ _ _ ?_
    | with_reducible refine foldl_keeps (p := P) (fun s a H => ?_) _ ?_
    | dsimp only
    | split

theorem keep_addTime (K : Far P) {s : State} {sock tno n : Nat} (H : P s) : P (State.addTime s sock tno n) := by
  unfold State.addTime
  repeat' first
    | with_reducible assumption
    | with_reducible refine keep_addCtr K.toQuiet ?_
    | with_reducible refine K.pkg _ _ _ ?_

theorem keep_contextTime (K : Steady P) {s : State} {sock : Nat} (H : P s) : P (State.contextTime s sock) := by
  unfold State.contextTime
  repeat' first
    | with_reducible assumption
    | with_reducible refine keep_holdEnds K.toFar ?_
    | with_reducible refine keep_walkStep K ?_
    | with_reducible refine keep_addTime K.toFar ?_
    | with_reducible refine K.toFar.pkg _ _ _ ?_
    | with_reducible refine K.modCtx ?_ _ (by intro x hx; first | exact hx | exact aligned_pcOf _ | (with_reducible simpa using hx) | (dsimp only; (repeat' split) <;> first | exact hx | exact aligned_pcOf _))
    | with_reducible refine foldl_keeps (p := P) (fun s a H => ?_) _ ?_

theorem keep_linkTake (K : Far P) {s : State} {sock port : Nat} {f : Frame} (H : P s) : P (State.linkTake s sock port f).1 := by
  unfold State.linkTake
  repeat' first
    | with_reducible assumption
    | with_reducible refine keep_putOut K.toPlain ?_
    | with_reducible refine K.pkg _ _ _ ?_
    | dsimp only
    | split

theorem keep_linkTake_eq (K : Far P) {s t : State} {sock port : Nat} {f : Frame} {y : Bool} (H : P s) (E : State.linkTake s sock port f = (t, y)) : P t := by
  have z := keep_linkTake K H (s := s) (sock := sock) (port := port) (f := f)
  rw [E] at z; exact z

theorem keep_farCount (K : Plain P) {s : State} {sock rctr n : Nat} {tno : BitVec 12} (H : P s) : P (State.farCount s sock rctr n tno) := by
  unfold State.farCount
  repeat' first
    | with_reducible assumption
    | with_reducible refine keep_serve K ?_
    | with_reducible refine (keep_serve K ?_).ok (by assumption)
    | with_reducible refine (keep_serve K ?_).error (by assumption)
    | dsimp only
    | split

theorem keep_farLand (K : Plain P) {s : State} {sock : Nat} {f : Frame} (H : P s) : P (State.farLand s sock f).1 := by
  unfold State.farLand
  repeat' first
    | with_reducible assumption
    | with_reducible refine keep_serve K ?_
    | with_reducible refine (keep_serve K ?_).ok (by assumption)
    | with_reducible refine (keep_serve K ?_).error (by assumption)
    | with_reducible refine keep_farCount K ?_
    | dsimp only
    | split

theorem keep_farLand_eq (K : Plain P) {s t : State} {sock : Nat} {f : Frame} {y : Option (BitVec 16)} (H : P s) (E : State.farLand s sock f = (t, y)) : P t := by
  have z := keep_farLand K H (s := s) (sock := sock) (f := f)
  rw [E] at z; exact z

theorem keep_sendAck (K : Far P) {s : State} {sock port : Nat} {src : BitVec 12} (H : P s) : P (State.sendAck s sock port src) := by
  unfold State.sendAck
  repeat' first
    | with_reducible assumption
    | with_reducible refine keep_sendFrame K.toPlain ?_
    | with_reducible refine K.pkg _ _ _ ?_

theorem keep_farData (K : Far P) {s : State} {sock port : Nat} {f : Frame} (H : P s) : P (State.farData s sock port f) := by
  unfold State.farData
  repeat' first
    | with_reducible assumption
    | with_reducible refine keep_sendFrame K.toPlain ?_
    | with_reducible refine keep_linkTake K ?_
    | with_reducible refine keep_linkTake_eq K ?_ (by assumption)
    | with_reducible refine keep_farLand K.toPlain ?_
    | with_reducible refine keep_farLand_eq K.toPlain ?_ (by assumption)
    | with_reducible refine keep_sendAck K ?_
    | with_reducible refine K.pkg _ _ _ ?_
    | dsimp only
    | split

theorem keep_farAcked (K : Plain P) {s : State} {sock d : Nat} {upTo : BitVec 32} (H : P s) : P (State.farAcked s sock d upTo) := by
  unfold State.farAcked
  repeat' first
    | with_reducible assumption
    | with_reducible refine keep_setFlow K ?_
    | with_reducible refine keep_sendPieces K ?_
    | dsimp only
    | split

theorem keep_farAck (K : Far P) {s : State} {sock port : Nat} {f : Frame} (H : P s) : P (State.farAck s sock port f) := by
  unfold State.farAck
  repeat' first
    | with_reducible assumption
    | with_reducible refine keep_linkTake K ?_
    | with_reducible refine keep_linkTake_eq K ?_ (by assumption)
    | with_reducible refine keep_farAcked K.toPlain ?_
    | dsimp only
    | split

theorem keep_farNak (K : Far P) {s : State} {sock port : Nat} {f : Frame} (H : P s) : P (State.farNak s sock port f) := by
  unfold State.farNak
  repeat' first
    | with_reducible assumption
    | with_reducible refine keep_sendPieces K.toPlain ?_
    | with_reducible refine keep_linkTake K ?_
    | with_reducible refine keep_linkTake_eq K ?_ (by assumption)
    | with_reducible refine keep_farAcked K.toPlain ?_
    | dsimp only
    | split

theorem keep_farRefuse (K : Far P) {s : State} {sock port : Nat} {f : Frame} (H : P s) : P (State.farRefuse s sock port f) := by
  unfold State.farRefuse
  repeat' first
    | with_reducible assumption
    | with_reducible refine keep_deadLetter K.toPlain ?_
    | with_reducible refine keep_setFlow K.toPlain ?_
    | with_reducible refine keep_sendPieces K.toPlain ?_
    | with_reducible refine keep_linkTake K ?_
    | with_reducible refine keep_linkTake_eq K ?_ (by assumption)
    | dsimp only
    | split

theorem keep_farExpire (K : Plain P) {s : State} {sock d : Nat} (H : P s) : P (State.farExpire s sock d) := by
  unfold State.farExpire
  repeat' first
    | with_reducible assumption
    | with_reducible refine keep_setFlow K ?_
    | with_reducible refine keep_sendPieces K ?_
    | with_reducible refine keep_loseFlow K ?_
    | dsimp only
    | split

theorem keep_ackTimer (K : Far P) {s : State} {sock : Nat} (H : P s) : P (State.ackTimer s sock) := by
  unfold State.ackTimer
  repeat' first
    | with_reducible assumption
    | with_reducible refine keep_sendAck K ?_
    | with_reducible refine foldl_keeps (p := P) (fun s a H => ?_) _ ?_
    | dsimp only
    | split

theorem keep_linkLack (K : Far P) {s : State} {sock port : Nat} {f : Frame} (H : P s) : P (State.linkLack s sock port f) := by
  unfold State.linkLack
  repeat' first
    | with_reducible assumption
    | with_reducible refine K.pkg _ _ _ ?_
    | dsimp only
    | split

theorem keep_linkLnak (K : Plain P) {s : State} {sock port : Nat} {f : Frame} (H : P s) : P (State.linkLnak s sock port f) := by
  unfold State.linkLnak
  repeat' first
    | with_reducible assumption
    | with_reducible refine keep_putOut K ?_
    | dsimp only
    | split

theorem keep_linkTrained (K : Far P) {s : State} {sock port : Nat} (H : P s) : P (State.linkTrained s sock port) := by
  unfold State.linkTrained
  repeat' first
    | with_reducible assumption
    | with_reducible refine K.pkg _ _ _ ?_
    | dsimp only
    | split

theorem keep_portDown (K : Far P) {s : State} {sock port : Nat} (H : P s) : P (State.portDown s sock port) := by
  unfold State.portDown
  repeat' first
    | with_reducible assumption
    | with_reducible refine K.pkg _ _ _ ?_

theorem keep_farPortDown (K : Far P) {s : State} {sock port : Nat} (H : P s) : P (State.farPortDown s sock port) := by
  unfold State.farPortDown
  repeat' first
    | with_reducible assumption
    | with_reducible refine keep_farFallen K.toPlain ?_
    | with_reducible refine keep_portDown K ?_
    | dsimp only
    | split

theorem keep_coherentDown (K : Far P) {s : State} {sock port : Nat} (H : P s) : P (State.coherentDown s sock port) := by
  unfold State.coherentDown
  repeat' first
    | with_reducible assumption
    | with_reducible refine keep_replay K.toPlain ?_
    | with_reducible refine keep_portDown K ?_
    | dsimp only
    | split

theorem keep_enterPut (K : Steady P) {s : State} {kind : BitVec 4} {pol : Pol} {sc : Scope} {ctr : Option Nat} {n : Nat} {pieces : List Piece} (H : P s) : Holds P (enterPut kind pol sc ctr n pieces) s := by
  unfold enterPut
  repeat' first
    | with_reducible assumption
    | with_reducible refine holds_guarded ?_ ?_
    | with_reducible refine keep_drainPieces K.toPlain ?_
    | with_reducible refine keep_releaseWait K ?_
    | with_reducible refine K.clu _ _ _ ?_
    | with_reducible refine holds_get_bind ?_
    | with_reducible refine holds_set_bind ?_
    | with_reducible refine holds_modify_bind ?_
    | with_reducible refine holds_pure_bind ?_
    | with_reducible refine holds_bind ?_ (fun a t H => ?_)
    | with_reducible refine holds_pure _ ?_
    | with_reducible refine holds_throw _ ?_
    | with_reducible refine holds_get ?_
    | with_reducible refine holds_set ?_
    | with_reducible refine holds_modify ?_
    | dsimp only
    | split
    | with_reducible refine K.toQuiet.records _ _ _ _ _ ?_
    | with_reducible refine K.toPlain.upd _ _ _ _ _ _ _ _ _ _ ?_

theorem keep_xlateCounter (K : Plain P) {s : State} {cva : Word} {pol : Pol} (H : P s) : Holds P (xlateCounter cva pol) s := by
  unfold xlateCounter
  repeat' first
    | with_reducible assumption
    | with_reducible refine keep_xlate K ?_
    | with_reducible refine holds_get_bind ?_
    | with_reducible refine holds_pure_bind ?_
    | with_reducible refine holds_bind ?_ (fun a t H => ?_)
    | with_reducible refine holds_pure _ ?_
    | with_reducible refine holds_get ?_
    | dsimp only
    | split

theorem keep_counterNotDevice (K : Quiet P) {s : State} {cva : Word} {cpa : Nat} {pol : Pol} (H : P s) : Holds P (counterNotDevice cva cpa pol) s := by
  unfold counterNotDevice
  repeat' first
    | with_reducible assumption
    | with_reducible refine keep_notDevice K ?_
    | with_reducible refine holds_get_bind ?_
    | with_reducible refine holds_pure_bind ?_
    | with_reducible refine holds_bind ?_ (fun a t H => ?_)
    | with_reducible refine holds_pure _ ?_
    | with_reducible refine holds_get ?_
    | dsimp only
    | split

theorem keep_readSource (K : Plain P) {s : State} {parts : List (Word × Nat × Nat)} {pol : Pol} (H : P s) : Holds P (readSource parts pol) s := by
  unfold readSource
  repeat' first
    | with_reducible assumption
    | with_reducible refine keep_readBytes K ?_
    | with_reducible refine holds_get_bind ?_
    | with_reducible refine holds_pure_bind ?_
    | with_reducible refine holds_bind ?_ (fun a t H => ?_)
    | with_reducible refine holds_pure _ ?_
    | with_reducible refine holds_get ?_
    | with_reducible refine holds_mapM (fun a t H => ?_) _ ?_
    | with_reducible refine holds_lift ?_

theorem keep_waitRun (K : Steady P) {s : State} {parts : List (Word × Nat × Nat)} (H : P s) : Holds P (waitRun parts) s := by
  unfold waitRun
  repeat' first
    | with_reducible assumption
    | with_reducible refine keep_waitOwn K ?_
    | with_reducible refine foldl_keeps (p := P) (fun s a H => ?_) _ ?_
    | with_reducible refine holds_get_bind ?_
    | with_reducible refine holds_modify_bind ?_
    | with_reducible refine holds_pure_bind ?_
    | with_reducible refine holds_bind ?_ (fun a t H => ?_)
    | with_reducible refine holds_pure _ ?_
    | with_reducible refine holds_get ?_
    | with_reducible refine holds_modify ?_

theorem keep_execPut (K : Steady P) {s : State} {d a l : Reg} {pol : Pol} {sc : Scope} {c : Reg} (H : P s) : Ends P (execPut d a l pol sc c s) := by
  unfold execPut
  repeat' first
    | with_reducible assumption
    | with_reducible refine keep_note K ?_
    | with_reducible refine keep_aligned K.toQuiet ?_
    | with_reducible refine keep_xlateRun K.toPlain ?_
    | with_reducible refine keep_runNotDevice K.toQuiet ?_
    | with_reducible refine keep_enterPut K ?_
    | with_reducible refine keep_xlateCounter K.toPlain ?_
    | with_reducible refine keep_counterNotDevice K.toQuiet ?_
    | with_reducible refine keep_readSource K.toPlain ?_
    | with_reducible refine keep_waitRun K ?_
    | with_reducible refine ends_next ?_
    | with_reducible refine ends_runAct K ?_ (fun t H => ?_)
    | with_reducible refine holds_get_bind ?_
    | with_reducible refine holds_pure_bind ?_
    | with_reducible refine holds_bind ?_ (fun a t H => ?_)
    | with_reducible refine holds_pure _ ?_
    | with_reducible refine holds_get ?_
    | with_reducible refine holds_trapIf _ _ ?_
    | with_reducible refine ends_of ?_ (by assumption)
    | dsimp only
    | split

theorem keep_execPutV (K : Steady P) {s : State} {d v : Reg} {pol : Pol} {sc : Scope} {c : Reg} (H : P s) : Ends P (execPutV d v pol sc c s) := by
  unfold execPutV
  repeat' first
    | with_reducible assumption
    | with_reducible refine keep_note K ?_
    | with_reducible refine keep_aligned K.toQuiet ?_
    | with_reducible refine keep_xlateRun K.toPlain ?_
    | with_reducible refine keep_runNotDevice K.toQuiet ?_
    | with_reducible refine keep_enterPut K ?_
    | with_reducible refine keep_xlateCounter K.toPlain ?_
    | with_reducible refine keep_counterNotDevice K.toQuiet ?_
    | with_reducible refine keep_waitRun K ?_
    | with_reducible refine ends_next ?_
    | with_reducible refine ends_runAct K ?_ (fun t H => ?_)
    | with_reducible refine holds_get_bind ?_
    | with_reducible refine holds_pure_bind ?_
    | with_reducible refine holds_bind ?_ (fun a t H => ?_)

theorem keep_copyRoom (K : Steady P) {s : State} (H : P s) : Holds P (copyRoom ) s := by
  unfold copyRoom
  repeat' first
    | with_reducible assumption
    | with_reducible refine K.clu _ _ _ ?_
    | with_reducible refine holds_get_bind ?_
    | with_reducible refine holds_set_bind ?_
    | with_reducible refine holds_pure_bind ?_
    | with_reducible refine holds_bind ?_ (fun a t H => ?_)
    | with_reducible refine holds_pure _ ?_
    | with_reducible refine holds_throw _ ?_
    | with_reducible refine holds_get ?_
    | with_reducible refine holds_set ?_
    | dsimp only
    | split

theorem keep_enterCopy (K : Steady P) {s : State} {rpa cursor : Nat} {ctr : Option Nat} (H : P s) : P (State.enterCopy s rpa cursor ctr) := by
  unfold State.enterCopy
  repeat' first
    | with_reducible assumption
    | with_reducible refine keep_drainPieces K.toPlain ?_
    | with_reducible refine K.clu _ _ _ ?_

theorem keep_ownWords (K : Plain P) {va : Word} {pa : Nat} {l : List Nat} {s : State} (H : P s) :
    Holds P (ownWords va pa l) s := by
  induction l generalizing s with
  | nil => exact holds_pure _ H
  | cons x l ih =>
    unfold ownWords
    with_reducible refine holds_get_bind ?_
    with_reducible refine holds_bind (holds_lift ?_) ?_
    · with_reducible exact keep_obtain K H
    · intro _ _ h; with_reducible exact ih h

theorem keep_writeWords (K : Plain P) {va : Word} {pa n : Nat} {l : List Word} {s : State} (H : P s) :
    Holds P (writeWords va pa n l) s := by
  induction l generalizing n s with
  | nil => exact holds_pure _ H
  | cons x l ih =>
    unfold writeWords
    with_reducible refine holds_get_bind ?_
    with_reducible refine holds_bind (holds_lift ?_) ?_
    · with_reducible exact keep_writeBytes K H
    · intro _ _ h; with_reducible exact ih h

theorem keep_storeWords (K : Steady P) {s : State} {pa : Nat} {xs : List Word} (H : P s) : P (State.storeWords s pa xs) := by
  unfold State.storeWords
  repeat' first
    | with_reducible assumption
    | with_reducible refine keep_queuePending K ?_
    | with_reducible refine foldl_keeps (p := P) (fun s a H => ?_) _ ?_
    | with_reducible refine foldl_fst_keeps (p := P) (fun q a H => ?_) _ ?_

theorem keep_execCopy (K : Steady P) {s : State} {r d a : Reg} {pol : Pol} {sc : Scope} {l c : Reg} (H : P s) : Ends P (execCopy r d a pol sc l c s) := by
  unfold execCopy
  repeat' first
    | with_reducible assumption
    | with_reducible refine holds_guarded ?_ ?_
    | with_reducible refine keep_note K ?_
    | with_reducible refine keep_xlate K.toPlain ?_
    | with_reducible refine keep_notDevice K.toQuiet ?_
    | with_reducible refine keep_waitOwn K ?_
    | with_reducible refine keep_releaseWait K ?_
    | with_reducible refine keep_aligned K.toQuiet ?_
    | with_reducible refine keep_xlateCounter K.toPlain ?_
    | with_reducible refine keep_counterNotDevice K.toQuiet ?_
    | with_reducible refine keep_copyRoom K ?_
    | with_reducible refine keep_enterCopy K ?_
    | with_reducible refine keep_storeWords K ?_
    | with_reducible refine ends_next ?_
    | with_reducible refine ends_runAct K ?_ (fun t H => ?_)
    | with_reducible refine holds_get_bind ?_
    | with_reducible refine holds_modify_bind ?_
    | with_reducible refine holds_pure_bind ?_
    | with_reducible refine holds_bind ?_ (fun a t H => ?_)
    | with_reducible refine holds_pure _ ?_
    | with_reducible refine holds_get ?_
    | with_reducible refine holds_modify ?_
    | with_reducible refine holds_trapIf _ _ ?_
    | with_reducible refine ends_of ?_ (by assumption)
    | dsimp only
    | split

theorem keep_queueStatus (K : Plain P) {s : State} {ra : Word} {rpa : Nat} {ctl : Word} (H : P s) : Holds P (queueStatus ra rpa ctl) s := by
  unfold queueStatus
  repeat' first
    | with_reducible assumption
    | with_reducible refine keep_clAtomic K ?_
    | with_reducible refine holds_get_bind ?_
    | with_reducible refine holds_pure_bind ?_
    | with_reducible refine holds_bind ?_ (fun a t H => ?_)
    | with_reducible refine holds_pure _ ?_
    | with_reducible refine holds_get ?_
    | with_reducible refine holds_lift ?_

theorem keep_execCopyResume (K : Steady P) {s : State} {r : Reg} (H : P s) : Ends P (execCopyResume r s) := by
  unfold execCopyResume
  repeat' first
    | with_reducible assumption
    | with_reducible refine holds_guarded ?_ ?_
    | with_reducible refine keep_readBytes K.toPlain ?_
    | with_reducible refine keep_note K ?_
    | with_reducible refine keep_xlate K.toPlain ?_
    | with_reducible refine keep_notDevice K.toQuiet ?_
    | with_reducible refine keep_waitOwn K ?_
    | with_reducible refine keep_releaseWait K ?_
    | with_reducible refine keep_aligned K.toQuiet ?_
    | with_reducible refine keep_copyRoom K ?_
    | with_reducible refine keep_enterCopy K ?_
    | with_reducible refine keep_ownWords K.toPlain ?_
    | with_reducible refine keep_writeWords K.toPlain ?_
    | with_reducible refine keep_queueStatus K.toPlain ?_
    | with_reducible refine ends_next ?_
    | with_reducible refine ends_runAct K ?_ (fun t H => ?_)
    | with_reducible refine holds_get_bind ?_
    | with_reducible refine holds_set_bind ?_
    | with_reducible refine holds_modify_bind ?_
    | with_reducible refine holds_pure_bind ?_
    | with_reducible refine holds_bind ?_ (fun a t H => ?_)
    | with_reducible refine holds_pure _ ?_
    | with_reducible refine holds_get ?_
    | with_reducible refine holds_set ?_
    | with_reducible refine holds_modify ?_
    | with_reducible refine holds_mapM (fun a t H => ?_) _ ?_
    | with_reducible refine holds_lift ?_
    | with_reducible refine holds_trapIf _ _ ?_
    | with_reducible refine ends_of ?_ (by assumption)
    | dsimp only
    | split

theorem keep_setRecord (K : Plain P) {s : State} {cl rpa k : Nat} {x : Word} (H : P s) : P (State.setRecord s cl rpa k x) := by
  unfold State.setRecord
  repeat' first
    | with_reducible assumption
    | with_reducible refine keep_writeUnit K ?_

theorem keep_setStatus (K : Plain P) {s : State} {cl rpa st : Nat} (H : P s) : P (State.setStatus s cl rpa st) := by
  unfold State.setStatus
  repeat' first
    | with_reducible assumption
    | with_reducible refine keep_setRecord K ?_

theorem keep_copyTakeUp (K : Steady P) {s : State} {cl : Nat} (H : P s) : P (State.copyTakeUp s cl) := by
  unfold State.copyTakeUp
  repeat' first
    | with_reducible assumption
    | with_reducible refine keep_readUnit K.toPlain ?_
    | with_reducible refine keep_readUnit_eq K.toPlain ?_ (by assumption)
    | with_reducible refine keep_setStatus K.toPlain ?_
    | with_reducible refine K.clu _ _ _ ?_
    | dsimp only
    | split
    | with_reducible refine K.toQuiet.records _ _ _ _ _ ?_
    | with_reducible refine K.toPlain.upd _ _ _ _ _ _ _ _ _ _ ?_

theorem keep_copyParts (K : Plain P) {s : State} {sp : Space} {va : Word} {n : Nat} {kind : AccessKind} {pol : Pol} (H : P s) : Holds P (copyParts sp va n kind pol) s := by
  unfold copyParts
  repeat' first
    | with_reducible assumption
    | with_reducible refine keep_translate K ?_
    | with_reducible refine keep_notDevice K.toQuiet ?_
    | with_reducible refine holds_get_bind ?_
    | with_reducible refine holds_pure_bind ?_
    | with_reducible refine holds_bind ?_ (fun a t H => ?_)
    | with_reducible refine holds_pure _ ?_
    | with_reducible refine holds_get ?_
    | with_reducible refine holds_mapM (fun a t H => ?_) _ ?_

theorem keep_copyFetch (K : Plain P) {s : State} {r : CopyRun} {cl n : Nat} (H : P s) : Holds P (copyFetch r cl n) s := by
  unfold copyFetch
  repeat' first
    | with_reducible assumption
    | with_reducible refine keep_readBytes K ?_
    | with_reducible refine keep_copyParts K ?_
    | with_reducible refine holds_get_bind ?_
    | with_reducible refine holds_pure_bind ?_
    | with_reducible refine holds_bind ?_ (fun a t H => ?_)
    | with_reducible refine holds_pure _ ?_
    | with_reducible refine holds_get ?_
    | with_reducible refine holds_mapM (fun a t H => ?_) _ ?_
    | with_reducible refine holds_lift ?_

theorem keep_copyStop (K : Steady P) {s : State} {cl : Nat} {r : CopyRun} {st cause : Nat} {va : Word} (H : P s) : P (State.copyStop s cl r st cause va) := by
  unfold State.copyStop
  repeat' first
    | with_reducible assumption
    | with_reducible refine keep_event K.toQuiet ?_
    | with_reducible refine keep_releaseAt K.toPlain ?_
    | with_reducible refine keep_setRecord K.toPlain ?_
    | with_reducible refine keep_setStatus K.toPlain ?_
    | with_reducible refine K.clu _ _ _ ?_
    | dsimp only
    | split
    | with_reducible refine K.toQuiet.records _ _ _ _ _ ?_
    | with_reducible refine K.toPlain.upd _ _ _ _ _ _ _ _ _ _ ?_

theorem keep_copyLine (K : Plain P) {s : State} {cl : Nat} {r : CopyRun} {landed : List (Nat × Option FarGo)} {p : Piece} (H : P s) : P (copyLine cl r s landed p).1 := by
  unfold copyLine
  repeat' first
    | with_reducible assumption
    | with_reducible refine keep_serveLate K ?_
    | with_reducible refine keep_serveLate_eq K ?_ (by assumption)
    | with_reducible refine keep_replyEnds K ?_
    | with_reducible refine keep_approach K ?_
    | with_reducible refine keep_drainRun K ?_

theorem keep_copyLine_eq (K : Plain P) {s t : State} {cl : Nat} {r : CopyRun} {landed : List (Nat × Option FarGo)} {p : Piece} {y : List (Nat × Option FarGo)} (H : P s) (E : copyLine cl r s landed p = (t, y)) : P t := by
  have z := keep_copyLine K H (s := s) (cl := cl) (r := r) (landed := landed) (p := p)
  rw [E] at z; exact z

theorem keep_copyLanded (K : Plain P) {s : State} {cl : Nat} {r : CopyRun} {landed : List (Nat × Option FarGo)} (H : P s) : P (State.copyLanded s cl r landed) := by
  unfold State.copyLanded
  repeat' first
    | with_reducible assumption
    | with_reducible refine keep_sendGo K ?_
    | with_reducible refine keep_countLanded K ?_
    | with_reducible refine foldl_keeps (p := P) (fun s a H => ?_) _ ?_
    | dsimp only
    | split

theorem keep_copyBurst (K : Steady P) {s : State} {cl : Nat} (H : P s) : P (State.copyBurst s cl) := by
  unfold State.copyBurst
  repeat' first
    | with_reducible assumption
    | with_reducible refine keep_copyFetch K.toPlain ?_
    | with_reducible refine (keep_copyFetch K.toPlain ?_).ok (by assumption)
    | with_reducible refine (keep_copyFetch K.toPlain ?_).error (by assumption)
    | with_reducible refine keep_copyStop K ?_
    | with_reducible refine keep_copyLine K.toPlain ?_
    | with_reducible refine keep_copyLine_eq K.toPlain ?_ (by assumption)
    | with_reducible refine keep_copyLanded K.toPlain ?_
    | with_reducible refine K.clu _ _ _ ?_
    | with_reducible refine foldl_keeps (p := P) (fun s a H => ?_) _ ?_
    | with_reducible refine foldl_fst_keeps (p := P) (fun q a H => ?_) _ ?_
    | dsimp only
    | split

theorem keep_reassertOne (K : Plain P) {s : State} {s0 : State} {cl : Nat} {r : Nat × Nat × Nat} (H : P s) : P (State.reassertOne s0 cl s r) := by
  unfold State.reassertOne
  repeat' first
    | with_reducible assumption
    | with_reducible refine keep_setRecord K ?_
    | with_reducible refine keep_setStatus K ?_
    | dsimp only
    | split

theorem keep_reassert (K : Plain P) {s s0 : State} (H : P s) : P (s.reassert s0) :=
  foldl_keeps (p := P) (fun _ _ H => foldl_keeps (p := P) (fun _ _ H => keep_reassertOne K H) _ H) _ H

theorem keep_stopEnters (K : Plain P) {s : State} {cl : Nat} (H : P s) : P (State.stopEnters s cl) := by
  unfold State.stopEnters
  repeat' first
    | with_reducible assumption
    | with_reducible refine keep_refill K ?_
    | with_reducible refine keep_wakeX7 K ?_
    | with_reducible refine K.wake _ _ ?_
    | with_reducible refine foldl_keeps (p := P) (fun s a H => ?_) _ ?_
    | dsimp only
    | split

theorem holds_tagged {α : Type} {w : Word} {m : Act α} {s : State} (h : Holds P m s) : Holds P (tagged w m) s := by
  unfold Holds tagged
  cases e : m s with
  | ok a t => exact h.ok e
  | error a t => cases a <;> exact h.error e

theorem holds_rowError {α : Type} {row : Word} {m : Act α} {s : State} (h : Holds P m s) : Holds P (rowError row m) s := by
  unfold Holds at h
  unfold Holds rowError
  cases e : m s with
  | ok v t => rw [e] at h; exact h
  | error x t =>
    rw [e] at h
    cases x <;> exact h

theorem keep_bound (K : Steady P) {s : State} (H : P s) : Holds P (bound ) s := by
  unfold bound
  repeat' first
    | with_reducible assumption
    | with_reducible refine keep_park K ?_
    | with_reducible refine holds_get_bind ?_
    | with_reducible refine holds_pure_bind ?_
    | with_reducible refine holds_bind ?_ (fun a t H => ?_)
    | with_reducible refine holds_pure _ ?_
    | with_reducible refine holds_throw _ ?_
    | with_reducible refine holds_get ?_
    | with_reducible refine holds_raiseTrap _ ?_
    | dsimp only
    | split

theorem keep_freshTile (K : Steady P) {s : State} {e bn : Nat} {acc : Bool} (H : P s) : Holds P (freshTile e bn acc) s := by
  unfold freshTile
  repeat' first
    | with_reducible assumption
    | with_reducible refine keep_grantTiles K ?_
    | with_reducible refine K.modEngine ?_ _ _
    | with_reducible refine holds_get_bind ?_
    | with_reducible refine holds_set_bind ?_
    | with_reducible refine holds_modify_bind ?_
    | with_reducible refine holds_pure_bind ?_
    | with_reducible refine holds_bind ?_ (fun a t H => ?_)
    | with_reducible refine holds_pure _ ?_
    | with_reducible refine holds_throw _ ?_
    | with_reducible refine holds_get ?_
    | with_reducible refine holds_set ?_
    | with_reducible refine holds_modify ?_
    | dsimp only
    | split

theorem keep_tileDone (K : Steady P) {s : State} {e lop : Nat} {g : BitVec 5} {nj : Nat} {held : Bool} (H : P s) : P (State.tileDone s e lop g nj held) := by
  unfold State.tileDone
  repeat' first
    | with_reducible assumption
    | with_reducible refine keep_raise K ?_
    | with_reducible refine keep_draw K.toQuiet ?_
    | with_reducible refine keep_draw_eq K.toQuiet ?_ (by assumption)
    | with_reducible refine keep_countEngine K.toQuiet ?_
    | with_reducible refine keep_debit K.toQuiet ?_
    | with_reducible refine keep_event K.toQuiet ?_
    | with_reducible refine K.modEngine ?_ _ _
    | with_reducible refine foldl_keeps (p := P) (fun s a H => ?_) _ ?_
    | dsimp only
    | split

theorem keep_shape (K : Quiet P) {s : State} {m : BitVec 3} (H : P s) : Holds P (shape m) s := by
  unfold shape
  repeat' first
    | with_reducible assumption
    | with_reducible refine holds_get_bind ?_
    | with_reducible refine holds_set_bind ?_
    | with_reducible refine holds_pure_bind ?_
    | with_reducible refine holds_bind ?_ (fun a t H => ?_)
    | with_reducible refine holds_pure _ ?_
    | with_reducible refine holds_get ?_
    | with_reducible refine holds_set ?_
    | with_reducible refine holds_trapIf _ _ ?_

theorem keep_Item_pages (K : Plain P) {s : State} {i : Item} {pol : Pol} (H : P s) : Holds P (Item.pages i pol) s := by
  unfold Item.pages
  repeat' first
    | with_reducible assumption
    | with_reducible refine holds_tagged ?_
    | with_reducible refine keep_xlate K ?_
    | with_reducible refine holds_get_bind ?_
    | with_reducible refine holds_pure_bind ?_
    | with_reducible refine holds_bind ?_ (fun a t H => ?_)
    | with_reducible refine holds_pure _ ?_
    | with_reducible refine holds_get ?_
    | with_reducible refine holds_mapM (fun a t H => ?_) _ ?_

theorem keep_checkItems (K : Steady P) {s : State} {items : List Item} {pol : Pol} (H : P s) : Holds P (checkItems items pol) s := by
  unfold checkItems
  repeat' first
    | with_reducible assumption
    | with_reducible refine holds_tagged ?_
    | with_reducible refine keep_note K ?_
    | with_reducible refine keep_notDevice K.toQuiet ?_
    | with_reducible refine keep_waitOwn K ?_
    | with_reducible refine keep_aligned K.toQuiet ?_
    | with_reducible refine keep_Item_pages K.toPlain ?_
    | with_reducible refine foldl_keeps (p := P) (fun s a H => ?_) _ ?_
    | with_reducible refine foldl_fst_keeps (p := P) (fun q a H => ?_) _ ?_
    | with_reducible refine holds_get_bind ?_
    | with_reducible refine holds_modify_bind ?_
    | with_reducible refine holds_pure_bind ?_
    | with_reducible refine holds_bind ?_ (fun a t H => ?_)
    | with_reducible refine holds_pure _ ?_
    | with_reducible refine holds_get ?_
    | with_reducible refine holds_modify ?_
    | with_reducible refine holds_mapM (fun a t H => ?_) _ ?_
    | with_reducible refine holds_forM (fun a t H => ?_) _ ?_
    | dsimp only
    | split

theorem keep_readItem (K : Plain P) {s : State} {e : Nat} {q : Item × List (Word × Nat × Nat)} {pol : Pol} {acq : Option Scope} (H : P s) : Holds P (readItem e q pol acq) s := by
  unfold readItem
  repeat' first
    | with_reducible assumption
    | with_reducible refine holds_rowError ?_
    | with_reducible refine keep_readBytes K ?_
    | with_reducible refine holds_get_bind ?_
    | with_reducible refine holds_pure_bind ?_
    | with_reducible refine holds_bind ?_ (fun a t H => ?_)
    | with_reducible refine holds_pure _ ?_
    | with_reducible refine holds_get ?_
    | with_reducible refine holds_mapM (fun a t H => ?_) _ ?_
    | with_reducible refine holds_lift ?_

theorem keep_readTile (K : Plain P) {s : State} {e : Nat} {qs : List (Item × List (Word × Nat × Nat))} {pol : Pol} {acq : Option Scope} (H : P s) : Holds P (readTile e qs pol acq) s := by
  unfold readTile
  repeat' first
    | with_reducible assumption
    | with_reducible refine keep_readItem K ?_
    | with_reducible refine holds_get_bind ?_
    | with_reducible refine holds_pure_bind ?_
    | with_reducible refine holds_bind ?_ (fun a t H => ?_)
    | with_reducible refine holds_pure _ ?_
    | with_reducible refine holds_get ?_
    | with_reducible refine holds_mapM (fun a t H => ?_) _ ?_

theorem keep_tileLoad (K : Steady P) {s : State} {scaledRows : Bool} {t m : BitVec 3} {b : Reg} {pol : Pol} {ord : Order} {sc : Scope} {off : BitVec 27} (H : P s) : Holds P (tileLoad scaledRows t m b pol ord sc off) s := by
  unfold tileLoad
  repeat' first
    | with_reducible assumption
    | with_reducible refine holds_guarded ?_ ?_
    | with_reducible refine keep_acquireAt K.toPlain ?_
    | with_reducible refine keep_setOpTile K ?_
    | with_reducible refine keep_bound K ?_
    | with_reducible refine keep_freshTile K ?_
    | with_reducible refine keep_tileDone K ?_
    | with_reducible refine keep_shape K.toQuiet ?_
    | with_reducible refine keep_checkItems K ?_
    | with_reducible refine keep_readTile K.toPlain ?_
    | with_reducible refine holds_get_bind ?_
    | with_reducible refine holds_set_bind ?_
    | with_reducible refine holds_modify_bind ?_
    | with_reducible refine holds_pure_bind ?_
    | with_reducible refine holds_bind ?_ (fun a t H => ?_)
    | with_reducible refine holds_pure _ ?_
    | with_reducible refine holds_get ?_
    | with_reducible refine holds_set ?_
    | with_reducible refine holds_modify ?_
    | with_reducible refine holds_trapIf _ _ ?_
    | dsimp only
    | split

theorem keep_execTload (K : Steady P) {s : State} {t m : BitVec 3} {b : Reg} {pol : Pol} {ord : Order} {sc : Scope} {off : BitVec 27} (H : P s) : Ends P (execTload t m b pol ord sc off s) := by
  unfold execTload
  repeat' first
    | with_reducible assumption
    | with_reducible refine keep_tileLoad K ?_
    | with_reducible refine ends_next ?_
    | with_reducible refine ends_runAct K ?_ (fun t H => ?_)

theorem keep_execTloads (K : Steady P) {s : State} {t m : BitVec 3} {b : Reg} {pol : Pol} {ord : Order} {sc : Scope} {off : BitVec 27} (H : P s) : Ends P (execTloads t m b pol ord sc off s) := by
  unfold execTloads
  repeat' first
    | with_reducible assumption
    | with_reducible refine keep_tileLoad K ?_
    | with_reducible refine ends_next ?_
    | with_reducible refine ends_runAct K ?_ (fun t H => ?_)

theorem keep_readVersion (K : Plain P) {s : State} {e : Nat} {va : Word} {pa : Nat} {pol : Pol} {sc : Scope} (H : P s) : Holds P (readVersion e va pa pol sc) s := by
  unfold readVersion
  repeat' first
    | with_reducible assumption
    | with_reducible refine keep_acquireAt K ?_
    | with_reducible refine keep_readBytes K ?_
    | with_reducible refine holds_get_bind ?_
    | with_reducible refine holds_modify_bind ?_
    | with_reducible refine holds_pure_bind ?_
    | with_reducible refine holds_bind ?_ (fun a t H => ?_)
    | with_reducible refine holds_pure _ ?_
    | with_reducible refine holds_get ?_
    | with_reducible refine holds_modify ?_
    | with_reducible refine holds_lift ?_

theorem keep_holdTile (K : Steady P) {s : State} {e k : Nat} {acc : Bool} (H : P s) : P (State.holdTile s e k acc) := by
  unfold State.holdTile
  repeat' first
    | with_reducible assumption
    | with_reducible refine K.modEngine ?_ _ _

theorem keep_tileLoadV (K : Steady P) {s : State} {t m : BitVec 3} {b : Reg} {pol : Pol} {ord : Order} {sc : Scope} {x : Reg} {off : BitVec 27} (H : P s) : Holds P (tileLoadV t m b pol ord sc x off) s := by
  unfold tileLoadV
  repeat' first
    | with_reducible assumption
    | with_reducible refine holds_guarded ?_ ?_
    | with_reducible refine keep_acquireAt K.toPlain ?_
    | with_reducible refine keep_setOpTile K ?_
    | with_reducible refine keep_bind K ?_
    | with_reducible refine keep_bound K ?_
    | with_reducible refine keep_freshTile K ?_
    | with_reducible refine keep_tileDone K ?_
    | with_reducible refine keep_shape K.toQuiet ?_
    | with_reducible refine keep_checkItems K ?_
    | with_reducible refine keep_readTile K.toPlain ?_
    | with_reducible refine keep_readVersion K.toPlain ?_
    | with_reducible refine keep_holdTile K ?_
    | with_reducible refine holds_get_bind ?_
    | with_reducible refine holds_set_bind ?_
    | with_reducible refine holds_modify_bind ?_
    | with_reducible refine holds_pure_bind ?_
    | with_reducible refine holds_bind ?_ (fun a t H => ?_)
    | with_reducible refine holds_pure _ ?_
    | with_reducible refine holds_throw _ ?_
    | with_reducible refine holds_get ?_
    | with_reducible refine holds_set ?_
    | with_reducible refine holds_modify ?_
    | with_reducible refine holds_raiseTrap _ ?_
    | dsimp only
    | split

theorem keep_execTloadV (K : Steady P) {s : State} {t m : BitVec 3} {b : Reg} {pol : Pol} {ord : Order} {sc : Scope} {x : Reg} {off : BitVec 27} (H : P s) : Ends P (execTloadV t m b pol ord sc x off s) := by
  unfold execTloadV
  repeat' first
    | with_reducible assumption
    | with_reducible refine keep_tileLoadV K ?_
    | with_reducible refine K.modMe ?_ (by intro x hx; first | exact hx | exact aligned_pcOf _ | (with_reducible simpa using hx) | (dsimp only; (repeat' split) <;> first | exact hx | exact aligned_pcOf _))
    | with_reducible refine ends_next ?_
    | with_reducible refine ends_runAct K ?_ (fun t H => ?_)
    | with_reducible refine holds_get_bind ?_
    | with_reducible refine holds_pure_bind ?_
    | with_reducible refine holds_bind ?_ (fun a t H => ?_)
    | with_reducible refine holds_pure _ ?_
    | with_reducible refine holds_get ?_
    | with_reducible refine ends_of ?_ (by assumption)
    | dsimp only
    | split

theorem keep_queueStore (K : Steady P) {s : State} {e bn : Nat} {k : StoreKind} {t : TReg} {pol : Pol} {ord : Order} {sc : Scope} {rows : List RowOut} {xpa : Nat} {ctr : Option Nat} (H : P s) : P (State.queueStore s e bn k t pol ord sc rows xpa ctr) := by
  unfold State.queueStore
  repeat' first
    | with_reducible assumption
    | with_reducible refine keep_drainPieces K.toPlain ?_
    | with_reducible refine K.modEngine ?_ _ _
    | dsimp only
    | split
    | with_reducible refine K.toQuiet.records _ _ _ _ _ ?_
    | with_reducible refine K.toPlain.upd _ _ _ _ _ _ _ _ _ _ ?_

theorem keep_tileStore (K : Steady P) {s : State} {k : StoreKind} {lop : Nat} {t : TReg} {m : BitVec 3} {b : Reg} {pol : Pol} {ord : Order} {sc : Scope} {x : Reg} {off : BitVec 27} (H : P s) : Holds P (tileStore k lop t m b pol ord sc x off) s := by
  unfold tileStore
  repeat' first
    | with_reducible assumption
    | with_reducible refine holds_guarded ?_ ?_
    | with_reducible refine keep_releaseWait K ?_
    | with_reducible refine keep_waitRelease K ?_
    | with_reducible refine keep_bind K ?_
    | with_reducible refine keep_bound K ?_
    | with_reducible refine keep_tileDone K ?_
    | with_reducible refine keep_shape K.toQuiet ?_
    | with_reducible refine keep_checkItems K ?_
    | with_reducible refine keep_queueStore K ?_
    | with_reducible refine K.modEngine ?_ _ _
    | with_reducible refine holds_get_bind ?_
    | with_reducible refine holds_modify_bind ?_
    | with_reducible refine holds_pure_bind ?_
    | with_reducible refine holds_bind ?_ (fun a t H => ?_)
    | with_reducible refine holds_pure _ ?_
    | with_reducible refine holds_throw _ ?_
    | with_reducible refine holds_get ?_
    | with_reducible refine holds_modify ?_
    | dsimp only
    | split

theorem keep_execTstore (K : Steady P) {s : State} {t m : BitVec 3} {b : Reg} {pol : Pol} {ord : Order} {sc : Scope} {off : BitVec 27} (H : P s) : Ends P (execTstore t m b pol ord sc off s) := by
  unfold execTstore
  repeat' first
    | with_reducible assumption
    | with_reducible refine keep_tileStore K ?_
    | with_reducible refine ends_next ?_
    | with_reducible refine ends_runAct K ?_ (fun t H => ?_)

theorem keep_execTstoreAon (K : Steady P) {s : State} {t : TReg} {m : BitVec 3} {b : Reg} {pol : Pol} {ord : Order} {sc : Scope} {x : Reg} {off : BitVec 27} (H : P s) : Ends P (execTstoreAon t m b pol ord sc x off s) := by
  unfold execTstoreAon
  repeat' first
    | with_reducible assumption
    | with_reducible refine keep_tileStore K ?_
    | with_reducible refine ends_next ?_
    | with_reducible refine ends_runAct K ?_ (fun t H => ?_)

theorem keep_execTstorea (K : Steady P) {s : State} {t : BitVec 2} {m : BitVec 3} {b : Reg} {pol : Pol} {ord : Order} {sc : Scope} {off : BitVec 27} (H : P s) : Ends P (execTstorea t m b pol ord sc off s) := by
  unfold execTstorea
  repeat' first
    | with_reducible assumption
    | with_reducible refine keep_tileStore K ?_
    | with_reducible refine ends_next ?_
    | with_reducible refine ends_runAct K ?_ (fun t H => ?_)

theorem keep_execPutT (K : Steady P) {s : State} {t : TReg} {m : BitVec 3} {b : Reg} {pol : Pol} {sc : Scope} {x : Reg} {off : BitVec 27} (H : P s) : Ends P (execPutT t m b pol sc x off s) := by
  unfold execPutT
  repeat' first
    | with_reducible assumption
    | with_reducible refine keep_tileStore K ?_
    | with_reducible refine ends_next ?_
    | with_reducible refine ends_runAct K ?_ (fun t H => ?_)

theorem keep_sendTilePiece (K : Steady P) {s : State} {e : Nat} (H : P s) : P (State.sendTilePiece s e) := by
  unfold State.sendTilePiece
  repeat' first
    | with_reducible assumption
    | with_reducible refine keep_draw K.toQuiet ?_
    | with_reducible refine keep_draw_eq K.toQuiet ?_ (by assumption)
    | with_reducible refine keep_send K.toPlain ?_
    | with_reducible refine K.modEngine ?_ _ _
    | dsimp only
    | split

theorem keep_readArea (K : Plain P) {s : State} {e area : Nat} (H : P s) : P (State.readArea s e area).1 := by
  unfold State.readArea
  repeat' first
    | with_reducible assumption
    | with_reducible refine keep_readUnit K ?_

theorem keep_readArea_eq (K : Plain P) {s t : State} {e area : Nat} {y : Option Nat} (H : P s) (E : State.readArea s e area = (t, y)) : P t := by
  have z := keep_readArea K H (s := s) (e := e) (area := area)
  rw [E] at z; exact z

theorem keep_bindUnpark (K : Steady P) {s : State} {c : Nat} (H : P s) : P (State.bindUnpark s c) := by
  unfold State.bindUnpark
  repeat' first
    | with_reducible assumption
    | with_reducible refine keep_park K ?_
    | with_reducible refine keep_unpark K ?_
    | with_reducible refine keep_takeTrap K ?_
    | with_reducible refine K.modCtx ?_ _ (by intro x hx; first | exact hx | exact aligned_pcOf _ | (with_reducible simpa using hx) | (dsimp only; (repeat' split) <;> first | exact hx | exact aligned_pcOf _))
    | dsimp only
    | split

theorem keep_makeRoomFor (K : Steady P) {s : State} {cl q : Nat} (H : P s) : P (State.makeRoomFor s cl q) := by
  unfold State.makeRoomFor
  repeat' first
    | with_reducible assumption
    | with_reducible refine keep_spill K ?_
    | with_reducible refine keep_preempt K ?_
    | dsimp only
    | split

theorem keep_leaveElsewhere (K : Steady P) {s : State} {c : Nat} (H : P s) : P (State.leaveElsewhere s c) := by
  unfold State.leaveElsewhere
  repeat' first
    | with_reducible assumption
    | with_reducible refine keep_spill K ?_
    | dsimp only
    | split

theorem keep_bindHere (K : Steady P) {s : State} {c : Nat} (H : P s) : P (State.bindHere s c) := by
  unfold State.bindHere
  repeat' first
    | with_reducible assumption
    | with_reducible refine keep_bind K ?_
    | with_reducible refine keep_readHeaders K.toPlain ?_
    | with_reducible refine keep_readArea K.toPlain ?_
    | with_reducible refine keep_readArea_eq K.toPlain ?_ (by assumption)
    | with_reducible refine keep_bindUnpark K ?_
    | with_reducible refine K.modCtx ?_ _ (by intro x hx; first | exact hx | exact aligned_pcOf _ | (with_reducible simpa using hx) | (dsimp only; (repeat' split) <;> first | exact hx | exact aligned_pcOf _))
    | dsimp only
    | split

theorem keep_tileBinding (K : Steady P) {s : State} {c : Nat} (H : P s) : P (State.tileBinding s c) := by
  unfold State.tileBinding
  repeat' first
    | with_reducible assumption
    | with_reducible refine keep_bindUnpark K ?_
    | with_reducible refine keep_makeRoomFor K ?_
    | with_reducible refine keep_leaveElsewhere K ?_
    | with_reducible refine keep_bindHere K ?_
    | dsimp only
    | split

theorem keep_exitedWrite (K : Steady P) {s : State} {tcb : Nat} (H : P s) : P (State.exitedWrite s tcb) := by
  unfold State.exitedWrite
  repeat' first
    | with_reducible assumption
    | with_reducible refine keep_setTstate K.toPlain ?_
    | dsimp only
    | split
    | with_reducible refine K.toQuiet.records _ _ _ _ _ ?_
    | with_reducible refine K.toPlain.upd _ _ _ _ _ _ _ _ _ _ ?_
    | with_reducible refine K.own _ _ _ _ _ _ _ _ _ _ _ ?_

theorem keep_execTzero (K : Steady P) {s : State} {t : TReg} (H : P s) : Ends P (execTzero t s) := by
  unfold execTzero
  repeat' first
    | with_reducible assumption
    | with_reducible refine holds_guarded ?_ ?_
    | with_reducible refine keep_setAccTile K ?_
    | with_reducible refine keep_setOpTile K ?_
    | with_reducible refine keep_bound K ?_
    | with_reducible refine keep_freshTile K ?_
    | with_reducible refine keep_tileDone K ?_
    | with_reducible refine ends_next ?_
    | with_reducible refine ends_runAct K ?_ (fun t H => ?_)
    | with_reducible refine holds_get_bind ?_
    | with_reducible refine holds_set_bind ?_
    | with_reducible refine holds_modify_bind ?_
    | with_reducible refine holds_pure_bind ?_
    | with_reducible refine holds_bind ?_ (fun a t H => ?_)
    | with_reducible refine holds_pure _ ?_
    | with_reducible refine holds_get ?_
    | with_reducible refine holds_set ?_
    | with_reducible refine holds_modify ?_
    | with_reducible refine ends_of ?_ (by assumption)
    | dsimp only
    | split

theorem keep_execTmova (K : Steady P) {s : State} {t : BitVec 2} {v g : Reg} (H : P s) : Ends P (execTmova t v g s) := by
  unfold execTmova
  repeat' first
    | with_reducible assumption
    | with_reducible refine holds_guarded ?_ ?_
    | with_reducible refine keep_setAccTile K ?_
    | with_reducible refine keep_bound K ?_
    | with_reducible refine keep_freshTile K ?_
    | with_reducible refine keep_tileDone K ?_
    | with_reducible refine ends_next ?_
    | with_reducible refine ends_runAct K ?_ (fun t H => ?_)
    | with_reducible refine holds_get_bind ?_
    | with_reducible refine holds_set_bind ?_
    | with_reducible refine holds_modify_bind ?_
    | with_reducible refine holds_pure_bind ?_
    | with_reducible refine holds_bind ?_ (fun a t H => ?_)
    | with_reducible refine holds_pure _ ?_
    | with_reducible refine holds_get ?_
    | with_reducible refine holds_set ?_
    | with_reducible refine holds_modify ?_
    | with_reducible refine holds_trapIf _ _ ?_

theorem keep_execTmovt (K : Steady P) {s : State} {t : BitVec 3} {v g : Reg} (H : P s) : Ends P (execTmovt t v g s) := by
  unfold execTmovt
  repeat' first
    | with_reducible assumption
    | with_reducible refine holds_guarded ?_ ?_
    | with_reducible refine keep_setOpTile K ?_
    | with_reducible refine keep_bound K ?_
    | with_reducible refine keep_freshTile K ?_
    | with_reducible refine keep_tileDone K ?_
    | with_reducible refine ends_next ?_
    | with_reducible refine ends_runAct K ?_ (fun t H => ?_)
    | with_reducible refine holds_get_bind ?_
    | with_reducible refine holds_set_bind ?_
    | with_reducible refine holds_modify_bind ?_
    | with_reducible refine holds_pure_bind ?_
    | with_reducible refine holds_bind ?_ (fun a t H => ?_)
    | with_reducible refine holds_pure _ ?_
    | with_reducible refine holds_get ?_
    | with_reducible refine holds_set ?_
    | with_reducible refine holds_modify ?_
    | with_reducible refine holds_trapIf _ _ ?_

theorem keep_checkRecords (K : Quiet P) {s : State} {x : OpTile} {w opnd : Nat} (H : P s) : Holds P (checkRecords x w opnd) s := by
  unfold checkRecords
  repeat' first
    | with_reducible assumption
    | with_reducible refine holds_get_bind ?_
    | with_reducible refine holds_pure_bind ?_
    | with_reducible refine holds_bind ?_ (fun a t H => ?_)
    | with_reducible refine holds_pure _ ?_
    | with_reducible refine holds_get ?_
    | with_reducible refine holds_raiseTrap _ ?_
    | dsimp only
    | split

theorem keep_checkMeta (K : Quiet P) {s : State} {x : OpTile} {groups : Nat} (H : P s) : Holds P (checkMeta x groups) s := by
  unfold checkMeta
  repeat' first
    | with_reducible assumption
    | with_reducible refine holds_get_bind ?_
    | with_reducible refine holds_pure_bind ?_
    | with_reducible refine holds_bind ?_ (fun a t H => ?_)
    | with_reducible refine holds_pure _ ?_
    | with_reducible refine holds_get ?_
    | with_reducible refine holds_raiseTrap _ ?_
    | dsimp only
    | split

theorem keep_mmaStarts (K : Steady P) {s : State} {cl : Nat} {tno : BitVec 12} (H : P s) : P (State.mmaStarts s cl tno) := by
  unfold State.mmaStarts
  repeat' first
    | with_reducible assumption
    | with_reducible refine K.clu _ _ _ ?_

theorem keep_slowIssue (K : Steady P) {s : State} {e k : Nat} (H : P s) : P (State.slowIssue s e k) := by
  unfold State.slowIssue
  repeat' first
    | with_reducible assumption
    | with_reducible refine K.modEngine ?_ _ _

theorem keep_mma (K : Steady P) {s : State} {started : Bool} {t : BitVec 2} {a b : BitVec 3} {sp : Option (BitVec 3)} {w : Nat} {h : Bool} (H : P s) : Holds P (mma started t a b sp w h) s := by
  unfold mma
  repeat' first
    | with_reducible assumption
    | with_reducible refine holds_guarded ?_ ?_
    | with_reducible refine keep_countEngine K.toQuiet ?_
    | with_reducible refine keep_setAccTile K ?_
    | with_reducible refine keep_bound K ?_
    | with_reducible refine keep_freshTile K ?_
    | with_reducible refine keep_tileDone K ?_
    | with_reducible refine keep_checkRecords K.toQuiet ?_
    | with_reducible refine keep_checkMeta K.toQuiet ?_
    | with_reducible refine keep_mmaStarts K ?_
    | with_reducible refine keep_slowIssue K ?_
    | with_reducible refine holds_get_bind ?_
    | with_reducible refine holds_set_bind ?_
    | with_reducible refine holds_modify_bind ?_
    | with_reducible refine holds_pure_bind ?_
    | with_reducible refine holds_bind ?_ (fun a t H => ?_)
    | with_reducible refine holds_pure _ ?_
    | with_reducible refine holds_throw _ ?_
    | with_reducible refine holds_get ?_
    | with_reducible refine holds_set ?_
    | with_reducible refine holds_modify ?_
    | dsimp only
    | split

theorem keep_issueWait (K : Steady P) {s : State} {i : Instr} (H : P s) : P (State.issueWait s i) := by
  unfold State.issueWait
  repeat' first
    | with_reducible assumption
    | with_reducible refine K.modEngine ?_ _ _
    | dsimp only
    | split

theorem keep_runMma (K : Steady P) {s : State} {i : Instr} {m : Act Unit} (H : P s) (hm : ∀ u, P u → Holds P m u) :
    Ends P (runMma i m s) := by
  obtain ⟨t, e, h⟩ := ends_runAct K (n := 8) H hm
  unfold runMma
  rw [e]
  dsimp only
  split
  · exact ends_next (keep_issueWait K h)
  · exact ends_next h

theorem keep_execTmma (K : Steady P) {s : State} {t : BitVec 2} {a b : BitVec 3} {e : BitVec 2} {h : Bool} (H : P s) :
    Ends P (execTmma t a b e h s) := keep_runMma K H fun _ => keep_mma K

theorem keep_execTmmaSp (K : Steady P) {s : State} {t : BitVec 2} {a b m : BitVec 3} {e : BitVec 2} {h : Bool} (H : P s) :
    Ends P (execTmmaSp t a b m e h s) := keep_runMma K H fun _ => keep_mma K

theorem keep_execTcvt (K : Steady P) {s : State} {t : BitVec 3} {a : TReg} {e : BitVec 2} {h : Bool} {tag : BitVec 2} (H : P s) : Ends P (execTcvt t a e h tag s) := by
  unfold execTcvt
  repeat' first
    | with_reducible assumption
    | with_reducible refine holds_guarded ?_ ?_
    | with_reducible refine keep_setOpTile K ?_
    | with_reducible refine keep_bound K ?_
    | with_reducible refine keep_freshTile K ?_
    | with_reducible refine keep_tileDone K ?_
    | with_reducible refine ends_next ?_
    | with_reducible refine ends_runAct K ?_ (fun t H => ?_)
    | with_reducible refine holds_get_bind ?_
    | with_reducible refine holds_set_bind ?_
    | with_reducible refine holds_modify_bind ?_
    | with_reducible refine holds_pure_bind ?_
    | with_reducible refine holds_bind ?_ (fun a t H => ?_)
    | with_reducible refine holds_pure _ ?_
    | with_reducible refine holds_get ?_
    | with_reducible refine holds_set ?_
    | with_reducible refine holds_modify ?_

theorem keep_execTtrans (K : Steady P) {s : State} {t a : BitVec 3} {e : BitVec 2} {_h : Bool} (H : P s) : Ends P (execTtrans t a e _h s) := by
  unfold execTtrans
  repeat' first
    | with_reducible assumption
    | with_reducible refine holds_guarded ?_ ?_
    | with_reducible refine keep_setOpTile K ?_
    | with_reducible refine keep_bound K ?_
    | with_reducible refine keep_freshTile K ?_
    | with_reducible refine keep_tileDone K ?_
    | with_reducible refine ends_next ?_
    | with_reducible refine ends_runAct K ?_ (fun t H => ?_)
    | with_reducible refine holds_get_bind ?_
    | with_reducible refine holds_set_bind ?_
    | with_reducible refine holds_modify_bind ?_
    | with_reducible refine holds_pure_bind ?_
    | with_reducible refine holds_bind ?_ (fun a t H => ?_)
    | with_reducible refine holds_pure _ ?_
    | with_reducible refine holds_get ?_
    | with_reducible refine holds_set ?_
    | with_reducible refine holds_modify ?_

theorem keep_execTadd (K : Steady P) {s : State} {t a b : BitVec 2} (H : P s) : Ends P (execTadd t a b s) := by
  unfold execTadd
  repeat' first
    | with_reducible assumption
    | with_reducible refine holds_guarded ?_ ?_
    | with_reducible refine keep_setAccTile K ?_
    | with_reducible refine keep_bound K ?_
    | with_reducible refine keep_freshTile K ?_
    | with_reducible refine keep_tileDone K ?_
    | with_reducible refine ends_next ?_
    | with_reducible refine ends_runAct K ?_ (fun t H => ?_)
    | with_reducible refine holds_get_bind ?_
    | with_reducible refine holds_set_bind ?_
    | with_reducible refine holds_modify_bind ?_
    | with_reducible refine holds_pure_bind ?_
    | with_reducible refine holds_bind ?_ (fun a t H => ?_)
    | with_reducible refine holds_pure _ ?_
    | with_reducible refine holds_get ?_
    | with_reducible refine holds_set ?_
    | with_reducible refine holds_modify ?_

theorem keep_execTscale (K : Steady P) {s : State} {t a : BitVec 2} {g : Reg} (H : P s) : Ends P (execTscale t a g s) := by
  unfold execTscale
  repeat' first
    | with_reducible assumption
    | with_reducible refine holds_guarded ?_ ?_
    | with_reducible refine keep_setAccTile K ?_
    | with_reducible refine keep_bound K ?_
    | with_reducible refine keep_freshTile K ?_
    | with_reducible refine keep_tileDone K ?_
    | with_reducible refine ends_next ?_
    | with_reducible refine ends_runAct K ?_ (fun t H => ?_)
    | with_reducible refine holds_get_bind ?_
    | with_reducible refine holds_set_bind ?_
    | with_reducible refine holds_modify_bind ?_
    | with_reducible refine holds_pure_bind ?_
    | with_reducible refine holds_bind ?_ (fun a t H => ?_)
    | with_reducible refine holds_pure _ ?_
    | with_reducible refine holds_get ?_
    | with_reducible refine holds_set ?_
    | with_reducible refine holds_modify ?_

theorem keep_execTrel (K : Steady P) {s : State} (H : P s) : Ends P (execTrel s) := by
  unfold execTrel
  repeat' first
    | with_reducible assumption
    | with_reducible refine holds_guarded ?_ ?_
    | with_reducible refine keep_releaseBinding K ?_
    | with_reducible refine keep_bound K ?_
    | with_reducible refine keep_tileDone K ?_
    | with_reducible refine ends_next ?_
    | with_reducible refine ends_runAct K ?_ (fun t H => ?_)
    | with_reducible refine holds_get_bind ?_
    | with_reducible refine holds_modify_bind ?_
    | with_reducible refine holds_pure_bind ?_
    | with_reducible refine holds_bind ?_ (fun a t H => ?_)
    | with_reducible refine holds_pure _ ?_
    | with_reducible refine holds_get ?_
    | with_reducible refine holds_modify ?_

theorem keep_execMset (K : Steady P) {s : State} {m : BitVec 3} {a b c : Reg} (H : P s) : Ends P (execMset m a b c s) := by
  unfold execMset
  repeat' first
    | with_reducible assumption
    | with_reducible refine holds_guarded ?_ ?_
    | with_reducible refine keep_writeM K ?_
    | with_reducible refine keep_bound K ?_
    | with_reducible refine keep_tileDone K ?_
    | with_reducible refine ends_next ?_
    | with_reducible refine ends_runAct K ?_ (fun t H => ?_)
    | with_reducible refine holds_get_bind ?_
    | with_reducible refine holds_modify_bind ?_
    | with_reducible refine holds_pure_bind ?_
    | with_reducible refine holds_bind ?_ (fun a t H => ?_)
    | with_reducible refine holds_pure _ ?_
    | with_reducible refine holds_get ?_
    | with_reducible refine holds_modify ?_
    | with_reducible refine holds_trapIf _ _ ?_

theorem keep_engineStart (K : Steady P) {s : State} {e : Nat} (H : P s) : P (State.engineStart s e) := by
  unfold State.engineStart
  repeat' first
    | with_reducible assumption
    | with_reducible refine keep_grantTiles K ?_
    | with_reducible refine keep_mmaStarts K ?_
    | with_reducible refine K.modEngine ?_ _ _
    | dsimp only
    | split

theorem keep_runningAct (K : Steady P) {s : State} {i : Option Instr} (H : P s) : Holds P (runningAct i) s := by
  unfold runningAct
  split
  · exact keep_mma K H
  · exact keep_mma K H
  · exact holds_pure _ H

theorem keep_finishIssue (K : Steady P) {s : State} {i : Issue} (H : P s) : Ends P (s.finishIssue i) :=
  ends_runAct K (K.own _ _ _ _ _ _ _ _ _ _ _ H) fun _ => keep_runningAct K

theorem keep_tileComplete (K : Steady P) {s : State} {e : Nat} (H : P s) : P (s.tileComplete e) := by
  unfold State.tileComplete
  split
  · exact H
  · dsimp only
    split
    · split
      · next E => exact K.modEngine (K.own _ _ _ _ _ _ _ _ _ _ _ (ends_of (keep_finishIssue K H) E)) _ _
      · exact K.modEngine H _ _
    · exact K.modEngine H _ _

theorem keep_startRun (K : Quiet P) {s : State} {e : Nat} {r : EfcRun} {slots : List Nat} (H : P s) : P (State.startRun s e r slots) := by
  unfold State.startRun
  repeat' first
    | with_reducible assumption
    | with_reducible refine keep_countEfc K ?_
    | with_reducible refine K.modEfc ?_ _ _
    | dsimp only
    | split

theorem keep_efcTake (K : Quiet P) {s : State} {e : Nat} (H : P s) : P (State.efcTake s e) := by
  unfold State.efcTake
  repeat' first
    | with_reducible assumption
    | with_reducible refine keep_countTenant K ?_
    | with_reducible refine keep_countEfc K ?_
    | with_reducible refine keep_startRun K ?_
    | with_reducible refine K.modEfc ?_ _ _
    | dsimp only
    | split

theorem keep_efcDo (K : Quiet P) {s : State} {f : Efc → EfcRun → EfcStep} (H : P s) : P (efcDo s f) := by
  unfold efcDo
  repeat' first
    | with_reducible assumption
    | with_reducible refine keep_countEfc K ?_
    | with_reducible refine keep_startRun K ?_
    | with_reducible refine K.modEfc ?_ _ _
    | dsimp only
    | split

theorem keep_efcAlu (K : Quiet P) {s : State} {d : BitVec 3} {f : EfcRun → Word} (H : P s) : Ends P (efcAlu d f s) := by
  unfold efcAlu
  repeat' first
    | with_reducible assumption
    | with_reducible refine keep_efcDo K ?_
    | with_reducible refine ends_next ?_

theorem keep_execEhalt (K : Quiet P) {s : State} (H : P s) : Ends P (execEhalt s) := by
  unfold execEhalt
  repeat' first
    | with_reducible assumption
    | with_reducible refine keep_efcDo K ?_
    | with_reducible refine ends_next ?_

theorem keep_execEli (K : Quiet P) {s : State} {d : BitVec 3} {im : BitVec 17} (H : P s) : Ends P (execEli d im s) := by
  unfold execEli
  repeat' first
    | with_reducible assumption
    | with_reducible refine keep_efcAlu K ?_

theorem keep_execEadd (K : Quiet P) {s : State} {d a b : BitVec 3} (H : P s) : Ends P (execEadd d a b s) := by
  unfold execEadd
  repeat' first
    | with_reducible assumption
    | with_reducible refine keep_efcAlu K ?_

theorem keep_execEaddi (K : Quiet P) {s : State} {d a : BitVec 3} {im : BitVec 17} (H : P s) : Ends P (execEaddi d a im s) := by
  unfold execEaddi
  repeat' first
    | with_reducible assumption
    | with_reducible refine keep_efcAlu K ?_

theorem keep_execEsub (K : Quiet P) {s : State} {d a b : BitVec 3} (H : P s) : Ends P (execEsub d a b s) := by
  unfold execEsub
  repeat' first
    | with_reducible assumption
    | with_reducible refine keep_efcAlu K ?_

theorem keep_execEand (K : Quiet P) {s : State} {d a b : BitVec 3} (H : P s) : Ends P (execEand d a b s) := by
  unfold execEand
  repeat' first
    | with_reducible assumption
    | with_reducible refine keep_efcAlu K ?_

theorem keep_execEandi (K : Quiet P) {s : State} {d a : BitVec 3} {im : BitVec 17} (H : P s) : Ends P (execEandi d a im s) := by
  unfold execEandi
  repeat' first
    | with_reducible assumption
    | with_reducible refine keep_efcAlu K ?_

theorem keep_execEor (K : Quiet P) {s : State} {d a b : BitVec 3} (H : P s) : Ends P (execEor d a b s) := by
  unfold execEor
  repeat' first
    | with_reducible assumption
    | with_reducible refine keep_efcAlu K ?_

theorem keep_execExor (K : Quiet P) {s : State} {d a b : BitVec 3} (H : P s) : Ends P (execExor d a b s) := by
  unfold execExor
  repeat' first
    | with_reducible assumption
    | with_reducible refine keep_efcAlu K ?_

theorem keep_execEshr (K : Quiet P) {s : State} {d a : BitVec 3} {n : BitVec 6} (H : P s) : Ends P (execEshr d a n s) := by
  unfold execEshr
  repeat' first
    | with_reducible assumption
    | with_reducible refine keep_efcAlu K ?_

theorem keep_execEshl (K : Quiet P) {s : State} {d a : BitVec 3} {n : BitVec 6} (H : P s) : Ends P (execEshl d a n s) := by
  unfold execEshl
  repeat' first
    | with_reducible assumption
    | with_reducible refine keep_efcAlu K ?_

theorem keep_execEmin (K : Quiet P) {s : State} {d a b : BitVec 3} (H : P s) : Ends P (execEmin d a b s) := by
  unfold execEmin
  repeat' first
    | with_reducible assumption
    | with_reducible refine keep_efcAlu K ?_

theorem keep_execEmax (K : Quiet P) {s : State} {d a b : BitVec 3} (H : P s) : Ends P (execEmax d a b s) := by
  unfold execEmax
  repeat' first
    | with_reducible assumption
    | with_reducible refine keep_efcAlu K ?_

theorem keep_execElog2 (K : Quiet P) {s : State} {d a : BitVec 3} {c : BitVec 7} (H : P s) : Ends P (execElog2 d a c s) := by
  unfold execElog2
  repeat' first
    | with_reducible assumption
    | with_reducible refine keep_efcAlu K ?_

theorem keep_execEld (K : Quiet P) {s : State} {d a : BitVec 3} {w : BitVec 13} (H : P s) : Ends P (execEld d a w s) := by
  unfold execEld
  repeat' first
    | with_reducible assumption
    | with_reducible refine keep_efcDo K ?_
    | with_reducible refine ends_next ?_

theorem keep_execEst (K : Quiet P) {s : State} {d a : BitVec 3} {w : BitVec 13} (H : P s) : Ends P (execEst d a w s) := by
  unfold execEst
  repeat' first
    | with_reducible assumption
    | with_reducible refine keep_efcDo K ?_
    | with_reducible refine ends_next ?_

theorem keep_execEhinc (K : Quiet P) {s : State} {a : BitVec 3} {w : BitVec 13} (H : P s) : Ends P (execEhinc a w s) := by
  unfold execEhinc
  repeat' first
    | with_reducible assumption
    | with_reducible refine keep_efcDo K ?_
    | with_reducible refine ends_next ?_

theorem keep_execEcms (K : Quiet P) {s : State} {d a : BitVec 3} {w : BitVec 13} (H : P s) : Ends P (execEcms d a w s) := by
  unfold execEcms
  repeat' first
    | with_reducible assumption
    | with_reducible refine keep_efcDo K ?_
    | with_reducible refine foldl_keeps (p := P) (fun s a H => ?_) _ ?_
    | with_reducible refine ends_next ?_

theorem keep_execEsamp (K : Quiet P) {s : State} {w : BitVec 13} (H : P s) : Ends P (execEsamp w s) := by
  unfold execEsamp
  repeat' first
    | with_reducible assumption
    | with_reducible refine keep_efcDo K ?_
    | with_reducible refine ends_next ?_

theorem keep_trigger (K : Plain P) {s : State} {e : Nat} {r : EfcRun} {v : Word} (H : P s) : P (State.trigger s e r v) := by
  unfold State.trigger
  repeat' first
    | with_reducible assumption
    | with_reducible refine keep_countEfc K.toQuiet ?_
    | with_reducible refine keep_postMessage K ?_
    | with_reducible refine keep_postMessage_eq K ?_ (by assumption)
    | dsimp only
    | split

theorem keep_execEtrig (K : Plain P) {s : State} {a : BitVec 3} (H : P s) : Ends P (execEtrig a s) := by
  unfold execEtrig
  repeat' first
    | with_reducible assumption
    | with_reducible refine keep_efcDo K.toQuiet ?_
    | with_reducible refine keep_trigger K ?_
    | with_reducible refine ends_next ?_
    | dsimp only
    | split

theorem keep_execEskip (K : Quiet P) {s : State} {a b : BitVec 3} {k : BitVec 3} {n : BitVec 6} (H : P s) : Ends P (execEskip a b k n s) := by
  unfold execEskip
  repeat' first
    | with_reducible assumption
    | with_reducible refine keep_efcDo K ?_
    | with_reducible refine ends_next ?_

theorem keep_efcIllegal (K : Quiet P) {s : State} (H : P s) : P (State.efcIllegal s) := by
  unfold State.efcIllegal
  repeat' first
    | with_reducible assumption
    | with_reducible refine keep_countEfc K ?_
    | with_reducible refine keep_efcDo K ?_
    | dsimp only
    | split

theorem keep_efcRefill (K : Plain P) {s : State} {sock : Nat} (H : P s) : P (State.efcRefill s sock) := by
  unfold State.efcRefill
  repeat' first
    | with_reducible assumption
    | with_reducible refine keep_refill K ?_
    | with_reducible refine K.toQuiet.modEfc ?_ _ _
    | with_reducible refine foldl_keeps (p := P) (fun s a H => ?_) _ ?_

theorem keep_energyRefill (K : Quiet P) {s : State} {sock : Nat} (H : P s) : P (State.energyRefill s sock) := by
  unfold State.energyRefill
  repeat' first
    | with_reducible assumption
    | with_reducible refine foldl_keeps (p := P) (fun s a H => ?_) _ ?_
    | dsimp only
    | with_reducible refine K.records _ _ _ _ _ ?_

theorem keep_engineCycle (K : Quiet P) {s : State} {sock : Nat} (H : P s) : P (State.engineCycle s sock) := by
  unfold State.engineCycle
  repeat' first
    | with_reducible assumption
    | with_reducible refine keep_countEngine K ?_
    | with_reducible refine keep_countPort K ?_
    | with_reducible refine foldl_keeps (p := P) (fun s a H => ?_) _ ?_

theorem keep_advance (K : Steady P) {s : State} {cycle : Nat} (H : P s) : P (State.advance s cycle) := by
  unfold State.advance
  repeat' first
    | with_reducible assumption
    | with_reducible refine keep_engineCycle K.toQuiet ?_
    | with_reducible refine foldl_keeps (p := P) (fun s a H => ?_) _ ?_
    | dsimp only
    | split
    | with_reducible refine K.toQuiet.records _ _ _ _ _ ?_
    | with_reducible refine K.toPlain.upd _ _ _ _ _ _ _ _ _ _ ?_
    | with_reducible refine K.own _ _ _ _ _ _ _ _ _ _ _ ?_

theorem keep_chargeSlot (K : Steady P) {s : State} {core : Nat} (H : P s) : P (State.chargeSlot s core) := by
  unfold State.chargeSlot
  repeat' first
    | with_reducible assumption
    | with_reducible refine keep_countCtx K.toQuiet ?_
    | with_reducible refine keep_countCore K.toQuiet ?_
    | dsimp only
    | split
    | with_reducible refine K.toQuiet.records _ _ _ _ _ ?_
    | with_reducible refine K.toPlain.upd _ _ _ _ _ _ _ _ _ _ ?_
    | with_reducible refine K.own _ _ _ _ _ _ _ _ _ _ _ ?_

theorem keep_dispatchCycle (K : Steady P) {s : State} {core : Nat} (H : P s) : P (State.dispatchCycle s core) := by
  unfold State.dispatchCycle
  repeat' first
    | with_reducible assumption
    | with_reducible refine keep_countDown K ?_
    | with_reducible refine keep_advance K ?_
    | with_reducible refine keep_chargeSlot K ?_
    | with_reducible refine K.core _ _ _ ?_ (by intro hx; first | exact hx | (dsimp only; split <;> exact hx))

theorem keep_placeBytes (K : Plain P) {s : State} {pa : Nat} {bytes : List (BitVec 8)} (H : P s) : P (State.placeBytes s pa bytes) := by
  unfold State.placeBytes
  repeat' first
    | with_reducible assumption
    | with_reducible refine keep_pokeWord K ?_
    | with_reducible refine foldl_keeps (p := P) (fun s a H => ?_) _ ?_
    | with_reducible refine foldl_fst_keeps (p := P) (fun q a H => ?_) _ ?_

theorem keep_loadImage (K : Plain P) {s : State} {sock : Nat} (H : P s) : P (State.loadImage s sock) := by
  unfold State.loadImage
  repeat' first
    | with_reducible assumption
    | with_reducible refine keep_placeBytes K ?_

theorem keep_logImage (K : Far P) {s : State} {sock : Nat} {d : BitVec 256} (H : P s) : P (State.logImage s sock d) := by
  unfold State.logImage
  repeat' first
    | with_reducible assumption
    | with_reducible refine K.pkg _ _ _ ?_

theorem keep_romWork (K : Far P) {s : State} {sock step : Nat} (H : P s) : P (State.romWork s sock step) := by
  unfold State.romWork
  repeat' first
    | with_reducible assumption
    | with_reducible refine keep_loadImage K.toPlain ?_
    | with_reducible refine keep_logImage K ?_
    | dsimp only
    | split

theorem keep_bootRom (K : Steady P) {s : State} (H : P s) : P (State.bootRom s) := by
  unfold State.bootRom
  repeat' first
    | with_reducible assumption
    | with_reducible refine keep_park K ?_
    | with_reducible refine keep_romWork K.toFar ?_
    | with_reducible refine K.toFar.pkg _ _ _ ?_
    | with_reducible refine K.modCtx ?_ _ (by intro x hx; first | exact hx | exact aligned_pcOf _ | (with_reducible simpa using hx) | (dsimp only; (repeat' split) <;> first | exact hx | exact aligned_pcOf _))
    | dsimp only
    | split
    | with_reducible refine K.toQuiet.records _ _ _ _ _ ?_
    | with_reducible refine K.toPlain.upd _ _ _ _ _ _ _ _ _ _ ?_

theorem keep_inboundWrite (K : Plain P) {s : State} {sock pa : Nat} {bytes : List (BitVec 8)} {tno : BitVec 12} (H : P s) : P (State.inboundWrite s sock pa bytes tno) := by
  unfold State.inboundWrite
  repeat' first
    | with_reducible assumption
    | with_reducible refine keep_serveLate K ?_
    | with_reducible refine keep_serveLate_eq K ?_ (by assumption)
    | with_reducible refine foldl_keeps (p := P) (fun s a H => ?_) _ ?_
    | dsimp only
    | split

theorem keep_inboundRead (K : Steady P) {sock : Nat} {tno : BitVec 12} {l : List Piece} {s : State} (H : P s) :
    P (inboundRead sock tno l s).2 := by
  induction l generalizing s with
  | nil => exact H
  | cons p l ih =>
    unfold inboundRead
    split
    · split
      · next e => exact ih ((keep_serve K.toPlain H).ok e)
      · next e => exact (keep_serve K.toPlain H).error e
    · exact H

theorem keep_inboundRead_eq (K : Steady P) {sock : Nat} {tno : BitVec 12} {l : List Piece} {s t : State} {y : Option (List (BitVec 8))}
    (H : P s) (E : inboundRead sock tno l s = (y, t)) : P t := by
  have z := keep_inboundRead K H (s := s) (sock := sock) (tno := tno) (l := l)
  rw [E] at z; exact z

theorem keep_emit (K : Plain P) {s : State} {o : Outgoing} (H : P s) : P (State.emit s o) := by
  unfold State.emit
  repeat' first
    | with_reducible assumption
    | dsimp only
    | with_reducible refine K.toQuiet.records _ _ _ _ _ ?_
    | with_reducible refine K.upd _ _ _ _ _ _ _ _ _ _ ?_

theorem keep_execDmaWrite (K : Plain P) {s : State} {sock port addr : Nat} {bytes : List (BitVec 8)} (H : P s) : Ends P (execDmaWrite sock port addr bytes s) := by
  unfold execDmaWrite
  repeat' first
    | with_reducible assumption
    | with_reducible refine keep_inboundWrite K ?_
    | with_reducible refine ends_next ?_

theorem keep_execDmaRead (K : Steady P) {s : State} {sock port addr n : Nat} (H : P s) : Ends P (execDmaRead sock port addr n s) := by
  unfold execDmaRead
  repeat' first
    | with_reducible assumption
    | with_reducible refine keep_inboundRead K ?_
    | with_reducible refine keep_inboundRead_eq K ?_ (by assumption)
    | with_reducible refine keep_emit K.toPlain ?_
    | with_reducible refine ends_next ?_
    | dsimp only
    | split

theorem keep_execHostMemAccess (K : Steady P) {s : State} {sock off n : Nat} {wr : Option (List (BitVec 8))} (H : P s) : Ends P (execHostMemAccess sock off n wr s) := by
  unfold execHostMemAccess
  repeat' first
    | with_reducible assumption
    | with_reducible refine keep_inboundWrite K.toPlain ?_
    | with_reducible refine keep_inboundRead K ?_
    | with_reducible refine keep_inboundRead_eq K ?_ (by assumption)
    | with_reducible refine keep_emit K.toPlain ?_
    | with_reducible refine ends_next ?_
    | dsimp only
    | split

theorem keep_execPowerBudgetSet (K : Far P) {s : State} {sock watts : Nat} (H : P s) : Ends P (execPowerBudgetSet sock watts s) := by
  unfold execPowerBudgetSet
  repeat' first
    | with_reducible assumption
    | with_reducible refine K.pkg _ _ _ ?_
    | with_reducible refine ends_next ?_
    | dsimp only
    | split

theorem keep_execOverTemperature (K : Far P) {s : State} {sock : Nat} (H : P s) : Ends P (execOverTemperature sock s) := by
  unfold execOverTemperature
  repeat' first
    | with_reducible assumption
    | with_reducible refine keep_emit K.toPlain ?_
    | with_reducible refine K.pkg _ _ _ ?_
    | with_reducible refine ends_next ?_

theorem keep_execHostLinkTrained (K : Far P) {s : State} {sock port : Nat} {width : BitVec 6} (H : P s) : Ends P (execHostLinkTrained sock port width s) := by
  unfold execHostLinkTrained
  repeat' first
    | with_reducible assumption
    | with_reducible refine K.pkg _ _ _ ?_
    | with_reducible refine ends_next ?_
    | dsimp only
    | split

theorem keep_portDevice (K : Steady P) {s : State} {addr n : Nat} {wr : Option Word} (H : P s) : P (State.portDevice s addr n wr) := by
  unfold State.portDevice
  repeat' first
    | with_reducible assumption
    | with_reducible refine keep_devRead K.toQuiet ?_
    | with_reducible refine keep_devRead_eq K.toQuiet ?_ (by assumption)
    | with_reducible refine keep_devWrite K ?_
    | with_reducible refine keep_emit K.toPlain ?_
    | dsimp only
    | split

theorem keep_portMemory (K : Plain P) {s : State} {addr n : Nat} {wr : Option Word} (H : P s) : P (State.portMemory s addr n wr) := by
  unfold State.portMemory
  repeat' first
    | with_reducible assumption
    | with_reducible refine keep_serve K ?_
    | with_reducible refine (keep_serve K ?_).ok (by assumption)
    | with_reducible refine (keep_serve K ?_).error (by assumption)
    | with_reducible refine keep_serveLate K ?_
    | with_reducible refine keep_serveLate_eq K ?_ (by assumption)
    | with_reducible refine keep_emit K ?_
    | dsimp only
    | split

theorem keep_execDebugPortAccess (K : Steady P) {s : State} {addr : Nat} {sz : BitVec 2} {wr : Option (BitVec 64)} (H : P s) : Ends P (execDebugPortAccess addr sz wr s) := by
  unfold execDebugPortAccess
  repeat' first
    | with_reducible assumption
    | with_reducible refine keep_portDevice K ?_
    | with_reducible refine keep_portMemory K.toPlain ?_
    | with_reducible refine ends_next ?_
    | dsimp only
    | split

theorem keep_execRegisterWrite (K : Steady P) {s : State} {addr : Nat} {x : BitVec 64} (H : P s) : Ends P (execRegisterWrite addr x s) := by
  unfold execRegisterWrite
  repeat' first
    | with_reducible assumption
    | with_reducible refine keep_devWrite K ?_
    | with_reducible refine ends_next ?_
    | dsimp only
    | split

theorem keep_execTrapRecordEnter (K : Plain P) {s : State} {core : Nat} (H : P s) : Ends P (execTrapRecordEnter core s) := by
  unfold execTrapRecordEnter
  repeat' first
    | with_reducible assumption
    | with_reducible refine keep_refill K ?_
    | with_reducible refine keep_wakeX7 K ?_
    | with_reducible refine K.wake _ _ ?_
    | with_reducible refine ends_next ?_
    | dsimp only
    | split

theorem keep_execPlacement (K : Steady P) {s : State} {cl : Nat} (H : P s) : Ends P (execPlacement cl s) := by
  unfold execPlacement
  repeat' first
    | with_reducible assumption
    | with_reducible refine keep_placement K ?_
    | with_reducible refine ends_next ?_

theorem keep_execPreemption (K : Steady P) {s : State} {cl : Nat} (H : P s) : Ends P (execPreemption cl s) := by
  unfold execPreemption
  repeat' first
    | with_reducible assumption
    | with_reducible refine keep_preemption K ?_
    | with_reducible refine ends_next ?_

theorem keep_execQuantumExpiry (K : Steady P) {s : State} {ctx : Nat} (H : P s) : Ends P (execQuantumExpiry ctx s) := by
  unfold execQuantumExpiry
  repeat' first
    | with_reducible assumption
    | with_reducible refine keep_quantumExpiry K ?_
    | with_reducible refine ends_next ?_

theorem keep_execPull (K : Steady P) {s : State} {cl : Nat} (H : P s) : Ends P (execPull cl s) := by
  unfold execPull
  repeat' first
    | with_reducible assumption
    | with_reducible refine keep_pull K ?_
    | with_reducible refine ends_next ?_

theorem keep_execTileBinding (K : Steady P) {s : State} {ctx : Nat} (H : P s) : Ends P (execTileBinding ctx s) := by
  unfold execTileBinding
  repeat' first
    | with_reducible assumption
    | with_reducible refine keep_tileBinding K ?_
    | with_reducible refine ends_next ?_

theorem keep_execExitedWrite (K : Steady P) {s : State} {tcb : Nat} (H : P s) : Ends P (execExitedWrite tcb s) := by
  unfold execExitedWrite
  repeat' first
    | with_reducible assumption
    | with_reducible refine keep_exitedWrite K ?_
    | with_reducible refine ends_next ?_

theorem keep_execTenantWindowBoundary (K : Steady P) {s : State} {sock : Nat} (H : P s) : Ends P (execTenantWindowBoundary sock s) := by
  unfold execTenantWindowBoundary
  repeat' first
    | with_reducible assumption
    | with_reducible refine keep_windowBoundary K ?_
    | with_reducible refine ends_next ?_

theorem keep_execContextTimeUpdate (K : Steady P) {s : State} {sock : Nat} (H : P s) : Ends P (execContextTimeUpdate sock s) := by
  unfold execContextTimeUpdate
  repeat' first
    | with_reducible assumption
    | with_reducible refine keep_contextTime K ?_
    | with_reducible refine ends_next ?_

theorem keep_execSleepDeadline (K : Steady P) {s : State} {cl : Nat} (H : P s) : Ends P (execSleepDeadline cl s) := by
  unfold execSleepDeadline
  repeat' first
    | with_reducible assumption
    | with_reducible refine keep_sleepDeadline K ?_
    | with_reducible refine ends_next ?_

theorem keep_execSleepOverflowWalk (K : Steady P) {s : State} {cl : Nat} (H : P s) : Ends P (execSleepOverflowWalk cl s) := by
  unfold execSleepOverflowWalk
  repeat' first
    | with_reducible assumption
    | with_reducible refine keep_sleepWalk K ?_
    | with_reducible refine ends_next ?_

theorem keep_execWaitTableRecheck (K : Steady P) {s : State} {cl line : Nat} (H : P s) : Ends P (execWaitTableRecheck cl line s) := by
  unfold execWaitTableRecheck
  repeat' first
    | with_reducible assumption
    | with_reducible refine keep_waitRecheck K ?_
    | with_reducible refine ends_next ?_

theorem keep_execWaitOverflowWalk (K : Steady P) {s : State} {cl : Nat} (H : P s) : Ends P (execWaitOverflowWalk cl s) := by
  unfold execWaitOverflowWalk
  repeat' first
    | with_reducible assumption
    | with_reducible refine keep_waitWalk K ?_
    | with_reducible refine ends_next ?_

theorem keep_execEngineStart (K : Steady P) {s : State} {eng : Nat} (H : P s) : Ends P (execEngineStart eng s) := by
  unfold execEngineStart
  repeat' first
    | with_reducible assumption
    | with_reducible refine keep_engineStart K ?_
    | with_reducible refine ends_next ?_

theorem keep_execTileComplete (K : Steady P) {s : State} {eng : Nat} (H : P s) : Ends P (execTileComplete eng s) := by
  unfold execTileComplete
  repeat' first
    | with_reducible assumption
    | with_reducible refine keep_tileComplete K ?_
    | with_reducible refine ends_next ?_

theorem keep_execTileStoreDrain (K : Steady P) {s : State} {eng : Nat} (H : P s) : Ends P (execTileStoreDrain eng s) := by
  unfold execTileStoreDrain
  repeat' first
    | with_reducible assumption
    | with_reducible refine keep_drainOldest K ?_
    | with_reducible refine ends_next ?_

theorem keep_execPutTPiece (K : Steady P) {s : State} {eng : Nat} (H : P s) : Ends P (execPutTPiece eng s) := by
  unfold execPutTPiece
  repeat' first
    | with_reducible assumption
    | with_reducible refine keep_sendTilePiece K ?_
    | with_reducible refine ends_next ?_

theorem keep_execStorePerform (K : Steady P) {s : State} {core : Nat} (H : P s) : Ends P (execStorePerform core s) := by
  unfold execStorePerform
  repeat' first
    | with_reducible assumption
    | with_reducible refine keep_performOldest K ?_
    | with_reducible refine ends_next ?_

theorem keep_execPutLineSend (K : Plain P) {s : State} {cl : Nat} (H : P s) : Ends P (execPutLineSend cl s) := by
  unfold execPutLineSend
  repeat' first
    | with_reducible assumption
    | with_reducible refine keep_putSend K ?_
    | with_reducible refine ends_next ?_

theorem keep_execPutLineLanded (K : Plain P) {s : State} {cl id bytes : Nat} (H : P s) : Ends P (execPutLineLanded cl id bytes s) := by
  unfold execPutLineLanded
  repeat' first
    | with_reducible assumption
    | with_reducible refine keep_putLanded K ?_
    | with_reducible refine ends_next ?_

theorem keep_execCopyTakeUp (K : Steady P) {s : State} {cl : Nat} (H : P s) : Ends P (execCopyTakeUp cl s) := by
  unfold execCopyTakeUp
  repeat' first
    | with_reducible assumption
    | with_reducible refine keep_copyTakeUp K ?_
    | with_reducible refine ends_next ?_

theorem keep_execCopyBurst (K : Steady P) {s : State} {cl : Nat} (H : P s) : Ends P (execCopyBurst cl s) := by
  unfold execCopyBurst
  repeat' first
    | with_reducible assumption
    | with_reducible refine keep_copyBurst K ?_
    | with_reducible refine ends_next ?_

theorem keep_execCopyStopMsgEnter (K : Plain P) {s : State} {cl : Nat} (H : P s) : Ends P (execCopyStopMsgEnter cl s) := by
  unfold execCopyStopMsgEnter
  repeat' first
    | with_reducible assumption
    | with_reducible refine keep_stopEnters K ?_
    | with_reducible refine ends_next ?_

theorem keep_execHomeRdt (K : Plain P) {s : State} {r : Req} (H : P s) : Ends P (execHomeRdt r s) := by
  unfold execHomeRdt
  repeat' first
    | with_reducible assumption
    | with_reducible refine keep_homeTakes K ?_
    | with_reducible refine ends_next ?_

theorem keep_execHomeRdu (K : Plain P) {s : State} {r : Req} (H : P s) : Ends P (execHomeRdu r s) := by
  unfold execHomeRdu
  repeat' first
    | with_reducible assumption
    | with_reducible refine keep_homeTakes K ?_
    | with_reducible refine ends_next ?_

theorem keep_execHomeRdw (K : Plain P) {s : State} {r : Req} (H : P s) : Ends P (execHomeRdw r s) := by
  unfold execHomeRdw
  repeat' first
    | with_reducible assumption
    | with_reducible refine keep_homeTakes K ?_
    | with_reducible refine ends_next ?_

theorem keep_execHomeOwn (K : Plain P) {s : State} {r : Req} (H : P s) : Ends P (execHomeOwn r s) := by
  unfold execHomeOwn
  repeat' first
    | with_reducible assumption
    | with_reducible refine keep_homeTakes K ?_
    | with_reducible refine ends_next ?_

theorem keep_execHomeWrt (K : Plain P) {s : State} {r : Req} (H : P s) : Ends P (execHomeWrt r s) := by
  unfold execHomeWrt
  repeat' first
    | with_reducible assumption
    | with_reducible refine keep_homeTakes K ?_
    | with_reducible refine ends_next ?_

theorem keep_execHomeWrs (K : Plain P) {s : State} {r : Req} (H : P s) : Ends P (execHomeWrs r s) := by
  unfold execHomeWrs
  repeat' first
    | with_reducible assumption
    | with_reducible refine keep_homeTakes K ?_
    | with_reducible refine ends_next ?_

theorem keep_execHomeWrw (K : Plain P) {s : State} {r : Req} (H : P s) : Ends P (execHomeWrw r s) := by
  unfold execHomeWrw
  repeat' first
    | with_reducible assumption
    | with_reducible refine keep_homeTakes K ?_
    | with_reducible refine ends_next ?_

theorem keep_execHomePutLine (K : Plain P) {s : State} {r : Req} (H : P s) : Ends P (execHomePutLine r s) := by
  unfold execHomePutLine
  repeat' first
    | with_reducible assumption
    | with_reducible refine keep_homeTakes K ?_
    | with_reducible refine ends_next ?_

theorem keep_execHomeAth (K : Plain P) {s : State} {r : Req} (H : P s) : Ends P (execHomeAth r s) := by
  unfold execHomeAth
  repeat' first
    | with_reducible assumption
    | with_reducible refine keep_homeTakes K ?_
    | with_reducible refine ends_next ?_

theorem keep_execHomeWb (K : Plain P) {s : State} {r : Req} (H : P s) : Ends P (execHomeWb r s) := by
  unfold execHomeWb
  repeat' first
    | with_reducible assumption
    | with_reducible refine keep_homeTakes K ?_
    | with_reducible refine ends_next ?_

theorem keep_execDeadLetterAppend (K : Plain P) {s : State} {dl : DeadLetter} (H : P s) : Ends P (execDeadLetterAppend dl s) := by
  unfold execDeadLetterAppend
  repeat' first
    | with_reducible assumption
    | with_reducible refine keep_deadLetter K ?_
    | with_reducible refine ends_next ?_

theorem keep_execInvalidation (K : Plain P) {s : State} {cl line w : Nat} (H : P s) : Ends P (execInvalidation cl line w s) := by
  unfold execInvalidation
  repeat' first
    | with_reducible assumption
    | with_reducible refine keep_invalidate K ?_
    | with_reducible refine keep_invalidate_eq K ?_ (by assumption)
    | with_reducible refine ends_next ?_
    | dsimp only
    | split
    | with_reducible refine K.toQuiet.records _ _ _ _ _ ?_
    | with_reducible refine K.upd _ _ _ _ _ _ _ _ _ _ ?_

theorem keep_execRecall (K : Plain P) {s : State} {cl line w : Nat} (H : P s) : Ends P (execRecall cl line w s) := by
  unfold execRecall
  repeat' first
    | with_reducible assumption
    | with_reducible refine keep_recall K ?_
    | with_reducible refine keep_recall_eq K ?_ (by assumption)
    | with_reducible refine ends_next ?_
    | dsimp only
    | split
    | with_reducible refine K.toQuiet.records _ _ _ _ _ ?_
    | with_reducible refine K.upd _ _ _ _ _ _ _ _ _ _ ?_

theorem keep_execDowngrade (K : Plain P) {s : State} {cl line w : Nat} (H : P s) : Ends P (execDowngrade cl line w s) := by
  unfold execDowngrade
  repeat' first
    | with_reducible assumption
    | with_reducible refine keep_downgrade K ?_
    | with_reducible refine keep_downgrade_eq K ?_ (by assumption)
    | with_reducible refine ends_next ?_
    | with_reducible refine holds_get_bind ?_
    | with_reducible refine holds_pure_bind ?_
    | with_reducible refine holds_bind ?_ (fun a t H => ?_)
    | with_reducible refine holds_pure _ ?_
    | with_reducible refine holds_get ?_
    | dsimp only
    | split
    | with_reducible refine K.toQuiet.records _ _ _ _ _ ?_
    | with_reducible refine K.upd _ _ _ _ _ _ _ _ _ _ ?_

theorem keep_execForwardedRead (K : Plain P) {s : State} {cl line w : Nat} (H : P s) : Ends P (execForwardedRead cl line w s) := by
  unfold execForwardedRead
  repeat' first
    | with_reducible assumption
    | with_reducible refine ends_next ?_
    | dsimp only
    | with_reducible refine K.toQuiet.records _ _ _ _ _ ?_
    | with_reducible refine K.upd _ _ _ _ _ _ _ _ _ _ ?_

theorem keep_execEndingReply (K : Plain P) {s : State} {port : Nat} {cmx : Bool} (H : P s) : Ends P (execEndingReply port cmx s) := by
  unfold execEndingReply
  repeat' first
    | with_reducible assumption
    | with_reducible refine keep_endingReply K ?_
    | with_reducible refine ends_next ?_

theorem keep_execRequestAdmission (K : Plain P) {s : State} {port : Nat} (H : P s) : Ends P (execRequestAdmission port s) := by
  unfold execRequestAdmission
  repeat' first
    | with_reducible assumption
    | with_reducible refine keep_admission K ?_
    | with_reducible refine ends_next ?_

theorem keep_execSwitchForward (K : Plain P) {s : State} {stage sw out : Nat} (H : P s) : Ends P (execSwitchForward stage sw out s) := by
  unfold execSwitchForward
  repeat' first
    | with_reducible assumption
    | with_reducible refine keep_forwardFrom K ?_
    | with_reducible refine ends_next ?_

theorem keep_execEnergyRefill (K : Quiet P) {s : State} {sock : Nat} (H : P s) : Ends P (execEnergyRefill sock s) := by
  unfold execEnergyRefill
  repeat' first
    | with_reducible assumption
    | with_reducible refine keep_energyRefill K ?_
    | with_reducible refine ends_next ?_

theorem keep_execEfcBudgetRefill (K : Plain P) {s : State} {sock : Nat} (H : P s) : Ends P (execEfcBudgetRefill sock s) := by
  unfold execEfcBudgetRefill
  repeat' first
    | with_reducible assumption
    | with_reducible refine keep_efcRefill K ?_
    | with_reducible refine ends_next ?_

theorem keep_execEfcTakeRecord (K : Quiet P) {s : State} {efc : Nat} (H : P s) : Ends P (execEfcTakeRecord efc s) := by
  unfold execEfcTakeRecord
  repeat' first
    | with_reducible assumption
    | with_reducible refine keep_efcTake K ?_
    | with_reducible refine ends_next ?_

theorem keep_execFotsync (K : Plain P) {s : State} {sock : Nat} {x : Word} (H : P s) : Ends P (execFotsync sock x s) := by
  unfold execFotsync
  repeat' first
    | with_reducible assumption
    | with_reducible refine keep_fotSync K ?_
    | with_reducible refine ends_next ?_

theorem keep_execTentsync (K : Far P) {s : State} {sock : Nat} {x : Word} (H : P s) : Ends P (execTentsync sock x s) := by
  unfold execTentsync
  repeat' first
    | with_reducible assumption
    | with_reducible refine keep_tentSync K ?_
    | with_reducible refine ends_next ?_

theorem keep_execCoreRelease (K : Steady P) {s : State} {sock : Nat} {x : Word} (H : P s) : Ends P (execCoreRelease sock x s) := by
  unfold execCoreRelease
  repeat' first
    | with_reducible assumption
    | with_reducible refine keep_releaseCore K ?_
    | with_reducible refine ends_next ?_

theorem keep_execAttestAppend (K : Far P) {s : State} {sock : Nat} {ty : BitVec 8} (H : P s) : Ends P (execAttestAppend sock ty s) := by
  unfold execAttestAppend
  repeat' first
    | with_reducible assumption
    | with_reducible refine keep_attestAppend K ?_
    | with_reducible refine ends_next ?_
    | dsimp only
    | split

theorem keep_execAttestSign (K : Far P) {s : State} {sock : Nat} (H : P s) : Ends P (execAttestSign sock s) := by
  unfold execAttestSign
  repeat' first
    | with_reducible assumption
    | with_reducible refine keep_attestSign K ?_
    | with_reducible refine ends_next ?_

theorem keep_execAttestSignDone (K : Far P) {s : State} {sock : Nat} (H : P s) : Ends P (execAttestSignDone sock s) := by
  unfold execAttestSignDone
  repeat' first
    | with_reducible assumption
    | with_reducible refine keep_attestSigned K ?_
    | with_reducible refine ends_next ?_

theorem keep_execDebugStop (K : Steady P) {s : State} {ctx : Nat} (H : P s) : Ends P (execDebugStop ctx s) := by
  unfold execDebugStop
  repeat' first
    | with_reducible assumption
    | with_reducible refine keep_debugStop K ?_
    | with_reducible refine ends_next ?_
    | dsimp only
    | split

theorem keep_execDebugResume (K : Steady P) {s : State} {ctx : Nat} (H : P s) : Ends P (execDebugResume ctx s) := by
  unfold execDebugResume
  repeat' first
    | with_reducible assumption
    | with_reducible refine keep_debugResume K ?_
    | with_reducible refine ends_next ?_
    | dsimp only
    | split

theorem keep_execDbgdataAccess (K : Steady P) {s : State} {core : Nat} {wr : Option (BitVec 64)} (H : P s) : Ends P (execDbgdataAccess core wr s) := by
  unfold execDbgdataAccess
  repeat' first
    | with_reducible assumption
    | with_reducible refine keep_dbgDataWrite K ?_
    | with_reducible refine keep_emit K.toPlain ?_
    | with_reducible refine ends_next ?_
    | dsimp only
    | split

theorem keep_execLinkRetrain (K : Far P) {s : State} {sock port : Nat} {x : Word} (H : P s) : Ends P (execLinkRetrain sock port x s) := by
  unfold execLinkRetrain
  repeat' first
    | with_reducible assumption
    | with_reducible refine keep_writeFabPort K ?_
    | with_reducible refine ends_next ?_
    | dsimp only
    | split

theorem keep_execLinkTrained (K : Far P) {s : State} {sock port : Nat} (H : P s) : Ends P (execLinkTrained sock port s) := by
  unfold execLinkTrained
  repeat' first
    | with_reducible assumption
    | with_reducible refine keep_linkTrained K ?_
    | with_reducible refine ends_next ?_

theorem keep_execCoherentLinkDown (K : Far P) {s : State} {sock port : Nat} (H : P s) : Ends P (execCoherentLinkDown sock port s) := by
  unfold execCoherentLinkDown
  repeat' first
    | with_reducible assumption
    | with_reducible refine keep_coherentDown K ?_
    | with_reducible refine ends_next ?_

theorem keep_execFarDataReceive (K : Far P) {s : State} {sock port : Nat} {f : Frame} (H : P s) : Ends P (execFarDataReceive sock port f s) := by
  unfold execFarDataReceive
  repeat' first
    | with_reducible assumption
    | with_reducible refine keep_farData K ?_
    | with_reducible refine ends_next ?_

theorem keep_execFarAckReceive (K : Far P) {s : State} {sock port : Nat} {f : Frame} (H : P s) : Ends P (execFarAckReceive sock port f s) := by
  unfold execFarAckReceive
  repeat' first
    | with_reducible assumption
    | with_reducible refine keep_farAck K ?_
    | with_reducible refine ends_next ?_

theorem keep_execFarNakReceive (K : Far P) {s : State} {sock port : Nat} {f : Frame} (H : P s) : Ends P (execFarNakReceive sock port f s) := by
  unfold execFarNakReceive
  repeat' first
    | with_reducible assumption
    | with_reducible refine keep_farNak K ?_
    | with_reducible refine ends_next ?_

theorem keep_execFarRefuseReceive (K : Far P) {s : State} {sock port : Nat} {f : Frame} (H : P s) : Ends P (execFarRefuseReceive sock port f s) := by
  unfold execFarRefuseReceive
  repeat' first
    | with_reducible assumption
    | with_reducible refine keep_farRefuse K ?_
    | with_reducible refine ends_next ?_

theorem keep_execFarTimeout (K : Plain P) {s : State} {sock dest : Nat} (H : P s) : Ends P (execFarTimeout sock dest s) := by
  unfold execFarTimeout
  repeat' first
    | with_reducible assumption
    | with_reducible refine keep_farExpire K ?_
    | with_reducible refine ends_next ?_

theorem keep_execFarAckTimer (K : Far P) {s : State} {sock : Nat} (H : P s) : Ends P (execFarAckTimer sock s) := by
  unfold execFarAckTimer
  repeat' first
    | with_reducible assumption
    | with_reducible refine keep_ackTimer K ?_
    | with_reducible refine ends_next ?_

theorem keep_execLinkLackReceive (K : Far P) {s : State} {sock port : Nat} {f : Frame} (H : P s) : Ends P (execLinkLackReceive sock port f s) := by
  unfold execLinkLackReceive
  repeat' first
    | with_reducible assumption
    | with_reducible refine keep_linkLack K ?_
    | with_reducible refine ends_next ?_

theorem keep_execLinkLnakReceive (K : Plain P) {s : State} {sock port : Nat} {f : Frame} (H : P s) : Ends P (execLinkLnakReceive sock port f s) := by
  unfold execLinkLnakReceive
  repeat' first
    | with_reducible assumption
    | with_reducible refine keep_linkLnak K ?_
    | with_reducible refine ends_next ?_

theorem keep_execFaridWrite (K : Far P) {s : State} {sock : Nat} {x : Word} (H : P s) : Ends P (execFaridWrite sock x s) := by
  unfold execFaridWrite
  repeat' first
    | with_reducible assumption
    | with_reducible refine keep_writeFarId K ?_
    | with_reducible refine ends_next ?_

theorem keep_execDispatchCycle (K : Steady P) {s : State} {core : Nat} (H : P s) : Ends P (execDispatchCycle core s) := by
  unfold execDispatchCycle
  repeat' first
    | with_reducible assumption
    | with_reducible refine keep_dispatchCycle K ?_
    | with_reducible refine ends_next ?_

theorem keep_execEngineCycle (K : Quiet P) {s : State} {sock : Nat} (H : P s) : Ends P (execEngineCycle sock s) := by
  unfold execEngineCycle
  repeat' first
    | with_reducible assumption
    | with_reducible refine keep_engineCycle K ?_
    | with_reducible refine ends_next ?_

theorem keep_execFarPortDown (K : Far P) {s : State} {sock port : Nat} (H : P s) : Ends P (execFarPortDown sock port s) := by
  unfold execFarPortDown
  repeat' first
    | with_reducible assumption
    | with_reducible refine keep_farPortDown K ?_
    | with_reducible refine ends_next ?_

end Sys2Proof.Machine
end

