-- ==== Sys2Proof/Laws/KeepInstr.lean ====
section
/-! SUPPORT. Every instruction keeps a Steady predicate. -/

namespace Sys2Proof.Machine

variable {P : State → Prop}

theorem keep_alu2 (K : Steady P) {s : State} {f : Nat → Nat → Nat → Nat} {d a b : Reg} {w : Bool} (H : P s) : Ends P (alu2 f d a b w s) := by
  unfold alu2
  repeat' first
    | with_reducible assumption
    | with_reducible refine keep_writeG K ?_
    | with_reducible refine ends_next ?_
    | with_reducible refine ends_commit K ?_ ?_

theorem keep_alu1 (K : Steady P) {s : State} {f : Nat → Nat → Nat} {d a : Reg} {w : Bool} (H : P s) : Ends P (alu1 f d a w s) := by
  unfold alu1
  repeat' first
    | with_reducible assumption
    | with_reducible refine keep_writeG K ?_
    | with_reducible refine ends_next ?_
    | with_reducible refine ends_commit K ?_ ?_

theorem keep_setReg (K : Steady P) {s : State} {d : Reg} {v : Word} (H : P s) : Ends P (setReg d v s) := by
  unfold setReg
  repeat' first
    | with_reducible assumption
    | with_reducible refine keep_writeG K ?_
    | with_reducible refine ends_next ?_
    | with_reducible refine ends_commit K ?_ ?_

theorem keep_execAdd (K : Steady P) {s : State} {d a b : Reg} {w : Bool} (H : P s) : Ends P (execAdd d a b w s) := by
  unfold execAdd
  repeat' first
    | with_reducible assumption
    | with_reducible refine keep_alu2 K ?_

theorem keep_execSub (K : Steady P) {s : State} {d a b : Reg} {w : Bool} (H : P s) : Ends P (execSub d a b w s) := by
  unfold execSub
  repeat' first
    | with_reducible assumption
    | with_reducible refine keep_alu2 K ?_

theorem keep_execAnd (K : Steady P) {s : State} {d a b : Reg} {w : Bool} (H : P s) : Ends P (execAnd d a b w s) := by
  unfold execAnd
  repeat' first
    | with_reducible assumption
    | with_reducible refine keep_alu2 K ?_

theorem keep_execOr (K : Steady P) {s : State} {d a b : Reg} {w : Bool} (H : P s) : Ends P (execOr d a b w s) := by
  unfold execOr
  repeat' first
    | with_reducible assumption
    | with_reducible refine keep_alu2 K ?_

theorem keep_execXor (K : Steady P) {s : State} {d a b : Reg} {w : Bool} (H : P s) : Ends P (execXor d a b w s) := by
  unfold execXor
  repeat' first
    | with_reducible assumption
    | with_reducible refine keep_alu2 K ?_

theorem keep_execAndn (K : Steady P) {s : State} {d a b : Reg} {w : Bool} (H : P s) : Ends P (execAndn d a b w s) := by
  unfold execAndn
  repeat' first
    | with_reducible assumption
    | with_reducible refine keep_alu2 K ?_

theorem keep_execOrn (K : Steady P) {s : State} {d a b : Reg} {w : Bool} (H : P s) : Ends P (execOrn d a b w s) := by
  unfold execOrn
  repeat' first
    | with_reducible assumption
    | with_reducible refine keep_alu2 K ?_

theorem keep_execSll (K : Steady P) {s : State} {d a b : Reg} {w : Bool} (H : P s) : Ends P (execSll d a b w s) := by
  unfold execSll
  repeat' first
    | with_reducible assumption
    | with_reducible refine keep_alu2 K ?_

theorem keep_execSrl (K : Steady P) {s : State} {d a b : Reg} {w : Bool} (H : P s) : Ends P (execSrl d a b w s) := by
  unfold execSrl
  repeat' first
    | with_reducible assumption
    | with_reducible refine keep_alu2 K ?_

theorem keep_execSra (K : Steady P) {s : State} {d a b : Reg} {w : Bool} (H : P s) : Ends P (execSra d a b w s) := by
  unfold execSra
  repeat' first
    | with_reducible assumption
    | with_reducible refine keep_alu2 K ?_

theorem keep_execRol (K : Steady P) {s : State} {d a b : Reg} {w : Bool} (H : P s) : Ends P (execRol d a b w s) := by
  unfold execRol
  repeat' first
    | with_reducible assumption
    | with_reducible refine keep_alu2 K ?_

theorem keep_execRor (K : Steady P) {s : State} {d a b : Reg} {w : Bool} (H : P s) : Ends P (execRor d a b w s) := by
  unfold execRor
  repeat' first
    | with_reducible assumption
    | with_reducible refine keep_alu2 K ?_

theorem keep_execMul (K : Steady P) {s : State} {d a b : Reg} {w : Bool} (H : P s) : Ends P (execMul d a b w s) := by
  unfold execMul
  repeat' first
    | with_reducible assumption
    | with_reducible refine keep_alu2 K ?_

theorem keep_execMulh (K : Steady P) {s : State} {d a b : Reg} {w : Bool} (H : P s) : Ends P (execMulh d a b w s) := by
  unfold execMulh
  repeat' first
    | with_reducible assumption
    | with_reducible refine keep_alu2 K ?_

theorem keep_execMulhn (K : Steady P) {s : State} {d a b : Reg} {w : Bool} (H : P s) : Ends P (execMulhn d a b w s) := by
  unfold execMulhn
  repeat' first
    | with_reducible assumption
    | with_reducible refine keep_alu2 K ?_

theorem keep_execDiv (K : Steady P) {s : State} {d a b : Reg} {w : Bool} (H : P s) : Ends P (execDiv d a b w s) := by
  unfold execDiv
  repeat' first
    | with_reducible assumption
    | with_reducible refine keep_alu2 K ?_

theorem keep_execDivn (K : Steady P) {s : State} {d a b : Reg} {w : Bool} (H : P s) : Ends P (execDivn d a b w s) := by
  unfold execDivn
  repeat' first
    | with_reducible assumption
    | with_reducible refine keep_alu2 K ?_

theorem keep_execRem (K : Steady P) {s : State} {d a b : Reg} {w : Bool} (H : P s) : Ends P (execRem d a b w s) := by
  unfold execRem
  repeat' first
    | with_reducible assumption
    | with_reducible refine keep_alu2 K ?_

theorem keep_execRemn (K : Steady P) {s : State} {d a b : Reg} {w : Bool} (H : P s) : Ends P (execRemn d a b w s) := by
  unfold execRemn
  repeat' first
    | with_reducible assumption
    | with_reducible refine keep_alu2 K ?_

theorem keep_execMin (K : Steady P) {s : State} {d a b : Reg} {w : Bool} (H : P s) : Ends P (execMin d a b w s) := by
  unfold execMin
  repeat' first
    | with_reducible assumption
    | with_reducible refine keep_alu2 K ?_

theorem keep_execMax (K : Steady P) {s : State} {d a b : Reg} {w : Bool} (H : P s) : Ends P (execMax d a b w s) := by
  unfold execMax
  repeat' first
    | with_reducible assumption
    | with_reducible refine keep_alu2 K ?_

theorem keep_execMinn (K : Steady P) {s : State} {d a b : Reg} {w : Bool} (H : P s) : Ends P (execMinn d a b w s) := by
  unfold execMinn
  repeat' first
    | with_reducible assumption
    | with_reducible refine keep_alu2 K ?_

theorem keep_execMaxn (K : Steady P) {s : State} {d a b : Reg} {w : Bool} (H : P s) : Ends P (execMaxn d a b w s) := by
  unfold execMaxn
  repeat' first
    | with_reducible assumption
    | with_reducible refine keep_alu2 K ?_

theorem keep_execCset (K : Steady P) {s : State} {d a b : Reg} {k : BitVec 3} (H : P s) : Ends P (execCset d a b k s) := by
  unfold execCset
  repeat' first
    | with_reducible assumption
    | with_reducible refine keep_setReg K ?_

theorem keep_execSel (K : Steady P) {s : State} {d a b c : Reg} (H : P s) : Ends P (execSel d a b c s) := by
  unfold execSel
  repeat' first
    | with_reducible assumption
    | with_reducible refine keep_setReg K ?_

theorem keep_execPopc (K : Steady P) {s : State} {d a : Reg} {w : Bool} (H : P s) : Ends P (execPopc d a w s) := by
  unfold execPopc
  repeat' first
    | with_reducible assumption
    | with_reducible refine keep_alu1 K ?_

theorem keep_execClz (K : Steady P) {s : State} {d a : Reg} {w : Bool} (H : P s) : Ends P (execClz d a w s) := by
  unfold execClz
  repeat' first
    | with_reducible assumption
    | with_reducible refine keep_alu1 K ?_

theorem keep_execCtz (K : Steady P) {s : State} {d a : Reg} {w : Bool} (H : P s) : Ends P (execCtz d a w s) := by
  unfold execCtz
  repeat' first
    | with_reducible assumption
    | with_reducible refine keep_alu1 K ?_

theorem keep_execBrev (K : Steady P) {s : State} {d a : Reg} {w : Bool} (H : P s) : Ends P (execBrev d a w s) := by
  unfold execBrev
  repeat' first
    | with_reducible assumption
    | with_reducible refine keep_alu1 K ?_

theorem keep_execFnth (K : Steady P) {s : State} {d a : Reg} {w : Bool} (H : P s) : Ends P (execFnth d a w s) := by
  unfold execFnth
  repeat' first
    | with_reducible assumption
    | with_reducible refine keep_alu1 K ?_

theorem keep_execAddi (K : Steady P) {s : State} {d a : Reg} {im : BitVec 14} (H : P s) : Ends P (execAddi d a im s) := by
  unfold execAddi
  repeat' first
    | with_reducible assumption
    | with_reducible refine keep_setReg K ?_

theorem keep_execAndi (K : Steady P) {s : State} {d a : Reg} {im : BitVec 14} (H : P s) : Ends P (execAndi d a im s) := by
  unfold execAndi
  repeat' first
    | with_reducible assumption
    | with_reducible refine keep_setReg K ?_

theorem keep_execOri (K : Steady P) {s : State} {d a : Reg} {im : BitVec 14} (H : P s) : Ends P (execOri d a im s) := by
  unfold execOri
  repeat' first
    | with_reducible assumption
    | with_reducible refine keep_setReg K ?_

theorem keep_execXori (K : Steady P) {s : State} {d a : Reg} {im : BitVec 14} (H : P s) : Ends P (execXori d a im s) := by
  unfold execXori
  repeat' first
    | with_reducible assumption
    | with_reducible refine keep_setReg K ?_

theorem keep_execCsetiEq (K : Steady P) {s : State} {d a : Reg} {im : BitVec 14} (H : P s) : Ends P (execCsetiEq d a im s) := by
  unfold execCsetiEq
  repeat' first
    | with_reducible assumption
    | with_reducible refine keep_setReg K ?_

theorem keep_execCsetiNe (K : Steady P) {s : State} {d a : Reg} {im : BitVec 14} (H : P s) : Ends P (execCsetiNe d a im s) := by
  unfold execCsetiNe
  repeat' first
    | with_reducible assumption
    | with_reducible refine keep_setReg K ?_

theorem keep_execCsetiLt (K : Steady P) {s : State} {d a : Reg} {im : BitVec 14} (H : P s) : Ends P (execCsetiLt d a im s) := by
  unfold execCsetiLt
  repeat' first
    | with_reducible assumption
    | with_reducible refine keep_setReg K ?_

theorem keep_execCsetiLtn (K : Steady P) {s : State} {d a : Reg} {im : BitVec 14} (H : P s) : Ends P (execCsetiLtn d a im s) := by
  unfold execCsetiLtn
  repeat' first
    | with_reducible assumption
    | with_reducible refine keep_setReg K ?_

theorem keep_execSlli (K : Steady P) {s : State} {d a : Reg} {p : BitVec 6} {w : Bool} (H : P s) : Ends P (execSlli d a p w s) := by
  unfold execSlli
  repeat' first
    | with_reducible assumption
    | with_reducible refine keep_alu1 K ?_

theorem keep_execSrli (K : Steady P) {s : State} {d a : Reg} {p : BitVec 6} {w : Bool} (H : P s) : Ends P (execSrli d a p w s) := by
  unfold execSrli
  repeat' first
    | with_reducible assumption
    | with_reducible refine keep_alu1 K ?_

theorem keep_execSrai (K : Steady P) {s : State} {d a : Reg} {p : BitVec 6} {w : Bool} (H : P s) : Ends P (execSrai d a p w s) := by
  unfold execSrai
  repeat' first
    | with_reducible assumption
    | with_reducible refine keep_alu1 K ?_

theorem keep_execRori (K : Steady P) {s : State} {d a : Reg} {p : BitVec 6} {w : Bool} (H : P s) : Ends P (execRori d a p w s) := by
  unfold execRori
  repeat' first
    | with_reducible assumption
    | with_reducible refine keep_alu1 K ?_

theorem keep_execBext (K : Steady P) {s : State} {d a : Reg} {p l : BitVec 6} (H : P s) : Ends P (execBext d a p l s) := by
  unfold execBext
  repeat' first
    | with_reducible assumption
    | with_reducible refine keep_setReg K ?_

theorem keep_execBexts (K : Steady P) {s : State} {d a : Reg} {p l : BitVec 6} (H : P s) : Ends P (execBexts d a p l s) := by
  unfold execBexts
  repeat' first
    | with_reducible assumption
    | with_reducible refine keep_setReg K ?_

theorem keep_execBins (K : Steady P) {s : State} {d a : Reg} {p l : BitVec 6} (H : P s) : Ends P (execBins d a p l s) := by
  unfold execBins
  repeat' first
    | with_reducible assumption
    | with_reducible refine keep_setReg K ?_

theorem keep_execLui (K : Steady P) {s : State} {d : Reg} {im : BitVec 21} (H : P s) : Ends P (execLui d im s) := by
  unfold execLui
  repeat' first
    | with_reducible assumption
    | with_reducible refine keep_setReg K ?_

theorem keep_execLpa (K : Steady P) {s : State} {d : Reg} {im : BitVec 21} (H : P s) : Ends P (execLpa d im s) := by
  unfold execLpa
  repeat' first
    | with_reducible assumption
    | with_reducible refine keep_setReg K ?_

theorem keep_execBCond (K : Steady P) {s : State} {h : BitVec 2} {k : BitVec 3} {a b : Reg} {l : BitVec 12} (H : P s) : Ends P (execBCond h k a b l s) := by
  unfold execBCond
  repeat' first
    | with_reducible assumption
    | with_reducible refine ends_next ?_
    | with_reducible refine ends_commitTo K ?_ ?_

theorem keep_execJl (K : Steady P) {s : State} {d : Reg} {off : BitVec 22} (H : P s) : Ends P (execJl d off s) := by
  unfold execJl
  repeat' first
    | with_reducible assumption
    | with_reducible refine keep_writeG K ?_
    | with_reducible refine ends_next ?_
    | with_reducible refine ends_commitTo K ?_ ?_

theorem keep_execJlr (K : Steady P) {s : State} {d a : Reg} {off : BitVec 14} (H : P s) : Ends P (execJlr d a off s) := by
  unfold execJlr
  repeat' first
    | with_reducible assumption
    | with_reducible refine keep_writeG K ?_
    | with_reducible refine ends_next ?_
    | with_reducible refine ends_commitTo K ?_ ?_
    | with_reducible refine ends_trapNow K ?_
    | dsimp only
    | split

theorem keep_execLd (K : Steady P) {s : State} {d b : Reg} {pol : Pol} {ord : Order} {sc : Scope} {z : BitVec 2} {x : Bool} {off : BitVec 7} (H : P s) : Ends P (execLd d b pol ord sc z x off s) := by
  unfold execLd
  repeat' first
    | with_reducible assumption
    | with_reducible refine keep_loadReg K ?_
    | with_reducible refine ends_next ?_
    | with_reducible refine ends_runAct K ?_ (fun t H => ?_)

theorem keep_execLdx (K : Steady P) {s : State} {d b : Reg} {pol : Pol} {ord : Order} {sc : Scope} {z : BitVec 2} {x : Bool} {idx : Reg} {c : Bool} (H : P s) : Ends P (execLdx d b pol ord sc z x idx c s) := by
  unfold execLdx
  repeat' first
    | with_reducible assumption
    | with_reducible refine keep_loadReg K ?_
    | with_reducible refine ends_next ?_
    | with_reducible refine ends_runAct K ?_ (fun t H => ?_)

theorem keep_execSt (K : Steady P) {s : State} {t b : Reg} {pol : Pol} {ord : Order} {sc : Scope} {z : BitVec 2} {off : BitVec 7} (H : P s) : Ends P (execSt t b pol ord sc z off s) := by
  unfold execSt
  repeat' first
    | with_reducible assumption
    | with_reducible refine keep_storeReg K ?_
    | with_reducible refine ends_next ?_
    | with_reducible refine ends_runAct K ?_ (fun t H => ?_)

theorem keep_execStx (K : Steady P) {s : State} {t b : Reg} {pol : Pol} {ord : Order} {sc : Scope} {z : BitVec 2} {idx : Reg} {c : Bool} (H : P s) : Ends P (execStx t b pol ord sc z idx c s) := by
  unfold execStx
  repeat' first
    | with_reducible assumption
    | with_reducible refine keep_storeReg K ?_
    | with_reducible refine ends_next ?_
    | with_reducible refine ends_runAct K ?_ (fun t H => ?_)

theorem keep_atomicValue (K : Steady P) {s : State} {op : AmoOp} {va : Word} {n : Nat} {x cmp : Word} {pol : Pol} {ord : Order} {sc : Scope} (H : P s) : Holds P (atomicValue op va n x cmp pol ord sc) s := by
  unfold atomicValue
  repeat' first
    | with_reducible assumption
    | with_reducible refine holds_guarded ?_ ?_
    | with_reducible refine keep_clAtomic K.toPlain ?_
    | with_reducible refine keep_acquireAt K.toPlain ?_
    | with_reducible refine keep_note K ?_
    | with_reducible refine keep_xlate K.toPlain ?_
    | with_reducible refine keep_notDevice K.toQuiet ?_
    | with_reducible refine keep_waitOwn K ?_
    | with_reducible refine keep_releaseWait K ?_
    | with_reducible refine keep_aligned K.toQuiet ?_
    | with_reducible refine holds_get_bind ?_
    | with_reducible refine holds_modify_bind ?_
    | with_reducible refine holds_pure_bind ?_
    | with_reducible refine holds_bind ?_ (fun a t H => ?_)
    | with_reducible refine holds_pure _ ?_
    | with_reducible refine holds_get ?_
    | with_reducible refine holds_modify ?_
    | with_reducible refine holds_lift ?_
    | dsimp only
    | split

theorem keep_atomicReg (K : Steady P) {s : State} {op : AmoOp} {d b : Reg} {pol : Pol} {ord : Order} {sc : Scope} {v : Reg} {w : Bool} (H : P s) : Ends P (atomicReg op d b pol ord sc v w s) := by
  unfold atomicReg
  repeat' first
    | with_reducible assumption
    | with_reducible refine keep_writeG K ?_
    | with_reducible refine keep_atomicValue K ?_
    | with_reducible refine ends_next ?_
    | with_reducible refine ends_runAct K ?_ (fun t H => ?_)
    | with_reducible refine holds_get_bind ?_
    | with_reducible refine holds_modify_bind ?_
    | with_reducible refine holds_pure_bind ?_
    | with_reducible refine holds_bind ?_ (fun a t H => ?_)
    | with_reducible refine holds_pure _ ?_
    | with_reducible refine holds_get ?_
    | with_reducible refine holds_modify ?_

theorem keep_execAmoAdd (K : Steady P) {s : State} {d b : Reg} {pol : Pol} {ord : Order} {sc : Scope} {v : Reg} {w : Bool} (H : P s) : Ends P (execAmoAdd d b pol ord sc v w s) := by
  unfold execAmoAdd
  repeat' first
    | with_reducible assumption
    | with_reducible refine keep_atomicReg K ?_

theorem keep_execAmoAnd (K : Steady P) {s : State} {d b : Reg} {pol : Pol} {ord : Order} {sc : Scope} {v : Reg} {w : Bool} (H : P s) : Ends P (execAmoAnd d b pol ord sc v w s) := by
  unfold execAmoAnd
  repeat' first
    | with_reducible assumption
    | with_reducible refine keep_atomicReg K ?_

theorem keep_execAmoOr (K : Steady P) {s : State} {d b : Reg} {pol : Pol} {ord : Order} {sc : Scope} {v : Reg} {w : Bool} (H : P s) : Ends P (execAmoOr d b pol ord sc v w s) := by
  unfold execAmoOr
  repeat' first
    | with_reducible assumption
    | with_reducible refine keep_atomicReg K ?_

theorem keep_execAmoXor (K : Steady P) {s : State} {d b : Reg} {pol : Pol} {ord : Order} {sc : Scope} {v : Reg} {w : Bool} (H : P s) : Ends P (execAmoXor d b pol ord sc v w s) := by
  unfold execAmoXor
  repeat' first
    | with_reducible assumption
    | with_reducible refine keep_atomicReg K ?_

theorem keep_execAmoMin (K : Steady P) {s : State} {d b : Reg} {pol : Pol} {ord : Order} {sc : Scope} {v : Reg} {w : Bool} (H : P s) : Ends P (execAmoMin d b pol ord sc v w s) := by
  unfold execAmoMin
  repeat' first
    | with_reducible assumption
    | with_reducible refine keep_atomicReg K ?_

theorem keep_execAmoMax (K : Steady P) {s : State} {d b : Reg} {pol : Pol} {ord : Order} {sc : Scope} {v : Reg} {w : Bool} (H : P s) : Ends P (execAmoMax d b pol ord sc v w s) := by
  unfold execAmoMax
  repeat' first
    | with_reducible assumption
    | with_reducible refine keep_atomicReg K ?_

theorem keep_execAmoMinn (K : Steady P) {s : State} {d b : Reg} {pol : Pol} {ord : Order} {sc : Scope} {v : Reg} {w : Bool} (H : P s) : Ends P (execAmoMinn d b pol ord sc v w s) := by
  unfold execAmoMinn
  repeat' first
    | with_reducible assumption
    | with_reducible refine keep_atomicReg K ?_

theorem keep_execAmoMaxn (K : Steady P) {s : State} {d b : Reg} {pol : Pol} {ord : Order} {sc : Scope} {v : Reg} {w : Bool} (H : P s) : Ends P (execAmoMaxn d b pol ord sc v w s) := by
  unfold execAmoMaxn
  repeat' first
    | with_reducible assumption
    | with_reducible refine keep_atomicReg K ?_

theorem keep_execAmoSwap (K : Steady P) {s : State} {d b : Reg} {pol : Pol} {ord : Order} {sc : Scope} {v : Reg} {w : Bool} (H : P s) : Ends P (execAmoSwap d b pol ord sc v w s) := by
  unfold execAmoSwap
  repeat' first
    | with_reducible assumption
    | with_reducible refine keep_atomicReg K ?_

theorem keep_execCas (K : Steady P) {s : State} {d b : Reg} {pol : Pol} {ord : Order} {sc : Scope} {v : Reg} {w : Bool} (H : P s) : Ends P (execCas d b pol ord sc v w s) := by
  unfold execCas
  repeat' first
    | with_reducible assumption
    | with_reducible refine keep_atomicReg K ?_

theorem keep_execFence (K : Steady P) {s : State} {ord : Order} {sc : Scope} (H : P s) : Ends P (execFence ord sc s) := by
  unfold execFence
  repeat' first
    | with_reducible assumption
    | with_reducible refine holds_guarded ?_ ?_
    | with_reducible refine keep_acquireAt K.toPlain ?_
    | with_reducible refine keep_releaseWait K ?_
    | with_reducible refine K.modMe ?_ (by intro x hx; first | exact hx | exact aligned_pcOf _ | (with_reducible simpa using hx) | (dsimp only; (repeat' split) <;> first | exact hx | exact aligned_pcOf _))
    | with_reducible refine ends_next ?_
    | with_reducible refine ends_runAct K ?_ (fun t H => ?_)
    | with_reducible refine holds_get_bind ?_
    | with_reducible refine holds_modify_bind ?_
    | with_reducible refine holds_pure_bind ?_
    | with_reducible refine holds_bind ?_ (fun a t H => ?_)
    | with_reducible refine holds_pure _ ?_
    | with_reducible refine holds_get ?_
    | with_reducible refine holds_modify ?_
    | with_reducible refine ends_of ?_ (by assumption)
    | dsimp only
    | split

theorem keep_markResident (K : Plain P) {s : State} {cl line : Nat} (H : P s) : P (State.markResident s cl line) := by
  unfold State.markResident
  repeat' first
    | with_reducible assumption
    | with_reducible refine K.cluster _ _ _ ?_ (by intro x; constructor <;> rfl)
    | with_reducible refine foldl_keeps (p := P) (fun s a H => ?_) _ ?_
    | dsimp only
    | split
    | with_reducible refine K.toQuiet.records _ _ _ _ _ ?_
    | with_reducible refine K.upd _ _ _ _ _ _ _ _ _ _ ?_

theorem keep_prefFill (K : Plain P) {s : State} {a : Agent} {pol : Pol} {own : Bool} {line : Nat} (H : P s) : Holds P (prefFill a pol own line) s := by
  unfold prefFill
  repeat' first
    | with_reducible assumption
    | with_reducible refine keep_clRead K ?_
    | with_reducible refine keep_obtain K ?_
    | with_reducible refine holds_get_bind ?_
    | with_reducible refine holds_pure_bind ?_
    | with_reducible refine holds_bind ?_ (fun a t H => ?_)
    | with_reducible refine holds_pure _ ?_
    | with_reducible refine holds_get ?_
    | with_reducible refine holds_forM (fun a t H => ?_) _ ?_
    | dsimp only
    | split

theorem keep_prefLine (K : Plain P) {s : State} {va : Word} {pol : Pol} {own : Bool} (H : P s) : Holds P (prefLine va pol own) s := by
  unfold prefLine
  repeat' first
    | with_reducible assumption
    | with_reducible refine keep_xlate K ?_
    | with_reducible refine keep_notDevice K.toQuiet ?_
    | with_reducible refine keep_prefFill K ?_
    | with_reducible refine holds_get_bind ?_
    | with_reducible refine holds_pure_bind ?_
    | with_reducible refine holds_bind ?_ (fun a t H => ?_)
    | with_reducible refine holds_pure _ ?_
    | with_reducible refine holds_get ?_
    | with_reducible refine holds_lift ?_

theorem keep_prefAct (K : Plain P) {s : State} {va : Word} {pol : Pol} {own mark : Bool} (H : P s) :
    Holds P (prefAct va pol own mark) s := by
  have h := keep_prefLine K (va := va) (pol := pol) (own := own) H
  unfold Holds prefAct
  cases e : prefLine va pol own s with
  | ok a t =>
    have ht := h.ok e
    refine holds_guarded ht (holds_modify ?_)
    split
    · exact keep_markResident K ht
    · exact ht
  | error a t =>
    have ht := h.error e
    exact holds_guarded ht (holds_modify (keep_countCtx K.toQuiet ht))

theorem keep_execPref (K : Steady P) {s : State} {b : Reg} {pol : Pol} {h : BitVec 3} {off : BitVec 7} (H : P s) : Ends P (execPref b pol h off s) := by
  unfold execPref
  repeat' first
    | with_reducible assumption
    | with_reducible refine keep_prefAct K.toPlain ?_
    | with_reducible refine ends_next ?_
    | with_reducible refine ends_runAct K ?_ (fun t H => ?_)

theorem keep_maintLine (K : Steady P) {s : State} {va : Word} (H : P s) : Holds P (maintLine va) s := by
  unfold maintLine
  repeat' first
    | with_reducible assumption
    | with_reducible refine keep_xlate K.toPlain ?_
    | with_reducible refine keep_notDevice K.toQuiet ?_
    | with_reducible refine keep_waitOwn K ?_
    | with_reducible refine holds_get_bind ?_
    | with_reducible refine holds_modify_bind ?_
    | with_reducible refine holds_pure_bind ?_
    | with_reducible refine holds_bind ?_ (fun a t H => ?_)
    | with_reducible refine holds_pure _ ?_

theorem keep_execCwb (K : Steady P) {s : State} {b : Reg} {off : BitVec 7} (H : P s) : Ends P (execCwb b off s) := by
  unfold execCwb
  repeat' first
    | with_reducible assumption
    | with_reducible refine holds_guarded ?_ ?_
    | with_reducible refine keep_writeBack K.toPlain ?_
    | with_reducible refine keep_drainWord K.toPlain ?_
    | with_reducible refine keep_maintLine K ?_
    | with_reducible refine foldl_keeps (p := P) (fun s a H => ?_) _ ?_
    | with_reducible refine ends_next ?_
    | with_reducible refine ends_runAct K ?_ (fun t H => ?_)
    | with_reducible refine holds_get_bind ?_
    | with_reducible refine holds_modify_bind ?_
    | with_reducible refine holds_pure_bind ?_
    | with_reducible refine holds_bind ?_ (fun a t H => ?_)
    | with_reducible refine holds_pure _ ?_
    | with_reducible refine holds_get ?_
    | with_reducible refine holds_modify ?_

theorem keep_execCinv (K : Steady P) {s : State} {b : Reg} {off : BitVec 7} (H : P s) : Ends P (execCinv b off s) := by
  unfold execCinv
  repeat' first
    | with_reducible assumption
    | with_reducible refine holds_guarded ?_ ?_
    | with_reducible refine keep_writeBack K.toPlain ?_
    | with_reducible refine keep_drainWord K.toPlain ?_
    | with_reducible refine keep_maintLine K ?_
    | with_reducible refine K.clu _ _ _ ?_
    | with_reducible refine foldl_keeps (p := P) (fun s a H => ?_) _ ?_
    | with_reducible refine ends_next ?_
    | with_reducible refine ends_runAct K ?_ (fun t H => ?_)
    | with_reducible refine holds_get_bind ?_
    | with_reducible refine holds_modify_bind ?_
    | with_reducible refine holds_pure_bind ?_
    | with_reducible refine holds_bind ?_ (fun a t H => ?_)
    | with_reducible refine holds_pure _ ?_
    | with_reducible refine holds_get ?_
    | with_reducible refine holds_modify ?_

theorem keep_execSvc (K : Steady P) {s : State} {_im : BitVec 13} (H : P s) : Ends P (execSvc _im s) := by
  unfold execSvc
  repeat' first
    | with_reducible assumption
    | with_reducible refine ends_next ?_
    | with_reducible refine ends_trapNow K ?_

theorem keep_execBrk (K : Steady P) {s : State} {_im : BitVec 13} (H : P s) : Ends P (execBrk _im s) := by
  unfold execBrk
  repeat' first
    | with_reducible assumption
    | with_reducible refine keep_takeBreak K ?_
    | with_reducible refine ends_next ?_

theorem keep_execSysrd (K : Steady P) {s : State} {d : Reg} {n : BitVec 13} (H : P s) : Ends P (execSysrd d n s) := by
  unfold execSysrd
  repeat' first
    | with_reducible assumption
    | with_reducible refine keep_writeG K ?_
    | with_reducible refine ends_next ?_
    | with_reducible refine ends_commit K ?_ ?_
    | with_reducible refine ends_trapNow K ?_
    | dsimp only
    | split

theorem keep_execSyswr (K : Steady P) {s : State} {t : Reg} {n : BitVec 13} (H : P s) : Ends P (execSyswr t n s) := by
  unfold execSyswr
  repeat' first
    | with_reducible assumption
    | with_reducible refine keep_supWrite K ?_
    | with_reducible refine K.modMe ?_ (by intro x hx; first | exact hx | exact aligned_pcOf _ | (with_reducible simpa using hx) | (dsimp only; (repeat' split) <;> first | exact hx | exact aligned_pcOf _))
    | with_reducible refine ends_next ?_
    | with_reducible refine ends_commit K ?_ ?_
    | with_reducible refine ends_trapNow K ?_
    | dsimp only
    | split

theorem keep_execCtxrd (K : Steady P) {s : State} {d a : Reg} {n : BitVec 13} (H : P s) : Ends P (execCtxrd d a n s) := by
  unfold execCtxrd
  repeat' first
    | with_reducible assumption
    | with_reducible refine keep_writeG K ?_
    | with_reducible refine ends_next ?_
    | with_reducible refine ends_commit K ?_ ?_
    | with_reducible refine ends_trapNow K ?_
    | dsimp only
    | split

theorem keep_execCtxwr (K : Steady P) {s : State} {t a : Reg} {n : BitVec 13} (H : P s) : Ends P (execCtxwr t a n s) := by
  unfold execCtxwr
  repeat' first
    | with_reducible assumption
    | with_reducible refine keep_regWrite K ?_
    | with_reducible refine ends_next ?_
    | with_reducible refine ends_commit K ?_ ?_
    | with_reducible refine ends_trapNow K ?_
    | dsimp only
    | split

theorem keep_evictThread (K : Steady P) {s : State} {c : Nat} (H : P s) : P (State.evictThread s c) := by
  unfold State.evictThread
  repeat' first
    | with_reducible assumption
    | with_reducible refine keep_save K ?_

theorem keep_execTret (K : Steady P) {s : State} {a : Reg} (H : P s) : Ends P (execTret a s) := by
  unfold execTret
  repeat' first
    | with_reducible assumption
    | with_reducible refine keep_returnTo K ?_
    | with_reducible refine keep_releaseWait K ?_
    | with_reducible refine keep_evictThread K ?_
    | with_reducible refine K.modCtx ?_ _ (by intro x hx; first | exact hx | exact aligned_pcOf _ | (with_reducible simpa using hx) | (dsimp only; (repeat' split) <;> first | exact hx | exact aligned_pcOf _))
    | with_reducible refine ends_next ?_
    | with_reducible refine ends_commit K ?_ ?_
    | with_reducible refine ends_trapNow K ?_
    | dsimp only
    | split

theorem keep_execTredir (K : Steady P) {s : State} {h a : Reg} (H : P s) : Ends P (execTredir h a s) := by
  unfold execTredir
  repeat' first
    | with_reducible assumption
    | with_reducible refine keep_returnTo K ?_
    | with_reducible refine keep_releaseWait K ?_
    | with_reducible refine K.modCtx ?_ _ (by intro x hx; first | exact hx | exact aligned_pcOf _ | (with_reducible simpa using hx) | (dsimp only; (repeat' split) <;> first | exact hx | exact aligned_pcOf _))
    | with_reducible refine ends_next ?_
    | with_reducible refine ends_commit K ?_ ?_
    | with_reducible refine ends_trapNow K ?_
    | dsimp only
    | split

theorem keep_execWfm (K : Steady P) {s : State} {d : Reg} (H : P s) : Ends P (execWfm d s) := by
  unfold execWfm
  split
  · exact ends_trapNow K H
  · split
    · exact ends_next (K.modMe H fun _ h => h)
    · next m rest e =>
      refine ends_commit K H (keep_discardU K.toPlain (keep_refill K.toPlain (K.modMe (K.core _ _ _ H ?_) ?_)))
      · intro h; rw [e] at h; simp at h ⊢; omega
      · intro x h; simpa using h

theorem keep_squashHeld (K : Steady P) {s : State} {core : Nat} (H : P s) : P (State.squashHeld s core) := by
  unfold State.squashHeld
  repeat' first
    | with_reducible assumption
    | with_reducible refine keep_dropWait K ?_
    | with_reducible refine K.modCtx ?_ _ (by intro x hx; first | exact hx | exact aligned_pcOf _ | (with_reducible simpa using hx) | (dsimp only; (repeat' split) <;> first | exact hx | exact aligned_pcOf _))
    | dsimp only
    | split

theorem keep_drainCore (K : Steady P) {s : State} {core : Nat} (H : P s) : P (State.drainCore s core) := by
  unfold State.drainCore
  repeat' first
    | with_reducible assumption
    | with_reducible refine keep_performMany K ?_

theorem keep_drainCluster (K : Steady P) {s : State} {d : Nat} (H : P s) : P (State.drainCluster s d) := by
  unfold State.drainCluster
  repeat' first
    | with_reducible assumption
    | with_reducible refine keep_drainWord K.toPlain ?_
    | with_reducible refine keep_drainMany K ?_
    | with_reducible refine foldl_keeps (p := P) (fun s a H => ?_) _ ?_

theorem keep_tlbInvalidate (K : Steady P) {s : State} {sc : Scope} {r : Removal} (H : P s) : P (State.tlbInvalidate s sc r) := by
  unfold State.tlbInvalidate
  repeat' first
    | with_reducible assumption
    | with_reducible refine keep_releaseWait K ?_
    | with_reducible refine keep_squashHeld K ?_
    | with_reducible refine keep_drainCore K ?_
    | with_reducible refine keep_drainCluster K ?_
    | with_reducible refine K.clu _ _ _ ?_
    | with_reducible refine K.core _ _ _ ?_ (by intro hx; first | exact hx | (dsimp only; split <;> exact hx))
    | with_reducible refine foldl_keeps (p := P) (fun s a H => ?_) _ ?_
    | exact K.core _ _ _ H id

theorem keep_tlbiOp (K : Steady P) {s : State} {sc : Scope} {r : Removal} (H : P s) : Ends P (tlbiOp sc r s) := by
  unfold tlbiOp
  repeat' first
    | with_reducible assumption
    | with_reducible refine keep_tlbInvalidate K ?_
    | with_reducible refine K.modMe ?_ (by intro x hx; first | exact hx | exact aligned_pcOf _ | (with_reducible simpa using hx) | (dsimp only; (repeat' split) <;> first | exact hx | exact aligned_pcOf _))
    | with_reducible refine ends_next ?_
    | with_reducible refine ends_commit K ?_ ?_
    | with_reducible refine ends_trapNow K ?_
    | dsimp only
    | split

theorem keep_execTlbiPage (K : Steady P) {s : State} {a : Reg} {sc : Scope} (H : P s) : Ends P (execTlbiPage a sc s) := by
  unfold execTlbiPage
  repeat' first
    | with_reducible assumption
    | with_reducible refine keep_tlbiOp K ?_

theorem keep_execTlbiAsn (K : Steady P) {s : State} {a : Reg} {sc : Scope} (H : P s) : Ends P (execTlbiAsn a sc s) := by
  unfold execTlbiAsn
  repeat' first
    | with_reducible assumption
    | with_reducible refine keep_tlbiOp K ?_

theorem keep_execTlbiAll (K : Steady P) {s : State} {sc : Scope} (H : P s) : Ends P (execTlbiAll sc s) := by
  unfold execTlbiAll
  repeat' first
    | with_reducible assumption
    | with_reducible refine keep_tlbiOp K ?_

theorem keep_checkSelector (K : Quiet P) {s : State} {x : Word} {set : Bool} (H : P s) : Holds P (checkSelector x set) s := by
  unfold checkSelector
  repeat' first
    | with_reducible assumption
    | with_reducible refine holds_get_bind ?_
    | with_reducible refine holds_set_bind ?_
    | with_reducible refine holds_pure_bind ?_
    | with_reducible refine holds_bind ?_ (fun a t H => ?_)
    | with_reducible refine holds_pure _ ?_
    | with_reducible refine holds_get ?_
    | with_reducible refine holds_set ?_
    | with_reducible refine holds_trapIf _ _ ?_

theorem keep_selSettle (K : Steady P) {s : State} {x : Word} (H : P s) : P (State.selSettle s x) := by
  unfold State.selSettle
  repeat' first
    | with_reducible assumption
    | with_reducible refine keep_settle K ?_
    | dsimp only
    | split

theorem keep_selWrite (K : Quiet P) {s : State} {x v : Word} (H : P s) : P (State.selWrite s x v) := by
  unfold State.selWrite
  repeat' first
    | with_reducible assumption
    | with_reducible refine keep_setCtr K ?_
    | dsimp only
    | split

theorem keep_execCtrrd (K : Steady P) {s : State} {d a : Reg} {im : BitVec 14} (H : P s) : Ends P (execCtrrd d a im s) := by
  unfold execCtrrd
  repeat' first
    | with_reducible assumption
    | with_reducible refine keep_writeG K ?_
    | with_reducible refine keep_readBytes K.toPlain ?_
    | with_reducible refine keep_xlate K.toPlain ?_
    | with_reducible refine keep_notDevice K.toQuiet ?_
    | with_reducible refine keep_waitOwn K ?_
    | with_reducible refine keep_aligned K.toQuiet ?_
    | with_reducible refine keep_checkSelector K.toQuiet ?_
    | with_reducible refine keep_selSettle K ?_
    | with_reducible refine ends_next ?_
    | with_reducible refine ends_runAct K ?_ (fun t H => ?_)
    | with_reducible refine holds_get_bind ?_
    | with_reducible refine holds_modify_bind ?_
    | with_reducible refine holds_pure_bind ?_
    | with_reducible refine holds_bind ?_ (fun a t H => ?_)
    | with_reducible refine holds_pure _ ?_
    | with_reducible refine holds_get ?_
    | with_reducible refine holds_modify ?_
    | with_reducible refine holds_lift ?_
    | with_reducible refine ends_of ?_ (by assumption)
    | dsimp only
    | split

theorem keep_execCtrset (K : Steady P) {s : State} {t a : Reg} {im : BitVec 14} (H : P s) : Ends P (execCtrset t a im s) := by
  unfold execCtrset
  repeat' first
    | with_reducible assumption
    | with_reducible refine holds_guarded ?_ ?_
    | with_reducible refine keep_clAtomic K.toPlain ?_
    | with_reducible refine keep_xlate K.toPlain ?_
    | with_reducible refine keep_notDevice K.toQuiet ?_
    | with_reducible refine keep_waitOwn K ?_
    | with_reducible refine keep_aligned K.toQuiet ?_
    | with_reducible refine keep_checkSelector K.toQuiet ?_
    | with_reducible refine keep_selSettle K ?_
    | with_reducible refine keep_selWrite K.toQuiet ?_
    | with_reducible refine ends_next ?_
    | with_reducible refine ends_runAct K ?_ (fun t H => ?_)
    | with_reducible refine holds_get_bind ?_
    | with_reducible refine holds_modify_bind ?_
    | with_reducible refine holds_pure_bind ?_
    | with_reducible refine holds_bind ?_ (fun a t H => ?_)
    | with_reducible refine holds_pure _ ?_
    | with_reducible refine holds_get ?_
    | with_reducible refine holds_modify ?_
    | with_reducible refine holds_lift ?_
    | with_reducible refine ends_of ?_ (by assumption)
    | dsimp only
    | split

theorem keep_execErd (K : Steady P) {s : State} {d a : Reg} {im : BitVec 14} (H : P s) : Ends P (execErd d a im s) := by
  unfold execErd
  repeat' first
    | with_reducible assumption
    | with_reducible refine keep_writeG K ?_
    | with_reducible refine ends_next ?_
    | with_reducible refine ends_commit K ?_ ?_
    | with_reducible refine ends_trapNow K ?_
    | dsimp only
    | split

theorem keep_cwaitRead (K : Steady P) {s : State} {cva : Word} {sc : Scope} (H : P s) : Holds P (cwaitRead cva sc) s := by
  unfold cwaitRead
  repeat' first
    | with_reducible assumption
    | with_reducible refine keep_readBytes K.toPlain ?_
    | with_reducible refine keep_xlate K.toPlain ?_
    | with_reducible refine keep_notDevice K.toQuiet ?_
    | with_reducible refine keep_waitOwn K ?_
    | with_reducible refine keep_aligned K.toQuiet ?_
    | with_reducible refine holds_get_bind ?_
    | with_reducible refine holds_modify_bind ?_
    | with_reducible refine holds_pure_bind ?_
    | with_reducible refine holds_bind ?_ (fun a t H => ?_)
    | with_reducible refine holds_pure _ ?_
    | with_reducible refine holds_get ?_
    | with_reducible refine holds_modify ?_
    | with_reducible refine holds_lift ?_

theorem keep_execCwait (K : Steady P) {s : State} {t c : Reg} {sc : Scope} (H : P s) : Ends P (execCwait t c sc s) := by
  unfold execCwait
  repeat' first
    | with_reducible assumption
    | with_reducible refine keep_acquireAt K.toPlain ?_
    | with_reducible refine keep_setTcb K.toPlain ?_
    | with_reducible refine keep_park K ?_
    | with_reducible refine keep_takeTrap K ?_
    | with_reducible refine keep_takeMatch K ?_
    | with_reducible refine keep_retire K ?_
    | with_reducible refine keep_restoreMe K ?_ ?_
    | with_reducible refine keep_addWait K ?_
    | with_reducible refine keep_cwaitRead K ?_
    | with_reducible refine (keep_cwaitRead K ?_).ok (by assumption)
    | with_reducible refine (keep_cwaitRead K ?_).error (by assumption)
    | with_reducible refine K.modCtx ?_ _ (by intro x hx; first | exact hx | exact aligned_pcOf _ | (with_reducible simpa using hx) | (dsimp only; (repeat' split) <;> first | exact hx | exact aligned_pcOf _))
    | with_reducible refine K.modMe ?_ (by intro x hx; first | exact hx | exact aligned_pcOf _ | (with_reducible simpa using hx) | (dsimp only; (repeat' split) <;> first | exact hx | exact aligned_pcOf _))
    | with_reducible refine ends_next ?_
    | dsimp only
    | split

theorem ends_retireThen (K : Steady P) {s : State} {f : State → State} (H : P s) (hf : ∀ t, P t → P (f t)) :
    Ends P (retireThen s f) := by
  unfold retireThen
  split
  · exact ends_next (keep_matched K H ‹_›)
  · exact ends_next (hf _ (keep_retire K H))

theorem keep_threadTarget (K : Steady P) {s : State} {va : Word} (H : P s) : Holds P (threadTarget va) s := by
  unfold threadTarget
  repeat' first
    | with_reducible assumption
    | with_reducible refine keep_clRead K.toPlain ?_
    | with_reducible refine keep_xlate K.toPlain ?_
    | with_reducible refine keep_notDevice K.toQuiet ?_
    | with_reducible refine keep_waitOwn K ?_
    | with_reducible refine keep_aligned K.toQuiet ?_
    | with_reducible refine holds_get_bind ?_
    | with_reducible refine holds_modify_bind ?_
    | with_reducible refine holds_pure_bind ?_
    | with_reducible refine holds_bind ?_ (fun a t H => ?_)
    | with_reducible refine holds_pure _ ?_
    | with_reducible refine holds_get ?_
    | with_reducible refine holds_modify ?_
    | with_reducible refine holds_forM (fun a t H => ?_) _ ?_
    | with_reducible refine holds_lift ?_
    | with_reducible refine holds_trapIf _ _ ?_

theorem keep_reachDispatcher (K : Plain P) {s : State} {cl : Nat} (H : P s) : P (State.reachDispatcher s cl) := by
  unfold State.reachDispatcher
  repeat' first
    | with_reducible assumption
    | with_reducible refine keep_visit K ?_
    | dsimp only
    | split

theorem keep_spawn (K : Steady P) {s : State} {pa : Nat} (H : P s) : P (State.spawn s pa) := by
  unfold State.spawn
  repeat' first
    | with_reducible assumption
    | with_reducible refine keep_setTcb K.toPlain ?_
    | with_reducible refine keep_enqueue K ?_
    | with_reducible refine keep_joinGroup K.toFar ?_
    | with_reducible refine keep_reachDispatcher K.toPlain ?_
    | with_reducible refine foldl_keeps (p := P) (fun s a H => ?_) _ ?_
    | dsimp only
    | split

theorem keep_execTspawn (K : Steady P) {s : State} {d a : Reg} (H : P s) : Ends P (execTspawn d a s) := by
  unfold execTspawn
  repeat' first
    | with_reducible assumption
    | with_reducible refine holds_guarded ?_ ?_
    | with_reducible refine keep_writeG K ?_
    | with_reducible refine keep_releaseWait K ?_
    | with_reducible refine keep_threadTarget K ?_
    | with_reducible refine keep_spawn K ?_
    | with_reducible refine ends_next ?_
    | with_reducible refine ends_runAct K ?_ (fun t H => ?_)
    | with_reducible refine holds_get_bind ?_
    | with_reducible refine holds_modify_bind ?_
    | with_reducible refine holds_pure_bind ?_
    | with_reducible refine holds_bind ?_ (fun a t H => ?_)
    | with_reducible refine holds_pure _ ?_
    | with_reducible refine holds_get ?_
    | with_reducible refine holds_modify ?_
    | with_reducible refine holds_trapIf _ _ ?_

theorem keep_execTyield (K : Steady P) {s : State} (H : P s) : Ends P (execTyield s) := by
  unfold execTyield
  repeat' first
    | with_reducible assumption
    | with_reducible refine keep_append K ?_
    | with_reducible refine keep_save K ?_
    | with_reducible refine K.modMe ?_ (by intro x hx; first | exact hx | exact aligned_pcOf _ | (with_reducible simpa using hx) | (dsimp only; (repeat' split) <;> first | exact hx | exact aligned_pcOf _))
    | with_reducible refine ends_next ?_
    | with_reducible refine ends_commit K ?_ ?_
    | with_reducible refine ends_retireThen K ?_ (fun t H => ?_)
    | dsimp only
    | split

theorem keep_execTsleep (K : Steady P) {s : State} {a : Reg} (H : P s) : Ends P (execTsleep a s) := by
  unfold execTsleep
  repeat' first
    | with_reducible assumption
    | with_reducible refine keep_save K ?_
    | with_reducible refine keep_addSleeper K ?_
    | with_reducible refine ends_next ?_
    | with_reducible refine ends_commit K ?_ ?_
    | with_reducible refine ends_retireThen K ?_ (fun t H => ?_)
    | dsimp only
    | split

theorem keep_execTwake (K : Steady P) {s : State} {d a : Reg} (H : P s) : Ends P (execTwake d a s) := by
  unfold execTwake
  repeat' first
    | with_reducible assumption
    | with_reducible refine holds_guarded ?_ ?_
    | with_reducible refine keep_writeG K ?_
    | with_reducible refine keep_wake K ?_
    | with_reducible refine keep_dropSleep K ?_
    | with_reducible refine keep_threadTarget K ?_
    | with_reducible refine keep_reachDispatcher K.toPlain ?_
    | with_reducible refine ends_next ?_
    | with_reducible refine ends_runAct K ?_ (fun t H => ?_)
    | with_reducible refine holds_get_bind ?_
    | with_reducible refine holds_modify_bind ?_
    | with_reducible refine holds_pure_bind ?_
    | with_reducible refine holds_bind ?_ (fun a t H => ?_)
    | with_reducible refine holds_pure _ ?_
    | with_reducible refine holds_get ?_
    | with_reducible refine holds_modify ?_
    | with_reducible refine ends_of ?_ (by assumption)
    | dsimp only
    | split

theorem keep_execTexit (K : Steady P) {s : State} (H : P s) : Ends P (execTexit s) := by
  unfold execTexit
  repeat' first
    | with_reducible assumption
    | with_reducible refine keep_exitThread K ?_
    | with_reducible refine ends_next ?_
    | with_reducible refine ends_commit K ?_ ?_
    | with_reducible refine ends_retireThen K ?_ (fun t H => ?_)
    | dsimp only
    | split

theorem keep_setPrio (K : Steady P) {s : State} {pa q : Nat} (H : P s) : P (State.setPrio s pa q) := by
  unfold State.setPrio
  repeat' first
    | with_reducible assumption
    | with_reducible refine keep_setTcb K.toPlain ?_
    | with_reducible refine keep_append K ?_
    | with_reducible refine keep_unlink K ?_
    | with_reducible refine keep_reachDispatcher K.toPlain ?_
    | with_reducible refine K.modCtx ?_ _ (by intro x hx; first | exact hx | exact aligned_pcOf _ | (with_reducible simpa using hx) | (dsimp only; (repeat' split) <;> first | exact hx | exact aligned_pcOf _))
    | dsimp only
    | split

theorem keep_execTprio (K : Steady P) {s : State} {d a b : Reg} (H : P s) : Ends P (execTprio d a b s) := by
  unfold execTprio
  repeat' first
    | with_reducible assumption
    | with_reducible refine holds_guarded ?_ ?_
    | with_reducible refine keep_writeG K ?_
    | with_reducible refine keep_threadTarget K ?_
    | with_reducible refine keep_setPrio K ?_
    | with_reducible refine ends_next ?_
    | with_reducible refine ends_runAct K ?_ (fun t H => ?_)
    | with_reducible refine holds_get_bind ?_
    | with_reducible refine holds_set_bind ?_
    | with_reducible refine holds_modify_bind ?_
    | with_reducible refine holds_pure_bind ?_
    | with_reducible refine holds_bind ?_ (fun a t H => ?_)
    | with_reducible refine holds_pure _ ?_
    | with_reducible refine holds_get ?_
    | with_reducible refine holds_set ?_
    | with_reducible refine holds_modify ?_
    | with_reducible refine holds_trapIf _ _ ?_

theorem keep_vecInt (K : Steady P) {s : State} {f : Nat → Nat → Nat → Nat → Nat} {d a b : Reg} {e : BitVec 2} {g : BitVec 3} {z : Bool} (H : P s) : Ends P (vecInt f d a b e g z s) := by
  unfold vecInt
  repeat' first
    | with_reducible assumption
    | with_reducible refine keep_writeV K ?_
    | with_reducible refine ends_next ?_
    | with_reducible refine ends_commit K ?_ ?_

theorem keep_execVadd (K : Steady P) {s : State} {d a b : Reg} {e : BitVec 2} {g : BitVec 3} {z : Bool} (H : P s) : Ends P (execVadd d a b e g z s) := by
  unfold execVadd
  repeat' first
    | with_reducible assumption
    | with_reducible refine keep_vecInt K ?_

theorem keep_execVsub (K : Steady P) {s : State} {d a b : Reg} {e : BitVec 2} {g : BitVec 3} {z : Bool} (H : P s) : Ends P (execVsub d a b e g z s) := by
  unfold execVsub
  repeat' first
    | with_reducible assumption
    | with_reducible refine keep_vecInt K ?_

theorem keep_execVmul (K : Steady P) {s : State} {d a b : Reg} {e : BitVec 2} {g : BitVec 3} {z : Bool} (H : P s) : Ends P (execVmul d a b e g z s) := by
  unfold execVmul
  repeat' first
    | with_reducible assumption
    | with_reducible refine keep_vecInt K ?_

theorem keep_execVmulhI (K : Steady P) {s : State} {d a b : Reg} {e : BitVec 2} {g : BitVec 3} {z : Bool} (H : P s) : Ends P (execVmulhI d a b e g z s) := by
  unfold execVmulhI
  repeat' first
    | with_reducible assumption
    | with_reducible refine keep_vecInt K ?_

theorem keep_execVmulhN (K : Steady P) {s : State} {d a b : Reg} {e : BitVec 2} {g : BitVec 3} {z : Bool} (H : P s) : Ends P (execVmulhN d a b e g z s) := by
  unfold execVmulhN
  repeat' first
    | with_reducible assumption
    | with_reducible refine keep_vecInt K ?_

theorem keep_execVminI (K : Steady P) {s : State} {d a b : Reg} {e : BitVec 2} {g : BitVec 3} {z : Bool} (H : P s) : Ends P (execVminI d a b e g z s) := by
  unfold execVminI
  repeat' first
    | with_reducible assumption
    | with_reducible refine keep_vecInt K ?_

theorem keep_execVminN (K : Steady P) {s : State} {d a b : Reg} {e : BitVec 2} {g : BitVec 3} {z : Bool} (H : P s) : Ends P (execVminN d a b e g z s) := by
  unfold execVminN
  repeat' first
    | with_reducible assumption
    | with_reducible refine keep_vecInt K ?_

theorem keep_execVmaxI (K : Steady P) {s : State} {d a b : Reg} {e : BitVec 2} {g : BitVec 3} {z : Bool} (H : P s) : Ends P (execVmaxI d a b e g z s) := by
  unfold execVmaxI
  repeat' first
    | with_reducible assumption
    | with_reducible refine keep_vecInt K ?_

theorem keep_execVmaxN (K : Steady P) {s : State} {d a b : Reg} {e : BitVec 2} {g : BitVec 3} {z : Bool} (H : P s) : Ends P (execVmaxN d a b e g z s) := by
  unfold execVmaxN
  repeat' first
    | with_reducible assumption
    | with_reducible refine keep_vecInt K ?_

theorem keep_execVand (K : Steady P) {s : State} {d a b : Reg} {e : BitVec 2} {g : BitVec 3} {z : Bool} (H : P s) : Ends P (execVand d a b e g z s) := by
  unfold execVand
  repeat' first
    | with_reducible assumption
    | with_reducible refine keep_vecInt K ?_

theorem keep_execVor (K : Steady P) {s : State} {d a b : Reg} {e : BitVec 2} {g : BitVec 3} {z : Bool} (H : P s) : Ends P (execVor d a b e g z s) := by
  unfold execVor
  repeat' first
    | with_reducible assumption
    | with_reducible refine keep_vecInt K ?_

theorem keep_execVxor (K : Steady P) {s : State} {d a b : Reg} {e : BitVec 2} {g : BitVec 3} {z : Bool} (H : P s) : Ends P (execVxor d a b e g z s) := by
  unfold execVxor
  repeat' first
    | with_reducible assumption
    | with_reducible refine keep_vecInt K ?_

theorem keep_execVandn (K : Steady P) {s : State} {d a b : Reg} {e : BitVec 2} {g : BitVec 3} {z : Bool} (H : P s) : Ends P (execVandn d a b e g z s) := by
  unfold execVandn
  repeat' first
    | with_reducible assumption
    | with_reducible refine keep_vecInt K ?_

theorem keep_execVsll (K : Steady P) {s : State} {d a b : Reg} {e : BitVec 2} {g : BitVec 3} {z : Bool} (H : P s) : Ends P (execVsll d a b e g z s) := by
  unfold execVsll
  repeat' first
    | with_reducible assumption
    | with_reducible refine keep_vecInt K ?_

theorem keep_execVsrl (K : Steady P) {s : State} {d a b : Reg} {e : BitVec 2} {g : BitVec 3} {z : Bool} (H : P s) : Ends P (execVsrl d a b e g z s) := by
  unfold execVsrl
  repeat' first
    | with_reducible assumption
    | with_reducible refine keep_vecInt K ?_

theorem keep_execVsra (K : Steady P) {s : State} {d a b : Reg} {e : BitVec 2} {g : BitVec 3} {z : Bool} (H : P s) : Ends P (execVsra d a b e g z s) := by
  unfold execVsra
  repeat' first
    | with_reducible assumption
    | with_reducible refine keep_vecInt K ?_

theorem keep_execVaddsI (K : Steady P) {s : State} {d a b : Reg} {e : BitVec 2} {g : BitVec 3} {z : Bool} (H : P s) : Ends P (execVaddsI d a b e g z s) := by
  unfold execVaddsI
  repeat' first
    | with_reducible assumption
    | with_reducible refine keep_vecInt K ?_

theorem keep_execVaddsN (K : Steady P) {s : State} {d a b : Reg} {e : BitVec 2} {g : BitVec 3} {z : Bool} (H : P s) : Ends P (execVaddsN d a b e g z s) := by
  unfold execVaddsN
  repeat' first
    | with_reducible assumption
    | with_reducible refine keep_vecInt K ?_

theorem keep_execVsubsI (K : Steady P) {s : State} {d a b : Reg} {e : BitVec 2} {g : BitVec 3} {z : Bool} (H : P s) : Ends P (execVsubsI d a b e g z s) := by
  unfold execVsubsI
  repeat' first
    | with_reducible assumption
    | with_reducible refine keep_vecInt K ?_

theorem keep_execVsubsN (K : Steady P) {s : State} {d a b : Reg} {e : BitVec 2} {g : BitVec 3} {z : Bool} (H : P s) : Ends P (execVsubsN d a b e g z s) := by
  unfold execVsubsN
  repeat' first
    | with_reducible assumption
    | with_reducible refine keep_vecInt K ?_

theorem keep_execVpopc (K : Steady P) {s : State} {d a : Reg} {e : BitVec 2} {g : BitVec 3} {z : Bool} (H : P s) : Ends P (execVpopc d a e g z s) := by
  unfold execVpopc
  repeat' first
    | with_reducible assumption
    | with_reducible refine keep_vecInt K ?_

theorem keep_execVclz (K : Steady P) {s : State} {d a : Reg} {e : BitVec 2} {g : BitVec 3} {z : Bool} (H : P s) : Ends P (execVclz d a e g z s) := by
  unfold execVclz
  repeat' first
    | with_reducible assumption
    | with_reducible refine keep_vecInt K ?_

theorem keep_execVctz (K : Steady P) {s : State} {d a : Reg} {e : BitVec 2} {g : BitVec 3} {z : Bool} (H : P s) : Ends P (execVctz d a e g z s) := by
  unfold execVctz
  repeat' first
    | with_reducible assumption
    | with_reducible refine keep_vecInt K ?_

theorem keep_execVbrev (K : Steady P) {s : State} {d a : Reg} {e : BitVec 2} {g : BitVec 3} {z : Bool} (H : P s) : Ends P (execVbrev d a e g z s) := by
  unfold execVbrev
  repeat' first
    | with_reducible assumption
    | with_reducible refine keep_vecInt K ?_

theorem keep_execVabs (K : Steady P) {s : State} {d a : Reg} {e : BitVec 2} {g : BitVec 3} {z : Bool} (H : P s) : Ends P (execVabs d a e g z s) := by
  unfold execVabs
  repeat' first
    | with_reducible assumption
    | with_reducible refine keep_vecInt K ?_

theorem keep_execVfnth (K : Steady P) {s : State} {d a : Reg} {e : BitVec 2} {g : BitVec 3} {z : Bool} (H : P s) : Ends P (execVfnth d a e g z s) := by
  unfold execVfnth
  repeat' first
    | with_reducible assumption
    | with_reducible refine keep_vecInt K ?_

theorem keep_execVsel (K : Steady P) {s : State} {d a b : Reg} {e : BitVec 2} {g : BitVec 3} (H : P s) : Ends P (execVsel d a b e g s) := by
  unfold execVsel
  repeat' first
    | with_reducible assumption
    | with_reducible refine keep_writeV K ?_
    | with_reducible refine ends_next ?_
    | with_reducible refine ends_commit K ?_ ?_

theorem keep_vecCmp (K : Steady P) {s : State} {f : Nat → Nat → Nat → Bool} {d : BitVec 3} {a b : Reg} {e : BitVec 2} {g : BitVec 3} {z : Bool} (H : P s) : Ends P (vecCmp f d a b e g z s) := by
  unfold vecCmp
  repeat' first
    | with_reducible assumption
    | with_reducible refine keep_writeP K ?_
    | with_reducible refine ends_next ?_
    | with_reducible refine ends_commit K ?_ ?_

theorem keep_execVcmpEq (K : Steady P) {s : State} {d : BitVec 3} {a b : Reg} {e : BitVec 2} {g : BitVec 3} {z : Bool} (H : P s) : Ends P (execVcmpEq d a b e g z s) := by
  unfold execVcmpEq
  repeat' first
    | with_reducible assumption
    | with_reducible refine keep_vecCmp K ?_

theorem keep_execVcmpNe (K : Steady P) {s : State} {d : BitVec 3} {a b : Reg} {e : BitVec 2} {g : BitVec 3} {z : Bool} (H : P s) : Ends P (execVcmpNe d a b e g z s) := by
  unfold execVcmpNe
  repeat' first
    | with_reducible assumption
    | with_reducible refine keep_vecCmp K ?_

theorem keep_execVcmpLt (K : Steady P) {s : State} {d : BitVec 3} {a b : Reg} {e : BitVec 2} {g : BitVec 3} {z : Bool} (H : P s) : Ends P (execVcmpLt d a b e g z s) := by
  unfold execVcmpLt
  repeat' first
    | with_reducible assumption
    | with_reducible refine keep_vecCmp K ?_

theorem keep_execVcmpGe (K : Steady P) {s : State} {d : BitVec 3} {a b : Reg} {e : BitVec 2} {g : BitVec 3} {z : Bool} (H : P s) : Ends P (execVcmpGe d a b e g z s) := by
  unfold execVcmpGe
  repeat' first
    | with_reducible assumption
    | with_reducible refine keep_vecCmp K ?_

theorem keep_execVcmpLtn (K : Steady P) {s : State} {d : BitVec 3} {a b : Reg} {e : BitVec 2} {g : BitVec 3} {z : Bool} (H : P s) : Ends P (execVcmpLtn d a b e g z s) := by
  unfold execVcmpLtn
  repeat' first
    | with_reducible assumption
    | with_reducible refine keep_vecCmp K ?_

theorem keep_execVcmpGen (K : Steady P) {s : State} {d : BitVec 3} {a b : Reg} {e : BitVec 2} {g : BitVec 3} {z : Bool} (H : P s) : Ends P (execVcmpGen d a b e g z s) := by
  unfold execVcmpGen
  repeat' first
    | with_reducible assumption
    | with_reducible refine keep_vecCmp K ?_

theorem keep_vecCode (K : Steady P) {s : State} {f : Fmt → Mode → Nat → Nat → Nat → Nat × BitVec 5} {d a b : Reg} {e : BitVec 2} {g : BitVec 3} {z : Bool} (H : P s) : Ends P (vecCode f d a b e g z s) := by
  unfold vecCode
  repeat' first
    | with_reducible assumption
    | with_reducible refine keep_writeV K ?_
    | with_reducible refine keep_raise K ?_
    | with_reducible refine ends_next ?_
    | with_reducible refine ends_commit K ?_ ?_

theorem keep_vecFloat (K : Steady P) {f : Mode → Fpv → Fpv → Fpv → Res} {d a b : Reg} {e : BitVec 2} {g : BitVec 3} {z : Bool}
    {s : State} (H : P s) : Ends P (vecFloat f d a b e g z s) := keep_vecCode K H

theorem keep_execFadd (K : Steady P) {s : State} {d a b : Reg} {e : BitVec 2} {g : BitVec 3} {z : Bool} (H : P s) : Ends P (execFadd d a b e g z s) := by
  unfold execFadd
  repeat' first
    | with_reducible assumption
    | with_reducible refine keep_vecFloat K ?_

theorem keep_execFsub (K : Steady P) {s : State} {d a b : Reg} {e : BitVec 2} {g : BitVec 3} {z : Bool} (H : P s) : Ends P (execFsub d a b e g z s) := by
  unfold execFsub
  repeat' first
    | with_reducible assumption
    | with_reducible refine keep_vecFloat K ?_

theorem keep_execFmul (K : Steady P) {s : State} {d a b : Reg} {e : BitVec 2} {g : BitVec 3} {z : Bool} (H : P s) : Ends P (execFmul d a b e g z s) := by
  unfold execFmul
  repeat' first
    | with_reducible assumption
    | with_reducible refine keep_vecFloat K ?_

theorem keep_execFfma (K : Steady P) {s : State} {d a b : Reg} {e : BitVec 2} {g : BitVec 3} {z : Bool} (H : P s) : Ends P (execFfma d a b e g z s) := by
  unfold execFfma
  repeat' first
    | with_reducible assumption
    | with_reducible refine keep_vecFloat K ?_

theorem keep_execFfms (K : Steady P) {s : State} {d a b : Reg} {e : BitVec 2} {g : BitVec 3} {z : Bool} (H : P s) : Ends P (execFfms d a b e g z s) := by
  unfold execFfms
  repeat' first
    | with_reducible assumption
    | with_reducible refine keep_vecFloat K ?_

theorem keep_execFnma (K : Steady P) {s : State} {d a b : Reg} {e : BitVec 2} {g : BitVec 3} {z : Bool} (H : P s) : Ends P (execFnma d a b e g z s) := by
  unfold execFnma
  repeat' first
    | with_reducible assumption
    | with_reducible refine keep_vecFloat K ?_

theorem keep_execFdiv (K : Steady P) {s : State} {d a b : Reg} {e : BitVec 2} {g : BitVec 3} {z : Bool} (H : P s) : Ends P (execFdiv d a b e g z s) := by
  unfold execFdiv
  repeat' first
    | with_reducible assumption
    | with_reducible refine keep_vecFloat K ?_

theorem keep_execFmin (K : Steady P) {s : State} {d a b : Reg} {e : BitVec 2} {g : BitVec 3} {z : Bool} (H : P s) : Ends P (execFmin d a b e g z s) := by
  unfold execFmin
  repeat' first
    | with_reducible assumption
    | with_reducible refine keep_vecFloat K ?_

theorem keep_execFmax (K : Steady P) {s : State} {d a b : Reg} {e : BitVec 2} {g : BitVec 3} {z : Bool} (H : P s) : Ends P (execFmax d a b e g z s) := by
  unfold execFmax
  repeat' first
    | with_reducible assumption
    | with_reducible refine keep_vecFloat K ?_

theorem keep_execFsqrt (K : Steady P) {s : State} {d a : Reg} {e : BitVec 2} {g : BitVec 3} {z : Bool} (H : P s) : Ends P (execFsqrt d a e g z s) := by
  unfold execFsqrt
  repeat' first
    | with_reducible assumption
    | with_reducible refine keep_vecFloat K ?_

theorem keep_execFrcp (K : Steady P) {s : State} {d a : Reg} {e : BitVec 2} {g : BitVec 3} {z : Bool} (H : P s) : Ends P (execFrcp d a e g z s) := by
  unfold execFrcp
  repeat' first
    | with_reducible assumption
    | with_reducible refine keep_vecFloat K ?_

theorem keep_execFrsqrt (K : Steady P) {s : State} {d a : Reg} {e : BitVec 2} {g : BitVec 3} {z : Bool} (H : P s) : Ends P (execFrsqrt d a e g z s) := by
  unfold execFrsqrt
  repeat' first
    | with_reducible assumption
    | with_reducible refine keep_vecFloat K ?_

theorem keep_execFexp2 (K : Steady P) {s : State} {d a : Reg} {e : BitVec 2} {g : BitVec 3} {z : Bool} (H : P s) : Ends P (execFexp2 d a e g z s) := by
  unfold execFexp2
  repeat' first
    | with_reducible assumption
    | with_reducible refine keep_vecFloat K ?_

theorem keep_execFlog2 (K : Steady P) {s : State} {d a : Reg} {e : BitVec 2} {g : BitVec 3} {z : Bool} (H : P s) : Ends P (execFlog2 d a e g z s) := by
  unfold execFlog2
  repeat' first
    | with_reducible assumption
    | with_reducible refine keep_vecFloat K ?_

theorem keep_execFabs (K : Steady P) {s : State} {d a : Reg} {e : BitVec 2} {g : BitVec 3} {z : Bool} (H : P s) : Ends P (execFabs d a e g z s) := by
  unfold execFabs
  repeat' first
    | with_reducible assumption
    | with_reducible refine keep_vecCode K ?_

theorem keep_execFneg (K : Steady P) {s : State} {d a : Reg} {e : BitVec 2} {g : BitVec 3} {z : Bool} (H : P s) : Ends P (execFneg d a e g z s) := by
  unfold execFneg
  repeat' first
    | with_reducible assumption
    | with_reducible refine keep_vecCode K ?_

theorem keep_execFscale (K : Steady P) {s : State} {d a b : Reg} {e : BitVec 2} {g : BitVec 3} {z : Bool} (H : P s) : Ends P (execFscale d a b e g z s) := by
  unfold execFscale
  repeat' first
    | with_reducible assumption
    | with_reducible refine keep_vecCode K ?_

theorem keep_execFround (K : Steady P) {s : State} {d a md : Reg} {e : BitVec 2} {g : BitVec 3} {z : Bool} (H : P s) : Ends P (execFround d a md e g z s) := by
  unfold execFround
  repeat' first
    | with_reducible assumption
    | with_reducible refine keep_vecCode K ?_

theorem keep_vecFcmp (K : Steady P) {s : State} {any : Bool} {f : Option Int → Bool} {d : BitVec 3} {a b : Reg} {e : BitVec 2} {g : BitVec 3} {z : Bool} (H : P s) : Ends P (vecFcmp any f d a b e g z s) := by
  unfold vecFcmp
  repeat' first
    | with_reducible assumption
    | with_reducible refine keep_writeP K ?_
    | with_reducible refine keep_raise K ?_
    | with_reducible refine ends_next ?_
    | with_reducible refine ends_commit K ?_ ?_

theorem keep_execFcmpEq (K : Steady P) {s : State} {d : BitVec 3} {a b : Reg} {e : BitVec 2} {g : BitVec 3} {z : Bool} (H : P s) : Ends P (execFcmpEq d a b e g z s) := by
  unfold execFcmpEq
  repeat' first
    | with_reducible assumption
    | with_reducible refine keep_vecFcmp K ?_

theorem keep_execFcmpNe (K : Steady P) {s : State} {d : BitVec 3} {a b : Reg} {e : BitVec 2} {g : BitVec 3} {z : Bool} (H : P s) : Ends P (execFcmpNe d a b e g z s) := by
  unfold execFcmpNe
  repeat' first
    | with_reducible assumption
    | with_reducible refine keep_vecFcmp K ?_

theorem keep_execFcmpLt (K : Steady P) {s : State} {d : BitVec 3} {a b : Reg} {e : BitVec 2} {g : BitVec 3} {z : Bool} (H : P s) : Ends P (execFcmpLt d a b e g z s) := by
  unfold execFcmpLt
  repeat' first
    | with_reducible assumption
    | with_reducible refine keep_vecFcmp K ?_

theorem keep_execFcmpLe (K : Steady P) {s : State} {d : BitVec 3} {a b : Reg} {e : BitVec 2} {g : BitVec 3} {z : Bool} (H : P s) : Ends P (execFcmpLe d a b e g z s) := by
  unfold execFcmpLe
  repeat' first
    | with_reducible assumption
    | with_reducible refine keep_vecFcmp K ?_

theorem keep_execFcmpUn (K : Steady P) {s : State} {d : BitVec 3} {a b : Reg} {e : BitVec 2} {g : BitVec 3} {z : Bool} (H : P s) : Ends P (execFcmpUn d a b e g z s) := by
  unfold execFcmpUn
  repeat' first
    | with_reducible assumption
    | with_reducible refine keep_vecFcmp K ?_

theorem keep_execVcvt (K : Steady P) {s : State} {d a : Reg} {r : Bool} {dt ty : BitVec 4} {g : BitVec 3} {z : Bool} (H : P s) : Ends P (execVcvt d a r dt ty g z s) := by
  unfold execVcvt
  repeat' first
    | with_reducible assumption
    | with_reducible refine keep_writeV K ?_
    | with_reducible refine keep_raise K ?_
    | with_reducible refine ends_next ?_
    | with_reducible refine ends_commit K ?_ ?_

theorem keep_execVred (K : Steady P) {s : State} {d a k : Reg} {ty : BitVec 4} {g : BitVec 3} (H : P s) : Ends P (execVred d a k ty g s) := by
  unfold execVred
  repeat' first
    | with_reducible assumption
    | with_reducible refine keep_writeV K ?_
    | with_reducible refine keep_raise K ?_
    | with_reducible refine ends_next ?_
    | with_reducible refine ends_commit K ?_ ?_

theorem keep_vecMove (K : Steady P) {s : State} {f : Nat → Nat → Nat} {d : Reg} {ty : BitVec 4} {g : BitVec 3} {z : Bool} (H : P s) : Ends P (vecMove f d ty g z s) := by
  unfold vecMove
  repeat' first
    | with_reducible assumption
    | with_reducible refine keep_writeV K ?_
    | with_reducible refine ends_next ?_
    | with_reducible refine ends_commit K ?_ ?_

theorem keep_execVperm (K : Steady P) {s : State} {d a b : Reg} {ty : BitVec 4} {g : BitVec 3} {z : Bool} (H : P s) : Ends P (execVperm d a b ty g z s) := by
  unfold execVperm
  repeat' first
    | with_reducible assumption
    | with_reducible refine keep_vecMove K ?_

theorem keep_execVslide (K : Steady P) {s : State} {d a b : Reg} {ty : BitVec 4} {g : BitVec 3} {z : Bool} (H : P s) : Ends P (execVslide d a b ty g z s) := by
  unfold execVslide
  repeat' first
    | with_reducible assumption
    | with_reducible refine keep_vecMove K ?_

theorem keep_execVcompress (K : Steady P) {s : State} {d a : Reg} {ty : BitVec 4} {g : BitVec 3} (H : P s) : Ends P (execVcompress d a ty g s) := by
  unfold execVcompress
  repeat' first
    | with_reducible assumption
    | with_reducible refine keep_writeV K ?_
    | with_reducible refine ends_next ?_
    | with_reducible refine ends_commit K ?_ ?_

theorem keep_execVexpand (K : Steady P) {s : State} {d a : Reg} {ty : BitVec 4} {g : BitVec 3} {z : Bool} (H : P s) : Ends P (execVexpand d a ty g z s) := by
  unfold execVexpand
  repeat' first
    | with_reducible assumption
    | with_reducible refine keep_vecMove K ?_

theorem keep_execVbcast (K : Steady P) {s : State} {d a : Reg} {ty : BitVec 4} {g : BitVec 3} {z : Bool} (H : P s) : Ends P (execVbcast d a ty g z s) := by
  unfold execVbcast
  repeat' first
    | with_reducible assumption
    | with_reducible refine keep_vecMove K ?_

theorem keep_execVins (K : Steady P) {s : State} {d a b : Reg} {ty : BitVec 4} (H : P s) : Ends P (execVins d a b ty s) := by
  unfold execVins
  repeat' first
    | with_reducible assumption
    | with_reducible refine keep_writeV K ?_
    | with_reducible refine ends_next ?_
    | with_reducible refine ends_commit K ?_ ?_
    | dsimp only
    | split

theorem keep_execVext (K : Steady P) {s : State} {d a b : Reg} {ty : BitVec 4} (H : P s) : Ends P (execVext d a b ty s) := by
  unfold execVext
  repeat' first
    | with_reducible assumption
    | with_reducible refine keep_setReg K ?_

theorem keep_execPand (K : Steady P) {s : State} {d a b : BitVec 3} (H : P s) : Ends P (execPand d a b s) := by
  unfold execPand
  repeat' first
    | with_reducible assumption
    | with_reducible refine keep_writeP K ?_
    | with_reducible refine ends_next ?_
    | with_reducible refine ends_commit K ?_ ?_

theorem keep_execPor (K : Steady P) {s : State} {d a b : BitVec 3} (H : P s) : Ends P (execPor d a b s) := by
  unfold execPor
  repeat' first
    | with_reducible assumption
    | with_reducible refine keep_writeP K ?_
    | with_reducible refine ends_next ?_
    | with_reducible refine ends_commit K ?_ ?_

theorem keep_execPxor (K : Steady P) {s : State} {d a b : BitVec 3} (H : P s) : Ends P (execPxor d a b s) := by
  unfold execPxor
  repeat' first
    | with_reducible assumption
    | with_reducible refine keep_writeP K ?_
    | with_reducible refine ends_next ?_
    | with_reducible refine ends_commit K ?_ ?_

theorem keep_execPandn (K : Steady P) {s : State} {d a b : BitVec 3} (H : P s) : Ends P (execPandn d a b s) := by
  unfold execPandn
  repeat' first
    | with_reducible assumption
    | with_reducible refine keep_writeP K ?_
    | with_reducible refine ends_next ?_
    | with_reducible refine ends_commit K ?_ ?_

theorem keep_execPset (K : Steady P) {s : State} {d : BitVec 3} {a : Reg} (H : P s) : Ends P (execPset d a s) := by
  unfold execPset
  repeat' first
    | with_reducible assumption
    | with_reducible refine keep_writeP K ?_
    | with_reducible refine ends_next ?_
    | with_reducible refine ends_commit K ?_ ?_

theorem keep_execPget (K : Steady P) {s : State} {d : Reg} {a : BitVec 3} (H : P s) : Ends P (execPget d a s) := by
  unfold execPget
  repeat' first
    | with_reducible assumption
    | with_reducible refine keep_setReg K ?_

theorem keep_execPcnt (K : Steady P) {s : State} {d : Reg} {a : BitVec 3} {e : BitVec 2} (H : P s) : Ends P (execPcnt d a e s) := by
  unfold execPcnt
  repeat' first
    | with_reducible assumption
    | with_reducible refine keep_setReg K ?_

theorem keep_execPfirst (K : Steady P) {s : State} {d : Reg} {a : BitVec 3} {e : BitVec 2} (H : P s) : Ends P (execPfirst d a e s) := by
  unfold execPfirst
  repeat' first
    | with_reducible assumption
    | with_reducible refine keep_setReg K ?_

theorem keep_execPwhile (K : Steady P) {s : State} {d : BitVec 3} {a b : Reg} {e : BitVec 2} (H : P s) : Ends P (execPwhile d a b e s) := by
  unfold execPwhile
  repeat' first
    | with_reducible assumption
    | with_reducible refine keep_writeP K ?_
    | with_reducible refine foldl_keeps (p := P) (fun s a H => ?_) _ ?_
    | with_reducible refine ends_next ?_
    | with_reducible refine ends_commit K ?_ ?_

theorem keep_vecCheck (K : Plain P) {s : State} {lead active : List Nat} {w : Nat} {addr : Nat → Word} {kind : AccessKind} {pol : Pol} (H : P s) : Holds P (vecCheck lead active w addr kind pol) s := by
  unfold vecCheck
  repeat' first
    | with_reducible assumption
    | with_reducible refine keep_translate K ?_
    | with_reducible refine holds_get_bind ?_
    | with_reducible refine holds_pure_bind ?_
    | with_reducible refine holds_bind ?_ (fun a t H => ?_)
    | with_reducible refine holds_pure _ ?_
    | with_reducible refine holds_get ?_
    | with_reducible refine holds_mapM (fun a t H => ?_) _ ?_
    | with_reducible refine holds_raiseTrap _ ?_
    | dsimp only
    | split

theorem keep_vecLoad (K : Steady P) {s : State} {d : Reg} {w : Nat} {pol : Pol} {p : Word} {lead : List Nat} {addr : Nat → Word} (H : P s) : Holds P (vecLoad d w pol p lead addr) s := by
  unfold vecLoad
  repeat' first
    | with_reducible assumption
    | with_reducible refine keep_writeV K ?_
    | with_reducible refine keep_readBytes K.toPlain ?_
    | with_reducible refine keep_note K ?_
    | with_reducible refine keep_waitOwn K ?_
    | with_reducible refine keep_vecCheck K.toPlain ?_
    | with_reducible refine holds_get_bind ?_
    | with_reducible refine holds_modify_bind ?_
    | with_reducible refine holds_pure_bind ?_
    | with_reducible refine holds_bind ?_ (fun a t H => ?_)
    | with_reducible refine holds_pure _ ?_
    | with_reducible refine holds_get ?_
    | with_reducible refine holds_modify ?_
    | with_reducible refine holds_mapM (fun a t H => ?_) _ ?_
    | with_reducible refine holds_lift ?_
    | with_reducible refine holds_liftAt ?_

theorem keep_vecStore (K : Steady P) {s : State} {t : Reg} {w : Nat} {pol : Pol} {p : Word} {lead : List Nat} {addr : Nat → Word} (H : P s) : Holds P (vecStore t w pol p lead addr) s := by
  unfold vecStore
  repeat' first
    | with_reducible assumption
    | with_reducible refine holds_guarded ?_ ?_
    | with_reducible refine keep_note K ?_
    | with_reducible refine keep_waitRelease K ?_
    | with_reducible refine keep_queuePending K ?_
    | with_reducible refine keep_vecCheck K.toPlain ?_
    | with_reducible refine foldl_keeps (p := P) (fun s a H => ?_) _ ?_
    | with_reducible refine holds_get_bind ?_
    | with_reducible refine holds_modify_bind ?_
    | with_reducible refine holds_pure_bind ?_
    | with_reducible refine holds_bind ?_ (fun a t H => ?_)
    | with_reducible refine holds_pure _ ?_
    | with_reducible refine holds_get ?_
    | with_reducible refine holds_modify ?_
    | with_reducible refine holds_forM (fun a t H => ?_) _ ?_

theorem keep_execVld (K : Steady P) {s : State} {d b : Reg} {pol : Pol} {e : BitVec 2} {g : BitVec 3} {off : BitVec 8} (H : P s) : Ends P (execVld d b pol e g off s) := by
  unfold execVld
  repeat' first
    | with_reducible assumption
    | with_reducible refine keep_vecLoad K ?_
    | with_reducible refine ends_next ?_
    | with_reducible refine ends_runAct K ?_ (fun t H => ?_)

theorem keep_execVst (K : Steady P) {s : State} {t b : Reg} {pol : Pol} {e : BitVec 2} {g : BitVec 3} {off : BitVec 8} (H : P s) : Ends P (execVst t b pol e g off s) := by
  unfold execVst
  repeat' first
    | with_reducible assumption
    | with_reducible refine keep_vecStore K ?_
    | with_reducible refine ends_next ?_
    | with_reducible refine ends_runAct K ?_ (fun t H => ?_)

theorem keep_execVgather (K : Steady P) {s : State} {d b : Reg} {pol : Pol} {e : BitVec 2} {g : BitVec 3} {idx : Reg} (H : P s) : Ends P (execVgather d b pol e g idx s) := by
  unfold execVgather
  repeat' first
    | with_reducible assumption
    | with_reducible refine keep_vecLoad K ?_
    | with_reducible refine ends_next ?_
    | with_reducible refine ends_runAct K ?_ (fun t H => ?_)

theorem keep_execVscatter (K : Steady P) {s : State} {t b : Reg} {pol : Pol} {e : BitVec 2} {g : BitVec 3} {idx : Reg} (H : P s) : Ends P (execVscatter t b pol e g idx s) := by
  unfold execVscatter
  repeat' first
    | with_reducible assumption
    | with_reducible refine keep_vecStore K ?_
    | with_reducible refine ends_next ?_
    | with_reducible refine ends_runAct K ?_ (fun t H => ?_)

theorem keep_stray (K : Plain P) {s : State} {n : Nat} (H : P s) : Holds P (stray n) s := by
  unfold stray
  repeat' first
    | with_reducible assumption
    | with_reducible refine keep_clRead K ?_
    | with_reducible refine keep_xlate K ?_
    | with_reducible refine keep_notDevice K.toQuiet ?_
    | with_reducible refine keep_prefLine K ?_
    | with_reducible refine holds_get_bind ?_
    | with_reducible refine holds_pure_bind ?_
    | with_reducible refine holds_bind ?_ (fun a t H => ?_)
    | with_reducible refine holds_pure _ ?_
    | with_reducible refine holds_get ?_
    | with_reducible refine holds_lift ?_
    | dsimp only
    | split

theorem keep_strayOnce (K : Steady P) {s : State} (H : P s) : P s.strayOnce := by
  have hd := keep_draw K.toQuiet H
  have h := keep_stray K.toPlain (n := s.draw.1) hd
  unfold State.strayOnce
  dsimp only
  split
  · next e => exact keep_restoreMe K (h.ok e) hd
  · next e => exact keep_restoreMe K (h.error e) hd

theorem keep_strays (K : Steady P) {n : Nat} {s : State} (H : P s) : P (strays n s) := by
  induction n generalizing s with
  | zero => exact H
  | succ n ih => exact ih (keep_strayOnce K H)

theorem keep_astray (K : Steady P) {s : State} (H : P s) : P (State.astray s) := by
  unfold State.astray
  repeat' first
    | with_reducible assumption
    | with_reducible refine keep_draw K.toQuiet ?_
    | with_reducible refine keep_draw_eq K.toQuiet ?_ (by assumption)
    | with_reducible refine keep_strays K ?_

theorem keep_speculate (K : Steady P) {s : State} {i : Instr} (H : P s) : P (speculate i s) := by
  unfold speculate
  repeat' first
    | with_reducible assumption
    | with_reducible refine keep_astray K ?_
    | dsimp only
    | split

end Sys2Proof.Machine
end

