-- ==== Sys2Proof/Laws/PerInstr.lean ====
section
/-! SUPPORT. Decoding what the encoder writes gives the instruction back, constructor by constructor. -/

set_option linter.unusedSimpArgs false

namespace Sys2Proof.Laws.RoundTrip

/-- The words of a well-formed instruction decode to it; a step of the device itself has no words. -/
def Statement (i : Instr) : Prop := i.wf = true → encode i ≠ .nothing → decodeWords (encode i) = some i

theorem add (d : Reg) (a : Reg) (b : Reg) (w : Bool) : Statement (.add d a b w) := by
  intro keeps _
  show toOption (decodeCpu (placeAdd 1 0 d a b w) 0) = _
  delta decodeCpu decodeClass1 placeAdd readAdd guardRsv
  simp only [bits_skip, bits_head, fld_skip, fld_head, Nat.reduceLeDiff, Nat.reduceSub, Nat.reducePow, Nat.reduceMod, reduceIte, Nat.reduceEqDiff, BEq.rfl, Bool.and_self, flag_skip, flag_head]
  rw [accept_wf _ keeps]; rfl

theorem sub (d : Reg) (a : Reg) (b : Reg) (w : Bool) : Statement (.sub d a b w) := by
  intro keeps _
  show toOption (decodeCpu (placeAdd 1 1 d a b w) 0) = _
  delta decodeCpu decodeClass1 placeAdd readAdd guardRsv
  simp only [bits_skip, bits_head, fld_skip, fld_head, Nat.reduceLeDiff, Nat.reduceSub, Nat.reducePow, Nat.reduceMod, reduceIte, Nat.reduceEqDiff, BEq.rfl, Bool.and_self, flag_skip, flag_head]
  rw [accept_wf _ keeps]; rfl

theorem and (d : Reg) (a : Reg) (b : Reg) (w : Bool) : Statement (.and d a b w) := by
  intro keeps _
  show toOption (decodeCpu (placeAdd 1 2 d a b w) 0) = _
  delta decodeCpu decodeClass1 placeAdd readAdd guardRsv
  simp only [bits_skip, bits_head, fld_skip, fld_head, Nat.reduceLeDiff, Nat.reduceSub, Nat.reducePow, Nat.reduceMod, reduceIte, Nat.reduceEqDiff, BEq.rfl, Bool.and_self, flag_skip, flag_head]
  rw [accept_wf _ keeps]; rfl

theorem or (d : Reg) (a : Reg) (b : Reg) (w : Bool) : Statement (.or d a b w) := by
  intro keeps _
  show toOption (decodeCpu (placeAdd 1 3 d a b w) 0) = _
  delta decodeCpu decodeClass1 placeAdd readAdd guardRsv
  simp only [bits_skip, bits_head, fld_skip, fld_head, Nat.reduceLeDiff, Nat.reduceSub, Nat.reducePow, Nat.reduceMod, reduceIte, Nat.reduceEqDiff, BEq.rfl, Bool.and_self, flag_skip, flag_head]
  rw [accept_wf _ keeps]; rfl

theorem xor (d : Reg) (a : Reg) (b : Reg) (w : Bool) : Statement (.xor d a b w) := by
  intro keeps _
  show toOption (decodeCpu (placeAdd 1 4 d a b w) 0) = _
  delta decodeCpu decodeClass1 placeAdd readAdd guardRsv
  simp only [bits_skip, bits_head, fld_skip, fld_head, Nat.reduceLeDiff, Nat.reduceSub, Nat.reducePow, Nat.reduceMod, reduceIte, Nat.reduceEqDiff, BEq.rfl, Bool.and_self, flag_skip, flag_head]
  rw [accept_wf _ keeps]; rfl

theorem andn (d : Reg) (a : Reg) (b : Reg) (w : Bool) : Statement (.andn d a b w) := by
  intro keeps _
  show toOption (decodeCpu (placeAdd 1 5 d a b w) 0) = _
  delta decodeCpu decodeClass1 placeAdd readAdd guardRsv
  simp only [bits_skip, bits_head, fld_skip, fld_head, Nat.reduceLeDiff, Nat.reduceSub, Nat.reducePow, Nat.reduceMod, reduceIte, Nat.reduceEqDiff, BEq.rfl, Bool.and_self, flag_skip, flag_head]
  rw [accept_wf _ keeps]; rfl

theorem orn (d : Reg) (a : Reg) (b : Reg) (w : Bool) : Statement (.orn d a b w) := by
  intro keeps _
  show toOption (decodeCpu (placeAdd 1 6 d a b w) 0) = _
  delta decodeCpu decodeClass1 placeAdd readAdd guardRsv
  simp only [bits_skip, bits_head, fld_skip, fld_head, Nat.reduceLeDiff, Nat.reduceSub, Nat.reducePow, Nat.reduceMod, reduceIte, Nat.reduceEqDiff, BEq.rfl, Bool.and_self, flag_skip, flag_head]
  rw [accept_wf _ keeps]; rfl

theorem sll (d : Reg) (a : Reg) (b : Reg) (w : Bool) : Statement (.sll d a b w) := by
  intro keeps _
  show toOption (decodeCpu (placeAdd 1 8 d a b w) 0) = _
  delta decodeCpu decodeClass1 placeAdd readAdd guardRsv
  simp only [bits_skip, bits_head, fld_skip, fld_head, Nat.reduceLeDiff, Nat.reduceSub, Nat.reducePow, Nat.reduceMod, reduceIte, Nat.reduceEqDiff, BEq.rfl, Bool.and_self, flag_skip, flag_head]
  rw [accept_wf _ keeps]; rfl

theorem srl (d : Reg) (a : Reg) (b : Reg) (w : Bool) : Statement (.srl d a b w) := by
  intro keeps _
  show toOption (decodeCpu (placeAdd 1 9 d a b w) 0) = _
  delta decodeCpu decodeClass1 placeAdd readAdd guardRsv
  simp only [bits_skip, bits_head, fld_skip, fld_head, Nat.reduceLeDiff, Nat.reduceSub, Nat.reducePow, Nat.reduceMod, reduceIte, Nat.reduceEqDiff, BEq.rfl, Bool.and_self, flag_skip, flag_head]
  rw [accept_wf _ keeps]; rfl

theorem sra (d : Reg) (a : Reg) (b : Reg) (w : Bool) : Statement (.sra d a b w) := by
  intro keeps _
  show toOption (decodeCpu (placeAdd 1 0xa d a b w) 0) = _
  delta decodeCpu decodeClass1 placeAdd readAdd guardRsv
  simp only [bits_skip, bits_head, fld_skip, fld_head, Nat.reduceLeDiff, Nat.reduceSub, Nat.reducePow, Nat.reduceMod, reduceIte, Nat.reduceEqDiff, BEq.rfl, Bool.and_self, flag_skip, flag_head]
  rw [accept_wf _ keeps]; rfl

theorem rol (d : Reg) (a : Reg) (b : Reg) (w : Bool) : Statement (.rol d a b w) := by
  intro keeps _
  show toOption (decodeCpu (placeAdd 1 0xb d a b w) 0) = _
  delta decodeCpu decodeClass1 placeAdd readAdd guardRsv
  simp only [bits_skip, bits_head, fld_skip, fld_head, Nat.reduceLeDiff, Nat.reduceSub, Nat.reducePow, Nat.reduceMod, reduceIte, Nat.reduceEqDiff, BEq.rfl, Bool.and_self, flag_skip, flag_head]
  rw [accept_wf _ keeps]; rfl

theorem ror (d : Reg) (a : Reg) (b : Reg) (w : Bool) : Statement (.ror d a b w) := by
  intro keeps _
  show toOption (decodeCpu (placeAdd 1 0xc d a b w) 0) = _
  delta decodeCpu decodeClass1 placeAdd readAdd guardRsv
  simp only [bits_skip, bits_head, fld_skip, fld_head, Nat.reduceLeDiff, Nat.reduceSub, Nat.reducePow, Nat.reduceMod, reduceIte, Nat.reduceEqDiff, BEq.rfl, Bool.and_self, flag_skip, flag_head]
  rw [accept_wf _ keeps]; rfl

theorem mul (d : Reg) (a : Reg) (b : Reg) (w : Bool) : Statement (.mul d a b w) := by
  intro keeps _
  show toOption (decodeCpu (placeAdd 1 0x10 d a b w) 0) = _
  delta decodeCpu decodeClass1 placeAdd readAdd guardRsv
  simp only [bits_skip, bits_head, fld_skip, fld_head, Nat.reduceLeDiff, Nat.reduceSub, Nat.reducePow, Nat.reduceMod, reduceIte, Nat.reduceEqDiff, BEq.rfl, Bool.and_self, flag_skip, flag_head]
  rw [accept_wf _ keeps]; rfl

theorem mulh (d : Reg) (a : Reg) (b : Reg) (w : Bool) : Statement (.mulh d a b w) := by
  intro keeps _
  show toOption (decodeCpu (placeAdd 1 0x11 d a b w) 0) = _
  delta decodeCpu decodeClass1 placeAdd readAdd guardRsv
  simp only [bits_skip, bits_head, fld_skip, fld_head, Nat.reduceLeDiff, Nat.reduceSub, Nat.reducePow, Nat.reduceMod, reduceIte, Nat.reduceEqDiff, BEq.rfl, Bool.and_self, flag_skip, flag_head]
  rw [accept_wf _ keeps]; rfl

theorem mulhn (d : Reg) (a : Reg) (b : Reg) (w : Bool) : Statement (.mulhn d a b w) := by
  intro keeps _
  show toOption (decodeCpu (placeAdd 1 0x12 d a b w) 0) = _
  delta decodeCpu decodeClass1 placeAdd readAdd guardRsv
  simp only [bits_skip, bits_head, fld_skip, fld_head, Nat.reduceLeDiff, Nat.reduceSub, Nat.reducePow, Nat.reduceMod, reduceIte, Nat.reduceEqDiff, BEq.rfl, Bool.and_self, flag_skip, flag_head]
  rw [accept_wf _ keeps]; rfl

theorem div (d : Reg) (a : Reg) (b : Reg) (w : Bool) : Statement (.div d a b w) := by
  intro keeps _
  show toOption (decodeCpu (placeAdd 1 0x14 d a b w) 0) = _
  delta decodeCpu decodeClass1 placeAdd readAdd guardRsv
  simp only [bits_skip, bits_head, fld_skip, fld_head, Nat.reduceLeDiff, Nat.reduceSub, Nat.reducePow, Nat.reduceMod, reduceIte, Nat.reduceEqDiff, BEq.rfl, Bool.and_self, flag_skip, flag_head]
  rw [accept_wf _ keeps]; rfl

theorem divn (d : Reg) (a : Reg) (b : Reg) (w : Bool) : Statement (.divn d a b w) := by
  intro keeps _
  show toOption (decodeCpu (placeAdd 1 0x15 d a b w) 0) = _
  delta decodeCpu decodeClass1 placeAdd readAdd guardRsv
  simp only [bits_skip, bits_head, fld_skip, fld_head, Nat.reduceLeDiff, Nat.reduceSub, Nat.reducePow, Nat.reduceMod, reduceIte, Nat.reduceEqDiff, BEq.rfl, Bool.and_self, flag_skip, flag_head]
  rw [accept_wf _ keeps]; rfl

theorem rem (d : Reg) (a : Reg) (b : Reg) (w : Bool) : Statement (.rem d a b w) := by
  intro keeps _
  show toOption (decodeCpu (placeAdd 1 0x16 d a b w) 0) = _
  delta decodeCpu decodeClass1 placeAdd readAdd guardRsv
  simp only [bits_skip, bits_head, fld_skip, fld_head, Nat.reduceLeDiff, Nat.reduceSub, Nat.reducePow, Nat.reduceMod, reduceIte, Nat.reduceEqDiff, BEq.rfl, Bool.and_self, flag_skip, flag_head]
  rw [accept_wf _ keeps]; rfl

theorem remn (d : Reg) (a : Reg) (b : Reg) (w : Bool) : Statement (.remn d a b w) := by
  intro keeps _
  show toOption (decodeCpu (placeAdd 1 0x17 d a b w) 0) = _
  delta decodeCpu decodeClass1 placeAdd readAdd guardRsv
  simp only [bits_skip, bits_head, fld_skip, fld_head, Nat.reduceLeDiff, Nat.reduceSub, Nat.reducePow, Nat.reduceMod, reduceIte, Nat.reduceEqDiff, BEq.rfl, Bool.and_self, flag_skip, flag_head]
  rw [accept_wf _ keeps]; rfl

theorem min (d : Reg) (a : Reg) (b : Reg) (w : Bool) : Statement (.min d a b w) := by
  intro keeps _
  show toOption (decodeCpu (placeAdd 1 0x18 d a b w) 0) = _
  delta decodeCpu decodeClass1 placeAdd readAdd guardRsv
  simp only [bits_skip, bits_head, fld_skip, fld_head, Nat.reduceLeDiff, Nat.reduceSub, Nat.reducePow, Nat.reduceMod, reduceIte, Nat.reduceEqDiff, BEq.rfl, Bool.and_self, flag_skip, flag_head]
  rw [accept_wf _ keeps]; rfl

theorem max (d : Reg) (a : Reg) (b : Reg) (w : Bool) : Statement (.max d a b w) := by
  intro keeps _
  show toOption (decodeCpu (placeAdd 1 0x19 d a b w) 0) = _
  delta decodeCpu decodeClass1 placeAdd readAdd guardRsv
  simp only [bits_skip, bits_head, fld_skip, fld_head, Nat.reduceLeDiff, Nat.reduceSub, Nat.reducePow, Nat.reduceMod, reduceIte, Nat.reduceEqDiff, BEq.rfl, Bool.and_self, flag_skip, flag_head]
  rw [accept_wf _ keeps]; rfl

theorem minn (d : Reg) (a : Reg) (b : Reg) (w : Bool) : Statement (.minn d a b w) := by
  intro keeps _
  show toOption (decodeCpu (placeAdd 1 0x1a d a b w) 0) = _
  delta decodeCpu decodeClass1 placeAdd readAdd guardRsv
  simp only [bits_skip, bits_head, fld_skip, fld_head, Nat.reduceLeDiff, Nat.reduceSub, Nat.reducePow, Nat.reduceMod, reduceIte, Nat.reduceEqDiff, BEq.rfl, Bool.and_self, flag_skip, flag_head]
  rw [accept_wf _ keeps]; rfl

theorem maxn (d : Reg) (a : Reg) (b : Reg) (w : Bool) : Statement (.maxn d a b w) := by
  intro keeps _
  show toOption (decodeCpu (placeAdd 1 0x1b d a b w) 0) = _
  delta decodeCpu decodeClass1 placeAdd readAdd guardRsv
  simp only [bits_skip, bits_head, fld_skip, fld_head, Nat.reduceLeDiff, Nat.reduceSub, Nat.reducePow, Nat.reduceMod, reduceIte, Nat.reduceEqDiff, BEq.rfl, Bool.and_self, flag_skip, flag_head]
  rw [accept_wf _ keeps]; rfl

theorem cset (d : Reg) (a : Reg) (b : Reg) (k : BitVec 3) : Statement (.cset d a b k) := by
  intro keeps _
  show toOption (decodeCpu (placeCset 1 0x1c d a b k) 0) = _
  delta decodeCpu decodeClass1 placeCset guardRsv
  simp only [bits_skip, bits_head, fld_skip, fld_head, Nat.reduceLeDiff, Nat.reduceSub, Nat.reducePow, Nat.reduceMod, reduceIte, Nat.reduceEqDiff, BEq.rfl, Bool.and_self]
  rw [accept_wf _ keeps]; rfl

theorem sel (d : Reg) (a : Reg) (b : Reg) (c : Reg) : Statement (.sel d a b c) := by
  intro keeps _
  show toOption (decodeCpu (placeSel 1 0x1d d a b c) 0) = _
  delta decodeCpu decodeClass1 placeSel guardRsv
  simp only [bits_skip, bits_head, fld_skip, fld_head, Nat.reduceLeDiff, Nat.reduceSub, Nat.reducePow, Nat.reduceMod, reduceIte, Nat.reduceEqDiff, BEq.rfl, Bool.and_self]
  rw [accept_wf _ keeps]; rfl

theorem popc (d : Reg) (a : Reg) (w : Bool) : Statement (.popc d a w) := by
  intro keeps _
  show toOption (decodeCpu (placePopc 1 0x20 d a w) 0) = _
  delta decodeCpu decodeClass1 placePopc readPopc guardRsv
  simp only [bits_skip, bits_head, fld_skip, fld_head, Nat.reduceLeDiff, Nat.reduceSub, Nat.reducePow, Nat.reduceMod, reduceIte, Nat.reduceEqDiff, BEq.rfl, Bool.and_self, flag_skip, flag_head]
  rw [accept_wf _ keeps]; rfl

theorem clz (d : Reg) (a : Reg) (w : Bool) : Statement (.clz d a w) := by
  intro keeps _
  show toOption (decodeCpu (placePopc 1 0x21 d a w) 0) = _
  delta decodeCpu decodeClass1 placePopc readPopc guardRsv
  simp only [bits_skip, bits_head, fld_skip, fld_head, Nat.reduceLeDiff, Nat.reduceSub, Nat.reducePow, Nat.reduceMod, reduceIte, Nat.reduceEqDiff, BEq.rfl, Bool.and_self, flag_skip, flag_head]
  rw [accept_wf _ keeps]; rfl

theorem ctz (d : Reg) (a : Reg) (w : Bool) : Statement (.ctz d a w) := by
  intro keeps _
  show toOption (decodeCpu (placePopc 1 0x22 d a w) 0) = _
  delta decodeCpu decodeClass1 placePopc readPopc guardRsv
  simp only [bits_skip, bits_head, fld_skip, fld_head, Nat.reduceLeDiff, Nat.reduceSub, Nat.reducePow, Nat.reduceMod, reduceIte, Nat.reduceEqDiff, BEq.rfl, Bool.and_self, flag_skip, flag_head]
  rw [accept_wf _ keeps]; rfl

theorem brev (d : Reg) (a : Reg) (w : Bool) : Statement (.brev d a w) := by
  intro keeps _
  show toOption (decodeCpu (placePopc 1 0x23 d a w) 0) = _
  delta decodeCpu decodeClass1 placePopc readPopc guardRsv
  simp only [bits_skip, bits_head, fld_skip, fld_head, Nat.reduceLeDiff, Nat.reduceSub, Nat.reducePow, Nat.reduceMod, reduceIte, Nat.reduceEqDiff, BEq.rfl, Bool.and_self, flag_skip, flag_head]
  rw [accept_wf _ keeps]; rfl

theorem fnth (d : Reg) (a : Reg) (w : Bool) : Statement (.fnth d a w) := by
  intro keeps _
  show toOption (decodeCpu (placePopc 1 0x24 d a w) 0) = _
  delta decodeCpu decodeClass1 placePopc readPopc guardRsv
  simp only [bits_skip, bits_head, fld_skip, fld_head, Nat.reduceLeDiff, Nat.reduceSub, Nat.reducePow, Nat.reduceMod, reduceIte, Nat.reduceEqDiff, BEq.rfl, Bool.and_self, flag_skip, flag_head]
  rw [accept_wf _ keeps]; rfl

theorem addi (d : Reg) (a : Reg) (im : BitVec 14) : Statement (.addi d a im) := by
  intro keeps _
  show toOption (decodeCpu (placeAddi 2 0 d a im) 0) = _
  delta decodeCpu decodeClass2 placeAddi readAddi guardRsv
  simp only [bits_skip, bits_head, fld_skip, fld_head, Nat.reduceLeDiff, Nat.reduceSub, Nat.reducePow, Nat.reduceMod, reduceIte, Nat.reduceEqDiff, BEq.rfl, Bool.and_self]
  rw [accept_wf _ keeps]; rfl

theorem andi (d : Reg) (a : Reg) (im : BitVec 14) : Statement (.andi d a im) := by
  intro keeps _
  show toOption (decodeCpu (placeAddi 2 1 d a im) 0) = _
  delta decodeCpu decodeClass2 placeAddi readAddi guardRsv
  simp only [bits_skip, bits_head, fld_skip, fld_head, Nat.reduceLeDiff, Nat.reduceSub, Nat.reducePow, Nat.reduceMod, reduceIte, Nat.reduceEqDiff, BEq.rfl, Bool.and_self]
  rw [accept_wf _ keeps]; rfl

theorem ori (d : Reg) (a : Reg) (im : BitVec 14) : Statement (.ori d a im) := by
  intro keeps _
  show toOption (decodeCpu (placeAddi 2 2 d a im) 0) = _
  delta decodeCpu decodeClass2 placeAddi readAddi guardRsv
  simp only [bits_skip, bits_head, fld_skip, fld_head, Nat.reduceLeDiff, Nat.reduceSub, Nat.reducePow, Nat.reduceMod, reduceIte, Nat.reduceEqDiff, BEq.rfl, Bool.and_self]
  rw [accept_wf _ keeps]; rfl

theorem xori (d : Reg) (a : Reg) (im : BitVec 14) : Statement (.xori d a im) := by
  intro keeps _
  show toOption (decodeCpu (placeAddi 2 3 d a im) 0) = _
  delta decodeCpu decodeClass2 placeAddi readAddi guardRsv
  simp only [bits_skip, bits_head, fld_skip, fld_head, Nat.reduceLeDiff, Nat.reduceSub, Nat.reducePow, Nat.reduceMod, reduceIte, Nat.reduceEqDiff, BEq.rfl, Bool.and_self]
  rw [accept_wf _ keeps]; rfl

theorem csetiEq (d : Reg) (a : Reg) (im : BitVec 14) : Statement (.csetiEq d a im) := by
  intro keeps _
  show toOption (decodeCpu (placeAddi 2 4 d a im) 0) = _
  delta decodeCpu decodeClass2 placeAddi readAddi guardRsv
  simp only [bits_skip, bits_head, fld_skip, fld_head, Nat.reduceLeDiff, Nat.reduceSub, Nat.reducePow, Nat.reduceMod, reduceIte, Nat.reduceEqDiff, BEq.rfl, Bool.and_self]
  rw [accept_wf _ keeps]; rfl

theorem csetiNe (d : Reg) (a : Reg) (im : BitVec 14) : Statement (.csetiNe d a im) := by
  intro keeps _
  show toOption (decodeCpu (placeAddi 2 5 d a im) 0) = _
  delta decodeCpu decodeClass2 placeAddi readAddi guardRsv
  simp only [bits_skip, bits_head, fld_skip, fld_head, Nat.reduceLeDiff, Nat.reduceSub, Nat.reducePow, Nat.reduceMod, reduceIte, Nat.reduceEqDiff, BEq.rfl, Bool.and_self]
  rw [accept_wf _ keeps]; rfl

theorem csetiLt (d : Reg) (a : Reg) (im : BitVec 14) : Statement (.csetiLt d a im) := by
  intro keeps _
  show toOption (decodeCpu (placeAddi 2 6 d a im) 0) = _
  delta decodeCpu decodeClass2 placeAddi readAddi guardRsv
  simp only [bits_skip, bits_head, fld_skip, fld_head, Nat.reduceLeDiff, Nat.reduceSub, Nat.reducePow, Nat.reduceMod, reduceIte, Nat.reduceEqDiff, BEq.rfl, Bool.and_self]
  rw [accept_wf _ keeps]; rfl

theorem csetiLtn (d : Reg) (a : Reg) (im : BitVec 14) : Statement (.csetiLtn d a im) := by
  intro keeps _
  show toOption (decodeCpu (placeAddi 2 7 d a im) 0) = _
  delta decodeCpu decodeClass2 placeAddi readAddi guardRsv
  simp only [bits_skip, bits_head, fld_skip, fld_head, Nat.reduceLeDiff, Nat.reduceSub, Nat.reducePow, Nat.reduceMod, reduceIte, Nat.reduceEqDiff, BEq.rfl, Bool.and_self]
  rw [accept_wf _ keeps]; rfl

theorem slli (d : Reg) (a : Reg) (p : BitVec 6) (w : Bool) : Statement (.slli d a p w) := by
  intro keeps _
  show toOption (decodeCpu (placeSlli 3 0 d a p w) 0) = _
  delta decodeCpu decodeClass3 placeSlli readSlli guardRsv
  simp only [bits_skip, bits_head, fld_skip, fld_head, Nat.reduceLeDiff, Nat.reduceSub, Nat.reducePow, Nat.reduceMod, reduceIte, Nat.reduceEqDiff, BEq.rfl, Bool.and_self, flag_skip, flag_head]
  rw [accept_wf _ keeps]; rfl

theorem srli (d : Reg) (a : Reg) (p : BitVec 6) (w : Bool) : Statement (.srli d a p w) := by
  intro keeps _
  show toOption (decodeCpu (placeSlli 3 1 d a p w) 0) = _
  delta decodeCpu decodeClass3 placeSlli readSlli guardRsv
  simp only [bits_skip, bits_head, fld_skip, fld_head, Nat.reduceLeDiff, Nat.reduceSub, Nat.reducePow, Nat.reduceMod, reduceIte, Nat.reduceEqDiff, BEq.rfl, Bool.and_self, flag_skip, flag_head]
  rw [accept_wf _ keeps]; rfl

theorem srai (d : Reg) (a : Reg) (p : BitVec 6) (w : Bool) : Statement (.srai d a p w) := by
  intro keeps _
  show toOption (decodeCpu (placeSlli 3 2 d a p w) 0) = _
  delta decodeCpu decodeClass3 placeSlli readSlli guardRsv
  simp only [bits_skip, bits_head, fld_skip, fld_head, Nat.reduceLeDiff, Nat.reduceSub, Nat.reducePow, Nat.reduceMod, reduceIte, Nat.reduceEqDiff, BEq.rfl, Bool.and_self, flag_skip, flag_head]
  rw [accept_wf _ keeps]; rfl

theorem rori (d : Reg) (a : Reg) (p : BitVec 6) (w : Bool) : Statement (.rori d a p w) := by
  intro keeps _
  show toOption (decodeCpu (placeSlli 3 3 d a p w) 0) = _
  delta decodeCpu decodeClass3 placeSlli readSlli guardRsv
  simp only [bits_skip, bits_head, fld_skip, fld_head, Nat.reduceLeDiff, Nat.reduceSub, Nat.reducePow, Nat.reduceMod, reduceIte, Nat.reduceEqDiff, BEq.rfl, Bool.and_self, flag_skip, flag_head]
  rw [accept_wf _ keeps]; rfl

theorem bext (d : Reg) (a : Reg) (p : BitVec 6) (l : BitVec 6) : Statement (.bext d a p l) := by
  intro keeps _
  show toOption (decodeCpu (placeBext 3 4 d a p l) 0) = _
  delta decodeCpu decodeClass3 placeBext readBext guardRsv
  simp only [bits_skip, bits_head, fld_skip, fld_head, Nat.reduceLeDiff, Nat.reduceSub, Nat.reducePow, Nat.reduceMod, reduceIte, Nat.reduceEqDiff, BEq.rfl, Bool.and_self]
  rw [accept_wf _ keeps]; rfl

theorem bexts (d : Reg) (a : Reg) (p : BitVec 6) (l : BitVec 6) : Statement (.bexts d a p l) := by
  intro keeps _
  show toOption (decodeCpu (placeBext 3 5 d a p l) 0) = _
  delta decodeCpu decodeClass3 placeBext readBext guardRsv
  simp only [bits_skip, bits_head, fld_skip, fld_head, Nat.reduceLeDiff, Nat.reduceSub, Nat.reducePow, Nat.reduceMod, reduceIte, Nat.reduceEqDiff, BEq.rfl, Bool.and_self]
  rw [accept_wf _ keeps]; rfl

theorem bins (d : Reg) (a : Reg) (p : BitVec 6) (l : BitVec 6) : Statement (.bins d a p l) := by
  intro keeps _
  show toOption (decodeCpu (placeBext 3 6 d a p l) 0) = _
  delta decodeCpu decodeClass3 placeBext readBext guardRsv
  simp only [bits_skip, bits_head, fld_skip, fld_head, Nat.reduceLeDiff, Nat.reduceSub, Nat.reducePow, Nat.reduceMod, reduceIte, Nat.reduceEqDiff, BEq.rfl, Bool.and_self]
  rw [accept_wf _ keeps]; rfl

theorem lui (d : Reg) (im : BitVec 21) : Statement (.lui d im) := by
  intro keeps _
  show toOption (decodeCpu (placeLui 4 0 d im) 0) = _
  delta decodeCpu decodeClass4 placeLui readLui guardRsv
  simp only [bits_skip, bits_head, fld_skip, fld_head, Nat.reduceLeDiff, Nat.reduceSub, Nat.reducePow, Nat.reduceMod, reduceIte, Nat.reduceEqDiff, BEq.rfl, Bool.and_self]
  rw [accept_wf _ keeps]; rfl

theorem lpa (d : Reg) (im : BitVec 21) : Statement (.lpa d im) := by
  intro keeps _
  show toOption (decodeCpu (placeLui 4 1 d im) 0) = _
  delta decodeCpu decodeClass4 placeLui readLui guardRsv
  simp only [bits_skip, bits_head, fld_skip, fld_head, Nat.reduceLeDiff, Nat.reduceSub, Nat.reducePow, Nat.reduceMod, reduceIte, Nat.reduceEqDiff, BEq.rfl, Bool.and_self]
  rw [accept_wf _ keeps]; rfl

theorem bCond (h : BitVec 2) (k : BitVec 3) (a : Reg) (b : Reg) (l : BitVec 12) : Statement (.bCond h k a b l) := by
  intro keeps _
  show toOption (decodeCpu (placeBCond 5 h k a b l) 0) = _
  delta decodeCpu decodeClass5 placeBCond guardRsv
  simp only [bits_skip, bits_head, fld_skip, fld_head, Nat.reduceLeDiff, Nat.reduceSub, Nat.reducePow, Nat.reduceMod, reduceIte, Nat.reduceEqDiff, BEq.rfl, Bool.and_self]
  rw [accept_wf _ keeps]; rfl

theorem jl (d : Reg) (off : BitVec 22) : Statement (.jl d off) := by
  intro keeps _
  show toOption (decodeCpu (placeJl 6 d off) 0) = _
  delta decodeCpu decodeClass6 placeJl guardRsv
  simp only [bits_skip, bits_head, fld_skip, fld_head, Nat.reduceLeDiff, Nat.reduceSub, Nat.reducePow, Nat.reduceMod, reduceIte, Nat.reduceEqDiff, BEq.rfl, Bool.and_self]
  rw [accept_wf _ keeps]; rfl

theorem jlr (d : Reg) (a : Reg) (off : BitVec 14) : Statement (.jlr d a off) := by
  intro keeps _
  show toOption (decodeCpu (placeJlr 7 d a off) 0) = _
  delta decodeCpu decodeClass7 placeJlr guardRsv
  simp only [bits_skip, bits_head, fld_skip, fld_head, Nat.reduceLeDiff, Nat.reduceSub, Nat.reducePow, Nat.reduceMod, reduceIte, Nat.reduceEqDiff, BEq.rfl, Bool.and_self]
  rw [accept_wf _ keeps]; rfl

theorem ld (d : Reg) (b : Reg) (pol : Pol) (ord : Order) (sc : Scope) (z : BitVec 2) (x : Bool) (off : BitVec 7) : Statement (.ld d b pol ord sc z x off) := by
  intro keeps _
  show toOption (decodeCpu (placeLd 8 d b pol ord sc z x off) 0) = _
  delta decodeCpu decodeClass8 placeLd guardRsv
  simp only [bits_skip, bits_head, fld_skip, fld_head, Nat.reduceLeDiff, Nat.reduceSub, Nat.reducePow, Nat.reduceMod, reduceIte, Nat.reduceEqDiff, BEq.rfl, Bool.and_self, flag_skip, flag_head, pol_ofCode_code, pol_code_mod, order_ofCode_code, order_code_mod, scope_ofCode_code, scope_code_mod, scope_code_lt, decide_true]
  rw [accept_wf _ keeps]; rfl

theorem ldx (d : Reg) (b : Reg) (pol : Pol) (ord : Order) (sc : Scope) (z : BitVec 2) (x : Bool) (idx : Reg) (c : Bool) : Statement (.ldx d b pol ord sc z x idx c) := by
  intro keeps _
  show toOption (decodeCpu (placeLdx 0xa 0 d b pol ord sc z x idx c) 0) = _
  delta decodeCpu decodeClass10 placeLdx guardRsv
  simp only [bits_skip, bits_head, fld_skip, fld_head, Nat.reduceLeDiff, Nat.reduceSub, Nat.reducePow, Nat.reduceMod, reduceIte, Nat.reduceEqDiff, BEq.rfl, Bool.and_self, flag_skip, flag_head, pol_ofCode_code, pol_code_mod, order_ofCode_code, order_code_mod, scope_ofCode_code, scope_code_mod, scope_code_lt, decide_true]
  rw [accept_wf _ keeps]; rfl

theorem st (t : Reg) (b : Reg) (pol : Pol) (ord : Order) (sc : Scope) (z : BitVec 2) (off : BitVec 7) : Statement (.st t b pol ord sc z off) := by
  intro keeps _
  show toOption (decodeCpu (placeSt 9 t b pol ord sc z off) 0) = _
  delta decodeCpu decodeClass9 placeSt guardRsv
  simp only [bits_skip, bits_head, fld_skip, fld_head, Nat.reduceLeDiff, Nat.reduceSub, Nat.reducePow, Nat.reduceMod, reduceIte, Nat.reduceEqDiff, BEq.rfl, Bool.and_self, pol_ofCode_code, pol_code_mod, order_ofCode_code, order_code_mod, scope_ofCode_code, scope_code_mod, scope_code_lt, decide_true]
  rw [accept_wf _ keeps]; rfl

theorem stx (t : Reg) (b : Reg) (pol : Pol) (ord : Order) (sc : Scope) (z : BitVec 2) (idx : Reg) (c : Bool) : Statement (.stx t b pol ord sc z idx c) := by
  intro keeps _
  show toOption (decodeCpu (placeStx 0xa 1 t b pol ord sc z idx c) 0) = _
  delta decodeCpu decodeClass10 placeStx guardRsv
  simp only [bits_skip, bits_head, fld_skip, fld_head, Nat.reduceLeDiff, Nat.reduceSub, Nat.reducePow, Nat.reduceMod, reduceIte, Nat.reduceEqDiff, BEq.rfl, Bool.and_self, flag_skip, flag_head, pol_ofCode_code, pol_code_mod, order_ofCode_code, order_code_mod, scope_ofCode_code, scope_code_mod, scope_code_lt, decide_true]
  rw [accept_wf _ keeps]; rfl

theorem amoAdd (d : Reg) (b : Reg) (pol : Pol) (ord : Order) (sc : Scope) (v : Reg) (w : Bool) : Statement (.amoAdd d b pol ord sc v w) := by
  intro keeps _
  show toOption (decodeCpu (placeAmoAdd 0xb 0 d b pol ord sc v w) 0) = _
  delta decodeCpu decodeClass11 placeAmoAdd readAmoAdd guardRsv
  simp only [bits_skip, bits_head, fld_skip, fld_head, Nat.reduceLeDiff, Nat.reduceSub, Nat.reducePow, Nat.reduceMod, reduceIte, Nat.reduceEqDiff, BEq.rfl, Bool.and_self, flag_skip, flag_head, pol_ofCode_code, pol_code_mod, order_ofCode_code, order_code_mod, scope_ofCode_code, scope_code_mod, scope_code_lt, decide_true]
  rw [accept_wf _ keeps]; rfl

theorem amoAnd (d : Reg) (b : Reg) (pol : Pol) (ord : Order) (sc : Scope) (v : Reg) (w : Bool) : Statement (.amoAnd d b pol ord sc v w) := by
  intro keeps _
  show toOption (decodeCpu (placeAmoAdd 0xb 1 d b pol ord sc v w) 0) = _
  delta decodeCpu decodeClass11 placeAmoAdd readAmoAdd guardRsv
  simp only [bits_skip, bits_head, fld_skip, fld_head, Nat.reduceLeDiff, Nat.reduceSub, Nat.reducePow, Nat.reduceMod, reduceIte, Nat.reduceEqDiff, BEq.rfl, Bool.and_self, flag_skip, flag_head, pol_ofCode_code, pol_code_mod, order_ofCode_code, order_code_mod, scope_ofCode_code, scope_code_mod, scope_code_lt, decide_true]
  rw [accept_wf _ keeps]; rfl

theorem amoOr (d : Reg) (b : Reg) (pol : Pol) (ord : Order) (sc : Scope) (v : Reg) (w : Bool) : Statement (.amoOr d b pol ord sc v w) := by
  intro keeps _
  show toOption (decodeCpu (placeAmoAdd 0xb 2 d b pol ord sc v w) 0) = _
  delta decodeCpu decodeClass11 placeAmoAdd readAmoAdd guardRsv
  simp only [bits_skip, bits_head, fld_skip, fld_head, Nat.reduceLeDiff, Nat.reduceSub, Nat.reducePow, Nat.reduceMod, reduceIte, Nat.reduceEqDiff, BEq.rfl, Bool.and_self, flag_skip, flag_head, pol_ofCode_code, pol_code_mod, order_ofCode_code, order_code_mod, scope_ofCode_code, scope_code_mod, scope_code_lt, decide_true]
  rw [accept_wf _ keeps]; rfl

theorem amoXor (d : Reg) (b : Reg) (pol : Pol) (ord : Order) (sc : Scope) (v : Reg) (w : Bool) : Statement (.amoXor d b pol ord sc v w) := by
  intro keeps _
  show toOption (decodeCpu (placeAmoAdd 0xb 3 d b pol ord sc v w) 0) = _
  delta decodeCpu decodeClass11 placeAmoAdd readAmoAdd guardRsv
  simp only [bits_skip, bits_head, fld_skip, fld_head, Nat.reduceLeDiff, Nat.reduceSub, Nat.reducePow, Nat.reduceMod, reduceIte, Nat.reduceEqDiff, BEq.rfl, Bool.and_self, flag_skip, flag_head, pol_ofCode_code, pol_code_mod, order_ofCode_code, order_code_mod, scope_ofCode_code, scope_code_mod, scope_code_lt, decide_true]
  rw [accept_wf _ keeps]; rfl

theorem amoMin (d : Reg) (b : Reg) (pol : Pol) (ord : Order) (sc : Scope) (v : Reg) (w : Bool) : Statement (.amoMin d b pol ord sc v w) := by
  intro keeps _
  show toOption (decodeCpu (placeAmoAdd 0xb 4 d b pol ord sc v w) 0) = _
  delta decodeCpu decodeClass11 placeAmoAdd readAmoAdd guardRsv
  simp only [bits_skip, bits_head, fld_skip, fld_head, Nat.reduceLeDiff, Nat.reduceSub, Nat.reducePow, Nat.reduceMod, reduceIte, Nat.reduceEqDiff, BEq.rfl, Bool.and_self, flag_skip, flag_head, pol_ofCode_code, pol_code_mod, order_ofCode_code, order_code_mod, scope_ofCode_code, scope_code_mod, scope_code_lt, decide_true]
  rw [accept_wf _ keeps]; rfl

theorem amoMax (d : Reg) (b : Reg) (pol : Pol) (ord : Order) (sc : Scope) (v : Reg) (w : Bool) : Statement (.amoMax d b pol ord sc v w) := by
  intro keeps _
  show toOption (decodeCpu (placeAmoAdd 0xb 5 d b pol ord sc v w) 0) = _
  delta decodeCpu decodeClass11 placeAmoAdd readAmoAdd guardRsv
  simp only [bits_skip, bits_head, fld_skip, fld_head, Nat.reduceLeDiff, Nat.reduceSub, Nat.reducePow, Nat.reduceMod, reduceIte, Nat.reduceEqDiff, BEq.rfl, Bool.and_self, flag_skip, flag_head, pol_ofCode_code, pol_code_mod, order_ofCode_code, order_code_mod, scope_ofCode_code, scope_code_mod, scope_code_lt, decide_true]
  rw [accept_wf _ keeps]; rfl

theorem amoMinn (d : Reg) (b : Reg) (pol : Pol) (ord : Order) (sc : Scope) (v : Reg) (w : Bool) : Statement (.amoMinn d b pol ord sc v w) := by
  intro keeps _
  show toOption (decodeCpu (placeAmoAdd 0xb 6 d b pol ord sc v w) 0) = _
  delta decodeCpu decodeClass11 placeAmoAdd readAmoAdd guardRsv
  simp only [bits_skip, bits_head, fld_skip, fld_head, Nat.reduceLeDiff, Nat.reduceSub, Nat.reducePow, Nat.reduceMod, reduceIte, Nat.reduceEqDiff, BEq.rfl, Bool.and_self, flag_skip, flag_head, pol_ofCode_code, pol_code_mod, order_ofCode_code, order_code_mod, scope_ofCode_code, scope_code_mod, scope_code_lt, decide_true]
  rw [accept_wf _ keeps]; rfl

theorem amoMaxn (d : Reg) (b : Reg) (pol : Pol) (ord : Order) (sc : Scope) (v : Reg) (w : Bool) : Statement (.amoMaxn d b pol ord sc v w) := by
  intro keeps _
  show toOption (decodeCpu (placeAmoAdd 0xb 7 d b pol ord sc v w) 0) = _
  delta decodeCpu decodeClass11 placeAmoAdd readAmoAdd guardRsv
  simp only [bits_skip, bits_head, fld_skip, fld_head, Nat.reduceLeDiff, Nat.reduceSub, Nat.reducePow, Nat.reduceMod, reduceIte, Nat.reduceEqDiff, BEq.rfl, Bool.and_self, flag_skip, flag_head, pol_ofCode_code, pol_code_mod, order_ofCode_code, order_code_mod, scope_ofCode_code, scope_code_mod, scope_code_lt, decide_true]
  rw [accept_wf _ keeps]; rfl

theorem amoSwap (d : Reg) (b : Reg) (pol : Pol) (ord : Order) (sc : Scope) (v : Reg) (w : Bool) : Statement (.amoSwap d b pol ord sc v w) := by
  intro keeps _
  show toOption (decodeCpu (placeAmoAdd 0xb 8 d b pol ord sc v w) 0) = _
  delta decodeCpu decodeClass11 placeAmoAdd readAmoAdd guardRsv
  simp only [bits_skip, bits_head, fld_skip, fld_head, Nat.reduceLeDiff, Nat.reduceSub, Nat.reducePow, Nat.reduceMod, reduceIte, Nat.reduceEqDiff, BEq.rfl, Bool.and_self, flag_skip, flag_head, pol_ofCode_code, pol_code_mod, order_ofCode_code, order_code_mod, scope_ofCode_code, scope_code_mod, scope_code_lt, decide_true]
  rw [accept_wf _ keeps]; rfl

theorem cas (d : Reg) (b : Reg) (pol : Pol) (ord : Order) (sc : Scope) (v : Reg) (w : Bool) : Statement (.cas d b pol ord sc v w) := by
  intro keeps _
  show toOption (decodeCpu (placeAmoAdd 0xb 9 d b pol ord sc v w) 0) = _
  delta decodeCpu decodeClass11 placeAmoAdd readAmoAdd guardRsv
  simp only [bits_skip, bits_head, fld_skip, fld_head, Nat.reduceLeDiff, Nat.reduceSub, Nat.reducePow, Nat.reduceMod, reduceIte, Nat.reduceEqDiff, BEq.rfl, Bool.and_self, flag_skip, flag_head, pol_ofCode_code, pol_code_mod, order_ofCode_code, order_code_mod, scope_ofCode_code, scope_code_mod, scope_code_lt, decide_true]
  rw [accept_wf _ keeps]; rfl

theorem fence (ord : Order) (sc : Scope) : Statement (.fence ord sc) := by
  intro keeps _
  show toOption (decodeCpu (placeFence 0xc 0 ord sc) 0) = _
  delta decodeCpu decodeClass12 placeFence guardRsv
  simp only [bits_skip, bits_head, fld_skip, fld_head, Nat.reduceLeDiff, Nat.reduceSub, Nat.reducePow, Nat.reduceMod, reduceIte, Nat.reduceEqDiff, BEq.rfl, Bool.and_self, order_ofCode_code, order_code_mod, scope_ofCode_code, scope_code_mod, scope_code_lt, decide_true]
  rw [accept_wf _ keeps]; rfl

theorem pref (b : Reg) (pol : Pol) (h : BitVec 3) (off : BitVec 7) : Statement (.pref b pol h off) := by
  intro keeps _
  show toOption (decodeCpu (placePref 0xc 1 b pol h off) 0) = _
  delta decodeCpu decodeClass12 placePref guardRsv
  simp only [bits_skip, bits_head, fld_skip, fld_head, Nat.reduceLeDiff, Nat.reduceSub, Nat.reducePow, Nat.reduceMod, reduceIte, Nat.reduceEqDiff, BEq.rfl, Bool.and_self, pol_ofCode_code, pol_code_mod]
  rw [accept_wf _ keeps]; rfl

theorem cwb (b : Reg) (off : BitVec 7) : Statement (.cwb b off) := by
  intro keeps _
  show toOption (decodeCpu (placeCwb 0xc 2 b off) 0) = _
  delta decodeCpu decodeClass12 placeCwb readCwb guardRsv
  simp only [bits_skip, bits_head, fld_skip, fld_head, Nat.reduceLeDiff, Nat.reduceSub, Nat.reducePow, Nat.reduceMod, reduceIte, Nat.reduceEqDiff, BEq.rfl, Bool.and_self]
  rw [accept_wf _ keeps]; rfl

theorem cinv (b : Reg) (off : BitVec 7) : Statement (.cinv b off) := by
  intro keeps _
  show toOption (decodeCpu (placeCwb 0xc 3 b off) 0) = _
  delta decodeCpu decodeClass12 placeCwb readCwb guardRsv
  simp only [bits_skip, bits_head, fld_skip, fld_head, Nat.reduceLeDiff, Nat.reduceSub, Nat.reducePow, Nat.reduceMod, reduceIte, Nat.reduceEqDiff, BEq.rfl, Bool.and_self]
  rw [accept_wf _ keeps]; rfl

theorem vadd (d : Reg) (a : Reg) (b : Reg) (e : BitVec 2) (g : BitVec 3) (z : Bool) : Statement (.vadd d a b e g z) := by
  intro keeps _
  show toOption (decodeCpu (placeVadd 0xd 0 d a b e g z) 0) = _
  delta decodeCpu decodeClass13 placeVadd readVadd guardRsv
  simp only [bits_skip, bits_head, fld_skip, fld_head, Nat.reduceLeDiff, Nat.reduceSub, Nat.reducePow, Nat.reduceMod, reduceIte, Nat.reduceEqDiff, BEq.rfl, Bool.and_self, flag_skip, flag_head]
  rw [accept_wf _ keeps]; rfl

theorem vsub (d : Reg) (a : Reg) (b : Reg) (e : BitVec 2) (g : BitVec 3) (z : Bool) : Statement (.vsub d a b e g z) := by
  intro keeps _
  show toOption (decodeCpu (placeVadd 0xd 1 d a b e g z) 0) = _
  delta decodeCpu decodeClass13 placeVadd readVadd guardRsv
  simp only [bits_skip, bits_head, fld_skip, fld_head, Nat.reduceLeDiff, Nat.reduceSub, Nat.reducePow, Nat.reduceMod, reduceIte, Nat.reduceEqDiff, BEq.rfl, Bool.and_self, flag_skip, flag_head]
  rw [accept_wf _ keeps]; rfl

theorem vmul (d : Reg) (a : Reg) (b : Reg) (e : BitVec 2) (g : BitVec 3) (z : Bool) : Statement (.vmul d a b e g z) := by
  intro keeps _
  show toOption (decodeCpu (placeVadd 0xd 2 d a b e g z) 0) = _
  delta decodeCpu decodeClass13 placeVadd readVadd guardRsv
  simp only [bits_skip, bits_head, fld_skip, fld_head, Nat.reduceLeDiff, Nat.reduceSub, Nat.reducePow, Nat.reduceMod, reduceIte, Nat.reduceEqDiff, BEq.rfl, Bool.and_self, flag_skip, flag_head]
  rw [accept_wf _ keeps]; rfl

theorem vmulhI (d : Reg) (a : Reg) (b : Reg) (e : BitVec 2) (g : BitVec 3) (z : Bool) : Statement (.vmulhI d a b e g z) := by
  intro keeps _
  show toOption (decodeCpu (placeVadd 0xd 3 d a b e g z) 0) = _
  delta decodeCpu decodeClass13 placeVadd readVadd guardRsv
  simp only [bits_skip, bits_head, fld_skip, fld_head, Nat.reduceLeDiff, Nat.reduceSub, Nat.reducePow, Nat.reduceMod, reduceIte, Nat.reduceEqDiff, BEq.rfl, Bool.and_self, flag_skip, flag_head]
  rw [accept_wf _ keeps]; rfl

theorem vmulhN (d : Reg) (a : Reg) (b : Reg) (e : BitVec 2) (g : BitVec 3) (z : Bool) : Statement (.vmulhN d a b e g z) := by
  intro keeps _
  show toOption (decodeCpu (placeVadd 0xd 4 d a b e g z) 0) = _
  delta decodeCpu decodeClass13 placeVadd readVadd guardRsv
  simp only [bits_skip, bits_head, fld_skip, fld_head, Nat.reduceLeDiff, Nat.reduceSub, Nat.reducePow, Nat.reduceMod, reduceIte, Nat.reduceEqDiff, BEq.rfl, Bool.and_self, flag_skip, flag_head]
  rw [accept_wf _ keeps]; rfl

theorem vminI (d : Reg) (a : Reg) (b : Reg) (e : BitVec 2) (g : BitVec 3) (z : Bool) : Statement (.vminI d a b e g z) := by
  intro keeps _
  show toOption (decodeCpu (placeVadd 0xd 5 d a b e g z) 0) = _
  delta decodeCpu decodeClass13 placeVadd readVadd guardRsv
  simp only [bits_skip, bits_head, fld_skip, fld_head, Nat.reduceLeDiff, Nat.reduceSub, Nat.reducePow, Nat.reduceMod, reduceIte, Nat.reduceEqDiff, BEq.rfl, Bool.and_self, flag_skip, flag_head]
  rw [accept_wf _ keeps]; rfl

theorem vminN (d : Reg) (a : Reg) (b : Reg) (e : BitVec 2) (g : BitVec 3) (z : Bool) : Statement (.vminN d a b e g z) := by
  intro keeps _
  show toOption (decodeCpu (placeVadd 0xd 6 d a b e g z) 0) = _
  delta decodeCpu decodeClass13 placeVadd readVadd guardRsv
  simp only [bits_skip, bits_head, fld_skip, fld_head, Nat.reduceLeDiff, Nat.reduceSub, Nat.reducePow, Nat.reduceMod, reduceIte, Nat.reduceEqDiff, BEq.rfl, Bool.and_self, flag_skip, flag_head]
  rw [accept_wf _ keeps]; rfl

theorem vmaxI (d : Reg) (a : Reg) (b : Reg) (e : BitVec 2) (g : BitVec 3) (z : Bool) : Statement (.vmaxI d a b e g z) := by
  intro keeps _
  show toOption (decodeCpu (placeVadd 0xd 7 d a b e g z) 0) = _
  delta decodeCpu decodeClass13 placeVadd readVadd guardRsv
  simp only [bits_skip, bits_head, fld_skip, fld_head, Nat.reduceLeDiff, Nat.reduceSub, Nat.reducePow, Nat.reduceMod, reduceIte, Nat.reduceEqDiff, BEq.rfl, Bool.and_self, flag_skip, flag_head]
  rw [accept_wf _ keeps]; rfl

theorem vmaxN (d : Reg) (a : Reg) (b : Reg) (e : BitVec 2) (g : BitVec 3) (z : Bool) : Statement (.vmaxN d a b e g z) := by
  intro keeps _
  show toOption (decodeCpu (placeVadd 0xd 8 d a b e g z) 0) = _
  delta decodeCpu decodeClass13 placeVadd readVadd guardRsv
  simp only [bits_skip, bits_head, fld_skip, fld_head, Nat.reduceLeDiff, Nat.reduceSub, Nat.reducePow, Nat.reduceMod, reduceIte, Nat.reduceEqDiff, BEq.rfl, Bool.and_self, flag_skip, flag_head]
  rw [accept_wf _ keeps]; rfl

theorem vand (d : Reg) (a : Reg) (b : Reg) (e : BitVec 2) (g : BitVec 3) (z : Bool) : Statement (.vand d a b e g z) := by
  intro keeps _
  show toOption (decodeCpu (placeVadd 0xd 9 d a b e g z) 0) = _
  delta decodeCpu decodeClass13 placeVadd readVadd guardRsv
  simp only [bits_skip, bits_head, fld_skip, fld_head, Nat.reduceLeDiff, Nat.reduceSub, Nat.reducePow, Nat.reduceMod, reduceIte, Nat.reduceEqDiff, BEq.rfl, Bool.and_self, flag_skip, flag_head]
  rw [accept_wf _ keeps]; rfl

theorem vor (d : Reg) (a : Reg) (b : Reg) (e : BitVec 2) (g : BitVec 3) (z : Bool) : Statement (.vor d a b e g z) := by
  intro keeps _
  show toOption (decodeCpu (placeVadd 0xd 0xa d a b e g z) 0) = _
  delta decodeCpu decodeClass13 placeVadd readVadd guardRsv
  simp only [bits_skip, bits_head, fld_skip, fld_head, Nat.reduceLeDiff, Nat.reduceSub, Nat.reducePow, Nat.reduceMod, reduceIte, Nat.reduceEqDiff, BEq.rfl, Bool.and_self, flag_skip, flag_head]
  rw [accept_wf _ keeps]; rfl

theorem vxor (d : Reg) (a : Reg) (b : Reg) (e : BitVec 2) (g : BitVec 3) (z : Bool) : Statement (.vxor d a b e g z) := by
  intro keeps _
  show toOption (decodeCpu (placeVadd 0xd 0xb d a b e g z) 0) = _
  delta decodeCpu decodeClass13 placeVadd readVadd guardRsv
  simp only [bits_skip, bits_head, fld_skip, fld_head, Nat.reduceLeDiff, Nat.reduceSub, Nat.reducePow, Nat.reduceMod, reduceIte, Nat.reduceEqDiff, BEq.rfl, Bool.and_self, flag_skip, flag_head]
  rw [accept_wf _ keeps]; rfl

theorem vandn (d : Reg) (a : Reg) (b : Reg) (e : BitVec 2) (g : BitVec 3) (z : Bool) : Statement (.vandn d a b e g z) := by
  intro keeps _
  show toOption (decodeCpu (placeVadd 0xd 0xc d a b e g z) 0) = _
  delta decodeCpu decodeClass13 placeVadd readVadd guardRsv
  simp only [bits_skip, bits_head, fld_skip, fld_head, Nat.reduceLeDiff, Nat.reduceSub, Nat.reducePow, Nat.reduceMod, reduceIte, Nat.reduceEqDiff, BEq.rfl, Bool.and_self, flag_skip, flag_head]
  rw [accept_wf _ keeps]; rfl

theorem vsll (d : Reg) (a : Reg) (b : Reg) (e : BitVec 2) (g : BitVec 3) (z : Bool) : Statement (.vsll d a b e g z) := by
  intro keeps _
  show toOption (decodeCpu (placeVadd 0xd 0xd d a b e g z) 0) = _
  delta decodeCpu decodeClass13 placeVadd readVadd guardRsv
  simp only [bits_skip, bits_head, fld_skip, fld_head, Nat.reduceLeDiff, Nat.reduceSub, Nat.reducePow, Nat.reduceMod, reduceIte, Nat.reduceEqDiff, BEq.rfl, Bool.and_self, flag_skip, flag_head]
  rw [accept_wf _ keeps]; rfl

theorem vsrl (d : Reg) (a : Reg) (b : Reg) (e : BitVec 2) (g : BitVec 3) (z : Bool) : Statement (.vsrl d a b e g z) := by
  intro keeps _
  show toOption (decodeCpu (placeVadd 0xd 0xe d a b e g z) 0) = _
  delta decodeCpu decodeClass13 placeVadd readVadd guardRsv
  simp only [bits_skip, bits_head, fld_skip, fld_head, Nat.reduceLeDiff, Nat.reduceSub, Nat.reducePow, Nat.reduceMod, reduceIte, Nat.reduceEqDiff, BEq.rfl, Bool.and_self, flag_skip, flag_head]
  rw [accept_wf _ keeps]; rfl

theorem vsra (d : Reg) (a : Reg) (b : Reg) (e : BitVec 2) (g : BitVec 3) (z : Bool) : Statement (.vsra d a b e g z) := by
  intro keeps _
  show toOption (decodeCpu (placeVadd 0xd 0xf d a b e g z) 0) = _
  delta decodeCpu decodeClass13 placeVadd readVadd guardRsv
  simp only [bits_skip, bits_head, fld_skip, fld_head, Nat.reduceLeDiff, Nat.reduceSub, Nat.reducePow, Nat.reduceMod, reduceIte, Nat.reduceEqDiff, BEq.rfl, Bool.and_self, flag_skip, flag_head]
  rw [accept_wf _ keeps]; rfl

theorem vpopc (d : Reg) (a : Reg) (e : BitVec 2) (g : BitVec 3) (z : Bool) : Statement (.vpopc d a e g z) := by
  intro keeps _
  show toOption (decodeCpu (placeVpopc 0xd 0x10 d a e g z) 0) = _
  delta decodeCpu decodeClass13 placeVpopc readVpopc guardRsv
  simp only [bits_skip, bits_head, fld_skip, fld_head, Nat.reduceLeDiff, Nat.reduceSub, Nat.reducePow, Nat.reduceMod, reduceIte, Nat.reduceEqDiff, BEq.rfl, Bool.and_self, flag_skip, flag_head]
  rw [accept_wf _ keeps]; rfl

theorem vclz (d : Reg) (a : Reg) (e : BitVec 2) (g : BitVec 3) (z : Bool) : Statement (.vclz d a e g z) := by
  intro keeps _
  show toOption (decodeCpu (placeVpopc 0xd 0x11 d a e g z) 0) = _
  delta decodeCpu decodeClass13 placeVpopc readVpopc guardRsv
  simp only [bits_skip, bits_head, fld_skip, fld_head, Nat.reduceLeDiff, Nat.reduceSub, Nat.reducePow, Nat.reduceMod, reduceIte, Nat.reduceEqDiff, BEq.rfl, Bool.and_self, flag_skip, flag_head]
  rw [accept_wf _ keeps]; rfl

theorem vctz (d : Reg) (a : Reg) (e : BitVec 2) (g : BitVec 3) (z : Bool) : Statement (.vctz d a e g z) := by
  intro keeps _
  show toOption (decodeCpu (placeVpopc 0xd 0x12 d a e g z) 0) = _
  delta decodeCpu decodeClass13 placeVpopc readVpopc guardRsv
  simp only [bits_skip, bits_head, fld_skip, fld_head, Nat.reduceLeDiff, Nat.reduceSub, Nat.reducePow, Nat.reduceMod, reduceIte, Nat.reduceEqDiff, BEq.rfl, Bool.and_self, flag_skip, flag_head]
  rw [accept_wf _ keeps]; rfl

theorem vbrev (d : Reg) (a : Reg) (e : BitVec 2) (g : BitVec 3) (z : Bool) : Statement (.vbrev d a e g z) := by
  intro keeps _
  show toOption (decodeCpu (placeVpopc 0xd 0x13 d a e g z) 0) = _
  delta decodeCpu decodeClass13 placeVpopc readVpopc guardRsv
  simp only [bits_skip, bits_head, fld_skip, fld_head, Nat.reduceLeDiff, Nat.reduceSub, Nat.reducePow, Nat.reduceMod, reduceIte, Nat.reduceEqDiff, BEq.rfl, Bool.and_self, flag_skip, flag_head]
  rw [accept_wf _ keeps]; rfl

theorem vfnth (d : Reg) (a : Reg) (e : BitVec 2) (g : BitVec 3) (z : Bool) : Statement (.vfnth d a e g z) := by
  intro keeps _
  show toOption (decodeCpu (placeVpopc 0xd 0x14 d a e g z) 0) = _
  delta decodeCpu decodeClass13 placeVpopc readVpopc guardRsv
  simp only [bits_skip, bits_head, fld_skip, fld_head, Nat.reduceLeDiff, Nat.reduceSub, Nat.reducePow, Nat.reduceMod, reduceIte, Nat.reduceEqDiff, BEq.rfl, Bool.and_self, flag_skip, flag_head]
  rw [accept_wf _ keeps]; rfl

theorem vabs (d : Reg) (a : Reg) (e : BitVec 2) (g : BitVec 3) (z : Bool) : Statement (.vabs d a e g z) := by
  intro keeps _
  show toOption (decodeCpu (placeVpopc 0xd 0x15 d a e g z) 0) = _
  delta decodeCpu decodeClass13 placeVpopc readVpopc guardRsv
  simp only [bits_skip, bits_head, fld_skip, fld_head, Nat.reduceLeDiff, Nat.reduceSub, Nat.reducePow, Nat.reduceMod, reduceIte, Nat.reduceEqDiff, BEq.rfl, Bool.and_self, flag_skip, flag_head]
  rw [accept_wf _ keeps]; rfl

theorem vaddsI (d : Reg) (a : Reg) (b : Reg) (e : BitVec 2) (g : BitVec 3) (z : Bool) : Statement (.vaddsI d a b e g z) := by
  intro keeps _
  show toOption (decodeCpu (placeVadd 0xd 0x16 d a b e g z) 0) = _
  delta decodeCpu decodeClass13 placeVadd readVadd guardRsv
  simp only [bits_skip, bits_head, fld_skip, fld_head, Nat.reduceLeDiff, Nat.reduceSub, Nat.reducePow, Nat.reduceMod, reduceIte, Nat.reduceEqDiff, BEq.rfl, Bool.and_self, flag_skip, flag_head]
  rw [accept_wf _ keeps]; rfl

theorem vaddsN (d : Reg) (a : Reg) (b : Reg) (e : BitVec 2) (g : BitVec 3) (z : Bool) : Statement (.vaddsN d a b e g z) := by
  intro keeps _
  show toOption (decodeCpu (placeVadd 0xd 0x17 d a b e g z) 0) = _
  delta decodeCpu decodeClass13 placeVadd readVadd guardRsv
  simp only [bits_skip, bits_head, fld_skip, fld_head, Nat.reduceLeDiff, Nat.reduceSub, Nat.reducePow, Nat.reduceMod, reduceIte, Nat.reduceEqDiff, BEq.rfl, Bool.and_self, flag_skip, flag_head]
  rw [accept_wf _ keeps]; rfl

theorem vsubsI (d : Reg) (a : Reg) (b : Reg) (e : BitVec 2) (g : BitVec 3) (z : Bool) : Statement (.vsubsI d a b e g z) := by
  intro keeps _
  show toOption (decodeCpu (placeVadd 0xd 0x18 d a b e g z) 0) = _
  delta decodeCpu decodeClass13 placeVadd readVadd guardRsv
  simp only [bits_skip, bits_head, fld_skip, fld_head, Nat.reduceLeDiff, Nat.reduceSub, Nat.reducePow, Nat.reduceMod, reduceIte, Nat.reduceEqDiff, BEq.rfl, Bool.and_self, flag_skip, flag_head]
  rw [accept_wf _ keeps]; rfl

theorem vsubsN (d : Reg) (a : Reg) (b : Reg) (e : BitVec 2) (g : BitVec 3) (z : Bool) : Statement (.vsubsN d a b e g z) := by
  intro keeps _
  show toOption (decodeCpu (placeVadd 0xd 0x19 d a b e g z) 0) = _
  delta decodeCpu decodeClass13 placeVadd readVadd guardRsv
  simp only [bits_skip, bits_head, fld_skip, fld_head, Nat.reduceLeDiff, Nat.reduceSub, Nat.reducePow, Nat.reduceMod, reduceIte, Nat.reduceEqDiff, BEq.rfl, Bool.and_self, flag_skip, flag_head]
  rw [accept_wf _ keeps]; rfl

theorem vsel (d : Reg) (a : Reg) (b : Reg) (e : BitVec 2) (g : BitVec 3) : Statement (.vsel d a b e g) := by
  intro keeps _
  show toOption (decodeCpu (placeVsel 0xd 0x1a d a b e g) 0) = _
  delta decodeCpu decodeClass13 placeVsel guardRsv
  simp only [bits_skip, bits_head, fld_skip, fld_head, Nat.reduceLeDiff, Nat.reduceSub, Nat.reducePow, Nat.reduceMod, reduceIte, Nat.reduceEqDiff, BEq.rfl, Bool.and_self]
  rw [accept_wf _ keeps]; rfl

theorem vcmpEq (d : BitVec 3) (a : Reg) (b : Reg) (e : BitVec 2) (g : BitVec 3) (z : Bool) : Statement (.vcmpEq d a b e g z) := by
  intro keeps _
  show toOption (decodeCpu (placeVcmpEq 0xd 0x20 d a b e g z) 0) = _
  delta decodeCpu decodeClass13 placeVcmpEq readVcmpEq guardRsv
  simp only [bits_skip, bits_head, fld_skip, fld_head, Nat.reduceLeDiff, Nat.reduceSub, Nat.reducePow, Nat.reduceMod, reduceIte, Nat.reduceEqDiff, BEq.rfl, Bool.and_self, flag_skip, flag_head]
  rw [accept_wf _ keeps]; rfl

theorem vcmpNe (d : BitVec 3) (a : Reg) (b : Reg) (e : BitVec 2) (g : BitVec 3) (z : Bool) : Statement (.vcmpNe d a b e g z) := by
  intro keeps _
  show toOption (decodeCpu (placeVcmpEq 0xd 0x21 d a b e g z) 0) = _
  delta decodeCpu decodeClass13 placeVcmpEq readVcmpEq guardRsv
  simp only [bits_skip, bits_head, fld_skip, fld_head, Nat.reduceLeDiff, Nat.reduceSub, Nat.reducePow, Nat.reduceMod, reduceIte, Nat.reduceEqDiff, BEq.rfl, Bool.and_self, flag_skip, flag_head]
  rw [accept_wf _ keeps]; rfl

theorem vcmpLt (d : BitVec 3) (a : Reg) (b : Reg) (e : BitVec 2) (g : BitVec 3) (z : Bool) : Statement (.vcmpLt d a b e g z) := by
  intro keeps _
  show toOption (decodeCpu (placeVcmpEq 0xd 0x22 d a b e g z) 0) = _
  delta decodeCpu decodeClass13 placeVcmpEq readVcmpEq guardRsv
  simp only [bits_skip, bits_head, fld_skip, fld_head, Nat.reduceLeDiff, Nat.reduceSub, Nat.reducePow, Nat.reduceMod, reduceIte, Nat.reduceEqDiff, BEq.rfl, Bool.and_self, flag_skip, flag_head]
  rw [accept_wf _ keeps]; rfl

theorem vcmpGe (d : BitVec 3) (a : Reg) (b : Reg) (e : BitVec 2) (g : BitVec 3) (z : Bool) : Statement (.vcmpGe d a b e g z) := by
  intro keeps _
  show toOption (decodeCpu (placeVcmpEq 0xd 0x23 d a b e g z) 0) = _
  delta decodeCpu decodeClass13 placeVcmpEq readVcmpEq guardRsv
  simp only [bits_skip, bits_head, fld_skip, fld_head, Nat.reduceLeDiff, Nat.reduceSub, Nat.reducePow, Nat.reduceMod, reduceIte, Nat.reduceEqDiff, BEq.rfl, Bool.and_self, flag_skip, flag_head]
  rw [accept_wf _ keeps]; rfl

theorem vcmpLtn (d : BitVec 3) (a : Reg) (b : Reg) (e : BitVec 2) (g : BitVec 3) (z : Bool) : Statement (.vcmpLtn d a b e g z) := by
  intro keeps _
  show toOption (decodeCpu (placeVcmpEq 0xd 0x24 d a b e g z) 0) = _
  delta decodeCpu decodeClass13 placeVcmpEq readVcmpEq guardRsv
  simp only [bits_skip, bits_head, fld_skip, fld_head, Nat.reduceLeDiff, Nat.reduceSub, Nat.reducePow, Nat.reduceMod, reduceIte, Nat.reduceEqDiff, BEq.rfl, Bool.and_self, flag_skip, flag_head]
  rw [accept_wf _ keeps]; rfl

theorem vcmpGen (d : BitVec 3) (a : Reg) (b : Reg) (e : BitVec 2) (g : BitVec 3) (z : Bool) : Statement (.vcmpGen d a b e g z) := by
  intro keeps _
  show toOption (decodeCpu (placeVcmpEq 0xd 0x25 d a b e g z) 0) = _
  delta decodeCpu decodeClass13 placeVcmpEq readVcmpEq guardRsv
  simp only [bits_skip, bits_head, fld_skip, fld_head, Nat.reduceLeDiff, Nat.reduceSub, Nat.reducePow, Nat.reduceMod, reduceIte, Nat.reduceEqDiff, BEq.rfl, Bool.and_self, flag_skip, flag_head]
  rw [accept_wf _ keeps]; rfl

theorem fadd (d : Reg) (a : Reg) (b : Reg) (e : BitVec 2) (g : BitVec 3) (z : Bool) : Statement (.fadd d a b e g z) := by
  intro keeps _
  show toOption (decodeCpu (placeVadd 0xe 0 d a b e g z) 0) = _
  delta decodeCpu decodeClass14 placeVadd readVadd guardRsv
  simp only [bits_skip, bits_head, fld_skip, fld_head, Nat.reduceLeDiff, Nat.reduceSub, Nat.reducePow, Nat.reduceMod, reduceIte, Nat.reduceEqDiff, BEq.rfl, Bool.and_self, flag_skip, flag_head]
  rw [accept_wf _ keeps]; rfl

theorem fsub (d : Reg) (a : Reg) (b : Reg) (e : BitVec 2) (g : BitVec 3) (z : Bool) : Statement (.fsub d a b e g z) := by
  intro keeps _
  show toOption (decodeCpu (placeVadd 0xe 1 d a b e g z) 0) = _
  delta decodeCpu decodeClass14 placeVadd readVadd guardRsv
  simp only [bits_skip, bits_head, fld_skip, fld_head, Nat.reduceLeDiff, Nat.reduceSub, Nat.reducePow, Nat.reduceMod, reduceIte, Nat.reduceEqDiff, BEq.rfl, Bool.and_self, flag_skip, flag_head]
  rw [accept_wf _ keeps]; rfl

theorem fmul (d : Reg) (a : Reg) (b : Reg) (e : BitVec 2) (g : BitVec 3) (z : Bool) : Statement (.fmul d a b e g z) := by
  intro keeps _
  show toOption (decodeCpu (placeVadd 0xe 2 d a b e g z) 0) = _
  delta decodeCpu decodeClass14 placeVadd readVadd guardRsv
  simp only [bits_skip, bits_head, fld_skip, fld_head, Nat.reduceLeDiff, Nat.reduceSub, Nat.reducePow, Nat.reduceMod, reduceIte, Nat.reduceEqDiff, BEq.rfl, Bool.and_self, flag_skip, flag_head]
  rw [accept_wf _ keeps]; rfl

theorem ffma (d : Reg) (a : Reg) (b : Reg) (e : BitVec 2) (g : BitVec 3) (z : Bool) : Statement (.ffma d a b e g z) := by
  intro keeps _
  show toOption (decodeCpu (placeVadd 0xe 3 d a b e g z) 0) = _
  delta decodeCpu decodeClass14 placeVadd readVadd guardRsv
  simp only [bits_skip, bits_head, fld_skip, fld_head, Nat.reduceLeDiff, Nat.reduceSub, Nat.reducePow, Nat.reduceMod, reduceIte, Nat.reduceEqDiff, BEq.rfl, Bool.and_self, flag_skip, flag_head]
  rw [accept_wf _ keeps]; rfl

theorem ffms (d : Reg) (a : Reg) (b : Reg) (e : BitVec 2) (g : BitVec 3) (z : Bool) : Statement (.ffms d a b e g z) := by
  intro keeps _
  show toOption (decodeCpu (placeVadd 0xe 4 d a b e g z) 0) = _
  delta decodeCpu decodeClass14 placeVadd readVadd guardRsv
  simp only [bits_skip, bits_head, fld_skip, fld_head, Nat.reduceLeDiff, Nat.reduceSub, Nat.reducePow, Nat.reduceMod, reduceIte, Nat.reduceEqDiff, BEq.rfl, Bool.and_self, flag_skip, flag_head]
  rw [accept_wf _ keeps]; rfl

theorem fnma (d : Reg) (a : Reg) (b : Reg) (e : BitVec 2) (g : BitVec 3) (z : Bool) : Statement (.fnma d a b e g z) := by
  intro keeps _
  show toOption (decodeCpu (placeVadd 0xe 5 d a b e g z) 0) = _
  delta decodeCpu decodeClass14 placeVadd readVadd guardRsv
  simp only [bits_skip, bits_head, fld_skip, fld_head, Nat.reduceLeDiff, Nat.reduceSub, Nat.reducePow, Nat.reduceMod, reduceIte, Nat.reduceEqDiff, BEq.rfl, Bool.and_self, flag_skip, flag_head]
  rw [accept_wf _ keeps]; rfl

theorem fdiv (d : Reg) (a : Reg) (b : Reg) (e : BitVec 2) (g : BitVec 3) (z : Bool) : Statement (.fdiv d a b e g z) := by
  intro keeps _
  show toOption (decodeCpu (placeVadd 0xe 6 d a b e g z) 0) = _
  delta decodeCpu decodeClass14 placeVadd readVadd guardRsv
  simp only [bits_skip, bits_head, fld_skip, fld_head, Nat.reduceLeDiff, Nat.reduceSub, Nat.reducePow, Nat.reduceMod, reduceIte, Nat.reduceEqDiff, BEq.rfl, Bool.and_self, flag_skip, flag_head]
  rw [accept_wf _ keeps]; rfl

theorem fsqrt (d : Reg) (a : Reg) (e : BitVec 2) (g : BitVec 3) (z : Bool) : Statement (.fsqrt d a e g z) := by
  intro keeps _
  show toOption (decodeCpu (placeVpopc 0xe 7 d a e g z) 0) = _
  delta decodeCpu decodeClass14 placeVpopc readVpopc guardRsv
  simp only [bits_skip, bits_head, fld_skip, fld_head, Nat.reduceLeDiff, Nat.reduceSub, Nat.reducePow, Nat.reduceMod, reduceIte, Nat.reduceEqDiff, BEq.rfl, Bool.and_self, flag_skip, flag_head]
  rw [accept_wf _ keeps]; rfl

theorem fmin (d : Reg) (a : Reg) (b : Reg) (e : BitVec 2) (g : BitVec 3) (z : Bool) : Statement (.fmin d a b e g z) := by
  intro keeps _
  show toOption (decodeCpu (placeVadd 0xe 8 d a b e g z) 0) = _
  delta decodeCpu decodeClass14 placeVadd readVadd guardRsv
  simp only [bits_skip, bits_head, fld_skip, fld_head, Nat.reduceLeDiff, Nat.reduceSub, Nat.reducePow, Nat.reduceMod, reduceIte, Nat.reduceEqDiff, BEq.rfl, Bool.and_self, flag_skip, flag_head]
  rw [accept_wf _ keeps]; rfl

theorem fmax (d : Reg) (a : Reg) (b : Reg) (e : BitVec 2) (g : BitVec 3) (z : Bool) : Statement (.fmax d a b e g z) := by
  intro keeps _
  show toOption (decodeCpu (placeVadd 0xe 9 d a b e g z) 0) = _
  delta decodeCpu decodeClass14 placeVadd readVadd guardRsv
  simp only [bits_skip, bits_head, fld_skip, fld_head, Nat.reduceLeDiff, Nat.reduceSub, Nat.reducePow, Nat.reduceMod, reduceIte, Nat.reduceEqDiff, BEq.rfl, Bool.and_self, flag_skip, flag_head]
  rw [accept_wf _ keeps]; rfl

theorem fabs (d : Reg) (a : Reg) (e : BitVec 2) (g : BitVec 3) (z : Bool) : Statement (.fabs d a e g z) := by
  intro keeps _
  show toOption (decodeCpu (placeVpopc 0xe 0xa d a e g z) 0) = _
  delta decodeCpu decodeClass14 placeVpopc readVpopc guardRsv
  simp only [bits_skip, bits_head, fld_skip, fld_head, Nat.reduceLeDiff, Nat.reduceSub, Nat.reducePow, Nat.reduceMod, reduceIte, Nat.reduceEqDiff, BEq.rfl, Bool.and_self, flag_skip, flag_head]
  rw [accept_wf _ keeps]; rfl

theorem fneg (d : Reg) (a : Reg) (e : BitVec 2) (g : BitVec 3) (z : Bool) : Statement (.fneg d a e g z) := by
  intro keeps _
  show toOption (decodeCpu (placeVpopc 0xe 0xb d a e g z) 0) = _
  delta decodeCpu decodeClass14 placeVpopc readVpopc guardRsv
  simp only [bits_skip, bits_head, fld_skip, fld_head, Nat.reduceLeDiff, Nat.reduceSub, Nat.reducePow, Nat.reduceMod, reduceIte, Nat.reduceEqDiff, BEq.rfl, Bool.and_self, flag_skip, flag_head]
  rw [accept_wf _ keeps]; rfl

theorem frcp (d : Reg) (a : Reg) (e : BitVec 2) (g : BitVec 3) (z : Bool) : Statement (.frcp d a e g z) := by
  intro keeps _
  show toOption (decodeCpu (placeVpopc 0xe 0xc d a e g z) 0) = _
  delta decodeCpu decodeClass14 placeVpopc readVpopc guardRsv
  simp only [bits_skip, bits_head, fld_skip, fld_head, Nat.reduceLeDiff, Nat.reduceSub, Nat.reducePow, Nat.reduceMod, reduceIte, Nat.reduceEqDiff, BEq.rfl, Bool.and_self, flag_skip, flag_head]
  rw [accept_wf _ keeps]; rfl

theorem frsqrt (d : Reg) (a : Reg) (e : BitVec 2) (g : BitVec 3) (z : Bool) : Statement (.frsqrt d a e g z) := by
  intro keeps _
  show toOption (decodeCpu (placeVpopc 0xe 0xd d a e g z) 0) = _
  delta decodeCpu decodeClass14 placeVpopc readVpopc guardRsv
  simp only [bits_skip, bits_head, fld_skip, fld_head, Nat.reduceLeDiff, Nat.reduceSub, Nat.reducePow, Nat.reduceMod, reduceIte, Nat.reduceEqDiff, BEq.rfl, Bool.and_self, flag_skip, flag_head]
  rw [accept_wf _ keeps]; rfl

theorem fexp2 (d : Reg) (a : Reg) (e : BitVec 2) (g : BitVec 3) (z : Bool) : Statement (.fexp2 d a e g z) := by
  intro keeps _
  show toOption (decodeCpu (placeVpopc 0xe 0xe d a e g z) 0) = _
  delta decodeCpu decodeClass14 placeVpopc readVpopc guardRsv
  simp only [bits_skip, bits_head, fld_skip, fld_head, Nat.reduceLeDiff, Nat.reduceSub, Nat.reducePow, Nat.reduceMod, reduceIte, Nat.reduceEqDiff, BEq.rfl, Bool.and_self, flag_skip, flag_head]
  rw [accept_wf _ keeps]; rfl

theorem flog2 (d : Reg) (a : Reg) (e : BitVec 2) (g : BitVec 3) (z : Bool) : Statement (.flog2 d a e g z) := by
  intro keeps _
  show toOption (decodeCpu (placeVpopc 0xe 0xf d a e g z) 0) = _
  delta decodeCpu decodeClass14 placeVpopc readVpopc guardRsv
  simp only [bits_skip, bits_head, fld_skip, fld_head, Nat.reduceLeDiff, Nat.reduceSub, Nat.reducePow, Nat.reduceMod, reduceIte, Nat.reduceEqDiff, BEq.rfl, Bool.and_self, flag_skip, flag_head]
  rw [accept_wf _ keeps]; rfl

theorem fround (d : Reg) (a : Reg) (m : Reg) (e : BitVec 2) (g : BitVec 3) (z : Bool) : Statement (.fround d a m e g z) := by
  intro keeps _
  show toOption (decodeCpu (placeFround 0xe 0x10 d a m e g z) 0) = _
  delta decodeCpu decodeClass14 placeFround guardRsv
  simp only [bits_skip, bits_head, fld_skip, fld_head, Nat.reduceLeDiff, Nat.reduceSub, Nat.reducePow, Nat.reduceMod, reduceIte, Nat.reduceEqDiff, BEq.rfl, Bool.and_self, flag_skip, flag_head]
  rw [accept_wf _ keeps]; rfl

theorem fscale (d : Reg) (a : Reg) (b : Reg) (e : BitVec 2) (g : BitVec 3) (z : Bool) : Statement (.fscale d a b e g z) := by
  intro keeps _
  show toOption (decodeCpu (placeVadd 0xe 0x11 d a b e g z) 0) = _
  delta decodeCpu decodeClass14 placeVadd readVadd guardRsv
  simp only [bits_skip, bits_head, fld_skip, fld_head, Nat.reduceLeDiff, Nat.reduceSub, Nat.reducePow, Nat.reduceMod, reduceIte, Nat.reduceEqDiff, BEq.rfl, Bool.and_self, flag_skip, flag_head]
  rw [accept_wf _ keeps]; rfl

theorem fcmpEq (d : BitVec 3) (a : Reg) (b : Reg) (e : BitVec 2) (g : BitVec 3) (z : Bool) : Statement (.fcmpEq d a b e g z) := by
  intro keeps _
  show toOption (decodeCpu (placeVcmpEq 0xe 0x20 d a b e g z) 0) = _
  delta decodeCpu decodeClass14 placeVcmpEq readVcmpEq guardRsv
  simp only [bits_skip, bits_head, fld_skip, fld_head, Nat.reduceLeDiff, Nat.reduceSub, Nat.reducePow, Nat.reduceMod, reduceIte, Nat.reduceEqDiff, BEq.rfl, Bool.and_self, flag_skip, flag_head]
  rw [accept_wf _ keeps]; rfl

theorem fcmpNe (d : BitVec 3) (a : Reg) (b : Reg) (e : BitVec 2) (g : BitVec 3) (z : Bool) : Statement (.fcmpNe d a b e g z) := by
  intro keeps _
  show toOption (decodeCpu (placeVcmpEq 0xe 0x21 d a b e g z) 0) = _
  delta decodeCpu decodeClass14 placeVcmpEq readVcmpEq guardRsv
  simp only [bits_skip, bits_head, fld_skip, fld_head, Nat.reduceLeDiff, Nat.reduceSub, Nat.reducePow, Nat.reduceMod, reduceIte, Nat.reduceEqDiff, BEq.rfl, Bool.and_self, flag_skip, flag_head]
  rw [accept_wf _ keeps]; rfl

theorem fcmpLt (d : BitVec 3) (a : Reg) (b : Reg) (e : BitVec 2) (g : BitVec 3) (z : Bool) : Statement (.fcmpLt d a b e g z) := by
  intro keeps _
  show toOption (decodeCpu (placeVcmpEq 0xe 0x22 d a b e g z) 0) = _
  delta decodeCpu decodeClass14 placeVcmpEq readVcmpEq guardRsv
  simp only [bits_skip, bits_head, fld_skip, fld_head, Nat.reduceLeDiff, Nat.reduceSub, Nat.reducePow, Nat.reduceMod, reduceIte, Nat.reduceEqDiff, BEq.rfl, Bool.and_self, flag_skip, flag_head]
  rw [accept_wf _ keeps]; rfl

theorem fcmpLe (d : BitVec 3) (a : Reg) (b : Reg) (e : BitVec 2) (g : BitVec 3) (z : Bool) : Statement (.fcmpLe d a b e g z) := by
  intro keeps _
  show toOption (decodeCpu (placeVcmpEq 0xe 0x23 d a b e g z) 0) = _
  delta decodeCpu decodeClass14 placeVcmpEq readVcmpEq guardRsv
  simp only [bits_skip, bits_head, fld_skip, fld_head, Nat.reduceLeDiff, Nat.reduceSub, Nat.reducePow, Nat.reduceMod, reduceIte, Nat.reduceEqDiff, BEq.rfl, Bool.and_self, flag_skip, flag_head]
  rw [accept_wf _ keeps]; rfl

theorem fcmpUn (d : BitVec 3) (a : Reg) (b : Reg) (e : BitVec 2) (g : BitVec 3) (z : Bool) : Statement (.fcmpUn d a b e g z) := by
  intro keeps _
  show toOption (decodeCpu (placeVcmpEq 0xe 0x24 d a b e g z) 0) = _
  delta decodeCpu decodeClass14 placeVcmpEq readVcmpEq guardRsv
  simp only [bits_skip, bits_head, fld_skip, fld_head, Nat.reduceLeDiff, Nat.reduceSub, Nat.reducePow, Nat.reduceMod, reduceIte, Nat.reduceEqDiff, BEq.rfl, Bool.and_self, flag_skip, flag_head]
  rw [accept_wf _ keeps]; rfl

theorem vcvt (d : Reg) (a : Reg) (r : Bool) (dt : BitVec 4) (ty : BitVec 4) (g : BitVec 3) (z : Bool) : Statement (.vcvt d a r dt ty g z) := by
  intro keeps _
  show toOption (decodeCpu (placeVcvt 0xf 0 d a r dt ty g z) 0) = _
  delta decodeCpu decodeClass15 placeVcvt guardRsv
  simp only [bits_skip, bits_head, fld_skip, fld_head, Nat.reduceLeDiff, Nat.reduceSub, Nat.reducePow, Nat.reduceMod, reduceIte, Nat.reduceEqDiff, BEq.rfl, Bool.and_self, flag_skip, flag_head]
  rw [accept_wf _ keeps]; rfl

theorem vred (d : Reg) (a : Reg) (k : Reg) (ty : BitVec 4) (g : BitVec 3) : Statement (.vred d a k ty g) := by
  intro keeps _
  show toOption (decodeCpu (placeVred 0xf 1 d a k ty g) 0) = _
  delta decodeCpu decodeClass15 placeVred guardRsv
  simp only [bits_skip, bits_head, fld_skip, fld_head, Nat.reduceLeDiff, Nat.reduceSub, Nat.reducePow, Nat.reduceMod, reduceIte, Nat.reduceEqDiff, BEq.rfl, Bool.and_self]
  rw [accept_wf _ keeps]; rfl

theorem vperm (d : Reg) (a : Reg) (b : Reg) (ty : BitVec 4) (g : BitVec 3) (z : Bool) : Statement (.vperm d a b ty g z) := by
  intro keeps _
  show toOption (decodeCpu (placeVperm 0xf 2 d a b ty g z) 0) = _
  delta decodeCpu decodeClass15 placeVperm readVperm guardRsv
  simp only [bits_skip, bits_head, fld_skip, fld_head, Nat.reduceLeDiff, Nat.reduceSub, Nat.reducePow, Nat.reduceMod, reduceIte, Nat.reduceEqDiff, BEq.rfl, Bool.and_self, flag_skip, flag_head]
  rw [accept_wf _ keeps]; rfl

theorem vslide (d : Reg) (a : Reg) (b : Reg) (ty : BitVec 4) (g : BitVec 3) (z : Bool) : Statement (.vslide d a b ty g z) := by
  intro keeps _
  show toOption (decodeCpu (placeVperm 0xf 3 d a b ty g z) 0) = _
  delta decodeCpu decodeClass15 placeVperm readVperm guardRsv
  simp only [bits_skip, bits_head, fld_skip, fld_head, Nat.reduceLeDiff, Nat.reduceSub, Nat.reducePow, Nat.reduceMod, reduceIte, Nat.reduceEqDiff, BEq.rfl, Bool.and_self, flag_skip, flag_head]
  rw [accept_wf _ keeps]; rfl

theorem vcompress (d : Reg) (a : Reg) (ty : BitVec 4) (g : BitVec 3) : Statement (.vcompress d a ty g) := by
  intro keeps _
  show toOption (decodeCpu (placeVcompress 0xf 4 d a ty g) 0) = _
  delta decodeCpu decodeClass15 placeVcompress guardRsv
  simp only [bits_skip, bits_head, fld_skip, fld_head, Nat.reduceLeDiff, Nat.reduceSub, Nat.reducePow, Nat.reduceMod, reduceIte, Nat.reduceEqDiff, BEq.rfl, Bool.and_self]
  rw [accept_wf _ keeps]; rfl

theorem vexpand (d : Reg) (a : Reg) (ty : BitVec 4) (g : BitVec 3) (z : Bool) : Statement (.vexpand d a ty g z) := by
  intro keeps _
  show toOption (decodeCpu (placeVexpand 0xf 5 d a ty g z) 0) = _
  delta decodeCpu decodeClass15 placeVexpand readVexpand guardRsv
  simp only [bits_skip, bits_head, fld_skip, fld_head, Nat.reduceLeDiff, Nat.reduceSub, Nat.reducePow, Nat.reduceMod, reduceIte, Nat.reduceEqDiff, BEq.rfl, Bool.and_self, flag_skip, flag_head]
  rw [accept_wf _ keeps]; rfl

theorem vbcast (d : Reg) (a : Reg) (ty : BitVec 4) (g : BitVec 3) (z : Bool) : Statement (.vbcast d a ty g z) := by
  intro keeps _
  show toOption (decodeCpu (placeVexpand 0xf 6 d a ty g z) 0) = _
  delta decodeCpu decodeClass15 placeVexpand readVexpand guardRsv
  simp only [bits_skip, bits_head, fld_skip, fld_head, Nat.reduceLeDiff, Nat.reduceSub, Nat.reducePow, Nat.reduceMod, reduceIte, Nat.reduceEqDiff, BEq.rfl, Bool.and_self, flag_skip, flag_head]
  rw [accept_wf _ keeps]; rfl

theorem vins (d : Reg) (a : Reg) (b : Reg) (ty : BitVec 4) : Statement (.vins d a b ty) := by
  intro keeps _
  show toOption (decodeCpu (placeVins 0xf 7 d a b ty) 0) = _
  delta decodeCpu decodeClass15 placeVins readVins guardRsv
  simp only [bits_skip, bits_head, fld_skip, fld_head, Nat.reduceLeDiff, Nat.reduceSub, Nat.reducePow, Nat.reduceMod, reduceIte, Nat.reduceEqDiff, BEq.rfl, Bool.and_self]
  rw [accept_wf _ keeps]; rfl

theorem vext (d : Reg) (a : Reg) (b : Reg) (ty : BitVec 4) : Statement (.vext d a b ty) := by
  intro keeps _
  show toOption (decodeCpu (placeVins 0xf 8 d a b ty) 0) = _
  delta decodeCpu decodeClass15 placeVins readVins guardRsv
  simp only [bits_skip, bits_head, fld_skip, fld_head, Nat.reduceLeDiff, Nat.reduceSub, Nat.reducePow, Nat.reduceMod, reduceIte, Nat.reduceEqDiff, BEq.rfl, Bool.and_self]
  rw [accept_wf _ keeps]; rfl

theorem vld (d : Reg) (b : Reg) (pol : Pol) (e : BitVec 2) (g : BitVec 3) (off : BitVec 8) : Statement (.vld d b pol e g off) := by
  intro keeps _
  show toOption (decodeCpu (placeVld 0x10 0 d b pol e g off) 0) = _
  delta decodeCpu decodeClass16 placeVld readVld guardRsv
  simp only [bits_skip, bits_head, fld_skip, fld_head, Nat.reduceLeDiff, Nat.reduceSub, Nat.reducePow, Nat.reduceMod, reduceIte, Nat.reduceEqDiff, BEq.rfl, Bool.and_self, pol_ofCode_code, pol_code_mod]
  rw [accept_wf _ keeps]; rfl

theorem vst (d : Reg) (b : Reg) (pol : Pol) (e : BitVec 2) (g : BitVec 3) (off : BitVec 8) : Statement (.vst d b pol e g off) := by
  intro keeps _
  show toOption (decodeCpu (placeVld 0x10 1 d b pol e g off) 0) = _
  delta decodeCpu decodeClass16 placeVld readVld guardRsv
  simp only [bits_skip, bits_head, fld_skip, fld_head, Nat.reduceLeDiff, Nat.reduceSub, Nat.reducePow, Nat.reduceMod, reduceIte, Nat.reduceEqDiff, BEq.rfl, Bool.and_self, pol_ofCode_code, pol_code_mod]
  rw [accept_wf _ keeps]; rfl

theorem vgather (d : Reg) (b : Reg) (pol : Pol) (e : BitVec 2) (g : BitVec 3) (idx : Reg) : Statement (.vgather d b pol e g idx) := by
  intro keeps _
  show toOption (decodeCpu (placeVgather 0x10 2 d b pol e g idx) 0) = _
  delta decodeCpu decodeClass16 placeVgather readVgather guardRsv
  simp only [bits_skip, bits_head, fld_skip, fld_head, Nat.reduceLeDiff, Nat.reduceSub, Nat.reducePow, Nat.reduceMod, reduceIte, Nat.reduceEqDiff, BEq.rfl, Bool.and_self, pol_ofCode_code, pol_code_mod]
  rw [accept_wf _ keeps]; rfl

theorem vscatter (d : Reg) (b : Reg) (pol : Pol) (e : BitVec 2) (g : BitVec 3) (idx : Reg) : Statement (.vscatter d b pol e g idx) := by
  intro keeps _
  show toOption (decodeCpu (placeVgather 0x10 3 d b pol e g idx) 0) = _
  delta decodeCpu decodeClass16 placeVgather readVgather guardRsv
  simp only [bits_skip, bits_head, fld_skip, fld_head, Nat.reduceLeDiff, Nat.reduceSub, Nat.reducePow, Nat.reduceMod, reduceIte, Nat.reduceEqDiff, BEq.rfl, Bool.and_self, pol_ofCode_code, pol_code_mod]
  rw [accept_wf _ keeps]; rfl

theorem pand (d : BitVec 3) (a : BitVec 3) (b : BitVec 3) : Statement (.pand d a b) := by
  intro keeps _
  show toOption (decodeCpu (placePand 0x11 0 d a b) 0) = _
  delta decodeCpu decodeClass17 placePand readPand guardRsv
  simp only [bits_skip, bits_head, fld_skip, fld_head, Nat.reduceLeDiff, Nat.reduceSub, Nat.reducePow, Nat.reduceMod, reduceIte, Nat.reduceEqDiff, BEq.rfl, Bool.and_self]
  rw [accept_wf _ keeps]; rfl

theorem por (d : BitVec 3) (a : BitVec 3) (b : BitVec 3) : Statement (.por d a b) := by
  intro keeps _
  show toOption (decodeCpu (placePand 0x11 1 d a b) 0) = _
  delta decodeCpu decodeClass17 placePand readPand guardRsv
  simp only [bits_skip, bits_head, fld_skip, fld_head, Nat.reduceLeDiff, Nat.reduceSub, Nat.reducePow, Nat.reduceMod, reduceIte, Nat.reduceEqDiff, BEq.rfl, Bool.and_self]
  rw [accept_wf _ keeps]; rfl

theorem pxor (d : BitVec 3) (a : BitVec 3) (b : BitVec 3) : Statement (.pxor d a b) := by
  intro keeps _
  show toOption (decodeCpu (placePand 0x11 2 d a b) 0) = _
  delta decodeCpu decodeClass17 placePand readPand guardRsv
  simp only [bits_skip, bits_head, fld_skip, fld_head, Nat.reduceLeDiff, Nat.reduceSub, Nat.reducePow, Nat.reduceMod, reduceIte, Nat.reduceEqDiff, BEq.rfl, Bool.and_self]
  rw [accept_wf _ keeps]; rfl

theorem pandn (d : BitVec 3) (a : BitVec 3) (b : BitVec 3) : Statement (.pandn d a b) := by
  intro keeps _
  show toOption (decodeCpu (placePand 0x11 3 d a b) 0) = _
  delta decodeCpu decodeClass17 placePand readPand guardRsv
  simp only [bits_skip, bits_head, fld_skip, fld_head, Nat.reduceLeDiff, Nat.reduceSub, Nat.reducePow, Nat.reduceMod, reduceIte, Nat.reduceEqDiff, BEq.rfl, Bool.and_self]
  rw [accept_wf _ keeps]; rfl

theorem pset (d : BitVec 3) (a : Reg) : Statement (.pset d a) := by
  intro keeps _
  show toOption (decodeCpu (placePset 0x11 4 d a) 0) = _
  delta decodeCpu decodeClass17 placePset guardRsv
  simp only [bits_skip, bits_head, fld_skip, fld_head, Nat.reduceLeDiff, Nat.reduceSub, Nat.reducePow, Nat.reduceMod, reduceIte, Nat.reduceEqDiff, BEq.rfl, Bool.and_self]
  rw [accept_wf _ keeps]; rfl

theorem pget (d : Reg) (a : BitVec 3) : Statement (.pget d a) := by
  intro keeps _
  show toOption (decodeCpu (placePget 0x11 5 d a) 0) = _
  delta decodeCpu decodeClass17 placePget guardRsv
  simp only [bits_skip, bits_head, fld_skip, fld_head, Nat.reduceLeDiff, Nat.reduceSub, Nat.reducePow, Nat.reduceMod, reduceIte, Nat.reduceEqDiff, BEq.rfl, Bool.and_self]
  rw [accept_wf _ keeps]; rfl

theorem pcnt (d : Reg) (a : BitVec 3) (e : BitVec 2) : Statement (.pcnt d a e) := by
  intro keeps _
  show toOption (decodeCpu (placePcnt 0x11 6 d a e) 0) = _
  delta decodeCpu decodeClass17 placePcnt readPcnt guardRsv
  simp only [bits_skip, bits_head, fld_skip, fld_head, Nat.reduceLeDiff, Nat.reduceSub, Nat.reducePow, Nat.reduceMod, reduceIte, Nat.reduceEqDiff, BEq.rfl, Bool.and_self]
  rw [accept_wf _ keeps]; rfl

theorem pfirst (d : Reg) (a : BitVec 3) (e : BitVec 2) : Statement (.pfirst d a e) := by
  intro keeps _
  show toOption (decodeCpu (placePcnt 0x11 7 d a e) 0) = _
  delta decodeCpu decodeClass17 placePcnt readPcnt guardRsv
  simp only [bits_skip, bits_head, fld_skip, fld_head, Nat.reduceLeDiff, Nat.reduceSub, Nat.reducePow, Nat.reduceMod, reduceIte, Nat.reduceEqDiff, BEq.rfl, Bool.and_self]
  rw [accept_wf _ keeps]; rfl

theorem pwhile (d : BitVec 3) (a : Reg) (b : Reg) (e : BitVec 2) : Statement (.pwhile d a b e) := by
  intro keeps _
  show toOption (decodeCpu (placePwhile 0x11 8 d a b e) 0) = _
  delta decodeCpu decodeClass17 placePwhile guardRsv
  simp only [bits_skip, bits_head, fld_skip, fld_head, Nat.reduceLeDiff, Nat.reduceSub, Nat.reducePow, Nat.reduceMod, reduceIte, Nat.reduceEqDiff, BEq.rfl, Bool.and_self]
  rw [accept_wf _ keeps]; rfl

theorem cwait (t : Reg) (c : Reg) (sc : Scope) : Statement (.cwait t c sc) := by
  intro keeps _
  show toOption (decodeCpu (placeCwait 0x12 0 t c sc) 0) = _
  delta decodeCpu decodeClass18 placeCwait guardRsv
  simp only [bits_skip, bits_head, fld_skip, fld_head, Nat.reduceLeDiff, Nat.reduceSub, Nat.reducePow, Nat.reduceMod, reduceIte, Nat.reduceEqDiff, BEq.rfl, Bool.and_self, scope_ofCode_code, scope_code_mod, scope_code_lt, decide_true]
  rw [accept_wf _ keeps]; rfl

theorem ctrrd (d : Reg) (a : Reg) (im : BitVec 14) : Statement (.ctrrd d a im) := by
  intro keeps _
  show toOption (decodeCpu (placeAddi 0x12 1 d a im) 0) = _
  delta decodeCpu decodeClass18 placeAddi readAddi guardRsv
  simp only [bits_skip, bits_head, fld_skip, fld_head, Nat.reduceLeDiff, Nat.reduceSub, Nat.reducePow, Nat.reduceMod, reduceIte, Nat.reduceEqDiff, BEq.rfl, Bool.and_self]
  rw [accept_wf _ keeps]; rfl

theorem ctrset (t : Reg) (a : Reg) (im : BitVec 14) : Statement (.ctrset t a im) := by
  intro keeps _
  show toOption (decodeCpu (placeCtrset 0x12 2 t a im) 0) = _
  delta decodeCpu decodeClass18 placeCtrset guardRsv
  simp only [bits_skip, bits_head, fld_skip, fld_head, Nat.reduceLeDiff, Nat.reduceSub, Nat.reducePow, Nat.reduceMod, reduceIte, Nat.reduceEqDiff, BEq.rfl, Bool.and_self]
  rw [accept_wf _ keeps]; rfl

theorem erd (d : Reg) (a : Reg) (im : BitVec 14) : Statement (.erd d a im) := by
  intro keeps _
  show toOption (decodeCpu (placeAddi 0x12 3 d a im) 0) = _
  delta decodeCpu decodeClass18 placeAddi readAddi guardRsv
  simp only [bits_skip, bits_head, fld_skip, fld_head, Nat.reduceLeDiff, Nat.reduceSub, Nat.reducePow, Nat.reduceMod, reduceIte, Nat.reduceEqDiff, BEq.rfl, Bool.and_self]
  rw [accept_wf _ keeps]; rfl

theorem tspawn (d : Reg) (a : Reg) : Statement (.tspawn d a) := by
  intro keeps _
  show toOption (decodeCpu (placeTspawn 0x13 0 d a) 0) = _
  delta decodeCpu decodeClass19 placeTspawn readTspawn guardRsv
  simp only [bits_skip, bits_head, fld_skip, fld_head, Nat.reduceLeDiff, Nat.reduceSub, Nat.reducePow, Nat.reduceMod, reduceIte, Nat.reduceEqDiff, BEq.rfl, Bool.and_self]
  rw [accept_wf _ keeps]; rfl

theorem tyield : Statement (.tyield) := by
  intro keeps _
  show toOption (decodeCpu (placeTyield 0x13 1) 0) = _
  delta decodeCpu decodeClass19 placeTyield readTyield guardRsv
  simp only [bits_skip, bits_head, fld_skip, fld_head, Nat.reduceLeDiff, Nat.reduceSub, Nat.reducePow, Nat.reduceMod, reduceIte, Nat.reduceEqDiff, BEq.rfl, Bool.and_self]
  rw [accept_wf _ keeps]; rfl

theorem tsleep (a : Reg) : Statement (.tsleep a) := by
  intro keeps _
  show toOption (decodeCpu (placeTsleep 0x13 2 a) 0) = _
  delta decodeCpu decodeClass19 placeTsleep guardRsv
  simp only [bits_skip, bits_head, fld_skip, fld_head, Nat.reduceLeDiff, Nat.reduceSub, Nat.reducePow, Nat.reduceMod, reduceIte, Nat.reduceEqDiff, BEq.rfl, Bool.and_self]
  rw [accept_wf _ keeps]; rfl

theorem twake (d : Reg) (a : Reg) : Statement (.twake d a) := by
  intro keeps _
  show toOption (decodeCpu (placeTspawn 0x13 3 d a) 0) = _
  delta decodeCpu decodeClass19 placeTspawn readTspawn guardRsv
  simp only [bits_skip, bits_head, fld_skip, fld_head, Nat.reduceLeDiff, Nat.reduceSub, Nat.reducePow, Nat.reduceMod, reduceIte, Nat.reduceEqDiff, BEq.rfl, Bool.and_self]
  rw [accept_wf _ keeps]; rfl

theorem texit : Statement (.texit) := by
  intro keeps _
  show toOption (decodeCpu (placeTyield 0x13 4) 0) = _
  delta decodeCpu decodeClass19 placeTyield readTyield guardRsv
  simp only [bits_skip, bits_head, fld_skip, fld_head, Nat.reduceLeDiff, Nat.reduceSub, Nat.reducePow, Nat.reduceMod, reduceIte, Nat.reduceEqDiff, BEq.rfl, Bool.and_self]
  rw [accept_wf _ keeps]; rfl

theorem tprio (d : Reg) (a : Reg) (b : Reg) : Statement (.tprio d a b) := by
  intro keeps _
  show toOption (decodeCpu (placeTprio 0x13 5 d a b) 0) = _
  delta decodeCpu decodeClass19 placeTprio guardRsv
  simp only [bits_skip, bits_head, fld_skip, fld_head, Nat.reduceLeDiff, Nat.reduceSub, Nat.reducePow, Nat.reduceMod, reduceIte, Nat.reduceEqDiff, BEq.rfl, Bool.and_self]
  rw [accept_wf _ keeps]; rfl

theorem svc (im : BitVec 13) : Statement (.svc im) := by
  intro keeps _
  show toOption (decodeCpu (placeSvc 0x14 0 im) 0) = _
  delta decodeCpu decodeClass20 placeSvc readSvc guardRsv
  simp only [bits_skip, bits_head, fld_skip, fld_head, Nat.reduceLeDiff, Nat.reduceSub, Nat.reducePow, Nat.reduceMod, reduceIte, Nat.reduceEqDiff, BEq.rfl, Bool.and_self]
  rw [accept_wf _ keeps]; rfl

theorem brk (im : BitVec 13) : Statement (.brk im) := by
  intro keeps _
  show toOption (decodeCpu (placeSvc 0x14 1 im) 0) = _
  delta decodeCpu decodeClass20 placeSvc readSvc guardRsv
  simp only [bits_skip, bits_head, fld_skip, fld_head, Nat.reduceLeDiff, Nat.reduceSub, Nat.reducePow, Nat.reduceMod, reduceIte, Nat.reduceEqDiff, BEq.rfl, Bool.and_self]
  rw [accept_wf _ keeps]; rfl

theorem sysrd (d : Reg) (n : BitVec 13) : Statement (.sysrd d n) := by
  intro keeps _
  show toOption (decodeCpu (placeSysrd 0x14 2 d n) 0) = _
  delta decodeCpu decodeClass20 placeSysrd guardRsv
  simp only [bits_skip, bits_head, fld_skip, fld_head, Nat.reduceLeDiff, Nat.reduceSub, Nat.reducePow, Nat.reduceMod, reduceIte, Nat.reduceEqDiff, BEq.rfl, Bool.and_self]
  rw [accept_wf _ keeps]; rfl

theorem syswr (t : Reg) (n : BitVec 13) : Statement (.syswr t n) := by
  intro keeps _
  show toOption (decodeCpu (placeSyswr 0x14 3 t n) 0) = _
  delta decodeCpu decodeClass20 placeSyswr guardRsv
  simp only [bits_skip, bits_head, fld_skip, fld_head, Nat.reduceLeDiff, Nat.reduceSub, Nat.reducePow, Nat.reduceMod, reduceIte, Nat.reduceEqDiff, BEq.rfl, Bool.and_self]
  rw [accept_wf _ keeps]; rfl

theorem ctxrd (d : Reg) (a : Reg) (n : BitVec 13) : Statement (.ctxrd d a n) := by
  intro keeps _
  show toOption (decodeCpu (placeCtxrd 0x14 4 d a n) 0) = _
  delta decodeCpu decodeClass20 placeCtxrd guardRsv
  simp only [bits_skip, bits_head, fld_skip, fld_head, Nat.reduceLeDiff, Nat.reduceSub, Nat.reducePow, Nat.reduceMod, reduceIte, Nat.reduceEqDiff, BEq.rfl, Bool.and_self]
  rw [accept_wf _ keeps]; rfl

theorem ctxwr (t : Reg) (a : Reg) (n : BitVec 13) : Statement (.ctxwr t a n) := by
  intro keeps _
  show toOption (decodeCpu (placeCtxwr 0x14 5 t a n) 0) = _
  delta decodeCpu decodeClass20 placeCtxwr guardRsv
  simp only [bits_skip, bits_head, fld_skip, fld_head, Nat.reduceLeDiff, Nat.reduceSub, Nat.reducePow, Nat.reduceMod, reduceIte, Nat.reduceEqDiff, BEq.rfl, Bool.and_self]
  rw [accept_wf _ keeps]; rfl

theorem tret (a : Reg) : Statement (.tret a) := by
  intro keeps _
  show toOption (decodeCpu (placeTret 0x14 6 a) 0) = _
  delta decodeCpu decodeClass20 placeTret guardRsv
  simp only [bits_skip, bits_head, fld_skip, fld_head, Nat.reduceLeDiff, Nat.reduceSub, Nat.reducePow, Nat.reduceMod, reduceIte, Nat.reduceEqDiff, BEq.rfl, Bool.and_self]
  rw [accept_wf _ keeps]; rfl

theorem tredir (h : Reg) (a : Reg) : Statement (.tredir h a) := by
  intro keeps _
  show toOption (decodeCpu (placeTredir 0x14 7 h a) 0) = _
  delta decodeCpu decodeClass20 placeTredir guardRsv
  simp only [bits_skip, bits_head, fld_skip, fld_head, Nat.reduceLeDiff, Nat.reduceSub, Nat.reducePow, Nat.reduceMod, reduceIte, Nat.reduceEqDiff, BEq.rfl, Bool.and_self]
  rw [accept_wf _ keeps]; rfl

theorem tlbiPage (a : Reg) (sc : Scope) : Statement (.tlbiPage a sc) := by
  intro keeps _
  show toOption (decodeCpu (placeTlbiPage 0x14 8 0 a sc) 0) = _
  delta decodeCpu decodeClass20 placeTlbiPage readTlbiPage guardRsv
  simp only [bits_skip, bits_head, fld_skip, fld_head, Nat.reduceLeDiff, Nat.reduceSub, Nat.reducePow, Nat.reduceMod, reduceIte, Nat.reduceEqDiff, BEq.rfl, Bool.and_self, scope_ofCode_code, scope_code_mod, scope_code_lt, decide_true]
  rw [accept_wf _ keeps]; rfl

theorem tlbiAsn (a : Reg) (sc : Scope) : Statement (.tlbiAsn a sc) := by
  intro keeps _
  show toOption (decodeCpu (placeTlbiPage 0x14 8 1 a sc) 0) = _
  delta decodeCpu decodeClass20 placeTlbiPage readTlbiPage guardRsv
  simp only [bits_skip, bits_head, fld_skip, fld_head, Nat.reduceLeDiff, Nat.reduceSub, Nat.reducePow, Nat.reduceMod, reduceIte, Nat.reduceEqDiff, BEq.rfl, Bool.and_self, scope_ofCode_code, scope_code_mod, scope_code_lt, decide_true]
  rw [accept_wf _ keeps]; rfl

theorem tlbiAll (sc : Scope) : Statement (.tlbiAll sc) := by
  intro keeps _
  show toOption (decodeCpu (placeTlbiAll 0x14 8 2 sc) 0) = _
  delta decodeCpu decodeClass20 placeTlbiAll guardRsv
  simp only [bits_skip, bits_head, fld_skip, fld_head, Nat.reduceLeDiff, Nat.reduceSub, Nat.reducePow, Nat.reduceMod, reduceIte, Nat.reduceEqDiff, BEq.rfl, Bool.and_self, scope_ofCode_code, scope_code_mod, scope_code_lt, decide_true]
  rw [accept_wf _ keeps]; rfl

theorem wfm (d : Reg) : Statement (.wfm d) := by
  intro keeps _
  show toOption (decodeCpu (placeWfm 0x14 9 d) 0) = _
  delta decodeCpu decodeClass20 placeWfm guardRsv
  simp only [bits_skip, bits_head, fld_skip, fld_head, Nat.reduceLeDiff, Nat.reduceSub, Nat.reducePow, Nat.reduceMod, reduceIte, Nat.reduceEqDiff, BEq.rfl, Bool.and_self]
  rw [accept_wf _ keeps]; rfl

theorem tload (t : BitVec 3) (m : BitVec 3) (b : Reg) (pol : Pol) (ord : Order) (sc : Scope) (off : BitVec 27) : Statement (.tload t m b pol ord sc off) := by
  intro keeps _
  show toOption (decodeCpu (placeTload 0x18 0 t m b pol ord sc) (placeTload1 off)) = _
  delta decodeCpu decodeLong placeTload placeTload1 readTload guardRsv
  simp only [bits_skip, bits_head, fld_skip, fld_head, Nat.reduceLeDiff, Nat.reduceSub, Nat.reducePow, Nat.reduceMod, reduceIte, Nat.reduceEqDiff, BEq.rfl, Bool.and_self, pol_ofCode_code, pol_code_mod, order_ofCode_code, order_code_mod, scope_ofCode_code, scope_code_mod, scope_code_lt, decide_true]
  rw [accept_wf _ keeps]; rfl

theorem tloads (t : BitVec 3) (m : BitVec 3) (b : Reg) (pol : Pol) (ord : Order) (sc : Scope) (off : BitVec 27) : Statement (.tloads t m b pol ord sc off) := by
  intro keeps _
  show toOption (decodeCpu (placeTload 0x18 1 t m b pol ord sc) (placeTload1 off)) = _
  delta decodeCpu decodeLong placeTload placeTload1 readTload guardRsv
  simp only [bits_skip, bits_head, fld_skip, fld_head, Nat.reduceLeDiff, Nat.reduceSub, Nat.reducePow, Nat.reduceMod, reduceIte, Nat.reduceEqDiff, BEq.rfl, Bool.and_self, pol_ofCode_code, pol_code_mod, order_ofCode_code, order_code_mod, scope_ofCode_code, scope_code_mod, scope_code_lt, decide_true]
  rw [accept_wf _ keeps]; rfl

theorem tloadV (t : BitVec 3) (m : BitVec 3) (b : Reg) (pol : Pol) (ord : Order) (sc : Scope) (x : Reg) (off : BitVec 27) : Statement (.tloadV t m b pol ord sc x off) := by
  intro keeps _
  show toOption (decodeCpu (placeTloadV 0x18 2 t m b pol ord sc) (placeTloadV1 x off)) = _
  delta decodeCpu decodeLong placeTloadV placeTloadV1 guardRsv
  simp only [bits_skip, bits_head, fld_skip, fld_head, Nat.reduceLeDiff, Nat.reduceSub, Nat.reducePow, Nat.reduceMod, reduceIte, Nat.reduceEqDiff, BEq.rfl, Bool.and_self, pol_ofCode_code, pol_code_mod, order_ofCode_code, order_code_mod, scope_ofCode_code, scope_code_mod, scope_code_lt, decide_true]
  rw [accept_wf _ keeps]; rfl

theorem tstore (t : BitVec 3) (m : BitVec 3) (b : Reg) (pol : Pol) (ord : Order) (sc : Scope) (off : BitVec 27) : Statement (.tstore t m b pol ord sc off) := by
  intro keeps _
  show toOption (decodeCpu (placeTload 0x18 3 t m b pol ord sc) (placeTload1 off)) = _
  delta decodeCpu decodeLong placeTload placeTload1 readTload guardRsv
  simp only [bits_skip, bits_head, fld_skip, fld_head, Nat.reduceLeDiff, Nat.reduceSub, Nat.reducePow, Nat.reduceMod, reduceIte, Nat.reduceEqDiff, BEq.rfl, Bool.and_self, pol_ofCode_code, pol_code_mod, order_ofCode_code, order_code_mod, scope_ofCode_code, scope_code_mod, scope_code_lt, decide_true]
  rw [accept_wf _ keeps]; rfl

theorem tstoreAon (t : TReg) (m : BitVec 3) (b : Reg) (pol : Pol) (ord : Order) (sc : Scope) (x : Reg) (off : BitVec 27) : Statement (.tstoreAon t m b pol ord sc x off) := by
  intro keeps _
  show toOption (decodeCpu (placeTstoreAon 0x18 4 t m b pol ord sc) (placeTstoreAon1 x off)) = _
  delta decodeCpu decodeLong placeTstoreAon placeTstoreAon1 guardRsv
  simp only [bits_skip, bits_head, fld_skip, fld_head, Nat.reduceLeDiff, Nat.reduceSub, Nat.reducePow, Nat.reduceMod, reduceIte, Nat.reduceEqDiff, BEq.rfl, Bool.and_self, pol_ofCode_code, pol_code_mod, order_ofCode_code, order_code_mod, scope_ofCode_code, scope_code_mod, scope_code_lt, treg_ofCode_code, treg_code_mod, treg_code_lt, decide_true]
  rw [accept_wf _ keeps]; rfl

theorem tstorea (t : BitVec 2) (m : BitVec 3) (b : Reg) (pol : Pol) (ord : Order) (sc : Scope) (off : BitVec 27) : Statement (.tstorea t m b pol ord sc off) := by
  intro keeps _
  show toOption (decodeCpu (placeTstorea 0x18 5 t m b pol ord sc) (placeTstorea1 off)) = _
  delta decodeCpu decodeLong placeTstorea placeTstorea1 guardRsv
  simp only [bits_skip, bits_head, fld_skip, fld_head, Nat.reduceLeDiff, Nat.reduceSub, Nat.reducePow, Nat.reduceMod, reduceIte, Nat.reduceEqDiff, BEq.rfl, Bool.and_self, pol_ofCode_code, pol_code_mod, order_ofCode_code, order_code_mod, scope_ofCode_code, scope_code_mod, scope_code_lt, decide_true]
  rw [accept_wf _ keeps]; rfl

theorem tzero (t : TReg) : Statement (.tzero t) := by
  intro keeps _
  show toOption (decodeCpu (placeTzero 0x18 6 t) 0) = _
  delta decodeCpu decodeLong placeTzero guardRsv
  simp only [bits_skip, bits_head, fld_skip, fld_head, Nat.reduceLeDiff, Nat.reduceSub, Nat.reducePow, Nat.reduceMod, reduceIte, Nat.reduceEqDiff, BEq.rfl, Bool.and_self, treg_ofCode_code, treg_code_mod, treg_code_lt, decide_true]
  rw [accept_wf _ keeps]; rfl

theorem tmma (t : BitVec 2) (a : BitVec 3) (b : BitVec 3) (e : BitVec 2) (h : Bool) : Statement (.tmma t a b e h) := by
  intro keeps _
  show toOption (decodeCpu (placeTmma 0x18 7 t a b) (placeTmma1 e h)) = _
  delta decodeCpu decodeLong placeTmma placeTmma1 guardRsv
  simp only [bits_skip, bits_head, fld_skip, fld_head, Nat.reduceLeDiff, Nat.reduceSub, Nat.reducePow, Nat.reduceMod, reduceIte, Nat.reduceEqDiff, BEq.rfl, Bool.and_self, flag_skip, flag_head]
  rw [accept_wf _ keeps]; rfl

theorem tmmaSp (t : BitVec 2) (a : BitVec 3) (b : BitVec 3) (m : BitVec 3) (e : BitVec 2) (h : Bool) : Statement (.tmmaSp t a b m e h) := by
  intro keeps _
  show toOption (decodeCpu (placeTmmaSp 0x18 8 t a b) (placeTmmaSp1 m e h)) = _
  delta decodeCpu decodeLong placeTmmaSp placeTmmaSp1 guardRsv
  simp only [bits_skip, bits_head, fld_skip, fld_head, Nat.reduceLeDiff, Nat.reduceSub, Nat.reducePow, Nat.reduceMod, reduceIte, Nat.reduceEqDiff, BEq.rfl, Bool.and_self, flag_skip, flag_head]
  rw [accept_wf _ keeps]; rfl

theorem tcvt (t : BitVec 3) (a : TReg) (e : BitVec 2) (h : Bool) (tag : BitVec 2) : Statement (.tcvt t a e h tag) := by
  intro keeps _
  show toOption (decodeCpu (placeTcvt 0x18 9 t a) (placeTcvt1 e h tag)) = _
  delta decodeCpu decodeLong placeTcvt placeTcvt1 guardRsv
  simp only [bits_skip, bits_head, fld_skip, fld_head, Nat.reduceLeDiff, Nat.reduceSub, Nat.reducePow, Nat.reduceMod, reduceIte, Nat.reduceEqDiff, BEq.rfl, Bool.and_self, flag_skip, flag_head, treg_ofCode_code, treg_code_mod, treg_code_lt, decide_true]
  rw [accept_wf _ keeps]; rfl

theorem tmova (t : BitVec 2) (v : Reg) (g : Reg) : Statement (.tmova t v g) := by
  intro keeps _
  show toOption (decodeCpu (placeTmova 0x18 0xa t) (placeTmova1 v g)) = _
  delta decodeCpu decodeLong placeTmova placeTmova1 guardRsv
  simp only [bits_skip, bits_head, fld_skip, fld_head, Nat.reduceLeDiff, Nat.reduceSub, Nat.reducePow, Nat.reduceMod, reduceIte, Nat.reduceEqDiff, BEq.rfl, Bool.and_self]
  rw [accept_wf _ keeps]; rfl

theorem tmovt (t : BitVec 3) (v : Reg) (g : Reg) : Statement (.tmovt t v g) := by
  intro keeps _
  show toOption (decodeCpu (placeTmovt 0x18 0xb t) (placeTmovt1 v g)) = _
  delta decodeCpu decodeLong placeTmovt placeTmovt1 guardRsv
  simp only [bits_skip, bits_head, fld_skip, fld_head, Nat.reduceLeDiff, Nat.reduceSub, Nat.reducePow, Nat.reduceMod, reduceIte, Nat.reduceEqDiff, BEq.rfl, Bool.and_self]
  rw [accept_wf _ keeps]; rfl

theorem ttrans (t : BitVec 3) (a : BitVec 3) (e : BitVec 2) (h : Bool) : Statement (.ttrans t a e h) := by
  intro keeps _
  show toOption (decodeCpu (placeTtrans 0x18 0xc t a) (placeTtrans1 e h)) = _
  delta decodeCpu decodeLong placeTtrans placeTtrans1 guardRsv
  simp only [bits_skip, bits_head, fld_skip, fld_head, Nat.reduceLeDiff, Nat.reduceSub, Nat.reducePow, Nat.reduceMod, reduceIte, Nat.reduceEqDiff, BEq.rfl, Bool.and_self, flag_skip, flag_head]
  rw [accept_wf _ keeps]; rfl

theorem tadd (t : BitVec 2) (a : BitVec 2) (b : BitVec 2) : Statement (.tadd t a b) := by
  intro keeps _
  show toOption (decodeCpu (placeTadd 0x18 0xd t a b) 0) = _
  delta decodeCpu decodeLong placeTadd guardRsv
  simp only [bits_skip, bits_head, fld_skip, fld_head, Nat.reduceLeDiff, Nat.reduceSub, Nat.reducePow, Nat.reduceMod, reduceIte, Nat.reduceEqDiff, BEq.rfl, Bool.and_self]
  rw [accept_wf _ keeps]; rfl

theorem tscale (t : BitVec 2) (a : BitVec 2) (g : Reg) : Statement (.tscale t a g) := by
  intro keeps _
  show toOption (decodeCpu (placeTscale 0x18 0xe t a) (placeTscale1 g)) = _
  delta decodeCpu decodeLong placeTscale placeTscale1 guardRsv
  simp only [bits_skip, bits_head, fld_skip, fld_head, Nat.reduceLeDiff, Nat.reduceSub, Nat.reducePow, Nat.reduceMod, reduceIte, Nat.reduceEqDiff, BEq.rfl, Bool.and_self]
  rw [accept_wf _ keeps]; rfl

theorem trel : Statement (.trel) := by
  intro keeps _
  show toOption (decodeCpu (placeTrel 0x18 0xf) 0) = _
  delta decodeCpu decodeLong placeTrel guardRsv
  simp only [bits_skip, bits_head, fld_skip, fld_head, Nat.reduceLeDiff, Nat.reduceSub, Nat.reducePow, Nat.reduceMod, reduceIte, Nat.reduceEqDiff, BEq.rfl, Bool.and_self]
  rw [accept_wf _ keeps]; rfl

theorem mset (m : BitVec 3) (a : Reg) (b : Reg) (c : Reg) : Statement (.mset m a b c) := by
  intro keeps _
  show toOption (decodeCpu (placeMset 0x18 0x10 m a b c) 0) = _
  delta decodeCpu decodeLong placeMset guardRsv
  simp only [bits_skip, bits_head, fld_skip, fld_head, Nat.reduceLeDiff, Nat.reduceSub, Nat.reducePow, Nat.reduceMod, reduceIte, Nat.reduceEqDiff, BEq.rfl, Bool.and_self]
  rw [accept_wf _ keeps]; rfl

theorem put (d : Reg) (a : Reg) (l : Reg) (pol : Pol) (sc : Scope) (c : Reg) : Statement (.put d a l pol sc c) := by
  intro keeps _
  show toOption (decodeCpu (placePut 0x18 0x11 d a l pol sc) (placePut1 c)) = _
  delta decodeCpu decodeLong placePut placePut1 guardRsv
  simp only [bits_skip, bits_head, fld_skip, fld_head, Nat.reduceLeDiff, Nat.reduceSub, Nat.reducePow, Nat.reduceMod, reduceIte, Nat.reduceEqDiff, BEq.rfl, Bool.and_self, pol_ofCode_code, pol_code_mod, scope_ofCode_code, scope_code_mod, scope_code_lt, decide_true]
  rw [accept_wf _ keeps]; rfl

theorem putV (d : Reg) (v : Reg) (pol : Pol) (sc : Scope) (c : Reg) : Statement (.putV d v pol sc c) := by
  intro keeps _
  show toOption (decodeCpu (placePutV 0x18 0x12 d v pol sc) (placePutV1 c)) = _
  delta decodeCpu decodeLong placePutV placePutV1 guardRsv
  simp only [bits_skip, bits_head, fld_skip, fld_head, Nat.reduceLeDiff, Nat.reduceSub, Nat.reducePow, Nat.reduceMod, reduceIte, Nat.reduceEqDiff, BEq.rfl, Bool.and_self, pol_ofCode_code, pol_code_mod, scope_ofCode_code, scope_code_mod, scope_code_lt, decide_true]
  rw [accept_wf _ keeps]; rfl

theorem putT (t : TReg) (m : BitVec 3) (b : Reg) (pol : Pol) (sc : Scope) (x : Reg) (off : BitVec 27) : Statement (.putT t m b pol sc x off) := by
  intro keeps _
  show toOption (decodeCpu (placePutT 0x18 0x13 t m b pol sc) (placePutT1 x off)) = _
  delta decodeCpu decodeLong placePutT placePutT1 guardRsv
  simp only [bits_skip, bits_head, fld_skip, fld_head, Nat.reduceLeDiff, Nat.reduceSub, Nat.reducePow, Nat.reduceMod, reduceIte, Nat.reduceEqDiff, BEq.rfl, Bool.and_self, pol_ofCode_code, pol_code_mod, scope_ofCode_code, scope_code_mod, scope_code_lt, treg_ofCode_code, treg_code_mod, treg_code_lt, decide_true]
  rw [accept_wf _ keeps]; rfl

theorem copy (r : Reg) (d : Reg) (a : Reg) (pol : Pol) (sc : Scope) (l : Reg) (c : Reg) : Statement (.copy r d a pol sc l c) := by
  intro keeps _
  show toOption (decodeCpu (placeCopy 0x18 0x14 r d a pol sc) (placeCopy1 l c)) = _
  delta decodeCpu decodeLong placeCopy placeCopy1 guardRsv
  simp only [bits_skip, bits_head, fld_skip, fld_head, Nat.reduceLeDiff, Nat.reduceSub, Nat.reducePow, Nat.reduceMod, reduceIte, Nat.reduceEqDiff, BEq.rfl, Bool.and_self, pol_ofCode_code, pol_code_mod, scope_ofCode_code, scope_code_mod, scope_code_lt, decide_true]
  rw [accept_wf _ keeps]; rfl

theorem copyResume (r : Reg) : Statement (.copyResume r) := by
  intro keeps _
  show toOption (decodeCpu (placeCopyResume 0x18 0x15 r) 0) = _
  delta decodeCpu decodeLong placeCopyResume guardRsv
  simp only [bits_skip, bits_head, fld_skip, fld_head, Nat.reduceLeDiff, Nat.reduceSub, Nat.reducePow, Nat.reduceMod, reduceIte, Nat.reduceEqDiff, BEq.rfl, Bool.and_self]
  rw [accept_wf _ keeps]; rfl

theorem ehalt : Statement (.ehalt) := by
  intro keeps _
  show toOption (decodeEfc (placeEhalt 0)) = _
  delta decodeEfc placeEhalt guardRsv
  simp only [bits_skip, bits_head, fld_skip, fld_head, Nat.reduceLeDiff, Nat.reduceSub, Nat.reducePow, Nat.reduceMod, reduceIte, Nat.reduceEqDiff, BEq.rfl, Bool.and_self]
  rw [accept_wf _ keeps]; rfl

theorem eli (d : BitVec 3) (im : BitVec 17) : Statement (.eli d im) := by
  intro keeps _
  show toOption (decodeEfc (placeEli 1 d im)) = _
  delta decodeEfc placeEli guardRsv
  simp only [bits_skip, bits_head, fld_skip, fld_head, Nat.reduceLeDiff, Nat.reduceSub, Nat.reducePow, Nat.reduceMod, reduceIte, Nat.reduceEqDiff, BEq.rfl, Bool.and_self]
  rw [accept_wf _ keeps]; rfl

theorem eadd (d : BitVec 3) (a : BitVec 3) (b : BitVec 3) : Statement (.eadd d a b) := by
  intro keeps _
  show toOption (decodeEfc (placeEadd 2 d a b)) = _
  delta decodeEfc placeEadd readEadd guardRsv
  simp only [bits_skip, bits_head, fld_skip, fld_head, Nat.reduceLeDiff, Nat.reduceSub, Nat.reducePow, Nat.reduceMod, reduceIte, Nat.reduceEqDiff, BEq.rfl, Bool.and_self]
  rw [accept_wf _ keeps]; rfl

theorem eaddi (d : BitVec 3) (a : BitVec 3) (im : BitVec 17) : Statement (.eaddi d a im) := by
  intro keeps _
  show toOption (decodeEfc (placeEaddi 3 d a im)) = _
  delta decodeEfc placeEaddi readEaddi guardRsv
  simp only [bits_skip, bits_head, fld_skip, fld_head, Nat.reduceLeDiff, Nat.reduceSub, Nat.reducePow, Nat.reduceMod, reduceIte, Nat.reduceEqDiff, BEq.rfl, Bool.and_self]
  rw [accept_wf _ keeps]; rfl

theorem esub (d : BitVec 3) (a : BitVec 3) (b : BitVec 3) : Statement (.esub d a b) := by
  intro keeps _
  show toOption (decodeEfc (placeEadd 4 d a b)) = _
  delta decodeEfc placeEadd readEadd guardRsv
  simp only [bits_skip, bits_head, fld_skip, fld_head, Nat.reduceLeDiff, Nat.reduceSub, Nat.reducePow, Nat.reduceMod, reduceIte, Nat.reduceEqDiff, BEq.rfl, Bool.and_self]
  rw [accept_wf _ keeps]; rfl

theorem eand (d : BitVec 3) (a : BitVec 3) (b : BitVec 3) : Statement (.eand d a b) := by
  intro keeps _
  show toOption (decodeEfc (placeEadd 5 d a b)) = _
  delta decodeEfc placeEadd readEadd guardRsv
  simp only [bits_skip, bits_head, fld_skip, fld_head, Nat.reduceLeDiff, Nat.reduceSub, Nat.reducePow, Nat.reduceMod, reduceIte, Nat.reduceEqDiff, BEq.rfl, Bool.and_self]
  rw [accept_wf _ keeps]; rfl

theorem eandi (d : BitVec 3) (a : BitVec 3) (im : BitVec 17) : Statement (.eandi d a im) := by
  intro keeps _
  show toOption (decodeEfc (placeEaddi 6 d a im)) = _
  delta decodeEfc placeEaddi readEaddi guardRsv
  simp only [bits_skip, bits_head, fld_skip, fld_head, Nat.reduceLeDiff, Nat.reduceSub, Nat.reducePow, Nat.reduceMod, reduceIte, Nat.reduceEqDiff, BEq.rfl, Bool.and_self]
  rw [accept_wf _ keeps]; rfl

theorem eor (d : BitVec 3) (a : BitVec 3) (b : BitVec 3) : Statement (.eor d a b) := by
  intro keeps _
  show toOption (decodeEfc (placeEadd 7 d a b)) = _
  delta decodeEfc placeEadd readEadd guardRsv
  simp only [bits_skip, bits_head, fld_skip, fld_head, Nat.reduceLeDiff, Nat.reduceSub, Nat.reducePow, Nat.reduceMod, reduceIte, Nat.reduceEqDiff, BEq.rfl, Bool.and_self]
  rw [accept_wf _ keeps]; rfl

theorem exor (d : BitVec 3) (a : BitVec 3) (b : BitVec 3) : Statement (.exor d a b) := by
  intro keeps _
  show toOption (decodeEfc (placeEadd 8 d a b)) = _
  delta decodeEfc placeEadd readEadd guardRsv
  simp only [bits_skip, bits_head, fld_skip, fld_head, Nat.reduceLeDiff, Nat.reduceSub, Nat.reducePow, Nat.reduceMod, reduceIte, Nat.reduceEqDiff, BEq.rfl, Bool.and_self]
  rw [accept_wf _ keeps]; rfl

theorem eshr (d : BitVec 3) (a : BitVec 3) (n : BitVec 6) : Statement (.eshr d a n) := by
  intro keeps _
  show toOption (decodeEfc (placeEshr 9 d a n)) = _
  delta decodeEfc placeEshr readEshr guardRsv
  simp only [bits_skip, bits_head, fld_skip, fld_head, Nat.reduceLeDiff, Nat.reduceSub, Nat.reducePow, Nat.reduceMod, reduceIte, Nat.reduceEqDiff, BEq.rfl, Bool.and_self]
  rw [accept_wf _ keeps]; rfl

theorem eshl (d : BitVec 3) (a : BitVec 3) (n : BitVec 6) : Statement (.eshl d a n) := by
  intro keeps _
  show toOption (decodeEfc (placeEshr 0xa d a n)) = _
  delta decodeEfc placeEshr readEshr guardRsv
  simp only [bits_skip, bits_head, fld_skip, fld_head, Nat.reduceLeDiff, Nat.reduceSub, Nat.reducePow, Nat.reduceMod, reduceIte, Nat.reduceEqDiff, BEq.rfl, Bool.and_self]
  rw [accept_wf _ keeps]; rfl

theorem emin (d : BitVec 3) (a : BitVec 3) (b : BitVec 3) : Statement (.emin d a b) := by
  intro keeps _
  show toOption (decodeEfc (placeEadd 0xb d a b)) = _
  delta decodeEfc placeEadd readEadd guardRsv
  simp only [bits_skip, bits_head, fld_skip, fld_head, Nat.reduceLeDiff, Nat.reduceSub, Nat.reducePow, Nat.reduceMod, reduceIte, Nat.reduceEqDiff, BEq.rfl, Bool.and_self]
  rw [accept_wf _ keeps]; rfl

theorem emax (d : BitVec 3) (a : BitVec 3) (b : BitVec 3) : Statement (.emax d a b) := by
  intro keeps _
  show toOption (decodeEfc (placeEadd 0xc d a b)) = _
  delta decodeEfc placeEadd readEadd guardRsv
  simp only [bits_skip, bits_head, fld_skip, fld_head, Nat.reduceLeDiff, Nat.reduceSub, Nat.reducePow, Nat.reduceMod, reduceIte, Nat.reduceEqDiff, BEq.rfl, Bool.and_self]
  rw [accept_wf _ keeps]; rfl

theorem elog2 (d : BitVec 3) (a : BitVec 3) (c : BitVec 7) : Statement (.elog2 d a c) := by
  intro keeps _
  show toOption (decodeEfc (placeElog2 0xd d a c)) = _
  delta decodeEfc placeElog2 guardRsv
  simp only [bits_skip, bits_head, fld_skip, fld_head, Nat.reduceLeDiff, Nat.reduceSub, Nat.reducePow, Nat.reduceMod, reduceIte, Nat.reduceEqDiff, BEq.rfl, Bool.and_self]
  rw [accept_wf _ keeps]; rfl

theorem eld (d : BitVec 3) (a : BitVec 3) (w : BitVec 13) : Statement (.eld d a w) := by
  intro keeps _
  show toOption (decodeEfc (placeEld 0xe d a w)) = _
  delta decodeEfc placeEld readEld guardRsv
  simp only [bits_skip, bits_head, fld_skip, fld_head, Nat.reduceLeDiff, Nat.reduceSub, Nat.reducePow, Nat.reduceMod, reduceIte, Nat.reduceEqDiff, BEq.rfl, Bool.and_self]
  rw [accept_wf _ keeps]; rfl

theorem est (d : BitVec 3) (a : BitVec 3) (w : BitVec 13) : Statement (.est d a w) := by
  intro keeps _
  show toOption (decodeEfc (placeEld 0xf d a w)) = _
  delta decodeEfc placeEld readEld guardRsv
  simp only [bits_skip, bits_head, fld_skip, fld_head, Nat.reduceLeDiff, Nat.reduceSub, Nat.reducePow, Nat.reduceMod, reduceIte, Nat.reduceEqDiff, BEq.rfl, Bool.and_self]
  rw [accept_wf _ keeps]; rfl

theorem ehinc (a : BitVec 3) (w : BitVec 13) : Statement (.ehinc a w) := by
  intro keeps _
  show toOption (decodeEfc (placeEhinc 0x10 a w)) = _
  delta decodeEfc placeEhinc guardRsv
  simp only [bits_skip, bits_head, fld_skip, fld_head, Nat.reduceLeDiff, Nat.reduceSub, Nat.reducePow, Nat.reduceMod, reduceIte, Nat.reduceEqDiff, BEq.rfl, Bool.and_self]
  rw [accept_wf _ keeps]; rfl

theorem ecms (d : BitVec 3) (a : BitVec 3) (w : BitVec 13) : Statement (.ecms d a w) := by
  intro keeps _
  show toOption (decodeEfc (placeEld 0x11 d a w)) = _
  delta decodeEfc placeEld readEld guardRsv
  simp only [bits_skip, bits_head, fld_skip, fld_head, Nat.reduceLeDiff, Nat.reduceSub, Nat.reducePow, Nat.reduceMod, reduceIte, Nat.reduceEqDiff, BEq.rfl, Bool.and_self]
  rw [accept_wf _ keeps]; rfl

theorem esamp (w : BitVec 13) : Statement (.esamp w) := by
  intro keeps _
  show toOption (decodeEfc (placeEsamp 0x12 w)) = _
  delta decodeEfc placeEsamp guardRsv
  simp only [bits_skip, bits_head, fld_skip, fld_head, Nat.reduceLeDiff, Nat.reduceSub, Nat.reducePow, Nat.reduceMod, reduceIte, Nat.reduceEqDiff, BEq.rfl, Bool.and_self]
  rw [accept_wf _ keeps]; rfl

theorem etrig (a : BitVec 3) : Statement (.etrig a) := by
  intro keeps _
  show toOption (decodeEfc (placeEtrig 0x13 a)) = _
  delta decodeEfc placeEtrig guardRsv
  simp only [bits_skip, bits_head, fld_skip, fld_head, Nat.reduceLeDiff, Nat.reduceSub, Nat.reducePow, Nat.reduceMod, reduceIte, Nat.reduceEqDiff, BEq.rfl, Bool.and_self]
  rw [accept_wf _ keeps]; rfl

theorem eskip (a : BitVec 3) (b : BitVec 3) (k : BitVec 3) (n : BitVec 6) : Statement (.eskip a b k n) := by
  intro keeps _
  show toOption (decodeEfc (placeEskip 0x14 a b k n)) = _
  delta decodeEfc placeEskip guardRsv
  simp only [bits_skip, bits_head, fld_skip, fld_head, Nat.reduceLeDiff, Nat.reduceSub, Nat.reducePow, Nat.reduceMod, reduceIte, Nat.reduceEqDiff, BEq.rfl, Bool.and_self]
  rw [accept_wf _ keeps]; rfl

theorem trapRecordEnter (core : Nat) : Statement (.trapRecordEnter core) := fun _ h => absurd rfl h

theorem placement (cl : Nat) : Statement (.placement cl) := fun _ h => absurd rfl h

theorem preemption (cl : Nat) : Statement (.preemption cl) := fun _ h => absurd rfl h

theorem quantumExpiry (ctx : Nat) : Statement (.quantumExpiry ctx) := fun _ h => absurd rfl h

theorem pull (cl : Nat) : Statement (.pull cl) := fun _ h => absurd rfl h

theorem tileBinding (ctx : Nat) : Statement (.tileBinding ctx) := fun _ h => absurd rfl h

theorem exitedWrite (tcb : Nat) : Statement (.exitedWrite tcb) := fun _ h => absurd rfl h

theorem tenantWindowBoundary (sock : Nat) : Statement (.tenantWindowBoundary sock) := fun _ h => absurd rfl h

theorem contextTimeUpdate (sock : Nat) : Statement (.contextTimeUpdate sock) := fun _ h => absurd rfl h

theorem sleepDeadline (cl : Nat) : Statement (.sleepDeadline cl) := fun _ h => absurd rfl h

theorem sleepOverflowWalk (cl : Nat) : Statement (.sleepOverflowWalk cl) := fun _ h => absurd rfl h

theorem waitTableRecheck (cl : Nat) (line : Nat) : Statement (.waitTableRecheck cl line) := fun _ h => absurd rfl h

theorem waitOverflowWalk (cl : Nat) : Statement (.waitOverflowWalk cl) := fun _ h => absurd rfl h

theorem engineStart (eng : Nat) : Statement (.engineStart eng) := fun _ h => absurd rfl h

theorem tileComplete (eng : Nat) : Statement (.tileComplete eng) := fun _ h => absurd rfl h

theorem tileStoreDrain (eng : Nat) : Statement (.tileStoreDrain eng) := fun _ h => absurd rfl h

theorem putTPiece (eng : Nat) : Statement (.putTPiece eng) := fun _ h => absurd rfl h

theorem storePerform (core : Nat) : Statement (.storePerform core) := fun _ h => absurd rfl h

theorem putLineSend (cl : Nat) : Statement (.putLineSend cl) := fun _ h => absurd rfl h

theorem copyTakeUp (cl : Nat) : Statement (.copyTakeUp cl) := fun _ h => absurd rfl h

theorem copyBurst (cl : Nat) : Statement (.copyBurst cl) := fun _ h => absurd rfl h

theorem copyStopMsgEnter (cl : Nat) : Statement (.copyStopMsgEnter cl) := fun _ h => absurd rfl h

theorem homePutLine (r : Req) : Statement (.homePutLine r) := fun _ h => absurd rfl h

theorem homeAth (r : Req) : Statement (.homeAth r) := fun _ h => absurd rfl h

theorem endingReply (port : Nat) (cmx : Bool) : Statement (.endingReply port cmx) := fun _ h => absurd rfl h

theorem requestAdmission (port : Nat) : Statement (.requestAdmission port) := fun _ h => absurd rfl h

theorem switchForward (stage : Nat) (sw : Nat) (out : Nat) : Statement (.switchForward stage sw out) := fun _ h => absurd rfl h

theorem energyRefill (sock : Nat) : Statement (.energyRefill sock) := fun _ h => absurd rfl h

theorem efcBudgetRefill (sock : Nat) : Statement (.efcBudgetRefill sock) := fun _ h => absurd rfl h

theorem efcTakeRecord (efc : Nat) : Statement (.efcTakeRecord efc) := fun _ h => absurd rfl h

theorem attestSignDone (sock : Nat) : Statement (.attestSignDone sock) := fun _ h => absurd rfl h

theorem farTimeout (sock : Nat) (dest : Nat) : Statement (.farTimeout sock dest) := fun _ h => absurd rfl h

theorem farAckTimer (sock : Nat) : Statement (.farAckTimer sock) := fun _ h => absurd rfl h

theorem reset : Statement (.reset) := fun _ h => absurd rfl h

theorem putLineLanded (cl : Nat) (id : Nat) (bytes : Nat) : Statement (.putLineLanded cl id bytes) := fun _ h => absurd rfl h

theorem homeRdt (r : Req) : Statement (.homeRdt r) := fun _ h => absurd rfl h

theorem homeRdu (r : Req) : Statement (.homeRdu r) := fun _ h => absurd rfl h

theorem homeRdw (r : Req) : Statement (.homeRdw r) := fun _ h => absurd rfl h

theorem homeOwn (r : Req) : Statement (.homeOwn r) := fun _ h => absurd rfl h

theorem homeWrt (r : Req) : Statement (.homeWrt r) := fun _ h => absurd rfl h

theorem homeWrs (r : Req) : Statement (.homeWrs r) := fun _ h => absurd rfl h

theorem homeWrw (r : Req) : Statement (.homeWrw r) := fun _ h => absurd rfl h

theorem homeWb (r : Req) : Statement (.homeWb r) := fun _ h => absurd rfl h

theorem deadLetterAppend (dl : DeadLetter) : Statement (.deadLetterAppend dl) := fun _ h => absurd rfl h

theorem invalidation (cl : Nat) (line : Nat) (w : Nat) : Statement (.invalidation cl line w) := fun _ h => absurd rfl h

theorem recallWord (cl : Nat) (line : Nat) (w : Nat) : Statement (.recallWord cl line w) := fun _ h => absurd rfl h

theorem downgrade (cl : Nat) (line : Nat) (w : Nat) : Statement (.downgrade cl line w) := fun _ h => absurd rfl h

theorem forwardedRead (cl : Nat) (line : Nat) (w : Nat) : Statement (.forwardedRead cl line w) := fun _ h => absurd rfl h

theorem fotsync (sock : Nat) (x : Word) : Statement (.fotsync sock x) := fun _ h => absurd rfl h

theorem tentsync (sock : Nat) (x : Word) : Statement (.tentsync sock x) := fun _ h => absurd rfl h

theorem coreRelease (sock : Nat) (x : Word) : Statement (.coreRelease sock x) := fun _ h => absurd rfl h

theorem attestAppend (sock : Nat) (ty : BitVec 8) : Statement (.attestAppend sock ty) := fun _ h => absurd rfl h

theorem attestSign (sock : Nat) : Statement (.attestSign sock) := fun _ h => absurd rfl h

theorem debugStop (ctx : Nat) : Statement (.debugStop ctx) := fun _ h => absurd rfl h

theorem debugResume (ctx : Nat) : Statement (.debugResume ctx) := fun _ h => absurd rfl h

theorem dbgdataAccess (core : Nat) (wr : Option (BitVec 64)) : Statement (.dbgdataAccess core wr) := fun _ h => absurd rfl h

theorem debugPortAccess (addr : Nat) (sz : BitVec 2) (wr : Option (BitVec 64)) : Statement (.debugPortAccess addr sz wr) := fun _ h => absurd rfl h

theorem linkRetrain (sock : Nat) (port : Nat) (x : Word) : Statement (.linkRetrain sock port x) := fun _ h => absurd rfl h

theorem linkTrained (sock : Nat) (port : Nat) : Statement (.linkTrained sock port) := fun _ h => absurd rfl h

theorem coherentLinkDown (sock : Nat) (port : Nat) : Statement (.coherentLinkDown sock port) := fun _ h => absurd rfl h

theorem farDataReceive (sock : Nat) (port : Nat) (f : Frame) : Statement (.farDataReceive sock port f) := fun _ h => absurd rfl h

theorem farAckReceive (sock : Nat) (port : Nat) (f : Frame) : Statement (.farAckReceive sock port f) := fun _ h => absurd rfl h

theorem farNakReceive (sock : Nat) (port : Nat) (f : Frame) : Statement (.farNakReceive sock port f) := fun _ h => absurd rfl h

theorem farRefuseReceive (sock : Nat) (port : Nat) (f : Frame) : Statement (.farRefuseReceive sock port f) := fun _ h => absurd rfl h

theorem linkLackReceive (sock : Nat) (port : Nat) (f : Frame) : Statement (.linkLackReceive sock port f) := fun _ h => absurd rfl h

theorem linkLnakReceive (sock : Nat) (port : Nat) (f : Frame) : Statement (.linkLnakReceive sock port f) := fun _ h => absurd rfl h

theorem faridWrite (sock : Nat) (x : Word) : Statement (.faridWrite sock x) := fun _ h => absurd rfl h

theorem dmaWrite (sock : Nat) (port : Nat) (addr : Nat) (bytes : List (BitVec 8)) : Statement (.dmaWrite sock port addr bytes) := fun _ h => absurd rfl h

theorem dmaRead (sock : Nat) (port : Nat) (addr : Nat) (n : Nat) : Statement (.dmaRead sock port addr n) := fun _ h => absurd rfl h

theorem hostMemAccess (sock : Nat) (off : Nat) (n : Nat) (wr : Option (List (BitVec 8))) : Statement (.hostMemAccess sock off n wr) := fun _ h => absurd rfl h

theorem powerBudgetSet (sock : Nat) (watts : Nat) : Statement (.powerBudgetSet sock watts) := fun _ h => absurd rfl h

theorem overTemperature (sock : Nat) : Statement (.overTemperature sock) := fun _ h => absurd rfl h

theorem registerWrite (addr : Nat) (x : Word) : Statement (.registerWrite addr x) := fun _ h => absurd rfl h

theorem dispatchCycle (core : Nat) : Statement (.dispatchCycle core) := fun _ h => absurd rfl h

theorem engineCycle (sock : Nat) : Statement (.engineCycle sock) := fun _ h => absurd rfl h

theorem farPortDown (sock : Nat) (port : Nat) : Statement (.farPortDown sock port) := fun _ h => absurd rfl h

theorem hostLinkTrained (sock : Nat) (port : Nat) (width : BitVec 6) : Statement (.hostLinkTrained sock port width) := fun _ h => absurd rfl h

end Sys2Proof.Laws.RoundTrip
end

