-- ==== Sys2Proof/Laws/Run.lean ====
section
/-! SUPPORT. What a Steady predicate survives whole: every instruction and happening but a reset, the fetch of an
instruction, and a step. -/

namespace Sys2Proof.Machine

variable {P : State → Prop}

/-- Every meaning answers a next state, and keeps what is Steady. -/
theorem ends_exec (K : Steady P) (i : Instr) {s : State} (H : P s) (hr : i = .reset → Ends P (execReset s)) : Ends P (exec i s) := by
  cases i
  case add => exact keep_execAdd K H
  case sub => exact keep_execSub K H
  case and => exact keep_execAnd K H
  case or => exact keep_execOr K H
  case xor => exact keep_execXor K H
  case andn => exact keep_execAndn K H
  case orn => exact keep_execOrn K H
  case sll => exact keep_execSll K H
  case srl => exact keep_execSrl K H
  case sra => exact keep_execSra K H
  case rol => exact keep_execRol K H
  case ror => exact keep_execRor K H
  case mul => exact keep_execMul K H
  case mulh => exact keep_execMulh K H
  case mulhn => exact keep_execMulhn K H
  case div => exact keep_execDiv K H
  case divn => exact keep_execDivn K H
  case rem => exact keep_execRem K H
  case remn => exact keep_execRemn K H
  case min => exact keep_execMin K H
  case max => exact keep_execMax K H
  case minn => exact keep_execMinn K H
  case maxn => exact keep_execMaxn K H
  case cset => exact keep_execCset K H
  case sel => exact keep_execSel K H
  case popc => exact keep_execPopc K H
  case clz => exact keep_execClz K H
  case ctz => exact keep_execCtz K H
  case brev => exact keep_execBrev K H
  case fnth => exact keep_execFnth K H
  case addi => exact keep_execAddi K H
  case andi => exact keep_execAndi K H
  case ori => exact keep_execOri K H
  case xori => exact keep_execXori K H
  case csetiEq => exact keep_execCsetiEq K H
  case csetiNe => exact keep_execCsetiNe K H
  case csetiLt => exact keep_execCsetiLt K H
  case csetiLtn => exact keep_execCsetiLtn K H
  case slli => exact keep_execSlli K H
  case srli => exact keep_execSrli K H
  case srai => exact keep_execSrai K H
  case rori => exact keep_execRori K H
  case bext => exact keep_execBext K H
  case bexts => exact keep_execBexts K H
  case bins => exact keep_execBins K H
  case lui => exact keep_execLui K H
  case lpa => exact keep_execLpa K H
  case bCond => exact keep_execBCond K H
  case jl => exact keep_execJl K H
  case jlr => exact keep_execJlr K H
  case ld => exact keep_execLd K H
  case ldx => exact keep_execLdx K H
  case st => exact keep_execSt K H
  case stx => exact keep_execStx K H
  case amoAdd => exact keep_execAmoAdd K H
  case amoAnd => exact keep_execAmoAnd K H
  case amoOr => exact keep_execAmoOr K H
  case amoXor => exact keep_execAmoXor K H
  case amoMin => exact keep_execAmoMin K H
  case amoMax => exact keep_execAmoMax K H
  case amoMinn => exact keep_execAmoMinn K H
  case amoMaxn => exact keep_execAmoMaxn K H
  case amoSwap => exact keep_execAmoSwap K H
  case cas => exact keep_execCas K H
  case fence => exact keep_execFence K H
  case pref => exact keep_execPref K H
  case cwb => exact keep_execCwb K H
  case cinv => exact keep_execCinv K H
  case vadd => exact keep_execVadd K H
  case vsub => exact keep_execVsub K H
  case vmul => exact keep_execVmul K H
  case vmulhI => exact keep_execVmulhI K H
  case vmulhN => exact keep_execVmulhN K H
  case vminI => exact keep_execVminI K H
  case vminN => exact keep_execVminN K H
  case vmaxI => exact keep_execVmaxI K H
  case vmaxN => exact keep_execVmaxN K H
  case vand => exact keep_execVand K H
  case vor => exact keep_execVor K H
  case vxor => exact keep_execVxor K H
  case vandn => exact keep_execVandn K H
  case vsll => exact keep_execVsll K H
  case vsrl => exact keep_execVsrl K H
  case vsra => exact keep_execVsra K H
  case vpopc => exact keep_execVpopc K H
  case vclz => exact keep_execVclz K H
  case vctz => exact keep_execVctz K H
  case vbrev => exact keep_execVbrev K H
  case vfnth => exact keep_execVfnth K H
  case vabs => exact keep_execVabs K H
  case vaddsI => exact keep_execVaddsI K H
  case vaddsN => exact keep_execVaddsN K H
  case vsubsI => exact keep_execVsubsI K H
  case vsubsN => exact keep_execVsubsN K H
  case vsel => exact keep_execVsel K H
  case vcmpEq => exact keep_execVcmpEq K H
  case vcmpNe => exact keep_execVcmpNe K H
  case vcmpLt => exact keep_execVcmpLt K H
  case vcmpGe => exact keep_execVcmpGe K H
  case vcmpLtn => exact keep_execVcmpLtn K H
  case vcmpGen => exact keep_execVcmpGen K H
  case fadd => exact keep_execFadd K H
  case fsub => exact keep_execFsub K H
  case fmul => exact keep_execFmul K H
  case ffma => exact keep_execFfma K H
  case ffms => exact keep_execFfms K H
  case fnma => exact keep_execFnma K H
  case fdiv => exact keep_execFdiv K H
  case fsqrt => exact keep_execFsqrt K H
  case fmin => exact keep_execFmin K H
  case fmax => exact keep_execFmax K H
  case fabs => exact keep_execFabs K H
  case fneg => exact keep_execFneg K H
  case frcp => exact keep_execFrcp K H
  case frsqrt => exact keep_execFrsqrt K H
  case fexp2 => exact keep_execFexp2 K H
  case flog2 => exact keep_execFlog2 K H
  case fround => exact keep_execFround K H
  case fscale => exact keep_execFscale K H
  case fcmpEq => exact keep_execFcmpEq K H
  case fcmpNe => exact keep_execFcmpNe K H
  case fcmpLt => exact keep_execFcmpLt K H
  case fcmpLe => exact keep_execFcmpLe K H
  case fcmpUn => exact keep_execFcmpUn K H
  case vcvt => exact keep_execVcvt K H
  case vred => exact keep_execVred K H
  case vperm => exact keep_execVperm K H
  case vslide => exact keep_execVslide K H
  case vcompress => exact keep_execVcompress K H
  case vexpand => exact keep_execVexpand K H
  case vbcast => exact keep_execVbcast K H
  case vins => exact keep_execVins K H
  case vext => exact keep_execVext K H
  case vld => exact keep_execVld K H
  case vst => exact keep_execVst K H
  case vgather => exact keep_execVgather K H
  case vscatter => exact keep_execVscatter K H
  case pand => exact keep_execPand K H
  case por => exact keep_execPor K H
  case pxor => exact keep_execPxor K H
  case pandn => exact keep_execPandn K H
  case pset => exact keep_execPset K H
  case pget => exact keep_execPget K H
  case pcnt => exact keep_execPcnt K H
  case pfirst => exact keep_execPfirst K H
  case pwhile => exact keep_execPwhile K H
  case cwait => exact keep_execCwait K H
  case ctrrd => exact keep_execCtrrd K H
  case ctrset => exact keep_execCtrset K H
  case erd => exact keep_execErd K H
  case tspawn => exact keep_execTspawn K H
  case tyield => exact keep_execTyield K H
  case tsleep => exact keep_execTsleep K H
  case twake => exact keep_execTwake K H
  case texit => exact keep_execTexit K H
  case tprio => exact keep_execTprio K H
  case svc im => exact keep_execSvc (_im := im) K H
  case brk im => exact keep_execBrk (_im := im) K H
  case sysrd => exact keep_execSysrd K H
  case syswr => exact keep_execSyswr K H
  case ctxrd => exact keep_execCtxrd K H
  case ctxwr => exact keep_execCtxwr K H
  case tret => exact keep_execTret K H
  case tredir => exact keep_execTredir K H
  case tlbiPage => exact keep_execTlbiPage K H
  case tlbiAsn => exact keep_execTlbiAsn K H
  case tlbiAll => exact keep_execTlbiAll K H
  case wfm => exact keep_execWfm K H
  case tload => exact keep_execTload K H
  case tloads => exact keep_execTloads K H
  case tloadV => exact keep_execTloadV K H
  case tstore => exact keep_execTstore K H
  case tstoreAon => exact keep_execTstoreAon K H
  case tstorea => exact keep_execTstorea K H
  case tzero => exact keep_execTzero K H
  case tmma => exact keep_execTmma K H
  case tmmaSp => exact keep_execTmmaSp K H
  case tcvt => exact keep_execTcvt K H
  case tmova => exact keep_execTmova K H
  case tmovt => exact keep_execTmovt K H
  case ttrans t a e h => exact keep_execTtrans (_h := h) K H
  case tadd => exact keep_execTadd K H
  case tscale => exact keep_execTscale K H
  case trel => exact keep_execTrel K H
  case mset => exact keep_execMset K H
  case put => exact keep_execPut K H
  case putV => exact keep_execPutV K H
  case putT => exact keep_execPutT K H
  case copy => exact keep_execCopy K H
  case copyResume => exact keep_execCopyResume K H
  case ehalt => exact keep_execEhalt K.toQuiet H
  case eli => exact keep_execEli K.toQuiet H
  case eadd => exact keep_execEadd K.toQuiet H
  case eaddi => exact keep_execEaddi K.toQuiet H
  case esub => exact keep_execEsub K.toQuiet H
  case eand => exact keep_execEand K.toQuiet H
  case eandi => exact keep_execEandi K.toQuiet H
  case eor => exact keep_execEor K.toQuiet H
  case exor => exact keep_execExor K.toQuiet H
  case eshr => exact keep_execEshr K.toQuiet H
  case eshl => exact keep_execEshl K.toQuiet H
  case emin => exact keep_execEmin K.toQuiet H
  case emax => exact keep_execEmax K.toQuiet H
  case elog2 => exact keep_execElog2 K.toQuiet H
  case eld => exact keep_execEld K.toQuiet H
  case est => exact keep_execEst K.toQuiet H
  case ehinc => exact keep_execEhinc K.toQuiet H
  case ecms => exact keep_execEcms K.toQuiet H
  case esamp => exact keep_execEsamp K.toQuiet H
  case etrig => exact keep_execEtrig K.toPlain H
  case eskip => exact keep_execEskip K.toQuiet H
  case trapRecordEnter => exact keep_execTrapRecordEnter K.toPlain H
  case placement => exact keep_execPlacement K H
  case preemption => exact keep_execPreemption K H
  case quantumExpiry => exact keep_execQuantumExpiry K H
  case pull => exact keep_execPull K H
  case tileBinding => exact keep_execTileBinding K H
  case exitedWrite => exact keep_execExitedWrite K H
  case tenantWindowBoundary => exact keep_execTenantWindowBoundary K H
  case contextTimeUpdate => exact keep_execContextTimeUpdate K H
  case sleepDeadline => exact keep_execSleepDeadline K H
  case sleepOverflowWalk => exact keep_execSleepOverflowWalk K H
  case waitTableRecheck => exact keep_execWaitTableRecheck K H
  case waitOverflowWalk => exact keep_execWaitOverflowWalk K H
  case engineStart => exact keep_execEngineStart K H
  case tileComplete => exact keep_execTileComplete K H
  case tileStoreDrain => exact keep_execTileStoreDrain K H
  case putTPiece => exact keep_execPutTPiece K H
  case storePerform => exact keep_execStorePerform K H
  case putLineSend => exact keep_execPutLineSend K.toPlain H
  case copyTakeUp => exact keep_execCopyTakeUp K H
  case copyBurst => exact keep_execCopyBurst K H
  case copyStopMsgEnter => exact keep_execCopyStopMsgEnter K.toPlain H
  case homePutLine => exact keep_execHomePutLine K.toPlain H
  case homeAth => exact keep_execHomeAth K.toPlain H
  case endingReply => exact keep_execEndingReply K.toPlain H
  case requestAdmission => exact keep_execRequestAdmission K.toPlain H
  case switchForward => exact keep_execSwitchForward K.toPlain H
  case energyRefill => exact keep_execEnergyRefill K.toQuiet H
  case efcBudgetRefill => exact keep_execEfcBudgetRefill K.toPlain H
  case efcTakeRecord => exact keep_execEfcTakeRecord K.toQuiet H
  case attestSignDone => exact keep_execAttestSignDone K.toFar H
  case farTimeout => exact keep_execFarTimeout K.toPlain H
  case farAckTimer => exact keep_execFarAckTimer K.toFar H
  case reset => exact hr rfl
  case putLineLanded => exact keep_execPutLineLanded K.toPlain H
  case homeRdt => exact keep_execHomeRdt K.toPlain H
  case homeRdu => exact keep_execHomeRdu K.toPlain H
  case homeRdw => exact keep_execHomeRdw K.toPlain H
  case homeOwn => exact keep_execHomeOwn K.toPlain H
  case homeWrt => exact keep_execHomeWrt K.toPlain H
  case homeWrs => exact keep_execHomeWrs K.toPlain H
  case homeWrw => exact keep_execHomeWrw K.toPlain H
  case homeWb => exact keep_execHomeWb K.toPlain H
  case deadLetterAppend => exact keep_execDeadLetterAppend K.toPlain H
  case invalidation => exact keep_execInvalidation K.toPlain H
  case recallWord => exact keep_execRecall K.toPlain H
  case downgrade => exact keep_execDowngrade K.toPlain H
  case forwardedRead => exact keep_execForwardedRead K.toPlain H
  case fotsync => exact keep_execFotsync K.toPlain H
  case tentsync => exact keep_execTentsync K.toFar H
  case coreRelease => exact keep_execCoreRelease K H
  case attestAppend => exact keep_execAttestAppend K.toFar H
  case attestSign => exact keep_execAttestSign K.toFar H
  case debugStop => exact keep_execDebugStop K H
  case debugResume => exact keep_execDebugResume K H
  case dbgdataAccess => exact keep_execDbgdataAccess K H
  case debugPortAccess => exact keep_execDebugPortAccess K H
  case linkRetrain => exact keep_execLinkRetrain K.toFar H
  case linkTrained => exact keep_execLinkTrained K.toFar H
  case coherentLinkDown => exact keep_execCoherentLinkDown K.toFar H
  case farDataReceive => exact keep_execFarDataReceive K.toFar H
  case farAckReceive => exact keep_execFarAckReceive K.toFar H
  case farNakReceive => exact keep_execFarNakReceive K.toFar H
  case farRefuseReceive => exact keep_execFarRefuseReceive K.toFar H
  case linkLackReceive => exact keep_execLinkLackReceive K.toFar H
  case linkLnakReceive => exact keep_execLinkLnakReceive K.toPlain H
  case faridWrite => exact keep_execFaridWrite K.toFar H
  case dmaWrite => exact keep_execDmaWrite K.toPlain H
  case dmaRead => exact keep_execDmaRead K H
  case hostMemAccess => exact keep_execHostMemAccess K H
  case powerBudgetSet => exact keep_execPowerBudgetSet K.toFar H
  case overTemperature => exact keep_execOverTemperature K.toFar H
  case registerWrite => exact keep_execRegisterWrite K H
  case dispatchCycle => exact keep_execDispatchCycle K H
  case engineCycle => exact keep_execEngineCycle K.toQuiet H
  case farPortDown => exact keep_execFarPortDown K.toFar H
  case hostLinkTrained => exact keep_execHostLinkTrained K.toFar H

theorem keep_fetchWord (K : Steady P) {s : State} {va : Word} (H : P s) : Holds P (fetchWord va) s := by
  unfold fetchWord
  repeat' first
    | with_reducible assumption
    | with_reducible refine holds_get_bind ?_
    | with_reducible refine holds_set_bind ?_
    | with_reducible refine holds_bind (keep_xlate K.toPlain ?_) (fun a t H => ?_)
    | with_reducible refine holds_bind (keep_devCheck K.toQuiet ?_) (fun a t H => ?_)
    | with_reducible refine holds_bind ?_ (fun a t H => ?_)
    | with_reducible refine holds_liftAt ?_
    | with_reducible refine keep_readBytes K.toPlain ?_
    | with_reducible refine keep_devRead K.toQuiet ?_
    | with_reducible refine keep_devRead_eq K.toQuiet ?_ (by assumption)
    | with_reducible refine keep_visit K.toPlain ?_
    | with_reducible refine holds_pure _ ?_
    | dsimp only
    | split

theorem holds_markWord1 {α : Type} {m : Act α} {s : State} (h : Holds P m s) : Holds P (markWord1 m) s := by
  unfold Holds markWord1
  cases e : m s with
  | ok a t => exact h.ok e
  | error a t => cases a <;> exact h.error e

theorem keep_fetchWords (K : Steady P) {s : State} (H : P s) : Holds P fetchWords s := by
  unfold fetchWords
  repeat' first
    | with_reducible assumption
    | with_reducible refine holds_modify_bind ?_
    | with_reducible refine holds_get_bind ?_
    | with_reducible refine holds_bind (keep_fetchWord K ?_) (fun a t H => ?_)
    | with_reducible refine holds_bind (holds_markWord1 (keep_fetchWord K ?_)) (fun a t H => ?_)
    | with_reducible refine holds_modify ?_
    | with_reducible refine holds_pure _ ?_
    | with_reducible refine K.own _ _ _ _ _ _ _ _ _ _ _ ?_
    | split

/-- What a turn reaches keeps what is Steady. -/
def Reaches (P : State → Prop) (n : Except State (Instr × State)) : Prop :=
  (∀ p, n = .ok p → P p.2) ∧ ∀ t, n = .error t → P t

theorem reaches_ok {i : Instr} {t : State} (h : P t) : Reaches P (.ok (i, t)) :=
  ⟨fun _ e => by cases e; exact h, fun _ e => by cases e⟩

theorem reaches_error {t : State} (h : P t) : Reaches P (.error t) :=
  ⟨fun _ e => (by cases e), fun _ e => by cases e; exact h⟩

theorem keep_decoded (K : Steady P) {s : State} (H : P s) : Reaches P s.decoded := by
  unfold State.decoded
  split
  · exact reaches_ok H
  · exact reaches_error (keep_takeTrap K H)

theorem keep_nextInstr (K : Steady P) {s : State} (H : P s) : Reaches P s.nextInstr := by
  unfold State.nextInstr
  split
  · exact reaches_error (keep_bootRom K H)
  · have h := keep_fetchWords K H
    split
    · next e => exact keep_decoded K (h.ok e)
    · next e => exact reaches_error (keep_takeTrap K (keep_restoreMe K (h.error e) H))
    · next e => exact reaches_error (h.error e)

theorem keep_retried (K : Steady P) {s : State} {c : Nat} (H : P s) : Reaches P (s.retried c) :=
  keep_decoded K (K.own _ _ _ _ _ _ _ _ _ _ _ H)

theorem keep_efcWord (K : Quiet P) {s t : State} {e : Nat} {w : BitVec 32} (H : P s) (h : s.efcWord e = some (w, t)) : P t := by
  unfold State.efcWord at h
  dsimp only at h
  repeat' split at h
  all_goals first
    | cases h; done
    | (cases h; exact H)
    | (cases h; exact keep_draw K H)

theorem keep_nextEfc (K : Steady P) {s : State} {e : Nat} (H : P s) : Reaches P (s.nextEfc e) := by
  unfold State.nextEfc
  split
  · exact reaches_error (K.own _ _ _ _ _ _ _ _ _ _ _ H)
  · next h =>
    have h' := keep_efcWord K.toQuiet H h
    split
    · exact reaches_ok (K.own _ _ _ _ _ _ _ _ _ _ _ h')
    · exact reaches_error (keep_efcIllegal K.toQuiet (K.own _ _ _ _ _ _ _ _ _ _ _ h'))

theorem keep_pick (K : Steady P) {s : State} {n : Nat} (H : P s) : P (s.pick n).2 := by
  unfold State.pick State.draw
  split
  · exact H
  · exact K.records _ _ _ _ _ H

theorem keep_beginTurn (K : Steady P) {s : State} (H : P s) : P s.beginTurn := by
  unfold State.beginTurn
  exact keep_dispatchCycle K (keep_settle K (keep_pick K H))

theorem ends_turn (K : Steady P) (hn : ∀ n, Reaches P n → Ends P (runNext n)) {s : State} (H : P s) : Ends P (turn s) := by
  unfold turn
  have h1 := keep_beginTurn K H
  have h2 := keep_nextInstr K h1
  generalize s.beginTurn = u at *
  by_cases hs : s.readyCores.isEmpty = true
  · rw [if_pos hs]; exact ends_next h1
  · rw [if_neg hs]; generalize u.nextInstr = n at *; exact hn n h2

/-- What is accounted for beside an outcome keeps what is Steady. -/
theorem ends_accountFor (K : Steady P) {s : State} {r : Host.Outcome State Fault Refusal} (h : Ends P r) :
    Ends P (accountFor s r) := by
  obtain ⟨t, rfl, H⟩ := h
  exact ends_next (keep_reassert K.toPlain (keep_accounted K H))

/-- An act answers a next state, and keeps what is Steady and what a reset keeps. -/
theorem ends_act (K : Steady P) (hr : ∀ s, P s → Ends P (execReset s)) {s : State} (H : P s) : Ends P (act s) := by
  have hx : ∀ i {u : State}, P u → Ends P (exec i u) := fun i u hu => ends_exec K i hu (fun _ => hr u hu)
  have hn : ∀ n, Reaches P n → Ends P (runNext n) := by
    intro n h
    cases n with
    | ok p => exact hx _ (keep_speculate K (h.1 p rfl))
    | error t => exact ends_next (h.2 t rfl)
  unfold act
  split
  · exact hx _ (K.own _ _ _ _ _ _ _ _ _ _ _ H)
  · have h : P (s.pick s.choices).2 := keep_pick K H
    dsimp only
    split
    · next e _ =>
      cases e with
      | event i => exact hx _ h
      | efc e => exact hn _ (keep_nextEfc K h)
      | again c => exact hn _ (keep_retried K h)
    · exact ends_turn K hn h

/-- A step that is not a fault answers a next state, and keeps what is Steady and what a reset keeps. -/
theorem ends_step (K : Steady P) (hr : ∀ s, P s → Ends P (execReset s)) {s : State} (H : P s) (hd : s.down = false) :
    Ends P (step s) := by
  unfold step
  simp only [hd, Bool.false_eq_true, if_false]
  exact ends_accountFor K (ends_act K hr H)

end Sys2Proof.Machine
end

