-- ==== Sys2Proof/Laws/Scalar.lean ====
section
/-! SUPPORT. The scalar functions on natural numbers are the operations on bit vectors: one lemma per function, and what
class 1 instructions therefore answer. -/

namespace Sys2Proof.Machine

theorem signed_toNat {n : Nat} (x : BitVec n) : signed n x.toNat = x.toInt := by
  rw [signed, BitVec.toInt]; push_cast; rfl

theorem signFrom_eq (n r : Nat) : signFrom n r = (BitVec.ofNat n r).signExtend 64 := by
  rw [signFrom, ← BitVec.toNat_ofNat, signed_toNat, BitVec.signExtend]

theorem ofInt_signed (n x : Nat) (h : x < 2 ^ n): BitVec.ofInt n (signed n x) = BitVec.ofNat n x := by
  have := signed_toNat (BitVec.ofNat n x)
  rw [BitVec.toNat_ofNat, Nat.mod_eq_of_lt h] at this
  rw [this, BitVec.ofInt_toInt]

theorem ofNat_wrap (n : Nat) (x : Int) : BitVec.ofNat n (wrap n x) = BitVec.ofInt n x := by
  apply BitVec.eq_of_toNat_eq
  simp only [wrap, BitVec.toNat_ofNat, BitVec.toNat_ofInt]
  have h : 0 < (2 ^ n : Nat) := by positivity
  generalize (2 ^ n : Nat) = m at h
  rw [Nat.mod_eq_of_lt]
  have := Int.emod_nonneg x (show (m : Int) ≠ 0 by omega)
  have := Int.emod_lt_of_pos x (show (0 : Int) < m by omega)
  omega

theorem low64 (x : Word) : low 64 x = x.toNat := Nat.mod_eq_of_lt x.isLt

theorem low32 (x : Word) : low 32 x = (x.setWidth 32).toNat := by simp [low]

theorem alu2_yields {mk : Reg → Reg → Reg → Bool → Instr} {f : Nat → Nat → Nat → Nat}
    {g : (n : Nat) → BitVec n → BitVec n → BitVec n} (e : ∀ d a b w s, exec (mk d a b w) s = alu2 f d a b w s)
    (h : ∀ n (x y : BitVec n), n = 64 ∨ n = 32 → BitVec.ofNat n (f n x.toNat y.toNat) = g n x y) : Alu mk g := by
  intro d a b
  constructor
  · intro s c
    rw [e, alu2, commit_clear c]
    simp only [widthOf, Bool.false_eq_true, if_false, low64, signFrom_eq, h _ _ _ (.inl rfl)]
    simp [State.wrote]
  · intro s c
    rw [e, alu2, commit_clear c]
    simp only [widthOf, if_true, low32, signFrom_eq, h _ _ _ (.inr rfl)]
    simp [State.wrote]

theorem alu1_yields {mk : Reg → Reg → Bool → Instr} {f : Nat → Nat → Nat}
    {g : (n : Nat) → BitVec n → BitVec n} (e : ∀ d a w s, exec (mk d a w) s = alu1 f d a w s)
    (h : ∀ n (x : BitVec n), n = 64 ∨ n = 32 → BitVec.ofNat n (f n x.toNat) = g n x) : Alu1 mk g := by
  intro d a
  constructor
  · intro s c
    rw [e, alu1, commit_clear c]
    simp only [widthOf, Bool.false_eq_true, if_false, low64, signFrom_eq, h _ _ (.inl rfl)]
    simp [State.wrote]
  · intro s c
    rw [e, alu1, commit_clear c]
    simp only [widthOf, if_true, low32, signFrom_eq, h _ _ (.inr rfl)]
    simp [State.wrote]

section
variable (n : Nat) (x y : BitVec n)

theorem fAdd_eq : BitVec.ofNat n (fAdd n x.toNat y.toNat) = x + y := by simp [fAdd, BitVec.ofNat_add]

theorem fSub_eq : BitVec.ofNat n (fSub n x.toNat y.toNat) = x - y := by
  apply BitVec.eq_of_toNat_eq; simp only [fSub, BitVec.toNat_ofNat, BitVec.toNat_sub]; congr 1; omega

theorem fMul_eq : BitVec.ofNat n (fMul n x.toNat y.toNat) = x * y := by simp [fMul, BitVec.ofNat_mul]

theorem fMulh_eq : BitVec.ofNat n (fMulh n x.toNat y.toNat) = BitVec.ofInt n (x.toInt * y.toInt / 2 ^ n) := by
  simp only [fMulh, ofNat_wrap, signed_toNat]
  rw [Int.fdiv_eq_ediv_of_nonneg _ (by positivity)]; simp

theorem fMulhn_eq : BitVec.ofNat n (fMulhn n x.toNat y.toNat) = BitVec.ofNat n (x.toNat * y.toNat / 2 ^ n) := rfl

theorem fAnd_eq : BitVec.ofNat n (fAnd n x.toNat y.toNat) = x &&& y := by apply BitVec.eq_of_toNat_eq; simp [fAnd, ← BitVec.toNat_and]

theorem fOr_eq : BitVec.ofNat n (fOr n x.toNat y.toNat) = x ||| y := by apply BitVec.eq_of_toNat_eq; simp [fOr, ← BitVec.toNat_or]

theorem fXor_eq : BitVec.ofNat n (fXor n x.toNat y.toNat) = x ^^^ y := by apply BitVec.eq_of_toNat_eq; simp [fXor, ← BitVec.toNat_xor]

theorem fAndn_eq : BitVec.ofNat n (fAndn n x.toNat y.toNat) = x &&& ~~~ y := by
  apply BitVec.eq_of_toNat_eq; simp only [fAndn, ← BitVec.toNat_not, ← BitVec.toNat_and, BitVec.ofNat_toNat, BitVec.setWidth_eq]

theorem fOrn_eq : BitVec.ofNat n (fOrn n x.toNat y.toNat) = x ||| ~~~ y := by
  apply BitVec.eq_of_toNat_eq; simp only [fOrn, ← BitVec.toNat_not, ← BitVec.toNat_or, BitVec.ofNat_toNat, BitVec.setWidth_eq]

theorem fSll_eq (k : Nat) : BitVec.ofNat n (fSll n x.toNat k) = x <<< (k % n) := by
  apply BitVec.eq_of_toNat_eq; simp [fSll, Nat.shiftLeft_eq]

theorem fSrl_eq (k : Nat) : BitVec.ofNat n (fSrl n x.toNat k) = x >>> (k % n) := by
  apply BitVec.eq_of_toNat_eq
  simp only [fSrl, BitVec.toNat_ofNat, BitVec.toNat_ushiftRight, Nat.shiftRight_eq_div_pow]
  exact Nat.mod_eq_of_lt (Nat.lt_of_le_of_lt (Nat.div_le_self _ _) x.isLt)

theorem fSra_eq (k : Nat) : BitVec.ofNat n (fSra n x.toNat k) = x.sshiftRight (k % n) := by
  simp only [fSra, ofNat_wrap, signed_toNat, BitVec.sshiftRight]
  rw [Int.fdiv_eq_ediv_of_nonneg _ (by positivity), Int.shiftRight_eq_div_pow]

theorem toNat_eq_zero : x.toNat = 0 ↔ x = 0 := by rw [← BitVec.toNat_inj]; simp

theorem ones_eq : BitVec.ofNat n (2 ^ n - 1) = BitVec.allOnes n := by apply BitVec.eq_of_toNat_eq; simp

theorem fDiv_eq : BitVec.ofNat n (fDiv n x.toNat y.toNat) = if y = 0 then BitVec.allOnes n else x.sdiv y := by
  simp only [fDiv, divRem, toNat_eq_zero]
  split
  · exact ones_eq n
  · simp only [if_true, ofNat_wrap, signed_toNat]
    apply BitVec.eq_of_toInt_eq
    rw [BitVec.toInt_ofInt, BitVec.toInt_sdiv]

theorem fRem_eq : BitVec.ofNat n (fRem n x.toNat y.toNat) = if y = 0 then x else x.srem y := by
  simp only [fRem, divRem, toNat_eq_zero]
  split
  · simp
  · simp only [if_true, ofNat_wrap, signed_toNat]
    rw [Int.mul_comm, ← Int.tmod_def, ← BitVec.toInt_srem, BitVec.ofInt_toInt]

theorem fDivn_eq : BitVec.ofNat n (fDivn n x.toNat y.toNat) = if y = 0 then BitVec.allOnes n else x / y := by
  simp only [fDivn, divRem, toNat_eq_zero]
  split
  · exact ones_eq n
  · apply BitVec.eq_of_toNat_eq
    simp only [Bool.false_eq_true, if_false, BitVec.toNat_ofNat, BitVec.toNat_udiv]
    exact Nat.mod_eq_of_lt (Nat.lt_of_le_of_lt (Nat.div_le_self _ _) x.isLt)

theorem fRemn_eq : BitVec.ofNat n (fRemn n x.toNat y.toNat) = if y = 0 then x else x % y := by
  simp only [fRemn, divRem, toNat_eq_zero]
  split
  · simp
  · apply BitVec.eq_of_toNat_eq
    simp only [Bool.false_eq_true, if_false, BitVec.toNat_ofNat, BitVec.toNat_umod]
    exact Nat.mod_eq_of_lt (Nat.lt_of_le_of_lt (Nat.mod_le _ _) x.isLt)

theorem fMin_eq : BitVec.ofNat n (fMin n x.toNat y.toNat) = if y.slt x then y else x := by
  simp only [fMin, signed_toNat, BitVec.slt, decide_eq_true_eq]; split <;> simp

theorem fMax_eq : BitVec.ofNat n (fMax n x.toNat y.toNat) = if x.slt y then y else x := by
  simp only [fMax, signed_toNat, BitVec.slt, decide_eq_true_eq]; split <;> simp

theorem fMinn_eq : BitVec.ofNat n (fMinn n x.toNat y.toNat) = if y.ult x then y else x := by
  simp only [fMinn, BitVec.ult, decide_eq_true_eq]; split <;> simp

theorem fMaxn_eq : BitVec.ofNat n (fMaxn n x.toNat y.toNat) = if x.ult y then y else x := by
  simp only [fMaxn, BitVec.ult, decide_eq_true_eq]; split <;> simp

theorem rotl_eq (j : Nat) (hj : j ≤ n) : BitVec.ofNat n (rotl n x.toNat j) = x <<< j ||| x >>> (n - j) := by
  apply BitVec.eq_of_toNat_eq
  simp only [rotl, BitVec.toNat_ofNat, BitVec.toNat_or, BitVec.toNat_shiftLeft, BitVec.toNat_ushiftRight, Nat.shiftLeft_eq,
    Nat.shiftRight_eq_div_pow, Nat.mod_mod]
  have hx : x.toNat / 2 ^ (n - j) < 2 ^ j := by
    rw [Nat.div_lt_iff_lt_mul (by positivity), ← Nat.pow_add, Nat.add_sub_cancel' hj]
    exact x.isLt
  have hm : x.toNat * 2 ^ j % 2 ^ n = x.toNat % 2 ^ (n - j) * 2 ^ j := by
    generalize x.toNat = a
    conv_lhs => rw [← Nat.sub_add_cancel hj, Nat.pow_add]
    rw [Nat.mul_mod_mul_right]
  rw [Nat.add_mod, hm, Nat.mod_eq_of_lt (Nat.lt_of_lt_of_le hx (Nat.pow_le_pow_right (by decide) hj)), ← Nat.shiftLeft_eq,
    ← Nat.shiftLeft_add_eq_or_of_lt hx]
  apply Nat.mod_eq_of_lt
  rw [Nat.shiftLeft_eq]
  have hy : x.toNat % 2 ^ (n - j) < 2 ^ (n - j) := Nat.mod_lt _ (by positivity)
  calc _ < x.toNat % 2 ^ (n - j) * 2 ^ j + 2 ^ j := by omega
    _ = (x.toNat % 2 ^ (n - j) + 1) * 2 ^ j := by ring
    _ ≤ 2 ^ (n - j) * 2 ^ j := Nat.mul_le_mul_right _ hy
    _ = 2 ^ n := by rw [← Nat.pow_add, Nat.sub_add_cancel hj]

theorem fRol_eq (hn : 0 < n) (k : Nat) : BitVec.ofNat n (fRol n x.toNat k) = x.rotateLeft k := by
  rw [fRol, rotl_eq _ _ _ (Nat.mod_lt _ hn).le, BitVec.rotateLeft, BitVec.rotateLeftAux]

theorem fRor_eq (hn : 0 < n) (k : Nat) : BitVec.ofNat n (fRor n x.toNat k) = x.rotateRight k := by
  rw [fRor, rotl_eq _ _ _ (Nat.sub_le _ _), BitVec.rotateRight, BitVec.rotateRightAux, BitVec.or_comm,
    Nat.sub_sub_self (Nat.mod_lt _ hn).le]

theorem popBits_eq (n : Nat) : ∀ x, popBits x n = (List.range n).countP (fun i => x.testBit i) := by
  induction n with
  | zero => intro x; rfl
  | succ n ih =>
    intro x
    rw [popBits, ih, List.range_succ_eq_map, List.countP_cons, List.countP_map, Nat.add_comm]
    congr 1
    · simp [Function.comp_def, Nat.testBit_succ]
    · rw [Nat.testBit_zero]
      rcases Nat.mod_two_eq_zero_or_one x with h | h <;> simp [h]

theorem fPopc_eq : fPopc n x.toNat = (List.range n).countP (fun i => x.getLsbD i) := popBits_eq n _

theorem ctzOf_eq (n : Nat) : ∀ x, ctzOf n x = ((List.range n).find? (fun i => x.testBit i)).getD n := by
  induction n with
  | zero => intro x; rfl
  | succ n ih =>
    intro x
    rw [ctzOf, ih, List.range_succ_eq_map, List.find?_cons, Nat.testBit_zero, List.find?_map]
    rcases Nat.mod_two_eq_zero_or_one x with h | h
    · simp only [h, Function.comp_def, Nat.succ_eq_add_one, Nat.testBit_succ]
      cases (List.range n).find? (fun i => (x / 2).testBit i) <;> simp [Nat.add_comm]
    · simp [h]

theorem fCtz_eq : fCtz n x.toNat = ((List.range n).find? (fun i => x.getLsbD i)).getD n := ctzOf_eq n _

theorem fClz_eq : fClz n x.toNat = ((List.range n).find? (fun i => x.getLsbD (n - 1 - i))).getD n := by
  rw [fClz, clzOf]
  split
  · next h =>
    have : x = 0#n := by apply BitVec.eq_of_toNat_eq; simpa using h
    subst this
    rw [List.find?_eq_none.2 (by simp)]; rfl
  · next h =>
    have hl : Nat.log2 x.toNat < n := (Nat.log2_lt h).2 x.isLt
    have : (List.range n).find? (fun i => x.getLsbD (n - 1 - i)) = some (n - 1 - Nat.log2 x.toNat) := by
      rw [List.find?_range_eq_some]
      refine ⟨?_, by simp; omega, fun j hj => ?_⟩
      · rw [show n - 1 - (n - 1 - Nat.log2 x.toNat) = Nat.log2 x.toNat by omega]
        exact Nat.testBit_log2 h
      · have : x.toNat < 2 ^ (n - 1 - j) := Nat.lt_of_lt_of_le Nat.lt_log2_self (Nat.pow_le_pow_right (by decide) (by omega))
        simp [BitVec.getLsbD, Nat.testBit_lt_two_pow this]
    rw [this]; rfl

theorem brevOf_lt (n : Nat) : ∀ x, brevOf n x < 2 ^ n := by
  induction n with
  | zero => intro x; simp [brevOf]
  | succ n ih =>
    intro x
    have := ih (x / 2)
    rcases Nat.mod_two_eq_zero_or_one x with h | h <;> simp only [brevOf, h, Nat.pow_succ] <;> omega

theorem testBit_brevOf (n : Nat) : ∀ x i, (brevOf n x).testBit i = (decide (i < n) && x.testBit (n - 1 - i)) := by
  induction n with
  | zero => intro x i; simp [brevOf]
  | succ n ih =>
    intro x i
    rw [brevOf, Nat.mul_comm, Nat.testBit_two_pow_mul_add _ (brevOf_lt n _), ih]
    split
    · next h =>
      rw [show n + 1 - 1 - i = (n - 1 - i) + 1 by omega, Nat.testBit_succ]
      simp [h, Nat.lt_succ_of_lt h]
    · next h =>
      rcases Nat.lt_or_ge n i with g | g
      · rw [Nat.testBit_lt_two_pow (i := i - n)]
        · simp; omega
        · exact Nat.lt_of_lt_of_le (Nat.mod_lt _ (by decide)) (by
            calc 2 = 2 ^ 1 := rfl
              _ ≤ 2 ^ (i - n) := Nat.pow_le_pow_right (by decide) (by omega))
      · have : i = n := by omega
        subst this
        simp [Nat.testBit_zero]

theorem fBrev_eq : BitVec.ofNat n (fBrev n x.toNat) = x.reverse := by
  apply BitVec.eq_of_getLsbD_eq
  intro i hi
  rw [BitVec.getLsbD_ofNat, fBrev, testBit_brevOf, BitVec.getLsbD_reverse, BitVec.getMsbD]
  simp [hi, BitVec.getLsbD]

theorem fnthOf_eq (n : Nat) : ∀ i x k, fnthOf n i x k = i + ((List.range n).filter (fun j => x.testBit j)).getD k n := by
  induction n with
  | zero => intro i x k; simp [fnthOf]
  | succ n ih =>
    intro i x k
    rw [fnthOf, List.range_succ_eq_map, List.filter_cons, Nat.testBit_zero, List.filter_map, ih, ih]
    rcases Nat.mod_two_eq_zero_or_one x with h | h
    · simp only [h, if_true, Function.comp_def, Nat.succ_eq_add_one, Nat.testBit_succ]
      simp only [List.getD_eq_getElem?_getD, Nat.zero_ne_one, decide_false, Bool.false_eq_true, if_false, List.getElem?_map]
      cases ((List.range n).filter (fun j => (x / 2).testBit j))[k]? <;> simp <;> omega
    · simp only [h, Function.comp_def, Nat.succ_eq_add_one, Nat.testBit_succ]
      cases k with
      | zero => simp
      | succ k =>
        simp only [List.getD_eq_getElem?_getD]
        simp
        cases ((List.range n).filter (fun j => (x / 2).testBit j))[k]? <;> simp <;> omega

theorem fnth_eq (k : Nat) : fnthOf n 0 x.toNat k = ((List.range n).filter (fun i => x.getLsbD i)).getD k n := by
  rw [fnthOf_eq, Nat.zero_add]; rfl

end

end Sys2Proof.Machine
end

