-- ==== Sys2Proof/Laws/Traps.lean ====
section
/-! SUPPORT. Parking and taking a trap: what they leave alone, the record in the queue, and what a breakpoint does in an
instruction's place. -/

namespace Sys2Proof.Machine

theorem hit_commit {i : Instr} {s t : State} {pc : Word} (b : s.breakHit s.cur = true) (e : exec i s = commitTo s t pc) :
    exec i s = .next ((s.trace 1 s.cur s.pc 0 0).takeBreak s.cur (Trap.of .breakpoint s.pc 0) s.ir0 s.ir1) := by
  rw [e]; simp only [commitTo, State.matched, State.matchOf, b, if_true]; rfl

theorem ctx_squash (s : State) (c d : Nat) : (s.squash c).ctx d = s.ctx d := by unfold State.squash; dsimp only; split <;> split <;> rfl

theorem core_squash (s : State) (c d : Nat) : (s.squash c).core d = s.core d := by unfold State.squash; dsimp only; split <;> split <;> rfl

/-- The context's own part of a park. -/
def parkBase (s : State) (c : Nat) (r : Reason) : State :=
  (s.squash c).modCtx c (fun x => { x with life := .parked r, stall := .none, attempt := 0, inwfm := false, held := none })

theorem apart_park (s : State) (c : Nat) (r : Reason) (k : Nat) : Apart (parkBase s c r) (s.park c r k) := by
  unfold State.park parkBase
  dsimp only
  split
  · exact Apart.refl _
  · refine keep_dispatchEvent (plain_apart _).toQuiet ?_
    split
    · exact Apart.refl _
    · exact keep_setTstate (plain_apart _) (Apart.refl _)

/-- A trap record of a context stands in its core's queue, or waits for room there (R261). -/
def InQueue (s : State) (k c : Nat) (m : Quad) : Prop := m ∈ (s.core k).mq ∨ (c, m) ∈ (s.core k).slots

theorem inQueue_refill {k c : Nat} {m : Quad} (n : Nat) : ∀ s, InQueue s k c m → InQueue (refill k n s) k c m := by
  induction n with
  | zero => intro s h; exact h
  | succ n ih =>
    intro s h
    unfold refill
    dsimp only
    split
    · exact h
    · split
      · next j mm rest hs =>
        apply ih
        unfold InQueue at *
        rw [core_modCore_same]
        simp only [List.mem_append, List.mem_singleton]
        rcases h with h | h
        · exact .inl (.inl h)
        · rw [hs, List.mem_cons] at h
          rcases h with h | h
          · cases h; exact .inl (.inr rfl)
          · exact .inr h
      · split
        · apply ih
          unfold InQueue at *
          simp only [core_modCluster, core_modCore_same, List.mem_append]
          rcases h with h | h
          · exact .inl (.inl h)
          · exact .inr h
        · exact h

theorem mem_insertSlot (c : Nat) (m : Quad) (l : List (Nat × Quad)) : (c, m) ∈ insertSlot c m l := by
  induction l with
  | nil => simp [insertSlot]
  | cons e l ih =>
    unfold insertSlot
    split
    · simp
    · exact List.mem_cons_of_mem _ ih

theorem inQueue_enterTrap (s : State) (k c : Nat) (m : Quad) : InQueue (s.enterTrap k c m) k c m := by
  unfold State.enterTrap State.wakeX7
  show InQueue (refill k 16 _) k c m
  apply inQueue_refill
  right
  rw [core_modCore_same]
  exact mem_insertSlot c m _

theorem takeTrap_user {s : State} {c : Nat} (h : isX7 c = false) (tr : Trap) (w0 w1 : BitVec 32) :
    s.takeTrap c tr w0 w1 = ((s.modCtx c (fun x => { x.trapRegs tr w0 w1 with stall := .none, attempt := 0 })).park c
      tr.cause.reason tr.cause.code).enterTrap (coreOf c) c (trapRecord c (s.ctx c) tr) := by
  unfold State.takeTrap; simp [h]

theorem takeTrap_x7 {s : State} {c : Nat} (h : isX7 c = true) (tr : Trap) (w0 w1 : BitVec 32) :
    s.takeTrap c tr w0 w1 = (let u := s.modCtx c (fun x => { x.trapRegs tr w0 w1 with stall := .none, attempt := 0 })
      let k := s.core (coreOf c)
      if k.nest then u.park c .stop 0
      else ((u.squash c).modCore (coreOf c) (fun k => { k with svepc := (s.ctx c).pc, nest := true })).modCtx c (fun y => { y with pc := pcOf k.svec })) := by
  unfold State.takeTrap; exact if_pos h

theorem park_x7 {s : State} {c : Nat} (h : isX7 c = true) (r : Reason) (k : Nat) : s.park c r k = parkBase s c r := by
  unfold State.park parkBase; simp [h]

end Sys2Proof.Machine
end

