-- ==== Sys2Proof/Laws/Vector.lean ====
section
/-! SUPPORT. Lanes: what packing reads back, and the lane loops of vector and predicate destinations. -/

namespace Sys2Proof.Machine

/-- Lane i as a number. -/
theorem lane_eq (w : Nat) (v : Vec) (i : Nat) : lane w v i = (laneAt (8 * w) v i).toNat := by
  rw [laneAt, BitVec.extractLsb'_toNat, Nat.shiftRight_eq_div_pow]; rfl

theorem packNat_lt (w : Nat) : ∀ l : List Nat, packNat w l < 2 ^ (8 * w * l.length) := by
  intro l
  induction l with
  | nil => simp [packNat]
  | cons x l ih =>
    have h1 : x % 2 ^ (8 * w) < 2 ^ (8 * w) := Nat.mod_lt _ (by positivity)
    have h2 : (2 : Nat) ^ (8 * w * (l.length + 1)) = 2 ^ (8 * w) * 2 ^ (8 * w * l.length) := by rw [← Nat.pow_add]; ring_nf
    rw [packNat, List.length_cons, h2]
    calc _ < 2 ^ (8 * w) + 2 ^ (8 * w) * packNat w l := by omega
      _ = 2 ^ (8 * w) * (packNat w l + 1) := by ring
      _ ≤ _ := Nat.mul_le_mul_left _ ih

theorem packNat_div (w : Nat) : ∀ (l : List Nat) (i : Nat), packNat w l / 2 ^ (8 * w * i) % 2 ^ (8 * w) = l.getD i 0 % 2 ^ (8 * w) := by
  intro l
  induction l with
  | nil => intro i; simp [packNat]
  | cons x l ih =>
    intro i
    have h1 : x % 2 ^ (8 * w) < 2 ^ (8 * w) := Nat.mod_lt _ (by positivity)
    cases i with
    | zero => simp [packNat]
    | succ i =>
      have h2 : (2 : Nat) ^ (8 * w * (i + 1)) = 2 ^ (8 * w) * 2 ^ (8 * w * i) := by rw [← Nat.pow_add]; ring_nf
      rw [packNat, h2, ← Nat.div_div_eq_div_mul, Nat.add_mul_div_left _ _ (by positivity), Nat.div_eq_of_lt h1, Nat.zero_add, ih]
      simp

/-- A lane of a packed vector. -/
theorem laneAt_pack {w i : Nat} (h : 8 * w * (i + 1) ≤ 512) (l : List Nat) :
    laneAt (8 * w) (packLanes w l) i = BitVec.ofNat (8 * w) (l.getD i 0) := by
  apply BitVec.eq_of_toNat_eq
  rw [← lane_eq, BitVec.toNat_ofNat, ← packNat_div]
  unfold lane packLanes
  rw [BitVec.toNat_ofNat]
  have h1 : 512 = 8 * w * i + (512 - 8 * w * i) := by have : 8 * w * (i + 1) = 8 * w * i + 8 * w := by ring
                                                      omega
  have h2 : 8 * w ≤ 512 - 8 * w * i := by have : 8 * w * (i + 1) = 8 * w * i + 8 * w := by ring
                                          omega
  rw [h1, Nat.pow_add, Nat.mod_mul_right_div_self, Nat.mod_mod_of_dvd _ (Nat.pow_dvd_pow 2 h2)]

/-- A lane width of the spec. -/
def IsWidth (w : Nat) : Prop := w = 1 ∨ w = 2 ∨ w = 4 ∨ w = 8

theorem isWidth_laneBytes (e : BitVec 2) : IsWidth (laneBytes e) := by
  unfold laneBytes IsWidth; revert e; decide

theorem isWidth_floatBytes (e : BitVec 2) : IsWidth (floatBytes e) := by
  unfold floatBytes IsWidth; revert e; decide

theorem width_le {w i : Nat} (h : IsWidth w) (hi : i < 64 / w) : 8 * w * (i + 1) ≤ 512 := by
  rcases h with rfl | rfl | rfl | rfl <;> omega

theorem width_div {w : Nat} (h : IsWidth w) : 512 / (8 * w) = 64 / w ∧ 8 * w / 8 = w := by
  rcases h with rfl | rfl | rfl | rfl <;> decide

/-- The lane loop of a vector destination (R201, R205). -/
theorem fillLanes_are {w : Nat} (hw : IsWidth w) (p : Word) (z : Bool) (o : Vec) (f : Nat → Nat × BitVec 5) :
    LanesAre (8 * w) p z o (fillLanes w p z o f).1 (fun i => BitVec.ofNat (8 * w) (f i).1) := by
  intro i hi
  rw [(width_div hw).1] at hi
  rw [(width_div hw).2]
  unfold fillLanes
  simp only
  rw [laneAt_pack (width_le hw hi), List.map_map, List.getD_eq_getElem?_getD, List.getElem?_map, List.getElem?_range hi]
  simp only [Option.map_some, Option.getD_some, Function.comp_apply]
  have ha : active w p i = p.getLsbD (w * i) := rfl
  cases h : p.getLsbD (w * i) <;> rw [h] at ha
  · cases z <;> simp [ha, lane_eq]
  · simp [ha]

theorem joinFlags_bit (l : List (BitVec 5)) (j : Nat) : (joinFlags l).getLsbD j = true ↔ ∃ x ∈ l, x.getLsbD j = true := by
  unfold joinFlags
  have : ∀ (l : List (BitVec 5)) (a : BitVec 5), (l.foldl (· ||| ·) a).getLsbD j = true ↔ a.getLsbD j = true ∨ ∃ x ∈ l, x.getLsbD j = true := by
    intro l
    induction l with
    | nil => intro a; simp
    | cons x l ih => intro a; rw [List.foldl_cons, ih]; simp [or_assoc]
  rw [this]; simp

/-- The flags that a lane loop raises. -/
theorem fillLanes_flags {w : Nat} (hw : IsWidth w) (p : Word) (z : Bool) (o : Vec) (f : Nat → Nat × BitVec 5) :
    FlagsAre (8 * w) p (fillLanes w p z o f).2 (fun i => (f i).2) := by
  intro j hj
  rw [(width_div hw).1, (width_div hw).2]
  unfold fillLanes
  simp only
  rw [joinFlags_bit]
  simp only [List.map_map, List.mem_map, List.mem_range, Function.comp_apply]
  have ha : ∀ i, active w p i = p.getLsbD (w * i) := fun _ => rfl
  constructor
  · rintro ⟨x, ⟨i, hi, rfl⟩, hx⟩
    cases h : p.getLsbD (w * i) with
    | false => simp [ha, h] at hx
    | true => exact ⟨i, hi, h, by simpa [ha, h] using hx⟩
  · rintro ⟨i, hi, h, hx⟩
    exact ⟨_, ⟨i, hi, rfl⟩, by simpa [ha, h] using hx⟩

theorem laneBits_bit {w i j : Nat} (hw : IsWidth w) (hj : j < 64) : (laneBits w i).getLsbD j = decide (j / w = i) := by
  have h0 : 0 < w := by rcases hw with rfl | rfl | rfl | rfl <;> decide
  unfold laneBits
  rw [BitVec.getLsbD_ofNat]
  simp only [hj, decide_true, Bool.true_and]
  rw [Nat.mul_comm, Nat.testBit_two_pow_mul, Nat.testBit_two_pow_sub_one]
  by_cases h : j / w = i
  · have h1 := Nat.div_add_mod j w
    have h2 := Nat.mod_lt j h0
    rw [h] at h1
    simp only [h, decide_true, Bool.and_eq_true, decide_eq_true_eq]
    constructor <;> omega
  · simp only [h, decide_false, Bool.and_eq_false_iff, decide_eq_false_iff_not]
    by_cases h3 : w * i ≤ j
    · right
      intro h4
      apply h
      have : j < w * (i + 1) := by rw [Nat.mul_add]; omega
      exact Nat.div_eq_of_lt_le (by rw [Nat.mul_comm]; exact h3) (by rw [Nat.mul_comm]; exact this)
    · left; exact h3

theorem foldl_or_bit (l : List Word) (j : Nat) : ∀ a : Word, (l.foldl (· ||| ·) a).getLsbD j = (a.getLsbD j || l.any (fun x => x.getLsbD j)) := by
  induction l with
  | nil => intro a; simp
  | cons x l ih => intro a; rw [List.foldl_cons, ih]; simp [Bool.or_assoc]

/-- A predicate put together from lanes: bit j comes from the lane that holds it. -/
theorem lanes_or_bit {w j : Nat} (hw : IsWidth w) (hj : j < 64) (g : Nat → Word)
    (h : ∀ i, i ≠ j / w → (g i).getLsbD j = false) :
    (((List.range (64 / w)).map g).foldl (· ||| ·) 0).getLsbD j = (g (j / w)).getLsbD j := by
  have hl : j / w < 64 / w := by rcases hw with rfl | rfl | rfl | rfl <;> omega
  rw [foldl_or_bit, show (0 : Word).getLsbD j = false from BitVec.getLsbD_zero, Bool.false_or]
  cases hv : (g (j / w)).getLsbD j with
  | true =>
    rw [List.any_eq_true]
    exact ⟨_, List.mem_map.2 ⟨j / w, List.mem_range.2 hl, rfl⟩, hv⟩
  | false =>
    rw [List.any_eq_false]
    intro x hx
    obtain ⟨i, hi, rfl⟩ := List.mem_map.1 hx
    by_cases e : i = j / w
    · subst e; simp [hv]
    · simp [h i e]

/-- The lane loop of a predicate destination (R201, R206). -/
theorem predMap_bit {w j : Nat} (hw : IsWidth w) (hj : j < 64) (p : Word) (z : Bool) (x y : Vec) (o : Word)
    (f : Nat → Nat → Bool × BitVec 5) :
    (predMap w p z x y o f).1.getLsbD j = if p.getLsbD (w * (j / w)) then
      (f (laneAt (8 * w) x (j / w)).toNat (laneAt (8 * w) y (j / w)).toNat).1 else !z && o.getLsbD j := by
  unfold predMap
  dsimp only
  rw [List.map_map, lanes_or_bit hw hj]
  · simp only [Function.comp_apply]
    have ha : active w p (j / w) = p.getLsbD (w * (j / w)) := rfl
    cases h : p.getLsbD (w * (j / w)) <;> rw [h] at ha
    · cases z <;> simp [ha, laneBits_bit hw hj]
    · simp only [ha, if_true, lane_eq]
      cases (f (laneAt (8 * w) x (j / w)).toNat (laneAt (8 * w) y (j / w)).toNat).1 <;> simp [laneBits_bit hw hj]
  · intro i hi
    simp only [Function.comp_apply]
    have hn : (laneBits w i).getLsbD j = false := by rw [laneBits_bit hw hj]; simp [Ne.symm hi]
    split
    · split <;> simp [hn]
    · split <;> simp [hn]

theorem predMap_flags {w : Nat} (hw : IsWidth w) (p : Word) (z : Bool) (x y : Vec) (o : Word) (f : Nat → Nat → Bool × BitVec 5) :
    FlagsAre (8 * w) p (predMap w p z x y o f).2 (fun i => (f (laneAt (8 * w) x i).toNat (laneAt (8 * w) y i).toNat).2) := by
  intro j hj
  rw [(width_div hw).1, (width_div hw).2]
  unfold predMap
  simp only
  rw [joinFlags_bit]
  simp only [List.map_map, List.mem_map, List.mem_range, Function.comp_apply]
  have ha : ∀ i, active w p i = p.getLsbD (w * i) := fun _ => rfl
  constructor
  · rintro ⟨b, ⟨i, hi, rfl⟩, hx⟩
    cases h : p.getLsbD (w * i) with
    | false => simp [ha, h] at hx
    | true => exact ⟨i, hi, h, by simpa [ha, h, lane_eq] using hx⟩
  · rintro ⟨i, hi, h, hx⟩
    exact ⟨_, ⟨i, hi, rfl⟩, by simpa [ha, h, lane_eq] using hx⟩

/-- A vector integer instruction (R205). -/
theorem vecInt_lanes {s : State} (h : Clear s) (f : Nat → Nat → Nat → Nat → Nat) (d a b : Reg) (e : BitVec 2) (g : BitVec 3) (z : Bool) :
    ∃ new, vecInt f d a b e g z s = .next (s.wroteV d new) ∧ LanesAre (8 * 2 ^ e.toNat) (s.readP g) z (s.readV d) new
      (fun i => BitVec.ofNat _ (f (8 * 2 ^ e.toNat) (laneAt (8 * 2 ^ e.toNat) (s.readV a) i).toNat (laneAt (8 * 2 ^ e.toNat) (s.readV b) i).toNat
        (laneAt (8 * 2 ^ e.toNat) (s.readV d) i).toNat)) := by
  refine ⟨_, commit_clear h _ 4, ?_⟩
  have := fillLanes_are (isWidth_laneBytes e) (s.readP g) z (s.readV d) (fun i => (f (8 * laneBytes e) (lane (laneBytes e) (s.readV a) i)
    (lane (laneBytes e) (s.readV b) i) (lane (laneBytes e) (s.readV d) i), 0))
  simp only [lane_eq] at this
  unfold vecMap
  simp only [lane_eq]
  exact this

/-- A floating-point instruction (R207): its lanes and the flags it raises. -/
theorem vecCode_lanes {s : State} (h : Clear s) (F : Fmt → Mode → Nat → Nat → Nat → Nat × BitVec 5) (d a b : Reg) (e : BitVec 2) (g : BitVec 3) (z : Bool) :
    ∃ new fl, vecCode F d a b e g z s = .next (((s.writeV d new).raise fl).retireTo (s.pc + 4)) ∧
      LanesAre (8 * floatBytes e) (s.readP g) z (s.readV d) new (fun i => BitVec.ofNat _ (F (floatFmt e) s.mode
        (laneAt (8 * floatBytes e) (s.readV a) i).toNat (laneAt (8 * floatBytes e) (s.readV b) i).toNat (laneAt (8 * floatBytes e) (s.readV d) i).toNat).1) ∧
      FlagsAre (8 * floatBytes e) (s.readP g) fl (fun i => (F (floatFmt e) s.mode
        (laneAt (8 * floatBytes e) (s.readV a) i).toNat (laneAt (8 * floatBytes e) (s.readV b) i).toNat (laneAt (8 * floatBytes e) (s.readV d) i).toNat).2) := by
  refine ⟨_, _, commit_clear h _ 4, ?_, ?_⟩
  · have := fillLanes_are (isWidth_floatBytes e) (s.readP g) z (s.readV d) (fun i => F (floatFmt e) s.mode (lane (floatBytes e) (s.readV a) i)
      (lane (floatBytes e) (s.readV b) i) (lane (floatBytes e) (s.readV d) i))
    simp only [lane_eq] at this
    unfold vecMap
    simp only [lane_eq]
    exact this
  · have := fillLanes_flags (isWidth_floatBytes e) (s.readP g) z (s.readV d) (fun i => F (floatFmt e) s.mode (lane (floatBytes e) (s.readV a) i)
      (lane (floatBytes e) (s.readV b) i) (lane (floatBytes e) (s.readV d) i))
    simp only [lane_eq] at this
    unfold vecMap
    simp only [lane_eq]
    exact this

/-- A vector comparison (R206). -/
theorem vecCmp_lanes {s : State} (h : Clear s) (F : Nat → Nat → Nat → Bool) (d : BitVec 3) (a b : Reg) (e : BitVec 2) (g : BitVec 3) (z : Bool) :
    ∃ new : Word, vecCmp F d a b e g z s = .next (s.wroteP d new) ∧ ∀ j < 64,
      new.getLsbD j = if (s.readP g).getLsbD (2 ^ e.toNat * (j / 2 ^ e.toNat)) then F (8 * 2 ^ e.toNat)
        (laneAt (8 * 2 ^ e.toNat) (s.readV a) (j / 2 ^ e.toNat)).toNat (laneAt (8 * 2 ^ e.toNat) (s.readV b) (j / 2 ^ e.toNat)).toNat
        else !z && (s.readP d).getLsbD j := by
  refine ⟨_, commit_clear h _ 4, fun j hj => ?_⟩
  exact predMap_bit (isWidth_laneBytes e) hj (s.readP g) z (s.readV a) (s.readV b) (s.readP d) (fun x y => (F (8 * laneBytes e) x y, 0))

/-- A floating-point comparison (R210). -/
theorem vecFcmp_lanes {mk : BitVec 3 → Reg → Reg → BitVec 2 → BitVec 3 → Bool → Instr} {any : Bool} {F : Option Int → Bool} {f : Fpv → Fpv → Bool}
    (e : ∀ d a b e g z s, exec (mk d a b e g z) s = vecFcmp any F d a b e g z s)
    (h : ∀ p q : Fpv, F (if p.unordered q then none else some (orderV p q)) = f p q) : VecFcmp mk any f := by
  intro d a b ee g z s hc
  refine ⟨_, _, (e ..).trans (commit_clear hc _ 4), fun j hj => ?_, fun j hj => ?_⟩
  · refine (predMap_bit (isWidth_floatBytes ee) hj (s.readP g) z (s.readV a) (s.readV b) (s.readP d) _).trans ?_
    rw [← h]; rfl
  · exact predMap_flags (isWidth_floatBytes ee) (s.readP g) z (s.readV a) (s.readV b) (s.readP d) _ j hj

end Sys2Proof.Machine
end

