-- ==== Sys2Proof/Laws/Words.lean ====
section
/-! SUPPORT. The words of a cluster cache: what replacing one, an acquire and a wait for own stores leave. -/

namespace Sys2Proof.Machine

/-- Two addresses are of one word where line and word within it agree. -/
theorem wordOf_eq {a b : Nat} : wordOf a = wordOf b ↔ lineOf a = lineOf b ∧ wordIx a = wordIx b := by
  unfold wordOf lineOf wordIx; omega

/-- What a table reads after an entry is removed. -/
theorem tget_tdel {α : Type} (t : Tbl α) (q r : Nat) (d : α) : tget (tdel t q) r d = if r = q then d else tget t r d := by
  unfold tget tdel
  induction t with
  | nil => simp [tfind]
  | cons e t ih =>
    obtain ⟨k, v⟩ := e
    rw [List.filter_cons]
    by_cases h : k = q
    · subst h
      simp only [bne_self_eq_false, Bool.false_eq_true, if_false]
      rw [ih]
      by_cases hr : r = k
      · simp [hr]
      · rw [if_neg hr, if_neg hr]; simp [tfind, Ne.symm hr]
    · simp only [bne_iff_ne, ne_eq, h, not_false_eq_true, if_true, tfind]
      by_cases hr : k = r
      · subst hr; simp [h]
      · simp only [hr, if_false]; exact ih

/-- A word of a cluster cache replaced; every other word of every cluster reads as before. -/
theorem clWord_setClWord (s : State) (cl pa : Nat) (x : CacheWord) (c q : Nat) (h : x.st = .i → x = CacheWord.absent) :
    (s.setClWord cl pa x).clWord c q = if c = cl ∧ wordOf q = wordOf pa then x else s.clWord c q := by
  unfold State.setClWord
  dsimp only
  unfold State.clWord State.clLine
  rw [cluster_modCluster]
  by_cases hc : c = cl
  · subst hc
    simp only [if_true, true_and]
    by_cases hl : lineOf q = lineOf pa
    · have key : ∀ ws : Tbl CacheWord, (tget (tget (if ws.isEmpty = true then tdel (s.cluster c).clc (lineOf pa)
              else tset (s.cluster c).clc (lineOf pa) { (tget (s.cluster c).clc (lineOf pa) CacheLine.absent) with words := ws })
              (lineOf q) CacheLine.absent).words (wordIx q) CacheWord.absent) = tget ws (wordIx q) CacheWord.absent := by
        intro ws
        by_cases he : ws.isEmpty = true
        · have : ws = [] := by cases ws <;> simp_all
          subst this
          simp only [List.isEmpty_nil, if_true, tget_tdel, hl]; rfl
        · rw [if_neg he, tget_tset, if_pos hl]
      rw [key]
      by_cases hi : wordIx q = wordIx pa
      · rw [if_pos (wordOf_eq.2 ⟨hl, hi⟩)]
        by_cases hx : x.st = .i
        · rw [if_pos hx, tget_tdel, if_pos hi, h hx]
        · rw [if_neg hx, tget_tset, if_pos hi]
      · rw [if_neg (fun e => hi (wordOf_eq.1 e).2), hl]
        by_cases hx : x.st = .i
        · rw [if_pos hx, tget_tdel, if_neg hi]
        · rw [if_neg hx, tget_tset, if_neg hi]
    · rw [if_neg (fun e => hl (wordOf_eq.1 e).1)]
      congr 1
      have : ∀ (b : Prop) [Decidable b] (l : CacheLine), tget (if b then tdel (s.cluster c).clc (lineOf pa) else tset (s.cluster c).clc (lineOf pa) l) (lineOf q) CacheLine.absent = tget (s.cluster c).clc (lineOf q) CacheLine.absent := by
        intro b _ l
        split
        · rw [tget_tdel, if_neg hl]
        · rw [tget_tset, if_neg hl]
      rw [this]
  · rw [if_neg hc, if_neg (fun e => hc e.1)]

/-- A recheck mark changes no word. -/
theorem clWord_markRecheck (s : State) (cl line c q : Nat) : (s.markRecheck cl line).clWord c q = s.clWord c q := by
  unfold State.markRecheck
  split
  · unfold State.clWord State.clLine; rw [cluster_modCluster]; split
    · next h => rw [h]
    · rfl
  · rfl

/-- No U word stays where the U words are discarded (R105). -/
theorem discardU_noU (s : State) (cl pa : Nat) : ((s.discardU cl).clWord cl pa).st ≠ .u := by
  unfold State.discardU
  dsimp only
  have hx : ∀ (t : State), (t.modCluster cl (fun c => { c with filledU := false })).clWord cl pa = t.clWord cl pa := by
    intro t; unfold State.clWord State.clLine; rw [cluster_modCluster]; simp
  rw [hx]
  have hw : (s.clWord cl pa).st = .u → ∃ q ∈ s.wordsWhere cl (fun w => w.st == .u), wordOf q = wordOf pa := by
    intro h
    refine ⟨lineOf pa + 8 * wordIx pa, ?_, by unfold wordOf lineOf wordIx; omega⟩
    have mem_of : ∀ {α : Type} (t : Tbl α) (k : Nat) (v : α), tfind t k = some v → (k, v) ∈ t := by
      intro α t k v
      induction t with
      | nil => simp [tfind]
      | cons e t ih =>
        obtain ⟨j, u⟩ := e
        simp only [tfind]
        split
        · next e => intro h; cases h; subst e; simp
        · intro h; exact List.mem_cons_of_mem _ (ih h)
    unfold State.clWord State.clLine tget at h
    cases e1 : tfind (s.cluster cl).clc (lineOf pa) with
    | none => rw [e1] at h; simp [CacheLine.absent, tfind, CacheWord.absent] at h
    | some l =>
      rw [e1] at h
      cases e2 : tfind l.words (wordIx pa) with
      | none => simp [e2, CacheWord.absent] at h
      | some w =>
        simp [e2] at h
        simp only [State.wordsWhere, List.mem_flatMap, List.mem_map, List.mem_filter]
        exact ⟨_, mem_of _ _ _ e1, ⟨_, ⟨mem_of _ _ _ e2, by simp [h]⟩, rfl⟩⟩
  have gen : ∀ (l : List Nat) (t : State), 
      ((l.foldl (fun s q => s.dropClWord cl q) t).clWord cl pa = if ∃ q ∈ l, wordOf q = wordOf pa then CacheWord.absent else t.clWord cl pa) := by
    intro l
    induction l with
    | nil => intro t; simp
    | cons a l ih =>
      intro t
      rw [List.foldl_cons, ih]
      unfold State.dropClWord
      rw [clWord_setClWord _ _ _ _ _ _ (fun _ => rfl)]
      by_cases h1 : ∃ q ∈ l, wordOf q = wordOf pa
      · have : ∃ q ∈ a :: l, wordOf q = wordOf pa := by obtain ⟨q, h, e⟩ := h1; exact ⟨q, by simp [h], e⟩
        rw [if_pos h1, if_pos this]
      · rw [if_neg h1]
        by_cases h2 : wordOf pa = wordOf a
        · rw [if_pos ⟨rfl, h2⟩, if_pos ⟨a, by simp, h2.symm⟩]
        · rw [if_neg (fun h => h2 h.2), if_neg]
          rintro ⟨q, hq, e⟩
          rcases List.mem_cons.1 hq with rfl | hq
          · exact h2 e.symm
          · exact h1 ⟨q, hq, e⟩
  rw [gen]
  split
  · simp [CacheWord.absent]
  · next h => exact fun hu => h (hw hu)

/-- Discarding U words leaves memory alone. -/
theorem discardU_mem (s : State) (cl : Nat) : (s.discardU cl).mem = s.mem := by
  unfold State.discardU
  generalize (s.wordsWhere cl fun w => w.st == .u) = l
  show (l.foldl (fun s pa => s.dropClWord cl pa) s).mem = s.mem
  induction l generalizing s with
  | nil => rfl
  | cons a l ih => rw [List.foldl_cons, ih]; rfl

/-- A release with nothing pending leaves all but the memory system alone. -/
theorem releaseWait_apart {s : State} (h : Settled s) (sc : Scope) : Apart s (s.releaseWait s.cur sc) := by
  unfold State.releaseWait
  rw [flushStores_settled h, drainThread_settled h]
  cases sc <;> first | exact Apart.refl s | exact keep_drainAll (plain_apart s) (Apart.refl s)

/-- The PC stays where only the memory system changed. -/
theorem apart_pc {s t : State} (h : Apart s t) : t.pc = s.pc := by
  unfold State.pc State.me; rw [h.cur]; obtain ⟨w, hw⟩ := h.super s.cur; rw [hw]

/-- Two changes of the memory system alone make one. -/
theorem apart_trans {s t u : State} (h : Apart s t) (g : Apart t u) : Apart s u where
  fuses := g.fuses.trans h.fuses
  flash := g.flash.trans h.flash
  exiting := g.exiting.trans h.exiting
  fences := g.fences.trans h.fences
  clock := g.clock.trans h.clock
  cur := g.cur.trans h.cur
  curEfc := g.curEfc.trans h.curEfc
  ir0 := g.ir0.trans h.ir0
  ir1 := g.ir1.trans h.ir1
  agenda := g.agenda.trans h.agenda
  accs := g.accs.trans h.accs
  mem := fun w => g.mem (h.mem w)
  user := fun c hc => (g.user c hc).trans (h.user c hc)
  super := fun c => by obtain ⟨w, hw⟩ := h.super c; obtain ⟨v, hv⟩ := g.super c; exact ⟨v, by rw [hv, hw]⟩
  core := fun c => by
    obtain ⟨q, l, b, w, hw⟩ := h.core c
    obtain ⟨q', l', b', w', hv⟩ := g.core c
    exact ⟨q', l', b', w', by rw [hv, hw]⟩
  cluster := fun n => (h.cluster n).trans (g.cluster n)
  engine := fun n => (h.engine n).trans (g.engine n)
  pkg := fun n => (h.pkg n).trans (g.pkg n)

/-- What matches is the same where only the memory system changed. -/
theorem apart_matchOf {s t : State} (h : Apart s t) (accs : List Acc) : t.matchOf accs = s.matchOf accs := by
  obtain ⟨w, hw⟩ := h.super s.cur
  obtain ⟨q, l, b, v, hk⟩ := h.core (coreOf s.cur)
  refine matchOf_congr h.cur ?_ ?_ ?_ ?_ accs
  · rw [hw]
  · rw [hk]
  · rw [hk]
  · rw [hk]

theorem apart_free {s t : State} (hf : Free s) (h : Apart s t) (accs : List Acc) : t.matchOf accs = none := by
  rw [apart_matchOf h]; exact matchOf_none hf.1 hf.2.1 accs

/-- The n low bytes of a word. -/
theorem mod_setWidth (v : Word) (n : Nat) : v.toNat % 256 ^ n = (v.setWidth (8 * n)).toNat := by
  rw [BitVec.toNat_setWidth, Nat.pow_mul]

/-- The n bytes of a word from byte k. -/
theorem subWord_eq (v : Word) (k n : Nat) : subWord v k n = (v.extractLsb' (8 * k) (8 * n)).toNat := by
  rw [BitVec.extractLsb'_toNat, Nat.shiftRight_eq_div_pow]; unfold subWord; rw [Nat.pow_mul, Nat.pow_mul]

/-- What an atomic leaves in its word, bit by bit. -/
theorem operateWord_bits (op : AmoOp) (pa : Nat) {n : Nat} (hn : pa % 8 + n ≤ 8) (old x cmp : Word)
    (f : BitVec (8 * n) → BitVec (8 * n) → BitVec (8 * n) → BitVec (8 * n))
    (hf : ∀ o y c : BitVec (8 * n), match operate op n o.toNat y.toNat c.toNat with
        | some r => r = (f o y c).toNat
        | none => f o y c = o) {i : Nat} (hi : i < 64) :
    (operateWord op pa n old x cmp).2.getLsbD i = if 8 * (pa % 8) ≤ i ∧ i < 8 * (pa % 8 + n)
        then (f (old.extractLsb' (8 * (pa % 8)) (8 * n)) (x.setWidth (8 * n)) (cmp.setWidth (8 * n))).getLsbD (i - 8 * (pa % 8))
        else old.getLsbD i := by
  unfold operateWord
  simp only [mod_setWidth, subWord_eq]
  have h := hf (old.extractLsb' (8 * (pa % 8)) (8 * n)) (x.setWidth (8 * n)) (cmp.setWidth (8 * n))
  generalize operate op n (old.extractLsb' (8 * (pa % 8)) (8 * n)).toNat (x.setWidth (8 * n)).toNat (cmp.setWidth (8 * n)).toNat = r at h
  cases r with
  | none =>
    simp only at h ⊢
    rw [h, BitVec.getLsbD_extractLsb']
    split
    · next hc =>
      have : i - 8 * (pa % 8) < 8 * n := by omega
      simp only [this, decide_true, Bool.true_and]
      congr 1; omega
    · rfl
  | some r =>
    simp only at h ⊢
    rw [mergeWord_bits _ _ hn hi, h]
    split
    · next hc =>
      rw [BitVec.getLsbD_ofNat]
      have : i - 8 * (pa % 8) < 64 := by omega
      simp only [this, decide_true, Bool.true_and]; rfl
    · rfl

/-- An atomic under .own on an owned word (R120, R161). -/
theorem atomic_own {s : State} (d b : Reg) (ord : Order) (sc : Scope) (v : Reg) (w : Bool) (op : AmoOp) (pa : Nat) (old : Word)
    (n : Nat) (hn : n = if w then 8 else 4) (u : State) (hu : u = if ord = .rel ∨ ord = .ar then s.releaseWait s.cur sc else s)
    (hf : Free s) (hs : Settled s) (ha : (s.readG b).toNat % n = 0) (hm : Maps s (s.readG b) .atomic (some .own) pa)
    (hd : isDevice pa = false) (ho : Owned u pa old) :
    atomicReg op d b .own ord sc v w s = .next
        (((if ord = .acq ∨ ord = .ar then (((u.setClWord s.myCluster pa { CacheWord.absent with st := .o, data := (operateWord op pa n old (s.readG v) (s.readG d)).2 }).markRecheck
            s.myCluster (lineOf pa)).acquireAt s.myCluster sc)
          else ((u.setClWord s.myCluster pa { CacheWord.absent with st := .o, data := (operateWord op pa n old (s.readG v) (s.readG d)).2 }).markRecheck s.myCluster (lineOf pa))).writeG d
            (loaded old pa n true)).retireTo (s.pc + 4)) := by
  have hfree := hf
  obtain ⟨hc, hw, hacc⟩ := hf
  have hn8 : n ≤ 8 := by subst hn; split <;> omega
  have hau : Apart s u := by
    subst hu; split
    · exact releaseWait_apart hs sc
    · exact Apart.refl s
  have hcl : u.myCluster = s.myCluster := by unfold State.myCluster; rw [hau.cur]
  let w1 := (u.setClWord s.myCluster pa { CacheWord.absent with st := .o, data := (operateWord op pa n old (s.readG v) (s.readG d)).2 }).markRecheck s.myCluster (lineOf pa)
  have haw : Apart u w1 := by
    refine keep_markRecheck (plain_apart u) ?_
    exact keep_setClWord (plain_apart u) (Apart.refl u)
  let w2 := if ord = .acq ∨ ord = .ar then w1.acquireAt s.myCluster sc else w1
  have haw2 : Apart s w2 := by
    refine apart_trans hau (apart_trans haw ?_)
    show Apart w1 (if _ then _ else _)
    split
    · exact acquireAt_apart _ _ _
    · exact Apart.refl _
  have hrel : (if releases ord = true then s.releaseWait s.cur sc else s) = u := by rw [hu]; cases ord <;> rfl
  have hacq : (if acquires ord = true then w1.acquireAt w1.myCluster sc else w1) = w2 := by
    have : w1.myCluster = s.myCluster := by unfold State.myCluster; rw [haw.cur, hau.cur]
    rw [this]; cases ord <;> rfl
  have e0 : ({ s with accs := [] } : State) = s := accs_nil hacc
  have hat : clAtomic u.agent .own op pa n (s.readG v) (s.readG d) (if acquires ord then some sc else none) (if releases ord then some sc else none) u
      = .ok (BitVec.ofNat 64 (subWord old (pa % 8) n)) w1 := by
    have hcl2 : u.agent.cl = u.myCluster := rfl
    have hw : w1 = (u.setClWord u.agent.cl pa { CacheWord.absent with st := .o, data := (operateWord op pa n old (s.readG v) (s.readG d)).2 }).markRecheck u.agent.cl (lineOf pa) := by
      rw [hcl2, hcl]
    rw [hw]
    unfold clAtomic
    simp only
    rw [bind_ok (obtain_owned ho u.agent rfl)]
    rfl
  let a : Acc := { va := s.readG b, n := n, pol := some .own, rd := true, wr := true, lane := 0, device := false }
  have hatn : clAtomic (u.noted a).agent .own op pa n (s.readG v) (s.readG d) (if acquires ord then some sc else none) (if releases ord then some sc else none) (u.noted a)
      = .ok (BitVec.ofNat 64 (subWord old (pa % 8) n)) (w1.noted a) := by
    have hcl2 : (u.noted a).agent.cl = s.myCluster := hcl
    have hw : w1.noted a = ((u.noted a).setClWord (u.noted a).agent.cl pa { CacheWord.absent with st := .o, data := (operateWord op pa n old (s.readG v) (s.readG d)).2 }).markRecheck (u.noted a).agent.cl (lineOf pa) := by
      rw [hcl2, setClWord_noted, markRecheck_noted]
    rw [hw]
    unfold clAtomic
    simp only
    rw [bind_ok (obtain_owned (s := u.noted a) ho (u.noted a).agent rfl)]
    rfl
  have hval : atomicValue op (s.readG b) n (s.readG v) (s.readG d) .own ord sc s = .ok (BitVec.ofNat 64 (subWord old (pa % 8) n))
      (w2.noted a) := by
    unfold atomicValue
    rw [bind_ok (aligned_ok ha _ _), bind_ok (xlate_maps hm), bind_ok (notDevice_ok hd _ _)]
    rw [bind_ok (t := s) (a := ()) (by show EStateM.Result.ok _ (s.waitOwn s.cur pa n) = _; rw [waitOwn_settled hs])]
    rw [bind_ok (t := u) (a := ()) (by show EStateM.Result.ok _ (if releases ord = true then s.releaseWait s.cur sc else s) = _; rw [hrel])]
    rw [bind_ok (note_ok u _ _ _ _ _ _ _)]
    rw [bind_ok (m := (get : Act State)) (t := u.noted a) (a := u.noted a) rfl]
    refine guarded_ok ?_ (apart_free hfree haw2 _)
    rw [bind_ok (lift_ok hatn _ _ _)]
    rw [bind_ok (t := w2.noted a) (a := ()) (by
      show EStateM.Result.ok _ (if acquires ord = true then (w1.noted a).acquireAt w1.myCluster sc else w1.noted a) = _
      rw [← hacq]
      split
      · rw [State.noted, acquireAt_accs]; unfold State.noted; rw [(acquireAt_apart w1 w1.myCluster sc).accs]
      · rfl)]
    rfl
  unfold atomicReg
  simp only
  rw [← hn]
  rw [runAct_ok (t := (w2.noted a).writeG d (extend (BitVec.ofNat 64 (subWord old (pa % 8) n)) n true)) ?_ ?_]
  · rw [extend_loaded old pa hn8]
    have : ({ (w2.noted a).writeG d (loaded old pa n true) with accs := [] } : State) = w2.writeG d (loaded old pa n true) := by
      have h2 : w2.accs = [] := haw2.accs.trans hacc
      show ({ w2.writeG d (loaded old pa n true) with accs := [] } : State) = _
      exact accs_nil h2
    rw [this]
    show Host.Outcome.next (State.retireTo _ _) = _
    have hp : (w2.writeG d (loaded old pa n true)).pc = s.pc := by
      rw [← apart_pc haw2]
      unfold State.pc; rw [State.writeG, me_modMe, setG_pc]
    rw [hp]; rfl
  · rw [e0]
    rw [bind_ok hval]
    rfl
  · generalize extend (BitVec.ofNat 64 (subWord old (pa % 8) n)) n true = z
    refine (matchOf_congr (s := w2) (t := (w2.noted a).writeG d z) rfl ?_ rfl rfl rfl _).trans (apart_free hfree haw2 _)
    show (((w2.noted a).modMe _).ctx w2.cur).pc = _
    rw [State.modMe]
    show (((w2.noted a).modCtx w2.cur _).ctx w2.cur).pc = _
    rw [ctx_modCtx_same, setG_pc]; rfl
/-- Translation keeps the place within a page. -/
theorem maps_mod {s : State} {va : Word} {kind : AccessKind} {pol : Option Pol} {pa : Nat} (h : Maps s va kind pol pa) :
    pa % 4096 = va.toNat % 4096 := by
  obtain ⟨-, h⟩ := h
  split at h
  · rw [h.1]
  · obtain ⟨-, t, -, rfl⟩ := h
    have hd : 4096 ∣ leafSize t.level t.leaf := by unfold leafSize; split <;> [skip; split] <;> [split; skip; skip] <;> norm_num
    rw [Nat.add_mod, Nat.mod_mod_of_dvd _ hd]
    unfold entryPa
    simp
/-- An operation on n bytes is a function of bit vectors: of the old value, the operand and the value compared. -/
def OpIs (op : AmoOp) (n : Nat) (f : BitVec (8 * n) → BitVec (8 * n) → BitVec (8 * n) → BitVec (8 * n)) : Prop :=
  ∀ o y c : BitVec (8 * n), match operate op n o.toNat y.toNat c.toNat with
        | some r => r = (f o y c).toNat
        | none => f o y c = o
/-- The signed value of n bytes. -/
theorem signed_eq_toInt {n : Nat} (x : BitVec (8 * n)) : (if 2 * x.toNat < 2 ^ (8 * n) then (x.toNat : Int) else (x.toNat : Int) - (2 ^ (8 * n) : Nat)) = x.toInt := by
      rw [BitVec.toInt_eq_toNat_cond]
theorem op_add (n : Nat) : OpIs .add n (fun o x _ => o + x) := by intro o y c; simp [operate]
theorem op_and (n : Nat) : OpIs .and n (fun o x _ => o &&& x) := by intro o y c; simp [operate]
theorem op_or (n : Nat) : OpIs .or n (fun o x _ => o ||| x) := by intro o y c; simp [operate]
theorem op_xor (n : Nat) : OpIs .xor n (fun o x _ => o ^^^ x) := by intro o y c; simp [operate]
theorem op_min (n : Nat) : OpIs .min n (fun o x _ => if x.toInt < o.toInt then x else o) := by intro o y c; simp only [operate, signed_eq_toInt]; split <;> rfl
theorem op_max (n : Nat) : OpIs .max n (fun o x _ => if o.toInt < x.toInt then x else o) := by intro o y c; simp only [operate, signed_eq_toInt]; split <;> rfl
theorem op_minn (n : Nat) : OpIs .minn n (fun o x _ => if x.toNat < o.toNat then x else o) := by intro o y c; simp only [operate]; split <;> rfl
theorem op_maxn (n : Nat) : OpIs .maxn n (fun o x _ => if o.toNat < x.toNat then x else o) := by intro o y c; simp only [operate]; split <;> rfl
theorem op_swap (n : Nat) : OpIs .swap n (fun _ x _ => x) := by intro o y c; simp [operate]
theorem op_cas (n : Nat) : OpIs .cas n (fun o x c => if o = c then x else o) := by
  intro o y c
  by_cases h : o = c
  · subst h; simp [operate]
  · have : ¬ o.toNat = c.toNat := fun e => h (BitVec.eq_of_toNat_eq e)
    simp [operate, h, this]

/-- The context in turn keeps its registers where only the memory system changed. -/
theorem apart_g {s t : State} (h : Apart s t) : t.me.g = s.me.g ∧ t.me.life = s.me.life ∧ t.me.cause = s.me.cause := by
  unfold State.me; rw [h.cur]; obtain ⟨w, hw⟩ := h.super s.cur; rw [hw]; exact ⟨rfl, rfl, rfl⟩
/-- An instruction that changed the memory system alone retires with its registers as they were. -/
theorem runAct_apart {s t : State} (hf : Free s) (n : Nat) (m : Act Unit) (hm : m s = .ok () t) (ht : Apart s t) :
    runAct s n m = .next (t.retireTo (s.pc + BitVec.ofNat 64 n)) := by
  have ha := hf.2.2
  rw [runAct_ok (t := t) ?_ (apart_free hf ht _)]
  · rw [accs_nil (ht.accs.trans ha)]; unfold State.retire; rw [apart_pc ht]
  · rw [accs_nil ha]; exact hm
/-- A modification ends well. -/
theorem modify_ok (f : State → State) (s : State) : (modify f : Act Unit) s = .ok () (f s) := rfl
/-- What a retirement leaves of the context in turn. -/
theorem retire_facts {s t : State} (ht : Apart s t) (pc : Word) : (t.retireTo pc).pc = pcOf pc ∧ (t.retireTo pc).me.g = s.me.g ∧
    (t.retireTo pc).me.life = s.me.life ∧ (t.retireTo pc).me.cause = s.me.cause := by
  have h := apart_g ht
  have : (t.retireTo pc).me = { t.me with pc := pcOf pc, stall := .none, attempt := 0 } := by
    show tget (tset _ _ _) _ _ = _
    rw [tget_tset]; simp [State.me]
  refine ⟨?_, ?_⟩
  · unfold State.pc; rw [this]
  · rw [this]; exact ⟨h.1, h.2⟩
/-- The line that a `cwb` or `cinv` acts on. -/
theorem maintLine_ok {s : State} {va : Word} {pa : Nat} (hs : Settled s) (hm : Maps s va .maint none pa) (hd : isDevice pa = false) :
    maintLine va s = .ok (lineOf pa) s := by
  unfold maintLine
  rw [bind_ok (xlate_maps hm), bind_ok (notDevice_ok hd _ _)]
  rw [bind_ok (t := s) (a := ()) (by show EStateM.Result.ok _ (s.waitOwn s.cur _ 64) = _; rw [waitOwn_settled hs])]
  rfl
/-- An evicted line leaves no word. -/
theorem evictLine_none (s : State) (a : Agent) (line w : Nat) (hl : line % 64 = 0) (hw : w < 8) :
    ((s.evictLine a line).clWord a.cl (line + 8 * w)).st = .i := by
  unfold State.evictLine
  dsimp only
  generalize List.foldl _ s (List.range 8) = t
  unfold State.clWord State.clLine
  rw [cluster_modCluster, if_pos rfl]
  have : lineOf (line + 8 * w) = line := by unfold lineOf; omega
  rw [this, tget_tdel, if_pos rfl]; rfl
/-- A `pref` that ends well retires. -/
theorem pref_end {s : State} (hf : Free s) (b : Reg) (pol : Pol) (h : BitVec 3) (off : BitVec 7) (t : State) 
    (ha : Apart s t) (h2 : prefAct (s.addrLine b off) pol (h.getLsbD 0 && pol == .own) (decide (h.toNat / 2 = 3) && pol != .wt) s = .ok () t) :
   exec (.pref b pol h off) s = .next (t.retireTo (s.pc + 4)) := by
  show execPref b pol h off s = _
  unfold execPref
  exact runAct_apart hf 4 _ h2 ha

end Sys2Proof.Machine
end

