-- ==== Sys2Proof/Tests/Slice0.lean ====
section
/-! SUPPORT. Tests: ill-formed terms, sample words, one step on a small state, and a witness for the hypotheses of each
statement. Every expected value is worked out from the rules of spec/ that the test names. -/

namespace Sys2Proof.Tests

open Sys2Proof Sys2Proof.Machine

set_option Elab.async false

/-- The state that an answer leaves, where it is one. -/
def after (o : Host.Outcome State Fault Refusal) : Option State :=
  match o with
  | .next t => some t
  | _ => none

/-- A property of the next state holds. -/
def gives (o : Host.Outcome State Fault Refusal) (f : State → Bool) : Bool := (after o).any f

/-- X7 of the boot core, physical, at 0x1000. -/
def bx : State := { State.reset with cur := 7, ctxs := [(7, { Context.bootX7 with pc := 0x1000 })] }

/-- A thread of tenant 5 at priority 3 on user context 0, at 0x2000, its TCB at 0x50000. -/
def bu : State := { State.reset with
  cur := 0
  ctxs := [(0, { Context.vacant with life := .running, pc := 0x2000, tcb := 0x50000, tno := 5, prio := 3, vrlimit := 16, qleft := 100 }),
    (7, { Context.bootX7 with pc := 0x1000, inwfm := true })] }

/-- General registers set. -/
def withG (s : State) (l : List (Nat × Word)) : State := l.foldl (fun t p => t.modMe (fun x => x.setG p.1 p.2)) s

/-- Words owned by the cluster of the context in turn. -/
def withOwned (s : State) (l : List (Nat × Word)) : State :=
  l.foldl (fun t p => t.setClWord t.myCluster p.1 { CacheWord.absent with st := .o, data := p.2 }) s

/-- A buffered leaf of the context's address space: one 4 KiB page, every access permitted. -/
def withPage (s : State) (va pa : Nat) : State := s.modCore s.myCore (fun k =>
  { k with tlb := k.tlb ++ [{ asn := s.me.asn, level := 1, page := va / 4096, leaf := BitVec.ofNat 64 (pa + 0x1FF) }] })

/-! ### Ill-formed terms (R71-R91, R255, R268, R269, R354) -/

theorem test_wf_slli : (Instr.slli 1 2 32 true).wf = false := rfl
theorem test_wf_srli : (Instr.srli 1 2 32 true).wf = false := rfl
theorem test_wf_srai : (Instr.srai 1 2 63 true).wf = false := rfl
theorem test_wf_rori : (Instr.rori 1 2 32 true).wf = false := rfl
theorem test_wf_bext : (Instr.bext 1 2 1 63).wf = false := rfl
theorem test_wf_bexts : (Instr.bexts 1 2 63 1).wf = false := rfl
theorem test_wf_bins : (Instr.bins 1 2 32 32).wf = false := rfl
theorem test_wf_ld_order : (Instr.ld 1 2 .own .rel .clu 3 false 0).wf = false := rfl
theorem test_wf_ld_scope : (Instr.ld 1 2 .own .plain .clu 3 false 0).wf = false := rfl
theorem test_wf_ld_sign : (Instr.ld 1 2 .own .plain .ctx 3 true 0).wf = false := rfl
theorem test_wf_ldx : (Instr.ldx 1 2 .own .ar .clu 3 false 4 true).wf = false := rfl
theorem test_wf_st : (Instr.st 1 2 .own .acq .clu 3 0).wf = false := rfl
theorem test_wf_stx : (Instr.stx 1 2 .own .plain .pkg 3 4 false).wf = false := rfl
theorem test_wf_atomics : ([Instr.amoAdd, .amoAnd, .amoOr, .amoXor, .amoMin, .amoMax, .amoMinn, .amoMaxn, .amoSwap, .cas].map
    (fun f => (f 1 2 .own .plain .core 3 true).wf)) = List.replicate 10 false := rfl
theorem test_wf_fence : (Instr.fence .plain .sys).wf = false := rfl
theorem test_wf_fround : (Instr.fround 1 2 5 0 0 false).wf = false := rfl
theorem test_wf_vcvt : (Instr.vcvt 1 2 false 12 0 0 false).wf = false ∧ (Instr.vcvt 1 2 false 0 12 0 false).wf = false := ⟨rfl, rfl⟩
theorem test_wf_vred : (Instr.vred 1 2 6 7 0).wf = false ∧ (Instr.vred 1 2 3 8 0).wf = false := ⟨rfl, rfl⟩
theorem test_wf_lane_moves : (Instr.vperm 1 2 3 12 0 false).wf = false ∧ (Instr.vslide 1 2 3 12 0 false).wf = false ∧
    (Instr.vcompress 1 2 12 0).wf = false ∧ (Instr.vexpand 1 2 15 0 false).wf = false ∧ (Instr.vbcast 1 2 12 0 false).wf = false ∧
    (Instr.vins 1 2 3 12).wf = false ∧ (Instr.vext 1 2 3 13).wf = false := ⟨rfl, rfl, rfl, rfl, rfl, rfl, rfl⟩
theorem test_wf_sysrd : (Instr.sysrd 1 0x806).wf = false := rfl
theorem test_wf_syswr : (Instr.syswr 1 0x220).wf = false := rfl
theorem test_wf_ctxrd : (Instr.ctxrd 1 2 0x208).wf = false := rfl
theorem test_wf_ctxwr : (Instr.ctxwr 1 2 0x20).wf = false := rfl
theorem test_wf_tlbi : (Instr.tlbiPage 1 .ctx).wf = false ∧ (Instr.tlbiAsn 1 .ctx).wf = false ∧ (Instr.tlbiAll .ctx).wf = false := ⟨rfl, rfl, rfl⟩
theorem test_wf_wfm : (Instr.wfm 0).wf = false ∧ (Instr.wfm 29).wf = false := ⟨rfl, rfl⟩
theorem test_wf_tile_loads : (Instr.tload 1 2 3 .own .rel .clu 0).wf = false ∧ (Instr.tloads 1 2 3 .own .plain .clu 0).wf = false ∧
    (Instr.tloadV 1 2 3 .own .ar .clu 4 0).wf = false := ⟨rfl, rfl, rfl⟩
theorem test_wf_tile_stores : (Instr.tstore 1 2 3 .own .acq .clu 0).wf = false ∧ (Instr.tstorea 1 2 3 .own .plain .sys 0).wf = false ∧
    (Instr.tstoreAon (.t 1) 2 3 .own .ar .clu 4 0).wf = false := ⟨rfl, rfl, rfl⟩
theorem test_wf_tmma : (Instr.tmma 0 1 2 0 true).wf = false := rfl
theorem test_wf_tmmaSp : (Instr.tmmaSp 0 1 2 3 1 false).wf = false ∧ (Instr.tmmaSp 0 1 3 3 0 false).wf = false := ⟨rfl, rfl⟩
theorem test_wf_tcvt : (Instr.tcvt 1 (.t 2) 3 false 0).wf = false ∧ (Instr.tcvt 1 (.a 2) 2 false 2).wf = false ∧
    (Instr.tcvt 1 (.a 2) 0 true 0).wf = false := ⟨rfl, rfl, rfl⟩
theorem test_wf_ttrans : (Instr.ttrans 1 2 1 false).wf = false := rfl
theorem test_wf_elog2 : (Instr.elog2 1 2 65).wf = false := rfl
theorem test_wf_eskip : (Instr.eskip 1 2 4 1).wf = false ∧ (Instr.eskip 1 2 0 0).wf = false := ⟨rfl, rfl⟩

/-! ### Words (Sys2Proof/Decode.lean proves one word of every constructor): one word of each class, bit by bit -/

theorem test_decode_class1 : decodeCpu (0b00001 * 2 ^ 27 + 3 * 2 ^ 22 + 4 * 2 ^ 17 + 5 * 2 ^ 12 + 0 * 2 ^ 7) 0 = .ok (.add 3 4 5 false) := rfl
theorem test_decode_class8 : decodeCpu 0x41452F02 0 = .ok (.ld 5 2 .sis .acq .pkg 3 false 2) := rfl
theorem test_decode_second_word : decodeCpu 0xC0032900 0x1000 = .ok (.tload 3 1 9 .own .plain .ctx 4096) := rfl
theorem test_decode_filter : decodeEfc 0x505C0041 = .ok (.eskip 5 6 1 1) := rfl
theorem test_decode_reserved : decodeCpu 0x08C85760 0 = .error .reserved := rfl
theorem test_decode_class_31 : decodeCpu 0xFFFFFFFF 0 = .error .badClass := rfl
theorem test_decode_table_word : decodeTableWord 32 0x08C85500 = some (.div 3 4 5 false) := rfl

/-! ### One step: the scalar instructions (R184-R193) -/

/-- What g1 holds after an instruction on X7 with g2 and g3 given. -/
def g1 (i : Instr) (x y : Word) : Option Word := (after (exec i (withG bx [(2, x), (3, y)]))).map (fun t => t.readG 1)

theorem test_add_wraps : g1 (.add 1 2 3 false) (BitVec.allOnes 64) 2 = some 1 := by decide +kernel
theorem test_add_w : g1 (.add 1 2 3 true) 0x7FFFFFFF 1 = some 0xFFFFFFFF80000000 := by decide +kernel
theorem test_sub_borrows : g1 (.sub 1 2 3 false) 1 2 = some (BitVec.allOnes 64) := by decide +kernel
theorem test_sra_count : g1 (.sra 1 2 3 false) 0x8000000000000000 65 = some 0xC000000000000000 := by decide +kernel
theorem test_srl_w_count : g1 (.srl 1 2 3 true) 0xFFFFFFFF80000000 33 = some 0x40000000 := by decide +kernel
theorem test_mulh : g1 (.mulh 1 2 3 false) (BitVec.allOnes 64) 1 = some (BitVec.allOnes 64) := by decide +kernel
theorem test_mulhn : g1 (.mulhn 1 2 3 false) (BitVec.allOnes 64) (BitVec.allOnes 64) = some 0xFFFFFFFFFFFFFFFE := by decide +kernel
theorem test_div_zero : g1 (.div 1 2 3 false) 7 0 = some (BitVec.allOnes 64) := by decide +kernel
theorem test_div_overflow : g1 (.div 1 2 3 false) 0x8000000000000000 (BitVec.allOnes 64) = some 0x8000000000000000 := by decide +kernel
theorem test_rem_sign : g1 (.rem 1 2 3 false) (-7) 2 = some (-1) := by decide +kernel
theorem test_remn_zero_w : g1 (.remn 1 2 3 true) 0x180000001 0 = some 0xFFFFFFFF80000001 := by decide +kernel
theorem test_ror_w : g1 (.ror 1 2 3 true) 1 1 = some 0xFFFFFFFF80000000 := by decide +kernel
theorem test_min_signed : g1 (.min 1 2 3 false) (-1) 1 = some (-1) := by decide +kernel
theorem test_minn_unsigned : g1 (.minn 1 2 3 false) (-1) 1 = some 1 := by decide +kernel
theorem test_cset_bit : g1 (.cset 1 2 3 6) 8 67 = some 1 := by decide +kernel
theorem test_clz_zero : g1 (.clz 1 2 true) 0xFF00000000 0 = some 32 := by decide +kernel
theorem test_popc : g1 (.popc 1 2 false) (BitVec.allOnes 64) 0 = some 64 := by decide +kernel
theorem test_fnth : (after (exec (.fnth 1 2 false) (withG bx [(1, 1), (2, 0b1011000)]))).map (fun t => t.readG 1) = some 4 := by decide +kernel
theorem test_bext : g1 (.bext 1 2 4 7) 0xABCD 0 = some 0xBC := by decide +kernel
theorem test_bexts : g1 (.bexts 1 2 4 7) 0xABCD 0 = some 0xFFFFFFFFFFFFFFBC := by decide +kernel
theorem test_bins : (after (exec (.bins 1 2 8 7) (withG bx [(1, 0x11223344), (2, 0xABCD)]))).map (fun t => t.readG 1) = some 0x1122CD44 := by
  decide +kernel
theorem test_lui_sign : g1 (.lui 1 0x100000) 0 0 = some 0xFFFFFFFC00000000 := by decide +kernel
theorem test_csetiLtn : g1 (.csetiLtn 1 2 0x1FFF) 0x1FFE 0 = some 1 := by decide +kernel
theorem test_g0_discards : gives (exec (.addi 0 0 5) bx) (fun t => t.readG 0 == 0 && t.pc == 0x1004) = true := by decide +kernel
theorem test_branch_back : gives (exec (.bCond 3 0 0 0 0xFFF) bx) (fun t => t.pc == 0xFFC) = true := by decide +kernel
theorem test_branch_falls : gives (exec (.bCond 0 1 0 0 2) bx) (fun t => t.pc == 0x1004) = true := by decide +kernel
theorem test_jl_links : gives (exec (.jl 1 2) bx) (fun t => t.pc == 0x1008 && t.readG 1 == 0x1004) = true := by decide +kernel
theorem test_jlr_reads_first : gives (exec (.jlr 2 2 4) (withG bx [(2, 0x3000)])) (fun t => t.pc == 0x3004 && t.readG 2 == 0x1004) = true := by
  decide +kernel
theorem test_jlr_misaligned : gives (exec (.jlr 1 2 1) (withG bu [(2, 0x3000)]))
    (fun t => (t.ctx 0).life == .parked .fault && (t.ctx 0).cause == 2 && (t.ctx 0).trapva == 0x3001 && (t.ctx 0).pc == 0x2000) = true := by
  decide +kernel

/-! ### Traps, system calls and returns (R256-R270) -/

theorem test_svc_record : gives (exec (.svc 9) bu) (fun t => (t.ctx 0).life == .parked .trap && (t.ctx 0).cause == 13 &&
    (t.core 0).mq.length == 1 && !(t.ctx 7).inwfm) = true := by decide +kernel
theorem test_svc_of_x7 : gives (exec (.svc 9) (bx.modCore 0 (fun k => { k with svec := 0x4000 }))) (fun t => t.pc == 0x4000 &&
    (t.core 0).svepc == 0x1000 && (t.core 0).nest && t.me.life == .running) = true := by decide +kernel
theorem test_svc_nested : gives (exec (.svc 9) (bx.modCore 0 (fun k => { k with nest := true }))) (fun t => t.pc == 0x1000 &&
    t.me.life == .parked .stop) = true := by decide +kernel
theorem test_privilege : gives (exec (.wfm 1) bu) (fun t => (t.ctx 0).cause == 4 && (t.ctx 0).trapva == 0x2000) = true := by decide +kernel
theorem test_wfm_waits : gives (exec (.wfm 1) bx) (fun t => t.me.inwfm && t.pc == 0x1000) = true := by decide +kernel
theorem test_wfm_takes : gives (exec (.wfm 1) (bx.modCore 0 (fun k => { k with mq := [⟨1, 2, 3, 4⟩, ⟨5, 6, 7, 8⟩] })))
    (fun t => t.readG 4 == 4 && (t.core 0).mq == [⟨5, 6, 7, 8⟩]) = true := by decide +kernel
theorem test_tret_skips : gives (exec (.tret 1) (withG { bx with ctxs := bx.ctxs ++ [(2, { Context.vacant with
      life := .parked .fault, pc := 0x500, info0 := 0xC0032900 })] } [(1, 0x102)]))
    (fun t => (t.ctx 2).pc == 0x508 && (t.ctx 2).life == .running) = true := by decide +kernel
theorem test_sysrd_fctl : gives (exec (.sysrd 1 0x222) (bx.modMe (fun x => { x with fctl := 2 }))) (fun t => t.readG 1 == 2) = true := by
  decide +kernel
theorem test_syswr_fst : gives (exec (.syswr 1 0x221) (withG bx [(1, 0xFF)])) (fun t => t.me.fst == 0x1F) = true := by decide +kernel

/-! ### Memory (R102-R104, R152-R162, R194-R198) -/

theorem test_ld_signed : gives (exec (.ld 1 2 .own .plain .ctx 0 true 3) (withG (withOwned bx [(0x8000, 0x80FF7F01)]) [(2, 0x8000)]))
    (fun t => t.readG 1 == 0xFFFFFFFFFFFFFF80) = true := by decide +kernel
theorem test_ld_misaligned : gives (exec (.ld 1 2 .own .plain .ctx 3 false 0) (withG bu [(2, 0x8004)]))
    (fun t => (t.ctx 0).cause == 2 && (t.ctx 0).trapva == 0x8004) = true := by decide +kernel
theorem test_st_waits : gives (exec (.st 1 2 .own .plain .ctx 1 (-1)) (withG bx [(1, 0x12345678), (2, 0x8000)]))
    (fun t => ((t.core 0).sbuf.map (fun p => (p.pa, p.n, p.data))) == [(0x7FFE, 2, 0x5678)] && t.mem == []) = true := by decide +kernel
theorem test_store_performs : gives (exec (.storePerform 0) ((withOwned bx [(0x8000, 0x1111111111111111)]).modCore 0 (fun k =>
      { k with sbuf := [{ ctx := 7, tcb := 0, tno := 0, pc := 0, pa := 0x8002, n := 2, data := 0xABCD, pol := .own, rel := none }] })))
    (fun t => (t.clWord 0 0x8000).data == 0x11111111ABCD1111 && (t.core 0).sbuf == []) = true := by decide +kernel
theorem test_cas_fails : gives (exec (.cas 1 2 .own .plain .ctx 3 true) (withG (withOwned bx [(0x8000, 5)]) [(1, 4), (2, 0x8000), (3, 9)]))
    (fun t => t.readG 1 == 5 && (t.clWord 0 0x8000).data == 5) = true := by decide +kernel
theorem test_amoadd_w : gives (exec (.amoAdd 1 2 .own .plain .ctx 3 false) (withG (withOwned bx [(0x8000, 0xFFFFFFFF00000007)]) [(2, 0x8004), (3, 2)]))
    (fun t => t.readG 1 == BitVec.allOnes 64 && (t.clWord 0 0x8000).data == 0x0000000100000007) = true := by decide +kernel

/-! ### Vectors (R200-R218) -/

/-- Vector register 1 after an instruction with v2 and v3 given. -/
def v1 (i : Instr) (x y : Vec) : Option Vec :=
  (after (exec i ((bx.modMe (fun c => (c.setV 2 x).setV 3 y))))).map (fun t => t.readV 1)

theorem test_vadd_lanes : v1 (.vadd 1 2 3 0 0 false) 0x01FF 0x0101 = some 0x0200 := by decide +kernel
theorem test_vabs_least : v1 (.vabs 1 2 1 0 false) 0x8000 0 = some 0x8000 := by decide +kernel
theorem test_vaddsI : v1 (.vaddsI 1 2 3 0 0 false) 0x7F 0x01 = some 0x7F := by decide +kernel
theorem test_vsubsN : v1 (.vsubsN 1 2 3 0 0 false) 0x0105 0x0206 = some 0 := by decide +kernel
theorem test_fadd : v1 (.fadd 1 2 3 3 0 false) 0x3FF0000000000000 0x3CA0000000000000 = some 0x3FF0000000000000 := by decide +kernel
theorem test_fdiv_zero : gives (exec (.fdiv 1 2 3 2 0 false) (bx.modMe (fun c => ((c.setV 2 0x3F800000).setP 1 1))))
    (fun t => laneAt 32 (t.readV 1) 0 == 0x7F800000) = true := by decide +kernel
theorem test_fsqrt : v1 (.fsqrt 1 2 3 0 false) 0x4010000000000000 0 = some 0x4000000000000000 := by decide +kernel

/-! ### Tiles, puts and filters -/

theorem test_tile_unbound : gives (exec (.tzero (.a 1)) { bu with mem := memPutWord [] 0x50C28 0x200000 }) (fun t => (t.ctx 0).life == .parked .tilebind) = true := by decide +kernel


/-! ### Hypotheses that a concrete state meets, in decidable form -/

/-- An address maps. -/
def mapsB (s : State) (va : Word) (kind : AccessKind) (pol : Option Pol) (pa : Nat) : Bool :=
  s.backed (s.myCluster / 64) pa &&
    if s.space.phys then decide (va.toNat = pa ∧ pa < 2 ^ 52)
    else canonical va && (match s.buffered s.space va kind pol with
      | some t => decide (pa = entryPa t.leaf + va.toNat % leafSize t.level t.leaf)
      | none => false)

theorem maps_of {s : State} {va : Word} {kind : AccessKind} {pol : Option Pol} {pa : Nat} (h : mapsB s va kind pol pa = true) :
    Maps s va kind pol pa := by
  unfold mapsB at h
  unfold Maps
  rw [Bool.and_eq_true] at h
  refine ⟨h.1, ?_⟩
  split
  · next hp => simpa [hp] using h.2
  · next hp =>
    have g := h.2
    simp only [hp, Bool.false_eq_true, if_false, Bool.and_eq_true] at g
    refine ⟨g.1, ?_⟩
    cases hb : s.buffered s.space va kind pol with
    | none => simp [hb] at g
    | some t => exact ⟨t, rfl, by simpa [hb] using g.2⟩

/-- A word is owned. -/
def ownedB (s : State) (pa : Nat) (v : Word) : Bool := decide (s.clWord s.myCluster pa = { CacheWord.absent with st := .o, data := v })

theorem owned_of {s : State} {pa : Nat} {v : Word} (h : ownedB s pa v = true) : Owned s pa v := by
  unfold Owned
  rw [of_decide_eq_true h]
  exact ⟨rfl, rfl, rfl, rfl⟩

theorem owned_all {s : State} {n : Nat} {pa : Nat → Nat} {v : Nat → Word} (h : ∀ k < n, ownedB s (pa k) (v k) = true) :
    ∀ k < n, Owned s (pa k) (v k) := fun k hk => owned_of (h k hk)

/-- Nothing stops the instruction. -/
def freeB (s : State) : Bool := !s.breakHit s.cur && decide ((s.core (coreOf s.cur)).wpb = []) && decide (s.accs = [])

theorem free_of {s : State} (h : freeB s = true) : Free s := by
  unfold freeB at h
  simp only [Bool.and_eq_true, Bool.not_eq_true', decide_eq_true_eq] at h
  refine ⟨h.1.1, fun accs => ?_, h.2⟩
  have g : ∀ w, accs.find? (watchMatches (tget (s.core (coreOf s.cur)).wpa w 0) (tget (s.core (coreOf s.cur)).wpb w 0) s.cur) = none := by
    intro w
    rw [List.find?_eq_none]
    intro a _
    simp [watchMatches, h.1.2, tget, tfind]
  unfold State.watchHit
  exact List.findSome?_eq_none_iff.mpr fun w _ => g w

theorem clear_of {s : State} (h : freeB s = true) : Clear s := (free_of h).1

/-- Nothing waits to be performed. -/
def settledB (s : State) : Bool := !(s.core s.myCore).sbuf.any (fun p => p.ctx == s.cur) &&
  (s.enginesOf s.myCluster).all (fun e => decide ((s.engine e).storeq = []))

theorem settled_of {s : State} (h : settledB s = true) : Settled s := by
  unfold settledB at h
  simp only [Bool.and_eq_true, Bool.not_eq_true', List.all_eq_true, decide_eq_true_eq] at h
  exact h

/-- Nothing waits, and nothing is buffered. -/
def drainedB (s : State) : Bool :=
  settledB s && (s.cluster s.myCluster).clc.all (fun l => l.2.words.all (fun e => e.2.st != .b))

theorem tfind_mem {α : Type} {t : Tbl α} {q : Nat} {v : α} (h : tfind t q = some v) : (q, v) ∈ t := by
  induction t with
  | nil => simp [tfind] at h
  | cons e t ih =>
    obtain ⟨k, u⟩ := e
    unfold tfind at h
    split at h
    · simp_all
    · exact List.mem_cons_of_mem _ (ih h)

theorem drained_of {s : State} (h : drainedB s = true) : Drained s := by
  unfold drainedB at h
  rw [Bool.and_eq_true] at h
  refine ⟨settled_of h.1, fun pa => ?_⟩
  have hc := h.2
  unfold State.clWord State.clLine tget
  cases hl : tfind (s.cluster s.myCluster).clc (lineOf pa) with
  | none => simp [CacheLine.absent, tfind, CacheWord.absent]
  | some l =>
    cases hw : tfind l.words (wordIx pa) with
    | none => simp [hw, CacheWord.absent]
    | some w =>
      have := List.all_eq_true.mp (List.all_eq_true.mp hc _ (tfind_mem hl)) _ (tfind_mem hw)
      simpa [hw] using this

/-- An access stays in its page of ordinary memory and maps. -/
def reachesB (s : State) (va : Word) (n : Nat) (kind : AccessKind) (pol : Pol) (pa : Nat) : Bool :=
  decide (va.toNat % 4096 + n ≤ 4096) && mapsB s va kind (some pol) pa && !isDevice pa

theorem reaches_of {s : State} {va : Word} {n : Nat} {kind : AccessKind} {pol : Pol} {pa : Nat} (h : reachesB s va n kind pol pa = true) :
    Reaches1 s va n kind pol pa := by
  unfold reachesB at h
  simp only [Bool.and_eq_true, Bool.not_eq_true', decide_eq_true_eq] at h
  exact ⟨h.1.1, maps_of h.1.2, h.2⟩

/-- A counter is named, at an address other than 0. -/
theorem counter_of {s : State} {cva : Word} {pol : Pol} {cpa : Nat} (h : (decide (cva ≠ 0) && decide (cva.toNat % 8 = 0) &&
    mapsB s cva .atomic (some pol) cpa && !isDevice cpa) = true) : CounterAt s cva pol cpa := by
  simp only [Bool.and_eq_true, Bool.not_eq_true', decide_eq_true_eq] at h
  exact ⟨h.1.1.2, fun z => absurd z h.1.1.1, fun _ => ⟨maps_of h.1.2, h.2⟩⟩

/-- A thread is bound. -/
def boundB (s : State) (e b : Nat) : Bool :=
  !s.inX7 && decide (s.me.tcb ≠ 0) && decide (s.tcbWord s.myCluster s.me.tcb 0xC28 ≠ 0) && decide (s.boundEngine s.cur = some e) &&
    decide (s.holder s.me.tcb = some (e, b)) && decide ((s.binding e b).acc.length = 4) && decide ((s.binding e b).opd.length = 8) &&
    decide (s.binding e b).acc.Nodup && decide (s.binding e b).opd.Nodup

theorem bound_of {s : State} {e b : Nat} (h : boundB s e b = true) : BoundAt s e b := by
  unfold boundB at h
  simp only [Bool.and_eq_true, Bool.not_eq_true', decide_eq_true_eq] at h
  obtain ⟨⟨⟨⟨⟨⟨⟨⟨h1, h2⟩, h3⟩, h4⟩, h5⟩, h6⟩, h7⟩, h8⟩, h9⟩ := h
  exact ⟨h1, h2, h3, h4, h5, h6, h7, h8, h9⟩

/-- The rows that a shape names. -/
def rowsB (s : State) (m : BitVec 3) (va : Word) (n : Nat) (kind : AccessKind) (pol : Pol) (pa : Nat → Nat) : Bool :=
  let h := shapeOf (s.readM m)
  decide (0 < h.rows) && decide (h.rows ≤ 64) && decide ((s.readM m).extractLsb' 7 25 = 0) &&
    (List.range h.rows).all (fun r => decide ((rowAddr va h r).toNat % 8 = 0) && reachesB s (rowAddr va h r) n kind pol (pa r))

theorem rows_of {s : State} {m : BitVec 3} {va : Word} {n : Nat} {kind : AccessKind} {pol : Pol} {pa : Nat → Nat}
    (h : rowsB s m va n kind pol pa = true) : RowsAt s m va n kind pol pa := by
  unfold rowsB at h
  simp only [Bool.and_eq_true, List.all_eq_true, List.mem_range, decide_eq_true_eq] at h
  exact ⟨h.1.1.1, h.1.1.2, h.1.2, fun r hr => ⟨(h.2 r hr).1, reaches_of (h.2 r hr).2⟩⟩

/-! ### Witnesses: for each statement with hypotheses, and for each of its clauses, a state and operands that meet them -/

theorem clear_bx : Clear bx := clear_of (by decide +kernel)
theorem clear_bu : Clear bu := clear_of (by decide +kernel)
theorem free_bx : Free bx := free_of (by decide +kernel)
theorem free_bu : Free bu := free_of (by decide +kernel)
theorem drained_bx : Drained bx := drained_of (by decide +kernel)
theorem drained_bu : Drained bu := drained_of (by decide +kernel)

theorem witness_ScalarArithmetic : Clear bx := clear_bx
theorem witness_DivisionNeverTraps : Clear bx := clear_bx
theorem witness_ComparisonsAndBitCounts : Clear bx := clear_bx
theorem witness_ImmediatesAndBitFields : Clear bx ∧ (63#6).toNat + (0#6).toNat + 1 ≤ 64 := ⟨clear_bx, by decide⟩
theorem witness_BranchesAndJumps_aligned : Clear bx ∧ (bx.readG 0 + (4#13).signExtend 64).toNat % 4 = 0 := ⟨clear_bx, by decide +kernel⟩
theorem witness_BranchesAndJumps_misaligned : (bx.readG 0 + (2#13).signExtend 64).toNat % 4 ≠ 0 := by decide +kernel
theorem witness_RegisterOnlyFrame : regDest (.fadd 1 2 3 0 0 false) = some (.v 1 true) ∧ Clear bx := ⟨rfl, clear_bx⟩
theorem witness_RegisterOnlyFrame_breakpoint : regDest (.add 1 2 3 false) = some (.g 1) ∧
    (bu.modCore 0 (fun k => { k with bp := [(3, 0x2001)] })).breakHit 0 = true := ⟨rfl, by decide +kernel⟩
theorem witness_TakingATrap : isX7 6 = false ∧ isX7 7 = true ∧ (bx.core 0).nest = false ∧
    ((bx.modCore 0 (fun k => { k with nest := true })).core 0).nest = true := by decide +kernel
theorem witness_SystemCallAndBreak : (bu.core bu.myCore).claim.getLsbD (bu.cur % 8) = false ∧
    ((bu.modCore 0 (fun k => { k with claim := 1 })).core 0).claim.getLsbD 0 = true := by decide +kernel
theorem witness_SupervisorInstructionsTrapInUserContexts : bu.inX7 = false ∧ 0x800 ≤ (0x800#13).toNat := by decide +kernel
theorem witness_DispatchAndCycles_ready : bx.dispatcher 0 = some 7 ∧ 7 ≠ bx.owner 0 ∧ (bx.engines.map (·.1)).Nodup := by decide +kernel
theorem witness_DispatchAndCycles_idle : bx.dispatcher 1 = none := by decide +kernel
theorem witness_EncodeThenDecode : (Instr.tcvt 7 (.a 3) 3 true 0).wf = true ∧ encode (.tcvt 7 (.a 3) 3 true 0) ≠ .nothing := by decide +kernel
theorem witness_DecoderRefusals : decodeCpu 0x08C85500 0 = .ok (.div 3 4 5 false) ∧ decodeEfc 0 = .ok .ehalt ∧
    bits 0 27 5 = 0 ∧ (21 ≤ bits 0xA8000000 27 5 ∧ bits 0xA8000000 27 5 ≠ 24) := by decide +kernel

/-- X7 in turn, alone, at an owned word that holds two instructions. -/
def fetching (w : Word) : State := withOwned bx [(0x1000, w)]

theorem witness_StepRunsTheDecodedInstruction : (fetching 0x08C85500).down = false ∧ (fetching 0x08C85500).agenda = [] ∧
    (fetching 0x08C85500).due = [] ∧ (fetching 0x08C85500).readyCores = [0] ∧ ((fetching 0x08C85500).dispatchCycle 0).atRom = false ∧
    (match fetchWords ((fetching 0x08C85500).dispatchCycle 0) with
      | .ok _ t => decide (decodeCpu t.ir0.toNat t.ir1.toNat = .ok (.div 3 4 5 false))
      | _ => false) = true := by decide +kernel
theorem witness_StepRunsTheDecodedInstruction_illegal :
    (match fetchWords ((fetching 0xFFFFFFFF).dispatchCycle 0) with
      | .ok _ t => decide (decodeCpu t.ir0.toNat t.ir1.toNat = .error .badClass)
      | _ => false) = true := by decide +kernel
theorem witness_StepRunsTheDecodedInstruction_fetch : Maps (fetching 0x08C85500) (fetching 0x08C85500).pc .fetch none 0x1000 ∧
    isDevice 0x1000 = false ∧ Owned (fetching 0x08C85500) 0x1000 0x08C85500 ∧
    isLong ((0x08C85500 : Word).extractLsb' (8 * (0x1000 % 8)) 32).toNat = false :=
  ⟨maps_of (by decide +kernel), by decide +kernel, owned_of (by decide +kernel), by decide +kernel⟩
theorem witness_OnlyAShutDownModuleStops : bx.down = false ∧ (bx.modPkg 0 (fun p => { p with shutdown := true })).down = true := by decide +kernel
theorem witness_Reset : isX7 15 = true ∧ (∀ f ∈ bx.fuses, (15 : Nat) ≠ x7Of (bx.bootCore f.1)) := by decide +kernel

theorem aligned_pcOf (x : Word) : Aligned (pcOf x) := by
  unfold Aligned pcOf
  rw [BitVec.and_assoc, BitVec.and_self]

theorem inv_reset : Inv State.reset := by
  refine ⟨by decide +kernel, fun c => ?_, fun k => ?_⟩
  · unfold State.ctx State.reset tget
    simp only [tfind]
    split
    · exact show Aligned Context.bootX7.pc by unfold Aligned; decide
    · unfold ctxInit
      simp only [Option.getD_none]
      split
      · exact show Aligned Context.bootHeldX7.pc by unfold Aligned; decide
      · exact show Aligned Context.vacant.pc by unfold Aligned; decide
  · simp [State.core, State.reset, tget, tfind, Core.init]

theorem witness_StepKeepsTheInvariant : Inv State.reset ∧ (after (step State.reset)).isSome = true := ⟨inv_reset, by decide +kernel⟩

theorem witness_TranslationAndAlignment_physical : Maps bx 0x8000 .read (some .own) 0x8000 ∧ bx.space.phys = true ∧ 2 ^ 52 ≤ (0x10000000000000 : Word).toNat ∧ bx.accs = [] :=
  ⟨maps_of (by decide +kernel), by decide +kernel⟩
theorem witness_TranslationAndAlignment_mapped : Maps (withPage bu 0x8000 0x9000) 0x8008 .write (some .sis) 0x9008 ∧ bu.space.phys = false ∧
    canonical 0x800000000000000 = false := ⟨maps_of (by decide +kernel), by decide +kernel⟩
theorem witness_TranslationAndAlignment_misaligned : (bx.readG 0 + ((1#7).signExtend 64 <<< (0#2).toNat)).toNat % 2 ^ (0#2).toNat = 0 ∧
    (((withG bx [(2, 1)]).readG 2) + ((0#7).signExtend 64 <<< (1#2).toNat)).toNat % 2 ^ (1#2).toNat ≠ 0 ∧
    ((withG bx [(2, 4)]).readG 2).toNat % (if true then 8 else 4) ≠ 0 := by decide +kernel

/-- X7 with g2 at an owned word; and a user context with its page mapped elsewhere. -/
def ox : State := withOwned (withG bx [(2, 0x8000)]) [(0x8000, 0x1122334455667788)]
def ou : State := withOwned (withPage (withG bu [(2, 0x8000)]) 0x8000 0x9000) [(0x9000, 0x1122334455667788)]

theorem witness_LoadsOfOwnedWords : Free ou ∧ Settled ou ∧ (0x8000 : Word).toNat % 2 ^ (3#2).toNat = 0 ∧ Maps ou 0x8000 .read (some .wis) 0x9000 ∧
    isDevice 0x9000 = false ∧ Owned ou 0x9000 0x1122334455667788 ∧ (0x8000 : Word) = ou.readG 2 + ((0#7).signExtend 64 <<< (3#2).toNat) ∧
    (0x8000 : Word) = ou.readG 2 + (ou.readG 0 <<< (if true then (3#2).toNat else 0)) :=
  ⟨free_of (by decide +kernel), settled_of (by decide +kernel), by decide, maps_of (by decide +kernel), by decide +kernel, owned_of (by decide +kernel),
    by decide +kernel, by decide +kernel⟩
theorem witness_StoresEnterTheStoreBuffer : Free ou ∧ Maps ou 0x8000 .write (some .sis) 0x9000 ∧ isDevice 0x9000 = false :=
  ⟨free_of (by decide +kernel), maps_of (by decide +kernel), by decide +kernel⟩

/-- A store of two bytes waits for its turn. -/
def waiting : State := ox.modCore 0 (fun k =>
  { k with sbuf := [{ ctx := 7, tcb := 0, tno := 0, pc := 0, pa := 0x8006, n := 2, data := 0xABCD, pol := .own, rel := none }] })

theorem witness_StorePerformsInTheOwningCluster : (bx.core 0).sbuf = [] ∧ ((waiting.core 0).sbuf.map (fun p => decide (p.rel = none ∧ p.pol = .own ∧
    isDevice p.pa = false ∧ waiting.backed (clusterOf p.ctx / 64) p.pa = true ∧ p.pa % 8 + p.n ≤ 8 ∧ (waiting.clWord (clusterOf p.ctx) p.pa).st = .o ∧
    (waiting.clWord (clusterOf p.ctx) p.pa).bad = false ∧ (waiting.clWord (clusterOf p.ctx) p.pa).single = false ∧ waiting.tilePending (clusterOf p.ctx) p.tcb p.pa p.n = false))) = [true] := by decide +kernel
theorem witness_AtomicsOnOwnedWords : Free ou ∧ Settled ou ∧ (ou.readG 2).toNat % 8 = 0 ∧ Maps ou (ou.readG 2) .atomic (some .own) 0x9000 ∧
    isDevice 0x9000 = false ∧ Owned (ou.releaseWait ou.cur .clu) 0x9000 0x1122334455667788 :=
  ⟨free_of (by decide +kernel), settled_of (by decide +kernel), by decide +kernel, maps_of (by decide +kernel), by decide +kernel, owned_of (by decide +kernel)⟩
theorem witness_FencesAndAcquires : Free bx ∧ Settled bx := ⟨free_bx, drained_bx.1⟩
theorem witness_CacheInstructions : Free ox ∧ Settled ox ∧ Maps ox (ox.readG 2 + ((0#7).signExtend 64 <<< 6)) .maint none 0x8000 ∧ isDevice 0x8000 = false :=
  ⟨free_of (by decide +kernel), settled_of (by decide +kernel), maps_of (by decide +kernel), by decide +kernel⟩
theorem witness_CacheInstructions_clean : ∀ w < 8, (bx.clWord 0 (lineOf 0x8000 + 8 * w)).st ≠ .o ∧ (bx.clWord 0 (lineOf 0x8000 + 8 * w)).st ≠ .b := by
  decide +kernel
theorem witness_CacheInstructions_pref : canonical ((withG bu [(2, 0x800000000000000)]).readG 2 + ((0#7).signExtend 64 <<< 6)) = false ∧
    2 ^ 52 ≤ ((withG bx [(2, 0x10000000000000)]).readG 2 + ((0#7).signExtend 64 <<< 6)).toNat ∧ Maps ox 0x8000 .read (some .wt) 0x8000 ∧
    (5#3).toNat / 2 ≠ 3 := ⟨by decide +kernel, by decide +kernel, maps_of (by decide +kernel), by decide⟩
theorem witness_VectorIntegerLanes : Clear bx := clear_bx
theorem witness_FloatingPointLanes : Clear bx := clear_bx
theorem witness_RoundingAndSpecialValues : 0 < 1 := by decide
theorem witness_ConversionsAndReductions : Clear bx ∧ (7#4).toNat < 8 ∧ (0#4).toNat < 8 ∧ (7#4) ≠ 0#4 ∧ 0 < 1 ∧ 1 < 64 / tyBytes 7 ∧ 63 < 64 / tyBytes 0 :=
  ⟨clear_bx, by decide +kernel⟩
theorem witness_MovesAndPredicates : Clear bx ∧ ((withG bx [(3, 63)]).readG 3).toNat < 64 / tyBytes 0 ∧ 64 / tyBytes 0 ≤ ((withG bx [(3, 64)]).readG 3).toNat :=
  ⟨clear_bx, by decide +kernel⟩

theorem witness_VectorLoadsAndStores_row : Free ox ∧ Settled ox ∧
    (∀ k < 64 / 2 ^ (3#2).toNat, ((ox.modMe (fun x => x.setP 1 1)).readP 1).getLsbD (2 ^ (3#2).toNat * k) = true → k = 0) ∧
    (ox.readG 2).toNat % 8 = 0 ∧ Maps ox (ox.readG 2) .read (some .own) 0x8000 ∧ Maps ox (ox.readG 2) .write (some .own) 0x8000 ∧
    isDevice 0x8000 = false ∧ Owned ox 0x8000 0x1122334455667788 :=
  ⟨free_of (by decide +kernel), settled_of (by decide +kernel), by decide +kernel, by decide +kernel, maps_of (by decide +kernel), maps_of (by decide +kernel),
    by decide +kernel, owned_of (by decide +kernel)⟩

theorem witness_SystemRegisters : Clear bx ∧ bx.me.life = .running ∧ bx.inX7 = true := ⟨clear_bx, by decide +kernel⟩

/-- X7 with context 2 parked and its number in g3; and with a number that is none, and a running context. -/
def parked (r : Reason) : State := withG { bx with ctxs := [(2, { Context.vacant with life := .parked r, pc := 0x500, tcb := 0x60000 })] ++ bx.ctxs } [(3, 2)]

theorem witness_ContextRegisterAccess : Clear (parked .stop) ∧ Clear (parked .fault) ∧ bx.inX7 = true ∧ 7 ≤ ((withG bx [(3, 7)]).readG 3).toNat ∧ ((withG bx [(3, 6)]).readG 3).toNat < 7 ∧
    (bx.ctx 6).life = .vacant ∧ (parked .stop).inX7 = true ∧ ((parked .stop).readG 3).toNat < 7 ∧ ((parked .stop).ctx 2).life = .parked .stop :=
  ⟨clear_of (by decide +kernel), clear_of (by decide +kernel), by decide +kernel⟩
theorem witness_TrapReturns : Clear (parked .fault) ∧ (parked .fault).inX7 = true ∧ Settled (parked .fault) ∧ ((parked .fault).ctx 2).life = .parked .fault ∧
    ((parked .fault).readG 3).toNat < 256 ∧ ((parked .fault).ctx 2).pstop = false ∧
    (((parked .trap).modCtx 2 (fun x => { x with pstop := true })).ctx 2).pstop = true ∧ ((parked .trap).readG 0).toNat % 4 = 0 :=
  ⟨clear_of (by decide +kernel), by decide +kernel, settled_of (by decide +kernel), by decide +kernel⟩
theorem witness_TrapReturns_evict : ((withG (parked .trap) [(3, 0x202)]).readG 3).toNat < 1024 ∧ ((withG (parked .trap) [(3, 0x202)]).readG 3).toNat % 256 < 7 ∧
    ((withG (parked .trap) [(3, 0x202)]).readG 3).getLsbD 9 = true := by decide +kernel
theorem witness_WaitForMessageAndTlb : Clear bx ∧ bx.inX7 = true ∧ (bx.core bx.myCore).mq = [] ∧ 0 < (28#5).toNat ∧ (28#5).toNat ≤ 28 ∧
    ((bx.modCore 0 (fun k => { k with mq := [⟨1, 2, 3, 4⟩] })).core 0).mq = ⟨1, 2, 3, 4⟩ :: [] ∧ Settled bx ∧
    (∀ c ∈ bx.clusters, c.2.putq = []) ∧ (∀ e ∈ bx.engines, e.2.puts = []) :=
  ⟨clear_bx, by decide +kernel, by decide +kernel, by decide, by decide, by decide +kernel, drained_bx.1, by decide +kernel, by decide +kernel⟩
theorem witness_YieldSleepAndExit : Clear bx ∧ bx.inX7 = true ∧ Clear bu ∧ bu.inX7 = false ∧ bu.outranked = false :=
  ⟨clear_bx, by decide +kernel, clear_bu, by decide +kernel, by decide +kernel⟩

/-- A thread's header in memory: PRIO, TNO and AFFINITY. -/
def withThread (s : State) (tcb prio tno aff : Nat) : State :=
  let put := fun (m : List Host.Cell) (off v : Nat) => memPutWord m (tcb + off) (BitVec.ofNat 64 v)
  { s with mem := put (put (put s.mem 0xC08 prio) 0xC10 tno) 0xC18 aff }

theorem witness_YieldSleepAndExit_outranked : ((withThread bu 0x60000 9 5 1).enqueue 0 0x60000).outranked = true ∧
    Clear ((withThread bu 0x60000 9 5 1).enqueue 0 0x60000) := ⟨by decide +kernel, clear_of (by decide +kernel)⟩

/-- X7 names in g1 a thread whose header words its cluster owns: state, PRIO 5, tenant 7, AFFINITY 1. -/
def named (st grp : Word) : State := withOwned (withG bx [(1, 0x60000), (2, 23), (3, 24)])
  ([(0, st), (1, 5), (2, 7), (3, 1), (4, grp), (5, 0), (6, 0), (7, 0), (8, 0), (9, 0), (10, 0), (11, 0)].map (fun p => (0x60000 + 0xC00 + 8 * p.1, p.2)))
def header (st grp : Word) (k : Nat) : Word := [st, 5, 7, 1, grp].getD k 0

theorem names_named (st grp : Word) (h : (mapsB (named st grp) 0x60000 .write (some .own) 0x60000 &&
      decide ((named st grp).readG 1 = 0x60000 ∧ (named st grp).inX7 = true) && decide ((header st grp 2).setWidth 12 = 7#12) &&
      (List.range 12).all (fun k => ownedB (named st grp) (0x60000 + 0xC00 + 8 * k) (header st grp k))) = true) :
    NamesThread (named st grp) ((named st grp).readG 1) 0x60000 (header st grp) := by
  simp only [Bool.and_eq_true, decide_eq_true_eq, List.all_eq_true, List.mem_range] at h
  rw [h.1.1.2.1]
  exact ⟨by decide, maps_of h.1.1.1, by decide +kernel, fun k hk => owned_of (h.2 k hk), Or.inl h.1.1.2.2⟩

theorem witness_SpawnWakeAndPriority : Free (named 0 0) ∧ Settled (named 0 0) ∧ NamesThread (named 0 0) ((named 0 0).readG 1) 0x60000 (header 0 0) ∧ (header 0 0 4).toNat = 0 ∧
    Drained (named 0 0) ∧ (named 0 0).spawnRefused 0x60000 = false ∧ (header 0 0 0).toNat % 16 ≠ 5 ∧ 23 < ((named 0 0).readG 3).toNat ∧
    ((named 0 0).readG 2).toNat ≤ 23 ∧ (named 0 0).inX7 = true :=
  ⟨free_of (by decide +kernel), settled_of (by decide +kernel), names_named 0 0 (by decide +kernel), by decide +kernel, drained_of (by decide +kernel), by decide +kernel⟩
theorem witness_SpawnWakeAndPriority_sleeping : Free (named 5 0) ∧ Settled (named 5 0) ∧ NamesThread (named 5 0) ((named 5 0).readG 1) 0x60000 (header 5 0) ∧
    (header 5 0 0).toNat % 16 = 5 ∧ (named 5 0).spawnRefused 0x60000 = true :=
  ⟨free_of (by decide +kernel), settled_of (by decide +kernel), names_named 5 0 (by decide +kernel), by decide +kernel, by decide +kernel⟩

/-- X7 with source, target, length and counter of a put in g1-g4, its source owned. -/
def putting (n : Word) : State := withOwned (withG bx [(1, 0x8FF8), (2, 0x9000), (3, n), (4, 0xA000)]) [(0x8FF8, 0x1122334455667788)]

theorem witness_CountersAndWaits : Free ox ∧ isDeviceSel (BitVec.ofNat 64 (2 ^ 63 + 7)) = true ∧ selIndexOk (BitVec.ofNat 64 (2 ^ 63 + 7)) = true ∧
    selRsv (BitVec.ofNat 64 (2 ^ 63 + 7)) = 0 ∧ ox.selUnitOk (BitVec.ofNat 64 (2 ^ 63 + 7)) = true ∧ ox.inX7 = true ∧ Settled ox ∧
    isDeviceSel 0x8000 = false ∧ Maps ox 0x8000 .read none 0x8000 ∧ isDevice 0x8000 = false ∧ Owned ox 0x8000 0x1122334455667788 :=
  ⟨free_of (by decide +kernel), by decide +kernel, by decide +kernel, by decide +kernel, by decide +kernel, by decide +kernel, settled_of (by decide +kernel),
    by decide +kernel, maps_of (by decide +kernel), by decide +kernel, owned_of (by decide +kernel)⟩
theorem witness_CountersAndWaits_set : Free bx ∧ Settled bx ∧ Maps bx 0x8000 .write none 0x8000 ∧ (bx.clWord bx.myCluster 0x8000).st = .i ∧ bx.ownerOf 0x8000 = none ∧
    tfind bx.errs 0x8000 = none ∧ bx.flights = [] ∧ bx.slc = [] ∧ (bx.pkg (sockOf 0x8000)).fotbase = 0 ∧ Memory.wf bx.mem = true :=
  ⟨free_bx, drained_bx.1, maps_of (by decide +kernel), by decide +kernel⟩
theorem witness_CountersAndWaits_account : (0xFFF03 : Word).toNat < 2 ^ 20 ∧ bx.hasCluster bx.myCluster = true := by decide +kernel
theorem witness_CountersAndWaits_target : ((withG ox [(1, 0x1122334455667789)]).readG 2).toNat % 8 = 0 ∧
    (0x1122334455667788 : Word).toNat < ((withG ox [(1, 0x1122334455667789)]).readG 1).toNat ∧
    ((withG ox [(1, 0x1122334455667788)]).readG 1).toNat ≤ (0x1122334455667788 : Word).toNat ∧ (ox.cluster ox.myCluster).waits.length < 1024 := by decide +kernel

theorem witness_PutsEnterThePutQueue : Free (putting 8) ∧ Drained (putting 8) ∧ CounterAt (putting 8) ((putting 8).readG 4) .own 0xA000 ∧
    ((putting 8).readG 3).toNat = 8 ∧ Reaches1 (putting 8) ((putting 8).readG 1) 8 .read .own 0x8FF8 ∧
    Reaches1 (putting 8) ((putting 8).readG 2) 8 .write .own 0x9000 ∧ (∀ j < 8, Owned (putting 8) (0x8FF8 + j) 0x1122334455667788) ∧
    Reaches1 (putting 8) ((putting 8).readG 2) 64 .write .own 0x9000 ∧ ((putting 8).cluster (putting 8).myCluster).putq.length < 64 ∧
    (putting 8).putBytes (putting 8).myCluster + (8 + 63) / 64 * 64 ≤ 131072 ∧ ((putting 8).cluster (putting 8).myCluster).putWait = [] :=
  ⟨free_of (by decide +kernel), drained_of (by decide +kernel), counter_of (by decide +kernel), by decide +kernel, reaches_of (by decide +kernel),
    reaches_of (by decide +kernel), fun j h => owned_of ((by decide +kernel : ∀ j < 8, ownedB (putting 8) (0x8FF8 + j) 0x1122334455667788 = true) j h),
    reaches_of (by decide +kernel), by decide +kernel⟩
theorem witness_PutsEnterThePutQueue_length : (putting 0).readG 3 = 0 ∧ 4096 < ((putting 4097).readG 3).toNat := by decide +kernel

/-- X7 with a copy's operands in g1-g5: record, source, target, length and counter; the record's words owned. -/
def copying (n ctl : Word) : State := withOwned (withG bx [(1, 0x8000), (2, 0x9000), (3, 0xA000), (4, n), (5, 0xB000)])
  ((List.range 16).map (fun k => (0x8000 + 8 * k, if k = 5 then ctl else if k = 2 then 8 else 0)))

theorem witness_CopiesEnterTheCopyQueue : Free (copying 8 0x400) ∧ Drained (copying 8 0x400) ∧ ((copying 8 0x400).readG 1).toNat % 128 = 0 ∧
    Reaches1 (copying 8 0x400) ((copying 8 0x400).readG 1) 128 .write .own 0x8000 ∧
    (∀ k < 16, Owned (copying 8 0x400) (0x8000 + 8 * k) (if k = 5 then 0x400 else if k = 2 then 8 else 0)) ∧
    ((copying 8 0x400).cluster (copying 8 0x400).myCluster).copyq.length < 256 ∧ CounterAt (copying 8 0x400) ((copying 8 0x400).readG 5) .own 0xB000 ∧
    ((copying 8 0x400).readG 4).toNat < 2 ^ 52 ∧ (0x400 : Word).extractLsb' 8 4 = 4 ∧ (copying 8 0x400).inX7 = true ∧ (0x400 : Word).toNat < 2 ^ 40 :=
  ⟨free_of (by decide +kernel), drained_of (by decide +kernel), by decide +kernel, reaches_of (by decide +kernel),
    fun k h => owned_of ((by decide +kernel : ∀ k < 16, ownedB (copying 8 0x400) (0x8000 + 8 * k) (if k = 5 then 0x400 else if k = 2 then 8 else 0) = true) k h),
    by decide +kernel, counter_of (by decide +kernel), by decide +kernel⟩
theorem witness_CopiesEnterTheCopyQueue_length : 2 ^ 52 ≤ ((copying 0x10000000000000 0).readG 4).toNat ∧ ((copying 0 0x100).readG 4).toNat = 0 ∧
    (0x100 : Word).extractLsb' 8 4 ≠ 4 ∧ (0x100 : Word).extractLsb' 8 4 ≠ 5 := by decide +kernel
theorem witness_CopiesEnterTheCopyQueue_performed : (∀ k < 16, (copying 8 0x400).backed ((copying 8 0x400).myCluster / 64) (0x8000 + 8 * k) = true) ∧
    ((copying 8 0x400).core (copying 8 0x400).myCore).sbuf = [] ∧ ((copying 8 0x400).cluster (copying 8 0x400).myCluster).copyWait = [] ∧ 0 < ((copying 8 0x400).readG 4).toNat := by decide +kernel

/-- A bound thread: engine 0, binding 0; g1 to g3 as given, m1 a shape of one row. -/
def bound : State :=
  let s := { bu with mem := memPutWord [] 0x50C28 0x200000 }
  (withPage (s.bind 0 0x50000 (List.replicate 4 [], List.replicate 8 { data := [], scale := [] })) 0x8000 0x9000).modMe
    (fun x => (x.setG 1 0x8000).setM 1 1)

theorem bound_bound : BoundAt bound 0 0 := bound_of (by decide +kernel)
theorem free_bound : Free bound := free_of (by decide +kernel)

theorem witness_TileMoves : Clear bound ∧ BoundAt bound 0 0 ∧ TileReady bound 0 0 true ∧ TileReady bound 0 0 false ∧
    (bound.readG 0).toNat < 192 ∧ 1 ≤ ((withG bound [(2, 64)]).readG 2).toNat ∧ ((withG bound [(2, 64)]).readG 2).toNat ≤ 64 ∧
    -(2 ^ 31) ≤ ((withG bound [(2, -2147483648)]).readG 2).toInt ∧ ((withG bound [(2, 2147483647)]).readG 2).toInt < 2 ^ 31 :=
  ⟨clear_of (by decide +kernel), bound_bound, by unfold TileReady; decide +kernel, by unfold TileReady; decide +kernel, by decide +kernel⟩
theorem witness_TileMoves_edges : ((withG bound [(2, 511)]).readG 2).toNat < 512 ∧ ((withG bound [(2, 191)]).readG 2).toNat < 192 ∧ (2#2) ≠ 1 := by decide +kernel
theorem witness_TileArithmetic : Clear bound ∧ BoundAt bound 0 0 ∧ bound.mmaHeld bound.myCluster bound.me.tno = false ∧
    (bound.opTile 0 0 1).badRecord (3#2).toNat = none ∧ (bound.opTile 0 0 2).badRecord (3#2).toNat = none ∧
    (bound.opTile 0 0 5).badNibble 64 = some (0, 0) ∧ TileReady bound 0 0 true ∧ TileReady bound 0 0 false :=
  ⟨clear_of (by decide +kernel), bound_bound, by decide +kernel, by decide +kernel, by decide +kernel, by decide +kernel,
    by unfold TileReady; decide +kernel, by unfold TileReady; decide +kernel⟩
theorem witness_TileLoads : Free bound ∧ Settled bound ∧ BoundAt bound 0 0 ∧ RowsAt bound 1 (bound.readG 1 + (0#27).signExtend 64) 128 .read .own (fun _ => 0x9000) ∧
    TileReady bound 0 0 false :=
  ⟨free_bound, settled_of (by decide +kernel), bound_bound, rows_of (by decide +kernel), by unfold TileReady; decide +kernel⟩
theorem witness_TileStores : Free bound ∧ Drained bound ∧ BoundAt bound 0 0 ∧ (shapeOf (bound.readM 1)).plane = false ∧
    (bound.engine 0).storeEntries + (shapeOf (bound.readM 1)).rows + 2 ≤ 256 ∧ (bound.engine 0).waiting = [] ∧ (bound.readG 1).toNat % 8 = 0 ∧
    Reaches1 bound (bound.readG 1) 8 .atomic .own 0x9000 ∧ RowsAt bound 1 (bound.readG 1 + (0#27).signExtend 64) 128 .write .own (fun _ => 0x9000) ∧
    RowsAt bound 1 (bound.readG 1 + (0#27).signExtend 64) 256 .write .own (fun _ => 0x9000) :=
  ⟨free_bound, drained_of (by decide +kernel), bound_bound, by decide +kernel, by decide +kernel, by decide +kernel, by decide +kernel, reaches_of (by decide +kernel),
    rows_of (by decide +kernel), rows_of (by decide +kernel)⟩

/-- The same thread, its operand tiles full of the nibble 0100, which names positions 0 and 1. -/
def sparse : State :=
  { bound with engines := [] }.bind 0 0x50000 (List.replicate 4 [], List.replicate 8 { data := List.replicate 64 (BitVec.ofNat 1024 (4 * (2 ^ 1024 - 1) / 15)), scale := [] })

theorem witness_TileArithmetic_sparse : Clear sparse ∧ BoundAt sparse 0 0 ∧ (sparse.opTile 0 0 1).badRecord (3#2).toNat = none ∧
    (sparse.opTile 0 0 3).badRecord (3#2).toNat = none ∧ (sparse.opTile 0 0 5).badNibble 32 = none ∧ (sparse.engine 0).freeTiles true ≠ [] :=
  ⟨clear_of (by decide +kernel), bound_of (by decide +kernel), by decide +kernel⟩

/-- A shape of one row with a scale plane at +128; a version word; the rows owned. -/
def loading (n : Word) (plane : Bool) : State :=
  (withOwned (withG bound [(2, 0x8200)]) ((List.range 18).map (fun k => (0x9000 + 8 * k, BitVec.ofNat 64 k)) ++ [(0x9200, n)])).modMe
    (fun x => (x.setM 1 (if plane then BitVec.ofNat 128 (1 + 128 * 2 ^ 96) else 1)))

theorem witness_TileLoads_owned : RowsAt (loading 0 false) 1 ((loading 0 false).readG 1 + (0#27).signExtend 64) 128 .read .own (fun _ => 0x9000) ∧
    (∀ r < 1, ∀ k < 16, Owned (loading 0 false) (0x9000 + 8 * k) (BitVec.ofNat 64 k)) ∧ BoundAt (loading 0 false) 0 0 ∧
    (shapeOf ((loading 0 false).readM 1)).plane = false ∧ Reaches1 (loading 0 false) ((loading 0 false).readG 2) 8 .atomic .own 0x9200 ∧
    Owned (loading 0 false) 0x9200 0 ∧ Owned (loading 1 false) 0x9200 1 ∧ (loading 1 false).me.attempt < (loading 1 false).me.vrlimit.toNat :=
  ⟨rows_of (by decide +kernel), fun _ _ k hk => owned_of ((by decide +kernel : ∀ k < 16, ownedB (loading 0 false) (0x9000 + 8 * k) (BitVec.ofNat 64 k) = true) k hk),
    bound_of (by decide +kernel), by decide +kernel, reaches_of (by decide +kernel), owned_of (by decide +kernel), owned_of (by decide +kernel), by decide +kernel⟩
theorem witness_TileLoads_retries_spent : (((loading 1 false).modMe (fun x => { x with attempt := 16 })).me.vrlimit.toNat) ≤
    ((loading 1 false).modMe (fun x => { x with attempt := 16 })).me.attempt := by decide +kernel
theorem witness_TileLoads_plane : (shapeOf ((loading 0 true).readM 1)).plane = true ∧ (shapeOf ((loading 0 true).readM 1)).rows = 1 ∧
    (scaleAddr ((loading 0 true).readG 1) (shapeOf ((loading 0 true).readM 1)) 0).toNat % 8 = 0 ∧
    Reaches1 (loading 0 true) (scaleAddr ((loading 0 true).readG 1) (shapeOf ((loading 0 true).readM 1)) 0) 16 .read .own 0x9080 ∧
    (∀ k < 2, Owned (loading 0 true) (0x9080 + 8 * k) (BitVec.ofNat 64 (16 + k))) :=
  ⟨by decide +kernel, by decide +kernel, by decide +kernel, reaches_of (by decide +kernel),
    fun k hk => owned_of ((by decide +kernel : ∀ k < 2, ownedB (loading 0 true) (0x9080 + 8 * k) (BitVec.ofNat 64 (16 + k)) = true) k hk)⟩

/-- An EFC in the last but one instruction of its program. -/
def filtering : State := bx.modEfc 0 (fun x =>
  { x with slotlen := [(2, 2)], run := some { x.runOf ⟨1, 2, 3, 4⟩ with slots := [2], regs := [(1, 5)], lens := [(2, 2)] } })

theorem witness_FilterInstructions : ((filtering.efc filtering.curEfc).run.map (fun r => decide (r.index + 1 < r.len (r.slots.headD 0)))) = some true ∧
    2 ^ 2 ≤ (5 : Word).toNat ∧ (5 : Word).toNat < 2 ^ (2 + 1) ∧ filtering.hasCore (512 * (filtering.curEfc / 68) + (filtering.efc filtering.curEfc).tcore.toNat) = true ∧
    (filtering.core 0).mq.length < 64 := by decide +kernel

/-- A thread waits in queue 5 of cluster 0; another in a queue of cluster 1. -/
def queued : State := (withThread bx 0x60000 5 7 3).enqueue 0 0x60000
def elsewhere : State := (withThread bx 0x60000 5 7 3).enqueue 1 0x60000
/-- A cluster of one core, its user contexts full, and a better thread in its queue. -/
def crowded : State :=
  let s := { withThread (withThread bu 0x50000 3 5 1) 0x60000 9 5 1 with fuses := [(0, { Fuses.full with cores := 1, clusters := 1 })] }
  let s := (List.range 7).foldl (fun t c => t.setCtx c { bu.ctx 0 with tcb := if c = 0 then 0x50000 else 0x70000 + 0x1000 * c }) s
  s.enqueue 0 0x60000

theorem no_share {s : State} (h : ∀ sock, (s.pkg sock).tenants = []) (sock : Nat) (tno : BitVec 12) : s.overShare sock tno = false := by
  simp [State.overShare, State.tenant, h, tget, tfind, Tenant.zero]

theorem pkg_empty {s : State} (h : ∀ e ∈ s.pkgs, e.2.tenants = []) (sock : Nat) : (s.pkg sock).tenants = [] := by
  unfold State.pkg tget
  cases hf : tfind s.pkgs sock with
  | none => simp [Package.init]
  | some p => simpa using h _ (tfind_mem hf)

theorem witness_DispatchersPlaceAndPreempt_place : (∀ sock tno, queued.overShare sock tno = false) ∧ (queued.lookOver 0).choose 0 0 ((queued.lookOver 0).vacants 0).length = some (5, 0x60000) ∧
    (queued.lookOver 0).groupNo 0 0x60000 = none ∧ (queued.lookOver 0).queueOf 0 0x60000 = some 5 ∧ ((queued.lookOver 0).vacants 0).head? = some 0 ∧
    (readUnit 0 13 (tcbWords 0x60000) (((queued.lookOver 0).unlink 0 5 0x60000).discardU 0)).2 = none ∧ (queued.lookOver 0).preempting 0 = none ∧ queued.idle 0 = false :=
  ⟨no_share (pkg_empty (by decide +kernel)), by decide +kernel⟩
theorem witness_DispatchersPlaceAndPreempt_nothing : (∀ sock tno, bx.overShare sock tno = false) ∧ (∀ q < 24, ∀ u ∈ (bx.lookOver 0).queue 0 q, (bx.lookOver 0).eligible 0 0 q u = false) :=
  ⟨no_share (pkg_empty (by decide +kernel)), by decide +kernel⟩
theorem witness_DispatchersPlaceAndPreempt_preempt : (∀ sock tno, crowded.overShare sock tno = false) ∧ (crowded.lookOver 0).vacants 0 = [] ∧
    (crowded.lookOver 0).preempting 0 = some 0x60000 ∧ (crowded.lookOver 0).groupNo 0 0x60000 = none ∧ ((crowded.lookOver 0).victimFor 0 0x60000).isSome = true ∧
    (∀ x < 7, (crowded.lookOver 0).groupNo 0 ((crowded.lookOver 0).ctx x).tcb = none ∧ ((crowded.lookOver 0).ctx x).life ≠ .parked .cwait) :=
  ⟨no_share (pkg_empty (by decide +kernel)), by decide +kernel⟩
theorem witness_DispatchersPlaceAndPreempt_pull : (∀ sock tno, elsewhere.overShare sock tno = false) ∧ elsewhere.idle 0 = true ∧
    elsewhere.pullable 0 = some (1, 5, 0x60000) ∧ elsewhere.groupNo 1 0x60000 = none ∧ elsewhere.queueOf 1 0x60000 = some 5 :=
  ⟨no_share (pkg_empty (by decide +kernel)), by decide +kernel⟩
/-- A thread that a TILEBIND park holds, and one that has ended. -/
def binding : State := bu.modCtx 0 (fun x => { x with life := .parked .tilebind })
def ending (drains : List TileDrain) : State :=
  withOwned (({ bu with exiting := [{ tcb := 0x70000, cluster := 0 }] }).modEngine 0 (fun e => { e with storeq := drains })) [(0x70C00, 2)]
def storing : State := (ending []).modCore 0 (fun k =>
  { k with sbuf := [{ ctx := 0, tcb := 0x70000, tno := 5, pc := 0, pa := 0x8000, n := 8, data := 1, pol := .own, rel := none }] })
def drain (step : DrainStep) : TileDrain := { ctx := 0, tcb := 0x70000, tno := 5, pc := 0, pol := .own, scope := .clu, rel := none, held := none, step := step }

theorem witness_DispatchersPlaceAndPreempt_bind : isX7 0 = false ∧ (binding.ctx 0).life = .parked .tilebind ∧ (binding.ctx 0).tcb ≠ 0 ∧ (binding.ctx 0).pfault = none ∧
    (binding.ctx 0).pstop = false ∧ binding.holder (binding.ctx 0).tcb = none ∧ binding.roomyEngine 0 = some 0 ∧ (binding.engine 0).hasTiles = true ∧
    ((binding.readHeaders 0 [(binding.ctx 0).tcb]).tcbWord 0 (binding.ctx 0).tcb 0xC58).getLsbD 62 = false ∧ (bu.ctx 0).life ≠ .parked .tilebind := by decide +kernel
theorem witness_DispatchersPlaceAndPreempt_exit : (ending []).exiting = { tcb := 0x70000, cluster := 0 } :: [] ∧
    (∀ d ∈ (ending []).enginesOf 0, ∀ w ∈ ((ending []).engine d).storeq, w.tcb ≠ 0x70000) ∧ (∀ k ∈ (ending []).coresOf 0, ∀ w ∈ ((ending []).core k).sbuf, w.tcb ≠ 0x70000) ∧
    ((ending []).clWord 0 (0x70000 + 0xC00)).st = .o ∧ ((ending []).clWord 0 (0x70000 + 0xC00)).bad = false ∧
    (∃ d ∈ (ending [drain .release]).enginesOf 0, ∃ w ∈ ((ending [drain .release]).engine d).storeq, w.tcb = 0x70000) ∧
    (∃ k ∈ storing.coresOf 0, ∃ w ∈ (storing.core k).sbuf, w.tcb = 0x70000) ∧ (∀ z ∈ bu.exiting, z.tcb ≠ 0x70000) := by
  decide +kernel

/-- A thread whose quantum is over, alone and with a peer. -/
def spent : State := withThread (withThread (bu.modCtx 0 (fun x => { x with qleft := 0 })) 0x50000 3 5 1) 0x60000 3 5 1

theorem witness_QuantumExpiry : spent.hasCtx 0 = true ∧ (spent.ctx 0).tcb ≠ 0 ∧ (spent.ctx 0).life = .running ∧ spent.quantumLeft 0 = 0 ∧ isX7 0 = false ∧
    (∀ k < 24, ∀ u ∈ spent.queue 0 k, spent.eligible 0 0 k u = false) ∧ (∃ u ∈ (spent.enqueue 0 0x60000).queue 0 3, (spent.enqueue 0 0x60000).level 0 3 u = 3 ∧ (spent.enqueue 0 0x60000).eligible 0 0 3 u = true) ∧
    (spent.enqueue 0 0x60000).effective 0 0x50000 = 3 ∧ (spent.enqueue 0 0x60000).groupNo 0 0x50000 = none ∧ bu.quantumLeft 0 ≠ 0 := by decide +kernel

/-- Sleepers and waiters of cluster 0. -/
def sleeping (now : Nat) (l m : List Sleeper) : State :=
  { withThread bu 0x60000 5 7 1 with clusters := [(0, { Cluster.init with sleepers := l, sleepOver := m })], clock := now }
def waiter : WaitEntry := { ctr := 0x8000, target := 5, scope := .clu, who := .ctx 0 }
def counting (v : Word) : State :=
  withOwned { bu.modCtx 0 (fun x => { x with life := .parked .cwait }) with clusters := [(0, { Cluster.init with waits := [waiter], recheck := [0x8000] })] } [(0x8000, v)]
def overflowed (v : Word) : State :=
  withOwned { withThread { bu with mem := memPutWord (memPutWord [] 0x60C40 0x8002) 0x60C48 5 } 0x60000 4 7 1 with
    clusters := [(0, { Cluster.init with waitOver := [0x60000] })] } [(0x8000, v)]

theorem witness_WindowsSleepersAndWaiters_sleepers : ((sleeping 100 [⟨0x60000, 31⟩] []).cluster 0).sleepers = ⟨0x60000, 31⟩ :: [] ∧
    31 ≤ (sleeping 100 [⟨0x60000, 31⟩] []).clock * 5 / 16 ∧ (∀ e ∈ ((sleeping 100 [⟨0x60000, 32⟩] []).cluster 0).sleepers, (sleeping 100 [⟨0x60000, 32⟩] []).clock * 5 / 16 < e.deadline) ∧
    (∀ e ∈ ((sleeping 100 [] [⟨0x60000, 32⟩]).cluster 0).sleepOver, (sleeping 100 [] [⟨0x60000, 32⟩]).clock * 5 / 16 < e.deadline) ∧
    ((sleeping 100 [⟨0x60000, 31⟩] []).cluster 0).sleepers.find? (fun e => decide (e.deadline ≤ (sleeping 100 [⟨0x60000, 31⟩] []).clock * 5 / 16)) = some ⟨0x60000, 31⟩ ∧
    ((sleeping 100 [] [⟨0x60000, 31⟩]).cluster 0).sleepOver = [⟨0x60000, 31⟩] ∧ (bu.pkg 0).tentbase = 0 := by decide +kernel
theorem witness_WindowsSleepersAndWaiters_time : (bu.ctxs.map (·.1)).Nodup ∧ ((bu.pkg 0).unadded.map (·.1)).Nodup ∧ (∀ e ∈ (bu.pkg 0).unadded, e.1 < 4096) ∧
    (∀ d ∈ bu.clusters, d.1 / 64 = 0 → d.2.walk = []) ∧ (4095 : Nat) < 4096 := by decide +kernel
theorem witness_WindowsSleepersAndWaiters_walk :
    let s := { withThread bu 0x60000 5 7 1 with clusters := [(0, { Cluster.init with runq := [(0, [0x60000])], walk := [0x60000] })] }
    (s.cluster 0).walk = [0x60000] ∧ (s.queue 0 0).head? = some 0x60000 := by decide +kernel
theorem witness_WindowsSleepersAndWaiters_recheck : ((counting 5).cluster 0).waits.filter (fun e => lineOf e.ctr == 0x8000) = [waiter] ∧
    ((counting 5).clWord 0 0x8000).st = .o ∧ ((counting 5).clWord 0 0x8000).bad = false ∧ ((counting 5).clWord 0 0x8000).single = false ∧ ((counting 5).clWord 0 0x8000).data = 5 ∧
    ((counting 4).clWord 0 0x8000).data = 4 ∧ (bu.cluster 0).waits.filter (fun e => lineOf e.ctr == 0x8000) = [] := by decide +kernel
theorem witness_WindowsSleepersAndWaiters_overflow : (∀ k ∈ (overflowed 5).coresOf 0, ((overflowed 5).core k).x7wait = none) ∧
    ((overflowed 5).cluster 0).waitOver = [0x60000] ∧ ((overflowed 5).clWord 0 ((overflowed 5).tcbWait 0 0x60000).ctr).st = .o ∧
    ((overflowed 5).clWord 0 ((overflowed 5).tcbWait 0 0x60000).ctr).data = 5 ∧ ((overflowed 5).tcbWait 0 0x60000).target = 5 ∧
    ((overflowed 4).clWord 0 ((overflowed 4).tcbWait 0 0x60000).ctr).data = 4 ∧ ((overflowed 4).cluster 0).waits.length < 1024 ∧
    1024 ≤ (((overflowed 4).modCluster 0 (fun c => { c with waits := List.replicate 1024 waiter })).cluster 0).waits.length := by decide +kernel

theorem witness_WindowsSleepersAndWaiters_x7 :
    let w : WaitEntry := { waiter with who := .ctx 7 }
    let s := withOwned ((bu.modCore 0 (fun k => { k with x7wait := some w })).modCluster 0 (fun c => { c with waitOver := [] })) [(0x8000, 5)]
    0 ∈ s.coresOf 0 ∧ (s.core 0).x7wait = some w ∧ w.who = .ctx (x7Of 0) ∧ (∀ j ∈ s.coresOf 0, j ≠ 0 → (s.core j).x7wait = none) ∧ (s.cluster 0).waitOver = [] ∧
      (s.clWord 0 w.ctr).st = .o ∧ (s.clWord 0 w.ctr).data = 5 := by decide +kernel

/-- A multiply of the bound thread, queued and running; drains of a tile store. -/
def issue (tile : Option Nat) : Issue := { ctx := 0, instr := some (.tmma 1 2 3 3 false), tno := 5, w0 := 0, w1 := 0, acc := true, tile := tile, slowed := false }
def stalled : State := bound.modCtx 0 (fun x => { x with stall := .engine })
def issued : State := stalled.modEngine 0 (fun x => { x with issue := [issue none] })
def running : State := stalled.modEngine 0 (fun x => { x with running := some (issue (some 20)) })
def completing : State := { running with cur := 0, ir0 := 0, ir1 := 0 }
def draining (d : TileDrain) : State := withOwned (bu.modEngine 0 (fun x => { x with storeq := [d] })) [(0x8000, 99)]

theorem witness_EngineSteps_start : (issued.engine 0).running = none ∧ (issued.nextIssue 0).isSome = true ∧
    (running.engine 0).running.isSome = true ∧ (bound.engine 0).running = none ∧ bound.nextIssue 0 = none ∧ (bound.engine 0).storeq = [] := by decide +kernel
theorem witness_EngineSteps_complete : running.live (issue (some 20)) = true ∧ (bound.modEngine 0 (fun x => { x with running := some (issue none) })).live (issue none) = false ∧
    Free completing ∧ BoundAt completing 0 0 ∧ 20 ∉ (completing.binding 0 0).acc ∧ (∀ z ∈ (running.engine 0).issue, z.tile.isSome = true ∧ z.ctx ≠ 0) ∧
    (completing.opTile 0 0 2).badRecord (3#2).toNat = none ∧ (completing.opTile 0 0 3).badRecord (3#2).toNat = none :=
  ⟨by decide +kernel, by decide +kernel, free_of (by decide +kernel), bound_of (by decide +kernel), by decide +kernel⟩
theorem witness_EngineSteps_drain : ((draining (drain .release)).engine 0).storeq = drain .release :: [] ∧ (drain .release).scope ≠ .pkg ∧ (drain .release).scope ≠ .sys ∧
    ((draining (drain (.row [⟨0x8000, [1, 2, 3, 4, 5, 6, 7, 8]⟩]))).clWord (0 / 4) 0x8000).st = .o ∧ (draining (drain .release)).backed (0 / 4 / 64) 0x8000 = true ∧
    ((draining (drain (.version 0x9000))).clWord (0 / 4) 0x9000).st = .i ∧ (draining (drain (.version 0x9000))).ownerOf 0x9000 = none ∧
    (draining (drain (.version 0x9000))).flights = [] ∧ (draining (drain (.version 0x9000))).slc = [] ∧
    tfind bu.errs 0x9000 = none ∧ bu.joined (0 / 4 / 64) (sockOf 0x9000) = true ∧ (bu.pkg (sockOf 0x9000)).fotbase = 0 ∧ Memory.wf bu.mem = true := by decide +kernel

/-- A put with two pieces; one whose last line has landed; a row of a `put.t`; a record to copy, and a copy under way. -/
def entry (ctr : Option Nat) (ps : List Piece) (pending : Nat) : PutEntry :=
  { id := 3, origin := 0, tno := 5, pc := 4, pol := .own, scope := .clu, kind := 1, ctr := ctr, pieces := ps, pending := pending, size := 64 * ps.length }
def sending (z : PutEntry) : State := bu.modCluster 0 (fun c => { c with putq := [z, { entry none [] 1 with id := 4 }] })
def rowing : State := bu.modEngine 0 (fun x =>
  { x with puts := [{ id := 6, binding := 0, origin := 0, tno := 5, pc := 0, pol := .own, scope := .clu, ctr := none, held := none, pieces := [⟨0x8005, [1, 2, 3]⟩], unacked := 0, pending := 0 }] })
def record : State := withOwned (bu.modCluster 0 (fun c => { c with copyq := [{ rpa := 0x8000, cursor := 0 }] })) ((List.range 16).map (fun j => (0x8000 + 8 * j, BitVec.ofNat 64 j)))
def copyRun (cursor : Nat) : CopyRun :=
  { id := 7, rpa := 0x8000, src := 0xA005, dst := 0xB0F3, len := 1000, ctr := 0, cursor := cursor, start := cursor, pol := .own, scope := .clu, phys := true, tno := 5, asn := 0, ptroot := 0, origin := 0, pc := 0 }
def bursting : State := withOwned (bu.modCluster 0 (fun c => { c with copies := [copyRun 0] })) ((List.range 3).map (fun j => (0xA000 + 8 * j, BitVec.ofNat 64 j)))
def stopping : State := bu.modCluster 0 (fun c => { c with stops := [{ core := 0, stamp := 0, msg := ⟨66, 0x8000, 0, 0⟩ }] })

theorem witness_PutAndCopySteps_puts : ((sending (entry none [⟨0x8004, [1, 2, 3]⟩] 0)).cluster 0).nextPut = some (entry none [⟨0x8004, [1, 2, 3]⟩] 0) ∧
    (((sending (entry none [⟨0x8004, [1, 2, 3]⟩] 0)).cluster 0).putq.map (·.id)).Pairwise (· < ·) ∧ ((sending (entry (some 0x9000) [⟨0x8004, [1, 2, 3]⟩, ⟨0x8040, [4]⟩] 0)).cluster 0).putq.length = 2 ∧
    (entry none [] 1).id = 3 ∧ (entry none [] 1).ctr = none ∧ (∀ y ∈ [({ entry none [] 1 with id := 4 } : PutEntry)], y.id ≠ 3) ∧
    (∀ z ∈ (bu.cluster 0).putq, z.pieces = []) ∧ (∀ z ∈ ((sending (entry none [] 1)).cluster 0).putq, z.id ≠ 5) := by decide +kernel
theorem witness_PutAndCopySteps_row : (rowing.engine 0).openRows ≠ [] ∧ (bu.engine 0).openRows = [] := by decide +kernel
theorem witness_PutAndCopySteps_take : (record.cluster 0).copyq = { rpa := 0x8000, cursor := 0 } :: [] ∧ (record.cluster 0).copies.length + (record.cluster 0).stops.length < 8 ∧ 0x8000 % 128 = 0 ∧
    (∀ j < 16, (record.clWord 0 (0x8000 + 8 * j)).st = .o ∧ (record.clWord 0 (0x8000 + 8 * j)).bad = false ∧ (record.clWord 0 (0x8000 + 8 * j)).single = false ∧
      (record.clWord 0 (0x8000 + 8 * j)).data = BitVec.ofNat 64 j) ∧ (bu.cluster 0).copyq = [] := by decide +kernel
theorem witness_PutAndCopySteps_burst : (bursting.cluster 0).nextCopy = some (copyRun 0) ∧ ((bursting.cluster 0).copies.map (·.id)).Pairwise (· < ·) ∧ Memory.wf bursting.mem = true ∧ (copyRun 0).cursor + 13 < (copyRun 0).len ∧
    (bursting.tenant (0 / 64) (copyRun 0).tno).susp = false ∧ (copyRun 1000).len ≤ (copyRun 1000).cursor ∧ bursting.flights = [] ∧ bursting.slc = [] ∧ (∀ j < 13, bursting.backed 0 (0xA005 + j) = true ∧
      bursting.backed 0 (0xB0F3 + j) = true ∧ isDevice (0xA005 + j) = false ∧ isDevice (0xB0F3 + j) = false ∧ (bursting.clWord 0 (0xA005 + j)).st = .o ∧
      (bursting.clWord 0 (0xA005 + j)).bad = false ∧ (bursting.clWord 0 (0xA005 + j)).single = false ∧
      (∀ w < 8, (bursting.clWord 0 (lineOf (0xB0F3 + j) + 8 * w)).st = .i) ∧ (bursting.clWord 0 (0xA005 + j)).data = BitVec.ofNat 64 ((0xA005 + j) / 8 - 0x1400) ∧
      bursting.dirOf (lineOf (0xB0F3 + j)) = DirEntry.absent ∧ (bursting.pkg (sockOf (0xB0F3 + j))).fotbase = 0 ∧ (bursting.pkg (sockOf (0xB0F3 + j))).farVal = false) := by
  decide +kernel
theorem witness_PutAndCopySteps_suspended : ((bu.modPkg 0 (fun p => { p with tenants := [(5, { Tenant.zero with susp := true })] })).tenant (0 / 64) (copyRun 0).tno).susp = true ∧
    (copyRun 0).cursor < (copyRun 0).len := by decide +kernel
theorem witness_PutAndCopySteps_messages : (stopping.cluster 0).stops = [{ core := 0, stamp := 0, msg := ⟨66, 0x8000, 0, 0⟩ }] ∧ (stopping.core 0).slots = [] ∧
    (stopping.core 0).mq.length < 64 ∧ stopping.stopFor 0 = some (0, { core := 0, stamp := 0, msg := ⟨66, 0x8000, 0, 0⟩ }) ∧ ((bu.modCore 0 (fun k => { k with slots := [(3, ⟨1, 2, 3, 4⟩)] })).core 0).slots = (3, ⟨1, 2, 3, 4⟩) :: [] ∧
    (bu.cluster 0).stops = [] := by decide +kernel

/-- One message of the butterflies. -/
def message (place : Place) (cm : Bool) : Flight :=
  { place := place, sub := 0, classA := false, cm := cm, port := 3, slice := 70, served := none, far := none, req := { Req.outside .putLine 0x8000 [1] 5 with tag := .none } }
def flying (place : Place) (cm : Bool) : State := { bu with flights := [message place cm] }

theorem witness_ButterflySteps : (flying (.waiting 14) false).nextAdmission 3 = some (message (.waiting 14) false) ∧
    ((flying (.waiting 14) false).port 3).out < ((flying (.waiting 14) false).port 3).w ∧ (flying (.waiting 14) false).roomAt (stage1 3 70) (message (.waiting 14) false) = true ∧
    (((flying (.waiting 14) false).modPort 3 (fun p => { p with out := 64 })).port 3).w ≤ 64 ∧
    (flying (.output 1 0 1) false).headOf (standsIn 1 0 1) = some (message (.output 1 0 1) false) ∧
    bu.nextAdmission 3 = none ∧ bu.headOf (standsIn 1 0 1) = none := by decide +kernel
theorem witness_ButterflySteps_reply : (flying .reply true).flights.find? (fun f => f.port == 3 && f.place == .reply) = some (message .reply true) ∧ (message .reply true).port = 3 ∧ (message .reply true).req.tag = .none ∧
    (message .reply true).cm = true ∧ bu.flights.find? (fun f => f.port == 3 && f.place == .reply) = none := by decide +kernel

/-- Requests of cluster 3 for words of a line that nobody tracks, and for one that cluster 2 owns. -/
def request (words : BitVec 8) : Req := { Req.outside .rdU 0x8008 [0xAA, 0xBB] 5 with src := some 3, words := words, addr := 0x8008, size := 8, op := .add }
def untracked : State := { bu with mem := memPutWord [] 0x8008 0x1122334455667788 }
def tracked : State := { untracked.setClWord 2 0x8008 { CacheWord.absent with st := .o, data := 77 } with dir := [(0x8000, { DirEntry.absent with owners := [(1, 2)] })] }

theorem witness_HomesServeRequests : (request 2).line % 64 = 0 ∧ (request 2).words ≠ 0 ∧ (request 2).src = some 3 ∧ (request 2).acq = none ∧ (request 2).rel = none ∧
    untracked.flights = [] ∧ untracked.slc = [] ∧ (∀ e ∈ untracked.proxies, e.1 % 64 = 0) ∧ untracked.dirOf (request 2).line = DirEntry.absent ∧ (∀ w < 8, tfind untracked.errs ((request 2).line + 8 * w) = none) ∧
    (untracked.pkg (sockOf (request 2).line)).fotbase = 0 ∧ (untracked.pkg (sockOf (request 2).line)).farVal = false ∧ Memory.wf untracked.mem = true ∧
    (∀ e ∈ untracked.dir, e.1 % 64 = 0) ∧ (∀ w < 8, (untracked.clWord 3 ((request 2).line + 8 * w)).st = .i) ∧ untracked.dir.length + untracked.proxies.length < 15 ∧ untracked.joined (3 / 64) (sockOf (request 2).line) = true ∧
    (request 2).words = BitVec.ofNat 8 (2 ^ 1) ∧ (request 2).addr = (request 2).line + 8 * 1 := by decide +kernel
theorem witness_HomesServeRequests_owned : (request 2).src = some 3 ∧ (tracked.dirOf (request 2).line).owners = [(1, partyOf (request 2).line 2)] ∧
    tracked.ownerOf ((request 2).line + 8 * 1) = some 2 ∧ tracked.flights = [] ∧ tracked.slc = [] ∧ tracked.dir.length + tracked.proxies.length < 15 ∧ (tracked.dirOf (request 2).line).sharers = [] ∧
    tfind tracked.errs ((request 2).line + 8 * 1) = none ∧ Memory.wf tracked.mem = true ∧ (∀ e ∈ tracked.dir, e.1 % 64 = 0) ∧
    (tracked.clWord 3 ((request 2).line + 8 * 1)).st = .i ∧ (tracked.clWord 2 ((request 2).line + 8 * 1)).st = .o ∧
    (tracked.clWord 2 ((request 2).line + 8 * 1)).bad = false ∧ (tracked.clWord 2 ((request 2).line + 8 * 1)).data = 77 ∧
    tracked.joined (3 / 64) (sockOf (request 2).line) = true ∧ tracked.joined (sockOf (request 2).line) (2 / 64) = true := by decide +kernel
theorem witness_CachesAnswerAndWritesRefused : (tracked.clWord 2 (0x8000 - 0x8000 % 64 + 8 * (1 % 8))).st = .o ∧ (tracked.clWord 2 0x8008).bad = false ∧
    (bu.clWord 2 0x8008).st ≠ .o := by decide +kernel

/-- A refused write of tenant 5, without a log and with one of four places whose last it takes. -/
def letter : DeadLetter := { kind := 6, tno := 5, fote := 0x8123, origin := 33, pc := 0x44, pa := 0x9008, mask := 255, ctr := 3, copyRec := 4 }
def logging : State :=
  let s := bu.modPkg 0 (fun p => { p with tenants := [(5, { Tenant.zero with dlbase := 0x20000, dlsize := 4 })] })
  { s with mem := memPutWord (memPutWord [] 0x20000 5) 0x20008 2 }

theorem witness_CachesAnswerAndWritesRefused_letters : (bu.tenant (sockOf letter.pa) letter.tno).dlsize = 0 ∧ (logging.tenant 0 5).dlbase = 0x20000 ∧
    (logging.tableWord 0 0x20000 - logging.tableWord 0 0x20008).toNat < (logging.tenant 0 5).dlsize ∧ (logging.tableWord 0 0x20000).toNat % 4 = 1 ∧
    Memory.wf logging.mem = true ∧ (∀ k < 8, logging.tableBacked 0 (0x20080 + 8 * k) = true) ∧ logging.tableBacked 0 0x20000 = true ∧
    logging.flights = [] ∧ logging.dirOf 0x20080 = DirEntry.absent ∧ logging.dirOf 0x20000 = DirEntry.absent := by decide +kernel

/-- Tenant 5 with budgets. -/
def metered : State :=
  let s := bu.modPkg 0 (fun p => { p with tentbase := 0x200000, tenants := [(5, { Tenant.zero with ebudget := 10, erate := 7 })] })
  let match13 := BitVec.ofNat 64 (1 + 3 * 2 + 2 ^ (9 + 13) + 2 ^ 37 + 2 * 2 ^ 38)
  let oldest : Quad := ⟨BitVec.ofNat 64 (3 + 13 * 256 + 5 * 2 ^ 13), 1, 2, 3⟩
  s.modEfc 0 (fun x => { x with allow := [(5, -3)], en := true, slotlen := [(2, 5)], turn := 13, attach := [(2, match13)], fifos := [(13, [oldest])] })

theorem witness_EnergyAccounts : (bu.tenant 0 5).erate = 0 ∧ (metered.tenant (0 / 64) 5).erate ≠ 0 ∧ ((metered.pkg 0).tenants.map (·.1)).Nodup ∧
    (∀ z ∈ (metered.pkg 0).tenants, z.1 < 4096) ∧ (999 / 1000 ≠ 1000 / 1000) ∧ (metered.pkg 0).tentbase ≠ 0 := by decide +kernel
theorem witness_FiltersAndTables_records : (metered.efcs.map (·.1)).Nodup ∧ (metered.efc 0).run = none ∧
    tget (metered.efc 0).fifos ((metered.efc 0).turn % 16) [] = ⟨BitVec.ofNat 64 (3 + 13 * 256 + 5 * 2 ^ 13), 1, 2, 3⟩ :: [] ∧ (metered.efc 0).en = true ∧
    (metered.efc 0).matching (decide (64 ≤ 0 % 68)) ⟨BitVec.ofNat 64 (3 + 13 * 256 + 5 * 2 ^ 13), 1, 2, 3⟩ ≠ [] ∧ (metered.allowance 0 5).any (fun b => decide (b ≤ 0)) = true ∧
    (metered.allowance 1 5).all (fun b => decide (0 < b)) = true ∧ (filtering.efc 0).run.isSome = true := by decide +kernel

/-- A frame table at 0x100000: the entry of frame 8 locks it. -/
def framed (fotbase : Nat) : State :=
  let s := bu.modPkg 0 (fun p => { p with fotbase := fotbase })
  { s with mem := memPutWord [] 0x100010 0x8005 }

theorem witness_FiltersAndTables_tables : (0x8000 : Word).toNat % 4096 = 0 ∧ (framed 0x100000).isMemory (0x8000 : Word).toNat = true ∧ sockOf (0x8000 : Word).toNat = 0 ∧
    ((framed 0).pkg 0).fotbase = 0 ∧ ((framed 0x100000).pkg 0).fotbase ≠ 0 ∧ ((framed 0x100000).fotRead 0x8000).getLsbD 15 = true ∧
    ((framed 0x100000).fotRead 0x9000).getLsbD 15 = false ∧ (0x8001 : Word).toNat % 4096 ≠ 0 ∧ 4096 ≤ (0x1000 : Word).toNat ∧ (0xFFF : Word).toNat < 4096 ∧
    (framed 0x100000).flights = [] ∧ 0x8FC0 % 64 = 0 ∧ 0x8FC0 / 4096 = (0x8000 : Word).toNat / 4096 ∧ (framed 0x100000).joined 0 (63 / 64) = true ∧
    metered.hasEfc 67 = true := by decide +kernel

/-- Fabric port 1 far, or coherent, and up; FARID 9; three pieces to node 3. -/
def piece (seq : BitVec 32) : FarPiece := { seq := seq, bytes := [1, 2], rpa := 0x8000, rctr := 0, tno := 5, kind := 1, origin := 0, pc := 0, pa := 0x9000, copyRec := 0 }
def joined (mode : BitVec 2) (lretry : Bool) : State :=
  let link : FabPort := { mode := mode, peer := 0, up := true, lretry := lretry }
  let flow : OutFlow := { next := 7, kept := [piece 5, piece 6], timeouts := 6, resync := false, since := 0 }
  let s := bu.modPkg 0 (fun p => { p with farid := 9, farVal := true, ports := [(1, link)], flowsOut := [(3, flow)] })
  { s with clock := 320000 }
def frame (ty : BitVec 4) (fseq : BitVec 32) : Frame := { Frame.bare ty 3 9 fseq with len := 2, rpa := 0x803E, data := [7, 8] }

theorem witness_FabricAndLinkRetry : (bu.fusesOf 0).fab.getLsbD 15 = true ∧ (bu.fusesOf 0).fab.getLsbD 16 = false ∧ (0x7E : Word).toNat < 128 ∧ (0x7E : Word).toNat % 4 ≠ 3 ∧
    tfind ((joined 1 false).pkg 0).ports 1 = some { mode := 1, peer := 0, up := true, lretry := false } ∧
    tfind ((joined 2 false).pkg 0).ports 1 = some { mode := 2, peer := 0, up := true, lretry := false } ∧
    ((joined 2 false).modPkg 0 (fun q => { q with ports := tset q.ports 1 { mode := 2, peer := 0, up := false, lretry := false } })).farPorts 0 = [] ∧
    tfind ((joined 2 true).pkg 0).ports 1 = some { mode := 2, peer := 0, up := true, lretry := true } ∧ (0x1FFF : Word).toNat < 8192 ∧ 8192 ≤ (0x2000 : Word).toNat := by decide +kernel
theorem witness_FabricAndLinkRetry_frames : (joined 2 true).farOpen 0 1 = true ∧ (joined 2 true).frameGood 0 (frame 4 0) = true ∧ (joined 2 true).frameGood 0 (frame 5 0) = true ∧
    (frame 1 0).fcsGood = true ∧ { frame 1 0 with lseq := 1 }.lseq ≠ (tget ((joined 2 true).pkg 0).links 1 Link.first).expect ∧
    ((tget ((joined 2 true).pkg 0).links 1 Link.first).expect - { frame 1 0 with lseq := 1 }.lseq).toNat ≥ 2 ^ 31 := by decide +kernel
theorem witness_FarFlows_data : (∀ x, tfind ((joined 2 false).pkg 0).ports 1 = some x → x.lretry = false) ∧ (joined 2 false).farOpen 0 1 = true ∧ (joined 1 false).farOpen 0 1 = false ∧
    (joined 2 false).frameGood 0 (frame 1 0) = true ∧
    (frame 1 0).type = 1 ∧ (frame 1 0).fseq = (tget ((joined 2 false).pkg 0).flowsIn 3 InFlow.first).expect ∧ (tget ((joined 2 false).pkg 0).flowsIn 3 InFlow.first).unacked < 15 ∧
    (joined 2 false).tableBacked 0 (frame 1 0).rpa.toNat = true ∧ (joined 2 false).flights = [] ∧ (joined 2 false).slc = [] ∧ (frame 1 0).rpa.toNat % 64 + (frame 1 0).len.toNat ≤ 64 ∧ (frame 1 0).data.length = (frame 1 0).len.toNat ∧
    (joined 2 false).dirOf (lineOf (frame 1 0).rpa.toNat) = DirEntry.absent ∧ (joined 2 false).tableBacked 0 0x0018000000000 = false ∧ (frame 1 4).resync = false := by
  refine ⟨fun x hx => ?_, by decide +kernel⟩
  have : tfind ((joined 2 false).pkg 0).ports 1 = some { mode := 2, peer := 0, up := true, lretry := false } := by decide +kernel
  simp_all
theorem witness_FarFlows_answers : (joined 2 false).frameGood 0 (frame 2 5) = true ∧ (∃ z ∈ (tget ((joined 2 false).pkg 0).flowsOut 3 OutFlow.first).kept, seqLe z.seq 5 = true) ∧
    (joined 2 false).farPort 0 3 = some 1 ∧ (∀ z ∈ (tget ((joined 2 false).pkg 0).flowsOut 3 OutFlow.first).kept, seqLe z.seq (5 - 1) = false ∧ seqLe 5 z.seq = true) ∧
    (∀ z ∈ (tget ((joined 2 false).pkg 0).flowsOut 3 OutFlow.first).kept, z.seq ≠ 4) ∧ (∀ y ∈ [piece 6], y.seq ≠ 5) := by decide +kernel
theorem witness_FarFlows_timers : (tget ((joined 2 false).pkg 0).flowsOut 3 OutFlow.first).kept ≠ [] ∧
    (tget ((joined 2 false).pkg 0).flowsOut 3 OutFlow.first).since + (if ((joined 2 false).pkg 0).fartmo = 0 then 100 else ((joined 2 false).pkg 0).fartmo.toNat) * 1000 ≤
      (joined 2 false).clock * 5 / 16 ∧ (tget ((joined 2 false).pkg 0).flowsOut 3 OutFlow.first).timeouts < 7 ∧ (∀ z ∈ ((joined 2 false).pkg 0).flowsIn, z.2.unacked = 0) ∧
    (((joined 2 false).modPkg 0 (fun p => { p with flowsIn := [(3, { InFlow.first with unacked := 1 })] })).pkg 0).flowsIn = [(3, { InFlow.first with unacked := 1 })] := by
  decide +kernel

theorem witness_BootAndDebug_boot : (511 : Word).toNat < 512 ∧ bx.hasCore 1 = true ∧ (bx.ctx (x7Of 1)).bootHeld = true ∧ (bx.ctx (x7Of 0)).bootHeld = false ∧
    (bx.pkg 0).attLog.length < 1024 ∧ (bx.pkg 0).signing = none ∧ ((bx.modPkg 0 (fun p => { p with signing := some 5 })).pkg 0).signing = some 5 ∧
    1024 ≤ ((bx.modPkg 0 (fun p => { p with attLog := List.replicate 1024 { type := 1, svn := 0, digest := 0 } })).pkg 0).attLog.length := by decide +kernel
theorem witness_BootAndDebug_debug : bu.hasCtx 0 = true ∧ (bu.ctx 0).life = .running ∧ (bu.ctx 1).life = .vacant ∧ (parked .fault).hasCtx 2 = true ∧
    ((parked .fault).ctx 2).life ∈ [Life.parked .fault, .parked .trap, .parked .tilebind] ∧ ((parked .stop).ctx 2).life = .parked .stop ∧
    ((parked .stop).ctx 2).bootHeld = false ∧ (bx.ctx 15).life = .parked .stop ∧ (bx.ctx 15).bootHeld = true ∧ bu.hasCore 0 = true ∧ bu.hasCore 512 = false ∧
    (((parked .stop).modCore 0 (fun k => { k with dbgSel := 2 * 2 ^ 13 + 0x220 })).core 0).dbgSel.toNat / 2 ^ 13 = 2 ∧ Sys2Proof.Machine.ctxNumber 0x220 = true := by decide +kernel
theorem witness_RegistersAndHosts_registers : bu.populated 0x0F00000000000 = true ∧ 0xFFF < 0x1000 ∧ (0xFFFF : Word).toNat < 2 ^ 16 ∧ bu.hasEfc (68 * 0 + 67) = true ∧
    bu.populated (0x0F00000000000 + 0x200000) = false ∧ bu.flights = [] ∧ bu.slc = [] ∧ isDevice 0x8004 = false ∧ bu.isMemory 0x8004 = true ∧ bu.dirOf (lineOf 0x8004) = DirEntry.absent ∧
    (bu.pkg (sockOf 0x8004)).fotbase = 0 ∧ tfind bu.errs (wordOf 0x8004) = none ∧ isDevice 0x0F00000000000 = true := by decide +kernel
/-- A package that a host reaches: its endpoint's range starts in the second tier. -/
def hosted : State :=
  let s := bu.modPkg 0 (fun p => { p with endBase := [(1, BitVec.ofNat 64 (0x0020000000000 + 1))] })
  { s with fuses := [(0, { Fuses.full with endpoint := true })] }

theorem witness_RegistersAndHosts_hosts : bu.flights = [] ∧ bu.slc = [] ∧ (∀ j < 3, bu.tableBacked 0 (0x803E + j) = true ∧ bu.dirOf (lineOf (0x803E + j)) = DirEntry.absent ∧
      tfind bu.errs (wordOf (0x803E + j)) = none ∧ (bu.pkg (sockOf (0x803E + j))).fotbase = 0) ∧ bu.tableBacked 0 0x0018000000000 = false ∧ bu.endRange 0 = none ∧
    hosted.endRange 0 = some (0x0020000000000, 2 ^ 30) ∧ (∀ j < 3, isTier (0x0020000000000 + 0x10 + j) = true ∧ hosted.tableBacked 0 (0x0020000000000 + 0x10 + j) = true) ∧
    (16 : BitVec 6) ∈ [(0 : BitVec 6), 8, 16] ∧ (4 : BitVec 6) ∉ [(0 : BitVec 6), 8, 16] := by decide +kernel

/-! ### Words that the core does not own, homes, fences, groups and tables -/

/-- A home performs a cluster's request by itself. -/
def calmB (s : State) (cl pa : Nat) : Bool :=
  decide (s.flights = [] ∧ s.slc = [] ∧ tfind s.errs (wordOf pa) = none ∧ (s.pkg (sockOf pa)).fotbase = 0 ∧ Memory.wf s.mem = true ∧
    s.joined (cl / 64) (sockOf pa) = true ∧ s.joined (sockOf pa) (cl / 64) = true ∧ s.dir.length + s.proxies.length < 15 ∧
    (s.cluster cl).clc.length < 15 ∧ (s.dirOf (lineOf pa)).pmk = none)

theorem calm_of {s : State} {cl pa : Nat} (h : calmB s cl pa = true) : Calm s cl pa := by
  unfold calmB at h
  obtain ⟨a, b, c, d, e, f, g, i, j, k⟩ := of_decide_eq_true h
  exact ⟨a, b, c, d, e, f, g, i, j, k⟩

/-- A table is read as it stands. -/
theorem legible_of {s : State} {pa n : Nat} (h : s.flights = [] ∧ s.slc = [] ∧ s.errs = [] ∧ s.dir = []) : Legible s pa n := by
  refine ⟨h.1, h.2.1, h.2.2.1, fun a _ _ => ?_⟩
  simp [State.ownerOf, State.dirOf, h.2.2.2, tget, tfind, DirEntry.absent]

/-- X7 with g2 at a word of its cluster as given, over a word of memory. -/
def holding (x : CacheWord) : State :=
  { (withG bx [(2, 0x8000)]).setClWord 0 0x8000 x with mem := memPutWord [] 0x8000 0x1122334455667788 }
def copyOf (st : WordState) (mask : BitVec 8) : CacheWord := { CacheWord.absent with st := st, data := 99, mask := mask }

theorem witness_LoadsOfOwnedWords_others : ∀ st ∈ [WordState.i, .t, .u, .b], Free (holding (copyOf st 15)) ∧ Settled (holding (copyOf st 15)) ∧
    Maps (holding (copyOf st 15)) 0x8000 .read (some .sis) 0x8000 ∧ Maps (holding (copyOf st 15)) 0x8000 .read (some .wt) 0x8000 ∧
    ((holding (copyOf st 15)).clWord 0 0x8000).st = st ∧ ((holding (copyOf st 15)).clWord 0 0x8000).mask ≠ 255#8 ∧
    Calm (holding (copyOf st 15)) 0 0x8000 ∧ (holding (copyOf st 15)).ownerOf 0x8000 = none := by
  intro st h
  simp only [List.mem_cons, List.not_mem_nil, or_false] at h
  obtain rfl | rfl | rfl | rfl := h <;>
    exact ⟨free_of (by decide +kernel), settled_of (by decide +kernel), maps_of (by decide +kernel), maps_of (by decide +kernel), by decide +kernel,
      by decide +kernel, calm_of (by decide +kernel), by decide +kernel⟩
theorem witness_LoadsOfOwnedWords_buffered : ((holding (copyOf .b 255)).clWord 0 0x8000).st = .b ∧ ((holding (copyOf .b 255)).clWord 0 0x8000).mask = 255#8 := by
  decide +kernel

/-- Two bytes wait to be performed over such a word. -/
def performing (x : CacheWord) (pol : Pol) : State := (holding x).modCore 0 (fun k =>
  { k with sbuf := [{ ctx := 7, tcb := 0, tno := 0, pc := 0, pa := 0x8006, n := 2, data := 0xABCD, pol := pol, rel := none }] })

theorem witness_StorePerformsInTheOwningCluster_others : ∀ st ∈ [WordState.i, .t, .u], ∀ pol, ((performing (copyOf st 0) pol).core 0).sbuf.length = 1 ∧
    (performing (copyOf st 0) pol).backed 0 0x8006 = true ∧ Clean ((performing (copyOf st 0) pol).clWord 0 (wordOf 0x8006)) ∧
    Calm (performing (copyOf st 0) pol) 0 (wordOf 0x8006) ∧ (performing (copyOf st 0) pol).ownerOf (wordOf 0x8006) = none ∧
    (performing (copyOf st 0) pol).tilePending 0 0 0x8006 2 = false := by
  intro st h pol
  simp only [List.mem_cons, List.not_mem_nil, or_false] at h
  obtain rfl | rfl | rfl := h <;> cases pol <;>
    exact ⟨by decide +kernel, by decide +kernel, by unfold Clean; decide +kernel, calm_of (by decide +kernel), by decide +kernel, by decide +kernel⟩
theorem witness_StorePerformsInTheOwningCluster_sis : ((performing (copyOf .b 15) .sis).clWord 0 0x8000).st = .b ∧
    ((performing (copyOf .b 15) .sis).clWord 0 0x8000).tno = 0 ∧ ((performing (copyOf .o 0) .sis).clWord 0 0x8000).st = .o := by decide +kernel

/-- The word stands owned in the cluster, as its home has it. -/
def homed : State := { holding (copyOf .o 0) with dir := [(0x8000, { DirEntry.absent with owners := [(0, 0)] })] }

theorem witness_AtomicsOnOwnedWords_others : (∀ pol, Free (holding (copyOf .t 0)) ∧ Drained (holding (copyOf .t 0)) ∧
      Maps (holding (copyOf .t 0)) ((holding (copyOf .t 0)).readG 2) .atomic (some pol) 0x8000) ∧ Clean ((holding (copyOf .t 0)).clWord 0 0x8000) ∧
    Calm (holding (copyOf .t 0)) 0 0x8000 ∧ (holding (copyOf .t 0)).ownerOf 0x8000 = none := by
  refine ⟨fun pol => ?_, by unfold Clean; decide +kernel, calm_of (by decide +kernel), by decide +kernel⟩
  cases pol <;> exact ⟨free_of (by decide +kernel), drained_of (by decide +kernel), maps_of (by decide +kernel)⟩
theorem witness_AtomicsOnOwnedWords_returned : Free homed ∧ Drained homed ∧ Maps homed (homed.readG 2) .atomic (some .wt) 0x8000 ∧ Calm homed 0 0x8000 ∧
    (homed.clWord 0 0x8000).st = .o ∧ (homed.clWord 0 0x8000).bad = false ∧ homed.ownerOf 0x8000 = some 0 :=
  ⟨free_of (by decide +kernel), drained_of (by decide +kernel), maps_of (by decide +kernel), calm_of (by decide +kernel), by decide +kernel⟩

theorem witness_CacheInstructions_home : Free homed ∧ Settled homed ∧ Maps homed (homed.readG 2 + ((0#7).signExtend 64 <<< 6)) .maint none 0x8000 ∧
    Calm homed 0 0x8000 ∧ (∀ w < 8, (homed.clWord 0 (0x8000 + 8 * w)).st ≠ .b) ∧ (homed.clWord 0 0x8000).st = .o ∧ homed.ownerOf 0x8000 = some 0 :=
  ⟨free_of (by decide +kernel), settled_of (by decide +kernel), maps_of (by decide +kernel), calm_of (by decide +kernel), by decide +kernel⟩
theorem witness_CacheInstructions_buffered : ∀ mask ∈ [15#8, 255#8], Free (holding (copyOf .b mask)) ∧ Settled (holding (copyOf .b mask)) ∧
    Maps (holding (copyOf .b mask)) ((holding (copyOf .b mask)).readG 2 + ((0#7).signExtend 64 <<< 6)) .maint none 0x8000 ∧ Calm (holding (copyOf .b mask)) 0 0x8000 ∧
    ((holding (copyOf .b mask)).clWord 0 0x8000).rel = none ∧ (holding (copyOf .b mask)).ownerOf 0x8000 = none ∧
    (∀ k < 8, k ≠ 0 → ((holding (copyOf .b mask)).clWord 0 (0x8000 + 8 * k)).st ≠ .o ∧ ((holding (copyOf .b mask)).clWord 0 (0x8000 + 8 * k)).st ≠ .b) := by
  intro mask h
  simp only [List.mem_cons, List.not_mem_nil, or_false] at h
  obtain rfl | rfl := h <;>
    exact ⟨free_of (by decide +kernel), settled_of (by decide +kernel), maps_of (by decide +kernel), calm_of (by decide +kernel), by decide +kernel⟩
theorem witness_CacheInstructions_fill : Maps (holding CacheWord.absent) 0x8000 .write (some .own) 0x8000 ∧ Maps (holding CacheWord.absent) 0x8000 .read (some .sis) 0x8000 ∧
    (∀ w < 8, ((holding CacheWord.absent).clWord 0 (lineOf 0x8000 + 8 * w)).st = .i ∧ tfind (holding CacheWord.absent).errs (lineOf 0x8000 + 8 * w) = none) ∧
    (holding CacheWord.absent).dirOf (lineOf 0x8000) = DirEntry.absent ∧ Calm (holding CacheWord.absent) 0 0x8000 :=
  ⟨maps_of (by decide +kernel), maps_of (by decide +kernel), by decide +kernel, by decide +kernel, calm_of (by decide +kernel)⟩

/-- A thread that has fenced. -/
def fencing : State := ou.modMe (fun x => { x with fenced := some .clu })

theorem witness_StoresEnterTheStoreBuffer_fenced : Free fencing ∧ fencing.relOf .plain .ctx = some .clu ∧ fencing.me.fenced ≠ none ∧ Settled fencing ∧
    Maps fencing 0x8000 .write (some .sis) 0x9000 :=
  ⟨free_of (by decide +kernel), by decide +kernel, by decide +kernel, settled_of (by decide +kernel), maps_of (by decide +kernel)⟩
theorem witness_VectorLoadsAndStores_fenced : fencing.me.fenced ≠ none ∧ Settled fencing := ⟨by decide +kernel, settled_of (by decide +kernel)⟩

theorem witness_StepRunsTheDecodedInstruction_predicted : predicted (.div 3 4 5 false) = false ∧ predicted (.jl 1 2) = true := ⟨rfl, rfl⟩

/-- The copy record of a suspended copy, over memory: the home answers by itself. -/
theorem witness_CopiesEnterTheCopyQueue_resume : Calm (copying 8 0x400) (copying 8 0x400).myCluster 0x8000 ∧ (0x400 : Word).extractLsb' 6 2 = 0 ∧
    (0 : Word).toNat ≤ (8 : Word).toNat ∧ (8 : Word).toNat < 2 ^ 52 := ⟨calm_of (by decide +kernel), by decide, by decide, by decide⟩

/-- X7 names a thread of group 3, and a sleeper of its own cluster. -/
theorem witness_SpawnWakeAndPriority_group : NamesThread (named 0 0x8003) ((named 0 0x8003).readG 1) 0x60000 (header 0 0x8003) ∧
    (header 0 0x8003 4).getLsbD 15 = true ∧ Drained (named 0 0x8003) ∧ (named 0 0x8003).spawnRefused 0x60000 = false :=
  ⟨names_named 0 0x8003 (by decide +kernel), by decide +kernel, drained_of (by decide +kernel), by decide +kernel⟩
theorem witness_SpawnWakeAndPriority_here : (header 5 0 3).getLsbD (0 % 64) = true ∧ (header 5 0 4).toNat = 0 ∧ (header 5 0 10).toNat / 64 % 512 = 0 ∧
    (named 5 0).hasCluster 0 = true ∧ (∀ c ∈ (named 5 0).clusters, c.2.sleepOver = []) ∧ (named 5 0).queue 0 5 = [] := by decide +kernel
theorem witness_SpawnWakeAndPriority_standing : (named 1 0).standing 0x60000 = none ∧
    ((named 1 0).enqueue 0 0x60000).standing 0x60000 = some (0, 5) ∧ 0x60000 ∉ (((named 1 0).enqueue 0 0x60000).cluster 0).demoted ∧
    0x60000 ∈ ((((named 1 0).enqueue 0 0x60000).modCluster 0 (fun c => { c with demoted := [0x60000] })).cluster 0).demoted ∧
    bu.onContext 0x50000 = some 0 := by decide +kernel

/-- A tile store with a scale plane; one whose thread has fenced. -/
theorem witness_TileStores_plane : (shapeOf ((loading 0 true).readM 1)).plane = true ∧ Free (loading 0 true) ∧ Drained (loading 0 true) ∧ BoundAt (loading 0 true) 0 0 ∧
    RowsAt (loading 0 true) 1 ((loading 0 true).readG 1 + (0#27).signExtend 64) 128 .write .own (fun _ => 0x9000) ∧
    (scaleAddr ((loading 0 true).readG 1) (shapeOf ((loading 0 true).readM 1)) 0).toNat % 8 = 0 ∧
    Reaches1 (loading 0 true) (scaleAddr ((loading 0 true).readG 1) (shapeOf ((loading 0 true).readM 1)) 0) 16 .write .own 0x9080 ∧
    ((loading 0 true).engine 0).waiting = [] :=
  ⟨by decide +kernel, free_of (by decide +kernel), drained_of (by decide +kernel), bound_of (by decide +kernel), rows_of (by decide +kernel), by decide +kernel,
    reaches_of (by decide +kernel), by decide +kernel⟩
theorem witness_TileStores_fenced : (bound.modMe (fun x => { x with fenced := some .clu })).relOf .plain .ctx = some .clu := by decide +kernel

/-- The word that a write-back of cluster 2 returns to its home. -/
theorem witness_HomesServeRequests_writeBack : ({ request 2 with src := some 2, keep := true } : Req).src = some 2 ∧
    (∀ w < 8, (request 2).words.getLsbD w = true → tracked.ownerOf ((request 2).line + 8 * w) = some 2) ∧ tracked.joined (sockOf (request 2).line) (2 / 64) = true ∧
    tracked.joined (2 / 64) (sockOf (request 2).line) = true ∧ tracked.dir.length + tracked.proxies.length < 15 ∧ (∀ w < 8, tfind tracked.errs ((request 2).line + 8 * w) = none) ∧
    (∀ e ∈ tracked.proxies, e.1 % 64 = 0) ∧ (tracked.pkg (sockOf (request 2).line)).farVal = false := by decide +kernel

/-- A log whose places are all taken. -/
theorem witness_CachesAnswerAndWritesRefused_full : let s := { logging with mem := memPutWord (memPutWord [] 0x20000 6) 0x20008 2 }
    0 < (s.tenant 0 5).dlsize ∧ (s.tenant 0 5).dlsize ≤ (s.tableWord 0 0x20000 - s.tableWord 0 0x20008).toNat ∧ s.ownerOf 0x20000 = none ∧ s.ownerOf 0x20008 = none ∧
    s.slc = [] ∧ tfind s.errs 0x20000 = none ∧ tfind s.errs 0x20008 = none ∧ s.tableBacked 0 0x20000 = true := by decide +kernel

/-- A context's requests take turns at their port. -/
theorem witness_ButterflySteps_within : (flying (.waiting 14) false).flights = [message (.waiting 14) false] ∧
    (message (.waiting 14) false).classA = false ∧ (message (.waiting 14) false).sub % 8 = tget ((flying (.waiting 14) false).port 3).within 14 0 := by decide +kernel

theorem witness_FiltersAndTables_entry : Legible (framed 0x100000) (wordOf (0x100000 + 2 * frameOf 0x8000)) 8 := legible_of (by decide +kernel)
theorem witness_FiltersAndTables_tenant : metered.tenant 0 5 ≠ Tenant.zero ∧ Legible metered (0x200000 + 64 * 4095) 64 ∧ (4095 : Word).toNat < 4096 ∧ sockOf 0x8000 ≠ 1 :=
  ⟨by decide +kernel, legible_of (by decide +kernel), by decide, by decide +kernel⟩
theorem witness_WindowsSleepersAndWaiters_boundary : (metered.pkg 0).tentbase ≠ 0 ∧ Legible metered (metered.pkg 0).tentbase (64 * 4096) :=
  ⟨by decide +kernel, legible_of (by decide +kernel)⟩
theorem witness_WindowsSleepersAndWaiters_kept :
    let s := { withThread bu 0x60000 0 7 1 with clusters := [(0, { Cluster.init with runq := [(0, [0x60000])], walk := [0x60000], demoted := [0x60000] })] }
    (s.cluster 0).walk = [0x60000] ∧ s.tcbPrio 0 0x60000 = 0 := by decide +kernel
/-- A quantum table at 0x100000. -/
theorem witness_QuantumExpiry_table : let s := spent.modPkg 0 (fun p => { p with qtabbase := 0x100000 })
    (s.pkg 0).qtabbase ≠ 0 ∧ s.tableBacked 0 (wordOf (0x100000 + 128 * (s.tenant 0 5).qsel + 4 * 3)) = true ∧ Legible s (wordOf (0x100000 + 128 * (s.tenant 0 5).qsel + 4 * 3)) 8 :=
  ⟨by decide +kernel, by decide +kernel, legible_of (by decide +kernel)⟩
theorem witness_EngineSteps_tables : (∀ q ∈ (draining (drain (.version 0x9000))).dir, q.1 % 64 = 0) ∧ (∀ q ∈ (draining (drain (.version 0x9000))).proxies, q.1 % 64 = 0) ∧
    (∀ a, ((draining (drain (.version 0x9000))).clWord 0 a).st ≠ .b) :=
  ⟨by decide +kernel, by decide +kernel, (drained_of (s := { draining (drain (.version 0x9000)) with engines := [] }) (by decide +kernel)).2⟩

/-- A port's mode or peer changes while its link is up; another coherent port to the same socket remains, or none. -/
theorem witness_FabricAndLinkRetry_falls : (tget ((joined 1 false).pkg 0).ports 1 FabPort.off).up = true ∧ (tget ((joined 1 false).pkg 0).ports 1 FabPort.off).mode = 1 ∧
    (0x4 : Word).extractLsb' 2 3 ≠ (tget ((joined 1 false).pkg 0).ports 1 FabPort.off).peer ∧ (tget ((joined 2 false).pkg 0).ports 1 FabPort.off).mode = 2 ∧
    (tget ((joined 2 false).pkg 0).ports 1 FabPort.off).up = true ∧ ((joined 1 false).modPkg 0 (fun q => { q with ports := [] })).coherentPorts 0 0 = [] ∧
    ((joined 1 false).modPkg 0 (fun q => { q with ports := tset q.ports 2 { mode := 1, peer := 0, up := true, lretry := false } })).coherentPorts 0 0 = [1, 2] := by
  decide +kernel

/-! ### An instruction placed where the next step fetches it (log 12) -/

theorem test_place_first : gives (step (State.reset.withFetchWord 32 0x20040005)) (fun t => (t.ctx 7).pc == 0x100004) = true := by
  decide +kernel
theorem test_place_mset : gives (step (State.reset.withFetchWord 64 0xC204214C)) (fun t => (t.ctx 7).pc != 0x100000) = true := by
  decide +kernel
theorem test_place_filter : gives (step (State.reset.withFetchWord 32 0x07000003)) (fun t => (t.efc 0).run.isSome) = true := by
  decide +kernel

end Sys2Proof.Tests
end

section
/-! Division and remainder (R186): the quotient and the remainder that the model's scalar functions answer, read as the
integer and natural-number operations of the rule, and the four instructions at both widths. -/

namespace Sys2Proof.Machine

section
variable (n : Nat) (x y : BitVec n)

/-- The quotient wraps modulo 2^N: −2^(N−1) by −1 is −2^(N−1) again. -/
theorem sdiv_eq_ofInt_tdiv : x.sdiv y = BitVec.ofInt n (Int.tdiv x.toInt y.toInt) :=
  BitVec.eq_of_toInt_eq (by rw [BitVec.toInt_sdiv, BitVec.toInt_ofInt])

theorem srem_eq_ofInt_tmod : x.srem y = BitVec.ofInt n (Int.tmod x.toInt y.toInt) := by
  rw [← BitVec.toInt_srem, BitVec.ofInt_toInt]

end

theorem div_yields_truncated_quotient :
    Alu .div (fun n x y => if y = 0 then BitVec.allOnes n else BitVec.ofInt n (Int.tdiv x.toInt y.toInt)) :=
  alu2_yields (fun _ _ _ _ _ => rfl) fun n x y _ => by rw [fDiv_eq, sdiv_eq_ofInt_tdiv]

theorem rem_yields_truncated_remainder :
    Alu .rem (fun n x y => if y = 0 then x else BitVec.ofInt n (Int.tmod x.toInt y.toInt)) :=
  alu2_yields (fun _ _ _ _ _ => rfl) fun n x y _ => by rw [fRem_eq, srem_eq_ofInt_tmod]

theorem divn_yields_unsigned_quotient :
    Alu .divn (fun n x y => if y = 0 then BitVec.allOnes n else BitVec.ofNat n (x.toNat / y.toNat)) :=
  alu2_yields (fun _ _ _ _ _ => rfl) fun n x y _ => by rw [fDivn_eq, BitVec.udiv_def]

theorem remn_yields_unsigned_remainder :
    Alu .remn (fun n x y => if y = 0 then x else BitVec.ofNat n (x.toNat % y.toNat)) :=
  alu2_yields (fun _ _ _ _ _ => rfl) fun n x y _ => by rw [fRemn_eq, BitVec.umod_def]

/-- Settles O2: each of the four instructions is a two-register ALU form, and its function on the low N bits is the
operation of R186. -/
theorem divisionNeverTraps : Obligations.DivisionNeverTraps :=
  ⟨div_yields_truncated_quotient, rem_yields_truncated_remainder, divn_yields_unsigned_quotient,
    remn_yields_unsigned_remainder⟩

end Sys2Proof.Machine
end

section
/-! The microsecond refills of the energy accounts (R342) at a module that has shut down (R374): which sockets a boundary
of TIME refills, and that a socket which its over-temperature has stopped is not one of them. -/

namespace Sys2Proof.Machine

/-- Every microsecond boundary refills the accounts of the sockets that are fused and have not shut down, and of no
other (R342, R374). -/
theorem energyRefill_mem_boundary (s : State) (t0 t1 sock : Nat) :
    Instr.energyRefill sock ∈ s.boundary t0 t1 ↔
      t0 / 1000 ≠ t1 / 1000 ∧ (∃ f ∈ s.fuses, f.1 = sock) ∧ (s.pkg sock).shutdown = false := by
  unfold State.boundary
  by_cases hus : t0 / 1000 = t1 / 1000
  · simp [hus]
  · have hms : ∀ l : List Nat, Instr.energyRefill sock ∉
        (if t0 / 1000000 = t1 / 1000000 then [] else l.map Instr.tenantWindowBoundary) := by
      intro l; split <;> simp
    have hwalk : ∀ l m : List (Nat × Cluster), Instr.energyRefill sock ∉
        (if t0 / 8000 = t1 / 8000 then [] else
          l.map (fun c => Instr.sleepOverflowWalk c.1) ++ m.map (fun c => Instr.waitOverflowWalk c.1)) := by
      intro l m; split <;> simp
    simp [hus, hms, hwalk]

/-- The state that OVER_TEMPERATURE of a socket leaves (R374). -/
def State.overheated (s : State) (sock : Nat) : State :=
  (s.modPkg sock (fun p => { p with shutdown := true })).emit (.overTemperature sock)

theorem exec_overTemperature (s : State) (sock : Nat) : exec (.overTemperature sock) s = .next (s.overheated sock) := rfl

@[simp] theorem shutdown_overheated (s : State) (sock : Nat) : ((s.overheated sock).pkg sock).shutdown = true := by
  have hpkg : (s.overheated sock).pkg sock = (s.modPkg sock (fun p => { p with shutdown := true })).pkg sock := rfl
  rw [hpkg, pkg_modPkg, if_pos rfl]

/-- A module that has shut down is refilled no more. -/
theorem energyRefill_notMem_boundary_overheated (s : State) (sock t0 t1 : Nat) :
    Instr.energyRefill sock ∉ (s.overheated sock).boundary t0 t1 := by
  simp [energyRefill_mem_boundary]

/-- Refutes O55: the clause of the microsecond boundary asks a refill of every socket with fuses, and the boundary leaves
out a socket whose module has shut down (R374). Socket 0 of the machine at reset, after its over-temperature, has fuses
and gets no refill as TIME goes from 999 to 1000. -/
theorem not_energyAccounts : ¬ Obligations.EnergyAccounts := by
  intro h
  obtain ⟨-, -, -, hboundary, -, -⟩ := h (State.reset.overheated 0) 0 0 0 999 1000 0 Tenant.zero
  have hfused : (0, Fuses.full) ∈ (State.reset.overheated 0).fuses := List.mem_singleton_self _
  have hrefill := hboundary (by decide) _ hfused
  exact energyRefill_notMem_boundary_overheated State.reset 0 999 1000 hrefill

end Sys2Proof.Machine
end

section
/-! The round trip of encoder and decoder (R66-R92, R352), and what a decoder answers at all. -/

namespace Sys2Proof.Laws.RoundTrip

/-- Each instruction by the lemma about its own form; a step of the device itself has no words. -/
theorem statement (i : Instr) : Statement i := by
  cases i
  case add => exact add _ _ _ _
  case sub => exact sub _ _ _ _
  case and => exact and _ _ _ _
  case or => exact or _ _ _ _
  case xor => exact xor _ _ _ _
  case andn => exact andn _ _ _ _
  case orn => exact orn _ _ _ _
  case sll => exact sll _ _ _ _
  case srl => exact srl _ _ _ _
  case sra => exact sra _ _ _ _
  case rol => exact rol _ _ _ _
  case ror => exact ror _ _ _ _
  case mul => exact mul _ _ _ _
  case mulh => exact mulh _ _ _ _
  case mulhn => exact mulhn _ _ _ _
  case div => exact div _ _ _ _
  case divn => exact divn _ _ _ _
  case rem => exact rem _ _ _ _
  case remn => exact remn _ _ _ _
  case min => exact min _ _ _ _
  case max => exact max _ _ _ _
  case minn => exact minn _ _ _ _
  case maxn => exact maxn _ _ _ _
  case cset => exact cset _ _ _ _
  case sel => exact sel _ _ _ _
  case popc => exact popc _ _ _
  case clz => exact clz _ _ _
  case ctz => exact ctz _ _ _
  case brev => exact brev _ _ _
  case fnth => exact fnth _ _ _
  case addi => exact addi _ _ _
  case andi => exact andi _ _ _
  case ori => exact ori _ _ _
  case xori => exact xori _ _ _
  case csetiEq => exact csetiEq _ _ _
  case csetiNe => exact csetiNe _ _ _
  case csetiLt => exact csetiLt _ _ _
  case csetiLtn => exact csetiLtn _ _ _
  case slli => exact slli _ _ _ _
  case srli => exact srli _ _ _ _
  case srai => exact srai _ _ _ _
  case rori => exact rori _ _ _ _
  case bext => exact bext _ _ _ _
  case bexts => exact bexts _ _ _ _
  case bins => exact bins _ _ _ _
  case lui => exact lui _ _
  case lpa => exact lpa _ _
  case bCond => exact bCond _ _ _ _ _
  case jl => exact jl _ _
  case jlr => exact jlr _ _ _
  case ld => exact ld _ _ _ _ _ _ _ _
  case ldx => exact ldx _ _ _ _ _ _ _ _ _
  case st => exact st _ _ _ _ _ _ _
  case stx => exact stx _ _ _ _ _ _ _ _
  case amoAdd => exact amoAdd _ _ _ _ _ _ _
  case amoAnd => exact amoAnd _ _ _ _ _ _ _
  case amoOr => exact amoOr _ _ _ _ _ _ _
  case amoXor => exact amoXor _ _ _ _ _ _ _
  case amoMin => exact amoMin _ _ _ _ _ _ _
  case amoMax => exact amoMax _ _ _ _ _ _ _
  case amoMinn => exact amoMinn _ _ _ _ _ _ _
  case amoMaxn => exact amoMaxn _ _ _ _ _ _ _
  case amoSwap => exact amoSwap _ _ _ _ _ _ _
  case cas => exact cas _ _ _ _ _ _ _
  case fence => exact fence _ _
  case pref => exact pref _ _ _ _
  case cwb => exact cwb _ _
  case cinv => exact cinv _ _
  case vadd => exact vadd _ _ _ _ _ _
  case vsub => exact vsub _ _ _ _ _ _
  case vmul => exact vmul _ _ _ _ _ _
  case vmulhI => exact vmulhI _ _ _ _ _ _
  case vmulhN => exact vmulhN _ _ _ _ _ _
  case vminI => exact vminI _ _ _ _ _ _
  case vminN => exact vminN _ _ _ _ _ _
  case vmaxI => exact vmaxI _ _ _ _ _ _
  case vmaxN => exact vmaxN _ _ _ _ _ _
  case vand => exact vand _ _ _ _ _ _
  case vor => exact vor _ _ _ _ _ _
  case vxor => exact vxor _ _ _ _ _ _
  case vandn => exact vandn _ _ _ _ _ _
  case vsll => exact vsll _ _ _ _ _ _
  case vsrl => exact vsrl _ _ _ _ _ _
  case vsra => exact vsra _ _ _ _ _ _
  case vpopc => exact vpopc _ _ _ _ _
  case vclz => exact vclz _ _ _ _ _
  case vctz => exact vctz _ _ _ _ _
  case vbrev => exact vbrev _ _ _ _ _
  case vfnth => exact vfnth _ _ _ _ _
  case vabs => exact vabs _ _ _ _ _
  case vaddsI => exact vaddsI _ _ _ _ _ _
  case vaddsN => exact vaddsN _ _ _ _ _ _
  case vsubsI => exact vsubsI _ _ _ _ _ _
  case vsubsN => exact vsubsN _ _ _ _ _ _
  case vsel => exact vsel _ _ _ _ _
  case vcmpEq => exact vcmpEq _ _ _ _ _ _
  case vcmpNe => exact vcmpNe _ _ _ _ _ _
  case vcmpLt => exact vcmpLt _ _ _ _ _ _
  case vcmpGe => exact vcmpGe _ _ _ _ _ _
  case vcmpLtn => exact vcmpLtn _ _ _ _ _ _
  case vcmpGen => exact vcmpGen _ _ _ _ _ _
  case fadd => exact fadd _ _ _ _ _ _
  case fsub => exact fsub _ _ _ _ _ _
  case fmul => exact fmul _ _ _ _ _ _
  case ffma => exact ffma _ _ _ _ _ _
  case ffms => exact ffms _ _ _ _ _ _
  case fnma => exact fnma _ _ _ _ _ _
  case fdiv => exact fdiv _ _ _ _ _ _
  case fsqrt => exact fsqrt _ _ _ _ _
  case fmin => exact fmin _ _ _ _ _ _
  case fmax => exact fmax _ _ _ _ _ _
  case fabs => exact fabs _ _ _ _ _
  case fneg => exact fneg _ _ _ _ _
  case frcp => exact frcp _ _ _ _ _
  case frsqrt => exact frsqrt _ _ _ _ _
  case fexp2 => exact fexp2 _ _ _ _ _
  case flog2 => exact flog2 _ _ _ _ _
  case fround => exact fround _ _ _ _ _ _
  case fscale => exact fscale _ _ _ _ _ _
  case fcmpEq => exact fcmpEq _ _ _ _ _ _
  case fcmpNe => exact fcmpNe _ _ _ _ _ _
  case fcmpLt => exact fcmpLt _ _ _ _ _ _
  case fcmpLe => exact fcmpLe _ _ _ _ _ _
  case fcmpUn => exact fcmpUn _ _ _ _ _ _
  case vcvt => exact vcvt _ _ _ _ _ _ _
  case vred => exact vred _ _ _ _ _
  case vperm => exact vperm _ _ _ _ _ _
  case vslide => exact vslide _ _ _ _ _ _
  case vcompress => exact vcompress _ _ _ _
  case vexpand => exact vexpand _ _ _ _ _
  case vbcast => exact vbcast _ _ _ _ _
  case vins => exact vins _ _ _ _
  case vext => exact vext _ _ _ _
  case vld => exact vld _ _ _ _ _ _
  case vst => exact vst _ _ _ _ _ _
  case vgather => exact vgather _ _ _ _ _ _
  case vscatter => exact vscatter _ _ _ _ _ _
  case pand => exact pand _ _ _
  case por => exact por _ _ _
  case pxor => exact pxor _ _ _
  case pandn => exact pandn _ _ _
  case pset => exact pset _ _
  case pget => exact pget _ _
  case pcnt => exact pcnt _ _ _
  case pfirst => exact pfirst _ _ _
  case pwhile => exact pwhile _ _ _ _
  case cwait => exact cwait _ _ _
  case ctrrd => exact ctrrd _ _ _
  case ctrset => exact ctrset _ _ _
  case erd => exact erd _ _ _
  case tspawn => exact tspawn _ _
  case tyield => exact tyield
  case tsleep => exact tsleep _
  case twake => exact twake _ _
  case texit => exact texit
  case tprio => exact tprio _ _ _
  case svc => exact svc _
  case brk => exact brk _
  case sysrd => exact sysrd _ _
  case syswr => exact syswr _ _
  case ctxrd => exact ctxrd _ _ _
  case ctxwr => exact ctxwr _ _ _
  case tret => exact tret _
  case tredir => exact tredir _ _
  case tlbiPage => exact tlbiPage _ _
  case tlbiAsn => exact tlbiAsn _ _
  case tlbiAll => exact tlbiAll _
  case wfm => exact wfm _
  case tload => exact tload _ _ _ _ _ _ _
  case tloads => exact tloads _ _ _ _ _ _ _
  case tloadV => exact tloadV _ _ _ _ _ _ _ _
  case tstore => exact tstore _ _ _ _ _ _ _
  case tstoreAon => exact tstoreAon _ _ _ _ _ _ _ _
  case tstorea => exact tstorea _ _ _ _ _ _ _
  case tzero => exact tzero _
  case tmma => exact tmma _ _ _ _ _
  case tmmaSp => exact tmmaSp _ _ _ _ _ _
  case tcvt => exact tcvt _ _ _ _ _
  case tmova => exact tmova _ _ _
  case tmovt => exact tmovt _ _ _
  case ttrans => exact ttrans _ _ _ _
  case tadd => exact tadd _ _ _
  case tscale => exact tscale _ _ _
  case trel => exact trel
  case mset => exact mset _ _ _ _
  case put => exact put _ _ _ _ _ _
  case putV => exact putV _ _ _ _ _
  case putT => exact putT _ _ _ _ _ _ _
  case copy => exact copy _ _ _ _ _ _ _
  case copyResume => exact copyResume _
  case ehalt => exact ehalt
  case eli => exact eli _ _
  case eadd => exact eadd _ _ _
  case eaddi => exact eaddi _ _ _
  case esub => exact esub _ _ _
  case eand => exact eand _ _ _
  case eandi => exact eandi _ _ _
  case eor => exact eor _ _ _
  case exor => exact exor _ _ _
  case eshr => exact eshr _ _ _
  case eshl => exact eshl _ _ _
  case emin => exact emin _ _ _
  case emax => exact emax _ _ _
  case elog2 => exact elog2 _ _ _
  case eld => exact eld _ _ _
  case est => exact est _ _ _
  case ehinc => exact ehinc _ _
  case ecms => exact ecms _ _ _
  case esamp => exact esamp _
  case etrig => exact etrig _
  case eskip => exact eskip _ _ _ _
  all_goals exact fun _ h => absurd rfl h

end Sys2Proof.Laws.RoundTrip

namespace Sys2Proof.Machine

/-- Settles O12: the round trip holds of every instruction. -/
theorem encodeThenDecode : Obligations.EncodeThenDecode := Laws.RoundTrip.statement

end Sys2Proof.Machine
end

section
/-! The invariant at reset and after every step, with what a reset event leaves of the machine (R23, R108, R180, R293). -/

namespace Sys2Proof.Machine

/-- The boot core of a socket is one of its 512. -/
theorem bootCore_div (s : State) (sock : Nat) : s.bootCore sock / 512 = sock := by
  have hcl : s.firstCluster sock / 64 = sock := by
    unfold State.firstCluster
    cases e : s.clustersOf sock with
    | nil => simp
    | cons c l =>
      have hc : c ∈ s.clustersOf sock := by rw [e]; exact List.mem_cons_self
      simp only [State.clustersOf, List.mem_filter, List.mem_map, List.mem_range] at hc
      obtain ⟨⟨k, hk, rfl⟩, -⟩ := hc
      simp only [List.headD_cons]; omega
  have hco : s.firstCore (s.firstCluster sock) / 8 = s.firstCluster sock := by
    unfold State.firstCore
    cases e : s.coresOf (s.firstCluster sock) with
    | nil => simp
    | cons c l =>
      have hc : c ∈ s.coresOf (s.firstCluster sock) := by rw [e]; exact List.mem_cons_self
      simp only [State.coresOf, List.mem_filter, List.mem_map, List.mem_range] at hc
      obtain ⟨⟨k, hk, rfl⟩, -⟩ := hc
      simp only [List.headD_cons]; omega
  unfold State.bootCore
  omega

/-- The boot X7s of two sockets are two contexts. -/
theorem x7Of_bootCore_inj {s : State} {a b : Nat} (h : x7Of (s.bootCore a) = x7Of (s.bootCore b)) : a = b := by
  have ha := bootCore_div s a
  have hb := bootCore_div s b
  have : s.bootCore a = s.bootCore b := by unfold x7Of at h; omega
  rw [← ha, ← hb, this]

/-- A table filled key by key from a list, where equal keys have equal values: what it holds under each key. -/
theorem tfind_foldl_tset {α β : Type} (key : β → Nat) (val : β → α) (hv : ∀ a b, key a = key b → val a = val b) (q : Nat) :
    ∀ (l : List β) (t : Tbl α), tfind (l.foldl (fun t f => tset t (key f) (val f)) t) q =
      ((l.find? (fun f => key f == q)).map val).or (tfind t q) := by
  intro l
  induction l with
  | nil => intro t; rfl
  | cons f l ih =>
    intro t
    rw [List.foldl_cons, ih, List.find?_cons]
    cases e : l.find? (fun f => key f == q) with
    | some g =>
      have hg : key g = q := by simpa using List.find?_some e
      by_cases hf : key f = q
      · simp [hf, hv f g (hf.trans hg.symm)]
      · simp [beq_false_of_ne hf]
    | none =>
      by_cases hf : key f = q
      · simp [hf]
      · simp [beq_false_of_ne hf, tfind_tset_other _ _ (Ne.symm hf)]

/-- The state that a reset event leaves (R23). -/
def State.afterReset (s : State) : State :=
  { s.restarted with
    mem := s.mem, flash := s.flash, errs := s.errs, outbox := s.outbox, agenda := s.agenda, fresh := s.fresh }

theorem exec_reset (s : State) : exec .reset s = .next s.afterReset := rfl

/-- A context after a reset event: the boot X7 of a package that exists at its ROM, any other as it is unlisted. -/
theorem ctx_afterReset (s : State) (c : Nat) :
    s.afterReset.ctx c = ((s.fuses.find? (fun f => x7Of (s.bootCore f.1) == c)).map
      (fun f => { Context.bootX7 with pc := romAt f.1 })).getD (ctxInit c) := by
  have h := tfind_foldl_tset (fun f : Nat × Fuses => x7Of (s.bootCore f.1))
    (fun f => { Context.bootX7 with pc := romAt f.1 }) (fun a b e => by rw [x7Of_bootCore_inj e]) c s.fuses []
  show (tfind (s.fuses.foldl _ []) c).getD (ctxInit c) = _
  rw [h]
  exact congrArg (Option.getD · _) (Option.or_none ..)

theorem ctx_afterReset_boot {s : State} {f : Nat × Fuses} (h : f ∈ s.fuses) :
    s.afterReset.ctx (x7Of (s.bootCore f.1)) = { Context.bootX7 with pc := romAt f.1 } := by
  rw [ctx_afterReset]
  cases e : s.fuses.find? (fun g => x7Of (s.bootCore g.1) == x7Of (s.bootCore f.1)) with
  | none => exact absurd (List.find?_eq_none.1 e f h) (by simp)
  | some g =>
    have hg : x7Of (s.bootCore g.1) = x7Of (s.bootCore f.1) := by simpa using List.find?_some e
    show ({ Context.bootX7 with pc := romAt g.1 } : Context) = _
    rw [x7Of_bootCore_inj hg]

theorem ctx_afterReset_other {s : State} {c : Nat} (h : ∀ f ∈ s.fuses, c ≠ x7Of (s.bootCore f.1)) :
    s.afterReset.ctx c = ctxInit c := by
  rw [ctx_afterReset, List.find?_eq_none.2 (fun f hf => by simpa using Ne.symm (h f hf))]
  rfl

theorem ctxInit_user {c : Nat} (h : isX7 c = false) : ctxInit c = Context.vacant := by simp [ctxInit, h]

theorem ctxInit_x7 {c : Nat} (h : isX7 c = true) : ctxInit c = Context.bootHeldX7 := by simp [ctxInit, h]

theorem ctx_reset (c : Nat) : State.reset.ctx c = if c = 7 then Context.bootX7 else ctxInit c := by
  unfold State.ctx State.reset tget
  by_cases h : c = 7
  · subst h; rfl
  · have : ¬ 7 = c := fun e => h e.symm
    simp [tfind, x7Of, h, this]

theorem aligned_zero : Aligned 0 := by unfold Aligned; decide

theorem aligned_romAt (sock : Nat) : Aligned (romAt sock) := by
  unfold Aligned pcOf romAt sockBase romBase
  apply BitVec.eq_of_getLsbD_eq
  intro i hi
  have hmod : (sock * 2 ^ 49 + 0x0F00003000000) % 4 = 0 := by omega
  simp only [BitVec.getLsbD_and, BitVec.getLsbD_not, hi, decide_true, Bool.true_and, BitVec.getLsbD_ofNat]
  by_cases h2 : i < 2
  · have h0 : (sock * 2 ^ 49 + 0x0F00003000000).testBit i = false := by
      have : (sock * 2 ^ 49 + 0x0F00003000000).testBit i = ((sock * 2 ^ 49 + 0x0F00003000000) % 2 ^ 2).testBit i := by
        rw [Nat.testBit_mod_two_pow]; simp [h2]
      rw [this, show (2 : Nat) ^ 2 = 4 from rfl, hmod, Nat.zero_testBit]
    simp only [h0, Bool.false_and]
  · have h3 : Nat.testBit 3 i = false := Nat.testBit_lt_two_pow (calc
      3 < 2 ^ 2 := by decide
      _ ≤ 2 ^ i := Nat.pow_le_pow_right (by decide) (by omega))
    simp [h3]

theorem aligned_ctxInit (c : Nat) : Aligned (ctxInit c).pc := by
  unfold ctxInit; split <;> exact aligned_zero

/-- Settles O18: nothing is listed in memory or in a queue, and the one PC that is not 0 is the boot ROM's address. -/
theorem invariantAtReset : Obligations.InvariantAtReset where
  mem := rfl
  pcs := by
    intro c
    rw [ctx_reset]
    split
    · exact aligned_romAt 0
    · exact aligned_ctxInit c
  queues := fun _ => Nat.zero_le _

/-- A reset event keeps the invariant. -/
theorem inv_afterReset {s : State} (h : Inv s) : Inv s.afterReset where
  mem := h.mem
  pcs := by
    intro c
    rw [ctx_afterReset]
    cases s.fuses.find? (fun f => x7Of (s.bootCore f.1) == c) with
    | some f => exact aligned_romAt _
    | none => exact aligned_ctxInit c
  queues := fun _ => Nat.zero_le _

/-- Settles O19: what every operation keeps, a step keeps. -/
theorem stepKeepsTheInvariant : Obligations.StepKeepsTheInvariant := by
  intro s t hs ht
  have hdown : s.down = false := by
    cases hd : s.down with
    | false => rfl
    | true => rw [step, if_pos hd] at ht; cases ht
  have hreset : ∀ u : State, (u.fuses = s.fuses ∧ u.flash = s.flash ∧ Inv u) →
      Ends (fun u => u.fuses = s.fuses ∧ u.flash = s.flash ∧ Inv u) (execReset u) := by
    rintro u ⟨hfuses, hflash, hinv⟩
    exact ⟨u.afterReset, rfl, hfuses, hflash, inv_afterReset hinv⟩
  obtain ⟨u, hu, hfuses, hflash, hinv⟩ := ends_step (steady_inv s.fuses s.flash) hreset ⟨rfl, rfl, hs⟩ hdown
  rw [ht] at hu
  cases hu
  exact ⟨hinv, hfuses, hflash⟩

/-- Settles O17: reset, field by field, and the reset event by what it leaves of each context. -/
theorem reset : Obligations.Reset := by
  constructor
  · refine ⟨fun c hc => ?_, fun c hc h7 => ?_, rfl, rfl, rfl, fun _ => ⟨rfl, rfl, rfl, rfl, rfl⟩, fun _ => ⟨rfl, rfl⟩, fun _ => rfl,
      fun _ _ _ _ => rfl, rfl, rfl, rfl, by decide⟩
    · have h7 : c ≠ 7 := by rintro rfl; exact absurd hc (by decide)
      rw [ctx_reset, if_neg h7, ctxInit_user hc]
    · rw [ctx_reset, if_neg h7, ctxInit_x7 hc]; exact ⟨rfl, rfl⟩
  · intro s
    refine ⟨s.afterReset, exec_reset s, rfl, rfl, rfl, rfl, rfl, fun c hc => ?_, fun f hf => ctx_afterReset_boot hf,
      fun c hc hother => ?_, fun _ => ⟨rfl, rfl, rfl, rfl, rfl⟩, fun _ _ _ _ => rfl, rfl, rfl, rfl, rfl, rfl, rfl, rfl⟩
    · have hother : ∀ f ∈ s.fuses, c ≠ x7Of (s.bootCore f.1) := by
        rintro f - rfl
        rw [isX7_x7Of] at hc; cases hc
      rw [ctx_afterReset_other hother, ctxInit_user hc]
    · rw [ctx_afterReset_other hother, ctxInit_x7 hc]

end Sys2Proof.Machine
end

section
/-! No step but that of a machine that has shut down stops: every meaning answers a next state (R2, R374). -/

namespace Sys2Proof.Machine

/-- An answer is a next state. -/
def Goes (a : Answer) : Prop := ∃ t, a = .next t

theorem goes_next (t : State) : Goes (.next t) := ⟨t, rfl⟩

theorem goes_ite {p : Prop} [Decidable p] {a b : Answer} (ha : Goes a) (hb : Goes b) : Goes (if p then a else b) := by
  split
  · exact ha
  · exact hb

theorem goes_commitTo (s t : State) (pc : Word) : Goes (commitTo s t pc) := by
  unfold commitTo; split <;> exact goes_next _

theorem goes_commit (s t : State) (n : Nat) : Goes (commit s t n) := goes_commitTo s t _

theorem goes_runAct (s : State) (n : Nat) (m : Act Unit) : Goes (runAct s n m) := by
  unfold runAct
  split
  · split <;> exact goes_next _
  all_goals exact goes_next _

theorem goes_retireThen (s : State) (f : State → State) : Goes (retireThen s f) := by
  unfold retireThen; split <;> exact goes_next _

theorem goes_runMma (i : Instr) (m : Act Unit) (s : State) : Goes (runMma i m s) := by
  obtain ⟨t, ht⟩ := goes_runAct s 8 m
  unfold runMma; rw [ht]; exact goes_next _

theorem goes_tloadV (t m : BitVec 3) (b : Reg) (pol : Pol) (ord : Order) (sc : Scope) (x : Reg) (off : BitVec 27) (s : State) :
    Goes (execTloadV t m b pol ord sc x off s) := by
  obtain ⟨u, hu⟩ := goes_runAct s 8 (tileLoadV t m b pol ord sc x off)
  unfold execTloadV; rw [hu]; exact goes_next _

theorem goes_tlbiOp (sc : Scope) (r : Removal) (s : State) : Goes (tlbiOp sc r s) :=
  goes_ite (goes_next _) (goes_ite (goes_next _) (goes_commit ..))

theorem goes_wfm (d : Reg) (s : State) : Goes (execWfm d s) := by
  refine goes_ite (goes_next _) ?_
  split
  · exact goes_next _
  · exact goes_commit ..

theorem goes_dmaRead (sock port addr n : Nat) (s : State) : Goes (execDmaRead sock port addr n s) := by
  unfold execDmaRead; split <;> exact goes_next _

theorem goes_hostMemAccess (sock off n : Nat) (wr : Option (List (BitVec 8))) (s : State) :
    Goes (execHostMemAccess sock off n wr s) := by
  unfold execHostMemAccess
  split
  · exact goes_next _
  · refine goes_ite (goes_next _) ?_
    split
    · exact goes_next _
    · split <;> exact goes_next _

theorem goes_cwait (t c : Reg) (sc : Scope) (s : State) : Goes (execCwait t c sc s) := by
  unfold execCwait
  dsimp only
  split
  · refine goes_ite ?_ (goes_ite (goes_next _) (goes_next _))
    split <;> exact goes_next _
  all_goals exact goes_next _

theorem goes_exec (i : Instr) (s : State) : Goes (exec i s) := by
  cases i
  case svc | brk | ehalt | eli | eadd | eaddi | esub | eand | eandi | eor | exor | eshr | eshl | emin | emax |
    elog2 | eld | est | ehinc | ecms | esamp | etrig | eskip | trapRecordEnter | placement | preemption |
    quantumExpiry | pull | tileBinding | exitedWrite | tenantWindowBoundary | contextTimeUpdate | sleepDeadline |
    sleepOverflowWalk | waitTableRecheck | waitOverflowWalk | engineStart | tileComplete | tileStoreDrain |
    putTPiece | storePerform | putLineSend | copyTakeUp | copyBurst | copyStopMsgEnter | homePutLine | homeAth |
    endingReply | requestAdmission | switchForward | energyRefill | efcBudgetRefill | efcTakeRecord |
    attestSignDone | farTimeout | farAckTimer | reset | putLineLanded | homeRdt | homeRdu | homeRdw | homeOwn |
    homeWrt | homeWrs | homeWrw | homeWb | deadLetterAppend | invalidation | recallWord | downgrade | forwardedRead |
    fotsync | tentsync | coreRelease | attestAppend | attestSign | debugStop | debugResume | dbgdataAccess |
    linkRetrain | linkTrained | coherentLinkDown | farDataReceive | farAckReceive | farNakReceive |
    farRefuseReceive | linkLackReceive | linkLnakReceive | faridWrite | dmaWrite | powerBudgetSet | overTemperature |
    registerWrite | dispatchCycle | engineCycle | farPortDown | hostLinkTrained => exact goes_next _
  case add | sub | and | or | xor | andn | orn | sll | srl | sra | rol | ror | mul | mulh | mulhn | div | divn |
    rem | remn | min | max | minn | maxn | cset | sel | popc | clz | ctz | brev | fnth | addi | andi | ori | xori |
    csetiEq | csetiNe | csetiLt | csetiLtn | slli | srli | srai | rori | bext | bexts | bins | lui | lpa | vadd |
    vsub | vmul | vmulhI | vmulhN | vminI | vminN | vmaxI | vmaxN | vand | vor | vxor | vandn | vsll | vsrl | vsra |
    vpopc | vclz | vctz | vbrev | vfnth | vabs | vaddsI | vaddsN | vsubsI | vsubsN | vsel | vcmpEq | vcmpNe |
    vcmpLt | vcmpGe | vcmpLtn | vcmpGen | fadd | fsub | fmul | ffma | ffms | fnma | fdiv | fsqrt | fmin | fmax |
    fabs | fneg | frcp | frsqrt | fexp2 | flog2 | fround | fscale | fcmpEq | fcmpNe | fcmpLt | fcmpLe | fcmpUn |
    vcvt | vred | vperm | vslide | vcompress | vexpand | vbcast | vins | vext | pand | por | pxor | pandn | pset |
    pget | pcnt | pfirst | pwhile => exact goes_commit ..
  case bCond | jl => exact goes_commitTo ..
  case ld | ldx | st | stx | amoAdd | amoAnd | amoOr | amoXor | amoMin | amoMax | amoMinn | amoMaxn | amoSwap | cas |
    fence | pref | cwb | cinv | vld | vst | vgather | vscatter | ctrrd | ctrset | tspawn | twake | tprio | tload |
    tloads | tstore | tstoreAon | tstorea | tzero | tcvt | tmova | tmovt | ttrans | tadd | tscale | trel | mset |
    put | putV | putT | copy | copyResume => exact goes_runAct ..
  case tlbiPage | tlbiAsn | tlbiAll => exact goes_tlbiOp ..
  case tmma | tmmaSp => exact goes_runMma ..
  case jlr => exact goes_ite (goes_next _) (goes_commitTo ..)
  case cwait => exact goes_cwait ..
  case erd => exact goes_ite (goes_next _) (goes_commit ..)
  case tyield => exact goes_ite (goes_commit ..) (goes_ite (goes_retireThen ..) (goes_commit ..))
  case tsleep => exact goes_ite (goes_commit ..) (goes_retireThen ..)
  case texit => exact goes_ite (goes_commit ..) (goes_retireThen ..)
  case sysrd => exact goes_ite (goes_next _) (goes_commit ..)
  case syswr => exact goes_ite (goes_next _) (goes_commit ..)
  case ctxrd => exact goes_ite (goes_next _) (goes_ite (goes_next _) (goes_ite (goes_next _) (goes_commit ..)))
  case ctxwr => exact goes_ite (goes_next _) (goes_ite (goes_next _) (goes_ite (goes_next _) (goes_commit ..)))
  case tret => exact goes_ite (goes_next _) (goes_ite (goes_next _) (goes_ite (goes_next _) (goes_ite (goes_commit ..) (goes_commit ..))))
  case tredir => exact goes_ite (goes_next _) (goes_ite (goes_next _) (goes_ite (goes_next _) (goes_ite (goes_next _) (goes_commit ..))))
  case wfm => exact goes_wfm ..
  case tloadV => exact goes_tloadV ..
  case debugPortAccess => exact goes_ite (goes_next _) (goes_ite (goes_next _) (goes_next _))
  case dmaRead => exact goes_dmaRead ..
  case hostMemAccess => exact goes_hostMemAccess ..

theorem goes_runNext (n : Except State (Instr × State)) : Goes (runNext n) := by
  cases n with
  | ok p => exact goes_exec ..
  | error t => exact goes_next t

theorem goes_turn (s : State) : Goes (turn s) := goes_ite (goes_next _) (goes_runNext _)

theorem goes_happen (h : Happening) (s : State) : Goes (happen h s) := by
  cases h with
  | event i => exact goes_exec ..
  | efc e => exact goes_runNext _
  | again c => exact goes_runNext _

theorem goes_act (s : State) : Goes (act s) := by
  unfold act
  split
  · exact goes_exec ..
  · dsimp only
    split
    · exact goes_happen ..
    · exact goes_turn _

/-- Settles O16: a module that works goes on, whatever the step is. -/
theorem onlyAShutDownModuleStops : Obligations.OnlyAShutDownModuleStops := by
  intro s
  constructor
  · intro hd
    exact if_pos hd
  · intro hd
    obtain ⟨t, ht⟩ := goes_act s
    exact ⟨(t.accounted s).reassert s, by simp [step, hd, ht, accountFor]⟩

end Sys2Proof.Machine
end

section
/-! The scalar instructions (R69, R180, R185-R193): what each writes, by the functions on natural numbers that the model
computes them with, and where a jump goes. -/

namespace Sys2Proof.Machine

section
variable {n : Nat} (x y : BitVec n)

theorem fMin_yields_lesser : BitVec.ofNat n (fMin n x.toNat y.toNat) = if x.toInt ≤ y.toInt then x else y := by
  rw [fMin_eq]
  by_cases h : x.toInt ≤ y.toInt <;> simp [BitVec.slt, h, Int.not_lt.2, Int.not_le.1]

theorem fMax_yields_greater : BitVec.ofNat n (fMax n x.toNat y.toNat) = if y.toInt ≤ x.toInt then x else y := by
  rw [fMax_eq]
  by_cases h : y.toInt ≤ x.toInt <;> simp [BitVec.slt, h, Int.not_lt.2, Int.not_le.1]

theorem fMinn_yields_lesser : BitVec.ofNat n (fMinn n x.toNat y.toNat) = if x.toNat ≤ y.toNat then x else y := by
  rw [fMinn_eq]
  by_cases h : x.toNat ≤ y.toNat <;> simp [BitVec.ult, h, Nat.not_lt.2, Nat.not_le.1]

theorem fMaxn_yields_greater : BitVec.ofNat n (fMaxn n x.toNat y.toNat) = if y.toNat ≤ x.toNat then x else y := by
  rw [fMaxn_eq]
  by_cases h : y.toNat ≤ x.toNat <;> simp [BitVec.ult, h, Nat.not_lt.2, Nat.not_le.1]

end

/-- Both widths are positive. -/
theorem width_pos {n : Nat} (h : n = 64 ∨ n = 32) : 0 < n := by omega

/-- Settles O1: each instruction's function of natural numbers is the operation on bit vectors. -/
theorem scalarArithmetic : Obligations.ScalarArithmetic := by
  refine ⟨⟨?_, ?_, ?_, ?_, ?_⟩, ?_, ?_, ?_, ?_, ?_, ?_, ?_, ?_, ?_, ?_⟩
  · exact alu2_yields (fun _ _ _ _ _ => rfl) fun n x y _ => fAdd_eq n x y
  · exact alu2_yields (fun _ _ _ _ _ => rfl) fun n x y _ => fSub_eq n x y
  · exact alu2_yields (fun _ _ _ _ _ => rfl) fun n x y _ => fMul_eq n x y
  · exact alu2_yields (fun _ _ _ _ _ => rfl) fun n x y _ => fMulh_eq n x y
  · exact alu2_yields (fun _ _ _ _ _ => rfl) fun n x y _ => fMulhn_eq n x y
  · exact alu2_yields (fun _ _ _ _ _ => rfl) fun n x y _ => fAnd_eq n x y
  · exact alu2_yields (fun _ _ _ _ _ => rfl) fun n x y _ => fOr_eq n x y
  · exact alu2_yields (fun _ _ _ _ _ => rfl) fun n x y _ => fXor_eq n x y
  · exact alu2_yields (fun _ _ _ _ _ => rfl) fun n x y _ => fAndn_eq n x y
  · exact alu2_yields (fun _ _ _ _ _ => rfl) fun n x y _ => fOrn_eq n x y
  · exact alu2_yields (fun _ _ _ _ _ => rfl) fun n x y _ => fSll_eq n x y.toNat
  · exact alu2_yields (fun _ _ _ _ _ => rfl) fun n x y _ => fSrl_eq n x y.toNat
  · exact alu2_yields (fun _ _ _ _ _ => rfl) fun n x y _ => fSra_eq n x y.toNat
  · exact alu2_yields (fun _ _ _ _ _ => rfl) fun n x y h => fRol_eq n x (width_pos h) y.toNat
  · exact alu2_yields (fun _ _ _ _ _ => rfl) fun n x y h => fRor_eq n x (width_pos h) y.toNat

/-- The model's condition is the one that R74 lists under its code. -/
theorem cond_eq_condHolds (k : BitVec 3) (x y : Word) : cond k x y = condHolds k x y := by
  have hk : k = 0#3 ∨ k = 1#3 ∨ k = 2#3 ∨ k = 3#3 ∨ k = 4#3 ∨ k = 5#3 ∨ k = 6#3 ∨ k = 7#3 := by revert k; decide
  obtain rfl | rfl | rfl | rfl | rfl | rfl | rfl | rfl := hk
  · rw [Bool.eq_iff_iff]; simp [cond, condHolds]
  · rw [Bool.eq_iff_iff]; simp [cond, condHolds]
  · rfl
  · rw [Bool.eq_iff_iff]; simp [cond, condHolds, BitVec.slt]
  · rfl
  · rw [Bool.eq_iff_iff]; simp [cond, condHolds, BitVec.ult]
  · rfl
  · rfl

theorem bit_eq_ite (b : Bool) : bit b = if b = true then 1 else 0 := rfl

theorem setReg_yields {i : Instr} {d : Reg} {v w : State → Word} (e : ∀ s, exec i s = setReg d (v s) s) (h : ∀ s, v s = w s) :
    Yields i d w := by
  intro s c
  rw [e, setReg_clear c, h]

/-- The position that `fnth` finds is the destination's function of the state as well as the operand's. -/
theorem fnth_yields (d a : Reg) (w : Bool) (s : State) (c : Clear s) :
    exec (.fnth d a w) s = .next (s.wrote d (signFrom (widthOf w) (fnthOf (widthOf w) 0 (low (widthOf w) (s.readG a)) (s.readG d).toNat))) :=
  setReg_clear c d _

/-- A position of at most N is a non-negative N-bit number at both widths. -/
theorem signFrom_position {n m : Nat} (hn : n = 64 ∨ n = 32) (h : m ≤ n) : signFrom n m = BitVec.ofNat 64 m := by
  have hm : m < 2 ^ n := lt_of_le_of_lt h n.lt_two_pow_self
  have hsmall : 2 * m < 2 ^ n := by rcases hn with rfl | rfl <;> omega
  rw [signFrom, Nat.mod_eq_of_lt hm, signed, if_pos hsmall, BitVec.ofInt_natCast]

theorem getD_filter_range_le (p : Nat → Bool) (n k : Nat) : ((List.range n).filter p).getD k n ≤ n := by
  rw [List.getD_eq_getElem?_getD]
  cases e : ((List.range n).filter p)[k]? with
  | none => simp
  | some i =>
    have hi := List.mem_of_getElem? e
    simp only [List.mem_filter, List.mem_range] at hi
    exact hi.1.le

/-- Settles O3: the functions of class 1 by their lemmas; `fnth` reads its destination's old value as well. -/
theorem comparisonsAndBitCounts : Obligations.ComparisonsAndBitCounts := by
  refine ⟨⟨?_, ?_, ?_, ?_, ?_, ?_, ?_, ?_, ?_, ?_⟩, ?_, ?_, ?_, ?_, ?_, ?_⟩
  · exact alu2_yields (fun _ _ _ _ _ => rfl) fun n x y _ => fMin_yields_lesser x y
  · exact alu2_yields (fun _ _ _ _ _ => rfl) fun n x y _ => fMax_yields_greater x y
  · exact alu2_yields (fun _ _ _ _ _ => rfl) fun n x y _ => fMinn_yields_lesser x y
  · exact alu2_yields (fun _ _ _ _ _ => rfl) fun n x y _ => fMaxn_yields_greater x y
  · intro d a b k
    exact setReg_yields (fun _ => rfl) fun s => by rw [bit_eq_ite, cond_eq_condHolds]
  · intro d a b c
    exact setReg_yields (fun _ => rfl) fun s => by by_cases h : s.readG c = 0 <;> simp [h]
  · intro d a im
    exact setReg_yields (fun _ => rfl) fun s => by
      rw [bit_eq_ite, cond_eq_condHolds]; exact if_congr decide_eq_true_iff rfl rfl
  · intro d a im
    exact setReg_yields (fun _ => rfl) fun s => by
      rw [bit_eq_ite, cond_eq_condHolds]; exact (if_congr decide_eq_true_iff rfl rfl).trans (ite_not ..)
  · intro d a im
    exact setReg_yields (fun _ => rfl) fun s => by
      rw [bit_eq_ite, cond_eq_condHolds]; exact if_congr decide_eq_true_iff rfl rfl
  · intro d a im
    exact setReg_yields (fun _ => rfl) fun s => by
      rw [bit_eq_ite, cond_eq_condHolds]
      have him : (im.setWidth 64).toNat = im.toNat := by
        rw [BitVec.toNat_setWidth]; exact Nat.mod_eq_of_lt (by have := im.isLt; omega)
      simp [condHolds, uimm, him]
  · exact alu1_yields (fun _ _ _ _ => rfl) fun n x _ => by rw [fPopc_eq]
  · exact alu1_yields (fun _ _ _ _ => rfl) fun n x _ => by rw [fClz_eq]
  · exact alu1_yields (fun _ _ _ _ => rfl) fun n x _ => by rw [fCtz_eq]
  · exact alu1_yields (fun _ _ _ _ => rfl) fun n x _ => fBrev_eq n x
  · intro d a s c
    have hle := getD_filter_range_le (fun i => (s.readG a).getLsbD i) 64 (s.readG d).toNat
    rw [fnth_yields d a false s c, widthOf, if_neg (by decide), low64, fnth_eq, signFrom_position (.inl rfl) hle]
  · intro d a s c
    have hbits : (List.range 32).filter (fun i => ((s.readG a).setWidth 32).getLsbD i) =
        (List.range 32).filter (fun i => (s.readG a).getLsbD i) := by
      refine List.filter_congr fun i hi => ?_
      rw [BitVec.getLsbD_setWidth]; simp [List.mem_range.1 hi]
    have hle := getD_filter_range_le (fun i => (s.readG a).getLsbD i) 32 (s.readG d).toNat
    rw [fnth_yields d a true s c, widthOf, if_pos rfl, low32, fnth_eq, hbits, signFrom_position (.inr rfl) hle]

theorem fieldOf_eq (x : Word) (p l : BitVec 6) : fieldOf x p l = (x.extractLsb' p.toNat (l.toNat + 1)).toNat := by
  rw [BitVec.extractLsb'_toNat, Nat.shiftRight_eq_div_pow]; rfl

/-- The bits that `bins` replaces. -/
theorem hole_bit (p l i : Nat) : ((2 ^ (l + 1) - 1) * 2 ^ p).testBit i = decide (p ≤ i ∧ i ≤ p + l) := by
  rw [Nat.mul_comm, Nat.testBit_two_pow_mul, Nat.testBit_two_pow_sub_one, Bool.eq_iff_iff]
  simp only [Bool.and_eq_true, decide_eq_true_eq]
  omega

theorem shiftLeft_two (x : Word) : x <<< 2 = 4 * x := by
  apply BitVec.eq_of_toNat_eq
  simp [Nat.shiftLeft_eq, Nat.mul_comm]

/-- Settles O4: each instruction writes the value that its rule gives; `bins` bit by bit. -/
theorem immediatesAndBitFields : Obligations.ImmediatesAndBitFields := by
  refine ⟨?_, ?_, ?_, ?_, ?_, ?_, ?_, ?_, ?_, ?_, ?_, ?_, ?_⟩
  · intro d a im; exact setReg_yields (fun _ => rfl) fun _ => rfl
  · intro d a im; exact setReg_yields (fun _ => rfl) fun _ => rfl
  · intro d a im; exact setReg_yields (fun _ => rfl) fun _ => rfl
  · intro d a im; exact setReg_yields (fun _ => rfl) fun _ => rfl
  · intro p; exact alu1_yields (f := fun n x => fSll n x p.toNat) (fun _ _ _ _ => rfl) fun n x _ => fSll_eq n x p.toNat
  · intro p; exact alu1_yields (f := fun n x => fSrl n x p.toNat) (fun _ _ _ _ => rfl) fun n x _ => fSrl_eq n x p.toNat
  · intro p; exact alu1_yields (f := fun n x => fSra n x p.toNat) (fun _ _ _ _ => rfl) fun n x _ => fSra_eq n x p.toNat
  · intro p; exact alu1_yields (f := fun n x => fRor n x p.toNat) (fun _ _ _ _ => rfl) fun n x h => fRor_eq n x (width_pos h) p.toNat
  · intro d a p l
    exact setReg_yields (v := fun s => BitVec.ofNat 64 (fieldOf (s.readG a) p l)) (fun _ => rfl) fun s => by
      rw [fieldOf_eq]; exact BitVec.ofNat_toNat ..
  · intro d a p l
    exact setReg_yields (v := fun s => signFrom (l.toNat + 1) (fieldOf (s.readG a) p l)) (fun _ => rfl) fun s => by
      rw [signFrom_eq, fieldOf_eq, BitVec.ofNat_toNat, BitVec.setWidth_eq]
  · intro d a p l s c hpl
    refine ⟨_, setReg_clear c d _, fun i hi => ?_⟩
    have hhole : (BitVec.ofNat 64 ((2 ^ (l.toNat + 1) - 1) * 2 ^ p.toNat)).getLsbD i = decide (p.toNat ≤ i ∧ i ≤ p.toNat + l.toNat) := by
      rw [BitVec.getLsbD_ofNat, hole_bit]; simp [hi]
    simp only [BitVec.getLsbD_or, BitVec.getLsbD_and, BitVec.getLsbD_not, BitVec.getLsbD_shiftLeft, hhole, hi]
    by_cases hin : p.toNat ≤ i ∧ i ≤ p.toNat + l.toNat
    · simp [hin, Nat.not_lt.2 hin.1]
    · simp [hin]
  · intro d im; exact setReg_yields (fun _ => rfl) fun _ => rfl
  · intro d im
    exact setReg_yields (fun _ => rfl) fun s => by rw [shiftLeft_two]; rfl

/-- Settles O5: a branch or jump that retires goes to its target; `jlr` to a misaligned one traps before anything else. -/
theorem branchesAndJumps : Obligations.BranchesAndJumps := by
  refine ⟨?_, ?_, ?_, ?_⟩
  · intro h k a b l s c
    refine (commitTo_clear c s _).trans ?_
    rw [cond_eq_condHolds, shiftLeft_two]
    cases condHolds k (s.readG a) (s.readG b) <;> rfl
  · intro d off s c
    refine (commitTo_clear c _ _).trans ?_
    rw [shiftLeft_two]; rfl
  · intro d a off s c h
    exact (if_neg (not_not.2 h)).trans (commitTo_clear c _ _)
  · intro d a off s h
    exact if_pos h

theorem toNat_eq_zero_iff {n : Nat} (r : BitVec n) : r.toNat = 0 ↔ r = 0 := toNat_eq_zero n r

theorem readG_writeG (s : State) (r q : Reg) (v : Word) :
    (s.writeG r v).readG q = if q = 0 then 0 else if q = r then v else s.readG q := by
  unfold State.readG State.writeG
  rw [me_modMe]
  by_cases hq : q = 0
  · subst hq; rfl
  · have hq' : q.toNat ≠ 0 := fun e => hq ((toNat_eq_zero_iff q).1 e)
    by_cases hr : q = r
    · subst hr; rw [if_neg hq, if_pos rfl]; simp [Context.getG, Context.setG, hq']
    · rw [getG_setG _ _ _ _ hr, if_neg hq, if_neg hr]

theorem readP_writeP (s : State) (m n : BitVec 3) (w : Word) :
    (s.writeP m w).readP n = if n = 0 then BitVec.allOnes 64 else if n = m then w else s.readP n := by
  unfold State.readP State.writeP
  rw [me_modMe]
  by_cases hn : n = 0
  · subst hn; rfl
  · have hn' : n.toNat ≠ 0 := fun e => hn ((toNat_eq_zero_iff n).1 e)
    by_cases hm : n = m
    · subst hm; rw [if_neg hn, if_pos rfl]; simp [Context.getP, Context.setP, hn']
    · rw [getP_setP _ _ _ _ hm, if_neg hn, if_neg hm]

/-- Settles O6: registers 0 are written to no effect, and read after write otherwise. -/
theorem hardWiredRegisters : Obligations.HardWiredRegisters := fun s r q v m n w =>
  ⟨rfl, rfl, rfl, rfl, readG_writeG s r q v, readP_writeP s m n w⟩

end Sys2Proof.Machine
end

section
/-! What a decoder answers: an instruction only through the check of its limits (R91), and none in a class without
instructions (R68). -/

namespace Sys2Proof

/-- Whatever a reader answers has passed the check of its limits. -/
def Checked (r : Except Reject Instr) : Prop := ∀ i, r = .ok i → i.wf = true

theorem checked_error (e : Reject) : Checked (.error e) := fun _ h => by cases h

theorem checked_accept (i : Instr) : Checked (accept i) := fun _ h => wf_of_accept h

theorem checked_guardRsv (ok : Bool) (i : Instr) : Checked (guardRsv ok i) := fun _ h => wf_of_guardRsv h

theorem checked_ite {p : Prop} [Decidable p] {a b : Except Reject Instr} (ha : Checked a) (hb : Checked b) :
    Checked (if p then a else b) := by
  split
  · exact ha
  · exact hb

/-- Every arm of the decoder ends in a reader, which checks, or in a refusal. -/
theorem checked_decodeCpu (w w1 : Nat) : Checked (decodeCpu w w1) := by
  unfold decodeCpu
    decodeClass1 decodeClass2 decodeClass3 decodeClass4 decodeClass5 decodeClass6 decodeClass7 decodeClass8 decodeClass9
    decodeClass10 decodeClass11 decodeClass12 decodeClass13 decodeClass14 decodeClass15 decodeClass16 decodeClass17
    decodeClass18 decodeClass19 decodeClass20 decodeLong
  dsimp only
  repeat' with_reducible apply checked_ite
  all_goals apply_rules [checked_guardRsv, checked_accept, checked_error]

theorem checked_decodeEfc (w : Nat) : Checked (decodeEfc w) := by
  unfold decodeEfc
  dsimp only
  repeat' with_reducible apply checked_ite
  all_goals apply_rules [checked_guardRsv, checked_accept, checked_error]

/-- The classes that hold instructions are 1 to 20 and 24. -/
theorem decodeCpu_badClass (w w1 : Nat) (h : bits w 27 5 = 0 ∨ 21 ≤ bits w 27 5 ∧ bits w 27 5 ≠ 24) :
    decodeCpu w w1 = .error .badClass := by
  unfold decodeCpu
  generalize bits w 27 5 = c at h
  dsimp only
  iterate 21 rw [if_neg (by omega)]

end Sys2Proof

namespace Sys2Proof.Machine

/-- Settles O13: a reader checks what it answers, and no other class has a reader. -/
theorem decoderRefusals : Obligations.DecoderRefusals :=
  ⟨⟨checked_decodeCpu, checked_decodeEfc⟩, decodeCpu_badClass⟩

end Sys2Proof.Machine
end

section
/-! Traps and what they leave alone (R26, R256-R263, R375, R376), and the instructions that trap in a user context (R6,
R22, R264-R270). -/

namespace Sys2Proof.Machine

/-- Settles O14: each word is read field by field. -/
theorem decodeSampleWords : Obligations.DecodeSampleWords := ⟨rfl, rfl, rfl, rfl, rfl, rfl, rfl, rfl, rfl, rfl⟩

theorem mem_squash (s : State) (c : Nat) : (s.squash c).mem = s.mem := by
  unfold State.squash; dsimp only; split <;> split <;> rfl

theorem ctx_parkBase (s : State) (c d : Nat) (r : Reason) : (parkBase s c r).ctx d =
    if d = c then { s.ctx c with life := .parked r, stall := .none, attempt := 0, inwfm := false, held := none } else s.ctx d := by
  unfold parkBase
  rw [ctx_modCtx, ctx_squash, ctx_squash]

theorem ctx_park_user {s : State} {c d : Nat} (hd : isX7 d = false) (r : Reason) (k : Nat) :
    (s.park c r k).ctx d = (parkBase s c r).ctx d := (apart_park s c r k).user d hd

/-- What a trap in a user context leaves: its park, and beyond it what the record in X7's queue changes. -/
theorem takeTrap_user_apart {s : State} {c : Nat} (h : isX7 c = false) (tr : Trap) (w0 w1 : BitVec 32) :
    Apart (parkBase (s.modCtx c (fun x => { x.trapRegs tr w0 w1 with stall := .none, attempt := 0 })) c tr.cause.reason)
      (s.takeTrap c tr w0 w1) := by
  rw [takeTrap_user h]
  exact keep_enterTrap (plain_apart _) (apart_park ..)

theorem inwfm_enterTrap (s : State) (k c : Nat) (m : Quad) : ((s.enterTrap k c m).ctx (x7Of k)).inwfm = false := by
  unfold State.enterTrap State.wakeX7
  rw [ctx_modCtx_same]

/-- Settles O8: the park's own context by its base, the rest by what the memory system leaves apart. -/
theorem takingATrap : Obligations.TakingATrap := by
  constructor
  · intro s c tr w0 w1 h
    have hapart := takeTrap_user_apart h (s := s) tr w0 w1
    refine ⟨?_, ?_, ?_, ?_⟩
    · rw [hapart.user c h, ctx_parkBase, if_pos rfl, ctx_modCtx_same]; rfl
    · intro d hdc hd
      rw [hapart.user d hd, ctx_parkBase, if_neg hdc, ctx_modCtx, if_neg hdc]
    · rw [takeTrap_user h]; exact inQueue_enterTrap ..
    · rw [takeTrap_user h]; exact inwfm_enterTrap ..
  · intro s c tr w0 w1 h
    rw [takeTrap_x7 h]
    dsimp only
    cases hn : (s.core (coreOf c)).nest
    · simp only [Bool.false_eq_true, if_false]
      refine ⟨fun _ => ⟨?_, ?_⟩, fun e => absurd e (by decide), fun d hd => ?_, ?_⟩
      · rw [ctx_modCtx_same, ctx_modCore, ctx_squash, ctx_modCtx_same]; rfl
      · rw [core_modCtx, core_modCore_same, core_squash, core_modCtx]
      · rw [ctx_modCtx, if_neg hd, ctx_modCore, ctx_squash, ctx_modCtx, if_neg hd]
      · rw [mem_modCtx, mem_modCore, mem_squash, mem_modCtx]
    · simp only [if_true]
      rw [park_x7 h]
      refine ⟨fun e => absurd e (by decide), fun _ => ⟨?_, ?_⟩, fun d hd => ?_, ?_⟩
      · rw [ctx_parkBase, if_pos rfl, ctx_modCtx_same]; rfl
      · unfold parkBase; rw [core_modCtx, core_squash, core_modCtx]
      · rw [ctx_parkBase, if_neg hd, ctx_modCtx, if_neg hd]
      · unfold parkBase; rw [mem_modCtx, mem_squash, mem_modCtx]

/-- Settles O9: both answer the trap at once, and a park leaves the PC. -/
theorem systemCallAndBreak : Obligations.SystemCallAndBreak := by
  refine ⟨fun _ _ => rfl, fun im s h => ?_, fun im s h => ?_, fun s c pc => ⟨rfl, rfl, fun hc => ?_⟩⟩
  · have hclaim : ¬ (s.core (coreOf s.cur)).claim.getLsbD (s.cur % 8) = true := by rw [show coreOf s.cur = s.myCore from rfl, h]; decide
    exact congrArg Host.Outcome.next (if_neg hclaim)
  · exact congrArg Host.Outcome.next (if_pos h)
  · rw [ctx_park_user hc, ctx_parkBase, if_pos rfl]; exact ⟨rfl, rfl⟩

theorem sysGuarded_of {n : BitVec 13} (h : 0x800 ≤ n.toNat ∨ n = 0x409#13 ∨ n = 0x40A#13) : sysGuarded n.toNat = true := by
  unfold sysGuarded
  rcases h with h | rfl | rfl
  · simp [h]
  · decide
  · decide

/-- Settles O10: each of these instructions asks first whether it runs in X7. -/
theorem supervisorInstructionsTrapInUserContexts : Obligations.SupervisorInstructionsTrapInUserContexts := by
  intro s d a c n sc h
  have hx : (!s.inX7) = true := by rw [h]; rfl
  refine ⟨if_pos hx, if_pos hx, if_pos hx, if_pos hx, if_pos hx, if_pos hx, if_pos hx, if_pos hx, fun hn => ?_⟩
  have hg : (sysGuarded n.toNat && !s.inX7) = true := by rw [sysGuarded_of hn, hx]; rfl
  exact ⟨if_pos hg, if_pos hg⟩

end Sys2Proof.Machine
end

section
/-! The instructions without accesses (R8, R69, R185, R331, R376): what each leaves alone, by the kind of its destination,
and the breakpoint that takes its place. -/

namespace Sys2Proof.Machine

/-- An instruction that may leave its destination as it was. -/
theorem OwnFrame.of_nothing {i : Instr} {s : State} (h : OwnFrame i .nothing s) (d : Reg) : OwnFrame i (.v d false) s := by
  obtain ⟨t, x, he, hret, hx, hg, hv, hp, hfst, hand, hmem⟩ := h
  exact ⟨t, x, he, hret, hx, fun r _ => hg r rfl, fun r _ => hv r rfl, fun r _ => hp r rfl, fun _ => hfst rfl, hand, hmem⟩

/-- `vins` writes its vector, or nothing where the lane named is none (R214). -/
theorem frame_vins {s : State} (c : Clear s) (d a b : Reg) (ty : BitVec 4) : OwnFrame (.vins d a b ty) (.v d false) s := by
  by_cases hk : (s.readG b).toNat < 64 / tyBytes ty
  · exact frame_v c (congrArg (commit s · 4) (if_pos hk))
  · have e : exec (.vins d a b ty) s = commitTo s s (s.pc + 4) := congrArg (commit s · 4) (if_neg hk)
    exact (frame_n c e).of_nothing d

/-- Each instruction of `regDest` writes its destination and retires: one frame lemma for each kind of destination. -/
theorem ownFrame_of_regDest {i : Instr} {dest : Dest} {s : State} (h : regDest i = some dest) (c : Clear s) : OwnFrame i dest s := by
  cases i
  case add | sub | and | or | xor | andn | orn | sll | srl | sra | rol | ror | mul | mulh | mulhn | div | divn |
    rem | remn | min | max | minn | maxn | cset | sel | popc | clz | ctz | brev | fnth | addi | andi | ori | xori |
    csetiEq | csetiNe | csetiLt | csetiLtn | slli | srli | srai | rori | bext | bexts | bins | lui | lpa | jl |
    vext | pget | pcnt | pfirst => cases h; exact frame_g c rfl
  case bCond => cases h; exact frame_n c rfl
  case vadd | vsub | vmul | vmulhI | vmulhN | vminI | vminN | vmaxI | vmaxN | vand | vor | vxor | vandn | vsll |
    vsrl | vsra | vpopc | vclz | vctz | vbrev | vfnth | vabs | vaddsI | vaddsN | vsubsI | vsubsN | vsel | vperm |
    vslide | vcompress | vexpand | vbcast => cases h; exact frame_v c rfl
  case fadd | fsub | fmul | ffma | ffms | fnma | fdiv | fsqrt | fmin | fmax | fabs | fneg | frcp | frsqrt | fexp2 |
    flog2 | fround | fscale | vcvt | vred => cases h; exact frame_vf c rfl
  case vcmpEq | vcmpNe | vcmpLt | vcmpGe | vcmpLtn | vcmpGen | pand | por | pxor | pandn | pset | pwhile => cases h; exact frame_p c rfl
  case fcmpEq | fcmpNe | fcmpLt | fcmpLe | fcmpUn => cases h; exact frame_pf c rfl
  case vins => cases h; exact frame_vins c ..
  all_goals cases h

/-- Each instruction of `regDest` ends in a retirement. -/
theorem commits_of_regDest {i : Instr} {dest : Dest} (h : regDest i = some dest) (s : State) : ∃ t pc, exec i s = commitTo s t pc := by
  cases i
  case vins | add | sub | and | or | xor | andn | orn | sll | srl | sra | rol | ror | mul | mulh | mulhn | div |
    divn | rem | remn | min | max | minn | maxn | cset | sel | popc | clz | ctz | brev | fnth | addi | andi | ori |
    xori | csetiEq | csetiNe | csetiLt | csetiLtn | slli | srli | srai | rori | bext | bexts | bins | lui | lpa |
    jl | vext | pget | pcnt | pfirst | bCond | vadd | vsub | vmul | vmulhI | vmulhN | vminI | vminN | vmaxI | vmaxN |
    vand | vor | vxor | vandn | vsll | vsrl | vsra | vpopc | vclz | vctz | vbrev | vfnth | vabs | vaddsI | vaddsN |
    vsubsI | vsubsN | vsel | vperm | vslide | vcompress | vexpand | vbcast | vcmpEq | vcmpNe | vcmpLt | vcmpGe |
    vcmpLtn | vcmpGen | pand | por | pxor | pandn | pset | pwhile | fadd | fsub | fmul | ffma | ffms | fnma | fdiv |
    fsqrt | fmin | fmax | fabs | fneg | frcp | frsqrt | fexp2 | flog2 | fround | fscale | vcvt | vred | fcmpEq |
    fcmpNe | fcmpLt | fcmpLe | fcmpUn => exact ⟨_, _, rfl⟩
  all_goals cases h

/-- Settles O7: the frame of each instruction, and the match at the moment of its retirement. -/
theorem registerOnlyFrame : Obligations.RegisterOnlyFrame := by
  constructor
  · intro i dest s h c
    exact ownFrame_of_regDest h c
  · intro i dest s h b
    obtain ⟨t, pc, e⟩ := commits_of_regDest h s
    exact hit_commit b e

end Sys2Proof.Machine
end

section
/-! Core cycles and engine cycles (R24, R32, R331, R338, R344): who dispatches, and what a cycle counts. -/

namespace Sys2Proof.Machine

/-! ### Counters -/

/-- A counter's key tells its group, unit and index apart within their bounds (R331). -/
theorem ctrKey_inj {k g u i k' g' u' i' : Nat} (hg : g < 16) (hu : u < 32768) (hi : i < 256) (hg' : g' < 16) (hu' : u' < 32768)
    (hi' : i' < 256) : ctrKey k g u i = ctrKey k' g' u' i' ↔ k = k' ∧ g = g' ∧ u = u' ∧ i = i' := by
  unfold ctrKey; omega

theorem ctr_addCtr (s : State) (k g u i n k' g' u' i' : Nat) : (s.addCtr k g u i n).ctr k' g' u' i' =
    if ctrKey k' g' u' i' = ctrKey k g u i then s.ctr k' g' u' i' + BitVec.ofNat 64 n else s.ctr k' g' u' i' := by
  unfold State.addCtr State.setCtr State.ctr
  rw [tget_tset]
  split
  · next h => rw [h]
  · rfl

/-- Only counters differ. -/
def Counted (s t : State) : Prop := t = { s with ctrs := t.ctrs }

theorem Counted.refl (s : State) : Counted s s := rfl

theorem Counted.addCtr {s t : State} (h : Counted s t) (k g u i n : Nat) : Counted s (t.addCtr k g u i n) := by
  unfold Counted at h ⊢; rw [h]; rfl

theorem Counted.trans {s t u : State} (h : Counted s t) (g : Counted t u) : Counted s u := by
  unfold Counted at *; rw [h] at g; exact g

section
variable {α : Type} (k u : α → Nat) (g i : Nat)

theorem ctr_foldl (k' g' u' i' : Nat) : ∀ (l : List α) (s : State),
    (l.foldl (fun s a => s.addCtr (k a) g (u a) i 1) s).ctr k' g' u' i' =
      s.ctr k' g' u' i' + BitVec.ofNat 64 (l.countP (fun a => decide (ctrKey k' g' u' i' = ctrKey (k a) g (u a) i))) := by
  intro l
  induction l with
  | nil => intro s; simp
  | cons a l ih =>
    intro s
    rw [List.foldl_cons, ih, ctr_addCtr, List.countP_cons]
    split
    · next h => rw [if_pos (by simpa using h), BitVec.add_assoc, ← BitVec.ofNat_add, Nat.add_comm 1]
    · next h => rw [if_neg (by simpa using h), Nat.add_zero]

end

/-- Elements that occur once are counted once. -/
theorem countP_eq_ite {l : List Nat} (h : l.Nodup) (p : Nat → Bool) (e : Nat) (hp : ∀ a ∈ l, p a = true ↔ a = e) :
    l.countP p = if e ∈ l then 1 else 0 := by
  rw [← List.Nodup.count h, List.count]
  exact List.countP_congr fun a ha => by rw [hp a ha]; simp

/-! ### Engine cycles -/

theorem counted_engineCycle (s : State) (sock : Nat) : Counted s (s.engineCycle sock) :=
  foldl_keeps (p := Counted s) (fun _ _ h => h.addCtr ..) _
    (foldl_keeps (p := Counted s) (fun _ _ h => h.addCtr ..) _ (Counted.refl s))

/-- The ports whose HELD an engine cycle counts. -/
theorem mem_heldPorts (s : State) (sock p : Nat) (hp : p < 512) :
    512 * sock + p ∈ (if s.flights.isEmpty then [] else s.heldPorts sock) ↔
      s.flights.any (fun f => f.port == 512 * sock + p && !f.classA && (match f.place with | .waiting _ => true | _ => false)) = true := by
  split
  · next h => rw [List.isEmpty_iff.1 h]; simp
  · unfold State.heldPorts
    rw [List.mem_filter, List.mem_map]
    exact and_iff_right ⟨p, List.mem_range.2 hp, rfl⟩

theorem heldPorts_nodup (s : State) (sock : Nat) : (if s.flights.isEmpty then [] else s.heldPorts sock).Nodup := by
  split
  · exact List.nodup_nil
  · exact List.Nodup.filter _ (List.nodup_range.map fun a b h => by simpa using h)

theorem heldPorts_sock {s : State} {sock a : Nat} (h : a ∈ (if s.flights.isEmpty then [] else s.heldPorts sock)) : a / 512 = sock := by
  split at h
  · cases h
  · unfold State.heldPorts at h
    obtain ⟨p, hp, rfl⟩ := List.mem_map.1 (List.mem_filter.1 h).1
    have := List.mem_range.1 hp
    omega

/-- The engines whose THROTTLE an engine cycle counts. -/
def State.slowEngines (s : State) (sock : Nat) : List Nat :=
  (s.engines.filter (fun e => e.1 / 256 == sock && s.throttled e.1)).map (·.1)

theorem mem_slowEngines {s : State} {sock e : Nat} (h : e ∈ s.engines.map (·.1)) :
    e ∈ s.slowEngines sock ↔ e / 256 = sock ∧ s.throttled e = true := by
  unfold State.slowEngines
  simp only [List.mem_map, List.mem_filter, Bool.and_eq_true, beq_iff_eq]
  constructor
  · rintro ⟨x, ⟨-, hx⟩, rfl⟩; exact hx
  · intro hx
    obtain ⟨x, hmem, rfl⟩ := List.mem_map.1 h
    exact ⟨x, ⟨hmem, hx⟩, rfl⟩

theorem slowEngines_nodup {s : State} (sock : Nat) (h : (s.engines.map (·.1)).Nodup) : (s.slowEngines sock).Nodup :=
  h.sublist (List.filter_sublist.map _)

/-- What an engine cycle leaves of a counter: the elements counted under its key. -/
theorem ctr_engineCycle (s : State) (sock k g u i : Nat) : (s.engineCycle sock).ctr k g u i = s.ctr k g u i +
    BitVec.ofNat 64 ((if s.flights.isEmpty then [] else s.heldPorts sock).countP (fun p => decide (ctrKey k g u i = ctrKey (p / 512) 4 (p % 512) 4))) +
      BitVec.ofNat 64 ((s.slowEngines sock).countP (fun e => decide (ctrKey k g u i = ctrKey (e / 256) 2 (e % 256) 6))) := by
  refine (ctr_foldl (fun e => e / 256) (fun e => e % 256) 2 6 k g u i (s.slowEngines sock) _).trans ?_
  rw [← ctr_foldl (fun p => p / 512) (fun p => p % 512) 4 4 k g u i]
  rfl

/-- No engine cycle counts a counter of another group than ports and engines. -/
theorem ctr_engineCycle_other (s : State) (sock k g u i : Nat) (hg : g < 2) (hu : u < 32768) (hi : i < 256) :
    (s.engineCycle sock).ctr k g u i = s.ctr k g u i := by
  have hport : ∀ p ∈ (if s.flights.isEmpty then [] else s.heldPorts sock), ¬ decide (ctrKey k g u i = ctrKey (p / 512) 4 (p % 512) 4) = true := by
    intro p _
    rw [decide_eq_true_iff, ctrKey_inj (by omega) hu hi (by omega) (by omega) (by omega)]; omega
  have heng : ∀ e ∈ s.slowEngines sock, ¬ decide (ctrKey k g u i = ctrKey (e / 256) 2 (e % 256) 6) = true := by
    intro e _
    rw [decide_eq_true_iff, ctrKey_inj (by omega) hu hi (by omega) (by omega) (by omega)]; omega
  rw [ctr_engineCycle, List.countP_eq_zero.2 hport, List.countP_eq_zero.2 heng]
  simp

theorem throttle_engineCycle {s : State} (sock : Nat) (h : (s.engines.map (·.1)).Nodup) {e : Nat} (he : e ∈ s.engines.map (·.1)) :
    (s.engineCycle sock).ctr (e / 256) 2 (e % 256) 6 =
      s.ctr (e / 256) 2 (e % 256) 6 + if e / 256 = sock ∧ s.throttled e = true then 1 else 0 := by
  have hport : ∀ p ∈ (if s.flights.isEmpty then [] else s.heldPorts sock),
      ¬ decide (ctrKey (e / 256) 2 (e % 256) 6 = ctrKey (p / 512) 4 (p % 512) 4) = true := by
    intro p _
    rw [decide_eq_true_iff, ctrKey_inj (by omega) (by omega) (by omega) (by omega) (by omega) (by omega)]; omega
  have heng := countP_eq_ite (slowEngines_nodup sock h)
    (fun a => decide (ctrKey (e / 256) 2 (e % 256) 6 = ctrKey (a / 256) 2 (a % 256) 6)) e (fun a _ => by
      rw [decide_eq_true_iff, ctrKey_inj (by omega) (by omega) (by omega) (by omega) (by omega) (by omega)]; omega)
  rw [ctr_engineCycle, List.countP_eq_zero.2 hport, heng, BitVec.ofNat_eq_ofNat, BitVec.add_zero]
  simp only [mem_slowEngines he]
  split <;> rfl

theorem held_engineCycle (s : State) (sock : Nat) {p : Nat} (hp : p < 512) : (s.engineCycle sock).ctr sock 4 p 4 = s.ctr sock 4 p 4 +
    if s.flights.any (fun f => f.port == 512 * sock + p && !f.classA && (match f.place with | .waiting _ => true | _ => false)) then 1 else 0 := by
  have heng : ∀ e ∈ s.slowEngines sock, ¬ decide (ctrKey sock 4 p 4 = ctrKey (e / 256) 2 (e % 256) 6) = true := by
    intro e _
    rw [decide_eq_true_iff, ctrKey_inj (by omega) (by omega) (by omega) (by omega) (by omega) (by omega)]; omega
  have hport := countP_eq_ite (heldPorts_nodup s sock)
    (fun a => decide (ctrKey sock 4 p 4 = ctrKey (a / 512) 4 (a % 512) 4)) (512 * sock + p) (fun a ha => by
      have := heldPorts_sock ha
      rw [decide_eq_true_iff, ctrKey_inj (by omega) (by omega) (by omega) (by omega) (by omega) (by omega)]; omega)
  rw [ctr_engineCycle, List.countP_eq_zero.2 heng, hport, BitVec.ofNat_eq_ofNat, BitVec.add_zero]
  simp only [mem_heldPorts s sock p hp]
  split <;> rfl

/-! ### Dispatch cycles -/

theorem dispatcher_some {s : State} {core c : Nat} (h : s.dispatcher core = some c) :
    ∃ j < 8, c = 8 * core + ((s.core core).cycle + j) % 8 ∧ s.ready c = true ∧
      ∀ k < j, s.ready (8 * core + ((s.core core).cycle + k) % 8) = false := by
  unfold State.dispatcher rotation at h
  rw [List.find?_map, Option.map_eq_some_iff] at h
  obtain ⟨j, hj, rfl⟩ := h
  rw [List.find?_range_eq_some] at hj
  obtain ⟨hready, hlt, hbefore⟩ := hj
  refine ⟨j, List.mem_range.1 hlt, by rw [Nat.mod_add_mod], hready, fun k hk => ?_⟩
  have := hbefore k hk
  rw [Function.comp_apply, Nat.mod_add_mod] at this
  simpa using this

theorem dispatcher_none {s : State} {core : Nat} (h : s.dispatcher core = none) (j : Nat) (hj : j < 8) :
    s.ready (8 * core + j) = false := by
  have hmem : 8 * core + j ∈ rotation core ((s.core core).cycle % 8) := by
    refine List.mem_map.2 ⟨(j + 8 - (s.core core).cycle % 8) % 8, List.mem_range.2 (by omega), ?_⟩
    show 8 * core + ((s.core core).cycle % 8 + (j + 8 - (s.core core).cycle % 8) % 8) % 8 = 8 * core + j
    omega
  simpa using List.find?_eq_none.1 h _ hmem

/-- What the accounts of a slot change: counters and the context in turn. -/
theorem chargeSlot_eq (s : State) (core : Nat) : s.chargeSlot core =
    { s with ctrs := (s.chargeSlot core).ctrs, cur := (s.dispatcher core).getD s.cur } := by
  unfold State.chargeSlot
  dsimp only
  cases s.dispatcher core with
  | none => rfl
  | some c => dsimp only; split <;> rfl

/-- A context that dispatches in another's slot counts RECEIVED; the accounts before it go elsewhere. -/
theorem received_chargeSlot {s : State} {core c : Nat} (h : s.dispatcher core = some c) (hc : c ≠ s.owner core) :
    (s.chargeSlot core).ctr (c / 4096) 0 (c % 4096) 7 = s.ctr (c / 4096) 0 (c % 4096) 7 + 1 := by
  obtain ⟨j, -, hcj, -, -⟩ := dispatcher_some h
  have hunit : c % 4096 ≠ s.owner core % 4096 := by unfold State.owner at hc ⊢; omega
  have hclass : s.slotClass (s.owner core) (s.dispatcher core == some (s.owner core)) < 256 := by
    unfold State.slotClass
    dsimp only
    repeat' split
    all_goals decide
  have hready : ((rotation core 0).filter s.ready).length < 256 :=
    lt_of_le_of_lt (List.length_filter_le ..) (by simp [rotation])
  unfold State.chargeSlot
  dsimp only
  rw [h]
  dsimp only
  rw [if_neg hc]
  show (State.countCtx _ c 7).ctr _ _ _ _ = _
  rw [h] at hclass
  have hcore : ctrKey (c / 4096) 0 (c % 4096) 7 ≠ ctrKey (core / 512) 1 (core % 512) ((rotation core 0).filter s.ready).length := by
    rw [Ne, ctrKey_inj (by decide) (by omega) (by decide) (by decide) (by omega) hready]; omega
  have hown : ctrKey (c / 4096) 0 (c % 4096) 7 ≠
      ctrKey (s.owner core / 4096) 0 (s.owner core % 4096) (s.slotClass (s.owner core) (some c == some (s.owner core))) := by
    rw [Ne, ctrKey_inj (by decide) (by omega) (by decide) (by decide) (by omega) hclass]; omega
  unfold State.countCtx State.countCore
  rw [ctr_addCtr, if_pos rfl, ctr_addCtr, if_neg hown, ctr_addCtr, if_neg hcore]
  rfl

/-- The quanta of a core count down in contexts alone. -/
theorem countDown_eq (s : State) (core : Nat) : s.countDown core = { s with ctxs := (s.countDown core).ctxs } := by
  refine foldl_keeps (p := fun t => t = { s with ctxs := t.ctxs }) (fun t j h => ?_) (List.range 7) rfl
  dsimp only
  split
  · rw [h]; rfl
  · exact h

theorem ctx_countDown (s : State) (core c : Nat) : (s.countDown core).ctx c =
    if c / 8 = core ∧ isX7 c = false ∧ (s.ctx c).life = .running then { s.ctx c with qleft := (s.ctx c).qleft - 1 } else s.ctx c := by
  have hstep : ∀ (t : State) (j : Nat), (if (t.ctx (8 * core + j)).life = .running then t.modCtx (8 * core + j) (·.spend 1) else t).ctx c =
      if c = 8 * core + j then (t.ctx c).spend 1 else t.ctx c := by
    intro t j
    split
    · rw [ctx_modCtx]; split
      · next e => rw [e]
      · rfl
    · next hlife =>
      split
      · next e => rw [e, Context.spend, if_neg hlife]
      · rfl
  have hfold : ∀ (l : List Nat) (t : State), l.Nodup →
      (l.foldl (fun t j => if (t.ctx (8 * core + j)).life = .running then t.modCtx (8 * core + j) (·.spend 1) else t) t).ctx c =
        if ∃ j ∈ l, c = 8 * core + j then (t.ctx c).spend 1 else t.ctx c := by
    intro l
    induction l with
    | nil => intro t _; simp
    | cons j l ih =>
      intro t hl
      rw [List.foldl_cons, ih _ (List.nodup_cons.1 hl).2, hstep]
      by_cases hj : c = 8 * core + j
      · have hno : ¬ ∃ k ∈ l, c = 8 * core + k := by
          rintro ⟨k, hk, e⟩
          have : k = j := by omega
          exact (List.nodup_cons.1 hl).1 (this ▸ hk)
        rw [if_neg hno, if_pos hj, if_pos ⟨j, List.mem_cons_self, hj⟩]
      · simp only [List.mem_cons, exists_eq_or_imp, hj, false_or, if_false]
  refine (hfold (List.range 7) s List.nodup_range).trans ?_
  have hiff : (∃ j ∈ List.range 7, c = 8 * core + j) ↔ c / 8 = core ∧ isX7 c = false := by
    simp only [List.mem_range, isX7, beq_eq_false_iff_ne]
    constructor
    · rintro ⟨j, hj, rfl⟩; omega
    · intro h; exact ⟨c % 8, by omega, by omega⟩
  simp only [hiff, Context.spend]
  by_cases h : c / 8 = core ∧ isX7 c = false
  · by_cases hr : (s.ctx c).life = .running <;> simp [h, hr]
  · rw [if_neg h, if_neg (fun e => h ⟨e.1, e.2.1⟩)]

/-- The clock and the engine cycles that a core's count brings: counters, the clock and the agenda. -/
theorem advance_eq (s : State) (n : Nat) : s.advance n =
    { s with ctrs := (s.advance n).ctrs, clock := max s.clock n, agenda := (s.advance n).agenda } := by
  unfold State.advance
  split
  · next h => rw [max_eq_left h]
  · next h =>
    dsimp only
    rw [max_eq_right (by omega : s.clock ≤ n)]
    split
    · rfl
    · have hc : Counted { s with clock := n } ((s.fuses.map (·.1)).foldl (fun t k => t.engineCycle k) { s with clock := n }) :=
        foldl_keeps (fun t k h => h.trans (counted_engineCycle t k)) _ (Counted.refl _)
      unfold Counted at hc
      rw [hc]

theorem ctr_advance (s : State) (n k g u i : Nat) (hg : g < 2) (hu : u < 32768) (hi : i < 256) :
    (s.advance n).ctr k g u i = s.ctr k g u i := by
  unfold State.advance
  split
  · rfl
  · dsimp only
    split
    · rfl
    · exact foldl_keeps (p := fun t : State => t.ctr k g u i = s.ctr k g u i)
        (fun t j h => (ctr_engineCycle_other t j k g u i hg hu hi).trans h) _ rfl

section
variable (s : State) (n core : Nat)

theorem cur_advance : (s.advance n).cur = s.cur := by rw [advance_eq]
theorem mem_advance : (s.advance n).mem = s.mem := by rw [advance_eq]
theorem ctxs_advance : (s.advance n).ctxs = s.ctxs := by rw [advance_eq]
theorem cores_advance : (s.advance n).cores = s.cores := by rw [advance_eq]
theorem clusters_advance : (s.advance n).clusters = s.clusters := by rw [advance_eq]
theorem clock_advance : (s.advance n).clock = max s.clock n := by rw [advance_eq]
theorem cur_countDown : (s.countDown core).cur = s.cur := by rw [countDown_eq]
theorem mem_countDown : (s.countDown core).mem = s.mem := by rw [countDown_eq]
theorem cores_countDown : (s.countDown core).cores = s.cores := by rw [countDown_eq]
theorem clusters_countDown : (s.countDown core).clusters = s.clusters := by rw [countDown_eq]
theorem clock_countDown : (s.countDown core).clock = s.clock := by rw [countDown_eq]
theorem ctrs_countDown : (s.countDown core).ctrs = s.ctrs := by rw [countDown_eq]
theorem mem_chargeSlot : (s.chargeSlot core).mem = s.mem := by rw [chargeSlot_eq]
theorem ctxs_chargeSlot : (s.chargeSlot core).ctxs = s.ctxs := by rw [chargeSlot_eq]
theorem cores_chargeSlot : (s.chargeSlot core).cores = s.cores := by rw [chargeSlot_eq]
theorem clusters_chargeSlot : (s.chargeSlot core).clusters = s.clusters := by rw [chargeSlot_eq]
theorem clock_chargeSlot : (s.chargeSlot core).clock = s.clock := by rw [chargeSlot_eq]
theorem cur_chargeSlot : (s.chargeSlot core).cur = (s.dispatcher core).getD s.cur := by rw [chargeSlot_eq]

theorem core_advance (k : Nat) : (s.advance n).core k = s.core k := by
  unfold State.core; rw [cores_advance]

theorem core_countDown_chargeSlot (k : Nat) : ((s.chargeSlot core).countDown core).core k = s.core k := by
  unfold State.core; rw [cores_countDown, cores_chargeSlot]

end

/-- Settles O11: the rotation's order, and the accounts, quanta and clock of a cycle one after the other. -/
theorem dispatchAndCycles : Obligations.DispatchAndCycles := by
  refine ⟨fun s core => ⟨fun c h => dispatcher_some h, fun h => dispatcher_none h⟩, fun s core sock => ⟨?_, fun hnodup => ?_⟩⟩
  · refine ⟨s.dispatchCycle core, rfl, ?_⟩
    unfold State.dispatchCycle
    dsimp only
    refine ⟨?_, ?_, ?_, ?_, ?_, fun c => ?_, fun c h hc => ?_⟩
    · rw [core_advance, core_modCore_same, core_countDown_chargeSlot]
    · rw [clock_advance, clock_modCore, clock_countDown, clock_chargeSlot, core_countDown_chargeSlot]
    · rw [cur_advance, cur_modCore, cur_countDown, cur_chargeSlot]
    · rw [mem_advance, mem_modCore, mem_countDown, mem_chargeSlot]
    · rw [clusters_advance, clusters_modCore, clusters_countDown, clusters_chargeSlot]
    · have hctx : (s.chargeSlot core).ctx c = s.ctx c := by unfold State.ctx; rw [ctxs_chargeSlot]
      rw [← hctx, ← ctx_countDown (s.chargeSlot core) core c]
      unfold State.ctx
      rw [ctxs_advance, ctxs_modCore]
    · refine (ctr_advance _ _ _ _ _ _ (by decide) (by omega) (by decide)).trans ?_
      rw [← received_chargeSlot h hc]
      unfold State.ctr
      rw [ctrs_modCore, ctrs_countDown]
  · refine ⟨s.engineCycle sock, rfl, counted_engineCycle s sock, fun e he => throttle_engineCycle sock hnodup he, fun p hp => held_engineCycle s sock hp⟩

end Sys2Proof.Machine
end

section
/-! A step that reaches an instruction (R24, R66, R67, R91, R183), and the fetch of an owned word (R104, R107). -/

namespace Sys2Proof.Machine

theorem pick_one (s : State) {n : Nat} (h : n ≤ 1) : s.pick n = (0, s) := if_pos h

/-- Where nothing else is due and one core is ready, an act is a turn of that core (R24). -/
theorem act_of_one_ready {s : State} {core : Nat} (ha : s.agenda = []) (hd : s.due = []) (hr : s.readyCores = [core]) : act s = turn s := by
  have hc : s.choices ≤ 1 := by simp [State.choices, hd, hr]
  unfold act
  rw [ha]
  dsimp only
  rw [pick_one s hc, hd]
  rfl

theorem turn_of_one_ready {s : State} {core : Nat} (hr : s.readyCores = [core]) :
    turn s = runNext ((s.settle core).dispatchCycle core).nextInstr := by
  have hb : s.beginTurn = (s.settle core).dispatchCycle core := by
    unfold State.beginTurn
    rw [hr, pick_one s (by simp)]
    dsimp only
    rw [hr, List.getD_cons_zero]
  unfold turn
  rw [hb, hr]
  exact if_neg (by simp)

theorem step_of_one_ready {s : State} {core : Nat} (hdown : s.down = false) (ha : s.agenda = []) (hd : s.due = [])
    (hr : s.readyCores = [core]) : step s = accountFor s (runNext ((s.settle core).dispatchCycle core).nextInstr) := by
  rw [step, if_neg (by rw [hdown]; decide), act_of_one_ready ha hd hr, turn_of_one_ready hr]

theorem nextInstr_fetched {u t : State} (hrom : u.atRom = false) (h : fetchWords u = .ok () t) : u.nextInstr = t.decoded := by
  unfold State.nextInstr
  rw [hrom, h]
  rfl

theorem decoded_ok {t : State} {i : Instr} (h : decodeCpu t.ir0.toNat t.ir1.toNat = .ok i) : t.decoded = .ok (i, t) := by
  unfold State.decoded; rw [h]

theorem decoded_error {t : State} {r : Reject} (h : decodeCpu t.ir0.toNat t.ir1.toNat = .error r) :
    t.decoded = .error (t.takeTrap t.cur (illegalOf t.pc t.ir0) t.ir0 t.ir1) := by
  unfold State.decoded; rw [h]

/-- The four bytes of a word that an address names, as an instruction word. -/
theorem subWord_setWidth (v : Word) (pa : Nat) :
    (BitVec.ofNat 64 (subWord v (pa % 8) 4)).setWidth 32 = v.extractLsb' (8 * (pa % 8)) 32 := by
  rw [subWord_eq v (pa % 8) 4]
  apply BitVec.eq_of_toNat_eq
  have := (v.extractLsb' (8 * (pa % 8)) (8 * 4)).isLt
  rw [BitVec.toNat_setWidth, BitVec.toNat_ofNat, Nat.mod_mod_of_dvd _ (by decide)]
  exact Nat.mod_eq_of_lt this

theorem liftAt_ok {α : Type} {m : Mem α} {a : α} {s t : State} (h : m s = .ok a t) (va wva : Word) (d : BitVec 20) (w : Word) :
    liftAt va wva d w m s = .ok a t := by
  simp [liftAt, h]

/-- A fetch from an owned word answers its bytes and changes nothing (R104, R107). -/
theorem fetchWord_owned {s : State} {va : Word} {pa : Nat} {v : Word} (hm : Maps s va .fetch none pa) (hd : isDevice pa = false)
    (ho : Owned s pa v) : fetchWord va s = .ok (v.extractLsb' (8 * (pa % 8)) 32) s := by
  have hread := liftAt_ok (readBytes_owned ho s.agent rfl .own 4 none) va va (detailOf 3 0 false false false 0 0) 0
  unfold fetchWord
  rw [bind_ok (xlate_maps hm), bind_ok (devCheck_ok hd _ _), bind_ok (m := (get : Act State)) (a := s) (t := s) rfl]
  simp only [hd, Bool.false_eq_true, if_false]
  rw [bind_ok hread, ← subWord_setWidth]
  rfl

/-- Settles O15: the turn step by step, and the fetch by its one read. -/
theorem stepRunsTheDecodedInstruction : Obligations.StepRunsTheDecodedInstruction := by
  constructor
  · intro s core hdown ha hd hr
    dsimp only
    intro hrom t ht
    have hstep := step_of_one_ready hdown ha hd hr
    rw [nextInstr_fetched hrom ht] at hstep
    refine ⟨fun i hi => ?_, fun i hi => ?_, fun r hr => ?_⟩
    · rw [hstep, decoded_ok hi]; rfl
    · rw [speculate, hi]; rfl
    · rw [hstep, decoded_error hr]; rfl
  · intro s pa v hm hd ho hlong
    have hfetch : fetchWord ({ s with ir0 := 0, ir1 := 0 } : State).pc { s with ir0 := 0, ir1 := 0 } = .ok (v.extractLsb' (8 * (pa % 8)) 32) { s with ir0 := 0, ir1 := 0 } :=
      fetchWord_owned (s := { s with ir0 := 0, ir1 := 0 }) hm hd ho
    unfold fetchWords
    rw [bind_ok (m := modify _) (a := ()) (t := { s with ir0 := 0, ir1 := 0 }) rfl,
      bind_ok (m := (get : Act State)) (a := { s with ir0 := 0, ir1 := 0 }) (t := { s with ir0 := 0, ir1 := 0 }) rfl,
      bind_ok hfetch, bind_ok (m := modify _) (a := ()) (t := { s with ir0 := v.extractLsb' (8 * (pa % 8)) 32, ir1 := 0 }) rfl]
    simp only [hlong, Bool.false_eq_true, if_false]
    rfl

end Sys2Proof.Machine
end

section
/-! PROOFS. The vector functions, lane by lane (R201-R210): what each lane function on numbers makes of bit vectors, and O27. -/

namespace Sys2Proof.Machine

theorem LanesAre.congr {n : Nat} {p : Word} {z : Bool} {old new : Vec} {f g : Nat → BitVec n} (h : LanesAre n p z old new f)
    (e : ∀ i, f i = g i) : LanesAre n p z old new g := funext e ▸ h

/-- A lane function of two registers, given its equation on bit vectors. -/
theorem vecAlu_of_eq {mk : Reg → Reg → Reg → BitVec 2 → BitVec 3 → Bool → Instr} (f : Nat → Nat → Nat → Nat)
    {F : (n : Nat) → BitVec n → BitVec n → BitVec n → BitVec n}
    (e : ∀ d a b w g z s, exec (mk d a b w g z) s = vecInt (ofTwo f) d a b w g z s)
    (h : ∀ n (x y o : BitVec n), BitVec.ofNat n (f n x.toNat y.toNat) = F n x y o) : VecAlu mk F := by
  intro d a b w g z s c
  obtain ⟨new, hn, hl⟩ := vecInt_lanes c (ofTwo f) d a b w g z
  exact ⟨new, (e ..).trans hn, hl.congr fun i => h _ _ _ _⟩

/-- The same of one register, and of the destination's old lane. -/
theorem vecAlu1_of_eq {mk : Reg → Reg → BitVec 2 → BitVec 3 → Bool → Instr} (f : Nat → Nat → Nat → Nat → Nat)
    {F : (n : Nat) → BitVec n → BitVec n → BitVec n}
    (e : ∀ d a w g z s, exec (mk d a w g z) s = vecInt f d a a w g z s)
    (h : ∀ n (x o : BitVec n), BitVec.ofNat n (f n x.toNat x.toNat o.toNat) = F n x o) : VecAlu1 mk F := by
  intro d a w g z s c
  obtain ⟨new, hn, hl⟩ := vecInt_lanes c f d a a w g z
  exact ⟨new, (e ..).trans hn, hl.congr fun i => h _ _ _⟩

/-- A comparison of lanes, given its equation on bit vectors. -/
theorem vecCmp_of_eq {mk : BitVec 3 → Reg → Reg → BitVec 2 → BitVec 3 → Bool → Instr} (f : Nat → Nat → Nat → Bool)
    {F : (n : Nat) → BitVec n → BitVec n → Bool}
    (e : ∀ d a b w g z s, exec (mk d a b w g z) s = vecCmp f d a b w g z s)
    (h : ∀ n (x y : BitVec n), f n x.toNat y.toNat = F n x y) : VecCmp mk F := by
  intro d a b w g z s c
  obtain ⟨new, hn, hl⟩ := vecCmp_lanes c f d a b w g z
  refine ⟨new, (e ..).trans hn, fun j hj => ?_⟩
  rw [hl j hj, h]

section
variable (n : Nat) (x y : BitVec n)

theorem fAdds_eq : BitVec.ofNat n (fAdds n x.toNat y.toNat) =
    BitVec.ofInt n (max (-(2 ^ (n - 1))) (min (2 ^ (n - 1) - 1) (x.toInt + y.toInt))) := by
  rw [fAdds, clampS, ofNat_wrap, signed_toNat, signed_toNat]

theorem fSubs_eq : BitVec.ofNat n (fSubs n x.toNat y.toNat) =
    BitVec.ofInt n (max (-(2 ^ (n - 1))) (min (2 ^ (n - 1) - 1) (x.toInt - y.toInt))) := by
  rw [fSubs, clampS, ofNat_wrap, signed_toNat, signed_toNat]

theorem ofNat_clampU (v : Int) (m : Nat) (h : max 0 (min (2 ^ n - 1) v) = m) : BitVec.ofNat n (clampU n v) = BitVec.ofNat n m := by
  rw [clampU, ofNat_wrap, h, BitVec.ofInt_natCast]

theorem fAddsn_eq : BitVec.ofNat n (fAddsn n x.toNat y.toNat) = BitVec.ofNat n (min (2 ^ n - 1) (x.toNat + y.toNat)) := by
  apply ofNat_clampU
  have hp : 0 < 2 ^ n := Nat.two_pow_pos n
  push_cast [Nat.cast_sub (show 1 ≤ 2 ^ n from hp)]
  have : (0 : Int) < 2 ^ n := by positivity
  omega

theorem fSubsn_eq : BitVec.ofNat n (fSubsn n x.toNat y.toNat) = BitVec.ofNat n (x.toNat - y.toNat) := by
  apply ofNat_clampU
  have hx : (x.toNat : Int) < 2 ^ n := by exact_mod_cast x.isLt
  omega

theorem fAbs_eq : fAbs n x.toNat = x.toInt.natAbs := by rw [fAbs, signed_toNat]

theorem decide_toNat_eq : (x.toNat == y.toNat) = (x == y) := by
  rw [Bool.eq_iff_iff, beq_iff_eq, beq_iff_eq, BitVec.toNat_inj]

end

theorem vsel_lanes {s : State} (c : Clear s) (d a b : Reg) (e : BitVec 2) (g : BitVec 3) :
    ∃ new, exec (.vsel d a b e g) s = .next (s.wroteV d new) ∧ ∀ i < 64 / 2 ^ e.toNat, laneAt (8 * 2 ^ e.toNat) new i =
      laneAt _ (if (s.readP g).getLsbD (2 ^ e.toNat * i) then s.readV a else s.readV b) i := by
  refine ⟨_, commit_clear c _ 4, fun i hi => ?_⟩
  have hw := isWidth_laneBytes e
  have hl := fillLanes_are hw (s.readP g) false (s.readV b) (fun i => (lane (laneBytes e) (s.readV a) i, 0)) i
    (by rw [(width_div hw).1]; exact hi)
  rw [(width_div hw).2] at hl
  refine hl.trans ?_
  simp only [laneBytes, lane_eq, BitVec.ofNat_toNat, BitVec.setWidth_eq]
  cases (s.readP g).getLsbD (2 ^ e.toNat * i) <;> rfl

/-- Settles O27: each lane function by its equation on bit vectors. -/
theorem vectorIntegerLanes : Obligations.VectorIntegerLanes := by
  unfold Obligations.VectorIntegerLanes
  refine ⟨⟨?_, ?_, ?_, ?_, ?_, ?_, ?_, ?_, ?_, ?_, ?_, ?_, ?_, ?_, ?_, ?_, ?_, ?_, ?_, ?_, ?_, ?_, ?_, ?_, ?_, ?_, ?_⟩,
    ?_, ?_, ?_, ?_, ?_, ?_, ?_, ?_, ?_, ?_, ?_⟩
  · exact vecAlu_of_eq fAdd (fun _ _ _ _ _ _ _ => rfl) fun n x y _ => fAdd_eq n x y
  · exact vecAlu_of_eq fSub (fun _ _ _ _ _ _ _ => rfl) fun n x y _ => fSub_eq n x y
  · exact vecAlu_of_eq fMul (fun _ _ _ _ _ _ _ => rfl) fun n x y _ => fMul_eq n x y
  · exact vecAlu_of_eq fMulh (fun _ _ _ _ _ _ _ => rfl) fun n x y _ => fMulh_eq n x y
  · exact vecAlu_of_eq fMulhn (fun _ _ _ _ _ _ _ => rfl) fun n x y _ => fMulhn_eq n x y
  · exact vecAlu_of_eq fMin (fun _ _ _ _ _ _ _ => rfl) fun n x y _ => fMin_yields_lesser x y
  · exact vecAlu_of_eq fMinn (fun _ _ _ _ _ _ _ => rfl) fun n x y _ => fMinn_yields_lesser x y
  · exact vecAlu_of_eq fMax (fun _ _ _ _ _ _ _ => rfl) fun n x y _ => fMax_yields_greater x y
  · exact vecAlu_of_eq fMaxn (fun _ _ _ _ _ _ _ => rfl) fun n x y _ => fMaxn_yields_greater x y
  · exact vecAlu_of_eq fAnd (fun _ _ _ _ _ _ _ => rfl) fun n x y _ => fAnd_eq n x y
  · exact vecAlu_of_eq fOr (fun _ _ _ _ _ _ _ => rfl) fun n x y _ => fOr_eq n x y
  · exact vecAlu_of_eq fXor (fun _ _ _ _ _ _ _ => rfl) fun n x y _ => fXor_eq n x y
  · exact vecAlu_of_eq fAndn (fun _ _ _ _ _ _ _ => rfl) fun n x y _ => fAndn_eq n x y
  · exact vecAlu_of_eq fSll (fun _ _ _ _ _ _ _ => rfl) fun n x y _ => fSll_eq n x y.toNat
  · exact vecAlu_of_eq fSrl (fun _ _ _ _ _ _ _ => rfl) fun n x y _ => fSrl_eq n x y.toNat
  · exact vecAlu_of_eq fSra (fun _ _ _ _ _ _ _ => rfl) fun n x y _ => fSra_eq n x y.toNat
  · exact vecAlu_of_eq fAdds (fun _ _ _ _ _ _ _ => rfl) fun n x y _ => fAdds_eq n x y
  · exact vecAlu_of_eq fAddsn (fun _ _ _ _ _ _ _ => rfl) fun n x y _ => fAddsn_eq n x y
  · exact vecAlu_of_eq fSubs (fun _ _ _ _ _ _ _ => rfl) fun n x y _ => fSubs_eq n x y
  · exact vecAlu_of_eq fSubsn (fun _ _ _ _ _ _ _ => rfl) fun n x y _ => fSubsn_eq n x y
  · exact vecAlu1_of_eq (ofOne fPopc) (fun _ _ _ _ _ _ => rfl) fun n x _ => congrArg _ (fPopc_eq n x)
  · exact vecAlu1_of_eq (ofOne fClz) (fun _ _ _ _ _ _ => rfl) fun n x _ => congrArg _ (fClz_eq n x)
  · exact vecAlu1_of_eq (ofOne fCtz) (fun _ _ _ _ _ _ => rfl) fun n x _ => congrArg _ (fCtz_eq n x)
  · exact vecAlu1_of_eq (ofOne fBrev) (fun _ _ _ _ _ _ => rfl) fun n x _ => fBrev_eq n x
  · exact vecAlu1_of_eq (ofOne fAbs) (fun _ _ _ _ _ _ => rfl) fun n x _ => congrArg _ (fAbs_eq n x)
  · exact vecAlu1_of_eq (fun n x _ o => fnthOf n 0 x o) (fun _ _ _ _ _ _ => rfl) fun n x o => congrArg _ (fnth_eq n x o.toNat)
  · exact fun d a b e g s c => vsel_lanes c d a b e g
  · exact vecCmp_of_eq (fun _ x y => x == y) (fun _ _ _ _ _ _ _ => rfl) fun n x y => decide_toNat_eq n x y
  · exact vecCmp_of_eq (fun _ x y => x != y) (fun _ _ _ _ _ _ _ => rfl) fun n x y => congrArg (!·) (decide_toNat_eq n x y)
  · exact vecCmp_of_eq (fun n x y => decide (signed n x < signed n y)) (fun _ _ _ _ _ _ _ => rfl) fun n x y => by simp only [signed_toNat]
  · exact vecCmp_of_eq (fun n x y => decide (signed n y ≤ signed n x)) (fun _ _ _ _ _ _ _ => rfl) fun n x y => by simp only [signed_toNat]
  · exact vecCmp_of_eq (fun _ x y => decide (x < y)) (fun _ _ _ _ _ _ _ => rfl) fun _ _ _ => rfl
  · exact vecCmp_of_eq (fun _ x y => decide (y ≤ x)) (fun _ _ _ _ _ _ _ => rfl) fun _ _ _ => rfl
  · exact vecFcmp_lanes (F := fun c => c == some 0) (fun _ _ _ _ _ _ _ => rfl) fun p q => by cases p.unordered q <;> rfl
  · exact vecFcmp_lanes (F := fun c => c != some 0) (fun _ _ _ _ _ _ _ => rfl) fun p q => by cases p.unordered q <;> rfl
  · exact vecFcmp_lanes (F := fun c => c == some (-1)) (fun _ _ _ _ _ _ _ => rfl) fun p q => by cases p.unordered q <;> rfl
  · exact vecFcmp_lanes (F := fun c => c == some (-1) || c == some 0) (fun _ _ _ _ _ _ _ => rfl) fun p q => by cases p.unordered q <;> rfl
  · exact vecFcmp_lanes (F := fun c => c == none) (fun _ _ _ _ _ _ _ => rfl) fun p q => by cases p.unordered q <;> rfl

end Sys2Proof.Machine
end

section
/-! PROOFS. Floating-point lanes (O28), roundings and special values (O29). -/

namespace Sys2Proof.Machine

/-- A floating-point function of two registers, given its equation on the codes of lanes. -/
theorem vecFloat_of_code {mk : Reg → Reg → Reg → BitVec 2 → BitVec 3 → Bool → Instr} (F : Fmt → Mode → Nat → Nat → Nat → Nat × BitVec 5)
    {G : Fmt → Mode → Nat → Nat → Nat → Nat × BitVec 5} (e : ∀ d a b w g z s, exec (mk d a b w g z) s = vecCode F d a b w g z s)
    (h : ∀ t m x o (w : BitVec 2) (y : BitVec (8 * floatBytes w)), t = floatFmt w → F t m x y.toNat o = G t m x y.toNat o) :
    VecFloat mk G := by
  intro d a b w g z s c
  obtain ⟨new, fl, hn, hl, hf⟩ := vecCode_lanes c F d a b w g z
  simp only [fun m x o y => h (floatFmt w) m x o w y rfl] at hl hf
  exact ⟨new, fl, (e ..).trans hn, hl, hf⟩

/-- The same of one register: its code is given for both operands, and the second is not looked at. -/
theorem vecFloat_of_code1 {mk : Reg → Reg → BitVec 2 → BitVec 3 → Bool → Instr} (F : Fmt → Mode → Nat → Nat × BitVec 5)
    (e : ∀ d a w g z s, exec (mk d a w g z) s = vecCode (fun t m x _ _ => F t m x) d a a w g z s) :
    VecFloat (fun d a _ w g z => mk d a w g z) (fun t m x _ _ => F t m x) := by
  intro d a b w g z s c
  obtain ⟨new, fl, hn, hl, hf⟩ := vecCode_lanes c (fun t m x _ _ => F t m x) d a a w g z
  exact ⟨new, fl, (e ..).trans hn, hl, hf⟩

/-- A function of the values of two registers and of the destination, rounded once. -/
theorem vecFloat_of_value {mk : Reg → Reg → Reg → BitVec 2 → BitVec 3 → Bool → Instr} (f : Mode → Fpv → Fpv → Fpv → Res)
    (e : ∀ d a b w g z s, exec (mk d a b w g z) s = vecFloat f d a b w g z s) :
    VecFloat mk (fun t m x y o => t.round m (f m (t.decode x) (t.decode y) (t.decode o))) :=
  vecFloat_of_code _ e fun _ _ _ _ _ _ _ => rfl

/-- The same of one register. -/
theorem vecFloat_of_value1 {mk : Reg → Reg → BitVec 2 → BitVec 3 → Bool → Instr} (f : Fpv → Res)
    (e : ∀ d a w g z s, exec (mk d a w g z) s = vecFloat (fun _ x _ _ => f x) d a a w g z s) :
    VecFloat (fun d a _ w g z => mk d a w g z) (fun t m x _ _ => t.round m (f (t.decode x))) :=
  vecFloat_of_code1 (fun t m x => t.round m (f (t.decode x))) e

theorem floatFmt_bits (w : BitVec 2) : (floatFmt w).bits = 8 * floatBytes w := by
  revert w; decide

/-- Settles O28: each function of values or codes by the lane loop; `fscale` reads y as a signed number, and mode 4 of
`fround` is 4 as a register number. -/
theorem floatingPointLanes : Obligations.FloatingPointLanes := by
  unfold Obligations.FloatingPointLanes
  refine ⟨?_, ?_, ?_, ?_, ?_, ?_, ?_, ?_, ?_, ?_, ?_, ?_, ?_, ?_, ?_, ?_, ?_, fun md => ?_⟩
  · exact vecFloat_of_value (fun m x y _ => addV m x y) fun _ _ _ _ _ _ _ => rfl
  · exact vecFloat_of_value (fun m x y _ => addV m x y.negate) fun _ _ _ _ _ _ _ => rfl
  · exact vecFloat_of_value (fun _ x y _ => mulV x y) fun _ _ _ _ _ _ _ => rfl
  · exact vecFloat_of_value (fun _ x y _ => divV x y) fun _ _ _ _ _ _ _ => rfl
  · exact vecFloat_of_value fmaV fun _ _ _ _ _ _ _ => rfl
  · exact vecFloat_of_value (fun m x y o => fmaV m x y o.negate) fun _ _ _ _ _ _ _ => rfl
  · exact vecFloat_of_value (fun m x y o => fmaV m x.negate y o) fun _ _ _ _ _ _ _ => rfl
  · exact vecFloat_of_value (fun _ x y _ => minV x y) fun _ _ _ _ _ _ _ => rfl
  · exact vecFloat_of_value (fun _ x y _ => maxV x y) fun _ _ _ _ _ _ _ => rfl
  · exact vecFloat_of_value1 sqrtV fun _ _ _ _ _ _ => rfl
  · exact vecFloat_of_value1 rcpV fun _ _ _ _ _ _ => rfl
  · exact vecFloat_of_value1 rsqrtV fun _ _ _ _ _ _ => rfl
  · exact vecFloat_of_value1 exp2V fun _ _ _ _ _ _ => rfl
  · exact vecFloat_of_value1 log2V fun _ _ _ _ _ _ => rfl
  · exact vecFloat_of_code1 (fun t _ x => (x % 2 ^ (t.bits - 1), 0)) fun _ _ _ _ _ _ => rfl
  · exact vecFloat_of_code1 (fun t _ x => (x ^^^ 2 ^ (t.bits - 1), 0)) fun _ _ _ _ _ _ => rfl
  · refine vecFloat_of_code (fun t m x y _ => t.round m (scaleV (t.decode x) (if 2 * y < 2 ^ t.bits then (y : Int) else (y : Int) - 2 ^ t.bits)))
      (fun _ _ _ _ _ _ _ => rfl) fun t m x o w y ht => ?_
    have hy : (BitVec.ofNat t.bits y.toNat).toInt = if 2 * y.toNat < 2 ^ t.bits then (y.toNat : Int) else y.toNat - 2 ^ t.bits := by
      subst ht
      have hlt : y.toNat < 2 ^ (floatFmt w).bits := y.isLt.trans_eq (congrArg (2 ^ ·) (floatFmt_bits w).symm)
      rw [← signed_toNat, BitVec.toNat_ofNat, Nat.mod_eq_of_lt hlt, signed]
    rw [hy]
  · have hm : (md.toNat = 4) = (md = 4) := by rw [← BitVec.toNat_inj]; rfl
    have := vecFloat_of_code1 (mk := fun d a w g z => .fround d a md w g z) (fun t m x =>
      t.round (if md.toNat = 4 then m else modeOf md.toNat) (integralV (if md.toNat = 4 then m else modeOf md.toNat) (t.decode x)))
      fun _ _ _ _ _ _ => rfl
    simpa only [hm] using this

/-- Whether a magnitude with quotient n and rest r by P is rounded up (R43). -/
def roundsUp (mode : Mode) (neg : Bool) (P n r : Nat) : Bool :=
  match mode with
  | .rne => decide (P < 2 * r) || (decide (2 * r = P) && decide (n % 2 = 1))
  | .rtz => false
  | .rup => decide (r ≠ 0) && !neg
  | .rdn => decide (r ≠ 0) && neg

/-- Rounding to a multiple of `2 ^ k` in terms of the quotient and the rest of the division by it. -/
theorem roundQ_zero (mode : Mode) (neg : Bool) (m k : Nat) : roundQ mode neg m 0 k =
    (if roundsUp mode neg (2 ^ k) (m / 2 ^ k) (m % 2 ^ k) then m / 2 ^ k + 1 else m / 2 ^ k, decide (m % 2 ^ k ≠ 0)) := by
  unfold roundQ
  split
  · next h =>
    obtain rfl : k = 0 := by omega
    cases mode <;> simp [roundsUp, Nat.mod_one]
  · rw [Int.sub_zero, Int.toNat_natCast]
    cases mode <;> rfl

section
variable {P : Nat} (m : Nat)

theorem below_div (h : 0 < P) : m / P * P ≤ m ∧ m < (m / P + 1) * P :=
  ⟨Nat.div_mul_le_self m P, by rw [Nat.mul_comm]; exact Nat.lt_mul_div_succ m h⟩

theorem above_div (h : 0 < P) : let n := if m % P ≠ 0 then m / P + 1 else m / P
    m ≤ n * P ∧ n * P < m + P := by
  have hm := Nat.div_add_mod' m P
  have hr := Nat.mod_lt m h
  dsimp only
  split <;> [rw [Nat.succ_mul]; skip] <;> omega

/-- The nearer of the two, and the even one of two that are as near. -/
theorem nearest_div (h : 0 < P) :
    let n := if P < 2 * (m % P) ∨ 2 * (m % P) = P ∧ m / P % 2 = 1 then m / P + 1 else m / P
    2 * m ≤ (2 * n + 1) * P ∧ 2 * n * P ≤ 2 * m + P ∧ ((2 * m = (2 * n + 1) * P ∨ 2 * n * P = 2 * m + P) → n % 2 = 0) := by
  have hm := Nat.div_add_mod' m P
  have hr := Nat.mod_lt m h
  intro n
  have e1 : (2 * n + 1) * P = 2 * (n * P) + P := by ring
  have e2 : 2 * n * P = 2 * (n * P) := by ring
  rw [e1, e2]
  by_cases c : P < 2 * (m % P) ∨ 2 * (m % P) = P ∧ m / P % 2 = 1
  · have hn : n = m / P + 1 := if_pos c
    have : n * P = m / P * P + P := by rw [hn, Nat.succ_mul]
    omega
  · have hn : n = m / P := if_neg c
    rw [hn]
    omega

end

/-- The four roundings of a magnitude to a multiple of `2 ^ k` (R43). -/
theorem roundQ_modes (neg : Bool) (m k : Nat) :
    (let r := roundQ .rtz neg m 0 k; r.1 * 2 ^ k ≤ m ∧ m < (r.1 + 1) * 2 ^ k) ∧
    (let r := roundQ .rup neg m 0 k; if neg then r.1 * 2 ^ k ≤ m ∧ m < (r.1 + 1) * 2 ^ k else m ≤ r.1 * 2 ^ k ∧ r.1 * 2 ^ k < m + 2 ^ k) ∧
    (let r := roundQ .rdn neg m 0 k; if neg then m ≤ r.1 * 2 ^ k ∧ r.1 * 2 ^ k < m + 2 ^ k else r.1 * 2 ^ k ≤ m ∧ m < (r.1 + 1) * 2 ^ k) ∧
    (let r := roundQ .rne neg m 0 k; 2 * m ≤ (2 * r.1 + 1) * 2 ^ k ∧ 2 * r.1 * 2 ^ k ≤ 2 * m + 2 ^ k ∧
      ((2 * m = (2 * r.1 + 1) * 2 ^ k ∨ 2 * r.1 * 2 ^ k = 2 * m + 2 ^ k) → r.1 % 2 = 0)) := by
  have hp : 0 < 2 ^ k := Nat.two_pow_pos k
  have hb := below_div m hp
  have ha := above_div m hp
  have hn := nearest_div m hp
  refine ⟨?_, ?_, ?_, ?_⟩
  · simpa only [roundQ_zero, roundsUp, Bool.false_eq_true, if_false] using hb
  · cases neg
    · simpa only [roundQ_zero, roundsUp, Bool.not_false, Bool.and_true, decide_eq_true_eq, Bool.false_eq_true, if_false] using ha
    · simpa only [roundQ_zero, roundsUp, Bool.not_true, Bool.and_false, Bool.false_eq_true, if_false, if_true] using hb
  · cases neg
    · simpa only [roundQ_zero, roundsUp, Bool.and_false, Bool.false_eq_true, if_false] using hb
    · simpa only [roundQ_zero, roundsUp, Bool.and_true, decide_eq_true_eq, if_true] using ha
  · simpa only [roundQ_zero, roundsUp, Bool.or_eq_true, Bool.and_eq_true, decide_eq_true_eq] using hn

/-- A rounding is inexact where it differs (R45): the quotient's multiple is the value where there is no rest, and neither
neighbour is where there is one. -/
theorem roundQ_inexact (mode : Mode) (neg : Bool) (m k : Nat) :
    (roundQ mode neg m 0 k).2 = true ↔ (roundQ mode neg m 0 k).1 * 2 ^ k ≠ m := by
  have hp : 0 < 2 ^ k := Nat.two_pow_pos k
  have hm := Nat.div_add_mod' m (2 ^ k)
  have hr := Nat.mod_lt m hp
  rw [roundQ_zero]
  simp only [decide_eq_true_eq]
  by_cases h0 : m % 2 ^ k = 0
  · cases mode <;> simp [roundsUp, h0, hp.ne] <;> omega
  · have key : ∀ up : Bool, (if up = true then m / 2 ^ k + 1 else m / 2 ^ k) * 2 ^ k ≠ m := by
      intro up
      split <;> [rw [Nat.succ_mul]; skip] <;> omega
    exact iff_of_true h0 (key _)

/-- Settles O29: the roundings by `roundQ_modes`, the special values by the branches that the functions take. -/
theorem roundingAndSpecialValues : Obligations.RoundingAndSpecialValues := by
  unfold Obligations.RoundingAndSpecialValues
  refine ⟨fun neg m k => ?_, fun a b m n e f hm => ?_⟩
  · obtain ⟨h1, h2, h3, h4⟩ := roundQ_modes neg m k
    exact ⟨h1, h2, h3, h4, fun mode => roundQ_inexact mode neg m k⟩
  · have h0 : m ≠ 0 := by omega
    have hexp : exp2V (.fin a 0 e) = (.fin false 1 0, 0) := by cases a <;> simp [exp2V, ofSign, pow2]
    have hord : ∀ a b, orderV (.fin a 0 e) (.fin b 0 f) = 0 := by intro a b; cases a <;> cases b <;> simp [orderV, ofSign]
    refine ⟨?_, ?_, rfl, rfl, ?_, ?_, ?_, ?_, rfl, rfl, ?_, hexp, rfl, ?_, ?_, ?_, ?_, hord a b, ?_, ?_⟩
    · simp [divV, h0]
    · simp [divV]
    · simp [rcpV, divV]
    · simp [rsqrtV]
    · simp [sqrtV]
    · simp [sqrtV, h0]
    · simp [rsqrtV, h0]
    · simp [log2V]
    · simp [log2V, h0]
    · decide
    · simp [mulV]
    · simp [minV, hord, Fpv.isNan, Fpv.isNeg]
    · simp [maxV, hord, Fpv.isNan, Fpv.isNeg]

end Sys2Proof.Machine
end

section
/-! PROOFS. Moves of lanes and the predicate instructions (R214, R218): O31. -/

namespace Sys2Proof.Machine

theorem isWidth_tyBytes (ty : BitVec 4) : IsWidth (tyBytes ty) := by
  unfold tyBytes IsWidth; revert ty; decide

/-- Lane i of a vector packed from a list of lanes. -/
theorem laneAt_packed {w i : Nat} (hw : IsWidth w) (hi : i < 64 / w) (l : List Nat) :
    laneAt (8 * w) (packLanes w l) i = BitVec.ofNat (8 * w) (l.getD i 0) := laneAt_pack (width_le hw hi) l

theorem getD_map_range {α : Type} {n i : Nat} (h : i < n) (f : Nat → α) (z : α) : ((List.range n).map f).getD i z = f i := by
  simp [List.getD_eq_getElem?_getD, List.getElem?_range h]

theorem ofNat_lane (w : Nat) (v : Vec) (i : Nat) : BitVec.ofNat (8 * w) (lane w v i) = laneAt (8 * w) v i := by simp [lane_eq]

theorem ofNat_laneOr (w : Nat) (v : Vec) (k : Nat) :
    BitVec.ofNat (8 * w) (laneOr w v k) = if k < 64 / w then laneAt (8 * w) v k else 0 := by
  unfold laneOr
  split <;> simp [ofNat_lane]

/-- A move of lanes, given what each active lane receives. -/
theorem vecMove_lanes {s : State} (c : Clear s) {i : Instr} (f : Nat → Nat → Nat) {d : Reg} {ty : BitVec 4} {g : BitVec 3} {z : Bool}
    {F : Nat → BitVec (8 * tyBytes ty)} (e : exec i s = vecMove f d ty g z s)
    (h : ∀ k < 64 / tyBytes ty, BitVec.ofNat (8 * tyBytes ty) (f (tyBytes ty) k) = F k) :
    ∃ new, exec i s = .next (s.wroteV d new) ∧ LanesAre (8 * tyBytes ty) (s.readP g) z (s.readV d) new F := by
  have hw := isWidth_tyBytes ty
  refine ⟨_, e.trans (commit_clear c _ 4), fun k hk => ?_⟩
  refine (fillLanes_are hw (s.readP g) z (s.readV d) (fun i => (f (tyBytes ty) i, 0)) k hk).trans ?_
  rw [(width_div hw).1] at hk
  rw [← h k hk]

theorem vins_lanes {s : State} (c : Clear s) (d a b : Reg) (ty : BitVec 4) (h : (s.readG b).toNat < 64 / tyBytes ty) :
    ∃ new, exec (.vins d a b ty) s = .next (s.wroteV d new) ∧ ∀ i < 64 / tyBytes ty, laneAt (8 * tyBytes ty) new i =
      if i = (s.readG b).toNat then (s.readG a).setWidth _ else laneAt _ (s.readV d) i := by
  have e : exec (.vins d a b ty) s = commit s (if (s.readG b).toNat < 64 / tyBytes ty then _ else s) 4 := rfl
  rw [if_pos h] at e
  refine ⟨_, e.trans (commit_clear c _ 4), fun i hi => ?_⟩
  rw [laneAt_packed (isWidth_tyBytes ty) hi, getD_map_range hi]
  split
  · exact BitVec.ofNat_toNat _ _
  · exact ofNat_lane _ _ _

theorem vcompress_lanes {s : State} (c : Clear s) (d a : Reg) (ty : BitVec 4) (g : BitVec 3) :
    ∃ new, exec (.vcompress d a ty g) s = .next (s.wroteV d new) ∧ ∀ i < 64 / tyBytes ty, laneAt (8 * tyBytes ty) new i =
      (((List.range (64 / tyBytes ty)).filter (fun k => (s.readP g).getLsbD (tyBytes ty * k)))[i]?.map
        (laneAt (8 * tyBytes ty) (s.readV a))).getD 0 := by
  refine ⟨_, commit_clear c _ 4, fun i hi => ?_⟩
  rw [laneAt_packed (isWidth_tyBytes ty) hi, List.getD_eq_getElem?_getD, List.getElem?_map]
  have e : activeLanes (tyBytes ty) (s.readP g) = (List.range (64 / tyBytes ty)).filter (fun k => (s.readP g).getLsbD (tyBytes ty * k)) := rfl
  rw [e]
  cases ((List.range (64 / tyBytes ty)).filter (fun k => (s.readP g).getLsbD (tyBytes ty * k)))[i]? with
  | none => rfl
  | some k => exact ofNat_lane _ _ _

theorem vext_yields (d a b : Reg) (ty : BitVec 4) : Yields (.vext d a b ty) d (fun s =>
    let x := if (s.readG b).toNat < 64 / tyBytes ty then laneAt (8 * tyBytes ty) (s.readV a) (s.readG b).toNat else 0
    if ty.toNat < 4 then x.signExtend 64 else x.setWidth 64) := by
  refine setReg_yields (fun s => rfl) fun s => ?_
  have hn : 8 * tyBytes ty ≤ 64 := by rcases isWidth_tyBytes ty with h | h | h | h <;> omega
  have hlt : laneOr (tyBytes ty) (s.readV a) (s.readG b).toNat < 2 ^ (8 * tyBytes ty) := by
    unfold laneOr lane
    split
    · exact Nat.mod_lt _ (by positivity)
    · positivity
  rw [← ofNat_laneOr, signFrom_eq]
  unfold tySigned
  dsimp only
  by_cases h : ty.toNat < 4
  · rw [if_pos (decide_eq_true h), if_pos h]
  · rw [if_neg (by simpa using h), if_neg h]
    apply BitVec.eq_of_toNat_eq
    rw [BitVec.toNat_ofNat, BitVec.toNat_setWidth, BitVec.toNat_ofNat, Nat.mod_eq_of_lt hlt]

theorem head?_filter_range {p : Nat → Bool} (n m : Nat) : ((List.range n).filter p).headD m = ((List.range n).find? p).getD m := by
  rw [List.headD_eq_head?_getD, List.head?_filter]

/-- `pwhile` writes each lane's bits by one comparison. -/
theorem pwhile_bits {s : State} (c : Clear s) (d : BitVec 3) (a b : Reg) (e : BitVec 2) :
    ∃ new : Word, exec (.pwhile d a b e) s = .next (s.wroteP d new) ∧
      ∀ j < 64, new.getLsbD j = decide ((s.readG a).toNat + j / 2 ^ e.toNat < (s.readG b).toNat) := by
  refine ⟨_, commit_clear c _ 4, fun j hj => ?_⟩
  have hw := isWidth_laneBytes e
  refine (lanes_or_bit hw hj (fun i => if (s.readG a).toNat + i < (s.readG b).toNat then laneBits (laneBytes e) i else 0) ?_).trans ?_
  · intro i hi
    by_cases h : (s.readG a).toNat + i < (s.readG b).toNat
    · simp [h, laneBits_bit hw hj, Ne.symm hi]
    · simp [h]
  · dsimp only [laneBytes]
    by_cases h : (s.readG a).toNat + j / 2 ^ e.toNat < (s.readG b).toNat
    · simp [h, laneBits_bit (w := 2 ^ e.toNat) hw hj]
    · simp [h]

/-- Settles O31: the moves by `vecMove_lanes`, the others by what they pack or write. -/
theorem movesAndPredicates : Obligations.MovesAndPredicates := by
  unfold Obligations.MovesAndPredicates
  refine ⟨fun d a b ty g z s c => ?_, vext_yields, fun d a b => ?_, fun p r q e => ?_⟩
  · refine ⟨?_, ?_, ?_, ?_, vcompress_lanes c d a ty g, vins_lanes c d a b ty, fun h => ?_⟩
    · refine vecMove_lanes c (fun w i => laneOr w (s.readV a) (lane w (s.readV b) i)) rfl fun k hk => ?_
      rw [ofNat_laneOr, lane_eq]
    · refine vecMove_lanes c (fun w i => if (i : Int) - (s.readG b).toInt < 0 then 0 else
        laneOr w (s.readV a) ((i : Int) - (s.readG b).toInt).toNat) rfl fun k hk => ?_
      by_cases h : (k : Int) < (s.readG b).toInt
      · rw [if_pos (by omega), if_pos h]
        rfl
      · rw [if_neg (by omega), if_neg h, ofNat_laneOr]
    · refine vecMove_lanes c (fun w i => lane w (s.readV a) (((List.range i).filter (active w (s.readP g))).length)) rfl fun k hk => ?_
      have hc : ((List.range k).countP (fun i => (s.readP g).getLsbD (tyBytes ty * i))) < 64 / tyBytes ty :=
        Nat.lt_of_le_of_lt (List.countP_le_length.trans_eq List.length_range) hk
      rw [ofNat_lane, ← List.countP_eq_length_filter]
      exact (if_pos hc).symm
    · exact vecMove_lanes c (fun _ _ => (s.readG a).toNat) rfl fun _ _ => BitVec.ofNat_toNat _ _
    · have e : exec (.vins d a b ty) s = commit s (if (s.readG b).toNat < 64 / tyBytes ty then _ else s) 4 := rfl
      rw [e, if_neg (Nat.not_lt.2 h)]
      exact commit_clear c _ 4
  · exact ⟨fun s c => commit_clear c _ 4, fun s c => commit_clear c _ 4, fun s c => commit_clear c _ 4, fun s c => commit_clear c _ 4⟩
  · refine ⟨fun s c => commit_clear c _ 4, setReg_yields (fun s => rfl) fun _ => rfl, ?_, ?_, fun s c => pwhile_bits c p r q e⟩
    · refine setReg_yields (fun s => rfl) fun s => ?_
      rw [List.countP_eq_length_filter]
      rfl
    · refine setReg_yields (fun s => rfl) fun s => ?_
      rw [← head?_filter_range]
      rfl

end Sys2Proof.Machine
end

section
/-! PROOFS. Conversions between lane types and reductions (R212, R213): O30. The reduction of the model combines a list of
nodes level by level; it is compared with the ordered fold of the lanes that are present, and with the tree of the spec. -/

namespace Sys2Proof.Machine

theorem joinFlags_range_bit (n j : Nat) (f : Nat → BitVec 5) :
    (joinFlags ((List.range n).map f)).getLsbD j = true ↔ ∃ i < n, (f i).getLsbD j = true := by
  rw [joinFlags_bit]
  simp only [List.mem_map, List.mem_range]
  constructor
  · rintro ⟨_, ⟨i, hi, rfl⟩, h⟩
    exact ⟨i, hi, h⟩
  · rintro ⟨i, hi, h⟩
    exact ⟨_, ⟨i, hi, rfl⟩, h⟩

theorem vcvt_lanes {s : State} (c : Clear s) (d a : Reg) (r : Bool) (dt ty : BitVec 4) (g : BitVec 3) (z : Bool) :
    let n := 8 * tyBytes dt
    let m := 64 / max (tyBytes ty) (tyBytes dt)
    let at' := fun i => cvtLane ty dt (if r then .rtz else s.mode) (laneAt (8 * tyBytes ty) (s.readV a) i).toNat
    ∃ new fl, exec (.vcvt d a r dt ty g z) s = .next (((s.writeV d new).raise fl).retireTo (s.pc + 4)) ∧
      (∀ i < 64 / tyBytes dt, laneAt n new i = if m ≤ i then 0 else if (s.readP g).getLsbD (tyBytes dt * i) then BitVec.ofNat n (at' i).1
        else if z then 0 else laneAt n (s.readV d) i) ∧
      (∀ j < 5, (fl.getLsbD j = true ↔ ∃ i < m, (s.readP g).getLsbD (tyBytes dt * i) = true ∧ (at' i).2.getLsbD j = true)) := by
  intro n m at'
  have hw := isWidth_tyBytes dt
  have hm : m ≤ 64 / tyBytes dt := Nat.div_le_div_left (le_max_right _ _) (by rcases hw with h | h | h | h <;> omega)
  have hlane : ∀ i, lane (tyBytes ty) (s.readV a) i = (laneAt (8 * tyBytes ty) (s.readV a) i).toNat := lane_eq _ _
  refine ⟨_, _, commit_clear c _ 4, fun i hi => ?_, fun j _ => ?_⟩
  · rw [laneAt_packed hw hi, List.map_map, getD_map_range hi]
    simp only [Function.comp_apply, hlane, apply_ite Prod.fst, apply_ite (BitVec.ofNat _)]
    refine if_congr Iff.rfl rfl (if_congr Iff.rfl rfl ?_)
    cases z
    · exact ofNat_lane _ _ _
    · rfl
  · rw [List.map_map, joinFlags_range_bit]
    simp only [Function.comp_apply, hlane, apply_ite Prod.snd]
    constructor
    · rintro ⟨i, -, h⟩
      by_cases him : m ≤ i
      · rw [if_pos him] at h; simp at h
      · rw [if_neg him] at h
        cases ha : active (tyBytes dt) (s.readP g) i with
        | false => simp [ha] at h
        | true => exact ⟨i, by omega, ha, by simpa [ha] using h⟩
    · rintro ⟨i, hi, ha, h⟩
      refine ⟨i, by omega, ?_⟩
      rw [if_neg (Nat.not_le.2 hi), if_pos (show active _ _ _ = true from ha)]
      exact h

theorem cvtLane_integer (ty dt : BitVec 4) (m : Mode) (x : Nat) (ht : ty.toNat < 8) (hd : dt.toNat < 8) (h : ty ≠ dt) :
    cvtLane ty dt m x = ((max (intMin (8 * tyBytes dt) (tySigned dt)) (min (intMax (8 * tyBytes dt) (tySigned dt)) (tyValue ty x)) %
      2 ^ (8 * tyBytes dt)).toNat, 0) := by
  unfold cvtLane
  simp only [h, if_false, tyInt, ht, hd, decide_true, if_true, wrap]
  push_cast
  rfl

/-! The reduction of the lanes that are present, as an ordered fold. -/

section
variable {k : Nat} {ty : BitVec 4} {m : Mode}

theorem redLevel_length : ∀ l, (redLevel k ty m l).1.length = (l.length + 1) / 2
  | [] => by simp [redLevel]
  | [_] => by simp [redLevel]
  | x :: y :: rest => by
    rw [redLevel]
    simp only [List.length_cons, redLevel_length rest]
    omega

/-- A level of the tree keeps the fold of what is present. -/
theorem redLevel_foldr {α : Type} {act : Nat → α → α} (h : ∀ x y e, act (redTwo k ty m x y).1 e = act x (act y e)) (e : α) :
    ∀ l, (redLevel k ty m l).1.reduceOption.foldr act e = l.reduceOption.foldr act e
  | [] => rfl
  | [_] => rfl
  | x :: y :: rest => by
    have ih := redLevel_foldr h e rest
    cases x <;> cases y <;> simp only [redLevel, redCombine, List.reduceOption_cons_of_some, List.reduceOption_cons_of_none,
      List.foldr_cons, h, ih]

/-- The tree is the fold of what is present, for an action that the combination of two respects. -/
theorem redTree_foldr {α : Type} {act : Nat → α → α} (h : ∀ x y e, act (redTwo k ty m x y).1 e = act x (act y e)) (e : α) :
    ∀ n l, l.length ≤ 2 ^ n → (redTree k ty m n l).1.elim e (fun r => act r e) = l.reduceOption.foldr act e
  | 0, [], _ => rfl
  | 0, [x], _ => by cases x <;> rfl
  | n + 1, l, hl => by
    rw [redTree, ← redLevel_foldr h e l]
    exact redTree_foldr h e n _ (by rw [redLevel_length]; omega)

/-- What holds of every node and of every combination holds of the root. -/
theorem redLevel_all {P : Nat → Prop} (h : ∀ x y, P x → P y → P (redTwo k ty m x y).1) :
    ∀ l, (∀ x, some x ∈ l → P x) → ∀ x, some x ∈ (redLevel k ty m l).1 → P x
  | [], hl => hl
  | [_], hl => hl
  | x :: y :: rest, hl => by
    intro v hv
    rw [redLevel, List.mem_cons] at hv
    rcases hv with hv | hv
    · cases x <;> cases y <;> simp only [redCombine, Option.some.injEq, reduceCtorEq] at hv
      case none.some => exact hl v (by simp [hv])
      case some.none => exact hl v (by simp [hv])
      case some.some => exact hv ▸ h _ _ (hl _ (by simp)) (hl _ (by simp))
    · exact redLevel_all h rest (fun w hw => hl w (by simp [hw])) v hv

theorem redTree_all {P : Nat → Prop} (h : ∀ x y, P x → P y → P (redTwo k ty m x y).1) :
    ∀ n l, (∀ x, some x ∈ l → P x) → ∀ x, (redTree k ty m n l).1 = some x → P x
  | 0, [], _ => fun x hx => by simp [redTree] at hx
  | 0, _ :: _, hl => fun x hx => hl x (by simp [redTree] at hx; simp [hx])
  | n + 1, l, hl => redTree_all h n _ (redLevel_all h l hl)

theorem redLevel_noFlags (h : ∀ x y, (redTwo k ty m x y).2 = 0) : ∀ l, (redLevel k ty m l).2 = 0
  | [] => rfl
  | [_] => rfl
  | x :: y :: rest => by
    rw [redLevel]
    cases x <;> cases y <;> simp [redCombine, h, redLevel_noFlags h rest]

theorem redTree_noFlags (h : ∀ x y, (redTwo k ty m x y).2 = 0) : ∀ n l, (redTree k ty m n l).2 = 0
  | 0, _ => rfl
  | n + 1, l => by simp [redTree, redLevel_noFlags h, redTree_noFlags h n]

/-- Levels above the root change nothing. -/
theorem redTree_add (i : Nat) : ∀ n l, l.length ≤ 2 ^ n → redTree k ty m (n + i) l = redTree k ty m n l
  | 0, l, hl => by
    induction i with
    | zero => rfl
    | succ i ih =>
      have e : redLevel k ty m l = (l, 0) := by
        match l, hl with
        | [], _ => rfl
        | [_], _ => rfl
      change ((redTree k ty m (0 + i) (redLevel k ty m l).1).1, (redLevel k ty m l).2 ||| _) = _
      rw [e, ih]
      exact congrArg (Prod.mk _) (BitVec.zero_or.trans (congrArg Prod.snd ih))
  | n + 1, l, hl => by
    rw [Nat.succ_add, redTree, redTree, redTree_add i n _ (by rw [redLevel_length]; omega)]

end

/-! The tree of the spec, whose nodes carry the flags of the roundings below them. -/

/-- Two nodes combined, their flags together. -/
def combineFlagged (f : Nat → Nat → Nat × BitVec 5) (p q : Nat × BitVec 5) : Nat × BitVec 5 :=
  let r := f p.1 q.1
  (r.1, p.2 ||| q.2 ||| r.2)

/-- One level of flagged nodes. -/
def flaggedLevel (f : Nat → Nat → Nat × BitVec 5) : List (Option (Nat × BitVec 5)) → List (Option (Nat × BitVec 5))
  | some a :: some b :: rest => some (combineFlagged f a b) :: flaggedLevel f rest
  | none :: b :: rest => b :: flaggedLevel f rest
  | some a :: none :: rest => some a :: flaggedLevel f rest
  | l => l

/-- The flags of all nodes together. -/
def nodeFlags (l : List (Option (Nat × BitVec 5))) : BitVec 5 := l.foldr (fun x v => (x.map (·.2)).getD 0 ||| v) 0

/-- Two neighbours of the tree of R213 combined: an absent one leaves the other. -/
def mergeNodes {α : Type} (f : α → α → α) : Option α → Option α → Option α
  | some a, some b => some (f a b)
  | none, b => b
  | a, none => a

theorem reduceTree_succ {α : Type} (f : α → α → α) (n : Nat) (x : Nat → Option α) :
    reduceTree f (n + 1) x = reduceTree f n (fun j => mergeNodes f (x (2 * j)) (x (2 * j + 1))) := rfl

theorem reduceTree_congr {α : Type} (f : α → α → α) : ∀ n {x y : Nat → Option α}, (∀ i < 2 ^ n, x i = y i) → reduceTree f n x = reduceTree f n y
  | 0, _, _, h => h 0 Nat.one_pos
  | n + 1, _, _, h => by
    rw [reduceTree_succ, reduceTree_succ]
    exact reduceTree_congr f n fun j hj => by rw [h _ (by omega), h _ (by omega)]

/-- A level of nodes read by index is the level of the list of nodes. -/
theorem flaggedLevel_getD (f : Nat → Nat → Nat × BitVec 5) : ∀ l j, (flaggedLevel f l).getD j none =
    mergeNodes (combineFlagged f) (l.getD (2 * j) none) (l.getD (2 * j + 1) none)
  | [], j => by simp [flaggedLevel, mergeNodes]
  | [x], j => by cases j <;> cases x <;> simp [flaggedLevel, mergeNodes, Nat.mul_add]
  | x :: y :: rest, j => by
    cases j with
    | zero => cases x <;> cases y <;> simp [flaggedLevel, mergeNodes]
    | succ j =>
      have ih := flaggedLevel_getD f rest j
      have e : 2 * (j + 1) = 2 * j + 1 + 1 := by omega
      cases x <;> cases y <;> simpa [flaggedLevel, e] using ih

theorem nodeFlags_cons (x : Option (Nat × BitVec 5)) (l : List (Option (Nat × BitVec 5))) :
    nodeFlags (x :: l) = (x.map (·.2)).getD 0 ||| nodeFlags l := rfl

section
variable {k : Nat} {ty : BitVec 4} {m : Mode}

/-- A level of the model's tree is a level of flagged nodes: the values are theirs, and the flags it raises are those that
the nodes gain. -/
theorem redLevel_flagged : ∀ l, (redLevel k ty m (l.map (Option.map (·.1)))).1 = (flaggedLevel (redTwo k ty m) l).map (Option.map (·.1)) ∧
    nodeFlags (flaggedLevel (redTwo k ty m) l) = nodeFlags l ||| (redLevel k ty m (l.map (Option.map (·.1)))).2
  | [] => by simp [flaggedLevel, redLevel]
  | [x] => by cases x <;> simp [flaggedLevel, redLevel]
  | x :: y :: rest => by
    obtain ⟨h1, h2⟩ := redLevel_flagged rest
    cases x <;> cases y <;>
      simp only [List.map_cons, Option.map_none, Option.map_some, redLevel, redCombine, flaggedLevel, combineFlagged, nodeFlags_cons,
        Option.getD_none, Option.getD_some, h1, h2, true_and]
    case some.some => ac_rfl
    all_goals
      simp only [BitVec.ofNat_eq_ofNat, BitVec.zero_or]
    all_goals rw [BitVec.or_assoc]

/-- The spec's tree of flagged nodes has the value of the model's tree for its root, and all flags raised. -/
theorem reduceTree_flagged : ∀ n l, l.length ≤ 2 ^ n →
    let root := reduceTree (combineFlagged (redTwo k ty m)) n (fun i => l.getD i none)
    let t := redTree k ty m n (l.map (Option.map (·.1)))
    t.1 = root.map (·.1) ∧ nodeFlags l ||| t.2 = (root.map (·.2)).getD 0
  | 0, [], _ => by simp [reduceTree, redTree, nodeFlags]
  | 0, [x], _ => by cases x <;> simp [reduceTree, redTree, nodeFlags]
  | n + 1, l, hl => by
    obtain ⟨h1, h2⟩ := redLevel_flagged (k := k) (ty := ty) (m := m) l
    have hlen : (flaggedLevel (redTwo k ty m) l).length ≤ 2 ^ n := by
      have := redLevel_length (k := k) (ty := ty) (m := m) (l.map (Option.map (·.1)))
      rw [h1, List.length_map, List.length_map] at this
      omega
    obtain ⟨i1, i2⟩ := reduceTree_flagged n _ hlen
    have e : reduceTree (combineFlagged (redTwo k ty m)) (n + 1) (fun i => l.getD i none) =
        reduceTree (combineFlagged (redTwo k ty m)) n (fun i => (flaggedLevel (redTwo k ty m) l).getD i none) := by
      rw [reduceTree_succ]
      exact reduceTree_congr _ n fun j _ => (flaggedLevel_getD _ l j).symm
    dsimp only
    rw [e, redTree, h1]
    refine ⟨i1, ?_⟩
    rw [← i2, h2, BitVec.or_assoc]

end

/-! `vred`. -/

/-- The nodes of `vred`, as the model lists them. -/
def redNodes (w : Nat) (p : Word) (v : Vec) : List (Option Nat) :=
  (List.range (64 / w)).map (fun i => if active w p i then some (lane w v i) else none)

theorem redNodes_present (w : Nat) (p : Word) (v : Vec) : (redNodes w p v).reduceOption =
    (((List.range (64 / w)).filter (fun i => p.getLsbD (w * i))).map (fun i => laneAt (8 * w) v i)).map BitVec.toNat := by
  unfold redNodes active
  induction List.range (64 / w) with
  | nil => rfl
  | cons i l ih =>
    rw [List.map_cons, List.filter_cons]
    cases h : p.getLsbD (w * i)
    · simpa using ih
    · simpa [lane_eq] using ih

theorem redNodes_lt (w : Nat) (p : Word) (v : Vec) : ∀ x, some x ∈ redNodes w p v → x < 2 ^ (8 * w) := by
  intro x hx
  obtain ⟨i, -, h⟩ := List.mem_map.1 hx
  split at h
  · exact Option.some.inj h ▸ Nat.mod_lt _ (by positivity)
  · cases h

theorem redNodes_length {w : Nat} (hw : IsWidth w) (p : Word) (v : Vec) : (redNodes w p v).length = 2 ^ Nat.log2 (64 / w) := by
  rw [redNodes, List.length_map, List.length_range]
  rcases hw with rfl | rfl | rfl | rfl <;> decide

theorem log2_lanes_le {w : Nat} (hw : IsWidth w) : Nat.log2 (64 / w) ≤ 6 := by
  rcases hw with rfl | rfl | rfl | rfl <;> decide

theorem redNodes_length_le {w : Nat} (hw : IsWidth w) (p : Word) (v : Vec) : (redNodes w p v).length ≤ 2 ^ 6 :=
  (redNodes_length hw p v).trans_le (Nat.pow_le_pow_right (by decide) (log2_lanes_le hw))

/-- What `vred` leaves in lane 0 and raises, and 0 in the other lanes. -/
theorem vred_lanes {s : State} (c : Clear s) (d a k : Reg) (ty : BitVec 4) (g : BitVec 3) :
    let r := redTree k.toNat ty s.mode 6 (redNodes (tyBytes ty) (s.readP g) (s.readV a))
    ∃ new, exec (.vred d a k ty g) s = .next (((s.writeV d new).raise r.2).retireTo (s.pc + 4)) ∧
      (∀ i, 0 < i → i < 64 / tyBytes ty → laneAt (8 * tyBytes ty) new i = 0) ∧
      laneAt (8 * tyBytes ty) new 0 = BitVec.ofNat _ (r.1.getD (redEmpty k.toNat ty)) := by
  have hw := isWidth_tyBytes ty
  have h0 : 0 < 64 / tyBytes ty := by rcases hw with h | h | h | h <;> rw [h] <;> decide
  refine ⟨_, commit_clear c _ 4, fun i hi hn => ?_, ?_⟩
  · rw [laneAt_packed hw hn]
    cases i with
    | zero => omega
    | succ i => rfl
  · rw [laneAt_packed hw h0]
    rfl

section
variable {k : Nat} {ty : BitVec 4} (m : Mode) (ht : ty.toNat < 8)
include ht

theorem redTwo_integer (x y : Nat) : redTwo k ty m x y = (if k = 0 then (x + y) % 2 ^ (8 * tyBytes ty)
     else if k = 1 then (if tyValue ty y < tyValue ty x then y else x)
     else if k = 2 then (if tyValue ty x < tyValue ty y then y else x)
     else if k = 3 then x &&& y else if k = 4 then x ||| y else x ^^^ y, 0) := by
  rw [redTwo, tyInt, if_pos (decide_eq_true ht)]

theorem redEmpty_integer : redEmpty k ty = (if k = 1 then wrap (8 * tyBytes ty) (intMax (8 * tyBytes ty) (tySigned ty))
     else if k = 2 then wrap (8 * tyBytes ty) (intMin (8 * tyBytes ty) (tySigned ty))
     else if k = 3 then 2 ^ (8 * tyBytes ty) - 1 else 0) := by
  rw [redEmpty, tyInt, if_pos (decide_eq_true ht)]

end

/-- An operation on lanes that the combination of two computes: lane 0 is the fold of the lanes that are present. -/
theorem redTree_lanes {k : Nat} {ty : BitVec 4} {m : Mode} {n : Nat} {op : BitVec n → BitVec n → BitVec n} {z : BitVec n} [Std.Associative op]
    (h : ∀ x y, BitVec.ofNat n (redTwo k ty m x y).1 = op (BitVec.ofNat n x) (BitVec.ofNat n y)) (hz : ∀ x, op x z = x)
    (he : BitVec.ofNat n (redEmpty k ty) = z) (l : List (Option Nat)) (hl : l.length ≤ 2 ^ 6) :
    BitVec.ofNat n ((redTree k ty m 6 l).1.getD (redEmpty k ty)) = l.reduceOption.foldr (fun x v => op (BitVec.ofNat n x) v) z := by
  rw [← redTree_foldr (k := k) (ty := ty) (m := m) (fun x y e => by rw [h, Std.Associative.assoc (op := op)]) z 6 l hl]
  cases (redTree k ty m 6 l).1 with
  | none => exact he
  | some r => exact (hz _).symm

theorem foldr_present {α : Type} {w : Nat} (p : Word) (v : Vec) (f : Nat → α → α) (e : α) : (redNodes w p v).reduceOption.foldr f e =
    (((List.range (64 / w)).filter (fun i => p.getLsbD (w * i))).map (fun i => laneAt (8 * w) v i)).foldr (fun x u => f x.toNat u) e := by
  rw [redNodes_present, List.foldr_map]

theorem tyValue_bounds (ty : BitVec 4) (x : BitVec (8 * tyBytes ty)) :
    intMin (8 * tyBytes ty) (tySigned ty) ≤ tyValue ty x.toNat ∧ tyValue ty x.toNat ≤ intMax (8 * tyBytes ty) (tySigned ty) := by
  unfold intMin intMax tyValue
  cases tySigned ty
  · have : (x.toNat : Int) < 2 ^ (8 * tyBytes ty) := by exact_mod_cast x.isLt
    simp only [Bool.false_eq_true, if_false]
    omega
  · have h1 := BitVec.le_toInt x
    have h2 := BitVec.toInt_lt (x := x)
    simp only [if_true, signed_toNat]
    omega

theorem intMin_le_intMax {n : Nat} (b : Bool) : intMin n b ≤ intMax n b := by
  unfold intMin intMax
  have h1 : (1 : Int) ≤ 2 ^ n := by exact_mod_cast Nat.one_le_two_pow
  have h2 : (1 : Int) ≤ 2 ^ (n - 1) := by exact_mod_cast Nat.one_le_two_pow
  cases b
  · simp only [Bool.false_eq_true, if_false]
    omega
  · simp only [if_true]
    omega

/-- A value within the bounds of its type is read back. -/
theorem tyValue_ofInt {ty : BitVec 4} {v : Int} (h1 : intMin (8 * tyBytes ty) (tySigned ty) ≤ v)
    (h2 : v ≤ intMax (8 * tyBytes ty) (tySigned ty)) : tyValue ty (BitVec.ofInt (8 * tyBytes ty) v).toNat = v := by
  have hn : 0 < 8 * tyBytes ty := by rcases isWidth_tyBytes ty with h | h | h | h <;> omega
  unfold intMin at h1
  unfold intMax at h2
  unfold tyValue
  revert h1 h2
  cases tySigned ty <;> intro h1 h2
  · simp only [Bool.false_eq_true, if_false] at h1 h2 ⊢
    rw [BitVec.toNat_ofInt, Int.toNat_of_nonneg (Int.emod_nonneg _ (by positivity))]
    exact Int.emod_eq_of_lt h1 (by push_cast; omega)
  · simp only [if_true] at h1 h2 ⊢
    rw [signed_toNat]
    exact BitVec.toInt_ofInt_eq_self hn h1 (by omega)

section
variable {ty : BitVec 4} (ht : ty.toNat < 8)
include ht

/-- The sum and the bitwise reductions of integers (R213). -/
theorem vred_bitwise (m : Mode) (k : Reg) (l : List (Option Nat)) (hl : l.length ≤ 2 ^ 6) :
    let n := 8 * tyBytes ty
    let x := BitVec.ofNat n ((redTree k.toNat ty m 6 l).1.getD (redEmpty k.toNat ty))
    (k = 0 → x = l.reduceOption.foldr (fun x v => BitVec.ofNat n x + v) 0) ∧
    (k = 3 → x = l.reduceOption.foldr (fun x v => BitVec.ofNat n x &&& v) (BitVec.allOnes n)) ∧
    (k = 4 → x = l.reduceOption.foldr (fun x v => BitVec.ofNat n x ||| v) 0) ∧
    (k = 5 → x = l.reduceOption.foldr (fun x v => BitVec.ofNat n x ^^^ v) 0) := by
  refine ⟨fun h => ?_, fun h => ?_, fun h => ?_, fun h => ?_⟩ <;> subst h
  · refine redTree_lanes (op := (· + ·)) (fun x y => ?_) BitVec.add_zero ?_ l hl
    · rw [redTwo_integer m ht, ← BitVec.ofNat_add]
      exact BitVec.eq_of_toNat_eq (by simp)
    · rw [redEmpty_integer ht]; rfl
  · refine redTree_lanes (op := (· &&& ·)) (fun x y => ?_) (fun x => BitVec.and_allOnes) ?_ l hl
    · rw [redTwo_integer m ht]; exact BitVec.ofNat_and
    · rw [redEmpty_integer ht]; exact ones_eq _
  · refine redTree_lanes (op := (· ||| ·)) (fun x y => ?_) (fun x => BitVec.or_zero) ?_ l hl
    · rw [redTwo_integer m ht]; exact BitVec.ofNat_or
    · rw [redEmpty_integer ht]; rfl
  · refine redTree_lanes (op := (· ^^^ ·)) (fun x y => ?_) (fun x => BitVec.xor_zero) ?_ l hl
    · rw [redTwo_integer m ht]; exact BitVec.ofNat_xor
    · rw [redEmpty_integer ht]; rfl

/-- The minimum and the maximum of integers (R213): the root is one of the lanes, and Empty the bound of the type. -/
theorem vred_extreme (m : Mode) (k : Reg) (l : List (Option Nat)) (hl : l.length ≤ 2 ^ 6) (hv : ∀ x, some x ∈ l → x < 2 ^ (8 * tyBytes ty)) :
    let n := 8 * tyBytes ty
    let x := BitVec.ofNat n ((redTree k.toNat ty m 6 l).1.getD (redEmpty k.toNat ty))
    (k = 1 → tyValue ty x.toNat = l.reduceOption.foldr (fun x v => min (tyValue ty x) v) (intMax n (tySigned ty))) ∧
    (k = 2 → tyValue ty x.toNat = l.reduceOption.foldr (fun x v => max (tyValue ty x) v) (intMin n (tySigned ty))) := by
  refine ⟨fun h => ?_, fun h => ?_⟩ <;> subst h
  · have h2 : ∀ x y, (redTwo 1 ty m x y).1 = if tyValue ty y < tyValue ty x then y else x := fun x y => by rw [redTwo_integer m ht]; rfl
    have he : redEmpty 1 ty = wrap (8 * tyBytes ty) (intMax (8 * tyBytes ty) (tySigned ty)) := by rw [redEmpty_integer ht]; rfl
    change tyValue ty (BitVec.ofNat _ ((redTree 1 ty m 6 l).1.getD (redEmpty 1 ty))).toNat = _
    rw [← redTree_foldr (k := 1) (ty := ty) (m := m) (fun x y e => by rw [h2]; split <;> omega) _ 6 l hl]
    cases hr : (redTree 1 ty m 6 l).1 with
    | none => rw [Option.getD_none, he, ofNat_wrap, tyValue_ofInt (intMin_le_intMax _) le_rfl]; rfl
    | some r =>
      have hb := redTree_all (k := 1) (ty := ty) (m := m) (P := (· < 2 ^ (8 * tyBytes ty)))
        (fun x y hx hy => by rw [h2]; split <;> assumption) 6 l hv r hr
      have := (tyValue_bounds ty (BitVec.ofNat (8 * tyBytes ty) r)).2
      rw [BitVec.toNat_ofNat, Nat.mod_eq_of_lt hb] at this
      rw [Option.getD_some, BitVec.toNat_ofNat, Nat.mod_eq_of_lt hb]
      exact (min_eq_left this).symm
  · have h2 : ∀ x y, (redTwo 2 ty m x y).1 = if tyValue ty x < tyValue ty y then y else x := fun x y => by rw [redTwo_integer m ht]; rfl
    have he : redEmpty 2 ty = wrap (8 * tyBytes ty) (intMin (8 * tyBytes ty) (tySigned ty)) := by rw [redEmpty_integer ht]; rfl
    change tyValue ty (BitVec.ofNat _ ((redTree 2 ty m 6 l).1.getD (redEmpty 2 ty))).toNat = _
    rw [← redTree_foldr (k := 2) (ty := ty) (m := m) (fun x y e => by rw [h2]; split <;> omega) _ 6 l hl]
    cases hr : (redTree 2 ty m 6 l).1 with
    | none => rw [Option.getD_none, he, ofNat_wrap, tyValue_ofInt le_rfl (intMin_le_intMax _)]; rfl
    | some r =>
      have hb := redTree_all (k := 2) (ty := ty) (m := m) (P := (· < 2 ^ (8 * tyBytes ty)))
        (fun x y hx hy => by rw [h2]; split <;> assumption) 6 l hv r hr
      have := (tyValue_bounds ty (BitVec.ofNat (8 * tyBytes ty) r)).1
      rw [BitVec.toNat_ofNat, Nat.mod_eq_of_lt hb] at this
      rw [Option.getD_some, BitVec.toNat_ofNat, Nat.mod_eq_of_lt hb]
      exact (max_eq_left this).symm

theorem vred_integer_noFlags (m : Mode) (k : Nat) (l : List (Option Nat)) : (redTree k ty m 6 l).2 = 0 :=
  redTree_noFlags (fun x y => by rw [redTwo_integer m ht]) 6 l

end

/-- The leaves of the spec's tree: the lanes that are present, without flags. -/
def flaggedNodes (w : Nat) (p : Word) (v : Vec) : List (Option (Nat × BitVec 5)) :=
  (List.range (64 / w)).map (fun i => if p.getLsbD (w * i) then some ((laneAt (8 * w) v i).toNat, 0) else none)

theorem flaggedNodes_values (w : Nat) (p : Word) (v : Vec) : (flaggedNodes w p v).map (Option.map (·.1)) = redNodes w p v := by
  rw [flaggedNodes, redNodes, List.map_map]
  refine List.map_congr_left fun i _ => ?_
  simp only [Function.comp_apply, active, lane_eq]
  cases p.getLsbD (w * i) <;> rfl

theorem flaggedNodes_length {w : Nat} (hw : IsWidth w) (p : Word) (v : Vec) : (flaggedNodes w p v).length = 2 ^ Nat.log2 (64 / w) := by
  rw [← redNodes_length hw p v, ← flaggedNodes_values, List.length_map]

theorem nodeFlags_flaggedNodes (w : Nat) (p : Word) (v : Vec) : nodeFlags (flaggedNodes w p v) = 0 := by
  rw [flaggedNodes]
  induction List.range (64 / w) with
  | nil => rfl
  | cons i l ih =>
    rw [List.map_cons, nodeFlags_cons, ih]
    cases p.getLsbD (w * i) <;> simp

theorem redEmpty_float {ty : BitVec 4} (ht : 8 ≤ ty.toNat) (k : Reg) (hk : k.toNat ≤ 2) :
    redEmpty k.toNat ty = if k = 0 then 0 else (tyFmt ty).signCode (k == 2) + (tyFmt ty).infCode := by
  have hi : tyInt ty = false := decide_eq_false (Nat.not_lt.2 ht)
  rw [redEmpty, hi]
  obtain rfl | rfl | rfl : k = 0 ∨ k = 1 ∨ k = 2 := by simp only [← BitVec.toNat_inj]; simp; omega
  · rfl
  · exact (Nat.zero_add _).symm
  · rfl

theorem redTwo_float {ty : BitVec 4} (ht : 8 ≤ ty.toNat) (k : Reg) (m : Mode) : redTwo k.toNat ty m = fun x y =>
    (tyFmt ty).round m ((if k = 0 then addV m else if k = 1 then minV else maxV) ((tyFmt ty).decode x) ((tyFmt ty).decode y)) := by
  funext x y
  have hi : tyInt ty = false := decide_eq_false (Nat.not_lt.2 ht)
  have h0 : (k.toNat = 0) = (k = 0) := by rw [← BitVec.toNat_inj]; rfl
  have h1 : (k.toNat = 1) = (k = 1) := by rw [← BitVec.toNat_inj]; rfl
  simp only [redTwo, hi, Bool.false_eq_true, if_false, h0, h1]
  by_cases c0 : k = 0
  · rw [if_pos c0, if_pos c0]
  · by_cases c1 : k = 1
    · rw [if_neg c0, if_neg c0, if_pos c1, if_pos c1]
    · rw [if_neg c0, if_neg c0, if_neg c1, if_neg c1]

/-- The floating-point reductions (R213), by the tree of the spec. -/
theorem vred_float {ty : BitVec 4} (ht : 8 ≤ ty.toNat) (k : Reg) (hk : k.toNat ≤ 2) (m : Mode) (p : Word) (v : Vec) :
    let tree := reduceTree (combineFlagged (redTwo k.toNat ty m)) (Nat.log2 (64 / tyBytes ty)) (fun i =>
      if p.getLsbD (tyBytes ty * i) then some ((laneAt (8 * tyBytes ty) v i).toNat, 0) else none)
    let r := redTree k.toNat ty m 6 (redNodes (tyBytes ty) p v)
    r.1.getD (redEmpty k.toNat ty) =
        (tree.map (·.1)).getD (if k = 0 then 0 else (tyFmt ty).signCode (k == 2) + (tyFmt ty).infCode) ∧
      r.2 = (tree.map (·.2)).getD 0 := by
  intro tree r
  have hw := isWidth_tyBytes ty
  have hlen := flaggedNodes_length hw p v
  have htree : tree = reduceTree (combineFlagged (redTwo k.toNat ty m)) (Nat.log2 (64 / tyBytes ty))
      (fun i => (flaggedNodes (tyBytes ty) p v).getD i none) := by
    refine reduceTree_congr _ _ fun i hi => ?_
    rw [← hlen, flaggedNodes, List.length_map, List.length_range] at hi
    rw [flaggedNodes, getD_map_range hi]
  obtain ⟨h1, h2⟩ := reduceTree_flagged (k := k.toNat) (ty := ty) (m := m) _ _ hlen.le
  rw [← htree, flaggedNodes_values, ← redTree_add (6 - Nat.log2 (64 / tyBytes ty)) _ _ (redNodes_length hw _ _).le,
    Nat.add_sub_cancel' (log2_lanes_le hw)] at h1 h2
  rw [nodeFlags_flaggedNodes, BitVec.ofNat_eq_ofNat, BitVec.zero_or] at h2
  exact ⟨by rw [show r.1 = _ from h1, redEmpty_float ht k hk], h2⟩

/-- Settles O30: `vcvt` by its lane loop, `vred` by the fold and the tree that the model's levels are. -/
theorem conversionsAndReductions : Obligations.ConversionsAndReductions := by
  unfold Obligations.ConversionsAndReductions
  refine ⟨fun d a r dt ty g z s c => vcvt_lanes c d a r dt ty g z, fun ty dt m x => cvtLane_integer ty dt m x,
    fun d a k ty g s c => ?_⟩
  have hl := redNodes_length_le (isWidth_tyBytes ty) (s.readP g) (s.readV a)
  obtain ⟨new, he, hz, h0⟩ := vred_lanes c d a k ty g
  refine ⟨new, _, he, hz, fun ht => ⟨vred_integer_noFlags ht _ _ _, ?_⟩, fun ht hk => ?_⟩
  · obtain ⟨b0, b3, b4, b5⟩ := vred_bitwise ht s.mode k _ hl
    obtain ⟨e1, e2⟩ := vred_extreme ht s.mode k _ hl (redNodes_lt _ _ _)
    rw [h0]
    simp only [foldr_present, BitVec.ofNat_toNat, BitVec.setWidth_eq] at b0 b3 b4 b5 e1 e2
    exact ⟨b0, b3, b4, b5, e1, e2⟩
  · obtain ⟨hv, hf⟩ := vred_float ht k hk s.mode (s.readP g) (s.readV a)
    rw [redTwo_float ht] at hv hf
    exact ⟨h0.trans (congrArg _ hv), hf⟩

end Sys2Proof.Machine
end

section
/-! PROOFS. System registers (R256-R264) and the registers of a parked context (R265): O33 and O34. -/

namespace Sys2Proof.Machine

/-- `sysrd` where it is allowed. -/
theorem sysrd_allowed {s : State} (c : Clear s) (d : Reg) (n : BitVec 13) (h : sysGuarded n.toNat = false ∨ s.inX7 = true) :
    exec (.sysrd d n) s = .next (s.wrote d (if 0x800 ≤ n.toNat then s.supRead s.myCore n.toNat else s.sysRead s.cur n.toNat)) := by
  have hg : (sysGuarded n.toNat && !s.inX7) = false := by rcases h with h | h <;> simp [h]
  have e : exec (.sysrd d n) s = if sysGuarded n.toNat && !s.inX7 then _ else commit s _ 4 := rfl
  rw [e, hg, if_neg Bool.false_ne_true]
  exact commit_clear c _ 4

/-- `syswr` where it is allowed. -/
theorem syswr_allowed {s : State} (c : Clear s) (t : Reg) (n : BitVec 13) (h : sysGuarded n.toNat = false ∨ s.inX7 = true) :
    exec (.syswr t n) s = .next ((if 0x800 ≤ n.toNat then s.supWrite s.myCore n.toNat (s.readG t) else
      s.modMe (fun x => x.sysWrite n.toNat (s.readG t))).retireTo (s.pc + 4)) := by
  have hg : (sysGuarded n.toNat && !s.inX7) = false := by rcases h with h | h <;> simp [h]
  have e : exec (.syswr t n) s = if sysGuarded n.toNat && !s.inX7 then _ else commit s _ 4 := rfl
  rw [e, hg, if_neg Bool.false_ne_true]
  exact commit_clear c _ 4

theorem statOf_running {x : Context} (h : x.life = .running) : statOf x =
    BitVec.ofNat 64 (2 + (if x.pstop then 0x1000 else 0) + (if x.pfault.isSome then 0x2000 else 0) + (if x.inwfm then 0x4000 else 0)) := by
  rw [statOf, h]
  rfl

theorem shiftRight_setWidth_eq (x : Word) : (x >>> 12).setWidth 40 = x.extractLsb' 12 40 := by
  apply BitVec.eq_of_toNat_eq
  rw [BitVec.toNat_setWidth, BitVec.toNat_ushiftRight, BitVec.extractLsb'_toNat]

theorem tablePa_eq (x : Word) : tablePa x = (x.extractLsb' 12 40).toNat * 4096 := by
  rw [tablePa, BitVec.extractLsb'_toNat, Nat.shiftRight_eq_div_pow]

/-- The sum of the powers of two of a set of positions below n has exactly their bits. -/
theorem testBit_sum_two_pow (p : Nat → Prop) [DecidablePred p] (n : Nat) :
    let x := ((List.range n).map (fun j => if p j then 2 ^ j else 0)).foldl (· + ·) 0
    x < 2 ^ n ∧ ∀ j, x.testBit j = decide (j < n ∧ p j) := by
  induction n with
  | zero => simp
  | succ n ih =>
    obtain ⟨h1, h2⟩ := ih
    rw [List.range_succ, List.map_append, List.foldl_append]
    simp only [List.map_cons, List.map_nil, List.foldl_cons, List.foldl_nil]
    generalize ((List.range n).map (fun j => if p j then 2 ^ j else 0)).foldl (· + ·) 0 = x at h1 h2
    refine ⟨by split <;> omega, fun j => ?_⟩
    have e : x + (if p n then 2 ^ n else 0) = 2 ^ n * (if p n then 1 else 0) + x := by split <;> omega
    rw [e, Nat.testBit_two_pow_mul_add _ h1]
    split
    · next hj => rw [h2]; simp [hj, Nat.lt_succ_of_lt hj]
    · next hj =>
      by_cases hn : j = n
      · subst hn; split <;> simp_all
      · obtain ⟨i, hi⟩ : ∃ i, j - n = i + 1 := ⟨j - n - 1, by omega⟩
        have hs : ¬ j < n + 1 := by omega
        rw [hi, Nat.testBit_succ]
        split <;> simp [hs]

theorem mySock_eq (s : State) : s.mySock = s.myCore / 512 := (Nat.div_div_eq_div_mul s.cur 8 512).symm

/-- MSTAT's bits are the parked FAULT and TRAP user contexts of the core. -/
theorem supRead_parked (s : State) (k : Nat) (j : Nat) (hj : j < 64) : ((s.supRead k 0x805).getLsbD j = true ↔
    j < 7 ∧ ((s.ctx (8 * k + j)).life = .parked .fault ∨ (s.ctx (8 * k + j)).life = .parked .trap)) := by
  have e : s.supRead k 0x805 = BitVec.ofNat 64 (((List.range 7).map (fun j =>
      if (s.ctx (8 * k + j)).life = .parked .fault ∨ (s.ctx (8 * k + j)).life = .parked .trap then 2 ^ j else 0)).foldl (· + ·) 0) := by
    refine congrArg (fun l => BitVec.ofNat 64 (List.foldl (· + ·) 0 l)) (List.map_congr_left fun i _ => ?_)
    split
    · next h => rw [if_pos (.inl h)]
    · next h => rw [if_pos (.inr h)]
    · next h1 h2 => rw [if_neg (by rintro (h | h); exacts [h1 h, h2 h])]
  rw [e, BitVec.getLsbD_ofNat, (testBit_sum_two_pow _ 7).2]
  simp [hj]

/-- Settles O33: each number by the equations of `sysRead`, `supRead`, `sysWrite` and `supWrite`. -/
theorem systemRegisters : Obligations.SystemRegisters := by
  unfold Obligations.SystemRegisters
  refine ⟨fun d s c => ?_, fun t s c => ?_⟩
  · have free : ∀ {n : BitVec 13} {x : Word}, sysGuarded n.toNat = false → s.sysRead s.cur n.toNat = x →
        (0x800 ≤ n.toNat → False) → exec (.sysrd d n) s = .next (s.wrote d x) := by
      intro n x hg hx hn
      rw [sysrd_allowed c d n (.inl hg), if_neg hn, hx]
    refine ⟨fun hr => free (by decide) (statOf_running hr) (by decide), ?_, ?_, ?_, ?_, ?_, ?_, ?_, ?_, ?_, ?_, ?_, ?_, ?_, ?_, ?_, fun hx => ?_⟩
    case refine_16 =>
      have mine : ∀ {n : BitVec 13} {x : Word}, s.sysRead s.cur n.toNat = x → (0x800 ≤ n.toNat → False) →
          exec (.sysrd d n) s = .next (s.wrote d x) := by
        intro n x hv hn
        rw [sysrd_allowed c d n (.inr hx), if_neg hn, hv]
      have sup : ∀ {n : BitVec 13} {x : Word}, s.supRead s.myCore n.toNat = x → 0x800 ≤ n.toNat →
          exec (.sysrd d n) s = .next (s.wrote d x) := by
        intro n x hv hn
        rw [sysrd_allowed c d n (.inr hx), if_pos hn, hv]
      rw [mySock_eq]
      refine ⟨mine rfl (by decide), mine rfl (by decide), sup rfl (by decide), sup rfl (by decide), sup rfl (by decide), sup rfl (by decide),
        sup rfl (by decide), sup rfl (by decide), sup rfl (by decide), sup rfl (by decide), _, sup rfl (by decide), fun j hj => ?_⟩
      exact supRead_parked s s.myCore j hj
    all_goals exact free (by decide) rfl (by decide)
  · have free : ∀ {n : BitVec 13} {f : Context → Context}, sysGuarded n.toNat = false → (∀ x : Context, x.sysWrite n.toNat (s.readG t) = f x) →
        (0x800 ≤ n.toNat → False) → exec (.syswr t n) s = .next ((s.modMe f).retireTo (s.pc + 4)) := by
      intro n f hg hx hn
      rw [syswr_allowed c t n (.inl hg), if_neg hn, funext hx]
    refine ⟨?_, ?_, ?_, ?_, ?_, ?_, ?_, ?_, ?_, ?_, fun n hn => ?_, fun hx => ?_⟩
    case refine_11 =>
      simp only [List.mem_cons, List.not_mem_nil, or_false] at hn
      rcases hn with rfl | rfl | rfl | rfl | rfl | rfl <;> exact free (by decide) (fun _ => rfl) (by decide)
    case refine_12 =>
      have mine : ∀ {n : BitVec 13} {f : Context → Context}, (∀ x : Context, x.sysWrite n.toNat (s.readG t) = f x) →
          (0x800 ≤ n.toNat → False) → exec (.syswr t n) s = .next ((s.modMe f).retireTo (s.pc + 4)) := by
        intro n f hv hn
        rw [syswr_allowed c t n (.inr hx), if_neg hn, funext hv]
      have sup : ∀ {n : BitVec 13} {u : State}, s.supWrite s.myCore n.toNat (s.readG t) = u → 0x800 ≤ n.toNat →
          exec (.syswr t n) s = .next (u.retireTo (s.pc + 4)) := by
        intro n u hv hn
        rw [syswr_allowed c t n (.inr hx), if_pos hn, hv]
      rw [mySock_eq, ← tablePa_eq]
      refine ⟨mine (fun _ => rfl) (by decide), mine (fun x => ?_) (by decide), sup rfl (by decide), sup rfl (by decide), sup rfl (by decide),
        sup rfl (by decide), sup rfl (by decide), sup rfl (by decide), sup rfl (by decide), sup rfl (by decide), sup rfl (by decide)⟩
      rw [← shiftRight_setWidth_eq]
      rfl
    all_goals exact free (by decide) (fun _ => rfl) (by decide)

/-! `ctxrd` and `ctxwr`. -/

theorem targetOf_eq (s : State) {x : Word} (h : x.toNat < 7) : s.targetOf x = 8 * s.myCore + x.toNat := by
  rw [State.targetOf, Nat.mod_eq_of_lt (by omega)]

theorem operand_refused_iff (x : Word) : (x.toNat / 8 ≠ 0 ∨ x.toNat % 8 = 7) ↔ 7 ≤ x.toNat := by omega

theorem admissible_iff (s : State) (c : Nat) : s.admissible c = true ↔
    (s.ctx c).life = .parked .fault ∨ (s.ctx c).life = .parked .trap ∨ (s.ctx c).life = .parked .stop := by
  unfold State.admissible
  split <;> simp_all

section
variable {s : State} (hx : s.inX7 = true) (r a : Reg)
include hx

theorem ctxrd_out_of_range (h : 7 ≤ (s.readG a).toNat) (n : BitVec 13) :
    exec (.ctxrd r a n) s = trapNow s (Trap.limit (s.readG a)) := by
  have e : exec (.ctxrd r a n) s = if !s.inX7 then _ else if (s.readG a).toNat / 8 ≠ 0 ∨ (s.readG a).toNat % 8 = 7 then _ else _ := rfl
  rw [e, hx, if_neg (by decide), if_pos ((operand_refused_iff _).2 h)]

theorem ctxwr_out_of_range (h : 7 ≤ (s.readG a).toNat) (n : BitVec 13) :
    exec (.ctxwr r a n) s = trapNow s (Trap.limit (s.readG a)) := by
  have e : exec (.ctxwr r a n) s = if !s.inX7 then _ else if (s.readG a).toNat / 8 ≠ 0 ∨ (s.readG a).toNat % 8 = 7 then _ else _ := rfl
  rw [e, hx, if_neg (by decide), if_pos ((operand_refused_iff _).2 h)]

variable (h : (s.readG a).toNat < 7)
include h

theorem ctxrd_in_range (n : BitVec 13) : exec (.ctxrd r a n) s =
    if !s.admissible (8 * s.myCore + (s.readG a).toNat) && n.toNat != 0x400 then trapNow s (Trap.limit (s.readG a))
    else commit s (s.writeG r (s.regRead (8 * s.myCore + (s.readG a).toNat) n.toNat)) 4 := by
  have e : exec (.ctxrd r a n) s = if !s.inX7 then _ else if (s.readG a).toNat / 8 ≠ 0 ∨ (s.readG a).toNat % 8 = 7 then _ else
    if !s.admissible (s.targetOf (s.readG a)) && n.toNat != 0x400 then _ else commit s (s.writeG r (s.regRead (s.targetOf (s.readG a)) n.toNat)) 4 := rfl
  rw [e, hx, if_neg (by decide), if_neg (fun hr => by have := (operand_refused_iff _).1 hr; omega), targetOf_eq s h]

theorem ctxwr_in_range (n : BitVec 13) : exec (.ctxwr r a n) s =
    if !s.admissible (8 * s.myCore + (s.readG a).toNat) then trapNow s (Trap.limit (s.readG a))
    else commit s (s.regWrite (8 * s.myCore + (s.readG a).toNat) n.toNat (s.readG r)) 4 := by
  have e : exec (.ctxwr r a n) s = if !s.inX7 then _ else if (s.readG a).toNat / 8 ≠ 0 ∨ (s.readG a).toNat % 8 = 7 then _ else
    if !s.admissible (s.targetOf (s.readG a)) then _ else commit s (s.regWrite (s.targetOf (s.readG a)) n.toNat (s.readG r)) 4 := rfl
  rw [e, hx, if_neg (by decide), if_neg (fun hr => by have := (operand_refused_iff _).1 hr; omega), targetOf_eq s h]

end

theorem lineWord_eq (v : Vec) (w : Nat) : lineWord v w = laneAt 64 v w := by
  apply BitVec.eq_of_toNat_eq
  rw [lineWord, laneAt, BitVec.toNat_setWidth, BitVec.toNat_ushiftRight, BitVec.extractLsb'_toNat]

theorem laneAt_setVecWord (v : Vec) (x : Word) {w k : Nat} (hk : k < 8) :
    laneAt 64 (setVecWord v w x) k = if k = w then x else laneAt 64 v k := by
  apply BitVec.eq_of_getLsbD_eq
  intro i hi
  have hb : 64 * k + i < 512 := by omega
  simp only [laneAt, setVecWord, BitVec.getLsbD_extractLsb', hi, decide_true, Bool.true_and, BitVec.getLsbD_or, BitVec.getLsbD_and,
    BitVec.getLsbD_not, BitVec.getLsbD_shiftLeft, BitVec.getLsbD_setWidth, BitVec.getLsbD_allOnes, hb]
  have hs : 64 * k + i - 64 * w < 512 := by omega
  by_cases e : k = w
  · subst e
    have h2 : i < 512 := by omega
    simp [hi, h2]
  · rw [if_neg e]
    rcases Nat.lt_or_ge (64 * k + i) (64 * w) with h | h
    · simp [h, hi, hb]
    · have h2 : 64 ≤ 64 * k + i - 64 * w := by omega
      simp [Nat.not_lt.2 h, Nat.not_lt.2 h2, BitVec.getLsbD_of_ge x _ h2, hi, hb]

theorem half_setHalf (m : BitVec 128) (x : Word) {w k : Nat} (hw : w < 2) (hk : k < 2) :
    (setHalf m (w % 2 == 1) x).extractLsb' (64 * k) 64 = if k = w then x else m.extractLsb' (64 * k) 64 := by
  apply BitVec.eq_of_getLsbD_eq
  intro i hi
  have h1 : 64 + i < 128 := by omega
  have h2 : i < 128 := by omega
  unfold setHalf
  obtain rfl | rfl : w = 0 ∨ w = 1 := by omega
  · obtain rfl | rfl : k = 0 ∨ k = 1 := by omega
    · simp [hi, h2]
    · simp [hi, h1]
  · obtain rfl | rfl : k = 0 ∨ k = 1 := by omega
    · simp [hi, h2]
    · simp [hi, h1]

/-! The registers by number. -/

section
variable (s : State) (c : Nat) (v : Word) {j w : Nat}

theorem regRead_g (h : j < 32) : s.regRead c j = (s.ctx c).getG j := if_pos h

theorem regWrite_g (h : j < 32) : s.regWrite c j v = s.modCtx c (fun x => x.setG j v) :=
  congrArg (s.modCtx c) (funext fun _ => if_pos h)

theorem regRead_v (hj : j < 32) (hw : w < 8) : s.regRead c (0x100 + 8 * j + w) = laneAt 64 ((s.ctx c).getV j) w := by
  have h1 : ¬ 0x100 + 8 * j + w < 0x20 := by omega
  have h2 : 0x100 ≤ 0x100 + 8 * j + w ∧ 0x100 + 8 * j + w < 0x200 := by omega
  rw [State.regRead, if_neg h1, if_pos h2, show (0x100 + 8 * j + w - 0x100) / 8 = j by omega,
    show (0x100 + 8 * j + w) % 8 = w by omega, lineWord_eq]

theorem regWrite_v (hj : j < 32) (hw : w < 8) : s.regWrite c (0x100 + 8 * j + w) v =
    s.modCtx c (fun x => x.setV j (setVecWord ((s.ctx c).getV j) w v)) := by
  have h1 : ¬ 0x100 + 8 * j + w < 0x20 := by omega
  have h2 : 0x100 ≤ 0x100 + 8 * j + w ∧ 0x100 + 8 * j + w < 0x200 := by omega
  unfold State.regWrite State.modCtx
  dsimp only
  rw [if_neg h1, if_pos h2, show (0x100 + 8 * j + w - 0x100) / 8 = j by omega, show (0x100 + 8 * j + w) % 8 = w by omega]

theorem regRead_p (h : j < 8) : s.regRead c (0x200 + j) = (s.ctx c).getP j := by
  have h1 : ¬ 0x200 + j < 0x20 := by omega
  have h2 : ¬ (0x100 ≤ 0x200 + j ∧ 0x200 + j < 0x200) := by omega
  rw [State.regRead, if_neg h1, if_neg h2, if_pos (by omega), Nat.add_sub_cancel_left]

theorem regWrite_p (h : j < 8) : s.regWrite c (0x200 + j) v = s.modCtx c (fun x => x.setP j v) := by
  have h1 : ¬ 0x200 + j < 0x20 := by omega
  have h2 : ¬ (0x100 ≤ 0x200 + j ∧ 0x200 + j < 0x200) := by omega
  unfold State.regWrite State.modCtx
  dsimp only
  rw [if_neg h1, if_neg h2, if_pos (by omega), Nat.add_sub_cancel_left]

theorem regRead_m (hc : isX7 c = false) (hj : j < 8) (hw : w < 2) :
    s.regRead c (0x210 + 2 * j + w) = ((s.ctx c).getM j).extractLsb' (64 * w) 64 := by
  have h1 : ¬ 0x210 + 2 * j + w < 0x20 := by omega
  have h2 : ¬ (0x100 ≤ 0x210 + 2 * j + w ∧ 0x210 + 2 * j + w < 0x200) := by omega
  have h3 : ¬ (0x200 ≤ 0x210 + 2 * j + w ∧ 0x210 + 2 * j + w < 0x208) := by omega
  rw [State.regRead, if_neg h1, if_neg h2, if_neg h3, if_pos (by omega), hc, if_neg (by decide),
    show (0x210 + 2 * j + w - 0x210) / 2 = j by omega, show (0x210 + 2 * j + w) % 2 = w by omega]
  apply BitVec.eq_of_toNat_eq
  rw [BitVec.toNat_setWidth, BitVec.toNat_ushiftRight, BitVec.extractLsb'_toNat]

theorem regWrite_m (hc : isX7 c = false) (hj : j < 8) (hw : w < 2) : s.regWrite c (0x210 + 2 * j + w) v =
    s.modCtx c (fun x => x.setM j (setHalf ((s.ctx c).getM j) (w % 2 == 1) v)) := by
  have h1 : ¬ 0x210 + 2 * j + w < 0x20 := by omega
  have h2 : ¬ (0x100 ≤ 0x210 + 2 * j + w ∧ 0x210 + 2 * j + w < 0x200) := by omega
  have h3 : ¬ (0x200 ≤ 0x210 + 2 * j + w ∧ 0x210 + 2 * j + w < 0x208) := by omega
  unfold State.regWrite State.modCtx
  dsimp only
  rw [if_neg h1, if_neg h2, if_neg h3, if_pos (by omega), hc, if_neg (by decide),
    show (0x210 + 2 * j + w - 0x210) / 2 = j by omega, show (0x210 + 2 * j + w) % 2 = w % 2 by omega]

end

/-- Settles O34: the operand's checks, then each register by its number. -/
theorem contextRegisterAccess : Obligations.ContextRegisterAccess := by
  intro r a s hx c x v free limit reads writes
  have hadm : s.admissible c = true ↔ free := admissible_iff s c
  have h13 : ∀ {n : Nat}, n < 8192 → (BitVec.ofNat 13 n).toNat = n := fun h => Nat.mod_eq_of_lt h
  refine ⟨fun h n => ⟨ctxrd_out_of_range hx r a h n, ctxwr_out_of_range hx r a h n⟩, fun h hf n => ?_, fun hc h => ?_, fun hc h hf => ?_⟩
  · have hna : (!s.admissible c) = true := by rw [Bool.eq_false_iff.2 (mt hadm.1 hf)]; rfl
    refine ⟨fun hn => ?_, ?_⟩
    · have hn' : (n.toNat != 0x400) = true := bne_iff_ne.2 fun e => hn (BitVec.eq_of_toNat_eq e)
      rw [ctxrd_in_range hx r a h n, if_pos (by rw [hna, hn']; rfl)]
      rfl
    · rw [ctxwr_in_range hx r a h n, if_pos hna]
      rfl
  · have e := ctxrd_in_range hx r a h (BitVec.ofNat 13 0x400)
    rw [if_neg (by simp)] at e
    exact e.trans (commit_clear hc _ 4)
  · have hx7 : isX7 c = false := by
      have : c % 8 ≠ 7 := by omega
      rw [isX7, beq_eq_false_iff_ne]
      exact this
    have rd : ∀ {n : Nat} {y : Word}, s.regRead c n = y → n < 8192 → reads n y := by
      intro n y hy hn
      have e := ctxrd_in_range hx r a h (BitVec.ofNat 13 n)
      rw [if_neg (by rw [hadm.2 hf]; exact Bool.false_ne_true), h13 hn, hy] at e
      exact e.trans (commit_clear hc _ 4)
    have wr : ∀ {n : Nat} {f : Context → Context}, s.regWrite c n v = s.modCtx c f → n < 8192 → writes n f := by
      intro n f hy hn
      have e := ctxwr_in_range hx r a h (BitVec.ofNat 13 n)
      rw [if_neg (by rw [hadm.2 hf]; decide), h13 hn, hy] at e
      exact e.trans (commit_clear hc _ 4)
    have rw' : ∀ {n : Nat} {y : Word} {f : Context → Context}, s.regRead c n = y → s.regWrite c n v = s.modCtx c f → n < 8192 →
        reads n y ∧ writes n f := fun h1 h2 h3 => ⟨rd h1 h3, wr h2 h3⟩
    refine ⟨fun j hj => rw' (regRead_g s c hj) (regWrite_g s c v hj) (by omega), fun j hj w hw => ?_,
      fun j hj => rw' (regRead_p s c hj) (regWrite_p s c v hj) (by omega), fun j hj w hw => ?_, ?_⟩
    · exact ⟨rd (regRead_v s c hj hw) (by omega), _, wr (regWrite_v s c v hj hw) (by omega), fun k hk => laneAt_setVecWord _ _ hk⟩
    · exact ⟨rd (regRead_m s c hx7 hj hw) (by omega), _, wr (regWrite_m s c v hx7 hj hw) (by omega), fun k hk => half_setHalf _ _ hw hk⟩
    · refine ⟨rd rfl (by decide), wr rfl (by decide), rd rfl (by decide), wr rfl (by decide), rd rfl (by decide), wr rfl (by decide),
        rd rfl (by decide), wr rfl (by decide), rd rfl (by decide), wr rfl (by decide), rd rfl (by decide), wr rfl (by decide),
        rd rfl (by decide), wr rfl (by decide), rd rfl (by decide), wr ?_ (by decide), rd rfl (by decide), wr rfl (by decide),
        rd rfl (by decide), wr rfl (by decide), rd rfl (by decide), wr rfl (by decide), rd rfl (by decide), wr rfl (by decide),
        rd rfl (by decide), wr rfl (by decide), rd rfl (by decide), rd rfl (by decide), rd rfl (by decide), rd rfl (by decide),
        rd rfl (by decide), fun n hn => ?_⟩
      · rw [← shiftRight_setWidth_eq]
        rfl
      · simp only [List.mem_cons, List.not_mem_nil, or_false] at hn
        rcases hn with rfl | rfl | rfl | rfl | rfl | rfl <;> exact wr rfl (by decide)

end Sys2Proof.Machine
end

section
/-! PROOFS. How instructions with accesses end: states that stand at the same instruction under the same breakpoints and
watchpoints; fences and acquires (O25), translation and alignment (O20), stores (O22). -/

namespace Sys2Proof.Machine

/-- The context in turn stands at the same instruction in both states, and its core has the same breakpoints and
watchpoints: what matches in one matches in the other (R376). -/
structure SameSpot (s t : State) : Prop where
  cur : t.cur = s.cur
  pc : (t.ctx s.cur).pc = (s.ctx s.cur).pc
  bp : (t.core (coreOf s.cur)).bp = (s.core (coreOf s.cur)).bp
  wpa : (t.core (coreOf s.cur)).wpa = (s.core (coreOf s.cur)).wpa
  wpb : (t.core (coreOf s.cur)).wpb = (s.core (coreOf s.cur)).wpb

theorem SameSpot.refl (s : State) : SameSpot s s := ⟨rfl, rfl, rfl, rfl, rfl⟩

theorem SameSpot.trans {s t u : State} (h : SameSpot s t) (g : SameSpot t u) : SameSpot s u where
  cur := g.cur.trans h.cur
  pc := by rw [← h.pc, ← h.cur, g.pc]
  bp := by rw [← h.bp, ← h.cur, g.bp]
  wpa := by rw [← h.wpa, ← h.cur, g.wpa]
  wpb := by rw [← h.wpb, ← h.cur, g.wpb]

theorem Apart.sameSpot {s t : State} (h : Apart s t) : SameSpot s t := by
  obtain ⟨w, hw⟩ := h.super s.cur
  obtain ⟨q, l, b, v, hk⟩ := h.core (coreOf s.cur)
  exact ⟨h.cur, by rw [hw], by rw [hk], by rw [hk], by rw [hk]⟩

theorem SameSpot.matchOf {s t : State} (h : SameSpot s t) (accs : List Acc) : t.matchOf accs = s.matchOf accs :=
  matchOf_congr h.cur h.pc h.bp h.wpa h.wpb accs

theorem SameSpot.pc_eq {s t : State} (h : SameSpot s t) : t.pc = s.pc := by
  unfold State.pc State.me
  rw [h.cur, h.pc]

/-- Registers of the context in turn, but not its PC, may change. -/
theorem sameSpot_modMe (s : State) {f : Context → Context} (h : (f s.me).pc = s.me.pc) : SameSpot s (s.modMe f) where
  cur := rfl
  pc := by rw [State.modMe, ctx_modCtx_same]; exact h
  bp := rfl
  wpa := rfl
  wpb := rfl

theorem sameSpot_writeG (s : State) (d : Reg) (v : Word) : SameSpot s (s.writeG d v) := sameSpot_modMe s (setG_pc _ _ _)

/-- The store buffer of a core may change. -/
theorem sameSpot_modCore (s : State) (k : Nat) {f : Core → Core} (hb : ∀ c, (f c).bp = c.bp) (ha : ∀ c, (f c).wpa = c.wpa)
    (hw : ∀ c, (f c).wpb = c.wpb) : SameSpot s (s.modCore k f) where
  cur := rfl
  pc := rfl
  bp := by rw [core_modCore]; split <;> simp_all
  wpa := by rw [core_modCore]; split <;> simp_all
  wpb := by rw [core_modCore]; split <;> simp_all

theorem sameSpot_noted (s : State) (a : Acc) : SameSpot s (s.noted a) := ⟨rfl, rfl, rfl, rfl, rfl⟩

/-- Nothing matches where the instruction stands as it did in a state that lets it run to its end. -/
theorem SameSpot.free {s t : State} (h : SameSpot s t) (hf : Free s) (accs : List Acc) : t.matchOf accs = none :=
  (h.matchOf accs).trans (matchOf_none hf.1 hf.2.1 accs)

/-- An instruction that ends well retires, with what it made. -/
theorem runAct_retires {s t : State} (hf : Free s) (n : Nat) {m : Act Unit} (hm : m s = .ok () t) (h : SameSpot s t) :
    runAct s n m = .next (({ t with accs := [] } : State).retireTo (s.pc + BitVec.ofNat 64 n)) := by
  rw [runAct_ok (t := t) (by rw [accs_nil hf.2.2]; exact hm) (h.free hf _), State.retire]
  have hp : ({ t with accs := [] } : State).pc = s.pc := h.pc_eq
  rw [hp]

/-! Fences. -/

theorem releaseWait_narrow {s : State} (h : Settled s) {sc : Scope} (h1 : sc ≠ .pkg) (h2 : sc ≠ .sys) : s.releaseWait s.cur sc = s :=
  releaseWait_settled h sc ⟨h1, h2⟩

theorem acquireAt_narrow (s : State) (cl : Nat) {sc : Scope} (h1 : sc ≠ .pkg) (h2 : sc ≠ .sys) : s.acquireAt cl sc = s := by
  cases sc <;> first | rfl | contradiction

theorem acquireAt_wide (s : State) (cl : Nat) {sc : Scope} (h : sc = .pkg ∨ sc = .sys) : s.acquireAt cl sc = s.discardU cl := by
  rcases h with rfl | rfl <;> rfl

theorem releases_iff (o : Order) : (releases o = true) = (o = .rel ∨ o = .ar) := by cases o <;> simp [releases]

theorem acquires_iff (o : Order) : (acquires o = true) = (o = .acq ∨ o = .ar) := by cases o <;> simp [acquires]

/-- What a fence leaves before it retires. -/
def State.fenceEffect (s : State) (ord : Order) (sc : Scope) : State :=
  let u := if releases ord then (s.releaseWait s.cur sc).modMe (fun x => { x with fenced := widest x.fenced (some sc) }) else s
  if acquires ord then u.acquireAt u.myCluster sc else u

theorem fence_sameSpot {s : State} (hs : Settled s) (ord : Order) (sc : Scope) : SameSpot s (s.fenceEffect ord sc) := by
  unfold State.fenceEffect
  dsimp only
  have h1 : SameSpot s (if releases ord then (s.releaseWait s.cur sc).modMe (fun x => { x with fenced := widest x.fenced (some sc) }) else s) := by
    split
    · exact (releaseWait_apart hs sc).sameSpot.trans (sameSpot_modMe _ rfl)
    · exact SameSpot.refl s
  split
  · exact h1.trans (acquireAt_apart _ _ _).sameSpot
  · exact h1

theorem fence_accs {s : State} (hs : Settled s) (ord : Order) (sc : Scope) : (s.fenceEffect ord sc).accs = s.accs := by
  unfold State.fenceEffect
  dsimp only
  have h1 : (if releases ord then (s.releaseWait s.cur sc).modMe (fun x => { x with fenced := widest x.fenced (some sc) }) else s).accs = s.accs := by
    split
    · exact (releaseWait_apart hs sc).accs
    · rfl
  split
  · exact (acquireAt_apart _ _ _).accs.trans h1
  · exact h1

theorem fence_retires {s : State} (hf : Free s) (hs : Settled s) (ord : Order) (sc : Scope) :
    exec (.fence ord sc) s = .next ((s.fenceEffect ord sc).retireTo (s.pc + 4)) := by
  have hspot := fence_sameSpot hs ord sc
  have hrun := runAct_retires (t := s.fenceEffect ord sc) (m := guarded (do
    modify (fun t => if releases ord then
      (t.releaseWait t.cur sc).modMe (fun x => { x with fenced := widest x.fenced (some sc) }) else t)
    modify (fun t => if acquires ord then t.acquireAt t.myCluster sc else t))) hf 4 (guarded_ok rfl (hspot.free hf _)) hspot
  rw [accs_nil ((fence_accs hs ord sc).trans hf.2.2)] at hrun
  exact hrun

/-- Settles O25: a fence by what it leaves before it retires; an acquire by its U words. -/
theorem fencesAndAcquires : Obligations.FencesAndAcquires := by
  refine fun s sc cl => ⟨fun hf hs ord => ?_, fun hs h1 h2 => ⟨releaseWait_narrow hs h1 h2, acquireAt_narrow s cl h1 h2⟩, fun h => ?_⟩
  · rw [fence_retires hf hs ord sc, State.fenceEffect]
    simp only [releases_iff, acquires_iff]
    have hc : ∀ u : State, u.cur = s.cur → u.myCluster = s.myCluster := fun u hu => congrArg clusterOf hu
    rw [hc]
    split
    · exact (releaseWait_apart hs sc).cur
    · rfl
  · rw [acquireAt_wide s cl h]
    exact ⟨fun pa => discardU_noU s cl pa, discardU_mem s cl, discardU_ctxs s cl⟩

end Sys2Proof.Machine
end

section
/-! PROOFS. Translation and misaligned accesses (O20), and stores up to their retirement (O22). -/

namespace Sys2Proof.Machine

/-! Translation and alignment. -/

/-- An address that the mode of addressing excludes raises PROTECTION (R262, R304). -/
theorem xlate_outside {s : State} {va : Word} (kind : AccessKind) (pol : Option Pol)
    (h : if s.space.phys then 2 ^ 52 ≤ va.toNat else canonical va = false) :
    xlate va kind pol s = .error (.trap (Trap.of .protection va (detailOf kind.code (polCode pol) false false false 0 0))) s := by
  show translate s.space va kind pol 0 s = _
  unfold translate
  cases hp : s.space.phys
  · rw [hp] at h
    simp only [show canonical va = false from h, Bool.not_false, if_true, Bool.false_eq_true, if_false]
    exact bind_error rfl
  · rw [hp] at h
    have hne : va.toNat / 2 ^ 52 ≠ 0 := (Nat.div_pos h (by positivity)).ne'
    simp only [if_true, hne, ne_eq, not_false_eq_true]
    exact bind_error rfl

theorem aligned_error {s : State} {va : Word} {n : Nat} (h : va.toNat % n ≠ 0) (kind : AccessKind) (pol : Option Pol) :
    aligned va n kind pol s = .error (.trap (Trap.of .misaligned va (detailOf kind.code (polCode pol) false false false 0 0))) s := by
  have hb : (va.toNat % n != 0) = true := bne_iff_ne.2 h
  rw [aligned, trapIf, hb, if_pos rfl]
  rfl

/-- An instruction whose computation ends in a trap before it changed anything takes it in the state it began in. -/
theorem runAct_traps {s : State} (ha : s.accs = []) (n : Nat) {m : Act Unit} {t : Trap} (h : m s = .error (.trap t) s) :
    runAct s n m = .next (s.takeTrap s.cur t s.ir0 s.ir1) := by
  have e : ({ s with accs := [] } : State) = s := accs_nil ha
  have hr : s.restoreMe s = ({ s with accs := [] } : State).restoreMe s := by rw [e]
  rw [runAct_trap (t := s) (by rw [e]; exact h), hr, restoreMe_takeTrap s [] t _ _ ha]

theorem loadReg_misaligned {s : State} {va : Word} {z : BitVec 2} (h : va.toNat % 2 ^ z.toNat ≠ 0) (d : Reg) (x : Bool) (pol : Pol)
    (ord : Order) (sc : Scope) : loadReg d va z x pol ord sc s =
      .error (.trap (Trap.of .misaligned va (detailOf 0 pol.code false false false 0 0))) s := by
  refine bind_error (bind_error ?_)
  exact aligned_error h .read (some pol)

theorem storeReg_misaligned {s : State} {va : Word} {z : BitVec 2} (h : va.toNat % 2 ^ z.toNat ≠ 0) (t : Reg) (pol : Pol)
    (ord : Order) (sc : Scope) : storeReg t va z pol ord sc s =
      .error (.trap (Trap.of .misaligned va (detailOf 1 pol.code false false false 0 0))) s :=
  bind_error (aligned_error h .write (some pol))

theorem atomicReg_misaligned {s : State} (ha : s.accs = []) {b : Reg} {w : Bool} (h : (s.readG b).toNat % (if w then 8 else 4) ≠ 0)
    (op : AmoOp) (d : Reg) (pol : Pol) (ord : Order) (sc : Scope) (v : Reg) : atomicReg op d b pol ord sc v w s =
      .next (s.takeTrap s.cur (Trap.of .misaligned (s.readG b) (detailOf 2 pol.code false false false 0 0)) s.ir0 s.ir1) := by
  refine runAct_traps ha 4 (bind_error (bind_error ?_))
  exact aligned_error h .atomic (some pol)

/-- Settles O20: translation by its first branches, misaligned accesses by their first check. -/
theorem translationAndAlignment : Obligations.TranslationAndAlignment := by
  refine ⟨fun s va kind pol => ⟨fun pa h => xlate_maps h, xlate_outside kind pol⟩, fun s pol ord sc d b i x c ha => ⟨?_, ?_, ?_⟩⟩
  · intro z off va h
    exact ⟨runAct_traps ha 4 (loadReg_misaligned h d x pol ord sc), runAct_traps ha 4 (storeReg_misaligned h d pol ord sc)⟩
  · intro z va h
    exact ⟨runAct_traps ha 4 (loadReg_misaligned h d x pol ord sc), runAct_traps ha 4 (storeReg_misaligned h d pol ord sc)⟩
  · intro h a hm
    have e := fun op => atomicReg_misaligned ha h op d pol ord sc i
    simp only [List.mem_cons, List.not_mem_nil, or_false] at hm
    rcases hm with rfl | rfl | rfl | rfl | rfl | rfl | rfl | rfl | rfl | rfl
    · exact e .add
    · exact e .and
    · exact e .or
    · exact e .xor
    · exact e .min
    · exact e .max
    · exact e .minn
    · exact e .maxn
    · exact e .swap
    · exact e .cas

/-! Stores. -/

/-- A store's entry in its core's store buffer. -/
def State.pendingStore (s : State) (pa n : Nat) (x : Word) (pol : Pol) (rel : Option Scope) : PendingStore :=
  { ctx := s.cur, tcb := s.me.tcb, tno := s.me.tno, pc := s.pc, pa := pa, n := n, data := x, pol := pol, rel := rel }

theorem queuePending_eq (s : State) (pa n : Nat) (x : Word) (pol : Pol) (rel : Option Scope) :
    s.queuePending pa n x pol rel = s.modCore s.myCore (fun k => { k with sbuf := k.sbuf ++ [s.pendingStore pa n x pol rel] }) := rfl

/-- What a store reads of its context is the same where only the memory system changed. -/
theorem apart_store {s t : State} (h : Apart s t) : t.me.tcb = s.me.tcb ∧ t.me.tno = s.me.tno ∧ t.me.fenced = s.me.fenced ∧
    ∀ r, t.readG r = s.readG r := by
  have hm : ∃ w, t.me = { s.me with inwfm := w } := by
    unfold State.me
    rw [h.cur]
    exact h.super s.cur
  obtain ⟨w, hw⟩ := hm
  exact ⟨by rw [hw], by rw [hw], by rw [hw], fun r => by unfold State.readG; rw [hw]; rfl⟩

theorem pendingStore_apart {s t : State} (h : Apart s t) (pa n : Nat) (x : Word) (pol : Pol) (rel : Option Scope) :
    t.pendingStore pa n x pol rel = s.pendingStore pa n x pol rel := by
  obtain ⟨h1, h2, -, -⟩ := apart_store h
  rw [State.pendingStore, State.pendingStore, h.cur, h1, h2, apart_pc h]

theorem relOf_apart {s t : State} (h : Apart s t) (ord : Order) (sc : Scope) : t.relOf ord sc = s.relOf ord sc := by
  rw [State.relOf, State.relOf, (apart_store h).2.2.1]

theorem waitRelease_apart {s : State} {ord : Order} {sc : Scope} (h : s.relOf ord sc ≠ none → Settled s) :
    Apart s (s.waitRelease ord sc) := by
  unfold State.waitRelease
  cases hr : s.relOf ord sc with
  | none => exact Apart.refl s
  | some w => exact releaseWait_apart (h (by rw [hr]; simp)) w

/-- A store that nothing stops is left at the end of its core's store buffer, after the wait of its release. -/
theorem storeReg_queues {s : State} {t : Reg} {va : Word} {pa : Nat} {z : BitVec 2} {pol : Pol} {ord : Order} {sc : Scope} (hf : Free s)
    (hs : s.relOf ord sc ≠ none → Settled s) (ha : va.toNat % 2 ^ z.toNat = 0) (hm : Maps s va .write (some pol) pa)
    (hd : isDevice pa = false) :
    runAct s 4 (storeReg t va z pol ord sc) = .next (((s.waitRelease ord sc).modCore s.myCore (fun k => { k with sbuf := k.sbuf ++
      [s.pendingStore pa (2 ^ z.toNat) (BitVec.ofNat 64 ((s.readG t).toNat % 2 ^ (8 * 2 ^ z.toNat))) pol (s.relOf ord sc)] })).retireTo
        (s.pc + 4)) := by
  have hu := waitRelease_apart hs
  generalize hue : s.waitRelease ord sc = u at hu
  let a : Acc := { va := va, n := 2 ^ z.toNat, pol := some pol, rd := false, wr := true, lane := 0, device := isDevice pa }
  let x := BitVec.ofNat 64 ((s.readG t).toNat % 2 ^ (8 * 2 ^ z.toNat))
  let queued := fun w : State => w.modCore s.myCore (fun k => { k with sbuf := k.sbuf ++
    [s.pendingStore pa (2 ^ z.toNat) x pol (s.relOf ord sc)] })
  have hspot : SameSpot s (queued (u.noted a)) :=
    (hu.sameSpot.trans (sameSpot_noted u a)).trans (sameSpot_modCore _ _ (fun _ => rfl) (fun _ => rfl) fun _ => rfl)
  have hq : (u.noted a).queuePending pa (2 ^ z.toNat) (BitVec.ofNat 64 (((u.noted a).readG t).toNat % 2 ^ (8 * 2 ^ z.toNat))) pol
      ((u.noted a).relOf ord sc) = queued (u.noted a) := by
    have hr : (u.noted a).readG t = s.readG t := (apart_store hu).2.2.2 t
    have hrel : (u.noted a).relOf ord sc = s.relOf ord sc := relOf_apart hu ord sc
    have hp : (u.noted a).pendingStore pa (2 ^ z.toNat) x pol (s.relOf ord sc) = s.pendingStore pa (2 ^ z.toNat) x pol (s.relOf ord sc) :=
      pendingStore_apart hu _ _ _ _ _
    have hc : (u.noted a).myCore = s.myCore := congrArg coreOf hu.cur
    rw [queuePending_eq, hr, hrel, hp, hc]
  have hrun : storeReg t va z pol ord sc s = .ok () (queued (u.noted a)) := by
    unfold storeReg
    rw [bind_ok (aligned_ok ha _ _), bind_ok (xlate_maps hm), bind_ok (devCheck_ok hd _ _), bind_ok (t := u) (a := ()) (by rw [← hue]; rfl),
      bind_ok (note_ok u va (2 ^ z.toNat) (some pol) false true 0 (isDevice pa))]
    refine guarded_ok ?_ (hspot.free hf _)
    rw [modify_ok, hq]
  have h := runAct_retires hf 4 hrun hspot
  have hacc : ({ queued (u.noted a) with accs := [] } : State) = queued u := by
    have h0 : u.accs = [] := hu.accs.trans hf.2.2
    show ({ queued u with accs := [] } : State) = queued u
    exact accs_nil h0
  rw [hacc] at h
  exact h

/-- Settles O22. -/
theorem storesEnterTheStoreBuffer : Obligations.StoresEnterTheStoreBuffer := by
  intro t b pol ord sc z s va pa hf hs ha hm hd u p done
  have hrun := storeReg_queues (t := t) hf hs ha hm hd
  refine ⟨?_, fun off hva => ?_, fun i c hva => ?_⟩
  · unfold State.relOf
    split <;> rfl
  · subst hva
    exact hrun
  · subst hva
    exact hrun

end Sys2Proof.Machine
end

section
/-! PROOFS. Words of memory and of directories: what a word written reads back, and what changing one entry of a directory
leaves of the owners that it names. -/

namespace Sys2Proof.Machine

/-! Words of memory. -/

theorem leBytes_length : ∀ n x, (leBytes x n).length = n
  | 0, _ => rfl
  | n + 1, x => by rw [leBytes, List.length_cons, leBytes_length n]

theorem leValue_leBytes : ∀ n x, leValue (leBytes x n) = x % 256 ^ n
  | 0, x => by simp [leBytes, leValue, Nat.mod_one]
  | n + 1, x => by
    have h : x % 256 ^ (n + 1) = x % 256 + 256 * (x / 256 % 256 ^ n) := by rw [Nat.pow_succ', Nat.mod_mul]
    rw [leBytes, leValue, leValue_leBytes n, h]
    rfl

theorem memBytes_memPuts_inside (bs : List (BitVec 8)) {m : List Host.Cell} (a : Nat) (h : Memory.wf m = true) :
    memBytes (memPuts m a bs) a bs.length = bs := by
  have key : ∀ (n k : Nat), k + n = bs.length → memBytes (memPuts m a bs) (a + k) n = bs.drop k := by
    intro n
    induction n with
    | zero => intro k hk; rw [List.drop_eq_nil_of_le (by omega)]; rfl
    | succ n ih =>
      intro k hk
      rw [memBytes, memByte_memPuts_inside bs a k h (by omega), Nat.add_assoc, ih (k + 1) (by omega)]
      exact (List.drop_eq_getElem_cons (by omega)).symm
  simpa using key bs.length 0 (by omega)

theorem memBytes_congr {m m' : List Host.Cell} : ∀ (n a : Nat), (∀ q, a ≤ q → q < a + n → memByte m' q = memByte m q) →
    memBytes m' a n = memBytes m a n
  | 0, _, _ => rfl
  | n + 1, a, h => by
    rw [memBytes, memBytes, h a le_rfl (by omega), memBytes_congr n (a + 1) fun q h1 h2 => h q (by omega) (by omega)]

theorem memWord_congr {m m' : List Host.Cell} {a : Nat} (h : ∀ q, a ≤ q → q < a + 8 → memByte m' q = memByte m q) :
    memWord m' a = memWord m a := by
  rw [memWord, memWord, memBytes_congr 8 a h]

/-- A word written reads back. -/
theorem memWord_memPutWord {m : List Host.Cell} (h : Memory.wf m = true) (a : Nat) (x : Word) : memWord (memPutWord m a x) a = x := by
  have hb := memBytes_memPuts_inside (leBytes x.toNat 8) a h
  rw [leBytes_length] at hb
  rw [memWord, memPutWord, hb, leValue_leBytes]
  apply BitVec.eq_of_toNat_eq
  rw [BitVec.toNat_ofNat]
  have := x.isLt
  omega

/-- Every byte outside a word that is written stays. -/
theorem memByte_memPutWord {m : List Host.Cell} (h : Memory.wf m = true) {a q : Nat} (x : Word) (hq : q < a ∨ a + 8 ≤ q) :
    memByte (memPutWord m a x) q = memByte m q :=
  memByte_memPuts_outside _ a q h (by rw [leBytes_length]; exact hq)

/-- Every word apart from one that is written stays. -/
theorem memWord_memPutWord_apart {m : List Host.Cell} (h : Memory.wf m = true) {a q : Nat} (x : Word) (hq : q + 8 ≤ a ∨ a + 8 ≤ q) :
    memWord (memPutWord m a x) q = memWord m q :=
  memWord_congr fun p h1 h2 => memByte_memPutWord h x (by omega)

theorem mergeWord_full (old x : Word) : mergeWord old x 255#8 = x := by
  have h : BitVec.ofNat 64 (spread 255#8 8) = BitVec.allOnes 64 := by decide
  simp only [mergeWord, h, BitVec.not_allOnes, BitVec.and_zero, BitVec.zero_or, BitVec.and_allOnes]

/-! Addresses of words and lines. -/

theorem lineOf_mod (a : Nat) : lineOf a % 64 = 0 := by unfold lineOf; omega

theorem lineOf_add {line w : Nat} (hl : line % 64 = 0) (hw : w < 8) : lineOf (line + 8 * w) = line := by unfold lineOf; omega

theorem wordIx_add {line w : Nat} (hl : line % 64 = 0) (hw : w < 8) : wordIx (line + 8 * w) = w := by unfold wordIx; omega

theorem wordIx_lt (a : Nat) : wordIx a < 8 := Nat.mod_lt _ (by decide)

theorem lineOf_wordIx (a : Nat) : lineOf a + 8 * wordIx a = wordOf a := by unfold lineOf wordIx wordOf; omega

theorem lineOf_wordOf (a : Nat) : lineOf (wordOf a) = lineOf a := by unfold lineOf wordOf; omega

theorem wordIx_wordOf (a : Nat) : wordIx (wordOf a) = wordIx a := by unfold wordIx wordOf; omega

theorem wordOf_wordOf (a : Nat) : wordOf (wordOf a) = wordOf a := by unfold wordOf; omega

theorem sockOf_lineOf (a : Nat) : sockOf (lineOf a) = sockOf a := by unfold sockOf lineOf; omega

theorem sockOf_wordOf (a : Nat) : sockOf (wordOf a) = sockOf a := by unfold sockOf wordOf; omega

/-! One entry of a directory changed. -/

theorem free_iff (e : DirEntry) : e.free = true ↔ e.sharers = [] ∧ e.owners = [] ∧ e.pmk = none := by
  simp [DirEntry.free, and_assoc]

/-- What an entry tracks after a change of one: that of the line changed as changed, but for the stamp of a freed one. -/
theorem tget_modEntry_same (t : Tbl DirEntry) (k : Nat) (f : DirEntry → DirEntry) :
    tget (modEntry t k f) k DirEntry.absent = if (f (tget t k DirEntry.absent)).free then DirEntry.absent else f (tget t k DirEntry.absent) := by
  unfold modEntry
  dsimp only
  split
  · rw [tget_tdel, if_pos rfl]
  · rw [tget_tset, if_pos rfl]

theorem tget_modEntry_other (t : Tbl DirEntry) {k j : Nat} (h : j ≠ k) (f : DirEntry → DirEntry) :
    tget (modEntry t k f) j DirEntry.absent = tget t j DirEntry.absent := by
  unfold modEntry
  dsimp only
  split
  · rw [tget_tdel, if_neg h]
  · rw [tget_tset, if_neg h]

theorem owners_modEntry (t : Tbl DirEntry) (k j : Nat) (f : DirEntry → DirEntry) :
    (tget (modEntry t k f) j DirEntry.absent).owners = if j = k then (f (tget t k DirEntry.absent)).owners else (tget t j DirEntry.absent).owners := by
  by_cases h : j = k
  · subst h
    rw [if_pos rfl, tget_modEntry_same]
    split
    · next hf => rw [((free_iff _).1 hf).2.1]; rfl
    · rfl
  · rw [if_neg h, tget_modEntry_other t h]

theorem sharers_modEntry (t : Tbl DirEntry) (k j : Nat) (f : DirEntry → DirEntry) :
    (tget (modEntry t k f) j DirEntry.absent).sharers = if j = k then (f (tget t k DirEntry.absent)).sharers else (tget t j DirEntry.absent).sharers := by
  by_cases h : j = k
  · subst h
    rw [if_pos rfl, tget_modEntry_same]
    split
    · next hf => rw [((free_iff _).1 hf).1]; rfl
    · rfl
  · rw [if_neg h, tget_modEntry_other t h]

theorem pmk_modEntry (t : Tbl DirEntry) (k j : Nat) (f : DirEntry → DirEntry) :
    (tget (modEntry t k f) j DirEntry.absent).pmk = if j = k then (f (tget t k DirEntry.absent)).pmk else (tget t j DirEntry.absent).pmk := by
  by_cases h : j = k
  · subst h
    rw [if_pos rfl, tget_modEntry_same]
    split
    · next hf => rw [((free_iff _).1 hf).2.2]; rfl
    · rfl
  · rw [if_neg h, tget_modEntry_other t h]

/-- Two states name the same owner of a word where their directories and proxies name the same owners of its line. -/
theorem ownerOf_congr {s t : State} {pa : Nat} (hd : (t.dirOf (lineOf pa)).owners = (s.dirOf (lineOf pa)).owners)
    (hp : ∀ k, (t.proxyOf k (lineOf pa)).owners = (s.proxyOf k (lineOf pa)).owners) : t.ownerOf pa = s.ownerOf pa := by
  unfold State.ownerOf
  rw [hd]
  simp only [hp]

/-- The owner of an address is that of its word. -/
theorem ownerOf_wordOf (s : State) (pa : Nat) : s.ownerOf (wordOf pa) = s.ownerOf pa := by
  unfold State.ownerOf
  rw [lineOf_wordOf, wordIx_wordOf, sockOf_wordOf]

/-- The owners that a directory and its proxies name, line by line. -/
structure SameOwners (s t : State) : Prop where
  dir : ∀ l, (t.dirOf l).owners = (s.dirOf l).owners
  proxy : ∀ k l, (t.proxyOf k l).owners = (s.proxyOf k l).owners

theorem SameOwners.refl (s : State) : SameOwners s s := ⟨fun _ => rfl, fun _ _ => rfl⟩

theorem SameOwners.trans {s t u : State} (h : SameOwners s t) (g : SameOwners t u) : SameOwners s u :=
  ⟨fun l => (g.dir l).trans (h.dir l), fun k l => (g.proxy k l).trans (h.proxy k l)⟩

theorem SameOwners.ownerOf {s t : State} (h : SameOwners s t) (pa : Nat) : t.ownerOf pa = s.ownerOf pa :=
  ownerOf_congr (h.dir _) fun _ => h.proxy _ _

theorem sameOwners_modDir (s : State) (l : Nat) {f : DirEntry → DirEntry} (h : ∀ e, (f e).owners = e.owners) : SameOwners s (s.modDir l f) where
  dir := fun j => by
    refine (owners_modEntry s.dir l j f).trans ?_
    split
    · next e => rw [h, e]; rfl
    · rfl
  proxy := fun _ _ => rfl

theorem sameOwners_modProxy (s : State) (k l : Nat) {f : DirEntry → DirEntry} (h : ∀ e, (f e).owners = e.owners) :
    SameOwners s (s.modProxy k l f) where
  dir := fun _ => rfl
  proxy := fun j q => by
    refine (owners_modEntry s.proxies (proxyKey k l) (proxyKey j q) f).trans ?_
    split
    · next e => rw [h, ← e]; rfl
    · rfl

theorem tfind_tdel {α : Type} (t : Tbl α) (q r : Nat) : tfind (tdel t q) r = if r = q then none else tfind t r := by
  unfold tdel
  induction t with
  | nil => simp [tfind]
  | cons e t ih =>
    obtain ⟨k, v⟩ := e
    rw [List.filter_cons]
    by_cases hk : k = q
    · subst hk
      simp only [bne_self_eq_false, Bool.false_eq_true, if_false, ih, tfind]
      by_cases hr : r = k
      · simp [hr]
      · simp [hr, Ne.symm hr]
    · simp only [bne_iff_ne, ne_eq, hk, not_false_eq_true, if_true, tfind, ih]
      by_cases hr : k = r
      · subst hr; simp [hk]
      · simp [hr]

/-- A word whose owner is dropped is H (R115). -/
theorem ownerOf_dropOwner (s : State) (pa : Nat) : (s.dropOwner pa).ownerOf pa = none := by
  have hd : ∀ t : State, tfind ((t.modDir (lineOf pa) (fun e => { e with owners := tdel e.owners (wordIx pa) })).dirOf (lineOf pa)).owners (wordIx pa) = none := by
    intro t
    have := owners_modEntry t.dir (lineOf pa) (lineOf pa) (fun e => { e with owners := tdel e.owners (wordIx pa) })
    rw [if_pos rfl] at this
    refine (congrArg (fun o => tfind o (wordIx pa)) this).trans ?_
    exact (tfind_tdel _ _ _).trans (if_pos rfl)
  unfold State.ownerOf State.dropOwner
  dsimp only
  rw [hd]

end Sys2Proof.Machine
end

section
/-! PROOFS. A home's transitions for a word that no other cluster owns, where no message is under way and no error stands in the
word (R119): one equation per kind of request; and what a service does before and after them. -/

namespace Sys2Proof.Machine

variable {s t : State}

/-! What units record, and what a cluster's port does, leaves the words and their directories alone. -/

/-- Caches, messages under way, slice caches, packages and fuses are the same. -/
structure Around (s t : State) : Prop where
  flights : t.flights = s.flights
  slc : t.slc = s.slc
  pkgs : t.pkgs = s.pkgs
  fuses : t.fuses = s.fuses
  clc : ∀ c, (t.cluster c).clc = (s.cluster c).clc

theorem Around.refl (s : State) : Around s s := ⟨rfl, rfl, rfl, rfl, fun _ => rfl⟩

theorem Around.trans {u : State} (h : Around s t) (g : Around t u) : Around s u :=
  ⟨g.flights.trans h.flights, g.slc.trans h.slc, g.pkgs.trans h.pkgs, g.fuses.trans h.fuses, fun c => (g.clc c).trans (h.clc c)⟩

theorem Around.clLine (h : Around s t) (c l : Nat) : t.clLine c l = s.clLine c l := by
  rw [State.clLine, State.clLine, h.clc]

theorem Around.clWord (h : Around s t) (c pa : Nat) : t.clWord c pa = s.clWord c pa := by
  rw [State.clWord, State.clWord, h.clLine]

theorem Around.pkg (h : Around s t) (k : Nat) : t.pkg k = s.pkg k := by
  rw [State.pkg, State.pkg, h.pkgs]

theorem Around.joined (h : Around s t) (a b : Nat) : t.joined a b = s.joined a b := by
  unfold State.joined State.fusesOf
  rw [h.pkgs, h.fuses]

/-- Memory, its errors, directories and proxies are the same as well. -/
structure Still (s t : State) : Prop extends Around s t where
  mem : t.mem = s.mem
  errs : t.errs = s.errs
  dir : t.dir = s.dir
  proxies : t.proxies = s.proxies

theorem Still.refl (s : State) : Still s s := { Around.refl s with mem := rfl, errs := rfl, dir := rfl, proxies := rfl }

theorem Still.trans {u : State} (h : Still s t) (g : Still t u) : Still s u :=
  { h.toAround.trans g.toAround with
    mem := g.mem.trans h.mem, errs := g.errs.trans h.errs, dir := g.dir.trans h.dir, proxies := g.proxies.trans h.proxies }

theorem Still.dirOf (h : Still s t) (l : Nat) : t.dirOf l = s.dirOf l := by rw [State.dirOf, State.dirOf, h.dir]

theorem Still.proxyOf (h : Still s t) (k l : Nat) : t.proxyOf k l = s.proxyOf k l := by rw [State.proxyOf, State.proxyOf, h.proxies]

theorem Still.sameOwners (h : Still s t) : SameOwners s t := ⟨fun l => by rw [h.dirOf], fun k l => by rw [h.proxyOf]⟩

theorem Still.ownerOf (h : Still s t) (pa : Nat) : t.ownerOf pa = s.ownerOf pa := h.sameOwners.ownerOf pa

theorem quiet_still (s : State) : Quiet (Still s) where
  records := fun _ _ _ _ _ h => { h with mem := h.mem }

theorem Noted.still (h : Noted s t) : Still s t := by
  obtain ⟨a, b, c, d, rfl⟩ := h
  exact (quiet_still s).records _ _ _ _ _ (Still.refl s)

theorem still_modCluster (s : State) (n : Nat) {f : Cluster → Cluster} (h : ∀ c, (f c).clc = c.clc) : Still s (s.modCluster n f) :=
  { Still.refl s with
    clc := fun c => by
      rw [cluster_modCluster]
      split
      · next e => rw [h, e]
      · rfl }

/-! Computations in sequence. -/

section
variable {ε β : Type}

theorem get_bind (k : State → EStateM ε State β) : ((get : EStateM ε State State) >>= k) s = k s s := rfl

theorem modify_bind (f : State → State) (k : PUnit → EStateM ε State β) : ((modify f : EStateM ε State PUnit) >>= k) s = k () (f s) := rfl

theorem set_bind (k : PUnit → EStateM ε State β) : ((set t : EStateM ε State PUnit) >>= k) s = k () t := rfl

theorem pure_bind_run {α : Type} (a : α) (k : α → EStateM ε State β) : ((pure a : EStateM ε State α) >>= k) s = k a s := rfl

end

/-! Homes. -/

theorem wbOf_none (h : s.flights = []) (pa : Nat) : s.wbOf pa = none := by rw [State.wbOf, h]; rfl

theorem landWb_none (h : s.flights = []) (pa : Nat) : s.landWb pa = s := by rw [State.landWb, wbOf_none h]

theorem recallOwner_none (h : s.flights = []) {pa : Nat} (ho : s.ownerOf pa = none) : s.recallOwner pa = (s, none) := by
  rw [State.recallOwner, landWb_none h, ho]

theorem recallWord_none (h : s.flights = []) {pa : Nat} (ho : s.ownerOf pa = none) : s.recallWord pa = s := by
  rw [State.recallWord, recallOwner_none h ho]

theorem stranded_none {pa : Nat} (ho : s.ownerOf pa = none) : s.stranded pa = false := by rw [State.stranded, ho]

theorem peekWord_memory (h : s.flights = []) {pa : Nat} (ho : s.ownerOf pa = none) : s.peekWord pa = memWord s.mem pa := by
  rw [State.peekWord, wbOf_none h, ho]

theorem homeFetch_memory {pa : Nat} (hs : tfind s.slc pa = none) (he : tfind s.errs pa = none) (tno : BitVec 12) (org : Nat) :
    homeFetch tno org pa s = .ok (memWord s.mem pa) s := by
  unfold homeFetch
  rw [get_bind, hs]
  dsimp only
  unfold memoryFetch
  rw [get_bind, he]
  rfl

theorem homeForward_memory (h : s.flights = []) {pa : Nat} (ho : s.ownerOf pa = none) (hs : tfind s.slc pa = none)
    (he : tfind s.errs pa = none) (tno : BitVec 12) (org : Nat) : homeForward tno org pa s = .ok (memWord s.mem pa) s := by
  unfold homeForward
  rw [modify_bind, landWb_none h, get_bind, ho]
  exact homeFetch_memory hs he tno org

/-- A word that its home serves by itself: no message is under way, no cluster owns the word, and no error stands in it. -/
structure AtHome (s : State) (pa : Nat) : Prop where
  flights : s.flights = []
  owner : s.ownerOf pa = none
  slice : tfind s.slc pa = none
  error : tfind s.errs pa = none

section
variable {r : Req} {w x : Nat}

theorem homeWord_rdT (h : AtHome s (r.line + 8 * w)) (hk : r.kind = .rdT) (hr : r.src = some x) :
    homeWord r w s = .ok (memWord s.mem (r.line + 8 * w)) (s.track r.line x) := by
  have hn : (ReqKind.rdT != .wb) = true := rfl
  unfold homeWord
  simp only [hk, hr, hn, if_true, modify_bind, landWb_none h.flights, get_bind, stranded_none h.owner, h.owner, Bool.false_eq_true,
    if_false, bind_ok (homeFetch_memory h.slice h.error _ _)]
  rfl

theorem homeWord_rdU (h : AtHome s (r.line + 8 * w)) (hk : r.kind = .rdU) : homeWord r w s = .ok (memWord s.mem (r.line + 8 * w)) s := by
  have hn : (ReqKind.rdU != .wb) = true := rfl
  unfold homeWord
  simp only [hk, hn, if_true, modify_bind, landWb_none h.flights, get_bind, stranded_none h.owner, Bool.false_eq_true, if_false]
  exact homeForward_memory h.flights h.owner h.slice h.error _ _

theorem homeWord_rdW (h : AtHome s (r.line + 8 * w)) (hk : r.kind = .rdW) : homeWord r w s = .ok (memWord s.mem (r.line + 8 * w)) s := by
  have hn : (ReqKind.rdW != .wb) = true := rfl
  unfold homeWord
  simp only [hk, hn, if_true, modify_bind, landWb_none h.flights, get_bind, stranded_none h.owner, Bool.false_eq_true, if_false]
  exact homeForward_memory h.flights h.owner h.slice h.error _ _

theorem homeWord_own (h : AtHome s (r.line + 8 * w)) (hk : r.kind = .own) (hr : r.src = some x) :
    homeWord r w s = .ok (memWord s.mem (r.line + 8 * w))
      (((s.invalidateWord (r.line + 8 * w) (some x)).track r.line x).setOwner (r.line + 8 * w) x) := by
  have hn : (ReqKind.own != .wb) = true := rfl
  unfold homeWord
  simp only [hk, hr, hn, if_true, modify_bind, landWb_none h.flights, get_bind, stranded_none h.owner, h.owner, Bool.false_eq_true,
    if_false, pure_bind_run]
  refine (bind_ok (a := memWord s.mem (r.line + 8 * w)) (t := s) ?_).trans rfl
  rw [get_bind, if_pos h.owner]
  exact homeFetch_memory h.slice h.error _ _

/-- What a home writes into a word of a request, with the tracked copies but one invalidated. -/
def State.homeStores (s : State) (r : Req) (w : Nat) (excl : Option Nat) : State :=
  (s.putWord (r.line + 8 * w) (lineWord r.data w) (wordMask r.mask w)).invalidateWord (r.line + 8 * w) excl

section
variable (h : s.flights = []) (ho : s.ownerOf (r.line + 8 * w) = none)
include h ho

theorem homeWord_wrT (hk : r.kind = .wrT) (hr : r.src = some x) :
    homeWord r w s = .ok 0 ((s.homeStores r w (some x)).track r.line x) := by
  have hn : (ReqKind.wrT != .wb) = true := rfl
  unfold homeWord
  simp only [hk, hr, hn, if_true, modify_bind, landWb_none h, get_bind, stranded_none ho, Bool.false_eq_true, if_false, recallWord_none h ho]
  rfl

theorem homeWord_wrW (hk : r.kind = .wrW) : homeWord r w s = .ok 0 (s.homeStores r w r.src) := by
  have hn : (ReqKind.wrW != .wb) = true := rfl
  unfold homeWord
  simp only [hk, hn, if_true, modify_bind, landWb_none h, get_bind, stranded_none ho, Bool.false_eq_true, if_false, recallWord_none h ho]
  rfl

theorem homeWord_putLine (hk : r.kind = .putLine) : homeWord r w s = .ok 0 (s.homeStores r w none) := by
  have hn : (ReqKind.putLine != .wb) = true := rfl
  unfold homeWord
  simp only [hk, hn, if_true, modify_bind, landWb_none h, get_bind, stranded_none ho, Bool.false_eq_true, if_false, recallWord_none h ho]
  rfl

end

/-- What an atomic leaves at the home of its word: its result where it writes one, with every tracked copy invalidated. -/
def State.homeOperates (s : State) (r : Req) (w : Nat) : State :=
  let old := memWord s.mem (r.line + 8 * w)
  let p := operateWord r.op r.addr r.size old r.x r.cmp
  let t := s.invalidateWord (r.line + 8 * w) none
  if atomicWrites r.op r.size p.1 r.x r.cmp then t.putWord (r.line + 8 * w) p.2 255#8 else t

theorem homeWord_atH (h : AtHome s (r.line + 8 * w)) (hk : r.kind = .atH) :
    homeWord r w s = .ok (operateWord r.op r.addr r.size (memWord s.mem (r.line + 8 * w)) r.x r.cmp).1 (s.homeOperates r w) := by
  have hn : (ReqKind.atH != .wb) = true := rfl
  unfold homeWord State.homeOperates
  simp only [hk, hn, if_true, modify_bind, landWb_none h.flights, get_bind, stranded_none h.owner, Bool.false_eq_true, if_false,
    recallWord_none h.flights h.owner, bind_ok (homeFetch_memory h.slice h.error _ _)]
  split <;> rfl

/-! What a service does before and after the transitions of the words. -/

/-- The transitions of the words that a request names, and its reply. -/
def serveWords (r : Req) : Mem (Vec × BitVec 8) := do
  let vs ← (Req.names r).mapM (homeWord r)
  match r.kind with
  | .rdT => fillOf r ((Req.names r).zip vs)
  | .rdU => fillOf r ((Req.names r).zip vs)
  | .rdW => fillOf r ((Req.names r).zip vs)
  | .own => fillOf r ((Req.names r).zip vs)
  | .atH => do
    if atomicWrites r.op r.size (vs.headD 0) r.x r.cmp then modify (fun s => s.stampPostmark r)
    return ((vs.headD 0).setWidth 512, r.words)
  | _ => do
    modify (fun s => s.stampPostmark r)
    return (0, r.words)

/-- What the service of a request costs: a free value and what units record. -/
def State.charged (s : State) (r : Req) : State := s.draw.2.chargeHome r s.fresh

theorem still_charged (s : State) (r : Req) : Still s (s.charged r) :=
  keep_chargeHome (quiet_still s) (keep_draw (quiet_still s) (Still.refl s))

theorem fotFill_none {pa : Nat} (h : (s.pkg (sockOf pa)).fotbase = 0) : s.fotFill pa = s := by rw [State.fotFill, if_pos h]

theorem frameCheck_none {pa : Nat} (h : (s.pkg (sockOf pa)).fotbase = 0) (kind : ReqKind) (isPut exempt : Bool) (tno : BitVec 12) :
    s.frameCheck kind isPut exempt tno pa = true := by
  rw [State.frameCheck, if_pos (by simp [h])]

theorem sliceEvict_none (h : s.slc = []) (home : Nat) : s.sliceEvict home = s := by
  rw [State.sliceEvict, h]
  rfl

theorem checkPostmark_none {line : Nat} (h : (s.dirOf line).pmk = none) (cl org : Nat) (pc : Word) (tno : BitVec 12) (acq : Scope) :
    s.checkPostmark line cl org pc tno acq = s := by
  rw [State.checkPostmark, h]

/-- A service that nothing refuses is the transitions of its words, after its cost. -/
theorem serve_eq {r : Req} (hr : s.reaches r = true) (hf : (s.pkg (sockOf r.line)).fotbase = 0) (hs : s.slc = [])
    (ha : r.acq = none ∨ (s.dirOf r.line).pmk = none) : serve r s = serveWords r (s.charged r) := by
  obtain ⟨u, hu⟩ : ∃ u, s.draw = (s.fresh, u) := ⟨_, rfl⟩
  have hc : s.charged r = u.chargeHome r s.fresh := by rw [State.charged, hu]
  have hd : Still s u := by
    have := keep_draw (quiet_still s) (Still.refl s)
    rwa [hu] at this
  have hr2 : u.reaches r = true := by
    rw [← hr]
    unfold State.reaches
    split
    · exact hd.joined _ _
    · rfl
  have hf2 : (u.pkg (sockOf r.line)).fotbase = 0 := by rw [hd.pkg]; exact hf
  have hs2 : u.slc = [] := hd.slc.trans hs
  rw [hc]
  unfold serve
  simp only [get_bind, hu, set_bind, hr2, Bool.not_true, Bool.false_eq_true, if_false, modify_bind, fotFill_none hf2, ite_self,
    frameCheck_none hf2, sliceEvict_none hs2]
  cases hq : r.acq with
  | none => rfl
  | some sc =>
    cases hsrc : r.src with
    | none => rfl
    | some cl =>
      have hp : ((u.chargeHome r s.fresh).dirOf r.line).pmk = none := by
        rw [← hc, (still_charged s r).dirOf]
        exact ha.resolve_left (by rw [hq]; simp)
      dsimp only
      rw [modify_bind, checkPostmark_none hp]
      rfl

end

end Sys2Proof.Machine
end

section
/-! PROOFS. What a fill returns (R118): a line of words, the words named with their values; and the words of a request. -/

namespace Sys2Proof.Machine

variable {s t : State}

/-! Lines of words. -/

theorem lineWord_getLsbD (v : Vec) (w : Nat) {i : Nat} (hi : i < 64) : (lineWord v w).getLsbD i = v.getLsbD (64 * w + i) := by
  rw [lineWord, BitVec.getLsbD_setWidth, BitVec.getLsbD_ushiftRight]
  simp [hi]

/-- A word of a line put together from its words. -/
theorem lineWord_vecOfWords : ∀ (l : List Word) (w : Nat), w < 8 → lineWord (vecOfWords l) w = l.getD w 0
  | [], w, _ => by
    apply BitVec.eq_of_getLsbD_eq
    intro i hi
    rw [lineWord_getLsbD _ _ hi]
    simp [vecOfWords]
  | x :: rest, 0, _ => by
    apply BitVec.eq_of_getLsbD_eq
    intro i hi
    have h5 : i < 512 := by omega
    rw [lineWord_getLsbD _ _ hi]
    simp [vecOfWords, hi, h5]
  | x :: rest, w + 1, hw => by
    have ih := lineWord_vecOfWords rest w (by omega)
    rw [List.getD_cons_succ, ← ih]
    apply BitVec.eq_of_getLsbD_eq
    intro i hi
    rw [lineWord_getLsbD _ _ hi, lineWord_getLsbD _ _ hi]
    have h1 : ¬ 64 * (w + 1) + i < 64 := by omega
    have h2 : 64 * (w + 1) + i < 512 := by omega
    have h3 : 64 * (w + 1) + i - 64 = 64 * w + i := by omega
    have h4 : 64 ≤ 64 * (w + 1) + i := by omega
    simp [vecOfWords, h1, h2, h3, BitVec.getLsbD_of_ge x _ h4, -BitVec.getLsbD_eq_getElem]

theorem lineWord_shifted (x : Word) {w k : Nat} (hw : w < 8) (hk : k < 8) :
    lineWord (x.setWidth 512 <<< (64 * w)) k = if k = w then x else 0 := by
  apply BitVec.eq_of_getLsbD_eq
  intro i hi
  have hb : 64 * k + i < 512 := by omega
  rw [lineWord_getLsbD _ _ hi, BitVec.getLsbD_shiftLeft, BitVec.getLsbD_setWidth]
  by_cases h : k = w
  · subst h
    have : i < 512 := by omega
    simp [hi, this, hb]
  · rw [if_neg h]
    rcases Nat.lt_or_ge (64 * k + i) (64 * w) with h1 | h1
    · simp [h1]
    · have h2 : 64 ≤ 64 * k + i - 64 * w := by omega
      simp [BitVec.getLsbD_of_ge x _ h2]

theorem wordMask_shifted (m : BitVec 8) {w : Nat} (hw : w < 8) : wordMask (m.setWidth 64 <<< (8 * w)) w = m := by
  apply BitVec.eq_of_getLsbD_eq
  intro i hi
  have h1 : 8 * w + i < 64 := by omega
  rw [wordMask, BitVec.getLsbD_setWidth, BitVec.getLsbD_ushiftRight, BitVec.getLsbD_shiftLeft, BitVec.getLsbD_setWidth]
  simp [hi, h1]
  omega

/-! The words of a request. -/

theorem oneWord_bit (pa : Nat) {w : Nat} (hw : w < 8) : (oneWord pa).getLsbD w = decide (w = wordIx pa) := by
  rw [oneWord, BitVec.getLsbD_ofNat, Nat.testBit_two_pow]
  simp [hw, eq_comm]

theorem filter_range_eq_single {n w : Nat} (hw : w < n) {p : Nat → Bool} (h : ∀ k < n, p k = decide (k = w)) :
    (List.range n).filter p = [w] := by
  rw [List.filter_congr (q := fun k => decide (k = w)) fun k hk => h k (List.mem_range.1 hk)]
  have e : (fun k => decide (k = w)) = (· == w) := by funext k; rfl
  rw [e, List.filter_beq, List.count_eq_one_of_mem List.nodup_range (List.mem_range.2 hw)]
  rfl

/-- A request for the word that holds an address names that word alone. -/
theorem names_oneWord {r : Req} {pa : Nat} (h : r.words = oneWord pa) : Req.names r = [wordIx pa] := by
  rw [Req.names, h]
  exact filter_range_eq_single (wordIx_lt pa) fun k hk => oneWord_bit pa hk

/-- Only memory's errors, of which none is new, and what units record differ. -/
structure Cured (s t : State) : Prop where
  same : ∃ errs efcs ctrs energy fresh, t = { s with errs := errs, efcs := efcs, ctrs := ctrs, energy := energy, fresh := fresh }
  none : ∀ a, tfind s.errs a = none → tfind t.errs a = none

theorem Noted.cured (h : Noted s t) : Cured s t := by
  obtain ⟨a, b, c, d, rfl⟩ := h
  exact ⟨⟨s.errs, a, b, c, d, rfl⟩, fun _ h => h⟩

theorem Cured.refl (s : State) : Cured s s := (Noted.refl s).cured

theorem Cured.trans {u : State} (h : Cured s t) (g : Cured t u) : Cured s u := by
  refine ⟨?_, fun a ha => g.none a (h.none a ha)⟩
  obtain ⟨e, b, c, d, f, rfl⟩ := h.same
  obtain ⟨e', b', c', d', f', rfl⟩ := g.same
  exact ⟨e', b', c', d', f', rfl⟩

section
variable (h : Cured s t)
include h

theorem Cured.mem : t.mem = s.mem := by obtain ⟨e, b, c, d, f, rfl⟩ := h.same; rfl
theorem Cured.slc : t.slc = s.slc := by obtain ⟨e, b, c, d, f, rfl⟩ := h.same; rfl
theorem Cured.flights : t.flights = s.flights := by obtain ⟨e, b, c, d, f, rfl⟩ := h.same; rfl
theorem Cured.ctxs : t.ctxs = s.ctxs := by obtain ⟨e, b, c, d, f, rfl⟩ := h.same; rfl
theorem Cured.clusters : t.clusters = s.clusters := by obtain ⟨e, b, c, d, f, rfl⟩ := h.same; rfl
theorem Cured.outbox : t.outbox = s.outbox := by obtain ⟨e, b, c, d, f, rfl⟩ := h.same; rfl
theorem Cured.pkgs : t.pkgs = s.pkgs := by obtain ⟨e, b, c, d, f, rfl⟩ := h.same; rfl
theorem Cured.dirOf (l : Nat) : t.dirOf l = s.dirOf l := by obtain ⟨e, b, c, d, f, rfl⟩ := h.same; rfl
theorem Cured.ownerOf (pa : Nat) : t.ownerOf pa = s.ownerOf pa := by obtain ⟨e, b, c, d, f, rfl⟩ := h.same; rfl
theorem Cured.tableBacked (here pa : Nat) : t.tableBacked here pa = s.tableBacked here pa := by
  obtain ⟨e, b, c, d, f, rfl⟩ := h.same; rfl
theorem Cured.pkg (k : Nat) : t.pkg k = s.pkg k := by obtain ⟨e, b, c, d, f, rfl⟩ := h.same; rfl

end

theorem noteError_noted (s : State) (tno : BitVec 12) (org pa index kind : Nat) : Noted s (s.noteError tno org pa index kind) :=
  keep_noteError (quiet_noted s) (Noted.refl s)

/-- The state that a computation leaves, however it ends. -/
def endState {ε α : Type} : EStateM.Result ε State α → State
  | .ok _ t => t
  | .error _ t => t

/-- A home's read of a word changes memory's errors at most. -/
theorem homeFetch_cured (h : s.slc = []) (tno : BitVec 12) (org pa : Nat) : Cured s (endState (homeFetch tno org pa s)) := by
  have hn := fun index kind => (noteError_noted s tno org pa index kind).cured
  have hf : homeFetch tno org pa s = memoryFetch tno org pa s := by
    unfold homeFetch
    rw [get_bind, h]
    rfl
  rw [hf]
  unfold memoryFetch
  rw [get_bind]
  cases he : tfind s.errs pa with
  | none => exact Cured.refl s
  | some e =>
    cases e with
    | single => exact hn 0 0
    | persistent => exact hn 2 2
    | transient n =>
      dsimp only
      split
      · have h1 : Cured s { s with errs := tdel s.errs pa } := by
          refine ⟨⟨_, s.efcs, s.ctrs, s.energy, s.fresh, rfl⟩, fun a ha => ?_⟩
          rw [tfind_tdel, ha, ite_self]
        exact h1.trans (noteError_noted _ tno org pa 1 1).cured
      · exact hn 2 2

/-- A computation on every element of a list keeps what each step keeps, and its results are as each step gives. -/
theorem mapM_run {ε α β : Type} {P : State → Prop} {Q : α → β → Prop} {f : α → EStateM ε State β} :
    ∀ (l : List α), (∀ a ∈ l, ∀ s, P s → ∃ b t, f a s = .ok b t ∧ P t ∧ Q a b) → ∀ s, P s →
      ∃ bs t, l.mapM f s = .ok bs t ∧ P t ∧ List.Forall₂ Q l bs
  | [], _, s, hs => ⟨[], s, rfl, hs, .nil⟩
  | a :: l, h, s, hs => by
    obtain ⟨b, t, h1, ht, hq⟩ := h a (by simp) s hs
    obtain ⟨bs, u, h2, hu, hqs⟩ := mapM_run l (fun c hc => h c (by simp [hc])) t ht
    refine ⟨b :: bs, u, ?_, hu, .cons hq hqs⟩
    rw [List.mapM_cons, bind_ok h1, bind_ok h2]
    rfl

theorem forall₂_range {β : Type} {Q : Nat → β → Prop} {n : Nat} {bs : List β} (h : List.Forall₂ Q (List.range n) bs) {w : Nat} (hw : w < n) (d : β) :
    Q w (bs.getD w d) := by
  have hl : bs.length = n := by rw [← h.length_eq, List.length_range]
  have := (List.forall₂_iff_get.1 h).2 w (by simpa using hw) (by omega)
  rw [List.getD_eq_getElem _ _ (by omega)]
  simpa using this

/-- What a fill holds of a word: its named value; where no transition gave one, memory's, unless a cluster owns it. -/
structure FillWord (s : State) (named : List (Nat × Word)) (pa w : Nat) (b : Option Word) : Prop where
  given : ∀ x, tfind named w = some x → b = some x
  owned : ∀ c, tfind named w = none → s.ownerOf pa = some c → b = none
  memory : tfind named w = none → s.ownerOf pa = none → tfind s.errs pa = none → b = some (memWord s.mem pa)

/-- One word of a fill. -/
def fillWordOf (r : Req) (named : List (Nat × Word)) (w : Nat) : Mem (Option Word) := do
  let pa := r.line + 8 * w
  let s ← get
  match tfind named w with
  | some v => pure (some v)
  | none => match s.ownerOf pa with
    | some _ => pure none
    | none => fun s => match homeFetch (if r.exempt then 0#12 else r.tno) r.origin pa s with
      | .ok v s => .ok (some v) s
      | .error _ s => .ok none s

theorem fillOf_eq (r : Req) (named : List (Nat × Word)) : fillOf r named = (do
    let ws ← (List.range 8).mapM (fillWordOf r named)
    pure (vecOfWords (ws.map (·.getD 0)),
      BitVec.ofNat 8 (((List.range 8).map (fun w => if (ws.getD w none).isSome then 2 ^ w else 0)).foldl (· + ·) 0))) := rfl

theorem fillWordOf_ok (h : s.slc = []) (r : Req) (named : List (Nat × Word)) (w : Nat) :
    ∃ b t, fillWordOf r named w s = .ok b t ∧ Cured s t ∧ FillWord s named (r.line + 8 * w) w b := by
  unfold fillWordOf
  rw [get_bind]
  cases hn : tfind named w with
  | some v =>
    have hg : ¬ tfind named w = none := by rw [hn]; simp
    exact ⟨some v, s, rfl, .refl s, ⟨fun x hx => hn.symm.trans hx, fun c h => (hg h).elim, fun h => (hg h).elim⟩⟩
  | none =>
    cases ho : s.ownerOf (r.line + 8 * w) with
    | some c =>
      have hg : ¬ s.ownerOf (r.line + 8 * w) = none := by rw [ho]; simp
      exact ⟨none, s, rfl, .refl s, ⟨fun x h => hn.symm.trans h, fun _ _ _ => rfl, fun _ h => (hg h).elim⟩⟩
    | none =>
      have hc := homeFetch_cured h (if r.exempt then 0#12 else r.tno) r.origin (r.line + 8 * w)
      have hm := fun he => homeFetch_memory (pa := r.line + 8 * w) (by rw [h]; rfl) he (if r.exempt then 0#12 else r.tno) r.origin
      have hg : ∀ x, tfind named w = some x → False := fun x h => by rw [hn] at h; cases h
      have hw : ∀ c, s.ownerOf (r.line + 8 * w) = some c → False := fun c h => by rw [ho] at h; cases h
      cases hf : homeFetch (if r.exempt then 0#12 else r.tno) r.origin (r.line + 8 * w) s with
      | ok v u =>
        rw [hf] at hc
        refine ⟨some v, u, by dsimp only; rw [hf], hc, ⟨fun x h => (hg x h).elim, fun c _ h => (hw c h).elim, fun _ _ he => ?_⟩⟩
        have hv := hm he
        rw [hf] at hv
        injection hv with hv
        rw [hv]
      | error e u =>
        rw [hf] at hc
        refine ⟨none, u, by dsimp only; rw [hf], hc, ⟨fun x h => (hg x h).elim, fun c _ h => (hw c h).elim, fun _ _ he => ?_⟩⟩
        have hv := hm he
        rw [hf] at hv
        injection hv

/-- A fill: it ends well, and its words are as `FillWord` says, valid where it has one (R118). -/
theorem fillOf_ok (h : s.slc = []) (r : Req) (named : List (Nat × Word)) : ∃ v m t, fillOf r named s = .ok (v, m) t ∧ Cured s t ∧
    ∀ w < 8, ∃ b, FillWord s named (r.line + 8 * w) w b ∧ lineWord v w = b.getD 0 ∧ m.getLsbD w = b.isSome := by
  have hstep : ∀ w ∈ List.range 8, ∀ u, Cured s u → ∃ b t, fillWordOf r named w u = .ok b t ∧ Cured s t ∧ FillWord s named (r.line + 8 * w) w b := by
    intro w _ u hu
    obtain ⟨b, t, h1, h2, h3⟩ := fillWordOf_ok (hu.slc.trans h) r named w
    refine ⟨b, t, h1, hu.trans h2, h3.given, fun c hn ho => h3.owned c hn ?_, fun hn ho he => ?_⟩
    · rw [hu.ownerOf, ho]
    · rw [h3.memory hn (by rw [hu.ownerOf, ho]) (hu.none _ he), hu.mem]
  obtain ⟨bs, t, h1, h2, h3⟩ := mapM_run (P := Cured s) (Q := fun w b => FillWord s named (r.line + 8 * w) w b) (List.range 8) hstep s (.refl s)
  have hl : bs.length = 8 := by rw [← h3.length_eq, List.length_range]
  have hrun : fillOf r named s = .ok (vecOfWords (bs.map (·.getD 0)),
      BitVec.ofNat 8 (((List.range 8).map (fun w => if (bs.getD w none).isSome then 2 ^ w else 0)).foldl (· + ·) 0)) t := by
    rw [fillOf_eq, bind_ok h1]
    rfl
  refine ⟨_, _, t, hrun, h2, fun w hw => ⟨bs.getD w none, forall₂_range h3 hw none, ?_, ?_⟩⟩
  · rw [lineWord_vecOfWords _ _ hw, List.getD_eq_getElem _ _ (by rw [List.length_map, hl]; exact hw), List.getElem_map,
      List.getD_eq_getElem _ _ (by rw [hl]; exact hw)]
  · obtain ⟨-, hbit⟩ := testBit_sum_two_pow (fun w => (bs.getD w none).isSome = true) 8
    rw [BitVec.getLsbD_ofNat, hbit]
    simp [hw]

end Sys2Proof.Machine
end

section
/-! PROOFS. What saving a thread leaves of the other contexts; the returns from a trap (O35). -/

namespace Sys2Proof.Machine

variable {s t : State}

/-- What a retirement leaves of the context in turn. -/
theorem me_retireTo (s : State) (pc : Word) : (s.retireTo pc).me = { s.me with pc := pcOf pc, stall := .none, attempt := 0 } := by
  simp only [State.me, State.retireTo, State.modMe, State.countCtx, State.addCtr, ctx_setCtr, cur_setCtr, cur_modCtx, ctx_modCtx_same]

/-- The context in turn and every context are the same, but for X7s that a message wakes. -/
structure Contexts (s t : State) : Prop where
  cur : t.cur = s.cur
  ctx : ∀ d, ∃ w, t.ctx d = { s.ctx d with inwfm := w }

theorem Contexts.refl (s : State) : Contexts s s := ⟨rfl, fun d => ⟨(s.ctx d).inwfm, rfl⟩⟩

/-- What leaves every field of the contexts alone. -/
theorem Contexts.same {u : State} (h : Contexts s t) (hc : u.cur = t.cur) (hx : u.ctxs = t.ctxs) : Contexts s u := by
  refine ⟨hc.trans h.cur, fun d => ?_⟩
  obtain ⟨w, hw⟩ := h.ctx d
  exact ⟨w, by rw [← hw, State.ctx, hx]; rfl⟩

/-- The memory system, and changes of packages, keep the contexts. -/
theorem far_contexts (s : State) : Far (Contexts s) where
  records := fun _ _ _ _ _ h => h.same rfl rfl
  upd := fun _ _ _ _ _ _ _ _ _ _ h => h.same rfl rfl
  mem := fun _ _ _ h => h.same rfl rfl
  queue := fun _ _ _ _ _ _ _ h _ _ => h.same rfl rfl
  cluster := fun _ _ _ h _ => h.same rfl rfl
  engine := fun _ _ _ h _ => h.same rfl rfl
  pkgKept := fun _ _ _ h _ => h.same rfl rfl
  pkg := fun _ _ _ h => h.same rfl rfl
  wake := by
    refine fun t k h => ⟨h.cur, fun d => ?_⟩
    obtain ⟨w, hw⟩ := h.ctx d
    unfold State.wakeX7
    rw [ctx_modCtx]
    split
    · next e => exact ⟨false, by rw [← e, hw]⟩
    · exact ⟨w, hw⟩

theorem contexts_fences (h : Contexts s t) (f : Tbl Scope) : Contexts s { t with fences := f } := h.same rfl rfl

theorem contexts_detach (h : Contexts s t) (tcb : Nat) : Contexts s (t.detach tcb) := by
  unfold State.detach
  split
  · exact h.same rfl rfl
  · exact h

/-- What a save does to the machine before it writes the thread's TCB: its stores are performed. -/
def State.beforeSave (s : State) (c : Nat) : State := ((s.settle (coreOf c)).squash c).releaseWait c .sys

/-- The registers of a thread written to its TCB. -/
theorem keep_image {P : State → Prop} (K : Plain P) (cl tcb : Nat) (l : List Word) {u : State} (h : P u) :
    P (l.foldl (fun (p : State × Nat) w => (p.1.setTcb cl tcb p.2 w, p.2 + 8)) (u, 0)).1 := by
  refine foldl_fst_keeps (p := P) (fun q a H => ?_) l h
  dsimp only
  exact keep_setTcb K H

/-- The thread of a context written to its TCB, and what leaves the context with it. -/
def State.writeThread (s : State) (c k : Nat) : State :=
  let x := s.ctx c
  let cl := clusterOf c
  let t := (x.image.foldl (fun (p : State × Nat) w => (p.1.setTcb cl x.tcb p.2 w, p.2 + 8)) (s, 0)).1
  let t := (t.setTcb cl x.tcb 0xC38 (BitVec.ofNat 64 x.qleft)).setTstate cl x.tcb k 0
  let t := match x.fenced with
    | some f => { t with fences := tset t.fences x.tcb f }
    | none => t
  (t.detach x.tcb).holdEnds c

theorem save_eq (s : State) (c k : Nat) : s.save c k = ((s.beforeSave c).writeThread c k).setCtx c Context.vacant := by
  unfold State.save State.writeThread State.beforeSave
  cases ((((s.settle (coreOf c)).squash c).releaseWait c .sys).ctx c).fenced <;> rfl

theorem contexts_writeThread (s : State) (c k : Nat) : Contexts s (s.writeThread c k) := by
  unfold State.writeThread
  have p := (far_contexts s).toPlain
  have h := keep_setTstate (cl := clusterOf c) (tcb := (s.ctx c).tcb) (st := k) (reason := 0) p
    (keep_setTcb (cl := clusterOf c) (tcb := (s.ctx c).tcb) (off := 0xC38) (x := BitVec.ofNat 64 (s.ctx c).qleft) p
      (keep_image p (clusterOf c) (s.ctx c).tcb (s.ctx c).image (.refl s)))
  refine keep_holdEnds (far_contexts s) (contexts_detach ?_ _)
  split
  · exact contexts_fences h _
  · exact h

/-- A context that a thread leaves is vacant. -/
theorem ctx_save_same (s : State) (c k : Nat) : (s.save c k).ctx c = Context.vacant := by
  rw [save_eq, ctx_setCtx, if_pos rfl]

theorem ctx_save_other (s : State) (c k : Nat) {d : Nat} (h : d ≠ c) : ∃ w, (s.save c k).ctx d = { (s.beforeSave c).ctx d with inwfm := w } := by
  rw [save_eq, ctx_setCtx, if_neg h]
  exact (contexts_writeThread _ c k).ctx d

theorem cur_save (s : State) (c k : Nat) : (s.save c k).cur = (s.beforeSave c).cur := by
  rw [save_eq, cur_setCtx]
  exact (contexts_writeThread _ c k).cur

/-- `tret` under EVICT of a context that no debug stop waits for. -/
theorem tret_evict {a : Reg} (hc : Clear s) (hx : s.inX7 = true) (hs : Settled s) (h1 : (s.readG a).toNat < 1024)
    (h2 : (s.readG a).toNat % 256 < 7) (hr : s.returnable (s.targetOf (s.readG a)) = true)
    (he : (s.readG a).getLsbD 9 = true) (hp : (s.ctx (s.targetOf (s.readG a))).pstop = false) :
    exec (.tret a) s = .next (((s.modCtx (s.targetOf (s.readG a)) (fun y =>
      { y with pc := pcOf ((s.ctx (s.targetOf (s.readG a))).skipPc ((s.readG a).getLsbD 8)) })).save (s.targetOf (s.readG a)) 5).retireTo
        (s.pc + 4)) := by
  have hok : ¬ ((s.readG a).toNat / 2 ^ 10 ≠ 0 ∨ (s.readG a).toNat / 8 % 32 ≠ 0 ∨ (s.readG a).toNat % 8 = 7) := by omega
  show execTret a s = _
  unfold execTret
  simp only [hx, hok, hr, releaseWait_narrow hs, he, hp, Bool.not_true, Bool.not_false, Bool.and_self, Bool.false_eq_true, if_false, if_true,
    ne_eq, reduceCtorEq, not_false_eq_true]
  rw [commit_clear hc]
  rfl

/-- A retired store of a thread to the debug page of the first core. -/
def debugStore (off : Nat) (x : Word) : PendingStore :=
  { ctx := 0, tcb := 0x50000, tno := 5, pc := 0x2000, pa := 0x0F00002000000 + off, n := 8, data := x, pol := .own, rel := none }

/-- X7 of the boot core, with a thread parked FAULT on context 0 whose stores to DBGCTL and DBGDATA have not been performed:
the first stops X7 and the second writes its g1. -/
def evicting : State := { State.reset with
  ctxs := [(0, { Context.vacant with life := .parked .fault, tcb := 0x50000, tno := 5, pc := 0x2000 }),
    (7, { Context.bootX7 with g := [(2, 0x200)] })]
  cores := [(0, { Core.init with dbgSel := 0xE001, sbuf := [debugStore 0 0x8000, debugStore 0x10 5] })] }

/-- The same with the PC to which the thread returns. -/
def evictingAtPc : State := evicting.modCtx 0 (fun y => { y with pc := pcOf 0x2000 })

/-- Refutes O35: a `tret` under EVICT saves the thread, whose retired stores are performed first (R33, R141); among them may be
stores to the debug page of this core, one to DBGCTL that stops X7 and one to DBGDATA that writes its g1, so that X7's registers
do not stay as they were. -/
theorem not_trapReturns : ¬ Obligations.TrapReturns := by
  intro h
  have hsettled : Settled evicting := by
    refine ⟨rfl, fun e _ => rfl⟩
  obtain ⟨hret, -⟩ := h 2 2 evicting rfl rfl hsettled (.inl rfl) (by decide +kernel)
  obtain ⟨-, -, hevict⟩ := hret (by decide +kernel)
  obtain ⟨t, ht, -, -, hg⟩ := hevict rfl rfl
  have hend : exec (.tret 2) evicting = .next ((evictingAtPc.save 0 5).retireTo (evicting.pc + 4)) :=
    tret_evict (s := evicting) (a := 2) rfl rfl hsettled (by decide +kernel) (by decide +kernel) rfl rfl rfl
  obtain ⟨w, hw⟩ := ctx_save_other evictingAtPc 0 5 (d := 7) (by decide)
  have hflushed : (evictingAtPc.beforeSave 0).cur = 7 ∧ ((evictingAtPc.beforeSave 0).ctx 7).g = [(1, 5), (2, 0x200)] := by decide +kernel
  have hcur : (evictingAtPc.save 0 5).cur = 7 := (cur_save _ _ _).trans hflushed.1
  rw [hend] at ht
  injection ht with ht
  rw [← ht, me_retireTo, State.me, hcur, hw] at hg
  dsimp only at hg
  rw [hflushed.2] at hg
  exact absurd hg (by decide)

end Sys2Proof.Machine
end

section
/-! PROOFS. `tlbi` performs what other contexts have retired (O36). -/

namespace Sys2Proof.Machine

/-- Refutes O36: `tlbi` performs every store that retired in its scope before it (R270), those of other contexts among them;
where they go to DBGCTL and DBGDATA of its own core, they stop X7 and write its g1. -/
theorem not_waitForMessageAndTlb : ¬ Obligations.WaitForMessageAndTlb := by
  intro h
  obtain ⟨-, -, htlbi⟩ := h evicting rfl rfl
  have hsettled : Settled evicting := ⟨rfl, fun e _ => rfl⟩
  obtain ⟨t, ht, -, hg, -⟩ := htlbi 0 .core (.tlbiAll .core) (fun _ => True) hsettled (by decide) (by decide) (.inl ⟨rfl, rfl⟩)
  have hend : exec (.tlbiAll .core) evicting = .next ((evicting.tlbInvalidate .core ⟨fun _ => true, fun _ => true⟩).retireTo (evicting.pc + 4)) := rfl
  have hdrained : (evicting.tlbInvalidate .core ⟨fun _ => true, fun _ => true⟩).me.g = [(1, 5), (2, 0x200)] := by decide +kernel
  rw [hend] at ht
  injection ht with ht
  rw [← ht, me_retireTo] at hg
  dsimp only at hg
  rw [hdrained] at hg
  exact absurd hg (by decide)

end Sys2Proof.Machine
end

section
/-! PROOFS. The event filter's instructions (O46): one lemma for what every one of them does with its run, and one for the data
memory of each that writes it. -/

namespace Sys2Proof.Machine

variable {s : State}

/-- An EFC's instruction counted, charged and with its data memory written (R350, R351). -/
def State.efcSpend (s : State) (e : Nat) (tno : BitVec 12) (data : Tbl Word) : State :=
  let t := s.countEfc e 4
  let t := match t.allowance e tno with
    | some b => t.modEfc e (fun x => { x with allow := tset x.allow tno.toNat (b - 1) })
    | none => t
  t.modEfc e (fun x => { x with data := data })

/-- The run goes on by a number of places, or ends. -/
def State.efcGoes (s : State) (e : Nat) (r : EfcRun) (st : EfcStep) : State :=
  match st.move with
  | none => s.startRun e r r.slots.tail
  | some k =>
    if r.len (r.slots.headD 0) ≤ r.index + k then s.startRun e r r.slots.tail
    else s.modEfc e (fun x => { x with run := some { r with index := r.index + k, regs := st.regs } })

theorem efcDo_eq {r : EfcRun} (h : (s.efc s.curEfc).run = some r) (f : Efc → EfcRun → EfcStep) :
    efcDo s f = (s.efcSpend s.curEfc (recordTno r.record) (f (s.efc s.curEfc) r).data).efcGoes s.curEfc r (f (s.efc s.curEfc) r) := by
  unfold efcDo State.efcGoes
  simp only [h]
  cases (f (s.efc s.curEfc) r).move with
  | none => exact if_pos rfl
  | some k =>
    simp only [decide_eq_true_eq, Option.getD_some]
    rfl

/-- Only counters and one EFC's registers differ. -/
structure Filtered (s t : State) (e : Nat) : Prop where
  ctxs : t.ctxs = s.ctxs
  cores : t.cores = s.cores
  mem : t.mem = s.mem

theorem filtered_efcSpend (s : State) (e : Nat) (tno : BitVec 12) (data : Tbl Word) : Filtered s (s.efcSpend e tno data) e := by
  unfold State.efcSpend
  dsimp only
  split <;> exact ⟨rfl, rfl, rfl⟩

theorem efc_efcSpend (s : State) (e : Nat) (tno : BitVec 12) (data : Tbl Word) :
    ∃ allow, (s.efcSpend e tno data).efc e = { s.efc e with allow := allow, data := data } := by
  unfold State.efcSpend
  dsimp only
  split
  · exact ⟨_, by rw [efc_modEfc_same, efc_modEfc_same]; rfl⟩
  · exact ⟨_, by rw [efc_modEfc_same]; rfl⟩

theorem ctr_efcSpend (s : State) (e : Nat) (tno : BitVec 12) (data : Tbl Word) :
    (s.efcSpend e tno data).ctr (e / 68) 7 (e % 68) 4 = s.ctr (e / 68) 7 (e % 68) 4 + 1 := by
  have h : (s.countEfc e 4).ctr (e / 68) 7 (e % 68) 4 = s.ctr (e / 68) 7 (e % 68) 4 + 1 := (ctr_addCtr ..).trans (if_pos rfl)
  rw [← h]
  unfold State.efcSpend
  dsimp only
  split <;> rfl

/-- What follows a run's end. -/
theorem startRun_next (s : State) (e : Nat) (r : EfcRun) :
    Filtered s (s.startRun e r r.slots.tail) e ∧ ((s.startRun e r r.slots.tail).efc e).run = r.nextRun (s.efc e) ∧
      ((s.startRun e r r.slots.tail).efc e).data = (s.efc e).data ∧
      (s.startRun e r r.slots.tail).ctr (e / 68) 7 (e % 68) 4 = s.ctr (e / 68) 7 (e % 68) 4 := by
  unfold State.startRun EfcRun.nextRun
  cases r.slots.tail.filter (fun k => r.len k != 0) with
  | nil => exact ⟨⟨rfl, rfl, rfl⟩, by rw [efc_modEfc_same], by rw [efc_modEfc_same], rfl⟩
  | cons k ks =>
    have he : ∀ t : State, (t.countEfc e 3).efc e = t.efc e := fun _ => rfl
    refine ⟨⟨rfl, rfl, rfl⟩, ?_, ?_, ?_⟩
    · dsimp only; rw [he, efc_modEfc_same]; rfl
    · dsimp only; rw [he, efc_modEfc_same]
    · refine (ctr_addCtr ..).trans (if_neg ?_)
      rw [ctrKey_inj (by omega) (by omega) (by omega) (by omega) (by omega) (by omega)]
      omega

/-- What every instruction of an EFC leaves: its run, its data memory, and its count. -/
theorem efcDo_run {r : EfcRun} (h : (s.efc s.curEfc).run = some r) (f : Efc → EfcRun → EfcStep) :
    Filtered s (efcDo s f) s.curEfc ∧ ((efcDo s f).efc s.curEfc).data = (f (s.efc s.curEfc) r).data ∧
    (efcDo s f).ctr (s.curEfc / 68) 7 (s.curEfc % 68) 4 = s.ctr (s.curEfc / 68) 7 (s.curEfc % 68) 4 + 1 ∧
    ((efcDo s f).efc s.curEfc).run = (match (f (s.efc s.curEfc) r).move with
      | none => r.nextRun (s.efc s.curEfc)
      | some k => r.goesOn (s.efc s.curEfc) k (f (s.efc s.curEfc) r).regs) := by
  rw [efcDo_eq h]
  generalize f (s.efc s.curEfc) r = st
  obtain ⟨h1, h2, h3⟩ := filtered_efcSpend s s.curEfc (recordTno r.record) st.data
  obtain ⟨allow, hefc⟩ := efc_efcSpend s s.curEfc (recordTno r.record) st.data
  have hc := ctr_efcSpend s s.curEfc (recordTno r.record) st.data
  generalize s.efcSpend s.curEfc (recordTno r.record) st.data = u at *
  obtain ⟨⟨g1, g2, g3⟩, grun, gdata, gctr⟩ := startRun_next u s.curEfc r
  have hnext : r.nextRun (u.efc s.curEfc) = r.nextRun (s.efc s.curEfc) := by rw [hefc]; rfl
  have hd : (u.efc s.curEfc).data = st.data := by rw [hefc]
  have hended : Filtered s (u.startRun s.curEfc r r.slots.tail) s.curEfc ∧ ((u.startRun s.curEfc r r.slots.tail).efc s.curEfc).data = st.data ∧
      (u.startRun s.curEfc r r.slots.tail).ctr (s.curEfc / 68) 7 (s.curEfc % 68) 4 = s.ctr (s.curEfc / 68) 7 (s.curEfc % 68) 4 + 1 ∧
      ((u.startRun s.curEfc r r.slots.tail).efc s.curEfc).run = r.nextRun (s.efc s.curEfc) :=
    ⟨⟨g1.trans h1, g2.trans h2, g3.trans h3⟩, gdata.trans hd, gctr.trans hc, grun.trans hnext⟩
  unfold State.efcGoes EfcRun.goesOn
  cases st.move with
  | none => exact hended
  | some k =>
    dsimp only
    by_cases hl : r.len (r.slots.headD 0) ≤ r.index + k
    · rw [if_pos hl, if_pos hl]
      exact hended
    · rw [if_neg hl, if_neg hl]
      exact ⟨⟨h1, h2, h3⟩, by rw [efc_modEfc_same]; exact hd, hc, by rw [efc_modEfc_same]⟩

/-- An instruction that goes some places on with its registers and data memory as given. -/
theorem efc_goes {r : EfcRun} (h : (s.efc s.curEfc).run = some r) {i : Instr} {f : Efc → EfcRun → EfcStep}
    (hi : exec i s = .next (efcDo s f)) {m : Nat} {regs data : Tbl Word}
    (hf : f (s.efc s.curEfc) r = { data := data, regs := regs, move := some m }) : ∃ t, exec i s = .next t ∧
      (t.efc s.curEfc).run = r.goesOn (s.efc s.curEfc) m regs ∧ (t.efc s.curEfc).data = data ∧
      t.ctxs = s.ctxs ∧ t.cores = s.cores ∧ t.mem = s.mem ∧
      t.ctr (s.curEfc / 68) 7 (s.curEfc % 68) 4 = s.ctr (s.curEfc / 68) 7 (s.curEfc % 68) 4 + 1 := by
  obtain ⟨⟨h1, h2, h3⟩, hdata, hctr, hrun⟩ := efcDo_run h f
  rw [hf] at hdata hrun
  exact ⟨_, hi, hrun, hdata, h1, h2, h3, hctr⟩

/-- An instruction that writes one register and goes on. -/
theorem efc_yields {r : EfcRun} (h : (s.efc s.curEfc).run = some r) {i : Instr} {d : BitVec 3} {g : EfcRun → Word}
    (hi : exec i s = efcAlu d g s) {v : Word} (hv : g r = v) : ∃ t, exec i s = .next t ∧
      (t.efc s.curEfc).run = r.goesOn (s.efc s.curEfc) 1 (tset r.regs d.toNat v) ∧ (t.efc s.curEfc).data = (s.efc s.curEfc).data ∧
      t.ctxs = s.ctxs ∧ t.cores = s.cores ∧ t.mem = s.mem ∧
      t.ctr (s.curEfc / 68) 7 (s.curEfc % 68) 4 = s.ctr (s.curEfc / 68) 7 (s.curEfc % 68) 4 + 1 :=
  efc_goes h hi (by rw [hv])

/-- The lesser and the greater of two words. -/
theorem ite_ult_min (x y : Word) : (if y.ult x then y else x) = BitVec.ofNat 64 (min x.toNat y.toNat) := by
  rw [BitVec.ult]
  by_cases h : y.toNat < x.toNat
  · rw [if_pos (by simpa using h), min_eq_right (by omega), BitVec.ofNat_toNat, BitVec.setWidth_eq]
  · rw [if_neg (by simpa using h), min_eq_left (by omega), BitVec.ofNat_toNat, BitVec.setWidth_eq]

theorem toNat_ite_ult (x y : Word) : (if y.ult x then y else x).toNat = min x.toNat y.toNat := by
  have h := x.isLt
  rw [ite_ult_min, BitVec.toNat_ofNat, Nat.mod_eq_of_lt (by omega)]

theorem ite_ult_max (x y : Word) : (if x.ult y then y else x) = BitVec.ofNat 64 (max x.toNat y.toNat) := by
  rw [BitVec.ult]
  by_cases h : x.toNat < y.toNat
  · rw [if_pos (by simpa using h), max_eq_right (by omega), BitVec.ofNat_toNat, BitVec.setWidth_eq]
  · rw [if_neg (by simpa using h), max_eq_left (by omega), BitVec.ofNat_toNat, BitVec.setWidth_eq]

theorem satInc_eq (v : Word) : satInc v = if v.toNat = 2 ^ 64 - 1 then v else v + 1 := by
  have h : v = BitVec.allOnes 64 ↔ v.toNat = 2 ^ 64 - 1 := by
    rw [← BitVec.toNat_inj, BitVec.toNat_allOnes]
  simp only [satInc, h]

/-- A row's hash is the exclusive disjunction of the bytes above the row's bits (R353). -/
theorem cmsHash_eq (x : Word) (row : Nat) : cmsHash x row = ((x >>> (6 + row)).extractLsb' 0 8 ^^^ (x >>> (6 + row)).extractLsb' 8 8 ^^^
    (x >>> (6 + row)).extractLsb' 16 8 ^^^ (x >>> (6 + row)).extractLsb' 24 8 ^^^ (x >>> (6 + row)).extractLsb' 32 8 ^^^
    (x >>> (6 + row)).extractLsb' 40 8 ^^^ (x >>> (6 + row)).extractLsb' 48 8 ^^^ (x >>> (6 + row)).extractLsb' 56 8).toNat := by
  simp [cmsHash, List.range, List.range.loop, Nat.shiftRight_eq_div_pow]

theorem cmsHash_lt (x : Word) (row : Nat) : cmsHash x row < 256 := by
  rw [cmsHash_eq]
  exact BitVec.isLt _

/-- The cell of a row of `ecms`. -/
def cmsCell (x : Word) (w : BitVec 13) (row : Nat) : Nat := (w.toNat + 256 * row + cmsHash x row) % 8192

/-- The cells of different rows differ. -/
theorem cmsCell_ne (x : Word) (w : BitVec 13) {i j : Nat} (hi : i < 4) (hj : j < 4) (h : i ≠ j) : cmsCell x w i ≠ cmsCell x w j := by
  have h1 := cmsHash_lt x i
  have h2 := cmsHash_lt x j
  unfold cmsCell
  omega

/-- The data memory after `ecms`: each row's cell incremented once, and the least of the four (R353). -/
theorem ecms_data (x : Word) (w : BitVec 13) (t : Tbl Word) :
    let q := (List.range 4).foldl (fun (q : Tbl Word × Word) row =>
      let k := (w.toNat + 256 * row + cmsHash x row) % 8192
      let v := satInc (tget q.1 k 0)
      (tset q.1 k v, if v.ult q.2 then v else q.2)) (t, BitVec.allOnes 64)
    let new := fun row => satInc (tget t (cmsCell x w row) 0)
    (∀ k, tget q.1 k 0 = if k = cmsCell x w 0 ∨ k = cmsCell x w 1 ∨ k = cmsCell x w 2 ∨ k = cmsCell x w 3 then satInc (tget t k 0) else tget t k 0) ∧
      q.2 = BitVec.ofNat 64 (min (min (new 0).toNat (new 1).toNat) (min (new 2).toNat (new 3).toNat)) := by
  have h01 := cmsCell_ne x w (i := 0) (j := 1) (by decide) (by decide) (by decide)
  have h02 := cmsCell_ne x w (i := 0) (j := 2) (by decide) (by decide) (by decide)
  have h03 := cmsCell_ne x w (i := 0) (j := 3) (by decide) (by decide) (by decide)
  have h12 := cmsCell_ne x w (i := 1) (j := 2) (by decide) (by decide) (by decide)
  have h13 := cmsCell_ne x w (i := 1) (j := 3) (by decide) (by decide) (by decide)
  have h23 := cmsCell_ne x w (i := 2) (j := 3) (by decide) (by decide) (by decide)
  have hr : List.range 4 = [0, 1, 2, 3] := rfl
  have hc : ∀ row, (w.toNat + 256 * row + cmsHash x row) % 8192 = cmsCell x w row := fun _ => rfl
  simp only [hr, List.foldl_cons, List.foldl_nil, hc, tget_tset, h01.symm, h02.symm, h03.symm, h12.symm, h13.symm, h23.symm, if_false]
  generalize cmsCell x w 0 = c0 at *
  generalize cmsCell x w 1 = c1 at *
  generalize cmsCell x w 2 = c2 at *
  generalize cmsCell x w 3 = c3 at *
  refine ⟨fun k => ?_, ?_⟩
  · grind
  · apply BitVec.eq_of_toNat_eq
    have hl : ∀ v : Word, v.toNat < 2 ^ 64 := fun v => v.isLt
    have h0 := hl (satInc (tget t c0 0))
    have h1 := hl (satInc (tget t c1 0))
    have h2 := hl (satInc (tget t c2 0))
    have h3 := hl (satInc (tget t c3 0))
    simp only [toNat_ite_ult, BitVec.toNat_ofNat, BitVec.toNat_allOnes]
    omega

/-- The data memory after `esamp`: the record in four words behind the count (R352). -/
theorem esamp_data (w : BitVec 13) (n : Word) (m : Quad) (t : Tbl Word) (k : Nat) :
    let at4 := fun j => (w.toNat + 1 + 4 * (n.toNat % 16) + j) % 8192
    tget (tset (tset (tset (tset (tset t (at4 0) m.w0) (at4 1) m.w1) (at4 2) m.w2) (at4 3) m.w3) w.toNat (n + 1)) k 0 =
      if k = w.toNat then n + 1 else if k = at4 0 then m.w0 else if k = at4 1 then m.w1 else if k = at4 2 then m.w2
      else if k = at4 3 then m.w3 else tget t k 0 := by
  intro at4
  have h : ∀ i j, i < 4 → j < 4 → i ≠ j → at4 i ≠ at4 j := fun i j _ _ _ => by
    show (_ + i) % 8192 ≠ (_ + j) % 8192
    omega
  have h01 := h 0 1 (by decide) (by decide) (by decide)
  have h02 := h 0 2 (by decide) (by decide) (by decide)
  have h03 := h 0 3 (by decide) (by decide) (by decide)
  have h12 := h 1 2 (by decide) (by decide) (by decide)
  have h13 := h 1 3 (by decide) (by decide) (by decide)
  have h23 := h 2 3 (by decide) (by decide) (by decide)
  simp only [tget_tset]
  grind

/-- A trigger of a core whose queue has room is its last message. -/
theorem trigger_posts {e : Nat} (r : EfcRun) (v : Word) (hc : s.hasCore (512 * (e / 68) + (s.efc e).tcore.toNat) = true)
    (hq : (s.core (512 * (e / 68) + (s.efc e).tcore.toNat)).mq.length < 64) : s.trigger e r v =
      (s.modCore (512 * (e / 68) + (s.efc e).tcore.toNat) (fun k => { k with mq := k.mq ++ [{
        w0 := BitVec.ofNat 64 (4 + e % 68 * 16 + r.slots.headD 0 * 2 ^ 11 + (recordTno r.record).toNat * 2 ^ 14),
        w1 := v, w2 := r.record.w0, w3 := BitVec.ofNat 64 s.time }] })).wakeX7 (512 * (e / 68) + (s.efc e).tcore.toNat) := by
  unfold State.trigger State.postMessage
  simp only [hc, Bool.not_true, Bool.false_eq_true, if_false, if_neg (Nat.not_le.2 hq), if_true]

theorem recordTno_eq (m : Quad) : recordTno m = m.w0.extractLsb' 13 12 := by
  apply BitVec.eq_of_toNat_eq
  simp [recordTno]

/-- Settles O46: the registers' part by `efc_yields`, the data memory's by what each instruction writes. -/
theorem filterInstructions : Obligations.FilterInstructions := by
  refine ⟨fun s r d a b im n c h => ?_, fun s r d a w h => ?_⟩
  · refine ⟨efc_yields h rfl rfl, efc_yields h rfl rfl, efc_yields h rfl rfl, efc_yields h rfl rfl, efc_yields h rfl rfl, efc_yields h rfl rfl,
      efc_yields h rfl rfl, efc_yields h rfl rfl, efc_yields h rfl rfl, efc_yields h rfl rfl, efc_yields h rfl (ite_ult_min _ _),
      efc_yields h rfl (ite_ult_max _ _), fun j h1 h2 => efc_yields h rfl ?_, fun h0 => efc_yields h rfl ?_,
      efc_goes h rfl ?_, efc_goes h rfl ?_, efc_goes h rfl ?_, efc_goes h rfl ?_⟩
    · have hn : r.reg a ≠ 0 := fun e => by
        have : 0 < 2 ^ j := by positivity
        have hz : (0 : Word).toNat = 0 := rfl
        have h1 : 2 ^ j ≤ (r.reg a).toNat := h1
        rw [e, hz] at h1
        omega
      have hl : (r.reg a).toNat.log2 = j := (Nat.log2_eq_iff (fun e => hn ((toNat_eq_zero_iff _).1 e))).2 ⟨h1, h2⟩
      rw [if_neg hn, hl]
    · rw [if_pos (show r.reg a = 0 from h0), Nat.min_zero]
      rfl
    · rw [← beq_eq_decide]
      rfl
    · rw [show decide (tget r.regs a.toNat 0 ≠ tget r.regs b.toNat 0) = (r.reg a != r.reg b) from ?_]
      · rfl
      · rw [bne, beq_eq_decide, decide_not]
        rfl
    · rfl
    · rw [show decide ((tget r.regs b.toNat 0).toNat ≤ (tget r.regs a.toNat 0).toNat) = !(r.reg a).ult (r.reg b) from ?_]
      · rfl
      · rw [BitVec.ult, ← decide_not]
        exact decide_eq_decide.2 Nat.not_lt.symm
  · have hrow := ecms_data (r.reg a) w (s.efc s.curEfc).data
    have goes : ∀ {i : Instr} {f : Efc → EfcRun → EfcStep} {data : Nat → Word} {regs dat : Tbl Word}, exec i s = .next (efcDo s f) →
        f (s.efc s.curEfc) r = { data := dat, regs := regs, move := some 1 } → (∀ k, tget dat k 0 = data k) → ∃ t, exec i s = .next t ∧
        (t.efc s.curEfc).run = r.goesOn (s.efc s.curEfc) 1 regs ∧ (∀ k, tget (t.efc s.curEfc).data k 0 = data k) ∧ t.mem = s.mem := by
      intro i f data regs dat hi hf hd
      obtain ⟨t, h1, h2, h3, -, -, h4, -⟩ := efc_goes h hi hf
      exact ⟨t, h1, h2, fun k => by rw [h3, hd], h4⟩
    refine ⟨goes rfl rfl fun _ => rfl, goes rfl rfl fun k => tget_tset _ _ _ _ _, goes rfl rfl fun k => ?_, ?_, goes rfl rfl fun k => ?_, ?_, ?_⟩
    · refine (tget_tset _ _ _ _ _).trans ?_
      show (if k = memIx (r.reg a) w then satInc (tget (s.efc s.curEfc).data (memIx (r.reg a) w) 0) else _) =
        if k = memIx (r.reg a) w then _ else _
      by_cases e : k = memIx (r.reg a) w
      · rw [if_pos e, if_pos e, ← e]
        exact satInc_eq _
      · rw [if_neg e, if_neg e]
    · obtain ⟨hd, hv⟩ := hrow
      have hend := goes (i := .ecms d a w) rfl rfl hd
      rw [hv] at hend
      simpa only [satInc_eq, cmsCell, cmsHash_eq, EfcRun.reg] using hend
    · exact esamp_data w _ r.record _ k
    · intro core hc hq
      have htr : exec (.etrig a) s = .next (efcDo (s.trigger s.curEfc r (r.reg a))
          (fun x r => { data := x.data, regs := r.regs, move := some 1 })) := by
        show execEtrig a s = _
        rw [execEtrig, h]
      rw [trigger_posts r (r.reg a) hc hq] at htr
      have hrun := fun m => efcDo_run (s := (s.modCore core (fun k => { k with mq := k.mq ++ [m] })).wakeX7 core) h
        (fun x r => { data := x.data, regs := r.regs, move := some 1 })
      obtain ⟨⟨-, hk, -⟩, hd, -, hr⟩ := hrun _
      refine ⟨_, htr, hr, hd, ?_⟩
      refine (congrArg (fun cs => (tget cs core Core.init).mq) hk).trans
        ((congrArg Core.mq (core_modCore_same s core (fun k => { k with mq := k.mq ++ [_] }))).trans ?_)
      rw [recordTno_eq, show s.time = s.clock * 5 / 16 from rfl]
      have hn : ∀ n : Nat, 4 + s.curEfc % 68 * 16 + r.slots.headD 0 * 2 ^ 11 + n * 2 ^ 14 =
          4 + 16 * (s.curEfc % 68) + 2 ^ 11 * r.slots.headD 0 + 2 ^ 14 * n := fun n => by omega
      rw [hn]
      rfl
    · obtain ⟨⟨-, -, hm⟩, hd, -, hr⟩ := efcDo_run h (fun x r => { data := x.data, regs := r.regs, move := none })
      exact ⟨_, rfl, hm, hd, hr⟩

end Sys2Proof.Machine
end

section
/-! PROOFS. Requests of units of no cluster for lines that no cluster tracks, and what comes from outside (O60). -/

namespace Sys2Proof.Machine

variable {s t : State}

/-! Requests for lines. -/

/-- A computation on every element of a list that changes nothing. -/
theorem mapM_still {ε α β : Type} {f : α → EStateM ε State β} {g : α → β} : ∀ (l : List α), (∀ a ∈ l, f a s = .ok (g a) s) →
    l.mapM f s = .ok (l.map g) s
  | [], _ => rfl
  | a :: l, h => by
    rw [List.mapM_cons, bind_ok (h a (by simp)), bind_ok (mapM_still l fun b hb => h b (by simp [hb]))]
    rfl

theorem tfind_zip_map {β : Type} (g : Nat → β) (w : Nat) : ∀ (l : List Nat), tfind (l.zip (l.map g)) w = if w ∈ l then some (g w) else none
  | [] => rfl
  | a :: l => by
    rw [List.map_cons, List.zip_cons_cons, tfind, tfind_zip_map g w l]
    by_cases h : a = w
    · subst h
      rw [if_pos rfl, if_pos (by simp)]
    · rw [if_neg h]
      have : w ∈ a :: l ↔ w ∈ l := by simp [Ne.symm h]
      simp only [this]

theorem mem_names {r : Req} {w : Nat} : w ∈ Req.names r ↔ w < 8 ∧ r.words.getLsbD w = true := by
  rw [Req.names, List.mem_filter, List.mem_range]

/-- A read of words that their home serves by itself: it ends well, changes memory's errors at most, and its reply holds
memory's words, valid where named. -/
theorem serveWords_reads {r : Req} (hs : s.slc = []) (hk : r.kind = .rdU ∨ r.kind = .rdW)
    (h : ∀ w ∈ Req.names r, AtHome s (r.line + 8 * w)) : ∃ v m t, serveWords r s = .ok (v, m) t ∧ Cured s t ∧
    ∀ w ∈ Req.names r, lineWord v w = memWord s.mem (r.line + 8 * w) ∧ m.getLsbD w = true := by
  have hw : ∀ w ∈ Req.names r, homeWord r w s = .ok (memWord s.mem (r.line + 8 * w)) s := fun w hw =>
    hk.elim (homeWord_rdU (h w hw)) (homeWord_rdW (h w hw))
  obtain ⟨v, m, t, h1, h2, h3⟩ := fillOf_ok hs r ((Req.names r).zip ((Req.names r).map fun w => memWord s.mem (r.line + 8 * w)))
  refine ⟨v, m, t, ?_, h2, fun w hw => ?_⟩
  · unfold serveWords
    rw [bind_ok (mapM_still _ hw)]
    rcases hk with hk | hk <;> simp only [hk, h1]
  · obtain ⟨b, hb, h4, h5⟩ := h3 w (mem_names.1 hw).1
    have hsome := hb.given (memWord s.mem (r.line + 8 * w)) (by rw [tfind_zip_map, if_pos hw])
    rw [h4, h5, hsome]
    exact ⟨rfl, rfl⟩

/-! Bytes of words. -/

theorem leBytes_getElem : ∀ (n x j : Nat) (h : j < (leBytes x n).length), (leBytes x n)[j] = BitVec.ofNat 8 (x / 256 ^ j)
  | 0, _, _, h => by rw [leBytes_length] at h; omega
  | n + 1, x, 0, _ => by simp [leBytes]
  | n + 1, x, j + 1, h => by
    have hl : j < (leBytes (x / 256) n).length := by rw [leBytes_length] at h ⊢; omega
    show (leBytes (x / 256) n)[j] = _
    rw [leBytes_getElem n (x / 256) j hl, Nat.div_div_eq_div_mul, ← Nat.pow_succ']

theorem leValue_byte : ∀ (bs : List (BitVec 8)) (j : Nat), leValue bs / 256 ^ j % 256 = (bs.getD j 0).toNat
  | [], j => by simp [leValue]
  | b :: bs, 0 => by
    have := b.isLt
    simp [leValue]
    omega
  | b :: bs, j + 1 => by
    have hb := b.isLt
    rw [leValue, Nat.pow_succ', ← Nat.div_div_eq_div_mul, show (b.toNat + 256 * leValue bs) / 256 = leValue bs by omega, leValue_byte bs j]
    rfl

theorem memBytes_getD (m : List Host.Cell) : ∀ (n a j : Nat), j < n → (memBytes m a n).getD j 0 = memByte m (a + j)
  | n + 1, a, 0, _ => rfl
  | n + 1, a, j + 1, h => by
    rw [memBytes, List.getD_cons_succ, memBytes_getD m n (a + 1) j (by omega)]
    congr 1
    omega

/-- A byte of a word. -/
def byteOf (x : Word) (j : Nat) : BitVec 8 := x.extractLsb' (8 * j) 8

theorem byteOf_eq (x : Word) (j : Nat) : byteOf x j = BitVec.ofNat 8 (x.toNat / 256 ^ j) := by
  apply BitVec.eq_of_toNat_eq
  rw [byteOf, BitVec.extractLsb'_toNat, BitVec.toNat_ofNat, Nat.shiftRight_eq_div_pow, Nat.pow_mul]

theorem leValue_lt : ∀ (bs : List (BitVec 8)), leValue bs < 256 ^ bs.length
  | [] => by simp [leValue]
  | b :: bs => by
    have h := leValue_lt bs
    have hb := b.isLt
    rw [leValue, List.length_cons, Nat.pow_succ']
    omega

theorem memBytes_length (m : List Host.Cell) : ∀ (n a : Nat), (memBytes m a n).length = n
  | 0, _ => rfl
  | n + 1, a => by rw [memBytes, List.length_cons, memBytes_length m n]

theorem byteOf_memWord (m : List Host.Cell) (a : Nat) {j : Nat} (hj : j < 8) : byteOf (memWord m a) j = memByte m (a + j) := by
  have hl := leValue_lt (memBytes m a 8)
  rw [memBytes_length] at hl
  apply BitVec.eq_of_toNat_eq
  rw [byteOf_eq, memWord, BitVec.toNat_ofNat, BitVec.toNat_ofNat, Nat.mod_eq_of_lt (a := leValue _) (by omega), leValue_byte,
    memBytes_getD m 8 a j hj]

/-- A byte of a word written reads back. -/
theorem memByte_memPutWord_inside {m : List Host.Cell} (h : Memory.wf m = true) (a : Nat) (x : Word) {j : Nat} (hj : j < 8) :
    memByte (memPutWord m a x) (a + j) = byteOf x j := by
  have hl : j < (leBytes x.toNat 8).length := by rw [leBytes_length]; exact hj
  rw [memPutWord, memByte_memPuts_inside _ a j h hl, leBytes_getElem, byteOf_eq]

theorem byteOf_mergeWord (old x : Word) (mask : BitVec 8) {j : Nat} (hj : j < 8) :
    byteOf (mergeWord old x mask) j = if mask.getLsbD j then byteOf x j else byteOf old j := by
  apply BitVec.eq_of_getLsbD_eq
  intro i hi
  have h1 : 8 * j + i < 64 := by omega
  have h2 : (8 * j + i) / 8 = j := by omega
  have h3 : (BitVec.ofNat 64 (spread mask 8)).getLsbD (8 * j + i) = mask.getLsbD j := by
    rw [BitVec.getLsbD_ofNat, spread_testBit, h2]
    simp [h1]
  have he : ∀ v : Word, (byteOf v j).getLsbD i = v.getLsbD (8 * j + i) := fun v => by
    rw [byteOf, BitVec.getLsbD_extractLsb']
    simp [hi]
  cases hm : mask.getLsbD j with
  | true =>
    rw [if_pos rfl, he, he, mergeWord, BitVec.getLsbD_or, BitVec.getLsbD_and, BitVec.getLsbD_and, BitVec.getLsbD_not, h3, hm]
    simp
  | false =>
    rw [if_neg (by simp), he, he, mergeWord, BitVec.getLsbD_or, BitVec.getLsbD_and, BitVec.getLsbD_and, BitVec.getLsbD_not, h3, hm]
    simp [h1]

/-- A word of memory after some of its bytes are written, byte by byte. -/
theorem memByte_merged {m : List Host.Cell} (h : Memory.wf m = true) (a : Nat) (x : Word) (mask : BitVec 8) (q : Nat) :
    memByte (memPutWord m a (mergeWord (memWord m a) x mask)) q =
      if a ≤ q ∧ q < a + 8 ∧ mask.getLsbD (q - a) = true then byteOf x (q - a) else memByte m q := by
  by_cases hq : a ≤ q ∧ q < a + 8
  · obtain ⟨j, rfl⟩ : ∃ j, q = a + j := ⟨q - a, by omega⟩
    have hj : j < 8 := by omega
    rw [memByte_memPutWord_inside h a _ hj, byteOf_mergeWord _ _ _ hj, byteOf_memWord m a hj, Nat.add_sub_cancel_left]
    simp only [hq, true_and]
  · rw [memByte_memPutWord h _ (by omega), if_neg (by omega)]

/-! Lines that no cluster tracks, written. -/

/-- Only memory, its errors and what units record differ; the directory tracks what it tracked, and no error is new. -/
structure Placed (s t : State) : Prop where
  same : ∃ mem dir errs slc efcs ctrs energy fresh,
    t = { s with mem := mem, dir := dir, errs := errs, slc := slc, efcs := efcs, ctrs := ctrs, energy := energy, fresh := fresh }
  dirOf : ∀ l, t.dirOf l = s.dirOf l
  errs : ∀ a, tfind s.errs a = none → tfind t.errs a = none
  slc : s.slc = [] → t.slc = []

theorem Noted.placed (h : Noted s t) : Placed s t := by
  obtain ⟨a, b, c, d, rfl⟩ := h
  exact ⟨⟨s.mem, s.dir, s.errs, s.slc, a, b, c, d, rfl⟩, fun _ => rfl, fun _ h => h, fun h => h⟩

theorem Placed.refl (s : State) : Placed s s := (Noted.refl s).placed

theorem Placed.trans {u : State} (h : Placed s t) (g : Placed t u) : Placed s u := by
  refine ⟨?_, fun l => (g.dirOf l).trans (h.dirOf l), fun a ha => g.errs a (h.errs a ha), fun hs => g.slc (h.slc hs)⟩
  obtain ⟨m, d, e, l, a, b, c, f, rfl⟩ := h.same
  obtain ⟨m', d', e', l', a', b', c', f', rfl⟩ := g.same
  exact ⟨m', d', e', l', a', b', c', f', rfl⟩

section
variable (h : Placed s t)
include h

theorem Placed.flights : t.flights = s.flights := by obtain ⟨m, d, e, l, a, b, c, f, rfl⟩ := h.same; rfl
theorem Placed.ctxs : t.ctxs = s.ctxs := by obtain ⟨m, d, e, l, a, b, c, f, rfl⟩ := h.same; rfl
theorem Placed.clusters : t.clusters = s.clusters := by obtain ⟨m, d, e, l, a, b, c, f, rfl⟩ := h.same; rfl
theorem Placed.outbox : t.outbox = s.outbox := by obtain ⟨m, d, e, l, a, b, c, f, rfl⟩ := h.same; rfl
theorem Placed.pkg (k : Nat) : t.pkg k = s.pkg k := by obtain ⟨m, d, e, l, a, b, c, f, rfl⟩ := h.same; rfl
theorem Placed.clock : t.clock = s.clock := by obtain ⟨m, d, e, l, a, b, c, f, rfl⟩ := h.same; rfl
theorem Placed.tableBacked (here pa : Nat) : t.tableBacked here pa = s.tableBacked here pa := by
  obtain ⟨m, d, e, l, a, b, c, f, rfl⟩ := h.same; rfl

end

/-- The directory's entry of a line that is not tracked, changed to itself. -/
theorem placed_modDir {line : Nat} (hd : s.dirOf line = DirEntry.absent) {f : DirEntry → DirEntry} (hf : f DirEntry.absent = DirEntry.absent) :
    Placed s (s.modDir line f) := by
  refine ⟨⟨s.mem, _, s.errs, s.slc, s.efcs, s.ctrs, s.energy, s.fresh, rfl⟩, fun l => ?_, fun _ h => h, fun h => h⟩
  by_cases hl : l = line
  · subst hl
    refine (tget_modEntry_same s.dir l f).trans ?_
    rw [show tget s.dir l DirEntry.absent = DirEntry.absent from hd, hf, ite_self]
    exact hd.symm
  · exact tget_modEntry_other s.dir hl f

theorem placed_putWord (s : State) (pa : Nat) (x : Word) (mask : BitVec 8) : Placed s (s.putWord pa x mask) := by
  refine ⟨⟨_, s.dir, _, _, s.efcs, s.ctrs, s.energy, s.fresh, rfl⟩, fun _ => rfl, fun a ha => ?_, fun h => ?_⟩
  · show tfind (if mask = 255#8 then tdel s.errs pa else s.errs) a = none
    split
    · rw [tfind_tdel, ha, ite_self]
    · exact ha
  · show (if mask = 255#8 then tdel s.slc pa else s.slc) = []
    rw [h]
    exact ite_self _

/-- A line without sharers has no copy to invalidate. -/
theorem invalidateWord_untracked {pa : Nat} (h : s.dirOf (lineOf pa) = DirEntry.absent) (excl : Option Nat) :
    Placed s (s.invalidateWord pa excl) ∧ (s.invalidateWord pa excl).mem = s.mem := by
  have hs : s.sharersOf (lineOf pa) = [] := by
    rw [State.sharersOf, h]
    rfl
  unfold State.invalidateWord
  rw [hs]
  exact ⟨placed_modDir h rfl, rfl⟩

theorem homeStores_untracked {r : Req} {w : Nat} (h : s.dirOf (lineOf (r.line + 8 * w)) = DirEntry.absent) (excl : Option Nat) :
    Placed s (s.homeStores r w excl) ∧ (s.homeStores r w excl).mem =
      memPutWord s.mem (r.line + 8 * w) (mergeWord (memWord s.mem (r.line + 8 * w)) (lineWord r.data w) (wordMask r.mask w)) := by
  have hp := placed_putWord s (r.line + 8 * w) (lineWord r.data w) (wordMask r.mask w)
  obtain ⟨h1, h2⟩ := invalidateWord_untracked (pa := r.line + 8 * w) ((hp.dirOf _).trans h) excl
  exact ⟨hp.trans h1, h2⟩

/-- The bytes that a request writes into the words of its line. -/
def reqWrites (r : Req) (l : List Nat) (q : Nat) : Prop :=
  ∃ w ∈ l, r.line + 8 * w ≤ q ∧ q < r.line + 8 * w + 8 ∧ (wordMask r.mask w).getLsbD (q - (r.line + 8 * w)) = true

/-- The words of a write of a unit of no cluster, performed one after another. -/
theorem mapM_homeWord_writes {r : Req} (hl : r.line % 64 = 0) (hk : r.kind = .wrW ∨ r.kind = .putLine) (hr : r.src = none) : ∀ (l : List Nat), (∀ w ∈ l, w < 8) →
    ∀ {s : State}, s.flights = [] → s.dirOf r.line = DirEntry.absent → Memory.wf s.mem = true →
    ∃ vs t, l.mapM (homeWord r) s = .ok vs t ∧ Placed s t ∧ Memory.wf t.mem = true ∧
      (∀ q, reqWrites r l q → memByte t.mem q = byteOf (lineWord r.data ((q - r.line) / 8)) ((q - r.line) % 8)) ∧
      ∀ q, ¬ reqWrites r l q → memByte t.mem q = memByte s.mem q
  | [], _, s, _, _, hm => ⟨[], s, rfl, .refl s, hm, fun q ⟨w, h, _⟩ => absurd h (by simp), fun _ _ => rfl⟩
  | w :: l, hw, s, hf, hd, hm => by
    have hw8 := hw w (by simp)
    have hline := lineOf_add hl hw8
    have ho : s.ownerOf (r.line + 8 * w) = none := by
      unfold State.ownerOf
      rw [hline, hd]
      rfl
    have hone : homeWord r w s = .ok 0 (s.homeStores r w r.src) := by
      rcases hk with hk | hk
      · exact homeWord_wrW hf ho hk
      · rw [hr]
        exact homeWord_putLine hf ho hk
    obtain ⟨hp, hmem⟩ := homeStores_untracked (s := s) (r := r) (w := w) (by rw [hline]; exact hd) r.src
    have hm1 : Memory.wf (s.homeStores r w r.src).mem = true := by rw [hmem]; exact wf_memPutWord _ _ hm
    obtain ⟨vs, t, h1, h2, h3, h4, h5⟩ := mapM_homeWord_writes hl hk hr l (fun v hv => hw v (by simp [hv]))
      (hp.flights.trans hf) ((hp.dirOf _).trans hd) hm1
    have hfirst := fun q => memByte_merged hm (r.line + 8 * w) (lineWord r.data w) (wordMask r.mask w) q
    rw [← hmem] at hfirst
    refine ⟨0 :: vs, t, ?_, hp.trans h2, h3, fun q hq => ?_, fun q hq => ?_⟩
    · rw [List.mapM_cons, bind_ok hone, bind_ok h1]
      rfl
    · by_cases hl' : reqWrites r l q
      · exact h4 q hl'
      · obtain ⟨v, hv, h6, h7, h8⟩ := hq
        have hvw : v = w := by
          rcases List.mem_cons.1 hv with h | h
          · exact h
          · exact absurd ⟨v, h, h6, h7, h8⟩ hl'
        subst hvw
        rw [h5 q hl', hfirst, if_pos ⟨h6, h7, h8⟩]
        have e1 : (q - r.line) / 8 = v := by omega
        have e2 : (q - r.line) % 8 = q - (r.line + 8 * v) := by omega
        rw [e1, e2]
    · rw [h5 q fun ⟨v, hv, h⟩ => hq ⟨v, by simp [hv], h⟩, hfirst, if_neg fun h => hq ⟨w, by simp, h⟩]

/-! Requests of devices, hosts and the debug port. -/

section
variable {kind : ReqKind} {pa : Nat} {bytes : List (BitVec 8)} {tno : BitVec 12}

/-- A run of bytes in one line names the words in which it has a byte. -/
theorem names_outside {w : Nat} : w ∈ Req.names (Req.outside kind pa bytes tno) ↔
    w < 8 ∧ lineOf pa + 8 * w < pa + bytes.length ∧ pa < lineOf pa + 8 * w + 8 := by
  obtain ⟨-, hbit⟩ := testBit_sum_two_pow (fun w => (decide (lineOf pa + 8 * w < pa + bytes.length) && decide (pa < lineOf pa + 8 * w + 8)) = true) 8
  rw [mem_names]
  show w < 8 ∧ (BitVec.ofNat 8 _).getLsbD w = true ↔ _
  rw [BitVec.getLsbD_ofNat, hbit]
  simp

theorem outside_mask {k : Nat} (hk : k < 64) :
    (Req.outside kind pa bytes tno).mask.getLsbD k = (decide (pa % 64 ≤ k) && decide (k < pa % 64 + bytes.length)) := by
  show (BitVec.ofNat 64 ((2 ^ bytes.length - 1) * 2 ^ (pa % 64))).getLsbD k = _
  rw [BitVec.getLsbD_ofNat, Nat.testBit_mul_two_pow, Nat.testBit_two_pow_sub_one]
  by_cases h1 : pa % 64 ≤ k
  · have h2 : (k - pa % 64 < bytes.length) ↔ k < pa % 64 + bytes.length := by omega
    simp [hk, h1, h2]
  · simp [h1]

theorem outside_data {k : Nat} (hk : pa % 64 ≤ k) (hk2 : k < 64) :
    byteOf (lineWord (Req.outside kind pa bytes tno).data (k / 8)) (k % 8) = bytes.getD (k - pa % 64) 0 := by
  apply BitVec.eq_of_getLsbD_eq
  intro i hi
  have h1 : 8 * (k % 8) + i < 64 := by omega
  have h2 : 64 * (k / 8) + (8 * (k % 8) + i) = 8 * k + i := by omega
  have h3 : 8 * k + i = 8 * (k - pa % 64) + i + 8 * (pa % 64) := by omega
  have h4 : 8 * k + i < 512 := by omega
  have hd : (Req.outside kind pa bytes tno).data = BitVec.ofNat 512 (leValue bytes * 2 ^ (8 * (pa % 64))) := by
    rw [Nat.pow_mul]
    rfl
  rw [byteOf, BitVec.getLsbD_extractLsb', decide_eq_true hi, Bool.true_and, lineWord_getLsbD _ _ h1, h2, hd, BitVec.getLsbD_ofNat,
    Nat.testBit_mul_two_pow, decide_eq_true h4, Bool.true_and, h3, Nat.add_sub_cancel, ← BitVec.testBit_toNat, ← leValue_byte,
    show (256 : Nat) = 2 ^ 8 from rfl, ← Nat.pow_mul, Nat.testBit_mod_two_pow, Nat.testBit_div_two_pow]
  simp [hi, Nat.add_comm]

/-- What a request of a unit of no cluster needs of its home: nothing is under way, no cluster tracks the line, and no Frame
Ownership Table is in force. -/
structure Untracked (s : State) (pa : Nat) : Prop where
  flights : s.flights = []
  slices : s.slc = []
  entry : s.dirOf (lineOf pa) = DirEntry.absent
  frames : (s.pkg (sockOf pa)).fotbase = 0

theorem Placed.untracked (h : Placed s t) {a : Nat} (u : Untracked s a) : Untracked t a :=
  ⟨h.flights.trans u.flights, h.slc u.slices, (h.dirOf _).trans u.entry, by rw [h.pkg]; exact u.frames⟩

theorem Cured.placed (h : Cured s t) : Placed s t := by
  obtain ⟨e, b, c, d, f, rfl⟩ := h.same
  exact ⟨⟨s.mem, s.dir, e, s.slc, b, c, d, f, rfl⟩, fun _ => rfl, h.none, fun h => h⟩

theorem Untracked.owner {a : Nat} (u : Untracked s a) {w : Nat} (hw : w < 8) : s.ownerOf (lineOf a + 8 * w) = none := by
  unfold State.ownerOf
  rw [lineOf_add (lineOf_mod a) hw, u.entry]
  rfl

theorem charged_noted (s : State) (r : Req) : Noted s (s.charged r) := keep_chargeHome (quiet_noted s) (keep_draw (quiet_noted s) (Noted.refl s))

/-- The service of such a request is the transitions of its words. -/
theorem serve_outside (u : Untracked s pa) :
    serve (Req.outside kind pa bytes tno) s = serveWords (Req.outside kind pa bytes tno) (s.charged (Req.outside kind pa bytes tno)) :=
  serve_eq rfl (by show (s.pkg (sockOf (lineOf pa))).fotbase = 0; rw [sockOf_lineOf]; exact u.frames) u.slices (.inl rfl)

/-- The transitions of a write of a run of bytes in one line: its bytes stand in memory, and no other byte of memory changes. -/
theorem serveWords_outside_write (hk : kind = .wrW ∨ kind = .putLine) (u : Untracked s pa) (hm : Memory.wf s.mem = true) (hfit : pa % 64 + bytes.length ≤ 64) :
    ∃ v t, serveWords (Req.outside kind pa bytes tno) s = .ok v t ∧ Placed s t ∧ Memory.wf t.mem = true ∧
      ∀ q, memByte t.mem q = if pa ≤ q ∧ q < pa + bytes.length then bytes.getD (q - pa) 0 else memByte s.mem q := by
  let r := Req.outside kind pa bytes tno
  obtain ⟨vs, t, h1, h2, h3, h4, h5⟩ := mapM_homeWord_writes (r := r) (lineOf_mod pa) hk rfl (Req.names r) (fun w hw => (mem_names.1 hw).1) u.flights u.entry hm
  have hd : t.dirOf (lineOf pa) = DirEntry.absent := (h2.dirOf _).trans u.entry
  refine ⟨(0, r.words), t.stampPostmark r, ?_, h2.trans (placed_modDir hd rfl), h3, fun q => ?_⟩
  · rw [serveWords, bind_ok h1]
    rcases hk with rfl | rfl <;> rfl
  · show memByte t.mem q = _
    have hline : r.line = lineOf pa := rfl
    have hlo : lineOf pa = pa - pa % 64 := rfl
    by_cases hq : pa ≤ q ∧ q < pa + bytes.length
    · obtain ⟨k, hk⟩ : ∃ k, q = lineOf pa + k := ⟨q - lineOf pa, by omega⟩
      have hk1 : pa % 64 ≤ k := by omega
      have hk2 : k < pa % 64 + bytes.length := by omega
      have hw : reqWrites r (Req.names r) q := by
        refine ⟨k / 8, names_outside.2 (by omega), by omega, by omega, ?_⟩
        rw [wordMask, BitVec.getLsbD_setWidth, BitVec.getLsbD_ushiftRight, hline, show 8 * (k / 8) + (q - (lineOf pa + 8 * (k / 8))) = k by omega,
          outside_mask (by omega), decide_eq_true (by omega : q - (lineOf pa + 8 * (k / 8)) < 8), decide_eq_true hk1, decide_eq_true hk2]
        rfl
      rw [if_pos hq, h4 q hw, hline, show q - lineOf pa = k by omega, outside_data hk1 (by omega), show q - pa = k - pa % 64 by omega]
    · rw [if_neg hq, h5 q]
      rintro ⟨w, hw, h6, h7, h8⟩
      have hw8 := (names_outside.1 hw).1
      rw [wordMask, BitVec.getLsbD_setWidth, BitVec.getLsbD_ushiftRight, show 8 * w + (q - (r.line + 8 * w)) = q - r.line by omega,
        outside_mask (by omega), hline] at h8
      simp only [Bool.and_eq_true, decide_eq_true_eq] at h8
      omega

/-- A write of a run of bytes in one line, served. -/
theorem serve_outside_write (hk : kind = .wrW ∨ kind = .putLine) (u : Untracked s pa) (hm : Memory.wf s.mem = true) (hfit : pa % 64 + bytes.length ≤ 64) :
    ∃ v t, serve (Req.outside kind pa bytes tno) s = .ok v t ∧ Placed s t ∧ Memory.wf t.mem = true ∧
      ∀ q, memByte t.mem q = if pa ≤ q ∧ q < pa + bytes.length then bytes.getD (q - pa) 0 else memByte s.mem q := by
  have hn := (charged_noted s (Req.outside kind pa bytes tno)).placed
  have hmem := (still_charged s (Req.outside kind pa bytes tno)).mem
  obtain ⟨v, t, h1, h2, h3, h4⟩ := serveWords_outside_write (bytes := bytes) (tno := tno) hk (hn.untracked u) (by rw [hmem]; exact hm) hfit
  rw [hmem] at h4
  exact ⟨v, t, (serve_outside u).trans h1, hn.trans h2, h3, h4⟩

/-- A read of a run of bytes in one line: the reply holds memory's bytes. -/
theorem serve_outside_read (u : Untracked s pa) (hpos : 0 < bytes.length) (hfit : pa % 64 + bytes.length ≤ 64)
    (he : ∀ j < bytes.length, tfind s.errs (wordOf (pa + j)) = none) :
    ∃ v t, serve (Req.outside .rdW pa bytes tno) s = .ok v t ∧ Cured s t ∧
      ∀ j < bytes.length, byteOf (lineWord v.1 ((pa % 64 + j) / 8)) ((pa % 64 + j) % 8) = memByte s.mem (pa + j) := by
  let r := Req.outside .rdW pa bytes tno
  have hn := (charged_noted s r).cured
  have u2 := hn.placed.untracked u
  have hlo : lineOf pa = pa - pa % 64 := rfl
  have hhome : ∀ w ∈ Req.names r, AtHome (s.charged r) (r.line + 8 * w) := by
    intro w hw
    obtain ⟨h1, h2, h3⟩ := names_outside.1 hw
    refine ⟨u2.flights, u2.owner h1, by rw [u2.slices]; rfl, hn.none _ ?_⟩
    show tfind s.errs (lineOf pa + 8 * w) = none
    rcases Nat.lt_or_ge pa (lineOf pa + 8 * w) with h | h
    · have := he (lineOf pa + 8 * w - pa) (by omega)
      rwa [show wordOf (pa + (lineOf pa + 8 * w - pa)) = lineOf pa + 8 * w by unfold wordOf; omega] at this
    · have := he 0 (by omega)
      rwa [show wordOf (pa + 0) = lineOf pa + 8 * w by unfold wordOf; omega] at this
  obtain ⟨v, m, t, h1, h2, h3⟩ := serveWords_reads (r := r) u2.slices (.inr rfl) hhome
  refine ⟨(v, m), t, by rw [serve_outside u]; exact h1, hn.trans h2, fun j hj => ?_⟩
  obtain ⟨h4, -⟩ := h3 ((pa % 64 + j) / 8) (names_outside.2 (by omega))
  rw [h4, hn.mem, byteOf_memWord _ _ (by omega)]
  congr 1
  show lineOf pa + 8 * ((pa % 64 + j) / 8) + (pa % 64 + j) % 8 = pa + j
  omega

end

/-! Runs of bytes, line by line. -/

/-- What a run of bytes needs, byte by byte, to be reached from a socket. -/
def Reachable (s : State) (sock a n : Nat) : Prop := ∀ j < n, s.tableBacked sock (a + j) = true ∧ Untracked s (a + j)

theorem Placed.reachable {sock a n : Nat} (h : Placed s t) (r : Reachable s sock a n) : Reachable t sock a n :=
  fun j hj => ⟨by rw [h.tableBacked]; exact (r j hj).1, h.untracked (r j hj).2⟩

theorem Reachable.drop {sock a n k : Nat} (r : Reachable s sock a n) (hk : k ≤ n) : Reachable s sock (a + k) (n - k) := fun j hj => by
  rw [Nat.add_assoc]
  exact r (k + j) (by omega)

theorem serveLate_outside {pa : Nat} {bytes : List (BitVec 8)} {tno : BitVec 12} {v : Vec × BitVec 8}
    (h : serve (Req.outside .wrW pa bytes tno) s = .ok v t) : (s.serveLate (Req.outside .wrW pa bytes tno)).1 = t := by
  unfold State.serveLate
  rw [if_neg (by simp [State.reaches, Req.outside]), h]

/-- The pieces of a run, written one after another. -/
theorem inboundWrite_pieces (sock : Nat) (tno : BitVec 12) : ∀ (fuel pa : Nat) (bytes : List (BitVec 8)) {s : State},
    pa % 64 + bytes.length ≤ 64 * fuel → Reachable s sock pa bytes.length → Memory.wf s.mem = true →
    ∃ t, (cutLines fuel pa bytes).foldl (fun s p =>
        if s.tableBacked sock p.pa then (s.serveLate (Req.outside .wrW p.pa p.bytes tno)).1 else s) s = t ∧ Placed s t ∧
      ∀ q, memByte t.mem q = if pa ≤ q ∧ q < pa + bytes.length then bytes.getD (q - pa) 0 else memByte s.mem q
  | 0, pa, bytes, s, hfuel, _, _ => ⟨s, rfl, .refl s, fun q => by rw [if_neg (by omega)]⟩
  | fuel + 1, pa, bytes, s, hfuel, hr, hm => by
    unfold cutLines
    by_cases he : bytes = []
    · subst he
      exact ⟨s, rfl, .refl s, fun q => by rw [if_neg (by simp)]⟩
    · have hlen : 0 < bytes.length := List.length_pos_iff.2 he
      have hb : bytes.isEmpty = false := by simpa using he
      simp only [hb, Bool.false_eq_true, if_false, List.foldl_cons]
      obtain ⟨hback, hun⟩ := hr 0 hlen
      rw [Nat.add_zero] at hback hun
      obtain ⟨v, t, h1, h2, h3, h4⟩ := serve_outside_write (kind := .wrW) (bytes := bytes.take (64 - pa % 64)) (tno := tno) (.inl rfl) hun hm
        (by rw [List.length_take]; omega)
      rw [if_pos hback, serveLate_outside h1]
      rw [List.length_take] at h4
      by_cases hmore : bytes.length ≤ 64 - pa % 64
      · have hrest : bytes.drop (64 - pa % 64) = [] := List.drop_eq_nil_of_le hmore
        rw [hrest]
        refine ⟨t, ?_, h2, fun q => ?_⟩
        · cases fuel <;> rfl
        · rw [h4, min_eq_right hmore, List.take_of_length_le hmore]
      · obtain ⟨u, h5, h6, h7⟩ := inboundWrite_pieces sock tno fuel (pa + (64 - pa % 64)) (bytes.drop (64 - pa % 64))
          (by rw [List.length_drop]; omega) (by rw [List.length_drop]; exact (h2.reachable hr).drop (by omega)) h3
        refine ⟨u, h5, h2.trans h6, fun q => ?_⟩
        rw [h7, h4, List.length_drop, min_eq_left (by omega)]
        simp only [List.getD_eq_getElem?_getD, List.getElem?_drop, List.getElem?_take]
        by_cases hq : pa + (64 - pa % 64) ≤ q
        · have hiff : (pa + (64 - pa % 64) ≤ q ∧ q < pa + (64 - pa % 64) + (bytes.length - (64 - pa % 64))) ↔ (pa ≤ q ∧ q < pa + bytes.length) := by
            omega
          rw [if_neg (c := pa ≤ q ∧ q < pa + (64 - pa % 64)) (by omega),
            show 64 - pa % 64 + (q - (pa + (64 - pa % 64))) = q - pa by omega]
          simp only [hiff]
        · have hiff : (pa ≤ q ∧ q < pa + (64 - pa % 64)) ↔ (pa ≤ q ∧ q < pa + bytes.length) := by omega
          have hk : pa ≤ q → q - pa < 64 - pa % 64 := by omega
          rw [if_neg (c := pa + (64 - pa % 64) ≤ q ∧ _) (by omega)]
          simp only [hiff]
          split
          · next h => rw [if_pos (hk h.1)]
          · rfl

theorem byteOf_lineWord (v : Vec) (k : Nat) : byteOf (lineWord v (k / 8)) (k % 8) = BitVec.ofNat 8 (v.toNat / 256 ^ k) := by
  apply BitVec.eq_of_getLsbD_eq
  intro i hi
  have h1 : 8 * (k % 8) + i < 64 := by omega
  have h2 : 64 * (k / 8) + (8 * (k % 8) + i) = 8 * k + i := by omega
  rw [byteOf, BitVec.getLsbD_extractLsb', decide_eq_true hi, Bool.true_and, lineWord_getLsbD _ _ h1, h2, BitVec.getLsbD_ofNat,
    show (256 : Nat) = 2 ^ 8 from rfl, ← Nat.pow_mul, Nat.testBit_div_two_pow, ← BitVec.testBit_toNat, Nat.add_comm i]
  simp [hi]

/-- The bytes of memory from an address. -/
def bytesAt (m : List Host.Cell) (a n : Nat) : List (BitVec 8) := (List.range n).map (fun j => memByte m (a + j))

theorem bytesAt_length (m : List Host.Cell) (a n : Nat) : (bytesAt m a n).length = n := by simp [bytesAt]

theorem bytesAt_getElem (m : List Host.Cell) (a n : Nat) {j : Nat} (h : j < (bytesAt m a n).length) : (bytesAt m a n)[j] = memByte m (a + j) := by
  simp [bytesAt]

theorem bytesAt_append (m : List Host.Cell) (a k n : Nat) : bytesAt m a k ++ bytesAt m (a + k) n = bytesAt m a (k + n) := by
  unfold bytesAt
  rw [List.range_add, List.map_append, List.map_map]
  congr 1
  exact List.map_congr_left fun j _ => by rw [Function.comp, Nat.add_assoc]

/-- The bytes that a read of a piece gives. -/
theorem piece_got {v : Vec} {m : List Host.Cell} {pa n : Nat}
    (h : ∀ j < n, byteOf (lineWord v ((pa % 64 + j) / 8)) ((pa % 64 + j) % 8) = memByte m (pa + j)) :
    leBytes (v.toNat / 256 ^ (pa % 64)) n = bytesAt m pa n := by
  refine List.ext_getElem (by rw [leBytes_length, bytesAt_length]) fun j h1 h2 => ?_
  rw [leBytes_length] at h1
  rw [leBytes_getElem, bytesAt_getElem, ← h j h1, byteOf_lineWord, Nat.div_div_eq_div_mul, ← Nat.pow_add]

theorem Cured.reachable {sock a n : Nat} (h : Cured s t) (r : Reachable s sock a n) : Reachable t sock a n := h.placed.reachable r

/-- The pieces of a run, read one after another. -/
theorem inboundRead_pieces (sock : Nat) (tno : BitVec 12) : ∀ (fuel pa n : Nat) {s : State}, pa % 64 + n ≤ 64 * fuel →
    Reachable s sock pa n → (∀ j < n, tfind s.errs (wordOf (pa + j)) = none) →
    ∃ t, inboundRead sock tno (cutLines fuel pa (List.replicate n 0)) s = (some (bytesAt s.mem pa n), t) ∧ Cured s t
  | 0, pa, n, s, hfuel, _, _ => by
    obtain rfl : n = 0 := by omega
    exact ⟨s, rfl, .refl s⟩
  | fuel + 1, pa, n, s, hfuel, hr, he => by
    unfold cutLines
    by_cases hn : n = 0
    · subst hn
      exact ⟨s, rfl, .refl s⟩
    · have hb : (List.replicate n (0 : BitVec 8)).isEmpty = false := by simpa using hn
      simp only [hb, Bool.false_eq_true, if_false]
      obtain ⟨hback, hun⟩ := hr 0 (by omega)
      rw [Nat.add_zero] at hback hun
      have hlen : ((List.replicate n (0 : BitVec 8)).take (64 - pa % 64)).length = min (64 - pa % 64) n := by simp
      obtain ⟨v, t, h1, h2, h3⟩ := serve_outside_read (bytes := (List.replicate n (0 : BitVec 8)).take (64 - pa % 64)) (tno := tno) hun
        (by rw [hlen]; omega) (by rw [hlen]; omega) (fun j hj => he j (by rw [hlen] at hj; omega))
      rw [hlen] at h3
      have hgot := piece_got h3
      have hdrop : (List.replicate n (0 : BitVec 8)).drop (64 - pa % 64) = List.replicate (n - (64 - pa % 64)) 0 := by simp
      unfold inboundRead
      simp only [hback, if_true, h1, hlen, hgot, hdrop]
      by_cases hmore : n ≤ 64 - pa % 64
      · have hrest : inboundRead sock tno (cutLines fuel (pa + (64 - pa % 64)) (List.replicate (n - (64 - pa % 64)) 0)) t = (some [], t) := by
          rw [show n - (64 - pa % 64) = 0 by omega]
          cases fuel <;> rfl
        rw [hrest, min_eq_right hmore]
        exact ⟨t, by simp, h2⟩
      · obtain ⟨u, h5, h6⟩ := inboundRead_pieces sock tno fuel (pa + (64 - pa % 64)) (n - (64 - pa % 64)) (s := t) (by omega)
          ((h2.reachable hr).drop (by omega)) (fun j hj => h2.none _ (by rw [Nat.add_assoc]; exact he _ (by omega)))
        rw [h5, min_eq_left (by omega)]
        refine ⟨u, ?_, h2.trans h6⟩
        simp only [Option.map_some]
        rw [h2.mem, bytesAt_append, show 64 - pa % 64 + (n - (64 - pa % 64)) = n by omega]

end Sys2Proof.Machine
end

section
/-! PROOFS. Device registers by address, the debug port, host ports and the module's management (O60). -/

namespace Sys2Proof.Machine

variable {s t : State}

/-! Device registers by address. -/

theorem offOf_device {sock d : Nat} (hd : d < 0x100000000000) : offOf (2 ^ 49 * sock + 0x0F00000000000 + d) = 0x0F00000000000 + d := by
  unfold offOf; omega

theorem sockOf_device {sock d : Nat} (hs : sock < 8) (hd : d < 0x100000000000) : sockOf (2 ^ 49 * sock + 0x0F00000000000 + d) = sock := by
  unfold sockOf; omega

/-- The page of a device register: that of its offset in the package's registers. -/
theorem devPage_device {sock d : Nat} (hd : d < 0x100000000000) :
    devPage (2 ^ 49 * sock + 0x0F00000000000 + d) = devPage (0x0F00000000000 + d) := by
  have h := offOf_device (sock := 0) hd
  rw [Nat.mul_zero, Nat.zero_add] at h
  unfold devPage isDevice
  rw [offOf_device hd, h]

theorem devPage_ident {d : Nat} (h : d < 0x1000) : devPage (0x0F00000000000 + d) = some (.ident, d) := by
  have ho : offOf (0x0F00000000000 + d) = 0x0F00000000000 + d := by unfold offOf; omega
  have hi : isDevice (0x0F00000000000 + d) = true := by
    rw [isDevice, ho, decide_eq_true (by omega), decide_eq_true (by omega)]
    rfl
  unfold devPage
  rw [ho, hi, Nat.add_sub_cancel_left]
  simp [h]

theorem devPage_efc {e k : Nat} (he : e < 68) (hk : k < 64) : devPage (0x0F00000000000 + (0x40000 + 0x1000 * e + 8 * k)) = some (.efc e, 8 * k) := by
  have ho : offOf (0x0F00000000000 + (0x40000 + 0x1000 * e + 8 * k)) = 0x0F00000000000 + (0x40000 + 0x1000 * e + 8 * k) := by unfold offOf; omega
  have hi : isDevice (0x0F00000000000 + (0x40000 + 0x1000 * e + 8 * k)) = true := by
    rw [isDevice, ho, decide_eq_true (by omega), decide_eq_true (by omega)]
    rfl
  unfold devPage
  rw [ho, hi, Nat.add_sub_cancel_left]
  generalize hd : 0x40000 + 0x1000 * e + 8 * k = d
  dsimp only
  rw [if_neg (by simp), if_neg (by omega), if_neg (by omega), if_neg (by omega), if_neg (by omega), if_pos (by omega),
    show (d - 0x40000) / 0x1000 = e by omega, show d % 0x1000 = 8 * k by omega]

/-- The unit that a register page belongs to is present. -/
def State.hasPage (s : State) (sock : Nat) : DevPage → Bool
  | .efc e => s.hasEfc (68 * sock + e)
  | .efcData e => s.hasEfc (68 * sock + e)
  | .dispatcher n => s.hasCluster (64 * sock + n)
  | .debug c => s.hasCore (512 * sock + c)
  | _ => true

/-- A register page is populated where its package and its unit are. -/
theorem populated_page {sock d : Nat} {pg : DevPage} {off : Nat} (hs : sock < 8) (hd : d < 0x100000000000)
    (hp : s.populated (2 ^ 49 * sock + 0x0F00000000000) = true) (h : devPage (0x0F00000000000 + d) = some (pg, off))
    (hpg : s.hasPage sock pg = true) : s.populated (2 ^ 49 * sock + 0x0F00000000000 + d) = true := by
  have hsock := sockOf_device hs (show 0 < 0x100000000000 by decide)
  rw [Nat.add_zero] at hsock
  unfold State.populated at hp ⊢
  rw [hsock, Bool.and_eq_true] at hp
  rw [sockOf_device hs hd, devPage_device hd, h]
  dsimp only
  rw [hp.1, Bool.true_and]
  cases pg <;> exact hpg

/-- A write of a register whose page is populated. -/
theorem registerWrite_eq {addr : Nat} (x : Word) (ha : addr % 8 = 0) (hp : s.populated addr = true) :
    exec (.registerWrite addr x) s = .next (s.devWrite addr 8 x) := by
  show Host.Outcome.next _ = _
  rw [if_pos ⟨ha, hp⟩]

/-- A write of a register by its page and offset. -/
theorem registerWrite_page {sock d : Nat} {pg : DevPage} {off : Nat} (x : Word) (hs : sock < 8) (hd : d < 0x100000000000) (h8 : d % 8 = 0)
    (hp : s.populated (2 ^ 49 * sock + 0x0F00000000000) = true) (h : devPage (0x0F00000000000 + d) = some (pg, off))
    (hpg : s.hasPage sock pg = true) {u : State} (hu : ∀ a, sockOf a = sock → devPage a = some (pg, off) → s.devWrite a 8 x = u) :
    exec (.registerWrite (2 ^ 49 * sock + 0x0F00000000000 + d) x) s = .next u := by
  rw [registerWrite_eq x (by omega) (populated_page hs hd hp h hpg), hu _ (sockOf_device hs hd) ((devPage_device hd).trans h)]

/-! The debug port. -/

theorem byteOf_getLsbD (x : Word) (j : Nat) {i : Nat} (hi : i < 8) : (byteOf x j).getLsbD i = x.getLsbD (8 * j + i) := by
  rw [byteOf, BitVec.getLsbD_extractLsb', decide_eq_true hi, Bool.true_and]

/-- The bytes that a line's reply holds of one word, as a word (R122). -/
theorem reply_loaded {v : Vec} {m : List Host.Cell} {pa n : Nat} (hn : pa % 8 + n ≤ 8)
    (h : ∀ j < n, byteOf (lineWord v ((pa % 64 + j) / 8)) ((pa % 64 + j) % 8) = memByte m (pa + j)) :
    BitVec.ofNat 64 (v.toNat / 256 ^ (pa % 64) % 256 ^ n) = loaded (memWord m (wordOf pa)) pa n false := by
  apply BitVec.eq_of_getLsbD_eq
  intro i hi
  have hload : (loaded (memWord m (wordOf pa)) pa n false).getLsbD i = (decide (i < 8 * n) && (memWord m (wordOf pa)).getLsbD (8 * (pa % 8) + i)) := by
    unfold loaded
    simp only [Bool.false_eq_true, if_false, BitVec.getLsbD_setWidth, hi, decide_true, Bool.true_and, BitVec.getLsbD_extractLsb']
  rw [hload, BitVec.getLsbD_ofNat, decide_eq_true hi, Bool.true_and, show (256 : Nat) = 2 ^ 8 from rfl, ← Nat.pow_mul, ← Nat.pow_mul,
    Nat.testBit_mod_two_pow, Nat.testBit_div_two_pow]
  by_cases hin : i < 8 * n
  · have hb := h (i / 8) (by omega)
    have hmem : memByte m (pa + i / 8) = byteOf (memWord m (wordOf pa)) (pa % 8 + i / 8) := by
      rw [byteOf_memWord m _ (by omega)]
      congr 1
      unfold wordOf
      omega
    have hbit := congrArg (fun b => b.getLsbD (i % 8)) (hb.trans hmem)
    rw [byteOf_lineWord, byteOf_getLsbD _ _ (by omega), BitVec.getLsbD_ofNat, show (256 : Nat) = 2 ^ 8 from rfl, ← Nat.pow_mul,
      Nat.testBit_div_two_pow, decide_eq_true (by omega : i % 8 < 8), Bool.true_and] at hbit
    rw [show i + 8 * (pa % 64) = i % 8 + 8 * (pa % 64 + i / 8) by omega, hbit, show 8 * (pa % 8 + i / 8) + i % 8 = 8 * (pa % 8) + i by omega]
  · simp [hin]

/-- The bytes of a word as a run. -/
theorem leBytes_getD (x : Word) {n j : Nat} (h : j < n) : (leBytes x.toNat n).getD j 0 = x.extractLsb' (8 * j) 8 := by
  have hl : j < (leBytes x.toNat n).length := by rw [leBytes_length]; exact h
  rw [List.getD_eq_getElem _ _ hl, leBytes_getElem, ← byteOf_eq]
  rfl

theorem width_dvd (sz : BitVec 2) : 2 ^ sz.toNat ∣ 8 := by
  have := sz.isLt
  exact Nat.pow_dvd_pow 2 (show sz.toNat ≤ 3 by omega)

/-- An aligned access lies in one word. -/
theorem aligned_fits {a n : Nat} (hn : n ∣ 8) (h : a % n = 0) : a % 8 + n ≤ 8 := by
  obtain ⟨k, hk⟩ := hn
  have h1 : a % 8 % n = 0 := by rw [Nat.mod_mod_of_dvd _ ⟨k, hk⟩, h]
  obtain ⟨j, hj⟩ := Nat.dvd_of_mod_eq_zero h1
  have h2 : a % 8 < 8 := Nat.mod_lt _ (by decide)
  have h3 : n * j < n * k := by rw [← hk, ← hj]; exact h2
  have h4 : j < k := Nat.lt_of_mul_lt_mul_left h3
  calc a % 8 + n = n * (j + 1) := by rw [hj, Nat.mul_add, Nat.mul_one]
    _ ≤ n * k := Nat.mul_le_mul_left _ h4
    _ = 8 := hk.symm

/-- A debug-port access to memory. -/
theorem debugPort_memory {addr : Nat} {sz : BitVec 2} (h1 : addr % 2 ^ sz.toNat = 0) (h2 : isDevice addr = false) (h3 : s.isMemory addr = true)
    (wr : Option Word) : exec (.debugPortAccess addr sz wr) s = .next (s.portMemory addr (2 ^ sz.toNat) wr) := by
  show execDebugPortAccess addr sz wr s = _
  unfold execDebugPortAccess
  dsimp only
  rw [if_neg (by simp [h1]), if_neg (by simp [h2]), if_pos h3]

/-! Device memory of an endpoint's host. -/

section
variable {sock addr n base len : Nat} {bytes : List (BitVec 8)} (he : s.endRange sock = some (base, len))
include he

theorem hostMemAccess_refused (wr : Option (List (BitVec 8))) (h : len < addr + (match wr with | some b => b.length | none => n)) :
    exec (.hostMemAccess sock addr n wr) s = .next (s.emit (.completerAbort sock 1)) := by
  show execHostMemAccess sock addr n wr s = _
  unfold execHostMemAccess
  rw [he]
  cases wr <;> exact if_pos (.inl h)

theorem hostMemAccess_read (hl : addr + n ≤ len) (h1 : isTier (base + addr) = true) (h2 : isTier (base + addr + n - 1) = true)
    {got : List (BitVec 8)} (hr : inboundRead sock (s.inboundTenant sock 1) (runPieces (base + addr) n) s = (some got, t)) :
    exec (.hostMemAccess sock addr n none) s = .next (t.emit (.hostData sock got)) := by
  show execHostMemAccess sock addr n none s = _
  unfold execHostMemAccess
  rw [he]
  dsimp only
  rw [if_neg (by rw [h1, h2]; simp only [Bool.true_eq_false, or_false]; omega), hr]

theorem hostMemAccess_write (hl : addr + bytes.length ≤ len) (h1 : isTier (base + addr) = true)
    (h2 : isTier (base + addr + bytes.length - 1) = true) :
    exec (.hostMemAccess sock addr n (some bytes)) s = .next (s.inboundWrite sock (base + addr) bytes (s.inboundTenant sock 1)) := by
  show execHostMemAccess sock addr n (some bytes) s = _
  unfold execHostMemAccess
  rw [he]
  dsimp only
  rw [if_neg (by rw [h1, h2]; simp only [Bool.true_eq_false, or_false]; omega)]

end

/-- A run of bytes written by a device or host. -/
theorem inboundWrite_ok (sock pa : Nat) (bytes : List (BitVec 8)) (tno : BitVec 12) (hr : Reachable s sock pa bytes.length)
    (hm : Memory.wf s.mem = true) : Placed s (s.inboundWrite sock pa bytes tno) ∧ ∀ q, memByte (s.inboundWrite sock pa bytes tno).mem q =
      if pa ≤ q ∧ q < pa + bytes.length then bytes.getD (q - pa) 0 else memByte s.mem q := by
  obtain ⟨t, h1, h2, h3⟩ := inboundWrite_pieces sock tno (bytes.length / 64 + 2) pa bytes (by omega) hr hm
  rw [State.inboundWrite, h1]
  exact ⟨h2, h3⟩

/-- A run of bytes read by a device or host. -/
theorem inboundRead_ok (sock pa n : Nat) (tno : BitVec 12) (hr : Reachable s sock pa n) (he : ∀ j < n, tfind s.errs (wordOf (pa + j)) = none) :
    ∃ t, inboundRead sock tno (runPieces pa n) s = (some (bytesAt s.mem pa n), t) ∧ Cured s t :=
  inboundRead_pieces sock tno (n / 64 + 2) pa n (by omega) hr he

/-- A read of what is not there. -/
theorem inboundRead_absent (sock pa n : Nat) (tno : BitVec 12) (hn : 0 < n) (h : s.tableBacked sock pa = false) :
    inboundRead sock tno (runPieces pa n) s = (none, s) := by
  have hb : (List.replicate n (0 : BitVec 8)).isEmpty = false := by simpa using hn.ne'
  unfold runPieces cutLines
  rw [hb]
  simp only [Bool.false_eq_true, if_false]
  unfold inboundRead
  simp only [h, Bool.false_eq_true, if_false]

/-- What the statement asks of a byte that a device or host reaches. -/
def Quieted (s : State) (sock a : Nat) : Prop := s.flights = [] ∧ s.slc = [] ∧ s.tableBacked sock a = true ∧
  s.dirOf (lineOf a) = DirEntry.absent ∧ tfind s.errs (wordOf a) = none ∧ (s.pkg (sockOf a)).fotbase = 0

theorem reachable_of_quieted {sock a n : Nat} (h : ∀ j < n, Quieted s sock (a + j)) : Reachable s sock a n := fun j hj => by
  obtain ⟨h1, h2, h3, h4, -, h5⟩ := h j hj
  exact ⟨h3, h1, h2, h4, h5⟩

theorem errs_of_quieted {sock a n : Nat} (h : ∀ j < n, Quieted s sock (a + j)) : ∀ j < n, tfind s.errs (wordOf (a + j)) = none := fun j hj => by
  obtain ⟨-, -, -, -, h1, -⟩ := h j hj
  exact h1

/-- Settles O60. -/
theorem registersAndHosts : Obligations.RegistersAndHosts := by
  refine ⟨fun s sock addr off x sz => ⟨?_, fun hs hp => ⟨fun ho => ?_, fun hx => ?_, fun hx => ?_, fun hx hx2 => ?_, fun e k he hk hh => ?_⟩,
    fun h wr => ?_, fun h1 h2 h3 => ?_, fun h1 h2 h3 h4 h5 h6 h7 h8 => ⟨fun h9 => ?_, ?_⟩⟩,
    fun s sock port addr n bytes watts width => ⟨?_, ?_, ?_, ?_, ?_, ?_, ?_, ?_, ?_, ?_⟩⟩
  · intro h
    show Host.Outcome.next _ = _
    rw [if_neg (by rintro ⟨h1, h2⟩; rcases h with h | h <;> simp_all)]
  · by_cases h8 : off % 8 = 0
    · refine registerWrite_page x hs (by omega) h8 hp (devPage_ident ho) rfl fun a h1 h2 => ?_
      unfold State.devWrite
      rw [h2]
    · show Host.Outcome.next _ = _
      rw [if_neg (by omega)]
  · refine registerWrite_page (pg := .fabric) (off := 0x88) x hs (by omega) (by decide) hp (by decide) rfl fun a h1 h2 => ?_
    unfold State.devWrite
    rw [h2, h1]
    show s.fabricWrite sock 0x88 x = _
    unfold State.fabricWrite
    rw [if_neg (by decide), if_neg (by decide), if_pos rfl, if_neg (by omega)]
  · refine registerWrite_page (pg := .boot) (off := 0x10) x hs (by omega) (by decide) hp (by decide) rfl fun a h1 h2 => ?_
    unfold State.devWrite
    rw [h2, h1]
    show s.bootWrite sock 0x10 x = _
    unfold State.bootWrite
    rw [if_neg (by decide), if_pos rfl, if_neg (by omega)]
  · refine registerWrite_page (pg := .boot) (off := 0x80) x hs (by omega) (by decide) hp (by decide) rfl fun a h1 h2 => ?_
    unfold State.devWrite
    rw [h2, h1]
    show s.bootWrite sock 0x80 x = _
    unfold State.bootWrite
    rw [if_neg (by decide), if_neg (by decide), if_neg (by decide), if_neg (by decide), if_pos rfl, if_neg (by omega)]
  · rw [Nat.add_assoc _ 0x40000, Nat.add_assoc _ (0x40000 + 0x1000 * e)]
    refine registerWrite_page (pg := .efc e) (off := 8 * k) x hs (by omega) (by omega) hp (devPage_efc he hk) hh fun a h1 h2 => ?_
    unfold State.devWrite
    rw [h2, h1]
    refine congrArg (s.modEfc (68 * sock + e)) (funext fun f => ?_)
    unfold Efc.write
    rw [if_pos (by omega), Nat.mul_div_cancel_left k (by decide)]
  · show execDebugPortAccess addr sz wr s = _
    unfold execDebugPortAccess
    dsimp only
    rcases h with h | ⟨h1, h2⟩ | ⟨h1, h2⟩
    · rw [if_pos h]
    · rw [h1, h2]
      exact ite_self _
    · rw [h1, h2]
      exact ite_self _
  · show execDebugPortAccess addr 3 (some x) s = execRegisterWrite addr x s
    unfold execDebugPortAccess execRegisterWrite
    have hsz : devSizeOk addr (2 ^ (3 : BitVec 2).toNat) = true := by
      unfold devSizeOk
      split <;> rfl
    dsimp only
    rw [if_neg (by simpa using h1), if_pos h2, hsz, h3, if_pos (show (true && true) = true from rfl), if_pos ⟨h1, rfl⟩]
    rfl
  · have hfit := aligned_fits (width_dvd sz) h1
    obtain ⟨v, t, hv, hc, hb⟩ := serve_outside_read (bytes := List.replicate (2 ^ sz.toNat) 0) (tno := 0) (⟨h4, h5, h6, h7⟩ : Untracked s addr)
      (by simp) (by rw [List.length_replicate]; omega) (fun j hj => by
        rw [List.length_replicate] at hj
        rw [show wordOf (addr + j) = wordOf addr by unfold wordOf; omega]
        exact h9)
    rw [List.length_replicate] at hb
    refine ⟨t.emit (.debugData (loaded (memWord s.mem (wordOf addr)) addr (2 ^ sz.toNat) false)), ?_, hc.mem, hc.ctxs, hc.clusters, ?_⟩
    · rw [debugPort_memory h1 h2 h3, State.portMemory, hv]
      dsimp only
      rw [reply_loaded hfit hb]
    · show t.outbox ++ _ = _
      rw [hc.outbox]
  · have hfit := aligned_fits (width_dvd sz) h1
    obtain ⟨v, t, hv, hp, -, hb⟩ := serve_outside_write (kind := .wrW) (bytes := leBytes x.toNat (2 ^ sz.toNat)) (tno := 0) (.inl rfl) (⟨h4, h5, h6, h7⟩ : Untracked s addr) h8
      (by rw [leBytes_length]; omega)
    refine ⟨t, ?_, hp.ctxs, hp.clusters, hp.outbox, fun q => ?_⟩
    · rw [debugPort_memory h1 h2 h3, State.portMemory, serveLate_outside hv]
    · rw [hb, leBytes_length]
      split
      · next hq => exact leBytes_getD x (by omega)
      · rfl
  · intro hm hq
    obtain ⟨h1, h2⟩ := inboundWrite_ok sock addr bytes (s.inboundTenant sock port) (reachable_of_quieted hq) hm
    exact ⟨_, rfl, h1.ctxs, h1.clusters, h1.outbox, h2⟩
  · intro hq
    obtain ⟨t, h1, h2⟩ := inboundRead_ok sock addr n (s.inboundTenant sock port) (reachable_of_quieted hq) (errs_of_quieted hq)
    refine ⟨t.emit (.dmaData sock port (bytesAt s.mem addr n)), ?_, h2.mem, h2.ctxs, h2.clusters, congrArg (· ++ _) h2.outbox⟩
    show execDmaRead sock port addr n s = _
    rw [execDmaRead, h1]
  · intro hn hb
    refine ⟨s.emit (.completerAbort sock port), ?_, rfl, rfl, rfl, rfl⟩
    show execDmaRead sock port addr n s = _
    rw [execDmaRead, inboundRead_absent sock addr n _ hn hb]
  · intro he wr
    show execHostMemAccess sock addr n wr s = _
    unfold execHostMemAccess
    rw [he]
  · intro base len he
    refine ⟨fun h => ⟨_, hostMemAccess_refused he none h, rfl, rfl, rfl, rfl⟩, fun h => ⟨_, hostMemAccess_refused he (some bytes) h, rfl, rfl, rfl, rfl⟩,
      fun h1 h2 h3 => ?_, fun h1 h2 h3 h4 => ?_⟩
    · have hq := fun j hj => (h3 j hj).2
      obtain ⟨t, h4, h5⟩ := inboundRead_ok sock (base + addr) n (s.inboundTenant sock 1) (reachable_of_quieted hq) (errs_of_quieted hq)
      refine ⟨t.emit (.hostData sock (bytesAt s.mem (base + addr) n)), hostMemAccess_read he h2 (h3 0 h1).1 ?_ h4, h5.mem, h5.ctxs, h5.clusters,
        congrArg (· ++ _) h5.outbox⟩
      rw [show base + addr + n - 1 = base + addr + (n - 1) by omega]
      exact (h3 (n - 1) (by omega)).1
    · have hpos := List.length_pos_iff.2 h1
      obtain ⟨h5, h6⟩ := inboundWrite_ok sock (base + addr) bytes (s.inboundTenant sock 1) (reachable_of_quieted fun j hj => (h4 j hj).2) h3
      refine ⟨_, hostMemAccess_write he h2 (h4 0 hpos).1 ?_, h5.ctxs, h5.clusters, h5.outbox, h6⟩
      rw [show base + addr + bytes.length - 1 = base + addr + (bytes.length - 1) by omega]
      exact (h4 (bytes.length - 1) (by omega)).1
  · intro h
    show Host.Outcome.next _ = _
    rw [if_neg (by omega)]
  · intro h1 h2
    show Host.Outcome.next _ = _
    rw [if_pos ⟨h1, h2⟩]
  · refine ⟨_, rfl, ?_, rfl, rfl, rfl⟩
    exact congrArg Package.shutdown (pkg_modPkg_same (s := s) sock fun p => { p with shutdown := true })
  · intro h
    show Host.Outcome.next _ = _
    rw [if_neg]
    rintro ⟨h1, h2⟩
    rcases h with h | h
    · omega
    · rcases h2 with rfl | rfl | rfl <;> simp at h
  · intro h1 h2
    have hw : width = 16 ∨ width = 8 ∨ width = 0 := by
      simp only [List.mem_cons, List.not_mem_nil, or_false] at h2
      tauto
    show Host.Outcome.next _ = _
    rw [if_pos ⟨h1, hw⟩]

end Sys2Proof.Machine
end

section
/-! PROOFS. A cluster's answers to a home, and the log of refused writes (O54). -/

namespace Sys2Proof.Machine

variable {s t : State}

/-! Answers of a cluster cache. -/

/-- Memory and contexts are the same. -/
structure Within (s t : State) : Prop where
  mem : t.mem = s.mem
  ctxs : t.ctxs = s.ctxs

theorem Within.trans {u : State} (h : Within s t) (g : Within t u) : Within s u := ⟨g.mem.trans h.mem, g.ctxs.trans h.ctxs⟩

theorem within_setClWord (s : State) (cl pa : Nat) (x : CacheWord) : Within s (s.setClWord cl pa x) := ⟨rfl, rfl⟩

theorem within_markRecheck (s : State) (cl line : Nat) : Within s (s.markRecheck cl line) := by
  unfold State.markRecheck
  split <;> exact ⟨rfl, rfl⟩

theorem within_mend (s : State) (cl pa : Nat) : Within s (s.mend cl pa) := by
  unfold State.mend
  split <;> exact ⟨rfl, rfl⟩

/-- The words of a cluster cache but one are the same. -/
def OtherWords (s t : State) (cl pa : Nat) : Prop := ∀ c q, (c ≠ cl ∨ wordOf q ≠ wordOf pa) → t.clWord c q = s.clWord c q

theorem otherWords_setClWord (s : State) (cl pa : Nat) {x : CacheWord} (h : x.st = .i → x = CacheWord.absent) :
    OtherWords s (s.setClWord cl pa x) cl pa := fun c q hq => by
  rw [clWord_setClWord _ _ _ _ _ _ h, if_neg (by rintro ⟨h1, h2⟩; rcases hq with hq | hq <;> contradiction)]

theorem OtherWords.trans {u : State} {cl pa : Nat} (h : OtherWords s t cl pa) (g : OtherWords t u cl pa) : OtherWords s u cl pa :=
  fun c q hq => (g c q hq).trans (h c q hq)

theorem otherWords_mend (s : State) (cl pa : Nat) (ho : (s.clWord cl pa).st = .o) : OtherWords s (s.mend cl pa) cl pa := by
  unfold State.mend
  split
  · exact otherWords_setClWord s cl pa (x := { s.clWord cl pa with single := false }) (fun h => by rw [ho] at h; cases h)
  · exact fun _ _ _ => rfl

theorem otherWords_markRecheck (s : State) (cl line pa : Nat) : OtherWords s (s.markRecheck cl line) cl pa := fun c q _ => clWord_markRecheck s cl line c q

theorem clWord_setClWord_same (s : State) (cl pa : Nat) {x : CacheWord} (h : x.st = .i → x = CacheWord.absent) : (s.setClWord cl pa x).clWord cl pa = x := by
  rw [clWord_setClWord _ _ _ _ _ _ h, if_pos ⟨rfl, rfl⟩]

/-- An owned word's place taken by another, its waiters marked. -/
theorem replaced_ok (s : State) (cl pa : Nat) (ho : (s.clWord cl pa).st = .o) {x : CacheWord} (h : x.st = .i → x = CacheWord.absent) :
    let t := ((s.mend cl pa).setClWord cl pa x).markRecheck cl (lineOf pa)
    Within s t ∧ OtherWords s t cl pa ∧ t.clWord cl pa = x := by
  refine ⟨(within_mend s cl pa).trans ((within_setClWord _ cl pa x).trans (within_markRecheck _ cl _)),
    (otherWords_mend s cl pa ho).trans ((otherWords_setClWord _ cl pa h).trans (otherWords_markRecheck _ cl _ pa)), ?_⟩
  rw [clWord_markRecheck, clWord_setClWord_same _ _ _ h]

/-- The answer of a home's message leaves what the statement speaks of. -/
theorem invalidated (s : State) (cl line w : Nat) :
    ∃ t, exec (.invalidation cl line w) s = .next t ∧ Within s t ∧ OtherWords s t cl (wordAt line w) ∧
      t.clWord cl (wordAt line w) = (if (s.clWord cl (wordAt line w)).st = .t ∨ (s.clWord cl (wordAt line w)).st = .u then CacheWord.absent
        else s.clWord cl (wordAt line w)) ∧
      t.answer = some (if (t.clLine cl (lineOf (wordAt line w))).words.any (fun e => e.2.st == .t) then 1 else 0) := by
  have hx : exec (.invalidation cl line w) s =
    .next { (s.invalidate cl (wordAt line w)).1 with answer := some (if (s.invalidate cl (wordAt line w)).2 then 1 else 0) } := rfl
  by_cases h : (s.clWord cl (wordAt line w)).st = .t ∨ (s.clWord cl (wordAt line w)).st = .u
  · have he : (s.invalidate cl (wordAt line w)).1 = (s.dropClWord cl (wordAt line w)).markRecheck cl (lineOf (wordAt line w)) := by
      simp only [State.invalidate, if_pos h]
    have hf : (s.invalidate cl (wordAt line w)).2 = ((s.invalidate cl (wordAt line w)).1.clLine cl (lineOf (wordAt line w))).words.any
      (fun e => e.2.st == .t) := rfl
    have h1 := (within_setClWord s cl (wordAt line w) CacheWord.absent).trans (within_markRecheck _ cl (lineOf (wordAt line w)))
    rw [hf, he] at hx
    rw [if_pos h]
    exact ⟨_, hx, ⟨h1.mem, h1.ctxs⟩, (otherWords_setClWord s cl _ fun _ => rfl).trans (otherWords_markRecheck _ cl _ _),
      (clWord_markRecheck ..).trans (clWord_setClWord_same s cl _ fun _ => rfl), rfl⟩
  · have he : (s.invalidate cl (wordAt line w)).1 = s.markRecheck cl (lineOf (wordAt line w)) := by
      simp only [State.invalidate, if_neg h]
    have hf : (s.invalidate cl (wordAt line w)).2 = ((s.invalidate cl (wordAt line w)).1.clLine cl (lineOf (wordAt line w))).words.any
      (fun e => e.2.st == .t) := rfl
    have h1 := within_markRecheck s cl (lineOf (wordAt line w))
    rw [hf, he] at hx
    rw [if_neg h]
    exact ⟨_, hx, ⟨h1.mem, h1.ctxs⟩, otherWords_markRecheck s cl _ _, clWord_markRecheck .., rfl⟩

section
variable {cl line w : Nat} (ho : (s.clWord cl (wordAt line w)).st = .o) (hb : (s.clWord cl (wordAt line w)).bad = false)
include ho hb

theorem recalled : ∃ t, exec (.recallWord cl line w) s = .next t ∧ Within s t ∧ OtherWords s t cl (wordAt line w) ∧
    t.clWord cl (wordAt line w) = CacheWord.absent ∧ t.answer = some (s.clWord cl (wordAt line w)).data := by
  obtain ⟨⟨h1, h2⟩, h3, h4⟩ := replaced_ok s cl (wordAt line w) ho (x := CacheWord.absent) fun _ => rfl
  have he : s.recall cl (wordAt line w) = (((s.mend cl (wordAt line w)).dropClWord cl (wordAt line w)).markRecheck cl (lineOf (wordAt line w)),
      some (s.clWord cl (wordAt line w)).data) := by
    simp only [State.recall, if_pos ho, hb, Bool.false_eq_true, if_false]
  have hx : exec (.recallWord cl line w) s = .next { (s.recall cl (wordAt line w)).1 with answer := (s.recall cl (wordAt line w)).2 } := rfl
  rw [he] at hx
  exact ⟨_, hx, ⟨h1, h2⟩, h3, h4, rfl⟩

theorem downgraded : ∃ t, exec (.downgrade cl line w) s = .next t ∧ Within s t ∧ OtherWords s t cl (wordAt line w) ∧
    t.clWord cl (wordAt line w) = { s.clWord cl (wordAt line w) with st := .t, mask := 0, single := false } ∧
    t.answer = some (s.clWord cl (wordAt line w)).data := by
  obtain ⟨⟨h1, h2⟩, h3, h4⟩ := replaced_ok s cl (wordAt line w) ho
    (x := { s.clWord cl (wordAt line w) with st := .t, mask := 0, single := false }) (fun h => by cases h)
  have he : s.downgrade cl (wordAt line w) = (((s.mend cl (wordAt line w)).setClWord cl (wordAt line w)
      { s.clWord cl (wordAt line w) with st := .t, mask := 0, single := false }).markRecheck cl (lineOf (wordAt line w)),
      some (s.clWord cl (wordAt line w)).data) := by
    simp only [State.downgrade, if_pos ho, hb, Bool.false_eq_true, if_false]
  have hx : exec (.downgrade cl line w) s = .next { (s.downgrade cl (wordAt line w)).1 with answer := (s.downgrade cl (wordAt line w)).2 } := rfl
  rw [he] at hx
  exact ⟨_, hx, ⟨h1, h2⟩, h3, h4, rfl⟩

theorem forwarded : exec (.forwardedRead cl line w) s = .next { s with answer := some (s.clWord cl (wordAt line w)).data } := by
  have hx : exec (.forwardedRead cl line w) s = .next { s with answer := s.forward cl (wordAt line w) } := rfl
  rw [hx, State.forward, if_pos ⟨ho, hb⟩]

end

theorem not_owner_answers {cl line w : Nat} (ho : (s.clWord cl (wordAt line w)).st ≠ .o) :
    ∀ i ∈ [Instr.recallWord cl line w, .downgrade cl line w, .forwardedRead cl line w], exec i s = .next { s with answer := none } := by
  have h1 : s.recall cl (wordAt line w) = (s, none) := if_neg ho
  have h2 : s.downgrade cl (wordAt line w) = (s, none) := if_neg ho
  have h3 : s.forward cl (wordAt line w) = none := if_neg fun h => ho h.1
  have e1 : exec (.recallWord cl line w) s = .next { (s.recall cl (wordAt line w)).1 with answer := (s.recall cl (wordAt line w)).2 } := rfl
  have e2 : exec (.downgrade cl line w) s = .next { (s.downgrade cl (wordAt line w)).1 with answer := (s.downgrade cl (wordAt line w)).2 } := rfl
  have e3 : exec (.forwardedRead cl line w) s = .next { s with answer := s.forward cl (wordAt line w) } := rfl
  rw [h1] at e1
  rw [h2] at e2
  rw [h3] at e3
  simp [e1, e2, e3]

/-! Logs of refused writes. -/

/-- The counters of tenants are the same. -/
def SameTenants (s t : State) : Prop := ∀ k u i, u < 32768 → i < 256 → t.ctr k 5 u i = s.ctr k 5 u i

theorem SameTenants.trans {u : State} (h : SameTenants s t) (g : SameTenants t u) : SameTenants s u :=
  fun k v i hv hi => (g k v i hv hi).trans (h k v i hv hi)

theorem sameTenants_addCtr (s : State) (k n : Nat) {g u i : Nat} (hg : g < 16) (h5 : g ≠ 5) (hu : u < 32768) (hi : i < 256) :
    SameTenants s (s.addCtr k g u i n) := fun k' u' i' hu' hi' => by
  rw [ctr_addCtr, if_neg fun h => h5 ((ctrKey_inj (by omega) hu' hi' hg hu hi).1 h).2.1.symm]

theorem sameTenants_event (s : State) (e ty sbit : Nat) (tno : BitVec 12) (place extra : Nat) (a b : Word) :
    SameTenants s (s.event e ty sbit tno place extra a b) := by
  unfold State.event
  dsimp only
  split
  · split
    · exact SameTenants.trans (t := s.modEfc e _) (fun _ _ _ _ _ => rfl) (sameTenants_addCtr _ _ _ (by omega) (by omega) (by omega) (by omega))
    · exact fun _ _ _ _ _ => rfl
  · exact fun _ _ _ _ _ => rfl

theorem sameTenants_debit (s : State) (cl : Nat) (tno : BitVec 12) (n : Nat) : SameTenants s (s.debit cl tno n) := by
  unfold State.debit
  split <;> exact fun _ _ _ _ _ => rfl

theorem hubOf_lt (h : Nat) : hubOf h < 4 := by
  unfold hubOf
  dsimp only
  split <;> omega

theorem sameTenants_noteError (s : State) (tno : BitVec 12) (org pa : Nat) {index : Nat} (kind : Nat) (hi : index < 256) :
    SameTenants s (s.noteError tno org pa index kind) := by
  have h := hubOf_lt (s.homeOf pa)
  refine SameTenants.trans (t := s.countHub (s.homeOf pa) index) ?_ (sameTenants_event _ _ _ _ _ _ _ _ _)
  exact sameTenants_addCtr s _ 1 (by omega) (by omega) (by omega) hi

theorem sameTenants_chargeHome (s : State) (r : Req) (n : Nat) : SameTenants s (s.chargeHome r n) := by
  have hh := hubOf_lt (s.homeOf r.line)
  have ht : ∀ x : BitVec 12, x.toNat < 32768 := fun x => by omega
  unfold State.chargeHome
  dsimp only
  refine SameTenants.trans ?_ (sameTenants_event _ _ _ _ _ _ _ _ _)
  have h1 : ∀ (u : State) (x : BitVec 12) (i m : Nat), i < 4 → SameTenants u (u.addCtr (s.homeOf r.line / 544) 6 x.toNat (64 * hubOf (s.homeOf r.line) + i) m) :=
    fun u x i m hi => sameTenants_addCtr u _ _ (by omega) (by omega) (ht x) (by omega)
  have h2 : ∀ b : Bool, (if b = true then 1 else 2) < 4 := by decide
  have h3 := fun x b m => (h1 s x 0 1 (by omega)).trans (h1 _ x _ m (h2 b))
  split
  · exact h3 _ _ _
  · exact (h3 _ _ _).trans (sameTenants_debit _ _ _ _)

theorem sameTenants_chargeTable (s : State) (here : Nat) (kind : ReqKind) (pa : Nat) : SameTenants s (s.chargeTable here kind pa) := by
  unfold State.chargeTable
  split
  · exact sameTenants_chargeHome s.draw.2 _ _
  · exact fun _ _ _ _ _ => rfl

theorem noted_chargeTable (s : State) (here : Nat) (kind : ReqKind) (pa : Nat) : Noted s (s.chargeTable here kind pa) :=
  keep_chargeTable (quiet_noted s) (Noted.refl s)

/-- A log written: memory, its errors and what units record differ, but no tenant's counter. -/
structure Logged (s t : State) : Prop extends Placed s t where
  tenants : SameTenants s t

theorem Logged.refl (s : State) : Logged s s := ⟨.refl s, fun _ _ _ _ _ => rfl⟩

theorem Logged.trans {u : State} (h : Logged s t) (g : Logged t u) : Logged s u := ⟨h.toPlaced.trans g.toPlaced, h.tenants.trans g.tenants⟩

theorem logged_chargeTable (s : State) (here : Nat) (kind : ReqKind) (pa : Nat) : Logged s (s.chargeTable here kind pa) :=
  ⟨(noted_chargeTable s here kind pa).placed, sameTenants_chargeTable s here kind pa⟩

theorem Noted.mem_eq (h : Noted s t) : t.mem = s.mem := by
  obtain ⟨a, b, c, d, rfl⟩ := h
  rfl

theorem mem_chargeTable (s : State) (here : Nat) (kind : ReqKind) (pa : Nat) : (s.chargeTable here kind pa).mem = s.mem :=
  (noted_chargeTable s here kind pa).mem_eq

/-- A word that no cluster owns, read for a home: its value aside, only errors and records change. -/
theorem logged_memoryFetch (s : State) (pa : Nat) :
    Logged s (endState (memoryFetch 0 0 pa s)) ∧ (endState (memoryFetch 0 0 pa s)).mem = s.mem := by
  have hn : ∀ (u : State) (i k : Nat), i < 256 → Logged u (u.noteError 0 0 pa i k) ∧ (u.noteError 0 0 pa i k).mem = u.mem := fun u i k hi => by
    have h := keep_noteError (quiet_noted u) (Noted.refl u) (tno := 0) (org := 0) (pa := pa) (index := i) (kind := k)
    exact ⟨⟨h.placed, sameTenants_noteError u 0 0 pa k hi⟩, h.mem_eq⟩
  unfold memoryFetch
  rw [get_bind]
  cases h : tfind s.errs pa with
  | none => exact ⟨.refl s, rfl⟩
  | some e =>
    cases e with
    | single => exact hn s 0 0 (by omega)
    | persistent => exact hn s 2 2 (by omega)
    | transient n =>
      by_cases h2 : n < 2
      · simp only [if_pos h2]
        obtain ⟨h3, h4⟩ := hn { s with errs := tdel s.errs pa } 1 1 (by omega)
        have h5 : Logged s { s with errs := tdel s.errs pa } :=
          ⟨⟨⟨s.mem, s.dir, _, s.slc, s.efcs, s.ctrs, s.energy, s.fresh, rfl⟩, fun _ => rfl, fun a ha => by
            show tfind (tdel s.errs pa) a = none
            rw [tfind_tdel, ha, ite_self], fun h => h⟩, fun _ _ _ _ _ => rfl⟩
        exact ⟨h5.trans h3, h4⟩
      · simp only [if_neg h2]
        exact hn s 2 2 (by omega)

/-- A line of a slice cache left. -/
theorem logged_tdel_slc (s : State) (pa : Nat) : Logged s { s with slc := tdel s.slc pa } :=
  ⟨⟨⟨s.mem, s.dir, s.errs, _, s.efcs, s.ctrs, s.energy, s.fresh, rfl⟩, fun _ => rfl, fun _ h => h, fun h => by
    show tdel s.slc pa = []
    rw [h]
    rfl⟩, fun _ _ _ _ _ => rfl⟩

theorem logged_homeFetch (s : State) (pa : Nat) :
    Logged s (endState (homeFetch 0 0 pa s)) ∧ (endState (homeFetch 0 0 pa s)).mem = s.mem := by
  unfold homeFetch
  rw [get_bind]
  have hd := logged_tdel_slc s pa
  cases h : tfind s.slc pa with
  | none => exact logged_memoryFetch s pa
  | some e =>
    cases e with
    | single =>
      have h := noteError_noted { s with slc := tdel s.slc pa } 0 0 pa 0 0
      exact ⟨hd.trans ⟨h.placed, sameTenants_noteError _ 0 0 pa 0 (by omega)⟩, h.mem_eq⟩
    | clean =>
      obtain ⟨h1, h2⟩ := logged_memoryFetch { s with slc := tdel s.slc pa } pa
      exact ⟨hd.trans h1, h2⟩
    | dirty x => exact ⟨.refl s, rfl⟩

/-- A word of a log as its home reads it, no cluster owning it. -/
theorem logged_readTable (hf : s.flights = []) {pa : Nat} (ho : s.ownerOf pa = none) (sock : Nat) :
    Logged s (s.readTable sock pa).2 ∧ (s.readTable sock pa).2.mem = s.mem := by
  unfold State.readTable
  split
  · have he : homeForward 0 0 pa s = homeFetch 0 0 pa s := by
      unfold homeForward
      rw [modify_bind, landWb_none hf, get_bind, ho]
    have h := logged_homeFetch s pa
    rw [← he] at h
    cases hr : homeForward 0 0 pa s with
    | ok x t =>
      rw [hr] at h
      exact h
    | error e t =>
      rw [hr] at h
      exact ⟨h.1.trans ⟨(keep_draw (quiet_noted t) (Noted.refl t)).placed, fun _ _ _ _ _ => rfl⟩, h.2⟩
  · exact ⟨.refl s, rfl⟩

/-- Without an error of the word or its slice, the reading is exact. -/
theorem readTable_exact (hf : s.flights = []) {pa : Nat} (ho : s.ownerOf pa = none) (hs : s.slc = []) (he : tfind s.errs pa = none) (sock : Nat) :
    s.readTable sock pa = (s.tableWord sock pa, s) := by
  unfold State.readTable State.tableWord
  split
  · rw [homeForward_memory hf ho (by rw [hs]; rfl) he, peekWord_memory hf ho]
  · rfl

/-- A word of a log written, its line tracked by no cluster. -/
theorem setTableWord_ok (hf : s.flights = []) {sock pa : Nat} (hb : s.tableBacked sock pa = true) (hd : s.dirOf (lineOf pa) = DirEntry.absent) (x : Word) :
    Logged s (s.setTableWord sock pa x) ∧ (s.setTableWord sock pa x).mem = memPutWord s.mem pa x := by
  have ho : s.ownerOf pa = none := by
    unfold State.ownerOf
    rw [hd]
    rfl
  have h1 := placed_putWord s pa x 255#8
  obtain ⟨h2, h3⟩ := invalidateWord_untracked (s := s.putWord pa x 255#8) hd none
  have h4 := placed_modDir (s := (s.putWord pa x 255#8).invalidateWord pa none) (f := fun e => { e with pmk := none })
    (((h1.trans h2).dirOf _).trans hd) rfl
  unfold State.setTableWord State.pokeWord
  rw [if_pos hb, recallWord_none hf ho]
  refine ⟨⟨(h1.trans h2).trans h4, ?_⟩, ?_⟩
  · have h5 : ((s.putWord pa x 255#8).invalidateWord pa none).ctrs = s.ctrs := by
      have hs : (s.putWord pa x 255#8).sharersOf (lineOf pa) = [] := by
        rw [State.sharersOf, show (s.putWord pa x 255#8).dirOf (lineOf pa) = DirEntry.absent from hd]
        rfl
      unfold State.invalidateWord
      rw [hs]
      rfl
    intro k u i _ _
    show tget ((s.putWord pa x 255#8).invalidateWord pa none).ctrs _ 0 = tget s.ctrs _ 0
    rw [h5]
  · show ((s.putWord pa x 255#8).invalidateWord pa none).mem = _
    rw [h3]
    show memPutWord s.mem pa (mergeWord (memWord s.mem pa) x 255#8) = _
    rw [mergeWord_full]

/-- Consecutive words of a log written. -/
def State.putTable (s : State) (sock a : Nat) (xs : List Word) : State :=
  (xs.foldl (fun (p : State × Nat) x => (p.1.setTableWord sock p.2 x, p.2 + 8)) (s, a)).1

theorem putTable_ok (sock : Nat) : ∀ (xs : List Word) {s : State} (a : Nat), s.flights = [] → Memory.wf s.mem = true →
    (∀ k < xs.length, s.tableBacked sock (a + 8 * k) = true ∧ s.dirOf (lineOf (a + 8 * k)) = DirEntry.absent) →
    Logged s (s.putTable sock a xs) ∧ Memory.wf (s.putTable sock a xs).mem = true ∧
      (∀ k < xs.length, memWord (s.putTable sock a xs).mem (a + 8 * k) = xs.getD k 0) ∧
      ∀ q, (q + 8 ≤ a ∨ a + 8 * xs.length ≤ q) → memWord (s.putTable sock a xs).mem q = memWord s.mem q
  | [], s, _, _, hm, _ => ⟨.refl s, hm, fun _ h => absurd h (by simp), fun _ _ => rfl⟩
  | x :: xs, s, a, hf, hm, hk => by
    obtain ⟨hb, hd⟩ := hk 0 (by simp)
    rw [Nat.mul_zero, Nat.add_zero] at hb hd
    obtain ⟨h1, h2⟩ := setTableWord_ok hf hb hd x
    obtain ⟨h3, h4, h5, h6⟩ := putTable_ok sock xs (s := s.setTableWord sock a x) (a + 8) (h1.flights.trans hf) (by rw [h2]; exact wf_memPutWord _ _ hm)
      fun k hk' => by
        rw [h1.tableBacked, h1.dirOf, show a + 8 + 8 * k = a + 8 * (k + 1) by omega]
        exact hk (k + 1) (by simpa using hk')
    refine ⟨h1.trans h3, h4, fun k hk' => ?_, fun q hq => ?_⟩
    · cases k with
      | zero =>
        have := h6 a (by omega)
        rw [h2, memWord_memPutWord hm] at this
        exact this
      | succ k =>
        have := h5 k (by simpa using hk')
        rw [show a + 8 + 8 * k = a + 8 * (k + 1) by omega] at this
        exact this
    · rw [List.length_cons] at hq
      have := h6 q (by omega)
      rw [h2, memWord_memPutWord_apart hm x (by omega)] at this
      exact this

/-- What the refusal is: counted, and an event. -/
def State.refusal (s : State) (sock : Nat) (d : DeadLetter) : State :=
  let u := s.countTenant sock d.tno 0
  u.event (efcOfHome (u.homeOf d.pa)) 7 (homeBit (u.homeOf d.pa)) d.tno (placeOf d.origin) 0 (BitVec.ofNat 64 d.pa) (d.kind.setWidth 64)

theorem refusal_ok (s : State) (sock : Nat) (d : DeadLetter) : Noted s (s.refusal sock d) ∧
    (s.refusal sock d).ctr sock 5 d.tno.toNat 0 = s.ctr sock 5 d.tno.toNat 0 + 1 ∧
    (s.refusal sock d).ctr sock 5 d.tno.toNat 1 = s.ctr sock 5 d.tno.toNat 1 := by
  have hn := d.tno.isLt
  let u := s.countTenant sock d.tno 0
  have he := sameTenants_event u (efcOfHome (u.homeOf d.pa)) 7 (homeBit (u.homeOf d.pa)) d.tno (placeOf d.origin) 0
    (BitVec.ofNat 64 d.pa) (d.kind.setWidth 64) sock d.tno.toNat
  refine ⟨keep_event (quiet_noted s) (keep_countTenant (quiet_noted s) (Noted.refl s)), (he 0 (by omega) (by omega)).trans ?_,
    (he 1 (by omega) (by omega)).trans ?_⟩
  · exact (ctr_addCtr ..).trans (if_pos rfl)
  · exact (ctr_addCtr ..).trans (if_neg fun h => by unfold ctrKey at h; omega)

/-- The record of a refused write (R172). -/
def letterWords (d : DeadLetter) (time : Nat) : List Word :=
  [BitVec.ofNat 64 (d.kind.toNat + d.tno.toNat * 2 ^ 4 + d.fote.toNat * 2 ^ 16 + placeOf d.origin * 2 ^ 32), d.pc, BitVec.ofNat 64 d.pa,
    d.mask, BitVec.ofNat 64 d.ctr, BitVec.ofNat 64 d.copyRec, BitVec.ofNat 64 time, 0]

/-- A record appended, and the count of those written. -/
def State.appendRecord (s : State) (sock : Nat) (d : DeadLetter) (base slot : Nat) (written : Word) : State :=
  (((s.chargeTable sock .own slot).putTable sock slot (letterWords d s.time)).chargeTable sock .atH base).setTableWord sock base (written + 1)

theorem deadLetter_eq (s : State) (sock : Nat) (d : DeadLetter) : s.deadLetter sock d =
    let t := s.tenant sock d.tno
    let r := (s.chargeTable sock .rdW t.dlbase).readTable sock t.dlbase
    let k := r.2.readTable sock (t.dlbase + 8)
    (if (r.1 - k.1).toNat < t.dlsize then k.2.appendRecord sock d t.dlbase (t.dlbase + 64 + 64 * (r.1.toNat % t.dlsize)) r.1
     else if t.dlsize ≠ 0 ∧ k.2.tableBacked sock t.dlbase = false then k.2
     else k.2.countTenant sock d.tno 1).refusal sock d := rfl

theorem Placed.ownerOf_eq (h : Placed s t) (pa : Nat) : t.ownerOf pa = s.ownerOf pa :=
  ownerOf_congr (by rw [h.dirOf]) fun k => by
    obtain ⟨m, e, f, l, a, b, c, g, rfl⟩ := h.same
    rfl

/-- The log's words as the home reads them. -/
def State.letterLog (s : State) (sock a : Nat) : Word × Word × State :=
  let r := (s.chargeTable sock .rdW a).readTable sock a
  let k := r.2.readTable sock (a + 8)
  (r.1, k.1, k.2)

theorem deadLetter_of (s : State) (sock : Nat) (d : DeadLetter) {a : Nat} (ha : (s.tenant sock d.tno).dlbase = a) {x : Word × Word × State}
    (hx : s.letterLog sock a = x) : s.deadLetter sock d =
    (if (x.1 - x.2.1).toNat < (s.tenant sock d.tno).dlsize then
        x.2.2.appendRecord sock d a (a + 64 + 64 * (x.1.toNat % (s.tenant sock d.tno).dlsize)) x.1
      else if (s.tenant sock d.tno).dlsize ≠ 0 ∧ x.2.2.tableBacked sock a = false then x.2.2
      else x.2.2.countTenant sock d.tno 1).refusal sock d := by
  subst ha hx
  exact deadLetter_eq s sock d

section
variable (hf : s.flights = []) {sock a : Nat} (ho : s.ownerOf a = none) (ho8 : s.ownerOf (a + 8) = none)
include hf ho ho8

theorem letterLog_logged : Logged s (s.letterLog sock a).2.2 ∧ (s.letterLog sock a).2.2.mem = s.mem := by
  have h1 := logged_chargeTable s sock .rdW a
  have h2 := mem_chargeTable s sock .rdW a
  obtain ⟨h3, h4⟩ := logged_readTable (h1.flights.trans hf) ((h1.ownerOf_eq a).trans ho) sock
  have h5 := h1.trans h3
  obtain ⟨h6, h7⟩ := logged_readTable (h5.flights.trans hf) ((h5.ownerOf_eq (a + 8)).trans ho8) sock
  exact ⟨h5.trans h6, h7.trans (h4.trans h2)⟩

theorem letterLog_exact (hs : s.slc = []) (he : tfind s.errs a = none) (he8 : tfind s.errs (a + 8) = none) :
    s.letterLog sock a = (s.tableWord sock a, s.tableWord sock (a + 8), s.chargeTable sock .rdW a) := by
  have h1 := logged_chargeTable s sock .rdW a
  have hw : ∀ q, (s.chargeTable sock .rdW a).tableWord sock q = s.tableWord sock q := by
    obtain ⟨b, c, e, f, h⟩ := noted_chargeTable s sock .rdW a
    rw [h]
    intro q
    rfl
  have e1 := readTable_exact (h1.flights.trans hf) ((h1.ownerOf_eq a).trans ho) (h1.slc hs) (h1.errs a he) sock
  have e2 := readTable_exact (h1.flights.trans hf) ((h1.ownerOf_eq (a + 8)).trans ho8) (h1.slc hs) (h1.errs (a + 8) he8) sock
  unfold State.letterLog
  dsimp only
  rw [e1]
  dsimp only
  rw [e2, hw, hw]

end

/-- A refused write that finds no place in the log. -/
theorem letter_lost {d : DeadLetter} {sock : Nat} {u : State} (h : Logged s u) (hm : u.mem = s.mem) :
    let t := (u.countTenant sock d.tno 1).refusal sock d
    t.ctr sock 5 d.tno.toNat 0 = s.ctr sock 5 d.tno.toNat 0 + 1 ∧ t.ctr sock 5 d.tno.toNat 1 = s.ctr sock 5 d.tno.toNat 1 + 1 ∧
      t.mem = s.mem ∧ t.ctxs = s.ctxs ∧ t.clusters = s.clusters := by
  have hn := d.tno.isLt
  obtain ⟨h1, h2, h3⟩ := refusal_ok (u.countTenant sock d.tno 1) sock d
  have hp := h1.placed
  refine ⟨h2.trans ?_, h3.trans ?_, h1.mem_eq.trans hm, hp.ctxs.trans h.ctxs, hp.clusters.trans h.clusters⟩
  · rw [← h.tenants sock _ 0 (by omega) (by omega)]
    refine congrArg (· + 1) ((ctr_addCtr ..).trans (if_neg fun h => ?_))
    unfold ctrKey at h
    omega
  · rw [← h.tenants sock _ 1 (by omega) (by omega)]
    exact (ctr_addCtr ..).trans (if_pos rfl)

/-- A refused write whose record the log takes. -/
theorem letter_kept {d : DeadLetter} {sock : Nat} {u : State} (h : Logged s u) (hm : u.mem = s.mem) (hw : Memory.wf s.mem = true)
    (hf : s.flights = []) {a slot : Nat} (ha : a % 64 = 0) (hs : slot % 64 = 0) (hap : a + 8 ≤ slot) (hb : s.tableBacked sock a = true)
    (hk : ∀ k < 8, s.tableBacked sock (slot + 8 * k) = true) (hda : s.dirOf a = DirEntry.absent) (hds : s.dirOf slot = DirEntry.absent) (n : Word) :
    let t := (u.appendRecord sock d a slot n).refusal sock d
    t.ctr sock 5 d.tno.toNat 0 = s.ctr sock 5 d.tno.toNat 0 + 1 ∧ memWord t.mem a = n + 1 ∧
      ∀ k < 8, memWord t.mem (slot + 8 * k) = (letterWords d s.time).getD k 0 := by
  have hn := d.tno.isLt
  have h1 := h.trans (logged_chargeTable u sock .own slot)
  have hline : ∀ k < 8, lineOf (slot + 8 * k) = slot := fun k hk => lineOf_add hs hk
  have hm1 : (u.chargeTable sock .own slot).mem = s.mem := (mem_chargeTable ..).trans hm
  have ht : u.time = s.time := by rw [State.time, h.clock, State.time]
  obtain ⟨h2, h3, h4, h5⟩ := putTable_ok sock (letterWords d u.time) (s := u.chargeTable sock .own slot) slot (h1.flights.trans hf)
    (by rw [hm1]; exact hw) fun k hk' => ⟨by rw [h1.tableBacked]; exact hk k hk', by rw [h1.dirOf, hline k hk']; exact hds⟩
  have h6 := (h1.trans h2).trans (logged_chargeTable _ sock .atH a)
  have hm2 := mem_chargeTable ((u.chargeTable sock .own slot).putTable sock slot (letterWords d u.time)) sock .atH a
  have hla : lineOf a = a := by unfold lineOf; omega
  obtain ⟨h7, h8⟩ := setTableWord_ok (h6.flights.trans hf) (by rw [h6.tableBacked]; exact hb)
    (pa := a) (by rw [hla, h6.dirOf]; exact hda) (n + 1)
  rw [hm2] at h8
  obtain ⟨g1, g2, -⟩ := refusal_ok (u.appendRecord sock d a slot n) sock d
  have hmem : ((u.appendRecord sock d a slot n).refusal sock d).mem = memPutWord _ a (n + 1) := g1.mem_eq.trans h8
  refine ⟨g2.trans (congrArg (· + 1) ((h6.trans h7).tenants sock _ 0 (by omega) (by omega))), ?_, fun k hk' => ?_⟩
  · rw [hmem, memWord_memPutWord h3]
  · rw [hmem, memWord_memPutWord_apart h3 _ (by omega), ← ht]
    exact h4 k hk'

theorem refusedWrites (s : State) (d : DeadLetter) : let sock := sockOf d.pa
    let log := s.tenant sock d.tno
    let n := s.tableWord sock log.dlbase
    let taken := s.tableWord sock (log.dlbase + 8)
    let refused := fun (t : State) => t.ctr sock 5 d.tno.toNat 0 = s.ctr sock 5 d.tno.toNat 0 + 1
    let lost := ∃ t, exec (.deadLetterAppend d) s = .next t ∧ refused t ∧ t.ctr sock 5 d.tno.toNat 1 = s.ctr sock 5 d.tno.toNat 1 + 1 ∧
      t.mem = s.mem ∧ t.ctxs = s.ctxs ∧ t.clusters = s.clusters
    s.flights = [] → s.ownerOf log.dlbase = none → s.ownerOf (log.dlbase + 8) = none →
    (log.dlsize = 0 → lost) ∧
    (s.slc = [] → tfind s.errs log.dlbase = none → tfind s.errs (log.dlbase + 8) = none → s.tableBacked sock log.dlbase = true →
      (0 < log.dlsize → log.dlsize ≤ (n - taken).toNat → lost) ∧
      (let base := log.dlbase + 64 + 64 * (n.toNat % log.dlsize)
       log.dlbase % 64 = 0 → (n - taken).toNat < log.dlsize → Memory.wf s.mem = true →
       (∀ k < 8, s.tableBacked sock (base + 8 * k) = true) → s.dirOf base = DirEntry.absent → s.dirOf log.dlbase = DirEntry.absent →
       ∃ t, exec (.deadLetterAppend d) s = .next t ∧ refused t ∧ memWord t.mem log.dlbase = n + 1 ∧
        ∀ k < 8, memWord t.mem (base + 8 * k) = (letterWords d s.time).getD k 0)) := by
  intro sock log n taken refused lost hf ho ho8
  have hx : exec (.deadLetterAppend d) s = .next (s.deadLetter sock d) := rfl
  obtain ⟨h1, h2⟩ := letterLog_logged hf (sock := sock) ho ho8
  have he := deadLetter_of s sock d (a := log.dlbase) rfl rfl
  refine ⟨fun h0 => ?_, fun hs he1 he8 hb => ⟨fun hpos hfull => ?_, fun ha hroom hw hk hds hda => ?_⟩⟩
  · rw [if_neg (by show ¬ _ < log.dlsize; omega), if_neg (by show ¬ (log.dlsize ≠ 0 ∧ _); simp [h0])] at he
    rw [he] at hx
    exact ⟨_, hx, letter_lost h1 h2⟩
  · rw [if_neg (by rw [letterLog_exact hf ho ho8 hs he1 he8]; show ¬ (n - taken).toNat < log.dlsize; omega),
      if_neg (by rw [h1.tableBacked, hb]; simp)] at he
    rw [he] at hx
    exact ⟨_, hx, letter_lost h1 h2⟩
  · have hex := letterLog_exact hf (sock := sock) ho ho8 hs he1 he8
    rw [hex] at h1 h2
    have he := deadLetter_of s sock d (a := log.dlbase) rfl hex
    rw [if_pos hroom] at he
    rw [he] at hx
    exact ⟨_, hx, letter_kept h1 h2 hw hf ha (by omega) (by omega) hb hk hda hds n⟩

/-- Settles O54: each message finds its word owned or not; a refused write is counted, and recorded where its log has room. -/
theorem cachesAnswerAndWritesRefused : Obligations.CachesAnswerAndWritesRefused := by
  unfold Obligations.CachesAnswerAndWritesRefused
  refine ⟨fun s cl line w => ?_, fun s d => ?_⟩
  · obtain ⟨t, h1, ⟨h2, h3⟩, h4, h5, h6⟩ := invalidated s cl line w
    refine ⟨⟨t, h1, ⟨h2, h3, h4⟩, h5, h6⟩, fun ho hb => ⟨?_, ?_, forwarded ho hb⟩, fun ho => not_owner_answers ho⟩
    · obtain ⟨t, h1, ⟨h2, h3⟩, h4, h5, h6⟩ := recalled (s := s) (cl := cl) (line := line) (w := w) ho hb
      exact ⟨t, h1, ⟨h2, h3, h4⟩, h5, h6⟩
    · obtain ⟨t, h1, ⟨h2, h3⟩, h4, h5, h6⟩ := downgraded (s := s) (cl := cl) (line := line) (w := w) ho hb
      exact ⟨t, h1, ⟨h2, h3, h4⟩, h5, h6⟩
  · intro sock log n taken refused lost hf ho ho8
    obtain ⟨h1, h2⟩ := refusedWrites s d hf ho ho8
    refine ⟨h1, fun hs he1 he8 hb => ?_⟩
    obtain ⟨h3, h4⟩ := h2 hs he1 he8 hb
    refine ⟨h3, ?_⟩
    intro base _ ha hroom hw hk hds hda
    obtain ⟨t, h5, h6, h7, h8⟩ := h4 ha hroom hw hk hds hda
    exact ⟨t, h5, h6, h7, h8 0 (by omega), h8 1 (by omega), h8 2 (by omega), h8 3 (by omega), h8 4 (by omega), h8 5 (by omega),
      h8 6 (by omega), h8 7 (by omega)⟩

end Sys2Proof.Machine
end

section
/-! PROOFS. Releases, attestation, debug stops and DBGDATA (O59). -/

namespace Sys2Proof.Machine

variable {s t : State}

/-! The boot page. -/

theorem release_high {x : Word} (h : 512 ≤ x.toNat) (sock : Nat) : s.releaseCore sock x = s := by
  unfold State.releaseCore
  exact if_pos (by omega)

theorem release_none {sock : Nat} {x : Word} (h : s.hasCore (512 * sock + x.toNat) = false ∨ (s.ctx (x7Of (512 * sock + x.toNat))).bootHeld = false) :
    s.releaseCore sock x = s := by
  by_cases hx : 512 ≤ x.toNat
  · exact release_high hx sock
  · unfold State.releaseCore
    dsimp only
    rw [Nat.mod_eq_of_lt (by omega : x.toNat < 512), if_neg (show ¬ x.toNat / 512 ≠ 0 by omega)]
    refine if_neg ?_
    rintro ⟨h1, h2⟩
    rcases h with h | h
    · rw [h] at h1; cases h1
    · rw [h] at h2; cases h2

theorem release_held {sock : Nat} {x : Word} (hx : x.toNat < 512) (hc : s.hasCore (512 * sock + x.toNat) = true)
    (hb : (s.ctx (x7Of (512 * sock + x.toNat))).bootHeld = true) : s.releaseCore sock x =
    ((s.modPkg sock (fun p => { p with release := x.setWidth 9 })).modCore (512 * sock + x.toNat) (fun k => { k with xlat := false })).modCtx
      (x7Of (512 * sock + x.toNat)) (fun y => { y with life := .running, bootHeld := false, pc := pcOf (s.pkg sock).relPc }) := by
  unfold State.releaseCore
  dsimp only
  rw [Nat.mod_eq_of_lt hx, if_neg (show ¬ x.toNat / 512 ≠ 0 by omega), if_pos ⟨hc, hb⟩]

theorem svn_mask (x : Word) : x &&& (BitVec.allOnes 56).setWidth 64 = (x.setWidth 56).setWidth 64 := by
  apply BitVec.eq_of_getLsbD_eq
  intro i hi
  simp only [BitVec.getLsbD_and, BitVec.getLsbD_setWidth, BitVec.getLsbD_allOnes, hi, decide_true, Bool.true_and]
  rw [Bool.and_comm]

theorem words_appended (a b c d : Word) : (a.setWidth 256 ||| (b.setWidth 256 <<< 64) ||| (c.setWidth 256 <<< 128) ||| (d.setWidth 256 <<< 192)) =
    d ++ (c ++ (b ++ a)) := by
  apply BitVec.eq_of_getLsbD_eq
  intro i hi
  simp only [BitVec.getLsbD_or, BitVec.getLsbD_setWidth, BitVec.getLsbD_shiftLeft, BitVec.getLsbD_append, hi, decide_true, Bool.true_and]
  by_cases h1 : i < 64
  · simp [h1, show i < 192 by omega, show i < 128 by omega]
  · by_cases h2 : i < 128
    · have h3 : a.getLsbD i = false := BitVec.getLsbD_of_ge a i (by omega)
      simp [h1, h2, h3, show i < 192 by omega, show i - 64 < 256 by omega]
    · by_cases h4 : i < 192
      · have h3 : a.getLsbD i = false := BitVec.getLsbD_of_ge a i (by omega)
        have h5 : b.getLsbD (i - 64) = false := BitVec.getLsbD_of_ge b _ (by omega)
        simp [h1, h2, h3, h4, h5, show i - 128 < 256 by omega]
      · have h3 : a.getLsbD i = false := BitVec.getLsbD_of_ge a i (by omega)
        have h5 : b.getLsbD (i - 64) = false := BitVec.getLsbD_of_ge b _ (by omega)
        have h6 : c.getLsbD (i - 128) = false := BitVec.getLsbD_of_ge c _ (by omega)
        simp [h1, h2, h3, h4, h5, h6, show i - 192 < 256 by omega]

theorem attest_full {p : Package} (h : 1024 ≤ p.attLog.length) {sock : Nat} (hp : s.pkg sock = p) (ty : BitVec 8) :
    (s.attestAppend sock ty).pkg sock = p := by
  unfold State.attestAppend
  rw [pkg_modPkg_same, hp, if_pos h]

theorem attest_room {p : Package} (h : p.attLog.length < 1024) {sock : Nat} (hp : s.pkg sock = p) (ty : BitVec 8) :
    (s.attestAppend sock ty).pkg sock = { p with attLog := p.attLog ++ [{
      type := ty, svn := (p.svn.setWidth 56).setWidth 64,
      digest := tget p.attExt 3 0 ++ (tget p.attExt 2 0 ++ (tget p.attExt 1 0 ++ tget p.attExt 0 0)) }] } := by
  unfold State.attestAppend
  rw [pkg_modPkg_same, hp, if_neg (by omega), svn_mask]
  exact congrArg (fun x => ({ p with attLog := p.attLog ++ [{ type := ty, svn := (p.svn.setWidth 56).setWidth 64, digest := x }] } : Package))
    (words_appended _ _ _ _)

theorem tfind_map_range {β : Type} (f : Nat → β) (n k : Nat) (hk : k < n) : tfind ((List.range n).map (fun k => (k, f k))) k = some (f k) := by
  have h := tfind_zip_map f k (List.range n)
  rwa [if_pos (List.mem_range.2 hk), ← List.map_prod_left_eq_zip] at h

/-- A byte of the number that bytes stand for. -/
theorem byte_ofNat_leValue (bs : List (BitVec 8)) {j : Nat} (hj : j < 8) :
    (BitVec.ofNat 64 (leValue bs)).extractLsb' (8 * j) 8 = bs.getD j 0 := by
  have h1 : (BitVec.ofNat 64 (leValue bs)).extractLsb' (8 * j) 8 = BitVec.ofNat 8 (leValue bs / 256 ^ j) := by
    apply BitVec.eq_of_getLsbD_eq
    intro i hi
    rw [BitVec.getLsbD_extractLsb', BitVec.getLsbD_ofNat, BitVec.getLsbD_ofNat, show (256 : Nat) = 2 ^ 8 from rfl, ← Nat.pow_mul,
      Nat.testBit_div_two_pow]
    simp [hi, show i + 8 * j < 64 by omega, Nat.add_comm (8 * j) i]
  rw [h1]
  apply BitVec.eq_of_toNat_eq
  rw [BitVec.toNat_ofNat, show 2 ^ 8 = 256 from rfl, leValue_byte]

theorem signed_none {sock : Nat} {p : Package} (hp : s.pkg sock = p) (h : p.signing = none) : (s.attestSigned sock).pkg sock = p := by
  unfold State.attestSigned
  rw [pkg_modPkg_same, hp]
  dsimp only
  rw [h]

theorem signed_some {sock : Nat} {p : Package} (hp : s.pkg sock = p) {g : BitVec 256} (h : p.signing = some g) :
    ((s.attestSigned sock).pkg sock).signing = none ∧ ((s.attestSigned sock).pkg sock).sigDone = true ∧
      ∀ k < 302, ∀ j < 8, (tget ((s.attestSigned sock).pkg sock).attSig k 0).extractLsb' (8 * j) 8 = Config.signature g (8 * k + j) := by
  have he : (s.attestSigned sock).pkg sock = { p with
      signing := none
      sigDone := true
      attSig := (List.range 303).map (fun k => (k,
        BitVec.ofNat 64 (leValue ((List.range (if k = 302 then 4 else 8)).map (fun j => Config.signature g (8 * k + j)))))) } := by
    unfold State.attestSigned
    rw [pkg_modPkg_same, hp]
    dsimp only
    rw [h]
  rw [he]
  refine ⟨rfl, rfl, fun k hk j hj => ?_⟩
  dsimp only
  rw [tget, tfind_map_range _ 303 k (by omega), Option.getD_some, byte_ofNat_leValue _ hj, if_neg (by omega)]
  simp [hj]

/-! Debug stops. -/

/-- What a debug stop takes the context from: its waits given up, and it parked. -/
theorem cluster_parkBase (s : State) (c n : Nat) (r : Reason) : ((parkBase s c r).cluster n).waits = (s.cluster n).waits := by
  unfold parkBase
  rw [cluster_modCtx]
  have h : ∀ u : State, (u.modCluster (clusterOf c) (fun x => x.forget c)).cluster n = (u.cluster n) ∨
      (u.modCluster (clusterOf c) (fun x => x.forget c)).cluster n = (u.cluster n).forget c := fun u => by
    rw [cluster_modCluster]
    split
    · next h => exact .inr (by rw [h])
    · exact .inl rfl
  have h2 : ∀ u : State, ((u.modCluster (clusterOf c) (fun x => x.forget c)).cluster n).waits = (u.cluster n).waits := fun u => by
    rcases h u with h | h <;> rw [h]
    rfl
  unfold State.squash
  dsimp only
  split <;> split
  · exact h2 _
  · rfl
  · exact h2 _
  · rfl

/-- A context's waits given up. -/
structure Unwaited (s t : State) (c : Nat) : Prop where
  ctx : ∃ w, t.ctx c = { s.ctx c with inwfm := w }
  waits : ∀ e ∈ (t.cluster (clusterOf c)).waits, e.who ≠ .ctx c

theorem dropWait_unwaited (s : State) (c : Nat) : Unwaited s (s.dropWait c) c := by
  have ha : ∀ l, Apart s (s.relink (clusterOf c) l (s.ctx c).tcb) := fun l => keep_relink (plain_apart s) (Apart.refl s)
  have hu : ∀ u : State, Apart s u → Unwaited s (u.modCluster (clusterOf c) (fun k =>
      { k with waits := k.waits.filter (fun e => e.who != .ctx c), waitOver := k.waitOver.filter (fun t => t != (s.ctx c).tcb || (s.ctx c).tcb == 0) })) c := by
    intro u h
    refine ⟨h.super c, fun e he => ?_⟩
    rw [cluster_modCluster, if_pos rfl] at he
    simpa using (List.mem_filter.1 he).2
  unfold State.dropWait
  dsimp only
  split <;> split
  · exact ⟨(hu s (Apart.refl s)).1, (hu s (Apart.refl s)).2⟩
  · exact ⟨(hu _ (ha _)).1, (hu _ (ha _)).2⟩
  · exact hu s (Apart.refl s)
  · exact hu _ (ha _)

theorem apart_trace (s : State) (kind c : Nat) (pc a w : Word) : Apart s (s.trace kind c pc a w) := keep_trace (plain_apart s) (Apart.refl s)

section
variable {c : Nat}

theorem debugStop_none (h : (s.ctx c).life = .vacant ∨ (s.ctx c).life = .parked .stop) : s.debugStop c = s := by
  unfold State.debugStop
  dsimp only
  rcases h with h | h <;> rw [h]

theorem debugStop_stops (h : (s.ctx c).life = .running ∨ (s.ctx c).life = .parked .cwait) :
    s.debugStop c = ((s.dropWait c).park c .stop 0).trace 3 c (s.ctx c).pc 0 0 := by
  unfold State.debugStop
  dsimp only
  rcases h with h | h <;> rw [h]

theorem debugStop_pending (h : (s.ctx c).life ∈ [Life.parked .fault, .parked .trap, .parked .tilebind]) :
    s.debugStop c = (s.modCtx c (fun x => { x with pstop := true })).trace 3 c (s.ctx c).pc 0 0 := by
  unfold State.debugStop
  dsimp only
  simp only [List.mem_cons, List.not_mem_nil, or_false] at h
  rcases h with h | h | h <;> rw [h]

/-- A running context, or one that waits for a counter, is stopped where it stands. -/
theorem stopped (h : (s.ctx c).life = .running ∨ (s.ctx c).life = .parked .cwait) : ((s.debugStop c).ctx c).life = .parked .stop ∧
    ((s.debugStop c).ctx c).pc = (s.ctx c).pc ∧ ((s.debugStop c).ctx c).g = (s.ctx c).g ∧ ((s.debugStop c).ctx c).held = none ∧
    ∀ e ∈ ((s.debugStop c).cluster (clusterOf c)).waits, e.who ≠ .ctx c := by
  rw [debugStop_stops h]
  obtain ⟨⟨w, h1⟩, h2⟩ := dropWait_unwaited s c
  have h3 := apart_park (s.dropWait c) c .stop 0
  have h4 := apart_trace ((s.dropWait c).park c .stop 0) 3 c (s.ctx c).pc 0 0
  obtain ⟨w1, h5⟩ := h3.super c
  obtain ⟨w2, h6⟩ := h4.super c
  have h7 : (parkBase (s.dropWait c) c .stop).ctx c = _ := (ctx_parkBase ..).trans (if_pos rfl)
  rw [h6, h5, h7, h1]
  refine ⟨rfl, rfl, rfl, rfl, fun e he => h2 e ?_⟩
  rwa [(h4.cluster _).waits, (h3.cluster _).waits, cluster_parkBase] at he

theorem stop_pending (h : (s.ctx c).life ∈ [Life.parked .fault, .parked .trap, .parked .tilebind]) :
    ((s.debugStop c).ctx c).life = (s.ctx c).life ∧ ((s.debugStop c).ctx c).pstop = true ∧ ((s.debugStop c).ctx c).pc = (s.ctx c).pc := by
  rw [debugStop_pending h]
  obtain ⟨w, h1⟩ := (apart_trace (s.modCtx c (fun x => { x with pstop := true })) 3 c (s.ctx c).pc 0 0).super c
  rw [h1, ctx_modCtx_same]
  exact ⟨rfl, rfl, rfl⟩

theorem resumed (h : (s.ctx c).life = .parked .stop) (hb : (s.ctx c).bootHeld = false) : ((s.debugResume c).ctx c).life = .running ∧
    ((s.debugResume c).ctx c).pc = (s.ctx c).pc ∧ ((s.debugResume c).ctx c).g = (s.ctx c).g := by
  have he : s.debugResume c = (s.unpark c).trace 4 c (s.ctx c).pc 0 0 := if_pos ⟨h, hb⟩
  rw [he]
  obtain ⟨w, h1⟩ := (apart_trace (s.unpark c) 4 c (s.ctx c).pc 0 0).super c
  rw [h1]
  unfold State.unpark
  rw [ctx_modCtx_same]
  exact ⟨rfl, rfl, rfl⟩

end

/-! DBGDATA. -/

/-- The context that a core's DBGSEL selects, and the register. -/
def State.selected (s : State) (core : Nat) : Nat := 8 * core + (s.core core).dbgSel.toNat / 2 ^ 13

theorem dbgdata_running {core : Nat} (h : (s.ctx (s.selected core)).life ≠ .parked .stop) (v : Word) :
    s.dbgDataWrite core v = s ∧ s.dbgDataRead core = 0 := ⟨if_pos h, if_pos h⟩

theorem dbgdata_stopped {core : Nat} (h : (s.ctx (s.selected core)).life = .parked .stop)
    (hn : Sys2Proof.Machine.ctxNumber ((s.core core).dbgSel.toNat % 2 ^ 13) = true) (v : Word) :
    s.dbgDataWrite core v = s.regWrite (s.selected core) ((s.core core).dbgSel.toNat % 2 ^ 13) v ∧
      s.dbgDataRead core = s.regRead (s.selected core) ((s.core core).dbgSel.toNat % 2 ^ 13) := by
  have h1 : ¬ (s.ctx (8 * core + (s.core core).dbgSel.toNat / 2 ^ 13)).life ≠ .parked .stop := fun hx => hx h
  exact ⟨(if_neg h1).trans (if_pos hn), (if_neg h1).trans (if_pos hn)⟩

theorem exec_dbgdata {core : Nat} (h : s.hasCore core = true) (v : Word) :
    exec (.dbgdataAccess core (some v)) s = .next (s.dbgDataWrite core v) ∧
      exec (.dbgdataAccess core none) s = .next { s with outbox := s.outbox ++ [.debugData (s.dbgDataRead core)] } := by
  have h1 : ∀ wr, exec (.dbgdataAccess core wr) s = execDbgdataAccess core wr s := fun _ => rfl
  rw [h1, h1]
  unfold execDbgdataAccess
  rw [h]
  exact ⟨rfl, rfl⟩

theorem exec_dbgdata_absent {core : Nat} (h : s.hasCore core = false) (wr : Option Word) : exec (.dbgdataAccess core wr) s = .next s := by
  have h1 : exec (.dbgdataAccess core wr) s = execDbgdataAccess core wr s := rfl
  rw [h1]
  unfold execDbgdataAccess
  rw [h]
  rfl

theorem exec_debugStop {c : Nat} (h : s.hasCtx c = true) : exec (.debugStop c) s = .next (s.debugStop c) := congrArg Host.Outcome.next (if_pos h)

theorem exec_debugResume {c : Nat} (h : s.hasCtx c = true) : exec (.debugResume c) s = .next (s.debugResume c) := congrArg Host.Outcome.next (if_pos h)

theorem exec_debug_absent {c : Nat} (h : s.hasCtx c = false) : exec (.debugStop c) s = .next s ∧ exec (.debugResume c) s = .next s :=
  ⟨congrArg Host.Outcome.next (if_neg (by rw [h]; decide)), congrArg Host.Outcome.next (if_neg (by rw [h]; decide))⟩

/-- Settles O59: the boot page's commands change their package alone; a debug stop parks or pends, and DBGDATA needs a stop. -/
theorem bootAndDebug : Obligations.BootAndDebug := by
  unfold Obligations.BootAndDebug
  refine ⟨fun s sock x ty => ?_, fun s c core v => ?_⟩
  · have hrel : exec (.coreRelease sock x) s = .next (s.releaseCore sock x) := rfl
    have happ : ty ≠ 0 → exec (.attestAppend sock ty) s = .next (s.attestAppend sock ty) := fun h => congrArg Host.Outcome.next (if_neg h)
    refine ⟨fun h => ?_, fun h => ?_, fun hx hc hb => ?_, congrArg Host.Outcome.next (if_pos rfl), fun h => ⟨_, happ h, rfl, ?_, ?_, ?_⟩,
      ⟨_, rfl, rfl, ?_, ?_⟩, fun h => ⟨_, rfl, rfl, signed_none rfl h⟩, fun g h => ⟨_, rfl, rfl, signed_some rfl h⟩⟩
    · rw [hrel, release_high h]
    · rw [hrel, release_none h]
    · rw [release_held hx hc hb] at hrel
      refine ⟨_, hrel, rfl, ?_, ?_, ?_, fun k hk => ?_⟩
      · rw [pkg_modCtx, pkg_modCore, pkg_modPkg_same]
        rfl
      · rw [ctx_modCtx_same]
        rfl
      · rw [core_modCtx, core_modCore_same]
        rfl
      · rw [ctx_modCtx, if_neg hk]
        rfl
    · by_cases hl : 1024 ≤ (s.pkg sock).attLog.length
      · rw [attest_full hl rfl]
      · rw [attest_room (by omega) rfl]
    · exact fun hl => by rw [attest_full hl rfl]
    · exact fun hl => by rw [attest_room hl rfl]
    · unfold State.attestSign
      rw [pkg_modPkg_same]
    · unfold State.attestSign
      rw [pkg_modPkg_same]
  · refine ⟨fun h => ?_, fun h hl => ⟨_, exec_debugStop h, stopped hl⟩, fun h hl => ⟨_, exec_debugStop h, stop_pending hl⟩, fun h => ?_,
      fun h hl hb => ⟨_, exec_debugResume h, resumed hl hb⟩, fun h wr => exec_dbgdata_absent h wr, fun h hl => ?_, fun h hl hn => ?_⟩
    · cases hc : s.hasCtx c with
      | false => exact (exec_debug_absent hc).1
      | true => rw [exec_debugStop hc, debugStop_none (h.resolve_left (by rw [hc]; decide))]
    · cases hc : s.hasCtx c with
      | false => exact (exec_debug_absent hc).2
      | true =>
        have hn : ¬ ((s.ctx c).life = .parked .stop ∧ (s.ctx c).bootHeld = false) := fun ⟨h1, h2⟩ => by
          rcases h with h | h | h
          · rw [hc] at h; cases h
          · exact h h1
          · rw [h2] at h; cases h
        rw [exec_debugResume hc]
        exact congrArg Host.Outcome.next (if_neg hn)
    · obtain ⟨h1, h2⟩ := exec_dbgdata h v
      obtain ⟨h3, h4⟩ := dbgdata_running hl v
      rw [h1, h2, h3, h4]
      exact ⟨rfl, rfl⟩
    · obtain ⟨h1, h2⟩ := exec_dbgdata h v
      obtain ⟨h3, h4⟩ := dbgdata_stopped hl hn v
      rw [h1, h2, h3, h4]
      exact ⟨rfl, rfl⟩

end Sys2Proof.Machine
end

section
/-! PROOFS. What appending to a log of refused writes leaves alone, whatever its words go through: packages, what has left the
device, and the counters of tenants (R172, R331). -/

namespace Sys2Proof.Machine

variable {s t : State}

/-- Packages, messages sent and tenants' counters are the same. -/
structure Shelved (s t : State) : Prop where
  pkgs : t.pkgs = s.pkgs
  outbox : t.outbox = s.outbox
  tenants : SameTenants s t

theorem Shelved.refl (s : State) : Shelved s s := ⟨rfl, rfl, fun _ _ _ _ _ => rfl⟩

theorem Shelved.trans {u : State} (h : Shelved s t) (g : Shelved t u) : Shelved s u :=
  ⟨g.pkgs.trans h.pkgs, g.outbox.trans h.outbox, h.tenants.trans g.tenants⟩

theorem Shelved.pkg (h : Shelved s t) (k : Nat) : t.pkg k = s.pkg k := by
  unfold State.pkg
  rw [h.pkgs]

/-- A change of other fields of the state. -/
theorem shelved_of {u : State} (hp : u.pkgs = s.pkgs) (ho : u.outbox = s.outbox) (hc : u.ctrs = s.ctrs) : Shelved s u :=
  ⟨hp, ho, fun k v i _ _ => by
    show tget u.ctrs _ 0 = tget s.ctrs _ 0
    rw [hc]⟩

theorem Noted.pkgs_outbox (h : Noted s t) : t.pkgs = s.pkgs ∧ t.outbox = s.outbox := by
  obtain ⟨a, b, c, d, rfl⟩ := h
  exact ⟨rfl, rfl⟩

theorem Noted.shelved (h : Noted s t) (hc : SameTenants s t) : Shelved s t := ⟨h.pkgs_outbox.1, h.pkgs_outbox.2, hc⟩

theorem shelved_addCtr (s : State) (k n : Nat) {g u i : Nat} (hg : g < 16) (h5 : g ≠ 5) (hu : u < 32768) (hi : i < 256) :
    Shelved s (s.addCtr k g u i n) := ⟨rfl, rfl, sameTenants_addCtr s k n hg h5 hu hi⟩

theorem shelved_event (s : State) (e ty sbit : Nat) (tno : BitVec 12) (place extra : Nat) (a b : Word) :
    Shelved s (s.event e ty sbit tno place extra a b) :=
  Noted.shelved (keep_event (quiet_noted s) (Noted.refl s)) (sameTenants_event s e ty sbit tno place extra a b)

theorem shelved_chargeHome (s : State) (r : Req) (n : Nat) : Shelved s (s.chargeHome r n) :=
  Noted.shelved (keep_chargeHome (quiet_noted s) (Noted.refl s)) (sameTenants_chargeHome s r n)

theorem shelved_chargeTable (s : State) (here : Nat) (kind : ReqKind) (pa : Nat) : Shelved s (s.chargeTable here kind pa) :=
  (noted_chargeTable s here kind pa).shelved (sameTenants_chargeTable s here kind pa)

theorem shelved_foldl {γ : Type} {f : State → γ → State} (hf : ∀ s a, Shelved s (f s a)) (l : List γ) (s : State) : Shelved s (l.foldl f s) :=
  foldl_keeps (p := Shelved s) (fun _ a h => h.trans (hf _ a)) l (Shelved.refl s)

/-! Caches and directories. -/

theorem shelved_setClWord (s : State) (cl pa : Nat) (x : CacheWord) : Shelved s (s.setClWord cl pa x) := shelved_of rfl rfl rfl

theorem shelved_mend (s : State) (cl pa : Nat) : Shelved s (s.mend cl pa) := by
  unfold State.mend
  split
  · exact (shelved_setClWord s cl pa _).trans (shelved_addCtr _ _ 1 (by omega) (by omega) (by omega) (by omega))
  · exact .refl s

theorem shelved_markRecheck (s : State) (cl line : Nat) : Shelved s (s.markRecheck cl line) := by
  unfold State.markRecheck
  split
  · exact shelved_of rfl rfl rfl
  · exact .refl s

theorem shelved_postMessage (s : State) (core : Nat) (m : Quad) : Shelved s (s.postMessage core m).1 := by
  unfold State.postMessage
  split
  · exact shelved_addCtr s _ 1 (by omega) (by omega) (by omega) (by omega)
  · exact shelved_of rfl rfl rfl

theorem shelved_lostWord (s : State) (cl place pa : Nat) (x : CacheWord) : Shelved s (s.lostWord cl place pa x) := by
  have h := hubOf_lt (s.homeOf pa)
  have hc : ∀ u : State, Shelved u (u.countHub (s.homeOf pa) 3) := fun u => shelved_addCtr u _ 1 (by omega) (by omega) (by omega) (by omega)
  unfold State.lostWord State.lostWrite
  exact ((shelved_postMessage s _ _).trans (hc _)).trans (shelved_event _ _ _ _ _ _ _ _ _)

theorem shelved_dropOwner (s : State) (pa : Nat) : Shelved s (s.dropOwner pa) := by
  unfold State.dropOwner
  dsimp only
  split
  · exact shelved_of rfl rfl rfl
  · split <;> exact shelved_of rfl rfl rfl

theorem shelved_recall (s : State) (cl pa : Nat) : Shelved s (s.recall cl pa).1 := by
  have h := ((shelved_mend s cl pa).trans (shelved_setClWord _ cl pa CacheWord.absent)).trans (shelved_markRecheck _ cl (lineOf pa))
  have hl := fun u => shelved_lostWord u cl 0 pa CacheWord.absent
  by_cases ho : (s.clWord cl pa).st = .o
  · cases hb : (s.clWord cl pa).bad with
    | true =>
      have he : (s.recall cl pa).1 = (((s.mend cl pa).dropClWord cl pa).markRecheck cl (lineOf pa)).lostWord cl 0 pa := by
        simp only [State.recall, if_pos ho, hb, if_true]
      rw [he]
      exact h.trans (hl _)
    | false =>
      have he : (s.recall cl pa).1 = ((s.mend cl pa).dropClWord cl pa).markRecheck cl (lineOf pa) := by
        simp only [State.recall, if_pos ho, hb, Bool.false_eq_true, if_false]
      rw [he]
      exact h
  · have he : (s.recall cl pa).1 = s := by simp only [State.recall, if_neg ho]
    rw [he]
    exact .refl s

theorem shelved_invalidate (s : State) (cl pa : Nat) : Shelved s (s.invalidate cl pa).1 := by
  unfold State.invalidate
  dsimp only
  split
  · exact (shelved_setClWord s cl pa CacheWord.absent).trans (shelved_markRecheck _ cl _)
  · exact shelved_markRecheck s cl _

theorem shelved_unshare (s : State) (line c : Nat) : Shelved s (s.unshare line c) := by
  unfold State.unshare
  split <;> exact shelved_of rfl rfl rfl

theorem shelved_invalidateAt (pa : Nat) (excl : Option Nat) : ∀ (l : List Nat) (s : State), Shelved s (invalidateAt false pa excl l s)
  | [], s => .refl s
  | c :: l, s => by
    unfold invalidateAt
    split
    · exact shelved_invalidateAt pa excl l s
    · have h := shelved_invalidate s c pa
      simp only [Bool.false_eq_true, if_false]
      refine Shelved.trans ?_ (shelved_invalidateAt pa excl l _)
      split
      · exact h
      · exact h.trans (shelved_unshare _ _ c)

/-! Homes. -/

theorem shelved_landWb (s : State) (pa : Nat) : Shelved s (s.landWb pa) := by
  unfold State.landWb
  split
  · exact .refl s
  · next f _ =>
    have hd : Shelved s (State.draw { s with flights := s.flights.erase f ++ [{ f with place := .reply }] }).2 := shelved_of rfl rfl rfl
    refine (hd.trans (shelved_chargeHome _ f.req s.fresh)).trans (shelved_foldl (fun u w => ?_) _ _)
    split
    · exact (shelved_dropOwner u _).trans (shelved_of rfl rfl rfl)
    · exact .refl u

theorem shelved_recallWord (s : State) (pa : Nat) : Shelved s (s.recallWord pa) := by
  have h : Shelved s (s.recallOwner pa).1 := by
    unfold State.recallOwner
    dsimp only
    have h1 := shelved_landWb s pa
    split
    · exact h1
    · split
      · exact h1
      · exact (h1.trans (shelved_recall _ _ pa)).trans (shelved_dropOwner _ pa)
  unfold State.recallWord
  cases hr : s.recallOwner pa with
  | mk u v =>
    rw [hr] at h
    cases v with
    | none => exact h
    | some x => exact h.trans (shelved_of rfl rfl rfl)

theorem shelved_homeFetch (s : State) (pa : Nat) : Shelved s (endState (homeFetch 0 0 pa s)) := by
  obtain ⟨h, -⟩ := logged_homeFetch s pa
  obtain ⟨m, d, e, l, a, b, c, f, hs⟩ := h.same
  exact ⟨by rw [hs], by rw [hs], h.tenants⟩

theorem shelved_homeForward (s : State) (pa : Nat) : Shelved s (endState (homeForward 0 0 pa s)) := by
  unfold homeForward
  rw [modify_bind, get_bind]
  have h := shelved_landWb s pa
  cases (s.landWb pa).ownerOf pa with
  | none => exact h.trans (shelved_homeFetch _ pa)
  | some c =>
    by_cases hb : ((s.landWb pa).clWord c pa).st = .o ∧ ((s.landWb pa).clWord c pa).bad = true
    · simp only [if_pos hb]
      exact h.trans ((shelved_setClWord _ c pa CacheWord.absent).trans (shelved_dropOwner _ pa))
    · simp only [if_neg hb]
      exact h.trans (shelved_mend _ c pa)

theorem shelved_readTable (s : State) (here pa : Nat) : Shelved s (s.readTable here pa).2 := by
  unfold State.readTable
  split
  · have h := shelved_homeForward s pa
    cases hr : homeForward 0 0 pa s with
    | ok x t =>
      rw [hr] at h
      exact h
    | error e t =>
      rw [hr] at h
      exact h.trans (shelved_of rfl rfl rfl)
  · exact .refl s

theorem shelved_setTableWord (s : State) (here pa : Nat) (x : Word) : Shelved s (s.setTableWord here pa x) := by
  have hp : ∀ u : State, Shelved u (u.putWord pa x 255#8) := fun _ => shelved_of rfl rfl rfl
  have hm : ∀ (u : State) f, Shelved u (u.modDir (lineOf pa) f) := fun _ _ => shelved_of rfl rfl rfl
  unfold State.setTableWord State.pokeWord State.invalidateWord State.clearSockets
  split
  · exact ((((shelved_recallWord s pa).trans (hp _)).trans (shelved_invalidateAt pa none _ _)).trans (hm _ _)).trans (hm _ _)
  · exact .refl s

/-! The log. -/

theorem shelved_putTable (sock : Nat) : ∀ (xs : List Word) (s : State) (a : Nat), Shelved s (s.putTable sock a xs)
  | [], s, _ => .refl s
  | x :: xs, s, a => (shelved_setTableWord s sock a x).trans (shelved_putTable sock xs (s.setTableWord sock a x) (a + 8))

theorem shelved_appendRecord (s : State) (sock : Nat) (d : DeadLetter) (base slot : Nat) (n : Word) : Shelved s (s.appendRecord sock d base slot n) :=
  ((shelved_chargeTable s sock .own slot).trans (shelved_putTable sock _ _ slot)).trans
    ((shelved_chargeTable _ sock .atH base).trans (shelved_setTableWord _ sock base _))

theorem shelved_letterLog (s : State) (sock a : Nat) : Shelved s (s.letterLog sock a).2.2 :=
  ((shelved_chargeTable s sock .rdW a).trans (shelved_readTable _ sock a)).trans (shelved_readTable _ sock (a + 8))

/-- A refused write leaves packages and what has left the device alone, and is counted once. -/
theorem deadLetter_counts (s : State) (sock : Nat) (d : DeadLetter) : (s.deadLetter sock d).pkgs = s.pkgs ∧ (s.deadLetter sock d).outbox = s.outbox ∧
    (s.deadLetter sock d).ctr sock 5 d.tno.toNat 0 = s.ctr sock 5 d.tno.toNat 0 + 1 := by
  have hn := d.tno.isLt
  have hl := shelved_letterLog s sock (s.tenant sock d.tno).dlbase
  have key : ∀ u : State, u.pkgs = s.pkgs → u.outbox = s.outbox → u.ctr sock 5 d.tno.toNat 0 = s.ctr sock 5 d.tno.toNat 0 →
      (u.refusal sock d).pkgs = s.pkgs ∧ (u.refusal sock d).outbox = s.outbox ∧ (u.refusal sock d).ctr sock 5 d.tno.toNat 0 = s.ctr sock 5 d.tno.toNat 0 + 1 := by
    intro u h1 h2 h3
    obtain ⟨g1, g2, -⟩ := refusal_ok u sock d
    exact ⟨g1.pkgs_outbox.1.trans h1, g1.pkgs_outbox.2.trans h2, g2.trans (by rw [h3])⟩
  have hsh : ∀ u, Shelved s u → _ := fun u h => key u h.pkgs h.outbox (h.tenants sock _ 0 (by omega) (by omega))
  rw [deadLetter_of s sock d rfl rfl]
  split
  · exact hsh _ (hl.trans (shelved_appendRecord _ sock d _ _ _))
  · split
    · exact hsh _ hl
    · refine key _ hl.pkgs hl.outbox (((ctr_addCtr ..).trans (if_neg fun h => ?_)).trans (hl.tenants sock _ 0 (by omega) (by omega)))
      unfold ctrKey at h
      omega

end Sys2Proof.Machine
end

section
/-! PROOFS. Fabric ports, FARID and link retry (O57). -/

namespace Sys2Proof.Machine

variable {s t : State}

/-! Fabric ports. -/

/-- A port of a package replaced. -/
def State.withPort (s : State) (sock port : Nat) (f : FabPort) : State := s.modPkg sock (fun q => { q with ports := tset q.ports port f })

theorem modPkg_value (k : Nat) (f : Package → Package) {v : Package} (h : f (s.pkg k) = v) : s.modPkg k f = { s with pkgs := tset s.pkgs k v } := by
  subst h
  rfl

/-- A package changed to the same thing. -/
theorem modPkg_congr {k : Nat} {f g : Package → Package} (h : f (s.pkg k) = g (s.pkg k)) : s.modPkg k f = s.modPkg k g := by
  unfold State.modPkg
  rw [h]

theorem mem_of_tfind {α : Type} {q : Nat} {v : α} : ∀ {l : Tbl α}, tfind l q = some v → (q, v) ∈ l
  | (a, b) :: l, h => by
    rw [tfind] at h
    split at h
    · next he =>
      cases h
      simp [he]
    · exact List.mem_cons_of_mem _ (mem_of_tfind h)

section
variable {sock port : Nat}

theorem replay_none {peer : Nat} (h : s.coherentPorts sock peer = []) : s.replay sock port peer = s := by
  unfold State.replay
  rw [h]

theorem replay_some {peer k : Nat} {ks : List Nat} (h : s.coherentPorts sock peer = k :: ks) : s.replay sock port peer =
    { s with flights := s.flights.map (fun g => if g.place = .link (16 * sock + port) then { g with place := .link (16 * sock + k) } else g) } := by
  unfold State.replay
  rw [h]
  simp only [beq_iff_eq]

/-- The pieces of one flow lost. -/
theorem flow_loseFlow (s : State) (sock d k : Nat) : tget ((s.loseFlow sock d).pkg sock).flowsOut k OutFlow.first =
    if k = d then { tget (s.pkg sock).flowsOut d OutFlow.first with kept := [], timeouts := 0, resync := true }
    else tget (s.pkg sock).flowsOut k OutFlow.first := by
  have h : ∀ (l : List FarPiece) (u : State), (l.foldl (fun s p => s.deadLetter sock (p.letter 0xFFFF#16)) u).pkgs = u.pkgs := fun l u =>
    foldl_keeps (p := fun v => v.pkgs = u.pkgs) (fun v p h => (deadLetter_counts v sock _).1.trans h) l rfl
  unfold State.loseFlow
  dsimp only
  rw [State.pkg, h]
  refine (congrArg (fun p : Package => tget p.flowsOut k OutFlow.first) (pkg_modPkg_same s sock _)).trans ?_
  exact tget_tset ..

/-- The pieces of the flows of a list lost. -/
theorem kept_loseFlows (sock k : Nat) : ∀ (l : List (Nat × OutFlow)) (s : State),
    (k ∈ l.map (·.1) ∨ (tget (s.pkg sock).flowsOut k OutFlow.first).kept = []) →
    (tget ((l.foldl (fun s e => s.loseFlow sock e.1) s).pkg sock).flowsOut k OutFlow.first).kept = []
  | [], _, h => h.resolve_left (by simp)
  | e :: l, s, h => by
    refine kept_loseFlows sock k l (s.loseFlow sock e.1) ?_
    rw [flow_loseFlow]
    rcases h with h | h
    · rcases List.mem_cons.1 h with h | h
      · exact .inr (by rw [if_pos h])
      · exact .inl h
    · refine .inr ?_
      split
      · rfl
      · exact h

theorem farFallen_some (h : s.farPorts sock ≠ []) : s.farFallen sock = s := if_neg (by simpa using h)

/-- Where no far port remains, no flow keeps a piece. -/
theorem farFallen_none (h : s.farPorts sock = []) (d : Nat) : (tget ((s.farFallen sock).pkg sock).flowsOut d OutFlow.first).kept = [] := by
  have he : s.farFallen sock = (s.pkg sock).flowsOut.foldl (fun s e => s.loseFlow sock e.1) s := if_pos (by simp [h])
  rw [he]
  refine kept_loseFlows sock d _ s ?_
  by_cases hd : d ∈ (s.pkg sock).flowsOut.map (·.1)
  · exact .inl hd
  · refine .inr ?_
    have hf : tfind (s.pkg sock).flowsOut d = none := by
      cases hf : tfind (s.pkg sock).flowsOut d with
      | none => rfl
      | some f => exact absurd (List.mem_map.2 ⟨_, mem_of_tfind hf, rfl⟩) hd
    rw [tget, hf]
    rfl

end

/-- What a write of FABPORTn puts there. -/
def fabPortOf (old : FabPort) (x : Word) : FabPort :=
  { mode := x.extractLsb' 0 2, peer := x.extractLsb' 2 3
    up := old.up && x.extractLsb' 0 2 == old.mode && x.extractLsb' 2 3 == old.peer, lretry := x.getLsbD 6 }

section
variable {sock port : Nat} {x : Word}

theorem mode_extract (x : Word) : x.setWidth 2 = x.extractLsb' 0 2 := by
  apply BitVec.eq_of_getLsbD_eq
  intro i hi
  simp [hi]

theorem peer_extract (x : Word) : (x >>> 2).setWidth 3 = x.extractLsb' 2 3 := by
  apply BitVec.eq_of_getLsbD_eq
  intro i hi
  simp [hi]

theorem toNat_mode (x : Word) : (x.extractLsb' 0 2).toNat = x.toNat % 4 := by simp [BitVec.extractLsb'_toNat]

/-- The write as one case distinction on what the port was. -/
theorem writeFabPort_eq (s : State) (sock n : Nat) (x : Word) : s.writeFabPort sock n x =
    if !(s.fusesOf sock).fab.getLsbD n || x.toNat / 2 ^ 7 ≠ 0 || x.extractLsb' 0 2 = 3#2 then s
    else
      let old := tget (s.pkg sock).ports n FabPort.off
      let new := fabPortOf old x
      if old.up && !new.up && old.mode == 1#2 then (s.withPort sock n new).replay sock n old.peer.toNat
      else if old.up && !new.up && old.mode == 2#2 then (s.withPort sock n new).farFallen sock
      else s.withPort sock n new := by
  unfold State.writeFabPort
  rw [mode_extract, peer_extract]
  rfl

theorem writeFabPort_ignored (h : (s.fusesOf sock).fab.getLsbD port = false ∨ 128 ≤ x.toNat ∨ x.toNat % 4 = 3) : s.writeFabPort sock port x = s := by
  rw [writeFabPort_eq]
  refine if_pos ?_
  rcases h with h | h | h
  · rw [h]
    rfl
  · simp [h]
  · have : x.extractLsb' 0 2 = 3#2 := by
      apply BitVec.eq_of_toNat_eq
      rw [toNat_mode, h]
      rfl
    simp [this]

theorem writeFabPort_taken (h : (s.fusesOf sock).fab.getLsbD port = true) (hx : x.toNat < 128) (hm : x.toNat % 4 ≠ 3) :
    let old := tget (s.pkg sock).ports port FabPort.off
    let new := fabPortOf old x
    s.writeFabPort sock port x =
      if old.up && !new.up && old.mode == 1#2 then (s.withPort sock port new).replay sock port old.peer.toNat
      else if old.up && !new.up && old.mode == 2#2 then (s.withPort sock port new).farFallen sock
      else s.withPort sock port new := by
  rw [writeFabPort_eq, if_neg]
  · rw [h]
    have h2 : x.extractLsb' 0 2 ≠ 3#2 := fun he => hm (by rw [← toNat_mode, he]; rfl)
    simp [h2, hx]

theorem exec_linkRetrain (s : State) (sock : Nat) (hp : port < 16) (x : Word) : exec (.linkRetrain sock port x) s = .next (s.writeFabPort sock port x) :=
  congrArg Host.Outcome.next (if_pos hp)

theorem exec_linkRetrain_ignored (h : 16 ≤ port ∨ (s.fusesOf sock).fab.getLsbD port = false ∨ 128 ≤ x.toNat ∨ x.toNat % 4 = 3) :
    exec (.linkRetrain sock port x) s = .next s := by
  by_cases hp : port < 16
  · rw [exec_linkRetrain s sock hp, writeFabPort_ignored (h.resolve_left (by omega))]
  · exact congrArg Host.Outcome.next (if_neg hp)

/-! The ends of links. -/

theorem linkTrained_absent (h : (s.fusesOf sock).fab.getLsbD port = false) : s.linkTrained sock port = s := if_pos (by rw [h]; rfl)

theorem linkTrained_up (h : (s.fusesOf sock).fab.getLsbD port = true) {f : FabPort} (hf : tfind (s.pkg sock).ports port = some f) (hm : f.mode ≠ 0) :
    s.linkTrained sock port = s.withPort sock port { f with up := true } := by
  have hg : tget (s.pkg sock).ports port FabPort.off = f := by rw [tget, hf]; rfl
  have hn : ¬ (!(s.fusesOf sock).fab.getLsbD port) = true := by rw [h]; decide
  unfold State.linkTrained
  rw [if_neg hn]
  refine (modPkg_value sock _ (v := { s.pkg sock with ports := tset (s.pkg sock).ports port { f with up := true } }) ?_).trans rfl
  dsimp only
  rw [hg, if_neg hm]

theorem portDown_some {f : FabPort} (hf : tfind (s.pkg sock).ports port = some f) : s.portDown sock port = s.withPort sock port { f with up := false } := by
  refine (modPkg_value sock _ (v := { s.pkg sock with ports := tset (s.pkg sock).ports port { f with up := false } }) ?_).trans rfl
  dsimp only
  rw [hf]

theorem coherentDown_ignored (h : ∀ f, tfind (s.pkg sock).ports port = some f → f.mode ≠ 1 ∨ f.up = false) : s.coherentDown sock port = s := by
  unfold State.coherentDown
  cases hf : tfind (s.pkg sock).ports port with
  | none => rfl
  | some f =>
    refine if_pos ?_
    rcases h f hf with h | h
    · simp [show f.mode ≠ 1#2 from h]
    · simp [h]

theorem coherentDown_falls {f : FabPort} (hf : tfind (s.pkg sock).ports port = some f) (hm : f.mode = 1) (hu : f.up = true) :
    s.coherentDown sock port = (s.withPort sock port { f with up := false }).replay sock port f.peer.toNat := by
  unfold State.coherentDown
  rw [hf]
  refine (if_neg (by simp [hm, hu])).trans ?_
  rw [portDown_some hf]

theorem farPortDown_ignored (h : ∀ f, tfind (s.pkg sock).ports port = some f → f.mode ≠ 2 ∨ f.up = false) : s.farPortDown sock port = s := by
  unfold State.farPortDown
  cases hf : tfind (s.pkg sock).ports port with
  | none => rfl
  | some f =>
    refine if_pos ?_
    rcases h f hf with h | h
    · simp [show f.mode ≠ 2#2 from h]
    · simp [h]

theorem farPortDown_falls {f : FabPort} (hf : tfind (s.pkg sock).ports port = some f) (hm : f.mode = 2) (hu : f.up = true) :
    s.farPortDown sock port = (s.withPort sock port { f with up := false }).farFallen sock := by
  unfold State.farPortDown
  rw [hf]
  refine (if_neg (by simp [hm, hu])).trans ?_
  rw [portDown_some hf]

/-! FARID. -/

theorem tfind_tmap {α : Type} (f : Nat → α → α) (k : Nat) : ∀ (l : Tbl α), tfind (tmap f l) k = (tfind l k).map (f k)
  | [] => rfl
  | (a, b) :: l => by
    have ih := tfind_tmap f k l
    unfold tmap at ih ⊢
    rw [List.map_cons, tfind, tfind, ih]
    split
    · next h => rw [h]; rfl
    · rfl

theorem writeFarId_taken (hx : x.toNat < 8192) : s.writeFarId sock x = s.modPkg sock (fun p =>
    { p with farid := x.setWidth 12, farVal := x.getLsbD 12, flowsOut := tmap (fun _ f => { f with resync := true }) p.flowsOut }) :=
  if_neg (by omega)

end

/-! Link retry. -/

section
variable {sock port : Nat} {f : Frame}

theorem link_ignored (h : ∀ x, tfind (s.pkg sock).ports port = some x → x.lretry = false) :
    s.linkLack sock port f = s ∧ s.linkLnak sock port f = s := by
  unfold State.linkLack State.linkLnak
  cases hf : tfind (s.pkg sock).ports port with
  | none => exact ⟨rfl, rfl⟩
  | some p => exact ⟨if_pos (by rw [h p hf]; rfl), if_pos (by rw [h p hf]; rfl)⟩

/-- A frame that the link layer does not hand on does nothing more. -/
theorem stopped_frames {u : State} (h : s.linkTake sock port f = (u, false)) :
    ∀ j ∈ [Instr.farDataReceive sock port f, .farAckReceive sock port f, .farNakReceive sock port f, .farRefuseReceive sock port f],
      exec j s = .next u := by
  have h1 : s.farData sock port f = u := by unfold State.farData; rw [h]; rfl
  have h2 : s.farAck sock port f = u := by unfold State.farAck; rw [h]; rfl
  have h3 : s.farNak sock port f = u := by unfold State.farNak; rw [h]; rfl
  have h4 : s.farRefuse sock port f = u := by unfold State.farRefuse; rw [h]; rfl
  have e1 : exec (.farDataReceive sock port f) s = .next (s.farData sock port f) := rfl
  have e2 : exec (.farAckReceive sock port f) s = .next (s.farAck sock port f) := rfl
  have e3 : exec (.farNakReceive sock port f) s = .next (s.farNak sock port f) := rfl
  have e4 : exec (.farRefuseReceive sock port f) s = .next (s.farRefuse sock port f) := rfl
  simp [e1, e2, e3, e4, h1, h2, h3, h4]

section
variable {x : FabPort} (hx : tfind (s.pkg sock).ports port = some x) (hr : x.lretry = true) (ho : s.farOpen sock port = true)
include hx hr ho

theorem linkTake_nak (h : f.fcsGood = false ∨ ((tget (s.pkg sock).links port Link.first).expect - f.lseq).toNat ≥ 2 ^ 31) :
    s.linkTake sock port f = (s.putOut sock port [{ (Frame.bare 5 (s.pkg sock).farid f.src 0) with
      lseq := (tget (s.pkg sock).links port Link.first).expect }], false) := by
  have h1 : (f.fcsGood && f.lseq == (tget (s.pkg sock).links port Link.first).expect) = false := by
    rcases h with h | h
    · rw [h]; rfl
    · have : f.lseq ≠ (tget (s.pkg sock).links port Link.first).expect := fun he => by
        rw [he, BitVec.sub_self] at h
        exact absurd h (by decide)
      simp [this]
  have h2 : (f.fcsGood && seqLe f.lseq (tget (s.pkg sock).links port Link.first).expect) = false := by
    rcases h with h | h
    · rw [h]; rfl
    · have : seqLe f.lseq (tget (s.pkg sock).links port Link.first).expect = false := by
        unfold seqLe
        simpa using h
      simp [this]
  unfold State.linkTake
  simp only [hx, hr, ho, h1, h2, Bool.not_true, Bool.false_eq_true, if_false]

theorem linkTake_again (hg : f.fcsGood = true) (hn : f.lseq ≠ (tget (s.pkg sock).links port Link.first).expect)
    (hl : ((tget (s.pkg sock).links port Link.first).expect - f.lseq).toNat < 2 ^ 31) : s.linkTake sock port f = (s, false) := by
  have h2 : seqLe f.lseq (tget (s.pkg sock).links port Link.first).expect = true := decide_eq_true hl
  unfold State.linkTake
  simp [hx, hr, ho, hg, hn, h2]

theorem linkLack_frees (hg : s.frameGood sock f = true) (ht : f.type = 4) : s.linkLack sock port f =
    s.modPkg sock (fun y => { y with links := tset y.links port { (tget (s.pkg sock).links port Link.first) with
      kept := (tget (s.pkg sock).links port Link.first).kept.filter (fun g => !seqLe g.lseq f.lseq) } }) := by
  unfold State.linkLack
  rw [hx]
  exact (if_neg (by simp [hr, ho, hg, ht])).trans (modPkg_congr rfl)

theorem linkLnak_replays (hg : s.frameGood sock f = true) (ht : f.type = 5) : s.linkLnak sock port f =
    s.putOut sock port ((tget (s.pkg sock).links port Link.first).kept.filter (fun g => seqLe f.lseq g.lseq)) := by
  unfold State.linkLnak
  rw [hx]
  exact if_neg (by simp [hr, ho, hg, ht])

end
end

/-- Settles O57: what a port's write, training or fall changes, and what link retry makes of a frame. -/
theorem fabricAndLinkRetry : Obligations.FabricAndLinkRetry := by
  unfold Obligations.FabricAndLinkRetry
  refine ⟨?_, ?_⟩
  · intro s sock port x p here withPort sets replays loses
    have hrep : ∀ (i : Instr) (t : State) (peer : Nat), t.flights = s.flights → exec i s = .next (t.replay sock port peer) → replays i t peer := by
      intro i t peer hfl he
      refine ⟨fun h => ?_, fun k ks h => ?_⟩
      · rw [he, replay_none h]
      · rw [he, replay_some h, hfl]
    have hlose : ∀ (i : Instr) (u : State), exec i s = .next (u.farFallen sock) → loses i u := by
      intro i u he
      refine ⟨fun h => ?_, fun h => ⟨_, he, farFallen_none h⟩⟩
      rw [he, farFallen_some h]
    refine ⟨exec_linkRetrain_ignored, ?_, fun h => congrArg Host.Outcome.next (linkTrained_absent h),
      fun h f hf hm => congrArg Host.Outcome.next (linkTrained_up h hf hm), fun h => congrArg Host.Outcome.next (coherentDown_ignored h),
      fun f hf hm hu => hrep _ _ _ rfl (congrArg Host.Outcome.next (coherentDown_falls hf hm hu)),
      fun h => congrArg Host.Outcome.next (farPortDown_ignored h),
      fun f hf hm hu => hlose _ _ (congrArg Host.Outcome.next (farPortDown_falls hf hm hu)),
      fun h => congrArg Host.Outcome.next (if_pos (by omega)), fun h => ?_⟩
    · intro hp hh hx hm old mode peer stays new
      have he := exec_linkRetrain s sock hp x
      rw [writeFabPort_taken hh hx hm] at he
      refine ⟨fun h => ?_, fun hu hst hm1 => hrep _ _ _ rfl ?_, fun hu hst hm2 => hlose _ _ ?_⟩
      · have h1 : ∀ m : BitVec 2, (m = 1#2 ∨ m = 2#2) → (old.up && !stays && old.mode == m) = false := fun m hm => by
          rcases h with h | h | h | h
          · simp [h]
          · simp [h]
          · rcases hm with rfl | rfl <;> simp [h]
          · rcases hm with rfl | rfl <;> simp [h]
        have h2 : (old.up && !(fabPortOf old x).up && old.mode == 1#2) = false := h1 _ (.inl rfl)
        have h3 : (old.up && !(fabPortOf old x).up && old.mode == 2#2) = false := h1 _ (.inr rfl)
        rw [h2, h3] at he
        exact he
      · have h2 : (old.up && !(fabPortOf old x).up && old.mode == 1#2) = true := by
          rw [show (fabPortOf old x).up = false from hst, hu, hm1]
          rfl
        rw [h2] at he
        exact he
      · have h2 : (old.up && !(fabPortOf old x).up && old.mode == 1#2) = false := by
          rw [hm2, show ((2 : BitVec 2) == 1#2) = false from rfl, Bool.and_false]
        have h3 : (old.up && !(fabPortOf old x).up && old.mode == 2#2) = true := by
          rw [show (fabPortOf old x).up = false from hst, hu, hm2]
          rfl
        rw [h2, h3] at he
        exact he
    · have he : exec (.faridWrite sock x) s = .next (s.writeFarId sock x) := rfl
      rw [writeFarId_taken h] at he
      refine ⟨_, he, rfl, ?_, ?_, fun d => ?_⟩
      · rw [pkg_modPkg_same]
        apply BitVec.eq_of_getLsbD_eq
        intro i hi
        simp [hi]
      · rw [pkg_modPkg_same]
      · rw [pkg_modPkg_same]
        exact tfind_tmap (fun _ f => { f with resync := true }) d (s.pkg sock).flowsOut
  · intro s sock port f p l
    refine ⟨fun h => ?_, fun x hx hr ho => ⟨fun h => stopped_frames (linkTake_nak hx hr ho h), fun hg hn hl => stopped_frames (linkTake_again hx hr ho hg hn hl),
      fun hg ht => congrArg Host.Outcome.next (linkLack_frees hx hr ho hg ht), fun hg ht => congrArg Host.Outcome.next (linkLnak_replays hx hr ho hg ht)⟩⟩
    obtain ⟨h1, h2⟩ := link_ignored (f := f) h
    exact ⟨congrArg Host.Outcome.next h1, congrArg Host.Outcome.next h2⟩

end Sys2Proof.Machine
end

section
/-! PROOFS. Far flows on ports without link retry (O58). -/

namespace Sys2Proof.Machine

variable {s t : State}

/-- A port without link retry. -/
def Unretried (s : State) (sock k : Nat) : Prop := ∀ x, tfind (s.pkg sock).ports k = some x → x.lretry = false

/-- What sending leaves: its frames have left by the port, and memory and contexts are the same. -/
structure Sent (s t : State) (sock q : Nat) (fs : List Frame) : Prop where
  mem : t.mem = s.mem
  ctxs : t.ctxs = s.ctxs
  outbox : t.outbox = s.outbox ++ fs.map (fun g => .frame sock q (Frame.wire g))

theorem Sent.trans {u : State} {sock q : Nat} {fs gs : List Frame} (h : Sent s t sock q fs) (g : Sent t u sock q gs) : Sent s u sock q (fs ++ gs) :=
  ⟨g.mem.trans h.mem, g.ctxs.trans h.ctxs, by rw [g.outbox, h.outbox, List.map_append, List.append_assoc]⟩

theorem sent_modPkg (s : State) (sock q k : Nat) (f : Package → Package) : Sent s (s.modPkg k f) sock q [] := ⟨rfl, rfl, (List.append_nil _).symm⟩

section
variable {sock port q d : Nat} {f : Frame}

/-- The ports of every package and the parts of the machine are the same. -/
theorem tableBacked_modPkg {k : Nat} {g : Package → Package} (hg : (g (s.pkg k)).ports = (s.pkg k).ports) (here pa : Nat) :
    (s.modPkg k g).tableBacked here pa = s.tableBacked here pa := by
  have hp : (tget (s.modPkg k g).pkgs here Package.init).ports = (tget s.pkgs here Package.init).ports := by
    show ((s.modPkg k g).pkg here).ports = (s.pkg here).ports
    rw [pkg_modPkg]
    split
    · next h => rw [h, hg]
    · rfl
  unfold State.tableBacked State.joined
  rw [hp]
  rfl

theorem farPort_modPkg {g : Package → Package} (hg : (g (s.pkg sock)).ports = (s.pkg sock).ports) (d : Nat) :
    (s.modPkg sock g).farPort sock d = s.farPort sock d := by
  unfold State.farPort State.farPorts
  rw [pkg_modPkg_same, hg]
  rfl

theorem unretried_modPkg {g : Package → Package} (hg : (g (s.pkg sock)).ports = (s.pkg sock).ports) (h : Unretried s sock q) :
    Unretried (s.modPkg sock g) sock q := by
  unfold Unretried
  rw [pkg_modPkg_same, hg]
  exact h

/-! The link layer without retry. -/

theorem linkTake_closed (h : s.farOpen sock port = false) : s.linkTake sock port f = (s, false) := by
  unfold State.linkTake
  simp only [h, Bool.not_false, if_true]

theorem linkTake_plain (h : Unretried s sock port) (ho : s.farOpen sock port = true) : s.linkTake sock port f = (s, f.fcsGood) := by
  unfold State.linkTake
  cases hp : tfind (s.pkg sock).ports port with
  | none => simp [ho]
  | some x => simp [ho, h x hp]

theorem fcs_of_good (h : s.frameGood sock f = true) : f.fcsGood = true := by
  unfold State.frameGood at h
  simp only [Bool.and_eq_true] at h
  tauto

theorem linkTake_good (h : Unretried s sock port) (ho : s.farOpen sock port = true) (hg : s.frameGood sock f = true) :
    s.linkTake sock port f = (s, true) := by rw [linkTake_plain h ho, fcs_of_good hg]

/-- A frame that fails a check goes no further. -/
theorem bad_frames (h : Unretried s sock port) (hg : s.frameGood sock f = false) :
    ∀ j ∈ [Instr.farDataReceive sock port f, .farAckReceive sock port f, .farNakReceive sock port f, .farRefuseReceive sock port f],
      exec j s = .next s := by
  cases ho : s.farOpen sock port with
  | false => exact stopped_frames (linkTake_closed ho)
  | true =>
    have hl := linkTake_plain (f := f) h ho
    have hb : ∀ b c : Bool, (!b || !(s.frameGood sock f) || c) = true := fun b c => by rw [hg]; simp
    have h1 : s.farData sock port f = s := by unfold State.farData; rw [hl]; exact if_pos (hb _ _)
    have h2 : s.farAck sock port f = s := by unfold State.farAck; rw [hl]; exact if_pos (hb _ _)
    have h3 : s.farNak sock port f = s := by unfold State.farNak; rw [hl]; exact if_pos (hb _ _)
    have h4 : s.farRefuse sock port f = s := by unfold State.farRefuse; rw [hl]; exact if_pos (hb _ _)
    have e1 : exec (.farDataReceive sock port f) s = .next (s.farData sock port f) := rfl
    have e2 : exec (.farAckReceive sock port f) s = .next (s.farAck sock port f) := rfl
    have e3 : exec (.farNakReceive sock port f) s = .next (s.farNak sock port f) := rfl
    have e4 : exec (.farRefuseReceive sock port f) s = .next (s.farRefuse sock port f) := rfl
    simp [e1, e2, e3, e4, h1, h2, h3, h4]

theorem sendFrame_plain (h : Unretried s sock q) (g : Frame) : s.sendFrame sock q g = s.putOut sock q [{ g with lseq := 0 }] := by
  unfold State.sendFrame
  cases hp : tfind (s.pkg sock).ports q with
  | none => rfl
  | some x =>
    simp only [h x hp]
    rfl

theorem sent_sendFrame (h : Unretried s sock q) {g : Frame} (hg : g.lseq = 0) : Sent s (s.sendFrame sock q g) sock q [g] := by
  rw [sendFrame_plain h, show ({ g with lseq := 0 } : Frame) = g by rw [← hg]]
  exact ⟨rfl, rfl, rfl⟩

/-! Pieces sent. -/

/-- A piece of a flow sent. -/
def State.sendOne (s : State) (sock d port : Nat) (p : FarPiece) : State :=
  let f := tget (s.pkg sock).flowsOut d OutFlow.first
  let u := s.setFlow sock d { f with resync := false }
  u.sendFrame sock port (dataFrame (u.pkg sock).farid (BitVec.ofNat 12 d) p f.resync)

theorem sendPieces_some (h : s.farPort sock d = some q) (ps : List FarPiece) :
    s.sendPieces sock d ps = ps.foldl (fun s p => s.sendOne sock d q p) s := by
  unfold State.sendPieces
  rw [h]
  rfl

theorem sendPieces_nil (s : State) (sock d : Nat) : s.sendPieces sock d [] = s := by
  unfold State.sendPieces
  cases s.farPort sock d <;> rfl

theorem pkg_setFlow (s : State) (sock d : Nat) (o : OutFlow) :
    (s.setFlow sock d o).pkg sock = { s.pkg sock with flowsOut := tset (s.pkg sock).flowsOut d o } := pkg_modPkg_same ..

theorem sent_sendOnes (sock d q : Nat) : ∀ (ps : List FarPiece) {s : State}, Unretried s sock q →
    (tget (s.pkg sock).flowsOut d OutFlow.first).resync = false →
    Sent s (ps.foldl (fun s p => s.sendOne sock d q p) s) sock q (ps.map (fun z => dataFrame (s.pkg sock).farid (BitVec.ofNat 12 d) z false))
  | [], s, _, _ => ⟨rfl, rfl, (List.append_nil _).symm⟩
  | p :: ps, s, hu, hr => by
    let u := s.setFlow sock d { tget (s.pkg sock).flowsOut d OutFlow.first with resync := false }
    have hpkg := pkg_setFlow s sock d { tget (s.pkg sock).flowsOut d OutFlow.first with resync := false }
    have hu2 : Unretried u sock q := unretried_modPkg rfl hu
    have hone : s.sendOne sock d q p = u.putOut sock q [dataFrame (s.pkg sock).farid (BitVec.ofNat 12 d) p false] := by
      unfold State.sendOne
      dsimp only
      rw [hr, sendFrame_plain hu2, show (u.pkg sock).farid = (s.pkg sock).farid by rw [show u.pkg sock = _ from hpkg]]
      rfl
    have h1 : Sent s (s.sendOne sock d q p) sock q [dataFrame (s.pkg sock).farid (BitVec.ofNat 12 d) p false] := by
      rw [hone]
      exact ⟨rfl, rfl, rfl⟩
    have hp2 : (s.sendOne sock d q p).pkg sock = u.pkg sock := by rw [hone]; rfl
    have h2 := sent_sendOnes sock d q ps (s := s.sendOne sock d q p) (by unfold Unretried; rw [hp2]; exact hu2)
      (by rw [hp2, show u.pkg sock = _ from hpkg, tget_tset, if_pos rfl])
    rw [hp2, show (u.pkg sock).farid = (s.pkg sock).farid by rw [show u.pkg sock = _ from hpkg]] at h2
    exact h1.trans h2

theorem sent_sendPieces (hu : Unretried s sock q) (hp : s.farPort sock d = some q) (hr : (tget (s.pkg sock).flowsOut d OutFlow.first).resync = false)
    (ps : List FarPiece) : Sent s (s.sendPieces sock d ps) sock q (ps.map (fun z => dataFrame (s.pkg sock).farid (BitVec.ofNat 12 d) z false)) := by
  rw [sendPieces_some hp]
  exact sent_sendOnes sock d q ps hu hr

/-! DATA. -/

/-- The receiving side of a flow after a piece is accepted. -/
def State.nextIn (s : State) (sock : Nat) (f : Frame) : InFlow :=
  let i := tget (s.pkg sock).flowsIn f.src.toNat InFlow.first
  { expect := f.fseq + 1, nakSent := false, unacked := i.unacked + 1, since := if i.unacked = 0 then s.time else i.since }

def State.accepted (s : State) (sock : Nat) (f : Frame) : State :=
  s.modPkg sock (fun p => { p with flowsIn := tset p.flowsIn f.src.toNat (s.nextIn sock f) })

theorem pkg_accepted (s : State) (sock : Nat) (f : Frame) : (s.accepted sock f).pkg sock =
    { s.pkg sock with flowsIn := tset (s.pkg sock).flowsIn f.src.toNat (s.nextIn sock f) } := pkg_modPkg_same ..

section
variable (hl : s.linkTake sock port f = (s, true)) (hg : s.frameGood sock f = true)
include hl hg

theorem farData_accepts (ht : f.type = 1) (hs : f.resync = true ∨ f.fseq = (tget (s.pkg sock).flowsIn f.src.toNat InFlow.first).expect)
    {u : State} (hland : (s.accepted sock f).farLand sock f = (u, none)) (hn : (tget (s.pkg sock).flowsIn f.src.toNat InFlow.first).unacked < 15) :
    s.farData sock port f = u := by
  have h1 : (f.resync || f.fseq == (tget (s.pkg sock).flowsIn f.src.toNat InFlow.first).expect) = true := by
    rcases hs with hs | hs <;> simp [hs]
  unfold State.farData
  rw [hl]
  dsimp only
  rw [hg, ht, if_neg (by decide), if_pos h1]
  unfold State.accepted State.nextIn at hland
  dsimp only at hland
  rw [hland]
  exact if_neg (by omega)

theorem farData_refuses (ht : f.type = 1) (hs : f.resync = true ∨ f.fseq = (tget (s.pkg sock).flowsIn f.src.toNat InFlow.first).expect)
    {u : State} {e : BitVec 16} (hland : (s.accepted sock f).farLand sock f = (u, some e)) :
    s.farData sock port f = if 16 ≤ (tget (s.pkg sock).flowsIn f.src.toNat InFlow.first).unacked + 1 then
        (u.sendFrame sock port { Frame.bare 6 (u.pkg sock).farid f.src f.fseq with tno := e }).sendAck sock port f.src
      else u.sendFrame sock port { Frame.bare 6 (u.pkg sock).farid f.src f.fseq with tno := e } := by
  have h1 : (f.resync || f.fseq == (tget (s.pkg sock).flowsIn f.src.toNat InFlow.first).expect) = true := by
    rcases hs with hs | hs <;> simp [hs]
  unfold State.farData
  rw [hl]
  dsimp only
  rw [hg, ht, if_neg (by decide), if_pos h1]
  unfold State.accepted State.nextIn at hland
  dsimp only at hland
  rw [hland]

end
theorem farLand_unbacked (h : s.tableBacked sock f.rpa.toNat = false) : s.farLand sock f = (s, some 0) := if_pos (.inl h)

theorem unretried_accepted (h : Unretried s sock q) : Unretried (s.accepted sock f) sock q := unretried_modPkg rfl h

/-- A piece for no memory of the receiver's domain is answered with REFUSE, and with ACK where sixteen are owed. -/
theorem farData_unbacked (hu : Unretried s sock port) (ho : s.farOpen sock port = true) (hg : s.frameGood sock f = true) (ht : f.type = 1)
    (hs : f.resync = true ∨ f.fseq = (tget (s.pkg sock).flowsIn f.src.toNat InFlow.first).expect)
    (hb : s.tableBacked sock f.rpa.toNat = false) :
    let n := (tget (s.pkg sock).flowsIn f.src.toNat InFlow.first).unacked
    (n < 15 → Sent s (s.farData sock port f) sock port [Frame.bare 6 (s.pkg sock).farid f.src f.fseq]) ∧
      (n = 15 → Sent s (s.farData sock port f) sock port
        [Frame.bare 6 (s.pkg sock).farid f.src f.fseq, Frame.bare 2 (s.pkg sock).farid f.src f.fseq]) := by
  intro n
  have hu1 : Unretried (s.accepted sock f) sock port := unretried_accepted hu
  have hland := farLand_unbacked (s := s.accepted sock f) (sock := sock) (f := f) (by
    rw [State.accepted, tableBacked_modPkg rfl]
    exact hb)
  have hid : ((s.accepted sock f).pkg sock).farid = (s.pkg sock).farid := by rw [pkg_accepted]
  have he := farData_refuses (linkTake_good hu ho hg) hg ht hs hland
  rw [hid, show ({ Frame.bare 6 (s.pkg sock).farid f.src f.fseq with tno := 0 } : Frame) = Frame.bare 6 (s.pkg sock).farid f.src f.fseq from rfl] at he
  have h1 := (sent_modPkg s sock port sock _ : Sent s (s.accepted sock f) sock port []).trans
    (sent_sendFrame hu1 (g := Frame.bare 6 (s.pkg sock).farid f.src f.fseq) rfl)
  refine ⟨fun hn => ?_, fun hn => ?_⟩
  · rw [he, if_neg (by omega)]
    exact h1
  · rw [he, if_pos (by omega)]
    let v := (s.accepted sock f).sendFrame sock port (Frame.bare 6 (s.pkg sock).farid f.src f.fseq)
    have hv : v.pkg sock = (s.accepted sock f).pkg sock := by
      show ((s.accepted sock f).sendFrame sock port _).pkg sock = _
      rw [sendFrame_plain hu1]
      rfl
    have hi : tget (v.pkg sock).flowsIn f.src.toNat InFlow.first = s.nextIn sock f := by
      rw [hv, pkg_accepted, tget_tset, if_pos rfl]
    have hack : v.sendAck sock port f.src = (v.modPkg sock (fun p => { p with
        flowsIn := tset p.flowsIn f.src.toNat { s.nextIn sock f with unacked := 0, since := v.time } })).sendFrame sock port
          (Frame.bare 2 (s.pkg sock).farid f.src f.fseq) := by
      unfold State.sendAck
      dsimp only
      rw [hi, pkg_modPkg_same, hv, hid, show (s.nextIn sock f).expect - 1 = f.fseq from BitVec.add_sub_cancel _ _]
    rw [hack]
    refine h1.trans ((sent_modPkg v sock port sock _).trans (sent_sendFrame ?_ rfl))
    refine unretried_modPkg rfl ?_
    unfold Unretried
    rw [hv]
    exact hu1

/-- A piece in sequence for memory that no cluster tracks lands. -/
theorem farData_lands (hu : Unretried s sock port) (ho : s.farOpen sock port = true) (hg : s.frameGood sock f = true) (ht : f.type = 1)
    (hs : f.resync = true ∨ f.fseq = (tget (s.pkg sock).flowsIn f.src.toNat InFlow.first).expect)
    (hn : (tget (s.pkg sock).flowsIn f.src.toNat InFlow.first).unacked < 15) (hc : f.rctr = 0) (hb : s.tableBacked sock f.rpa.toNat = true)
    (hpos : 0 < f.len.toNat) (hfit : f.rpa.toNat % 64 + f.len.toNat ≤ 64) (hlen : f.data.length = f.len.toNat) (un : Untracked s f.rpa.toNat)
    (hm : Memory.wf s.mem = true) : let t := s.farData sock port f
    tget (t.pkg sock).flowsIn f.src.toNat InFlow.first = s.nextIn sock f ∧ t.outbox = s.outbox ∧ t.ctxs = s.ctxs ∧
      ∀ a, memByte t.mem a = if f.rpa.toNat ≤ a ∧ a < f.rpa.toNat + f.len.toNat then f.data.getD (a - f.rpa.toNat) 0 else memByte s.mem a := by
  have hun : Untracked (s.accepted sock f) f.rpa.toNat := ⟨un.flights, un.slices, un.entry, by
    unfold State.accepted
    rw [pkg_modPkg]
    split
    · next h =>
      rw [← h]
      exact un.frames
    · exact un.frames⟩
  have htake : f.data.take f.len.toNat = f.data := List.take_of_length_le (by omega)
  obtain ⟨v, t, h1, h2, -, h4⟩ := serve_outside_write (kind := .putLine) (bytes := f.data.take f.len.toNat) (tno := f.tno.setWidth 12) (.inr rfl) hun hm
    (by rw [htake, hlen]; exact hfit)
  have hland : (s.accepted sock f).farLand sock f = (t, none) := by
    have hb2 : (s.accepted sock f).tableBacked sock f.rpa.toNat = true := by
      rw [State.accepted, tableBacked_modPkg rfl]
      exact hb
    unfold State.farLand
    rw [if_neg (by rw [hb2]; simp; omega), h1]
    show (t.farCount sock f.rctr.toNat f.len.toNat (f.tno.setWidth 12), none) = _
    rw [hc]
    rfl
  rw [farData_accepts (linkTake_good hu ho hg) hg ht hs hland hn]
  rw [htake, hlen] at h4
  refine ⟨?_, h2.outbox, h2.ctxs, h4⟩
  rw [h2.pkg, pkg_accepted, tget_tset, if_pos rfl]

/-- A piece out of sequence is answered with one NAK. -/
theorem farData_later (hu : Unretried s sock port) (ho : s.farOpen sock port = true) (hg : s.frameGood sock f = true) (ht : f.type = 1)
    (hr : f.resync = false) (hs : f.fseq ≠ (tget (s.pkg sock).flowsIn f.src.toNat InFlow.first).expect) :
    ((tget (s.pkg sock).flowsIn f.src.toNat InFlow.first).nakSent = true → s.farData sock port f = s) ∧
    ((tget (s.pkg sock).flowsIn f.src.toNat InFlow.first).nakSent = false → Sent s (s.farData sock port f) sock port
      [Frame.bare 3 (s.pkg sock).farid f.src (tget (s.pkg sock).flowsIn f.src.toNat InFlow.first).expect]) := by
  have h1 : (f.resync || f.fseq == (tget (s.pkg sock).flowsIn f.src.toNat InFlow.first).expect) = false := by simp [hr, hs]
  unfold State.farData
  rw [linkTake_good hu ho hg]
  dsimp only
  rw [hg, ht, if_neg (by decide), h1, if_neg (by decide)]
  refine ⟨fun hn => if_pos hn, fun hn => ?_⟩
  rw [hn, if_neg (by decide)]
  exact (sent_modPkg s sock port sock _).trans (sent_sendFrame (unretried_modPkg rfl hu) rfl)

/-! ACK, NAK, REFUSE. -/

theorem farAcked_none {x : BitVec 32} (h : ∀ z ∈ (tget (s.pkg sock).flowsOut d OutFlow.first).kept, seqLe z.seq x = false) : s.farAcked sock d x = s := by
  have hf : (tget (s.pkg sock).flowsOut d OutFlow.first).kept.filter (fun p => !seqLe p.seq x) = (tget (s.pkg sock).flowsOut d OutFlow.first).kept :=
    List.filter_eq_self.2 fun z hz => by rw [h z hz]; rfl
  unfold State.farAcked
  dsimp only
  rw [hf]
  exact if_pos (Nat.sub_self _)

theorem farAcked_some {x : BitVec 32} (hl : (tget (s.pkg sock).flowsOut d OutFlow.first).kept.length ≤ 4096)
    (h : ∃ z ∈ (tget (s.pkg sock).flowsOut d OutFlow.first).kept, seqLe z.seq x = true) : s.farAcked sock d x =
    s.setFlow sock d { tget (s.pkg sock).flowsOut d OutFlow.first with
      kept := (tget (s.pkg sock).flowsOut d OutFlow.first).kept.filter (fun p => !seqLe p.seq x), timeouts := 0, since := s.time } := by
  have hf : ((tget (s.pkg sock).flowsOut d OutFlow.first).kept.filter (fun p => !seqLe p.seq x)).length <
      (tget (s.pkg sock).flowsOut d OutFlow.first).kept.length := by
    obtain ⟨z, hz, hx⟩ := h
    exact List.length_filter_lt_length_iff_exists.2 ⟨z, hz, by rw [hx]; decide⟩
  unfold State.farAcked
  dsimp only
  rw [if_neg (by omega), List.drop_of_length_le hl, List.take_nil, sendPieces_nil]

section
variable (hu : Unretried s sock port) (ho : s.farOpen sock port = true) (hg : s.frameGood sock f = true)
include hu ho hg

theorem farAck_eq (ht : f.type = 2) : s.farAck sock port f = s.farAcked sock f.src.toNat f.fseq := by
  unfold State.farAck
  rw [linkTake_good hu ho hg]
  dsimp only
  rw [hg, ht]
  exact if_neg (by decide)

theorem farNak_eq (ht : f.type = 3) (h : ∀ z ∈ (tget (s.pkg sock).flowsOut f.src.toNat OutFlow.first).kept,
      seqLe z.seq (f.fseq - 1) = false ∧ seqLe f.fseq z.seq = true) (hl : (tget (s.pkg sock).flowsOut f.src.toNat OutFlow.first).kept.length ≤ 4096) :
    s.farNak sock port f = s.sendPieces sock f.src.toNat (tget (s.pkg sock).flowsOut f.src.toNat OutFlow.first).kept := by
  unfold State.farNak
  rw [linkTake_good hu ho hg]
  dsimp only
  rw [hg, ht, if_neg (by decide), farAcked_none fun z hz => (h z hz).1, List.take_of_length_le hl, List.filter_eq_self.2 fun z hz => (h z hz).2]

theorem farRefuse_some (ht : f.type = 6) {z : FarPiece} {zs : List FarPiece} (hk : (tget (s.pkg sock).flowsOut f.src.toNat OutFlow.first).kept = z :: zs)
    (hz : z.seq = f.fseq) (hzs : ∀ y ∈ zs, y.seq ≠ f.fseq) (hl : (tget (s.pkg sock).flowsOut f.src.toNat OutFlow.first).kept.length ≤ 4096) :
    s.farRefuse sock port f = (s.setFlow sock f.src.toNat { tget (s.pkg sock).flowsOut f.src.toNat OutFlow.first with
      kept := zs, timeouts := 0, since := s.time }).deadLetter sock (z.letter f.tno) := by
  have h1 : (z :: zs).filter (fun q => q.seq != f.fseq) = zs := by
    rw [List.filter_cons_of_neg (by simp [hz]), List.filter_eq_self.2 fun y hy => by simpa using hzs y hy]
  have h2 : (z :: zs).find? (fun p => p.seq == f.fseq) = some z := List.find?_cons_of_pos (by simp [hz])
  unfold State.farRefuse
  rw [linkTake_good hu ho hg]
  dsimp only
  rw [hg, ht, if_neg (by decide), List.drop_of_length_le hl, List.take_nil, hk, h1, h2]
  dsimp only
  rw [sendPieces_nil]

end

theorem farRefuse_none (hu : Unretried s sock port) (h : ∀ z ∈ (tget (s.pkg sock).flowsOut f.src.toNat OutFlow.first).kept, z.seq ≠ f.fseq) :
    s.farRefuse sock port f = s := by
  have h2 : (tget (s.pkg sock).flowsOut f.src.toNat OutFlow.first).kept.find? (fun p => p.seq == f.fseq) = none :=
    List.find?_eq_none.2 fun z hz => by simpa using h z hz
  have hl : (s.linkTake sock port f).1 = s := by
    cases ho : s.farOpen sock port with
    | false => rw [linkTake_closed ho]
    | true => rw [linkTake_plain hu ho]
  unfold State.farRefuse
  cases hk : s.linkTake sock port f with
  | mk u b =>
    rw [hk] at hl
    subst hl
    dsimp only
    rw [h2, ite_self]

/-- The refused piece leaves its flow, and is counted as a dead letter. -/
theorem deadLetter_flow (s : State) (o : OutFlow) (d : Nat) (z : FarPiece) (e : BitVec 16) : let t := (s.setFlow sock d o).deadLetter sock (z.letter e)
    tget (t.pkg sock).flowsOut d OutFlow.first = o ∧ t.ctr sock 5 z.tno.toNat 0 = s.ctr sock 5 z.tno.toNat 0 + 1 := by
  obtain ⟨h1, -, h2⟩ := deadLetter_counts (s.setFlow sock d o) sock (z.letter e)
  have h3 : ((s.setFlow sock d o).deadLetter sock (z.letter e)).pkg sock = (s.setFlow sock d o).pkg sock := by rw [State.pkg, h1, ← State.pkg]
  exact ⟨by rw [h3, pkg_setFlow, tget_tset, if_pos rfl], h2⟩

/-! Timers. -/

theorem farLate_iff (s : State) (sock d : Nat) : s.farLate sock d = true ↔ (tget (s.pkg sock).flowsOut d OutFlow.first).kept ≠ [] ∧
    (tget (s.pkg sock).flowsOut d OutFlow.first).since + (if (s.pkg sock).fartmo = 0 then 100 else (s.pkg sock).fartmo.toNat) * 1000 ≤ s.clock * 5 / 16 := by
  unfold State.farLate tget
  cases hf : tfind (s.pkg sock).flowsOut d with
  | none => simp [OutFlow.first]
  | some o =>
    rw [Option.getD_some]
    simp [Package.farTimeout, State.time]

theorem farExpire_again (h : s.farLate sock d = true) (hn : (tget (s.pkg sock).flowsOut d OutFlow.first).timeouts < 7)
    (hl : (tget (s.pkg sock).flowsOut d OutFlow.first).kept.length ≤ 4096) : s.farExpire sock d =
    (s.setFlow sock d { tget (s.pkg sock).flowsOut d OutFlow.first with
      timeouts := (tget (s.pkg sock).flowsOut d OutFlow.first).timeouts + 1, since := s.time }).sendPieces sock d
        (tget (s.pkg sock).flowsOut d OutFlow.first).kept := by
  unfold State.farExpire
  rw [h, if_neg (by decide), if_neg (by omega), List.take_of_length_le hl]

theorem farExpire_lost (h : s.farLate sock d = true) (hn : 7 ≤ (tget (s.pkg sock).flowsOut d OutFlow.first).timeouts) :
    s.farExpire sock d = s.loseFlow sock d := by
  unfold State.farExpire
  rw [h, if_neg (by decide), if_pos (by omega)]

theorem ackTimer_none (h : ∀ z ∈ (s.pkg sock).flowsIn, z.2.unacked = 0) : s.ackTimer sock = s := by
  unfold State.ackTimer
  rw [List.filter_eq_nil_iff.2 fun z hz => by simp [h z hz]]
  rfl

theorem ackTimer_one {i : InFlow} {src : BitVec 12} (hf : (s.pkg sock).flowsIn = [(src.toNat, i)]) (hi : 0 < i.unacked)
    (hp : s.farPort sock src.toNat = some q) (hu : Unretried s sock q) :
    Sent s (s.ackTimer sock) sock q [Frame.bare 2 (s.pkg sock).farid src (i.expect - 1)] := by
  have h1 : s.ackTimer sock = s.sendAck sock q src := by
    unfold State.ackTimer
    rw [hf, List.filter_cons_of_pos (by simpa using hi), List.filter_nil, List.foldl_cons, List.foldl_nil, hp]
    dsimp only
    rw [BitVec.ofNat_toNat, BitVec.setWidth_eq]
  have hg : tget (s.pkg sock).flowsIn src.toNat InFlow.first = i := by
    rw [hf]
    simp [tget, tfind]
  rw [h1]
  unfold State.sendAck
  dsimp only
  rw [hg, pkg_modPkg_same]
  exact (sent_modPkg s sock q sock _).trans (sent_sendFrame (unretried_modPkg rfl hu) rfl)

end

/-- Settles O58: what each frame and timer of a far flow changes, and what it sends. -/
theorem farFlows : Obligations.FarFlows := by
  unfold Obligations.FarFlows
  intro s sock port q f p d i o plain sends data hu hq
  have hofSrc : BitVec.ofNat 12 d = f.src := by
    show BitVec.ofNat 12 f.src.toNat = f.src
    rw [BitVec.ofNat_toNat, BitVec.setWidth_eq]
  have hsends : ∀ (j : Instr) (t : State) (fs : List Frame), exec j s = .next t → Sent s t sock q fs → sends j fs :=
    fun j t fs he h => ⟨t, he, h.mem, h.ctxs, h.outbox⟩
  have hdata : ∀ u : State, u.mem = s.mem → u.ctxs = s.ctxs → u.outbox = s.outbox → Unretried u sock q → u.farPort sock d = some q →
      (u.pkg sock).farid = p.farid → (tget (u.pkg sock).flowsOut d OutFlow.first).resync = false → Sent s (u.sendPieces sock d o.kept) sock q data := by
    intro u h1 h2 h3 h4 h5 h6 h7
    have h := sent_sendPieces h4 h5 h7 o.kept
    rw [h6, hofSrc] at h
    exact ⟨h.mem.trans h1, h.ctxs.trans h2, by rw [h.outbox, h3]⟩
  refine ⟨fun h => stopped_frames (linkTake_closed h), fun h => bad_frames hu h, fun ho hg ht hs => ?_, fun ho hg ht hr hs => ?_, fun ho hg ht => ?_,
    fun ho hg ht hp hr hl hk => ?_, fun _ _ h => congrArg Host.Outcome.next (farRefuse_none hu h), fun ho hg ht z zs hk hz hzs hl => ?_, ?_,
    fun h => congrArg Host.Outcome.next (ackTimer_none h), fun hf hi hp => hsends _ _ _ rfl (ackTimer_one hf hi hp hq)⟩
  · obtain ⟨h1, h2⟩ : (s.tableBacked sock f.rpa.toNat = false → i.unacked < 15 → _) ∧ (s.tableBacked sock f.rpa.toNat = false → i.unacked = 15 → _) :=
      ⟨fun hb => (farData_unbacked hu ho hg ht hs hb).1, fun hb => (farData_unbacked hu ho hg ht hs hb).2⟩
    refine ⟨fun hn hc hb hpos hfit hlen he hfl hsl hfr hm => ⟨_, rfl, farData_lands hu ho hg ht hs hn hc hb hpos hfit hlen ⟨hfl, hsl, he, hfr⟩ hm⟩,
      fun hn hb hqp => ?_, fun hn hb hqp => ?_⟩
    · subst hqp
      exact hsends _ _ _ rfl (h1 hb hn)
    · subst hqp
      exact hsends _ _ _ rfl (h2 hb hn)
  · obtain ⟨h1, h2⟩ := farData_later hu ho hg ht hr hs
    refine ⟨fun hn => congrArg Host.Outcome.next (h1 hn), fun hn hqp => ?_⟩
    subst hqp
    exact hsends _ _ _ rfl (h2 hn)
  · have he : exec (.farAckReceive sock port f) s = .next (s.farAck sock port f) := rfl
    rw [farAck_eq hu ho hg ht] at he
    refine ⟨fun h => ?_, fun hl h => ?_⟩
    · rw [he, farAcked_none h]
    · rw [farAcked_some hl h] at he
      refine ⟨_, he, rfl, rfl, ?_⟩
      rw [pkg_setFlow, tget_tset, if_pos rfl]
      rfl
  · refine hsends _ _ _ rfl ?_
    rw [farNak_eq hu ho hg ht hk hl]
    exact hdata s rfl rfl rfl hq hp rfl hr
  · have he : exec (.farRefuseReceive sock port f) s = .next (s.farRefuse sock port f) := rfl
    rw [farRefuse_some hu ho hg ht hk hz hzs hl] at he
    obtain ⟨h1, h2⟩ := deadLetter_flow (sock := sock) s { tget (s.pkg sock).flowsOut f.src.toNat OutFlow.first with
      kept := zs, timeouts := 0, since := s.time } f.src.toNat z f.tno
    exact ⟨_, he, by rw [h1], h2⟩
  · intro late
    have he : exec (.farTimeout sock d) s = .next (s.farExpire sock d) := rfl
    refine ⟨fun h => ?_, fun h hn hp hr hl => hsends _ _ _ rfl ?_, fun h hn => ?_⟩
    · exact congrArg Host.Outcome.next (if_pos (by rw [Bool.not_eq_true', ← Bool.not_eq_true, farLate_iff]; exact h))
    · rw [farExpire_again ((farLate_iff s sock d).2 h) hn hl]
      refine hdata _ rfl rfl rfl (unretried_modPkg rfl hq) ((farPort_modPkg rfl d).trans hp) (by rw [pkg_setFlow]) ?_
      rw [pkg_setFlow, tget_tset, if_pos rfl]
      exact hr
    · rw [farExpire_lost ((farLate_iff s sock d).2 h) hn] at he
      exact ⟨_, he, by rw [flow_loseFlow, if_pos rfl]⟩

end Sys2Proof.Machine
end

section
/-! PROOFS. Records that a filter takes, its allowances, FOTSYNC and TENTSYNC (O56). -/

namespace Sys2Proof.Machine

variable {s t : State}

/-! Allowances. -/

/-- A microsecond's refill of one allowance. -/
def State.refilled (s : State) (sock tno : Nat) (b : Int) : Int :=
  let n : Int := (tget (s.pkg sock).tenants tno Tenant.zero).ebudget
  if n = 0 then b else min n (b + n)

/-- The allowances of an EFC refilled. -/
def State.refillEfc (s : State) (sock e : Nat) : State := s.modEfc e (fun x => { x with allow := tmap (s.refilled sock) x.allow })

theorem efcRefill_eq (s : State) (sock : Nat) :
    s.efcRefill sock = (s.efcs.filter (fun e => e.1 / 68 == sock)).foldl (fun s e => s.refillEfc sock e.1) s := rfl

/-- The EFCs of a list refilled, each once. -/
theorem refillEfcs (sock : Nat) : ∀ (l : List (Nat × Efc)) (s : State), (l.map (·.1)).Nodup →
    let t := l.foldl (fun s e => s.refillEfc sock e.1) s
    t = { s with efcs := t.efcs } ∧ ∀ k, t.efc k = if k ∈ l.map (·.1) then { s.efc k with allow := tmap (s.refilled sock) (s.efc k).allow } else s.efc k
  | [], s, _ => ⟨rfl, fun _ => rfl⟩
  | e :: l, s, h => by
    rw [List.map_cons, List.nodup_cons] at h
    obtain ⟨h1, h2⟩ := refillEfcs sock l (s.refillEfc sock e.1) h.2
    have hr : (s.refillEfc sock e.1).refilled sock = s.refilled sock := rfl
    refine ⟨h1, fun k => ?_⟩
    rw [List.foldl_cons, h2, hr, List.map_cons]
    have hk : (s.refillEfc sock e.1).efc k = if k = e.1 then { s.efc e.1 with allow := tmap (s.refilled sock) (s.efc e.1).allow } else s.efc k :=
      efc_modEfc ..
    by_cases hke : k = e.1
    · subst hke
      rw [if_neg h.1, hk, if_pos rfl, if_pos List.mem_cons_self]
    · rw [hk, if_neg hke]
      have : (k ∈ e.1 :: l.map (·.1)) ↔ k ∈ l.map (·.1) := by simp [hke]
      simp only [this]

/-- An EFC that has never been touched has charged no one. -/
theorem allow_unlisted {k : Nat} (h : k ∉ s.efcs.map (·.1)) : s.efc k = Efc.init := by
  have hf : tfind s.efcs k = none := by
    cases hf : tfind s.efcs k with
    | none => rfl
    | some x => exact absurd (List.mem_map.2 ⟨_, mem_of_tfind hf, rfl⟩) h
  rw [State.efc, tget, hf]
  rfl

theorem efcRefill_ok (s : State) (sock : Nat) (h : (s.efcs.map (·.1)).Nodup) : (s.efcRefill sock) = { s with efcs := (s.efcRefill sock).efcs } ∧
    ∀ k, (s.efcRefill sock).efc k = if k / 68 = sock then { s.efc k with allow := tmap (s.refilled sock) (s.efc k).allow } else s.efc k := by
  have hsub : ((s.efcs.filter (fun e => e.1 / 68 == sock)).map (·.1)).Nodup := h.sublist (List.filter_sublist.map _)
  obtain ⟨h1, h2⟩ := refillEfcs sock _ s hsub
  rw [efcRefill_eq]
  refine ⟨h1, fun k => ?_⟩
  rw [h2]
  by_cases hk : k / 68 = sock
  · rw [if_pos hk]
    split
    · rfl
    · next hn =>
      have hu : k ∉ s.efcs.map (·.1) := fun hm => hn (by
        obtain ⟨e, he, rfl⟩ := List.mem_map.1 hm
        exact List.mem_map.2 ⟨e, List.mem_filter.2 ⟨he, by simpa using hk⟩, rfl⟩)
      rw [allow_unlisted hu]
      rfl
  · rw [if_neg hk, if_neg]
    intro hm
    obtain ⟨e, he, rfl⟩ := List.mem_map.1 hm
    exact hk (by simpa using (List.mem_filter.1 he).2)

theorem allowance_refilled {k sock : Nat} {tno : BitVec 12} (ht : ∀ j x, t.tenant j x = s.tenant j x)
    (he : t.efc k = if k / 68 = sock then { s.efc k with allow := tmap (s.refilled sock) (s.efc k).allow } else s.efc k) :
    t.allowance k tno = (s.allowance k tno).map (fun b =>
      if k / 68 = sock ∧ (tfind (s.efc k).allow tno.toNat).isSome then min (((s.tenant sock tno).ebudget : Int)) (b + (s.tenant sock tno).ebudget) else b) := by
  unfold State.allowance
  rw [ht]
  dsimp only
  by_cases hb : (s.tenant (k / 68) tno).ebudget = 0
  · rw [if_pos hb, if_pos hb]
    rfl
  · rw [if_neg hb, if_neg hb, Option.map_some, he]
    by_cases hk : k / 68 = sock
    · have hn : ((tget (s.pkg sock).tenants tno.toNat Tenant.zero).ebudget : Int) ≠ 0 := by
        rw [hk] at hb
        exact_mod_cast hb
      rw [if_pos hk]
      dsimp only
      unfold tget
      rw [tfind_tmap]
      cases hf : tfind (s.efc k).allow tno.toNat with
      | none => simp
      | some b =>
        simp only [Option.map_some, Option.getD_some, Option.isSome_some, and_true, if_pos hk]
        rw [State.refilled, if_neg hn]
        rfl
    · rw [if_neg hk, if_neg (fun h => hk h.1)]

/-! Records taken. -/

section
variable {e : Nat}

theorem efcTake_idle (h : (s.efc e).run.isSome = true ∨ ∀ k < 16, tget (s.efc e).fifos k [] = []) : s.efcTake e = s := by
  unfold State.efcTake
  dsimp only
  by_cases hr : (s.efc e).run.isSome = true
  · rw [if_pos hr]
  · have hn : (s.efc e).nextFifo = none := by
      unfold Efc.nextFifo
      rw [List.find?_eq_none]
      intro i hi
      obtain ⟨k, hk, rfl⟩ := List.mem_map.1 hi
      rw [(h.resolve_left hr) _ (Nat.mod_lt _ (by omega))]
      simp
    rw [if_neg hr, hn]

/-- The next record out of its FIFO. -/
def State.efcPop (s : State) (e : Nat) (rest : List Quad) : State :=
  s.modEfc e (fun x => { x with
    fifos := if rest.isEmpty then tdel x.fifos ((s.efc e).turn % 16) else tset x.fifos ((s.efc e).turn % 16) rest
    turn := ((s.efc e).turn % 16 + 1) % 16 })

theorem efcTake_record {r : Quad} {rest : List Quad} (hr : (s.efc e).run = none) (hq : tget (s.efc e).fifos ((s.efc e).turn % 16) [] = r :: rest) :
    let u := s.efcPop e rest
    let slots := (s.efc e).matching (decide (64 ≤ e % 68)) r
    s.efcTake e = if !(s.efc e).en || slots.isEmpty then u
      else match (u.countEfc e 0).allowance e (recordTno r) with
        | some b => if b ≤ 0 then ((u.countEfc e 0).countEfc e 2).countTenant (e / 68) (recordTno r) 2
          else (u.countEfc e 0).startRun e ((s.efc e).runOf r) slots
        | none => (u.countEfc e 0).startRun e ((s.efc e).runOf r) slots := by
  have hn : (s.efc e).nextFifo = some ((s.efc e).turn % 16) := by
    unfold Efc.nextFifo
    have hl : (List.range 16).map (fun k => ((s.efc e).turn + k) % 16) = ((s.efc e).turn % 16) :: (List.range' 1 15).map (fun k => ((s.efc e).turn + k) % 16) := rfl
    rw [hl, List.find?_cons_of_pos]
    rw [hq]
    rfl
  unfold State.efcTake
  dsimp only
  rw [hr, if_neg (by decide), hn]
  dsimp only
  rw [hq]
  rfl

/-- What a record taken leaves of its EFC. -/
structure Took (s t : State) (e : Nat) (rest : List Quad) (run : Option EfcRun) : Prop where
  fifo : tget (t.efc e).fifos ((s.efc e).turn % 16) [] = rest
  turn : (t.efc e).turn = ((s.efc e).turn % 16 + 1) % 16
  run : (t.efc e).run = run
  data : (t.efc e).data = (s.efc e).data
  mem : t.mem = s.mem
  ctxs : t.ctxs = s.ctxs

theorem efc_efcPop (s : State) (e : Nat) (rest : List Quad) : (s.efcPop e rest).efc e = { s.efc e with
    fifos := if rest.isEmpty then tdel (s.efc e).fifos ((s.efc e).turn % 16) else tset (s.efc e).fifos ((s.efc e).turn % 16) rest
    turn := ((s.efc e).turn % 16 + 1) % 16 } := (efc_modEfc ..).trans (if_pos rfl)

theorem took_pop (s : State) (e : Nat) (rest : List Quad) : Took s (s.efcPop e rest) e rest (s.efc e).run := by
  refine ⟨?_, ?_, ?_, ?_, rfl, rfl⟩ <;> rw [efc_efcPop]
  cases rest with
  | nil =>
    show tget (tdel (s.efc e).fifos ((s.efc e).turn % 16)) ((s.efc e).turn % 16) [] = []
    rw [tget, tfind_tdel, if_pos rfl]
    rfl
  | cons a l =>
    show tget (tset (s.efc e).fifos ((s.efc e).turn % 16) (a :: l)) ((s.efc e).turn % 16) [] = a :: l
    rw [tget_tset, if_pos rfl]

/-- Counted, an EFC is what it was. -/
theorem Took.addCtr {rest : List Quad} {run : Option EfcRun} (h : Took s t e rest run) (k g u i n : Nat) : Took s (t.addCtr k g u i n) e rest run :=
  ⟨h.fifo, h.turn, h.run, h.data, h.mem, h.ctxs⟩

theorem Took.modRun {rest : List Quad} {run run' : Option EfcRun} (h : Took s t e rest run) {f : Efc → Efc}
    (hf : f (t.efc e) = { t.efc e with run := run' }) : Took s (t.modEfc e f) e rest run' := by
  have he : (t.modEfc e f).efc e = { t.efc e with run := run' } := (efc_modEfc ..).trans ((if_pos rfl).trans hf)
  exact ⟨by rw [he]; exact h.fifo, by rw [he]; exact h.turn, by rw [he], by rw [he]; exact h.data, h.mem, h.ctxs⟩

/-- The first run of a record, as the EFC stands when it takes it. -/
def firstRun (x : Efc) (r : Quad) (ks : List Nat) : EfcRun :=
  { record := r, slots := ks, index := 0, regs := [(0, r.w0), (1, r.w1), (2, r.w2), (3, r.w3)], lens := x.slotlen, prog := x.prog,
    began := x.prog }

theorem Took.startRun {rest : List Quad} {run : Option EfcRun} (h : Took s t e rest run) (x : Efc) (hp : (t.efc e).prog = x.prog) (r : Quad) (slots : List Nat) :
    let ks := slots.filter (fun k => tget x.slotlen k 0 != 0)
    Took s (t.startRun e (x.runOf r) slots) e rest
      (if ks = [] then none else some (firstRun x r ks)) := by
  intro ks
  unfold State.startRun
  have hf : slots.filter (fun k => (x.runOf r).len k != 0) = ks := rfl
  rw [hf]
  cases hk : ks with
  | nil => exact h.modRun rfl
  | cons a l =>
    rw [if_neg (by simp)]
    have hfirst : firstRun x r (a :: l) = { x.runOf r with
        slots := a :: l, index := 0, regs := startRegs (x.runOf r).record, began := (t.efc e).prog } := by
      rw [hp]
      rfl
    rw [hfirst]
    exact Took.addCtr (h.modRun rfl) _ _ _ _ _

theorem recordTno_extract (r : Quad) : recordTno r = r.w0.extractLsb' 13 12 := by
  apply BitVec.eq_of_getLsbD_eq
  intro i hi
  simp [recordTno, hi]

/-- The slots that a record runs are those that its matching entries name. -/
theorem matching_entry {x : Efc} {r : Quad} {k : Nat} (h : k ∈ x.matching (decide (64 ≤ e % 68)) r) :
    ∃ a : Nat × Word, a ∈ x.attach ∧ a.1 < 64 ∧ a.2.getLsbD 0 = true ∧ a.2.toNat < 2 ^ 41 ∧ (64 ≤ e % 68 → a.2.extractLsb' 17 8 = 0) ∧
      a.2.extractLsb' 1 8 = r.w0.extractLsb' 0 8 ∧ a.2.getLsbD (9 + (r.w0.extractLsb' 8 5).toNat) = true ∧
      (a.2.getLsbD 37 = true ∨ a.2.extractLsb' 25 12 = r.w0.extractLsb' 13 12) ∧ k = (a.2.extractLsb' 38 3).toNat := by
  obtain ⟨a, ha, rfl⟩ := List.mem_map.1 h
  obtain ⟨ha1, ha2⟩ := List.mem_filter.1 ha
  simp only [attachNames, attachLive, Bool.and_eq_true, Bool.or_eq_true, Bool.not_eq_true', beq_iff_eq, decide_eq_true_eq, decide_eq_false_iff_not] at ha2
  obtain ⟨⟨h1, ⟨⟨⟨h2, h3⟩, h4⟩, h5⟩, h6⟩, h7⟩ := ha2
  have hx : ∀ (y : Word) (a b : Nat), (y.extractLsb' a b).toNat = y.toNat / 2 ^ a % 2 ^ b := fun y a b => by
    rw [BitVec.extractLsb'_toNat, Nat.shiftRight_eq_div_pow]
  refine ⟨a, ha1, h1, h2, by omega, fun h => ?_, ?_, ?_, ?_, ?_⟩
  · apply BitVec.eq_of_toNat_eq
    rw [hx]
    rcases h4 with h4 | h4
    · exact absurd h h4
    · exact h4
  · apply BitVec.eq_of_toNat_eq
    rw [hx, hx]
    simpa using h5
  · rw [hx]
    exact h6
  · rcases h7 with h7 | h7
    · exact .inl h7
    · exact .inr (by rw [h7, recordTno_extract])
  · exact (hx a.2 38 3).symm

section
variable {r : Quad} {rest : List Quad} (hr : (s.efc e).run = none) (hq : tget (s.efc e).fifos ((s.efc e).turn % 16) [] = r :: rest)
include hr hq

theorem take_unnamed (h : (s.efc e).en = false ∨ (s.efc e).matching (decide (64 ≤ e % 68)) r = []) : Took s (s.efcTake e) e rest none := by
  rw [efcTake_record hr hq, if_pos (by rcases h with h | h <;> simp [h]), ← hr]
  exact took_pop s e rest

theorem take_named (he : (s.efc e).en = true) (hn : (s.efc e).matching (decide (64 ≤ e % 68)) r ≠ []) :
    ((∀ b, s.allowance e (r.w0.extractLsb' 13 12) = some b → 0 < b) →
      Took s (s.efcTake e) e rest (if ((s.efc e).matching (decide (64 ≤ e % 68)) r).filter (fun k => tget (s.efc e).slotlen k 0 != 0) = [] then none
        else some (firstRun (s.efc e) r (((s.efc e).matching (decide (64 ≤ e % 68)) r).filter (fun k => tget (s.efc e).slotlen k 0 != 0))))) ∧
    ((∃ b, s.allowance e (r.w0.extractLsb' 13 12) = some b ∧ b ≤ 0) → Took s (s.efcTake e) e rest none ∧
      (s.efcTake e).ctr (e / 68) 5 (r.w0.extractLsb' 13 12).toNat 2 = s.ctr (e / 68) 5 (r.w0.extractLsb' 13 12).toNat 2 + 1) := by
  have ht := efcTake_record hr hq
  have hall : ((s.efcPop e rest).countEfc e 0).allowance e (recordTno r) = s.allowance e (r.w0.extractLsb' 13 12) := by
    rw [← recordTno_extract]
    have h1 : (((s.efcPop e rest).countEfc e 0).efc e).allow = (s.efc e).allow := by
      show ((s.efcPop e rest).efc e).allow = _
      rw [efc_efcPop]
    unfold State.allowance
    dsimp only
    rw [h1]
    rfl
  have hpop := took_pop s e rest
  have hprog : (((s.efcPop e rest).countEfc e 0).efc e).prog = (s.efc e).prog := by
    show ((s.efcPop e rest).efc e).prog = _
    rw [efc_efcPop]
  dsimp only at ht
  rw [if_neg (by simp [he, hn]), hall] at ht
  have hstart := (hpop.addCtr (e / 68) 7 (e % 68) 0 1).startRun (s.efc e) hprog r ((s.efc e).matching (decide (64 ≤ e % 68)) r)
  have hlt : (recordTno r).toNat < 4096 := (recordTno r).isLt
  refine ⟨fun hb => ?_, fun ⟨b, hb, hle⟩ => ?_⟩
  · cases hx : s.allowance e (r.w0.extractLsb' 13 12) with
    | none =>
      rw [hx] at ht
      rw [ht]
      exact hstart
    | some b =>
      rw [hx] at ht
      dsimp only at ht
      rw [if_neg (by have := hb b hx; omega)] at ht
      rw [ht]
      exact hstart
  · rw [hb] at ht
    dsimp only at ht
    rw [if_pos hle] at ht
    rw [ht, ← hr]
    refine ⟨((hpop.addCtr _ _ _ _ _).addCtr _ _ _ _ _).addCtr _ _ _ _ _, ?_⟩
    have h1 : SameTenants s (((s.efcPop e rest).countEfc e 0).countEfc e 2) :=
      SameTenants.trans (t := s.efcPop e rest) (fun _ _ _ _ _ => rfl)
        ((sameTenants_addCtr _ _ 1 (by omega) (by omega) (by omega) (by omega)).trans
          (sameTenants_addCtr _ _ 1 (by omega) (by omega) (by omega) (by omega)))
    rw [← recordTno_extract, ← h1 (e / 68) _ 2 (by omega) (by omega)]
    exact (ctr_addCtr ..).trans (if_pos rfl)

end
end

end Sys2Proof.Machine
end

section
/-! PROOFS. A line locked: its owned words are recalled, its tracked sharers invalidated (R314). -/

namespace Sys2Proof.Machine

variable {s t : State}

/-! Owners and sharers that a directory and its proxies name. -/

/-- No owner is named that was not named before. -/
structure FewerOwners (s t : State) : Prop where
  dir : ∀ l k, tfind (t.dirOf l).owners k = tfind (s.dirOf l).owners k ∨ tfind (t.dirOf l).owners k = none
  proxy : ∀ j l k, tfind (t.proxyOf j l).owners k = tfind (s.proxyOf j l).owners k ∨ tfind (t.proxyOf j l).owners k = none

theorem FewerOwners.of_same (h : SameOwners s t) : FewerOwners s t := ⟨fun l k => .inl (by rw [h.dir]), fun j l k => .inl (by rw [h.proxy])⟩

theorem FewerOwners.trans {u : State} (h : FewerOwners s t) (g : FewerOwners t u) : FewerOwners s u :=
  ⟨fun l k => (g.dir l k).elim (fun e => (h.dir l k).imp e.trans e.trans) .inr,
    fun j l k => (g.proxy j l k).elim (fun e => (h.proxy j l k).imp e.trans e.trans) .inr⟩

theorem FewerOwners.ownerOf (h : FewerOwners s t) (pa : Nat) : t.ownerOf pa = s.ownerOf pa ∨ t.ownerOf pa = none := by
  unfold State.ownerOf
  rcases h.dir (lineOf pa) (wordIx pa) with h1 | h1
  · rw [h1]
    cases hs : tfind (s.dirOf (lineOf pa)).owners (wordIx pa) with
    | none => exact .inl rfl
    | some p =>
      dsimp only
      split
      · exact .inl rfl
      · rcases h.proxy (p - 64) (lineOf pa) (wordIx pa) with h2 | h2
        · exact .inl (by rw [h2])
        · exact .inr (by rw [h2]; rfl)
  · rw [h1]
    exact .inr rfl

theorem tfind_tdel_or (l : Tbl Nat) (q k : Nat) : tfind (tdel l q) k = tfind l k ∨ tfind (tdel l q) k = none := by
  rw [tfind_tdel]
  split
  · exact .inr rfl
  · exact .inl rfl

theorem fewerOwners_modDir (s : State) (l w : Nat) : FewerOwners s (s.modDir l (fun e => { e with owners := tdel e.owners w })) where
  dir := fun j k => by
    have := owners_modEntry s.dir l j (fun e => { e with owners := tdel e.owners w })
    rw [show ((s.modDir l (fun e => { e with owners := tdel e.owners w })).dirOf j).owners = _ from this]
    split
    · next h =>
      subst h
      exact tfind_tdel_or _ _ _
    · exact .inl rfl
  proxy := fun _ _ _ => .inl rfl

theorem fewerOwners_modProxy (s : State) (i l w : Nat) : FewerOwners s (s.modProxy i l (fun e => { e with owners := tdel e.owners w })) where
  dir := fun _ _ => .inl rfl
  proxy := fun j q k => by
    have := owners_modEntry s.proxies (proxyKey i l) (proxyKey j q) (fun e => { e with owners := tdel e.owners w })
    rw [show ((s.modProxy i l (fun e => { e with owners := tdel e.owners w })).proxyOf j q).owners = _ from this]
    split
    · next h =>
      rw [State.proxyOf, h]
      exact tfind_tdel_or _ _ _
    · exact .inl rfl

/-- A cluster is named a sharer of a line by the home, or by the proxy of a socket that the home names. -/
theorem mem_sharersOf (s : State) (line c : Nat) : c ∈ s.sharersOf line ↔ ∃ p ∈ (s.dirOf line).sharers,
    (p < 64 ∧ c = 64 * sockOf line + p) ∨ (64 ≤ p ∧ ∃ j ∈ (s.proxyOf (p - 64) line).sharers, c = 64 * (p - 64) + j) := by
  unfold State.sharersOf
  rw [List.mem_flatMap]
  refine exists_congr fun p => and_congr_right fun _ => ?_
  by_cases hp : p < 64
  · rw [if_pos hp]
    simp [hp, show ¬ 64 ≤ p by omega]
  · rw [if_neg hp, List.mem_map]
    simp only [hp, false_and, false_or, show 64 ≤ p by omega, true_and]
    exact exists_congr fun j => and_congr_right fun _ => eq_comm

theorem sharers_modDir (s : State) (l j : Nat) (f : DirEntry → DirEntry) :
    ((s.modDir l f).dirOf j).sharers = if j = l then (f (s.dirOf l)).sharers else (s.dirOf j).sharers := sharers_modEntry s.dir l j f

theorem sharers_modProxy (s : State) (i l j q : Nat) (f : DirEntry → DirEntry) : ((s.modProxy i l f).proxyOf j q).sharers =
    if proxyKey j q = proxyKey i l then (f (s.proxyOf i l)).sharers else (s.proxyOf j q).sharers := sharers_modEntry s.proxies _ _ f

/-- The sharers that a directory and its proxies name are the same. -/
structure SameSharers (s t : State) : Prop where
  dir : ∀ l, (t.dirOf l).sharers = (s.dirOf l).sharers
  proxy : ∀ k l, (t.proxyOf k l).sharers = (s.proxyOf k l).sharers

theorem SameSharers.sharersOf (h : SameSharers s t) (line : Nat) : t.sharersOf line = s.sharersOf line := by
  unfold State.sharersOf
  rw [h.dir]
  simp only [h.proxy]

theorem sameSharers_modDir (s : State) (l : Nat) {f : DirEntry → DirEntry} (h : ∀ e, (f e).sharers = e.sharers) : SameSharers s (s.modDir l f) where
  dir := fun j => by
    refine (sharers_modEntry s.dir l j f).trans ?_
    split
    · next e => rw [h, e]; rfl
    · rfl
  proxy := fun _ _ => rfl

theorem sameSharers_modProxy (s : State) (k l : Nat) {f : DirEntry → DirEntry} (h : ∀ e, (f e).sharers = e.sharers) :
    SameSharers s (s.modProxy k l f) where
  dir := fun _ => rfl
  proxy := fun j q => by
    refine (sharers_modEntry s.proxies (proxyKey k l) (proxyKey j q) f).trans ?_
    split
    · next e => rw [h, ← e]; rfl
    · rfl

/-! What a lock may change. -/

/-- No copy of a cluster becomes tracked. -/
def Untracking (s t : State) : Prop := ∀ c pa, (s.clWord c pa).st ≠ .t → (t.clWord c pa).st ≠ .t

/-- A cluster holds no tracked word of a line. -/
def NoTracked (s : State) (c line : Nat) : Prop := ∀ pa, lineOf pa = line → (s.clWord c pa).st ≠ .t

/-- What locking in a frame leaves: no owner and no tracked copy is new, and a cluster stays a sharer of a line of the frame while it
holds a tracked word of it. -/
structure Locking (F : Nat) (s t : State) : Prop where
  flights : t.flights = s.flights
  fuses : t.fuses = s.fuses
  joined : ∀ a b, t.joined a b = s.joined a b
  fot : t.fot = s.fot
  owners : FewerOwners s t
  tracked : Untracking s t
  sharers : ∀ line c, line / 4096 = F → c ∈ s.sharersOf line → c ∈ t.sharersOf line ∨ NoTracked t c line

variable {F : Nat}

theorem Locking.refl (s : State) : Locking F s s := ⟨rfl, rfl, fun _ _ => rfl, rfl, .of_same (.refl s), fun _ _ h => h, fun _ _ _ h => .inl h⟩

theorem Locking.trans {u : State} (h : Locking F s t) (g : Locking F t u) : Locking F s u where
  flights := g.flights.trans h.flights
  fuses := g.fuses.trans h.fuses
  joined := fun a b => (g.joined a b).trans (h.joined a b)
  fot := g.fot.trans h.fot
  owners := h.owners.trans g.owners
  tracked := fun c pa hp => g.tracked c pa (h.tracked c pa hp)
  sharers := fun line c hF hc => (h.sharers line c hF hc).elim (g.sharers line c hF) fun hn => .inr fun pa hp => g.tracked c pa (hn pa hp)

/-- The parts of a home and of the machine that a cluster's answer leaves alone. -/
structure HomeSame (s t : State) : Prop where
  flights : t.flights = s.flights
  pkgs : t.pkgs = s.pkgs
  fuses : t.fuses = s.fuses
  fot : t.fot = s.fot
  dir : t.dir = s.dir
  proxies : t.proxies = s.proxies

theorem HomeSame.trans {u : State} (h : HomeSame s t) (g : HomeSame t u) : HomeSame s u :=
  ⟨g.1.trans h.1, g.2.trans h.2, g.3.trans h.3, g.4.trans h.4, g.5.trans h.5, g.6.trans h.6⟩

theorem joined_congr (hp : t.pkgs = s.pkgs) (hf : t.fuses = s.fuses) (a b : Nat) : t.joined a b = s.joined a b := by
  unfold State.joined State.fusesOf
  rw [hp, hf]

theorem HomeSame.locking (h : HomeSame s t) (ht : Untracking s t) : Locking F s t where
  flights := h.flights
  fuses := h.fuses
  joined := joined_congr h.pkgs h.fuses
  fot := h.fot
  owners := .of_same ⟨fun _ => by rw [State.dirOf, h.dir, State.dirOf], fun _ _ => by rw [State.proxyOf, h.proxies, State.proxyOf]⟩
  tracked := ht
  sharers := fun line c hF hc => .inl (by
    have hs : SameSharers s t := ⟨fun _ => by rw [State.dirOf, h.dir, State.dirOf], fun _ _ => by rw [State.proxyOf, h.proxies, State.proxyOf]⟩
    rw [hs.sharersOf]
    exact hc)

theorem untracking_setClWord (s : State) (c pa : Nat) {x : CacheWord} (h : x.st = .i → x = CacheWord.absent) (ht : x.st ≠ .t) :
    Untracking s (s.setClWord c pa x) := fun k q hq => by
  rw [clWord_setClWord _ _ _ _ _ _ h]
  split
  · exact ht
  · exact hq

theorem homeSame_setClWord (s : State) (c pa : Nat) (x : CacheWord) : HomeSame s (s.setClWord c pa x) := ⟨rfl, rfl, rfl, rfl, rfl, rfl⟩

theorem locking_drop (s : State) (c pa : Nat) : Locking F s (s.dropClWord c pa) :=
  (homeSame_setClWord s c pa _).locking (untracking_setClWord s c pa (fun _ => rfl) (by decide))

theorem locking_markRecheck (s : State) (c line : Nat) : Locking F s (s.markRecheck c line) := by
  refine HomeSame.locking ?_ fun k q hq => by rw [clWord_markRecheck]; exact hq
  unfold State.markRecheck
  split <;> exact ⟨rfl, rfl, rfl, rfl, rfl, rfl⟩

theorem locking_mend (s : State) (c pa : Nat) (ho : (s.clWord c pa).st = .o) : Locking F s (s.mend c pa) := by
  unfold State.mend
  split
  · refine Locking.trans (t := s.setClWord c pa { s.clWord c pa with single := false }) ?_
      (HomeSame.locking ⟨rfl, rfl, rfl, rfl, rfl, rfl⟩ fun _ _ h => h)
    exact (homeSame_setClWord s c pa _).locking (untracking_setClWord s c pa (fun h => by rw [ho] at h; cases h) (by rw [ho]; decide))
  · exact .refl s

theorem clWord_congr (h : t.clusters = s.clusters) (c q : Nat) : t.clWord c q = s.clWord c q := by
  unfold State.clWord State.clLine State.cluster
  rw [h]

theorem locking_lostWord (s : State) (c place pa : Nat) (x : CacheWord) : Locking F s (s.lostWord c place pa x) := by
  have hn : ∀ u v : State, Noted u v → HomeSame u v ∧ v.clusters = u.clusters := fun u v h => by
    obtain ⟨_, _, _, _, rfl⟩ := h
    exact ⟨⟨rfl, rfl, rfl, rfl, rfl, rfl⟩, rfl⟩
  have hp : ∀ (core : Nat) (m : Quad), HomeSame s (s.postMessage core m).1 ∧ (s.postMessage core m).1.clusters = s.clusters := fun core m => by
    unfold State.postMessage
    split <;> exact ⟨⟨rfl, rfl, rfl, rfl, rfl, rfl⟩, rfl⟩
  unfold State.lostWord State.lostWrite
  obtain ⟨h1, h2⟩ := hp (s.firstCore c) { w0 := BitVec.ofNat 64 (3 + place * 16 + s.homeOf pa % 544 * 128), w1 := BitVec.ofNat 64 pa, w2 := BitVec.ofNat 64 s.time, w3 := 0 }
  refine HomeSame.locking (h1.trans (hn _ _ (keep_event (quiet_noted _) (keep_countHub (quiet_noted _) (Noted.refl _)))).1) fun k q hq => ?_
  show (State.clWord _ k q).st ≠ .t
  rw [clWord_congr ((hn _ _ (keep_event (quiet_noted _) (keep_countHub (quiet_noted _) (Noted.refl _)))).2.trans h2)]
  exact hq

theorem locking_recall (s : State) (c pa : Nat) : Locking F s (s.recall c pa).1 := by
  by_cases ho : (s.clWord c pa).st = .o
  · have h := ((locking_mend (F := F) s c pa ho).trans (locking_drop _ c pa)).trans (locking_markRecheck _ c (lineOf pa))
    cases hb : (s.clWord c pa).bad with
    | true =>
      have he : (s.recall c pa).1 = (((s.mend c pa).dropClWord c pa).markRecheck c (lineOf pa)).lostWord c 0 pa := by
        simp only [State.recall, if_pos ho, hb, if_true]
      rw [he]
      exact h.trans (locking_lostWord _ c 0 pa _)
    | false =>
      have he : (s.recall c pa).1 = ((s.mend c pa).dropClWord c pa).markRecheck c (lineOf pa) := by
        simp only [State.recall, if_pos ho, hb, Bool.false_eq_true, if_false]
      rw [he]
      exact h
  · have he : (s.recall c pa).1 = s := by simp only [State.recall, if_neg ho]
    rw [he]
    exact .refl s

theorem locking_modDir (s : State) (l : Nat) {f : DirEntry → DirEntry} (ho : FewerOwners s (s.modDir l f)) (hs : ∀ e, (f e).sharers = e.sharers) :
    Locking F s (s.modDir l f) :=
  ⟨rfl, rfl, fun _ _ => rfl, rfl, ho, fun _ _ h => h, fun line c hF hc => .inl (by rw [(sameSharers_modDir s l hs).sharersOf]; exact hc)⟩

theorem locking_modProxy (s : State) (i l : Nat) {f : DirEntry → DirEntry} (ho : FewerOwners s (s.modProxy i l f)) (hs : ∀ e, (f e).sharers = e.sharers) :
    Locking F s (s.modProxy i l f) :=
  ⟨rfl, rfl, fun _ _ => rfl, rfl, ho, fun _ _ h => h, fun line c hF hc => .inl (by rw [(sameSharers_modProxy s i l hs).sharersOf]; exact hc)⟩

theorem locking_dropOwner (s : State) (pa : Nat) : Locking F s (s.dropOwner pa) := by
  have hm : ∀ u : State, Locking F u (u.modDir (lineOf pa) (fun e => { e with owners := tdel e.owners (wordIx pa) })) :=
    fun u => locking_modDir u _ (fewerOwners_modDir u _ _) fun _ => rfl
  unfold State.dropOwner
  dsimp only
  cases tfind (s.dirOf (lineOf pa)).owners (wordIx pa) with
  | none => exact hm s
  | some p =>
    dsimp only
    split
    · exact hm s
    · exact (locking_modProxy s _ _ (fewerOwners_modProxy s _ _ _) fun _ => rfl).trans (hm _)

theorem locking_homeWrites (s : State) (pa : Nat) (x : Word) : Locking F s (s.homeWrites pa x) := by
  refine Locking.trans (t := s.putWord pa x 255#8) (HomeSame.locking ⟨rfl, rfl, rfl, rfl, rfl, rfl⟩ fun _ _ h => h) ?_
  exact locking_modDir _ _ (.of_same (sameOwners_modDir _ _ fun _ => rfl)) fun _ => rfl

theorem owner_putBack (s : State) (pa : Nat) (x : Word) (h : s.ownerOf pa = none) : (s.homeWrites pa x).ownerOf pa = none :=
  ((locking_homeWrites (F := 0) s pa x).owners.ownerOf pa).elim (fun e => e.trans h) id

/-- A word recalled: its owner gives it up, where it is reached. -/
theorem recallWord_ok (hf : s.flights = []) (pa : Nat) : Locking F s (s.recallWord pa) ∧
    ((∀ c, s.ownerOf pa = some c → s.joined (sockOf pa) (c / 64) = true) → (s.recallWord pa).ownerOf pa = none) := by
  cases ho : s.ownerOf pa with
  | none =>
    rw [recallWord_none hf ho]
    exact ⟨.refl s, fun _ => ho⟩
  | some c =>
    cases hs : s.stranded pa with
    | true =>
      have he : s.recallOwner pa = (s, none) := by
        unfold State.recallOwner
        rw [landWb_none hf]
        dsimp only
        rw [ho]
        exact if_pos hs
      rw [State.recallWord, he]
      refine ⟨.refl s, fun h => ?_⟩
      rw [State.stranded, ho] at hs
      dsimp only at hs
      rw [h c rfl] at hs
      cases hs
    | false =>
      have he : s.recallOwner pa = ((s.recall c pa).1.dropOwner pa, (s.recall c pa).2) := by
        unfold State.recallOwner
        rw [landWb_none hf]
        dsimp only
        rw [ho]
        exact if_neg (by rw [hs]; decide)
      have h2 := (locking_recall (F := F) s c pa).trans (locking_dropOwner _ pa)
      have h3 := ownerOf_dropOwner (s.recall c pa).1 pa
      rw [State.recallWord, he]
      cases (s.recall c pa).2 with
      | none => exact ⟨h2, fun _ => h3⟩
      | some x => exact ⟨h2.trans (locking_homeWrites _ pa x), fun _ => owner_putBack _ pa x h3⟩

/-! Sharers invalidated. -/

theorem not_t_of_any {c line : Nat} (h : (s.clLine c line).words.any (fun e => e.2.st == .t) = false) : NoTracked s c line := fun pa hp => by
  subst hp
  unfold State.clWord tget
  cases hf : tfind (s.clLine c (lineOf pa)).words (wordIx pa) with
  | none => decide
  | some x =>
    have := List.any_eq_false.1 h _ (mem_of_tfind hf)
    simpa using this

theorem locking_invalidate (s : State) (c pa : Nat) : Locking F s (s.invalidate c pa).1 ∧ ((s.invalidate c pa).1.clWord c pa).st ≠ .t ∧
    ((s.invalidate c pa).2 = false → NoTracked (s.invalidate c pa).1 c (lineOf pa)) := by
  have hf : (s.invalidate c pa).2 = ((s.invalidate c pa).1.clLine c (lineOf pa)).words.any (fun e => e.2.st == .t) := rfl
  refine ⟨?_, ?_, fun h => not_t_of_any (hf ▸ h)⟩
  all_goals
    unfold State.invalidate
    dsimp only
  · split
    · exact (locking_drop s c pa).trans (locking_markRecheck _ c _)
    · exact locking_markRecheck s c _
  · rw [clWord_markRecheck]
    split
    · rw [State.dropClWord, clWord_setClWord_same s c pa fun _ => rfl]
      decide
    · next h => exact fun ht => h (.inl ht)

/-- A cluster that holds no tracked word of a line leaves its sharers. -/
theorem locking_unshare (s : State) (line c : Nat) (hF : line / 4096 = F ∨ line / 4096 = F + 1) (hn : NoTracked s c line) : Locking F s (s.unshare line c) := by
  have hkeep : ∀ (l : List Nat) (p : Nat), p ∈ l → p ≠ c % 64 → p ∈ l.filter (· != c % 64) := fun l p hp hne =>
    List.mem_filter.2 ⟨hp, by simpa using hne⟩
  unfold State.unshare
  split
  · next hc =>
    refine ⟨rfl, rfl, fun _ _ => rfl, rfl, .of_same (sameOwners_modDir _ _ fun _ => rfl), fun _ _ h => h, fun l d hlF hd => ?_⟩
    obtain ⟨p, hp, hq⟩ := (mem_sharersOf s l d).1 hd
    by_cases hl : l = line
    · subst hl
      by_cases hpc : p = c % 64
      · refine .inr ?_
        have : d = c := by
          rcases hq with ⟨_, hq⟩ | ⟨hq, _⟩
          · omega
          · omega
        rw [this]
        exact hn
      · refine .inl ((mem_sharersOf _ l d).2 ⟨p, ?_, hq⟩)
        rw [sharers_modDir, if_pos rfl]
        exact hkeep _ _ hp hpc
    · refine .inl ((mem_sharersOf _ l d).2 ⟨p, ?_, hq⟩)
      rw [sharers_modDir, if_neg hl]
      exact hp
  · next hc =>
    refine ⟨rfl, rfl, fun _ _ => rfl, rfl, .of_same (sameOwners_modProxy _ _ _ fun _ => rfl), fun _ _ h => h, fun l d hlF hd => ?_⟩
    obtain ⟨p, hp, hq⟩ := (mem_sharersOf s l d).1 hd
    have hx : ∀ i q, ((s.modProxy (c / 64) line (fun e => { e with sharers := e.sharers.filter (· != c % 64) })).proxyOf i q).sharers =
        if proxyKey i q = proxyKey (c / 64) line then (s.proxyOf (c / 64) line).sharers.filter (· != c % 64) else (s.proxyOf i q).sharers :=
      fun i q => sharers_modProxy ..
    rcases hq with hq | ⟨hp64, j, hj, hjd⟩
    · exact .inl ((mem_sharersOf _ l d).2 ⟨p, hp, .inl hq⟩)
    · by_cases hl : proxyKey (p - 64) l = proxyKey (c / 64) line
      · have hll : l = line ∧ p - 64 = c / 64 := by unfold proxyKey at hl; omega
        by_cases hjc : j = c % 64
        · refine .inr ?_
          rw [show d = c by omega, hll.1]
          exact hn
        · refine .inl ((mem_sharersOf _ l d).2 ⟨p, hp, .inr ⟨hp64, j, ?_, hjd⟩⟩)
          rw [hx, if_pos hl]
          refine hkeep _ _ ?_ hjc
          rw [← hll.1, ← hll.2]
          exact hj
      · refine .inl ((mem_sharersOf _ l d).2 ⟨p, hp, .inr ⟨hp64, j, ?_, hjd⟩⟩)
        rw [hx, if_neg hl]
        exact hj

theorem locking_invalidateAt (pa : Nat) (hF : lineOf pa / 4096 = F ∨ lineOf pa / 4096 = F + 1) : ∀ (l : List Nat) (s : State),
    Locking F s (invalidateAt false pa none l s) ∧
      ∀ c ∈ l, s.joined (sockOf pa) (c / 64) = true → ((invalidateAt false pa none l s).clWord c pa).st ≠ .t
  | [], s => ⟨.refl s, fun _ h => absurd h (by simp)⟩
  | c :: l, s => by
    unfold invalidateAt
    cases hj : s.joined (sockOf pa) (c / 64) with
    | false =>
      rw [if_pos (.inr rfl)]
      obtain ⟨h1, h2⟩ := locking_invalidateAt pa hF l s
      refine ⟨h1, fun d hd hdj => ?_⟩
      rcases List.mem_cons.1 hd with rfl | hd
      · rw [hj] at hdj
        cases hdj
      · exact h2 d hd hdj
    | true =>
      rw [if_neg (by simp)]
      obtain ⟨h1, h2, h3⟩ := locking_invalidate (F := F) s c pa
      simp only [Bool.false_eq_true, if_false]
      have h4 : Locking F (s.invalidate c pa).1 (if (s.invalidate c pa).2 = true then (s.invalidate c pa).1 else (s.invalidate c pa).1.unshare (lineOf pa) c) := by
        cases hh : (s.invalidate c pa).2 with
        | true => exact .refl _
        | false => exact locking_unshare _ _ c hF (h3 hh)
      have h5 := h1.trans h4
      obtain ⟨h6, h7⟩ := locking_invalidateAt pa hF l
        (if (s.invalidate c pa).2 = true then (s.invalidate c pa).1 else (s.invalidate c pa).1.unshare (lineOf pa) c)
      refine ⟨h5.trans h6, fun d hd hdj => ?_⟩
      rcases List.mem_cons.1 hd with rfl | hd
      · exact h6.tracked d pa (h4.tracked d pa h2)
      · exact h7 d hd (by rw [h5.joined]; exact hdj)

/-- A socket whose proxy names no sharer is named by no sharer. -/
theorem locking_clearSockets (s : State) (line : Nat) : Locking F s (s.clearSockets line none) := by
  refine ⟨rfl, rfl, fun _ _ => rfl, rfl, .of_same (sameOwners_modDir _ _ fun _ => rfl), fun _ _ h => h, fun l d _ hd => .inl ?_⟩
  obtain ⟨p, hp, hq⟩ := (mem_sharersOf s l d).1 hd
  refine (mem_sharersOf _ l d).2 ⟨p, ?_, hq⟩
  unfold State.clearSockets
  rw [sharers_modDir]
  split
  · next hl =>
    subst hl
    refine List.mem_filter.2 ⟨hp, ?_⟩
    rcases hq with ⟨h1, _⟩ | ⟨_, j, hj, _⟩
    · simp [h1]
    · have : (s.proxyOf (p - 64) l).sharers.isEmpty = false := by
        cases he : (s.proxyOf (p - 64) l).sharers with
        | nil => rw [he] at hj; exact absurd hj (by simp)
        | cons => rfl
      simp [this]
  · exact hp

/-! A line locked. -/

/-- One word of a locked line. -/
def State.lockWord (s : State) (pa : Nat) : State := (s.recallWord pa).invalidateWord pa none

/-- What a lock leaves of one word: no owner that is reached, and no tracked copy at a sharer that is reached. -/
structure WordLocked (s t : State) (pa : Nat) : Prop where
  owner : (∀ c, s.ownerOf pa = some c → s.joined (sockOf pa) (c / 64) = true) → t.ownerOf pa = none
  sharers : ∀ c ∈ s.sharersOf (lineOf pa), s.joined (sockOf pa) (c / 64) = true → (t.clWord c pa).st ≠ .t

theorem WordLocked.after {u : State} {pa : Nat} (h : WordLocked s t pa) (g : Locking F t u) : WordLocked s u pa :=
  ⟨fun ho => (g.owners.ownerOf pa).elim (fun e => e.trans (h.owner ho)) id, fun c hc hj => g.tracked c pa (h.sharers c hc hj)⟩

theorem WordLocked.before {u : State} {pa : Nat} (hF : lineOf pa / 4096 = F) (h : WordLocked t u pa) (g : Locking F s t) (k : Locking F t u) : WordLocked s u pa where
  owner := fun ho => h.owner fun c hc => by
    rw [g.joined]
    rcases g.owners.ownerOf pa with e | e
    · exact ho c (e ▸ hc)
    · rw [e] at hc
      cases hc
  sharers := fun c hc hj => (g.sharers _ c hF hc).elim (fun hc => h.sharers c hc (by rw [g.joined]; exact hj)) fun hn => k.tracked c pa (hn pa rfl)

theorem lockWord_ok (hf : s.flights = []) {pa : Nat} (hF : lineOf pa / 4096 = F ∨ lineOf pa / 4096 = F + 1) :
    Locking F s (s.lockWord pa) ∧ (lineOf pa / 4096 = F → WordLocked s (s.lockWord pa) pa) := by
  obtain ⟨h1, h2⟩ := recallWord_ok (F := F) hf pa
  obtain ⟨h3, h4⟩ := locking_invalidateAt pa hF ((s.recallWord pa).sharersOf (lineOf pa)) (s.recallWord pa)
  have h5 := locking_clearSockets (F := F) (invalidateAt false pa none ((s.recallWord pa).sharersOf (lineOf pa)) (s.recallWord pa)) (lineOf pa)
  have h6 := h3.trans h5
  refine ⟨h1.trans h6, fun hFF => ⟨fun ho => (h6.owners.ownerOf pa).elim (fun e => e.trans (h2 ho)) id, fun c hc hj => ?_⟩⟩
  rcases h1.sharers _ c hFF hc with hc | hn
  · exact h5.tracked c pa (h4 c hc (by rw [h1.joined]; exact hj))
  · exact h6.tracked c pa (hn pa rfl)

/-- The words of a list locked one after another. -/
theorem lockWords_ok : ∀ (l : List Nat) {s : State}, s.flights = [] → (∀ pa ∈ l, lineOf pa / 4096 = F ∨ lineOf pa / 4096 = F + 1) →
    Locking F s (l.foldl State.lockWord s) ∧ ∀ pa ∈ l, lineOf pa / 4096 = F → WordLocked s (l.foldl State.lockWord s) pa
  | [], s, _, _ => ⟨.refl s, fun _ h => absurd h (by simp)⟩
  | pa :: l, s, hf, hF => by
    obtain ⟨h1, h2⟩ := lockWord_ok (F := F) hf (hF pa (by simp))
    obtain ⟨h3, h4⟩ := lockWords_ok l (s := s.lockWord pa) (h1.flights.trans hf) fun q hq => hF q (by simp [hq])
    refine ⟨h1.trans h3, fun q hq hqF => ?_⟩
    rcases List.mem_cons.1 hq with rfl | hq
    · exact (h2 hqF).after h3
    · exact (h4 q hq hqF).before hqF h1 h3

theorem lockLines_eq (l : List (Nat × DirEntry)) (s : State) :
    l.foldl (fun s e => s.lockLine e.1) s = (l.flatMap (fun e => (List.range 8).map (fun w => e.1 + 8 * w))).foldl State.lockWord s := by
  rw [List.foldl_flatMap]
  simp only [List.foldl_map]
  rfl

end Sys2Proof.Machine
end

section
/-! PROOFS. FOTSYNC and TENTSYNC, and the whole of O56. -/

namespace Sys2Proof.Machine

variable {s t : State}

/-! Homes and frames of memory. -/

theorem popBits_le (x : Nat) : ∀ n, popBits x n ≤ n
  | 0 => by simp [popBits]
  | n + 1 => by
    have := popBits_le (x / 2) n
    unfold popBits
    omega

/-- The home of an address that is no device's stands in its socket (R112, R113). -/
theorem homeOf_socket (s : State) {pa : Nat} (hd : isDevice pa = false) : s.homeOf pa / 544 = sockOf pa := by
  unfold State.homeOf
  rw [hd, if_neg (by decide)]
  split
  · have hx : ∀ a b : Nat, a < 32 → b < 32 → a ^^^ b < 32 := fun a b ha hb => Nat.xor_lt_two_pow (n := 5) ha hb
    unfold tierHome
    dsimp only
    have hc : ∀ g : Nat, (g % 32) ^^^ (g / 2 ^ 5 % 32) ^^^ (g / 2 ^ 10 % 32) ^^^ (g / 2 ^ 15 % 32) ^^^ (g / 2 ^ 20 % 32) ^^^
        (g / 2 ^ 25 % 32) ^^^ (g / 2 ^ 30 % 4) < 32 := fun g =>
      hx _ _ (hx _ _ (hx _ _ (hx _ _ (hx _ _ (hx _ _ (by omega) (by omega)) (by omega)) (by omega)) (by omega)) (by omega)) (by omega)
    have := hc ((offOf pa - 0x0020000000000) / 256 % 2 ^ 32)
    omega
  · have hx : ∀ a b : Nat, a < 4096 → b < 4096 → a ^^^ b < 4096 := fun a b ha hb => Nat.xor_lt_two_pow (n := 12) ha hb
    unfold State.hbmHome
    dsimp only
    have hb : ∀ g : Nat, (g % 4096) ^^^ (g / 4096 % 4096) ^^^ (g / 4096 / 4096 % 512) < 4096 := fun g =>
      hx _ _ (hx _ _ (by omega) (by omega)) (by omega)
    split
    · have := hb (pa / 256 % 2 ^ 33)
      dsimp only
      omega
    · have hg : ∀ (l : List Nat) (i : Nat), (∀ x ∈ l, x < 512) → l.getD i 0 < 512 := fun l i hl => by
        rw [List.getD_eq_getElem?_getD]
        cases hi : l[i]? with
        | none => simp
        | some x => exact hl x (List.mem_of_getElem? hi)
      dsimp only
      generalize hl : ((List.range 512).filter fun h => s.hasHome (544 * sockOf pa + h)) = l
      have hm : ∀ x ∈ l, x < 512 := fun x hx => by
        rw [← hl] at hx
        exact List.mem_range.1 (List.mem_filter.1 hx).1
      have hdiv : ∀ x, x < 512 → (544 * sockOf pa + x) / 544 = sockOf pa := fun x hx => by omega
      exact hdiv _ (hg l _ hm)

theorem homeOf_memory {pa : Nat} (h : s.isMemory pa = true) (hal : pa % 4096 = 0) {k : Nat} (hk : k < 64) :
    s.homeOf (pa + 64 * k) / 544 = sockOf pa ∧ frameOf (pa + 64 * k) = frameOf pa ∧ frameOf pa < 2 ^ 30 := by
  have hm : offOf pa < channelBytes * 512 ∨ isTier pa = true := by
    unfold State.isMemory State.isHbm State.homeH at h
    simp only [Bool.and_eq_true, Bool.or_eq_true, decide_eq_true_eq] at h
    rcases h.2 with h | h
    · exact .inl (Nat.lt_of_lt_of_le h (Nat.mul_le_mul_left _ (popBits_le _ _)))
    · exact .inr h
  have ho : offOf (pa + 64 * k) = offOf pa + 64 * k := by unfold offOf; omega
  have hs : sockOf (pa + 64 * k) = sockOf pa := by unfold sockOf; omega
  have hoff : offOf pa % 4096 = 0 := by unfold offOf; omega
  have ht : isTier (pa + 64 * k) = isTier pa := by
    unfold isTier
    rw [ho]
    congr 1 <;> exact decide_eq_decide.2 (by omega)
  have hd : isDevice (pa + 64 * k) = false := by
    unfold isDevice
    rw [ho]
    rcases hm with hm | hm
    · unfold channelBytes at hm
      simp only [Bool.and_eq_false_iff, decide_eq_false_iff_not]
      omega
    · unfold isTier at hm
      simp only [Bool.and_eq_true, decide_eq_true_eq] at hm
      simp only [Bool.and_eq_false_iff, decide_eq_false_iff_not]
      omega
  refine ⟨by rw [homeOf_socket s hd, hs], ?_, ?_⟩
  · unfold frameOf
    rw [ht, ho]
    split <;> omega
  · unfold frameOf
    rcases hm with hm | hm
    · unfold channelBytes at hm
      split
      · unfold offOf at *; omega
      · omega
    · rw [if_pos hm]
      unfold isTier at hm
      simp only [Bool.and_eq_true, decide_eq_true_eq] at hm
      omega

theorem homeOf_congr (h : t.fuses = s.fuses) (pa : Nat) : t.homeOf pa = s.homeOf pa := by
  have hh : t.hasHome = s.hasHome := by
    funext k
    unfold State.hasHome State.fusesOf
    rw [h]
  have hl : t.lowestHome = s.lowestHome := by
    funext a b c
    unfold State.lowestHome
    rw [hh]
  unfold State.homeOf State.devHome State.hbmHome
  rw [hl, hh]

/-! FOTSYNC. -/

/-- Only the entries that homes hold and what units record differ. -/
def Fotted (s t : State) : Prop :=
  ∃ fot efcs ctrs energy fresh, t = { s with fot := fot, efcs := efcs, ctrs := ctrs, energy := energy, fresh := fresh }

theorem Fotted.refl (s : State) : Fotted s s := ⟨s.fot, s.efcs, s.ctrs, s.energy, s.fresh, rfl⟩

theorem Fotted.trans {u : State} (h : Fotted s t) (g : Fotted t u) : Fotted s u := by
  obtain ⟨a, b, c, d, e, rfl⟩ := h
  obtain ⟨a', b', c', d', e', rfl⟩ := g
  exact ⟨a', b', c', d', e', rfl⟩

section
variable (h : Fotted s t)
include h

theorem Fotted.fotKey (pa : Nat) : t.fotKey pa = s.fotKey pa := by obtain ⟨a, b, c, d, e, rfl⟩ := h; rfl
theorem Fotted.fotRead (pa : Nat) : t.fotRead pa = s.fotRead pa := by obtain ⟨a, b, c, d, e, rfl⟩ := h; rfl
theorem Fotted.pkg (k : Nat) : t.pkg k = s.pkg k := by obtain ⟨a, b, c, d, e, rfl⟩ := h; rfl
theorem Fotted.legible {pa n : Nat} (l : Legible s pa n) : Legible t pa n := by obtain ⟨a, b, c, d, e, rfl⟩ := h; exact l
theorem Fotted.home : t.mem = s.mem ∧ t.dir = s.dir ∧ t.clusters = s.clusters ∧ t.flights = s.flights := by
  obtain ⟨a, b, c, d, e, rfl⟩ := h
  exact ⟨rfl, rfl, rfl, rfl⟩
theorem Fotted.locks : (∀ pa, t.ownerOf pa = s.ownerOf pa) ∧ (∀ l, t.sharersOf l = s.sharersOf l) ∧ (∀ a b, t.joined a b = s.joined a b) ∧
    ∀ c pa, t.clWord c pa = s.clWord c pa := by
  obtain ⟨a, b, c, d, e, rfl⟩ := h
  exact ⟨fun _ => rfl, fun _ => rfl, fun _ _ => rfl, fun _ _ => rfl⟩

end

theorem Legible.word {pa n : Nat} (h : Legible s pa n) {a : Nat} (h1 : pa ≤ a) (h2 : a < pa + n) : s.ownerOf a = none := by
  obtain ⟨-, -, -, h⟩ := h
  rw [← ownerOf_wordOf]
  exact h a h1 h2

/-- The word that holds a frame's entry. -/
def State.fotWord (s : State) (pa : Nat) : Nat := wordOf ((s.pkg (sockOf pa)).fotbase + 2 * frameOf pa)

/-- A home reads the entry that memory holds. -/
theorem fotFill_reads {pa : Nat} (hb : (s.pkg (sockOf pa)).fotbase ≠ 0) (hl : Legible s (s.fotWord pa) 8) (hn : tfind s.fot (s.fotKey pa) = none) :
    Fotted s (s.fotFill pa) ∧ (s.fotFill pa).fot = tset s.fot (s.fotKey pa) (s.fotRead pa) := by
  have ho := hl.word (Nat.le_refl (s.fotWord pa)) (by omega)
  obtain ⟨hfl, hsl, her, -⟩ := hl
  have hc := noted_chargeTable s (sockOf pa) .rdW (s.fotWord pa)
  have hr := readTable_exact (s := s.chargeTable (sockOf pa) .rdW (s.fotWord pa)) (hc.placed.flights.trans hfl) ((hc.placed.ownerOf_eq _).trans ho)
    (hc.placed.slc hsl) (hc.placed.errs _ (by rw [her]; rfl)) (sockOf pa)
  have he : s.fotFill pa = { s.chargeTable (sockOf pa) .rdW (s.fotWord pa) with
      fot := tset s.fot (s.fotKey pa) (((s.chargeTable (sockOf pa) .rdW (s.fotWord pa)).tableWord (sockOf pa) (s.fotWord pa) >>>
        (8 * (((s.pkg (sockOf pa)).fotbase + 2 * frameOf pa) % 8))).setWidth 16) } := by
    unfold State.fotFill
    rw [if_neg hb, hn]
    dsimp only
    rw [show wordOf ((s.pkg (sockOf pa)).fotbase + 2 * frameOf pa) = s.fotWord pa from rfl, hr]
    obtain ⟨a, b, c, d, hx⟩ := hc
    rw [hx]
    rfl
  rw [he]
  obtain ⟨a, b, c, d, hx⟩ := hc
  rw [hx]
  exact ⟨⟨_, a, b, c, d, rfl⟩, rfl⟩

theorem fotFill_held {pa : Nat} {v : BitVec 16} (hn : tfind s.fot (s.fotKey pa) = some v) : s.fotFill pa = s := by
  unfold State.fotFill
  split
  · rfl
  · rw [hn]

section
variable {pa : Nat} {v : BitVec 16}

/-- The homes of a frame's lines, filled one after another: each holds the entry that memory holds. -/
theorem fotFills (hb : (s.pkg (sockOf pa)).fotbase ≠ 0) (hl : Legible s (s.fotWord pa) 8) (hv : s.fotRead pa = v)
    (hs : ∀ k < 64, sockOf (pa + 64 * k) = sockOf pa ∧ frameOf (pa + 64 * k) = frameOf pa) : ∀ (l : List Nat) {t : State}, (∀ k ∈ l, k < 64) → Fotted s t →
    (∀ k < 64, tfind t.fot (s.fotKey (pa + 64 * k)) = none ∨ tfind t.fot (s.fotKey (pa + 64 * k)) = some v) →
    let u := l.foldl (fun s k => s.fotFill (pa + 64 * k)) t
    Fotted s u ∧ ∀ k < 64, (tfind u.fot (s.fotKey (pa + 64 * k)) = none ∨ tfind u.fot (s.fotKey (pa + 64 * k)) = some v) ∧
      ((k ∈ l ∨ tfind t.fot (s.fotKey (pa + 64 * k)) = some v) → tfind u.fot (s.fotKey (pa + 64 * k)) = some v)
  | [], t, _, ht, hk => ⟨ht, fun k hk' => ⟨hk k hk', fun h => h.resolve_left (by simp)⟩⟩
  | j :: l, t, hj, ht, hk => by
    have hj64 := hj j (by simp)
    obtain ⟨hs1, hs2⟩ := hs j hj64
    have hword : t.fotWord (pa + 64 * j) = s.fotWord pa := by unfold State.fotWord; rw [hs1, hs2, ht.pkg]
    have hread : t.fotRead (pa + 64 * j) = v := by
      rw [ht.fotRead, ← hv]
      unfold State.fotRead
      rw [hs1, hs2]
    have hstep : Fotted t (t.fotFill (pa + 64 * j)) ∧ (∀ k < 64, tfind (t.fotFill (pa + 64 * j)).fot (s.fotKey (pa + 64 * k)) =
        if s.fotKey (pa + 64 * k) = s.fotKey (pa + 64 * j) then some v else tfind t.fot (s.fotKey (pa + 64 * k))) := by
      rcases hk j hj64 with hn | hn
      · obtain ⟨h1, h2⟩ := fotFill_reads (s := t) (pa := pa + 64 * j) (by rw [hs1, ht.pkg]; exact hb) (by rw [hword]; exact ht.legible hl)
          (by rw [ht.fotKey]; exact hn)
        refine ⟨h1, fun k _ => ?_⟩
        rw [h2, ht.fotKey, hread]
        split
        · next he => rw [he, tfind_tset_same]
        · next he => rw [tfind_tset_other _ _ he]
      · rw [fotFill_held (v := v) (by rw [ht.fotKey]; exact hn)]
        refine ⟨.refl t, fun k _ => ?_⟩
        split
        · next he => rw [he, hn]
        · rfl
    obtain ⟨h1, h2⟩ := hstep
    obtain ⟨h3, h4⟩ := fotFills hb hl hv hs l (t := t.fotFill (pa + 64 * j)) (fun k hk => hj k (by simp [hk])) (ht.trans h1) fun k hk' => by
      rw [h2 k hk']
      split
      · exact .inr rfl
      · exact hk k hk'
    refine ⟨h3, fun k hk' => ⟨(h4 k hk').1, fun hm => (h4 k hk').2 ?_⟩⟩
    rw [h2 k hk']
    rcases hm with hm | hm
    · rcases List.mem_cons.1 hm with rfl | hm
      · exact .inr (if_pos rfl)
      · exact .inl hm
    · exact .inr (by rw [hm, ite_self])

end

/-- The homes of a socket keep no entry of a frame. -/
theorem dropFrame_none {sock frame k : Nat} (h1 : k % 2 ^ 30 = frame) (h2 : k / (2 ^ 30 * 544) = sock) : tfind (s.dropFrame sock frame).fot k = none := by
  cases hf : tfind (s.dropFrame sock frame).fot k with
  | none => rfl
  | some v =>
    have := (List.mem_filter.1 (mem_of_tfind hf)).2
    subst h1 h2
    simp at this

/-- What FOTSYNC of a frame does before a lock. -/
def State.refetched (s : State) (sock pa : Nat) : State :=
  (List.range 64).foldl (fun s k => s.fotFill (pa + 64 * k)) (s.dropFrame sock (frameOf pa))

theorem fotSync_eq {sock : Nat} {x : Word} (h1 : x.toNat % 4096 = 0) (h2 : x.toNat < 2 ^ 52) (h3 : s.isMemory x.toNat = true) (h4 : sockOf x.toNat = sock) :
    s.fotSync sock x = (if ((s.refetched sock x.toNat).pkg sock).fotbase ≠ 0 ∧ ((s.refetched sock x.toNat).fotRead x.toNat).getLsbD 15 = true then
      ((s.refetched sock x.toNat).dir.filter (fun e => e.1 / 4096 == x.toNat / 4096)).foldl (fun s e => s.lockLine e.1) (s.refetched sock x.toNat)
    else s.refetched sock x.toNat) := by
  unfold State.fotSync
  rw [if_neg (by omega), if_neg (by simp [h3, h4])]
  rfl

theorem fotSync_ignored {sock : Nat} {x : Word} (h : x.toNat % 4096 ≠ 0 ∨ 2 ^ 52 ≤ x.toNat ∨ s.isMemory x.toNat = false ∨ sockOf x.toNat ≠ sock) :
    s.fotSync sock x = s := by
  unfold State.fotSync
  by_cases h1 : x.toNat % 4096 ≠ 0 ∨ x.toNat / 2 ^ 52 ≠ 0
  · rw [if_pos h1]
  · rw [if_neg h1]
    refine if_pos ?_
    rcases h with h | h | h | h
    · omega
    · omega
    · simp [h]
    · simp [h]

/-- With no table in force, nothing is read again. -/
theorem fotSync_none {sock : Nat} {x : Word} (h1 : x.toNat % 4096 = 0) (h2 : x.toNat < 2 ^ 52) (h3 : s.isMemory x.toNat = true) (h4 : sockOf x.toNat = sock)
    (hb : (s.pkg sock).fotbase = 0) : s.fotSync sock x = s.dropFrame sock (frameOf x.toNat) := by
  have hr : s.refetched sock x.toNat = s.dropFrame sock (frameOf x.toNat) := by
    unfold State.refetched
    have : ∀ (l : List Nat), (∀ k ∈ l, k < 64) → l.foldl (fun s k => s.fotFill (x.toNat + 64 * k)) (s.dropFrame sock (frameOf x.toNat)) = s.dropFrame sock (frameOf x.toNat) := by
      intro l
      induction l with
      | nil => exact fun _ => rfl
      | cons k l ih =>
        intro hk
        have hk64 := hk k (by simp)
        rw [List.foldl_cons, fotFill_none, ih fun j hj => hk j (by simp [hj])]
        show (s.pkg (sockOf (x.toNat + 64 * k))).fotbase = 0
        rw [show sockOf (x.toNat + 64 * k) = sock by unfold sockOf at *; omega]
        exact hb
    exact this _ fun k hk => List.mem_range.1 hk
  rw [fotSync_eq h1 h2 h3 h4, hr]
  exact if_neg fun h => h.1 hb

section
variable {sock : Nat} {x : Word} (h1 : x.toNat % 4096 = 0) (h2 : x.toNat < 2 ^ 52) (h3 : s.isMemory x.toNat = true) (h4 : sockOf x.toNat = sock)
  (hb : (s.pkg sock).fotbase ≠ 0) (hl : Legible s (wordOf ((s.pkg sock).fotbase + 2 * frameOf x.toNat)) 8)
include h1 h2 h3 h4 hb hl

omit h2 in
/-- Every home of the frame holds the entry that memory holds. -/
theorem refetched_ok : Fotted s (s.refetched sock x.toNat) ∧
    ∀ k < 64, tfind (s.refetched sock x.toNat).fot (s.fotKey (x.toNat + 64 * k)) = some (s.fotRead x.toNat) := by
  have hd : Fotted s (s.dropFrame sock (frameOf x.toNat)) := ⟨_, s.efcs, s.ctrs, s.energy, s.fresh, rfl⟩
  have hsock : ∀ k < 64, sockOf (x.toNat + 64 * k) = sockOf x.toNat := fun k hk => by unfold sockOf; omega
  have hw : s.fotWord x.toNat = wordOf ((s.pkg sock).fotbase + 2 * frameOf x.toNat) := by unfold State.fotWord; rw [h4]
  obtain ⟨h5, h6⟩ := fotFills (s := s) (pa := x.toNat) (v := s.fotRead x.toNat) (by rw [h4]; exact hb) (by rw [hw]; exact hl) rfl
    (fun k hk => ⟨hsock k hk, (homeOf_memory h3 h1 hk).2.1⟩) (List.range 64) (t := s.dropFrame sock (frameOf x.toNat)) (fun k hk => List.mem_range.1 hk) hd
    fun k hk => by
      obtain ⟨g1, g2, g3⟩ := homeOf_memory h3 h1 hk
      refine .inl (dropFrame_none ?_ ?_)
      · unfold State.fotKey
        rw [g2]
        omega
      · unfold State.fotKey
        rw [g2, ← h4, ← g1]
        omega
  exact ⟨h5, fun k hk => (h6 k hk).2 (.inl (List.mem_range.2 hk))⟩

/-- FOTSYNC of a frame whose table is in force. -/
theorem fotSync_ok : (∀ k < 64, (s.fotSync sock x).fotEntry (x.toNat + 64 * k) = s.fotRead x.toNat) ∧
    ((s.fotRead x.toNat).getLsbD 15 = false → (s.fotSync sock x).mem = s.mem ∧ (s.fotSync sock x).dir = s.dir ∧ (s.fotSync sock x).clusters = s.clusters) ∧
    ((s.fotRead x.toNat).getLsbD 15 = true → ∀ line, line % 64 = 0 → line / 4096 = x.toNat / 4096 → ∀ w < 8,
      ((∀ c, s.ownerOf (line + 8 * w) = some c → s.joined sock (c / 64) = true) → (s.fotSync sock x).ownerOf (line + 8 * w) = none) ∧
      ∀ c ∈ s.sharersOf line, s.joined sock (c / 64) = true → ((s.fotSync sock x).clWord c (line + 8 * w)).st ≠ .t) := by
  obtain ⟨hu, hk⟩ := refetched_ok h1 h3 h4 hb hl
  obtain ⟨hmem, hdir, hclu, hfl⟩ := hu.home
  have he := fotSync_eq h1 h2 h3 h4
  rw [hu.pkg, hu.fotRead] at he
  have hentry : ∀ t : State, t.fot = (s.refetched sock x.toNat).fot → (∀ pa, t.fotKey pa = s.fotKey pa) →
      ∀ k < 64, t.fotEntry (x.toNat + 64 * k) = s.fotRead x.toNat := fun t ht hkey k hk' => by
    unfold State.fotEntry
    rw [ht, hkey, hk k hk']
    rfl
  cases hlock : (s.fotRead x.toNat).getLsbD 15 with
  | false =>
    rw [if_neg (by rw [hlock]; simp)] at he
    rw [he]
    exact ⟨hentry _ rfl hu.fotKey, fun _ => ⟨hmem, hdir, hclu⟩, fun h => absurd h (by decide)⟩
  | true =>
    rw [if_pos ⟨hb, hlock⟩, lockLines_eq] at he
    obtain ⟨g1, g2⟩ := lockWords_ok (F := x.toNat / 4096)
      (((s.refetched sock x.toNat).dir.filter (fun e => e.1 / 4096 == x.toNat / 4096)).flatMap (fun e => (List.range 8).map (fun w => e.1 + 8 * w)))
      (s := s.refetched sock x.toNat) (hfl.trans hl.1) fun pa hpa => by
        obtain ⟨e, he, hw⟩ := List.mem_flatMap.1 hpa
        obtain ⟨w, hw1, rfl⟩ := List.mem_map.1 hw
        have hw8 := List.mem_range.1 hw1
        have hF : e.1 / 4096 = x.toNat / 4096 := by simpa using (List.mem_filter.1 he).2
        unfold lineOf
        omega
    rw [← he] at g1 g2
    refine ⟨hentry _ g1.fot fun pa => ?_, fun h => absurd h (by decide), fun _ line hline hF w hw => ?_⟩
    · rw [State.fotKey, homeOf_congr g1.fuses, ← State.fotKey, hu.fotKey]
    · have hlo := lineOf_add hline hw
      have hsk : sockOf (line + 8 * w) = sock := by
        rw [← h4]
        unfold sockOf
        omega
      obtain ⟨l1, l2, l3, l4⟩ := hu.locks
      by_cases hd : ∃ v, tfind s.dir line = some v
      · obtain ⟨v, hv⟩ := hd
        obtain ⟨ho, hs⟩ := g2 (line + 8 * w) (List.mem_flatMap.2 ⟨(line, v), List.mem_filter.2 ⟨by rw [hdir]; exact mem_of_tfind hv, by simpa using hF⟩,
          List.mem_map.2 ⟨w, List.mem_range.2 hw, rfl⟩⟩) (by rw [hlo]; exact hF)
        rw [hsk, hlo] at hs
        rw [hsk] at ho
        exact ⟨fun h => ho fun c hc => by rw [l3]; exact h c (by rw [← l1]; exact hc), fun c hc hj => hs c (by rw [l2]; exact hc) (by rw [l3]; exact hj)⟩
      · have hab : s.dirOf line = DirEntry.absent := by
          unfold State.dirOf tget
          cases hf : tfind s.dir line with
          | none => rfl
          | some v => exact absurd ⟨v, hf⟩ hd
        have hno : s.ownerOf (line + 8 * w) = none := by
          unfold State.ownerOf
          rw [hlo, hab]
          rfl
        refine ⟨fun _ => (g1.owners.ownerOf _).elim (fun e => e.trans ((l1 _).trans hno)) id, fun c hc => ?_⟩
        rw [State.sharersOf, hab] at hc
        exact absurd hc (by simp [DirEntry.absent])

end

/-! TENTSYNC. -/

theorem readTableWords_exact (here : Nat) : ∀ (n pa : Nat), Legible s pa (8 * n) →
    readTableWords here n pa s = ((List.range n).map (fun k => s.tableWord here (pa + 8 * k)), s)
  | 0, _, _ => rfl
  | n + 1, pa, h => by
    have ho := h.word (Nat.le_refl pa) (by omega)
    obtain ⟨hf, hs, he, hw⟩ := h
    have hr := readTable_exact hf ho hs (by rw [he]; rfl) here
    have ih := readTableWords_exact here n (pa + 8) ⟨hf, hs, he, fun a h1 h2 => hw a (by omega) (by omega)⟩
    unfold readTableWords
    rw [hr]
    dsimp only
    rw [ih, List.range_succ_eq_map, List.map_cons, List.map_map]
    simp only [Nat.mul_zero, Nat.add_zero, Function.comp_def, Nat.succ_eq_add_one, Nat.mul_add, Nat.mul_one, Nat.add_assoc, Nat.add_comm 8]

theorem loadTenant_exact {sock tno : Nat} (h : (s.pkg sock).tentbase = 0 ∨ Legible s ((s.pkg sock).tentbase + 64 * tno) 64) :
    s.loadTenant sock tno = (s.readTenant sock tno, s) := by
  unfold State.loadTenant State.readTenant
  dsimp only
  by_cases hb : (s.pkg sock).tentbase = 0
  · rw [if_pos hb, if_pos hb]
  · rw [if_neg hb, if_neg hb, readTableWords_exact sock 8 _ (h.resolve_left hb)]

theorem tenant_forceTenant (s : State) (sock n : Nat) (v : Tenant) (tno : BitVec 12) :
    (s.forceTenant sock n v).tenant sock tno = if tno.toNat = n then v else s.tenant sock tno := by
  have hp : (s.forceTenant sock n v).pkg sock = { s.pkg sock with
      tenants := if v = Tenant.zero then tdel (s.pkg sock).tenants n else tset (s.pkg sock).tenants n v } := by
    unfold State.forceTenant
    dsimp only
    split <;> exact pkg_modPkg_same ..
  unfold State.tenant
  rw [hp]
  dsimp only
  by_cases hv : v = Tenant.zero
  · rw [if_pos hv, tget, tfind_tdel]
    split
    · rw [hv]
      rfl
    · rfl
  · rw [if_neg hv, tget_tset]

theorem tenant_congr (h : t.pkgs = s.pkgs) (sock : Nat) (tno : BitVec 12) : t.tenant sock tno = s.tenant sock tno := by
  unfold State.tenant State.pkg
  rw [h]

/-- The allowances of a tenant at the EFCs of a list. -/
def State.restart (s : State) (sock n : Nat) (b : Int) (l : List Nat) : State :=
  l.foldl (fun s e => if s.hasEfc (68 * sock + e) then s.modEfc (68 * sock + e) (fun f => { f with allow := tset f.allow n b }) else s) s

theorem restart_ok (sock n : Nat) (b : Int) : ∀ (l : List Nat) (s : State), s.restart sock n b l = { s with efcs := (s.restart sock n b l).efcs } ∧
    ∀ e, (tget (s.efc e).allow n 0 = b ∨ s.hasEfc e = true ∧ ∃ j ∈ l, e = 68 * sock + j) → tget ((s.restart sock n b l).efc e).allow n 0 = b
  | [], s => ⟨rfl, fun e h => h.resolve_right (by simp)⟩
  | j :: l, s => by
    let u := if s.hasEfc (68 * sock + j) then s.modEfc (68 * sock + j) (fun f => { f with allow := tset f.allow n b }) else s
    have hu : u = { s with efcs := u.efcs } := by
      show (if s.hasEfc (68 * sock + j) then _ else s) = { s with efcs := (if s.hasEfc (68 * sock + j) then _ else s).efcs }
      split <;> rfl
    obtain ⟨h1, h2⟩ := restart_ok sock n b l u
    have hfold : s.restart sock n b (j :: l) = u.restart sock n b l := rfl
    rw [hfold]
    refine ⟨h1.trans (by rw [hu]), fun e he => h2 e ?_⟩
    have hhas : u.hasEfc e = s.hasEfc e := by rw [hu]; rfl
    have hkeep : tget (s.efc e).allow n 0 = b → tget (u.efc e).allow n 0 = b := fun h => by
      show tget ((if s.hasEfc (68 * sock + j) then s.modEfc (68 * sock + j) (fun f => { f with allow := tset f.allow n b }) else s).efc e).allow n 0 = b
      split
      · rw [efc_modEfc]
        split
        · exact (tget_tset ..).trans (if_pos rfl)
        · exact h
      · exact h
    rcases he with he | ⟨he, i, hi, rfl⟩
    · exact .inl (hkeep he)
    · rcases List.mem_cons.1 hi with rfl | hi
      · refine .inl ?_
        show tget ((if s.hasEfc (68 * sock + i) then s.modEfc (68 * sock + i) (fun f => { f with allow := tset f.allow n b }) else s).efc (68 * sock + i)).allow n 0 = b
        rw [if_pos he, efc_modEfc, if_pos rfl]
        exact (tget_tset ..).trans (if_pos rfl)
      · exact .inr ⟨hhas.trans he, i, hi, rfl⟩

theorem tentSync_eq {sock : Nat} {x : Word} (hx : x.toNat < 4096) (h : (s.pkg sock).tentbase = 0 ∨ Legible s ((s.pkg sock).tentbase + 64 * x.toNat) 64) :
    s.tentSync sock x = (s.forceTenant sock x.toNat (s.readTenant sock x.toNat)).restart sock x.toNat ((s.readTenant sock x.toNat).ebudget : Int) (List.range 68) := by
  unfold State.tentSync
  rw [if_neg (by omega), loadTenant_exact h]
  rfl

/-- Settles O56: an EFC's allowances and the record it takes; and what FOTSYNC and TENTSYNC bring into force. -/
theorem filtersAndTables : Obligations.FiltersAndTables := by
  unfold Obligations.FiltersAndTables
  refine ⟨fun s sock e => ⟨fun hn => ?_, fun h => congrArg Host.Outcome.next (efcTake_idle h), fun r rest hr hq => ?_⟩, fun s sock x _ => ?_⟩
  · obtain ⟨h1, h2⟩ := efcRefill_ok s sock hn
    refine ⟨_, rfl, h1, fun k tno => ⟨?_, allowance_refilled (fun j y => by rw [h1]; rfl) (h2 k)⟩⟩
    rw [h2]
    split <;> rfl
  · intro left tno named ks
    have hleft : ∀ t run, Took s t e rest run → left t run := fun t run h => ⟨h.fifo, h.turn, h.run, h.data, h.mem, h.ctxs⟩
    refine ⟨fun k hk => matching_entry hk, fun h => ⟨_, rfl, hleft _ _ (take_unnamed hr hq h)⟩, fun he hne hb => ?_, fun he hne hb => ?_⟩
    · exact ⟨_, rfl, hleft _ _ ((take_named hr hq he hne).1 hb)⟩
    · obtain ⟨h1, h2⟩ := (take_named hr hq he hne).2 hb
      exact ⟨_, rfl, hleft _ _ h1, h2⟩
  · refine ⟨fun h => congrArg Host.Outcome.next (fotSync_ignored h), fun h1 h2 h3 h4 => ⟨fun hb => congrArg Host.Outcome.next (fotSync_none h1 h2 h3 h4 hb),
      fun hb hl => ⟨_, rfl, fotSync_ok h1 h2 h3 h4 hb hl⟩⟩, fun h => congrArg Host.Outcome.next (if_pos (by omega)), fun hx h => ?_⟩
    have he : exec (.tentsync sock x) s = .next (s.tentSync sock x) := rfl
    rw [tentSync_eq hx h] at he
    let f := s.forceTenant sock x.toNat (s.readTenant sock x.toNat)
    obtain ⟨h1, h2⟩ := restart_ok sock x.toNat ((s.readTenant sock x.toNat).ebudget : Int) (List.range 68) f
    have hten : ∀ tno, (f.restart sock x.toNat ((s.readTenant sock x.toNat).ebudget : Int) (List.range 68)).tenant sock tno =
        if tno.toNat = x.toNat then s.readTenant sock x.toNat else s.tenant sock tno := fun tno => by
      have hp : (f.restart sock x.toNat ((s.readTenant sock x.toNat).ebudget : Int) (List.range 68)).pkgs = f.pkgs := by rw [h1]
      rw [tenant_congr hp]
      exact tenant_forceTenant s sock x.toNat _ tno
    have hf : f.mem = s.mem ∧ f.ctxs = s.ctxs ∧ ∀ e, f.hasEfc e = s.hasEfc e := by
      have hfe : f = s.forceTenant sock x.toNat (s.readTenant sock x.toNat) := rfl
      rw [hfe]
      unfold State.forceTenant
      dsimp only
      split <;> exact ⟨rfl, rfl, fun _ => rfl⟩
    refine ⟨_, he, ?_, fun tno hne => ?_, ?_, ?_, fun e hh hs => h2 e (.inr ⟨(hf.2.2 e).trans hh, e % 68, List.mem_range.2 (by omega), by omega⟩)⟩
    · rw [hten, if_pos]
      rw [BitVec.toNat_setWidth]
      omega
    · rw [hten, if_neg hne]
    · rw [h1]
      exact hf.1
    · rw [h1]
      exact hf.2.1

end Sys2Proof.Machine
end

section
/-! PROOFS. What performing a thread's stores leaves of run queues, sleepers and user contexts, whatever device registers the
stores of a core reach (R33, R141, R375). -/

namespace Sys2Proof.Machine

variable {s t : State}

/-- The queues of threads that a dispatcher holds are the same. -/
structure SchedKept (x y : Cluster) : Prop where
  runq : y.runq = x.runq
  sleepers : y.sleepers = x.sleepers
  sleepOver : y.sleepOver = x.sleepOver
  demoted : y.demoted = x.demoted
  walk : y.walk = x.walk

theorem SchedKept.refl (x : Cluster) : SchedKept x x := ⟨rfl, rfl, rfl, rfl, rfl⟩

theorem SchedKept.trans {x y z : Cluster} (h : SchedKept x y) (g : SchedKept y z) : SchedKept x z :=
  ⟨g.1.trans h.1, g.2.trans h.2, g.3.trans h.3, g.4.trans h.4, g.5.trans h.5⟩

/-- A user context keeps its thread, stays vacant, and enters no counter wait. -/
structure Stays (x y : Context) : Prop where
  vacant : x = Context.vacant → y = Context.vacant
  tcb : y.tcb = x.tcb
  prio : y.prio = x.prio
  waits : x.life ≠ .parked .cwait → y.life ≠ .parked .cwait

theorem Stays.refl (x : Context) : Stays x x := ⟨id, rfl, rfl, id⟩

theorem Stays.trans {x y z : Context} (h : Stays x y) (g : Stays y z) : Stays x z :=
  ⟨fun e => g.vacant (h.vacant e), g.tcb.trans h.tcb, g.prio.trans h.prio, fun e => g.waits (h.waits e)⟩

/-- What stores leave of the threads of a machine. -/
structure Watched (s t : State) : Prop where
  sched : ∀ n, SchedKept (s.cluster n) (t.cluster n)
  ctx : ∀ c, isX7 c = false → Stays (s.ctx c) (t.ctx c)

theorem Watched.refl (s : State) : Watched s s := ⟨fun _ => .refl _, fun _ _ => .refl _⟩

theorem Watched.trans {u : State} (h : Watched s t) (g : Watched t u) : Watched s u :=
  ⟨fun n => (h.sched n).trans (g.sched n), fun c hc => (h.ctx c hc).trans (g.ctx c hc)⟩

theorem watched_of (hc : t.clusters = s.clusters) (hx : t.ctxs = s.ctxs) : Watched s t :=
  ⟨fun n => by
      rw [show t.cluster n = s.cluster n by rw [State.cluster, hc, State.cluster]]
      exact .refl _, fun c _ => by
      rw [show t.ctx c = s.ctx c by rw [State.ctx, hx, State.ctx]]
      exact .refl _⟩

theorem ClusterKept.sched {x y : Cluster} (h : ClusterKept x y) : SchedKept x y := ⟨h.runq, h.sleepers, h.sleepOver, h.demoted, h.walk⟩

theorem watched_modCluster (s : State) (n : Nat) {f : Cluster → Cluster} (hf : ∀ x, SchedKept x (f x)) : Watched s (s.modCluster n f) where
  sched := fun j => by
    rw [cluster_modCluster]
    split
    · next h =>
      rw [h]
      exact hf _
    · exact .refl _
  ctx := fun _ _ => .refl _

theorem watched_modCtx (s : State) (c : Nat) {f : Context → Context} (hf : isX7 c = false → Stays (s.ctx c) (f (s.ctx c))) : Watched s (s.modCtx c f) where
  sched := fun _ => .refl _
  ctx := fun d hd => by
    rw [ctx_modCtx]
    split
    · next h =>
      subst h
      exact hf hd
    · exact .refl _

theorem far_watched (s : State) : Far (Watched s) where
  records := fun _ _ _ _ _ h => h.trans (watched_of rfl rfl)
  upd := fun _ _ _ _ _ _ _ _ _ _ h => h.trans (watched_of rfl rfl)
  mem := fun _ _ _ h => h.trans (watched_of rfl rfl)
  queue := fun _ _ _ _ _ _ _ h _ _ => h.trans (watched_of rfl rfl)
  cluster := fun u n _ h hf => h.trans (watched_modCluster u n fun x => (hf x).sched)
  engine := fun _ _ _ h _ => h.trans (watched_of rfl rfl)
  pkgKept := fun _ _ _ h _ => h.trans (watched_of rfl rfl)
  pkg := fun _ _ _ h => h.trans (watched_of rfl rfl)
  wake := fun u k h => h.trans (watched_modCtx u _ fun hx => absurd hx (by simp [isX7, x7Of]))

theorem plain_watched (s : State) : Plain (Watched s) := (far_watched s).toPlain

/-! Parks, stops and returns. -/

theorem watched_squash (s : State) (c : Nat) : Watched s (s.squash c) := by
  have hc : ∀ u : State, Watched u (u.modCluster (clusterOf c) (fun x => x.forget c)) := fun u => watched_modCluster u _ fun _ => ⟨rfl, rfl, rfl, rfl, rfl⟩
  have he : Watched s { s with engines := tmap (fun _ x => x.forget c) s.engines } := watched_of rfl rfl
  unfold State.squash
  dsimp only
  split <;> split
  · exact he.trans (hc _)
  · exact he
  · exact hc s
  · exact .refl s

theorem watched_park (s : State) {c : Nat} (hv : (s.ctx c).life ≠ .vacant) : Watched s (s.park c .stop 0) := by
  have h1 := watched_squash s c
  have h2 : Watched (s.squash c) (parkBase s c .stop) := watched_modCtx _ c fun _ =>
    ⟨fun h => absurd (by rw [ctx_squash] at h; rw [h]; rfl) hv, rfl, rfl, fun _ => by simp⟩
  have h3 := apart_park s c .stop 0
  exact (h1.trans h2).trans ⟨fun n => (h3.cluster n).sched, fun d hd => by rw [h3.user d hd]; exact .refl _⟩

theorem watched_dropWait (s : State) (c : Nat) : Watched s (s.dropWait c) ∧ (s.dropWait c).ctx c = { s.ctx c with inwfm := ((s.dropWait c).ctx c).inwfm } := by
  have hl : ∀ l, Watched s (s.relink (clusterOf c) l (s.ctx c).tcb) := fun l => keep_relink (plain_watched s) (Watched.refl s)
  have hc : ∀ u : State, Watched u (u.modCluster (clusterOf c) (fun k => { k with
      waits := k.waits.filter (fun e => e.who != .ctx c), waitOver := k.waitOver.filter (fun t => t != (s.ctx c).tcb || (s.ctx c).tcb == 0) })) := fun u =>
    watched_modCluster u _ fun _ => ⟨rfl, rfl, rfl, rfl, rfl⟩
  have hk : ∀ u : State, Watched u (u.modCore (coreOf c) (fun k => { k with x7wait := none })) := fun u => watched_of rfl rfl
  obtain ⟨⟨w, hw⟩, -⟩ := dropWait_unwaited s c
  refine ⟨?_, by rw [hw]⟩
  unfold State.dropWait
  dsimp only
  split <;> split
  · exact (hc s).trans (hk _)
  · exact ((hl _).trans (hc _)).trans (hk _)
  · exact hc s
  · exact (hl _).trans (hc _)

theorem watched_trace (s : State) (k c : Nat) (pc a w : Word) : Watched s (s.trace k c pc a w) := keep_trace (plain_watched s) (Watched.refl s)

theorem watched_debugStop (s : State) (c : Nat) : Watched s (s.debugStop c) := by
  have hpend : Watched s (s.modCtx c (fun x => { x with pstop := true })) ∨ (s.ctx c).life = .vacant := by
    by_cases hv : (s.ctx c).life = .vacant
    · exact .inr hv
    · exact .inl (watched_modCtx s c fun _ => ⟨fun h => absurd (by rw [h]; rfl) hv, rfl, rfl, id⟩)
  cases hl : (s.ctx c).life with
  | vacant => rw [debugStop_none (.inl hl)]; exact .refl s
  | running =>
    obtain ⟨h1, h2⟩ := watched_dropWait s c
    rw [debugStop_stops (.inl hl)]
    exact (h1.trans (watched_park _ (by rw [h2]; show (s.ctx c).life ≠ _; rw [hl]; decide))).trans (watched_trace ..)
  | parked r =>
    have hp := hpend.resolve_right (by rw [hl]; exact fun h => by cases h)
    cases r with
    | stop => rw [debugStop_none (.inr hl)]; exact .refl s
    | cwait =>
      obtain ⟨h1, h2⟩ := watched_dropWait s c
      rw [debugStop_stops (.inr hl)]
      exact (h1.trans (watched_park _ (by rw [h2]; show (s.ctx c).life ≠ _; rw [hl]; decide))).trans (watched_trace ..)
    | fault => rw [debugStop_pending (by simp [hl])]; exact hp.trans (watched_trace ..)
    | trap => rw [debugStop_pending (by simp [hl])]; exact hp.trans (watched_trace ..)
    | tilebind => rw [debugStop_pending (by simp [hl])]; exact hp.trans (watched_trace ..)

theorem watched_debugResume (s : State) (c : Nat) : Watched s (s.debugResume c) := by
  by_cases h : (s.ctx c).life = .parked .stop ∧ (s.ctx c).bootHeld = false
  · have he : s.debugResume c = (s.unpark c).trace 4 c (s.ctx c).pc 0 0 := if_pos h
    rw [he]
    refine Watched.trans (t := s.unpark c) (watched_modCtx s c fun _ => ⟨fun hv => ?_, rfl, rfl, fun _ => by simp⟩) (watched_trace ..)
    rw [hv] at h
    exact absurd h.1 (by decide)
  · have he : s.debugResume c = s := if_neg h
    rw [he]
    exact .refl s

/-! Device registers. -/

/-- A register written leaves a context's thread and its park. -/
structure Registers (x y : Context) : Prop where
  life : y.life = x.life
  tcb : y.tcb = x.tcb
  prio : y.prio = x.prio

theorem Registers.stays {x y : Context} (h : Registers x y) (hx : x.life = .parked .stop) : Stays x y :=
  ⟨fun hv => by (rw [hv] at hx; cases hx), h.tcb, h.prio, fun hw => by (rw [h.life]; exact hw)⟩

theorem registers_sysWrite (x : Context) (n : Nat) (v : Word) : Registers x (x.sysWrite n v) := by
  unfold Context.sysWrite
  split <;> exact ⟨rfl, rfl, rfl⟩

theorem watched_regWrite {c : Nat} (hs : (s.ctx c).life = .parked .stop) (n : Nat) (v : Word) : Watched s (s.regWrite c n v) := by
  have hg : ∀ (x : Context) r v, Registers x (x.setG r v) := fun x r v => by unfold Context.setG; split <;> exact ⟨rfl, rfl, rfl⟩
  have hp : ∀ (x : Context) r v, Registers x (x.setP r v) := fun x r v => by unfold Context.setP; split <;> exact ⟨rfl, rfl, rfl⟩
  refine watched_modCtx s c fun _ => Registers.stays ?_ hs
  split
  · exact hg ..
  · split
    · exact ⟨rfl, rfl, rfl⟩
    · split
      · exact hp ..
      · split
        · split <;> exact ⟨rfl, rfl, rfl⟩
        · split
          · exact ⟨rfl, rfl, rfl⟩
          · exact registers_sysWrite ..

theorem watched_modPkg (s : State) (k : Nat) (f : Package → Package) : Watched s (s.modPkg k f) := watched_of rfl rfl

theorem watched_modCore (s : State) (k : Nat) (f : Core → Core) : Watched s (s.modCore k f) := watched_of rfl rfl

theorem watched_supWrite (s : State) (core n : Nat) (v : Word) : Watched s (s.supWrite core n v) := by
  unfold State.supWrite
  dsimp only
  split
  case h_3 =>
    split
    · exact watched_modCore ..
    · exact .refl s
  case h_8 => exact .refl s
  all_goals exact watched_of rfl rfl

theorem watched_dbgDataWrite (s : State) (core : Nat) (v : Word) : Watched s (s.dbgDataWrite core v) := by
  unfold State.dbgDataWrite
  dsimp only
  split
  · exact .refl s
  · next h =>
    split
    · exact watched_regWrite (Classical.not_not.1 h) _ _
    · split
      · exact watched_supWrite ..
      · exact .refl s

theorem watched_foldl {γ : Type} {f : State → γ → State} (hf : ∀ s a, Watched s (f s a)) (l : List γ) (s : State) : Watched s (l.foldl f s) :=
  foldl_keeps (p := Watched s) (fun _ a h => h.trans (hf _ a)) l (Watched.refl s)

theorem watched_dbgCtlWrite (s : State) (core : Nat) (x : Word) : Watched s (s.dbgCtlWrite core x) := by
  unfold State.dbgCtlWrite
  split
  · exact .refl s
  · refine ((watched_modCore s core _).trans (watched_foldl (fun u j => ?_) _ _)).trans (watched_foldl (fun u j => ?_) _ _)
    · split
      · exact watched_debugStop ..
      · exact .refl u
    · split
      · exact watched_debugResume ..
      · exact .refl u

theorem watched_debugWrite (s : State) (core off : Nat) (x : Word) : Watched s (s.debugWrite core off x) := by
  have hm := fun f => watched_modCore s core f
  unfold State.debugWrite
  split
  · exact watched_dbgCtlWrite ..
  · split
    · split
      · exact .refl s
      · exact hm _
    · split
      · exact watched_dbgDataWrite ..
      · split
        · exact hm _
        · split
          · split
            · exact hm _
            · split
              · exact .refl s
              · exact hm _
          · exact .refl s

theorem watched_releaseCore (s : State) (sock : Nat) (x : Word) : Watched s (s.releaseCore sock x) := by
  unfold State.releaseCore
  dsimp only
  split
  · exact .refl s
  · split
    · refine ((watched_modPkg s sock _).trans (watched_modCore _ _ _)).trans (watched_modCtx _ _ fun hx => ?_)
      exact absurd hx (by simp [isX7, x7Of])
    · exact .refl s

theorem watched_bootWrite (s : State) (sock off : Nat) (x : Word) : Watched s (s.bootWrite sock off x) := by
  have hm := fun f => watched_modPkg s sock f
  unfold State.bootWrite
  split
  · exact watched_releaseCore ..
  · split
    · split
      · exact .refl s
      · exact hm _
    · split
      · exact hm _
      · split
        · split
          · exact .refl s
          · dsimp only
            split
            · exact (hm _).trans (watched_modPkg _ _ _)
            · split
              · exact (hm _).trans (watched_modPkg _ _ _)
              · exact hm _
        · split
          · split
            · exact .refl s
            · exact hm _
          · exact .refl s

theorem watched_devWrite (s : State) (pa n : Nat) (x : Word) : Watched s (s.devWrite pa n x) := by
  unfold State.devWrite
  dsimp only
  split
  · split
    · exact keep_fotSync (plain_watched s) (Watched.refl s)
    · split
      · exact keep_tentSync (far_watched s) (Watched.refl s)
      · exact .refl s
  · exact watched_of rfl rfl
  · exact watched_of rfl rfl
  · exact keep_fabricWrite (far_watched s) (Watched.refl s)
  · exact watched_bootWrite ..
  · exact keep_hostPortWrite (far_watched s) (Watched.refl s)
  · exact watched_debugWrite ..
  · exact watched_of rfl rfl
  · exact .refl s

/-! Stores performed. -/

theorem watched_drainMany (e : Nat) : ∀ (n : Nat) (s : State), Watched s (drainMany e n s)
  | 0, s => .refl s
  | n + 1, s => by
    refine Watched.trans (t := s.drainOldest e) ?_ (watched_drainMany e n _)
    unfold State.drainOldest
    split
    · exact .refl s
    · next d rest _ =>
      have h : Watched s (s.modEngine e (fun x => { x with storeq := rest })) := watched_of rfl rfl
      exact h.trans (keep_drainEntry (plain_watched _) (Watched.refl _))

theorem watched_drainThread (s : State) (cl tcb : Nat) : Watched s (s.drainThread cl tcb) := by
  refine watched_foldl (fun u e => ?_) _ s
  dsimp only
  split
  · exact watched_drainMany ..
  · exact .refl u

theorem watched_releaseAt (s : State) (a : Agent) (sc : Scope) : Watched s (s.releaseAt a sc) := keep_releaseAt (plain_watched s) (Watched.refl s)

/-- A store at the place that it writes. -/
def State.landStore (s : State) (p : PendingStore) : State :=
  if isDevice p.pa then
    if s.backed (p.agent.cl / 64) p.pa then (s.visit p.agent .wrW p.pa).devWrite p.pa p.n p.data
    else s.lostWrite (s.firstCore p.agent.cl) 0 (wordOf p.pa) p.agent.tno p.agent.origin
  else s.writeLate p.agent p.pol p.pa p.n p.data p.rel

/-- The tile stores of its thread on the words that a store writes go before it. -/
def State.tilesFirst (s : State) (p : PendingStore) : State :=
  if s.tilePending p.agent.cl p.tcb p.pa p.n then s.drainThread p.agent.cl p.tcb else s

/-- The release that a releasing store makes first. -/
def State.releaseFirst (s : State) (p : PendingStore) : State :=
  match p.rel with
  | none => s
  | some sc => (s.drainThread p.agent.cl p.tcb).releaseAt p.agent sc

theorem performStore_eq (s : State) (p : PendingStore) : s.performStore p = ((s.releaseFirst p).tilesFirst p).landStore p := rfl

theorem watched_landStore (s : State) (p : PendingStore) : Watched s (s.landStore p) := by
  unfold State.landStore
  split
  · split
    · exact (keep_visit (plain_watched s) (Watched.refl s)).trans (watched_devWrite ..)
    · exact keep_lostWrite (plain_watched s) (Watched.refl s)
  · exact keep_writeLate (plain_watched s) (Watched.refl s)

theorem watched_tilesFirst (s : State) (p : PendingStore) : Watched s (s.tilesFirst p) := by
  unfold State.tilesFirst
  split
  · exact watched_drainThread ..
  · exact .refl s

theorem watched_releaseFirst (s : State) (p : PendingStore) : Watched s (s.releaseFirst p) := by
  unfold State.releaseFirst
  split
  · exact .refl s
  · exact (watched_drainThread ..).trans (watched_releaseAt ..)

theorem watched_performStore (s : State) (p : PendingStore) : Watched s (s.performStore p) := by
  rw [performStore_eq]
  exact ((watched_releaseFirst s p).trans (watched_tilesFirst _ p)).trans (watched_landStore _ p)

theorem watched_performMany (core : Nat) : ∀ (n : Nat) (s : State), Watched s (performMany core n s)
  | 0, s => .refl s
  | n + 1, s => by
    refine Watched.trans (t := s.performOldest core) ?_ (watched_performMany core n _)
    unfold State.performOldest
    split
    · exact .refl s
    · exact (watched_modCore s core _).trans (watched_performStore ..)

theorem watched_flushStores (s : State) (c : Nat) : Watched s (s.flushStores c) := by
  unfold State.flushStores
  dsimp only
  split
  · exact watched_performMany ..
  · exact .refl s

theorem watched_releaseWait (s : State) (c : Nat) (sc : Scope) : Watched s (s.releaseWait c sc) :=
  ((watched_flushStores s c).trans (watched_drainThread _ _ _)).trans (watched_releaseAt _ _ sc)

theorem stays_spend (x : Context) (n : Nat) : Stays x (x.spend n) := by
  unfold Context.spend
  split
  · next h => exact ⟨fun hv => by (rw [hv] at h; exact absurd h (by decide)), rfl, rfl, id⟩
  · exact .refl x

theorem watched_settle (s : State) (core : Nat) : Watched s (s.settle core) := by
  unfold State.settle State.settleAs
  dsimp only
  split
  · exact .refl s
  · refine Watched.trans ?_ (watched_modCore _ core _)
    refine Watched.trans ?_ (watched_foldl (fun u j => ?_) _ _)
    · refine Watched.trans ?_ (keep_addCtr (plain_watched _).toQuiet (Watched.refl _))
      exact watched_foldl (fun u j => keep_addCtr (plain_watched u).toQuiet (Watched.refl u)) _ _
    · split
      · exact watched_modCtx u _ fun _ => stays_spend _ _
      · exact .refl u

/-- What a dispatcher does before it saves a thread leaves the threads of the machine as they are. -/
theorem watched_beforeSave (s : State) (c : Nat) : Watched s (s.beforeSave c) :=
  ((watched_settle s (coreOf c)).trans (watched_squash _ c)).trans (watched_releaseWait _ c .sys)

theorem watched_detach (h : Watched s t) (tcb : Nat) : Watched s (t.detach tcb) := by
  unfold State.detach
  split
  · exact h.trans (watched_of rfl rfl)
  · exact h

theorem watched_fences (h : Watched s t) (f : Tbl Scope) : Watched s { t with fences := f } := h.trans (watched_of rfl rfl)

/-- A thread saved leaves every other thread of the machine as it is. -/
theorem watched_writeThread (s : State) (c k : Nat) : Watched s (s.writeThread c k) := by
  unfold State.writeThread
  have p := plain_watched s
  have h := keep_setTstate (cl := clusterOf c) (tcb := (s.ctx c).tcb) (st := k) (reason := 0) p
    (keep_setTcb (cl := clusterOf c) (tcb := (s.ctx c).tcb) (off := 0xC38) (x := BitVec.ofNat 64 (s.ctx c).qleft) p
      (keep_image p (clusterOf c) (s.ctx c).tcb (s.ctx c).image (.refl s)))
  refine keep_holdEnds (far_watched s) (watched_detach ?_ _)
  split
  · exact watched_fences h _
  · exact h

theorem sched_save (s : State) (c k n : Nat) : SchedKept (s.cluster n) ((s.save c k).cluster n) := by
  rw [save_eq, cluster_setCtx]
  exact ((watched_beforeSave s c).trans (watched_writeThread _ c k)).sched n

theorem stays_save (s : State) (c k : Nat) {d : Nat} (hd : isX7 d = false) (hne : d ≠ c) : Stays (s.ctx d) ((s.save c k).ctx d) := by
  rw [save_eq, ctx_setCtx, if_neg hne]
  exact ((watched_beforeSave s c).trans (watched_writeThread _ c k)).ctx d hd

end Sys2Proof.Machine
end

section
/-! PROOFS. `tyield`, `tsleep` and `texit` (R276, R279, R283, R284, R286). -/

namespace Sys2Proof.Machine

variable {s t : State}

theorem queue_setQueue (s : State) (cl q : Nat) {l : List Nat} (h : l ≠ []) : (s.setQueue cl q l).queue cl q = l := by
  have he : l.isEmpty = false := by simpa using h
  unfold State.queue State.setQueue
  rw [cluster_modCluster_same]
  simp [he]

/-- What an append to a queue writes before the queue: the links of TCBs. -/
def State.linkLast (s : State) (cl q tcb : Nat) : State :=
  match (s.queue cl q).getLast? with
  | some t => (s.setTcb cl tcb 0xC30 0).setTcb cl t 0xC30 (BitVec.ofNat 64 tcb)
  | none => s.setTcb cl tcb 0xC30 0

theorem append_eq (s : State) (cl q tcb : Nat) : s.append cl q tcb = (s.linkLast cl q tcb).setQueue cl q (s.queue cl q ++ [tcb]) := by
  cases hl : (s.queue cl q).getLast? with
  | none => simp only [State.append, State.linkLast, hl]
  | some t => simp only [State.append, State.linkLast, hl]

/-- A TCB appended to a queue stands last there. -/
theorem queue_append (s : State) (cl q tcb : Nat) : (s.append cl q tcb).queue cl q = s.queue cl q ++ [tcb] := by
  rw [append_eq]
  exact queue_setQueue _ _ _ (by simp)

theorem getLast_queue_append (s : State) (cl q tcb : Nat) : ((s.append cl q tcb).queue cl q).getLast? = some tcb := by
  rw [queue_append]
  simp

theorem apart_setTcb (s : State) (cl tcb off : Nat) (x : Word) : Apart s (s.setTcb cl tcb off x) := keep_setTcb (plain_apart s) (Apart.refl s)

theorem apart_linkLast (s : State) (cl q tcb : Nat) : Apart s (s.linkLast cl q tcb) := by
  unfold State.linkLast
  split
  · exact keep_setTcb (plain_apart s) (apart_setTcb ..)
  · exact apart_setTcb ..

theorem ctx_append (s : State) (cl q tcb : Nat) {c : Nat} (hc : isX7 c = false) : (s.append cl q tcb).ctx c = s.ctx c := by
  rw [append_eq]
  exact (apart_linkLast ..).user c hc

/-! Sleepers. -/

/-- The links that a sleeper in the overflow list writes. -/
def State.linkSleeper (s : State) (cl tcb : Nat) : State :=
  match (s.cluster cl).sleepOver.getLast? with
  | some t => (s.setTcb cl tcb 0xC30 0).setTcb cl t.tcb 0xC30 (BitVec.ofNat 64 tcb)
  | none => s.setTcb cl tcb 0xC30 0

theorem addSleeper_eq (s : State) (cl tcb deadline : Nat) : s.addSleeper cl tcb deadline =
    if (s.cluster cl).sleepers.length < 256 then s.modCluster cl (fun c => { c with sleepers := c.sleepers ++ [{ tcb := tcb, deadline := deadline }] })
    else (s.linkSleeper cl tcb).modCluster cl (fun c => { c with sleepOver := c.sleepOver ++ [{ tcb := tcb, deadline := deadline }] }) := by
  by_cases h : (s.cluster cl).sleepers.length < 256
  · simp only [State.addSleeper, h, if_true]
  · cases hl : (s.cluster cl).sleepOver.getLast? with
    | none => simp only [State.addSleeper, State.linkSleeper, h, if_false, hl]
    | some t => simp only [State.addSleeper, State.linkSleeper, h, if_false, hl]

theorem apart_linkSleeper (s : State) (cl tcb : Nat) : Apart s (s.linkSleeper cl tcb) := by
  unfold State.linkSleeper
  split
  · exact keep_setTcb (plain_apart s) (apart_setTcb ..)
  · exact apart_setTcb ..

/-- A sleeper enters its dispatcher's sleep table, or the overflow list where that is full. -/
theorem addSleeper_ok (s : State) (cl tcb deadline : Nat) :
    (∀ c, isX7 c = false → (s.addSleeper cl tcb deadline).ctx c = s.ctx c) ∧
    ((s.addSleeper cl tcb deadline).cluster cl).sleepers = (s.cluster cl).sleepers ++
      (if (s.cluster cl).sleepers.length < 256 then [{ tcb := tcb, deadline := deadline }] else []) ∧
    ((s.addSleeper cl tcb deadline).cluster cl).sleepOver = (s.cluster cl).sleepOver ++
      (if 256 ≤ (s.cluster cl).sleepers.length then [{ tcb := tcb, deadline := deadline }] else []) := by
  rw [addSleeper_eq]
  by_cases h : (s.cluster cl).sleepers.length < 256
  · rw [if_pos h, cluster_modCluster_same, if_pos h, if_neg (by omega), List.append_nil]
    exact ⟨fun _ _ => rfl, rfl, rfl⟩
  · have ha := apart_linkSleeper s cl tcb
    rw [if_neg h, cluster_modCluster_same, if_neg h, if_pos (by omega), List.append_nil, (ha.cluster cl).sleepOver]
    exact ⟨fun c hc => ha.user c hc, (ha.cluster cl).sleepers, rfl⟩

/-! The end of a thread. -/

theorem far_exiting (s : State) : Far (fun t => t.exiting = s.exiting) where
  records := fun _ _ _ _ _ h => h
  upd := fun _ _ _ _ _ _ _ _ _ _ h => h
  mem := fun _ _ _ h => h
  queue := fun _ _ _ _ _ _ _ h _ _ => h
  cluster := fun _ _ _ h _ => h
  engine := fun _ _ _ h _ => h
  pkgKept := fun _ _ _ h _ => h
  pkg := fun _ _ _ h => h
  wake := fun _ _ h => h

theorem exiting_dropWait (s : State) (c : Nat) : (s.dropWait c).exiting = s.exiting := by
  have hl : ∀ l, (s.relink (clusterOf c) l (s.ctx c).tcb).exiting = s.exiting := fun l => keep_relink (far_exiting s).toPlain rfl
  unfold State.dropWait
  dsimp only
  split <;> split
  · exact rfl
  · exact hl _
  · exact rfl
  · exact hl _

theorem exiting_dropSleep (s : State) (sock tcb : Nat) : (s.dropSleep sock tcb).exiting = s.exiting := by
  refine foldl_keeps (p := fun t : State => t.exiting = s.exiting) (fun t d h => ?_) _ rfl
  dsimp only
  split
  · exact (keep_relink (far_exiting t).toPlain rfl : State.exiting _ = t.exiting).trans h
  · exact h

theorem exiting_releaseBinding (s : State) (cl tcb : Nat) : (s.releaseBinding cl tcb).exiting = s.exiting := by
  unfold State.releaseBinding
  split
  · exact keep_setTcb (far_exiting s).toPlain rfl
  · rfl

/-- The thread of a context leaves its group. -/
def State.ungroup (s : State) (c : Nat) : State :=
  match s.groupNo (clusterOf c) (s.ctx c).tcb with
  | some g => s.leaveGroup (clusterOf c / 64) g (s.ctx c).tcb
  | none => s

theorem exiting_ungroup (s : State) (c : Nat) : (s.ungroup c).exiting = s.exiting := by
  unfold State.ungroup
  split
  · exact keep_leaveGroup (far_exiting s) rfl
  · rfl

/-- What leaves a context with the thread that ends in it. -/
def State.unbound (s : State) (c : Nat) : State :=
  ((((s.ungroup c).dropSleep (clusterOf c / 64) (s.ctx c).tcb).dropWait c).releaseBinding (clusterOf c) (s.ctx c).tcb).holdEnds c

theorem exitThread_eq (s : State) (c : Nat) : s.exitThread c =
    { (s.unbound c).setCtx c (s.ctx c).ended with exiting := (s.unbound c).exiting ++ [{ tcb := (s.ctx c).tcb, cluster := clusterOf c }] } := rfl

theorem exiting_unbound (s : State) (c : Nat) : (s.unbound c).exiting = s.exiting :=
  calc (s.unbound c).exiting
    _ = ((((s.ungroup c).dropSleep (clusterOf c / 64) (s.ctx c).tcb).dropWait c).releaseBinding (clusterOf c) (s.ctx c).tcb).exiting :=
      keep_holdEnds (far_exiting _) rfl
    _ = s.exiting := by rw [exiting_releaseBinding, exiting_dropWait, exiting_dropSleep, exiting_ungroup]

/-- A thread that ends leaves its context vacant, with its registers, and waits for its stores. -/
theorem exitThread_ok (s : State) (c : Nat) : (s.exitThread c).ctx c = (s.ctx c).ended ∧
    (s.exitThread c).exiting = s.exiting ++ [{ tcb := (s.ctx c).tcb, cluster := clusterOf c }] := by
  rw [exitThread_eq, exiting_unbound]
  refine ⟨?_, rfl⟩
  show ((s.unbound c).setCtx c (s.ctx c).ended).ctx c = _
  rw [ctx_setCtx, if_pos rfl]

/-! The three instructions. -/

theorem exec_tyield (hc : Clear s) (hx : s.inX7 = false) (ho : s.outranked = true) :
    ∃ t, exec .tyield s = .next t ∧ t.ctx s.cur = Context.vacant ∧ (t.queue s.myCluster s.me.prio.toNat).getLast? = some s.me.tcb := by
  have he : exec .tyield s = retireThen s (fun t =>
      ((t.modMe (fun y => { y with qleft := 0 })).save t.cur 1).append t.myCluster t.me.prio.toNat t.me.tcb) := by
    show execTyield s = _
    rw [execTyield, hx, ho]
    rfl
  have hm : (s.retire 4).me = { s.me with pc := pcOf (s.pc + 4), stall := .none, attempt := 0 } := me_retireTo s (s.pc + 4)
  rw [he, retireThen_clear hc]
  refine ⟨_, rfl, ?_, ?_⟩
  · rw [ctx_append _ _ _ _ hx]
    exact ctx_save_same ..
  · rw [hm]
    exact getLast_queue_append ..

theorem exec_tsleep (hc : Clear s) (hx : s.inX7 = false) (a : Reg) :
    let e : Sleeper := { tcb := s.me.tcb, deadline := min (2 ^ 64 - 1) (s.clock * 5 / 16 + (s.readG a).toNat) }
    ∃ t, exec (.tsleep a) s = .next t ∧ t.ctx s.cur = Context.vacant ∧
      (t.cluster s.myCluster).sleepers = (s.cluster s.myCluster).sleepers ++
        (if s.readG a ≠ 0 ∧ (s.cluster s.myCluster).sleepers.length < 256 then [e] else []) ∧
      (t.cluster s.myCluster).sleepOver = (s.cluster s.myCluster).sleepOver ++
        (if s.readG a ≠ 0 ∧ 256 ≤ (s.cluster s.myCluster).sleepers.length then [e] else []) := by
  intro e
  have hm : (s.retire 4).me.tcb = s.me.tcb := by rw [State.retire, me_retireTo]
  have he : exec (.tsleep a) s = retireThen s (fun t => if (s.readG a).toNat = 0 then t.save t.cur 5 else
      (t.save t.cur 5).addSleeper t.myCluster t.me.tcb (min (2 ^ 64 - 1) (t.time + (s.readG a).toNat))) := by
    show execTsleep a s = _
    rw [execTsleep, hx]
    rfl
  have hk : SchedKept (s.cluster s.myCluster) (((s.retire 4).save s.cur 5).cluster s.myCluster) := sched_save (s.retire 4) s.cur 5 s.myCluster
  rw [he, retireThen_clear hc]
  refine ⟨_, rfl, ?_⟩
  by_cases h0 : (s.readG a).toNat = 0
  · have h0' : s.readG a = 0 := by simpa using (toNat_eq_zero_iff _).1 h0
    rw [if_pos h0]
    simp only [h0', ne_eq, not_true_eq_false, false_and, if_false, List.append_nil]
    exact ⟨ctx_save_same .., hk.sleepers, hk.sleepOver⟩
  · have h0' : s.readG a ≠ 0 := fun h => h0 (by rw [h]; rfl)
    rw [if_neg h0, hm]
    obtain ⟨h1, h2, h3⟩ := addSleeper_ok ((s.retire 4).save s.cur 5) s.myCluster s.me.tcb (min (2 ^ 64 - 1) ((s.retire 4).time + (s.readG a).toNat))
    rw [hk.sleepers] at h2 h3
    rw [hk.sleepOver] at h3
    simp only [h0', ne_eq, not_false_eq_true, true_and]
    exact ⟨(h1 _ hx).trans (ctx_save_same ..), h2, h3⟩

theorem exec_texit (hc : Clear s) (hx : s.inX7 = false) :
    ∃ t, exec .texit s = .next t ∧ t.ctx s.cur = { s.me.ended with pc := pcOf (s.pc + 4) } ∧
      (t.ctx s.cur).life = .vacant ∧ t.exiting = s.exiting ++ [{ tcb := s.me.tcb, cluster := s.myCluster }] := by
  have he : exec .texit s = retireThen s (fun t => t.exitThread t.cur) := by
    show execTexit s = _
    rw [execTexit, hx]
    rfl
  have hm : (s.retire 4).ctx s.cur = { s.me with pc := pcOf (s.pc + 4), stall := .none, attempt := 0 } := me_retireTo s (s.pc + 4)
  obtain ⟨h1, h2⟩ := exitThread_ok (s.retire 4) s.cur
  rw [hm] at h1 h2
  rw [he, retireThen_clear hc]
  exact ⟨_, rfl, h1, by rw [show (s.retire 4).cur = s.cur from rfl, h1]; rfl, h2⟩

/-- Settles O37: an instruction that ends the dispatch saves its thread, and what performing the thread's stores can reach
leaves the queues of the dispatchers alone. -/
theorem yieldSleepAndExit : Obligations.YieldSleepAndExit := by
  intro s a hc cl e
  refine ⟨fun hx i hi => ?_, fun hx => ⟨fun ho => ?_, fun ho => exec_tyield hc hx ho, exec_tsleep hc hx a, exec_texit hc hx⟩⟩
  · simp only [List.mem_cons, List.not_mem_nil, or_false] at hi
    rcases hi with rfl | rfl | rfl
    · show execTyield s = _
      rw [execTyield, if_pos hx]
      exact commit_clear hc s 4
    · show execTsleep a s = _
      rw [execTsleep, if_pos hx]
      exact commit_clear hc s 4
    · show execTexit s = _
      rw [execTexit, if_pos hx]
      exact commit_clear hc s 4
  · show execTyield s = _
    rw [execTyield, if_neg (by simp [hx]), if_neg (by simp [ho])]
    exact commit_clear hc s 4

end Sys2Proof.Machine
end

section
/-! PROOFS. A quantum that has run out (R31, R32, R38, R318). -/

namespace Sys2Proof.Machine

variable {s t : State}

/-! Another thread of the level. -/

theorem mem_ranked {cl : Nat} {e : Nat × Nat} : e ∈ s.ranked cl ↔ e.1 < 24 ∧ e.2 ∈ s.queue cl e.1 := by
  have hall : e ∈ ((List.range 24).map (23 - ·)).flatMap (fun q => (s.queue cl q).map (fun t => (q, t))) ↔ e.1 < 24 ∧ e.2 ∈ s.queue cl e.1 := by
    simp only [List.mem_flatMap, List.mem_map, List.mem_range]
    constructor
    · rintro ⟨q, ⟨k, hk, rfl⟩, u, hu, rfl⟩
      exact ⟨by show 23 - k < 24; omega, hu⟩
    · rintro ⟨h1, h2⟩
      exact ⟨e.1, ⟨23 - e.1, by omega, by omega⟩, e.2, h2, rfl⟩
  have hzero : e ∈ (s.queue cl 0).map (fun t => (0, t)) ↔ e.1 = 0 ∧ e.2 ∈ s.queue cl 0 := by
    rw [List.mem_map]
    constructor
    · rintro ⟨u, hu, rfl⟩
      exact ⟨rfl, hu⟩
    · rintro ⟨h1, h2⟩
      exact ⟨e.2, h2, by rw [← h1]⟩
  unfold State.ranked
  dsimp only
  rw [List.mem_append, List.mem_append, List.mem_filter, List.mem_filter, hall, hzero]
  constructor
  · rintro ((⟨h, -⟩ | ⟨h1, h2⟩) | ⟨h, -⟩)
    · exact h
    · rw [h1]
      exact ⟨by decide, h2⟩
    · exact h
  · rintro ⟨h1, h2⟩
    by_cases h0 : e.1 = 0
    · exact .inl (.inr ⟨h0, by rw [h0] at h2; exact h2⟩)
    · by_cases hl : s.level cl e.1 e.2 = 0
      · exact .inr ⟨⟨h1, h2⟩, by simp [h0, hl]⟩
      · exact .inl (.inl ⟨⟨h1, h2⟩, by simp [hl]⟩)

/-- A thread of an effective level stands in the queues and may be placed. -/
def State.peer (s : State) (cl level : Nat) : Prop :=
  ∃ k < 24, ∃ u ∈ s.queue cl k, s.level cl k u = level ∧ s.eligible cl cl k u = true

theorem ranked_any (s : State) (cl level : Nat) :
    (s.ranked cl).any (fun e => decide (s.level cl e.1 e.2 = level) && s.eligible cl cl e.1 e.2) = true ↔ s.peer cl level := by
  rw [List.any_eq_true]
  constructor
  · rintro ⟨e, he, hp⟩
    obtain ⟨h1, h2⟩ := mem_ranked.1 he
    simp only [Bool.and_eq_true, decide_eq_true_eq] at hp
    exact ⟨e.1, h1, e.2, h2, hp⟩
  · rintro ⟨k, hk, u, hu, hp⟩
    exact ⟨(k, u), mem_ranked.2 ⟨hk, hu⟩, by simpa using hp⟩

/-! A fresh quantum. -/

/-- A quantum that starts afresh. -/
theorem quantumExpiry_alone {c : Nat} (hr : (s.ctx c).life = .running) (hq : s.quantumLeft c = 0) (hx : isX7 c = false) (ht : (s.ctx c).tcb ≠ 0)
    (hp : ¬ s.peer (clusterOf c) (s.effective (clusterOf c) (s.ctx c).tcb)) :
    s.quantumExpiry c = (s.takeQuantum (clusterOf c / 64) (s.ctx c).tno (s.ctx c).prio.toNat).2.modCtx c (fun y =>
      { y with qleft := (s.takeQuantum (clusterOf c / 64) (s.ctx c).tno (s.ctx c).prio.toNat).1 }) := by
  rw [← ranked_any] at hp
  unfold State.quantumExpiry
  dsimp only
  rw [if_neg (by simp [hr, hq, hx, ht]), if_neg hp]

theorem takeQuantum_none {sock : Nat} (h : (s.pkg sock).qtabbase = 0) (tno : BitVec 12) (prio : Nat) : s.takeQuantum sock tno prio = (3200000, s) := if_pos h

/-- The quantum table read from memory. -/
theorem takeQuantum_read {sock : Nat} (h : (s.pkg sock).qtabbase ≠ 0) (tno : BitVec 12) (prio : Nat)
    (hb : s.tableBacked sock (wordOf (s.quantumAt sock tno prio)) = true) (hl : Legible s (wordOf (s.quantumAt sock tno prio)) 8) :
    s.takeQuantum sock tno prio = (quantumOf (s.quantumAt sock tno prio) (memWord s.mem (wordOf (s.quantumAt sock tno prio))), s) := by
  have ho := hl.word (Nat.le_refl _) (by omega)
  obtain ⟨hfl, hsl, her, -⟩ := hl
  unfold State.takeQuantum
  rw [if_neg h]
  dsimp only
  rw [readTable_exact hfl ho hsl (by rw [her]; rfl), State.tableWord, if_pos hb, peekWord_memory hfl ho]

theorem apart_takeQuantum (s : State) (sock : Nat) (tno : BitVec 12) (prio : Nat) : Apart s (s.takeQuantum sock tno prio).2 :=
  keep_takeQuantum (plain_apart s) (Apart.refl s)

/-! A thread behind its queue. -/

/-- A thread pre-empted: its context vacant, itself in the queue that it left for. -/
structure Requeued (c cl q tcb : Nat) (s : State) : Prop where
  ctx : s.ctx c = Context.vacant
  mem : tcb ∈ s.queue cl q

/-- A thread that still runs on its context. -/
structure Runs (c tcb : Nat) (prio : BitVec 5) (s : State) : Prop where
  tcb : (s.ctx c).tcb = tcb
  prio : (s.ctx c).prio = prio
  life : (s.ctx c).life ≠ .parked .cwait

theorem queue_setQueue_other (s : State) {cl q cl' q' : Nat} (l : List Nat) (h : ¬ (cl' = cl ∧ q' = q)) : (s.setQueue cl q l).queue cl' q' = s.queue cl' q' := by
  unfold State.queue State.setQueue
  rw [cluster_modCluster]
  split
  · next hc =>
    subst hc
    have hq : q' ≠ q := fun e => h ⟨rfl, e⟩
    dsimp only
    split
    · rw [tget, tfind_tdel, if_neg hq]
      rfl
    · rw [tget, tfind_tset_other _ _ hq]
      rfl
  · rfl

theorem SchedKept.queue (h : ∀ n, SchedKept (s.cluster n) (t.cluster n)) (cl q : Nat) : t.queue cl q = s.queue cl q := by
  rw [State.queue, (h cl).runq, State.queue]

theorem sched_linkLast (s : State) (cl q tcb n : Nat) : SchedKept (s.cluster n) ((s.linkLast cl q tcb).cluster n) := ((apart_linkLast s cl q tcb).cluster n).sched

/-- What stood in a queue still does, whatever is appended. -/
theorem mem_queue_append {cl q cl' q' tcb u : Nat} (h : u ∈ s.queue cl' q') : u ∈ (s.append cl q tcb).queue cl' q' := by
  by_cases he : cl' = cl ∧ q' = q
  · obtain ⟨rfl, rfl⟩ := he
    rw [queue_append]
    exact List.mem_append_left _ h
  · rw [append_eq, queue_setQueue_other _ _ he, SchedKept.queue (fun n => sched_linkLast s cl q tcb n)]
    exact h

/-- The record of a pre-emption. -/
def State.recorded (s : State) (c : Nat) : State := s.dispatchEvent (clusterOf c) 2 (s.ctx c).tcb (s.ctx c).tno (placeOf c) 0 0

theorem watched_recorded (s : State) (c : Nat) : Watched s (s.recorded c) := keep_dispatchEvent (plain_watched s).toQuiet (Watched.refl s)

/-- The wait of a context that a thread leaves, in its thread's name. -/
def State.renameWait (s : State) (cl c tcb : Nat) : State :=
  s.modCluster cl (fun k => { k with waits := k.waits.map (fun e => if e.who = .ctx c then { e with who := .thread tcb } else e) })

theorem watched_renameWait (s : State) (cl c tcb : Nat) : Watched s (s.renameWait cl c tcb) := watched_modCluster s cl fun _ => ⟨rfl, rfl, rfl, rfl, rfl⟩

theorem preemptOne_eq (s : State) (c : Nat) : s.preemptOne c =
    if (s.ctx c).life = .parked .cwait then ((s.recorded c).renameWait (clusterOf c) c (s.ctx c).tcb).save c 4
    else ((s.recorded c).save c 1).append (clusterOf c) (s.ctx c).prio.toNat (s.ctx c).tcb := rfl

theorem preemptOne_runs {c : Nat} (h : (s.ctx c).life ≠ .parked .cwait) : s.preemptOne c =
    ((s.recorded c).save c 1).append (clusterOf c) (s.ctx c).prio.toNat (s.ctx c).tcb := by rw [preemptOne_eq, if_neg h]

/-- A pre-emption leaves its context vacant and every other as it was, but for what performing its stores reaches. -/
theorem stays_preemptOne (s : State) (d : Nat) {c : Nat} (hc : isX7 c = false) :
    if c = d then (s.preemptOne d).ctx c = Context.vacant else Stays (s.ctx c) ((s.preemptOne d).ctx c) := by
  have hsave : ∀ (u : State) (k : Nat), Watched s u → if c = d then (u.save d k).ctx c = Context.vacant else Stays (s.ctx c) ((u.save d k).ctx c) := by
    intro u k hu
    split
    · next e =>
      rw [e]
      exact ctx_save_same u d k
    · next e => exact (hu.ctx c hc).trans (stays_save u d k hc e)
  rw [preemptOne_eq]
  by_cases hl : (s.ctx d).life = .parked .cwait
  · rw [if_pos hl]
    exact hsave _ 4 ((watched_recorded s d).trans (watched_renameWait ..))
  · rw [if_neg hl, ctx_append _ _ _ _ hc]
    exact hsave _ 1 (watched_recorded s d)

theorem mem_queue_preemptOne (d : Nat) {cl q u : Nat} (h : u ∈ s.queue cl q) : u ∈ (s.preemptOne d).queue cl q := by
  have hsave : ∀ (t : State) (k : Nat), Watched s t → u ∈ (t.save d k).queue cl q := fun t k ht => by
    rw [SchedKept.queue (s := s) (fun n => (ht.sched n).trans (sched_save t d k n))]
    exact h
  rw [preemptOne_eq]
  split
  · exact hsave _ 4 ((watched_recorded s d).trans (watched_renameWait ..))
  · exact mem_queue_append (hsave _ 1 (watched_recorded s d))

theorem Requeued.preemptOne {c cl q tcb : Nat} (hc : isX7 c = false) (h : Requeued c cl q tcb s) (d : Nat) : Requeued c cl q tcb (s.preemptOne d) := by
  refine ⟨?_, mem_queue_preemptOne d h.mem⟩
  have hs := stays_preemptOne s d hc
  split at hs
  · exact hs
  · exact hs.vacant h.ctx

theorem Runs.preemptOne {c tcb : Nat} {prio : BitVec 5} (hc : isX7 c = false) (h : Runs c tcb prio s) {d : Nat} (hd : c ≠ d) : Runs c tcb prio (s.preemptOne d) := by
  have hs := stays_preemptOne s d hc
  rw [if_neg hd] at hs
  exact ⟨hs.tcb.trans h.tcb, hs.prio.trans h.prio, hs.waits h.life⟩

theorem Runs.requeued {c tcb : Nat} {prio : BitVec 5} (hc : isX7 c = false) (h : Runs c tcb prio s) :
    Requeued c (clusterOf c) prio.toNat tcb (s.preemptOne c) ∧ ((s.preemptOne c).queue (clusterOf c) prio.toNat).getLast? = some tcb := by
  rw [preemptOne_runs h.life, h.tcb, h.prio]
  refine ⟨⟨?_, ?_⟩, getLast_queue_append ..⟩
  · rw [ctx_append _ _ _ _ hc]
    exact ctx_save_same ..
  · rw [queue_append]
    simp

/-- Of a group each member that has a context is pre-empted, a given one among them. -/
theorem requeued_members {c tcb : Nat} {prio : BitVec 5} (hc : isX7 c = false) : ∀ (ms : List Nat) (s : State),
    (Runs c tcb prio s ∧ c ∈ ms) ∨ Requeued c (clusterOf c) prio.toNat tcb s → Requeued c (clusterOf c) prio.toNat tcb (ms.foldl (fun s d => s.preemptOne d) s)
  | [], s, h => h.resolve_left fun h => by simp at h
  | d :: ms, s, h => by
    rw [List.foldl_cons]
    refine requeued_members hc ms _ ?_
    rcases h with ⟨h, hm⟩ | h
    · by_cases hd : c = d
      · subst hd
        exact .inr (h.requeued hc).1
      · exact .inl ⟨h.preemptOne hc hd, (List.mem_cons.1 hm).resolve_left hd⟩
    · exact .inr (h.preemptOne hc d)

theorem mem_userCtxs {c : Nat} (h : s.hasCtx c = true) (hx : isX7 c = false) : c ∈ s.userCtxs (clusterOf c) := by
  have hx : c % 8 ≠ 7 := by simpa [isX7] using hx
  refine List.mem_flatMap.2 ⟨coreOf c, List.mem_filter.2 ⟨List.mem_map.2 ⟨c / 8 % 8, List.mem_range.2 (by omega), ?_⟩, h⟩,
    List.mem_map.2 ⟨c % 8, List.mem_range.2 (by omega), ?_⟩⟩
  · show 8 * (c / 64) + c / 8 % 8 = c / 8
    omega
  · show 8 * (c / 8) + c % 8 = c
    omega

/-- A quantum that is over where another thread of the level waits: the thread goes behind its queue. -/
theorem preempt_ok {c : Nat} (hc : s.hasCtx c = true) (hx : isX7 c = false) (hr : (s.ctx c).life = .running) (ht : (s.ctx c).tcb ≠ 0) :
    Requeued c (clusterOf c) (s.ctx c).prio.toNat (s.ctx c).tcb (s.preempt c) ∧
      (s.groupNo (clusterOf c) (s.ctx c).tcb = none → ((s.preempt c).queue (clusterOf c) (s.ctx c).prio.toNat).getLast? = some (s.ctx c).tcb) := by
  have hruns : Runs c (s.ctx c).tcb (s.ctx c).prio s := ⟨rfl, rfl, by rw [hr]; decide⟩
  cases hg : s.groupNo (clusterOf c) (s.ctx c).tcb with
  | none =>
    have he : s.preempt c = s.preemptOne c := by
      unfold State.preempt
      dsimp only
      rw [hg]
    rw [he]
    exact ⟨(hruns.requeued hx).1, fun _ => (hruns.requeued hx).2⟩
  | some g =>
    refine ⟨?_, fun h => by cases h⟩
    unfold State.preempt
    dsimp only
    rw [hg]
    refine requeued_members hx _ s (.inl ⟨hruns, List.mem_filter.2 ⟨mem_userCtxs hc hx, ?_⟩⟩)
    simp [hg, hr, ht]

theorem ctx_dispatchCycle (s : State) (core c : Nat) : ((s.dispatchCycle core).ctx c).qleft =
    if c / 8 = core ∧ isX7 c = false ∧ (s.ctx c).life = .running then (s.ctx c).qleft - 1 else (s.ctx c).qleft := by
  unfold State.dispatchCycle
  dsimp only
  have hctx : (s.chargeSlot core).ctx c = s.ctx c := by unfold State.ctx; rw [ctxs_chargeSlot]
  rw [← hctx, show ((((s.chargeSlot core).countDown core).modCore core _).advance _).ctx c = ((s.chargeSlot core).countDown core).ctx c by
    unfold State.ctx; rw [ctxs_advance, ctxs_modCore], ctx_countDown]
  split <;> rfl

/-- Settles O48: the quantum's end is a pre-emption, or the quantum table's word. -/
theorem quantumExpiry : Obligations.QuantumExpiry := by
  intro s c hc hx ht x home level peer base row fresh goesOn
  have hexec : exec (.quantumExpiry c) s = .next (s.quantumExpiry c) := rfl
  refine ⟨fun h => ?_, fun hr hq => ⟨fun hp => ?_, fun hp => ?_⟩, fun core => ⟨s.dispatchCycle core, rfl, ?_⟩⟩
  · have he : s.quantumExpiry c = s := by
      unfold State.quantumExpiry
      exact if_pos (by tauto)
    rw [hexec, he]
  · have he := quantumExpiry_alone hr hq hx ht hp
    refine ⟨fun hb => ?_, fun hb hbk hl => ?_, ⟨_, rfl, ?_⟩⟩
    · show exec _ s = _
      rw [hexec, he, takeQuantum_none hb]
    · show exec _ s = _
      rw [hexec, he, takeQuantum_read hb _ _ hbk hl]
      rfl
    · show (s.quantumExpiry c).ctx c = { x with qleft := ((s.quantumExpiry c).ctx c).qleft }
      rw [he, ctx_modCtx_same, (apart_takeQuantum ..).user c hx]
  · have he : s.quantumExpiry c = (s.modCtx c (fun x => { x with qleft := 0 })).preempt c := by
      have hp : s.peer (clusterOf c) (s.effective (clusterOf c) (s.ctx c).tcb) := hp
      rw [← ranked_any] at hp
      unfold State.quantumExpiry
      dsimp only
      rw [if_neg (by simp [show (s.ctx c).life = .running from hr, hq, hx, ht]), if_pos hp]
    obtain ⟨h1, h2⟩ := preempt_ok (s := s.modCtx c (fun x => { x with qleft := 0 })) (c := c) hc hx (by rw [ctx_modCtx_same]; exact hr)
      (by rw [ctx_modCtx_same]; exact ht)
    rw [ctx_modCtx_same] at h1 h2
    refine ⟨_, rfl, ?_⟩
    show (s.quantumExpiry c).ctx c = _ ∧ x.tcb ∈ (s.quantumExpiry c).queue home x.prio.toNat ∧
      (_ → ((s.quantumExpiry c).queue home x.prio.toNat).getLast? = some x.tcb)
    rw [he]
    exact ⟨h1.ctx, h1.mem, h2⟩
  · rw [ctx_dispatchCycle]
    simp only [hx, true_and]
    rfl

end Sys2Proof.Machine
end

section
/-! PROOFS. Tile registers: the physical tile that an instruction takes, what it leaves at its retirement, and what a new
content changes (R225, R226, R349). -/

namespace Sys2Proof.Machine

variable {s t u : State} {e b k : Nat} {α β : Type}

/-- Tile registers, context and memory are the same. -/
structure TileSame (e : Nat) (s t : State) : Prop where
  cur : t.cur = s.cur
  me : t.me = s.me
  mem : t.mem = s.mem
  cores : t.cores = s.cores
  accs : t.accs = s.accs
  macc : ∀ j, (t.binding e j).acc = (s.binding e j).acc
  mopd : ∀ j, (t.binding e j).opd = (s.binding e j).opd
  acc : (t.engine e).acc = (s.engine e).acc
  opd : (t.engine e).opd = (s.engine e).opd

theorem TileSame.refl (e : Nat) (s : State) : TileSame e s s := ⟨rfl, rfl, rfl, rfl, rfl, fun _ => rfl, fun _ => rfl, rfl, rfl⟩

theorem TileSame.trans (h : TileSame e s t) (g : TileSame e t u) : TileSame e s u :=
  ⟨g.cur.trans h.cur, g.me.trans h.me, g.mem.trans h.mem, g.cores.trans h.cores, g.accs.trans h.accs, fun j => (g.macc j).trans (h.macc j),
    fun j => (g.mopd j).trans (h.mopd j), g.acc.trans h.acc, g.opd.trans h.opd⟩

theorem TileSame.accTile (h : TileSame e s t) (b : Nat) (n : BitVec 2) : t.accTile e b n = s.accTile e b n := by
  unfold State.accTile Binding.map
  dsimp only
  rw [h.acc, h.macc]

theorem TileSame.opTile (h : TileSame e s t) (b : Nat) (n : BitVec 3) : t.opTile e b n = s.opTile e b n := by
  unfold State.opTile Binding.map
  dsimp only
  rw [h.opd, h.mopd]

theorem Noted.tiles (h : Noted s t) (e : Nat) : TileSame e s t := by
  obtain ⟨a, b, c, d, rfl⟩ := h
  exact ⟨rfl, rfl, rfl, rfl, rfl, fun _ => rfl, fun _ => rfl, rfl, rfl⟩

/-- An engine changed in other respects than its tiles. -/
theorem tiles_modEngine (s : State) {f : Engine → Engine} (hm : ∀ j, (tget (f (s.engine e)).bindings j Binding.none).acc = (s.binding e j).acc)
    (ho : ∀ j, (tget (f (s.engine e)).bindings j Binding.none).opd = (s.binding e j).opd) (ha : (f (s.engine e)).acc = (s.engine e).acc)
    (hp : (f (s.engine e)).opd = (s.engine e).opd) : TileSame e s (s.modEngine e f) where
  cur := rfl
  me := rfl
  mem := rfl
  cores := rfl
  accs := rfl
  macc := fun j => by
    rw [State.binding, engine_modEngine_same]
    exact hm j
  mopd := fun j => by
    rw [State.binding, engine_modEngine_same]
    exact ho j
  acc := by
    rw [engine_modEngine_same]
    exact ha
  opd := by
    rw [engine_modEngine_same]
    exact hp

theorem tiles_forget (s : State) (e c : Nat) : TileSame e s (s.modEngine e (fun x => x.forget c)) := tiles_modEngine s (fun _ => rfl) (fun _ => rfl) rfl rfl

/-! What an instruction leaves at its retirement. -/

/-- An instruction that retires raises its flags and leaves its engine; all else are records. -/
theorem tileDone_noted (s : State) (e lop : Nat) (g : BitVec 5) (nj : Nat) (held : Bool) : ∃ u, Noted (s.raise g) u ∧
    (Noted u (s.tileDone e lop g nj held) ∨ Noted (u.modEngine e (fun x => x.forget u.cur)) (s.tileDone e lop g nj held)) := by
  have hcount : Noted (s.raise g) ((List.range 5).foldl (fun s k => if g.getLsbD k then s.countEngine e k else s) (s.raise g)) := by
    refine foldl_keeps (p := Noted (s.raise g)) (fun t k h => ?_) _ (Noted.refl _)
    split
    · exact keep_addCtr (quiet_noted _) h
    · exact h
  have hrest : ∀ u : State, Noted u ((u.draw.2).event (efcOfCluster (e / 4)) 2 (8 + e % 4) u.me.tno (placeOf u.cur) 0 u.pc
      (BitVec.ofNat 64 (lop + (Config.latency u.draw.1).toNat % 65536 * 2 ^ 6 + (if held then 2 ^ 22 else 0)))) := fun u =>
    keep_event (quiet_noted u) (keep_draw (quiet_noted u) (Noted.refl u))
  unfold State.tileDone
  dsimp only
  split
  · exact ⟨_, keep_debit (quiet_noted _) hcount, .inr (hrest _)⟩
  · exact ⟨_, keep_debit (quiet_noted _) hcount, .inl (hrest _)⟩

theorem tiles_tileDone (s : State) (e lop : Nat) (g : BitVec 5) (nj : Nat) (held : Bool) : TileSame e (s.raise g) (s.tileDone e lop g nj held) := by
  obtain ⟨u, hu, h | h⟩ := tileDone_noted s e lop g nj held
  · exact (hu.tiles e).trans (h.tiles e)
  · exact ((hu.tiles e).trans (tiles_forget u e _)).trans (h.tiles e)

theorem clusters_tileDone (s : State) (e lop : Nat) (g : BitVec 5) (nj : Nat) (held : Bool) : (s.tileDone e lop g nj held).clusters = s.clusters := by
  obtain ⟨u, ⟨_, _, _, _, rfl⟩, ⟨_, _, _, _, h⟩ | ⟨_, _, _, _, h⟩⟩ := tileDone_noted s e lop g nj held
  · rw [h]
    rfl
  · rw [h]
    rfl

/-! The physical tile that an instruction takes. -/

theorem grantTiles_granted : ∀ (l : List Issue) (s : State), (∀ i ∈ l, i.tile.isSome = true) → grantTiles e l s = s
  | [], _, _ => rfl
  | i :: l, s, h => by
    unfold grantTiles
    simp only [h i List.mem_cons_self, if_true]
    exact grantTiles_granted l s fun j hj => h j (List.mem_cons_of_mem _ hj)

theorem lend_bindings (x : Engine) (acc : Bool) (v : Option Nat) (j : Nat) :
    (tget (x.lend acc v).bindings j Binding.none).acc = (tget x.bindings j Binding.none).acc ∧
      (tget (x.lend acc v).bindings j Binding.none).opd = (tget x.bindings j Binding.none).opd := by
  unfold Engine.lend
  dsimp only
  rw [tget, tfind_tmap, tget]
  cases tfind x.bindings j with
  | none => exact ⟨rfl, rfl⟩
  | some y =>
    cases acc
    · exact ⟨rfl, rfl⟩
    · exact ⟨rfl, rfl⟩

theorem tiles_lend (s : State) (e : Nat) (acc : Bool) (v : Option Nat) : TileSame e s (s.modEngine e (fun _ => (s.engine e).lend acc v)) :=
  tiles_modEngine s (fun j => (lend_bindings _ acc v j).1) (fun j => (lend_bindings _ acc v j).2) rfl rfl

/-- A free physical tile is taken. -/
theorem takeTile_ok {x y : Engine} {acc : Bool} (h : x.takeTile acc b = some (k, y)) : k ∈ x.freeTiles acc ∧ ∃ v, y = x.lend acc v := by
  unfold Engine.takeTile at h
  dsimp only at h
  split at h
  · next j hj =>
    simp only [Option.some.injEq, Prod.mk.injEq] at h
    obtain ⟨rfl, rfl⟩ := h
    exact ⟨List.mem_of_getElem? hj, none, rfl⟩
  · split at h
    · cases hh : (x.freeTiles acc).head? with
      | none => rw [hh] at h; cases h
      | some j =>
        rw [hh] at h
        simp only [Option.map_some, Option.some.injEq, Prod.mk.injEq] at h
        obtain ⟨rfl, rfl⟩ := h
        exact ⟨List.mem_of_mem_head? (by rw [hh]; rfl), some b, rfl⟩
    · cases h

/-- An instruction of a binding has taken a free physical tile. -/
structure Leased (s u : State) (e b : Nat) (acc : Bool) (k : Nat) : Prop where
  same : TileSame e s u
  clusters : u.clusters = s.clusters
  energy : u.energy = s.energy
  clock : u.clock = s.clock
  issue : (u.engine e).issue = (s.engine e).issue
  free : k ∈ (s.engine e).freeTiles acc

/-- A tile that is free is mapped by no binding. -/
theorem Leased.unmapped {acc : Bool} (h : Leased s u e b acc k) : k ∉ (if acc then (s.binding e b).acc else (s.binding e b).opd) := by
  intro hk
  have hu : k ∉ (s.engine e).usedTiles acc := by
    have := (List.mem_filter.1 h.free).2
    simpa using this
  unfold Engine.usedTiles at hu
  simp only [List.mem_append, not_or] at hu
  refine hu.1.1 (List.mem_flatMap.2 ?_)
  unfold State.binding tget at hk
  cases hf : tfind (s.engine e).bindings b with
  | none =>
    rw [hf] at hk
    cases acc <;> simp [Binding.none] at hk
  | some y =>
    rw [hf] at hk
    exact ⟨(b, y), mem_of_tfind hf, hk⟩

theorem freshTile_ok {acc : Bool} (h : TileReady s e b acc) : ∃ k u, freshTile e b acc s = .ok k u ∧ Leased s u e b acc k := by
  obtain ⟨hi, hn, ht⟩ := h
  obtain ⟨⟨k, y⟩, hky⟩ := Option.isSome_iff_exists.1 ht
  obtain ⟨hk, v, rfl⟩ := takeTile_ok hky
  refine ⟨k, s.modEngine e (fun _ => (s.engine e).lend acc v), ?_, ⟨tiles_lend s e acc v, rfl, rfl, rfl, by rw [engine_modEngine_same]; rfl, hk⟩⟩
  unfold freshTile
  rw [modify_bind, grantTiles_granted _ _ hi, get_bind, hn, hky]
  rfl

/-- The binding of a bound thread. -/
theorem bound_ok (h : BoundAt s e b) : bound s = .ok (e, b) s := by
  obtain ⟨hx, ht, ha, he, hh, -⟩ := h
  unfold bound
  have ha : ¬ s.tcbWord s.myCluster s.me.tcb 0xC28 = 0 := ha
  rw [get_bind, he, hh]
  simp only [hx, ht, ha, Bool.false_eq_true, if_false, decide_false, Bool.false_or, beq_iff_eq]
  rfl

/-! A tile register's new content. -/

theorem binding_modBinding_same (s : State) (e b : Nat) (f : Binding → Binding) : (s.modBinding e b f).binding e b = f (s.binding e b) := by
  unfold State.binding State.modBinding
  rw [engine_modEngine_same, tget_tset, if_pos rfl]

theorem binding_setAccTile (s : State) (e b : Nat) (n : BitVec 2) (k : Nat) (x : AccTile) :
    (s.setAccTile e b n k x).binding e b = { s.binding e b with acc := (s.binding e b).acc.set n.toNat k } := by
  unfold State.setAccTile
  dsimp only
  rw [State.binding, engine_modEngine_same]
  exact binding_modBinding_same s e b _

theorem binding_setOpTile (s : State) (e b : Nat) (n : BitVec 3) (k : Nat) (x : OpTile) :
    (s.setOpTile e b n k x).binding e b = { s.binding e b with opd := (s.binding e b).opd.set n.toNat k } := by
  unfold State.setOpTile
  dsimp only
  rw [State.binding, engine_modEngine_same]
  exact binding_modBinding_same s e b _

theorem engine_setAccTile (s : State) (e b : Nat) (n : BitVec 2) (k : Nat) (x : AccTile) :
    ((s.setAccTile e b n k x).engine e).acc = tset (tdel (s.engine e).acc ((s.binding e b).map (.a n)).2) k x ∧
      ((s.setAccTile e b n k x).engine e).opd = (s.engine e).opd := by
  unfold State.setAccTile State.modBinding
  dsimp only
  rw [engine_modEngine_same, engine_modEngine_same]
  exact ⟨rfl, rfl⟩

theorem engine_setOpTile (s : State) (e b : Nat) (n : BitVec 3) (k : Nat) (x : OpTile) :
    ((s.setOpTile e b n k x).engine e).opd = tset (tdel (s.engine e).opd ((s.binding e b).map (.t n)).2) k x ∧
      ((s.setOpTile e b n k x).engine e).acc = (s.engine e).acc := by
  unfold State.setOpTile State.modBinding
  dsimp only
  rw [engine_modEngine_same, engine_modEngine_same]
  exact ⟨rfl, rfl⟩

/-- Of a map with one number replaced: the number there, and elsewhere. -/
theorem getD_set_same {l : List Nat} {n k : Nat} (h : n < l.length) : (l.set n k).getD n 0 = k := by simp [List.getD, h]

theorem getD_set_other {l : List Nat} {n j k : Nat} (h : j ≠ n) : (l.set n k).getD j 0 = l.getD j 0 := by simp [List.getD, List.getElem?_set_ne h.symm]

theorem getD_mem {l : List Nat} {n : Nat} (h : n < l.length) : l.getD n 0 ∈ l := by
  rw [List.getD_eq_getElem _ _ h]
  exact List.getElem_mem h

theorem getD_ne {l : List Nat} (hl : l.Nodup) {n j : Nat} (hn : n < l.length) (hj : j < l.length) (h : j ≠ n) : l.getD j 0 ≠ l.getD n 0 := by
  rw [List.getD_eq_getElem _ _ hn, List.getD_eq_getElem _ _ hj]
  exact fun he => h ((List.Nodup.getElem_inj_iff hl).1 he)

theorem tget_moved {γ : Type} {t : Tbl γ} {old j k : Nat} {x d : γ} (h1 : j ≠ old) (h2 : j ≠ k) : tget (tset (tdel t old) k x) j d = tget t j d := by
  rw [tget_tset, if_neg h2, tget, tfind_tdel, if_neg h1, tget]

theorem accTile_setAccTile (n j : BitVec 2) (x : AccTile) (hl : (s.binding e b).acc.length = 4) (hd : (s.binding e b).acc.Nodup) (hk : k ∉ (s.binding e b).acc) :
    (s.setAccTile e b n k x).accTile e b j = if j = n then x else s.accTile e b j := by
  have hn : n.toNat < (s.binding e b).acc.length := by omega
  have hj : j.toNat < (s.binding e b).acc.length := by omega
  unfold State.accTile
  rw [binding_setAccTile, (engine_setAccTile ..).1]
  unfold Binding.map
  dsimp only
  split
  · next he =>
    rw [he, getD_set_same hn, tget_tset, if_pos rfl]
  · next he =>
    have he : j.toNat ≠ n.toNat := fun h => he (BitVec.eq_of_toNat_eq h)
    rw [getD_set_other he]
    exact tget_moved (getD_ne hd hn hj he) fun h => hk (h ▸ getD_mem hj)

theorem opTile_setAccTile (n : BitVec 2) (j : BitVec 3) (x : AccTile) : (s.setAccTile e b n k x).opTile e b j = s.opTile e b j := by
  unfold State.opTile
  rw [binding_setAccTile, (engine_setAccTile ..).2]
  rfl

theorem opTile_setOpTile (n j : BitVec 3) (x : OpTile) (hl : (s.binding e b).opd.length = 8) (hd : (s.binding e b).opd.Nodup) (hk : k ∉ (s.binding e b).opd) :
    (s.setOpTile e b n k x).opTile e b j = if j = n then x else s.opTile e b j := by
  have hn : n.toNat < (s.binding e b).opd.length := by omega
  have hj : j.toNat < (s.binding e b).opd.length := by omega
  unfold State.opTile
  rw [binding_setOpTile, (engine_setOpTile ..).1]
  unfold Binding.map
  dsimp only
  split
  · next he =>
    rw [he, getD_set_same hn, tget_tset, if_pos rfl]
  · next he =>
    have he : j.toNat ≠ n.toNat := fun h => he (BitVec.eq_of_toNat_eq h)
    rw [getD_set_other he]
    exact tget_moved (getD_ne hd hn hj he) fun h => hk (h ▸ getD_mem hj)

theorem accTile_setOpTile (n : BitVec 3) (j : BitVec 2) (x : OpTile) : (s.setOpTile e b n k x).accTile e b j = s.accTile e b j := by
  unfold State.accTile
  rw [binding_setOpTile, (engine_setOpTile ..).2]
  rfl

/-! An instruction that gives a tile register new content. -/

/-- An instruction as it begins: no access of it has been noted. -/
def State.begun (s : State) : State := { s with accs := [] }

/-- What an instruction of a binding leaves, before it retires, of the registers of its context. -/
structure TileEnds (s t : State) (fl : BitVec 5) : Prop where
  cur : t.cur = s.cur
  me : t.me = { s.me with fst := s.me.fst ||| fl }
  mem : t.mem = s.mem
  cores : t.cores = s.cores
  accs : t.accs = []

theorem TileEnds.clear {fl : BitVec 5} (h : TileEnds s t fl) (hc : Clear s) : t.matchOf t.accs = none := by
  rw [h.accs]
  refine matchOf_nil (s := t) ?_
  have hp : (t.ctx t.cur).pc = (s.ctx s.cur).pc := by
    show t.me.pc = s.me.pc
    rw [h.me]
  show t.breakHit t.cur = false
  unfold State.breakHit State.core
  rw [hp, h.cores, h.cur]
  exact hc

/-- An instruction of a binding that ends as it should retires. -/
theorem TileEnds.retires {fl : BitVec 5} (h : TileEnds s t fl) (hc : Clear s) {m : Act Unit} (hm : m s.begun = .ok () t) :
    runAct s 8 m = .next (t.begun.retire 8) ∧ TileRetires s (t.begun.retire 8) fl := by
  have hme : (t.begun.retire 8).me = { t.me with pc := pcOf (t.pc + 8), stall := .none, attempt := 0 } := me_retireTo t.begun _
  refine ⟨runAct_ok hm (h.clear hc), ?_, ?_⟩
  · show (t.begun.retire 8).me.pc = _
    rw [hme, State.pc, h.me]
    rfl
  · rw [hme, h.me]
    exact ⟨rfl, rfl, rfl, rfl, rfl, h.mem⟩

/-- What an instruction makes of the machine and its tiles, as it retires with its flags. -/
theorem TileSame.ends {fl : BitVec 5} {v : State} (h : TileSame e (v.raise fl) t) (hcur : v.cur = s.cur) (hme : v.me = s.me) (hmem : v.mem = s.mem)
    (hcores : v.cores = s.cores) (ha : v.accs = []) : TileEnds s t fl where
  cur := h.cur.trans hcur
  me := by
    rw [h.me, State.raise, me_modMe, hme]
  mem := h.mem.trans hmem
  cores := h.cores.trans hcores
  accs := h.accs.trans ha

/-- An instruction that writes an accumulator, as its effect says, whatever happens to it as it waits (R225). -/
theorem writesAcc_ends (hc : Clear s) (hb : BoundAt s e b) {i : Instr} {m : Act Unit} {n : BitVec 2} {P : AccTile → BitVec 5 → Prop} {fl : BitVec 5} {new : AccTile}
    (hexec : ∀ t : State, runAct s 8 m = .next (t.begun.retire 8) → exec i s = .next (t.begun.retire 8)) (hp : P new fl)
    (hm : TileReady s e b true → ∀ k u, freshTile e b true s.begun = .ok k u → Leased s.begun u e b true k →
      ∃ F, m s.begun = guarded (modify F) u ∧ TileSame e ((u.setAccTile e b n k new).raise fl) (F u)) : WritesAcc s e b i n P := by
  intro hr
  obtain ⟨k, u, hf, hl⟩ := freshTile_ok (s := s.begun) hr
  obtain ⟨F, hF, ht⟩ := hm hr k u hf hl
  have hends : TileEnds s (F u) fl := ht.ends hl.same.cur hl.same.me hl.same.mem hl.same.cores hl.same.accs
  obtain ⟨-, -, -, -, -, hacc, hopd, hna, hno⟩ := hb
  have hk : k ∉ (u.binding e b).acc := by
    rw [hl.same.macc]
    exact hl.unmapped
  have hta : ∀ j, (F u).accTile e b j = if j = n then new else s.accTile e b j := fun j => by
    have hs : u.accTile e b j = s.accTile e b j := hl.same.accTile b j
    rw [ht.accTile, ← hs]
    exact accTile_setAccTile n j new (by rw [hl.same.macc]; exact hacc) (by rw [hl.same.macc]; exact hna) hk
  obtain ⟨h1, h2⟩ := hends.retires hc (m := m) (by rw [hF]; exact guarded_ok rfl (hends.clear hc))
  refine ⟨_, fl, hexec _ h1, h2, ?_, fun j hj => ?_, fun j => ?_⟩
  · have he : ((F u).begun.retire 8).accTile e b n = new := (hta n).trans (if_pos rfl)
    rw [he]
    exact hp
  · exact (hta j).trans (if_neg hj)
  · exact (ht.opTile b j).trans ((opTile_setAccTile n j new).trans (hl.same.opTile b j))

/-- An instruction that writes an accumulator, as its effect says (R225). -/
theorem writesAcc_of (hc : Clear s) (hb : BoundAt s e b) {i : Instr} {m : Act Unit} {n : BitVec 2} {P : AccTile → BitVec 5 → Prop} {fl : BitVec 5} {new : AccTile}
    (hexec : exec i s = runAct s 8 m) (hp : P new fl)
    (hm : TileReady s e b true → ∀ k u, freshTile e b true s.begun = .ok k u → Leased s.begun u e b true k →
      ∃ F, m s.begun = guarded (modify F) u ∧ TileSame e ((u.setAccTile e b n k new).raise fl) (F u)) : WritesAcc s e b i n P :=
  writesAcc_ends hc hb (fun _ h => hexec.trans h) hp hm

/-- An instruction that writes an operand tile. -/
theorem writesOpd_of (hc : Clear s) (hb : BoundAt s e b) {i : Instr} {m : Act Unit} {n : BitVec 3} {P : OpTile → BitVec 5 → Prop} {fl : BitVec 5} {new : OpTile}
    (hexec : exec i s = runAct s 8 m) (hp : P new fl)
    (hm : TileReady s e b false → ∀ k u, freshTile e b false s.begun = .ok k u → Leased s.begun u e b false k →
      ∃ F, m s.begun = guarded (modify F) u ∧ TileSame e ((u.setOpTile e b n k new).raise fl) (F u)) : WritesOpd s e b i n P := by
  intro hr
  obtain ⟨k, u, hf, hl⟩ := freshTile_ok (s := s.begun) hr
  obtain ⟨F, hF, ht⟩ := hm hr k u hf hl
  have hends : TileEnds s (F u) fl := ht.ends hl.same.cur hl.same.me hl.same.mem hl.same.cores hl.same.accs
  obtain ⟨-, -, -, -, -, hacc, hopd, hna, hno⟩ := hb
  have hk : k ∉ (u.binding e b).opd := by
    rw [hl.same.mopd]
    exact hl.unmapped
  have hto : ∀ j, (F u).opTile e b j = if j = n then new else s.opTile e b j := fun j => by
    have hs : u.opTile e b j = s.opTile e b j := hl.same.opTile b j
    rw [ht.opTile, ← hs]
    exact opTile_setOpTile n j new (by rw [hl.same.mopd]; exact hopd) (by rw [hl.same.mopd]; exact hno) hk
  obtain ⟨h1, h2⟩ := hends.retires hc (m := m) (by rw [hF]; exact guarded_ok rfl (hends.clear hc))
  refine ⟨_, fl, hexec.trans h1, h2, ?_, fun j hj => ?_, fun j => ?_⟩
  · have he : ((F u).begun.retire 8).opTile e b n = new := (hto n).trans (if_pos rfl)
    rw [he]
    exact hp
  · exact (hto j).trans (if_neg hj)
  · exact (ht.accTile b j).trans ((accTile_setOpTile n j new).trans (hl.same.accTile b j))

end Sys2Proof.Machine
end

section
/-! PROOFS. Words that a cluster owns, as its units write them (R102, R104, R107). -/

namespace Sys2Proof.Machine

variable {s t : State} {cl pa : Nat}

/-- A word in another state than I stands in a line that the cluster holds. -/
theorem held_of_word (h : (s.clWord cl pa).st ≠ .i) : ∃ l, tfind (s.cluster cl).clc (lineOf pa) = some l := by
  cases hf : tfind (s.cluster cl).clc (lineOf pa) with
  | some l => exact ⟨l, rfl⟩
  | none =>
    refine absurd ?_ h
    unfold State.clWord State.clLine
    rw [show tget (s.cluster cl).clc (lineOf pa) CacheLine.absent = CacheLine.absent by rw [tget, hf]; rfl]
    rfl

theorem makeRoom_held {a : Agent} {line : Nat} {l : CacheLine} (h : tfind (s.cluster a.cl).clc line = some l) : s.makeRoom a line = s := by
  unfold State.makeRoom
  rw [h]

theorem makeRoom_word (a : Agent) (h : (s.clWord a.cl pa).st ≠ .i) : s.makeRoom a (lineOf pa) = s := by
  obtain ⟨l, hl⟩ := held_of_word h
  exact makeRoom_held hl

/-- A word without an error is read as it stands. -/
theorem scrub_sound (hb : (s.clWord cl pa).bad = false) (h1 : (s.clWord cl pa).single = false) : s.scrub cl pa = s := by
  unfold State.scrub State.mend
  simp [hb, h1]

/-- A single-bit error of an owned word is corrected; the word stays, and no other changes. -/
theorem scrub_owned_word (ho : (s.clWord cl pa).st = .o) (hb : (s.clWord cl pa).bad = false) :
    (s.scrub cl pa).clWord cl pa = { s.clWord cl pa with single := false } := by
  have he : s.scrub cl pa = s.mend cl pa := by
    unfold State.scrub
    simp [hb]
  rw [he]
  unfold State.mend
  split
  · exact clWord_setClWord_same s cl pa (x := { s.clWord cl pa with single := false }) fun h => by
      rw [show ({ s.clWord cl pa with single := false } : CacheWord).st = .o from ho] at h; cases h
  · next h =>
    cases hw : s.clWord cl pa with
    | mk st data mask tno origin pc rel single bad =>
      rw [hw] at h
      have : single = false := by simpa using h
      rw [this]

/-- An owned word without an uncorrectable error is obtained as it stands. -/
theorem obtain_whole_word (a : Agent) (hc : a.cl = cl) (ho : (s.clWord cl pa).st = .o) (hb : (s.clWord cl pa).bad = false) (h1 : (s.clWord cl pa).single = false) :
    Machine.obtain a pa s = .ok (s.clWord cl pa).data s := by
  unfold Machine.obtain
  rw [modify_bind, hc, scrub_sound hb h1, get_bind]
  simp only [ho, hb, if_true, Bool.false_eq_true, if_false]
  rfl

/-- An owned word written whole by a unit of its cluster. -/
theorem clWrite_whole (a : Agent) (hc : a.cl = cl) (ho : (s.clWord cl pa).st = .o) (hb : (s.clWord cl pa).bad = false) (x : Word) :
    clWrite a .own pa x 255#8 none s =
      .ok () (((s.scrub cl pa).setClWord cl pa { CacheWord.absent with st := .o, data := x }).markRecheck cl (lineOf pa)) := by
  have hw := scrub_owned_word ho hb
  have hs : ((s.scrub cl pa).clWord cl pa).st = .o := by
    rw [hw]
    exact ho
  have hob := obtain_whole_word a hc hs (by rw [hw]; exact hb) (by rw [hw])
  have hr : (s.scrub cl pa).makeRoom a (lineOf pa) = s.scrub cl pa := makeRoom_word a (by rw [hc, hs]; decide)
  have hwhole : obtainWhole a pa (s.scrub cl pa) = .ok () (s.scrub cl pa) := by
    unfold obtainWhole
    rw [hob]
  subst hc
  unfold clWrite
  rw [modify_bind, get_bind]
  dsimp only
  rw [if_pos rfl, bind_ok hwhole, modify_bind, hr]
  rfl

/-- A unit's word written where its cluster owns it. -/
theorem writeUnit_owned (sbit : Nat) (ho : (s.clWord cl pa).st = .o) (hb : (s.clWord cl pa).bad = false) (x : Word) :
    s.writeUnit cl sbit pa x = ((s.scrub cl pa).setClWord cl pa { CacheWord.absent with st := .o, data := x }).markRecheck cl (lineOf pa) := by
  unfold State.writeUnit
  rw [clWrite_whole (Agent.unit cl sbit) (cl := cl) rfl ho hb]

theorem unitWord_writeUnit_owned (sbit : Nat) (ho : (s.clWord cl pa).st = .o) (hb : (s.clWord cl pa).bad = false) (x : Word) :
    (s.writeUnit cl sbit pa x).unitWord cl pa = x := by
  rw [writeUnit_owned sbit ho hb]
  unfold State.unitWord
  rw [clWord_markRecheck, clWord_setClWord_same _ _ _ (fun h => by cases h)]

end Sys2Proof.Machine
end

section
/-! PROOFS. Tile zeroing, moves, the transpose, shapes and the release of a binding (R225, R241, R249, R251, R252). -/

namespace Sys2Proof.Machine

variable {s t u : State} {e b k : Nat} {α : Type}

/-! Rows and fields. -/

theorem getD_setRow {n : Nat} (l : List (BitVec n)) (i : Nat) (f : BitVec n → BitVec n) {r : Nat} (h : r < 64) :
    (setRow l i f).getD r 0 = if r = i then f (l.getD r 0) else l.getD r 0 := getD_map_range h _ _

theorem setField_getLsbD {n : Nat} (x : BitVec n) {lo len : Nat} (v : Nat) (hn : lo + len ≤ n) (i : Nat) :
    (setField x lo len v).getLsbD i = if lo ≤ i ∧ i < lo + len then v.testBit (i - lo) else x.getLsbD i := by
  have hmask : ∀ j, (BitVec.ofNat n (2 ^ len - 1)).getLsbD j = (decide (j < n) && decide (j < len)) := fun j => by
    rw [BitVec.getLsbD_ofNat, Nat.testBit_two_pow_sub_one]
  have hval : ∀ j, (BitVec.ofNat n (v % 2 ^ len)).getLsbD j = (decide (j < n) && (decide (j < len) && v.testBit j)) := fun j => by
    rw [BitVec.getLsbD_ofNat, Nat.testBit_mod_two_pow]
  unfold setField
  simp only [BitVec.getLsbD_or, BitVec.getLsbD_and, BitVec.getLsbD_not, BitVec.getLsbD_shiftLeft, hmask, hval]
  by_cases hi : i < n
  · by_cases hlo : i < lo
    · have h1 : ¬ (lo ≤ i ∧ i < lo + len) := by omega
      simp [hi, hlo, h1]
    · by_cases hlen : i - lo < len
      · have h1 : lo ≤ i ∧ i < lo + len := by omega
        have h2 : i - lo < n := by omega
        simp [hi, hlo, hlen, h1, h2]
      · have h1 : ¬ (lo ≤ i ∧ i < lo + len) := by omega
        simp [hi, hlo, hlen, h1]
  · have h1 : ¬ (lo ≤ i ∧ i < lo + len) := by omega
    simp [hi, h1, BitVec.getLsbD_of_ge x i (by omega)]

/-- A 64-bit part of a row with 512 bits replaced. -/
theorem extract_setField {n : Nat} (x : BitVec n) (v : Vec) {c j : Nat} (hn : 512 * c + 512 ≤ n) :
    (setField x (512 * c) 512 v.toNat).extractLsb' (64 * j) 64 = if j / 8 = c then laneAt 64 v (j % 8) else x.extractLsb' (64 * j) 64 := by
  apply BitVec.eq_of_getLsbD_eq
  intro i hi
  rw [BitVec.getLsbD_extractLsb', setField_getLsbD x _ hn]
  split
  · next h =>
    rw [if_pos (by omega), laneAt, BitVec.getLsbD_extractLsb', show v.toNat.testBit _ = v.getLsbD (64 * j + i - 512 * c) from rfl,
      show 64 * j + i - 512 * c = 64 * (j % 8) + i by omega]
  · next h =>
    rw [if_neg (by omega), BitVec.getLsbD_extractLsb']

/-! The transpose. -/

theorem packBits_div (w : Nat) : ∀ (l : List Nat) (i : Nat), packBits w l / 2 ^ (w * i) % 2 ^ w = l.getD i 0 % 2 ^ w
  | [], i => by simp [packBits]
  | x :: l, 0 => by simp [packBits]
  | x :: l, i + 1 => by
    have h1 : x % 2 ^ w < 2 ^ w := Nat.mod_lt _ (by positivity)
    have h2 : (2 : Nat) ^ (w * (i + 1)) = 2 ^ w * 2 ^ (w * i) := by rw [← Nat.pow_add]; ring_nf
    rw [packBits, h2, ← Nat.div_div_eq_div_mul, Nat.add_mul_div_left _ _ (by positivity), Nat.div_eq_of_lt h1, Nat.zero_add, packBits_div w l i]
    simp

/-- A field of packed values. -/
theorem packBits_field {n w i : Nat} (l : List Nat) (h : w * (i + 1) ≤ n) :
    (BitVec.ofNat n (packBits w l)).toNat / 2 ^ (w * i) % 2 ^ w = l.getD i 0 % 2 ^ w := by
  have hn : n = w * i + (n - w * i) := by
    have : w * (i + 1) = w * i + w := by ring
    omega
  have hw : w ≤ n - w * i := by
    have : w * (i + 1) = w * i + w := by ring
    omega
  rw [BitVec.toNat_ofNat, ← packBits_div, hn, Nat.pow_add, Nat.mod_mul_right_div_self]
  exact Nat.mod_mod_of_dvd _ (pow_dvd_pow 2 hw)

theorem elemOf_lt (w : Nat) (row : BitVec 1024) (i : Nat) : elemOf w row i < 2 ^ elemBits w := Nat.mod_lt _ (by positivity)

/-- Blocks of 64 values, one after another. -/
theorem getD_blocks (f : Nat → Nat → Nat) : ∀ (q p i : Nat), p < q → i < 64 →
    ((List.range q).flatMap (fun p => (List.range 64).map (f p))).getD (64 * p + i) 0 = f p i := by
  intro q
  induction q with
  | zero => intro p i h; omega
  | succ q ih =>
    intro p i hp hi
    have hlen : ((List.range q).flatMap (fun p => (List.range 64).map (f p))).length = 64 * q := by
      simp [List.length_flatMap, Nat.mul_comm]
    rw [List.range_succ (n := q), List.flatMap_append, List.flatMap_singleton]
    by_cases h : p < q
    · rw [List.getD_append _ _ _ _ (by rw [hlen]; omega), ih p i h hi]
    · obtain rfl : p = q := by omega
      rw [List.getD_append_right _ _ _ _ (by rw [hlen]; omega), hlen, show 64 * p + i - 64 * p = i by omega]
      exact getD_map_range hi _ _

/-- The blocks of a transpose, by the code of its width. -/
def blocksOf (w : Nat) : Nat := if w = 0 then 2 else if w = 2 then 4 else 1

theorem blocks_fill {w : Nat} (h : w = 0 ∨ w = 2 ∨ w = 3) : elemBits w * (64 * blocksOf w) = 1024 := by
  rcases h with rfl | rfl | rfl <;> rfl

theorem elem_transpose {w : Nat} (hw : w = 0 ∨ w = 2 ∨ w = 3) (x : OpTile) {p i j : Nat} (hp : p < blocksOf w) (hi : i < 64) (hj : j < 64) :
    elemOf w ((transpose w x).row j) (64 * p + i) = elemOf w (x.row i) (64 * p + j) := by
  have hrow : (transpose w x).row j = BitVec.ofNat 1024 (packBits (elemBits w)
      ((List.range (blocksOf w)).flatMap (fun p => (List.range 64).map (fun i => elemOf w (x.row i) (64 * p + j))))) := by
    unfold OpTile.row transpose
    dsimp only
    exact getD_map_range hj _ _
  have hfit : elemBits w * (64 * p + i + 1) ≤ 1024 := by
    rw [← blocks_fill hw]
    exact Nat.mul_le_mul_left _ (by omega)
  rw [hrow]
  show (BitVec.ofNat 1024 _).toNat / _ % _ = _
  rw [packBits_field _ hfit, getD_blocks (fun p i => elemOf w (x.row i) (64 * p + j)) _ p i hp hi]
  exact Nat.mod_eq_of_lt (elemOf_lt ..)

theorem recordOf_lt (row : BitVec 128) (i : Nat) : recordOf row i < 2 ^ 16 := Nat.mod_lt _ (by norm_num)

theorem recordOf_extract (row : BitVec 128) (i : Nat) : row.extractLsb' (16 * i) 16 = BitVec.ofNat 16 (recordOf row i) := by
  apply BitVec.eq_of_toNat_eq
  rw [BitVec.extractLsb'_toNat, BitVec.toNat_ofNat, Nat.shiftRight_eq_div_pow]
  exact (Nat.mod_mod _ _).symm

/-- The scale records of a transpose. -/
theorem record_transpose (w : Nat) (x : OpTile) {i r : Nat} (hi : i < 64) (hr : r < 8) :
    ((transpose w x).scaleRow i).extractLsb' (16 * r) 16 = if w = 3 ∨ 2 * blocksOf w ≤ r then (x.scaleRow i).extractLsb' (16 * r) 16
      else (x.scaleRow (32 * (r % 2))).extractLsb' (16 * (2 * (r / 2) + i / 32)) 16 := by
  have hrow : (transpose w x).scaleRow i = if w = 3 then x.scaleRow i else BitVec.ofNat 128 (packBits 16 ((List.range 8).map (fun b =>
      if b < 2 * blocksOf w then recordOf (x.scaleRow (32 * (b % 2))) (2 * (b / 2) + i / 32) else recordOf (x.scaleRow i) b))) := by
    unfold OpTile.scaleRow transpose
    dsimp only
    exact getD_map_range hi _ _
  rw [hrow]
  by_cases hw : w = 3
  · rw [if_pos hw, if_pos (.inl hw)]
  · rw [if_neg hw, recordOf_extract]
    have hf := packBits_field (n := 128) (w := 16) (i := r) ((List.range 8).map (fun b =>
      if b < 2 * blocksOf w then recordOf (x.scaleRow (32 * (b % 2))) (2 * (b / 2) + i / 32) else recordOf (x.scaleRow i) b)) (by omega)
    rw [getD_map_range hr _ _] at hf
    rw [show recordOf (BitVec.ofNat 128 _) r = _ from hf]
    split
    · next h => rw [if_neg (by omega), recordOf_extract, Nat.mod_eq_of_lt (recordOf_lt ..)]
    · next h => rw [if_pos (by omega), recordOf_extract, Nat.mod_eq_of_lt (recordOf_lt ..)]

/-! Instructions. -/

theorem act_bound (hb : BoundAt s e b) (f : Nat × Nat → Act α) : (bound >>= f) s.begun = f (e, b) s.begun := bind_ok (bound_ok hb)

theorem tzero_acc (hc : Clear s) (hb : BoundAt s e b) (n : BitVec 2) :
    WritesAcc s e b (.tzero (.a n)) n (fun new fl => fl = 0 ∧ ∀ i < 64, accRow new i = 0) :=
  writesAcc_of (new := []) (fl := 0) hc hb rfl ⟨rfl, fun _ _ => rfl⟩ fun _ _ _ hf _ =>
    ⟨_, (act_bound hb _).trans (bind_ok hf), tiles_tileDone ..⟩

theorem tzero_opd (hc : Clear s) (hb : BoundAt s e b) (n : BitVec 3) :
    WritesOpd s e b (.tzero (.t n)) n (fun new fl => fl = 0 ∧ ∀ i < 64, new.row i = 0 ∧ new.scaleRow i = 0) :=
  writesOpd_of (new := { data := [], scale := [] }) (fl := 0) hc hb rfl ⟨rfl, fun _ _ => ⟨rfl, rfl⟩⟩ fun _ _ _ hf _ =>
    ⟨_, (act_bound hb _).trans (bind_ok hf), tiles_tileDone ..⟩

theorem readV_same {e : Nat} (h : TileSame e s u) (v : Reg) : u.readV v = s.readV v := by rw [State.readV, h.me, State.readV]

/-- An operand within its limit goes on. -/
theorem act_trapIf {c : Bool} (hc : c = false) (x : Trap) (f : Unit → Act α) : (trapIf c x >>= f) s = f () s := by
  rw [trapIf, hc]
  rfl

theorem tmova_acc (hc : Clear s) (hb : BoundAt s e b) (n : BitVec 2) (v g : Reg) (hx : (s.readG g).toNat < 512) :
    WritesAcc s e b (.tmova n v g) n (fun new fl => fl = 0 ∧ ∀ i < 64, ∀ j < 64,
      accElem new i j = if i = (s.readG g).toNat % 64 ∧ j / 8 = (s.readG g).toNat / 64 then laneAt 64 (s.readV v) (j % 8)
        else accElem (s.accTile e b n) i j) := by
  refine writesAcc_of (fl := 0) (new := setRow (s.accTile e b n) ((s.readG g).toNat % 64) (fun r =>
    setField r (512 * ((s.readG g).toNat / 64)) 512 (s.readV v).toNat)) hc hb rfl ⟨rfl, fun i hi j _ => ?_⟩ fun _ k u hf hl => ?_
  · unfold accElem accRow
    rw [getD_setRow _ _ _ hi]
    split
    · next h =>
      rw [extract_setField _ _ (by omega)]
      simp only [h, true_and]
    · next h => rw [if_neg (fun c => h c.1)]
  · refine ⟨_, (act_bound hb _).trans ((act_trapIf (by simpa using hx) _ _).trans (bind_ok hf)), ?_⟩
    have ha : u.accTile e b n = s.accTile e b n := hl.same.accTile b n
    dsimp only
    rw [ha, show u.readV v = s.readV v from readV_same hl.same v]
    exact tiles_tileDone ..

theorem tmovt_opd (hc : Clear s) (hb : BoundAt s e b) (d : BitVec 3) (v g : Reg) (hx : (s.readG g).toNat < 192) :
    WritesOpd s e b (.tmovt d v g) d (fun new fl => fl = 0 ∧ ∀ i < 64,
      (∀ j < 16, (new.row i).extractLsb' (64 * j) 64 = if i = (s.readG g).toNat % 64 ∧ j / 8 = (s.readG g).toNat / 64 then laneAt 64 (s.readV v) (j % 8)
        else ((s.opTile e b d).row i).extractLsb' (64 * j) 64) ∧
      new.scaleRow i = if i = (s.readG g).toNat % 64 ∧ (s.readG g).toNat / 64 = 2 then (s.readV v).setWidth 128 else (s.opTile e b d).scaleRow i) := by
  refine writesOpd_of (fl := 0) (new := if (s.readG g).toNat / 64 < 2
      then { s.opTile e b d with data := setRow (s.opTile e b d).data ((s.readG g).toNat % 64) (fun r =>
        setField r (512 * ((s.readG g).toNat / 64)) 512 (s.readV v).toNat) }
      else { s.opTile e b d with scale := setRow (s.opTile e b d).scale ((s.readG g).toNat % 64) (fun _ => BitVec.ofNat 128 (s.readV v).toNat) })
    hc hb rfl ⟨rfl, fun i hi => ?_⟩ fun _ k u hf hl => ?_
  · unfold OpTile.row OpTile.scaleRow
    by_cases h2 : (s.readG g).toNat / 64 < 2
    · rw [if_pos h2, if_neg (by omega)]
      refine ⟨fun j _ => ?_, rfl⟩
      rw [getD_setRow _ _ _ hi]
      split
      · next h =>
        rw [extract_setField _ _ (by omega)]
        simp only [h, true_and]
      · next h => rw [if_neg (fun c => h c.1)]
    · rw [if_neg h2]
      refine ⟨fun j hj => by rw [if_neg (by omega)], ?_⟩
      rw [getD_setRow _ _ _ hi]
      simp only [show (s.readG g).toNat / 64 = 2 by omega, and_true]
      split
      · rw [BitVec.ofNat_toNat]
      · rfl
  · refine ⟨_, (act_bound hb _).trans ((act_trapIf (by simp; omega) _ _).trans (bind_ok hf)), ?_⟩
    have ha : u.opTile e b d = s.opTile e b d := hl.same.opTile b d
    dsimp only
    rw [ha, show u.readV v = s.readV v from readV_same hl.same v]
    exact tiles_tileDone ..

theorem ttrans_opd (hc : Clear s) (hb : BoundAt s e b) (d a : BitVec 3) (w : BitVec 2) (kind : Bool) (hw : w ≠ 1) :
    WritesOpd s e b (.ttrans d a w kind) d (fun new fl => fl = 0 ∧ (∀ p < (if w = 0 then 2 else if w = 2 then 4 else 1), ∀ i < 64, ∀ j < 64,
      elemOf w.toNat (new.row j) (64 * p + i) = elemOf w.toNat ((s.opTile e b a).row i) (64 * p + j)) ∧
      (let record := fun (y : OpTile) (i k : Nat) => (y.scaleRow i).extractLsb' (16 * k) 16
       ∀ i < 64, ∀ k < 8, record new i k = if w = 3 ∨ (if w = 0 then 4 else 8) ≤ k then record (s.opTile e b a) i k
         else record (s.opTile e b a) (32 * (k % 2)) (2 * (k / 2) + i / 32))) := by
  have hcode : w.toNat = 0 ∨ w.toNat = 2 ∨ w.toNat = 3 := by
    have : w.toNat ≠ 1 := fun h => hw (BitVec.eq_of_toNat_eq h)
    omega
  have hblocks : (if w = 0 then 2 else if w = 2 then 4 else 1) = blocksOf w.toNat := by
    revert w
    decide
  have hrecs : ∀ k, (w = 3 ∨ (if w = 0 then 4 else 8) ≤ k) ↔ (w.toNat = 3 ∨ k ≥ 8 ∨ 2 * blocksOf w.toNat ≤ k) := by
    intro k
    have : w = 0 ∨ w = 2 ∨ w = 3 := by
      revert w
      decide
    rcases this with rfl | rfl | rfl <;> simp [blocksOf] <;> omega
  refine writesOpd_of (fl := 0) (new := transpose w.toNat (s.opTile e b a)) hc hb rfl
    ⟨rfl, fun p hp i hi j hj => elem_transpose hcode _ (by rw [← hblocks]; exact hp) hi hj, fun i hi k hk => ?_⟩ fun _ k u hf hl => ?_
  · refine (record_transpose w.toNat _ hi hk).trans ?_
    simp only [hrecs, show ¬ k ≥ 8 by omega, false_or]
  · refine ⟨_, (act_bound hb _).trans (bind_ok hf), ?_⟩
    have ha : u.opTile e b a = s.opTile e b a := hl.same.opTile b a
    rw [ha]
    exact tiles_tileDone ..

/-! Shapes. -/

/-- A shape register from its fields. -/
theorem shape_fields {x y z : Word} (h1 : x.toNat ≤ 64) : BitVec.ofNat 128 (x.toNat + y.toNat % 2 ^ 32 * 2 ^ 32 + z.toNat * 2 ^ 64) =
    z ++ ((y.setWidth 32 : BitVec 32) ++ (x.setWidth 32 : BitVec 32)) := by
  have hz := z.isLt
  have happ : ∀ {m n : Nat} (p : BitVec m) (q : BitVec n), (p ++ q).toNat = p.toNat * 2 ^ n + q.toNat := fun p q => by
    rw [BitVec.toNat_append, ← Nat.shiftLeft_add_eq_or_of_lt q.isLt, Nat.shiftLeft_eq]
  apply BitVec.eq_of_toNat_eq
  rw [happ, happ, BitVec.toNat_ofNat, BitVec.toNat_setWidth, BitVec.toNat_setWidth]
  omega

/-- An instruction of a binding that does what it does to a state and ends as it should. -/
theorem TileEnds.done {v : State} {fl : BitVec 5} (h : TileEnds v t fl) (hc : Clear v) {i : Instr} {m : Act Unit} (hexec : exec i s = runAct s 8 m) {F : State → State}
    (hm : m s.begun = guarded (modify F) u) (hF : F u = t) : exec i s = .next (t.begun.retire 8) ∧ (t.begun.retire 8).mem = v.mem ∧
      (t.begun.retire 8).me = { v.me with fst := v.me.fst ||| fl, pc := pcOf (v.pc + 8), stall := .none, attempt := 0 } := by
  have hme : (t.begun.retire 8).me = { t.me with pc := pcOf (t.pc + 8), stall := .none, attempt := 0 } := me_retireTo t.begun _
  subst hF
  refine ⟨hexec.trans (runAct_ok ?_ (h.clear hc)), h.mem, ?_⟩
  · exact hm.trans (guarded_ok rfl (h.clear hc))
  · rw [hme, State.pc, h.me, State.pc]

/-- The bits that `mset` writes. -/
def State.shapeBits (s : State) (g h k : Reg) : BitVec 128 :=
  BitVec.ofNat 128 ((s.readG g).toNat + (s.readG h).toNat % 2 ^ 32 * 2 ^ 32 + (s.readG k).toNat * 2 ^ 64)

theorem clear_writeM (hc : Clear s) (m : BitVec 3) (x : BitVec 128) : Clear (s.begun.writeM m x) := by
  have hp : ((s.begun.writeM m x).ctx s.cur).pc = (s.ctx s.cur).pc := by
    show (s.begun.writeM m x).me.pc = s.me.pc
    rw [State.writeM, me_modMe]
    rfl
  show (!isX7 s.cur && (s.core (coreOf s.cur)).bp.any (fun b => b.1 < 4 && b.2.getLsbD 0 && pcOf b.2 == ((s.begun.writeM m x).ctx s.cur).pc)) = false
  rw [hp]
  exact hc

theorem mset_ok (hc : Clear s) (hb : BoundAt s e b) (m : BitVec 3) (g h k : Reg) (h1 : 1 ≤ (s.readG g).toNat) (h2 : (s.readG g).toNat ≤ 64)
    (h3 : -(2 ^ 31) ≤ (s.readG h).toInt) (h4 : (s.readG h).toInt < 2 ^ 31) :
    ∃ t, exec (.mset m g h k) s = .next t ∧ t.pc = pcOf (s.pc + 8) ∧ t.me.g = s.me.g ∧ t.mem = s.mem ∧
      t.me.m = tset s.me.m m.toNat (s.readG k ++ ((s.readG h).setWidth 32 ++ (s.readG g).setWidth 32)) := by
  have hx : s.shapeBits g h k = s.readG k ++ ((s.readG h).setWidth 32 ++ (s.readG g).setWidth 32) := shape_fields h2
  have hv : (s.begun.writeM m (s.shapeBits g h k)).me = s.me.setM m.toNat (s.shapeBits g h k) := me_modMe (s := s.begun) _
  have ht : TileEnds (s.begun.writeM m (s.shapeBits g h k)) ((s.begun.writeM m (s.shapeBits g h k)).tileDone e 16 0 1 false) 0 :=
    (tiles_tileDone ..).ends rfl rfl rfl rfl rfl
  obtain ⟨hrun, hmem, hme⟩ := ht.done (i := .mset m g h k) (s := s) (clear_writeM hc m _) rfl
    ((act_bound hb _).trans ((act_trapIf (by simp; omega) _ _).trans (act_trapIf (by simp; omega) _ _))) rfl
  rw [hv] at hme
  have hpc : (s.begun.writeM m (s.shapeBits g h k)).pc = s.pc := by
    rw [State.pc, hv]
    rfl
  refine ⟨_, hrun, ?_, ?_, hmem, ?_⟩
  · rw [State.pc, hme, hpc]
  · rw [hme]
    rfl
  · rw [hme, ← hx]
    rfl

/-! The release of a binding. -/

/-- The first entry that a search finds, where the entry of its key is replaced by one that the search answers alike. -/
theorem findSome_tset {γ : Type} {g : Nat × γ → Option (Nat × Nat)} (hg : ∀ p r, g p = some r → r.1 = p.1) {q : Nat} {r : Nat × Nat} (hr : r.1 = q) {v d : γ}
    (hd : g (q, d) = none) : ∀ (l : Tbl γ), l.findSome? g = some r → g (q, v) = g (q, tget l q d) → (tset l q v).findSome? g = some r
  | [], h, _ => by cases h
  | (k, u) :: l, h, hv => by
    have hfirst : ∀ (l : Tbl γ), l.findSome? g = some r → g (q, tget l q d) = none ∨ g (q, tget l q d) = some r := by
      intro l
      induction l with
      | nil => intro h; cases h
      | cons p l ih =>
        intro h
        obtain ⟨k, u⟩ := p
        by_cases hk : k = q
        · subst hk
          rw [show tget ((k, u) :: l) k d = u by simp [tget, tfind]]
          cases hu : g (k, u) with
          | none => exact .inl rfl
          | some y =>
            rw [List.findSome?_cons, hu] at h
            exact .inr h
        · rw [show tget ((k, u) :: l) q d = tget l q d by simp [tget, tfind, hk]]
          rw [List.findSome?_cons] at h
          cases hu : g (k, u) with
          | none =>
            rw [hu] at h
            exact ih h
          | some y =>
            rw [hu] at h
            cases h
            exact absurd ((hg _ _ hu).symm.trans hr) hk
    unfold tset
    by_cases hk : k = q
    · subst hk
      rw [if_pos rfl, List.findSome?_cons, hv, show tget ((k, u) :: l) k d = u by simp [tget, tfind], ← List.findSome?_cons]
      exact h
    · rw [if_neg hk]
      split
      · rw [List.findSome?_cons, hv]
        rcases hfirst _ h with he | he
        · rw [he]
          exact h
        · rw [he]
      · rw [List.findSome?_cons] at h ⊢
        cases hu : g (k, u) with
        | none =>
          rw [hu] at h
          exact findSome_tset hg hr hd l h (by rw [hv, show tget ((k, u) :: l) q d = tget l q d by simp [tget, tfind, hk]])
        | some y =>
          rw [hu] at h
          exact h

/-- An engine changed but for its bindings still holds a thread where it did. -/
theorem holder_modEngine {tcb : Nat} (h : s.holder tcb = some (e, b)) {f : Engine → Engine} (hf : (f (s.engine e)).bindings = (s.engine e).bindings) :
    (s.modEngine e f).holder tcb = some (e, b) := by
  unfold State.holder at h ⊢
  split at h
  · cases h
  · next ht =>
    rw [if_neg ht]
    refine findSome_tset (fun p r hp => ?_) rfl (d := Engine.init) rfl s.engines h ?_
    · obtain ⟨x, -, rfl⟩ := Option.map_eq_some_iff.1 hp
      rfl
    · show Option.map _ (List.find? _ (f (s.engine e)).bindings) = _
      rw [hf]
      rfl

/-- The engines as an instruction leaves them that retires. -/
theorem engines_tileDone (s : State) (e lop : Nat) (g : BitVec 5) (nj : Nat) (held : Bool) : (s.tileDone e lop g nj held).engines = s.engines ∨
    (s.tileDone e lop g nj held).engines = tset s.engines e ((s.engine e).forget s.cur) := by
  obtain ⟨u, ⟨_, _, _, _, rfl⟩, ⟨_, _, _, _, h⟩ | ⟨_, _, _, _, h⟩⟩ := tileDone_noted s e lop g nj held
  · left
    rw [h]
    rfl
  · right
    rw [h]
    rfl

theorem holder_tileDone {tcb : Nat} (h : s.holder tcb = some (e, b)) (lop : Nat) (g : BitVec 5) (nj : Nat) (held : Bool) :
    (s.tileDone e lop g nj held).holder tcb = some (e, b) := by
  rcases engines_tileDone s e lop g nj held with he | he
  · unfold State.holder
    rw [he]
    exact h
  · have hf := holder_modEngine h (f := fun x => x.forget s.cur) rfl
    unfold State.holder State.modEngine at hf
    unfold State.holder
    rw [he]
    exact hf

/-- What the memory system leaves of the bindings of an engine. -/
theorem plain_binding (s : State) (e : Nat) : Plain (fun t => (t.engine e).bindings = (s.engine e).bindings) where
  records := fun _ _ _ _ _ h => h
  upd := fun _ _ _ _ _ _ _ _ _ _ h => h
  mem := fun _ _ _ h => h
  queue := fun _ _ _ _ _ _ _ h _ _ => h
  cluster := fun _ _ _ h _ => h
  engine := fun u n f h hf => by
    refine Eq.trans ?_ h
    by_cases he : e = n
    · subst he
      rw [engine_modEngine_same, hf]
    · rw [State.engine, State.modEngine, tget_tset, if_neg he]
      rfl
  pkgKept := fun _ _ _ h _ => h
  wake := fun _ _ h => h

/-- A release of the binding of a thread. -/
theorem releaseBinding_held {tcb cl : Nat} (h : s.holder tcb = some (e, b)) : s.releaseBinding cl tcb = (s.dropBinding e b).setTcb cl tcb 0xC58 0 := by
  unfold State.releaseBinding
  rw [h]

theorem tfind_dropBinding (s : State) (e b : Nat) : tfind ((s.dropBinding e b).engine e).bindings b = none := by
  unfold State.dropBinding
  rw [engine_modEngine_same]
  dsimp only
  rw [tfind_tdel, if_pos rfl]

/-- What a release of a binding leaves of the machine. -/
theorem apart_release {tcb cl : Nat} (h : s.holder tcb = some (e, b)) : Apart (s.dropBinding e b) (s.releaseBinding cl tcb) := by
  rw [releaseBinding_held h]
  exact apart_setTcb ..

theorem release_unbinds {tcb cl : Nat} (h : s.holder tcb = some (e, b)) : tfind ((s.releaseBinding cl tcb).engine e).bindings b = none := by
  have hk : ((s.releaseBinding cl tcb).engine e).bindings = ((s.dropBinding e b).engine e).bindings := by
    rw [releaseBinding_held h]
    exact keep_setTcb (plain_binding _ e) rfl
  rw [hk]
  exact tfind_dropBinding s e b

/-- The place of a released binding reads 0 where its cluster owns the word. -/
theorem release_clears {tcb cl : Nat} (h : s.holder tcb = some (e, b)) (ho : (s.clWord cl (tcb + 0xC58)).st = .o) (hb : (s.clWord cl (tcb + 0xC58)).bad = false) :
    (s.releaseBinding cl tcb).tcbWord cl tcb 0xC58 = 0 := by
  rw [releaseBinding_held h]
  show ((s.dropBinding e b).writeUnit cl 13 (tcb + 0xC58) 0).unitWord cl (tcb + 0xC58) = 0
  exact unitWord_writeUnit_owned (s := s.dropBinding e b) (cl := cl) (pa := tcb + 0xC58) 13 ho hb 0

theorem tcbWord_retired (s : State) (cl tcb off : Nat) : (s.begun.retire 8).tcbWord cl tcb off = s.tcbWord cl tcb off := rfl

theorem trel_ok (hc : Clear s) (hb : BoundAt s e b) :
    ∃ t, exec .trel s = .next t ∧ t.pc = pcOf (s.pc + 8) ∧ t.me.g = s.me.g ∧ tfind (t.engine e).bindings b = none ∧
      ∀ y, Owned s (s.me.tcb + 0xC58) y → t.tcbWord s.myCluster s.me.tcb 0xC58 = 0 := by
  have hbound := hb
  obtain ⟨hx, -, -, -, hh, -⟩ := hb
  have hends : TileEnds s (s.begun.tileDone e 15 0 1 false) 0 := (tiles_tileDone s.begun e 15 0 1 false).ends rfl rfl rfl rfl rfl
  have hhold := holder_tileDone (s := s.begun) hh 15 0 1 false
  have hclu : (s.begun.tileDone e 15 0 1 false).clusters = s.clusters := clusters_tileDone ..
  have hexec : exec .trel s = runAct s 8 _ := rfl
  have hact : ∀ v, s.begun.tileDone e 15 0 1 false = v → (v.releaseBinding s.myCluster s.me.tcb).matchOf (v.releaseBinding s.myCluster s.me.tcb).accs = none →
      exec .trel s = .next ((v.releaseBinding s.myCluster s.me.tcb).begun.retire 8) := by
    rintro v rfl hm
    exact hexec.trans (runAct_ok ((act_bound hbound _).trans (guarded_ok rfl hm)) hm)
  replace hact := hact _ rfl
  generalize s.begun.tileDone e 15 0 1 false = v at hends hhold hclu hact
  have ha : Apart (v.dropBinding e b) (v.releaseBinding s.myCluster s.me.tcb) := apart_release hhold
  have hcur : (v.releaseBinding s.myCluster s.me.tcb).cur = s.cur := ha.cur.trans hends.cur
  have hme : (v.releaseBinding s.myCluster s.me.tcb).me = v.me := by
    rw [State.me, ha.cur]
    refine ha.user _ ?_
    rw [show (v.dropBinding e b).cur = s.cur from hends.cur]
    exact hx
  have hmatch : (v.releaseBinding s.myCluster s.me.tcb).matchOf (v.releaseBinding s.myCluster s.me.tcb).accs = none := by
    rw [ha.sameSpot.matchOf, ha.accs]
    exact hends.clear hc
  have hre : ((v.releaseBinding s.myCluster s.me.tcb).begun.retire 8).me = { (v.releaseBinding s.myCluster s.me.tcb).me with
      pc := pcOf ((v.releaseBinding s.myCluster s.me.tcb).pc + 8), stall := .none, attempt := 0 } := me_retireTo (v.releaseBinding s.myCluster s.me.tcb).begun _
  have hpc : (v.releaseBinding s.myCluster s.me.tcb).pc = s.pc := by
    rw [State.pc, hme, hends.me]
    rfl
  refine ⟨_, hact hmatch, ?_, ?_, release_unbinds hhold, fun y hy => ?_⟩
  · rw [State.pc, hre, hpc]
  · rw [hre, hme, hends.me]
  · have hw : v.clWord s.myCluster (s.me.tcb + 0xC58) = s.clWord s.myCluster (s.me.tcb + 0xC58) := by
      unfold State.clWord State.clLine State.cluster
      rw [hclu]
    obtain ⟨h1, h2, -, -⟩ := hy
    rw [tcbWord_retired]
    exact release_clears hhold (by rw [hw]; exact h1) (by rw [hw]; exact h2)

/-- Settles O42: every tile instruction writes a fresh physical tile, which its register is then mapped to. -/
theorem tileMoves : Obligations.TileMoves := by
  intro s e b n d a m v g h k w kind hc hb x
  exact ⟨tzero_acc hc hb n, tzero_opd hc hb d, tmova_acc hc hb n v g, tmovt_opd hc hb d v g, ttrans_opd hc hb d a w kind,
    mset_ok hc hb m g h k, trel_ok hc hb⟩

end Sys2Proof.Machine
end

section
/-! PROOFS. The arithmetic of accumulators, element by element (R56-R61, R243-R245, R247, R250). -/

namespace Sys2Proof.Machine

variable {s t u : State} {e b k : Nat}

/-- An element of a row that is packed from its elements. -/
theorem extract_accRowOf (f : Nat → Nat) {j : Nat} (hj : j < 64) :
    (accRowOf ((List.range 64).map f)).extractLsb' (64 * j) 64 = BitVec.ofNat 64 (f j) := by
  apply BitVec.eq_of_toNat_eq
  rw [BitVec.extractLsb'_toNat, Nat.shiftRight_eq_div_pow, BitVec.toNat_ofNat]
  unfold accRowOf
  have hd := packNat_div 8 ((List.range 64).map f) j
  rw [getD_map_range hj] at hd
  rw [BitVec.toNat_ofNat, show (4096 : Nat) = 64 * j + (4096 - 64 * j) by omega, Nat.pow_add, Nat.mod_mul_right_div_self,
    Nat.mod_mod_of_dvd _ (pow_dvd_pow 2 (by omega))]
  exact hd

/-- The flags of rows of elements. -/
theorem joinFlags_rows (f : Nat → Nat → BitVec 5) (k : Nat) :
    (joinFlags ((List.range 64).map (fun i => joinFlags ((List.range 64).map (f i))))).getLsbD k = true ↔ ∃ i < 64, ∃ j < 64, (f i j).getLsbD k = true := by
  rw [joinFlags_range_bit]
  constructor
  · rintro ⟨i, hi, h⟩
    exact ⟨i, hi, (joinFlags_range_bit ..).1 h⟩
  · rintro ⟨i, hi, h⟩
    exact ⟨i, hi, (joinFlags_range_bit ..).2 h⟩

/-- An accumulator made of rows of elements. -/
theorem elemsAre_rows (f : Nat → Nat → Pair × BitVec 5) : ElemsAre ((List.range 64).map (fun i => accRowOf ((List.range 64).map (fun j => pairCode (f i j).1))))
    (joinFlags ((List.range 64).map (fun i => joinFlags ((List.range 64).map (fun j => (f i j).2))))) f := by
  refine ⟨fun i hi j hj => ?_, fun k _ => joinFlags_rows (fun i j => (f i j).2) k⟩
  unfold accElem accRow
  rw [getD_map_range hi]
  exact extract_accRowOf (fun j => pairCode (f i j).1) hj

/-- A map of two accumulators, as rows of elements. -/
theorem accMap_eq (f : Pair → Pair → Pair × BitVec 5) (x y : AccTile) : accMap f x y =
    ((List.range 64).map (fun i => accRowOf ((List.range 64).map (fun j => pairCode (f (accPair (accRow x i) j) (accPair (accRow y i) j)).1))),
      joinFlags ((List.range 64).map (fun i => joinFlags ((List.range 64).map (fun j => (f (accPair (accRow x i) j) (accPair (accRow y i) j)).2))))) := by
  unfold accMap
  simp only [List.map_map, Function.comp_def]

theorem elemsAre_accMap (f : Pair → Pair → Pair × BitVec 5) (x y : AccTile) :
    ElemsAre (accMap f x y).1 (accMap f x y).2 (fun i j => f (accPair (accRow x i) j) (accPair (accRow y i) j)) := by
  rw [accMap_eq]
  exact elemsAre_rows fun i j => f (accPair (accRow x i) j) (accPair (accRow y i) j)

/-- The sums of a multiply, by its width. -/
def sumsOf (wide : Bool) (x : Pair) (ps : List Res) : Pair × BitVec 5 := if wide then accumulate2 x 0 ps else accumulate4 x 0 ps

theorem elemsAre_multiply (wide : Bool) (x : AccTile) (a : Nat → List (Option Fpv)) (c : Nat → List Fpv) :
    let r := multiply wide x ((List.range 64).map a) ((List.range 64).map c)
    ElemsAre r.1 r.2 (fun i j => sumsOf wide (accPair (accRow x i) j) (products (a i) (c j))) := by
  have he : multiply wide x ((List.range 64).map a) ((List.range 64).map c) =
      ((List.range 64).map (fun i => accRowOf ((List.range 64).map (fun j => pairCode (sumsOf wide (accPair (accRow x i) j) (products (a i) (c j))).1))),
        joinFlags ((List.range 64).map (fun i => joinFlags ((List.range 64).map (fun j => (sumsOf wide (accPair (accRow x i) j) (products (a i) (c j))).2))))) := by
    unfold multiply
    simp only [List.map_map, Function.comp_def]
    rw [Prod.mk.injEq]
    refine ⟨List.map_congr_left fun i hi => congrArg accRowOf (List.map_congr_left fun j hj => ?_),
      congrArg joinFlags (List.map_congr_left fun i hi => congrArg joinFlags (List.map_congr_left fun j hj => ?_))⟩
    · rw [getD_map_range (List.mem_range.1 hi), getD_map_range (List.mem_range.1 hj)]
      rfl
    · rw [getD_map_range (List.mem_range.1 hi), getD_map_range (List.mem_range.1 hj)]
      rfl
  intro r
  show ElemsAre r.1 r.2 _
  rw [show r = _ from he]
  exact elemsAre_rows fun i j => sumsOf wide (accPair (accRow x i) j) (products (a i) (c j))

/-! Instructions. -/

theorem tadd_acc (hc : Clear s) (hb : BoundAt s e b) (d a c : BitVec 2) : WritesAcc s e b (.tadd d a c) d (fun new fl =>
    ElemsAre new fl (fun i j => addPair (accPair (accRow (s.accTile e b a) i) j) (accPair (accRow (s.accTile e b c) i) j))) := by
  refine writesAcc_of hc hb rfl (elemsAre_accMap addPair _ _) fun _ k u hf hl => ⟨_, (act_bound hb _).trans (bind_ok hf), ?_⟩
  have h1 : u.accTile e b a = s.accTile e b a := hl.same.accTile b a
  have h2 : u.accTile e b c = s.accTile e b c := hl.same.accTile b c
  dsimp only
  rw [h1, h2]
  exact tiles_tileDone ..

theorem tscale_acc (hc : Clear s) (hb : BoundAt s e b) (d a : BitVec 2) (g : Reg) : WritesAcc s e b (.tscale d a g) d (fun new fl =>
    ElemsAre new fl (fun i j => scalePair (fp32.decode ((s.readG g).setWidth 32).toNat) (accPair (accRow (s.accTile e b a) i) j) (accPair (accRow (s.accTile e b a) i) j))) := by
  have hw : ((s.readG g).setWidth 32).toNat = (s.readG g).toNat % 2 ^ 32 := BitVec.toNat_setWidth ..
  rw [hw]
  refine writesAcc_of hc hb rfl (elemsAre_accMap (scalePair _) _ _) fun _ k u hf hl => ⟨_, (act_bound hb _).trans (bind_ok hf), ?_⟩
  have h1 : u.accTile e b a = s.accTile e b a := hl.same.accTile b a
  dsimp only
  rw [h1]
  exact tiles_tileDone ..

/-- An operand tile of converted rows. -/
theorem converted_ok (f : Nat → BitVec 1024 × BitVec 128 × BitVec 5) :
    let rs := (List.range 64).map f
    let new : OpTile := { data := rs.map (·.1), scale := rs.map (fun r => r.2.1) }
    (∀ i < 64, new.row i = (f i).1 ∧ new.scaleRow i = (f i).2.1) ∧
      ∀ k < 5, ((joinFlags (rs.map (fun r => r.2.2))).getLsbD k = true ↔ ∃ i < 64, (f i).2.2.getLsbD k = true) := by
  intro rs new
  refine ⟨fun i hi => ⟨?_, ?_⟩, fun k _ => ?_⟩
  · show (((List.range 64).map f).map (·.1)).getD i 0 = _
    rw [List.map_map]
    exact getD_map_range hi _ _
  · show (((List.range 64).map f).map (fun r => r.2.1)).getD i 0 = _
    rw [List.map_map]
    exact getD_map_range hi _ _
  · show (joinFlags (((List.range 64).map f).map (fun r => r.2.2))).getLsbD k = true ↔ _
    rw [List.map_map]
    exact joinFlags_range_bit ..

theorem tcvt_acc (hc : Clear s) (hb : BoundAt s e b) (p : BitVec 3) (a : BitVec 2) (w : BitVec 2) (h : Bool) (tag : BitVec 2) :
    let rows := fun i => convertRow w.toNat h tag.toNat ((List.range 64).map (fun j => accValue (accPair (accRow (s.accTile e b a) i) j)))
    WritesOpd s e b (.tcvt p (.a a) w h tag) p (fun new fl => (∀ i < 64, new.row i = (rows i).1 ∧ new.scaleRow i = (rows i).2.1) ∧
      ∀ k < 5, (fl.getLsbD k = true ↔ ∃ i < 64, (rows i).2.2.getLsbD k = true)) := by
  intro rows
  refine writesOpd_of hc hb rfl (converted_ok rows) fun _ k u hf hl => ⟨_, (act_bound hb _).trans (bind_ok hf), ?_⟩
  have h1 : u.accTile e b a = s.accTile e b a := hl.same.accTile b a
  dsimp only
  rw [h1]
  exact tiles_tileDone ..

theorem elem16_eq (row : BitVec 1024) (j : Nat) : (row.extractLsb' (16 * j) 16).toNat = elemOf 3 row j := by
  rw [BitVec.extractLsb'_toNat, Nat.shiftRight_eq_div_pow]
  rfl

theorem tcvt_opd (hc : Clear s) (hb : BoundAt s e b) (p q : BitVec 3) (w : BitVec 2) (h : Bool) (tag : BitVec 2) :
    let rows := fun i => convertRow w.toNat h tag.toNat ((List.range 64).map (fun j =>
      ((if h then fp16 else bf16).decode (((s.opTile e b q).row i).extractLsb' (16 * j) 16).toNat, 0)))
    WritesOpd s e b (.tcvt p (.t q) w h tag) p (fun new fl => (∀ i < 64, new.row i = (rows i).1 ∧ new.scaleRow i = (rows i).2.1) ∧
      ∀ k < 5, (fl.getLsbD k = true ↔ ∃ i < 64, (rows i).2.2.getLsbD k = true)) := by
  intro rows
  refine writesOpd_of hc hb rfl (converted_ok rows) fun _ k u hf hl => ⟨_, (act_bound hb _).trans (bind_ok hf), ?_⟩
  have h1 : u.opTile e b q = s.opTile e b q := hl.same.opTile b q
  have hrows : rows = fun i => convertRow w.toNat h tag.toNat ((List.range 64).map (fun j => ((kindOf h).decode (elemOf 3 ((s.opTile e b q).row i) j), 0))) := by
    funext i
    show convertRow _ _ _ _ = _
    simp only [elem16_eq]
    rfl
  dsimp only
  rw [h1, hrows]
  exact tiles_tileDone ..

/-! Multiplication. -/

theorem TileSame.raise (h : TileSame e s t) (g : BitVec 5) : TileSame e (s.raise g) (t.raise g) where
  cur := h.cur
  me := by
    unfold State.raise
    rw [me_modMe, me_modMe, h.me]
  mem := h.mem
  cores := h.cores
  accs := h.accs
  macc := h.macc
  mopd := h.mopd
  acc := h.acc
  opd := h.opd

theorem tiles_mmaStarts (s : State) (e cl : Nat) (tno : BitVec 12) (b : Nat) (n : BitVec 2) (k : Nat) (x : AccTile) :
    TileSame e (s.setAccTile e b n k x) ((s.mmaStarts cl tno).setAccTile e b n k x) :=
  ⟨rfl, rfl, rfl, rfl, rfl, fun _ => rfl, fun _ => rfl, rfl, rfl⟩

/-- A multiply that retires has started, and is counted. -/
theorem tiles_multiplied (s : State) (e cl : Nat) (tno : BitVec 12) (b : Nat) (n : BitVec 2) (k : Nat) (x : AccTile) (lop : Nat) (g : BitVec 5) (nj : Nat) (held : Bool) :
    TileSame e ((s.setAccTile e b n k x).raise g) ((((s.mmaStarts cl tno).setAccTile e b n k x).countEngine e 5).tileDone e lop g nj held) := by
  have hn : Noted ((s.mmaStarts cl tno).setAccTile e b n k x) (((s.mmaStarts cl tno).setAccTile e b n k x).countEngine e 5) :=
    keep_addCtr (quiet_noted _) (Noted.refl _)
  exact (((tiles_mmaStarts s e cl tno b n k x).trans (hn.tiles e)).raise g).trans (tiles_tileDone ..)

theorem act_records {x : OpTile} {w o : Nat} (h : x.badRecord w = none) (f : Unit → Act Unit) : (checkRecords x w o >>= f) s = f () s := by
  unfold checkRecords
  rw [h]
  rfl

theorem act_meta {x : OpTile} {n : Nat} (h : x.badNibble n = none) (f : Unit → Act Unit) : (checkMeta x n >>= f) s = f () s := by
  unfold checkMeta
  rw [h]
  rfl

/-- A multiply that retires is not sent to its engine's queue. -/
theorem runMma_retires {i : Instr} {m : Act Unit} {t : State} (h : runAct s 8 m = .next (t.begun.retire 8)) : runMma i m s = .next (t.begun.retire 8) := by
  have hs : (t.begun.retire 8).me.stall = .none := by
    rw [show (t.begun.retire 8).me = _ from me_retireTo t.begun _]
  unfold runMma
  rw [h]
  show Host.Outcome.next (if (t.begun.retire 8).me.stall = .engine then _ else _) = _
  rw [hs, if_neg (by decide)]

/-- The rows of an operand with their numbers. -/
theorem values_zip (x : OpTile) (w : Nat) (h : Bool) :
    (x.values w h).zip (List.range 64) = (List.range 64).map (fun i => (rowValues w h (x.row i) (x.scaleRow i), i)) := List.map_prod_right_eq_zip.symm

theorem held_begun (h : s.mmaHeld s.myCluster s.me.tno = false) : ¬ (!false && s.begun.mmaHeld s.begun.myCluster s.begun.me.tno) = true := by
  rw [show s.begun.mmaHeld s.begun.myCluster s.begun.me.tno = false from h]
  decide

theorem tmma_acc (hc : Clear s) (hb : BoundAt s e b) (d : BitVec 2) (p q : BitVec 3) (w : BitVec 2) (h : Bool) (hheld : s.mmaHeld s.myCluster s.me.tno = false)
    (hp : (s.opTile e b p).badRecord w.toNat = none) (hq : (s.opTile e b q).badRecord w.toNat = none) :
    WritesAcc s e b (.tmma d p q w h) d (fun new fl => ElemsAre new fl (fun i j => sumsOf (decide (w.toNat = 3)) (accPair (accRow (s.accTile e b d) i) j)
      (products ((rowValues w.toNat h ((s.opTile e b p).row i) ((s.opTile e b p).scaleRow i)).map some)
        (rowValues w.toNat h ((s.opTile e b q).row j) ((s.opTile e b q).scaleRow j))))) := by
  refine writesAcc_ends (m := mma false d p q none w.toNat h) hc hb (fun _ h => runMma_retires h) (elemsAre_multiply (decide (w.toNat = 3)) (s.accTile e b d)
    (fun i => (rowValues w.toNat h ((s.opTile e b p).row i) ((s.opTile e b p).scaleRow i)).map some)
    (fun j => rowValues w.toNat h ((s.opTile e b q).row j) ((s.opTile e b q).scaleRow j))) fun _ k u hf hl => ?_
  unfold mma
  rw [act_bound hb]
  dsimp only
  rw [get_bind, show s.begun.opTile e b p = s.opTile e b p from rfl, show s.begun.opTile e b q = s.opTile e b q from rfl, act_records hp, act_records hq, bind_ok hf]
  rw [if_neg (held_begun hheld), get_bind, values_zip, List.map_map]
  exact ⟨_, rfl, tiles_multiplied ..⟩

theorem tmmaSp_acc (hc : Clear s) (hb : BoundAt s e b) (d : BitVec 2) (p q m : BitVec 3) (w : BitVec 2) (h : Bool) (hheld : s.mmaHeld s.myCluster s.me.tno = false)
    (hp : (s.opTile e b p).badRecord w.toNat = none) (hq : (s.opTile e b q).badRecord w.toNat = none) (hq1 : (s.opTile e b (q + 1)).badRecord w.toNat = none)
    (hm : (s.opTile e b m).badNibble (if w.toNat = 0 then 64 else 32) = none) :
    WritesAcc s e b (.tmmaSp d p q m w h) d (fun new fl => ElemsAre new fl (fun i j => sumsOf (decide (w.toNat = 3)) (accPair (accRow (s.accTile e b d) i) j)
      (products (spreadRow ((s.opTile e b m).row i) 0 (rowValues w.toNat h ((s.opTile e b p).row i) ((s.opTile e b p).scaleRow i)))
        (rowValues w.toNat h ((s.opTile e b q).row j) ((s.opTile e b q).scaleRow j) ++
          rowValues w.toNat h ((s.opTile e b (q + 1)).row j) ((s.opTile e b (q + 1)).scaleRow j))))) := by
  refine writesAcc_ends (m := mma false d p q (some m) w.toNat h) hc hb (fun _ h => runMma_retires h) (elemsAre_multiply (decide (w.toNat = 3)) (s.accTile e b d)
    (fun i => spreadRow ((s.opTile e b m).row i) 0 (rowValues w.toNat h ((s.opTile e b p).row i) ((s.opTile e b p).scaleRow i)))
    (fun j => rowValues w.toNat h ((s.opTile e b q).row j) ((s.opTile e b q).scaleRow j) ++
      rowValues w.toNat h ((s.opTile e b (q + 1)).row j) ((s.opTile e b (q + 1)).scaleRow j))) fun _ k u hf hl => ?_
  have hcols : (((s.opTile e b q).values w.toNat h).zip ((s.opTile e b (q + 1)).values w.toNat h)).map (fun p => p.1 ++ p.2) =
      (List.range 64).map (fun j => rowValues w.toNat h ((s.opTile e b q).row j) ((s.opTile e b q).scaleRow j) ++
        rowValues w.toNat h ((s.opTile e b (q + 1)).row j) ((s.opTile e b (q + 1)).scaleRow j)) := by
    unfold OpTile.values
    rw [List.zip_map', List.map_map]
    rfl
  unfold mma
  rw [act_bound hb]
  dsimp only
  rw [get_bind, show s.begun.opTile e b p = s.opTile e b p from rfl, show s.begun.opTile e b q = s.opTile e b q from rfl,
    show s.begun.opTile e b (q + 1) = s.opTile e b (q + 1) from rfl, show s.begun.opTile e b m = s.opTile e b m from rfl, act_records hp, act_records hq,
    act_records hq1, act_meta hm, bind_ok hf, if_neg (held_begun hheld), get_bind, values_zip, List.map_map, hcols]
  exact ⟨_, rfl, tiles_multiplied ..⟩

/-- Settles O43: each instruction is a map of rows of elements, and a multiply sums the products of two rows. -/
theorem tileArithmetic : Obligations.TileArithmetic := by
  intro s e b d a c p q m g w h hc hb pair row sums
  have hwide : ∀ x ps, sumsOf (decide (w.toNat = 3)) x ps = sums x ps := by
    intro x ps
    by_cases h3 : w = 3
    · show sumsOf _ x ps = if w = 3 then _ else _
      rw [if_pos h3, h3]
      rfl
    · have : w.toNat ≠ 3 := fun h => h3 (BitVec.eq_of_toNat_eq h)
      show sumsOf _ x ps = if w = 3 then _ else _
      rw [if_neg h3, decide_eq_false this]
      rfl
  refine ⟨tadd_acc hc hb d a c, tscale_acc hc hb d a g, fun hheld hp hq => ⟨?_, fun hq1 hm _ => ?_⟩, fun tag => tcvt_acc hc hb p a w h tag,
    fun tag => tcvt_opd hc hb p q w h tag⟩
  · simp only [← hwide]
    exact tmma_acc hc hb d p q w h hheld hp hq
  · have hgroups : (if w = 0 then 64 else 32) = if w.toNat = 0 then 64 else 32 := by
      by_cases h0 : w = 0
      · rw [if_pos h0, h0]
        rfl
      · have : w.toNat ≠ 0 := fun h => h0 (BitVec.eq_of_toNat_eq h)
        rw [if_neg h0, if_neg this]
    rw [hgroups] at hm
    simp only [← hwide]
    exact tmmaSp_acc hc hb d p q m w h hheld hp hq hq1 hm

end Sys2Proof.Machine
end

section
/-! PROOFS. Vector loads, gathers, stores and scatters (R154, R215, R216). -/

namespace Sys2Proof.Machine

variable {s t u : State}

/-- A mapped address translates for a lane as it does for a whole access. -/
theorem translate_maps {va : Word} {kind : AccessKind} {pol : Option Pol} {pa : Nat} (h : Maps s va kind pol pa) (lane : Nat) :
    translate s.space va kind pol lane s = .ok pa s := by
  obtain ⟨hb, h⟩ := h
  have hb' : s.backed (s.space.agent.cl / 64) pa = true := hb
  unfold translate
  cases hp : s.space.phys
  · rw [hp] at h
    obtain ⟨hc, t, ht, rfl⟩ := h
    rw [if_neg (by decide), if_neg (by simp [hc]), bind_ok (a := entryPa t.leaf + va.toNat % leafSize t.level t.leaf) (t := s), get_bind, if_pos hb']
    · rfl
    · rw [get_bind, ht]
      rfl
  · rw [hp] at h
    obtain ⟨rfl, hlt⟩ := h
    have h0 : va.toNat / 2 ^ 52 = 0 := Nat.div_eq_of_lt hlt
    rw [if_pos rfl, if_neg (by rw [h0]; decide), pure_bind_run, get_bind, if_pos hb']
    rfl

/-- The state with other accesses noted. -/
def State.withAccs (s : State) (a : List Acc) : State := { s with accs := a }

theorem sameSpot_withAccs (s : State) (a : List Acc) : SameSpot s (s.withAccs a) := ⟨rfl, rfl, rfl, rfl, rfl⟩

/-- What a vector access needs of its lanes: they are aligned, and their addresses translate to ordinary memory. -/
def LanesReach (s : State) (w : Nat) (addr : Nat → Word) (kind : AccessKind) (pol : Pol) (pa : Nat → Nat) (l : List Nat) : Prop :=
  ∀ k ∈ l, (addr k).toNat % w = 0 ∧ Maps s (addr k) kind (some pol) (pa k) ∧ isDevice (pa k) = false

theorem vecCheck_ok {lead l : List Nat} {w : Nat} {addr : Nat → Word} {kind : AccessKind} {pol : Pol} {pa : Nat → Nat}
    (hlead : ∀ k ∈ lead, (addr k).toNat % w = 0) (h : LanesReach s w addr kind pol pa l) :
    vecCheck lead l w addr kind pol s = .ok (l.map (fun k => (k, addr k, pa k))) s := by
  have hfind : lead.find? (fun i => (addr i).toNat % w != 0) = none := List.find?_eq_none.2 fun k hk => by simp [hlead k hk]
  have hmap : (l.mapM (fun i => do
      let pa ← translate s.space (addr i) kind (some pol) i
      pure (i, addr i, pa)) : Act _) s = .ok (l.map (fun k => (k, addr k, pa k))) s := by
    refine mapM_still l fun k hk => ?_
    obtain ⟨-, hm, -⟩ := h k hk
    rw [bind_ok (translate_maps hm k)]
    rfl
  have hdev : (l.map (fun k => (k, addr k, pa k))).find? (fun l => isDevice l.2.2) = none := List.find?_eq_none.2 fun x hx => by
    obtain ⟨k, hk, rfl⟩ := List.mem_map.1 hx
    obtain ⟨-, -, hd⟩ := h k hk
    simp [hd]
  unfold vecCheck
  rw [hfind]
  show (get >>= _ : Act _) s = _
  rw [get_bind, bind_ok hmap, hdev]
  rfl

theorem mem_activeLanes {w : Nat} {p : Word} {k : Nat} : k ∈ activeLanes w p ↔ k < 64 / w ∧ p.getLsbD (w * k) = true := by
  unfold activeLanes active
  rw [List.mem_filter, List.mem_range]

/-! Loads. -/

/-- A lane read of an owned word. -/
theorem readLane_ok {w k pa : Nat} {va : Word} {pol : Pol} {v : Word} (hs : Settled s) (ho : Owned s pa v) (a : List Acc) :
    ∃ c, (do
      note va w (some pol) true false k
      modify (fun s => s.waitOwn s.cur pa w)
      let s ← get
      let x ← liftAt va va (laneDetail .read pol false k) 0 (readBytes s.agent pol pa w none)
      pure (k, x.toNat) : Act (Nat × Nat)) (s.withAccs a) = .ok (k, (BitVec.ofNat 64 (subWord v (pa % 8) w)).toNat) (s.withAccs c) := by
  refine ⟨a ++ [{ va := va, n := w, pol := some pol, rd := true, wr := false, lane := k, device := false }], ?_⟩
  rw [bind_ok (note_ok _ va w (some pol) true false k false), modify_bind]
  generalize hb : a ++ [{ va := va, n := w, pol := some pol, rd := true, wr := false, lane := k, device := false }] = b
  have hn : (s.withAccs a).noted { va := va, n := w, pol := some pol, rd := true, wr := false, lane := k, device := false } = s.withAccs b := by
    rw [← hb]
    rfl
  rw [hn]
  have hs' : Settled (s.withAccs b) := hs
  have ho' : Owned (s.withAccs b) pa v := ho
  rw [waitOwn_settled hs', get_bind, bind_ok (a := BitVec.ofNat 64 (subWord v (pa % 8) w)) (t := s.withAccs b)]
  · rfl
  · unfold liftAt
    rw [readBytes_owned ho' (s.withAccs b).agent rfl]

theorem forall₂_map_eq {α β : Type} {f : α → β} : ∀ {l : List α} {m : List β}, List.Forall₂ (fun a b => b = f a) l m → m = l.map f
  | _, _, .nil => rfl
  | _, _, .cons h t => by rw [h, forall₂_map_eq t, List.map_cons]

theorem tfind_map_mem {β : Type} (f : Nat → β) (k : Nat) (l : List Nat) : tfind (l.map (fun k => (k, f k))) k = if k ∈ l then some (f k) else none := by
  rw [List.map_prod_left_eq_zip]
  exact tfind_zip_map f k l

/-- The bytes of a word that a lane takes. -/
theorem lane_subWord {w : Nat} (hw : IsWidth w) (v : Word) (k : Nat) :
    BitVec.ofNat (8 * w) (BitVec.ofNat 64 (subWord v k w)).toNat = v.extractLsb' (8 * k) (8 * w) := by
  have hle : 8 * w ≤ 64 := by
    rcases hw with rfl | rfl | rfl | rfl <;> decide
  rw [subWord_eq]
  apply BitVec.eq_of_toNat_eq
  rw [BitVec.toNat_ofNat, BitVec.toNat_ofNat, Nat.mod_mod_of_dvd _ (pow_dvd_pow 2 hle)]
  exact Nat.mod_eq_of_lt (BitVec.isLt _)

/-- A vector load of owned words. -/
theorem vecLoad_ok {d : Reg} {w : Nat} {pol : Pol} {p : Word} {lead : List Nat} {addr : Nat → Word} {pa : Nat → Nat} {v : Nat → Word}
    (hf : Free s) (hs : Settled s) (hw : IsWidth w) (hlead : ∀ k ∈ lead, (addr k).toNat % w = 0) (h : LanesReach s w addr .read pol pa (activeLanes w p))
    (ho : ∀ k ∈ activeLanes w p, Owned s (pa k) (v k)) :
    ∃ new, runAct s 4 (vecLoad d w pol p lead addr) = .next (s.wroteV d new) ∧
      ∀ k < 64 / w, laneAt (8 * w) new k = if p.getLsbD (w * k) then (v k).extractLsb' (8 * (pa k % 8)) (8 * w) else 0 := by
  obtain ⟨got, t, hgot, ⟨a, rfl⟩, hq⟩ := mapM_run (s := s) (P := fun t => ∃ a, t = s.withAccs a)
    (Q := fun (l : Nat × Word × Nat) (x : Nat × Nat) => x = (l.1, (BitVec.ofNat 64 (subWord (v l.1) (pa l.1 % 8) w)).toNat))
    (f := fun l => do
      note l.2.1 w (some pol) true false l.1
      modify (fun s => s.waitOwn s.cur l.2.2 w)
      let s ← get
      let x ← liftAt l.2.1 l.2.1 (laneDetail .read pol false l.1) 0 (readBytes s.agent pol l.2.2 w none)
      pure (l.1, x.toNat)) ((activeLanes w p).map (fun k => (k, addr k, pa k))) (fun l hl t ht => by
    obtain ⟨a, rfl⟩ := ht
    obtain ⟨k, hk, rfl⟩ := List.mem_map.1 hl
    obtain ⟨c, hc⟩ := readLane_ok (w := w) (k := k) (va := addr k) (pol := pol) hs (ho k hk) a
    exact ⟨_, _, hc, ⟨c, rfl⟩, rfl⟩) ⟨s.accs, rfl⟩
  have hgl := forall₂_map_eq hq
  rw [List.map_map] at hgl
  have hspot : SameSpot s ((s.withAccs a).writeV d (packLanes w ((List.range (64 / w)).map (fun i => tget got i 0)))) :=
    (sameSpot_withAccs s a).trans (sameSpot_modMe (s.withAccs a) rfl)
  have hrun : vecLoad d w pol p lead addr s = .ok () ((s.withAccs a).writeV d (packLanes w ((List.range (64 / w)).map (fun i => tget got i 0)))) := by
    unfold vecLoad
    rw [bind_ok (vecCheck_ok hlead h), bind_ok hgot]
    rfl
  refine ⟨packLanes w ((List.range (64 / w)).map (fun i => tget got i 0)), ?_, fun k hk => ?_⟩
  · rw [runAct_retires hf 4 hrun hspot]
    have ha : ({ (s.withAccs a).writeV d (packLanes w ((List.range (64 / w)).map (fun i => tget got i 0))) with accs := [] } : State) =
        s.writeV d (packLanes w ((List.range (64 / w)).map (fun i => tget got i 0))) :=
      accs_nil (s := s.writeV d _) hf.2.2
    rw [ha]
    rfl
  · rw [laneAt_packed hw hk, getD_map_range hk, hgl]
    have hfind := tfind_map_mem (fun k => (BitVec.ofNat 64 (subWord (v k) (pa k % 8) w)).toNat) k (activeLanes w p)
    rw [tget, show ((activeLanes w p).map ((fun l : Nat × Word × Nat => (l.1, (BitVec.ofNat 64 (subWord (v l.1) (pa l.1 % 8) w)).toNat)) ∘ fun k => (k, addr k, pa k))) =
      (activeLanes w p).map (fun k => (k, (BitVec.ofNat 64 (subWord (v k) (pa k % 8) w)).toNat)) from rfl, hfind]
    simp only [mem_activeLanes, hk, true_and]
    split
    · exact lane_subWord hw (v k) (pa k % 8)
    · rfl

/-! Stores. -/

/-- The stores of a vector's active lanes, in the store buffer of their core. -/
def State.laneStores (s u : State) (d : Reg) (w : Nat) (pol : Pol) (pa : Nat → Nat) (l : List Nat) : State :=
  l.foldl (fun (t : State) k => t.modCore s.myCore (fun c => { c with
    sbuf := c.sbuf ++ [s.pendingStore (pa k) w (BitVec.ofNat 64 (laneAt (8 * w) (s.readV d) k).toNat) pol s.me.fenced] })) u

/-- The context in turn is the same, but for an X7 that a message wakes. -/
structure SameMe (s t : State) : Prop where
  cur : t.cur = s.cur
  me : ∃ w, t.me = { s.me with inwfm := w }

theorem Apart.sameMe (h : Apart s t) : SameMe s t := ⟨h.cur, by
  unfold State.me
  rw [h.cur]
  exact h.super s.cur⟩

theorem queueLanes_ok {d : Reg} {w : Nat} {pol : Pol} {addr : Nat → Word} {pa : Nat → Nat} : ∀ (l : List Nat) (u : State), SameMe s u →
    (l.map (fun k => (k, addr k, pa k))).foldl (fun s l => s.queuePending l.2.2 w (BitVec.ofNat 64 (lane w (s.readV d) l.1)) pol (s.relOf .plain .ctx)) u =
      s.laneStores u d w pol pa l
  | [], _, _ => rfl
  | k :: l, u, h => by
    obtain ⟨x, hx⟩ := h.me
    have hstep : u.queuePending (pa k) w (BitVec.ofNat 64 (lane w (u.readV d) k)) pol (u.relOf .plain .ctx) =
        u.modCore s.myCore (fun c => { c with
          sbuf := c.sbuf ++ [s.pendingStore (pa k) w (BitVec.ofNat 64 (laneAt (8 * w) (s.readV d) k).toNat) pol s.me.fenced] }) := by
      rw [queuePending_eq, State.pendingStore, State.pendingStore, State.pc, h.cur, hx, ← lane_eq, State.myCore, h.cur, State.readV, hx, State.relOf, hx]
      have hw : widest (if Order.plain = .rel then some Scope.ctx else none) s.me.fenced = s.me.fenced := by
        rw [if_neg (by decide)]
        cases s.me.fenced <;> rfl
      rw [hw]
      rfl
    rw [List.map_cons, List.foldl_cons, hstep]
    exact queueLanes_ok l _ ⟨h.cur, h.me⟩

theorem laneStores_withAccs (s u : State) (d : Reg) (w : Nat) (pol : Pol) (pa : Nat → Nat) (l : List Nat) (a : List Acc) :
    s.laneStores (u.withAccs a) d w pol pa l = (s.laneStores u d w pol pa l).withAccs a :=
  foldl_commute (g := fun t : State => t.withAccs a) (fun _ _ => rfl) l u

theorem sameSpot_laneStores (s u : State) (d : Reg) (w : Nat) (pol : Pol) (pa : Nat → Nat) (l : List Nat) : SameSpot u (s.laneStores u d w pol pa l) := by
  unfold State.laneStores
  refine foldl_keeps (p := SameSpot u) ?_ l (SameSpot.refl u)
  intro t k h
  exact h.trans (sameSpot_modCore t _ (fun _ => rfl) (fun _ => rfl) fun _ => rfl)

theorem laneStores_accs (s u : State) (d : Reg) (w : Nat) (pol : Pol) (pa : Nat → Nat) (l : List Nat) : (s.laneStores u d w pol pa l).accs = u.accs := by
  unfold State.laneStores
  refine foldl_keeps (p := fun t : State => t.accs = u.accs) ?_ l rfl
  intro t k h
  exact h

/-- Accesses noted one after another. -/
theorem noteLanes_ok (w : Nat) (pol : Pol) : ∀ (l : List (Nat × Word × Nat)) (a : List Acc),
    ∃ b, (l.forM (fun l => note l.2.1 w (some pol) false true l.1)) (u.withAccs a) = .ok () (u.withAccs b)
  | [], a => ⟨a, rfl⟩
  | x :: l, a => by
    obtain ⟨b, hb⟩ := noteLanes_ok w pol l (a ++ [{ va := x.2.1, n := w, pol := some pol, rd := false, wr := true, lane := x.1, device := false }])
    exact ⟨b, (bind_ok (note_ok (u.withAccs a) x.2.1 w (some pol) false true x.1 false)).trans hb⟩

/-- A plain access is a release at the scope of an earlier fence only. -/
theorem relOf_plain (s : State) : s.relOf .plain .ctx = s.me.fenced := by
  unfold State.relOf
  rw [if_neg (by decide)]
  cases s.me.fenced <;> rfl

theorem waitRelease_plain (s : State) : s.waitRelease .plain .ctx = match s.me.fenced with | some f => s.releaseWait s.cur f | none => s := by
  have hw : s.relOf .plain .ctx = s.me.fenced := relOf_plain s
  cases hf : s.me.fenced with
  | none => simp only [State.waitRelease, hw, hf]
  | some f => simp only [State.waitRelease, hw, hf]

/-- A vector store leaves its active lanes, ascending, in its core's store buffer. -/
theorem vecStore_ok {d : Reg} {w : Nat} {pol : Pol} {p : Word} {lead : List Nat} {addr : Nat → Word} {pa : Nat → Nat}
    (hf : Free s) (hs : s.me.fenced ≠ none → Settled s) (hlead : ∀ k ∈ lead, (addr k).toNat % w = 0) (h : LanesReach s w addr .write pol pa (activeLanes w p)) :
    runAct s 4 (vecStore d w pol p lead addr) = .next ((s.laneStores (s.waitRelease .plain .ctx) d w pol pa (activeLanes w p)).retireTo (s.pc + 4)) := by
  have hrel : s.relOf .plain .ctx = s.me.fenced := relOf_plain s
  have hu : Apart s (s.waitRelease .plain .ctx) := waitRelease_apart fun h => hs (by rw [← hrel]; exact h)
  generalize hue : s.waitRelease .plain .ctx = u at hu
  have hacc : u.accs = [] := hu.accs.trans hf.2.2
  obtain ⟨b, hb⟩ := noteLanes_ok (u := u) w pol ((activeLanes w p).map (fun k => (k, addr k, pa k))) u.accs
  have hspot : SameSpot s ((s.laneStores u d w pol pa (activeLanes w p)).withAccs b) :=
    (hu.sameSpot.trans (sameSpot_laneStores s u ..)).trans (sameSpot_withAccs _ b)
  have hrun : vecStore d w pol p lead addr s = .ok () ((s.laneStores u d w pol pa (activeLanes w p)).withAccs b) := by
    have hb : ((activeLanes w p).map (fun k => (k, addr k, pa k))).forM (fun l => note l.2.1 w (some pol) false true l.1) u =
        .ok () (u.withAccs b) := hb
    unfold vecStore
    rw [bind_ok (vecCheck_ok hlead h), modify_bind, hue, bind_ok hb]
    refine guarded_ok ?_ (hspot.free hf _)
    rw [modify_ok, queueLanes_ok (s := s) _ (u.withAccs b) ⟨hu.cur, hu.sameMe.me⟩, laneStores_withAccs]
  have ha : ({ (s.laneStores u d w pol pa (activeLanes w p)).withAccs b with accs := [] } : State) = s.laneStores u d w pol pa (activeLanes w p) :=
    accs_nil ((laneStores_accs s u ..).trans hacc)
  exact (runAct_retires hf 4 hrun hspot).trans (congrArg (fun t : State => (.next (t.retireTo (s.pc + 4)) : Answer)) ha)

/-- Settles O32. -/
theorem vectorLoadsAndStores : Obligations.VectorLoadsAndStores := by
  intro d b i pol e g off s pa hf w on row idx reads writes
  have hw : IsWidth w := isWidth_laneBytes e
  have hidx : ∀ k, idx k = addrLane (s.readG b) (s.readV i) w k := fun k => by
    show _ = s.readG b + BitVec.ofNat 64 (lane w (s.readV i) k * w)
    rw [lane_eq]
  have hrow : ∀ k, row k = addrRow (s.vecBase b off) w k := fun k => rfl
  have hon : ∀ k, k ∈ activeLanes w (s.readP g) → k < 64 / w ∧ on k = true := fun k hk => mem_activeLanes.1 hk
  have hread : ∀ (addr : Nat → Word) (lead : List Nat), (∀ k ∈ lead, (addr k).toNat % w = 0 ∨ (k < 64 / w ∧ on k = true)) → ∀ x : Instr,
      exec x s = runAct s 4 (vecLoad d w pol (s.readP g) lead addr) → reads addr x := by
    intro addr lead hlead x hx v hs h
    have hl : ∀ k ∈ lead, (addr k).toNat % w = 0 := fun k hk => (hlead k hk).elim id fun hk => (h k hk.1 hk.2).1
    obtain ⟨new, h1, h2⟩ := vecLoad_ok (d := d) (pol := pol) hf hs hw hl (fun k hk => by
      obtain ⟨h1, h2, h3, -⟩ := h k (hon k hk).1 (hon k hk).2
      exact ⟨h1, h2, h3⟩) (v := v) fun k hk => (h k (hon k hk).1 (hon k hk).2).2.2.2
    exact ⟨new, hx.trans h1, h2⟩
  have hwrite : ∀ (addr : Nat → Word) (lead : List Nat), (∀ k ∈ lead, (addr k).toNat % w = 0 ∨ (k < 64 / w ∧ on k = true)) → ∀ x : Instr,
      exec x s = runAct s 4 (vecStore d w pol (s.readP g) lead addr) → writes addr x := by
    intro addr lead hlead x hx h hs
    have hl : ∀ k ∈ lead, (addr k).toNat % w = 0 := fun k hk => (hlead k hk).elim id fun hk => (h k hk.1 hk.2).1
    rw [hx, vecStore_ok hf hs hl fun k hk => h k (hon k hk).1 (hon k hk).2, waitRelease_plain]
    rfl
  have hidx' : idx = addrLane (s.readG b) (s.readV i) w := funext hidx
  rw [hidx']
  refine ⟨fun h0 => ⟨hread row [0] (fun k hk => .inl ?_) _ rfl, hwrite row [0] (fun k hk => .inl ?_) _ rfl⟩,
    hread _ (activeLanes w (s.readP g)) (fun k hk => .inr (hon k hk)) _ rfl, hwrite _ (activeLanes w (s.readP g)) (fun k hk => .inr (hon k hk)) _ rfl⟩
  · rw [List.mem_singleton.1 hk]
    exact h0
  · rw [List.mem_singleton.1 hk]
    exact h0

end Sys2Proof.Machine
end

section
/-! PROOFS. Tables whose keys stand out of order. A table takes the first entry of a key, and an entry that a change puts before
another of the same key hides it; what goes through a table's entries one by one meets both. Statements about every state meet
such tables. -/

namespace Sys2Proof.Machine

/-- Without a watchpoint's control word no access matches. -/
theorem unwatched_of_unset {s : State} (h : (s.core (coreOf s.cur)).wpb = []) : Unwatched s := by
  intro accs
  have hn : ∀ w, accs.find? (watchMatches (tget (s.core (coreOf s.cur)).wpa w 0) (tget (s.core (coreOf s.cur)).wpb w 0) s.cur) = none := by
    intro w
    rw [h, List.find?_eq_none]
    intro a _
    simp [watchMatches, tget, tfind]
  exact List.findSome?_eq_none_iff.2 fun w _ => hn w

/-- X7 of the boot core at 0x1000, whose cluster holds a line with an untracked word behind the entry of another. -/
def unordered : State := { State.reset with
  ctxs := [(7, { Context.bootX7 with pc := 0x1000, g := [(2, 0x8000)] })]
  clusters := [(0, { Cluster.init with clc := [(0x8000, { CacheLine.absent with
    words := [(1, CacheWord.absent), (0, { CacheWord.absent with st := .u })] })] })] }

theorem unordered_word (pa : Nat) : (unordered.clWord 0 pa).st = .i ∨ (unordered.clWord 0 pa).st = .u := by
  have hl : (unordered.clLine 0 (lineOf pa)).words = [] ∨ (unordered.clLine 0 (lineOf pa)).words = [(1, CacheWord.absent), (0, { CacheWord.absent with st := .u })] := by
    show (tget [(0x8000, _)] (lineOf pa) CacheLine.absent).words = [] ∨ _
    by_cases h : 0x8000 = lineOf pa
    · exact .inr (by simp [State.clLine, unordered, State.cluster, tget, tfind, ← h])
    · exact .inl (by simp [tget, tfind, h, CacheLine.absent])
  unfold State.clWord
  rcases hl with hl | hl
  · exact .inl (by rw [hl]; rfl)
  · rw [hl]
    by_cases h1 : 1 = wordIx pa
    · exact .inl (by simp [tget, tfind, h1, CacheWord.absent])
    · by_cases h0 : 0 = wordIx pa
      · exact .inr (by simp [tget, tfind, ← h0])
      · exact .inl (by simp [tget, tfind, h1, h0, CacheWord.absent])

/-- After an answer, the word stands owned. -/
def ownsAfter (a : Answer) (cl pa : Nat) : Bool :=
  match a with
  | .next t => (t.clWord cl pa).st == .o
  | _ => false

theorem ownsAfter_next (t : State) (cl pa : Nat) : ownsAfter (.next t) cl pa = ((t.clWord cl pa).st == .o) := rfl

/-- Refutes O24: an atomic under .own that acquires at .sys discards the untracked words of its cluster, and drops the word that
it has made owned where an entry of that word behind it is one. -/
theorem not_atomicsOnOwnedWords : ¬ Obligations.AtomicsOnOwnedWords := by
  intro h
  have hcalm : Calm unordered 0 0x8000 := ⟨rfl, rfl, rfl, rfl, rfl, by decide +kernel, by decide +kernel, by decide, by decide, rfl⟩
  have hdrained : Drained unordered := ⟨⟨rfl, fun e _ => rfl⟩, fun pa hb => by
    rcases unordered_word pa with hu | hu
    · exact absurd (hu.symm.trans hb) (by decide)
    · exact absurd (hu.symm.trans hb) (by decide)⟩
  obtain ⟨⟨t, new, ht, -, -, -, -, -, hword⟩, -⟩ := h.2 1 2 .own .acq .sys 0 true unordered 0x8000 0 ⟨rfl, unwatched_of_unset rfl, rfl⟩ hdrained rfl
    ⟨by decide +kernel, rfl, by decide⟩ rfl hcalm (.inl ⟨⟨.inr (.inr rfl), rfl, rfl⟩, rfl, rfl⟩)
  have hrun : ownsAfter (exec (.amoAdd 1 2 .own .acq .sys 0 true) unordered) 0 0x8000 = false := by decide +kernel
  have hword : t.clWord 0 0x8000 = { CacheWord.absent with st := .o, data := new } := hword
  rw [ht, ownsAfter_next, hword] at hrun
  have hno : true = false := hrun
  exact absurd hno (by decide)

/-- A thread of tenant 3 that has held user context 0 since the clock began, whose tenant's uncounted time stands behind another's. -/
def uncounted : State := { State.reset with
  clock := 3200
  ctxs := [(0, { Context.vacant with life := .running, tcb := 0x50000, tno := 3 }), (7, Context.bootX7)]
  pkgs := [(0, { Package.init with unadded := [(5, 1), (3, 1)] })] }

/-- The context time that a tenant has used in its window, after an answer. -/
def usedAfter (a : Answer) (sock n : Nat) : Nat :=
  match a with
  | .next t => tget (t.pkg sock).used n 0
  | _ => 0

theorem usedAfter_next (t : State) (sock n : Nat) : usedAfter (.next t) sock n = tget (t.pkg sock).used n 0 := rfl

/-- Refutes O49: where the uncounted time of a tenant stands behind that of one of a greater number, its context's time is entered
before both, and the update counts the earlier time twice. -/
theorem not_windowsSleepersAndWaiters : ¬ Obligations.WindowsSleepersAndWaiters := by
  intro h
  obtain ⟨-, -, -, htime, -⟩ := h uncounted 0 0 0
  obtain ⟨t, ht, -, -, -, -, hused⟩ := htime (by decide) (by decide) (by decide) (by decide)
  obtain ⟨hused, -⟩ := hused 3
  have hrun : usedAfter (exec (.contextTimeUpdate 0) uncounted) 0 3 = 1002 := by decide +kernel
  rw [ht, usedAfter_next] at hrun
  rw [hrun] at hused
  exact absurd hused (by decide +kernel)

/-- The header of a thread, all of it 0, and the lines in which a cluster owns it. -/
def ownedHeader : Tbl CacheLine :=
  let words := fun n => (List.range n).map (fun k => (k, { CacheWord.absent with st := .o }))
  [(0x8C00, { CacheLine.absent with words := words 8 }), (0x8C40, { CacheLine.absent with words := words 4 })]

/-- A thread that stands in the queues of two dispatchers, of which the second is listed first. -/
def standingTwice : State := { State.reset with
  ctxs := [(7, { Context.bootX7 with pc := 0x1000, g := [(2, 0x8000), (3, 1)] })]
  clusters := [(5, { Cluster.init with runq := [(1, [0x8000, 0x99000])] }), (0, { Cluster.init with clc := ownedHeader, runq := [(1, [0x8000])] })] }

/-- The thread last in a queue, after an answer. -/
def lastAfter (a : Answer) (cl q : Nat) : Option Nat :=
  match a with
  | .next t => (t.queue cl q).getLast?
  | _ => none

theorem lastAfter_next (t : State) (cl q : Nat) : lastAfter (.next t) cl q = (t.queue cl q).getLast? := rfl

/-- Refutes O38: `tprio` writes the thread's header before it looks for the queue in which the thread stands; where the clusters are
listed out of order, that write enters the dispatcher's cluster before the others, and of two queues that hold the thread the
other one is changed. -/
theorem not_spawnWakeAndPriority : ¬ Obligations.SpawnWakeAndPriority := by
  intro h
  obtain ⟨-, h⟩ := h
  have howned : ∀ k < 12, Owned standingTwice (0x8000 + 0xC00 + 8 * k) 0 := by
    unfold Owned
    decide +kernel
  obtain ⟨-, -, -, -, -, -, hprio⟩ := h standingTwice 1 2 3 0x8000 (fun _ => 0) ⟨rfl, unwatched_of_unset rfl, rfl⟩ ⟨rfl, fun e _ => rfl⟩
    ⟨rfl, ⟨by decide +kernel, rfl, by decide⟩, rfl, howned, .inl rfl⟩
  obtain ⟨t, ht, -, -, -, -, hstands⟩ := hprio (by decide) (.inl rfl)
  obtain ⟨-, hlast⟩ := hstands 5 1 (by decide +kernel)
  obtain ⟨hlast, -⟩ := hlast (by decide +kernel)
  have hrun : lastAfter (exec (.tprio 1 2 3) standingTwice) 5 1 = some 0x99000 := by decide +kernel
  rw [ht, lastAfter_next] at hrun
  have hlast : (t.queue 5 1).getLast? = some 0x8000 := hlast
  rw [hrun] at hlast
  exact absurd hlast (by decide)

/-- The words of two lines that a cluster owns, all 0, of which one has the entry of an untracked word behind it. -/
def shadowed : Tbl CacheLine :=
  let words := (List.range 8).map (fun k => (k, { CacheWord.absent with st := .o }))
  [(0x9000, { CacheLine.absent with words := words }), (0x9040, { CacheLine.absent with words := words ++ [(0, { CacheWord.absent with st := .u })] })]

/-- A bound thread whose m1 names one row of 128 bytes, at g2, in a page that maps to the words above; memory holds 1 at the shadowed
word. -/
def loadingShadowed : State := { State.reset with
  cur := 0
  mem := memPutWord (memPutWord [] 0x50C28 0x200000) 0x9040 1
  ctxs := [(0, { Context.vacant with life := .running, pc := 0x2000, tcb := 0x50000, tno := 5, g := [(2, 0x8000)], m := [(1, 1)] }), (7, Context.bootX7)]
  cores := [(0, { Core.init with tlb := [{ asn := 0, level := 1, page := 8, leaf := 0x91FF }] })]
  clusters := [(0, { Cluster.init with clc := shadowed })]
  engines := [(0, { Engine.init with bindings := [(0, { Binding.none with tcb := 0x50000, acc := List.range 4, opd := List.range 8 })] })] }

/-- Word k of row r of an operand tile, after an answer. -/
def tileWordAfter (a : Answer) (e b : Nat) (n : BitVec 3) (r k : Nat) : Word :=
  match a with
  | .next t => ((t.opTile e b n).row r).extractLsb' (64 * k) 64
  | _ => 0

theorem tileWordAfter_next (t : State) (e b : Nat) (n : BitVec 3) (r k : Nat) :
    tileWordAfter (.next t) e b n r k = ((t.opTile e b n).row r).extractLsb' (64 * k) 64 := rfl

/-- Refutes O44: a `tload.v` that acquires at .sys discards the untracked words of its cluster as it reads its version; where the entry
of an untracked word stands behind that of an owned one, the owned word goes with it, and its row is read from memory. -/
theorem not_tileLoads : ¬ Obligations.TileLoads := by
  intro h
  have hbound : BoundAt loadingShadowed 0 0 := by
    refine ⟨rfl, by decide, by decide +kernel, by decide +kernel, by decide +kernel, rfl, rfl, by decide, by decide⟩
  have hmaps : ∀ kind, kind = .read ∨ kind = .atomic → Maps loadingShadowed 0x8000 kind (some .wt) 0x9000 := by
    rintro kind (rfl | rfl)
    · exact ⟨by decide +kernel, rfl, _, rfl, rfl⟩
    · exact ⟨by decide +kernel, rfl, _, rfl, rfl⟩
  have hrows : RowsAt loadingShadowed 1 (loadingShadowed.readG 2 + (0#27).signExtend 64) 128 .read .wt (fun _ => 0x9000) := by
    refine ⟨by decide, by decide, by decide, fun r hr => ?_⟩
    obtain rfl : r = 0 := Nat.lt_one_iff.1 hr
    exact ⟨rfl, by decide, hmaps .read (.inl rfl), rfl⟩
  have howned : ∀ k < 16, Owned loadingShadowed (0x9000 + 8 * k) 0 := by
    unfold Owned
    decide +kernel
  obtain ⟨-, -, hversion⟩ := h loadingShadowed 0 0 1 1 2 2 .wt .acq .sys 0 (fun _ => 0x9000) (fun _ => 0) (fun _ _ => 0) (fun _ _ => 0)
    ⟨rfl, unwatched_of_unset rfl, rfl⟩ ⟨rfl, fun e he => by revert e; decide +kernel⟩ hbound hrows fun r _ => howned
  obtain ⟨heven, -⟩ := hversion 0x9000 0 (by decide) (by decide) ⟨by decide, hmaps .atomic (.inr rfl), rfl⟩ (howned 0 (by decide))
  obtain ⟨t, fl, ht, -, ⟨-, hrow, -⟩, -⟩ := heven (by decide) ⟨by decide, rfl, by decide +kernel⟩
  have hword := hrow 0 (by decide) 8 (by decide)
  have hrun : tileWordAfter (exec (.tloadV 1 1 2 .wt .acq .sys 2 0) loadingShadowed) 0 0 1 0 8 = 1 := by decide +kernel
  rw [ht, tileWordAfter_next, hword] at hrun
  exact absurd hrun (by decide +kernel)

end Sys2Proof.Machine
end

section
/-! PROOFS. What a request for one word leaves as it was: the words of other addresses, the copies that its own cluster keeps, who owns
every other word, and all that is no cache, directory, memory or record (R105, R119). -/

namespace Sys2Proof.Machine

variable {s t u : State} {q : Nat} {kept : Option Nat}

/-- Records, ports and marks aside, nothing differs. -/
structure Like (s t : State) : Prop extends Still s t where
  ctxs : t.ctxs = s.ctxs
  cores : t.cores = s.cores
  cur : t.cur = s.cur
  accs : t.accs = s.accs

theorem Like.refl (s : State) : Like s s := { Still.refl s with ctxs := rfl, cores := rfl, cur := rfl, accs := rfl }

theorem Like.trans (h : Like s t) (g : Like t u) : Like s u :=
  { h.toStill.trans g.toStill with
    ctxs := g.ctxs.trans h.ctxs, cores := g.cores.trans h.cores, cur := g.cur.trans h.cur, accs := g.accs.trans h.accs }

theorem quiet_like (s : State) : Quiet (Like s) where
  records := fun _ _ _ _ _ h => { h with mem := h.mem }

theorem Noted.like (h : Noted s t) : Like s t := by
  obtain ⟨a, b, c, d, rfl⟩ := h
  exact (quiet_like s).records _ _ _ _ _ (Like.refl s)

theorem like_modCluster (s : State) (n : Nat) {f : Cluster → Cluster} (h : ∀ c, (f c).clc = c.clc) : Like s (s.modCluster n f) :=
  { still_modCluster s n h with ctxs := rfl, cores := rfl, cur := rfl, accs := rfl }

theorem like_modPort (s : State) (p : Nat) (f : Port → Port) : Like s (s.modPort p f) := like_modCluster s _ fun _ => rfl

theorem like_occupy (s : State) (p unit sub : Nat) : Like s (s.occupy p unit sub) := keep_countPort (quiet_like s) (like_modPort s p _)

theorem like_replyEnds (s : State) (p : Nat) : Like s (s.replyEnds p false) := like_modPort s p (fun x => { x.onReply false with out := x.out - 1 })

theorem like_missEvent (s : State) (a : Agent) (r : Req) (owned : Bool) (n : Nat) : Like s (s.missEvent a r owned n) :=
  keep_missEvent (quiet_like s) (Like.refl s)

theorem like_markRecheck (s : State) (cl line : Nat) : Like s (s.markRecheck cl line) := by
  unfold State.markRecheck
  split
  · exact like_modCluster s cl fun _ => rfl
  · exact Like.refl s

theorem like_approach (h : s.flights = []) (a : Agent) (pa : Nat) : Like s (s.approach a pa) := by
  unfold State.approach
  simp only [h, List.isEmpty_nil, if_true]
  exact like_occupy s _ _ _

theorem like_charged (s : State) (r : Req) : Like s (s.charged r) :=
  keep_chargeHome (quiet_like s) (keep_draw (quiet_like s) (Like.refl s))

/-- What a change of the word at an address leaves of the memory system as it was; the copies of one cluster are kept. -/
structure AtCells (q : Nat) (kept : Option Nat) (s t : State) : Prop where
  flights : t.flights = s.flights
  slc : s.slc = [] → t.slc = []
  pkgs : t.pkgs = s.pkgs
  fuses : t.fuses = s.fuses
  clc : ∀ c, kept = some c → (t.cluster c).clc = (s.cluster c).clc
  words : ∀ c pa, kept = some c ∨ wordOf pa ≠ wordOf q → t.clWord c pa = s.clWord c pa
  errs : ∀ a, tfind s.errs a = none → tfind t.errs a = none
  dir : ∀ l w, l ≠ lineOf q ∨ w ≠ wordIx q → tfind (t.dirOf l).owners w = tfind (s.dirOf l).owners w
  proxy : ∀ k w, k % 2 ^ 52 ≠ lineOf q % 2 ^ 52 ∨ w ≠ wordIx q →
    tfind (tget t.proxies k DirEntry.absent).owners w = tfind (tget s.proxies k DirEntry.absent).owners w

theorem AtCells.trans (h : AtCells q kept s t) (g : AtCells q kept t u) : AtCells q kept s u where
  flights := g.flights.trans h.flights
  slc := fun e => g.slc (h.slc e)
  pkgs := g.pkgs.trans h.pkgs
  fuses := g.fuses.trans h.fuses
  clc := fun c hc => (g.clc c hc).trans (h.clc c hc)
  words := fun c pa hc => (g.words c pa hc).trans (h.words c pa hc)
  errs := fun a ha => g.errs a (h.errs a ha)
  dir := fun l w hw => (g.dir l w hw).trans (h.dir l w hw)
  proxy := fun k w hw => (g.proxy k w hw).trans (h.proxy k w hw)

theorem Still.atCells (h : Still s t) (q : Nat) (kept : Option Nat) : AtCells q kept s t where
  flights := h.flights
  slc := h.slc.trans
  pkgs := h.pkgs
  fuses := h.fuses
  clc := fun c _ => h.clc c
  words := fun c pa _ => h.clWord c pa
  errs := fun a ha => by rw [h.errs, ha]
  dir := fun l w _ => by rw [h.dirOf]
  proxy := fun k w _ => by rw [h.proxies]

/-- What a request for the word at an address leaves as it was; the copies of one cluster are kept. -/
structure AtWord (q : Nat) (kept : Option Nat) (s t : State) : Prop extends AtCells q kept s t where
  ctxs : t.ctxs = s.ctxs
  cores : t.cores = s.cores
  cur : t.cur = s.cur
  accs : t.accs = s.accs

theorem AtWord.trans (h : AtWord q kept s t) (g : AtWord q kept t u) : AtWord q kept s u :=
  { h.toAtCells.trans g.toAtCells with
    ctxs := g.ctxs.trans h.ctxs, cores := g.cores.trans h.cores, cur := g.cur.trans h.cur, accs := g.accs.trans h.accs }

theorem Like.atWord (h : Like s t) (q : Nat) (kept : Option Nat) : AtWord q kept s t :=
  { h.toStill.atCells q kept with ctxs := h.ctxs, cores := h.cores, cur := h.cur, accs := h.accs }

theorem AtWord.refl (q : Nat) (kept : Option Nat) (s : State) : AtWord q kept s s := (Like.refl s).atWord q kept

theorem Cured.atWord (h : Cured s t) (q : Nat) (kept : Option Nat) : AtWord q kept s t := by
  obtain ⟨⟨_, _, _, _, _, rfl⟩, hn⟩ := h
  exact { AtWord.refl q kept s with errs := hn }

/-- What keeps a cluster's copies keeps the rest as well. -/
theorem AtWord.weaken (h : AtWord q kept s t) : AtWord q none s t :=
  { h with
    clc := fun _ e => by cases e
    words := fun c pa hc => h.words c pa (hc.elim (fun e => by cases e) .inr) }

theorem AtCells.pkg (h : AtCells q kept s t) (k : Nat) : t.pkg k = s.pkg k := by
  rw [State.pkg, State.pkg, h.pkgs]

theorem AtCells.joined (h : AtCells q kept s t) (a b : Nat) : t.joined a b = s.joined a b := joined_congr h.pkgs h.fuses a b

theorem AtWord.me (h : AtWord q kept s t) : t.me = s.me := by
  rw [State.me, State.me, State.ctx, State.ctx, h.cur, h.ctxs]

/-- Another word of the same line keeps its owner. -/
theorem AtCells.ownerOf (h : AtCells q kept s t) {pa : Nat} (hl : lineOf pa % 2 ^ 52 = lineOf q % 2 ^ 52 → wordIx pa ≠ wordIx q) : t.ownerOf pa = s.ownerOf pa := by
  have hd : tfind (t.dirOf (lineOf pa)).owners (wordIx pa) = tfind (s.dirOf (lineOf pa)).owners (wordIx pa) := by
    refine h.dir _ _ ?_
    by_cases e : lineOf pa = lineOf q
    · exact .inr (hl (by rw [e]))
    · exact .inl e
  have hp : ∀ k, tfind (t.proxyOf k (lineOf pa)).owners (wordIx pa) = tfind (s.proxyOf k (lineOf pa)).owners (wordIx pa) := fun k => by
    refine h.proxy _ _ ?_
    have hk : proxyKey k (lineOf pa) % 2 ^ 52 = lineOf pa % 2 ^ 52 := by
      unfold proxyKey
      omega
    rw [hk]
    by_cases e : lineOf pa % 2 ^ 52 = lineOf q % 2 ^ 52
    · exact .inr (hl e)
    · exact .inl e
  unfold State.ownerOf
  rw [hd]
  simp only [hp]

/-! Caches. -/

theorem atWord_setClWord (s : State) (cl q : Nat) {x : CacheWord} (h : x.st = .i → x = CacheWord.absent) : AtWord q none s (s.setClWord cl q x) :=
  { AtWord.refl q none s with
    clc := fun _ e => by cases e
    words := fun c pa hc => by
      rw [clWord_setClWord _ _ _ _ _ _ h, if_neg fun e => hc.elim (fun e => by cases e) fun hn => hn e.2] }

/-- A copy of another cluster than the one that keeps its copies. -/
theorem atWord_dropClWord (s : State) {c : Nat} (q : Nat) (h : kept ≠ some c) : AtWord q kept s (s.dropClWord c q) :=
  { AtWord.refl q kept s with
    clc := fun d e => by
      have hc : d ≠ c := fun ed => h (ed ▸ e)
      rw [State.dropClWord, State.setClWord, cluster_modCluster, if_neg hc]
    words := fun d pa hd => by
      rw [State.dropClWord, clWord_setClWord _ _ _ _ _ _ fun _ => rfl, if_neg]
      rintro ⟨rfl, hw⟩
      exact hd.elim h fun hn => hn hw }

/-! Directories. -/

theorem atWord_modDir (s : State) (q : Nat) (kept : Option Nat) {f : DirEntry → DirEntry} (h : ∀ e w, w ≠ wordIx q → tfind (f e).owners w = tfind e.owners w) :
    AtWord q kept s (s.modDir (lineOf q) f) :=
  { AtWord.refl q kept s with
    dir := fun l w hw => by
      have := owners_modEntry s.dir (lineOf q) l f
      rw [show ((s.modDir (lineOf q) f).dirOf l).owners = _ from this]
      split
      · next e =>
        rw [h _ _ (hw.resolve_left fun hn => hn e), e]
        rfl
      · rfl }

theorem atWord_modProxy (s : State) (q : Nat) (kept : Option Nat) (j : Nat) {f : DirEntry → DirEntry}
    (h : ∀ e w, w ≠ wordIx q → tfind (f e).owners w = tfind e.owners w) : AtWord q kept s (s.modProxy j (lineOf q) f) :=
  { AtWord.refl q kept s with
    proxy := fun k w hw => by
      have := owners_modEntry s.proxies (proxyKey j (lineOf q)) k f
      rw [show (tget (s.modProxy j (lineOf q) f).proxies k DirEntry.absent).owners = _ from this]
      split
      · next e =>
        have hk : k % 2 ^ 52 = lineOf q % 2 ^ 52 := by
          rw [e, proxyKey]
          omega
        rw [h _ _ (hw.resolve_left fun hn => hn hk), e]
      · rfl }

theorem atWord_putWord (s : State) (q : Nat) (kept : Option Nat) (x : Word) (mask : BitVec 8) (p : Nat) : AtWord q kept s (s.putWord p x mask) :=
  { AtWord.refl q kept s with
    slc := fun h => by
      show (if mask = 255#8 then tdel s.slc p else s.slc) = []
      rw [h]
      exact ite_self _
    errs := fun a ha => by
      show tfind (if mask = 255#8 then tdel s.errs p else s.errs) a = none
      split
      · rw [tfind_tdel, ha, ite_self]
      · exact ha }

theorem tfind_tdel_other {α : Type} (t : Tbl α) {k r : Nat} (h : r ≠ k) : tfind (tdel t k) r = tfind t r := by rw [tfind_tdel, if_neg h]

theorem atWord_dropOwner (s : State) (q : Nat) (kept : Option Nat) : AtWord q kept s (s.dropOwner q) := by
  have hd : ∀ e : DirEntry, ∀ w, w ≠ wordIx q → tfind (tdel e.owners (wordIx q)) w = tfind e.owners w := fun e w hw => tfind_tdel_other e.owners hw
  unfold State.dropOwner
  dsimp only
  split
  · exact atWord_modDir s q kept hd
  · split
    · exact atWord_modDir s q kept hd
    · exact (atWord_modProxy s q kept _ hd).trans (atWord_modDir _ q kept hd)

theorem atWord_setOwner (s : State) (q c : Nat) (kept : Option Nat) : AtWord q kept s (s.setOwner q c) := by
  have hd : ∀ (e : DirEntry) (x w : Nat), w ≠ wordIx q → tfind (tset e.owners (wordIx q) x) w = tfind e.owners w := fun e x w hw => tfind_tset_other e.owners x hw
  unfold State.setOwner
  dsimp only
  split
  · exact (atWord_dropOwner s q kept).trans (atWord_modDir _ q kept fun e => hd e _)
  · exact ((atWord_dropOwner s q kept).trans (atWord_modProxy _ q kept _ fun e => hd e _)).trans (atWord_modDir _ q kept fun e => hd e _)

theorem atWord_loseWord (s : State) (cl q : Nat) : AtWord q none s (s.loseWord cl q) :=
  (atWord_setClWord s cl q fun _ => rfl).trans (atWord_dropOwner _ q none)

/-! Invalidation. -/

theorem atWord_invalidate (s : State) {c : Nat} (q : Nat) (h : kept ≠ some c) : AtWord q kept s (s.invalidate c q).1 := by
  unfold State.invalidate
  dsimp only
  split
  · exact (atWord_dropClWord s q h).trans ((like_markRecheck _ _ _).atWord q kept)
  · exact (like_markRecheck _ _ _).atWord q kept

theorem atWord_unshare (s : State) (q c : Nat) (kept : Option Nat) : AtWord q kept s (s.unshare (lineOf q) c) := by
  unfold State.unshare
  split
  · exact atWord_modDir s q kept fun _ _ _ => rfl
  · exact atWord_modProxy s q kept _ fun _ _ _ => rfl

theorem atWord_invalidateAt (q : Nat) (kept : Option Nat) : ∀ (l : List Nat) (s : State), AtWord q kept s (invalidateAt false q kept l s)
  | [], s => .refl q kept s
  | c :: l, s => by
    unfold invalidateAt
    split
    · exact atWord_invalidateAt q kept l s
    · next h =>
      have hi := atWord_invalidate s q fun e => h (.inl e)
      simp only [Bool.false_eq_true, if_false]
      split
      · exact hi.trans (atWord_invalidateAt q kept l _)
      · exact (hi.trans (atWord_unshare _ q c kept)).trans (atWord_invalidateAt q kept l _)

theorem atWord_invalidateWord (s : State) (q : Nat) (kept : Option Nat) : AtWord q kept s (s.invalidateWord q kept) :=
  (atWord_invalidateAt q kept _ s).trans (atWord_modDir _ q kept fun _ _ _ => rfl)

end Sys2Proof.Machine
end

section
/-! PROOFS. A request that makes its cluster a tracked sharer of a line: the entries that it needs, and that none leaves for them where
their sets have room (R114, R116, R119). -/

namespace Sys2Proof.Machine

variable {s t u : State} {q : Nat} {kept : Option Nat}

/-- Only copies and sharers differ: no word of memory, no error, no owner and no stamp. -/
structure OnlyCopies (s t : State) : Prop where
  mem : t.mem = s.mem
  errs : t.errs = s.errs
  slc : t.slc = s.slc
  owners : SameOwners s t
  pmk : ∀ l, (t.dirOf l).pmk = (s.dirOf l).pmk

theorem OnlyCopies.refl (s : State) : OnlyCopies s s := ⟨rfl, rfl, rfl, .refl s, fun _ => rfl⟩

theorem OnlyCopies.trans (h : OnlyCopies s t) (g : OnlyCopies t u) : OnlyCopies s u :=
  ⟨g.mem.trans h.mem, g.errs.trans h.errs, g.slc.trans h.slc, h.owners.trans g.owners, fun l => (g.pmk l).trans (h.pmk l)⟩

theorem Like.onlyCopies (h : Like s t) : OnlyCopies s t := ⟨h.mem, h.errs, h.slc, h.sameOwners, fun l => by rw [h.dirOf]⟩

theorem onlyCopies_setClWord (s : State) (cl pa : Nat) (x : CacheWord) : OnlyCopies s (s.setClWord cl pa x) :=
  ⟨rfl, rfl, rfl, ⟨fun _ => rfl, fun _ _ => rfl⟩, fun _ => rfl⟩

theorem onlyCopies_modDir (s : State) (l : Nat) {f : DirEntry → DirEntry} (h : ∀ e, (f e).owners = e.owners) (hp : ∀ e, (f e).pmk = e.pmk) :
    OnlyCopies s (s.modDir l f) :=
  ⟨rfl, rfl, rfl, sameOwners_modDir s l h, fun j => by
    refine (pmk_modEntry s.dir l j f).trans ?_
    split
    · next e => rw [hp, e]; rfl
    · rfl⟩

theorem onlyCopies_modProxy (s : State) (k l : Nat) {f : DirEntry → DirEntry} (h : ∀ e, (f e).owners = e.owners) : OnlyCopies s (s.modProxy k l f) :=
  ⟨rfl, rfl, rfl, sameOwners_modProxy s k l h, fun _ => rfl⟩

theorem onlyCopies_invalidate (s : State) (c pa : Nat) : OnlyCopies s (s.invalidate c pa).1 := by
  unfold State.invalidate
  dsimp only
  split
  · exact (onlyCopies_setClWord s c pa _).trans (like_markRecheck _ _ _).onlyCopies
  · exact (like_markRecheck _ _ _).onlyCopies

theorem onlyCopies_unshare (s : State) (l c : Nat) : OnlyCopies s (s.unshare l c) := by
  unfold State.unshare
  split
  · exact onlyCopies_modDir s l (fun _ => rfl) fun _ => rfl
  · exact onlyCopies_modProxy s _ l fun _ => rfl

theorem onlyCopies_invalidateAt (pa : Nat) (excl : Option Nat) : ∀ (l : List Nat) (s : State), OnlyCopies s (invalidateAt false pa excl l s)
  | [], s => .refl s
  | c :: l, s => by
    unfold invalidateAt
    split
    · exact onlyCopies_invalidateAt pa excl l s
    · simp only [Bool.false_eq_true, if_false]
      split
      · exact (onlyCopies_invalidate s c pa).trans (onlyCopies_invalidateAt pa excl l _)
      · exact ((onlyCopies_invalidate s c pa).trans (onlyCopies_unshare _ _ c)).trans (onlyCopies_invalidateAt pa excl l _)

theorem onlyCopies_invalidateWord (s : State) (pa : Nat) (excl : Option Nat) : OnlyCopies s (s.invalidateWord pa excl) :=
  (onlyCopies_invalidateAt pa excl _ s).trans (onlyCopies_modDir _ _ (fun _ => rfl) fun _ => rfl)

/-! Entries. -/

/-- The entries that track a line for a cluster, where they do not stand, find room in their sets. -/
structure Roomy (s : State) (line c : Nat) : Prop where
  dir : tfind s.dir line = none → (s.setMates (s.dirSet line)).length < 15
  proxy : c / 64 ≠ sockOf line → tfind s.proxies (proxyKey (c / 64) line) = none → (s.setMates (s.proxySet (proxyKey (c / 64) line))).length < 15

/-- An entry's table with an entry more in a set's count at most. -/
theorem filter_tset_le {α : Type} (p : Nat × α → Bool) (t : Tbl α) (k : Nat) (v : α) : ((tset t k v).filter p).length ≤ (t.filter p).length + 1 := by
  induction t with
  | nil => exact List.length_filter_le p [(k, v)]
  | cons e t ih =>
    obtain ⟨j, x⟩ := e
    unfold tset
    split
    · rw [List.filter_cons, List.filter_cons]
      split <;> split <;> grind
    · split
      · rw [List.filter_cons (x := (k, v))]
        split
        · exact le_rfl
        · exact Nat.le_succ _
      · rw [List.filter_cons, List.filter_cons]
        split
        · exact Nat.succ_le_succ ih
        · exact ih

/-- The state with a fresh entry of a line. -/
def State.dirNew (s : State) (line : Nat) : State := { s with dir := tset s.dir line { DirEntry.absent with stamp := s.seq }, seq := s.seq + 1 }

/-- The state with a fresh entry of a proxy home. -/
def State.proxyNew (s : State) (key : Nat) : State := { s with proxies := tset s.proxies key { DirEntry.absent with stamp := s.seq }, seq := s.seq + 1 }

theorem dirRoom_room {place : Nat × Nat} (h : (s.setMates place).length < 16) : s.dirRoom place = s := by
  unfold State.dirRoom
  dsimp only
  rw [if_neg (by omega)]

theorem dirAlloc_roomy {line : Nat} (h : tfind s.dir line = none → (s.setMates (s.dirSet line)).length < 15) :
    s.dirAlloc line = if (tfind s.dir line).isSome then s else s.dirNew line := by
  unfold State.dirAlloc
  cases hd : tfind s.dir line with
  | some e => rfl
  | none =>
    dsimp only
    rw [dirRoom_room ((h hd).trans (by decide))]
    rfl

theorem dirSet_congr (h : t.fuses = s.fuses) (line : Nat) : t.dirSet line = s.dirSet line := by
  have hl : t.localOf line = s.localOf line := by
    unfold State.localOf State.hbmHome State.hasHome State.fusesOf
    rw [h]
  unfold State.dirSet
  rw [hl, homeOf_congr h]

theorem proxySet_congr (h : t.fuses = s.fuses) (key : Nat) : t.proxySet key = s.proxySet key := dirSet_congr h _

theorem setMates_dirNew (s : State) (line : Nat) (place : Nat × Nat) : ((s.dirNew line).setMates place).length ≤ (s.setMates place).length + 1 := by
  have hd : ∀ l, (s.dirNew line).dirSet l = s.dirSet l := dirSet_congr rfl
  have hp : ∀ l, (s.dirNew line).proxySet l = s.proxySet l := proxySet_congr rfl
  unfold State.setMates
  simp only [List.length_append, List.length_map, hd, hp]
  have := filter_tset_le (fun e => s.dirSet e.1 == place) s.dir line { DirEntry.absent with stamp := s.seq }
  show ((tset s.dir line _).filter _).length + (s.proxies.filter _).length ≤ _
  omega

theorem proxyAlloc_roomy {line c : Nat} (h : c / 64 ≠ sockOf line → tfind s.proxies (proxyKey (c / 64) line) = none →
    (s.setMates (s.proxySet (proxyKey (c / 64) line))).length < 16) :
    s.proxyAlloc line c = if c / 64 = sockOf line ∨ (tfind s.proxies (proxyKey (c / 64) line)).isSome then s else s.proxyNew (proxyKey (c / 64) line) := by
  unfold State.proxyAlloc
  dsimp only
  by_cases hs : c / 64 = sockOf line
  · rw [if_pos hs, if_pos (.inl hs)]
  · rw [if_neg hs]
    cases hp : tfind s.proxies (proxyKey (c / 64) line) with
    | some e => rw [if_pos (.inr rfl)]
    | none =>
      rw [if_neg (by simp [hs])]
      dsimp only
      rw [dirRoom_room (h hs hp)]
      rfl

/-- What fresh entries leave: a line that no entry tracked is tracked by an entry that names nothing. -/
structure Fresh (q : Nat) (kept : Option Nat) (s t : State) : Prop extends OnlyCopies s t where
  at' : AtWord q kept s t

theorem Fresh.refl (q : Nat) (kept : Option Nat) (s : State) : Fresh q kept s s := ⟨.refl s, .refl q kept s⟩

theorem Fresh.trans (h : Fresh q kept s t) (g : Fresh q kept t u) : Fresh q kept s u := ⟨h.toOnlyCopies.trans g.toOnlyCopies, h.at'.trans g.at'⟩

theorem tget_tset_fresh {t : Tbl DirEntry} {k : Nat} (h : tfind t k = none) (n j : Nat) :
    (tget (tset t k { DirEntry.absent with stamp := n }) j DirEntry.absent).owners = (tget t j DirEntry.absent).owners ∧
      (tget (tset t k { DirEntry.absent with stamp := n }) j DirEntry.absent).pmk = (tget t j DirEntry.absent).pmk := by
  rw [tget_tset]
  split
  · next e => rw [e, tget, h]; exact ⟨rfl, rfl⟩
  · exact ⟨rfl, rfl⟩

theorem fresh_dirNew (q : Nat) (kept : Option Nat) {line : Nat} (h : tfind s.dir line = none) : Fresh q kept s (s.dirNew line) where
  mem := rfl
  errs := rfl
  slc := rfl
  owners := ⟨fun l => (tget_tset_fresh h s.seq l).1, fun _ _ => rfl⟩
  pmk := fun l => (tget_tset_fresh h s.seq l).2
  at' := { AtWord.refl q kept s with
    dir := fun l w _ => congrArg (fun o => tfind o w) (tget_tset_fresh h s.seq l).1 }

theorem fresh_proxyNew (q : Nat) (kept : Option Nat) {key : Nat} (h : tfind s.proxies key = none) : Fresh q kept s (s.proxyNew key) where
  mem := rfl
  errs := rfl
  slc := rfl
  owners := ⟨fun _ => rfl, fun _ _ => (tget_tset_fresh h s.seq _).1⟩
  pmk := fun _ => rfl
  at' := { AtWord.refl q kept s with
    proxy := fun k w _ => congrArg (fun o => tfind o w) (tget_tset_fresh h s.seq k).1 }

theorem fresh_share (s : State) (q c : Nat) (kept : Option Nat) : Fresh q kept s (s.share (lineOf q) c) := by
  unfold State.share
  dsimp only
  split
  · exact ⟨onlyCopies_modDir s _ (fun _ => rfl) fun _ => rfl, atWord_modDir s q kept fun _ _ _ => rfl⟩
  · exact ⟨(onlyCopies_modProxy s _ _ (f := fun e => { e with sharers := addParty e.sharers (c % 64) }) fun _ => rfl).trans
        (onlyCopies_modDir _ _ (f := fun e => { e with sharers := addParty e.sharers (partyOf (lineOf q) c) }) (fun _ => rfl) fun _ => rfl),
      (atWord_modProxy s q kept (c / 64) (f := fun e => { e with sharers := addParty e.sharers (c % 64) }) fun _ _ _ => rfl).trans
        (atWord_modDir _ q kept (f := fun e => { e with sharers := addParty e.sharers (partyOf (lineOf q) c) }) fun _ _ _ => rfl)⟩

/-- A cluster becomes a sharer of a line whose entries have room. -/
theorem fresh_track {c : Nat} (h : Roomy s (lineOf q) c) (kept : Option Nat) : Fresh q kept s (s.track (lineOf q) c) := by
  have h1 : Fresh q kept s (s.dirAlloc (lineOf q)) := by
    rw [dirAlloc_roomy h.dir]
    split
    · exact .refl q kept s
    · next hn => exact fresh_dirNew q kept (by simpa using hn)
  have hm : (s.dirAlloc (lineOf q)).proxies = s.proxies ∧ ∀ place, ((s.dirAlloc (lineOf q)).setMates place).length ≤ (s.setMates place).length + 1 := by
    rw [dirAlloc_roomy h.dir]
    split
    · exact ⟨rfl, fun _ => Nat.le_succ _⟩
    · exact ⟨rfl, setMates_dirNew s _⟩
  have hp : ∀ key, (s.dirAlloc (lineOf q)).proxySet key = s.proxySet key := by
    refine proxySet_congr ?_
    rw [dirAlloc_roomy h.dir]
    split <;> rfl
  obtain ⟨hm, hl⟩ := hm
  refine (h1.trans ?_).trans (fresh_share _ q c kept)
  rw [proxyAlloc_roomy fun hs hn => ?_]
  · split
    · exact .refl q kept _
    · next hn => exact fresh_proxyNew q kept (by simpa using fun e => hn (.inr e))
  · rw [hm] at hn
    rw [hp]
    exact (hl _).trans_lt (Nat.succ_lt_succ (h.proxy hs hn))

/-! Owners. -/

/-- The entries of a word's line name a cluster as its owner. -/
structure Tracked (s : State) (pa c : Nat) : Prop where
  dir : tfind (s.dirOf (lineOf pa)).owners (wordIx pa) = some (partyOf pa c)
  proxy : c / 64 ≠ sockOf pa → tfind (s.proxyOf (c / 64) (lineOf pa)).owners (wordIx pa) = some (c % 64)

theorem Tracked.ownerOf {pa c : Nat} (h : Tracked s pa c) : s.ownerOf pa = some c := by
  unfold State.ownerOf
  rw [h.dir]
  by_cases hs : c / 64 = sockOf pa
  · simp only [partyOf, if_pos hs]
    rw [if_pos (by omega), ← hs]
    exact congrArg some (by omega)
  · simp only [partyOf, if_neg hs]
    rw [if_neg (by omega), show 64 + c / 64 - 64 = c / 64 from by omega, h.proxy hs]
    exact congrArg some (by show 64 * (c / 64) + c % 64 = c; omega)

/-- A request for another word leaves the entries that name a word's owner. -/
theorem Tracked.atWord {pa c : Nat} (h : Tracked s pa c) (g : AtCells q kept s t) (hw : wordIx pa ≠ wordIx q) : Tracked t pa c :=
  ⟨(g.dir _ _ (.inr hw)).trans h.dir, fun hs => (g.proxy _ _ (.inr hw)).trans (h.proxy hs)⟩

theorem tracked_setOwner (s : State) (pa c : Nat) : Tracked (s.setOwner pa c) pa c := by
  have hdir : ∀ (u : State) (x : Nat), tfind ((u.modDir (lineOf pa) (fun e => { e with owners := tset e.owners (wordIx pa) x })).dirOf (lineOf pa)).owners (wordIx pa) = some x := by
    intro u x
    have := owners_modEntry u.dir (lineOf pa) (lineOf pa) (fun e => { e with owners := tset e.owners (wordIx pa) x })
    rw [if_pos rfl] at this
    refine (congrArg (fun o => tfind o (wordIx pa)) this).trans ?_
    exact tfind_tset_same _ _ _
  unfold State.setOwner
  dsimp only
  refine ⟨hdir _ _, fun hs => ?_⟩
  rw [if_neg hs]
  have := owners_modEntry (s.dropOwner pa).proxies (proxyKey (c / 64) (lineOf pa)) (proxyKey (c / 64) (lineOf pa))
    (fun e => { e with owners := tset e.owners (wordIx pa) (c % 64) })
  rw [if_pos rfl] at this
  refine (congrArg (fun o => tfind o (wordIx pa)) this).trans ?_
  exact tfind_tset_same _ _ _

/-! The entries of a line. -/

/-- The key of a proxy of another socket for a line. -/
def ofLine (line key : Nat) : Bool := (List.range 8).any fun j => j != sockOf line && key == proxyKey j line

/-- Only entries of a line come and go. -/
structure EntriesOf (line : Nat) (s t : State) : Prop where
  fuses : t.fuses = s.fuses
  dir : t.dir.filter (fun e => e.1 != line) = s.dir.filter (fun e => e.1 != line)
  proxies : t.proxies.filter (fun e => !ofLine line e.1) = s.proxies.filter (fun e => !ofLine line e.1)

variable {line : Nat}

theorem EntriesOf.refl (line : Nat) (s : State) : EntriesOf line s s := ⟨rfl, rfl, rfl⟩

theorem EntriesOf.trans (h : EntriesOf line s t) (g : EntriesOf line t u) : EntriesOf line s u :=
  ⟨g.fuses.trans h.fuses, g.dir.trans h.dir, g.proxies.trans h.proxies⟩

theorem Like.entriesOf (h : Like s t) (line : Nat) : EntriesOf line s t := ⟨h.fuses, by rw [h.dir], by rw [h.proxies]⟩

theorem filter_tset_out {α : Type} {p : Nat × α → Bool} (t : Tbl α) {k : Nat} (v : α) (hp : ∀ x, p (k, x) = false) : (tset t k v).filter p = t.filter p := by
  induction t with
  | nil => exact List.filter_cons_of_neg (by simp [hp])
  | cons e t ih =>
    obtain ⟨j, x⟩ := e
    unfold tset
    split
    · next he =>
      subst he
      rw [List.filter_cons_of_neg (by simp [hp]), List.filter_cons_of_neg (by simp [hp])]
    · split
      · exact List.filter_cons_of_neg (by simp [hp])
      · rw [List.filter_cons, List.filter_cons, ih]

theorem filter_modEntry_out {p : Nat × DirEntry → Bool} (t : Tbl DirEntry) {k : Nat} (f : DirEntry → DirEntry) (hp : ∀ x, p (k, x) = false) :
    (modEntry t k f).filter p = t.filter p := by
  unfold modEntry
  dsimp only
  split
  · unfold tdel
    rw [List.filter_filter]
    refine List.filter_congr fun e _ => ?_
    by_cases he : e.1 = k
    · subst he
      rw [show p e = false from hp e.2, Bool.false_and]
    · simp [he]
  · exact filter_tset_out t _ hp

theorem entriesOf_modDir (s : State) (line : Nat) (f : DirEntry → DirEntry) : EntriesOf line s (s.modDir line f) :=
  ⟨rfl, filter_modEntry_out s.dir f fun _ => bne_self_eq_false line, rfl⟩

theorem entriesOf_modProxy (s : State) {j : Nat} (line : Nat) (f : DirEntry → DirEntry) (hj : j < 8) (hn : j ≠ sockOf line) :
    EntriesOf line s (s.modProxy j line f) := by
  have hk : ofLine line (proxyKey j line) = true := by
    unfold ofLine
    rw [List.any_eq_true]
    exact ⟨j, List.mem_range.2 hj, by simp [hn]⟩
  exact ⟨rfl, rfl, filter_modEntry_out s.proxies f fun _ => by rw [hk]; rfl⟩

theorem entriesOf_invalidate (s : State) (c pa line : Nat) : EntriesOf line s (s.invalidate c pa).1 := by
  unfold State.invalidate
  dsimp only
  split
  · exact EntriesOf.trans (t := s.dropClWord c pa) ⟨rfl, rfl, rfl⟩ ((like_markRecheck _ _ _).entriesOf line)
  · exact (like_markRecheck _ _ _).entriesOf line

/-- Sockets that a link joins are those of a number below 8. -/
theorem joined_lt {a b : Nat} (h : s.joined a b = true) (hn : b ≠ a) : b < 8 := by
  unfold State.joined at h
  simp only [Bool.or_eq_true, decide_eq_true_eq, Bool.and_eq_true, List.any_eq_true, beq_iff_eq] at h
  obtain h | ⟨⟨e, -, ⟨⟨-, -⟩, he⟩, -⟩, -⟩ := h
  · exact absurd h.symm hn
  · rw [← he]
    exact e.2.peer.isLt

theorem entriesOf_unshare (s : State) {pa c : Nat} (hj : s.joined (sockOf pa) (c / 64) = true) : EntriesOf (lineOf pa) s (s.unshare (lineOf pa) c) := by
  unfold State.unshare
  split
  · exact entriesOf_modDir s _ _
  · next hn =>
    refine entriesOf_modProxy s _ _ (joined_lt hj ?_) hn
    rwa [sockOf_lineOf] at hn

theorem entriesOf_invalidateAt (pa : Nat) (excl : Option Nat) : ∀ (l : List Nat) (s : State), EntriesOf (lineOf pa) s (invalidateAt false pa excl l s)
  | [], s => .refl _ s
  | c :: l, s => by
    unfold invalidateAt
    split
    · exact entriesOf_invalidateAt pa excl l s
    · next h =>
      have hi := entriesOf_invalidate s c pa (lineOf pa)
      have hj : (s.invalidate c pa).1.joined (sockOf pa) (c / 64) = true := by
        rw [(atWord_invalidate s (kept := none) pa (by simp)).joined]
        simpa using fun e => h (.inr e)
      simp only [Bool.false_eq_true, if_false]
      split
      · exact hi.trans (entriesOf_invalidateAt pa excl l _)
      · exact (hi.trans (entriesOf_unshare _ hj)).trans (entriesOf_invalidateAt pa excl l _)

theorem entriesOf_invalidateWord (s : State) (pa : Nat) (excl : Option Nat) : EntriesOf (lineOf pa) s (s.invalidateWord pa excl) :=
  (entriesOf_invalidateAt pa excl _ s).trans (entriesOf_modDir _ _ _)

/-- The set of a line's entry at a proxy home of another socket stands in that socket. -/
theorem proxySet_socket (s : State) {j : Nat} (hj : j < 8) (hl : line < 2 ^ 52) (hd : isDevice line = false) :
    (s.proxySet (proxyKey j line)).1 / 544 = j := by
  have hk : proxyKey j line / 2 ^ 52 = j ∧ proxyKey j line % 2 ^ 52 = line := by
    unfold proxyKey
    omega
  have hq : sockOf (proxyLine j line) = j ∧ offOf (proxyLine j line) = offOf line := by
    unfold proxyLine sockBase sockOf offOf
    omega
  have hv : isDevice (proxyLine j line) = false := by
    rw [← hd]
    unfold isDevice
    rw [hq.2]
  show s.homeOf (proxyLine (proxyKey j line / 2 ^ 52) (proxyKey j line % 2 ^ 52)) / 544 = j
  rw [hk.1, hk.2, homeOf_socket s hv, hq.1]

theorem dirSet_socket (s : State) (hd : isDevice line = false) : (s.dirSet line).1 / 544 = sockOf line := homeOf_socket s hd

theorem tfind_none_iff {α : Type} {t : Tbl α} {k : Nat} (h : tfind t k = none) : ∀ e ∈ t, e.1 ≠ k := by
  induction t with
  | nil => simp
  | cons e t ih =>
    obtain ⟨j, x⟩ := e
    unfold tfind at h
    split at h
    · cases h
    · next hn =>
      intro e he
      rcases List.mem_cons.1 he with rfl | he
      · exact hn
      · exact ih h e he

theorem length_filter_mono {α : Type} {p q : α → Bool} {l : List α} (h : ∀ e ∈ l, p e = true → q e = true) : (l.filter p).length ≤ (l.filter q).length := by
  rw [← List.countP_eq_length_filter, ← List.countP_eq_length_filter]
  exact List.countP_mono_left h

/-- Entries of one line leave room for those that track it, where few others stand. -/
theorem EntriesOf.roomy (h : EntriesOf line s t) (hs : s.dir.length + s.proxies.length < 15) (hl : line < 2 ^ 52) (hd : isDevice line = false)
    {c : Nat} (hc : c / 64 < 8) : Roomy t line c := by
  have hD : (t.dir.filter (fun e => e.1 != line)).length ≤ s.dir.length := h.dir ▸ List.length_filter_le _ _
  have hP : (t.proxies.filter (fun e => !ofLine line e.1)).length ≤ s.proxies.length := h.proxies ▸ List.length_filter_le _ _
  have key : ∀ place, (∀ e ∈ t.dir, t.dirSet e.1 == place → e.1 ≠ line) → (∀ e ∈ t.proxies, t.proxySet e.1 == place → ofLine line e.1 = false) →
      (t.setMates place).length < 15 := by
    intro place h1 h2
    unfold State.setMates
    rw [List.length_append, List.length_map, List.length_map]
    have := length_filter_mono (l := t.dir) (q := fun e => e.1 != line) fun e he hp => bne_iff_ne.2 (h1 e he hp)
    have := length_filter_mono (l := t.proxies) (q := fun e => !ofLine line e.1) fun e he hp => by rw [h2 e he hp]; rfl
    omega
  have hof : ∀ k, ofLine line k = true → ∃ j < 8, j ≠ sockOf line ∧ k = proxyKey j line := by
    intro k hk
    unfold ofLine at hk
    rw [List.any_eq_true] at hk
    obtain ⟨j, hj, hk⟩ := hk
    simp only [Bool.and_eq_true, bne_iff_ne, ne_eq, beq_iff_eq] at hk
    exact ⟨j, List.mem_range.1 hj, hk⟩
  refine ⟨fun hn => key _ (fun e he _ => tfind_none_iff hn e he) fun e he hp => ?_, fun hs hn => key _ (fun e he hp => ?_) fun e he hp => ?_⟩
  · refine Bool.eq_false_iff.2 fun ho => ?_
    obtain ⟨j, hj, hne, hk⟩ := hof _ ho
    have := proxySet_socket t hj hl hd
    rw [← hk, beq_iff_eq.1 hp, dirSet_socket t hd] at this
    exact hne this.symm
  · rintro rfl
    have := dirSet_socket t hd
    rw [beq_iff_eq.1 hp, proxySet_socket t hc hl hd] at this
    exact hs this
  · refine Bool.eq_false_iff.2 fun ho => ?_
    obtain ⟨j, hj, hne, hk⟩ := hof _ ho
    have := proxySet_socket t hj hl hd
    rw [← hk, beq_iff_eq.1 hp, proxySet_socket t hc hl hd] at this
    exact tfind_none_iff hn e he (by rw [hk, this])

end Sys2Proof.Machine
end

section
/-! PROOFS. A request of a cluster for one word that no cluster owns: its home serves it, and the reply comes back, while everything of
other words stays (R117-R119). -/

namespace Sys2Proof.Machine

variable {s t u : State} {pa cl : Nat} {r : Req}

/-- A word that its home serves a cluster by itself: no message is under way, no cluster owns the word, and no error stands in it. -/
structure Served (s : State) (cl pa : Nat) : Prop where
  flights : s.flights = []
  slices : s.slc = []
  error : tfind s.errs (wordOf pa) = none
  frames : (s.pkg (sockOf pa)).fotbase = 0
  reaches : s.joined (cl / 64) (sockOf pa) = true
  owner : s.ownerOf pa = none

theorem Served.like (h : Served s cl pa) (g : Like s t) : Served t cl pa where
  flights := g.flights.trans h.flights
  slices := g.slc.trans h.slices
  error := by rw [g.errs, h.error]
  frames := by rw [g.pkg, h.frames]
  reaches := by rw [g.joined, h.reaches]
  owner := by rw [g.ownerOf, h.owner]

/-- A request of a cluster for the word at an address. -/
structure ForWord (r : Req) (cl pa : Nat) : Prop where
  line : r.line = lineOf pa
  words : r.words = oneWord pa
  src : r.src = some cl

theorem ForWord.addr (h : ForWord r cl pa) : r.line + 8 * wordIx pa = wordOf pa := by rw [h.line, lineOf_wordIx]

theorem Served.atHome (h : Served s cl pa) (hr : ForWord r cl pa) : AtHome s (r.line + 8 * wordIx pa) := by
  rw [hr.addr]
  exact ⟨h.flights, by rw [ownerOf_wordOf, h.owner], by rw [h.slices]; rfl, h.error⟩

/-- The transitions of a request that names one word are that word's. -/
theorem names_run {v : Word} (hr : ForWord r cl pa) (h : homeWord r (wordIx pa) s = .ok v t) : (Req.names r).mapM (homeWord r) s = .ok [v] t := by
  rw [names_oneWord hr.words, List.mapM_cons, bind_ok h]
  rfl

theorem serve_charged (h : Served s cl pa) (hr : ForWord r cl pa) (ha : r.acq = none ∨ (s.dirOf (lineOf pa)).pmk = none) :
    serve r s = serveWords r (s.charged r) := by
  refine serve_eq ?_ ?_ h.slices (by rw [hr.line]; exact ha)
  · rw [State.reaches, hr.src]
    show s.joined _ (sockOf r.line) = true
    rw [hr.line, sockOf_lineOf, h.reaches]
  · rw [hr.line, sockOf_lineOf, h.frames]

theorem Cured.proxies (h : Cured s t) : t.proxies = s.proxies := by
  obtain ⟨e, b, c, d, f, rfl⟩ := h.same
  rfl

/-! Reads. -/

/-- What a request that fetches a word leaves: memory as it was, and a fill with the word and with the others that no cluster owns. -/
structure Fetched (s t : State) (cl pa : Nat) (f : Vec × BitVec 8) : Prop extends AtWord (wordOf pa) (some cl) s t where
  mem : t.mem = s.mem
  value : fillWord f pa = memWord s.mem (wordOf pa)
  valid : f.2.getLsbD (wordIx pa) = true
  others : ∀ w < 8, w ≠ wordIx pa → s.ownerOf (lineOf pa + 8 * w) = none → tfind s.errs (lineOf pa + 8 * w) = none →
    lineWord f.1 w = memWord s.mem (lineOf pa + 8 * w) ∧ f.2.getLsbD w = true

theorem Fetched.like {f : Vec × BitVec 8} (h : Fetched s t cl pa f) (g : Like t u) : Fetched s u cl pa f :=
  { h.toAtWord.trans (g.atWord _ _) with
    mem := g.mem.trans h.mem, value := h.value, valid := h.valid, others := h.others }

theorem Fetched.before {f : Vec × BitVec 8} (g : Like s t) (h : Fetched t u cl pa f) : Fetched s u cl pa f :=
  { (g.atWord _ _).trans h.toAtWord with
    mem := h.mem.trans g.mem
    value := by rw [h.value, g.mem]
    valid := h.valid
    others := fun w hw hn ho he => by
      have := h.others w hw hn (by rw [g.ownerOf, ho]) (by rw [g.errs, he])
      rwa [g.mem] at this }

/-- Another word of the line keeps its owner. -/
theorem AtCells.ownerOf_line {kept : Option Nat} (h : AtCells (wordOf pa) kept s t) {w : Nat} (hw : w < 8) (hn : w ≠ wordIx pa) :
    t.ownerOf (lineOf pa + 8 * w) = s.ownerOf (lineOf pa + 8 * w) :=
  h.ownerOf fun _ => by rwa [wordIx_add (lineOf_mod pa) hw, wordIx_wordOf]

/-- The fill of a request that fetches its word. -/
theorem serve_fills (h : Served s cl pa) (hr : ForWord r cl pa) (ha : r.acq = none ∨ (s.dirOf (lineOf pa)).pmk = none)
    (hk : r.kind = .rdT ∨ r.kind = .rdU ∨ r.kind = .rdW ∨ r.kind = .own)
    (hw : homeWord r (wordIx pa) (s.charged r) = .ok (memWord s.mem (wordOf pa)) t) (hat : AtWord (wordOf pa) (some cl) (s.charged r) t)
    (hm : t.mem = s.mem) : ∃ f u, serve r s = .ok f u ∧ Fetched s u cl pa f ∧ Cured t u := by
  have hst : AtWord (wordOf pa) (some cl) s t := ((like_charged s r).atWord _ _).trans hat
  have hs : t.slc = [] := hst.slc h.slices
  obtain ⟨v, m, u, hf, hc, hfill⟩ := fillOf_ok hs r ((Req.names r).zip [memWord s.mem (wordOf pa)])
  have hsv : serveWords r (s.charged r) = .ok (v, m) u := by
    unfold serveWords
    rw [bind_ok (names_run hr hw)]
    rcases hk with hk | hk | hk | hk <;> simp only [hk] <;> exact hf
  have hat' : AtWord (wordOf pa) (some cl) s u := hst.trans (hc.atWord _ _)
  have hz : (Req.names r).zip [memWord s.mem (wordOf pa)] = [(wordIx pa, memWord s.mem (wordOf pa))] := by
    rw [names_oneWord hr.words]
    rfl
  rw [hz] at hfill
  obtain ⟨b, hb, hv, hbit⟩ := hfill _ (wordIx_lt pa)
  have hb' := hb.given _ (if_pos rfl)
  refine ⟨(v, m), u, (serve_charged h hr ha).trans hsv, { hat' with
    mem := hc.mem.trans hm
    value := by rw [fillWord, hv, hb']; rfl
    valid := by rw [hbit, hb']; rfl
    others := fun w hw hn ho he => ?_ }, hc⟩
  obtain ⟨b, hb, hv, hbit⟩ := hfill w hw
  rw [hr.line] at hb
  have hb' := hb.memory (if_neg (Ne.symm hn)) (by rw [hst.ownerOf_line hw hn, ho]) (hst.errs _ he)
  rw [hv, hbit, hb', hm]
  exact ⟨rfl, rfl⟩

/-- The entries of a line that a request tracks find room, whatever the request did to the line before. -/
def RoomFor (s : State) (cl pa : Nat) : Prop :=
  ∀ t, AtWord (wordOf pa) (some cl) s t → EntriesOf (lineOf pa) s t → Roomy t (lineOf pa) cl

theorem RoomFor.roomy (h : RoomFor s cl pa) : Roomy s (lineOf pa) cl := h s (.refl _ _ s) (.refl _ s)

theorem RoomFor.like (h : RoomFor s cl pa) (g : Like s t) : RoomFor t cl pa :=
  fun _ ha he => h _ ((g.atWord _ _).trans ha) ((g.entriesOf _).trans he)

theorem roomFor_of_few (hs : s.dir.length + s.proxies.length < 15) (hp : pa < 2 ^ 52) (hd : isDevice pa = false) (hc : cl / 64 < 8) : RoomFor s cl pa := by
  intro t _ he
  have hl : lineOf pa < 2 ^ 52 := (Nat.sub_le _ _).trans_lt hp
  refine he.roomy hs hl ?_ hc
  rw [← hd]
  unfold isDevice offOf lineOf
  have h1 : (0x0F00000000000 ≤ (pa - pa % 64) % 2 ^ 49) ↔ (0x0F00000000000 ≤ pa % 2 ^ 49) := by omega
  have h2 : ((pa - pa % 64) % 2 ^ 49 < 0x1000000000000) ↔ (pa % 2 ^ 49 < 0x1000000000000) := by omega
  rw [decide_eq_decide.2 h1, decide_eq_decide.2 h2]

/-- A read of a word at its home (R119). -/
theorem serve_reads (h : Served s cl pa) (hr : ForWord r cl pa) (ha : r.acq = none ∨ (s.dirOf (lineOf pa)).pmk = none)
    (hk : (r.kind = .rdT ∧ RoomFor s cl pa) ∨ r.kind = .rdU ∨ r.kind = .rdW) : ∃ f u, serve r s = .ok f u ∧ Fetched s u cl pa f := by
  have hc := like_charged s r
  have hh := (h.like hc).atHome hr
  have hm : memWord (s.charged r).mem (r.line + 8 * wordIx pa) = memWord s.mem (wordOf pa) := by rw [hc.mem, hr.addr]
  rcases hk with ⟨hk, hroom⟩ | hk | hk
  · have hw := homeWord_rdT hh hk hr.src
    rw [hm, hr.line] at hw
    have hroom' : Roomy (s.charged r) (lineOf (wordOf pa)) cl := by
      rw [lineOf_wordOf]
      exact (hroom.like hc).roomy
    have hf := fresh_track hroom' (some cl)
    rw [lineOf_wordOf] at hf
    obtain ⟨f, u, h1, h2, -⟩ := serve_fills h hr ha (.inl hk) hw hf.at' (hf.mem.trans hc.mem)
    exact ⟨f, u, h1, h2⟩
  · have hw := homeWord_rdU hh hk
    rw [hm] at hw
    obtain ⟨f, u, h1, h2, -⟩ := serve_fills h hr ha (.inr (.inl hk)) hw (.refl _ _ _) hc.mem
    exact ⟨f, u, h1, h2⟩
  · have hw := homeWord_rdW hh hk
    rw [hm] at hw
    obtain ⟨f, u, h1, h2, -⟩ := serve_fills h hr ha (.inr (.inr (.inl hk))) hw (.refl _ _ _) hc.mem
    exact ⟨f, u, h1, h2⟩

/-- Own of a word in H: its value, and the requester its owner (R119). -/
theorem serve_owns (h : Served s cl pa) (hr : ForWord r cl pa) (ha : r.acq = none ∨ (s.dirOf (lineOf pa)).pmk = none) (hk : r.kind = .own)
    (hroom : RoomFor s cl pa) : ∃ f u, serve r s = .ok f u ∧ Fetched s u cl pa f ∧ Tracked u pa cl := by
  have hc := like_charged s r
  have hw := homeWord_own ((h.like hc).atHome hr) hk hr.src
  rw [hr.addr, hr.line, hc.mem] at hw
  have hi := atWord_invalidateWord (s.charged r) (wordOf pa) (some cl)
  have hie := entriesOf_invalidateWord (s.charged r) (wordOf pa) (some cl)
  rw [lineOf_wordOf] at hie
  have hf := fresh_track (q := wordOf pa) (c := cl) (by rw [lineOf_wordOf]; exact (hroom.like hc) _ hi hie) (some cl)
  rw [lineOf_wordOf] at hf
  have ho := atWord_setOwner (((s.charged r).invalidateWord (wordOf pa) (some cl)).track (lineOf pa) cl) (wordOf pa) cl (some cl)
  have hm : ∀ v : State, (v.setOwner (wordOf pa) cl).mem = v.mem := fun v => by
    unfold State.setOwner State.dropOwner
    dsimp only
    repeat' split
    all_goals rfl
  obtain ⟨f, u, h1, h2, h3⟩ := serve_fills h hr ha (.inr (.inr (.inr hk))) hw ((hi.trans hf.at').trans ho)
    ((hm _).trans (hf.mem.trans ((onlyCopies_invalidateWord _ _ _).mem.trans hc.mem)))
  have ht := tracked_setOwner (((s.charged r).invalidateWord (wordOf pa) (some cl)).track (lineOf pa) cl) (wordOf pa) cl
  refine ⟨f, u, h1, h2, ?_⟩
  obtain ⟨d, p⟩ := ht
  rw [lineOf_wordOf, wordIx_wordOf] at d p
  refine ⟨?_, fun hs => ?_⟩
  · rw [h3.dirOf, d, partyOf, partyOf, sockOf_wordOf]
  · rw [show u.proxyOf (cl / 64) (lineOf pa) = _ from congrArg (fun x => tget x _ _) h3.proxies]
    exact p (by rwa [sockOf_wordOf])

/-! Writes. -/

/-- A write through to a word in H (R119). -/
theorem serve_writes (h : Served s cl pa) (hr : ForWord r cl pa) (ha : r.acq = none) (hl : r.rel = none)
    (hk : (r.kind = .wrT ∧ RoomFor s cl pa) ∨ r.kind = .wrW) : ∃ f u, serve r s = .ok f u ∧ AtWord (wordOf pa) (some cl) s u ∧
      u.mem = memPutWord s.mem (wordOf pa) (mergeWord (memWord s.mem (wordOf pa)) (lineWord r.data (wordIx pa)) (wordMask r.mask (wordIx pa))) := by
  have hc := like_charged s r
  have hh := (h.like hc).atHome hr
  have hst : ∃ t, (s.charged r).homeStores r (wordIx pa) (some cl) = t ∧ AtWord (wordOf pa) (some cl) s t ∧ EntriesOf (lineOf pa) s t ∧
      t.mem = memPutWord s.mem (wordOf pa) (mergeWord (memWord s.mem (wordOf pa)) (lineWord r.data (wordIx pa)) (wordMask r.mask (wordIx pa))) := by
    refine ⟨_, rfl, ?_, ?_, ?_⟩ <;> unfold State.homeStores <;> rw [hr.addr]
    · exact ((hc.atWord _ _).trans (atWord_putWord _ _ _ _ _ _)).trans (atWord_invalidateWord _ _ _)
    · have := entriesOf_invalidateWord ((s.charged r).putWord (wordOf pa) (lineWord r.data (wordIx pa)) (wordMask r.mask (wordIx pa))) (wordOf pa) (some cl)
      rw [lineOf_wordOf] at this
      exact (hc.entriesOf _).trans (.trans (t := (s.charged r).putWord _ _ _) ⟨rfl, rfl, rfl⟩ this)
    · refine (onlyCopies_invalidateWord _ _ _).mem.trans ?_
      show memPutWord (s.charged r).mem _ _ = _
      rw [hc.mem]
  obtain ⟨t, het, hat, hen, hmem⟩ := hst
  have hp : ∀ v : State, AtWord (wordOf pa) (some cl) v (v.stampPostmark r) ∧ (v.stampPostmark r).mem = v.mem := fun v => by
    unfold State.stampPostmark
    rw [hl]
    dsimp only
    have := atWord_modDir v (wordOf pa) (some cl) (f := fun e => { e with pmk := none }) fun _ _ _ => rfl
    rw [lineOf_wordOf] at this
    rw [hr.line]
    exact ⟨this, rfl⟩
  have tail : ∀ v, homeWord r (wordIx pa) (s.charged r) = .ok 0 v → (r.kind = .wrT ∨ r.kind = .wrW) →
      serve r s = .ok (0, r.words) (v.stampPostmark r) := fun v hw hk => by
    rw [serve_charged h hr (.inl ha)]
    unfold serveWords
    rw [bind_ok (names_run hr hw)]
    rcases hk with hk | hk <;> simp only [hk] <;> rfl
  rcases hk with ⟨hk, hroom⟩ | hk
  · have hw := homeWord_wrT hh.flights hh.owner hk hr.src
    rw [het, hr.line] at hw
    have hf := fresh_track (q := wordOf pa) (c := cl) (by rw [lineOf_wordOf]; exact hroom _ hat hen) (some cl)
    rw [lineOf_wordOf] at hf
    obtain ⟨h1, h2⟩ := hp (t.track (lineOf pa) cl)
    exact ⟨_, _, tail _ hw (.inl hk), (hat.trans hf.at').trans h1, h2.trans (hf.mem.trans hmem)⟩
  · have hw := homeWord_wrW hh.flights hh.owner hk
    rw [hr.src, het] at hw
    obtain ⟨h1, h2⟩ := hp t
    exact ⟨_, _, tail _ hw (.inr hk), hat.trans h1, h2.trans hmem⟩

/-! The cluster's side. -/

theorem mend_whole {x : CacheWord} (hx : s.clWord cl pa = x) (h : x.single = false) : s.mend cl pa = s := by
  rw [State.mend, hx, h, if_neg (by decide)]

/-- Nothing is carried of a word that is neither owned nor buffered. -/
theorem carry_clean {a : Agent} (h : Clean (s.clWord a.cl pa)) : s.carry a pa = (s, true) := by
  obtain ⟨hst, -, hs⟩ := h
  have hw : s.clWord a.cl (wordOf pa) = s.clWord a.cl pa := by rw [State.clWord, State.clWord, lineOf_wordOf, wordIx_wordOf]
  unfold State.carry
  dsimp only
  rw [mend_whole hw hs, hw]
  rcases hst with hst | hst | hst <;> rw [hst]

/-- The reply to a request that its home has served comes back. -/
theorem requestWith_ok {a : Agent} {o : Option Nat} {f : Vec × BitVec 8} (ho : ∀ q, o = some q → s.carry a q = (s, true)) (h : serve r s = .ok f t) :
    ∃ u, requestWith a r o s = .ok (f, true) u ∧ Like t u := by
  refine ⟨_, ?_, (like_replyEnds t (portAt a.cl r.line)).trans (like_missEvent _ a r (s.anyOwned r) s.fresh)⟩
  unfold requestWith
  rw [get_bind]
  refine (bind_ok (a := true) (t := s) ?_).trans ?_
  · cases o with
    | none => rfl
    | some q =>
      show (get >>= fun x => _ : Mem Bool) s = _
      rw [get_bind, ho q rfl]
      rfl
  · rw [get_bind, get_bind, h]
    rfl

theorem request_ok {a : Agent} {f : Vec × BitVec 8} (h : serve r s = .ok f t) : ∃ u, request a r s = .ok f u ∧ Like t u := by
  obtain ⟨u, h1, h2⟩ := requestWith_ok (a := a) (o := none) (fun q hq => by cases hq) h
  refine ⟨u, ?_, h2⟩
  unfold request
  rw [bind_ok h1]
  rfl

/-- A line is held in its cluster, or its set has room for it. -/
def Fits (s : State) (cl line : Nat) : Prop := tfind (s.cluster cl).clc line ≠ none ∨ (s.cluster cl).clc.length < 15

theorem Fits.congr {line : Nat} (h : Fits s cl line) (hc : (t.cluster cl).clc = (s.cluster cl).clc) : Fits t cl line := by
  rwa [Fits, hc]

/-- A line with a word in it is held. -/
theorem fits_of_held (h : (s.clWord cl pa).st ≠ .i) : Fits s cl (lineOf pa) := by
  obtain ⟨l, hl⟩ := held_of_word h
  exact .inl (by rw [hl]; simp)

theorem vacate_room {a : Agent} {line : Nat} (h : Fits s a.cl line) (ht : a.tcc = false) : s.vacate a line = s := by
  unfold State.vacate
  dsimp only
  cases hl : tfind (s.cluster a.cl).clc line with
  | some l => rfl
  | none =>
    dsimp only
    rw [if_neg (by rw [ht]; decide), if_pos ((List.length_filter_le _ _).trans_lt (h.resolve_left fun e => e hl))]

theorem makeRoom_room {a : Agent} {line : Nat} (h : Fits s a.cl line) (ht : a.tcc = false) : s.makeRoom a line = s := by
  unfold State.makeRoom
  cases hl : tfind (s.cluster a.cl).clc line with
  | some l => rfl
  | none => simp only [vacate_room h ht, ht, Bool.false_eq_true, if_false]

theorem ready_ok {a : Agent} {room : Bool} (hf : s.flights = []) (h : room = true → Fits s a.cl (lineOf pa)) (ht : a.tcc = false) :
    ∃ t, ready a pa room s = .ok (s.clWord a.cl pa) t ∧ Like s t := by
  have hv : (if room then s.vacate a (lineOf pa) else s) = s := by
    split
    · next hr => exact vacate_room (h hr) ht
    · rfl
  have hl := like_approach hf a (lineOf pa)
  refine ⟨s.approach a (lineOf pa), ?_, hl⟩
  unfold ready
  dsimp only
  rw [hv, hl.clWord]

end Sys2Proof.Machine
end

section
/-! PROOFS. Loads (O21): of owned words, of the copies that a cluster reads where they stand, and from the home. -/

namespace Sys2Proof.Machine

variable {s t u : State} {pa : Nat} {a : Agent}

/-! Fills. -/

/-- Contexts, cores, accesses and memory are the same. -/
structure Beside (s t : State) : Prop where
  ctxs : t.ctxs = s.ctxs
  cores : t.cores = s.cores
  cur : t.cur = s.cur
  accs : t.accs = s.accs
  mem : t.mem = s.mem

theorem Beside.refl (s : State) : Beside s s := ⟨rfl, rfl, rfl, rfl, rfl⟩

theorem Beside.trans (h : Beside s t) (g : Beside t u) : Beside s u :=
  ⟨g.ctxs.trans h.ctxs, g.cores.trans h.cores, g.cur.trans h.cur, g.accs.trans h.accs, g.mem.trans h.mem⟩

theorem Like.beside (h : Like s t) : Beside s t := ⟨h.ctxs, h.cores, h.cur, h.accs, h.mem⟩

theorem Fetched.beside {cl : Nat} {f : Vec × BitVec 8} (h : Fetched s t cl pa f) : Beside s t := ⟨h.ctxs, h.cores, h.cur, h.accs, h.mem⟩

theorem beside_modCluster (s : State) (n : Nat) (f : Cluster → Cluster) : Beside s (s.modCluster n f) := ⟨rfl, rfl, rfl, rfl, rfl⟩

theorem beside_setClWord (s : State) (cl pa : Nat) (x : CacheWord) : Beside s (s.setClWord cl pa x) := ⟨rfl, rfl, rfl, rfl, rfl⟩

theorem Beside.sameSpot (h : Beside s t) : SameSpot s t := by
  have hc : ∀ k, t.core k = s.core k := fun k => by rw [State.core, State.core, h.cores]
  have hx : ∀ c, t.ctx c = s.ctx c := fun c => by rw [State.ctx, State.ctx, h.ctxs]
  exact ⟨h.cur, by rw [hx], by rw [hc], by rw [hc], by rw [hc]⟩

theorem Beside.me (h : Beside s t) : t.me = s.me := by rw [State.me, State.me, State.ctx, State.ctx, h.cur, h.ctxs]

/-- What a fill makes of one word of its line (R118). -/
def CacheWord.filled (x : CacheWord) (f : Vec × BitVec 8) (st : WordState) (w : Nat) : CacheWord :=
  if x.st = .o ∨ x.st = .b then x
  else if f.2.getLsbD w then { CacheWord.absent with st := if x.st = .t then .t else st, data := lineWord f.1 w } else CacheWord.absent

/-- One word of a fill installed. -/
def State.installWord (s : State) (cl line : Nat) (f : Vec × BitVec 8) (st : WordState) (w : Nat) : State :=
  if (s.clWord cl (line + 8 * w)).st = .o ∨ (s.clWord cl (line + 8 * w)).st = .b then s
  else if f.2.getLsbD w then
    s.setClWord cl (line + 8 * w) { CacheWord.absent with st := if (s.clWord cl (line + 8 * w)).st = .t then .t else st, data := lineWord f.1 w }
  else s.dropClWord cl (line + 8 * w)

theorem clWord_installWord {st : WordState} (hst : st ≠ .i) (s : State) (cl line : Nat) (f : Vec × BitVec 8) (w q : Nat) :
    (s.installWord cl line f st w).clWord cl q = if wordOf q = wordOf (line + 8 * w) then (s.clWord cl (line + 8 * w)).filled f st w else s.clWord cl q := by
  have hq : wordOf q = wordOf (line + 8 * w) → s.clWord cl q = s.clWord cl (line + 8 * w) := fun h => by
    rw [State.clWord, State.clWord, ← lineOf_wordOf q, ← wordIx_wordOf q, h, lineOf_wordOf, wordIx_wordOf]
  unfold State.installWord CacheWord.filled
  by_cases h : (s.clWord cl (line + 8 * w)).st = .o ∨ (s.clWord cl (line + 8 * w)).st = .b
  · rw [if_pos h, if_pos h]
    split
    · next e => exact hq e
    · rfl
  · rw [if_neg h, if_neg h]
    split
    · rw [clWord_setClWord _ _ _ _ _ _ fun e => ?_]
      · simp only [true_and]
      · exfalso
        split at e
        · cases e
        · exact hst e
    · rw [State.dropClWord, clWord_setClWord _ _ _ _ _ _ fun _ => rfl]
      simp only [true_and]

theorem beside_installWord (s : State) (cl line : Nat) (f : Vec × BitVec 8) (st : WordState) (w : Nat) : Beside s (s.installWord cl line f st w) := by
  unfold State.installWord
  split
  · exact .refl s
  · split
    · exact beside_setClWord ..
    · exact beside_setClWord ..

/-- A line's words after a fill. -/
theorem clWord_installWords {st : WordState} (hst : st ≠ .i) {line : Nat} (hl : line % 64 = 0) (cl : Nat) (f : Vec × BitVec 8) {k : Nat} (hk : k < 8) :
    ∀ (n : Nat), n ≤ 8 → ∀ s : State, ((List.range n).foldl (fun s w => s.installWord cl line f st w) s).clWord cl (line + 8 * k) =
      if k < n then (s.clWord cl (line + 8 * k)).filled f st k else s.clWord cl (line + 8 * k)
  | 0, _, s => rfl
  | n + 1, hn, s => by
    have hw : ∀ j < 8, wordOf (line + 8 * j) = line + 8 * j := fun j _ => by unfold wordOf; omega
    have ih := clWord_installWords hst hl cl f hk n (by omega) s
    rw [List.range_succ, List.foldl_append, List.foldl_cons, List.foldl_nil, clWord_installWord hst, hw k hk, hw n (by omega)]
    by_cases e : k = n
    · subst e
      rw [if_pos rfl, if_pos (by omega), ih, if_neg (by omega)]
    · rw [if_neg (by omega), ih]
      by_cases h : k < n
      · rw [if_pos h, if_pos (by omega)]
      · rw [if_neg h, if_neg (by omega)]

/-- A fill installed where its line finds room. -/
theorem install_room (h : Fits s a.cl (lineOf pa)) (ht : a.tcc = false) {st : WordState} (hst : st ≠ .i) (f : Vec × BitVec 8) :
    Beside s (s.install a (lineOf pa) f st) ∧
      ∀ w < 8, (s.install a (lineOf pa) f st).clWord a.cl (lineOf pa + 8 * w) = (s.clWord a.cl (lineOf pa + 8 * w)).filled f st w := by
  have hu : ∃ v, (if st = .u then s.modCluster a.cl (fun c => { c with filledU := true }) else s) = v ∧ Beside s v ∧ ∀ q, v.clWord a.cl q = s.clWord a.cl q := by
    refine ⟨_, rfl, ?_, fun q => ?_⟩
    · split
      · exact beside_modCluster ..
      · exact .refl s
    · split
      · exact (still_modCluster s a.cl (f := fun c => { c with filledU := true }) fun _ => rfl).clWord a.cl q
      · rfl
  obtain ⟨v, hv, hb, hq⟩ := hu
  have he : s.install a (lineOf pa) f st = (List.range 8).foldl (fun s w => s.installWord a.cl (lineOf pa) f st w) v := by
    unfold State.install
    dsimp only
    rw [makeRoom_room h ht, hv]
    rfl
  rw [he]
  refine ⟨hb.trans (foldl_keeps (p := Beside v) ?_ _ (.refl v)), fun w hw => ?_⟩
  · intro x w hx
    exact hx.trans (beside_installWord ..)
  · rw [clWord_installWords hst (lineOf_mod pa) a.cl f hw 8 le_rfl v, if_pos hw, hq]

/-! Reads. -/

/-- A read that fills its line. -/
def clFill (a : Agent) (pa : Nat) (acq : Option Scope) (kind : ReqKind) (st : WordState) : Mem Word := do
  let x ← ready a pa true
  let f ← request a { Req.blank a kind (lineOf pa) with words := oneWord pa, acq := acq }
  modify (fun s => s.install a (lineOf pa) f st)
  pure (if x.st = .b then mergeWord (fillWord f pa) x.data x.mask else fillWord f pa)

/-- A read of the home past the cluster cache. -/
def clThrough (a : Agent) (pa : Nat) (acq : Option Scope) : Mem Word := do
  let x ← ready a pa false
  let f ← request a { Req.blank a .rdW (lineOf pa) with words := oneWord pa, acq := acq }
  modify (fun s => if x.st = .t ∨ x.st = .u then s.setClWord a.cl pa { x with data := fillWord f pa } else s)
  pure (fillWord f pa)

/-- A cluster's read of a word by the word's state and the policy (R101, R102, R104). -/
theorem clRead_eq {pol : Pol} {acq : Option Scope} (hb : (s.clWord a.cl pa).bad = false) (hs : (s.clWord a.cl pa).single = false) :
    clRead a pol pa acq s = match (s.clWord a.cl pa).st, pol with
      | .o, _ => .ok (s.clWord a.cl pa).data s
      | .b, _ => if (s.clWord a.cl pa).mask = 255#8 then .ok (s.clWord a.cl pa).data s else clFill a pa acq .rdU .u s
      | .t, .wt => clThrough a pa acq s
      | .t, _ => .ok (s.clWord a.cl pa).data s
      | .u, .sis => .ok (s.clWord a.cl pa).data s
      | .i, .sis => clFill a pa acq .rdU .u s
      | _, .wt => clThrough a pa acq s
      | _, _ => clFill a pa acq .rdT .t s := by
  unfold clRead
  rw [modify_bind, scrub_sound hb hs, get_bind]
  cases hst : (s.clWord a.cl pa).st
  case o => simp only [hb]; rfl
  case b =>
    simp only [hb, Bool.false_eq_true, if_false]
    split <;> rfl
  all_goals cases pol <;> rfl

/-- The request by which a policy fills a line, and what the words filled become (R104). -/
def fillKind (pol : Pol) : ReqKind := if pol = .sis then .rdU else .rdT
def fillState (pol : Pol) : WordState := if pol = .sis then .u else .t

/-- A read that the word's copy does not answer under its policy fills the line (R104). -/
theorem clRead_fills {pol : Pol} {acq : Option Scope} (hb : (s.clWord a.cl pa).bad = false) (hs : (s.clWord a.cl pa).single = false) (hp : pol ≠ .wt)
    (hst : (s.clWord a.cl pa).st = .i ∨ ((s.clWord a.cl pa).st = .u ∧ pol ≠ .sis)) :
    clRead a pol pa acq s = clFill a pa acq (fillKind pol) (fillState pol) s := by
  rw [clRead_eq hb hs]
  rcases hst with hst | ⟨hst, hn⟩ <;> rw [hst]
  · cases pol with
    | own => rfl
    | wis => rfl
    | sis => rfl
    | wt => exact absurd rfl hp
  · cases pol with
    | own => rfl
    | wis => rfl
    | sis => exact absurd rfl hn
    | wt => exact absurd rfl hp

/-- What a load that goes to the home needs: the home serves it by itself, and neither an entry nor a line has to leave for it. -/
structure FillsFrom (s : State) (a : Agent) (pa : Nat) (acq : Option Scope) : Prop where
  served : Served s a.cl pa
  room : RoomFor s a.cl pa
  lines : Fits s a.cl (lineOf pa)
  tcc : a.tcc = false
  stamp : acq = none ∨ (s.dirOf (lineOf pa)).pmk = none

theorem FillsFrom.like {acq : Option Scope} (h : FillsFrom s a pa acq) (g : Like s t) : FillsFrom t a pa acq where
  served := h.served.like g
  room := h.room.like g
  lines := h.lines.congr (g.clc _)
  tcc := h.tcc
  stamp := h.stamp.imp id fun e => by rw [g.dirOf, e]

theorem forWord_ask (a : Agent) (pa : Nat) (acq : Option Scope) (kind : ReqKind) :
    ForWord { Req.blank a kind (lineOf pa) with words := oneWord pa, acq := acq } a.cl pa := ⟨rfl, rfl, rfl⟩

/-- A request of a cluster for a word that it reads. -/
theorem asks_ok {acq : Option Scope} (h : FillsFrom s a pa acq) {kind : ReqKind} (hk : kind = .rdT ∨ kind = .rdU ∨ kind = .rdW) :
    ∃ f u, request a { Req.blank a kind (lineOf pa) with words := oneWord pa, acq := acq } s = .ok f u ∧ Fetched s u a.cl pa f := by
  obtain ⟨f, t, h1, h2⟩ := serve_reads h.served (forWord_ask a pa acq kind) h.stamp (hk.imp (fun e => ⟨e, h.room⟩) id)
  obtain ⟨u, h3, h4⟩ := request_ok (a := a) h1
  exact ⟨f, u, h3, h2.like h4⟩

theorem clWord_line_wordIx (s : State) (cl pa : Nat) : s.clWord cl (lineOf pa + 8 * wordIx pa) = s.clWord cl pa := by
  rw [lineOf_wordIx, State.clWord, State.clWord, lineOf_wordOf, wordIx_wordOf]

/-- A read that fills its line: the word it answers, and the line (R104, R118). -/
theorem clFill_ok {acq : Option Scope} (h : FillsFrom s a pa acq) {kind : ReqKind} (hk : kind = .rdT ∨ kind = .rdU) {st : WordState} (hst : st ≠ .i) :
    ∃ f t, clFill a pa acq kind st s = .ok (if (s.clWord a.cl pa).st = .b
        then mergeWord (memWord s.mem (wordOf pa)) (s.clWord a.cl pa).data (s.clWord a.cl pa).mask else memWord s.mem (wordOf pa)) t ∧ Beside s t ∧
      (∀ w < 8, t.clWord a.cl (lineOf pa + 8 * w) = (s.clWord a.cl (lineOf pa + 8 * w)).filled f st w) ∧
      lineWord f.1 (wordIx pa) = memWord s.mem (wordOf pa) ∧ f.2.getLsbD (wordIx pa) = true ∧
      (∀ w < 8, w ≠ wordIx pa → s.ownerOf (lineOf pa + 8 * w) = none → tfind s.errs (lineOf pa + 8 * w) = none →
        lineWord f.1 w = memWord s.mem (lineOf pa + 8 * w) ∧ f.2.getLsbD w = true) := by
  obtain ⟨t1, h1, l1⟩ := ready_ok (room := true) h.served.flights (fun _ => h.lines) h.tcc
  obtain ⟨f, t2, h2, f2⟩ := asks_ok (h.like l1) (kind := kind) (hk.imp id .inl)
  have f2 := f2.before l1
  have hw : ∀ q, t2.clWord a.cl q = s.clWord a.cl q := fun q => f2.words _ _ (.inl rfl)
  obtain ⟨i1, i2⟩ := install_room (s := t2) (h.lines.congr (f2.clc _ rfl)) h.tcc hst f
  refine ⟨f, t2.install a (lineOf pa) f st, ?_, f2.beside.trans i1, fun w hw8 => ?_, f2.value, f2.valid, f2.others⟩
  · unfold clFill
    rw [bind_ok h1, bind_ok h2, modify_bind, f2.value]
    rfl
  · rw [i2 w hw8, hw]

theorem clThrough_ok {acq : Option Scope} (h : FillsFrom s a pa acq) :
    ∃ t, clThrough a pa acq s = .ok (memWord s.mem (wordOf pa)) t ∧ Beside s t ∧
      t.clWord a.cl pa = if (s.clWord a.cl pa).st = .t ∨ (s.clWord a.cl pa).st = .u
        then { s.clWord a.cl pa with data := memWord s.mem (wordOf pa) } else s.clWord a.cl pa := by
  obtain ⟨t1, h1, l1⟩ := ready_ok (room := false) h.served.flights (pa := pa) (fun e => by cases e) h.tcc
  obtain ⟨f, t2, h2, f2⟩ := asks_ok (h.like l1) (kind := .rdW) (.inr (.inr rfl))
  have f2 := f2.before l1
  refine ⟨if (s.clWord a.cl pa).st = .t ∨ (s.clWord a.cl pa).st = .u then t2.setClWord a.cl pa { s.clWord a.cl pa with data := memWord s.mem (wordOf pa) } else t2,
    ?_, ?_, ?_⟩
  · unfold clThrough
    rw [bind_ok h1, bind_ok h2, modify_bind, f2.value]
    rfl
  · refine f2.beside.trans ?_
    split
    · exact beside_setClWord ..
    · exact .refl t2
  · split
    · next hst =>
      rw [clWord_setClWord _ _ _ _ _ _ fun e => ?_, if_pos ⟨rfl, rfl⟩]
      rcases hst with hst | hst <;> rw [hst] at e <;> cases e
    · exact f2.words _ _ (.inl rfl)

/-! Loads. -/

theorem acquireAt_mem (s : State) (cl : Nat) (sc : Scope) : (s.acquireAt cl sc).mem = s.mem := by
  cases sc
  case pkg => exact discardU_mem s cl
  case sys => exact discardU_mem s cl
  all_goals rfl

/-- The access that a load notes. -/
def loadAcc (va : Word) (z : BitVec 2) (pol : Pol) : Acc :=
  { va := va, n := 2 ^ z.toNat, pol := some pol, rd := true, wr := false, lane := 0, device := false }

section
variable {va : Word} {z : BitVec 2} {pol : Pol} {ord : Order} {sc : Scope} {v : Word}

/-- A load that nothing stops: its value in the register, after its acquire (R195). -/
theorem loadReg_ok (hf : Free s) (hs : Settled s) (ha : va.toNat % 2 ^ z.toNat = 0) (hm : Maps s va .read (some pol) pa) (hd : isDevice pa = false)
    (hr : clRead s.agent pol pa (if ord = .acq then some sc else none) (s.noted (loadAcc va z pol)) = .ok v t)
    (hb : Beside (s.noted (loadAcc va z pol)) t) (d : Reg) (x : Bool) :
    runAct s 4 (loadReg d va z x pol ord sc) = .next (((if ord = .acq then (t.withAccs []).acquireAt s.myCluster sc else t.withAccs []).writeG d
      (loaded v pa (2 ^ z.toNat) x)).retireTo (s.pc + 4)) := by
  have hn : 2 ^ z.toNat ≤ 8 := by
    have : z.toNat ≤ 3 := by have := z.isLt; omega
    exact (Nat.pow_le_pow_right (by decide) this).trans (by decide)
  have hst : SameSpot s t := (sameSpot_noted s _).trans hb.sameSpot
  have hcl : t.myCluster = s.myCluster := congrArg clusterOf hb.cur
  let u := if ord = .acq then t.acquireAt s.myCluster sc else t
  have hu : SameSpot s u := hst.trans (by
    show SameSpot t (if _ then _ else _)
    split
    · exact (acquireAt_apart _ _ _).sameSpot
    · exact .refl t)
  have hval : loadValue va (2 ^ z.toNat) pol ord sc s = .ok (BitVec.ofNat 64 (subWord v (pa % 8) (2 ^ z.toNat))) u := by
    have hread : readBytes (s.noted (loadAcc va z pol)).agent pol pa (2 ^ z.toNat) (if ord = .acq then some sc else none) (s.noted (loadAcc va z pol)) =
        .ok (BitVec.ofNat 64 (subWord v (pa % 8) (2 ^ z.toNat))) t := by
      unfold readBytes
      exact (bind_ok hr).trans rfl
    unfold loadValue
    rw [bind_ok (aligned_ok ha _ _), bind_ok (xlate_maps hm), bind_ok (devCheck_ok hd _ _),
      bind_ok (t := s) (a := ()) (by rw [modify_ok, waitOwn_settled hs]),
      bind_ok (t := s.noted (loadAcc va z pol)) (a := ()) (by rw [note_ok, hd]; rfl)]
    rw [get_bind, hd, if_neg (by decide), bind_ok (lift_ok hread _ _ _), bind_ok (t := u) (a := ())]
    · rfl
    · refine guarded_ok ?_ (hu.free hf _)
      rw [modify_ok, hcl]
  have hrun : loadReg d va z x pol ord sc s = .ok () (u.writeG d (loaded v pa (2 ^ z.toNat) x)) := by
    unfold loadReg
    rw [bind_ok hval, modify_ok, extend_loaded v pa hn]
  have h := runAct_retires hf 4 hrun (hu.trans (sameSpot_writeG u d _))
  have hacc : (({ u.writeG d (loaded v pa (2 ^ z.toNat) x) with accs := [] } : State)) =
      (if ord = .acq then (t.withAccs []).acquireAt s.myCluster sc else t.withAccs []).writeG d (loaded v pa (2 ^ z.toNat) x) := by
    show (u.withAccs []).writeG d _ = _
    refine congrArg (fun y : State => y.writeG d _) ?_
    show (if ord = .acq then t.acquireAt s.myCluster sc else t).withAccs [] = _
    split
    · exact (acquireAt_accs t s.myCluster sc []).symm
    · rfl
  rwa [hacc] at h

/-- What a load leaves: its register, its PC, memory as it was, and the copy that its read left where it does not acquire. -/
theorem load_leaves {d : Reg} {x : Bool} {i : Instr} {copy : CacheWord} (hb : Beside (s.noted (loadAcc va z pol)) t) (hc : t.clWord s.myCluster pa = copy)
    (h : exec i s = .next (((if ord = .acq then (t.withAccs []).acquireAt s.myCluster sc else t.withAccs []).writeG d
      (loaded v pa (2 ^ z.toNat) x)).retireTo (s.pc + 4))) :
    ∃ t, exec i s = .next t ∧ t.me.g = (s.writeG d (loaded v pa (2 ^ z.toNat) x)).me.g ∧ t.pc = pcOf (s.pc + 4) ∧ t.mem = s.mem ∧
      (ord ≠ .acq → t.clWord s.myCluster pa = copy) := by
  refine ⟨_, h, ?_, ?_, ?_, fun hn => ?_⟩
  · have hme : (if ord = .acq then (t.withAccs []).acquireAt s.myCluster sc else t.withAccs []).me = s.me := by
      split
      · exact (acquireAt_me _ _ _).trans hb.me
      · exact hb.me
    rw [me_retireTo, State.writeG, State.writeG, me_modMe, me_modMe, hme]
  · rw [State.pc, me_retireTo]
  · show (if ord = .acq then (t.withAccs []).acquireAt s.myCluster sc else t.withAccs []).mem = s.mem
    split
    · exact (acquireAt_mem _ _ _).trans hb.mem
    · exact hb.mem
  · rw [if_neg hn, ← hc]
    rfl

end

theorem Calm.noted {cl : Nat} (h : Calm s cl pa) (c : Acc) : Calm (s.noted c) cl pa :=
  ⟨h.flights, h.slices, h.errors, h.frames, h.memory, h.reaches, h.reached, h.entries, h.lines, h.stamp⟩

/-- A socket that a link reaches from another has a number below 8, as has the other. -/
theorem joined_source_lt {cl : Nat} (h : s.joined (sockOf pa) (cl / 64) = true) : cl / 64 < 8 := by
  by_cases e : cl / 64 = sockOf pa
  · rw [e]
    exact Nat.mod_lt _ (by decide)
  · exact joined_lt h e

theorem Calm.served {cl : Nat} (h : Calm s cl pa) (ho : s.ownerOf pa = none) : Served s cl pa :=
  ⟨h.flights, h.slices, h.errors, h.frames, h.reaches, ho⟩

theorem Calm.roomFor {cl : Nat} (h : Calm s cl pa) (hp : pa < 2 ^ 52) (hd : isDevice pa = false) : RoomFor s cl pa :=
  roomFor_of_few h.entries hp hd (joined_source_lt h.reached)

theorem Calm.fillsFrom (h : Calm s a.cl pa) (ho : s.ownerOf pa = none) (hp : pa < 2 ^ 52) (hd : isDevice pa = false) (ht : a.tcc = false) (acq : Option Scope) :
    FillsFrom s a pa acq := ⟨h.served ho, h.roomFor hp hd, .inr h.lines, ht, .inr h.stamp⟩

theorem backed_lt {here : Nat} (h : s.backed here pa = true) : pa < 2 ^ 52 := by
  unfold State.backed at h
  simp only [Bool.and_eq_true, decide_eq_true_eq] at h
  obtain ⟨⟨h, -⟩, -⟩ := h
  exact h

/-- Settles O21. -/
theorem loadsOfOwnedWords : Obligations.LoadsOfOwnedWords := by
  refine ⟨fun d b pol ord sc z x s va pa v hf hs ha hm hd ho => ?_, fun d b pol ord sc z x s va pa hf hs ha hm hd => ?_⟩
  · have h := loadReg_ok (ord := ord) (sc := sc) hf hs ha hm hd (t := s.noted (loadAcc va z pol)) (v := v)
      (clRead_owned (s := s.noted (loadAcc va z pol)) ho s.agent rfl pol _) (.refl _) d x
    have e : (s.noted (loadAcc va z pol)).withAccs [] = s := accs_nil hf.2.2
    rw [e] at h
    refine ⟨fun off hva => ?_, fun i c hva => ?_⟩
    · subst hva
      exact h
    · subst hva
      exact h
  · intro cl y m runs hbad hsingle
    have gives : ∀ (v : Word) (copy : CacheWord) (t : State),
        clRead s.agent pol pa (if ord = .acq then some sc else none) (s.noted (loadAcc va z pol)) = .ok v t →
        Beside (s.noted (loadAcc va z pol)) t → t.clWord cl pa = copy → runs v copy := by
      intro v copy t hr hb hc
      have h := loadReg_ok hf hs ha hm hd hr hb d x
      refine ⟨fun off hva => ?_, fun i c hva => ?_⟩
      · subst hva
        exact load_leaves (i := .ld d b pol ord sc z x off) hb hc h
      · subst hva
        exact load_leaves (i := .ldx d b pol ord sc z x i c) hb hc h
    have hread := fun acq => clRead_eq (s := s.noted (loadAcc va z pol)) (a := s.agent) (pa := pa) (pol := pol) (acq := acq) hbad hsingle
    have hy : (s.noted (loadAcc va z pol)).clWord s.agent.cl pa = y := rfl
    rw [hy] at hread
    refine ⟨fun hl => ?_, fun hcalm ho => ⟨fun hst hmask => ?_, fun hst => ?_⟩⟩
    · refine gives y.data y _ ?_ (.refl _) rfl
      rw [hread]
      rcases hl with ⟨hst, hpol⟩ | ⟨hst, rfl⟩ | ⟨hst, hmask⟩
      · rw [hst]
        cases pol with
        | own => rfl
        | wis => rfl
        | sis => rfl
        | wt => exact absurd rfl hpol
      · rw [hst]
      · rw [hst]
        exact if_pos hmask
    all_goals
      have hfill := fun acq => (hcalm.noted (loadAcc va z pol)).fillsFrom (a := s.agent) ho (backed_lt hm.1) hd rfl acq
    · obtain ⟨f, t, h1, h2, h3, -⟩ := clFill_ok (hfill (if ord = .acq then some sc else none)) (kind := .rdU) (.inr rfl) (st := .u) (by decide)
      refine gives _ _ t ?_ h2 ?_
      · rw [hread, hst]
        dsimp only
        rw [if_neg hmask, h1, hy, if_pos hst]
        rfl
      · have := h3 _ (wordIx_lt pa)
        rw [clWord_line_wordIx, clWord_line_wordIx, hy, CacheWord.filled, if_pos (.inr hst)] at this
        exact this
    · have thr : pol = .wt → (y.st = .i ∨ y.st = .t ∨ y.st = .u) → runs m (if pol = .wt then (if y.st = .i then y else { y with data := m })
          else { CacheWord.absent with st := if pol = .sis then .u else .t, data := m }) := by
        rintro rfl hi
        obtain ⟨t, h1, h2, h3⟩ := clThrough_ok (hfill (if ord = .acq then some sc else none))
        refine gives _ _ t ?_ h2 (h3.trans ?_)
        · rw [hread]
          rcases hi with hi | hi | hi <;> rw [hi] <;> exact h1
        · rw [hy, if_pos rfl]
          rcases hi with hi | hi | hi <;> simp [hi] <;> rfl
      by_cases hpol : pol = .wt
      · exact thr hpol (hst.imp_right (.imp And.left And.left))
      · have hiu : y.st = .i ∨ (y.st = .u ∧ pol ≠ .sis) := hst.imp_right fun h => h.resolve_left fun e => hpol e.2
        obtain ⟨f, t, h1, h2, h3, h4, h5, -⟩ := clFill_ok (hfill (if ord = .acq then some sc else none)) (kind := fillKind pol)
          (by unfold fillKind; split <;> simp) (st := fillState pol) (by unfold fillState; split <;> simp)
        refine gives _ _ t ?_ h2 ?_
        · rw [clRead_fills hbad hsingle hpol hiu, h1, hy, if_neg]
          · rfl
          · rcases hiu with e | ⟨e, -⟩ <;> simp [e]
        · have := h3 _ (wordIx_lt pa)
          rw [clWord_line_wordIx, clWord_line_wordIx, hy, CacheWord.filled, if_neg (by rcases hiu with e | ⟨e, -⟩ <;> simp [e]), h5, if_pos rfl,
            if_neg (by rcases hiu with e | ⟨e, -⟩ <;> simp [e]), h4] at this
          rw [if_neg hpol]
          exact this

end Sys2Proof.Machine
end

section
/-! PROOFS. Retired stores performed (O23): on owned and buffered words in their cluster, and on others with their home. -/

namespace Sys2Proof.Machine

variable {s t u : State} {pa : Nat} {a : Agent}

theorem tracked_congr {c : Nat} (h : Tracked s pa c) (hd : t.dir = s.dir) (hp : t.proxies = s.proxies) : Tracked t pa c := by
  obtain ⟨d, p⟩ := h
  refine ⟨?_, fun hs => ?_⟩
  · rw [State.dirOf, hd]
    exact d
  · rw [State.proxyOf, hp]
    exact p hs

/-- What making a word owned leaves: the word, with memory's value, and the entries that name its owner. -/
structure Obtained (s t : State) (cl pa : Nat) : Prop extends AtWord (wordOf pa) none s t where
  mem : t.mem = s.mem
  tracked : Tracked t pa cl
  word : t.clWord cl pa = { CacheWord.absent with st := .o, data := memWord s.mem (wordOf pa) }

/-- A word that no cluster owns and of which the cluster buffers nothing is made owned (R102, R104). -/
theorem obtain_home (h : FillsFrom s a pa none) (hy : Clean (s.clWord a.cl pa)) :
    ∃ t, Machine.obtain a pa s = .ok (memWord s.mem (wordOf pa)) t ∧ Obtained s t a.cl pa := by
  obtain ⟨hst, hbad, hsingle⟩ := id hy
  obtain ⟨t1, h1, l1⟩ := ready_ok (room := true) h.served.flights (fun _ => h.lines) h.tcc
  have h' := h.like l1
  have hr : ForWord { Req.blank a .own (lineOf pa) with words := oneWord pa } a.cl pa := ⟨rfl, rfl, rfl⟩
  obtain ⟨f, t2, h2, f2, k2⟩ := serve_owns h'.served hr (.inl rfl) rfl h'.room
  obtain ⟨t3, h3, l3⟩ := requestWith_ok (a := a) (o := some pa) (fun q hq => by
    cases hq
    exact carry_clean (by rw [l1.clWord]; exact hy)) h2
  have f3 := (f2.like l3).before l1
  have hm : t3.makeRoom a (lineOf pa) = t3 := makeRoom_room (h.lines.congr (f3.clc _ rfl)) h.tcc
  have hset := atWord_setClWord t3 a.cl (wordOf pa) (x := { CacheWord.absent with st := .o, data := memWord s.mem (wordOf pa) }) fun e => by cases e
  have hwr : t3.setClWord a.cl (wordOf pa) { CacheWord.absent with st := .o, data := memWord s.mem (wordOf pa) } =
      t3.setClWord a.cl pa { CacheWord.absent with st := .o, data := memWord s.mem (wordOf pa) } := by
    unfold State.setClWord
    rw [lineOf_wordOf, wordIx_wordOf]
  rw [hwr] at hset
  refine ⟨t3.setClWord a.cl pa { CacheWord.absent with st := .o, data := memWord s.mem (wordOf pa) }, ?_,
    { f3.toAtWord.weaken.trans hset with
      mem := f3.mem
      tracked := tracked_congr (tracked_congr k2 l3.dir l3.proxies) rfl rfl
      word := clWord_setClWord_same _ _ _ fun e => by cases e }⟩
  have hno : ¬ (s.clWord a.cl pa).st = .o := by rcases hst with e | e | e <;> simp [e]
  unfold Machine.obtain
  rw [modify_bind, scrub_sound hbad hsingle, get_bind, if_neg hno, bind_ok h1, bind_ok h3, modify_bind, hm, f3.value]
  rfl

/-- A store under .own on a word that its cluster has made owned (R104). -/
theorem clWrite_own {v : Word} {mask : BitVec 8} {rel : Option Scope} (hb : (s.clWord a.cl pa).bad = false) (hs : (s.clWord a.cl pa).single = false)
    (ho : Machine.obtain a pa s = .ok v t) (hw : (t.clWord a.cl pa).st = .o) (ht : a.tcc = false) (data : Word) :
    clWrite a .own pa data mask rel s =
      .ok () ((t.setClWord a.cl pa { CacheWord.absent with st := .o, data := mergeWord v data mask }).markRecheck a.cl (lineOf pa)) := by
  unfold clWrite
  rw [modify_bind, scrub_sound hb hs, get_bind]
  dsimp only
  by_cases hm : mask = 255#8
  · have hwhole : obtainWhole a pa s = .ok () t := by
      unfold obtainWhole
      rw [ho]
    rw [if_pos hm, bind_ok hwhole, modify_bind, makeRoom_room (fits_of_held (by rw [hw]; decide)) ht, hm, mergeWord_full]
    rfl
  · rw [if_neg hm, bind_ok ho, modify_bind]
    rfl

/-! Writes at the home. -/

theorem forWord_write (a : Agent) (pa : Nat) (data : Word) (mask : BitVec 8) (kind : ReqKind) :
    ForWord { Req.write a kind pa data mask with rel := none } a.cl pa := ⟨rfl, rfl, rfl⟩

/-- A word that no cluster owns written at its home by a cluster that holds it clean (R102, R119). -/
theorem writes_ok (h : FillsFrom s a pa none) (hy : Clean (s.clWord a.cl pa)) (data : Word) (mask : BitVec 8) {kind : ReqKind} (hk : kind = .wrT ∨ kind = .wrW) :
    ∃ f u, requestWith a { Req.write a kind pa data mask with rel := none } (some pa) s = .ok (f, true) u ∧ AtWord (wordOf pa) (some a.cl) s u ∧
      u.mem = memPutWord s.mem (wordOf pa) (mergeWord (memWord s.mem (wordOf pa)) data mask) := by
  obtain ⟨f, t, h1, h2, h3⟩ := serve_writes h.served (forWord_write a pa data mask kind) rfl rfl (hk.imp (fun e => ⟨e, h.room⟩) id)
  obtain ⟨u, h4, h5⟩ := requestWith_ok (a := a) (o := some pa) (fun q hq => by cases hq; exact carry_clean hy) h1
  refine ⟨f, u, h4, h2.trans (h5.atWord _ _), ?_⟩
  rw [h5.mem, h3]
  have hd : lineWord (data.setWidth 512 <<< (64 * wordIx pa)) (wordIx pa) = data := by
    rw [lineWord_shifted data (wordIx_lt pa) (wordIx_lt pa), if_pos rfl]
  have hm : wordMask (mask.setWidth 64 <<< (8 * wordIx pa)) (wordIx pa) = mask := wordMask_shifted mask (wordIx_lt pa)
  show memPutWord s.mem _ (mergeWord _ (lineWord (data.setWidth 512 <<< (64 * wordIx pa)) (wordIx pa)) (wordMask (mask.setWidth 64 <<< (8 * wordIx pa)) (wordIx pa))) = _
  rw [hd, hm]

/-- What a store leaves of all but the memory system, and of memory. -/
structure Leaves (s t : State) (m : List Host.Cell) : Prop where
  mem : t.mem = m
  ctxs : t.ctxs = s.ctxs
  cores : t.cores = s.cores

/-- Memory after a store through to the home of its word. -/
def State.memThrough (s : State) (pa : Nat) (data : Word) (mask : BitVec 8) : List Host.Cell :=
  memPutWord s.mem (wordOf pa) (mergeWord (memWord s.mem (wordOf pa)) data mask)

/-- The cluster's own copy after a store through. -/
theorem through_leaves {m : List Host.Cell} {cl : Nat} {x : CacheWord} (c : Prop) [Decidable c] (hx : x.st ≠ .i) (h : Leaves s t m)
    (hw : t.clWord cl pa = s.clWord cl pa) : Leaves s ((if c then t.setClWord cl pa x else t).markRecheck cl (lineOf pa)) m ∧
      ((if c then t.setClWord cl pa x else t).markRecheck cl (lineOf pa)).clWord cl pa = if c then x else s.clWord cl pa := by
  have hl := like_markRecheck (if c then t.setClWord cl pa x else t) cl (lineOf pa)
  obtain ⟨h1, h2, h3⟩ := h
  refine ⟨⟨hl.mem.trans ?_, hl.ctxs.trans ?_, hl.cores.trans ?_⟩, (hl.clWord _ _).trans ?_⟩
  · rw [← h1]; split <;> rfl
  · rw [← h2]; split <;> rfl
  · rw [← h3]; split <;> rfl
  · split
    · exact clWord_setClWord_same _ _ _ fun e => absurd e hx
    · exact hw

section
variable (h : FillsFrom s a pa none) (hy : Clean (s.clWord a.cl pa)) (data : Word) (mask : BitVec 8)
include h hy

theorem clWrite_wis : ∃ t, clWrite a .wis pa data mask none s = .ok () t ∧ Leaves s t (s.memThrough pa data mask) ∧
    t.clWord a.cl pa = if (s.clWord a.cl pa).st = .t ∨ (s.clWord a.cl pa).st = .u
      then { CacheWord.absent with st := .t, data := mergeWord (s.clWord a.cl pa).data data mask } else s.clWord a.cl pa := by
  obtain ⟨hst, hbad, hsingle⟩ := id hy
  obtain ⟨t1, h1, l1⟩ := ready_ok (pa := pa) (room := false) h.served.flights (fun e => by cases e) h.tcc
  obtain ⟨f, t2, h2, w2, m2⟩ := writes_ok (h.like l1) (by rw [l1.clWord]; exact hy) data mask (.inl rfl)
  rw [l1.mem] at m2
  have hw : t2.clWord a.cl pa = s.clWord a.cl pa := (w2.words _ _ (.inl rfl)).trans (l1.clWord _ _)
  have hno : (s.clWord a.cl pa).st ≠ .o ∧ (s.clWord a.cl pa).st ≠ .b := by rcases hst with e | e | e <;> simp [e]
  have hl := through_leaves ((s.clWord a.cl pa).st = .t ∨ (s.clWord a.cl pa).st = .u)
    (x := { CacheWord.absent with st := .t, data := mergeWord (s.clWord a.cl pa).data data mask }) (by simp) ⟨m2, w2.ctxs.trans l1.ctxs, w2.cores.trans l1.cores⟩ hw
  refine ⟨_, ?_, hl⟩
  unfold clWrite
  rw [modify_bind, scrub_sound hbad hsingle, get_bind]
  dsimp only
  rw [bind_ok h1, bind_ok h2]
  simp only [hno.1, hno.2, false_and, or_false, true_and]
  split
  · next hh =>
    rw [modify_bind, makeRoom_room (fits_of_held (pa := pa) (by rw [hw]; rcases hh with e | e <;> simp [e])) h.tcc]
    rfl
  · rfl

theorem clWrite_wt : ∃ t, clWrite a .wt pa data mask none s = .ok () t ∧ Leaves s t (s.memThrough pa data mask) ∧
    t.clWord a.cl pa = if (s.clWord a.cl pa).st = .t ∨ (s.clWord a.cl pa).st = .u
      then { s.clWord a.cl pa with data := mergeWord (s.clWord a.cl pa).data data mask } else s.clWord a.cl pa := by
  obtain ⟨hst, hbad, hsingle⟩ := id hy
  obtain ⟨t1, h1, l1⟩ := ready_ok (pa := pa) (room := false) h.served.flights (fun e => by cases e) h.tcc
  obtain ⟨f, t2, h2, w2, m2⟩ := writes_ok (h.like l1) (by rw [l1.clWord]; exact hy) data mask (.inr rfl)
  rw [l1.mem] at m2
  have hw : t2.clWord a.cl pa = s.clWord a.cl pa := (w2.words _ _ (.inl rfl)).trans (l1.clWord _ _)
  have hrun : clWrite a .wt pa data mask none s = .ok () ((if (s.clWord a.cl pa).st = .t ∨ (s.clWord a.cl pa).st = .u
      then t2.setClWord a.cl pa { s.clWord a.cl pa with data := mergeWord (s.clWord a.cl pa).data data mask } else t2).markRecheck a.cl (lineOf pa)) := by
    unfold clWrite
    rw [modify_bind, scrub_sound hbad hsingle, get_bind]
    dsimp only
    rw [bind_ok h1, bind_ok h2]
    split
    · rfl
    · rfl
  rw [hrun]
  refine ⟨_, rfl, ?_⟩
  by_cases hh : (s.clWord a.cl pa).st = .t ∨ (s.clWord a.cl pa).st = .u
  · exact through_leaves _ (by rcases hh with e | e <;> simp [e]) ⟨m2, w2.ctxs.trans l1.ctxs, w2.cores.trans l1.cores⟩ hw
  · have hl := through_leaves False (x := { CacheWord.absent with st := .t }) (by simp) ⟨m2, w2.ctxs.trans l1.ctxs, w2.cores.trans l1.cores⟩ hw
    simp only [if_false] at hl
    simp only [hh, if_false]
    exact hl

end

/-! Stores that their cluster buffers, and those on owned words. -/

/-- A single-bit error corrected: the word stays but for its mark. -/
theorem mend_leaves (cl : Nat) (hst : (s.clWord cl pa).st ≠ .i) :
    Leaves s (s.mend cl pa) s.mem ∧ (s.mend cl pa).clWord cl pa = { s.clWord cl pa with single := false } := by
  unfold State.mend
  split
  · exact ⟨⟨rfl, rfl, rfl⟩, clWord_setClWord_same s cl pa (x := { s.clWord cl pa with single := false }) fun e => absurd e hst⟩
  · next hn =>
    refine ⟨⟨rfl, rfl, rfl⟩, ?_⟩
    cases hw : s.clWord cl pa with
    | mk st data mask tno origin pc rel single bad =>
      rw [hw] at hn
      rw [show single = false from by simpa using hn]

/-- A store under .sis leaves its bytes in its cluster: in an owned word, or behind those buffered for its tenant (R102). -/
theorem clWrite_sis {y x : CacheWord} {data : Word} {mask : BitVec 8} (ht : a.tcc = false) (hy : s.clWord a.cl pa = y) (hbad : y.bad = false)
    (hfits : Fits s a.cl (lineOf pa))
    (hx : ((y.st = .i ∨ y.st = .t ∨ y.st = .u) ∧ y.single = false ∧ x = CacheWord.absent.buffer a data mask none) ∨
      (y.st = .b ∧ y.tno = a.tno ∧ x = ({ y with single := false } : CacheWord).buffer a data mask none) ∨
      (y.st = .o ∧ y.single = false ∧ x = { y with data := mergeWord y.data data mask })) :
    ∃ t, clWrite a .sis pa data mask none s = .ok () t ∧ Leaves s t s.mem ∧ t.clWord a.cl pa = x := by
  have hsc : ∃ u, s.scrub a.cl pa = u ∧ Leaves s u s.mem ∧ u.clWord a.cl pa = { y with single := false } ∧ Fits u a.cl (lineOf pa) := by
    by_cases hs : y.single = false
    · refine ⟨s, scrub_sound (by rw [hy]; exact hbad) (by rw [hy]; exact hs), ⟨rfl, rfl, rfl⟩, ?_, hfits⟩
      rw [hy]
      cases y
      simp only at hs
      rw [hs]
    · have hst : y.st = .b := by
        rcases hx with ⟨-, h, -⟩ | ⟨h, -, -⟩ | ⟨-, h, -⟩
        · exact absurd h hs
        · exact h
        · exact absurd h hs
      have hne : (s.clWord a.cl pa).st ≠ .i := by rw [hy, hst]; decide
      obtain ⟨h1, h2⟩ := mend_leaves a.cl hne
      have he : s.scrub a.cl pa = s.mend a.cl pa := by
        unfold State.scrub
        simp [hy, hbad]
      rw [hy] at h2
      exact ⟨_, he, h1, h2, fits_of_held (by rw [h2]; simp [hst])⟩
  obtain ⟨u, hu, hl, hw, hf⟩ := hsc
  have hxi : x.st ≠ .i := by
    rcases hx with ⟨-, -, h⟩ | ⟨-, -, h⟩ | ⟨h, -, h'⟩
    · rw [h]; simp [CacheWord.buffer]
    · rw [h]; simp [CacheWord.buffer]
    · rw [h']; simp [h]
  have h := through_leaves (pa := pa) (cl := a.cl) True hxi (t := u) (s := u) (m := u.mem) ⟨rfl, rfl, rfl⟩ rfl
  simp only [if_true] at h
  obtain ⟨⟨h1, h2, h3⟩, h4⟩ := h
  refine ⟨_, ?_, ⟨h1.trans hl.mem, h2.trans hl.ctxs, h3.trans hl.cores⟩, h4⟩
  unfold clWrite
  rw [modify_bind, hu, get_bind]
  dsimp only
  rw [hw]
  rcases hx with ⟨hst, -, hx⟩ | ⟨hst, htno, hx⟩ | ⟨hst, hs, hx⟩
  · rcases hst with hst | hst | hst <;> simp only [hst] <;> rw [modify_bind, makeRoom_room hf ht, ← hx] <;> rfl
  · simp only [hst, htno, ne_eq, not_true_eq_false, if_false, if_true]
    rw [modify_bind, makeRoom_room hf ht, hx]
    rfl
  · simp only [hst, hbad]
    rw [modify_bind, ← hst]
    have : ({ y with data := mergeWord y.data data mask, single := false, bad := false && mask != 255#8 } : CacheWord) = x := by
      rw [hx]
      simp only [Bool.false_and, hbad, hs]
    rw [this]
    rfl

/-! The performance of a store. -/

/-- The state in which the oldest store of a core, taken from its buffer, is performed. -/
def State.unqueued (s : State) (core : Nat) (rest : List PendingStore) : State := s.modCore core (fun k => { k with sbuf := rest })

section
variable {core : Nat} {p : PendingStore} {rest : List PendingStore} (hq : (s.core core).sbuf = p :: rest) (hrel : p.rel = none)
  (hd : isDevice p.pa = false) (hb : s.backed (clusterOf p.ctx / 64) p.pa = true) (htp : s.tilePending (clusterOf p.ctx) p.tcb p.pa p.n = false)
include hq hrel hd hb htp

/-- A plain store that its cluster's write ends well. -/
theorem storePerform_ok (hw : clWrite p.agent p.pol p.pa (alignWord p.data (p.pa % 8)) (maskOf (p.pa % 8) p.n) none (s.unqueued core rest) = .ok () t) :
    exec (.storePerform core) s = .next t := by
  have hb' : (s.unqueued core rest).backed (p.agent.cl / 64) p.pa = true := hb
  have htp' : (s.unqueued core rest).tilePending p.agent.cl p.tcb p.pa p.n = false := htp
  show Host.Outcome.next (s.performOldest core) = _
  refine congrArg _ ?_
  unfold State.performOldest
  rw [hq]
  show (s.unqueued core rest).performStore p = t
  unfold State.performStore
  dsimp only
  rw [hrel]
  dsimp only
  rw [htp', hd]
  simp only [Bool.false_eq_true, if_false]
  unfold State.writeLate
  rw [hb', if_neg (by decide)]
  show (match clWrite p.agent p.pol p.pa (alignWord p.data (p.pa % 8)) (maskOf (p.pa % 8) p.n) none (s.unqueued core rest) with
    | .ok _ s => s | .error (.frame _) s => _ | .error (.error e) s => _) = t
  rw [hw]

/-- What is left of a performed store's core and contexts. -/
theorem storePerform_leaves {m : List Host.Cell}
    (hw : clWrite p.agent p.pol p.pa (alignWord p.data (p.pa % 8)) (maskOf (p.pa % 8) p.n) none (s.unqueued core rest) = .ok () t)
    (hl : Leaves (s.unqueued core rest) t m) : exec (.storePerform core) s = .next t ∧ (t.core core).sbuf = rest ∧ t.ctxs = s.ctxs ∧ t.mem = m := by
  refine ⟨storePerform_ok hq hrel hd hb htp hw, ?_, hl.ctxs, hl.mem⟩
  have : t.core core = (s.unqueued core rest).core core := by rw [State.core, State.core, hl.cores]
  rw [this]
  exact congrArg Core.sbuf (core_modCore_same s core _)

end

theorem stored_mergeWord (old x : Word) {k n : Nat} (h : k + n ≤ 8) : Stored old (mergeWord old (alignWord x k) (maskOf k n)) x k n :=
  fun _ hi => mergeWord_bits old x h hi

theorem clWord_wordOf (s : State) (cl pa : Nat) : s.clWord cl (wordOf pa) = s.clWord cl pa := by
  rw [State.clWord, State.clWord, lineOf_wordOf, wordIx_wordOf]

/-- A store under .own whose word the cluster has made owned. -/
theorem own_leaves {v : Word} {m : List Host.Cell} {cl : Nat} (data : Word) (mask : BitVec 8) (h : Leaves s t m) :
    let w := { CacheWord.absent with st := .o, data := mergeWord v data mask }
    Leaves s ((t.setClWord cl pa w).markRecheck cl (lineOf pa)) m ∧
      ∀ c q, ((t.setClWord cl pa w).markRecheck cl (lineOf pa)).clWord c q = if c = cl ∧ wordOf q = wordOf pa then w else t.clWord c q := by
  have hl := like_markRecheck (t.setClWord cl pa { CacheWord.absent with st := .o, data := mergeWord v data mask }) cl (lineOf pa)
  obtain ⟨h1, h2, h3⟩ := h
  exact ⟨⟨hl.mem.trans h1, hl.ctxs.trans h2, hl.cores.trans h3⟩, fun c q => (hl.clWord _ _).trans (clWord_setClWord _ _ _ _ _ _ fun e => by cases e)⟩

theorem calm_unqueued {cl pa core : Nat} {rest : List PendingStore} (h : Calm s cl pa) : Calm (s.unqueued core rest) cl pa :=
  ⟨h.flights, h.slices, h.errors, h.frames, h.memory, h.reaches, h.reached, h.entries, h.lines, h.stamp⟩

/-- A calm word is its whole word's address. -/
theorem Calm.address {cl pa : Nat} (h : Calm s cl (wordOf pa)) : Calm s cl pa := by
  obtain ⟨h1, h2, h3, h4, h5, h6, h7, h8, h9, h10⟩ := h
  rw [wordOf_wordOf] at h3
  rw [sockOf_wordOf] at h4 h6 h7
  rw [lineOf_wordOf] at h10
  exact ⟨h1, h2, h3, h4, h5, h6, h7, h8, h9, h10⟩

/-- What a store through to its home leaves of memory (R102, R122). -/
theorem memThrough_stored (hm : Memory.wf s.mem = true) {pa n : Nat} (hn : pa % 8 + n ≤ 8) (x : Word) :
    let m := s.memThrough pa (alignWord x (pa % 8)) (maskOf (pa % 8) n)
    Stored (memWord s.mem (wordOf pa)) (memWord m (wordOf pa)) x (pa % 8) n ∧ ∀ a, a < wordOf pa ∨ wordOf pa + 8 ≤ a → memByte m a = memByte s.mem a := by
  refine ⟨?_, fun a ha => memByte_memPutWord hm _ ha⟩
  rw [State.memThrough, memWord_memPutWord hm]
  exact stored_mergeWord _ x hn

/-- Settles O23. -/
theorem storePerformsInTheOwningCluster : Obligations.StorePerformsInTheOwningCluster := by
  refine ⟨fun s core => ⟨fun hq => ?_, ?_⟩, ?_⟩
  · show Host.Outcome.next (s.performOldest core) = _
    rw [State.performOldest, hq]
  · intro p rest hq hrel hpol hd hb hn cl x htp hst hbad hsingle
    have ho := obtain_whole_word (s := s.unqueued core rest) (pa := p.pa) (cl := cl) p.agent rfl hst hbad hsingle
    have hw := clWrite_own (mask := maskOf (p.pa % 8) p.n) (rel := none) hbad hsingle ho hst rfl (alignWord p.data (p.pa % 8))
    obtain ⟨hl, hc⟩ := own_leaves (pa := p.pa) (cl := cl) (v := x.data) (alignWord p.data (p.pa % 8)) (maskOf (p.pa % 8) p.n)
      (s := s.unqueued core rest) (t := s.unqueued core rest) (m := s.mem) ⟨rfl, rfl, rfl⟩
    rw [← hpol] at hw
    obtain ⟨h1, h2, h3, h4⟩ := storePerform_leaves hq hrel hd hb htp hw hl
    refine ⟨_, _, h1, h2, h4, h3, (hc _ _).trans (if_pos ⟨rfl, rfl⟩), stored_mergeWord _ _ hn, fun c pa hne => (hc c pa).trans (if_neg ?_)⟩
    rintro ⟨rfl, he⟩
    exact hne.elim (fun h => h rfl) fun h => h he
  · intro s core p rest hq hrel hd hb hn cl q y into ends home copy buffers htp
    refine ⟨fun hy hcalm ho => ?_, fun hpol => ?_⟩
    · have hcalm' := (calm_unqueued (core := core) (rest := rest) hcalm).address
      have hyy : y = s.clWord cl p.pa := clWord_wordOf s cl p.pa
      have hcl : Clean ((s.unqueued core rest).clWord p.agent.cl p.pa) := by
        show Clean (s.clWord cl p.pa)
        rwa [← hyy]
      have hf : FillsFrom (s.unqueued core rest) p.agent p.pa none :=
        hcalm'.fillsFrom (a := p.agent) (by rwa [ownerOf_wordOf] at ho) (backed_lt hb) hd rfl none
      obtain ⟨-, hbad, hsingle⟩ := id hcl
      have thr : ∀ (t : State) (x : CacheWord), clWrite p.agent p.pol p.pa (alignWord p.data (p.pa % 8)) (maskOf (p.pa % 8) p.n) none (s.unqueued core rest) = .ok () t →
          Leaves (s.unqueued core rest) t ((s.unqueued core rest).memThrough p.pa (alignWord p.data (p.pa % 8)) (maskOf (p.pa % 8) p.n)) →
          t.clWord cl p.pa = (if y.st = .t ∨ y.st = .u then x else y) → x.bad = false → x.data = mergeWord y.data (alignWord p.data (p.pa % 8)) (maskOf (p.pa % 8) p.n) →
          ends (fun t => home t ∧ copy t x.st) := by
        intro t x hw hl hx hxb hxd
        obtain ⟨h1, h2, h3, h4⟩ := storePerform_leaves hq hrel hd hb htp hw hl
        have hhome := memThrough_stored (s := s.unqueued core rest) hcalm.memory hn p.data
        rw [← h4] at hhome
        refine ⟨t, h1, h2, h3, hhome, ?_⟩
        have hxq : t.clWord cl q = if y.st = .t ∨ y.st = .u then x else y := (clWord_wordOf t cl p.pa).trans hx
        show if y.st = .i then t.clWord cl q = y else _
        obtain ⟨hyst, -, -⟩ := hy
        split
        · next e => rw [hxq, if_neg (by simp [e])]
        · next e =>
          rw [hxq, if_pos (hyst.resolve_left e), hxd]
          exact ⟨rfl, stored_mergeWord _ _ hn, hxb⟩
      have hy2 : (s.unqueued core rest).clWord p.agent.cl p.pa = y := hyy.symm
      refine ⟨fun hpol => ?_, fun hpol => ?_, fun hpol => ?_⟩
      · obtain ⟨t, h1, h2⟩ := obtain_home hf hcl
        have hw := clWrite_own (mask := maskOf (p.pa % 8) p.n) (rel := none) hbad hsingle h1 (by rw [h2.word]) rfl (alignWord p.data (p.pa % 8))
        obtain ⟨hl, hc⟩ := own_leaves (pa := p.pa) (cl := cl) (v := memWord s.mem q) (alignWord p.data (p.pa % 8)) (maskOf (p.pa % 8) p.n)
          (s := s.unqueued core rest) (t := t) (m := s.mem) ⟨h2.mem, h2.ctxs, h2.cores⟩
        rw [← hpol] at hw
        obtain ⟨g1, g2, g3, g4⟩ := storePerform_leaves hq hrel hd hb htp hw hl
        refine ⟨_, stored_mergeWord _ p.data hn, _, g1, g2, g3, g4, ?_, (hc _ _).trans (if_pos ⟨rfl, wordOf_wordOf _⟩)⟩
        rw [ownerOf_wordOf]
        refine (tracked_congr h2.tracked ?_ ?_).ownerOf
        · exact (like_markRecheck _ _ _).dir
        · exact (like_markRecheck _ _ _).proxies
      · obtain ⟨t, h1, h2, h3⟩ := clWrite_wis hf hcl (alignWord p.data (p.pa % 8)) (maskOf (p.pa % 8) p.n)
        rw [← hpol] at h1
        rw [hy2] at h3
        exact thr t _ h1 h2 h3 rfl rfl
      · obtain ⟨t, h1, h2, h3⟩ := clWrite_wt hf hcl (alignWord p.data (p.pa % 8)) (maskOf (p.pa % 8) p.n)
        rw [← hpol] at h1
        rw [hy2] at h3
        exact thr t { y with data := mergeWord y.data (alignWord p.data (p.pa % 8)) (maskOf (p.pa % 8) p.n) } h1 h2 h3 hy.2.1 rfl
    · have hyy : (s.unqueued core rest).clWord p.agent.cl p.pa = y := (clWord_wordOf s cl p.pa).symm
      have run : ∀ x : CacheWord, y.bad = false → Fits (s.unqueued core rest) p.agent.cl (lineOf p.pa) →
          (((y.st = .i ∨ y.st = .t ∨ y.st = .u) ∧ y.single = false ∧ x = CacheWord.absent.buffer p.agent (alignWord p.data (p.pa % 8)) (maskOf (p.pa % 8) p.n) none) ∨
            (y.st = .b ∧ y.tno = p.agent.tno ∧
              x = ({ y with single := false } : CacheWord).buffer p.agent (alignWord p.data (p.pa % 8)) (maskOf (p.pa % 8) p.n) none) ∨
            (y.st = .o ∧ y.single = false ∧ x = { y with data := mergeWord y.data (alignWord p.data (p.pa % 8)) (maskOf (p.pa % 8) p.n) })) →
          ends (fun t => t.mem = s.mem ∧ t.clWord cl q = x) := by
        intro x hbad hfits hx
        obtain ⟨t, h1, h2, h3⟩ := clWrite_sis (a := p.agent) rfl hyy hbad hfits hx
        rw [← hpol] at h1
        obtain ⟨g1, g2, g3, g4⟩ := storePerform_leaves hq hrel hd hb htp h1 h2
        exact ⟨t, g1, g2, g3, g4, (clWord_wordOf t cl p.pa).trans h3⟩
      have hbits : ∀ (old : Word) (mask : BitVec 8) (x : CacheWord), x.st = .b → x.tno = p.tno → x.bad = false →
          x.data = mergeWord old (alignWord p.data (p.pa % 8)) (maskOf (p.pa % 8) p.n) → x.mask = mask ||| maskOf (p.pa % 8) p.n →
          ends (fun t => t.mem = s.mem ∧ t.clWord cl q = x) → ends (buffers old mask) := by
        rintro old mask x h1 h2 h3 h4 h5 ⟨t, g1, g2, g3, g4, g5⟩
        refine ⟨t, g1, g2, g3, g4, ?_, ?_, ?_, ?_, fun k hk => ?_⟩ <;> rw [g5]
        · exact h1
        · exact h2
        · rw [h4]
          exact stored_mergeWord _ _ hn
        · exact h3
        · rw [h5, BitVec.getLsbD_or, maskOf_getLsbD hn, Bool.decide_and]
      refine ⟨fun hy hl => ?_, fun hst hbad htno => ?_, fun hst hbad hsingle => ?_⟩
      · obtain ⟨hst, hbad, hsingle⟩ := hy
        exact hbits 0 0 _ rfl rfl rfl rfl rfl (run _ hbad (.inr hl) (.inl ⟨hst, hsingle, rfl⟩))
      · refine hbits y.data y.mask _ rfl rfl ?_ rfl rfl (run _ hbad (fits_of_held (by rw [hyy, hst]; decide)) (.inr (.inl ⟨hst, htno, rfl⟩)))
        show (y.bad && _) = false
        rw [hbad, Bool.false_and]
      · exact ⟨_, stored_mergeWord _ _ hn, run _ hbad (fits_of_held (by rw [hyy, hst]; decide)) (.inr (.inr ⟨hst, hsingle, rfl⟩))⟩

end Sys2Proof.Machine
end

section
/-! PROOFS. Entries of a table out of the order of their keys, in a directory: a change of one that stands behind a greater key leaves two,
and a set that Calm takes for roomy can fill up (O26). -/

namespace Sys2Proof.Machine

/-- The entry of the line 0x8000 at a proxy home of a package, with one cluster a sharer. -/
def proxyAt (sock sharer stamp : Nat) : Nat × DirEntry := (proxyKey sock 0x8000, { DirEntry.absent with sharers := [sharer], stamp := stamp })

/-- An X7 whose cluster holds a line of owned words, seven of them in error and of other owners than it, and one whose owner it is; the
proxies' entries of the line stand behind one of a greater key. -/
def crowded : State := { State.reset with
  ctxs := [(7, { Context.bootX7 with pc := 0x1000, g := [(2, 0x8000)] })]
  clusters := [(0, { Cluster.init with clc := [(0x8000, { CacheLine.absent with
    words := (List.range 8).map (fun w => (w, { CacheWord.absent with st := .o, bad := decide (w < 7) })) })] })]
  dir := [(0x8000, { DirEntry.absent with owners := (List.range 8).map (fun w => (w, if w < 7 then 64 + 8 * (w + 1) else 0)) })]
  proxies := proxyAt 800 1 1 :: (List.range 7).map (fun w => proxyAt (8 * (w + 1)) 1 1) ++ [proxyAt 0 0 0] }

/-- The state of a cached word after an answer. -/
def wordStateAfter (a : Answer) (cl pa : Nat) : WordState :=
  match a with
  | .next t => (t.clWord cl pa).st
  | _ => .i

theorem wordStateAfter_next (t : State) (cl pa : Nat) : wordStateAfter (.next t) cl pa = (t.clWord cl pa).st := rfl

/-- Refutes O26: a `cwb` loses seven words in error, each of which leaves a second entry at its owner's proxy; the write-back of the
eighth then finds the line's set full, and the entry that is evicted for it invalidates the copy that the write-back keeps. -/
theorem not_cacheInstructions : ¬ Obligations.CacheInstructions := by
  intro h
  obtain ⟨hmaint, -⟩ := h crowded 2 .own 0 0 ⟨rfl, unwatched_of_unset rfl, rfl⟩
  have hcalm : Calm crowded 0 0x8000 := ⟨rfl, rfl, rfl, rfl, rfl, by decide +kernel, by decide +kernel, by decide, by decide, rfl⟩
  obtain ⟨-, -, -, hback, -⟩ := hmaint 0x8000 ⟨rfl, fun e _ => rfl⟩ ⟨by decide +kernel, rfl, by decide⟩ rfl
  obtain ⟨-, t, ht, -, -, -, hkept⟩ := hback hcalm (by decide +kernel)
  obtain ⟨hkept, -⟩ := hkept 7 (by decide) (by decide +kernel) (by decide +kernel) (by decide +kernel)
  have hrun : wordStateAfter (exec (.cwb 2 0) crowded) 0 (lineOf 0x8000 + 8 * 7) = .i := by decide +kernel
  rw [ht, wordStateAfter_next] at hrun
  have hkept : (t.clWord 0 (lineOf 0x8000 + 8 * 7)).st = .t := hkept
  rw [hrun] at hkept
  exact absurd hkept (by decide)

end Sys2Proof.Machine
end

section
/-! PROOFS. Counter instructions (O39): device counters by their selectors, receipt counters in memory, accounts, and waits. -/

namespace Sys2Proof.Machine

variable {s t u : State} {pa cl : Nat} {r : Req} {a : Agent}

/-! Device counters. -/

/-- The instruction stands where it stood, and no access is noted. -/
def AsNoted (s t : State) : Prop := SameSpot s t ∧ t.accs = s.accs

theorem AsNoted.refl (s : State) : AsNoted s s := ⟨.refl s, rfl⟩

theorem AsNoted.trans (h : AsNoted s t) (g : AsNoted t u) : AsNoted s u := ⟨h.1.trans g.1, g.2.trans h.2⟩

theorem quiet_asNoted (s : State) : Quiet (AsNoted s) where
  records := fun _ _ _ _ _ h => ⟨⟨h.1.cur, h.1.pc, h.1.bp, h.1.wpa, h.1.wpb⟩, h.2⟩

theorem asNoted_modCtx (s : State) (c : Nat) {f : Context → Context} (h : ∀ x, (f x).pc = x.pc) : AsNoted s (s.modCtx c f) := by
  refine ⟨⟨rfl, ?_, rfl, rfl, rfl⟩, rfl⟩
  by_cases e : s.cur = c
  · rw [e, ctx_modCtx_same, h]
  · rw [ctx_modCtx, if_neg e]

theorem asNoted_settle (s : State) (core : Nat) : AsNoted s (s.settle core) := by
  have ctr : ∀ (f : Nat → State → State), (∀ j u, AsNoted u (f j u)) → ∀ l : List Nat, ∀ u, AsNoted u (l.foldl (fun u j => f j u) u) :=
    fun f hf l u => foldl_keeps (p := AsNoted u) (fun v j h => h.trans (hf j v)) l (.refl u)
  unfold State.settle State.settleAs
  dsimp only
  split
  · exact .refl s
  · refine AsNoted.trans ?_ ⟨sameSpot_modCore _ core (fun _ => rfl) (fun _ => rfl) fun _ => rfl, rfl⟩
    refine AsNoted.trans (keep_addCtr (quiet_asNoted s) ?_) (ctr _ (fun j u => ?_) _ _)
    · exact ctr _ (fun j u => keep_addCtr (quiet_asNoted u) (.refl u)) _ s
    · split
      · exact asNoted_modCtx u _ fun x => by unfold Context.spend; split <;> rfl
      · exact .refl u

theorem asNoted_selSettle (s : State) (x : Word) : AsNoted s (s.selSettle x) := by
  unfold State.selSettle
  split
  · exact asNoted_settle s _
  · exact .refl s

theorem asNoted_selWrite (s : State) (x v : Word) : AsNoted s (s.selWrite x v) := keep_selWrite (quiet_asNoted s) (.refl s)

theorem asNoted_writeG (s : State) (d : Reg) (v : Word) : AsNoted s (s.writeG d v) := ⟨sameSpot_writeG s d v, rfl⟩

theorem checkSelector_ok {x : Word} {set : Bool} (h1 : s.inX7 = true ∨ selSupv x set = false)
    (h2 : selIndexOk x = true ∧ selRsv x = 0 ∧ s.selUnitOk x = true) : checkSelector x set s = .ok () s := by
  obtain ⟨hi, hr, hu⟩ := h2
  have h1' : (!s.inX7 && selSupv x set) = false := by rcases h1 with h | h <;> simp [h]
  unfold checkSelector
  rw [get_bind, h1', hi, hr, hu]
  rfl

/-- An instruction that ends where it began, with no access noted, retires. -/
theorem asNoted_retires (hf : Free s) {m : Act Unit} (hm : m s = .ok () t) (h : AsNoted s t) : runAct s 4 m = .next (t.retireTo (s.pc + 4)) := by
  have hr := runAct_retires hf 4 hm h.1
  rwa [accs_nil (h.2.trans hf.2.2)] at hr

theorem ctrrd_device {r b : Reg} {im : BitVec 14} (hf : Free s) (hd : isDeviceSel (s.readG b + uimm im) = true)
    (hx : s.inX7 = true ∨ selSupv (s.readG b + uimm im) false = false)
    (hc : selIndexOk (s.readG b + uimm im) = true ∧ selRsv (s.readG b + uimm im) = 0 ∧ s.selUnitOk (s.readG b + uimm im) = true) :
    exec (.ctrrd r b im) s = .next (((s.selSettle (s.readG b + uimm im)).writeG r
      ((s.selSettle (s.readG b + uimm im)).selRead (s.readG b + uimm im))).retireTo (s.pc + 4)) := by
  refine asNoted_retires hf ?_ ((asNoted_selSettle s _).trans (asNoted_writeG _ r _))
  show (if isDeviceSel (s.readG b + uimm im) = true then _ else _ : Act Unit) s = _
  rw [if_pos hd, bind_ok (checkSelector_ok hx hc)]
  rfl

theorem ctrset_device {r b : Reg} {im : BitVec 14} (hf : Free s) (hd : isDeviceSel (s.readG b + uimm im) = true) (hx : s.inX7 = true)
    (hc : selIndexOk (s.readG b + uimm im) = true ∧ selRsv (s.readG b + uimm im) = 0 ∧ s.selUnitOk (s.readG b + uimm im) = true) :
    exec (.ctrset r b im) s = .next (((s.selSettle (s.readG b + uimm im)).selWrite (s.readG b + uimm im) (s.readG r)).retireTo (s.pc + 4)) := by
  have h := (asNoted_selSettle s (s.readG b + uimm im)).trans (asNoted_selWrite _ (s.readG b + uimm im) (s.readG r))
  refine asNoted_retires hf ?_ h
  show (if isDeviceSel (s.readG b + uimm im) = true then _ else _ : Act Unit) s = _
  rw [if_pos hd, bind_ok (checkSelector_ok (.inl hx) hc)]
  exact guarded_ok rfl (h.1.free hf _)

/-- A selector with EXPL clear of a context's counters names those of the context in turn (R331). -/
theorem selPlace_own {i : Nat} (hi : i < 8) : s.selPlace (BitVec.ofNat 64 (2 ^ 63 + i)) = some (s.cur % 4096, i) ∧ selGroup (BitVec.ofNat 64 (2 ^ 63 + i)) = 0 := by
  have h : ∀ j < 8, selExpl (BitVec.ofNat 64 (2 ^ 63 + j)) = false ∧ selGroup (BitVec.ofNat 64 (2 ^ 63 + j)) = 0 ∧ selIndex (BitVec.ofNat 64 (2 ^ 63 + j)) = j := by
    decide
  obtain ⟨h1, h2, h3⟩ := h i hi
  refine ⟨?_, h2⟩
  unfold State.selPlace
  rw [h1, h2, h3]
  rfl

theorem selRead_own {i : Nat} (hi : i < 8) : s.selRead (BitVec.ofNat 64 (2 ^ 63 + i)) = s.ctr s.mySock 0 (s.cur % 4096) i := by
  obtain ⟨h1, h2⟩ := selPlace_own (s := s) hi
  unfold State.selRead
  rw [h1, h2]
  rfl

theorem selWrite_own {i : Nat} (hi : i < 8) (x : Word) : s.selWrite (BitVec.ofNat 64 (2 ^ 63 + i)) x = s.setCtr s.mySock 0 (s.cur % 4096) i x := by
  obtain ⟨h1, h2⟩ := selPlace_own (s := s) hi
  unfold State.selWrite
  rw [h1, h2]
  rfl

/-! Receipt counters. -/

theorem subWord_whole (v : Word) : BitVec.ofNat 64 (subWord v 0 8) = v := by
  rw [subWord_eq]
  simp

theorem ctrrd_memory {r b : Reg} {im : BitVec 14} {v : Word} (hf : Free s) (hs : Settled s) (hd : isDeviceSel (s.readG b + uimm im) = false)
    (ha : (s.readG b + uimm im).toNat % 8 = 0) (hm : Maps s (s.readG b + uimm im) .read none pa) (hv : isDevice pa = false)
    (ho : Owned s pa v) : exec (.ctrrd r b im) s = .next (s.wrote r v) := by
  have hp : pa % 8 = 0 := by have := maps_mod hm; omega
  refine asNoted_retires hf ?_ (asNoted_writeG s r v)
  show (if isDeviceSel (s.readG b + uimm im) = true then _ else _ : Act Unit) s = _
  rw [hd, if_neg (by decide), bind_ok (aligned_ok ha _ _), bind_ok (xlate_maps hm), bind_ok (notDevice_ok hv _ _), modify_bind, waitOwn_settled hs]
  show (lift _ 0 0 (readBytes s.agent .wt pa 8 none) >>= _ : Act Unit) s = _
  rw [bind_ok (lift_ok (readBytes_owned ho s.agent rfl .wt 8 none) _ _ _), hp, subWord_whole]
  rfl

theorem sameOwners_putWord (s : State) (q : Nat) (x : Word) (mask : BitVec 8) : SameOwners s (s.putWord q x mask) := ⟨fun _ => rfl, fun _ _ => rfl⟩

/-- An atomic at the home of its word in H (R120). -/
theorem serve_operates (h : Served s cl pa) (hr : ForWord r cl pa) (ha : r.acq = none) (hl : r.rel = none) (hk : r.kind = .atH) :
    ∃ f t u, serve r s = .ok f u ∧ AtWord (wordOf pa) none s u ∧ Like s t ∧ u.mem = (t.homeOperates r (wordIx pa)).mem ∧
      lineWord f.1 0 = (operateWord r.op r.addr r.size (memWord s.mem (wordOf pa)) r.x r.cmp).1 ∧ SameOwners s u := by
  have hc := like_charged s r
  have hh := (h.like hc).atHome hr
  have hw := homeWord_atH hh hk
  rw [hr.addr, hc.mem] at hw
  have hat : AtWord (wordOf pa) none (s.charged r) ((s.charged r).homeOperates r (wordIx pa)) ∧
      SameOwners (s.charged r) ((s.charged r).homeOperates r (wordIx pa)) := by
    unfold State.homeOperates
    dsimp only
    rw [hr.addr]
    have hi := (onlyCopies_invalidateWord (s.charged r) (wordOf pa) none).owners
    split
    · exact ⟨(atWord_invalidateWord _ _ _).trans (atWord_putWord _ _ _ _ _ _), hi.trans (sameOwners_putWord _ _ _ _)⟩
    · exact ⟨atWord_invalidateWord _ _ _, hi⟩
  have hp : ∀ v : State, AtWord (wordOf pa) none v (v.stampPostmark r) ∧ (v.stampPostmark r).mem = v.mem ∧ SameOwners v (v.stampPostmark r) := fun v => by
    unfold State.stampPostmark
    rw [hl]
    dsimp only
    have := atWord_modDir v (wordOf pa) none (f := fun e => { e with pmk := none }) fun _ _ _ => rfl
    rw [lineOf_wordOf] at this
    rw [hr.line]
    exact ⟨this, rfl, sameOwners_modDir v (lineOf pa) fun _ => rfl⟩
  have hall := (hc.atWord (wordOf pa) none).trans hat.1
  have hown := hc.sameOwners.trans hat.2
  have hval : ∀ v : Word, lineWord (v.setWidth 512) 0 = v := fun v => by
    have := lineWord_shifted v (k := 0) (w := 0) (by decide) (by decide)
    simpa using this
  have hrun : ∃ f u, serve r s = .ok f u ∧ AtWord (wordOf pa) none s u ∧ u.mem = ((s.charged r).homeOperates r (wordIx pa)).mem ∧
      lineWord f.1 0 = (operateWord r.op r.addr r.size (memWord s.mem (wordOf pa)) r.x r.cmp).1 ∧ SameOwners s u := by
    rw [serve_charged h hr (.inl ha)]
    unfold serveWords
    rw [bind_ok (names_run hr hw)]
    simp only [hk]
    split
    · exact ⟨_, _, rfl, hall.trans (hp _).1, (hp _).2.1, hval _, hown.trans (hp _).2.2⟩
    · exact ⟨_, _, rfl, hall, rfl, hval _, hown⟩
  obtain ⟨f, u, h1, h2, h3, h4⟩ := hrun
  exact ⟨f, _, u, h1, h2, hc, h3, h4⟩

/-- Memory after an atomic at the home of its word. -/
def afterAtomic (m : List Host.Cell) (op : AmoOp) (pa n : Nat) (x cmp : Word) : List Host.Cell :=
  let p := operateWord op pa n (memWord m (wordOf pa)) x cmp
  if atomicWrites op n p.1 x cmp then memPutWord m (wordOf pa) p.2 else m

theorem homeOperates_mem (hr : ForWord r cl pa) (haddr : r.addr = pa) :
    (t.homeOperates r (wordIx pa)).mem = afterAtomic t.mem r.op pa r.size r.x r.cmp := by
  unfold State.homeOperates afterAtomic
  dsimp only
  rw [hr.addr, haddr]
  split
  · show memPutWord ((t.invalidateWord (wordOf pa) none).mem) (wordOf pa) (mergeWord _ _ 255#8) = _
    rw [mergeWord_full, (onlyCopies_invalidateWord _ _ _).mem]
  · exact (onlyCopies_invalidateWord _ _ _).mem

theorem setClWord_absent (s : State) (cl pa : Nat) {x : CacheWord} (h : x.st = .i) : s.setClWord cl pa x = s.dropClWord cl pa := by
  have ha : CacheWord.absent.st = .i := rfl
  simp only [State.dropClWord, State.setClWord, h, ha, if_true]

theorem atWord_drop (s : State) (cl pa : Nat) : AtWord (wordOf pa) none s (s.dropClWord cl pa) := by
  have h := atWord_dropClWord s (kept := none) (c := cl) (wordOf pa) (by simp)
  have e : s.dropClWord cl (wordOf pa) = s.dropClWord cl pa := by
    unfold State.dropClWord State.setClWord
    rw [lineOf_wordOf, wordIx_wordOf]
  rwa [e] at h

/-- Nothing stands in the place of an absent word but a mark of an error. -/
theorem scrub_absent (h : (s.clWord cl pa).st = .i) :
    AtWord (wordOf pa) none s (s.scrub cl pa) ∧ (s.scrub cl pa).mem = s.mem ∧ (Served s cl pa → Served (s.scrub cl pa) cl pa) ∧
      ((s.scrub cl pa).clWord cl pa).st = .i ∧ ((s.scrub cl pa).clWord cl pa).single = false := by
  have e : s.scrub cl pa = s.mend cl pa := by
    unfold State.scrub
    dsimp only
    rw [if_neg (by rw [h]; simp)]
  rw [e]
  unfold State.mend
  by_cases hs : (s.clWord cl pa).single = true
  · rw [if_pos hs, setClWord_absent s cl pa (x := { s.clWord cl pa with single := false }) h]
    have hw : ((s.dropClWord cl pa).countCluster cl 0).clWord cl pa = CacheWord.absent := clWord_setClWord_same s cl pa fun _ => rfl
    refine ⟨(atWord_drop s cl pa).trans ((keep_countCluster (quiet_like _) (Like.refl _)).atWord _ _), rfl, ?_, by rw [hw]; rfl, by rw [hw]; rfl⟩
    intro hv
    exact ⟨hv.flights, hv.slices, hv.error, hv.frames, hv.reaches, hv.owner⟩
  · rw [if_neg hs]
    exact ⟨.refl _ _ s, rfl, id, h, by simpa using hs⟩

theorem carry_absent (h : (s.clWord a.cl pa).st = .i) (hs : (s.clWord a.cl pa).single = false) : s.carry a pa = (s, true) := by
  have hw : s.clWord a.cl (wordOf pa) = s.clWord a.cl pa := clWord_wordOf s a.cl pa
  unfold State.carry
  dsimp only
  rw [mend_whole (by rw [hw]) hs, hw, h]

/-- A request that first carries home what its cluster holds of its word, and the reply to it. -/
theorem requestWith_carried {f : Vec × BitVec 8} {v : State} (hc : s.carry a pa = (v, true)) (h : serve r v = .ok f t) :
    ∃ u, requestWith a r (some pa) s = .ok (f, true) u ∧ Like t u := by
  refine ⟨_, ?_, (like_replyEnds t (portAt a.cl r.line)).trans (like_missEvent _ a r (s.anyOwned r) v.fresh)⟩
  unfold requestWith
  rw [get_bind]
  refine (bind_ok (a := true) (t := v) ?_).trans ?_
  · show (get >>= fun x => _ : Mem Bool) s = _
    rw [get_bind, hc]
    rfl
  · rw [get_bind, get_bind, h]
    rfl

/-- What an atomic at the home of its word leaves. -/
structure AtomicHome (s t : State) (cl pa : Nat) (m : List Host.Cell) : Prop extends AtWord (wordOf pa) none s t where
  mem : t.mem = m
  owner : t.ownerOf pa = none
  absent : t.clWord cl pa = CacheWord.absent

/-- An atomic under .wt, at the home of its word, once the cluster has carried there what it held of the word (R104, R120). -/
theorem clAtomic_home {op : AmoOp} {n : Nat} {x cmp : Word} {m : List Host.Cell} (ht : a.tcc = false) (hs : s.scrub a.cl pa = t)
    (hst : AtWord (wordOf pa) none s t) (hf : t.flights = [])
    (hc : ∀ u, Like t u → ∃ v, u.carry a pa = (v, true) ∧ Served v a.cl pa ∧ AtWord (wordOf pa) none u v ∧ v.mem = m) :
    ∃ u, clAtomic a .wt op pa n x cmp none none s = .ok (operateWord op pa n (memWord m (wordOf pa)) x cmp).1 u ∧
      AtomicHome s u a.cl pa (afterAtomic m op pa n x cmp) := by
  obtain ⟨t2, r2, l2⟩ := ready_ok (a := a) (pa := pa) (room := false) hf (fun e => by cases e) ht
  obtain ⟨v, c2, h2, w2, m2⟩ := hc t2 l2
  let r : Req := { Req.blank a .atH (lineOf pa) with
    words := oneWord pa, op := op, addr := pa, size := n, x := x, cmp := cmp, acq := none, rel := none }
  have hr : ForWord r a.cl pa := ⟨rfl, rfl, rfl⟩
  obtain ⟨f, t3, t4, r4, w4, l3, m4, v4, o4⟩ := serve_operates h2 hr rfl rfl rfl
  obtain ⟨t5, r5, l5⟩ := requestWith_carried (a := a) c2 r4
  rw [homeOperates_mem hr rfl, l3.mem, m2] at m4
  rw [m2] at v4
  have hd := atWord_drop t5 a.cl pa
  have hm := like_markRecheck (t5.dropClWord a.cl pa) a.cl (lineOf pa)
  refine ⟨(t5.dropClWord a.cl pa).markRecheck a.cl (lineOf pa), ?_,
    { (((((hst.trans (l2.atWord _ _)).trans w2).trans w4).trans (l5.atWord _ _)).trans hd).trans (hm.atWord _ _) with
      mem := hm.mem.trans (l5.mem.trans m4)
      owner := by
        rw [hm.ownerOf]
        show t5.ownerOf pa = none
        rw [l5.ownerOf, o4.ownerOf, h2.owner]
      absent := by
        rw [hm.clWord]
        exact clWord_setClWord_same _ _ _ fun _ => rfl }⟩
  unfold clAtomic
  dsimp only
  rw [modify_bind, hs, bind_ok r2, bind_ok r5, modify_bind, v4]
  rfl

theorem ofNat_toNat_mod (x : Word) : BitVec.ofNat 64 (x.toNat % 256 ^ 8) = x := by
  apply BitVec.eq_of_toNat_eq
  rw [BitVec.toNat_ofNat]
  have := x.isLt
  omega

theorem alignWord_zero (x : Word) : alignWord x 0 = x := BitVec.shiftLeft_zero _

theorem afterAtomic_swap (m : List Host.Cell) (hp : pa % 8 = 0) (x cmp : Word) : afterAtomic m .swap pa 8 x cmp = memPutWord m pa x := by
  have hpw : wordOf pa = pa := by unfold wordOf; omega
  have hw : ∀ old : Word, (operateWord .swap pa 8 old x cmp).2 = x := fun old => by
    unfold operateWord
    rw [hp]
    show mergeWord old (alignWord (BitVec.ofNat 64 (x.toNat % 256 ^ 8)) 0) (maskOf 0 8) = x
    rw [ofNat_toNat_mod, alignWord_zero, show maskOf 0 8 = 255#8 by decide, mergeWord_full]
  have hwr : ∀ o : Word, atomicWrites .swap 8 o x cmp = true := fun _ => rfl
  unfold afterAtomic
  dsimp only
  rw [if_pos (hwr _), hw, hpw]

theorem AtWord.beside {q : Nat} {kept : Option Nat} (h : AtWord q kept s t) {m : List Host.Cell} (hm : t.mem = m) :
    SameSpot s t ∧ t.me = s.me ∧ t.accs = s.accs ∧ t.mem = m := by
  have hx : ∀ c, t.ctx c = s.ctx c := fun c => by rw [State.ctx, State.ctx, h.ctxs]
  have hc : ∀ k, t.core k = s.core k := fun k => by rw [State.core, State.core, h.cores]
  exact ⟨⟨h.cur, by rw [hx], by rw [hc], by rw [hc], by rw [hc]⟩, h.me, h.accs, hm⟩

theorem backed_joined {here : Nat} (h : s.backed here pa = true) : s.joined here (sockOf pa) = true := by
  unfold State.backed at h
  simp only [Bool.and_eq_true, decide_eq_true_eq] at h
  obtain ⟨⟨-, h⟩, -⟩ := h
  exact h

theorem ctrset_memory {r b : Reg} {im : BitVec 14} (hf : Free s) (hs : Settled s) (hd : isDeviceSel (s.readG b + uimm im) = false)
    (ha : (s.readG b + uimm im).toNat % 8 = 0) (hm : Maps s (s.readG b + uimm im) .write none pa) (hv : isDevice pa = false)
    (hi : (s.clWord s.myCluster pa).st = .i) (hsv : Served s s.myCluster pa) (hw : Memory.wf s.mem = true) :
    ∃ t, exec (.ctrset r b im) s = .next t ∧ t.pc = pcOf (s.pc + 4) ∧ t.me.g = s.me.g ∧ memWord t.mem pa = s.readG r := by
  have hp : pa % 8 = 0 := by have := maps_mod hm; omega
  obtain ⟨w1, m1, v1, i1, s1⟩ := scrub_absent hi
  have h1 := v1 hsv
  obtain ⟨t, h1, h2⟩ := clAtomic_home (a := s.agent) (op := .swap) (n := 8) (x := s.readG r) (cmp := 0) rfl rfl w1 h1.flights fun u hu =>
    ⟨u, carry_absent (by rw [hu.clWord]; exact i1) (by rw [hu.clWord]; exact s1), h1.like hu, .refl _ _ u, hu.mem.trans m1⟩
  have h3 := h2.mem
  rw [afterAtomic_swap _ hp] at h3
  obtain ⟨hspot, hme, hacc, -⟩ := h2.toAtWord.beside h3
  have hrun : exec (.ctrset r b im) s = .next (t.retireTo (s.pc + 4)) := by
    refine asNoted_retires hf ?_ ⟨hspot, hacc⟩
    show (if isDeviceSel (s.readG b + uimm im) = true then _ else _ : Act Unit) s = _
    rw [hd, if_neg (by decide), bind_ok (aligned_ok ha _ _), bind_ok (xlate_maps hm), bind_ok (notDevice_ok hv _ _), modify_bind, waitOwn_settled hs,
      bind_ok (guarded_ok (lift_ok h1 _ _ _) (hspot.free hf _))]
    rfl
  refine ⟨_, hrun, ?_, ?_, ?_⟩
  · rw [State.pc, me_retireTo]
  · rw [me_retireTo, hme]
  · show memWord t.mem pa = _
    rw [h3, memWord_memPutWord hw]

/-! Accounts. -/

theorem erd_reads {r b : Reg} {im : BitVec 14} {x : Word} (hf : Free s) (hx : s.readG b + uimm im = x) (hlt : x.toNat < 2 ^ 20) {cl : Nat} {tno : BitVec 12}
    (hcl : cl = if x.getLsbD 0 then s.myCluster else 64 * s.mySock + (x.extractLsb' 2 6).toNat)
    (htno : tno = if x.getLsbD 1 then s.me.tno else x.extractLsb' 8 12) (hh : s.hasCluster cl = true) (hsup : s.inX7 = true ∨ tno = s.me.tno) :
    exec (.erd r b im) s = .next (s.wrote r (BitVec.ofInt 64 (s.account cl tno))) := by
  have h1 : (x.extractLsb' 2 6).toNat = x.toNat / 4 % 64 := by
    rw [BitVec.extractLsb'_toNat, Nat.shiftRight_eq_div_pow]
  have h2 : x.extractLsb' 8 12 = (x >>> 8).setWidth 12 := by
    apply BitVec.eq_of_toNat_eq
    rw [BitVec.extractLsb'_toNat, BitVec.toNat_setWidth, BitVec.toNat_ushiftRight]
  rw [h1] at hcl
  rw [h2] at htno
  show execErd r b im s = _
  unfold execErd
  dsimp only
  rw [hx, ← hcl, ← htno, if_neg]
  · exact commit_clear hf.1 _ 4
  · rw [hh]
    rintro (h | h | ⟨h, hne⟩)
    · exact h (Nat.div_eq_of_lt hlt)
    · cases h
    · rw [h] at hsup
      exact hne (hsup.resolve_left (by decide))

/-! Waits. -/

theorem cwaitRead_ok {va : Word} {v : Word} (hs : Settled s) (ha : va.toNat % 8 = 0) (hm : Maps s va .read none pa) (hv : isDevice pa = false)
    (ho : Owned s pa v) (sc : Scope) : cwaitRead va sc s = .ok (v, pa) s := by
  have hp : pa % 8 = 0 := by have := maps_mod hm; omega
  unfold cwaitRead
  rw [bind_ok (aligned_ok ha _ _), bind_ok (xlate_maps hm), bind_ok (notDevice_ok hv _ _), modify_bind, waitOwn_settled hs, get_bind,
    bind_ok (lift_ok (readBytes_owned ho s.agent rfl .own 8 (some sc)) _ _ _), hp, subWord_whole]
  rfl

theorem waits_markRecheck (s : State) (cl line n : Nat) : ((s.markRecheck cl line).cluster n).waits = (s.cluster n).waits := by
  unfold State.markRecheck
  split
  · rw [cluster_modCluster]
    split
    · next e => rw [e]
    · rfl
  · rfl

/-- A wait where the table has room stands last in it (R337). -/
theorem waits_addWait {c ctr : Nat} {target : Word} {sc : Scope} (h : (s.cluster (clusterOf c)).waits.length < 1024) :
    ((s.addWait c ctr target sc).cluster (clusterOf c)).waits =
      (s.cluster (clusterOf c)).waits ++ [{ ctr := ctr, target := target, scope := sc, who := .ctx c }] := by
  unfold State.addWait
  dsimp only
  rw [if_pos h, waits_markRecheck, cluster_modCluster_same]

theorem ctxs_markRecheck (s : State) (cl line : Nat) : (s.markRecheck cl line).ctxs = s.ctxs := (like_markRecheck s cl line).ctxs

theorem addWait_x7 {c ctr : Nat} {target : Word} {sc : Scope} (h : isX7 c = true) :
    (s.addWait c ctr target sc).ctxs = s.ctxs ∧ (s.addWait c ctr target sc).cur = s.cur := by
  unfold State.addWait
  dsimp only
  split
  · exact ⟨ctxs_markRecheck _ _ _, (like_markRecheck _ _ _).cur⟩
  · exact ⟨rfl, rfl⟩

theorem addWait_user {c ctr : Nat} {target : Word} {sc : Scope} (h : isX7 c = false) {d : Nat} (hd : isX7 d = false) :
    (s.addWait c ctr target sc).ctx d = s.ctx d ∧ (s.addWait c ctr target sc).cur = s.cur := by
  unfold State.addWait
  dsimp only
  split
  · refine ⟨?_, (like_markRecheck _ _ _).cur⟩
    rw [State.ctx, ctxs_markRecheck]
    rfl
  · rw [h, if_neg (by decide)]
    have h1 := apart_setTcb s (clusterOf c) (s.ctx c).tcb 0xC30 0
    have kept : ∀ (t : State) (f : Cluster → Cluster), Apart s t → (t.modCluster (clusterOf c) f).ctx d = s.ctx d ∧ (t.modCluster (clusterOf c) f).cur = s.cur :=
      fun t f ht => ⟨ht.user d hd, ht.cur⟩
    refine kept _ _ ?_
    split
    · exact apart_trans h1 (apart_setTcb ..)
    · exact h1

/-- What a user context that waits leaves before its wait stands in a table: its park, with the wait in its TCB (R337). -/
def State.parkedWait (s : State) (sc : Scope) (pa : Nat) (target : Word) : State :=
  ((s.setTcb s.myCluster s.me.tcb 0xC40 (BitVec.ofNat 64 (pa + sc.code))).setTcb s.myCluster s.me.tcb 0xC48 target).park s.cur .cwait 0

theorem cur_squash (s : State) (c : Nat) : (s.squash c).cur = s.cur := by
  unfold State.squash
  dsimp only
  repeat' split
  all_goals rfl

theorem waits_forget (s : State) (c n : Nat) : ((s.modCluster (clusterOf c) (fun x => x.forget c)).cluster n).waits = (s.cluster n).waits := by
  rw [cluster_modCluster]
  split
  · next e => rw [e]; rfl
  · rfl

theorem waits_squash (s : State) (c n : Nat) : ((s.squash c).cluster n).waits = (s.cluster n).waits := by
  unfold State.squash
  dsimp only
  repeat' split
  · exact waits_forget _ c n
  · rfl
  · exact waits_forget _ c n
  · rfl

theorem cur_park (s : State) (c : Nat) (r : Reason) (k : Nat) : (s.park c r k).cur = s.cur := (apart_park s c r k).cur.trans (cur_squash s c)

theorem waits_park (s : State) (c : Nat) (r : Reason) (k n : Nat) : ((s.park c r k).cluster n).waits = (s.cluster n).waits :=
  ((apart_park s c r k).cluster n).waits.trans (waits_squash s c n)

theorem apart_waitFields (s : State) (sc : Scope) (pa : Nat) (target : Word) : Apart s
    ((s.setTcb s.myCluster s.me.tcb 0xC40 (BitVec.ofNat 64 (pa + sc.code))).setTcb s.myCluster s.me.tcb 0xC48 target) :=
  apart_trans (apart_setTcb ..) (apart_setTcb ..)

theorem parkedWait_me (h : s.inX7 = false) (sc : Scope) (pa : Nat) (target : Word) : (s.parkedWait sc pa target).cur = s.cur ∧
    (s.parkedWait sc pa target).ctx s.cur = { s.me with life := .parked .cwait, stall := .none, attempt := 0, inwfm := false, held := none } := by
  have h1 := apart_waitFields s sc pa target
  unfold State.parkedWait
  refine ⟨(cur_park _ _ _ _).trans h1.cur, ?_⟩
  rw [ctx_park_user h, ctx_parkBase, if_pos rfl, h1.user _ h]
  rfl

theorem waits_parkedWait (s : State) (sc : Scope) (pa : Nat) (target : Word) (n : Nat) :
    ((s.parkedWait sc pa target).cluster n).waits = (s.cluster n).waits :=
  (waits_park _ _ _ _ _).trans ((apart_waitFields s sc pa target).cluster n).waits

theorem cwait_met {r b : Reg} {sc : Scope} {v : Word} (hf : Free s) (hr : cwaitRead (s.readG b) sc s = .ok (v, pa) s)
    (hle : (s.readG r).toNat ≤ v.toNat) : exec (.cwait r b sc) s = .next ((s.acquireAt s.myCluster sc).retireTo (s.pc + 4)) := by
  have hp : (s.acquireAt s.myCluster sc).pc = s.pc := by rw [State.pc, State.pc, acquireAt_me]
  show execCwait r b sc s = _
  unfold execCwait
  dsimp only
  rw [hr]
  dsimp only
  rw [if_pos hle, matchOf_nil hf.1]
  dsimp only
  rw [State.retire, hp]
  rfl

theorem cwait_unmet {r b : Reg} {sc : Scope} {v : Word} (hr : cwaitRead (s.readG b) sc s = .ok (v, pa) s) (hlt : v.toNat < (s.readG r).toNat) :
    exec (.cwait r b sc) s = .next (if s.inX7 then (s.modMe (fun y => { y with held := some { ctr := pa, target := s.readG r, scope := sc } })).addWait s.cur pa (s.readG r) sc
      else (s.parkedWait sc pa (s.readG r)).addWait s.cur pa (s.readG r) sc) := by
  show execCwait r b sc s = _
  unfold execCwait
  dsimp only
  rw [hr]
  dsimp only
  rw [if_neg (by omega)]
  split <;> rfl

theorem cwait_waits {r b : Reg} {sc : Scope} {v : Word} (hr : cwaitRead (s.readG b) sc s = .ok (v, pa) s) (hlt : v.toNat < (s.readG r).toNat) :
    ∃ t, exec (.cwait r b sc) s = .next t ∧
      t.me = (if s.inX7 then { s.me with held := some { ctr := pa, target := s.readG r, scope := sc } }
        else { s.me with life := .parked .cwait, stall := .none, attempt := 0, inwfm := false, held := none }) ∧
      ((s.cluster s.myCluster).waits.length < 1024 → (t.cluster s.myCluster).waits =
        (s.cluster s.myCluster).waits ++ [{ ctr := pa, target := s.readG r, scope := sc, who := .ctx s.cur }]) := by
  refine ⟨_, cwait_unmet hr hlt, ?_⟩
  cases hx : s.inX7 with
  | true =>
    simp only [if_true]
    let u := s.modMe (fun y => { y with held := some { ctr := pa, target := s.readG r, scope := sc } })
    obtain ⟨h1, h2⟩ := addWait_x7 (s := u) (ctr := pa) (target := s.readG r) (sc := sc) (c := s.cur) hx
    refine ⟨?_, fun hl => waits_addWait (s := u) hl⟩
    calc (u.addWait s.cur pa (s.readG r) sc).me = u.me := by rw [State.me, State.me, State.ctx, State.ctx, h1, h2]
      _ = _ := me_modMe s _
  | false =>
    simp only [Bool.false_eq_true, if_false]
    obtain ⟨h1, h2⟩ := parkedWait_me hx sc pa (s.readG r)
    obtain ⟨h3, h4⟩ := addWait_user (s := s.parkedWait sc pa (s.readG r)) (ctr := pa) (target := s.readG r) (sc := sc) (c := s.cur) hx (d := s.cur) hx
    refine ⟨?_, fun hl => ?_⟩
    · rw [State.me, h4, h1, h3, h2]
    · have hc := waits_parkedWait s sc pa (s.readG r) (clusterOf s.cur)
      have h := waits_addWait (s := s.parkedWait sc pa (s.readG r)) (c := s.cur) (ctr := pa) (target := s.readG r) (sc := sc) (by rw [hc]; exact hl)
      rw [hc] at h
      exact h

/-- Settles O39. -/
theorem countersAndWaits : Obligations.CountersAndWaits := by
  intro s r b im sc hf sel x settled checked
  refine ⟨fun hd hc hx => ctrrd_device hf hd hx hc, fun hd hc hx => ctrset_device hf hd hx hc, fun i hi he => ?_,
    fun pa v hd hs ha hm hv ho => ctrrd_memory hf hs hd ha hm hv ho, fun pa hd hs ha hm hv hi ho he hfl hslc hfot hw => ?_,
    fun cl tno hlt hcl htno hh hsup => erd_reads hf rfl hlt hcl htno hh hsup, fun pa v hs ha hm hv ho => ?_⟩
  · rw [he]
    exact ⟨selRead_own hi, selWrite_own hi x⟩
  · have hp : wordOf pa = pa := by
      have := maps_mod hm
      unfold wordOf
      omega
    exact ctrset_memory hf hs hd ha hm hv hi ⟨hfl, hslc, by rw [hp, he], hfot, backed_joined hm.1, ho⟩ hw
  · have hr := cwaitRead_ok hs ha hm hv ho sc
    exact ⟨fun h => cwait_met hf hr h, fun h => cwait_waits hr h⟩

end Sys2Proof.Machine
end

section
/-! PROOFS. Puts (O40): what a run of bytes in one page translates to, the bytes read from it, and the pieces of it that a put sends. -/

namespace Sys2Proof.Machine

variable {s t u : State} {va : Word} {n pa : Nat} {kind : AccessKind} {pol : Pol}

/-! Releases with nothing to wait for. -/

/-- No word of a cluster is buffered. -/
def Unbuffered (s : State) (cl : Nat) : Prop := ∀ pa, (s.clWord cl pa).st ≠ .b

theorem drainWord_unbuffered {a : Agent} (h : Unbuffered s a.cl) (q : Nat) (toU : Bool) (rel : Option Scope) (place : Nat) :
    s.drainWord a q toU rel place = s := by
  unfold State.drainWord
  rw [if_pos (h q)]

theorem releaseAt_unbuffered {a : Agent} (h : Unbuffered s a.cl) (sc : Scope) : s.releaseAt a sc = s := by
  have all : ∀ sc, s.drainAll a sc = s := fun sc => by
    unfold State.drainAll
    exact foldl_id _ _ _ fun q _ => drainWord_unbuffered h q _ _ _
  unfold State.releaseAt
  cases sc
  case pkg => exact all .pkg
  case sys => exact all .sys
  all_goals rfl

theorem drainPieces_unbuffered {a : Agent} (h : Unbuffered s a.cl) (ps : List Piece) (ctr : Option Nat) : s.drainPieces a ps ctr = s := by
  unfold State.drainPieces
  refine foldl_id _ _ _ fun p _ => ?_
  unfold State.drainRun
  exact foldl_id _ _ _ fun q _ => drainWord_unbuffered h _ _ _ _

theorem Drained.unbuffered (h : Drained s) : Unbuffered s s.myCluster := h.2

theorem releaseWait_drained (h : Drained s) (sc : Scope) : s.releaseWait s.cur sc = s := by
  unfold State.releaseWait
  rw [flushStores_settled h.1, drainThread_settled h.1]
  exact releaseAt_unbuffered h.unbuffered sc

/-! Runs in one page. -/

theorem pageStarts_one {fuel : Nat} (hn : 0 < n) (h : pa % 4096 + n ≤ 4096) : pageStarts (fuel + 1) pa n = [pa] := by
  unfold pageStarts
  rw [if_neg (by omega)]
  dsimp only
  rw [show n - min n (4096 - pa % 4096) = 0 by omega]
  cases fuel with
  | zero => rfl
  | succ k =>
    unfold pageStarts
    rw [if_pos rfl]

/-- A part of a run: its first address, what it translates to, and its length. -/
theorem xlateRun_one (hn : 0 < n) (h : Reaches1 s va n kind pol pa) : xlateRun va n kind pol s = .ok [(va, pa, n)] s := by
  obtain ⟨hp, hm, -⟩ := h
  unfold xlateRun
  dsimp only
  rw [pageStarts_one hn hp]
  rw [List.mapM_cons, List.mapM_nil]
  have hv : BitVec.ofNat 64 va.toNat = va := by simp
  have hl : min (va.toNat + n - va.toNat) (4096 - va.toNat % 4096) = n := by omega
  rw [hv, hl, bind_ok (a := (va, pa, n)) (t := s)]
  · rfl
  · rw [bind_ok (xlate_maps hm)]
    rfl

theorem runNotDevice_one (h : isDevice pa = false) (kind : AccessKind) (pol : Pol) : runNotDevice [(va, pa, n)] kind pol s = .ok () s := by
  unfold runNotDevice
  rw [List.find?_cons]
  simp only [h, List.find?_nil]
  rfl

theorem waitRun_one (h : Settled s) : waitRun [(va, pa, n)] s = .ok () s := by
  unfold waitRun
  rw [modify_ok, List.foldl_cons, List.foldl_nil, waitOwn_settled h]

/-! The bytes of a run. -/

theorem leBytes_map (x n : Nat) : leBytes x n = (List.range n).map (fun j => BitVec.ofNat 8 (x / 256 ^ j)) := by
  refine List.ext_getElem (by rw [leBytes_length]; simp) fun j h1 h2 => ?_
  rw [leBytes_getElem, List.getElem_map, List.getElem_range]

/-- A byte at an address, of the word that holds it. -/
def runByte (v : Nat → Word) (pa : Nat) : BitVec 8 := (v (pa / 8)).extractLsb' (8 * (pa % 8)) 8

theorem leBytes_subWord {v : Nat → Word} {k : Nat} (h : pa % 8 + k ≤ 8) :
    leBytes (BitVec.ofNat 64 (subWord (v (pa / 8)) (pa % 8) k)).toNat k = (List.range k).map (fun j => runByte v (pa + j)) := by
  rw [leBytes_map]
  refine List.map_congr_left fun j hj => ?_
  have hj := List.mem_range.1 hj
  have h1 : (pa + j) / 8 = pa / 8 := by omega
  have h2 : (pa + j) % 8 = pa % 8 + j := by omega
  have hlt : subWord (v (pa / 8)) (pa % 8) k < 2 ^ 64 := by
    unfold subWord
    refine (Nat.mod_lt _ (by positivity)).trans_le ?_
    calc 256 ^ k ≤ 256 ^ 8 := Nat.pow_le_pow_right (by decide) (by omega)
      _ = 2 ^ 64 := by norm_num
  rw [runByte, h1, h2, BitVec.toNat_ofNat, Nat.mod_eq_of_lt hlt]
  unfold subWord
  apply BitVec.eq_of_toNat_eq
  rw [BitVec.toNat_ofNat, BitVec.extractLsb'_toNat, Nat.shiftRight_eq_div_pow, show 256 ^ k = 256 ^ j * 256 ^ (k - j) by rw [← pow_add]; congr 1; omega,
    Nat.mod_mul_right_div_self, Nat.div_div_eq_div_mul, ← pow_add]
  have hk : 256 ∣ 256 ^ (k - j) := dvd_pow_self _ (by omega)
  rw [show (2 : Nat) ^ 8 = 256 by norm_num, Nat.mod_mod_of_dvd _ hk]
  congr 2
  rw [show (256 : Nat) = 2 ^ 8 by norm_num, ← pow_mul]

/-- The parts of a run that lie in one word each are read byte by byte. -/
theorem readParts_ok {v : Nat → Word} (pol : Pol) (f : Nat → Word) : ∀ (fuel pa n : Nat), n < fuel →
    (∀ j < n, Owned s (pa + j) (v ((pa + j) / 8))) →
    ∃ xs, (wordParts fuel pa n).mapM (fun q => do
      let s ← get
      let x ← lift (f q.1) (detailOf 0 pol.code false false false 0 0) 0 (readBytes s.agent pol q.1 q.2 none)
      pure (leBytes x.toNat q.2) : Nat × Nat → Act (List (BitVec 8))) s = .ok xs s ∧ xs.flatten = (List.range n).map (fun j => runByte v (pa + j))
  | 0, _, _, h, _ => absurd h (by omega)
  | fuel + 1, pa, n, h, ho => by
    unfold wordParts
    by_cases hn : n = 0
    · subst hn
      exact ⟨[], rfl, rfl⟩
    · rw [if_neg hn]
      dsimp only
      obtain ⟨xs, h1, h2⟩ := readParts_ok pol f fuel (pa + min n (8 - pa % 8)) (n - min n (8 - pa % 8)) (by omega) fun j hj => by
        have := ho (min n (8 - pa % 8) + j) (by omega)
        rwa [← Nat.add_assoc] at this
      have hr := readBytes_owned (ho 0 (by omega)) s.agent rfl pol (min n (8 - pa % 8)) none
      rw [Nat.add_zero] at hr
      refine ⟨leBytes (BitVec.ofNat 64 (subWord (v (pa / 8)) (pa % 8) (min n (8 - pa % 8)))).toNat (min n (8 - pa % 8)) :: xs, ?_, ?_⟩
      · rw [List.mapM_cons, bind_ok (t := s) (a := leBytes (BitVec.ofNat 64 (subWord (v (pa / 8)) (pa % 8) (min n (8 - pa % 8)))).toNat (min n (8 - pa % 8)))]
        · rw [bind_ok h1]
          rfl
        · rw [get_bind, bind_ok (lift_ok hr _ _ _)]
          rfl
      · rw [List.flatten_cons, h2, leBytes_subWord (by omega)]
        have e : List.range n = List.range (min n (8 - pa % 8)) ++ (List.range (n - min n (8 - pa % 8))).map (min n (8 - pa % 8) + ·) := by
          rw [← List.range_add]
          congr 1
          omega
        rw [e, List.map_append, List.map_map]
        refine congrArg _ (List.map_congr_left fun j _ => ?_)
        show runByte v _ = runByte v _
        rw [Nat.add_assoc]

theorem readSource_one {v : Nat → Word} (pol : Pol) (ho : ∀ j < n, Owned s (pa + j) (v ((pa + j) / 8))) :
    readSource [(va, pa, n)] pol s = .ok ((List.range n).map (fun j => runByte v (pa + j))) s := by
  obtain ⟨xs, h1, h2⟩ := readParts_ok pol (fun q => va + BitVec.ofNat 64 (q - pa)) (n + 1) pa n (by omega) ho
  unfold readSource
  rw [List.mapM_cons, List.mapM_nil]
  dsimp only
  have hx : (do
      let xs ← (wordParts (n + 1) pa n).mapM (fun q => do
        let s ← get
        let x ← lift (va + BitVec.ofNat 64 (q.1 - pa)) (detailOf 0 pol.code false false false 0 0) 0 (readBytes s.agent pol q.1 q.2 none)
        pure (leBytes x.toNat q.2))
      pure xs.flatten : Act (List (BitVec 8))) s = .ok xs.flatten s := by
    rw [bind_ok h1]
    rfl
  rw [bind_ok (a := [xs.flatten]) (t := s)]
  · show EStateM.Result.ok _ s = _
    rw [List.flatten_singleton, h2]
  · rw [bind_ok hx]
    rfl

/-! Pieces. -/

theorem piecesAre_nil (pa : Nat) : PiecesAre [] pa [] := ⟨rfl, fun _ h => by simp at h, fun k p h => by simp at h⟩

/-- A run cut where lines end. -/
theorem cutLines_pieces : ∀ (fuel pa : Nat) (bs : List (BitVec 8)), pa % 64 + bs.length ≤ 64 * fuel → PiecesAre (cutLines fuel pa bs) pa bs
  | 0, pa, bs, h => by
    have : bs = [] := List.length_eq_zero_iff.1 (by omega)
    subst this
    exact piecesAre_nil pa
  | fuel + 1, pa, bs, h => by
    unfold cutLines
    by_cases he : bs = []
    · subst he
      exact piecesAre_nil pa
    · have hne : bs.isEmpty = false := by simpa using he
      have hpos : 0 < bs.length := List.length_pos_iff.2 he
      rw [hne]
      dsimp only
      rw [if_neg (by decide)]
      obtain ⟨h1, h2, h3⟩ := cutLines_pieces fuel (pa + (64 - pa % 64)) (bs.drop (64 - pa % 64)) (by rw [List.length_drop]; omega)
      refine ⟨?_, ?_, ?_⟩
      · rw [List.map_cons, List.flatten_cons, h1, List.take_append_drop]
      · intro p hp
        rcases List.mem_cons.1 hp with rfl | hp
        · have hl : (bs.take (64 - pa % 64)).length = min (64 - pa % 64) bs.length := List.length_take
          refine ⟨List.ne_nil_of_length_pos (by rw [hl]; omega), ?_⟩
          show pa % 64 + (bs.take (64 - pa % 64)).length ≤ 64
          omega
        · exact h2 p hp
      · intro k p hk
        cases k with
        | zero =>
          rw [List.getElem?_cons_zero] at hk
          cases hk
          rfl
        | succ k =>
          rw [List.getElem?_cons_succ] at hk
          rw [h3 k p hk, List.take_succ_cons, List.map_cons, List.sum_cons]
          have hlong : 64 - pa % 64 ≤ bs.length := by
            by_contra hc
            have hd : bs.drop (64 - pa % 64) = [] := List.drop_eq_nil_of_le (by omega)
            rw [hd] at hk
            cases fuel with
            | zero => simp [cutLines] at hk
            | succ f => simp [cutLines] at hk
          show _ = pa + ((bs.take (64 - pa % 64)).length + _)
          rw [List.length_take]
          omega

theorem piecesOf_one {bs : List (BitVec 8)} (h : bs.length = n) : PiecesAre (piecesOf [(va, pa, n)] bs) pa bs := by
  have e : piecesOf [(va, pa, n)] bs = cutLines (n / 64 + 2) pa bs := by
    show cutLines (n / 64 + 2) pa (bs.take n) ++ [] = _
    rw [List.append_nil, List.take_of_length_le (by omega)]
  rw [e]
  exact cutLines_pieces _ _ _ (by omega)

/-! Counters. -/

theorem xlateCounter_ok {cva : Word} {cpa : Nat} (h : CounterAt s cva pol cpa) : xlateCounter cva pol s = .ok cpa s := by
  obtain ⟨-, h0, h1⟩ := h
  unfold xlateCounter
  by_cases hc : cva = 0
  · rw [if_pos hc, h0 hc]
    rfl
  · rw [if_neg hc, xlate_maps (h1 hc).1]

theorem counterNotDevice_ok {cva : Word} {cpa : Nat} (h : CounterAt s cva pol cpa) : counterNotDevice cva cpa pol s = .ok () s := by
  obtain ⟨-, -, h1⟩ := h
  unfold counterNotDevice
  by_cases hc : cva = 0
  · rw [if_pos hc]
    rfl
  · rw [if_neg hc, notDevice_ok (h1 hc).2]

/-! Entry. -/

/-- The state with an entry more in the put queue of the cluster in turn. -/
def State.withPut (s : State) (e : PutEntry) : State :=
  { s.modCluster s.myCluster (fun x => { x with putq := x.putq ++ [e] }) with seq := s.seq + 1 }

/-- A put's entry. -/
def State.putEntry (s : State) (kind : BitVec 4) (pol : Pol) (sc : Scope) (ctr : Option Nat) (n : Nat) (pieces : List Piece) : PutEntry :=
  { id := s.seq, origin := s.cur, tno := s.me.tno, pc := s.pc, pol := pol, scope := sc, kind := kind, ctr := ctr, pieces := pieces, pending := 0,
    size := (n + 63) / 64 * 64 }

theorem modCluster_congr (s : State) (k : Nat) {f g : Cluster → Cluster} (h : f (s.cluster k) = g (s.cluster k)) : s.modCluster k f = s.modCluster k g := by
  unfold State.modCluster
  rw [h]

theorem enterPut_ok (hf : Free s) (hd : Drained s) (hw : (s.cluster s.myCluster).putWait = []) (hq : (s.cluster s.myCluster).putq.length < 64)
    (hb : s.putBytes s.myCluster + (n + 63) / 64 * 64 ≤ 131072) (a : List Acc) (kind : BitVec 4) (sc : Scope) (ctr : Option Nat) (pieces : List Piece) :
    enterPut kind pol sc ctr n pieces (s.withAccs a) = .ok () ((s.withPut (s.putEntry kind pol sc ctr n pieces)).withAccs a) := by
  have hd' : Drained (s.withAccs a) := hd
  have hbytes : (s.withAccs a).putBytes s.myCluster = s.putBytes s.myCluster := rfl
  have hcond : (64 ≤ ((s.withAccs a).cluster s.myCluster).putq.length || 131072 < (s.withAccs a).putBytes s.myCluster + (n + 63) / 64 * 64 ||
      !isNext ((s.withAccs a).cluster s.myCluster).putWait s.cur) = false := by
    have h1 : ((s.withAccs a).cluster s.myCluster).putWait = [] := hw
    have h2 : ¬ 64 ≤ ((s.withAccs a).cluster s.myCluster).putq.length := Nat.not_le.2 hq
    rw [h1, hbytes, decide_eq_false h2, decide_eq_false (Nat.not_lt.2 hb)]
    rfl
  have hout : SameSpot s ((s.withPut (s.putEntry kind pol sc ctr n pieces)).withAccs a) := ⟨rfl, rfl, rfl, rfl, rfl⟩
  unfold enterPut
  rw [get_bind]
  dsimp only
  have hcl : (s.withAccs a).myCluster = s.myCluster := rfl
  have hcur : (s.withAccs a).cur = s.cur := rfl
  rw [hcl, hcur, hcond, if_neg (by decide)]
  refine guarded_ok ?_ (hout.free hf _)
  rw [modify_ok, releaseWait_drained hd', drainPieces_unbuffered (a := (s.withAccs a).agent) hd'.unbuffered]
  have hm := modCluster_congr (s.withAccs a) s.myCluster
    (f := fun c => { c with putq := c.putq ++ [(s.withAccs a).putEntry kind pol sc ctr n pieces], putWait := c.putWait.filter (· != (s.withAccs a).cur) })
    (g := fun c => { c with putq := c.putq ++ [s.putEntry kind pol sc ctr n pieces] }) (by
      have hw' : ((s.withAccs a).cluster s.myCluster).putWait = [] := hw
      have hfil : ((s.withAccs a).cluster s.myCluster).putWait.filter (· != (s.withAccs a).cur) = ((s.withAccs a).cluster s.myCluster).putWait := by
        rw [hw']
        rfl
      rw [hfil]
      rfl)
  show EStateM.Result.ok () ({ State.modCluster (s.withAccs a) s.myCluster
    (fun c => { c with putq := c.putq ++ [(s.withAccs a).putEntry kind pol sc ctr n pieces], putWait := c.putWait.filter (· != (s.withAccs a).cur) }) with
      seq := s.seq + 1 } : State) = _
  rw [hm]
  rfl

/-- What a put that enters its queue leaves. -/
theorem put_retires (hf : Free s) {kind : BitVec 4} {sc : Scope} {ctr : Option Nat} {pieces : List Piece} {a : List Acc} {m : Act Unit}
    (h : m s = .ok () ((s.withPut (s.putEntry kind pol sc ctr n pieces)).withAccs a)) :
    runAct s 8 m = .next ((s.withPut (s.putEntry kind pol sc ctr n pieces)).retireTo (s.pc + 8)) := by
  have hspot : SameSpot s ((s.withPut (s.putEntry kind pol sc ctr n pieces)).withAccs a) := ⟨rfl, rfl, rfl, rfl, rfl⟩
  have hr := runAct_retires hf 8 h hspot
  have hacc : ({ (s.withPut (s.putEntry kind pol sc ctr n pieces)).withAccs a with accs := [] } : State) = s.withPut (s.putEntry kind pol sc ctr n pieces) := by
    have h0 : (s.withPut (s.putEntry kind pol sc ctr n pieces)).accs = [] := hf.2.2
    exact accs_nil h0
  rwa [hacc] at hr

section
variable {d b l c : Reg} {sc : Scope} {dpa cpa spa : Nat} (hf : Free s) (hd : Drained s) (hc : CounterAt s (s.readG c) pol cpa)
  (hw : (s.cluster s.myCluster).putWait = []) (hq : (s.cluster s.myCluster).putq.length < 64)
include hf hd hc hw hq

theorem put_enters {v : Nat → Word} (hn : (s.readG l).toNat = n) (h0 : 0 < n) (hn4 : n ≤ 4096) (hs : Reaches1 s (s.readG b) n .read pol spa)
    (ht : Reaches1 s (s.readG d) n .write pol dpa) (ho : ∀ j < n, Owned s (spa + j) (v ((spa + j) / 8)))
    (hb : s.putBytes s.myCluster + (n + 63) / 64 * 64 ≤ 131072) : exec (.put d b l pol sc c) s =
      .next ((s.withPut (s.putEntry 1 pol sc (named (s.readG c) cpa) n
        (piecesOf [(s.readG d, dpa, n)] ((List.range n).map (fun j => runByte v (spa + j)))))).retireTo (s.pc + 8)) := by
  obtain ⟨hca, -⟩ := id hc
  refine put_retires hf (a := s.accs ++ [{ va := s.readG b, n := n, pol := some pol, rd := true, wr := false, lane := 0, device := false }] ++
    [{ va := s.readG d, n := n, pol := some pol, rd := false, wr := true, lane := 0, device := false }]) ?_
  generalize ha : s.accs ++ [{ va := s.readG b, n := n, pol := some pol, rd := true, wr := false, lane := 0, device := false }] ++
    [{ va := s.readG d, n := n, pol := some pol, rd := false, wr := true, lane := 0, device := false }] = a
  have hs' : Settled (s.withAccs a) := hd.1
  have ho' : ∀ j < n, Owned (s.withAccs a) (spa + j) (v ((spa + j) / 8)) := ho
  rw [hn, if_neg (by omega), show decide (4096 < n) = false from decide_eq_false (by omega)]
  refine (bind_ok (a := ()) (t := s) rfl).trans ?_
  rw [bind_ok (aligned_ok hca _ _), bind_ok (xlateRun_one h0 hs), bind_ok (xlateRun_one h0 ht), bind_ok (xlateCounter_ok hc),
    bind_ok (runNotDevice_one hs.2.2 _ _), bind_ok (runNotDevice_one ht.2.2 _ _), bind_ok (counterNotDevice_ok hc),
    bind_ok (note_ok s _ _ _ _ _ _ _), bind_ok (note_ok _ _ _ _ _ _ _ _)]
  have e : (s.noted { va := s.readG b, n := n, pol := some pol, rd := true, wr := false, lane := 0, device := false }).noted
      { va := s.readG d, n := n, pol := some pol, rd := false, wr := true, lane := 0, device := false } = s.withAccs a := by
    rw [← ha]
    rfl
  rw [e, bind_ok (waitRun_one hs'), bind_ok (waitRun_one hs'), bind_ok (readSource_one pol ho'), enterPut_ok hf hd hw hq hb]

theorem putV_enters (ht : Reaches1 s (s.readG d) 64 .write pol dpa) (hb : s.putBytes s.myCluster + 64 ≤ 131072) (b : BitVec 5) :
    exec (.putV d b pol sc c) s = .next ((s.withPut (s.putEntry 2 pol sc (named (s.readG c) cpa) 64
        (piecesOf [(s.readG d, dpa, 64)] (leBytes (s.readV b).toNat 64)))).retireTo (s.pc + 8)) := by
  obtain ⟨hca, -⟩ := id hc
  refine put_retires hf (a := s.accs ++ [{ va := s.readG d, n := 64, pol := some pol, rd := false, wr := true, lane := 0, device := false }]) ?_
  generalize ha : s.accs ++ [{ va := s.readG d, n := 64, pol := some pol, rd := false, wr := true, lane := 0, device := false }] = a
  have hs' : Settled (s.withAccs a) := hd.1
  rw [bind_ok (aligned_ok hca _ _), bind_ok (xlateRun_one (by decide) ht), bind_ok (xlateCounter_ok hc), bind_ok (runNotDevice_one ht.2.2 _ _),
    bind_ok (counterNotDevice_ok hc), bind_ok (note_ok s _ _ _ _ _ _ _)]
  have e : s.noted { va := s.readG d, n := 64, pol := some pol, rd := false, wr := true, lane := 0, device := false } = s.withAccs a := by
    rw [← ha]
    rfl
  rw [e, bind_ok (waitRun_one hs'), enterPut_ok hf hd hw hq hb]

end

theorem leBytes_vec (v : Vec) : leBytes v.toNat 64 = (List.range 64).map (fun j => laneAt 8 v j) := by
  rw [leBytes_map]
  refine List.map_congr_left fun j _ => ?_
  apply BitVec.eq_of_toNat_eq
  unfold laneAt
  rw [BitVec.toNat_ofNat, BitVec.extractLsb'_toNat, Nat.shiftRight_eq_div_pow, show (256 : Nat) = 2 ^ 8 by norm_num, ← pow_mul]

/-- Settles O40. -/
theorem putsEnterThePutQueue : Obligations.PutsEnterThePutQueue := by
  intro s d b l c pol sc dpa cpa hf enters
  refine ⟨fun h0 => ?_, fun h4 => ?_, fun hd hc => ⟨fun spa n v hn h0 hn4 hs ht ho => ?_, fun ht => ?_⟩⟩
  · refine (runAct_retires (t := s) hf 8 ?_ (.refl s)).trans (by rw [accs_nil hf.2.2]; rfl)
    rw [h0, if_pos (by rfl)]
    rfl
  · refine runAct_traps hf.2.2 8 ?_
    rw [if_neg (by omega), show decide (4096 < (s.readG l).toNat) = true from decide_eq_true h4]
    exact bind_error rfl
  · exact fun hw hq hb => ⟨_, piecesOf_one (by simp), put_enters hf hd hc hw hq hn h0 hn4 hs ht ho hb⟩
  · have hp : PiecesAre (piecesOf [(s.readG d, dpa, 64)] (leBytes (s.readV b).toNat 64)) dpa ((List.range 64).map (fun j => laneAt 8 (s.readV b) j)) := by
      rw [← leBytes_vec]
      exact piecesOf_one (leBytes_length _ _)
    exact fun hw hq hb => ⟨_, hp, putV_enters hf hd hc hw hq ht hb b⟩

end Sys2Proof.Machine
end

section
/-! PROOFS. Copies (O41): a record written as owned words, its entry in the copy queue, and a record queued again. -/

namespace Sys2Proof.Machine

variable {s t u : State} {pa cl : Nat}

/-! Stores that wait. -/

/-- The state with other stores waiting in a core. -/
def State.withStores (s : State) (core : Nat) (l : List PendingStore) : State := s.modCore core (fun k => { k with sbuf := l })

theorem withStores_withStores (s : State) (core : Nat) (l m : List PendingStore) : (s.withStores core l).withStores core m = s.withStores core m := by
  show ({ s with cores := tset (tset s.cores core _) core ({ State.core (s.withStores core l) core with sbuf := m }) } : State) = _
  have hc : (s.withStores core l).core core = { s.core core with sbuf := l } := core_modCore_same s core _
  rw [hc, tset_tset_same]
  rfl

theorem sbuf_withStores (s : State) (core : Nat) (l : List PendingStore) : ((s.withStores core l).core core).sbuf = l :=
  congrArg Core.sbuf (core_modCore_same s core _)

theorem modCore_congr (s : State) (k : Nat) {f g : Core → Core} (h : f (s.core k) = g (s.core k)) : s.modCore k f = s.modCore k g := by
  unfold State.modCore
  rw [h]

/-- Whole words that retire as .own stores of the thread, from an address. -/
def State.recordStores (s : State) (rpa : Nat) : List Word → List PendingStore
  | [] => []
  | x :: xs => s.pendingStore rpa 8 x .own (s.relOf .plain .ctx) :: s.recordStores (rpa + 8) xs

theorem storeWords_from (s : State) (xs : List Word) : ∀ (rpa : Nat) (l : List PendingStore),
    (xs.foldl (fun (p : State × Nat) x => (p.1.queuePending p.2 8 x .own (p.1.relOf .plain .ctx), p.2 + 8)) (s.withStores s.myCore l, rpa)).1 =
      s.withStores s.myCore (l ++ s.recordStores rpa xs) := by
  induction xs with
  | nil =>
    intro rpa l
    rw [State.recordStores, List.append_nil]
    rfl
  | cons x xs ih =>
    intro rpa l
    rw [List.foldl_cons]
    have hstep : (s.withStores s.myCore l).queuePending rpa 8 x .own ((s.withStores s.myCore l).relOf .plain .ctx) =
        s.withStores s.myCore (l ++ [s.pendingStore rpa 8 x .own (s.relOf .plain .ctx)]) := by
      rw [queuePending_eq]
      refine Eq.trans ?_ (withStores_withStores s s.myCore l _)
      refine modCore_congr _ _ ?_
      show { State.core (s.withStores s.myCore l) s.myCore with
        sbuf := (State.core (s.withStores s.myCore l) s.myCore).sbuf ++ [s.pendingStore rpa 8 x .own (s.relOf .plain .ctx)] } = _
      rw [sbuf_withStores]
      rfl
    rw [hstep, ih, List.append_assoc]
    rfl

/-- Words stored stand in order at the end of their core's store buffer. -/
theorem storeWords_eq (s : State) (rpa : Nat) (x : Word) (xs : List Word) :
    s.storeWords rpa (x :: xs) = s.withStores s.myCore ((s.core s.myCore).sbuf ++ s.recordStores rpa (x :: xs)) := by
  unfold State.storeWords
  rw [List.foldl_cons]
  have hstep : s.queuePending rpa 8 x .own (s.relOf .plain .ctx) = s.withStores s.myCore ((s.core s.myCore).sbuf ++ [s.pendingStore rpa 8 x .own (s.relOf .plain .ctx)]) := rfl
  rw [hstep, storeWords_from, List.append_assoc]
  rfl

theorem recordStores_eq (s : State) (xs : List Word) : ∀ rpa, s.recordStores rpa xs =
    (List.range xs.length).map (fun k => s.pendingStore (rpa + 8 * k) 8 (xs.getD k 0) .own (s.relOf .plain .ctx)) := by
  induction xs with
  | nil => intro rpa; rfl
  | cons x xs ih =>
    intro rpa
    rw [State.recordStores, ih, List.length_cons, List.range_succ_eq_map, List.map_cons, List.map_map]
    refine congrArg₂ _ rfl (List.map_congr_left fun k _ => ?_)
    show s.pendingStore (rpa + 8 + 8 * k) 8 (xs.getD k 0) .own _ = s.pendingStore (rpa + 8 * (k + 1)) 8 _ .own _
    rw [List.getD_cons_succ]
    congr 1
    omega

/-! Stores performed on owned words. -/

/-- An owned word written whole. -/
def State.overwrite (s : State) (cl pa : Nat) (x : Word) : State :=
  (s.setClWord cl pa { CacheWord.absent with st := .o, data := x }).markRecheck cl (lineOf pa)

/-- A word stands owned in a cluster, without an error. -/
def Holding (s : State) (cl pa : Nat) : Prop := (s.clWord cl pa).st = .o ∧ (s.clWord cl pa).bad = false ∧ (s.clWord cl pa).single = false

theorem clWord_overwrite (s : State) (cl pa : Nat) (x : Word) (c q : Nat) :
    (s.overwrite cl pa x).clWord c q = if c = cl ∧ wordOf q = wordOf pa then { CacheWord.absent with st := .o, data := x } else s.clWord c q :=
  (clWord_markRecheck ..).trans (clWord_setClWord _ _ _ _ _ _ fun e => by cases e)

theorem holding_overwrite {q : Nat} (h : Holding s cl q) (x : Word) : Holding (s.overwrite cl pa x) cl q := by
  unfold Holding
  rw [clWord_overwrite]
  split
  · exact ⟨rfl, rfl, rfl⟩
  · exact h

theorem unbuffered_overwrite {c : Nat} (h : Unbuffered s c) (x : Word) : Unbuffered (s.overwrite cl pa x) c := fun q => by
  rw [clWord_overwrite]
  split
  · simp
  · exact h q

/-- All but the caches, and what waits for their words, stays in an overwrite. -/
structure CachesOnly (s t : State) : Prop where
  like : ∀ c, ∃ l w, t.cluster c = { s.cluster c with clc := l, recheck := w }
  same : ∃ k, t = { s with clusters := k }

theorem cachesOnly_modCluster (s : State) (cl : Nat) {f : Cluster → Cluster} (h : ∀ c, ∃ l w, f c = { c with clc := l, recheck := w }) :
    CachesOnly s (s.modCluster cl f) where
  like := fun c => by
    rw [cluster_modCluster]
    split
    · next e => rw [e]; exact h _
    · exact ⟨_, _, rfl⟩
  same := ⟨_, rfl⟩

theorem CachesOnly.trans (h : CachesOnly s t) (g : CachesOnly t u) : CachesOnly s u where
  like := fun c => by
    obtain ⟨l, w, e⟩ := h.like c
    obtain ⟨l', w', e'⟩ := g.like c
    exact ⟨l', w', by rw [e', e]⟩
  same := by
    obtain ⟨k, rfl⟩ := h.same
    obtain ⟨k', rfl⟩ := g.same
    exact ⟨k', rfl⟩

theorem CachesOnly.refl (s : State) : CachesOnly s s := ⟨fun _ => ⟨_, _, rfl⟩, _, rfl⟩

theorem cachesOnly_overwrite (s : State) (cl pa : Nat) (x : Word) : CachesOnly s (s.overwrite cl pa x) := by
  have hset : CachesOnly s (s.setClWord cl pa { CacheWord.absent with st := .o, data := x }) := cachesOnly_modCluster s cl fun c => ⟨_, _, rfl⟩
  refine hset.trans ?_
  unfold State.overwrite State.markRecheck
  split
  · exact cachesOnly_modCluster _ cl fun c => ⟨_, _, rfl⟩
  · exact .refl _

theorem overwrite_withStores (s : State) (cl pa : Nat) (x : Word) (core : Nat) (l : List PendingStore) :
    (s.withStores core l).overwrite cl pa x = (s.overwrite cl pa x).withStores core l := by
  unfold State.overwrite State.markRecheck
  show (if _ then _ else _ : State) = State.withStores (if _ then _ else _) core l
  split
  · next h => rw [if_pos (by exact h)]; rfl
  · next h => rw [if_neg (by exact h)]; rfl

theorem clWrite_holding {a : Agent} (h : Holding s a.cl pa) (x : Word) (rel : Option Scope) : clWrite a .own pa x 255#8 rel s = .ok () (s.overwrite a.cl pa x) := by
  obtain ⟨ho, hb, hs⟩ := h
  have hw : obtainWhole a pa s = .ok () s := by
    unfold obtainWhole
    rw [obtain_whole_word a rfl ho hb hs]
  unfold clWrite
  rw [modify_bind, scrub_sound hb hs, get_bind]
  dsimp only
  rw [if_pos rfl, bind_ok hw, modify_bind, makeRoom_word a (by rw [ho]; decide)]
  rfl

/-- No tile store waits in an engine of a cluster. -/
def Unstored (s : State) (cl : Nat) : Prop := ∀ e ∈ s.enginesOf cl, (s.engine e).storeq = []

theorem drainThread_unstored (h : Unstored s cl) (tcb : Nat) : s.drainThread cl tcb = s := by
  unfold State.drainThread
  refine foldl_id _ _ _ fun e he => ?_
  simp [h e he]

theorem tilePending_unstored (h : Unstored s cl) (tcb q n : Nat) : s.tilePending cl tcb q n = false := by
  unfold State.tilePending
  rw [List.any_eq_false]
  intro e he
  rw [h e he]
  simp

theorem CachesOnly.unstored {c : Nat} (h : CachesOnly s t) (hu : Unstored s c) : Unstored t c := by
  obtain ⟨k, rfl⟩ := h.same
  exact hu

/-- A cluster with nothing that waits for its memory system. -/
structure Quiescent (s : State) (cl : Nat) : Prop where
  words : Unbuffered s cl
  tiles : Unstored s cl

theorem Quiescent.overwrite (h : Quiescent s cl) (q : Nat) (x : Word) : Quiescent (s.overwrite cl q x) cl :=
  ⟨unbuffered_overwrite h.words x, (cachesOnly_overwrite s cl q x).unstored h.tiles⟩

/-- A plain or releasing store of a whole word under .own that its cluster performs by itself. -/
structure InPlace (s : State) (cl : Nat) (p : PendingStore) : Prop where
  home : p.agent.cl = cl
  pol : p.pol = .own
  n : p.n = 8
  pa : p.pa % 8 = 0
  device : isDevice p.pa = false
  backed : s.backed (cl / 64) p.pa = true
  word : Holding s cl p.pa

theorem InPlace.overwrite {p : PendingStore} (h : InPlace s cl p) (q : Nat) (x : Word) : InPlace (s.overwrite cl q x) cl p := by
  obtain ⟨k, hk⟩ := (cachesOnly_overwrite s cl q x).same
  refine ⟨h.home, h.pol, h.n, h.pa, h.device, ?_, holding_overwrite h.word x⟩
  rw [hk]
  exact h.backed

theorem performOldest_inPlace {p : PendingStore} {l : List PendingStore} {core : Nat} (hq : Quiescent s cl) (h : InPlace s cl p) :
    (s.withStores core (p :: l)).performOldest core = (s.overwrite cl p.pa p.data).withStores core l := by
  obtain ⟨hcl, hpol, hn, hpa, hdev, hback, hword⟩ := h
  have hu : Unbuffered (s.withStores core l) p.agent.cl := by rw [hcl]; exact hq.words
  have ht : Unstored (s.withStores core l) p.agent.cl := by rw [hcl]; exact hq.tiles
  have hb : (s.withStores core l).backed (p.agent.cl / 64) p.pa = true := by rw [hcl]; exact hback
  have hw : Holding (s.withStores core l) p.agent.cl p.pa := by rw [hcl]; exact hword
  have hrel : (s.withStores core l).releaseFirst p = s.withStores core l := by
    unfold State.releaseFirst
    cases p.rel with
    | none => rfl
    | some sc =>
      dsimp only
      rw [drainThread_unstored ht, releaseAt_unbuffered hu]
  have htile : (s.withStores core l).tilesFirst p = s.withStores core l := by
    unfold State.tilesFirst
    rw [tilePending_unstored ht, if_neg (by decide)]
  unfold State.performOldest
  rw [sbuf_withStores]
  show ((s.withStores core (p :: l)).withStores core l).performStore p = _
  rw [withStores_withStores, performStore_eq, hrel, htile]
  unfold State.landStore State.writeLate
  rw [hdev, if_neg (by decide), hb, if_neg (by decide), writeBytes, hpol, hn, hpa, alignWord_zero, show maskOf 0 8 = 255#8 by decide,
    clWrite_holding hw, hcl]
  exact overwrite_withStores s cl p.pa p.data core l

/-- The words of retired stores written in their order. -/
def State.overwrites (s : State) (cl : Nat) (l : List PendingStore) : State := l.foldl (fun s p => s.overwrite cl p.pa p.data) s

theorem performMany_inPlace {core : Nat} : ∀ (l : List PendingStore) (s : State), Quiescent s cl → (∀ p ∈ l, InPlace s cl p) →
    performMany core l.length (s.withStores core l) = (s.overwrites cl l).withStores core []
  | [], s, _, _ => rfl
  | p :: l, s, hq, h => by
    show performMany core l.length ((s.withStores core (p :: l)).performOldest core) = _
    rw [performOldest_inPlace hq (h p List.mem_cons_self)]
    exact performMany_inPlace l _ (hq.overwrite _ _) fun q hm => (h q (List.mem_cons_of_mem _ hm)).overwrite _ _

theorem overwrites_keeps {p : State → Prop} (h : ∀ s q x, p s → p (s.overwrite cl q x)) (l : List PendingStore) (hs : p s) : p (s.overwrites cl l) :=
  foldl_keeps (fun s q hq => h s q.pa q.data hq) l hs

theorem cachesOnly_overwrites (s : State) (l : List PendingStore) : CachesOnly s (s.overwrites cl l) :=
  overwrites_keeps (p := CachesOnly s) (fun _ _ _ h => h.trans (cachesOnly_overwrite ..)) l (.refl s)

/-- A word that none of the stores writes stays. -/
theorem clWord_overwrites_other {c q : Nat} : ∀ (l : List PendingStore) (s : State), (∀ p ∈ l, wordOf q ≠ wordOf p.pa) → (s.overwrites cl l).clWord c q = s.clWord c q
  | [], _, _ => rfl
  | p :: l, s, h => by
    show ((s.overwrite cl p.pa p.data).overwrites cl l).clWord c q = _
    rw [clWord_overwrites_other l _ fun x hx => h x (List.mem_cons_of_mem _ hx), clWord_overwrite, if_neg fun e => h p List.mem_cons_self e.2]

/-- Each word of a record after its stores. -/
theorem clWord_recordStores (cl : Nat) (z : State) : ∀ (xs : List Word) (rpa : Nat) (s : State), rpa % 8 = 0 → ∀ k < xs.length,
    (s.overwrites cl (z.recordStores rpa xs)).clWord cl (rpa + 8 * k) = { CacheWord.absent with st := .o, data := xs.getD k 0 }
  | [], _, _, _, k, h => absurd h (by simp)
  | x :: xs, rpa, s, hr, 0, _ => by
    show ((s.overwrite cl rpa x).overwrites cl (z.recordStores (rpa + 8) xs)).clWord cl rpa = _
    rw [clWord_overwrites_other, clWord_overwrite, if_pos ⟨rfl, rfl⟩]
    · rfl
    · intro p hp
      rw [recordStores_eq] at hp
      obtain ⟨j, -, rfl⟩ := List.mem_map.1 hp
      show wordOf rpa ≠ wordOf (rpa + 8 + 8 * j)
      unfold wordOf
      omega
  | x :: xs, rpa, s, hr, k + 1, h => by
    show ((s.overwrite cl rpa x).overwrites cl (z.recordStores (rpa + 8) xs)).clWord cl (rpa + 8 * (k + 1)) = _
    have := clWord_recordStores cl z xs (rpa + 8) (s.overwrite cl rpa x) (by omega) k (by simpa using h)
    rw [show rpa + 8 * (k + 1) = rpa + 8 + 8 * k by omega, this, List.getD_cons_succ]

/-! The record of a copy. -/

/-- The words of a copy's record (R174). -/
def State.copyRecord (s : State) (pol : Pol) (sc : Scope) (src dst len : Word) (cpa : Nat) : List Word :=
  [src, dst, BitVec.ofNat 64 len.toNat, BitVec.ofNat 64 cpa, 0,
    ctlWord pol sc (s.inX7 && !(s.core s.myCore).xlat) (if len.toNat = 0 then 3 else 1) s.me.tno s.me.asn, BitVec.ofNat 64 (s.me.ptroot.toNat * 4096),
    BitVec.ofNat 64 (placeOf s.cur), s.pc, 0, 0, 0, 0, 0, 0, 0]

theorem isDevice_near (h : pa % 128 = 0) {k : Nat} (hk : k < 128) : isDevice (pa + k) = isDevice pa := by
  unfold isDevice offOf
  have h1 : (0x0F00000000000 ≤ (pa + k) % 2 ^ 49) ↔ (0x0F00000000000 ≤ pa % 2 ^ 49) := by omega
  have h2 : ((pa + k) % 2 ^ 49 < 0x1000000000000) ↔ (pa % 2 ^ 49 < 0x1000000000000) := by omega
  rw [decide_eq_decide.2 h1, decide_eq_decide.2 h2]

theorem Owned.holding {v : Word} (h : Owned s pa v) : Holding s s.myCluster pa := by
  obtain ⟨h1, h2, h3, -⟩ := h
  exact ⟨h1, h2, h3⟩

theorem Drained.quiescent (h : Drained s) : Quiescent s s.myCluster := ⟨h.2, h.1.2⟩

/-- A retired record is performed by the release that follows it. -/
theorem releaseWait_record {rpa : Nat} {xs : List Word} {sc : Scope} (hq : Quiescent s s.myCluster)
    (hp : ∀ p ∈ s.recordStores rpa xs, InPlace s s.myCluster p) (hne : xs ≠ []) :
    (s.withStores s.myCore (s.recordStores rpa xs)).releaseWait s.cur sc = (s.overwrites s.myCluster (s.recordStores rpa xs)).withStores s.myCore [] := by
  have hany : (s.recordStores rpa xs).any (fun p => p.ctx == s.cur) = true := by
    cases xs with
    | nil => exact absurd rfl hne
    | cons x xs => simp [State.recordStores, State.pendingStore]
  have hflush : (s.withStores s.myCore (s.recordStores rpa xs)).flushStores s.cur =
      (s.overwrites s.myCluster (s.recordStores rpa xs)).withStores s.myCore [] := by
    rw [← performMany_inPlace _ s hq hp]
    have hs := sbuf_withStores s s.myCore (s.recordStores rpa xs)
    unfold State.flushStores
    dsimp only
    rw [show coreOf s.cur = s.myCore from rfl, hs, if_pos hany]
  have hco := cachesOnly_overwrites (cl := s.myCluster) s (s.recordStores rpa xs)
  have hq' : Quiescent (s.overwrites s.myCluster (s.recordStores rpa xs)) s.myCluster :=
    overwrites_keeps (p := fun u => Quiescent u s.myCluster) (fun _ _ _ h => h.overwrite _ _) _ hq
  have hu : Unbuffered ((s.overwrites s.myCluster (s.recordStores rpa xs)).withStores s.myCore []) (clusterOf s.cur) := hq'.words
  have ht : Unstored ((s.overwrites s.myCluster (s.recordStores rpa xs)).withStores s.myCore []) (clusterOf s.cur) := hq'.tiles
  unfold State.releaseWait
  rw [hflush, drainThread_unstored ht]
  exact releaseAt_unbuffered hu sc

/-- The state with an entry more in the copy queue of the cluster in turn. -/
def State.withCopy (s : State) (e : CopyWait) : State := s.modCluster s.myCluster (fun c => { c with copyq := c.copyq ++ [e] })

theorem enterCopy_quiet (hq : Quiescent s s.myCluster) (hw : (s.cluster s.myCluster).copyWait = []) (rpa cursor : Nat) (ctr : Option Nat) :
    s.enterCopy rpa cursor ctr = s.withCopy { rpa := rpa, cursor := cursor } := by
  unfold State.enterCopy
  rw [drainPieces_unbuffered (a := s.agent) hq.words]
  refine modCluster_congr _ _ ?_
  have hfil : (s.cluster s.myCluster).copyWait.filter (· != s.cur) = (s.cluster s.myCluster).copyWait := by
    rw [hw]
    rfl
  rw [hfil]

theorem copyRoom_ok (hl : (s.cluster s.myCluster).copyq.length < 256) (hw : (s.cluster s.myCluster).copyWait = []) : copyRoom s = .ok () s := by
  have hcond : (256 ≤ (s.cluster s.myCluster).copyq.length || !isNext (s.cluster s.myCluster).copyWait s.cur) = false := by
    rw [hw, decide_eq_false (Nat.not_le.2 hl)]
    rfl
  unfold copyRoom
  rw [get_bind, hcond, if_neg (by decide)]
  rfl

/-- What follows the checks of a copy. -/
def State.copyEnters (s : State) (rpa : Nat) (xs : List Word) (len : Nat) (sc : Scope) (ctr : Option Nat) : State :=
  if len = 0 then s.storeWords rpa xs else ((s.storeWords rpa xs).releaseWait (s.storeWords rpa xs).cur sc).enterCopy rpa 0 ctr

section
variable {r d b l c : Reg} {pol : Pol} {sc : Scope} {rpa cpa : Nat} (hf : Free s) (hd : Drained s) (hr : (s.readG r).toNat % 128 = 0)
  (hm : Reaches1 s (s.readG r) 128 .write .own rpa)
include hf hd hr hm

/-- A copy whose checks pass retires, with its record stored. -/
theorem copy_retires (hl : (s.cluster s.myCluster).copyq.length < 256) (hw : (s.cluster s.myCluster).copyWait = []) (h52 : (s.readG l).toNat < 2 ^ 52)
    (hc : CounterAt s (s.readG c) pol cpa) : ∃ a, ∀ t, (s.withAccs a).copyEnters rpa (s.copyRecord pol sc (s.readG b) (s.readG d) (s.readG l) cpa) (s.readG l).toNat sc
      (named (s.readG c) cpa) = t → SameSpot s t → exec (.copy r d b pol sc l c) s = .next (({ t with accs := [] } : State).retireTo (s.pc + 8)) := by
  refine ⟨s.accs ++ [{ va := s.readG r, n := 128, pol := some .own, rd := false, wr := true, lane := 0, device := false }], fun t ht hspot => ?_⟩
  generalize ha : s.accs ++ [{ va := s.readG r, n := 128, pol := some .own, rd := false, wr := true, lane := 0, device := false }] = a at ht
  have hs' : Settled (s.withAccs a) := hd.1
  obtain ⟨-, hmap, hdev⟩ := hm
  obtain ⟨hca, -⟩ := id hc
  refine runAct_retires hf 8 ?_ hspot
  rw [show decide (2 ^ 52 ≤ (s.readG l).toNat) = false from decide_eq_false (by omega)]
  refine (bind_ok (a := ()) (t := s) rfl).trans ?_
  have e : s.noted { va := s.readG r, n := 128, pol := some .own, rd := false, wr := true, lane := 0, device := false } = s.withAccs a := by
    rw [← ha]
    rfl
  rw [bind_ok (aligned_ok hr _ _), bind_ok (aligned_ok hca _ _), bind_ok (xlate_maps hmap), bind_ok (xlateCounter_ok hc), bind_ok (notDevice_ok hdev _ _),
    bind_ok (counterNotDevice_ok hc), bind_ok (note_ok s _ _ _ _ _ _ _), e, modify_bind, waitOwn_settled hs']
  have hg : (guarded (modify (fun u => u.copyEnters rpa (s.copyRecord pol sc (s.readG b) (s.readG d) (s.readG l) cpa) (s.readG l).toNat sc
      (named (s.readG c) cpa))) : Act Unit) (s.withAccs a) = .ok () t := by
    refine guarded_ok ?_ (hspot.free hf _)
    rw [modify_ok, ht]
  by_cases h0 : (s.readG l).toNat = 0
  · rw [if_neg (not_not.2 h0)]
    exact hg
  · rw [if_pos h0, bind_ok (copyRoom_ok (s := s.withAccs a) hl hw)]
    exact hg

end

theorem copyRecord_eq (pol : Pol) (sc : Scope) (src dst len : Word) (cpa : Nat) : s.copyRecord pol sc src dst len cpa =
    [src, dst, len, BitVec.ofNat 64 cpa, 0,
      BitVec.ofNat 64 (pol.code + 4 * sc.code + (if s.inX7 && !(s.core s.myCore).xlat then 32 else 0) + 256 * (if len.toNat = 0 then 3 else 1) +
        2 ^ 12 * s.me.tno.toNat + 2 ^ 24 * s.me.asn.toNat),
      BitVec.ofNat 64 (s.me.ptroot.toNat * 4096), BitVec.ofNat 64 (s.cur % 32768), s.pc, 0, 0, 0, 0, 0, 0, 0] := by
  unfold State.copyRecord ctlWord
  rw [BitVec.ofNat_toNat, BitVec.setWidth_eq]
  congr 6
  refine congrArg (BitVec.ofNat 64) ?_
  rw [show (2 : Nat) ^ 5 = 32 from rfl]
  omega

/-- What a copy that entered its queue leaves (R174). -/
theorem entered_record {rpa : Nat} {xs : List Word} {sc : Scope} {ctr : Option Nat} {a : List Acc} (hd : Drained s) (hr : rpa % 8 = 0)
    (hp : ∀ p ∈ s.recordStores rpa xs, InPlace s s.myCluster p) (hne : xs ≠ []) (hw : (s.cluster s.myCluster).copyWait = [])
    (hs : (s.core s.myCore).sbuf = []) {len : Nat} (h0 : len ≠ 0) :
    ∃ t, (s.withAccs a).copyEnters rpa xs len sc ctr = t ∧ SameSpot s t ∧ t.ctxs = s.ctxs ∧ t.cur = s.cur ∧ t.mem = s.mem ∧
      (∀ k < xs.length, t.clWord s.myCluster (rpa + 8 * k) = { CacheWord.absent with st := .o, data := xs.getD k 0 }) ∧
      (t.cluster s.myCluster).copyq = (s.cluster s.myCluster).copyq ++ [{ rpa := rpa, cursor := 0 }] := by
  have hrec : (s.withAccs a).recordStores rpa xs = s.recordStores rpa xs := by
    rw [recordStores_eq, recordStores_eq]
    rfl
  have hq : Quiescent (s.withAccs a) s.myCluster := ⟨hd.quiescent.words, hd.quiescent.tiles⟩
  have hp' : ∀ p ∈ (s.withAccs a).recordStores rpa xs, InPlace (s.withAccs a) s.myCluster p := fun p h => by
    obtain ⟨h1, h2, h3, h4, h5, h6, h7⟩ := hp p (hrec ▸ h)
    exact ⟨h1, h2, h3, h4, h5, h6, h7⟩
  have hstore : (s.withAccs a).storeWords rpa xs = (s.withAccs a).withStores s.myCore ((s.withAccs a).recordStores rpa xs) := by
    cases xs with
    | nil => exact absurd rfl hne
    | cons x xs =>
      have hs' : ((s.withAccs a).core (s.withAccs a).myCore).sbuf = [] := hs
      rw [storeWords_eq, hs', List.nil_append]
      rfl
  have hrw : ((s.withAccs a).withStores s.myCore ((s.withAccs a).recordStores rpa xs)).releaseWait s.cur sc =
      ((s.withAccs a).overwrites s.myCluster ((s.withAccs a).recordStores rpa xs)).withStores s.myCore [] := releaseWait_record (s := s.withAccs a) hq hp' hne
  generalize hu : (s.withAccs a).overwrites s.myCluster ((s.withAccs a).recordStores rpa xs) = u at *
  have hco : CachesOnly (s.withAccs a) u := hu ▸ cachesOnly_overwrites _ _
  have hq' : Quiescent u s.myCluster := hu ▸ overwrites_keeps (p := fun u => Quiescent u s.myCluster) (fun _ _ _ h => h.overwrite _ _) _ hq
  have hwords := fun k hk => clWord_recordStores s.myCluster (s.withAccs a) xs rpa (s.withAccs a) hr k hk
  rw [hu] at hwords
  obtain ⟨cl, hcl⟩ := hco.same
  obtain ⟨l, w, hk⟩ := hco.like s.myCluster
  have hcur : u.cur = s.cur := by rw [hcl]; rfl
  have hmy : (u.withStores s.myCore []).myCluster = s.myCluster := congrArg clusterOf hcur
  have hqe : Quiescent (u.withStores s.myCore []) (u.withStores s.myCore []).myCluster := by
    rw [hmy]
    exact ⟨hq'.words, hq'.tiles⟩
  have hwait : ((u.withStores s.myCore []).cluster (u.withStores s.myCore []).myCluster).copyWait = [] := by
    rw [hmy]
    show (u.cluster s.myCluster).copyWait = []
    rw [hk]
    exact hw
  have hend : (s.withAccs a).copyEnters rpa xs len sc ctr = (u.withStores s.myCore []).withCopy { rpa := rpa, cursor := 0 } := by
    unfold State.copyEnters
    rw [if_neg h0, hstore]
    refine Eq.trans (congrArg (fun v : State => v.enterCopy rpa 0 ctr) hrw) (enterCopy_quiet hqe hwait rpa 0 ctr)
  refine ⟨_, hend, ?_, ?_, hcur, ?_, fun k hk => ?_, ?_⟩
  · have h1 : SameSpot s u := by rw [hcl]; exact ⟨rfl, rfl, rfl, rfl, rfl⟩
    have h2 : SameSpot u (u.withStores s.myCore []) := sameSpot_modCore u _ (fun _ => rfl) (fun _ => rfl) fun _ => rfl
    exact (h1.trans h2).trans ⟨rfl, rfl, rfl, rfl, rfl⟩
  · rw [show ((u.withStores s.myCore []).withCopy { rpa := rpa, cursor := 0 }).ctxs = u.ctxs from rfl, hcl]
    rfl
  · rw [show ((u.withStores s.myCore []).withCopy { rpa := rpa, cursor := 0 }).mem = u.mem from rfl, hcl]
    rfl
  · have hst := still_modCluster (u.withStores s.myCore []) (u.withStores s.myCore []).myCluster
      (f := fun c => { c with copyq := c.copyq ++ [{ rpa := rpa, cursor := 0 }] }) fun _ => rfl
    exact (hst.clWord _ _).trans (hwords k hk)
  · unfold State.withCopy
    rw [hmy, cluster_modCluster_same]
    show (u.cluster s.myCluster).copyq ++ _ = _
    rw [hk]
    rfl

/-! A record queued again. -/

/-- Words of a record read as they stand. -/
theorem readRecord_ok {ra : Word} {rpa : Nat} {w : Nat → Word} (hr : rpa % 8 = 0) (ho : ∀ k < 16, Owned s (rpa + 8 * k) (w k)) :
    ((List.range 16).mapM (fun k => do
      let t ← get
      lift (ra + BitVec.ofNat 64 (8 * k)) 0 0 (readBytes t.agent .wt (rpa + 8 * k) 8 none)) : Act (List Word)) s = .ok ((List.range 16).map w) s := by
  refine mapM_still _ fun k hk => ?_
  have hk := List.mem_range.1 hk
  have h8 : (rpa + 8 * k) % 8 = 0 := by omega
  rw [get_bind, lift_ok (readBytes_owned (ho k hk) s.agent rfl .wt 8 none), h8, subWord_whole]

theorem ownWords_ok {va : Word} {rpa : Nat} {w : Nat → Word} : ∀ l : List Nat, (∀ k ∈ l, Owned s (rpa + 8 * k) (w k)) → ownWords va rpa l s = .ok () s
  | [], _ => rfl
  | k :: l, h => by
    unfold ownWords
    rw [get_bind, bind_ok (lift_ok (obtain_owned (h k List.mem_cons_self) s.agent rfl) _ _ _)]
    exact ownWords_ok l fun j hj => h j (List.mem_cons_of_mem _ hj)

/-- Owned words written whole, from a word of a record on. -/
def State.overwriteFrom (s : State) (cl rpa : Nat) : Nat → List Word → State
  | _, [] => s
  | k, x :: xs => (s.overwrite cl (rpa + 8 * k) x).overwriteFrom cl rpa (k + 1) xs

theorem writeWords_ok {va : Word} {rpa : Nat} (hr : rpa % 8 = 0) : ∀ (xs : List Word) (k : Nat) (s : State), (∀ j < xs.length, Holding s s.myCluster (rpa + 8 * (k + j))) →
    writeWords va rpa k xs s = .ok () (s.overwriteFrom s.myCluster rpa k xs)
  | [], _, _, _ => rfl
  | x :: xs, k, s, h => by
    have hk : (rpa + 8 * k) % 8 = 0 := by omega
    have h0 := h 0 (by simp)
    rw [Nat.add_zero] at h0
    have hw := clWrite_holding (a := s.agent) h0 x none
    have hrun : writeBytes s.agent .own (rpa + 8 * k) 8 x none s = .ok () (s.overwrite s.myCluster (rpa + 8 * k) x) := by
      rw [writeBytes, hk, alignWord_zero, show maskOf 0 8 = 255#8 by decide]
      exact hw
    have hcl : (s.overwrite s.myCluster (rpa + 8 * k) x).myCluster = s.myCluster := by
      obtain ⟨c, hc⟩ := (cachesOnly_overwrite s s.myCluster (rpa + 8 * k) x).same
      rw [hc]
      rfl
    unfold writeWords
    rw [get_bind, bind_ok (lift_ok hrun _ _ _), writeWords_ok hr xs (k + 1) _ fun j hj => ?_, hcl]
    · rfl
    · rw [hcl]
      have := h (j + 1) (by simpa using hj)
      rw [show k + (j + 1) = k + 1 + j by omega] at this
      exact holding_overwrite this x

theorem overwriteFrom_keeps {p : State → Prop} {rpa : Nat} (h : ∀ s q x, p s → p (s.overwrite cl q x)) : ∀ (xs : List Word) (k : Nat) (s : State), p s →
    p (s.overwriteFrom cl rpa k xs)
  | [], _, _, hs => hs
  | x :: xs, k, s, hs => overwriteFrom_keeps h xs (k + 1) _ (h s (rpa + 8 * k) x hs)

theorem clWord_overwriteFrom {c q rpa : Nat} (hr : rpa % 8 = 0) : ∀ (xs : List Word) (k : Nat) (s : State),
    (∀ j < xs.length, wordOf q ≠ rpa + 8 * (k + j)) → (s.overwriteFrom cl rpa k xs).clWord c q = s.clWord c q
  | [], _, _, _ => rfl
  | x :: xs, k, s, h => by
    have h0 := h 0 (by simp)
    have hw : wordOf (rpa + 8 * k) = rpa + 8 * k := by unfold wordOf; omega
    show ((s.overwrite cl (rpa + 8 * k) x).overwriteFrom cl rpa (k + 1) xs).clWord c q = _
    rw [clWord_overwriteFrom hr xs (k + 1) _ fun j hj => ?_, clWord_overwrite, if_neg]
    · rintro ⟨-, e⟩
      exact h0 (by rw [e, hw, Nat.add_zero])
    · rw [show k + 1 + j = k + (j + 1) by omega]
      exact h (j + 1) (by simpa using hj)

theorem clWord_overwriteFrom_same {rpa : Nat} (hr : rpa % 8 = 0) : ∀ (xs : List Word) (k : Nat) (s : State), ∀ j < xs.length,
    (s.overwriteFrom cl rpa k xs).clWord cl (rpa + 8 * (k + j)) = { CacheWord.absent with st := .o, data := xs.getD j 0 }
  | [], _, _, j, h => absurd h (by simp)
  | x :: xs, k, s, 0, _ => by
    have hw : wordOf (rpa + 8 * k) = rpa + 8 * k := by unfold wordOf; omega
    show ((s.overwrite cl (rpa + 8 * k) x).overwriteFrom cl rpa (k + 1) xs).clWord cl (rpa + 8 * (k + 0)) = _
    rw [Nat.add_zero, clWord_overwriteFrom hr xs (k + 1) _ fun j _ => by rw [Nat.add_zero, hw]; omega, clWord_overwrite, if_pos ⟨rfl, rfl⟩]
    rfl
  | x :: xs, k, s, j + 1, h => by
    show ((s.overwrite cl (rpa + 8 * k) x).overwriteFrom cl rpa (k + 1) xs).clWord cl (rpa + 8 * (k + (j + 1))) = _
    rw [show k + (j + 1) = k + 1 + j by omega, clWord_overwriteFrom_same hr xs (k + 1) _ j (by simpa using h), List.getD_cons_succ]

/-- An owned word carried to its home, which serves the cluster by itself from then on (R104). -/
theorem carry_owned {a : Agent} (h : Holding s a.cl pa) (hj : s.joined (a.cl / 64) (sockOf pa) = true) :
    s.carry a pa = (((s.loseWord a.cl (wordOf pa)).putWord (wordOf pa) (s.clWord a.cl pa).data 255#8).modDir (lineOf (wordOf pa)) (fun e => { e with pmk := none }), true) := by
  obtain ⟨ho, hb, hs⟩ := h
  have hw : s.clWord a.cl (wordOf pa) = s.clWord a.cl pa := clWord_wordOf s a.cl pa
  unfold State.carry
  dsimp only
  rw [mend_whole (x := s.clWord a.cl pa) hw hs, hw, sockOf_wordOf, hj, ho, hb]
  rfl

/-- What carrying an owned word home leaves. -/
theorem carry_served {a : Agent} (h : Holding s a.cl pa) (hj : s.joined (a.cl / 64) (sockOf pa) = true) (hf : s.flights = []) (hs : s.slc = [])
    (hfot : (s.pkg (sockOf pa)).fotbase = 0) : ∃ v, s.carry a pa = (v, true) ∧ Served v a.cl pa ∧ AtWord (wordOf pa) none s v ∧
      v.mem = memPutWord s.mem (wordOf pa) (s.clWord a.cl pa).data := by
  refine ⟨_, carry_owned h hj, ?_⟩
  have h1 := atWord_loseWord s a.cl (wordOf pa)
  have h2 := atWord_putWord (s.loseWord a.cl (wordOf pa)) (wordOf pa) none (s.clWord a.cl pa).data 255#8 (wordOf pa)
  have h3 := atWord_modDir ((s.loseWord a.cl (wordOf pa)).putWord (wordOf pa) (s.clWord a.cl pa).data 255#8) (wordOf pa) none
    (f := fun e => { e with pmk := none }) fun _ _ _ => rfl
  have hat := (h1.trans h2).trans h3
  have hmem : (s.loseWord a.cl (wordOf pa)).mem = s.mem := by
    unfold State.loseWord State.dropOwner
    dsimp only
    repeat' split
    all_goals rfl
  refine ⟨⟨hat.flights.trans hf, hat.slc hs, ?_, by rw [hat.pkg, hfot], by rw [hat.joined, hj], ?_⟩, hat, ?_⟩
  · show tfind (tdel (s.loseWord a.cl (wordOf pa)).errs (wordOf pa)) (wordOf pa) = none
    rw [tfind_tdel, if_pos rfl]
  · have o1 := (sameOwners_putWord (s.loseWord a.cl (wordOf pa)) (wordOf pa) (s.clWord a.cl pa).data 255#8).trans
      (sameOwners_modDir _ (lineOf (wordOf pa)) (f := fun e => { e with pmk := none }) fun _ => rfl)
    rw [← ownerOf_wordOf, o1.ownerOf]
    exact ownerOf_dropOwner _ _
  · show memPutWord (s.loseWord a.cl (wordOf pa)).mem (wordOf pa) (mergeWord _ _ 255#8) = _
    rw [mergeWord_full, hmem]

theorem afterAtomic_cas {m : List Host.Cell} (hm : Memory.wf m = true) (hp : pa % 8 = 0) (x old : Word) :
    afterAtomic (memPutWord m pa old) .cas pa 8 x old = memPutWord (memPutWord m pa old) pa x ∧
      (operateWord .cas pa 8 (memWord (memPutWord m pa old) (wordOf pa)) x old).1 = old := by
  have hpw : wordOf pa = pa := by unfold wordOf; omega
  have hs : subWord old 0 8 = old.toNat := by
    have := congrArg BitVec.toNat (subWord_whole old)
    rw [BitVec.toNat_ofNat, Nat.mod_eq_of_lt] at this
    · exact this
    · unfold subWord
      omega
  have hc : old.toNat % 256 ^ 8 = old.toNat := Nat.mod_eq_of_lt (by have := old.isLt; omega)
  have h1 : operateWord .cas pa 8 old x old = (old, x) := by
    unfold operateWord
    dsimp only
    rw [hp, hs, hc]
    have hop : operate .cas 8 old.toNat (x.toNat % 256 ^ 8) old.toNat = some (x.toNat % 256 ^ 8) := if_pos rfl
    rw [hop]
    dsimp only
    rw [ofNat_toNat_mod, alignWord_zero, show maskOf 0 8 = 255#8 by decide, mergeWord_full, BitVec.ofNat_toNat, BitVec.setWidth_eq]
  have h2 : atomicWrites .cas 8 old x old = true := by
    unfold atomicWrites
    rw [hc]
    have hop : operate .cas 8 old.toNat (x.toNat % 256 ^ 8) old.toNat = some (x.toNat % 256 ^ 8) := if_pos rfl
    rw [hop]
    rfl
  unfold afterAtomic
  rw [hpw, memWord_memPutWord hm, h1]
  dsimp only
  rw [h2, if_pos rfl]
  exact ⟨rfl, rfl⟩

/-- CTL with STATUS QUEUED (R176). -/
theorem queued_ctl (w : Word) : BitVec.ofNat 64 (w.toNat - w.toNat / 2 ^ 8 % 16 * 2 ^ 8 + 2 ^ 8) = (w &&& ~~~ 0xF00#64) ||| 0x100#64 := by
  apply BitVec.eq_of_getLsbD_eq
  intro i hi
  have hval : w.toNat - w.toNat / 2 ^ 8 % 16 * 2 ^ 8 + 2 ^ 8 = 2 ^ 12 * (w.toNat / 2 ^ 12) + (2 ^ 8 * 1 + w.toNat % 2 ^ 8) := by omega
  have hc : (0xF00#64).getLsbD i = decide (8 ≤ i ∧ i < 12) ∧ (0x100#64).getLsbD i = decide (i = 8) := by
    have h : ∀ j < 64, (0xF00#64).getLsbD j = decide (8 ≤ j ∧ j < 12) ∧ (0x100#64).getLsbD j = decide (j = 8) := by decide
    exact h i hi
  rw [BitVec.getLsbD_ofNat, hval, BitVec.getLsbD_or, BitVec.getLsbD_and, BitVec.getLsbD_not, hc.1, hc.2,
    Nat.testBit_two_pow_mul_add _ (by omega), decide_eq_true hi, Bool.true_and, Bool.true_and]
  have hw : ∀ j, w.getLsbD j = w.toNat.testBit j := fun j => rfl
  by_cases h12 : i < 12
  · rw [if_pos h12, Nat.testBit_two_pow_mul_add _ (Nat.mod_lt _ (by decide))]
    by_cases h8 : i < 8
    · rw [if_pos h8, Nat.testBit_mod_two_pow, hw]
      simp [h8, show ¬ 8 ≤ i by omega, show i ≠ 8 by omega]
    · rw [if_neg h8]
      have : Nat.testBit 1 (i - 8) = decide (i = 8) := by
        rw [Bool.eq_iff_iff, Nat.testBit_one_eq_true_iff_self_eq_zero, decide_eq_true_iff]
        omega
      simp [this, show 8 ≤ i by omega, h12]
  · rw [if_neg h12, Nat.testBit_div_two_pow, hw, show i - 12 + 12 = i by omega]
    simp [h12, show i ≠ 8 by omega]

/-- The engines' tile stores stay. -/
def SameStores (s t : State) : Prop := t.fuses = s.fuses ∧ ∀ n, (t.engine n).storeq = (s.engine n).storeq

theorem plain_sameStores (s : State) : Plain (SameStores s) where
  records := fun _ _ _ _ _ h => h
  upd := fun _ _ _ _ _ _ _ _ _ _ h => h
  mem := fun _ _ _ h => h
  queue := fun _ _ _ _ _ _ _ h _ _ => h
  wake := fun _ _ h => h
  cluster := fun _ _ _ h _ => h
  engine := fun t n f h hk => ⟨h.1, fun m => by
    by_cases e : m = n
    · subst e
      rw [engine_modEngine_same, hk (t.engine m)]
      exact h.2 m
    · rw [engine_modEngine, if_neg e]
      exact h.2 m⟩
  pkgKept := fun _ _ _ h _ => h

theorem SameStores.unstored (h : SameStores s t) (hu : Unstored s cl) : Unstored t cl := fun e he => by
  have he' : e ∈ s.enginesOf cl := by
    unfold State.enginesOf State.hasEngine State.hasCluster State.fusesOf at *
    rwa [h.1] at he
  rw [h.2, hu e he']

/-- A record's CTL exchanged at its home by the cluster that owned it (R177). -/
theorem queueStatus_ok {ra : Word} {rpa : Nat} {ctl : Word} (hq : Quiescent s s.myCluster) (ho : Owned s (rpa + 40) ctl) (hr : rpa % 8 = 0)
    (hj : s.joined (s.myCluster / 64) (sockOf (rpa + 40)) = true) (hf : s.flights = []) (hs : s.slc = []) (hfot : (s.pkg (sockOf (rpa + 40))).fotbase = 0)
    (hm : Memory.wf s.mem = true) : ∃ u, queueStatus ra rpa ctl s = .ok true u ∧
      AtomicHome s u s.myCluster (rpa + 40) (memPutWord (memPutWord s.mem (rpa + 40) ctl) (rpa + 40) ((ctl &&& ~~~ 0xF00#64) ||| 0x100#64)) ∧
      Apart s u ∧ Quiescent u s.myCluster := by
  have hp : (rpa + 40) % 8 = 0 := by omega
  have hpw : wordOf (rpa + 40) = rpa + 40 := by unfold wordOf; omega
  have hh := ho.holding
  obtain ⟨-, -, -, hv⟩ := id ho
  obtain ⟨e1, e2⟩ := afterAtomic_cas hm hp ((ctl &&& ~~~ 0xF00#64) ||| 0x100#64) ctl
  obtain ⟨u, h1, h2⟩ := clAtomic_home (s := s) (t := s) (a := s.agent) (pa := rpa + 40) (op := .cas) (n := 8) (x := (ctl &&& ~~~ 0xF00#64) ||| 0x100#64) (cmp := ctl)
    (m := memPutWord s.mem (rpa + 40) ctl) rfl (scrub_sound hh.2.1 hh.2.2) (.refl _ _ s) hf fun u hu => by
      have hw : u.clWord s.myCluster (rpa + 40) = s.clWord s.myCluster (rpa + 40) := hu.clWord _ _
      have hh' : Holding u s.agent.cl (rpa + 40) := by
        show Holding u s.myCluster (rpa + 40)
        unfold Holding
        rw [hw]
        exact hh
      obtain ⟨v, c1, c2, c3, c4⟩ := carry_served hh' (by rw [hu.joined]; exact hj) (hu.flights.trans hf) (hu.slc.trans hs) (by rw [hu.pkg, hfot])
      refine ⟨v, c1, c2, c3, ?_⟩
      rw [c4, hpw, hu.mem]
      show memPutWord s.mem (rpa + 40) (u.clWord s.myCluster (rpa + 40)).data = _
      rw [hw, hv]
  rw [e1] at h2
  rw [e2] at h1
  have hap : Apart s u := (keep_clAtomic (plain_apart s) (Apart.refl s)).ok h1
  have hst : SameStores s u := (keep_clAtomic (plain_sameStores s) ⟨rfl, fun _ => rfl⟩).ok h1
  refine ⟨u, ?_, h2, hap, fun q => ?_, hst.unstored hq.tiles⟩
  · unfold queueStatus
    rw [get_bind, queued_ctl, bind_ok (lift_ok h1 _ _ _)]
    show EStateM.Result.ok (ctl == ctl) u = _
    rw [beq_self_eq_true]
  · by_cases e : wordOf q = wordOf (rpa + 40)
    · have ha : u.clWord s.myCluster (rpa + 40) = CacheWord.absent := h2.absent
      rw [← clWord_wordOf, e, clWord_wordOf, ha]
      decide
    · rw [h2.words _ _ (.inr (by rwa [wordOf_wordOf]))]
      exact hq.words q

theorem record_aligned {va : Word} {rpa : Nat} (hr : va.toNat % 128 = 0) (hm : Reaches1 s va 128 .write .own rpa) : rpa % 128 = 0 := by
  have := maps_mod hm.2.1
  omega

section
variable {r : Reg} {rpa : Nat} {w : Nat → Word} (hf : Free s) (hd : Drained s) (hr : (s.readG r).toNat % 128 = 0)
  (hm : Reaches1 s (s.readG r) 128 .write .own rpa) (ho : ∀ k < 16, Owned s (rpa + 8 * k) (w k))
include hf hd hr hm ho

/-- A record in another state than SUSPENDED and FAULTED is left alone (R177). -/
theorem resume_idle (h4 : (w 5).extractLsb' 8 4 ≠ 4) (h5 : (w 5).extractLsb' 8 4 ≠ 5) : exec (.copyResume r) s = .next (s.retireTo (s.pc + 8)) := by
  have hr8 : rpa % 8 = 0 := by have := record_aligned hr hm; omega
  have hst : ((w 5).extractLsb' 8 4).toNat = (w 5).toNat / 2 ^ 8 % 16 := by
    rw [BitVec.extractLsb'_toNat, Nat.shiftRight_eq_div_pow]
  refine (runAct_retires (t := s) hf 8 ?_ (.refl s)).trans (by rw [accs_nil hf.2.2]; rfl)
  rw [bind_ok (aligned_ok hr _ _), bind_ok (xlate_maps hm.2.1), bind_ok (notDevice_ok hm.2.2 _ _), modify_bind, waitOwn_settled hd.1,
    bind_ok (readRecord_ok hr8 ho)]
  have hw5 : ((List.range 16).map w).getD 5 0 = w 5 := rfl
  simp only [hw5]
  rw [← hst, if_pos]
  · rfl
  · exact ⟨fun e => h4 (BitVec.eq_of_toNat_eq e), fun e => h5 (BitVec.eq_of_toNat_eq e)⟩

/-- A record queued again: what its cluster and memory hold then (R177). -/
theorem resume_queues (hlen : (s.cluster s.myCluster).copyq.length < 256) (hwait : (s.cluster s.myCluster).copyWait = [])
    (hst : (w 5).extractLsb' 8 4 = 4 ∨ (w 5).extractLsb' 8 4 = 5)
    (hown : s.inX7 = true ∨ ((w 5).extractLsb' 12 12 = s.me.tno ∧ (w 5).extractLsb' 24 16 = s.me.asn ∧ (w 5).getLsbD 5 = false))
    (h42 : (w 4).toNat ≤ (w 2).toNat) (h52 : (w 2).toNat < 2 ^ 52) (h6 : (w 5).extractLsb' 6 2 = 0) (h40 : (w 5).toNat < 2 ^ 40) (h7 : (w 7).toNat < 2 ^ 15)
    (h11 : ∀ k < 16, 11 ≤ k → w k = 0) (hcalm : Calm s s.myCluster rpa) :
    ∃ a u, AtomicHome (s.withAccs a) u s.myCluster (rpa + 40)
        (memPutWord (memPutWord s.mem (rpa + 40) (w 5)) (rpa + 40) ((w 5 &&& ~~~ 0xF00#64) ||| 0x100#64)) ∧ Apart (s.withAccs a) u ∧
      exec (.copyResume r) s = .next (({ (u.overwriteFrom s.myCluster rpa 7 [BitVec.ofNat 64 (placeOf s.cur), s.pc, 0, 0]).withCopy
        { rpa := rpa, cursor := (w 4).toNat } with accs := [] } : State).retireTo (s.pc + 8)) := by
  have h128 := record_aligned hr hm
  have hr8 : rpa % 8 = 0 := by omega
  refine ⟨s.accs ++ [{ va := s.readG r, n := 128, pol := some .own, rd := true, wr := true, lane := 0, device := false }], ?_⟩
  generalize ha : s.accs ++ [{ va := s.readG r, n := 128, pol := some .own, rd := true, wr := true, lane := 0, device := false }] = a
  have e : s.noted { va := s.readG r, n := 128, pol := some .own, rd := true, wr := true, lane := 0, device := false } = s.withAccs a := by
    rw [← ha]
    rfl
  have hsock : sockOf (rpa + 40) = sockOf rpa := by unfold sockOf; omega
  have ho' : ∀ k < 16, Owned (s.withAccs a) (rpa + 8 * k) (w k) := ho
  obtain ⟨u, q1, q2, q3, q4⟩ := queueStatus_ok (s := s.withAccs a) (ra := s.readG r) ⟨hd.2, hd.1.2⟩ (ho' 5 (by decide)) hr8
    (by rw [hsock]; exact hcalm.reaches) hcalm.flights hcalm.slices (by rw [hsock]; exact hcalm.frames) hcalm.memory
  refine ⟨u, q2, q3, ?_⟩
  have hcur : u.cur = s.cur := q3.cur
  have hmy : u.myCluster = s.myCluster := congrArg clusterOf hcur
  let xs : List Word := [BitVec.ofNat 64 (placeOf s.cur), s.pc, 0, 0]
  have hwr : writeWords (s.readG r) rpa 7 xs u = .ok () (u.overwriteFrom s.myCluster rpa 7 xs) := by
    rw [← hmy]
    refine writeWords_ok hr8 xs 7 u fun j hj => ?_
    have hj4 : j < 4 := hj
    have hne : wordOf (rpa + 8 * (7 + j)) ≠ wordOf (wordOf (rpa + 40)) := by unfold wordOf; omega
    rw [hmy]
    unfold Holding
    rw [q2.words _ _ (.inr hne)]
    exact (ho' (7 + j) (by omega)).holding
  have hco : CachesOnly u (u.overwriteFrom s.myCluster rpa 7 xs) := overwriteFrom_keeps (p := CachesOnly u) (fun _ _ _ h => h.trans (cachesOnly_overwrite ..)) _ _ _ (.refl u)
  have hqv : Quiescent (u.overwriteFrom s.myCluster rpa 7 xs) s.myCluster :=
    overwriteFrom_keeps (p := fun u => Quiescent u s.myCluster) (fun _ _ _ h => h.overwrite _ _) _ _ _ q4
  generalize hv : u.overwriteFrom s.myCluster rpa 7 xs = v at *
  obtain ⟨cl, hcl⟩ := hco.same
  obtain ⟨l, y, hk⟩ := hco.like s.myCluster
  have hvcur : v.cur = s.cur := by rw [hcl]; exact hcur
  have hvmy : v.myCluster = s.myCluster := congrArg clusterOf hvcur
  have hcores : v.cores = s.cores := by rw [hcl]; exact q2.cores
  have hctxs : v.ctxs = s.ctxs := by rw [hcl]; exact q2.ctxs
  have hdv : Drained v := by
    refine ⟨⟨?_, by rw [hvmy]; exact hqv.tiles⟩, by rw [hvmy]; exact hqv.words⟩
    have : v.core v.myCore = s.core s.myCore := by rw [State.core, State.core, hcores, State.myCore, State.myCore, hvcur]
    rw [this, hvcur]
    exact hd.1.1
  have hwv : (v.cluster v.myCluster).copyWait = [] := by
    rw [hvmy, hk]
    exact (q3.cluster s.myCluster).copyWait.trans hwait
  have hent : ∀ sc ctr, (v.releaseWait v.cur sc).enterCopy rpa (w 4).toNat ctr = v.withCopy { rpa := rpa, cursor := (w 4).toNat } := fun sc ctr => by
    rw [releaseWait_drained hdv, enterCopy_quiet hdv.quiescent hwv]
  have hspot : SameSpot s (v.withCopy { rpa := rpa, cursor := (w 4).toNat }) := by
    have hx : ∀ c, (v.withCopy { rpa := rpa, cursor := (w 4).toNat }).ctx c = s.ctx c := fun c => by
      show v.ctx c = _
      rw [State.ctx, State.ctx, hctxs]
    have hc : ∀ k, (v.withCopy { rpa := rpa, cursor := (w 4).toNat }).core k = s.core k := fun k => by
      show v.core k = _
      rw [State.core, State.core, hcores]
    exact ⟨hvcur, by rw [hx], by rw [hc], by rw [hc], by rw [hc]⟩
  refine runAct_retires hf 8 ?_ hspot
  rw [bind_ok (aligned_ok hr _ _), bind_ok (xlate_maps hm.2.1), bind_ok (notDevice_ok hm.2.2 _ _), modify_bind, waitOwn_settled hd.1,
    bind_ok (readRecord_ok hr8 ho)]
  have hws : ∀ k < 16, ((List.range 16).map w).getD k 0 = w k := fun k hk => by
    rw [List.getD_eq_getElem?_getD, List.getElem?_map, List.getElem?_range hk]
    rfl
  have hdrop : (((List.range 16).map w).drop 11).any (· != 0) = false := by
    show [w 11, w 12, w 13, w 14, w 15].any (· != 0) = false
    rw [h11 11 (by decide) (by decide), h11 12 (by decide) (by decide), h11 13 (by decide) (by decide), h11 14 (by decide) (by decide),
      h11 15 (by decide) (by decide)]
    rfl
  have hstat : (w 5).toNat / 2 ^ 8 % 16 = 4 ∨ (w 5).toNat / 2 ^ 8 % 16 = 5 := by
    have hx : ((w 5).extractLsb' 8 4).toNat = (w 5).toNat / 2 ^ 8 % 16 := by
      rw [BitVec.extractLsb'_toNat, Nat.shiftRight_eq_div_pow]
    rcases hst with h | h <;> rw [h] at hx
    · exact .inl hx.symm
    · exact .inr hx.symm
  have w2 := hws 2 (by decide)
  have w3 := hws 3 (by decide)
  have w4 := hws 4 (by decide)
  have w5 := hws 5 (by decide)
  have w7 := hws 7 (by decide)
  simp only [w2, w3, w4, w5, w7, hdrop]
  have hother : (!s.inX7 && ((w 5 >>> 12).setWidth 12 != s.me.tno || (w 5 >>> 24).setWidth 16 != s.me.asn || (w 5).toNat / 2 ^ 5 % 2 == 1)) = false := by
    rcases hown with h | ⟨h1, h2, h3⟩
    · rw [h]
      rfl
    · have e1 : (w 5 >>> 12).setWidth 12 = s.me.tno := by
        rw [← h1]
        apply BitVec.eq_of_toNat_eq
        rw [BitVec.extractLsb'_toNat, BitVec.toNat_setWidth, BitVec.toNat_ushiftRight]
      have e2 : (w 5 >>> 24).setWidth 16 = s.me.asn := by
        rw [← h2]
        apply BitVec.eq_of_toNat_eq
        rw [BitVec.extractLsb'_toNat, BitVec.toNat_setWidth, BitVec.toNat_ushiftRight]
      have e3 : ((w 5).toNat / 2 ^ 5 % 2 == 1) = false := by
        have : (w 5).toNat.testBit 5 = false := h3
        rw [Nat.testBit_eq_decide_div_mod_eq] at this
        simpa using this
      rw [e1, e2, e3]
      simp
  have hrsv : (decide ((w 2).toNat < (w 4).toNat) || decide (2 ^ 52 ≤ (w 2).toNat) ||
      ((w 5).toNat / 2 ^ 6 % 4 != 0 || (w 5).toNat / 2 ^ 40 != 0 || (w 7).toNat / 2 ^ 15 != 0 || false)) = false := by
    have e6 : (w 5).toNat / 2 ^ 6 % 4 = 0 := by
      have := congrArg BitVec.toNat h6
      rwa [BitVec.extractLsb'_toNat, Nat.shiftRight_eq_div_pow] at this
    rw [decide_eq_false (Nat.not_lt.2 h42), decide_eq_false (Nat.not_le.2 h52), e6, Nat.div_eq_of_lt h40, Nat.div_eq_of_lt h7]
    rfl
  rw [if_neg (by omega), hother, hrsv]
  have ht : ∀ t : Trap, trapIf false t s = .ok () s := fun _ => rfl
  rw [bind_ok (ht _), bind_ok (ht _), bind_ok (copyRoom_ok hlen hwait), bind_ok (note_ok s _ _ _ _ _ _ _), e,
    bind_ok (ownWords_ok (s := s.withAccs a) (w := w) [7, 8, 9, 10] fun k hk => ho' k (by simp at hk; omega))]
  refine guarded_ok ?_ (hspot.free hf _)
  rw [bind_ok q1, if_pos rfl]
  have hwr' : writeWords (s.readG r) rpa 7 [BitVec.ofNat 64 (placeOf s.cur), s.pc, 0, 0] u = .ok () v := hwr
  rw [bind_ok hwr', modify_ok, hent]


end

theorem inPlace_record {rpa : Nat} {xs : List Word} {w : Nat → Word} (hr : rpa % 128 = 0) (hdev : isDevice rpa = false) (hlen : xs.length ≤ 16)
    (ho : ∀ k < 16, Owned s (rpa + 8 * k) (w k) ∧ s.backed (s.myCluster / 64) (rpa + 8 * k) = true) :
    ∀ p ∈ s.recordStores rpa xs, InPlace s s.myCluster p := by
  intro p hp
  rw [recordStores_eq] at hp
  obtain ⟨k, hk, rfl⟩ := List.mem_map.1 hp
  have hk := List.mem_range.1 hk
  obtain ⟨h1, h2⟩ := ho k (by omega)
  refine ⟨rfl, rfl, rfl, ?_, ?_, h2, h1.holding⟩
  · show (rpa + 8 * k) % 8 = 0
    omega
  · show isDevice (rpa + 8 * k) = false
    rw [isDevice_near hr (by omega), hdev]

/-- What a record queued again leaves. -/
theorem resumed_holds {a : List Acc} {v : State} {m : List Host.Cell} {e : CopyWait} (h1 : AtomicHome (s.withAccs a) u s.myCluster pa m)
    (h2 : Apart (s.withAccs a) u) (hco : CachesOnly u v) (pc : Word) :
    let t := ({ v.withCopy e with accs := [] } : State).retireTo pc
    (t.cluster s.myCluster).copyq = (s.cluster s.myCluster).copyq ++ [e] ∧ t.pc = pcOf pc ∧ t.me.g = s.me.g ∧ t.ownerOf pa = none ∧ t.mem = m ∧
      ∀ q, t.clWord s.myCluster q = v.clWord s.myCluster q := by
  obtain ⟨cl, hcl⟩ := hco.same
  obtain ⟨l', y, hk⟩ := hco.like s.myCluster
  have hvcur : v.cur = s.cur := by rw [hcl]; exact h1.cur
  have hvmy : v.myCluster = s.myCluster := congrArg clusterOf hvcur
  have hvctx : v.ctxs = s.ctxs := by rw [hcl]; exact h1.ctxs
  have hq := still_modCluster v v.myCluster (f := fun c => { c with copyq := c.copyq ++ [e] }) fun _ => rfl
  refine ⟨?_, by rw [State.pc, me_retireTo], ?_, ?_, ?_, fun q => hq.clWord _ _⟩
  · show ((v.withCopy e).cluster s.myCluster).copyq = _
    rw [State.withCopy, hvmy, cluster_modCluster_same]
    show (v.cluster s.myCluster).copyq ++ _ = _
    rw [hk, show (u.cluster s.myCluster).copyq = (s.cluster s.myCluster).copyq from (h2.cluster s.myCluster).copyq]
  · rw [me_retireTo]
    show v.me.g = s.me.g
    rw [State.me, State.me, State.ctx, State.ctx, hvctx, hvcur]
  · show v.ownerOf pa = none
    have : SameOwners u v := by rw [hcl]; exact ⟨fun _ => rfl, fun _ _ => rfl⟩
    rw [this.ownerOf, h1.owner]
  · show v.mem = m
    rw [hcl]
    exact h1.mem

/-- Settles O41. -/
theorem copiesEnterTheCopyQueue : Obligations.CopiesEnterTheCopyQueue := by
  intro s r d b l c pol sc rpa cpa w hf hd hr hm ho hlen hwait len phys ctl record holds store stores
  have h128 := record_aligned hr hm
  have hr8 : rpa % 8 = 0 := by omega
  have hrec : s.copyRecord pol sc (s.readG b) (s.readG d) (s.readG l) cpa = record := copyRecord_eq pol sc _ _ _ _
  have hplace := inPlace_record (xs := record) h128 hm.2.2 (show 16 ≤ 16 from le_rfl) ho
  have ho' := fun k hk => (ho k hk).1
  refine ⟨fun h0 hc => ?_, fun h0 h52 hc hs => ?_, fun h52 => ?_, fun h4 h5 => resume_idle hf hd hr hm ho' h4 h5,
    fun hst hown h42 h52 h6 h40 h7 h11 hcalm => ?_⟩
  · obtain ⟨a, ha⟩ := copy_retires hf hd hr hm (l := l) (b := b) (d := d) (sc := sc) hlen hwait (by rw [show (s.readG l).toNat = 0 from h0]; decide) hc
    have hend : (s.withAccs a).copyEnters rpa (s.copyRecord pol sc (s.readG b) (s.readG d) (s.readG l) cpa) (s.readG l).toNat sc (named (s.readG c) cpa) =
        (s.withAccs a).withStores s.myCore ((s.core s.myCore).sbuf ++ stores) := by
      unfold State.copyEnters
      rw [if_pos h0, hrec, storeWords_eq, recordStores_eq]
      rfl
    have hspot : SameSpot s ((s.withAccs a).withStores s.myCore ((s.core s.myCore).sbuf ++ stores)) :=
      (sameSpot_withAccs s a).trans (sameSpot_modCore _ _ (fun _ => rfl) (fun _ => rfl) fun _ => rfl)
    refine (ha _ hend hspot).trans ?_
    have hacc : ({ (s.withAccs a).withStores s.myCore ((s.core s.myCore).sbuf ++ stores) with accs := [] } : State) =
        s.modCore s.myCore (fun k => { k with sbuf := k.sbuf ++ stores }) := by
      have h0 : (s.modCore s.myCore (fun k => { k with sbuf := k.sbuf ++ stores })).accs = [] := hf.2.2
      exact accs_nil h0
    rw [hacc]
  · obtain ⟨a, ha⟩ := copy_retires hf hd hr hm (l := l) (b := b) (d := d) (sc := sc) hlen hwait h52 hc
    obtain ⟨t, h1, h2, h3, h4, h5, h6, h7⟩ := entered_record (a := a) (sc := sc) (ctr := named (s.readG c) cpa) hd hr8 hplace (by simp [record]) hwait hs
      (len := (s.readG l).toNat) (by show len ≠ 0; omega)
    rw [← hrec] at h1
    refine ⟨_, ha t h1 h2, ⟨by rw [State.pc, me_retireTo], ?_, h5, fun k hk => h6 k hk⟩, h7⟩
    rw [me_retireTo]
    show t.me.g = s.me.g
    rw [State.me, State.me, State.ctx, State.ctx, h3, h4]
  · refine runAct_traps hf.2.2 8 ?_
    rw [show decide (2 ^ 52 ≤ (s.readG l).toNat) = true from decide_eq_true h52]
    exact bind_error rfl
  · obtain ⟨a, u, h1, h2, h3⟩ := resume_queues hf hd hr hm ho' hlen hwait hst hown h42 h52 h6 h40 h7 h11 hcalm
    have hco : CachesOnly u (u.overwriteFrom s.myCluster rpa 7 [BitVec.ofNat 64 (placeOf s.cur), s.pc, 0, 0]) :=
      overwriteFrom_keeps (p := CachesOnly u) (fun _ _ _ h => h.trans (cachesOnly_overwrite ..)) _ _ _ (.refl u)
    have hwords := clWord_overwriteFrom_same (cl := s.myCluster) hr8 [BitVec.ofNat 64 (placeOf s.cur), s.pc, 0, 0] 7 u
    have h40w : wordOf (rpa + 40) = rpa + 40 := by unfold wordOf; omega
    have habs := clWord_overwriteFrom (cl := s.myCluster) (c := s.myCluster) (q := rpa + 40) hr8 [BitVec.ofNat 64 (placeOf s.cur), s.pc, 0, 0] 7 u
      fun j _ => by rw [h40w]; omega
    obtain ⟨f1, f2, f3, f4, f5, f6⟩ := resumed_holds (e := { rpa := rpa, cursor := (w 4).toNat }) h1 h2 hco (s.pc + 8)
    refine ⟨_, h3, f1, f2, f3, f4, ?_, ?_, fun y hy => ?_, ?_, ?_, ?_⟩
    · rw [f6, habs, h1.absent]
      rfl
    · refine Eq.trans (congrArg (fun m => memWord m (rpa + 40)) f5) ?_
      exact memWord_memPutWord (wf_memPutWord _ _ hcalm.memory) _ _
    · rw [f5, memByte_memPutWord (wf_memPutWord _ _ hcalm.memory) _ (by omega), memByte_memPutWord hcalm.memory _ (by omega)]
    · rw [f6]
      exact hwords 0 (show 0 < 4 by decide)
    · rw [f6]
      exact hwords 1 (show 1 < 4 by decide)
    · intro k hk
      rw [f6]
      simp only [List.mem_cons, List.not_mem_nil, or_false] at hk
      rcases hk with rfl | rfl
      · exact hwords 2 (show 2 < 4 by decide)
      · exact hwords 3 (show 3 < 4 by decide)

end Sys2Proof.Machine
end

section
/-! PROOFS. Tile stores (O45): the rows that they check and take, and what they leave in their engine's queues. -/

namespace Sys2Proof.Machine

variable {s t u : State} {e b : Nat} {pol : Pol}

/-! Checks. -/

theorem forM_still {ε β : Type} {f : β → EStateM ε State PUnit} : ∀ (l : List β), (∀ x ∈ l, f x s = .ok ⟨⟩ s) → l.forM f s = .ok ⟨⟩ s
  | [], _ => rfl
  | x :: l, h => by
    show (f x >>= fun _ => l.forM f) s = _
    rw [bind_ok (h x List.mem_cons_self)]
    exact forM_still l fun y hy => h y (List.mem_cons_of_mem _ hy)

theorem tagged_ok {α : Type} {m : Act α} {x : α} (h : m s = .ok x t) (w : Word) : tagged w m s = .ok x t := by
  unfold tagged
  rw [h]

/-- An item is aligned, and lies in one page of ordinary memory. -/
structure ItemAt (s : State) (pol : Pol) (i : Item) (pa : Nat) : Prop where
  pos : 0 < i.n
  aligned : i.va.toNat % 8 = 0
  reaches : Reaches1 s i.va i.n i.kind pol pa

theorem pages_ok {i : Item} {pa : Nat} (h : ItemAt s pol i pa) : i.pages pol s = .ok [(i.va, pa, i.n)] s := by
  obtain ⟨hn, -, hp, hm, -⟩ := h
  unfold Item.pages
  rw [pageStarts_one hn hp, List.mapM_cons, List.mapM_nil]
  have hv : BitVec.ofNat 64 i.va.toNat = i.va := by simp
  have hl : min (i.va.toNat + i.n - i.va.toNat) (4096 - i.va.toNat % 4096) = i.n := by omega
  dsimp only
  rw [hv, hl, bind_ok (a := (i.va, pa, i.n)) (t := s)]
  · rfl
  · rw [bind_ok (tagged_ok (xlate_maps hm) _)]
    rfl

/-- An item with the page in which it lies. -/
def Item.at (f : Item → Nat) (i : Item) : Item × List (Word × Nat × Nat) := (i, [(i.va, f i, i.n)])

theorem notes_ok : ∀ (l : List (Item × List (Word × Nat × Nat))) (s : State), ∃ a, l.forM (fun q => note q.1.va q.1.n (some pol) (q.1.kind != .write) (q.1.kind != .read)) s =
    .ok ⟨⟩ (s.withAccs a)
  | [], s => ⟨s.accs, rfl⟩
  | q :: l, s => by
    obtain ⟨a, h⟩ := notes_ok l (s.noted { va := q.1.va, n := q.1.n, pol := some pol, rd := q.1.kind != .write, wr := q.1.kind != .read, lane := 0, device := false })
    refine ⟨a, ?_⟩
    show (note q.1.va q.1.n (some pol) (q.1.kind != .write) (q.1.kind != .read) >>= fun _ => l.forM _) s = _
    rw [bind_ok (note_ok s _ _ _ _ _ _ _)]
    exact h

theorem checkItems_ok {items : List Item} {f : Item → Nat} (hs : Settled s) (h : ∀ i ∈ items, ItemAt s pol i (f i)) :
    ∃ a, checkItems items pol s = .ok (items.map (Item.at f)) (s.withAccs a) := by
  have hfind : items.find? (fun i => i.va.toNat % 8 != 0) = none := List.find?_eq_none.2 fun i hi => by simp [(h i hi).aligned]
  have hmap : (items.mapM (fun i => do
      let p ← i.pages pol
      pure (i, p)) : Act _) s = .ok (items.map (Item.at f)) s := by
    refine mapM_still items fun i hi => ?_
    rw [bind_ok (pages_ok (h i hi))]
    rfl
  have hdev : ((items.map (Item.at f)).forM (fun q => q.2.forM (fun p => tagged (q.1.word p.1) (notDevice p.1 p.2.1 q.1.kind (some pol)))) : Act PUnit) s = .ok ⟨⟩ s := by
    refine forM_still _ fun q hq => ?_
    obtain ⟨i, hi, rfl⟩ := List.mem_map.1 hq
    refine forM_still _ fun p hp => ?_
    obtain rfl := List.mem_singleton.1 hp
    exact tagged_ok (notDevice_ok (h i hi).reaches.2.2 _ _) _
  obtain ⟨a, ha⟩ := notes_ok (pol := pol) ((items.map (Item.at f)).filter (fun q => q.1.opnd ≤ 1)) s
  refine ⟨a, ?_⟩
  have hs' : Settled (s.withAccs a) := hs
  unfold checkItems
  rw [hfind]
  dsimp only
  rw [bind_ok hmap, bind_ok hdev, bind_ok ha, modify_bind]
  have hfold : (items.map (Item.at f)).foldl (fun s q => q.2.foldl (fun s p => s.waitOwn s.cur p.2.1 p.2.2) s) (s.withAccs a) = s.withAccs a := by
    refine foldl_id _ _ _ fun q hq => ?_
    refine foldl_id _ _ _ fun p _ => ?_
    exact waitOwn_settled hs' _ _
  rw [hfold]
  rfl

/-! Rows. -/

theorem rowItems_map {β : Type} (g : Item → β) (va : Word) (h : Shape) (width : Nat) (ws : Bool) (kind : AccessKind) :
    (rowItems va h width ws kind).map g = (List.range h.rows).flatMap (fun r => g { va := rowAddr va h r, n := width, opnd := 0, row := r, kind := kind } ::
      (if ws then [g { va := scaleAddr va h r, n := 16, opnd := 1, row := r, kind := kind }] else [])) := by
  unfold rowItems
  rw [List.map_flatMap]
  congr 1
  funext r
  rw [List.map_cons]
  cases ws <;> rfl

theorem mem_rowItems {va : Word} {h : Shape} {width : Nat} {ws : Bool} {kind : AccessKind} {i : Item} (hi : i ∈ rowItems va h width ws kind) :
    ∃ r < h.rows, i = { va := rowAddr va h r, n := width, opnd := 0, row := r, kind := kind } ∨
      (ws = true ∧ i = { va := scaleAddr va h r, n := 16, opnd := 1, row := r, kind := kind }) := by
  obtain ⟨r, hr, hm⟩ := List.mem_flatMap.1 hi
  refine ⟨r, List.mem_range.1 hr, ?_⟩
  rcases List.mem_cons.1 hm with h | h
  · exact .inl h
  · cases ws with
    | true => exact .inr ⟨rfl, List.mem_singleton.1 h⟩
    | false => cases h

/-- The physical address of an item: of a row, of a scale row, or of a version or counter. -/
def itemPa (pa qa : Nat → Nat) (xa : Nat) (i : Item) : Nat := if i.opnd = 0 then pa i.row else if i.opnd = 1 then qa i.row else xa

/-- The bytes that a tile register gives for an item. -/
def State.itemBytes (s : State) (e b : Nat) (t : TReg) (i : Item) : List (BitVec 8) :=
  match t with
  | .t n => if i.opnd = 0 then leBytes ((s.opTile e b n).row i.row).toNat 128 else leBytes ((s.opTile e b n).scaleRow i.row).toNat 16
  | .a n => leBytes (accStoreRow (accRow (s.accTile e b n) i.row)).1.toNat 256

theorem rowsOf_map (s : State) (e b : Nat) (t : TReg) (f : Item → Nat) (items : List Item) :
    (s.rowsOf e b t (items.map (Item.at f))).1 = items.map (fun i => (Item.at f i, s.itemBytes e b t i)) := by
  cases t with
  | t n =>
    show (items.map (Item.at f)).map _ = _
    rw [List.map_map]
    rfl
  | a n =>
    show ((items.map (Item.at f)).map _).map _ = _
    rw [List.map_map, List.map_map]
    rfl

/-! What a tile store leaves in its engine. -/

/-- The version or counter of a tile store. -/
def storeExtra (k : StoreKind) (x : Word) (counted : Bool) : List Item :=
  if k = .aon then [{ va := x, n := 8, opnd := 6, row := 255, kind := .atomic }]
  else if counted then [{ va := x, n := 8, opnd := 7, row := 255, kind := .atomic }] else []

/-- What a tile store finds at its checks. -/
structure StoreAt (s : State) (e b : Nat) (m : BitVec 3) (pol : Pol) (items : List Item) (f : Item → Nat) (need : Nat) : Prop where
  free : Free s
  drained : Drained s
  bound : BoundAt s e b
  rows : 0 < (shapeOf (s.readM m)).rows ∧ (shapeOf (s.readM m)).rows ≤ 64 ∧ (s.readM m).extractLsb' 7 25 = 0
  waiting : (s.engine e).waiting = []
  room : (s.engine e).storeEntries + need ≤ 256
  items : ∀ i ∈ items, ItemAt s pol i (f i)

theorem shape_ok {m : BitVec 3} (h : 0 < (shapeOf (s.readM m)).rows ∧ (shapeOf (s.readM m)).rows ≤ 64 ∧ (s.readM m).extractLsb' 7 25 = 0) :
    shape m s = .ok (shapeOf (s.readM m)) s := by
  obtain ⟨h1, h2, h3⟩ := h
  unfold shape
  rw [get_bind, decide_eq_false (by omega), decide_eq_false (by omega), h3]
  rfl

/-- The release that a tile store waits for first. -/
def State.storeWait (s : State) (k : StoreKind) (ord : Order) (sc : Scope) : State :=
  match k with
  | .put => s.releaseWait s.cur sc
  | .plain => s.waitRelease ord sc
  | .aon => s.releaseWait s.cur .clu

theorem storeWait_drained (h : Drained s) (k : StoreKind) (ord : Order) (sc : Scope) : s.storeWait k ord sc = s := by
  unfold State.storeWait
  cases k with
  | put => exact releaseWait_drained h sc
  | aon => exact releaseWait_drained h .clu
  | plain =>
    show s.waitRelease ord sc = s
    unfold State.waitRelease
    cases s.relOf ord sc with
    | none => rfl
    | some w => exact releaseWait_drained h w

/-- Whether a source is an accumulator. -/
def TReg.isAcc : TReg → Bool
  | .a _ => true
  | .t _ => false

/-- What a tile store does once its addresses are checked. -/
def storeRest (k : StoreKind) (lop : Nat) (r : TReg) (pol : Pol) (ord : Order) (sc : Scope) (x : Word) (counted : Bool) (e b : Nat) (rows : List Item)
    (qs : List (Item × List (Word × Nat × Nat))) (s : State) : Act Unit := do
  let xpa := if (storeExtra k x counted).isEmpty then none else (qs.getLast?.bind (fun q => q.2.head?)).map (fun p => p.2.1)
  if 256 < (s.engine e).storeEntries + (rows.length + (if k = .aon then 2 else 0)) || !isNext (s.engine e).waiting s.cur then do
    modify (fun s => s.modEngine e (fun x => { x with waiting := addParked x.waiting s.cur }))
    throw (.hold .engine)
  else pure ()
  let (out, g) := s.rowsOf e b r (qs.take rows.length)
  guarded (modify (fun s => ((s.storeWait k ord sc).queueStore e b k r pol ord sc out (xpa.getD 0) (if counted then xpa else none)).tileDone e lop g 1 false))

theorem tileStore_eq (k : StoreKind) (lop : Nat) (r : TReg) (m : BitVec 3) (base : Reg) (pol : Pol) (ord : Order) (sc : Scope) (x : Reg) (off : BitVec 27) :
    tileStore k lop r m base pol ord sc x off = (do
      let (e, b) ← bound
      let h ← shape m
      let s ← get
      let rows := rowItems (s.tileBase base off) h (if r.isAcc then 256 else 128) (!r.isAcc && h.plane) .write
      let qs ← checkItems (rows ++ storeExtra k (s.readG x) (k == .put && x != 0)) pol
      storeRest k lop r pol ord sc (s.readG x) (k == .put && x != 0) e b rows qs s) := by
  cases r <;> cases k <;> rfl

/-- What a tile store leaves, up to the records of its retirement. -/
def State.queuedRows (s : State) (e b : Nat) (k : StoreKind) (r : TReg) (pol : Pol) (ord : Order) (sc : Scope) (f : Item → Nat) (rows : List Item) (xpa : Nat)
    (ctr : Option Nat) : State :=
  s.queueStore e b k r pol ord sc (rows.map (fun i => (Item.at f i, s.itemBytes e b r i))) xpa ctr

section
variable {k : StoreKind} {lop : Nat} {r : TReg} {m : BitVec 3} {base x : Reg} {ord : Order} {sc : Scope} {off : BitVec 27} {f : Item → Nat}

/-- The physical address that the version or counter of a tile store gives. -/
theorem extra_pa {rows : List Item} {v : Word} {counted : Bool} {xa : Nat} (hx : ∀ i ∈ storeExtra k v counted, f i = xa) :
    (if (storeExtra k v counted).isEmpty then none else
      ((((rows ++ storeExtra k v counted).map (Item.at f)).getLast?.bind (fun q => q.2.head?)).map (fun p => p.2.1))) =
    if k = .aon ∨ counted = true then some xa else none := by
  unfold storeExtra at hx ⊢
  by_cases hk : k = .aon
  · simp only [hk, if_true, List.mem_singleton, forall_eq] at hx ⊢
    simp [Item.at, hx]
  · by_cases hc : counted = true
    · simp only [hk, hc, if_true, if_false, List.mem_singleton, forall_eq] at hx ⊢
      simp [Item.at, hx]
    · simp [hk, hc]

theorem tileStore_ok {rows : List Item} (hrows : rows = rowItems (s.tileBase base off) (shapeOf (s.readM m)) (if r.isAcc then 256 else 128)
      (!r.isAcc && (shapeOf (s.readM m)).plane) .write)
    (h : StoreAt s e b m pol (rows ++ storeExtra k (s.readG x) (k == .put && x != 0)) f (rows.length + (if k = .aon then 2 else 0)))
    {xa : Nat} (hx : ∀ i ∈ storeExtra k (s.readG x) (k == .put && x != 0), f i = xa) :
    ∃ a g, ∀ t, ((s.withAccs a).queuedRows e b k r pol ord sc f rows ((if k = .aon ∨ (k == .put && x != 0) = true then some xa else none).getD 0)
        (if (k == .put && x != 0) = true then (if k = .aon ∨ (k == .put && x != 0) = true then some xa else none) else none)).tileDone e lop g 1 false = t →
      SameSpot s t → tileStore k lop r m base pol ord sc x off s = .ok () t := by
  obtain ⟨hf, hd, hb, hrow, hwait, hroom, hat⟩ := h
  obtain ⟨a, ha⟩ := checkItems_ok hd.1 hat
  refine ⟨a, (s.rowsOf e b r (rows.map (Item.at f))).2, fun t ht hspot => ?_⟩
  have hd' : Drained (s.withAccs a) := hd
  have hfull : (256 < (s.engine e).storeEntries + (rows.length + (if k = .aon then 2 else 0)) || !isNext (s.engine e).waiting s.cur) = false := by
    rw [hwait, decide_eq_false (by omega)]
    rfl
  rw [tileStore_eq, bind_ok (bound_ok hb)]
  dsimp only
  rw [bind_ok (shape_ok hrow), get_bind, ← hrows, bind_ok ha]
  unfold storeRest
  dsimp only
  rw [extra_pa hx, hfull, if_neg (by decide)]
  have htake : ((rows ++ storeExtra k (s.readG x) (k == .put && x != 0)).map (Item.at f)).take rows.length = rows.map (Item.at f) := by
    rw [List.map_append, List.take_left' (by simp)]
  rw [htake]
  refine guarded_ok ?_ (hspot.free hf _)
  rw [modify_ok, storeWait_drained hd', rowsOf_map, ← ht]
  rfl

end

/-! Its queues. -/

theorem TileSame.sameSpot (h : TileSame e s t) : SameSpot s t := by
  have hc : ∀ k, t.core k = s.core k := fun k => by rw [State.core, State.core, h.cores]
  have hp : (t.ctx t.cur).pc = (s.ctx s.cur).pc := by
    show t.me.pc = s.me.pc
    rw [h.me]
  rw [h.cur] at hp
  exact ⟨h.cur, hp, by rw [hc], by rw [hc], by rw [hc]⟩

/-- The queues of an engine are the same. -/
def SameQueues (e : Nat) (s t : State) : Prop := (t.engine e).storeq = (s.engine e).storeq ∧ (t.engine e).puts = (s.engine e).puts

theorem SameQueues.trans (h : SameQueues e s t) (g : SameQueues e t u) : SameQueues e s u := ⟨g.1.trans h.1, g.2.trans h.2⟩

theorem Noted.sameQueues (h : Noted s t) (e : Nat) : SameQueues e s t := by
  obtain ⟨_, _, _, _, rfl⟩ := h
  exact ⟨rfl, rfl⟩

theorem queues_tileDone (s : State) (e lop : Nat) (g : BitVec 5) (nj : Nat) (held : Bool) : SameQueues e s (s.tileDone e lop g nj held) := by
  have hr : SameQueues e s (s.raise g) := ⟨rfl, rfl⟩
  obtain ⟨u, hu, h | h⟩ := tileDone_noted s e lop g nj held
  · exact (hr.trans (hu.sameQueues e)).trans (h.sameQueues e)
  · have hm : SameQueues e u (u.modEngine e (fun x => x.forget u.cur)) := by
      unfold SameQueues
      rw [engine_modEngine_same]
      exact ⟨rfl, rfl⟩
    exact ((hr.trans (hu.sameQueues e)).trans hm).trans (h.sameQueues e)

theorem tiles_queues (s : State) {f : Engine → Engine} (h : ∀ x : Engine, ∃ q p, f x = { x with storeq := q, puts := p }) : TileSame e s (s.modEngine e f) := by
  obtain ⟨q, p, hq⟩ := h (s.engine e)
  exact tiles_modEngine s (fun j => by rw [hq]; rfl) (fun j => by rw [hq]; rfl) (by rw [hq]) (by rw [hq])

theorem TileSame.withSeq (h : TileSame e s t) (n : Nat) : TileSame e s { t with seq := n } :=
  ⟨h.cur, h.me, h.mem, h.cores, h.accs, h.macc, h.mopd, h.acc, h.opd⟩

theorem tiles_queuedRows (hd : Drained s) (k : StoreKind) (r : TReg) (ord : Order) (sc : Scope) (f : Item → Nat) (rows : List Item) (xpa : Nat)
    (ctr : Option Nat) : TileSame e s (s.queuedRows e b k r pol ord sc f rows xpa ctr) := by
  unfold State.queuedRows State.queueStore
  dsimp only
  cases k with
  | plain => exact tiles_queues s fun x => ⟨_, _, rfl⟩
  | aon => exact tiles_queues s fun x => ⟨_, _, rfl⟩
  | put =>
    dsimp only
    rw [drainPieces_unbuffered (a := s.agent) hd.unbuffered]
    exact (tiles_queues s fun x => ⟨_, _, rfl⟩).withSeq _

/-- A tile store that finds its addresses and its places retires (R237). -/
theorem tileStore_retires {k : StoreKind} {lop : Nat} {r : TReg} {m : BitVec 3} {base x : Reg} {ord : Order} {sc : Scope} {off : BitVec 27} {f : Item → Nat}
    {rows : List Item} (hrows : rows = rowItems (s.tileBase base off) (shapeOf (s.readM m)) (if r.isAcc then 256 else 128)
      (!r.isAcc && (shapeOf (s.readM m)).plane) .write)
    (h : StoreAt s e b m pol (rows ++ storeExtra k (s.readG x) (k == .put && x != 0)) f (rows.length + (if k = .aon then 2 else 0)))
    {xa : Nat} (hx : ∀ i ∈ storeExtra k (s.readG x) (k == .put && x != 0), f i = xa) {i : Instr} (hi : exec i s = runAct s 8 (tileStore k lop r m base pol ord sc x off)) :
    ∃ t, exec i s = .next t ∧ t.pc = pcOf (s.pc + 8) ∧ t.me.g = s.me.g ∧ t.mem = s.mem ∧
      SameQueues e (s.queuedRows e b k r pol ord sc f rows ((if k = .aon ∨ (k == .put && x != 0) = true then some xa else none).getD 0)
        (if (k == .put && x != 0) = true then (if k = .aon ∨ (k == .put && x != 0) = true then some xa else none) else none)) t ∧
      ∀ j, t.opTile e b j = s.opTile e b j := by
  obtain ⟨a, g, hrun⟩ := tileStore_ok (lop := lop) (ord := ord) (sc := sc) hrows h hx
  have hd' : Drained (s.withAccs a) := h.drained
  have hq := tiles_queuedRows (e := e) (b := b) (pol := pol) hd' k r ord sc f rows ((if k = .aon ∨ (k == .put && x != 0) = true then some xa else none).getD 0)
    (if (k == .put && x != 0) = true then (if k = .aon ∨ (k == .put && x != 0) = true then some xa else none) else none)
  have hsame : SameQueues e (s.queuedRows e b k r pol ord sc f rows ((if k = .aon ∨ (k == .put && x != 0) = true then some xa else none).getD 0)
        (if (k == .put && x != 0) = true then (if k = .aon ∨ (k == .put && x != 0) = true then some xa else none) else none))
      ((s.withAccs a).queuedRows e b k r pol ord sc f rows ((if k = .aon ∨ (k == .put && x != 0) = true then some xa else none).getD 0)
        (if (k == .put && x != 0) = true then (if k = .aon ∨ (k == .put && x != 0) = true then some xa else none) else none)) := by
    unfold State.queuedRows State.queueStore
    dsimp only
    cases k with
    | plain => exact ⟨rfl, rfl⟩
    | aon => exact ⟨rfl, rfl⟩
    | put =>
      dsimp only
      rw [drainPieces_unbuffered (a := s.agent) h.drained.unbuffered, drainPieces_unbuffered (a := (s.withAccs a).agent) hd'.unbuffered]
      exact ⟨rfl, rfl⟩
  generalize (s.withAccs a).queuedRows e b k r pol ord sc f rows ((if k = .aon ∨ (k == .put && x != 0) = true then some xa else none).getD 0)
        (if (k == .put && x != 0) = true then (if k = .aon ∨ (k == .put && x != 0) = true then some xa else none) else none) = u at hrun hq hsame
  have ht := tiles_tileDone u e lop g 1 false
  have hspot : SameSpot s (u.tileDone e lop g 1 false) :=
    ((sameSpot_withAccs s a).trans hq.sameSpot).trans ((sameSpot_modMe u rfl).trans ht.sameSpot)
  have hqs := hsame.trans (queues_tileDone u e lop g 1 false)
  have hr := runAct_retires h.free 8 (hrun _ rfl hspot) hspot
  generalize u.tileDone e lop g 1 false = v at hr ht hqs
  refine ⟨_, hi.trans hr, by rw [State.pc, me_retireTo]; rfl, ?_, ht.mem.trans hq.mem, hqs, fun j => (ht.opTile b j).trans (hq.opTile b j)⟩
  rw [me_retireTo]
  show v.me.g = s.me.g
  rw [ht.me, State.raise, me_modMe, hq.me]
  rfl

/-! The entries of each kind of store. -/

/-- An entry that a tile store leaves in its engine's queue. -/
def State.tileEntry (s : State) (e b : Nat) (pol : Pol) (ord : Order) (sc : Scope) (rel : Option Scope) (r : TReg) (step : DrainStep) : TileDrain :=
  { ctx := s.cur, tcb := s.me.tcb, tno := s.me.tno, pc := s.pc, pol := pol, scope := (s.relOf ord sc).getD .ctx, rel := rel,
    held := some ((s.binding e b).map r), step := step }

theorem itemBytes_length {va : Word} {h : Shape} {r : TReg} {i : Item} (hi : i ∈ rowItems va h (if r.isAcc then 256 else 128) (!r.isAcc && h.plane) .write) :
    (s.itemBytes e b r i).length = i.n := by
  obtain ⟨j, -, rfl | ⟨hw, rfl⟩⟩ := mem_rowItems hi
  · cases r with
    | t n => exact leBytes_length _ _
    | a n => exact leBytes_length _ _
  · cases r with
    | t n => exact leBytes_length _ _
    | a n => cases hw

theorem engine_withSeq (t : State) (n e : Nat) : ({ t with seq := n } : State).engine e = t.engine e := rfl

section
variable {r : TReg} {f : Item → Nat} {rows : List Item} (hl : ∀ i ∈ rows, (s.itemBytes e b r i).length = i.n)
include hl

theorem rowEntries_eq (rel : Option Scope) (ord : Order) (sc : Scope) :
    (rows.map (fun i => (Item.at f i, s.itemBytes e b r i))).map (fun q => s.tileEntry e b pol ord sc rel r (.row (partPieces q.1.2 q.2))) =
      (rows.map (fun i => (f i, s.itemBytes e b r i))).map (fun q => s.tileEntry e b pol ord sc rel r (.row [{ pa := q.1, bytes := q.2 }])) := by
  rw [List.map_map, List.map_map]
  refine List.map_congr_left fun i hi => ?_
  show s.tileEntry e b pol ord sc rel r (.row [{ pa := f i, bytes := (s.itemBytes e b r i).take i.n }]) = _
  rw [List.take_of_length_le (by rw [hl i hi])]
  rfl

theorem storeq_plain (ord : Order) (sc : Scope) (xpa : Nat) (ctr : Option Nat) :
    ((s.queuedRows e b .plain r pol ord sc f rows xpa ctr).engine e).storeq = (s.engine e).storeq ++
      ((if s.relOf ord sc = none then [] else [s.tileEntry e b pol ord sc (s.relOf ord sc) r .release]) ++
        (rows.map (fun i => (f i, s.itemBytes e b r i))).map (fun q => s.tileEntry e b pol ord sc (s.relOf ord sc) r (.row [{ pa := q.1, bytes := q.2 }]))) := by
  rw [← rowEntries_eq hl, ← List.append_assoc]
  unfold State.queuedRows State.queueStore State.tileEntry
  dsimp only
  rw [engine_modEngine_same]
  cases s.relOf ord sc with
  | none => rfl
  | some w => rfl

theorem storeq_aon (ord : Order) (sc : Scope) (xpa : Nat) (ctr : Option Nat) :
    ((s.queuedRows e b .aon r pol ord sc f rows xpa ctr).engine e).storeq = (s.engine e).storeq ++
      ([s.tileEntry e b pol ord sc none r .release, s.tileEntry e b pol ord sc none r (.version xpa)] ++
        (rows.map (fun i => (f i, s.itemBytes e b r i))).map (fun q => s.tileEntry e b pol ord sc none r (.row [{ pa := q.1, bytes := q.2 }])) ++
        [s.tileEntry e b pol ord sc none r (.version xpa)]) := by
  rw [← rowEntries_eq hl, ← List.append_assoc, ← List.append_assoc]
  unfold State.queuedRows State.queueStore
  dsimp only
  rw [engine_modEngine_same]
  rfl

theorem puts_put (hd : Drained s) (ord : Order) (sc : Scope) (xpa : Nat) (ctr : Option Nat) :
    ∃ ps : List (List Piece), ps.length = (rows.map (fun i => (f i, s.itemBytes e b r i))).length ∧
      (∀ k q, (rows.map (fun i => (f i, s.itemBytes e b r i)))[k]? = some q → PiecesAre (ps.getD k []) q.1 q.2) ∧
      ((s.queuedRows e b .put r pol ord sc f rows xpa ctr).engine e).puts = (s.engine e).puts ++ ps.zipIdx.map (fun q => {
        id := s.seq + q.2, binding := b, origin := s.cur, tno := s.me.tno, pc := s.pc, pol := pol, scope := sc, ctr := ctr,
        held := some ((s.binding e b).map r), pieces := q.1, unacked := 0, pending := 0 }) := by
  refine ⟨(rows.map (fun i => (Item.at f i, s.itemBytes e b r i))).map (fun r => piecesOf r.1.2 r.2), by simp, fun k q hk => ?_, ?_⟩
  · rw [List.getElem?_map] at hk
    cases hr : rows[k]? with
    | none => rw [hr] at hk; cases hk
    | some i =>
      rw [hr] at hk
      cases hk
      rw [List.map_map, List.getD_eq_getElem?_getD, List.getElem?_map, hr]
      exact piecesOf_one (va := i.va) (hl i (List.mem_of_getElem? hr))
  · unfold State.queuedRows State.queueStore
    dsimp only
    rw [drainPieces_unbuffered (a := s.agent) hd.unbuffered]
    exact (congrArg Engine.puts ((engine_withSeq _ _ e).trans (engine_modEngine_same s e _))).trans rfl

end

theorem opdRows_eq {pa qa : Nat → Nat} {xa : Nat} {va : Word} {h : Shape} {d : BitVec 3} :
    (rowItems va h 128 h.plane .write).map (fun i => (itemPa pa qa xa i, s.itemBytes e b (.t d) i)) =
      (List.range h.rows).flatMap (fun r => (pa r, leBytes ((s.opTile e b d).row r).toNat 128) ::
        (if h.plane then [(qa r, leBytes ((s.opTile e b d).scaleRow r).toNat 16)] else [])) := by
  rw [rowItems_map]
  rfl

theorem accRows_eq {pa qa : Nat → Nat} {xa : Nat} {va : Word} {h : Shape} {n : BitVec 2} :
    (rowItems va h 256 false .write).map (fun i => (itemPa pa qa xa i, s.itemBytes e b (.a n) i)) =
      (List.range h.rows).map (fun r => (pa r, leBytes (accStoreRow (accRow (s.accTile e b n) r)).1.toNat 256)) := by
  rw [rowItems_map, List.map_eq_flatMap]
  rfl

/-- What the checks of a tile store find, by the predicates of the statement. -/
theorem items_at {pa qa : Nat → Nat} {xa : Nat} {m : BitVec 3} {va : Word} {width : Nat} {ws : Bool} (hw : 0 < width) (hr : RowsAt s m va width .write pol pa)
    (hs : ws = true → ScalesAt s m va .write pol qa) {k : StoreKind} {x : Word} (hx : x.toNat % 8 = 0) (hxr : Reaches1 s x 8 .atomic pol xa) (counted : Bool) :
    ∀ i ∈ rowItems va (shapeOf (s.readM m)) width ws .write ++ storeExtra k x counted, ItemAt s pol i (itemPa pa qa xa i) := by
  intro i hi
  obtain ⟨-, -, -, hrows⟩ := hr
  rcases List.mem_append.1 hi with hi | hi
  · obtain ⟨r, hlt, rfl | ⟨hws, rfl⟩⟩ := mem_rowItems hi
    · obtain ⟨h1, h2⟩ := hrows r hlt
      exact ⟨hw, h1, h2⟩
    · obtain ⟨h1, h2⟩ := hs hws r hlt
      exact ⟨show 0 < 16 by decide, h1, h2⟩
  · unfold storeExtra at hi
    split at hi
    · obtain rfl := List.mem_singleton.1 hi
      exact ⟨show 0 < 8 by decide, hx, hxr⟩
    · split at hi
      · obtain rfl := List.mem_singleton.1 hi
        exact ⟨show 0 < 8 by decide, hx, hxr⟩
      · cases hi

theorem extra_itemPa {pa qa : Nat → Nat} {xa : Nat} {k : StoreKind} {x : Word} {counted : Bool} : ∀ i ∈ storeExtra k x counted, itemPa pa qa xa i = xa := by
  intro i hi
  unfold storeExtra at hi
  split at hi
  · obtain rfl := List.mem_singleton.1 hi
    rfl
  · split at hi
    · obtain rfl := List.mem_singleton.1 hi
      rfl
    · cases hi

section
variable {r : TReg} {m : BitVec 3} {base x : Reg} {ord : Order} {sc : Scope} {off : BitVec 27} {f : Item → Nat} {rows : List Item}
  (hrows : rows = rowItems (s.tileBase base off) (shapeOf (s.readM m)) (if r.isAcc then 256 else 128) (!r.isAcc && (shapeOf (s.readM m)).plane) .write)
include hrows

theorem plain_stores (lop : Nat) (h : StoreAt s e b m pol (rows ++ storeExtra .plain (s.readG 0) false) f rows.length) {i : Instr}
    (hi : exec i s = runAct s 8 (tileStore .plain lop r m base pol ord sc 0 off)) :
    ∃ t, exec i s = .next t ∧ t.pc = pcOf (s.pc + 8) ∧ t.me.g = s.me.g ∧ t.mem = s.mem ∧ (t.engine e).storeq = (s.engine e).storeq ++
      ((if s.relOf ord sc = none then [] else [s.tileEntry e b pol ord sc (s.relOf ord sc) r .release]) ++
        (rows.map (fun i => (f i, s.itemBytes e b r i))).map (fun q => s.tileEntry e b pol ord sc (s.relOf ord sc) r (.row [{ pa := q.1, bytes := q.2 }]))) ∧
      ∀ k, t.opTile e b k = s.opTile e b k := by
  obtain ⟨t, h1, h2, h3, h4, h5, h6⟩ := tileStore_retires (k := .plain) (x := 0) (xa := 0) hrows h (fun i hi => by cases hi) hi
  exact ⟨t, h1, h2, h3, h4, h5.1.trans (storeq_plain (fun i hi => itemBytes_length (hrows ▸ hi)) ord sc _ _), h6⟩

theorem aon_stores {xa : Nat} (h : StoreAt s e b m pol (rows ++ storeExtra .aon (s.readG x) false) f (rows.length + 2))
    (hx : ∀ i ∈ storeExtra .aon (s.readG x) false, f i = xa) :
    ∃ t, exec (.tstoreAon r m base pol ord sc x off) s = .next t ∧ t.pc = pcOf (s.pc + 8) ∧ t.me.g = s.me.g ∧ t.mem = s.mem ∧ (t.engine e).storeq = (s.engine e).storeq ++
      ([s.tileEntry e b pol ord sc none r .release, s.tileEntry e b pol ord sc none r (.version xa)] ++
        (rows.map (fun i => (f i, s.itemBytes e b r i))).map (fun q => s.tileEntry e b pol ord sc none r (.row [{ pa := q.1, bytes := q.2 }])) ++
        [s.tileEntry e b pol ord sc none r (.version xa)]) ∧
      ∀ k, t.opTile e b k = s.opTile e b k := by
  obtain ⟨t, h1, h2, h3, h4, h5, h6⟩ := tileStore_retires (k := .aon) (lop := 4) (ord := ord) (sc := sc) hrows h hx (i := .tstoreAon r m base pol ord sc x off) rfl
  exact ⟨t, h1, h2, h3, h4, h5.1.trans (storeq_aon (fun i hi => itemBytes_length (hrows ▸ hi)) ord sc _ _), h6⟩

theorem put_stores {xa : Nat} (h : StoreAt s e b m pol (rows ++ storeExtra .put (s.readG x) (x != 0)) f rows.length)
    (hx : ∀ i ∈ storeExtra .put (s.readG x) (x != 0), f i = xa) :
    ∃ (t : State) (ps : List (List Piece)), exec (.putT r m base pol sc x off) s = .next t ∧ t.pc = pcOf (s.pc + 8) ∧ t.me.g = s.me.g ∧ t.mem = s.mem ∧
      ps.length = (rows.map (fun i => (f i, s.itemBytes e b r i))).length ∧
      (∀ k q, (rows.map (fun i => (f i, s.itemBytes e b r i)))[k]? = some q → PiecesAre (ps.getD k []) q.1 q.2) ∧
      (t.engine e).puts = (s.engine e).puts ++ ps.zipIdx.map (fun q => {
        id := s.seq + q.2, binding := b, origin := s.cur, tno := s.me.tno, pc := s.pc, pol := pol, scope := sc,
        ctr := if x = 0 then none else some xa, held := some ((s.binding e b).map r), pieces := q.1, unacked := 0, pending := 0 }) := by
  obtain ⟨t, h1, h2, h3, h4, h5, -⟩ := tileStore_retires (k := .put) (lop := 19) (ord := .plain) (sc := sc) hrows h hx (i := .putT r m base pol sc x off) rfl
  obtain ⟨ps, p1, p2, p3⟩ := puts_put (s := s) (e := e) (b := b) (pol := pol) (r := r) (f := f) (rows := rows) (fun i hi => itemBytes_length (hrows ▸ hi)) h.drained .plain sc
    ((if StoreKind.put = .aon ∨ (StoreKind.put == .put && x != 0) = true then some xa else none).getD 0)
    (if (StoreKind.put == .put && x != 0) = true then (if StoreKind.put = .aon ∨ (StoreKind.put == .put && x != 0) = true then some xa else none) else none)
  refine ⟨t, ps, h1, h2, h3, h4, p1, p2, h5.2.trans (p3.trans ?_)⟩
  have hc : (if (StoreKind.put == .put && x != 0) = true then (if StoreKind.put = .aon ∨ (StoreKind.put == .put && x != 0) = true then some xa else none) else none) =
      if x = 0 then none else some xa := by
    by_cases e : x = 0
    · subst e
      rfl
    · have hne : (StoreKind.put == .put && x != 0) = true := by simpa using e
      rw [if_pos hne, if_pos (.inr hne), if_neg e]
  rw [hc]

end

/-- Settles O45: a tile store checks and reads its rows, waits for its release, and leaves them in its engine's queue. -/
theorem tileStores : Obligations.TileStores := by
  intro s e b d m a base x pol ord sc off pa qa xa hf hd hb va h hwait hx hxr opd acc made rowsOf plain versioned stores puts
  refine ⟨fun hr hs hroom => ?_, fun hr hroom => ?_⟩
  · have ho : (rowItems (s.tileBase base off) h 128 h.plane .write).map (fun i => (itemPa pa qa xa i, s.itemBytes e b (.t d) i)) = opd := opdRows_eq
    have hlen : (rowItems (s.tileBase base off) h 128 h.plane .write).length = opd.length := by rw [← ho, List.length_map]
    have hat : ∀ (k : StoreKind) (c : Bool) (n : Nat), n ≤ opd.length + 2 →
        StoreAt s e b m pol (rowItems (s.tileBase base off) h 128 h.plane .write ++ storeExtra k (s.readG x) c) (itemPa pa qa xa) n := fun k c n hn =>
      ⟨hf, hd, hb, ⟨hr.1, hr.2.1, hr.2.2.1⟩, hwait, by omega, items_at (by decide) hr hs hx hxr c⟩
    refine ⟨?_, ?_, ?_⟩
    · obtain ⟨t, ht⟩ := plain_stores (r := .t d) (rows := rowItems (s.tileBase base off) h 128 h.plane .write) (base := base) (off := off) (ord := ord) (sc := sc) rfl 3 (hat .plain false _ (by omega)) (i := .tstore d m base pol ord sc off) rfl
      rw [ho] at ht
      exact ⟨t, ht⟩
    · obtain ⟨t, ht⟩ := aon_stores (r := .t d) (rows := rowItems (s.tileBase base off) h 128 h.plane .write) (base := base) (off := off) (ord := ord) (sc := sc) rfl (hat .aon false _ (by omega)) extra_itemPa
      rw [ho] at ht
      exact ⟨t, ht⟩
    · obtain ⟨t, ps, ht⟩ := put_stores (r := .t d) (rows := rowItems (s.tileBase base off) h 128 h.plane .write) (base := base) (off := off) (sc := sc) rfl (hat .put (x != 0) _ (by omega)) extra_itemPa
      rw [ho] at ht
      exact ⟨t, ps, ht⟩
  · have ho : (rowItems (s.tileBase base off) h 256 false .write).map (fun i => (itemPa pa qa xa i, s.itemBytes e b (.a a) i)) = acc := accRows_eq
    have hlen : (rowItems (s.tileBase base off) h 256 false .write).length = acc.length := by rw [← ho, List.length_map]
    have hat : ∀ (k : StoreKind) (c : Bool) (n : Nat), n ≤ acc.length + 2 →
        StoreAt s e b m pol (rowItems (s.tileBase base off) h 256 false .write ++ storeExtra k (s.readG x) c) (itemPa pa qa xa) n := fun k c n hn =>
      ⟨hf, hd, hb, ⟨hr.1, hr.2.1, hr.2.2.1⟩, hwait, by omega, items_at (by decide) hr (fun h => by cases h) hx hxr c⟩
    refine ⟨?_, ?_, ?_⟩
    · obtain ⟨t, ht⟩ := plain_stores (r := .a a) (rows := rowItems (s.tileBase base off) h 256 false .write) (base := base) (off := off) (ord := ord) (sc := sc) rfl 5 (hat .plain false _ (by omega)) (i := .tstorea a m base pol ord sc off) rfl
      rw [ho] at ht
      exact ⟨t, ht⟩
    · obtain ⟨t, ht⟩ := aon_stores (r := .a a) (rows := rowItems (s.tileBase base off) h 256 false .write) (base := base) (off := off) (ord := ord) (sc := sc) rfl (hat .aon false _ (by omega)) extra_itemPa
      rw [ho] at ht
      exact ⟨t, ht⟩
    · obtain ⟨t, ps, ht⟩ := put_stores (r := .a a) (rows := rowItems (s.tileBase base off) h 256 false .write) (base := base) (off := off) (sc := sc) rfl (hat .put (x != 0) _ (by omega)) extra_itemPa
      rw [ho] at ht
      exact ⟨t, ps, ht⟩

end Sys2Proof.Machine
end

section
/-! PROOFS. Entries of directories out of the order of their keys, and a proxy home whose sets are those of the home itself (O53). -/

namespace Sys2Proof.Machine

/-- A line of socket 0, as the model numbers an address from 2^52, which it names as one below. -/
def aliasedLine : Nat := 7 * 2 ^ 52 + 0x8000

/-- A line's entry with a cluster that shares it. -/
def sharedBy (sharer : Nat) : DirEntry := { DirEntry.absent with sharers := [sharer], stamp := 1 }

/-- A port of a coherent link to a socket. -/
def coherentTo (peer : BitVec 3) : FabPort := { mode := 1, peer := peer, up := true, lretry := false }

/-- A line whose first word cluster 64 owns. Its entry, and that of the proxy home, stand behind ones of greater keys; all entries are of
one set. -/
def aliased : State := { State.reset with
  fuses := [(0, Fuses.full), (1, Fuses.full), (9, Fuses.full)]
  pkgs := [(0, { Package.init with ports := [(0, coherentTo 1)] }), (9, { Package.init with ports := [(0, coherentTo 0)] })]
  clusters := [(64, { Cluster.init with clc := [(aliasedLine, { CacheLine.absent with words := [(0, { CacheWord.absent with st := .o })] })] })]
  dir := (20 * 2 ^ 52 + 0x8000, sharedBy 1) :: (aliasedLine, { DirEntry.absent with owners := [(0, 65)] }) ::
    (List.range 10).map (fun k => ((21 + k) * 2 ^ 52 + 0x8000, sharedBy 1))
  proxies := [(proxyKey 33 aliasedLine, sharedBy 1), (proxyKey 1 aliasedLine, { DirEntry.absent with owners := [(0, 0)], stamp := 1 })] }

/-- A read of the line's first word by cluster 576. -/
def aliasedRead : Req := { Req.table .rdT aliasedLine with words := 1, src := some 576 }

/-- Refutes O53: a tracked read downgrades the word's owner, whose entries then stand twice, before and behind the greater keys, and fill
the set in which the reader's entry is wanted; the eviction for it invalidates the owner's copy. -/
theorem not_homesServeRequests : ¬ Obligations.HomesServeRequests := by
  intro h
  obtain ⟨⟨t, ht, -, -, hkept, -⟩, -⟩ := h.2 aliased aliasedRead 0 576 64 0 (by decide) (by decide) (by decide) rfl (by decide) rfl rfl rfl
    (by decide +kernel) (by decide +kernel) rfl (by decide +kernel) (by decide) rfl (by decide +kernel) (by decide +kernel) (by decide +kernel) (by decide +kernel)
    (by decide +kernel) (by decide +kernel) (by decide +kernel)
  have hrun : wordStateAfter (exec (.homeRdt aliasedRead) aliased) 64 (aliasedRead.line + 8 * 0) = .i := by decide +kernel
  rw [ht, wordStateAfter_next] at hrun
  rw [hrun] at hkept
  exact absurd hkept (by decide)

end Sys2Proof.Machine
end

section
/-! PROOFS. The puts of a cluster and of an engine on their way, and messages that enter their queues (the first parts of O51). -/

namespace Sys2Proof.Machine

variable {s : State} {cl e : Nat}

/-! Turns. -/

/-- The first element from a turn on, or the first of all: what a list of ascending numbers has next (R290, R291). -/
theorem turn_least {α : Type} {l : List α} {id : α → Nat} {q : α → Bool} {n : Nat} {z : α}
    (hz : (l.find? (fun e => q e && decide (n ≤ id e))).or (l.find? q) = some z) :
    z ∈ l ∧ q z = true ∧ ((l.map id).Pairwise (· < ·) → ∀ y ∈ l, q y = true →
      (n ≤ id y → n ≤ id z ∧ id z ≤ id y) ∧ ((∀ w ∈ l, q w = true → id w < n) → id z ≤ id y)) := by
  have least : ∀ {p : α → Bool} {z y : α}, l.find? p = some z → (l.map id).Pairwise (· < ·) → y ∈ l → p y = true → id z ≤ id y := by
    intro p z y hf hs hy hp
    obtain ⟨-, as, bs, rfl, has⟩ := List.find?_eq_some_iff_append.1 hf
    rcases List.mem_append.1 hy with h | h
    · exact absurd hp (by simpa using has y h)
    · rcases List.mem_cons.1 h with rfl | h
      · exact le_rfl
      · rw [List.map_append, List.pairwise_append, List.map_cons, List.pairwise_cons] at hs
        exact (hs.2.1.1 _ (List.mem_map_of_mem h)).le
  cases hf : l.find? (fun e => q e && decide (n ≤ id e)) with
  | some w =>
    rw [hf] at hz
    cases hz
    have hw := List.find?_some hf
    simp only [Bool.and_eq_true, decide_eq_true_eq] at hw
    obtain ⟨hq, hn⟩ := hw
    refine ⟨List.mem_of_find?_eq_some hf, hq, fun hs y hy hqy => ⟨fun hny => ⟨hn, least hf hs hy (by simp [hqy, hny])⟩, fun hall => ?_⟩⟩
    exact absurd (hall z (List.mem_of_find?_eq_some hf) hq) (by omega)
  | none =>
    rw [hf] at hz
    have hz' : l.find? q = some z := hz
    refine ⟨List.mem_of_find?_eq_some hz', List.find?_some hz', fun hs y hy hqy => ⟨fun hny => ?_, fun _ => least hz' hs hy hqy⟩⟩
    exact absurd (List.find?_eq_none.1 hf y hy) (by simp [hqy, hny])

theorem turn_some {α : Type} {l : List α} {q p : α → Bool} {y : α} (hy : y ∈ l) (hq : q y = true) : ((l.find? p).or (l.find? q)).isSome = true := by
  have h : (l.find? q).isSome = true := List.find?_isSome.2 ⟨y, hy, hq⟩
  cases l.find? p with
  | some w => rfl
  | none => exact h

/-! Puts. -/

/-- The message of a unit of a cluster that waits at its port. -/
def State.waitingFlight (s : State) (c unit sub : Nat) (r : Req) : Flight :=
  { place := .waiting unit, sub := sub, classA := false, cm := false, port := portAt c r.line, slice := sliceOf (s.entryHome (c / 64) r.line), req := r, served := none, far := none }

theorem waitingFlight_congr {t : State} (h : t.fuses = s.fuses) (c unit sub : Nat) (r : Req) : t.waitingFlight c unit sub r = s.waitingFlight c unit sub r := by
  unfold State.waitingFlight State.entryHome
  rw [homeOf_congr h, homeOf_congr h]

theorem send_eq (s : State) (c unit sub : Nat) {r : Req} (hr : r.kind ≠ .wb) : s.send c unit sub r none = { s with flights := s.flights ++ [s.waitingFlight c unit sub r] } := by
  unfold State.send State.waitingFlight
  rw [beq_false_of_ne hr]

theorem send_from {t : State} (hu : t.fuses = s.fuses) (hf : t.flights = s.flights) (c unit sub : Nat) {r : Req} (hr : r.kind ≠ .wb) :
    t.send c unit sub r none = { t with flights := s.flights ++ [s.waitingFlight c unit sub r] } := by
  rw [send_eq t c unit sub hr, waitingFlight_congr hu, hf]

theorem bufferBytes_eq (ps : List Piece) : bufferBytes ps = ((ps.map (fun q => q.bytes.length)).sum + 63) / 64 * 64 := by
  unfold bufferBytes
  rw [List.sum_eq_foldl]

/-- A put whose line has been sent. -/
def PutEntry.sent (z : PutEntry) (ps : List Piece) : PutEntry :=
  { z with pieces := ps, pending := z.pending + 1, size := ((ps.map (fun q => q.bytes.length)).sum + 63) / 64 * 64 }

/-- A put's line is sent (R290). -/
theorem putSend_eq {z : PutEntry} {p : Piece} {ps : List Piece} (hz : (s.cluster cl).nextPut = some z) (hp : z.pieces = p :: ps) :
    s.putSend cl = { s.modCluster cl (fun k => { k with putq := (s.cluster cl).putq.map (fun y => if y.id = z.id then z.sent ps else y), putTurn := z.id + 1 }) with
      flights := s.flights ++ [s.waitingFlight cl 14 0 (Req.piece (z.agent cl) z.kind p (z.ctr.getD 0) (.put cl z.id))] } := by
  unfold State.putSend
  simp only [hz, hp]
  refine (send_from (s := s) ?_ ?_ _ _ _ ?_).trans ?_
  · rfl
  · rfl
  · exact show ReqKind.putLine ≠ .wb by decide
  · refine congrArg (fun u : State => { u with flights := s.flights ++ [s.waitingFlight cl 14 0 (Req.piece (z.agent cl) z.kind p (z.ctr.getD 0) (.put cl z.id))] })
      (modCluster_congr s cl ?_)
    rw [bufferBytes_eq]
    rfl

theorem nextPut_none (h : ∀ z ∈ (s.cluster cl).putq, z.pieces = []) : s.putSend cl = s := by
  have hn : (s.cluster cl).nextPut = none := by
    unfold Cluster.nextPut
    rw [List.find?_eq_none.2 (fun z hz => by simp [h z hz]), List.find?_eq_none.2 (fun z hz => by simp [h z hz])]
    rfl
  unfold State.putSend
  rw [hn]

/-- The end of a line of the oldest put. -/
theorem putEnds_eq {z : PutEntry} {qs : List PutEntry} (hq : (s.cluster cl).putq = z :: qs) (hn : ∀ y ∈ qs, y.id ≠ z.id) :
    s.putEnds cl z.id = s.modCluster cl (fun k => { k with
      putq := (if z.pieces = [] ∧ z.pending ≤ 1 then [] else [{ z with pending := z.pending - 1 }]) ++ qs }) := by
  refine modCluster_congr s cl ?_
  have hm : qs.map (fun e => if e.id = z.id then { e with pending := e.pending - 1 } else e) = qs :=
    (List.map_congr_left fun y hy => if_neg (hn y hy)).trans (List.map_id' qs)
  have hk : qs.filter (fun e => !(e.id == z.id && e.pieces.isEmpty && e.pending == 0)) = qs :=
    List.filter_eq_self.2 fun y hy => by rw [beq_false_of_ne (hn y hy)]; rfl
  have hf : (z :: qs).map (fun e => if e.id = z.id then { e with pending := e.pending - 1 } else e) = { z with pending := z.pending - 1 } :: qs := by
    rw [List.map_cons, if_pos rfl, hm]
  dsimp only
  rw [hq, hf, List.filter_cons, hk]
  congr 1
  by_cases h : z.pieces = [] ∧ z.pending ≤ 1
  · obtain ⟨hp, hl⟩ := h
    have hc : (!(z.id == z.id && z.pieces.isEmpty && (z.pending - 1 == 0))) = false := by simp [hp, hl]
    rw [if_pos (show z.pieces = [] ∧ z.pending ≤ 1 from ⟨hp, hl⟩)]
    exact if_neg (by rw [hc]; decide)
  · have hc : (!(z.id == z.id && z.pieces.isEmpty && (z.pending - 1 == 0))) = true := by
      simp only [beq_self_eq_true, Bool.true_and, Bool.not_eq_true', Bool.and_eq_false_iff]
      by_cases hp : z.pieces = []
      · exact .inr (beq_false_of_ne fun h0 => h ⟨hp, by omega⟩)
      · exact .inl (by simpa using hp)
    rw [if_neg h]
    exact if_pos hc

/-- A put with a counter counts its line, and one without ends it (R143, R290). -/
theorem putLanded_eq (id bytes : Nat) :
    ((∀ z ∈ (s.cluster cl).putq, z.id ≠ id) → s.putLanded cl id bytes none = s) ∧
    (∀ z qs, (s.cluster cl).putq = z :: qs → z.id = id →
      (∀ c, z.ctr = some c → s.putLanded cl id bytes none =
        { s with flights := s.flights ++ [s.waitingFlight cl 14 0 (Req.increment (z.agent cl) c bytes z.scope (.inc cl id))] }) ∧
      (z.ctr = none → (∀ y ∈ qs, y.id ≠ id) → s.putLanded cl id bytes none = s.modCluster cl (fun k => { k with
        putq := (if z.pieces = [] ∧ z.pending ≤ 1 then [] else [{ z with pending := z.pending - 1 }]) ++ qs }))) := by
  refine ⟨fun h => ?_, fun z qs hq hid => ?_⟩
  · unfold State.putLanded
    rw [List.find?_eq_none.2 fun z hz => by simpa using h z hz]
  · have hf : (s.cluster cl).putq.find? (fun e => e.id == id) = some z := by rw [hq, List.find?_cons_of_pos (by simpa using hid)]
    refine ⟨fun c hc => ?_, fun hc hn => ?_⟩
    · unfold State.putLanded
      simp only [hf, hc]
      exact send_eq s _ _ _ (show ReqKind.atH ≠ .wb by decide)
    · subst hid
      rw [← putEnds_eq hq hn]
      unfold State.putLanded
      simp only [hf, hc]

/-! Rows of an engine's puts. -/

/-- A row of which a piece has been sent. -/
def TilePut.sent (z : TilePut) (qs : List Piece) : TilePut :=
  { z with pieces := qs, unacked := z.unacked + 1, pending := z.pending + 1, held := if qs = [] then none else z.held }

/-- An engine that has rows to send sends the next piece of one of them (R238). -/
theorem sendTilePiece_sends (h : (s.engine e).openRows ≠ []) : ∃ (u : State) (z : TilePut) (q : Piece) (qs : List Piece), Noted s u ∧
    z ∈ (s.engine e).puts ∧ z.pieces = q :: qs ∧ s.sendTilePiece e =
      (u.modEngine e (fun x => { x with puts := x.puts.map (fun r => if r.id = z.id then z.sent qs else r) })).send (e / 4) (8 + e % 4) z.binding
        (Req.piece (z.agent e) 3 q (z.ctr.getD 0) (.tput e z.id)) none := by
  have key : ∀ (n : Nat) (u : State), n < (s.engine e).openRows.length → ∃ (z : TilePut) (q : Piece) (qs : List Piece),
      (s.engine e).openRows[n]? = some z ∧ z ∈ (s.engine e).puts ∧ z.pieces = q :: qs := by
    intro n u hn
    have hm := List.getElem_mem hn
    obtain ⟨hz, ho⟩ := List.mem_filter.1 hm
    cases hp : ((s.engine e).openRows[n]).pieces with
    | nil => simp [hp] at ho
    | cons q qs => exact ⟨_, q, qs, List.getElem?_eq_getElem hn, hz, hp⟩
  have hpos := List.length_pos_iff.2 h
  have hleft : ∀ (z : TilePut) (qs : List Piece), (if qs.isEmpty then none else z.held) = if qs = [] then none else z.held := fun z qs => by
    cases qs <;> rfl
  unfold State.sendTilePiece
  dsimp only
  by_cases hl : (s.engine e).openRows.length ≤ 1
  · obtain ⟨z, q, qs, hr, hz, hp⟩ := key 0 s hpos
    refine ⟨s, z, q, qs, .refl s, hz, hp, ?_⟩
    rw [if_pos hl]
    simp only [hr, hp, hleft]
    rfl
  · obtain ⟨z, q, qs, hr, hz, hp⟩ := key ((Config.choice s.draw.1).toNat % (s.engine e).openRows.length) s.draw.2 (Nat.mod_lt _ hpos)
    refine ⟨s.draw.2, z, q, qs, keep_draw (quiet_noted s) (.refl s), hz, hp, ?_⟩
    rw [if_neg hl]
    simp only [hr, hp, hleft]
    rfl

/-! Messages. -/

variable {core : Nat}

/-- What a refilled queue leaves: memory, the messages that stood in it, and a buffer without stops. -/
structure Refilled (core : Nat) (s t : State) : Prop where
  mem : t.mem = s.mem
  mq : ∃ more, (t.core core).mq = (s.core core).mq ++ more
  stops : ∀ c, (s.cluster c).stops = [] → (t.cluster c).stops = []

theorem Refilled.refl (core : Nat) (s : State) : Refilled core s s := ⟨rfl, ⟨[], (List.append_nil _).symm⟩, fun _ => id⟩

theorem Refilled.trans {t u : State} (h : Refilled core s t) (g : Refilled core t u) : Refilled core s u := by
  obtain ⟨m1, ⟨a, q1⟩, s1⟩ := h
  obtain ⟨m2, ⟨b, q2⟩, s2⟩ := g
  exact ⟨m2.trans m1, ⟨a ++ b, by rw [q2, q1, List.append_assoc]⟩, fun c hc => s2 c (s1 c hc)⟩

/-- A copy stop taken from a cluster's buffer into the queue of its core. -/
def State.takeStop (s : State) (core cl : Nat) (c : CopyStop) : State :=
  (s.modCore core (fun k => { k with mq := k.mq ++ [c.msg] })).modCluster cl (fun x => { x with stops := x.stops.erase c })

theorem core_takeStop (s : State) (core cl : Nat) (c : CopyStop) : ((s.takeStop core cl c).core core).mq = (s.core core).mq ++ [c.msg] := by
  have h : (s.takeStop core cl c).core core = (s.modCore core (fun k => { k with mq := k.mq ++ [c.msg] })).core core := rfl
  rw [h, core_modCore_same]

theorem stops_takeStop (s : State) (core cl : Nat) (c : CopyStop) (d : Nat) :
    ((s.takeStop core cl c).cluster d).stops = if d = cl then (s.cluster d).stops.erase c else (s.cluster d).stops := by
  unfold State.takeStop
  rw [cluster_modCluster]
  split
  · next e => rw [e]; rfl
  · rfl

theorem refilled_takeStop (s : State) (core cl : Nat) (c : CopyStop) : Refilled core s (s.takeStop core cl c) where
  mem := rfl
  mq := ⟨_, core_takeStop s core cl c⟩
  stops := fun d hd => by
    rw [stops_takeStop, hd]
    split <;> rfl

/-- A waiting trap record taken into the queue of its core. -/
def State.takeSlot (s : State) (core : Nat) (m : Quad) (rest : List (Nat × Quad)) : State :=
  s.modCore core (fun k => { k with mq := k.mq ++ [m], slots := rest })

theorem core_takeSlot (s : State) (core : Nat) (m : Quad) (rest : List (Nat × Quad)) : ((s.takeSlot core m rest).core core).mq = (s.core core).mq ++ [m] := by
  unfold State.takeSlot
  rw [core_modCore_same]

theorem refill_slot {n : Nat} {j : Nat} {m : Quad} {rest : List (Nat × Quad)} (hq : (s.core core).mq.length < 64) (hs : (s.core core).slots = (j, m) :: rest) :
    refill core (n + 1) s = refill core n (s.takeSlot core m rest) := by
  rw [refill]
  rw [if_neg (by omega)]
  simp only [hs]
  rfl

theorem refill_stop {n : Nat} {c : CopyStop} (hq : (s.core core).mq.length < 64) (hs : (s.core core).slots = []) (hc : s.stopFor core = some (cl, c)) :
    refill core (n + 1) s = refill core n (s.takeStop core cl c) := by
  rw [refill]
  rw [if_neg (by omega)]
  simp only [hs, hc]
  rfl

theorem refilled_refill (core : Nat) : ∀ (n : Nat) (s : State), Refilled core s (refill core n s)
  | 0, s => .refl core s
  | n + 1, s => by
    by_cases hq : 64 ≤ (s.core core).mq.length
    · rw [refill]
      rw [if_pos hq]
      exact .refl core s
    · cases hs : (s.core core).slots with
      | cons e rest =>
        rw [refill_slot (by omega) hs]
        exact Refilled.trans (t := s.takeSlot core e.2 rest) ⟨rfl, ⟨_, core_takeSlot s core e.2 rest⟩, fun _ => id⟩ (refilled_refill core n _)
      | nil =>
        cases hc : s.stopFor core with
        | some p =>
          rw [refill_stop (by omega) hs hc]
          exact (refilled_takeStop s core p.1 p.2).trans (refilled_refill core n _)
        | none =>
          rw [refill]
          rw [if_neg hq]
          simp only [hs, hc]
          exact .refl core s

/-- What the wake of an X7 leaves (R261). -/
theorem refilled_wakeX7 (s : State) (core : Nat) : Refilled core s (s.wakeX7 core) ∧ ((s.wakeX7 core).ctx (x7Of core)).inwfm = false := by
  refine ⟨⟨rfl, ⟨[], (List.append_nil _).symm⟩, fun _ => id⟩, ?_⟩
  unfold State.wakeX7
  rw [ctx_modCtx_same]

theorem stopEnters_ok {c : CopyStop} (hk : (s.cluster cl).stops = [c]) (hc : s.stopFor c.core = some (cl, c)) (hs : (s.core c.core).slots = [])
    (hq : (s.core c.core).mq.length < 64) : ∃ t more, s.stopEnters cl = t ∧ (t.cluster cl).stops = [] ∧
      (t.core c.core).mq = (s.core c.core).mq ++ c.msg :: more ∧ (t.ctx (x7Of c.core)).inwfm = false ∧ t.mem = s.mem := by
  have he : s.stopEnters cl = (refill c.core 15 (s.takeStop c.core cl c)).wakeX7 c.core := by
    unfold State.stopEnters
    rw [hk, List.foldl_cons, List.foldl_nil, if_pos hq, refill_stop hq hs hc]
  obtain ⟨hw, hx⟩ := refilled_wakeX7 (refill c.core 15 (s.takeStop c.core cl c)) c.core
  obtain ⟨hm, ⟨more, hmore⟩, hst⟩ := (refilled_refill c.core 15 (s.takeStop c.core cl c)).trans hw
  refine ⟨_, more, he, hst cl ?_, ?_, hx, hm⟩
  · rw [stops_takeStop, if_pos rfl, hk, List.erase_cons_head]
  · rw [hmore, core_takeStop, List.append_assoc]
    rfl

theorem trapRecordEnter_ok {j : Nat} {m : Quad} {rest : List (Nat × Quad)} (hs : (s.core core).slots = (j, m) :: rest) (hq : (s.core core).mq.length < 64) :
    ∃ t more, exec (.trapRecordEnter core) s = .next t ∧ (t.core core).mq = (s.core core).mq ++ m :: more ∧ (t.ctx (x7Of core)).inwfm = false ∧ t.mem = s.mem := by
  have he : exec (.trapRecordEnter core) s = .next ((refill core 15 (s.takeSlot core m rest)).wakeX7 core) := by
    show Host.Outcome.next (if (s.core core).slots.isEmpty || decide (64 ≤ (s.core core).mq.length) then s else (refill core 16 s).wakeX7 core) = _
    rw [hs, decide_eq_false (by omega), List.isEmpty_cons, if_neg (show ¬(false || false) = true by decide), refill_slot hq hs]
  obtain ⟨hw, hx⟩ := refilled_wakeX7 (refill core 15 (s.takeSlot core m rest)) core
  obtain ⟨hm, ⟨more, hmore⟩, -⟩ := (refilled_refill core 15 (s.takeSlot core m rest)).trans hw
  refine ⟨_, more, he, ?_, hx, hm⟩
  rw [hmore, core_takeSlot, List.append_assoc]
  rfl

end Sys2Proof.Machine
end

section
/-! PROOFS. A copy record taken up by its engine (R174, R176, R291). -/

namespace Sys2Proof.Machine

variable {s : State} {cl pa : Nat}

/-- A word that a cluster owns is read where it stands. -/
theorem clRead_holding {a : Agent} (h : Holding s a.cl pa) (pol : Pol) (acq : Option Scope) : clRead a pol pa acq s = .ok (s.clWord a.cl pa).data s := by
  obtain ⟨ho, hb, hs⟩ := h
  unfold clRead
  rw [modify_bind, scrub_sound hb hs, get_bind, ho]
  dsimp only
  rw [hb]
  rfl

theorem readUnit_holding (sbit : Nat) : ∀ l : List Nat, (∀ q ∈ l, Holding s cl q) → (readUnit cl sbit l s).1 = s
  | [], _ => rfl
  | q :: l, h => by
    have hq : clRead (Agent.unit cl sbit) .own q none s = .ok (s.clWord cl q).data s := clRead_holding (a := Agent.unit cl sbit) (h q List.mem_cons_self) _ _
    unfold readUnit
    rw [hq]
    dsimp only
    split
    · rfl
    · exact readUnit_holding sbit l fun p hp => h p (List.mem_cons_of_mem _ hp)

theorem unitWord_holding (h : Holding s cl pa) : s.unitWord cl pa = (s.clWord cl pa).data := by
  unfold State.unitWord
  dsimp only
  rw [h.1]

theorem setRecord_holding {rpa k : Nat} (h : Holding s cl (rpa + 8 * k)) (x : Word) : s.setRecord cl rpa k x = s.overwrite cl (rpa + 8 * k) x := by
  unfold State.setRecord State.writeUnit
  rw [clWrite_holding (a := Agent.unit cl 12) h]
  rfl

/-- CTL of a record with another STATUS (R174). -/
def withStatus (ctl : Word) (st : Nat) : Word := BitVec.ofNat 64 (ctl.toNat - ctl.toNat / 2 ^ 8 % 16 * 2 ^ 8 + st * 2 ^ 8)

theorem setStatus_holding {rpa : Nat} (h : Holding s cl (rpa + 40)) (st : Nat) :
    s.setStatus cl rpa st = s.overwrite cl (rpa + 40) (withStatus (s.clWord cl (rpa + 40)).data st) := by
  unfold State.setStatus
  rw [unitWord_holding h]
  exact setRecord_holding (k := 5) h _

theorem status_withStatus (ctl : Word) {st : Nat} (h : st < 16) : (withStatus ctl st).extractLsb' 8 4 = BitVec.ofNat 4 st := by
  apply BitVec.eq_of_toNat_eq
  unfold withStatus
  rw [BitVec.extractLsb'_toNat, BitVec.toNat_ofNat, BitVec.toNat_ofNat, Nat.shiftRight_eq_div_pow]
  omega

/-- The policy that a code of R174 names. -/
def codedPol (n : Nat) : Pol := match n % 4 with | 0 => .own | 1 => .wis | 2 => .sis | _ => .wt

theorem code_codedPol (n : Nat) : (codedPol n).code = n % 4 := by
  have _ := Nat.mod_lt n (show 0 < 4 by decide)
  unfold codedPol
  interval_cases n % 4 <;> rfl

/-- The fields of a record as its engine takes it up (R174, R176). -/
def takenRun (id rpa : Nat) (w : Nat → Word) : CopyRun :=
  { id := id, rpa := rpa, src := w 0, dst := w 1, len := (w 2).toNat, ctr := (w 3).toNat, cursor := (w 4).toNat, start := (w 4).toNat, pol := codedPol (w 5).toNat,
    scope := scopeFrom ((w 5).toNat / 4 % 8), phys := (w 5).toNat / 2 ^ 5 % 2 == 1, tno := BitVec.ofNat 12 ((w 5).toNat / 2 ^ 12),
    asn := BitVec.ofNat 16 ((w 5).toNat / 2 ^ 24), ptroot := tablePa (w 6), origin := (w 7).toNat % 2 ^ 15, pc := w 8 }

/-- The state in which a record has entered the active set of its engine. -/
def State.takenUp (s : State) (cl : Nat) (rest : List CopyWait) (r : CopyRun) : State :=
  { s.modCluster cl (fun c => { c with copyq := rest, copies := c.copies ++ [r] }) with seq := s.seq + 1 }

theorem clWord_takenUp (s : State) (cl : Nat) (rest : List CopyWait) (r : CopyRun) (c q : Nat) : (s.takenUp cl rest r).clWord c q = s.clWord c q :=
  (still_modCluster s cl (f := fun c => { c with copyq := rest, copies := c.copies ++ [r] }) fun _ => rfl).clWord c q

theorem cluster_takenUp (s : State) (cl : Nat) (rest : List CopyWait) (r : CopyRun) :
    (s.takenUp cl rest r).cluster cl = { s.cluster cl with copyq := rest, copies := (s.cluster cl).copies ++ [r] } :=
  cluster_modCluster_same s cl (fun c => { c with copyq := rest, copies := c.copies ++ [r] })

theorem extract_toNat (w : Word) (i n : Nat) : (w.extractLsb' i n).toNat = w.toNat / 2 ^ i % 2 ^ n := by
  rw [BitVec.extractLsb'_toNat, Nat.shiftRight_eq_div_pow]

theorem copyTakeUp_none (h : (s.cluster cl).copyq = [] ∨ 8 ≤ (s.cluster cl).copies.length + (s.cluster cl).stops.length) : s.copyTakeUp cl = s := by
  unfold State.copyTakeUp
  cases hq : (s.cluster cl).copyq with
  | nil => simp only [hq]
  | cons q rest =>
    have h8 := h.resolve_left (by rw [hq]; simp)
    simp only [hq]
    rw [if_pos (by omega)]

theorem copyTakeUp_holding {q : CopyWait} {rest : List CopyWait} {w : Nat → Word} (hq : (s.cluster cl).copyq = q :: rest)
    (hr : (s.cluster cl).copies.length + (s.cluster cl).stops.length < 8)
    (hw : ∀ j < 16, Holding s cl (q.rpa + 8 * j) ∧ (s.clWord cl (q.rpa + 8 * j)).data = w j) :
    s.copyTakeUp cl = (s.takenUp cl rest (takenRun s.seq q.rpa w)).overwrite cl (q.rpa + 40) (withStatus (w 5) 2) := by
  have hread : (readUnit cl 12 ((List.range 16).map (fun k => q.rpa + 8 * k)) s).1 = s := readUnit_holding 12 _ fun p hp => by
    obtain ⟨k, hk, rfl⟩ := List.mem_map.1 hp
    exact (hw k (List.mem_range.1 hk)).1
  have hu : ∀ j < 16, s.unitWord cl (q.rpa + 8 * j) = w j := fun j hj => (unitWord_holding (hw j hj).1).trans (hw j hj).2
  have h5 : Holding (s.takenUp cl rest (takenRun s.seq q.rpa w)) cl (q.rpa + 40) := by
    unfold Holding
    rw [clWord_takenUp]
    exact (hw 5 (by decide)).1
  unfold State.copyTakeUp
  simp only [hq]
  rw [if_neg (by omega), hread, hu 0 (by decide), hu 1 (by decide), hu 2 (by decide), hu 3 (by decide), hu 4 (by decide), hu 5 (by decide), hu 6 (by decide),
    hu 7 (by decide), hu 8 (by decide)]
  refine (setStatus_holding h5 2).trans ?_
  rw [clWord_takenUp, (hw 5 (by decide)).2]

theorem takeUp_ok {q : CopyWait} {rest : List CopyWait} {w : Nat → Word} (hq : (s.cluster cl).copyq = q :: rest)
    (hr : (s.cluster cl).copies.length + (s.cluster cl).stops.length < 8)
    (hw : ∀ j < 16, Holding s cl (q.rpa + 8 * j) ∧ (s.clWord cl (q.rpa + 8 * j)).data = w j) :
    ∃ t r, exec (.copyTakeUp cl) s = .next t ∧ (t.cluster cl).copyq = rest ∧ (t.cluster cl).copies = (s.cluster cl).copies ++ [r] ∧
      r.id = s.seq ∧ r.rpa = q.rpa ∧ r.src = w 0 ∧ r.dst = w 1 ∧ r.len = (w 2).toNat ∧ r.ctr = (w 3).toNat ∧ r.cursor = (w 4).toNat ∧
      r.pol.code = (w 5).toNat % 4 ∧ r.scope = scopeFrom ((w 5).extractLsb' 2 3).toNat ∧ r.ptroot = ((w 6).extractLsb' 12 40).toNat * 4096 ∧
      r.phys = (w 5).getLsbD 5 ∧ r.tno = (w 5).extractLsb' 12 12 ∧ r.asn = (w 5).extractLsb' 24 16 ∧ r.origin = (w 7).toNat % 2 ^ 15 ∧ r.pc = w 8 ∧
      (t.unitWord cl (q.rpa + 40)).extractLsb' 8 4 = 2 := by
  obtain ⟨l, m, hcl⟩ := (cachesOnly_overwrite (s.takenUp cl rest (takenRun s.seq q.rpa w)) cl (q.rpa + 40) (withStatus (w 5) 2)).like cl
  refine ⟨_, takenRun s.seq q.rpa w, congrArg Host.Outcome.next (copyTakeUp_holding hq hr hw), ?_, ?_, rfl, rfl, rfl, rfl, rfl, rfl, rfl, code_codedPol _, ?_, ?_, ?_, ?_,
    ?_, rfl, rfl, ?_⟩
  · rw [hcl, cluster_takenUp]
  · rw [hcl, cluster_takenUp]
  · rw [extract_toNat]
    rfl
  · rw [extract_toNat]
    rfl
  · rw [BitVec.getLsbD, Nat.testBit_eq_decide_div_mod_eq]
    rfl
  · apply BitVec.eq_of_toNat_eq
    rw [extract_toNat]
    exact BitVec.toNat_ofNat _ _
  · apply BitVec.eq_of_toNat_eq
    rw [extract_toNat]
    exact BitVec.toNat_ofNat _ _
  · have hx := clWord_overwrite (s.takenUp cl rest (takenRun s.seq q.rpa w)) cl (q.rpa + 40) (withStatus (w 5) 2) cl (q.rpa + 40)
    rw [if_pos ⟨rfl, rfl⟩] at hx
    unfold State.unitWord
    rw [hx]
    exact status_withStatus (w 5) (by decide)

end Sys2Proof.Machine
end

section
/-! PROOFS. A burst of a physical copy from owned words: what it reads, where it writes, and what it leaves (R176). -/

namespace Sys2Proof.Machine

variable {s t u : State} {cl pa n : Nat}

/-! Reads of a run of bytes. -/

theorem readBytes_holding {a : Agent} (h : Holding s a.cl pa) (pol : Pol) (k : Nat) (acq : Option Scope) :
    readBytes a pol pa k acq s = .ok (BitVec.ofNat 64 (subWord (s.clWord a.cl pa).data (pa % 8) k)) s := by
  unfold readBytes
  rw [bind_ok (clRead_holding h pol acq)]
  rfl

/-- A run of bytes lies in words that a cluster owns, with these values. -/
def HoldsRun (s : State) (cl : Nat) (v : Nat → Word) (pa n : Nat) : Prop :=
  ∀ j < n, Holding s cl (pa + j) ∧ (s.clWord cl (pa + j)).data = v ((pa + j) / 8)

theorem HoldsRun.drop {v : Nat → Word} (h : HoldsRun s cl v pa n) {k : Nat} (hk : k ≤ n) : HoldsRun s cl v (pa + k) (n - k) := fun j hj => by
  rw [Nat.add_assoc]
  exact h (k + j) (by omega)

theorem HoldsRun.take {v : Nat → Word} (h : HoldsRun s cl v pa n) {k : Nat} (hk : k ≤ n) : HoldsRun s cl v pa k := fun j hj => h j (by omega)

/-- The bytes of a run. -/
def runBytes (v : Nat → Word) (pa n : Nat) : List (BitVec 8) := (List.range n).map (fun j => runByte v (pa + j))

theorem runBytes_append (v : Nat → Word) (pa : Nat) {k : Nat} (hk : k ≤ n) : runBytes v pa k ++ runBytes v (pa + k) (n - k) = runBytes v pa n := by
  have e : List.range n = List.range k ++ (List.range (n - k)).map (k + ·) := by
    rw [← List.range_add]
    congr 1
    omega
  unfold runBytes
  rw [e, List.map_append, List.map_map]
  refine congrArg _ (List.map_congr_left fun j _ => ?_)
  show runByte v _ = runByte v _
  rw [Nat.add_assoc]

theorem holdingParts_ok {v : Nat → Word} {a : Agent} (pol : Pol) (f : Nat → Word) : ∀ (fuel pa n : Nat), n < fuel → HoldsRun s a.cl v pa n →
    ∃ xs, (wordParts fuel pa n).mapM (fun q => do
      let x ← lift (f q.1) 0 0 (readBytes a pol q.1 q.2 none)
      pure (leBytes x.toNat q.2) : Nat × Nat → Act (List (BitVec 8))) s = .ok xs s ∧ xs.flatten = runBytes v pa n
  | 0, _, _, h, _ => absurd h (by omega)
  | fuel + 1, pa, n, h, ho => by
    unfold wordParts
    by_cases hn : n = 0
    · subst hn
      exact ⟨[], rfl, rfl⟩
    · rw [if_neg hn]
      dsimp only
      have hk : min n (8 - pa % 8) ≤ n := min_le_left _ _
      obtain ⟨xs, h1, h2⟩ := holdingParts_ok pol f fuel (pa + min n (8 - pa % 8)) (n - min n (8 - pa % 8)) (by omega) (ho.drop hk)
      obtain ⟨hh, hv⟩ := ho 0 (by omega)
      rw [Nat.add_zero] at hh hv
      have hr := readBytes_holding hh pol (min n (8 - pa % 8)) none
      rw [hv] at hr
      refine ⟨leBytes (BitVec.ofNat 64 (subWord (v (pa / 8)) (pa % 8) (min n (8 - pa % 8)))).toNat (min n (8 - pa % 8)) :: xs, ?_, ?_⟩
      · rw [List.mapM_cons, bind_ok (t := s) (a := leBytes (BitVec.ofNat 64 (subWord (v (pa / 8)) (pa % 8) (min n (8 - pa % 8)))).toNat (min n (8 - pa % 8)))]
        · rw [bind_ok h1]
          rfl
        · rw [bind_ok (lift_ok hr _ _ _)]
          rfl
      · rw [List.flatten_cons, h2, leBytes_subWord (by omega)]
        exact runBytes_append v pa hk

/-! Pages of a run of physical addresses. -/

/-- An address space of physical addresses reaches every byte of a run of ordinary memory. -/
def PhysRun (s : State) (sp : Space) (pa n : Nat) : Prop := pa + n ≤ 2 ^ 52 ∧ ∀ j < n, s.backed (sp.agent.cl / 64) (pa + j) = true ∧ isDevice (pa + j) = false

theorem translate_phys {sp : Space} (hp : sp.phys = true) (hlt : pa < 2 ^ 52) (hb : s.backed (sp.agent.cl / 64) pa = true) (kind : AccessKind) (pol : Option Pol)
    (lane : Nat) : translate sp (BitVec.ofNat 64 pa) kind pol lane s = .ok pa s := by
  have hv : (BitVec.ofNat 64 pa).toNat = pa := by
    rw [BitVec.toNat_ofNat]
    omega
  unfold translate
  rw [hp, if_pos rfl, hv, if_neg (by simp; omega)]
  show (get >>= fun s : State => if s.backed (sp.agent.cl / 64) pa then pure pa else raiseTrap _ : Act Nat) s = _
  rw [get_bind, if_pos hb]
  rfl

/-- A page's part of a run of physical addresses. -/
def physPart (end_ a : Nat) : Word × Nat × Nat := (BitVec.ofNat 64 a, a, min (end_ - a) (4096 - a % 4096))

theorem mem_pageStarts : ∀ (fuel pa n : Nat), ∀ a ∈ pageStarts fuel pa n, pa ≤ a ∧ a < pa + n
  | 0, _, _, a, h => by cases h
  | fuel + 1, pa, n, a, h => by
    unfold pageStarts at h
    split at h
    · cases h
    · rcases List.mem_cons.1 h with rfl | h
      · omega
      · have := mem_pageStarts fuel _ _ a h
        omega

theorem copyParts_ok {sp : Space} (hp : sp.phys = true) (h : PhysRun s sp pa n) (kind : AccessKind) (pol : Pol) :
    copyParts sp (BitVec.ofNat 64 pa) n kind pol s = .ok ((pageStarts (n / 4096 + 2) pa n).map (physPart (pa + n))) s := by
  obtain ⟨hle, hr⟩ := h
  unfold copyParts
  have hv : n ≠ 0 → (BitVec.ofNat 64 pa).toNat = pa := fun _ => by
    rw [BitVec.toNat_ofNat]
    omega
  by_cases hn : n = 0
  · subst hn
    rfl
  · rw [hv hn]
    refine mapM_still _ fun a ha => ?_
    obtain ⟨h1, h2⟩ := mem_pageStarts _ _ _ a ha
    obtain ⟨hb, hd⟩ := hr (a - pa) (by omega)
    rw [show pa + (a - pa) = a by omega] at hb hd
    rw [bind_ok (translate_phys hp (by omega) hb _ _ _), bind_ok (notDevice_ok hd _ _)]
    rfl

theorem pageStarts_first {fuel : Nat} (hn : n ≠ 0) : pageStarts (fuel + 1) pa n = pa :: pageStarts fuel (pa + min n (4096 - pa % 4096)) (n - min n (4096 - pa % 4096)) := by
  rw [pageStarts, if_neg hn]

/-- The parts of a run, read one after another. -/
theorem physParts_ok {v : Nat → Word} {a : Agent} (pol : Pol) : ∀ (fuel pa n : Nat), n = 0 ∨ pa % 4096 + n ≤ 4096 * fuel → HoldsRun s a.cl v pa n →
    ∃ xs, (((pageStarts fuel pa n).map (physPart (pa + n))).mapM (fun p => do
      let xs ← (wordParts (p.2.2 + 1) p.2.1 p.2.2).mapM (fun q => do
        let x ← lift (p.1 + BitVec.ofNat 64 (q.1 - p.2.1)) 0 0 (readBytes a pol q.1 q.2 none)
        pure (leBytes x.toNat q.2))
      pure xs.flatten) : Act (List (List (BitVec 8)))) s = .ok xs s ∧ xs.flatten = runBytes v pa n
  | 0, pa, n, h, _ => ⟨[], rfl, by rw [show n = 0 by omega]; rfl⟩
  | fuel + 1, pa, n, h, ho => by
    by_cases hn : n = 0
    · subst hn
      exact ⟨[], rfl, rfl⟩
    · have hk : min n (4096 - pa % 4096) ≤ n := min_le_left _ _
      have hend : pa + min n (4096 - pa % 4096) + (n - min n (4096 - pa % 4096)) = pa + n := by omega
      obtain ⟨xs, h1, h2⟩ := physParts_ok pol fuel (pa + min n (4096 - pa % 4096)) (n - min n (4096 - pa % 4096)) (by rcases Nat.le_total n (4096 - pa % 4096) with hl | hl <;> omega) (ho.drop hk)
      rw [hend] at h1
      obtain ⟨ys, h3, h4⟩ := holdingParts_ok (s := s) (a := a) (v := v) pol (fun q => BitVec.ofNat 64 pa + BitVec.ofNat 64 (q - pa)) (min n (4096 - pa % 4096) + 1) pa
        (min n (4096 - pa % 4096)) (by omega) (ho.take hk)
      have hp : physPart (pa + n) pa = (BitVec.ofNat 64 pa, pa, min n (4096 - pa % 4096)) := by
        unfold physPart
        rw [Nat.add_sub_cancel_left]
      refine ⟨runBytes v pa (min n (4096 - pa % 4096)) :: xs, ?_, ?_⟩
      · rw [pageStarts_first hn, List.map_cons, hp, List.mapM_cons, bind_ok (a := runBytes v pa (min n (4096 - pa % 4096))) (t := s)]
        · rw [bind_ok h1]
          rfl
        · dsimp only
          rw [bind_ok h3, h4]
          rfl
      · rw [List.flatten_cons, h2]
        exact runBytes_append v pa hk

/-! Lines of a burst. -/

/-- What the landing of a line leaves: all but memory, its errors, ports and records. -/
structure Landing (s t : State) : Prop where
  flights : t.flights = s.flights
  slc : s.slc = [] → t.slc = []
  pkgs : t.pkgs = s.pkgs
  fuses : t.fuses = s.fuses
  ctxs : t.ctxs = s.ctxs
  dirOf : ∀ l, t.dirOf l = s.dirOf l
  cluster : ∀ c, ∃ p, t.cluster c = { s.cluster c with ports := p }

theorem Landing.refl (s : State) : Landing s s := ⟨rfl, id, rfl, rfl, rfl, fun _ => rfl, fun _ => ⟨_, rfl⟩⟩

theorem Landing.trans (h : Landing s t) (g : Landing t u) : Landing s u where
  flights := g.flights.trans h.flights
  slc := fun e => g.slc (h.slc e)
  pkgs := g.pkgs.trans h.pkgs
  fuses := g.fuses.trans h.fuses
  ctxs := g.ctxs.trans h.ctxs
  dirOf := fun l => (g.dirOf l).trans (h.dirOf l)
  cluster := fun c => by
    obtain ⟨p, e⟩ := h.cluster c
    obtain ⟨q, e'⟩ := g.cluster c
    exact ⟨q, by rw [e', e]⟩

theorem quiet_landing (s : State) : Quiet (Landing s) where
  records := fun _ _ _ _ _ h => { h with cluster := h.cluster }

theorem Placed.landing (h : Placed s t) : Landing s t where
  flights := h.flights
  slc := h.slc
  pkgs := by obtain ⟨m, d, e, l, a, b, c, f, rfl⟩ := h.same; rfl
  fuses := by obtain ⟨m, d, e, l, a, b, c, f, rfl⟩ := h.same; rfl
  ctxs := h.ctxs
  dirOf := h.dirOf
  cluster := fun c => ⟨(s.cluster c).ports, by rw [State.cluster, State.cluster, h.clusters]⟩

theorem landing_modPort (s : State) (p : Nat) (f : Port → Port) : Landing s (s.modPort p f) :=
  { Landing.refl s with
    cluster := fun c => by
      unfold State.modPort
      rw [cluster_modCluster]
      split
      · next e => exact ⟨_, by rw [e]⟩
      · exact ⟨_, rfl⟩ }

theorem landing_approach (h : s.flights = []) (a : Agent) (pa : Nat) : Landing s (s.approach a pa) ∧ (s.approach a pa).mem = s.mem := by
  refine ⟨?_, (like_approach h a pa).mem⟩
  unfold State.approach
  simp only [h, List.isEmpty_nil, if_true]
  exact keep_countPort (quiet_landing s) (landing_modPort s _ _)

theorem landing_replyEnds (s : State) (p : Nat) : Landing s (s.replyEnds p false) := landing_modPort s p (fun x => { x.onReply false with out := x.out - 1 })

theorem Landing.clWord (h : Landing s t) (c q : Nat) : t.clWord c q = s.clWord c q := by
  obtain ⟨p, e⟩ := h.cluster c
  rw [State.clWord, State.clWord, State.clLine, State.clLine, e]

theorem Landing.pkg (h : Landing s t) (k : Nat) : t.pkg k = s.pkg k := by rw [State.pkg, State.pkg, h.pkgs]

/-- What a copy engine finds where a line of a burst goes. -/
structure CopyTo (s : State) (cl pa : Nat) : Prop where
  untracked : Untracked s pa
  uncached : (s.clWord cl pa).st = .i
  joined : s.joined (cl / 64) (sockOf pa) = true
  near : (s.pkg (sockOf pa)).farVal = false

theorem Landing.untracked (h : Landing s t) (u : Untracked s pa) : Untracked t pa :=
  ⟨h.flights.trans u.flights, h.slc u.slices, (h.dirOf _).trans u.entry, by rw [h.pkg]; exact u.frames⟩

theorem Landing.copyTo (h : Landing s t) (c : CopyTo s cl pa) : CopyTo t cl pa where
  untracked := h.untracked c.untracked
  uncached := by rw [h.clWord]; exact c.uncached
  joined := (joined_congr h.pkgs h.fuses _ _).trans c.joined
  near := by rw [h.pkg]; exact c.near

theorem mem_wordParts : ∀ (fuel pa n : Nat), ∀ p ∈ wordParts fuel pa n, pa ≤ p.1 ∧ p.1 < pa + n
  | 0, _, _, p, h => by cases h
  | fuel + 1, pa, n, p, h => by
    unfold wordParts at h
    split at h
    · cases h
    · rcases List.mem_cons.1 h with rfl | h
      · dsimp only
        omega
      · have := mem_wordParts fuel _ _ p h
        omega

theorem drainRun_clean {a : Agent} (h : ∀ j < n, (s.clWord a.cl (pa + j)).st ≠ .b) : s.drainRun a pa n = s := by
  unfold State.drainRun
  refine foldl_id _ _ _ fun p hp => ?_
  obtain ⟨h1, h2⟩ := mem_wordParts _ _ _ p hp
  have hb := h (p.1 - pa) (by omega)
  rw [show pa + (p.1 - pa) = p.1 by omega] at hb
  unfold State.drainWord
  rw [if_pos (by rw [clWord_wordOf]; exact hb)]

/-- The request that carries a line of a burst (R176). -/
def burstReq (cl : Nat) (r : CopyRun) (p : Piece) : Req := { Req.piece (r.agent cl) 4 p r.ctr .none with isPut := false, copyRec := r.rpa }

theorem serve_burst {r : CopyRun} {p : Piece} (c : CopyTo s cl p.pa) (hm : Memory.wf s.mem = true) (hfit : p.pa % 64 + p.bytes.length ≤ 64) :
    ∃ v t, serve (burstReq cl r p) s = .ok v t ∧ Placed s t ∧ Memory.wf t.mem = true ∧
      ∀ q, memByte t.mem q = if p.pa ≤ q ∧ q < p.pa + p.bytes.length then p.bytes.getD (q - p.pa) 0 else memByte s.mem q := by
  have hn := (charged_noted s (burstReq cl r p)).placed
  have hmem := (still_charged s (burstReq cl r p)).mem
  obtain ⟨v, t, h1, h2, h3, h4⟩ := serveWords_outside_write (kind := .putLine) (bytes := p.bytes) (tno := r.tno) (.inr rfl) (hn.untracked c.untracked)
    (by rw [hmem]; exact hm) hfit
  rw [hmem] at h4
  refine ⟨v, t, ?_, hn.trans h2, h3, h4⟩
  refine (serve_eq ?_ ?_ c.untracked.slices (.inl rfl)).trans h1
  · show s.joined (cl / 64) (sockOf (lineOf p.pa)) = true
    rw [sockOf_lineOf]
    exact c.joined
  · show (s.pkg (sockOf (lineOf p.pa))).fotbase = 0
    rw [sockOf_lineOf]
    exact c.untracked.frames

theorem farGo_near {r : Req} (h : (s.pkg (sockOf (pieceOf r).1)).farVal = false) : s.farGo r = none := by
  unfold State.farGo
  dsimp only
  rw [h, Bool.and_false, if_neg (by decide)]

theorem ctzOf64_le : ∀ (n k x : Nat), x.testBit k = true → k < n → pieceOf.ctzOf64 x n ≤ k
  | 0, _, _, _, h => absurd h (by omega)
  | n + 1, k, x, hx, h => by
    unfold pieceOf.ctzOf64
    split
    · exact Nat.zero_le _
    · next he =>
      cases k with
      | zero =>
        rw [Nat.testBit_zero, decide_eq_true_eq] at hx
        exact absurd hx he
      | succ k =>
        rw [Nat.testBit_succ] at hx
        have := ctzOf64_le n k (x / 2) hx (by omega)
        omega

/-- The address of a burst's piece stands in its line. -/
theorem sockOf_pieceOf {r : CopyRun} {p : Piece} (hpos : 0 < p.bytes.length) : sockOf (pieceOf (burstReq cl r p)).1 = sockOf p.pa := by
  have hbit : (burstReq cl r p).mask.getLsbD (p.pa % 64) = true := by
    refine (outside_mask (kind := .putLine) (pa := p.pa) (bytes := p.bytes) (tno := r.tno) (Nat.mod_lt _ (by decide))).trans ?_
    rw [decide_eq_true le_rfl, decide_eq_true (by omega)]
    rfl
  have hlo := ctzOf64_le 64 (p.pa % 64) (burstReq cl r p).mask.toNat (by rw [BitVec.testBit_toNat]; exact hbit) (Nat.mod_lt _ (by decide))
  show sockOf (lineOf p.pa + pieceOf.ctzOf64 (burstReq cl r p).mask.toNat 64) = _
  unfold sockOf lineOf
  omega

theorem copyLine_eq (r : CopyRun) (landed : List (Nat × Option FarGo)) (p : Piece) : copyLine cl r s landed p =
    (let q := ((s.drainRun (r.agent cl) p.pa p.bytes.length).approach (r.agent cl) p.pa).serveLate (burstReq cl r p)
     (q.1.replyEnds (portAt cl p.pa) false, if q.2 then landed ++ [(p.bytes.length, q.1.farGo (burstReq cl r p))] else landed)) := rfl

/-- A line of a burst lands: its bytes stand in memory, and goes no further (R176, R363). -/
theorem copyLine_ok {r : CopyRun} {p : Piece} {landed : List (Nat × Option FarGo)} (h : ∀ j < p.bytes.length, CopyTo s cl (p.pa + j)) (hpos : 0 < p.bytes.length)
    (hm : Memory.wf s.mem = true) (hfit : p.pa % 64 + p.bytes.length ≤ 64) :
    ∃ t, copyLine cl r s landed p = (t, landed ++ [(p.bytes.length, none)]) ∧ Landing s t ∧ Memory.wf t.mem = true ∧
      ∀ q, memByte t.mem q = if p.pa ≤ q ∧ q < p.pa + p.bytes.length then p.bytes.getD (q - p.pa) 0 else memByte s.mem q := by
  have h0 := h 0 hpos
  rw [Nat.add_zero] at h0
  have hd : s.drainRun (r.agent cl) p.pa p.bytes.length = s := drainRun_clean fun j hj e => by
    have := (h j hj).uncached
    rw [show (r.agent cl).cl = cl from rfl, this] at e
    cases e
  obtain ⟨ha, hmem⟩ := landing_approach h0.untracked.flights (r.agent cl) p.pa
  obtain ⟨v, t, h1, h2, h3, h4⟩ := serve_burst (r := r) (ha.copyTo h0) (by rw [hmem]; exact hm) hfit
  rw [hmem] at h4
  have hland := ha.trans h2.landing
  have hlate : (s.approach (r.agent cl) p.pa).serveLate (burstReq cl r p) = (t, true) := by
    unfold State.serveLate
    rw [if_neg, h1]
    have hj := (ha.copyTo h0).joined
    rw [Bool.not_eq_true', Bool.not_eq_false]
    show State.joined _ (cl / 64) (sockOf (lineOf p.pa)) = true
    rw [sockOf_lineOf]
    exact hj
  have hfar : t.farGo (burstReq cl r p) = none := farGo_near (by
    rw [sockOf_pieceOf hpos]
    exact (hland.copyTo h0).near)
  refine ⟨t.replyEnds (portAt cl p.pa) false, ?_, hland.trans (landing_replyEnds t _), h3, h4⟩
  rw [copyLine_eq, hd, hlate]
  show (_, landed ++ [(p.bytes.length, t.farGo (burstReq cl r p))]) = _
  rw [hfar]

/-- The lines of a burst, one after another. -/
theorem copyLines_ok {r : CopyRun} : ∀ (fuel pa : Nat) (bytes : List (BitVec 8)) (landed : List (Nat × Option FarGo)) {s : State},
    pa % 64 + bytes.length ≤ 64 * fuel → (∀ j < bytes.length, CopyTo s cl (pa + j)) → Memory.wf s.mem = true → (∀ q ∈ landed, q.2 = none) →
    ∃ t landed', (cutLines fuel pa bytes).foldl (fun q p => copyLine cl r q.1 q.2 p) (s, landed) = (t, landed') ∧ (∀ q ∈ landed', q.2 = none) ∧ Landing s t ∧
      ∀ q, memByte t.mem q = if pa ≤ q ∧ q < pa + bytes.length then bytes.getD (q - pa) 0 else memByte s.mem q
  | 0, pa, bytes, landed, s, hfuel, _, _, hl => ⟨s, landed, rfl, hl, .refl s, fun q => by rw [if_neg (by omega)]⟩
  | fuel + 1, pa, bytes, landed, s, hfuel, hc, hm, hl => by
    unfold cutLines
    by_cases he : bytes = []
    · subst he
      exact ⟨s, landed, rfl, hl, .refl s, fun q => by rw [if_neg (by simp)]⟩
    · have hlen : 0 < bytes.length := List.length_pos_iff.2 he
      have hb : bytes.isEmpty = false := by simpa using he
      simp only [hb, Bool.false_eq_true, if_false, List.foldl_cons]
      have htake : (bytes.take (64 - pa % 64)).length = min (64 - pa % 64) bytes.length := List.length_take
      obtain ⟨t, h1, h2, h3, h4⟩ := copyLine_ok (r := r) (landed := landed) (p := { pa := pa, bytes := bytes.take (64 - pa % 64) })
        (fun j hj => hc j (by dsimp only at hj; omega)) (by dsimp only; omega) hm (by dsimp only; omega)
      rw [h1]
      dsimp only at h4
      rw [htake] at h4
      have hl' : ∀ q ∈ landed ++ [((bytes.take (64 - pa % 64)).length, (none : Option FarGo))], q.2 = none := fun q hq => by
        rcases List.mem_append.1 hq with hq | hq
        · exact hl q hq
        · rw [List.mem_singleton.1 hq]
      obtain ⟨u, landed', h5, h6, h7, h8⟩ := copyLines_ok (r := r) fuel (pa + (64 - pa % 64)) (bytes.drop (64 - pa % 64)) _
        (by rw [List.length_drop]; omega) (fun j hj => h2.copyTo (by
          rw [List.length_drop] at hj
          rw [Nat.add_assoc]
          exact hc _ (by omega))) h3 hl'
      refine ⟨u, landed', h5, h6, h2.trans h7, fun q => ?_⟩
      rw [h8, h4, List.length_drop]
      simp only [List.getD_eq_getElem?_getD, List.getElem?_drop, List.getElem?_take]
      by_cases hq : pa + (64 - pa % 64) ≤ q
      · rw [if_neg (c := pa ≤ q ∧ q < pa + min (64 - pa % 64) bytes.length) (by omega), show 64 - pa % 64 + (q - (pa + (64 - pa % 64))) = q - pa by omega]
        have hiff : (pa + (64 - pa % 64) ≤ q ∧ q < pa + (64 - pa % 64) + (bytes.length - (64 - pa % 64))) ↔ (pa ≤ q ∧ q < pa + bytes.length) := by
          omega
        simp only [hiff]
      · rw [if_neg (c := pa + (64 - pa % 64) ≤ q ∧ _) (by omega)]
        have hiff : (pa ≤ q ∧ q < pa + min (64 - pa % 64) bytes.length) ↔ (pa ≤ q ∧ q < pa + bytes.length) := by omega
        simp only [hiff]
        split
        · next h => rw [if_pos (by omega)]
        · rfl

/-- Nothing of what has landed is counted or goes far. -/
theorem copyLanded_near {r : CopyRun} {landed : List (Nat × Option FarGo)} (hc : r.ctr = 0) (h : ∀ q ∈ landed, q.2 = none) : s.copyLanded cl r landed = s := by
  unfold State.copyLanded
  dsimp only
  rw [if_pos (.inl hc)]
  exact foldl_id _ _ _ fun q hq => by rw [h q hq]; rfl

/-- A burst up to its data. -/
theorem copyFetch_ok {r : CopyRun} {a b : Nat} {v : Nat → Word} (hp : r.phys = true) (ha : r.src + BitVec.ofNat 64 r.cursor = BitVec.ofNat 64 a)
    (hb : r.dst + BitVec.ofNat 64 r.cursor = BitVec.ofNat 64 b) (hn : 0 < n) (hpage : b % 4096 + n ≤ 4096) (hra : PhysRun s (r.space cl) a n)
    (hrb : PhysRun s (r.space cl) b n) (ho : HoldsRun s cl v a n) : copyFetch r cl n s = .ok (cutLines (n / 64 + 2) b (runBytes v a n)) s := by
  obtain ⟨xs, h1, h2⟩ := physParts_ok (s := s) (a := r.agent cl) r.pol (n / 4096 + 2) a n (.inr (by omega)) ho
  unfold copyFetch
  rw [ha, hb, bind_ok (copyParts_ok hp hra _ _), bind_ok (copyParts_ok hp hrb _ _), bind_ok h1, h2]
  have hd : (pageStarts (n / 4096 + 2) b n).map (physPart (b + n)) = [(BitVec.ofNat 64 b, b, n)] := by
    rw [pageStarts_one hn hpage, List.map_cons, List.map_nil, physPart, Nat.add_sub_cancel_left, min_eq_left (by omega)]
  have hlen : (runBytes v a n).length = n := by rw [runBytes, List.length_map, List.length_range]
  rw [hd]
  show EStateM.Result.ok (cutLines (n / 64 + 2) b ((runBytes v a n).take n) ++ []) s = _
  rw [List.append_nil, List.take_of_length_le (by omega)]

/-- A burst of a physical copy that has more to do (R176). -/
theorem copyBurst_lands {r : CopyRun} {a b : Nat} {v : Nat → Word} (hr : (s.cluster cl).nextCopy = some r) (ha : a = r.src.toNat + r.cursor)
    (hb : b = r.dst.toNat + r.cursor) (hn : n = min (r.len - r.cursor) (256 - b % 256)) (hmore : r.cursor + n < r.len)
    (hs : (s.tenant (cl / 64) r.tno).susp = false) (hp : r.phys = true) (hc : r.ctr = 0) (hra : PhysRun s (r.space cl) a n) (hrb : PhysRun s (r.space cl) b n)
    (ho : HoldsRun s cl v a n) (hto : ∀ j < n, CopyTo s cl (b + j)) (hm : Memory.wf s.mem = true) :
    ∃ t, exec (.copyBurst cl) s = .next t ∧ t.ctxs = s.ctxs ∧ (t.cluster cl).copyTurn = r.id + 1 ∧
      (t.cluster cl).copies = (s.cluster cl).copies.map (fun y => if y.id = r.id then { r with cursor := r.cursor + n } else y) ∧
      ∀ pa, memByte t.mem pa = if b ≤ pa ∧ pa < b + n then runByte v (a + (pa - b)) else memByte s.mem pa := by
  have hpos : 0 < n := by omega
  have hlen : (runBytes v a n).length = n := by rw [runBytes, List.length_map, List.length_range]
  have hadd : ∀ (x : Word) (k : Nat), x + BitVec.ofNat 64 k = BitVec.ofNat 64 (x.toNat + k) := fun x k => by rw [BitVec.ofNat_add, BitVec.ofNat_toNat, BitVec.setWidth_eq]
  have hburst : r.burst = n := by rw [hn, hb]; rfl
  have hfetch := copyFetch_ok (s := s) (cl := cl) (n := n) (r := r) (v := v) hp (by rw [hadd, ha]) (by rw [hadd, hb]) hpos (by omega) hra hrb ho
  obtain ⟨t, landed, h1, h2, h3, h4⟩ := copyLines_ok (s := s) (cl := cl) (r := r) (n / 64 + 2) b (runBytes v a n) [] (by rw [hlen]; omega)
    (fun j hj => hto j (by rwa [hlen] at hj)) hm (fun q hq => by cases hq)
  obtain ⟨p, hcl⟩ := h3.cluster cl
  refine ⟨t.modCluster cl (fun c => { c with copies := c.copies.map (fun y => if y.id = r.id then { r with cursor := r.cursor + n } else y), copyTurn := r.id + 1 }), ?_, h3.ctxs,
    ?_, ?_, fun pa => ?_⟩
  · show Host.Outcome.next (s.copyBurst cl) = _
    unfold State.copyBurst
    simp only [hr, hburst, hfetch, h1, copyLanded_near hc h2]
    rw [if_neg (by omega), hs, if_neg (by decide), if_neg (by omega)]
  · rw [cluster_modCluster_same]
  · rw [cluster_modCluster_same, hcl]
  · show memByte t.mem pa = _
    rw [h4, hlen]
    split
    · next h =>
      rw [List.getD_eq_getElem?_getD, runBytes, List.getElem?_map, List.getElem?_range (by omega)]
      rfl
    · rfl

end Sys2Proof.Machine
end

section
/-! PROOFS. The memory system neither ends nor drops a waiting copy stop, and no engine comes to hold a tile by it: what
O47 and O51 need beyond the Plain predicates. One lemma per operation, as for those. -/

namespace Sys2Proof.Machine

/-- A predicate kept by whatever the memory system changes, where that leaves the waiting copy stops of a cluster as they
are and the tiles held by `put.t`s among those held before. -/
structure Tight (p : State → Prop) : Prop extends Quiet p where
  upd : ∀ s dir errs fot flights outbox seq answer slc proxies, p s →
    p { s with dir := dir, errs := errs, fot := fot, flights := flights, outbox := outbox, seq := seq, answer := answer,
               slc := slc, proxies := proxies }
  mem : ∀ s a x, p s → p { s with mem := memPutWord s.mem a x }
  post : ∀ s k m, p s → p (s.modCore k (fun x => { x with mq := x.mq ++ [m] }))
  wake : ∀ s k, p s → p (s.wakeX7 k)
  cluster : ∀ s n f, p s → (∀ x, ClusterKept x (f x) ∧ (f x).stops = x.stops) → p (s.modCluster n f)
  engine : ∀ s n f, p s → (∀ x, EngineKept x (f x) ∧ (f x).puts.filterMap (·.held) ⊆ x.puts.filterMap (·.held)) →
    p (s.modEngine n f)
  pkgKept : ∀ s n f, p s → (∀ x, PkgKept x (f x)) → p (s.modPkg n f)

variable {P : State → Prop}

theorem held_putsEnded (q : List TilePut) (id : Nat) :
    ((q.map (fun p => if p.id = id then { p with pending := p.pending - 1 } else p)).filter
      (fun p => !(p.id == id && p.pieces.isEmpty && p.pending == 0))).filterMap (·.held) ⊆ q.filterMap (·.held) := by
  intro h hh
  simp only [List.mem_filterMap, List.mem_filter, List.mem_map] at hh ⊢
  obtain ⟨_, ⟨⟨p, hp, rfl⟩, -⟩, ht⟩ := hh
  exact ⟨p, hp, by split at ht <;> exact ht⟩

theorem held_putsAcked (q : List TilePut) (id : Nat) :
    (q.map (fun p => if p.id = id then { p with unacked := p.unacked - 1 } else p)).filterMap (·.held) ⊆
      q.filterMap (·.held) := by
  intro h hh
  simp only [List.mem_filterMap, List.mem_map] at hh ⊢
  obtain ⟨_, ⟨p, hp, rfl⟩, ht⟩ := hh
  exact ⟨p, hp, by split at ht <;> exact ht⟩

theorem tight_postMessage (K : Tight P) {s : State} {core : Nat} {m : Quad}
    (H : P s) : P (s.postMessage core m).1 := by
  unfold State.postMessage
  split
  · exact keep_countCore K.toQuiet H
  · exact K.wake _ _ (K.post _ _ _ H)

theorem tight_setClWord (K : Tight P) {s : State} {cl pa : Nat} {x : CacheWord}
    (H : P s) : P (State.setClWord s cl pa x) := by
  unfold State.setClWord
  repeat' with_reducible first
    | assumption | refine K.cluster _ _ _ ?_ (fun _ => ⟨by constructor <;> rfl, rfl⟩)

theorem tight_dropClWord (K : Tight P) {s : State} {cl pa : Nat} (H : P s) : P (State.dropClWord s cl pa) :=
  tight_setClWord K H

theorem tight_mend (K : Tight P) {s : State} {cl pa : Nat} (H : P s) : P (State.mend s cl pa) := by
  unfold State.mend
  repeat' with_reducible first
    | assumption | refine keep_countCluster K.toQuiet ?_ | refine tight_setClWord K ?_ | dsimp only | split

theorem tight_markRecheck (K : Tight P) {s : State} {cl line : Nat} (H : P s) : P (State.markRecheck s cl line) := by
  unfold State.markRecheck
  repeat' with_reducible first
    | assumption | refine K.cluster _ _ _ ?_ (fun _ => ⟨by constructor <;> rfl, rfl⟩) | dsimp only | split

theorem tight_lostWrite (K : Tight P) {s : State} {core place pa : Nat} {tno : BitVec 12} {org : Nat}
    (H : P s) : P (State.lostWrite s core place pa tno org) :=
  keep_event K.toQuiet (keep_countHub K.toQuiet (tight_postMessage K H))

theorem tight_lostWord (K : Tight P) {s : State} {cl place pa : Nat} {x : CacheWord}
    (H : P s) : P (State.lostWord s cl place pa x) :=
  tight_lostWrite K H

theorem tight_invalidate (K : Tight P) {s : State} {cl pa : Nat} (H : P s) : P (State.invalidate s cl pa).1 := by
  unfold State.invalidate
  repeat' with_reducible first
    | assumption | refine tight_dropClWord K ?_ | refine tight_markRecheck K ?_ | dsimp only | split

theorem tight_invalidate_eq (K : Tight P) {s t : State} {cl pa : Nat} {y : Bool}
    (H : P s) (E : State.invalidate s cl pa = (t, y)) : P t := by
  have z := tight_invalidate K H (s := s) (cl := cl) (pa := pa)
  rw [E] at z; exact z

theorem tight_untrack (K : Tight P) {s : State} {cl pa : Nat} (H : P s) : P (State.untrack s cl pa).1 := by
  unfold State.untrack
  repeat' with_reducible first
    | assumption | refine tight_markRecheck K ?_ | refine tight_invalidate K ?_
    | refine tight_invalidate_eq K ?_ (by assumption) | dsimp only | split

theorem tight_recall (K : Tight P) {s : State} {cl pa : Nat} (H : P s) : P (State.recall s cl pa).1 := by
  unfold State.recall
  repeat' with_reducible first
    | assumption | refine tight_dropClWord K ?_ | refine tight_mend K ?_ | refine tight_markRecheck K ?_
    | refine tight_lostWord K ?_ | dsimp only | split

theorem tight_recall_eq (K : Tight P) {s t : State} {cl pa : Nat} {y : Option Word}
    (H : P s) (E : State.recall s cl pa = (t, y)) : P t := by
  have z := tight_recall K H (s := s) (cl := cl) (pa := pa)
  rw [E] at z; exact z

theorem tight_downgrade (K : Tight P) {s : State} {cl pa : Nat} (H : P s) : P (State.downgrade s cl pa).1 := by
  unfold State.downgrade
  repeat' with_reducible first
    | assumption | refine tight_setClWord K ?_ | refine tight_dropClWord K ?_ | refine tight_mend K ?_
    | refine tight_markRecheck K ?_ | refine tight_lostWord K ?_ | dsimp only | split

theorem tight_downgrade_eq (K : Tight P) {s t : State} {cl pa : Nat} {y : Option Word}
    (H : P s) (E : State.downgrade s cl pa = (t, y)) : P t := by
  have z := tight_downgrade K H (s := s) (cl := cl) (pa := pa)
  rw [E] at z; exact z

theorem tight_modDir (K : Tight P) {s : State} {line : Nat} {f : DirEntry → DirEntry}
    (H : P s) : P (State.modDir s line f) := by
  unfold State.modDir
  repeat' with_reducible first
    | assumption | dsimp only | refine K.toQuiet.records _ _ _ _ _ ?_ | refine K.upd _ _ _ _ _ _ _ _ _ _ ?_

theorem tight_modProxy (K : Tight P) {s : State} {sock line : Nat} {f : DirEntry → DirEntry}
    (H : P s) : P (State.modProxy s sock line f) := by
  unfold State.modProxy
  repeat' with_reducible first
    | assumption | dsimp only | refine K.toQuiet.records _ _ _ _ _ ?_ | refine K.upd _ _ _ _ _ _ _ _ _ _ ?_

theorem tight_dropOwner (K : Tight P) {s : State} {pa : Nat} (H : P s) : P (State.dropOwner s pa) := by
  unfold State.dropOwner
  repeat' with_reducible first
    | assumption | refine tight_modDir K ?_ | refine tight_modProxy K ?_ | dsimp only | split

theorem tight_putWord (K : Tight P) {s : State} {pa : Nat} {x : Word} {mask : BitVec 8}
    (H : P s) : P (s.putWord pa x mask) :=
  K.upd _ s.dir _ s.fot s.flights s.outbox s.seq s.answer _ s.proxies (K.mem _ _ _ H)

theorem tight_wbWord (K : Tight P) {s : State} {r : Req} {w : Nat} (H : P s) : P (State.wbWord s r w) :=
  tight_modDir K (tight_putWord K (tight_dropOwner K H))

theorem tight_landWb (K : Tight P) {s : State} {pa : Nat} (H : P s) : P (State.landWb s pa) := by
  unfold State.landWb
  repeat' with_reducible first
    | assumption | refine keep_draw K.toQuiet ?_ | refine keep_draw_eq K.toQuiet ?_ (by assumption)
    | refine tight_wbWord K ?_ | refine keep_chargeHome K.toQuiet ?_
    | refine foldl_keeps (p := P) (fun s a H => ?_) _ ?_ | dsimp only | split | refine K.toQuiet.records _ _ _ _ _ ?_
    | refine K.upd _ _ _ _ _ _ _ _ _ _ ?_

theorem tight_recallOwner (K : Tight P) {s : State} {pa : Nat} (H : P s) : P (State.recallOwner s pa).1 := by
  unfold State.recallOwner
  repeat' with_reducible first
    | assumption | refine tight_recall K ?_ | refine tight_recall_eq K ?_ (by assumption)
    | refine tight_dropOwner K ?_ | refine tight_landWb K ?_ | dsimp only | split

theorem tight_recallOwner_eq (K : Tight P) {s t : State} {pa : Nat} {y : Option Word}
    (H : P s) (E : State.recallOwner s pa = (t, y)) : P t := by
  have z := tight_recallOwner K H (s := s) (pa := pa)
  rw [E] at z; exact z

theorem tight_homeWrites (K : Tight P) {s : State} {pa : Nat} {x : Word} (H : P s) : P (State.homeWrites s pa x) :=
  tight_modDir K (tight_putWord K H)

theorem tight_recallWord (K : Tight P) {s : State} {pa : Nat} (H : P s) : P (State.recallWord s pa) := by
  unfold State.recallWord
  repeat' with_reducible first
    | assumption | refine tight_recallOwner K ?_ | refine tight_recallOwner_eq K ?_ (by assumption)
    | refine tight_homeWrites K ?_ | dsimp only | split

theorem tight_share (K : Tight P) {s : State} {line c : Nat} (H : P s) : P (State.share s line c) := by
  unfold State.share
  repeat' with_reducible first
    | assumption | refine tight_modDir K ?_ | refine tight_modProxy K ?_ | dsimp only | split

theorem tight_setOwner (K : Tight P) {s : State} {pa c : Nat} (H : P s) : P (State.setOwner s pa c) := by
  unfold State.setOwner
  repeat' with_reducible first
    | assumption | refine tight_modDir K ?_ | refine tight_modProxy K ?_ | refine tight_dropOwner K ?_ | dsimp only
    | split

theorem tight_downgradeWord (K : Tight P) {s : State} {pa : Nat} (H : P s) : P (State.downgradeWord s pa) := by
  unfold State.downgradeWord
  repeat' with_reducible first
    | assumption | refine tight_downgrade K ?_ | refine tight_downgrade_eq K ?_ (by assumption)
    | refine tight_dropOwner K ?_ | refine tight_landWb K ?_ | refine tight_homeWrites K ?_ | refine tight_share K ?_
    | dsimp only | split

theorem tight_unshare (K : Tight P) {s : State} {line c : Nat} (H : P s) : P (State.unshare s line c) := by
  unfold State.unshare
  repeat' with_reducible first
    | assumption | refine tight_modDir K ?_ | refine tight_modProxy K ?_ | dsimp only | split

theorem tight_clearSockets (K : Tight P) {s : State} {line : Nat} {excl : Option Nat}
    (H : P s) : P (State.clearSockets s line excl) :=
  tight_modDir K H

theorem tight_invalidateAt (K : Tight P) {evict : Bool} {pa : Nat} {excl : Option Nat} {l : List Nat} {s : State}
    (H : P s) : P (invalidateAt evict pa excl l s) := by
  induction l generalizing s with
  | nil => exact H
  | cons c l ih =>
    unfold invalidateAt
    split
    · exact ih H
    · have z : P (if evict then s.untrack c pa else s.invalidate c pa).1 := by
        split
        · exact tight_untrack K H
        · exact tight_invalidate K H
      refine ih ?_
      split
      · exact z
      · exact tight_unshare K z

theorem tight_invalidateWord (K : Tight P) {s : State} {pa : Nat} {excl : Option Nat}
    (H : P s) : P (State.invalidateWord s pa excl) :=
  tight_clearSockets K (tight_invalidateAt K H)

theorem tight_evictDir (K : Tight P) {s : State} {line : Nat} (H : P s) : P (State.evictDir s line) := by
  unfold State.evictDir
  repeat' with_reducible first
    | assumption | refine tight_modDir K ?_ | refine tight_recallWord K ?_ | refine tight_invalidateAt K ?_
    | refine foldl_keeps (p := P) (fun s a H => ?_) _ ?_

theorem tight_evictProxy (K : Tight P) {s : State} {key : Nat} (H : P s) : P (State.evictProxy s key) := by
  unfold State.evictProxy
  repeat' with_reducible first
    | assumption | refine tight_recallWord K ?_ | refine tight_invalidateAt K ?_
    | refine foldl_keeps (p := P) (fun s a H => ?_) _ ?_ | dsimp only | split | refine K.toQuiet.records _ _ _ _ _ ?_
    | refine K.upd _ _ _ _ _ _ _ _ _ _ ?_

theorem tight_dirRoom (K : Tight P) {s : State} {place : Nat × Nat} (H : P s) : P (State.dirRoom s place) := by
  unfold State.dirRoom
  repeat' with_reducible first
    | assumption | refine tight_evictDir K ?_ | refine tight_evictProxy K ?_ | dsimp only | split

theorem tight_dirAlloc (K : Tight P) {s : State} {line : Nat} (H : P s) : P (State.dirAlloc s line) := by
  unfold State.dirAlloc
  repeat' with_reducible first
    | assumption | refine tight_dirRoom K ?_ | dsimp only | split | refine K.toQuiet.records _ _ _ _ _ ?_
    | refine K.upd _ _ _ _ _ _ _ _ _ _ ?_

theorem tight_proxyAlloc (K : Tight P) {s : State} {line c : Nat} (H : P s) : P (State.proxyAlloc s line c) := by
  unfold State.proxyAlloc
  repeat' with_reducible first
    | assumption | refine tight_dirRoom K ?_ | dsimp only | split | refine K.toQuiet.records _ _ _ _ _ ?_
    | refine K.upd _ _ _ _ _ _ _ _ _ _ ?_

theorem tight_track (K : Tight P) {s : State} {line c : Nat} (H : P s) : P (State.track s line c) :=
  tight_share K (tight_proxyAlloc K (tight_dirAlloc K H))

theorem tight_loseWord (K : Tight P) {s : State} {cl pa : Nat} (H : P s) : P (State.loseWord s cl pa) :=
  tight_dropOwner K (tight_dropClWord K H)

theorem tight_memoryFetch (K : Tight P) {s : State} {tno : BitVec 12} {org pa : Nat}
    (H : P s) : Holds P (memoryFetch tno org pa) s := by
  unfold memoryFetch
  repeat' with_reducible first
    | assumption | refine keep_noteError K.toQuiet ?_ | refine holds_get_bind ?_ | refine holds_set_bind ?_
    | refine holds_pure_bind ?_ | refine holds_bind ?_ (fun a t H => ?_) | refine holds_pure _ ?_
    | refine holds_throw _ ?_ | refine holds_get ?_ | refine holds_set ?_ | dsimp only | split
    | refine K.toQuiet.records _ _ _ _ _ ?_ | refine K.upd _ _ _ _ _ _ _ _ _ _ ?_

theorem tight_homeFetch (K : Tight P) {s : State} {tno : BitVec 12} {org pa : Nat}
    (H : P s) : Holds P (homeFetch tno org pa) s := by
  unfold homeFetch
  repeat' with_reducible first
    | assumption | refine keep_noteError K.toQuiet ?_ | refine tight_memoryFetch K ?_
    | refine (tight_memoryFetch K ?_).ok (by assumption) | refine (tight_memoryFetch K ?_).error (by assumption)
    | refine holds_get_bind ?_ | refine holds_set_bind ?_ | refine holds_pure_bind ?_
    | refine holds_bind ?_ (fun a t H => ?_) | refine holds_pure _ ?_ | refine holds_throw _ ?_ | refine holds_get ?_
    | refine holds_set ?_ | dsimp only | split | refine K.toQuiet.records _ _ _ _ _ ?_
    | refine K.upd _ _ _ _ _ _ _ _ _ _ ?_

theorem tight_homeForward (K : Tight P) {s : State} {tno : BitVec 12} {org pa : Nat}
    (H : P s) : Holds P (homeForward tno org pa) s := by
  unfold homeForward
  repeat' with_reducible first
    | assumption | refine tight_mend K ?_ | refine tight_landWb K ?_ | refine tight_loseWord K ?_
    | refine tight_homeFetch K ?_ | refine (tight_homeFetch K ?_).ok (by assumption)
    | refine (tight_homeFetch K ?_).error (by assumption) | refine holds_get_bind ?_ | refine holds_set_bind ?_
    | refine holds_modify_bind ?_ | refine holds_pure_bind ?_ | refine holds_bind ?_ (fun a t H => ?_)
    | refine holds_pure _ ?_ | refine holds_throw _ ?_ | refine holds_get ?_ | refine holds_set ?_
    | refine holds_modify ?_ | dsimp only | split

theorem tight_pokeWord (K : Tight P) {s : State} {pa : Nat} {x : Word} {mask : BitVec 8}
    (H : P s) : P (State.pokeWord s pa x mask) := by
  unfold State.pokeWord
  repeat' with_reducible first
    | assumption | refine tight_modDir K ?_ | refine tight_putWord K ?_ | refine tight_recallWord K ?_
    | refine tight_invalidateWord K ?_

theorem tight_readTable (K : Tight P) {s : State} {here pa : Nat} (H : P s) : P (State.readTable s here pa).2 := by
  unfold State.readTable
  repeat' with_reducible first
    | assumption | refine keep_draw K.toQuiet ?_ | refine keep_draw_eq K.toQuiet ?_ (by assumption)
    | refine tight_homeForward K ?_ | refine (tight_homeForward K ?_).ok (by assumption)
    | refine (tight_homeForward K ?_).error (by assumption) | dsimp only | split

theorem tight_readTable_eq (K : Tight P) {s t : State} {here pa : Nat} {y : Word}
    (H : P s) (E : State.readTable s here pa = (y, t)) : P t := by
  have z := tight_readTable K H (s := s) (here := here) (pa := pa)
  rw [E] at z; exact z

theorem tight_setTableWord (K : Tight P) {s : State} {here pa : Nat} {x : Word}
    (H : P s) : P (State.setTableWord s here pa x) := by
  unfold State.setTableWord
  repeat' with_reducible first
    | assumption | refine tight_pokeWord K ?_ | dsimp only | split

theorem tight_fotFill (K : Tight P) {s : State} {pa : Nat} (H : P s) : P (State.fotFill s pa) := by
  unfold State.fotFill
  repeat' with_reducible first
    | assumption | refine tight_readTable K ?_ | refine tight_readTable_eq K ?_ (by assumption)
    | refine keep_chargeTable K.toQuiet ?_ | dsimp only | split | refine K.toQuiet.records _ _ _ _ _ ?_
    | refine K.upd _ _ _ _ _ _ _ _ _ _ ?_

theorem tight_deadLetter (K : Tight P) {s : State} {sock : Nat} {d : DeadLetter}
    (H : P s) : P (State.deadLetter s sock d) := by
  unfold State.deadLetter
  repeat' with_reducible first
    | assumption | refine keep_countTenant K.toQuiet ?_ | refine keep_event K.toQuiet ?_ | refine tight_readTable K ?_
    | refine tight_readTable_eq K ?_ (by assumption) | refine keep_chargeTable K.toQuiet ?_
    | refine tight_setTableWord K ?_ | refine foldl_keeps (p := P) (fun s a H => ?_) _ ?_
    | refine foldl_fst_keeps (p := P) (fun q a H => ?_) _ ?_ | dsimp only | split

theorem tight_trace (K : Tight P) {s : State} {kind c : Nat} {pc addr w4 : Word}
    (H : P s) : P (State.trace s kind c pc addr w4) := by
  unfold State.trace
  repeat' with_reducible first
    | assumption | refine tight_readTable K ?_ | refine tight_readTable_eq K ?_ (by assumption)
    | refine keep_chargeTable K.toQuiet ?_ | refine tight_setTableWord K ?_
    | refine foldl_keeps (p := P) (fun s a H => ?_) _ ?_ | refine foldl_fst_keeps (p := P) (fun q a H => ?_) _ ?_
    | dsimp only | split

theorem tight_checkPostmark (K : Tight P) {s : State} {line cl org : Nat} {pc : Word} {tno : BitVec 12} {acq : Scope}
    (H : P s) : P (State.checkPostmark s line cl org pc tno acq) := by
  unfold State.checkPostmark
  repeat' with_reducible first
    | assumption | refine keep_countCluster K.toQuiet ?_ | refine keep_event K.toQuiet ?_ | refine tight_trace K ?_
    | dsimp only | split

theorem tight_stampPostmark (K : Tight P) {s : State} {r : Req} (H : P s) : P (State.stampPostmark s r) := by
  unfold State.stampPostmark
  repeat' with_reducible first
    | assumption | refine keep_draw K.toQuiet ?_ | refine keep_draw_eq K.toQuiet ?_ (by assumption)
    | refine tight_modDir K ?_ | refine tight_dirAlloc K ?_ | dsimp only | split

theorem tight_sliceEvict (K : Tight P) {s : State} {home : Nat} (H : P s) : P (s.sliceEvict home) := by
  unfold State.sliceEvict
  split
  · have H := keep_draw K.toQuiet H
    dsimp only
    split
    · exact tight_lostWrite K (K.upd _ s.draw.2.dir s.draw.2.errs s.draw.2.fot s.draw.2.flights s.draw.2.outbox s.draw.2.seq
        s.draw.2.answer _ s.draw.2.proxies (K.mem _ _ _ H))
    · exact H
  · exact H

theorem tight_homeWord (K : Tight P) {s : State} {r : Req} {w : Nat} (H : P s) : Holds P (homeWord r w) s := by
  unfold homeWord
  repeat' with_reducible first
    | assumption | refine tight_putWord K ?_ | refine tight_wbWord K ?_ | refine tight_landWb K ?_
    | refine tight_recallOwner K ?_ | refine tight_recallOwner_eq K ?_ (by assumption) | refine tight_recallWord K ?_
    | refine tight_setOwner K ?_ | refine tight_downgradeWord K ?_ | refine tight_invalidateWord K ?_
    | refine tight_track K ?_ | refine tight_homeFetch K ?_ | refine (tight_homeFetch K ?_).ok (by assumption)
    | refine (tight_homeFetch K ?_).error (by assumption) | refine tight_homeForward K ?_
    | refine (tight_homeForward K ?_).ok (by assumption) | refine (tight_homeForward K ?_).error (by assumption)
    | refine holds_get_bind ?_ | refine holds_set_bind ?_ | refine holds_modify_bind ?_ | refine holds_pure_bind ?_
    | refine holds_bind ?_ (fun a t H => ?_) | refine holds_pure _ ?_ | refine holds_throw _ ?_ | refine holds_get ?_
    | refine holds_set ?_ | refine holds_modify ?_ | dsimp only | split

theorem tight_fillOf (K : Tight P) {s : State} {r : Req} {named : List (Nat × Word)}
    (H : P s) : Holds P (fillOf r named) s := by
  unfold fillOf
  refine holds_bind (holds_mapM (fun w t Ht => ?_) _ H) (fun _ _ Ht => holds_pure _ Ht)
  refine holds_get_bind ?_
  split
  · exact holds_pure _ Ht
  · split
    · exact holds_pure _ Ht
    · have z := tight_homeFetch K Ht (tno := if r.exempt then 0#12 else r.tno) (org := r.origin) (pa := r.line + 8 * w)
      unfold Holds at z ⊢
      beta_reduce
      cases e : homeFetch (if r.exempt then 0#12 else r.tno) r.origin (r.line + 8 * w) t with
      | ok v u => rw [e] at z; exact z
      | error b u => rw [e] at z; exact z

theorem tight_serve (K : Tight P) {s : State} {r : Req} (H : P s) : Holds P (serve r) s := by
  unfold serve
  repeat' with_reducible first
    | assumption | refine keep_draw K.toQuiet ?_ | refine keep_draw_eq K.toQuiet ?_ (by assumption)
    | refine keep_chargeHome K.toQuiet ?_ | refine tight_fotFill K ?_ | refine tight_checkPostmark K ?_
    | refine tight_stampPostmark K ?_ | refine tight_sliceEvict K ?_ | refine tight_homeWord K ?_
    | refine (tight_homeWord K ?_).ok (by assumption) | refine (tight_homeWord K ?_).error (by assumption)
    | refine tight_fillOf K ?_ | refine (tight_fillOf K ?_).ok (by assumption)
    | refine (tight_fillOf K ?_).error (by assumption) | refine holds_get_bind ?_ | refine holds_set_bind ?_
    | refine holds_modify_bind ?_ | refine holds_pure_bind ?_ | refine holds_bind ?_ (fun a t H => ?_)
    | refine holds_pure _ ?_ | refine holds_throw _ ?_ | refine holds_get ?_ | refine holds_set ?_
    | refine holds_modify ?_ | refine holds_mapM (fun a t H => ?_) _ ?_ | dsimp only | split

theorem tight_serveLate (K : Tight P) {s : State} {r : Req} (H : P s) : P (State.serveLate s r).1 := by
  unfold State.serveLate
  repeat' with_reducible first
    | assumption | refine tight_lostWrite K ?_ | refine tight_deadLetter K ?_ | refine tight_serve K ?_
    | refine (tight_serve K ?_).ok (by assumption) | refine (tight_serve K ?_).error (by assumption) | dsimp only
    | split

theorem tight_serveLate_eq (K : Tight P) {s t : State} {r : Req} {y : Bool}
    (H : P s) (E : State.serveLate s r = (t, y)) : P t := by
  have z := tight_serveLate K H (s := s) (r := r)
  rw [E] at z; exact z

theorem tight_modPort (K : Tight P) {s : State} {p : Nat} {f : Port → Port} (H : P s) : P (State.modPort s p f) :=
  K.cluster _ _ _ H (fun _ => ⟨by constructor <;> rfl, rfl⟩)

theorem tight_occupy (K : Tight P) {s : State} {p unit sub : Nat} (H : P s) : P (State.occupy s p unit sub) :=
  keep_countPort K.toQuiet (tight_modPort K H)

theorem tight_replyEnds (K : Tight P) {s : State} {p : Nat} {cmx : Bool} (H : P s) : P (State.replyEnds s p cmx) := by
  unfold State.replyEnds
  repeat' with_reducible first
    | assumption | refine keep_countPort K.toQuiet ?_ | refine keep_event K.toQuiet ?_ | refine tight_modPort K ?_
    | dsimp only | split

theorem tight_putOut (K : Tight P) {s : State} {sock port : Nat} {fs : List Frame}
    (H : P s) : P (s.putOut sock port fs) :=
  K.upd s s.dir s.errs s.fot s.flights _ s.seq s.answer s.slc s.proxies H

theorem tight_sendFrame (K : Tight P) {s : State} {sock port : Nat} {f : Frame}
    (H : P s) : P (State.sendFrame s sock port f) := by
  unfold State.sendFrame
  repeat' with_reducible first
    | assumption | refine tight_putOut K ?_ | refine K.pkgKept _ _ _ ?_ (by intro x; unfold PkgKept; rfl) | dsimp only
    | split

theorem tight_setFlow (K : Tight P) {s : State} {sock d : Nat} {f : OutFlow}
    (H : P s) : P (State.setFlow s sock d f) :=
  K.pkgKept _ _ _ H (by intro x; unfold PkgKept; rfl)

theorem tight_sendPieces (K : Tight P) {s : State} {sock d : Nat} {ps : List FarPiece}
    (H : P s) : P (State.sendPieces s sock d ps) := by
  unfold State.sendPieces
  repeat' with_reducible first
    | assumption | refine tight_sendFrame K ?_ | refine tight_setFlow K ?_
    | refine foldl_keeps (p := P) (fun s a H => ?_) _ ?_ | dsimp only | split

theorem tight_farSend (K : Tight P) {s : State} {g : FarGo} (H : P s) : P (State.farSend s g) := by
  unfold State.farSend
  repeat' with_reducible first
    | assumption | refine tight_deadLetter K ?_ | refine tight_setFlow K ?_ | refine tight_sendPieces K ?_
    | dsimp only | split

theorem tight_sendGo (K : Tight P) {s : State} {g : Option FarGo} (H : P s) : P (State.sendGo s g) := by
  unfold State.sendGo
  repeat' with_reducible first
    | assumption | refine tight_farSend K ?_ | dsimp only | split

theorem tight_moveFlight (K : Tight P) {s : State} {f : Flight} {g : Flight}
    (H : P s) : P (State.moveFlight s f g) := by
  unfold State.moveFlight
  repeat' with_reducible first
    | assumption | dsimp only | refine K.toQuiet.records _ _ _ _ _ ?_ | refine K.upd _ _ _ _ _ _ _ _ _ _ ?_

theorem tight_admission (K : Tight P) {s : State} {port : Nat} (H : P s) : P (State.admission s port) := by
  unfold State.admission
  repeat' with_reducible first
    | assumption | refine tight_occupy K ?_ | refine tight_moveFlight K ?_ | dsimp only | split

theorem tight_forwardFrom (K : Tight P) {s : State} {stage switch out : Nat}
    (H : P s) : P (State.forwardFrom s stage switch out) := by
  unfold State.forwardFrom
  repeat' with_reducible first
    | assumption | refine tight_moveFlight K ?_ | dsimp only | split

theorem tight_takeFlight (K : Tight P) {s : State} {f : Flight} (H : P s) : P (State.takeFlight s f) := by
  unfold State.takeFlight
  repeat' with_reducible first
    | assumption | refine tight_serveLate K ?_ | refine tight_serveLate_eq K ?_ (by assumption)
    | refine tight_sendGo K ?_ | refine tight_moveFlight K ?_ | dsimp only | split

theorem tight_putEnds (K : Tight P) {s : State} {cl id : Nat} (H : P s) : P (State.putEnds s cl id) :=
  K.cluster _ _ _ H (fun _ => ⟨by constructor <;> rfl, rfl⟩)

theorem tight_tputEnds (K : Tight P) {s : State} {e id : Nat} (H : P s) : P (State.tputEnds s e id) :=
  K.engine _ _ _ H (fun _ => ⟨rfl, held_putsEnded _ _⟩)

theorem tight_tputAcked (K : Tight P) {s : State} {e id : Nat} (H : P s) : P (State.tputAcked s e id) :=
  K.engine _ _ _ H (fun _ => ⟨rfl, held_putsAcked _ _⟩)

theorem tight_send (K : Tight P) {s : State} {cl unit sub : Nat} {r : Req} {far : Option FarGo}
    (H : P s) : P (State.send s cl unit sub r far) := by
  unfold State.send
  repeat' with_reducible first
    | assumption | dsimp only | refine K.toQuiet.records _ _ _ _ _ ?_ | refine K.upd _ _ _ _ _ _ _ _ _ _ ?_

theorem tight_putLanded (K : Tight P) {s : State} {cl id bytes : Nat} {far : Option FarGo}
    (H : P s) : P (State.putLanded s cl id bytes far) := by
  unfold State.putLanded
  repeat' with_reducible first
    | assumption | refine tight_putEnds K ?_ | refine tight_send K ?_ | dsimp only | split

theorem tight_tputLanded (K : Tight P) {s : State} {e id bytes : Nat} {far : Option FarGo}
    (H : P s) : P (State.tputLanded s e id bytes far) := by
  unfold State.tputLanded
  repeat' with_reducible first
    | assumption | refine tight_tputEnds K ?_ | refine tight_send K ?_ | dsimp only | split

theorem tight_messageEnds (K : Tight P) {s : State} {f : Flight} (H : P s) : P (State.messageEnds s f) := by
  unfold State.messageEnds
  repeat' with_reducible first
    | assumption | refine keep_missOf K.toQuiet ?_ | refine tight_putEnds K ?_ | refine tight_tputEnds K ?_
    | refine tight_tputAcked K ?_ | refine tight_putLanded K ?_ | refine tight_tputLanded K ?_ | dsimp only | split

theorem tight_endingReply (K : Tight P) {s : State} {port : Nat} {cmx : Bool}
    (H : P s) : P (State.endingReply s port cmx) := by
  unfold State.endingReply
  repeat' with_reducible first
    | assumption | refine tight_replyEnds K ?_ | refine tight_messageEnds K ?_ | dsimp only | split
    | refine K.toQuiet.records _ _ _ _ _ ?_ | refine K.upd _ _ _ _ _ _ _ _ _ _ ?_

theorem tight_carryOn (K : Tight P) {s : State} {f : Flight} (H : P s) : P (State.carryOn s f) := by
  unfold State.carryOn
  repeat' with_reducible first
    | assumption | refine tight_admission K ?_ | refine tight_forwardFrom K ?_ | refine tight_takeFlight K ?_
    | refine tight_endingReply K ?_ | dsimp only | split

theorem tight_nudge (K : Tight P) {n : Nat} {s : State} {f : Flight} (H : P s) : P (s.nudge n f) := by
  induction n generalizing f with
  | zero => exact H
  | succ n ih =>
    unfold State.nudge
    split
    · exact tight_carryOn K H
    · split
      · exact ih
      · exact H

theorem tight_clearPath (K : Tight P) {port slice : Nat} {link : Option Nat} {request : Bool} {n : Nat} {s : State}
    (H : P s) :
    P (clearPath port slice link request n s) := by
  induction n generalizing s with
  | zero => exact H
  | succ n ih =>
    unfold clearPath
    split
    · exact H
    · exact ih (tight_nudge K H)

theorem tight_takeTurns (K : Tight P) {port slice : Nat} {link : Option Nat} {unit sub n : Nat} {s : State}
    (H : P s) :
    P (takeTurns port slice link unit sub n s) := by
  induction n generalizing s with
  | zero => exact H
  | succ n ih =>
    unfold takeTurns
    split
    · exact H
    · dsimp only
      split
      · exact ih (tight_clearPath K (tight_admission K H))
      · exact H

theorem tight_approach (K : Tight P) {s : State} {a : Agent} {pa : Nat} (H : P s) : P (State.approach s a pa) := by
  unfold State.approach
  repeat' with_reducible first
    | assumption | refine tight_occupy K ?_ | refine tight_clearPath K ?_ | refine tight_takeTurns K ?_ | dsimp only
    | split

theorem tight_carry (K : Tight P) {s : State} {a : Agent} {pa : Nat} (H : P s) : P (State.carry s a pa).1 := by
  unfold State.carry
  repeat' with_reducible first
    | assumption | refine tight_dropClWord K ?_ | refine tight_mend K ?_ | refine tight_lostWord K ?_
    | refine tight_modDir K ?_ | refine tight_putWord K ?_ | refine tight_recallWord K ?_
    | refine tight_invalidateWord K ?_ | refine tight_loseWord K ?_ | refine tight_fotFill K ?_
    | refine tight_deadLetter K ?_ | dsimp only | split

theorem tight_carry_eq (K : Tight P) {s t : State} {a : Agent} {pa : Nat} {y : Bool}
    (H : P s) (E : State.carry s a pa = (t, y)) : P t := by
  have z := tight_carry K H (s := s) (a := a) (pa := pa)
  rw [E] at z; exact z

theorem tight_requestWith (K : Tight P) {s : State} {a : Agent} {r : Req} {pa : Option Nat}
    (H : P s) : Holds P (requestWith a r pa) s := by
  unfold requestWith
  repeat' with_reducible first
    | assumption | refine tight_serve K ?_ | refine (tight_serve K ?_).ok (by assumption)
    | refine (tight_serve K ?_).error (by assumption) | refine tight_replyEnds K ?_
    | refine keep_missEvent K.toQuiet ?_ | refine tight_carry K ?_ | refine tight_carry_eq K ?_ (by assumption)
    | refine holds_get_bind ?_ | refine holds_set_bind ?_ | refine holds_pure_bind ?_
    | refine holds_bind ?_ (fun a t H => ?_) | refine holds_pure _ ?_ | refine holds_throw _ ?_ | refine holds_get ?_
    | refine holds_set ?_ | dsimp only | split

theorem tight_request (K : Tight P) {s : State} {a : Agent} {r : Req} (H : P s) : Holds P (request a r) s := by
  unfold request
  repeat' with_reducible first
    | assumption | refine tight_requestWith K ?_ | refine holds_get_bind ?_ | refine holds_pure_bind ?_
    | refine holds_bind ?_ (fun a t H => ?_) | refine holds_pure _ ?_

theorem tight_drainWord (K : Tight P) {s : State} {a : Agent} {pa : Nat} {toU : Bool} {rel : Option Scope} {place : Nat}
    (H : P s) : P (State.drainWord s a pa toU rel place) := by
  unfold State.drainWord
  repeat' with_reducible first
    | assumption | refine tight_setClWord K ?_ | refine tight_dropClWord K ?_ | refine tight_mend K ?_
    | refine tight_markRecheck K ?_ | refine tight_lostWord K ?_ | refine tight_serveLate K ?_
    | refine tight_serveLate_eq K ?_ (by assumption) | refine tight_replyEnds K ?_
    | refine keep_missEvent K.toQuiet ?_ | refine tight_approach K ?_ | dsimp only | split

theorem tight_sendBack (K : Tight P) {s : State} {a : Agent} {line : Nat}
    (H : P s) : P (State.sendBack s a line) := by
  unfold State.sendBack
  repeat' with_reducible first
    | assumption | refine tight_dropClWord K ?_ | refine tight_mend K ?_ | refine tight_lostWord K ?_
    | refine tight_loseWord K ?_ | refine tight_send K ?_ | refine foldl_keeps (p := P) (fun s a H => ?_) _ ?_
    | dsimp only | split

theorem tight_evictLine (K : Tight P) {s : State} {a : Agent} {line : Nat}
    (H : P s) : P (State.evictLine s a line) := by
  unfold State.evictLine
  repeat' with_reducible first
    | assumption | refine tight_drainWord K ?_ | refine tight_sendBack K ?_
    | refine K.cluster _ _ _ ?_ (fun _ => ⟨by constructor <;> rfl, rfl⟩)
    | refine foldl_keeps (p := P) (fun s a H => ?_) _ ?_

theorem tight_vacate (K : Tight P) {s : State} {a : Agent} {line : Nat} (H : P s) : P (State.vacate s a line) := by
  unfold State.vacate
  repeat' with_reducible first
    | assumption | refine keep_draw K.toQuiet ?_ | refine keep_draw_eq K.toQuiet ?_ (by assumption)
    | refine tight_evictLine K ?_ | refine foldl_keeps (p := P) (fun s a H => ?_) _ ?_ | dsimp only | split

theorem tight_makeRoom (K : Tight P) {s : State} {a : Agent} {line : Nat}
    (H : P s) : P (State.makeRoom s a line) := by
  unfold State.makeRoom
  repeat' with_reducible first
    | assumption | refine tight_vacate K ?_ | refine K.cluster _ _ _ ?_ (fun _ => ⟨by constructor <;> rfl, rfl⟩)
    | dsimp only | split

theorem tight_ready (K : Tight P) {s : State} {a : Agent} {pa : Nat} {room : Bool}
    (H : P s) : Holds P (ready a pa room) s := by
  show P (State.approach (if room then s.vacate a (lineOf pa) else s) a (lineOf pa))
  refine tight_approach K ?_
  split
  · exact tight_vacate K H
  · exact H

theorem tight_install (K : Tight P) {s : State} {a : Agent} {line : Nat} {fill : Vec × BitVec 8} {st : WordState}
    (H : P s) : P (State.install s a line fill st) := by
  unfold State.install
  repeat' with_reducible first
    | assumption | refine tight_setClWord K ?_ | refine tight_dropClWord K ?_ | refine tight_makeRoom K ?_
    | refine K.cluster _ _ _ ?_ (fun _ => ⟨by constructor <;> rfl, rfl⟩)
    | refine foldl_keeps (p := P) (fun s a H => ?_) _ ?_ | dsimp only | split

theorem tight_scrub (K : Tight P) {s : State} {cl pa : Nat} (H : P s) : P (State.scrub s cl pa) := by
  unfold State.scrub
  repeat' with_reducible first
    | assumption | refine tight_dropClWord K ?_ | refine tight_mend K ?_ | dsimp only | split

theorem tight_clRead (K : Tight P) {s : State} {a : Agent} {pol : Pol} {pa : Nat} {acq : Option Scope}
    (H : P s) : Holds P (clRead a pol pa acq) s := by
  unfold clRead
  repeat' with_reducible first
    | assumption | refine tight_setClWord K ?_ | refine tight_dropClWord K ?_ | refine tight_loseWord K ?_
    | refine tight_request K ?_ | refine (tight_request K ?_).ok (by assumption)
    | refine (tight_request K ?_).error (by assumption) | refine tight_ready K ?_
    | refine (tight_ready K ?_).ok (by assumption) | refine (tight_ready K ?_).error (by assumption)
    | refine tight_install K ?_ | refine tight_scrub K ?_ | refine holds_get_bind ?_ | refine holds_set_bind ?_
    | refine holds_modify_bind ?_ | refine holds_pure_bind ?_ | refine holds_bind ?_ (fun a t H => ?_)
    | refine holds_pure _ ?_ | refine holds_throw _ ?_ | refine holds_get ?_ | refine holds_set ?_
    | refine holds_modify ?_ | dsimp only | split

theorem tight_obtain (K : Tight P) {s : State} {a : Agent} {pa : Nat} (H : P s) : Holds P (obtain a pa) s := by
  unfold obtain
  repeat' with_reducible first
    | assumption | refine tight_setClWord K ?_ | refine tight_loseWord K ?_ | refine tight_requestWith K ?_
    | refine (tight_requestWith K ?_).ok (by assumption) | refine (tight_requestWith K ?_).error (by assumption)
    | refine tight_makeRoom K ?_ | refine tight_ready K ?_ | refine (tight_ready K ?_).ok (by assumption)
    | refine (tight_ready K ?_).error (by assumption) | refine tight_scrub K ?_ | refine holds_get_bind ?_
    | refine holds_set_bind ?_ | refine holds_modify_bind ?_ | refine holds_pure_bind ?_
    | refine holds_bind ?_ (fun a t H => ?_) | refine holds_pure _ ?_ | refine holds_throw _ ?_ | refine holds_get ?_
    | refine holds_set ?_ | refine holds_modify ?_ | dsimp only | split

theorem tight_obtainWhole (K : Tight P) {s : State} {a : Agent} {pa : Nat}
    (H : P s) : Holds P (obtainWhole a pa) s := by
  have z := tight_obtain K H (a := a) (pa := pa)
  unfold Holds obtainWhole
  cases e : obtain a pa s with
  | ok v t => exact z.ok e
  | error b t =>
    have ht := z.error e
    cases b with
    | frame q => exact ht
    | error q =>
      dsimp only
      split
      · split at *
        · rename_i hj h; cases h; exact tight_setOwner K (tight_track K (tight_invalidateWord K ht))
        · rename_i hj h; cases h
      · split at * <;> rename_i hj h <;> cases h <;> exact ht

theorem tight_clWrite (K : Tight P) {s : State} {a : Agent} {pol : Pol} {pa : Nat} {data : Word} {mask : BitVec 8}
    {rel : Option Scope} (H : P s) : Holds P (clWrite a pol pa data mask rel) s := by
  unfold clWrite
  repeat' with_reducible first
    | assumption | refine tight_setClWord K ?_ | refine tight_markRecheck K ?_ | refine tight_requestWith K ?_
    | refine tight_drainWord K ?_ | refine tight_makeRoom K ?_ | refine tight_ready K ?_ | refine tight_scrub K ?_
    | refine tight_obtain K ?_ | refine tight_obtainWhole K ?_ | refine holds_get_bind ?_ | refine holds_set_bind ?_
    | refine holds_modify_bind ?_ | refine holds_pure_bind ?_ | refine holds_bind ?_ (fun a t H => ?_)
    | refine holds_pure _ ?_ | refine holds_get ?_ | refine holds_set ?_ | refine holds_modify ?_ | dsimp only | split

theorem tight_drainAll (K : Tight P) {s : State} {a : Agent} {sc : Scope} (H : P s) : P (State.drainAll s a sc) := by
  unfold State.drainAll
  repeat' with_reducible first
    | assumption | refine tight_drainWord K ?_ | refine foldl_keeps (p := P) (fun s a H => ?_) _ ?_

theorem tight_readUnit (K : Tight P) {cl sbit : Nat} {l : List Nat} {s : State} (H : P s) :
    P (readUnit cl sbit l s).1 := by
  induction l generalizing s with
  | nil => exact H
  | cons pa l ih =>
    unfold readUnit
    split
    · next e =>
      split
      · exact (tight_clRead K H).ok e
      · exact ih ((tight_clRead K H).ok e)
    · exact (tight_clRead K H).error (by assumption)

theorem tight_writeUnit (K : Tight P) {s : State} {cl sbit pa : Nat} {x : Word}
    (H : P s) : P (State.writeUnit s cl sbit pa x) := by
  unfold State.writeUnit
  repeat' with_reducible first
    | assumption | refine tight_clWrite K ?_ | refine (tight_clWrite K ?_).ok (by assumption)
    | refine (tight_clWrite K ?_).error (by assumption) | dsimp only | split

end Sys2Proof.Machine
end

section
/-! PROOFS. A copy that stops: it leaves the active set, and where it is not done a message for X7 waits (R176, R292).
Then O51. -/

namespace Sys2Proof.Machine

variable {s : State} {cl core : Nat} {P : State → Prop}

/-! The writes of a record that stops. -/

theorem tight_setRecord (K : Tight P) {rpa k : Nat} {x : Word} (H : P s) : P (s.setRecord cl rpa k x) := tight_writeUnit K H

theorem tight_setStatus (K : Tight P) {rpa st : Nat} (H : P s) : P (s.setStatus cl rpa st) := tight_setRecord K H

theorem tight_releaseAt (K : Tight P) {a : Agent} (sc : Scope) (H : P s) : P (s.releaseAt a sc) := by
  cases sc with
  | pkg => exact tight_drainAll K H
  | sys => exact tight_drainAll K H
  | _ => exact H

/-- The engine's last writes to a record that stops, and their event (R176). -/
def State.stopWritten (s : State) (cl : Nat) (r : CopyRun) (st cause : Nat) (va : Word) : State :=
  let s := ((s.setRecord cl r.rpa 4 (BitVec.ofNat 64 r.cursor)).setRecord cl r.rpa 10 (BitVec.ofNat 64 cause)).setRecord cl r.rpa 9 va
  ((s.releaseAt (r.agent cl) r.scope).setStatus cl r.rpa st).event (efcOfCluster cl) 6 12 r.tno (placeOf r.origin) 0
    (BitVec.ofNat 64 r.rpa) (BitVec.ofNat 64 (st + r.cursor % 2 ^ 60 * 16))

theorem tight_stopWritten (K : Tight P) {r : CopyRun} {st cause : Nat} {va : Word} (H : P s) : P (s.stopWritten cl r st cause va) := by
  unfold State.stopWritten
  refine keep_event K.toQuiet ?_
  exact tight_setStatus K (tight_releaseAt K _ (tight_setRecord K (tight_setRecord K (tight_setRecord K H))))

/-- The active records and the waiting stops of a cluster. -/
def CopySets (cl : Nat) (copies : List CopyRun) (stops : List CopyStop) (t : State) : Prop :=
  (t.cluster cl).copies = copies ∧ (t.cluster cl).stops = stops

theorem tight_copySets (cl : Nat) (copies : List CopyRun) (stops : List CopyStop) : Tight (CopySets cl copies stops) where
  records := fun _ _ _ _ _ h => h
  upd := fun _ _ _ _ _ _ _ _ _ _ h => h
  mem := fun _ _ _ h => h
  post := fun _ _ _ h => h
  wake := fun _ _ h => h
  cluster := fun t n f h hk => by
    unfold CopySets
    rw [cluster_modCluster]
    split
    · next e =>
      subst e
      rw [(hk _).1.copies, (hk _).2]
      exact h
    · exact h
  engine := fun _ _ _ h _ => h
  pkgKept := fun _ _ _ h _ => h

/-- Erased from the active set, the record is written, and no stop comes or goes (R176). -/
theorem stopWritten_sets (s : State) (cl : Nat) (r : CopyRun) (st cause : Nat) (va : Word) :
    CopySets cl ((s.cluster cl).copies.erase r) (s.cluster cl).stops
      ((s.modCluster cl (fun c => { c with copies := c.copies.erase r })).stopWritten cl r st cause va) :=
  tight_stopWritten (tight_copySets cl _ _) (by
    unfold CopySets
    rw [cluster_modCluster_same]
    exact ⟨rfl, rfl⟩)

theorem copyStop_done (r : CopyRun) (cause : Nat) (va : Word) :
    CopySets cl ((s.cluster cl).copies.erase r) (s.cluster cl).stops (s.copyStop cl r 3 cause va) := by
  have h := stopWritten_sets s cl r 3 cause va
  unfold State.stopWritten at h
  unfold State.copyStop
  rw [if_pos rfl]
  exact h

/-- The message of a record that stops waits for its queue (R292). -/
def State.withStop (s : State) (cl : Nat) (r : CopyRun) (st cause : Nat) (va : Word) : State :=
  State.modCluster { s with seq := s.seq + 1 } cl (fun c => { c with stops := c.stops ++ [{ core := r.origin / 8 % 4096, stamp := s.seq, msg :=
    ⟨BitVec.ofNat 64 (2 + st * 16 + cause * 256), BitVec.ofNat 64 r.rpa, BitVec.ofNat 64 r.cursor, va⟩ }] })

theorem copyStop_eq (r : CopyRun) {st : Nat} (hst : st ≠ 3) (cause : Nat) (va : Word) : s.copyStop cl r st cause va =
    ((s.modCluster cl (fun c => { c with copies := c.copies.erase r })).stopWritten cl r st cause va).withStop cl r st cause va := by
  unfold State.copyStop State.stopWritten State.withStop
  rw [if_neg hst]

theorem CopySets.withStop {copies : List CopyRun} {stops : List CopyStop} (h : CopySets cl copies stops s) (r : CopyRun) (st cause : Nat) (va : Word) :
    CopySets cl copies (stops ++ [{ core := r.origin / 8 % 4096, stamp := s.seq, msg :=
      ⟨BitVec.ofNat 64 (2 + st * 16 + cause * 256), BitVec.ofNat 64 r.rpa, BitVec.ofNat 64 r.cursor, va⟩ }]) (s.withStop cl r st cause va) := by
  unfold CopySets State.withStop
  rw [cluster_modCluster_same]
  exact ⟨h.1, congrArg (· ++ _) h.2⟩

theorem copyStop_waits (r : CopyRun) {st : Nat} (hst : st ≠ 3) (cause : Nat) (va : Word) : ∃ n,
    CopySets cl ((s.cluster cl).copies.erase r) ((s.cluster cl).stops ++ [{ core := r.origin / 8 % 4096, stamp := n, msg :=
      ⟨BitVec.ofNat 64 (2 + st * 16 + cause * 256), BitVec.ofNat 64 r.rpa, BitVec.ofNat 64 r.cursor, va⟩ }]) (s.copyStop cl r st cause va) :=
  ⟨_, copyStop_eq (s := s) (cl := cl) r hst cause va ▸ (stopWritten_sets s cl r st cause va).withStop r st cause va⟩

/-! What a burst of the record whose turn it is does first. -/

theorem copyBurst_done {r : CopyRun} (hr : (s.cluster cl).nextCopy = some r) (h : r.len ≤ r.cursor) : ∃ t, exec (.copyBurst cl) s = .next t ∧
    (t.cluster cl).copies = (s.cluster cl).copies.erase r ∧ (t.cluster cl).stops = (s.cluster cl).stops := by
  refine ⟨s.copyStop cl r 3 0 0, ?_, copyStop_done r 0 0⟩
  show Host.Outcome.next (s.copyBurst cl) = _
  unfold State.copyBurst
  simp only [hr, if_pos h]

theorem copyBurst_suspended {r : CopyRun} (hr : (s.cluster cl).nextCopy = some r) (h : r.cursor < r.len)
    (hs : (s.tenant (cl / 64) r.tno).susp = true) : ∃ t n, exec (.copyBurst cl) s = .next t ∧
    (t.cluster cl).copies = (s.cluster cl).copies.erase r ∧ (t.cluster cl).stops = (s.cluster cl).stops ++
      [{ core := r.origin / 8 % 4096, stamp := n, msg := ⟨66, BitVec.ofNat 64 r.rpa, BitVec.ofNat 64 r.cursor, 0⟩ }] := by
  obtain ⟨n, hc⟩ := copyStop_waits (s := s) (cl := cl) r (st := 4) (by decide) 0 0
  refine ⟨s.copyStop cl r 4 0 0, n, ?_, hc⟩
  show Host.Outcome.next (s.copyBurst cl) = _
  unfold State.copyBurst
  simp only [hr, if_neg (Nat.not_le.2 h), hs, if_true]

theorem copyBurst_none (h : (s.cluster cl).copies = []) : s.copyBurst cl = s := by
  unfold State.copyBurst Cluster.nextCopy
  rw [h]
  rfl

/-- Where none are active there is none next, and where some are the next is the first from the turn on (R291). -/
theorem nextCopy_least {x : Cluster} {r : CopyRun} (h : x.nextCopy = some r) : r ∈ x.copies ∧
    ((x.copies.map (·.id)).Pairwise (· < ·) → ∀ y ∈ x.copies,
      (x.copyTurn ≤ y.id → x.copyTurn ≤ r.id ∧ r.id ≤ y.id) ∧ ((∀ z ∈ x.copies, z.id < x.copyTurn) → r.id ≤ y.id)) := by
  have hz : (x.copies.find? (fun e => true && decide (x.copyTurn ≤ e.id))).or (x.copies.find? (fun _ => true)) = some r := by
    rw [← h, Cluster.nextCopy]
    cases x.copies with
    | nil => rfl
    | cons y ys => simp
  obtain ⟨hm, -, hl⟩ := turn_least (id := CopyRun.id) hz
  exact ⟨hm, fun hs y hy => ⟨(hl hs y hy rfl).1, fun ha => (hl hs y hy rfl).2 fun w hw _ => ha w hw⟩⟩

theorem nextCopy_some {x : Cluster} (h : x.copies ≠ []) : x.nextCopy.isSome = true := by
  unfold Cluster.nextCopy
  cases hc : x.copies with
  | nil => exact absurd hc h
  | cons y ys => cases List.find? (fun r => decide (x.copyTurn ≤ r.id)) (y :: ys) <;> rfl

theorem nextPut_some {x : Cluster} (h : ∃ z ∈ x.putq, z.pieces ≠ []) : x.nextPut.isSome = true := by
  obtain ⟨z, hz, hp⟩ := h
  unfold Cluster.nextPut
  exact turn_some hz (by simpa using hp)

theorem nextPut_least {x : Cluster} {z : PutEntry} (h : x.nextPut = some z) : z ∈ x.putq ∧ z.pieces ≠ [] ∧
    ((x.putq.map (·.id)).Pairwise (· < ·) → ∀ y ∈ x.putq, y.pieces ≠ [] →
      (x.putTurn ≤ y.id → x.putTurn ≤ z.id ∧ z.id ≤ y.id) ∧ ((∀ w ∈ x.putq, w.pieces ≠ [] → w.id < x.putTurn) → z.id ≤ y.id)) := by
  unfold Cluster.nextPut at h
  obtain ⟨hm, hz, hl⟩ := turn_least (id := PutEntry.id) (q := fun e : PutEntry => !e.pieces.isEmpty) h
  refine ⟨hm, by simpa using hz, fun hs y hy hp => ?_⟩
  obtain ⟨h1, h2⟩ := hl hs y hy (by simpa using hp)
  exact ⟨h1, fun ha => h2 fun w hw hpw => ha w hw (by simpa using hpw)⟩

end Sys2Proof.Machine
end

section
/-! PROOFS. O51: puts, rows and copies on their way, step by step (R143, R169, R174, R176, R238, R290–R293). -/

namespace Sys2Proof.Machine

variable {s : State} {cl core e : Nat}

/-- An engine with rows to send sends the next piece of one of them (R238). -/
theorem putTPiece_sends (h : (s.engine e).openRows ≠ []) : ∃ t z q qs, exec (.putTPiece e) s = .next t ∧ z ∈ (s.engine e).puts ∧ z.pieces = q :: qs ∧
    t.mem = s.mem ∧ t.ctxs = s.ctxs ∧
    t.flights = s.flights ++ [s.waitingFlight (e / 4) (8 + e % 4) z.binding (Req.piece (z.agent e) 3 q (z.ctr.getD 0) (.tput e z.id))] ∧
    (t.engine e).puts = (s.engine e).puts.map (fun y => if y.id = z.id then z.sent qs else y) := by
  obtain ⟨u, z, q, qs, ⟨efcs, ctrs, energy, fresh, rfl⟩, hz, hp, he⟩ := sendTilePiece_sends h
  refine ⟨_, z, q, qs, congrArg Host.Outcome.next he, hz, hp, ?_⟩
  rw [send_from (s := s) (by rfl) (by rfl) _ _ _ (show ReqKind.putLine ≠ .wb by decide)]
  refine ⟨rfl, rfl, rfl, ?_⟩
  exact congrArg Engine.puts (engine_modEngine_same { s with efcs := efcs, ctrs := ctrs, energy := energy, fresh := fresh } e
    (fun x => { x with puts := x.puts.map (fun r => if r.id = z.id then z.sent qs else r) }))

theorem putTPiece_idle (h : (s.engine e).openRows = []) : s.sendTilePiece e = s := by
  unfold State.sendTilePiece
  simp [h]

/-- A word of a line of which no word is cached is not cached. -/
theorem absent_of_line {pa : Nat} (h : ∀ w < 8, (s.clWord cl (lineOf pa + 8 * w)).st = .i) : (s.clWord cl pa).st = .i := by
  have e : lineOf pa + 8 * (pa / 8 % 8) = wordOf pa := by
    unfold lineOf wordOf
    omega
  have hw := h (pa / 8 % 8) (Nat.mod_lt _ (by decide))
  rwa [e, clWord_wordOf] at hw

/-- Settles O51: each step by its lemma above; a copy that stops by what the memory system leaves alone. -/
theorem putAndCopySteps : Obligations.PutAndCopySteps := by
  unfold Obligations.PutAndCopySteps
  refine ⟨fun s cl id bytes e => ?_, fun s cl core => ?_⟩
  · obtain ⟨hidle, hland⟩ := putLanded_eq (s := s) (cl := cl) id bytes
    refine ⟨fun h => congrArg Host.Outcome.next (nextPut_none h), nextPut_some, fun z => nextPut_least, fun z p ps hz hp => congrArg Host.Outcome.next (putSend_eq hz hp),
      fun h => congrArg Host.Outcome.next (hidle h), fun z qs hq hid => ?_,
      fun h => congrArg Host.Outcome.next (putTPiece_idle h), putTPiece_sends⟩
    obtain ⟨h1, h2⟩ := hland z qs hq hid
    exact ⟨fun c hc => congrArg Host.Outcome.next (h1 c hc), fun hc hn => congrArg Host.Outcome.next (h2 hc hn)⟩
  · refine ⟨fun h => congrArg Host.Outcome.next (copyTakeUp_none h), fun q rest w hq hr _ hw => takeUp_ok hq hr fun j hj => ?_,
      fun h => congrArg Host.Outcome.next (copyBurst_none h), nextCopy_some, fun r hr => ⟨nextCopy_least hr, copyBurst_done hr, copyBurst_suspended hr, ?_⟩,
      fun h => ?_, fun c hk hc hs hq => ?_, fun h => ?_, fun j m rest => trapRecordEnter_ok⟩
    · obtain ⟨h1, h2, h3, h4⟩ := hw j hj
      exact ⟨⟨h1, h2, h3⟩, h4⟩
    · intro a b n v hmore hs hp _ hc hfl hsl ha hb hrun hm
      refine copyBurst_lands (v := v) hr rfl rfl rfl hmore hs hp hc ⟨ha, fun j hj => ?_⟩ ⟨hb, fun j hj => ?_⟩ (fun j hj => ?_) (fun j hj => ?_) hm
      all_goals obtain ⟨hba, hbb, hda, hdb, ho, hbad, hsing, hv, habsent, hdir, hfot, hfar⟩ := hrun j hj
      · exact ⟨hba, hda⟩
      · exact ⟨hbb, hdb⟩
      · exact ⟨⟨ho, hbad, hsing⟩, hv⟩
      · exact ⟨⟨hfl, hsl, hdir, hfot⟩, absent_of_line habsent, backed_joined hbb, hfar⟩
    · show Host.Outcome.next (s.stopEnters cl) = _
      unfold State.stopEnters
      rw [h, List.foldl_nil]
    · obtain ⟨t, more, he, h⟩ := stopEnters_ok hk hc hs hq
      exact ⟨t, more, congrArg Host.Outcome.next he, h⟩
    · show Host.Outcome.next (if (s.core core).slots.isEmpty || decide (64 ≤ (s.core core).mq.length) then s else _) = _
      rw [if_pos (by simpa using h)]

end Sys2Proof.Machine
end

section
/-! PROOFS. What a dispatcher decides: demotion, the thread it chooses, and where it does nothing (R29–R31, R277). -/

namespace Sys2Proof.Machine

variable {s : State} {cl : Nat}

/-! Demotion where no tenant is over its share. -/

/-- No tenant is over its share. -/
def State.within (s : State) : Prop := ∀ sock tno, s.overShare sock tno = false

theorem demote_within (h : s.within) (cl q : Nat) : ∀ n, demote cl q n s = s
  | 0 => rfl
  | n + 1 => by
    unfold demote
    cases s.queue cl q with
    | nil => rfl
    | cons t ts => exact if_neg (by rw [h]; decide)

theorem demoteAll_within (h : s.within) (cl : Nat) : s.demoteAll cl = s := foldl_id _ s _ fun k _ => demote_within h cl (k + 1) _

theorem level_within (h : s.within) (cl q tcb : Nat) : s.level cl q tcb = q := by
  unfold State.level
  rw [h, Bool.or_false]
  split
  · next e => exact (of_decide_eq_true e).symm
  · rfl

theorem apart_lookOver (s : State) (cl : Nat) : Apart s (s.lookOver cl) := keep_lookOver (plain_apart s) (Apart.refl s)

theorem within_lookOver (h : s.within) (cl : Nat) : (s.lookOver cl).within := fun sock tno => by
  have hp := (apart_lookOver s cl).pkg sock
  have he := h sock tno
  unfold PkgKept at hp
  unfold State.overShare State.tenant at he ⊢
  rw [hp]
  exact he

/-! The choice. -/

/-- The ranks of threads fall with their queues (R30). -/
theorem ranked_falls (h : s.within) (cl : Nat) : (s.ranked cl).Pairwise fun a b => b.1 ≤ a.1 := by
  have hqs : ((List.range 24).map (23 - ·)).Pairwise fun a b => b ≤ a := by decide
  have hall : (((List.range 24).map (23 - ·)).flatMap (fun q => (s.queue cl q).map (fun t => (q, t)))).Pairwise fun a b => b.1 ≤ a.1 := by
    refine List.pairwise_flatMap.2 ⟨fun q _ => List.pairwise_map.2 (List.pairwise_of_forall fun _ _ => le_rfl), hqs.imp fun hab x hx y hy => ?_⟩
    obtain ⟨_, -, rfl⟩ := List.mem_map.1 hx
    obtain ⟨_, -, rfl⟩ := List.mem_map.1 hy
    exact hab
  have hnone : (((List.range 24).map (23 - ·)).flatMap (fun q => (s.queue cl q).map (fun t => (q, t)))).filter
      (fun e => e.1 != 0 && s.level cl e.1 e.2 == 0) = [] := by
    refine List.filter_eq_nil_iff.2 fun e _ => ?_
    rw [level_within h]
    simp
  unfold State.ranked
  dsimp only
  rw [hnone, List.append_nil]
  refine List.pairwise_append.2 ⟨hall.filter _, List.pairwise_map.2 (List.pairwise_of_forall fun _ _ => le_rfl), fun a _ b hb => ?_⟩
  obtain ⟨_, -, rfl⟩ := List.mem_map.1 hb
  exact Nat.zero_le _

theorem fits_iff (free tcb : Nat) : s.fits cl cl free tcb = true ↔
    ((s.party cl tcb).length ≤ free ∨ (1 < (s.party cl tcb).length ∧ (s.victimFor cl tcb).isSome = true)) := by
  simp [State.fits]

/-- The thread chosen stands in a queue, may be placed and fits, and in no higher queue is there another (R30). -/
theorem choose_some (h : s.within) {free q tcb : Nat} (hc : s.choose cl cl free = some (q, tcb)) :
    q < 24 ∧ tcb ∈ s.queue cl q ∧ s.eligible cl cl q tcb = true ∧ s.fits cl cl free tcb = true ∧
      ∀ p, q < p → p < 24 → ∀ u ∈ s.queue cl p, s.eligible cl cl p u = false ∨ ¬ s.fits cl cl free u = true := by
  obtain ⟨hp, as, bs, hl, has⟩ := List.find?_eq_some_iff_append.1 hc
  have hm : (q, tcb) ∈ s.ranked cl := by rw [hl]; simp
  obtain ⟨hq, hu⟩ := mem_ranked.1 hm
  obtain ⟨he, hf⟩ := Bool.and_eq_true_iff.1 hp
  refine ⟨hq, hu, he, hf, fun p hqp hp24 u hup => ?_⟩
  have hmu : (p, u) ∈ s.ranked cl := mem_ranked.2 ⟨hp24, hup⟩
  have hfall := ranked_falls h cl
  rw [hl] at hmu hfall
  rcases List.mem_append.1 hmu with hin | hin
  · have hn := has _ hin
    cases hep : s.eligible cl cl p u with
    | false => exact .inl rfl
    | true => exact .inr fun hfu => by simp [hep, hfu] at hn
  · have hle : p ≤ q := by
      rcases List.mem_cons.1 hin with e | hin
      · exact le_of_eq (congrArg Prod.fst e)
      · exact (List.pairwise_cons.1 (List.pairwise_append.1 hfall).2.1).1 _ hin
    omega

theorem choose_none {free : Nat} (h : ∀ q < 24, ∀ u ∈ s.queue cl q, s.eligible cl cl q u = false ∨ ¬ s.fits cl cl free u = true) :
    s.choose cl cl free = none := by
  refine List.find?_eq_none.2 fun e he hp => ?_
  obtain ⟨hq, hu⟩ := mem_ranked.1 he
  obtain ⟨h1, h2⟩ := Bool.and_eq_true_iff.1 hp
  rcases h _ hq _ hu with h | h
  · rw [h] at h1; cases h1
  · exact h h2

theorem preempting_none (h : ∀ q < 24, ∀ u ∈ s.queue cl q, s.eligible cl cl q u = false) : s.preempting cl = none := by
  unfold State.preempting
  rw [List.find?_eq_none.2 fun e he hp => ?_]
  · rfl
  · obtain ⟨hq, hu⟩ := mem_ranked.1 he
    rw [h _ hq _ hu] at hp
    cases hp

/-! The decisions on the state that the dispatcher has read. -/

theorem placement_idle (h : s.within) (hc : (s.lookOver cl).choose cl cl ((s.lookOver cl).vacants cl).length = none) :
    exec (.placement cl) s = .next (s.lookOver cl) := by
  show Host.Outcome.next (s.placement cl) = _
  unfold State.placement
  rw [demoteAll_within (within_lookOver h cl)]
  simp only [hc]

theorem placement_chooses (h : s.within) {q tcb : Nat} (hc : (s.lookOver cl).choose cl cl ((s.lookOver cl).vacants cl).length = some (q, tcb)) :
    exec (.placement cl) s = .next ((s.lookOver cl).placeWith cl tcb) := by
  show Host.Outcome.next (s.placement cl) = _
  unfold State.placement
  rw [demoteAll_within (within_lookOver h cl)]
  simp only [hc]

theorem preemption_idle (h : s.within) (hp : (s.lookOver cl).preempting cl = none) : exec (.preemption cl) s = .next (s.lookOver cl) := by
  show Host.Outcome.next (s.preemption cl) = _
  unfold State.preemption
  rw [demoteAll_within (within_lookOver h cl)]
  simp only [hp]

/-- A single thread frees the context of its victim (R31). -/
theorem preemption_frees (h : s.within) {u x : Nat} (hp : (s.lookOver cl).preempting cl = some u) (hg : (s.lookOver cl).groupNo cl u = none)
    (hv : (s.lookOver cl).victimFor cl u = some x) : exec (.preemption cl) s = .next ((s.lookOver cl).preempt x) := by
  have hparty : (s.lookOver cl).party cl u = [u] := by
    unfold State.party
    simp only [hg]
  show Host.Outcome.next (s.preemption cl) = _
  unfold State.preemption
  rw [demoteAll_within (within_lookOver h cl)]
  simp only [hp, hparty, hv]
  rfl

/-- A victim is among the candidates, and those among the user contexts of the cluster. -/
theorem victim_mem {l : List Nat} {x : Nat} (h : s.victim cl l = some x) : x ∈ l := by
  cases l with
  | nil => cases h
  | cons a rest =>
    have key : ∀ (l : List Nat) (b : Nat), l.foldl (fun b c => if s.worse cl c b then c else b) b ∈ b :: l := by
      intro l
      induction l with
      | nil => intro b; exact List.mem_singleton_self b
      | cons c l ih =>
        intro b
        have hi := ih (if s.worse cl c b then c else b)
        rw [List.foldl_cons]
        rcases List.mem_cons.1 hi with e | hi
        · rw [e]
          split <;> simp
        · exact List.mem_cons_of_mem _ (List.mem_cons_of_mem _ hi)
    cases h
    exact key rest a

theorem victimFor_mem {tcb x : Nat} (h : s.victimFor cl tcb = some x) : x ∈ s.userCtxs cl := by
  unfold State.victimFor at h
  dsimp only at h
  split at h
  · exact List.mem_of_mem_filter (victim_mem h)
  · cases h

theorem of_mem_userCtxs {x : Nat} (h : x ∈ s.userCtxs cl) : isX7 x = false ∧ clusterOf x = cl := by
  obtain ⟨k, hk, hx⟩ := List.mem_flatMap.1 h
  obtain ⟨i, hi, rfl⟩ := List.mem_map.1 hx
  obtain ⟨j, hj, rfl⟩ := List.mem_map.1 (List.mem_of_mem_filter hk)
  rw [List.mem_range] at hi hj
  refine ⟨beq_false_of_ne ?_, ?_⟩
  · omega
  · show (8 * (8 * cl + j) + i) / 64 = cl
    omega

end Sys2Proof.Machine
end

section
/-! PROOFS. A thread placed, pre-empted or pulled: its context and its queues (R30, R31, R33, R34, R277). -/

namespace Sys2Proof.Machine

variable {s t : State} {cl : Nat}

/-! A table read takes no number of the model's own. -/

theorem quiet_seq (n : Nat) : Quiet (fun t : State => t.seq = n) where
  records := fun _ _ _ _ _ h => h

theorem seq_dropOwner (s : State) (pa : Nat) : (s.dropOwner pa).seq = s.seq := by
  unfold State.dropOwner
  dsimp only
  split
  · rfl
  · split <;> rfl

theorem seq_wbWord (s : State) (r : Req) (w : Nat) : (s.wbWord r w).seq = s.seq := seq_dropOwner s _

theorem seq_landWb (s : State) (pa : Nat) : (s.landWb pa).seq = s.seq := by
  unfold State.landWb
  split
  · rfl
  · refine foldl_keeps (p := fun t => t.seq = s.seq) (fun t w h => ?_) _ (keep_chargeHome (quiet_seq _) (keep_draw (quiet_seq _) rfl))
    split
    · exact (seq_wbWord t _ _).trans h
    · exact h

theorem seq_mend (s : State) (pa : Nat) : (s.mend cl pa).seq = s.seq := by
  unfold State.mend
  split
  · exact keep_countCluster (quiet_seq _) rfl
  · rfl

theorem seq_memoryFetch {n : Nat} (h : s.seq = n) (tno : BitVec 12) (org pa : Nat) : Holds (fun t => t.seq = n) (memoryFetch tno org pa) s := by
  unfold memoryFetch
  refine holds_get_bind ?_
  dsimp only
  split
  · exact holds_pure _ h
  · exact holds_set_bind (holds_pure _ (keep_noteError (quiet_seq n) h))
  · exact holds_set_bind (holds_throw _ (keep_noteError (quiet_seq n) h))
  · split
    · exact holds_set_bind (holds_pure _ (keep_noteError (quiet_seq n) h))
    · exact holds_set_bind (holds_throw _ (keep_noteError (quiet_seq n) h))

theorem seq_homeFetch {n : Nat} (h : s.seq = n) (tno : BitVec 12) (org pa : Nat) : Holds (fun t => t.seq = n) (homeFetch tno org pa) s := by
  unfold homeFetch
  refine holds_get_bind ?_
  split
  · exact seq_memoryFetch h tno org pa
  · exact holds_set_bind (holds_pure _ (keep_noteError (quiet_seq n) h))
  · exact holds_set_bind (seq_memoryFetch (s := { s with slc := tdel s.slc pa }) h tno org pa)
  · exact holds_throw _ h

theorem seq_homeForward (s : State) (tno : BitVec 12) (org pa : Nat) : Holds (fun t => t.seq = s.seq) (homeForward tno org pa) s := by
  unfold homeForward
  refine holds_modify_bind (holds_get_bind ?_)
  split
  · exact seq_homeFetch (seq_landWb s pa) tno org pa
  · split
    · exact holds_set_bind (holds_throw _ ((seq_dropOwner _ _).trans (seq_landWb s pa)))
    · exact holds_set_bind (holds_pure _ ((seq_mend _ _).trans (seq_landWb s pa)))

theorem seq_readTable (s : State) (here pa : Nat) : (s.readTable here pa).2.seq = s.seq := by
  unfold State.readTable
  split
  · have h := seq_homeForward s 0 0 pa
    cases e : homeForward 0 0 pa s with
    | ok x t => exact h.ok e
    | error b t =>
      have ht : t.seq = s.seq := h.error e
      exact ht
  · rfl

theorem seq_takeQuantum (s : State) (sock : Nat) (tno : BitVec 12) (prio : Nat) : (s.takeQuantum sock tno prio).2.seq = s.seq := by
  unfold State.takeQuantum
  split
  · rfl
  · exact seq_readTable ..

/-! A placement. -/

/-- The quantum with which a thread is placed: what it has left, or a fresh one. -/
def State.placedQuantum (u : State) (cl tcb : Nat) : Nat × State :=
  if (u.restored cl tcb).qleft = 0 then u.takeQuantum (cl / 64) (u.restored cl tcb).tno (u.restored cl tcb).prio.toNat else ((u.restored cl tcb).qleft, u)

/-- The context of a thread that is placed. -/
def State.placedContext (u : State) (cl tcb : Nat) : Context :=
  { u.restored cl tcb with qleft := (u.placedQuantum cl tcb).1, placed := u.seq, fenced := tfind u.fences tcb, since := u.time }

/-- What a dispatcher has read of a thread that it places. -/
def State.readThread (s : State) (cl q tcb : Nat) : State × Option Nat := readUnit cl 13 (tcbWords tcb) ((s.unlink cl q tcb).discardU cl)

theorem apart_placedQuantum (u : State) (cl tcb : Nat) : Apart u (u.placedQuantum cl tcb).2 ∧ (u.placedQuantum cl tcb).2.seq = u.seq := by
  unfold State.placedQuantum
  split
  · exact ⟨apart_takeQuantum .., seq_takeQuantum ..⟩
  · exact ⟨.refl u, rfl⟩

/-- What a placement writes after the context. -/
def State.recordPlaced (s : State) (cl tcb c last : Nat) (tno : BitVec 12) : State :=
  let s := ((s.setTstate cl tcb 2 0).setTcb cl tcb 0xC50 (BitVec.ofNat 64 (placeOf c))).dispatchEvent cl 1 tcb tno (placeOf c) 0 0
  if last / 64 % 512 = cl % 512 then s else s.dispatchEvent cl 6 tcb tno (placeOf c) 0 0

theorem keep_recordPlaced {P : State → Prop} (K : Plain P) {tcb c last : Nat} {tno : BitVec 12} (h : P s) : P (s.recordPlaced cl tcb c last tno) := by
  unfold State.recordPlaced
  have h1 : P (((s.setTstate cl tcb 2 0).setTcb cl tcb 0xC50 (BitVec.ofNat 64 (placeOf c))).dispatchEvent cl 1 tcb tno (placeOf c) 0 0) :=
    keep_dispatchEvent K.toQuiet (keep_setTcb K (keep_setTstate K h))
  dsimp only
  split
  · exact h1
  · exact keep_dispatchEvent K.toQuiet h1

/-- A thread placed once its TCB has been read. -/
def State.occupied (u : State) (cl tcb c : Nat) : State :=
  (State.dropFence { (u.placedQuantum cl tcb).2.setCtx c (u.placedContext cl tcb) with seq := u.seq + 1 } tcb).recordPlaced cl tcb c
    (u.tcbWord cl tcb 0xC50).toNat (u.restored cl tcb).tno

/-- The context and the state after a placement's quantum. -/
theorem placedContext_eq (u : State) (cl tcb : Nat) : { u.restored cl tcb with
    qleft := (u.placedQuantum cl tcb).1, placed := (u.placedQuantum cl tcb).2.seq, fenced := tfind (u.placedQuantum cl tcb).2.fences tcb,
    since := (u.placedQuantum cl tcb).2.time } = u.placedContext cl tcb := by
  obtain ⟨ha, hs⟩ := apart_placedQuantum u cl tcb
  have ht : (u.placedQuantum cl tcb).2.time = u.time := by rw [State.time, ha.clock, State.time]
  rw [ha.fences, hs, ht]
  rfl

/-- An uncorrectable error in a TCB parks the context FAULT (R40). -/
def State.orFault (t : State) (c : Nat) (bad : Option Nat) : State :=
  match bad with
  | none => t
  | some pa => t.takeTrap c (Trap.of .memoryError (BitVec.ofNat 64 pa) 0) 0 0

theorem place_of_read {u : State} {bad : Option Nat} {q tcb : Nat} (h : s.readThread cl q tcb = (u, bad)) (c : Nat) :
    s.place cl q tcb c = (u.occupied cl tcb c).orFault c bad := by
  unfold State.readThread at h
  unfold State.place State.occupied State.recordPlaced
  dsimp only
  rw [h, ← placedContext_eq, ← (apart_placedQuantum u cl tcb).2]
  cases hq : u.placedQuantum cl tcb with
  | mk ql v =>
    unfold State.placedQuantum at hq
    dsimp only
    rw [hq]
    cases bad <;> rfl

theorem ctx_occupied (u : State) (cl tcb : Nat) {c : Nat} (hc : isX7 c = false) : (u.occupied cl tcb c).ctx c = u.placedContext cl tcb := by
  unfold State.occupied
  refine ((keep_recordPlaced (plain_apart _) (Apart.refl _)).user c hc).trans ?_
  show (State.setCtx _ c _).ctx c = _
  rw [ctx_setCtx, if_pos rfl]

/-! Queues. -/

/-- The clusters keep their queues and lists of threads. -/
def Queued (s t : State) : Prop := ∀ n, SchedKept (s.cluster n) (t.cluster n)

theorem plain_queued (s : State) : Plain (Queued s) where
  records := fun _ _ _ _ _ h => h
  upd := fun _ _ _ _ _ _ _ _ _ _ h => h
  mem := fun _ _ _ h => h
  queue := fun _ _ _ _ _ _ _ h _ _ => h
  wake := fun _ _ h => h
  cluster := fun t n f h hf k => by
    rw [cluster_modCluster]
    split
    · next e =>
      subst e
      exact (h k).trans (hf _).sched
    · exact h k
  engine := fun _ _ _ h _ => h
  pkgKept := fun _ _ _ h _ => h

theorem Queued.refl (s : State) : Queued s s := fun _ => .refl _

theorem queued_takeTrap (s : State) {c : Nat} (hc : isX7 c = false) (tr : Trap) (w0 w1 : BitVec 32) : Queued s (s.takeTrap c tr w0 w1) := by
  have K := plain_queued s
  have hpark : ∀ (u : State) (r : Reason) (n : Nat), Queued s u → Queued s (u.park c r n) := by
    intro u r n hu
    have h1 : Queued s ((u.squash c).modCtx c (fun x => { x with life := .parked r, stall := .none, attempt := 0, inwfm := false, held := none })) :=
      fun k => (hu k).trans ((watched_squash u c).sched k)
    unfold State.park
    dsimp only
    rw [if_neg (by rw [hc]; decide)]
    refine keep_dispatchEvent K.toQuiet ?_
    split
    · exact h1
    · exact keep_setTstate K h1
  unfold State.takeTrap
  dsimp only
  rw [if_neg (by rw [hc]; decide)]
  exact keep_enterTrap K (hpark _ _ _ (Queued.refl s))

theorem queued_occupied (u : State) (cl tcb c : Nat) : Queued u (u.occupied cl tcb c) := by
  unfold State.occupied
  refine keep_recordPlaced (plain_queued u) ?_
  have h : Queued u (u.placedQuantum cl tcb).2 := fun n => ((apart_placedQuantum u cl tcb).1.cluster n).sched
  exact h

theorem queue_of_queued (h : Queued s t) (cl q : Nat) : t.queue cl q = s.queue cl q := SchedKept.queue h cl q

theorem queue_setQueue_all (s : State) (cl q : Nat) (l : List Nat) : (s.setQueue cl q l).queue cl q = l := by
  cases l with
  | nil =>
    unfold State.queue State.setQueue
    rw [cluster_modCluster_same]
    show tget (tdel _ q) q [] = []
    rw [tget, tfind_tdel, if_pos rfl]
    rfl
  | cons a l => exact queue_setQueue s cl q (List.cons_ne_nil a l)

/-- A thread that is unlinked stands in its queue no more (R277). -/
theorem queue_unlink (s : State) (cl q tcb : Nat) : (s.unlink cl q tcb).queue cl q = (s.queue cl q).filter (· != tcb) := by
  unfold State.unlink
  dsimp only
  split
  · refine Eq.trans ?_ (queue_setQueue_all (s.relink cl (s.queue cl q) tcb) cl q _)
    rw [State.queue, cluster_modCluster_same]
    rfl
  · exact queue_setQueue_all ..

theorem notMem_unlink (s : State) (cl q tcb : Nat) : tcb ∉ (s.unlink cl q tcb).queue cl q := by
  rw [queue_unlink, List.mem_filter]
  simp

theorem notMem_place (s : State) (q tcb : Nat) {c : Nat} (hc : isX7 c = false) : tcb ∉ (s.place cl q tcb c).queue cl q := by
  have h1 : Queued (s.unlink cl q tcb) (s.readThread cl q tcb).1 := keep_readUnit (plain_queued _) (keep_discardU (plain_queued _) (.refl _))
  cases h : s.readThread cl q tcb with
  | mk u bad =>
  rw [h] at h1
  have h2 : Queued (s.unlink cl q tcb) (u.occupied cl tcb c) := fun n => (h1 n).trans (queued_occupied u cl tcb c n)
  have h3 : Queued (s.unlink cl q tcb) (s.place cl q tcb c) := by
    rw [place_of_read h]
    cases bad with
    | none => exact h2
    | some pa => exact fun n => (h2 n).trans (queued_takeTrap _ hc _ _ _ n)
  rw [queue_of_queued h3]
  exact notMem_unlink s cl q tcb

/-- A thread in a queue has a queue. -/
theorem queueOf_some {q tcb : Nat} (h : tcb ∈ s.queue cl q) : ∃ p, s.queueOf cl tcb = some p := by
  unfold State.queueOf
  refine Option.isSome_iff_exists.1 (List.findSome?_isSome_iff.2 ?_)
  unfold State.queue tget at h
  cases hf : tfind (s.cluster cl).runq q with
  | none => rw [hf] at h; cases h
  | some l =>
    rw [hf] at h
    have hl : l.contains tcb = true := by simpa using h
    exact ⟨(q, l), mem_of_tfind hf, by simp only [hl, if_true, Option.isSome_some]⟩

/-- A thread that chooses no party is placed on the first vacant context (R30). -/
theorem placeWith_single {tcb x : Nat} {xs : List Nat} (hg : s.groupNo cl tcb = none) (hv : s.vacants cl = x :: xs) :
    s.placeWith cl tcb = s.place cl ((s.queueOf cl tcb).getD 0) tcb x := by
  have hp : s.party cl tcb = [tcb] := by
    unfold State.party
    simp only [hg]
  have hf : freeFor cl (s.partyLevel cl tcb) 1 56 s = s := by
    show freeFor cl _ 1 (55 + 1) s = s
    unfold freeFor
    rw [if_pos (by rw [hv]; simp)]
  have hl : [tcb].length ≤ (s.vacants cl).length := by rw [hv]; simp
  unfold State.placeWith
  rw [hp]
  dsimp only
  rw [List.length_singleton, hf, State.placeParty, if_pos hl, hv, List.zip_cons_cons, List.zip_nil_left, List.foldl_cons, List.foldl_nil]

/-- A placement of a single thread: its queue, and its context where its TCB was read without error. -/
theorem placement_places (h : s.within) {q tcb x : Nat} {xs : List Nat} (hc : (s.lookOver cl).choose cl cl ((s.lookOver cl).vacants cl).length = some (q, tcb))
    (hg : (s.lookOver cl).groupNo cl tcb = none) (hv : (s.lookOver cl).vacants cl = x :: xs) : ∃ t p, exec (.placement cl) s = .next t ∧
      tcb ∉ t.queue cl p ∧ (s.lookOver cl).queueOf cl tcb = some p ∧
      (((s.lookOver cl).readThread cl p tcb).2 = none → t.ctx x = ((s.lookOver cl).readThread cl p tcb).1.placedContext cl tcb) := by
  have hx : isX7 x = false := by
    have hm : x ∈ (s.lookOver cl).vacants cl := by rw [hv]; simp
    exact (of_mem_userCtxs (List.mem_of_mem_filter hm)).1
  obtain ⟨-, hq, -⟩ := choose_some (within_lookOver h cl) hc
  obtain ⟨p, hp⟩ := queueOf_some hq
  refine ⟨_, p, (placement_chooses h hc).trans (congrArg Host.Outcome.next (placeWith_single hg hv)), ?_, hp, fun hb => ?_⟩
  · rw [hp]
    exact notMem_place _ p tcb hx
  · rw [hp]
    cases hr : (s.lookOver cl).readThread cl p tcb with
    | mk u bad =>
      rw [hr] at hb
      have hb : bad = none := hb
      subst hb
      show (State.place _ cl p tcb x).ctx x = _
      rw [place_of_read hr]
      exact ctx_occupied u cl tcb hx

/-- A pre-emption of a single thread: its context is vacant and, unless it waited, it stands last in its queue (R31). -/
theorem preempt_single {x : Nat} (hx : x ∈ s.userCtxs cl) (hg : s.groupNo cl (s.ctx x).tcb = none) : (s.preempt x).ctx x = Context.vacant ∧
    ((s.ctx x).life ≠ .parked .cwait → ((s.preempt x).queue cl (s.ctx x).prio.toNat).getLast? = some (s.ctx x).tcb) := by
  obtain ⟨hu, rfl⟩ := of_mem_userCtxs hx
  have he : s.preempt x = s.preemptOne x := by
    unfold State.preempt
    simp only [hg]
  have hv := stays_preemptOne s x hu
  rw [if_pos rfl] at hv
  rw [he]
  exact ⟨hv, fun hl => (Runs.requeued hu ⟨rfl, rfl, hl⟩).2⟩

theorem ne_of_mem_dieMates {d : Nat} (h : d ∈ s.dieMates cl) : d ≠ cl := by
  obtain ⟨k, hk, rfl⟩ := List.mem_map.1 (List.mem_of_mem_filter h)
  rw [List.mem_range] at hk
  omega

/-- A thread pulled stands in its dispatcher's queue no more, and last in one of the dispatcher that pulls (R34). -/
theorem pull_moves {d q tcb p : Nat} (hi : s.idle cl = true) (hp : s.pullable cl = some (d, q, tcb)) (hg : s.groupNo d tcb = none)
    (hq : s.queueOf d tcb = some p) : ∃ t, exec (.pull cl) s = .next t ∧ tcb ∉ t.queue d p ∧
      (t.queue cl (((s.readHeaders d [tcb]).unlink d p tcb).tcbPrio cl tcb)).getLast? = some tcb := by
  have hd : d ≠ cl := by
    obtain ⟨e, he, hf⟩ := List.exists_of_findSome?_eq_some hp
    obtain ⟨c, -, hc⟩ := Option.map_eq_some_iff.1 hf
    have hed : e = d := congrArg Prod.fst hc
    exact ne_of_mem_dieMates (hed ▸ he)
  have hparty : s.party d tcb = [tcb] := by
    unfold State.party
    simp only [hg]
  have key : ∀ (w : State) (tno : BitVec 12), Queued (w.append cl (w.tcbPrio cl tcb) tcb)
      (((w.append cl (w.tcbPrio cl tcb) tcb).readHeaders cl [tcb]).dispatchEvent cl 5 tcb tno 0 0 0) := fun w tno =>
    keep_dispatchEvent (plain_queued _).toQuiet (keep_readHeaders (plain_queued _) (.refl _))
  have he : exec (.pull cl) s = .next (((((s.readHeaders d [tcb]).unlink d p tcb).append cl
      (((s.readHeaders d [tcb]).unlink d p tcb).tcbPrio cl tcb) tcb).readHeaders cl [tcb]).dispatchEvent cl 5 tcb
        (((s.readHeaders d [tcb]).unlink d p tcb).tcbTno cl tcb) 0 0 0) := by
    show Host.Outcome.next (s.pull cl) = _
    unfold State.pull
    simp only [hi, hp, hparty, hq, List.foldl_cons, List.foldl_nil, Bool.not_true, Bool.false_eq_true, if_false, Option.getD_some]
  have hout := notMem_unlink (s.readHeaders d [tcb]) d p tcb
  generalize (s.readHeaders d [tcb]).unlink d p tcb = w at he hout ⊢
  refine ⟨_, he, ?_, ?_⟩
  · rw [queue_of_queued (key w _), append_eq, queue_setQueue_other _ _ fun e => hd e.1, SchedKept.queue fun n => sched_linkLast w _ _ _ n]
    exact hout
  · rw [queue_of_queued (key w _)]
    exact getLast_queue_append ..

end Sys2Proof.Machine
end

section
/-! PROOFS. A context bound to an engine, and the end of a thread (R35, R39, R154, R226). Then O47. -/

namespace Sys2Proof.Machine

variable {s t : State} {e : Nat}

/-! The tiles that are free after the dispatcher has read. -/

/-- No tile is held by a `put.t` of an engine that was not before. -/
def HeldWithin (s t : State) : Prop := ∀ e, (t.engine e).puts.filterMap (·.held) ⊆ (s.engine e).puts.filterMap (·.held)

theorem tight_heldWithin (s : State) : Tight (HeldWithin s) where
  records := fun _ _ _ _ _ h => h
  upd := fun _ _ _ _ _ _ _ _ _ _ h => h
  mem := fun _ _ _ h => h
  post := fun _ _ _ h => h
  wake := fun _ _ h => h
  cluster := fun _ _ _ h _ => h
  engine := fun t n f h hf e => by
    rw [engine_modEngine]
    split
    · next he =>
      subst he
      exact fun k hk => h e ((hf _).2 hk)
    · exact h e
  pkgKept := fun _ _ _ h _ => h

theorem tight_readHeaders {P : State → Prop} (K : Tight P) (cl : Nat) (tcbs : List Nat) (h : P s) : P (s.readHeaders cl tcbs) :=
  foldl_keeps (p := P) (fun _ _ h => tight_readUnit K h) tcbs h

theorem Engine.freeTiles_mono {x y : Engine} (h : EngineKept x y) (hp : y.puts.filterMap (·.held) ⊆ x.puts.filterMap (·.held)) (acc : Bool) :
    (x.freeTiles acc).length ≤ (y.freeTiles acc).length := by
  have hsub : y.usedTiles acc ⊆ x.usedTiles acc := by
    unfold EngineKept at h
    intro k hk
    rw [h] at hk
    unfold Engine.usedTiles at hk ⊢
    rw [List.mem_append] at hk ⊢
    refine hk.imp id fun hk => ?_
    rw [List.mem_filterMap] at hk ⊢
    obtain ⟨a, ha, hka⟩ := hk
    exact ⟨a, (List.mem_append.1 ha).elim (List.mem_append_left _) fun ha => List.mem_append_right _ (hp ha), hka⟩
  unfold Engine.freeTiles
  refine (List.monotone_filter_right _ fun k hk => ?_).length_le
  simp only [Bool.not_eq_true', List.contains_eq_mem, decide_eq_false_iff_not] at hk ⊢
  exact fun hm => hk (hsub hm)

theorem Engine.usedTiles_lend (x : Engine) (a : Bool) (u : Option Nat) (acc : Bool) : (x.lend a u).usedTiles acc = x.usedTiles acc := by
  have hb : (x.lend a u).bindings.flatMap (fun b => if acc then b.2.acc else b.2.opd) = x.bindings.flatMap (fun b => if acc then b.2.acc else b.2.opd) := by
    unfold Engine.lend
    cases a <;> simp [tmap, List.flatMap_map]
  unfold Engine.usedTiles
  rw [hb]
  rfl

theorem Engine.freeTiles_lend (x : Engine) (a : Bool) (u : Option Nat) (acc : Bool) : (x.lend a u).freeTiles acc = x.freeTiles acc := by
  unfold Engine.freeTiles
  rw [Engine.usedTiles_lend]

/-! A new binding. -/

/-- The binding of a thread to the free tiles of an engine. -/
def Engine.newBinding (x : Engine) (tcb : Nat) : Binding :=
  { tcb := tcb, acc := (x.freeTiles true).take 4, opd := (x.freeTiles false).take 8, detached := 0, accLent := true, opdLent := true }

/-- An engine with a new binding, its tiles filled. -/
def Engine.withBinding (x : Engine) (b tcb : Nat) (tiles : List AccTile × List OpTile) : Engine :=
  { x with acc := ((x.newBinding tcb).acc.zip tiles.1).foldl (fun t p => tset t p.1 p.2) x.acc
           opd := ((x.newBinding tcb).opd.zip tiles.2).foldl (fun t p => tset t p.1 p.2) x.opd
           bindings := tset x.bindings b (x.newBinding tcb) }

theorem bind_makes (s : State) (e tcb : Nat) (tiles : List AccTile × List OpTile) : ∃ x b,
    x.newBinding tcb = (s.engine e).newBinding tcb ∧ EngineKept (Engine.withBinding x b tcb tiles) ((s.bind e tcb tiles).engine e) := by
  have hx : ∀ acc, (((s.engine e).lend true none).lend false none).freeTiles acc = (s.engine e).freeTiles acc := fun acc => by
    rw [Engine.freeTiles_lend, Engine.freeTiles_lend]
  unfold State.bind
  generalize ((s.engine e).lend true none).lend false none = x at hx
  refine ⟨x, ((List.range 6).find? (fun k => (tfind x.bindings k).isNone)).getD 0, ?_, ?_⟩
  · rw [Engine.newBinding, hx, hx, Engine.newBinding]
  · have h := (apart_setTcb (s.modEngine e (fun _ => x.withBinding (((List.range 6).find? (fun k => (tfind x.bindings k).isNone)).getD 0) tcb tiles))
      (e / 4) tcb 0xC58 (BitVec.ofNat 64 (2 ^ 63 + e % 256))).engine e
    rw [engine_modEngine_same] at h
    exact h

theorem binding_bind (s : State) (e tcb : Nat) (tiles : List AccTile × List OpTile) : ∃ x b, let t := s.bind e tcb tiles
    t.binding e b = (s.engine e).newBinding tcb ∧
      (t.engine e).acc = (((s.engine e).newBinding tcb).acc.zip tiles.1).foldl (fun t p => tset t p.1 p.2) (Engine.acc x) ∧
      (t.engine e).opd = (((s.engine e).newBinding tcb).opd.zip tiles.2).foldl (fun t p => tset t p.1 p.2) (Engine.opd x) := by
  obtain ⟨x, b, hb, hk⟩ := bind_makes s e tcb tiles
  unfold EngineKept Engine.withBinding at hk
  rw [hb] at hk
  refine ⟨x, b, ?_, ?_, ?_⟩
  · rw [State.binding, hk]
    exact (tget_tset ..).trans (if_pos rfl)
  · rw [hk]
  · rw [hk]

theorem ctx_bind (s : State) (e tcb : Nat) (tiles : List AccTile × List OpTile) {c : Nat} (hc : isX7 c = false) : (s.bind e tcb tiles).ctx c = s.ctx c := by
  unfold State.bind
  exact (apart_setTcb _ _ _ _ _).user c hc

theorem tget_foldl_tset {α : Type} {v d : α} {k : Nat} : ∀ (l : List (Nat × α)) (t : Tbl α), (∀ p ∈ l, p.2 = v) → (k ∈ l.map (·.1) ∨ tget t k d = v) →
    tget (l.foldl (fun t p => tset t p.1 p.2) t) k d = v
  | [], _, _, h => h.resolve_left (by simp)
  | p :: l, t, hv, h => by
    rw [List.foldl_cons]
    refine tget_foldl_tset l _ (fun q hq => hv q (List.mem_cons_of_mem _ hq)) ?_
    rw [tget_tset]
    by_cases hk : k = p.1
    · exact .inr (by rw [if_pos hk]; exact hv p List.mem_cons_self)
    · rw [if_neg hk]
      exact h.imp_left fun hm => (List.mem_cons.1 hm).resolve_left hk

/-- A tile of a binding that was filled alike. -/
theorem tget_zip_replicate {α : Type} {as : List Nat} {n : Nat} (v : α) (t : Tbl α) {i : Nat} (hi : i < as.length) (hn : as.length ≤ n) :
    tget ((as.zip (List.replicate n v)).foldl (fun t p => tset t p.1 p.2) t) (as.getD i 0) v = v := by
  refine tget_foldl_tset _ t (fun p hp => ?_) (.inl ?_)
  · exact List.eq_of_mem_replicate (List.of_mem_zip hp).2
  · rw [List.map_fst_zip (by simpa using hn), List.getD_eq_getElem?_getD, List.getElem?_eq_getElem hi]
    exact List.getElem_mem hi

/-- The tiles of a thread that has none saved. -/
def zeroTiles : List AccTile × List OpTile := (List.replicate 4 [], List.replicate 8 { data := [], scale := [] })

theorem accTile_zero {b : Nat} {x : Engine} {g : Engine} {tcb : Nat} (hb : s.binding e b = g.newBinding tcb)
    (ha : (s.engine e).acc = ((g.newBinding tcb).acc.zip zeroTiles.1).foldl (fun t p => tset t p.1 p.2) x.acc)
    (hf : 4 ≤ (g.freeTiles true).length) (n : BitVec 2) : s.accTile e b n = [] := by
  have hl : (g.newBinding tcb).acc.length = 4 := (List.length_take ..).trans (Nat.min_eq_left hf)
  unfold State.accTile
  rw [hb, ha]
  exact tget_zip_replicate (n := 4) [] x.acc (by rw [hl]; omega) hl.le

theorem opTile_zero {b : Nat} {x : Engine} {g : Engine} {tcb : Nat} (hb : s.binding e b = g.newBinding tcb)
    (ha : (s.engine e).opd = ((g.newBinding tcb).opd.zip zeroTiles.2).foldl (fun t p => tset t p.1 p.2) x.opd)
    (hf : 8 ≤ (g.freeTiles false).length) (n : BitVec 3) : s.opTile e b n = { data := [], scale := [] } := by
  have hl : (g.newBinding tcb).opd.length = 8 := (List.length_take ..).trans (Nat.min_eq_left hf)
  unfold State.opTile
  rw [hb, ha]
  exact tget_zip_replicate (n := 8) _ x.opd (by rw [hl]; omega) hl.le

/-- A context parked TILEBIND whose cluster has an engine with room, and whose thread has no tiles saved, binds there (R35). -/
theorem tileBinding_eq {c : Nat} (hl : (s.ctx c).life = .parked .tilebind) (ht : (s.ctx c).tcb ≠ 0) (hh : s.holder (s.ctx c).tcb = none)
    (hr : s.roomyEngine (clusterOf c) = some e) (hf : (s.engine e).hasTiles = true)
    (hs : ((s.readHeaders (clusterOf c) [(s.ctx c).tcb]).tcbWord (clusterOf c) (s.ctx c).tcb 0xC58).getLsbD 62 = false) :
    s.tileBinding c = ((s.readHeaders (clusterOf c) [(s.ctx c).tcb]).bind e (s.ctx c).tcb zeroTiles).bindUnpark c := by
  have hb : s.boundEngine c = none := by
    unfold State.boundEngine
    simp only [hh]
  have hm : ∀ q, s.makeRoomFor (clusterOf c) q = s := fun q => by
    unfold State.makeRoomFor
    simp only [hr]
  have hle : s.leaveElsewhere c = s := by
    unfold State.leaveElsewhere
    simp only [hh]
  unfold State.tileBinding
  rw [if_neg (by simp [hl, ht])]
  dsimp only
  rw [hle, hb, hm]
  unfold State.bindHere
  simp only [Option.isSome_none, Bool.false_eq_true, if_false, hr, hf, hs, ht, decide_false, Bool.not_true, Bool.or_self]
  rfl

theorem bindUnpark_clear {c : Nat} (hf : (s.ctx c).pfault = none) (hp : (s.ctx c).pstop = false) : s.bindUnpark c = s.unpark c := by
  unfold State.bindUnpark
  simp only [hf, hp, Bool.false_eq_true, if_false]

theorem ctx_unpark {c : Nat} (hf : (s.ctx c).pfault = none) : (s.unpark c).ctx c = { s.ctx c with life := .running } := by
  unfold State.unpark
  rw [ctx_modCtx_same]
  exact congrArg (fun f => { s.ctx c with life := .running, pfault := f }) hf.symm

/-- A context of a thread bound to tiles that are free, its binding complete (R35, R226). -/
theorem bound_runs {u : State} {c : Nat} (hc : isX7 c = false) (hpf : (u.ctx c).pfault = none) (hps : (u.ctx c).pstop = false) (tcb : Nat)
    (h4 : 4 ≤ ((u.engine e).freeTiles true).length) (h8 : 8 ≤ ((u.engine e).freeTiles false).length) : ∃ t b,
      (u.bind e tcb zeroTiles).bindUnpark c = t ∧ t.ctx c = { u.ctx c with life := .running } ∧ t.binding e b = (u.engine e).newBinding tcb ∧
      (∀ n, t.accTile e b n = []) ∧ ∀ n, t.opTile e b n = { data := [], scale := [] } := by
  have hx : (u.bind e tcb zeroTiles).ctx c = u.ctx c := ctx_bind u e _ _ hc
  obtain ⟨x, b, hb, ha, ho⟩ := binding_bind u e tcb zeroTiles
  generalize u.bind e tcb zeroTiles = w at hx hb ha ho
  refine ⟨w.unpark c, b, ?_, ?_, hb, fun n => accTile_zero (s := w) hb ha h4 n, fun n => opTile_zero (s := w) hb ho h8 n⟩
  · exact bindUnpark_clear (by rw [hx]; exact hpf) (by rw [hx]; exact hps)
  · rw [ctx_unpark (by rw [hx]; exact hpf), hx]

/-- The tiles that a thread's binding takes are still free when its header has been read. -/
theorem freeTiles_readHeaders (hf : (s.engine e).hasTiles = true) (cl : Nat) (tcbs : List Nat) :
    4 ≤ (((s.readHeaders cl tcbs).engine e).freeTiles true).length ∧ 8 ≤ (((s.readHeaders cl tcbs).engine e).freeTiles false).length := by
  have hu : Apart s (s.readHeaders cl tcbs) := keep_readHeaders (plain_apart s) (Apart.refl s)
  have hheld : HeldWithin s (s.readHeaders cl tcbs) := tight_readHeaders (tight_heldWithin s) _ _ fun _ _ h => h
  have hfree := Engine.freeTiles_mono (hu.engine e) (hheld e)
  simp only [Engine.hasTiles, Bool.and_eq_true, decide_eq_true_eq] at hf
  obtain ⟨h4, h8⟩ := hf
  exact ⟨(Nat.le_of_add_right_le h4).trans (hfree true), (Nat.le_of_add_right_le h8).trans (hfree false)⟩

/-! The end of a thread. -/

theorem drained_iff (cl tcb : Nat) : s.drained cl tcb = true ↔
    (∀ k ∈ s.coresOf cl, ∀ w ∈ (s.core k).sbuf, w.tcb ≠ tcb) ∧ ∀ d ∈ s.enginesOf cl, ∀ w ∈ (s.engine d).storeq, w.tcb ≠ tcb := by
  simp [State.drained, List.all_eq_true]

theorem exitedWrite_waits {cl tcb : Nat} {zs : List Exiting} (hz : s.exiting = { tcb := tcb, cluster := cl } :: zs) (hd : s.drained cl tcb = false) :
    exec (.exitedWrite tcb) s = .next s := by
  show Host.Outcome.next (s.exitedWrite tcb) = _
  unfold State.exitedWrite
  rw [hz, List.find?_cons_of_pos (by simp)]
  simp only [hd, Bool.false_eq_true, if_false]

theorem tcbWord_setTstate {cl tcb : Nat} (ho : (s.clWord cl (tcb + 0xC00)).st = .o) (hb : (s.clWord cl (tcb + 0xC00)).bad = false) (st reason : Nat) :
    (s.setTstate cl tcb st reason).tcbWord cl tcb 0xC00 = BitVec.ofNat 64 (st + reason * 256) := by
  unfold State.setTstate State.setTcb State.setUnitWord State.tcbWord
  exact unitWord_writeUnit_owned 13 ho hb _

theorem exitedWrite_writes {cl tcb : Nat} {zs : List Exiting} (hz : s.exiting = { tcb := tcb, cluster := cl } :: zs) (hd : s.drained cl tcb = true)
    (ho : (s.clWord cl (tcb + 0xC00)).st = .o) (hb : (s.clWord cl (tcb + 0xC00)).bad = false) :
    ∃ t, exec (.exitedWrite tcb) s = .next t ∧ t.exiting = zs ∧ t.tcbWord cl tcb 0xC00 = 6 := by
  have hw := tcbWord_setTstate (s := { s with exiting := zs }) ho hb 6 0
  refine ⟨State.setTstate { s with exiting := zs } cl tcb 6 0, ?_, (apart_setTcb { s with exiting := zs } cl tcb 0xC00 (BitVec.ofNat 64 (6 + 0 * 256))).exiting, hw⟩
  show Host.Outcome.next (s.exitedWrite tcb) = _
  unfold State.exitedWrite
  rw [hz, List.find?_cons_of_pos (by simp)]
  simp only [hd, if_true, List.erase_cons_head]

/-- The context of a thread that is placed, field by field. -/
theorem placedContext_fields (u : State) (cl tcb : Nat) : u.placedContext cl tcb = { u.restored cl tcb with
    placed := u.seq, qleft := if (u.restored cl tcb).qleft = 0 then (u.takeQuantum (cl / 64) (u.restored cl tcb).tno (u.restored cl tcb).prio.toNat).1
      else (u.restored cl tcb).qleft, fenced := tfind u.fences tcb, since := u.time } := by
  unfold State.placedContext State.placedQuantum
  rw [apply_ite Prod.fst]

/-- A placement of a single thread, as its TCB is read (R30, R33). -/
theorem placement_restores {cl q tcb x : Nat} {xs : List Nat} (h : s.within)
    (hc : (s.lookOver cl).choose cl cl ((s.lookOver cl).vacants cl).length = some (q, tcb))
    (hg : (s.lookOver cl).groupNo cl tcb = none) (hv : (s.lookOver cl).vacants cl = x :: xs) : ∃ t p, exec (.placement cl) s = .next t ∧
      tcb ∉ t.queue cl p ∧ (s.lookOver cl).queueOf cl tcb = some p ∧
      let w := readUnit cl 13 (tcbWords tcb) (((s.lookOver cl).unlink cl p tcb).discardU cl)
      let r := w.1.restored cl tcb
      (w.2 = none → t.ctx x = { r with
        placed := w.1.seq, qleft := if r.qleft = 0 then (w.1.takeQuantum (cl / 64) r.tno r.prio.toNat).1 else r.qleft,
        fenced := tfind w.1.fences tcb, since := w.1.time }) := by
  obtain ⟨t, p, ht, hout, hqo, hctx⟩ := placement_places h hc hg hv
  refine ⟨t, p, ht, hout, hqo, ?_⟩
  unfold State.readThread at hctx
  generalize readUnit cl 13 (tcbWords tcb) (((s.lookOver cl).unlink cl p tcb).discardU cl) = w at hctx ⊢
  exact fun hb => (hctx hb).trans (placedContext_fields ..)

/-- A context bound, its binding and its tiles spelled out (R35, R224, R226). -/
theorem tileBinding_binds {c : Nat} (hc : isX7 c = false) (hl : (s.ctx c).life = .parked .tilebind) (ht : (s.ctx c).tcb ≠ 0)
    (hpf : (s.ctx c).pfault = none) (hps : (s.ctx c).pstop = false) (hh : s.holder (s.ctx c).tcb = none)
    (hr : s.roomyEngine (clusterOf c) = some e) (hf : (s.engine e).hasTiles = true)
    (hs : ((s.readHeaders (clusterOf c) [(s.ctx c).tcb]).tcbWord (clusterOf c) (s.ctx c).tcb 0xC58).getLsbD 62 = false) :
    ∃ t b, exec (.tileBinding c) s = .next t ∧ t.ctx c = { s.ctx c with life := .running } ∧ (t.binding e b).tcb = (s.ctx c).tcb ∧
      (t.binding e b).acc = (((s.readHeaders (clusterOf c) [(s.ctx c).tcb]).engine e).freeTiles true).take 4 ∧
      (t.binding e b).opd = (((s.readHeaders (clusterOf c) [(s.ctx c).tcb]).engine e).freeTiles false).take 8 ∧
      (∀ n i, accRow (t.accTile e b n) i = 0) ∧ ∀ n i, (t.opTile e b n).row i = 0 ∧ (t.opTile e b n).scaleRow i = 0 := by
  obtain ⟨h4, h8⟩ := freeTiles_readHeaders hf (clusterOf c) [(s.ctx c).tcb]
  have hu : Apart s (s.readHeaders (clusterOf c) [(s.ctx c).tcb]) := keep_readHeaders (plain_apart s) (Apart.refl s)
  have hx := hu.user c hc
  have he : exec (.tileBinding c) s = .next (s.tileBinding c) := rfl
  rw [he, tileBinding_eq hl ht hh hr hf hs]
  generalize s.readHeaders (clusterOf c) [(s.ctx c).tcb] = u at h4 h8 hx ⊢
  obtain ⟨t, b, ht', hctx, hb, ha, ho⟩ := bound_runs hc (by rw [hx]; exact hpf) (by rw [hx]; exact hps) (s.ctx c).tcb h4 h8
  rw [hx] at hctx
  rw [ht']
  refine ⟨t, b, rfl, hctx, by rw [hb, Engine.newBinding], by rw [hb, Engine.newBinding], by rw [hb, Engine.newBinding], fun n i => ?_, fun n i => ?_⟩
  · rw [ha]
    rfl
  · rw [ho]
    exact ⟨rfl, rfl⟩

theorem userCtxs_lookOver (s : State) (cl : Nat) : (s.lookOver cl).userCtxs cl = s.userCtxs cl := by
  have hf := (apart_lookOver s cl).fuses
  generalize s.lookOver cl = v at hf
  have hc : v.hasCore = s.hasCore := by
    funext k
    unfold State.hasCore State.hasCluster State.fusesOf
    rw [hf]
  unfold State.userCtxs State.coresOf
  rw [hc]

theorem pull_busy {cl : Nat} (hi : s.idle cl = false) : exec (.pull cl) s = .next s := by
  show Host.Outcome.next (s.pull cl) = _
  unfold State.pull
  rw [hi, Bool.not_false, if_pos rfl]

theorem tileBinding_other {c : Nat} (hl : (s.ctx c).life ≠ .parked .tilebind) : exec (.tileBinding c) s = .next s := by
  show Host.Outcome.next (s.tileBinding c) = _
  unfold State.tileBinding
  rw [if_pos (.inl hl)]

theorem exitedWrite_none {tcb : Nat} (hz : ∀ z ∈ s.exiting, z.tcb ≠ tcb) : exec (.exitedWrite tcb) s = .next s := by
  show Host.Outcome.next (s.exitedWrite tcb) = _
  unfold State.exitedWrite
  rw [List.find?_eq_none.2 fun z hm => by simpa using hz z hm]

/-- Settles O47: a dispatcher that no tenant makes demote decides on what it has read; what it then reads and writes leaves queues
and contexts alone but for the thread that it moves, and no tile is taken meanwhile. -/
theorem dispatchersPlaceAndPreempt : Obligations.DispatchersPlaceAndPreempt := by
  unfold Obligations.DispatchersPlaceAndPreempt
  refine ⟨fun s cl h => ?_, fun s c e tcb => ?_⟩
  · have hv := apart_lookOver s cl
    refine ⟨⟨fun q => SchedKept.queue (fun n => (hv.cluster n).sched) cl q, fun c hc => hv.user c hc⟩, fun hn => ⟨?_, ?_⟩, fun hn => ?_,
      fun q tcb hc => ?_, preemption_idle h, fun u x hp hg hx => ?_, pull_busy, fun d q tcb p hi hp hg hq => pull_moves hi hp hg hq⟩
    · exact placement_idle h (choose_none fun q hq u hu => .inl (hn q hq u hu))
    · exact preemption_idle h (preempting_none hn)
    · exact placement_idle h (choose_none fun q hq u hu => .inr fun hf => hn q hq u hu ((fits_iff ..).1 hf))
    · obtain ⟨hq, hm, he, hf, hh⟩ := choose_some (within_lookOver h cl) hc
      exact ⟨hq, hm, he, (fits_iff ..).1 hf, fun p hqp hp u hu => (hh p hqp hp u hu).imp_right fun hn hfu => hn ((fits_iff ..).2 hfu),
        fun hg x xs hv => placement_restores h hc hg hv⟩
    · have hxu := victimFor_mem hx
      exact ⟨userCtxs_lookOver s cl ▸ hxu, fun hgx => ⟨_, preemption_frees h hp hg hx, preempt_single hxu hgx⟩⟩
  · refine ⟨tileBinding_other, tileBinding_binds, exitedWrite_none, fun zs hz => ⟨?_, ?_, fun hd hk => exitedWrite_writes hz ((drained_iff ..).2 ⟨hk, hd⟩)⟩⟩
    · rintro ⟨d, hd, w, hw, hwt⟩
      refine exitedWrite_waits hz (Bool.eq_false_iff.2 fun hdr => ?_)
      exact ((drained_iff ..).1 hdr).2 d hd w hw hwt
    · rintro ⟨k, hk, w, hw, hwt⟩
      refine exitedWrite_waits hz (Bool.eq_false_iff.2 fun hdr => ?_)
      exact ((drained_iff ..).1 hdr).1 k hk w hw hwt

end Sys2Proof.Machine
end
